-- ==== Sys2Proof/Word.lean ====
section
/-! DEFINITION. The word types of the machine and their plainest arithmetic (spec 00 R2, R5; spec 11 R262).
Addresses are `BitVec` while they are computed and `Nat` as keys of memory. -/
namespace Sys2Proof

/-- A 64-bit word: an x register, a scratchpad word, a control register. -/
abbrev Word := BitVec 64
/-- A byte of memory. -/
abbrev Byte := BitVec 8
/-- A vector register of 2,048 bits (spec 11 R275). -/
abbrev VecWord := BitVec 2048
/-- A mask register of 256 bits, one bit per byte lane (spec 11 R275). -/
abbrev MaskWord := BitVec 256

end Sys2Proof
end

