-- ==== Sys2Proof/Syntax.lean ====
section
/-! DEFINITION. The instructions: operand kinds as closed types, and the one inductive `Instr` with a constructor per row of
the opcode table (spec 11 R260 to R274 for the encoded ones; the rule of each row stands in its docstring). -/
namespace Sys2Proof

/-- An x register number (R263). -/
abbrev Reg := BitVec 5
/-- A v register number. -/
abbrev VReg := BitVec 5
/-- A mask register number m0 to m7. -/
abbrev MReg := BitVec 3
/-- A predicate number p0 to p7. -/
abbrev Pred := BitVec 3
/-- A modulus pair qmj, qcj. -/
abbrev QReg := BitVec 2
/-- An accumulator acc0 to acc3. -/
abbrev AccReg := BitVec 2

/-- Scalar floating-point precision (R267, R300). -/
inductive Prec where | s | d | h
deriving DecidableEq, Repr
/-- Operand types of `fcvt` (R267, R303). -/
inductive CvtType where | s | d | h | w | wu | l | lu
deriving DecidableEq, Repr
/-- Widths of `sext` and `zext` (R296). -/
inductive ExtWidth where | b8 | b16 | b32
deriving DecidableEq, Repr
/-- Scopes: group, dale, device, system (R185). -/
inductive Scope where | g | d | v | s
deriving DecidableEq, Repr
/-- Widths of atomics and reductions: 32 or 64 bits (R269). -/
inductive AtomWidth where | w | d
deriving DecidableEq, Repr
/-- Operations of `red` (R319). -/
inductive RedOp where | add | min | max | and | or | xor
deriving DecidableEq, Repr
/-- Operations of `ramo` (R320), and of the atomics with return other than `cas` (R316). -/
inductive AmoOp where | add | and | or | xor | min | max | minu | maxu | swap
deriving DecidableEq, Repr
/-- Vector element widths 8, 16, 32, 64 (R271). -/
inductive Width where | i8 | i16 | i32 | i64
deriving DecidableEq, Repr
/-- Widths of `vpack` and `vunpack` (R271). -/
inductive PackWidth where | i8 | i16 | i32
deriving DecidableEq, Repr
/-- Vector floating-point formats (R271). -/
inductive FFmt where | f32 | f16 | bf16
deriving DecidableEq, Repr
/-- Lane width of the modular instructions (R271). -/
inductive Lane where | m32 | m64
deriving DecidableEq, Repr
/-- Directions of the torus (R23, R273). -/
inductive Dir where | e | s | w | n
deriving DecidableEq, Repr
/-- Element sizes of `tgather` in bytes (R272). -/
inductive GatherSize where | b8 | b16 | b64 | b128
deriving DecidableEq, Repr

/-- The four planes of the fabric (R25). -/
inductive Plane where | response | event | request | bulk
deriving DecidableEq, Repr
/-- What a receiving router finds wrong with a flit (R26, R39): the bits of the 64-bit header that arrive changed, those of the payload
with its CRC-16 on top, or nothing: the flit is accepted and the handshake itself was corrupted. -/
inductive LinkError where
  | header (bits : BitVec 64)
  | payload (bits : BitVec 1040)
  | handshake
deriving DecidableEq, Repr
/-- Why a peer went down (R92 item 0x06). -/
inductive PeerReason where | none | linkLost | reset | powerDown | retriesExhausted
deriving DecidableEq, Repr
/-- What the controller finds when it reads a block (R66). -/
inductive EccOutcome where | clean | ce | ue | tm | both
deriving DecidableEq, Repr
/-- Commands forwarded to the other modules of a gang (R137). -/
inductive GangCmd where | preempt | resume | cancel
deriving DecidableEq, Repr

/-- One rail as a sample measures it, in µV and mA (R13). -/
structure RailReading where
  uv : Nat
  ma : Nat
deriving DecidableEq, Repr
/-- One sample of the rails and sensors every 10 µs (R13, R16): the outside's data. Powers in mW, temperatures in tenths of °C. -/
structure PowerSample where
  /-- by R92's rail number: VCORE 0 to 15, VSRAM 16 to 31, VIO 32 to 35, VPHY 36, VAUX 38; place 37 is not read -/
  rails   : List RailReading
  /-- VMEM, a set of rails: its power, and whether every one has the voltage that JESD209-6 requires (R12) -/
  vmemMw  : Nat
  vmemOk  : Bool
  /-- the 48 V input: mV and mW -/
  inputMv : Nat
  input   : Nat
  /-- the sensors of the 64 dales, the two of each cache die, and the two of each I/O die (R16) -/
  dales   : List Nat
  caches  : List Nat
  ios     : List Nat
deriving DecidableEq, Repr

/-- An entry of a gang member table as READY carries it (R55, R136). -/
structure GangEntry where
  member : Nat
  dev    : Nat
  pos    : Nat
  base   : Nat
  size   : Nat
  gen    : Nat
deriving DecidableEq, Repr

/-- A segment of a video packet: row, pixel offset and data (R96). -/
structure MediaSegment where
  row    : Nat
  offset : Nat
  data   : List Byte
deriving DecidableEq, Repr

/-- A media packet as a port accepts it, its RTP fields parsed (R93, R96). -/
structure MediaPacket where
  port     : Nat
  /-- an IPv6 frame; bytes of the Ethernet frame -/
  ipv6     : Bool
  size     : Nat
  group    : BitVec 32
  udp      : Nat
  source   : BitVec 32
  vlan     : Option Nat
  pt       : Nat
  /-- RTP sequence number, extended -/
  seq      : Nat
  /-- RTP timestamp -/
  rtpTs    : BitVec 32
  marker   : Bool
  /-- video: the segments that the row headers name; audio and ancillary: one segment with the payload -/
  segments : List MediaSegment
  /-- the packet could not be parsed as its stream's format -/
  malformed : Bool
deriving DecidableEq, Repr

/-- A mesh link's output port on one plane (R40). -/
structure LinkPort where
  dir   : Dir
  plane : Plane
deriving DecidableEq, Repr

/-- Bits of a stored block, and of its sideband, that differ from what the controller last wrote there (R65, R66). -/
structure Upset where
  data : BitVec 512
  side : BitVec 128
deriving DecidableEq, Repr

/-- What a sync message brings (R94): PTP time, and its offset as the port's receiver measures it before TIMEB follows PTP. -/
structure SyncTime where
  time   : Nat
  offset : Int
deriving DecidableEq, Repr

/-- A gang member that has departed, and whether a containment reset took it (R138). -/
structure Departure where
  member : Nat
  lost   : Bool
deriving DecidableEq, Repr

/-- Every instruction and every step of the device, one constructor per row of the opcode table: the 317 encoded
instructions of a core (spec 11 R266 to R274) and the 162 steps that a unit of the module takes (resets, packets,
firmware commands, timers). The operands of a step say which unit takes it and what the outside supplies. -/
inductive Instr where
  /-- R20. The 48 V input becomes good and a cold reset sequence begins at step 0. -/
  | powerGood
  /-- R19. A low pulse of at least 1 ms on MRSTN restarts a cold reset from step 0, including after a thermal or flow shutdown. -/
  | mrstnPulse
  /-- R16. The module flow sensor reports loss of coolant flow and every rail except VAUX is switched off. -/
  | coolantFlowLoss
  /-- R20. A step of the reset sequence finishes and the next step begins; after step 8 normal service begins and DEVSTAT.READY is set. -/
  | resetStepComplete
  /-- R21. A reset step overruns twice its time, so DEVSTAT.FAIL is set, the Bilaux Link is trained alone or MFAULTN is driven low. -/
  | resetStepOverrun (linkOk : Bool)
  /-- R79. A write of 1 to DEVCTL.WARM starts a warm reset with the ROM boot image and applied patch, from step 3. -/
  | devctlWarmWrite
  /-- R13. Every 10 µs the management core samples rails, input and temperature sensors and applies the step-down and fault rules. -/
  | powerSample (smp : PowerSample)
  /-- R13. After 1 ms below the release threshold, a basin, or all basins together, steps up one clock point as far as the other rules permit. -/
  | powerStepUp (basin : (Option Nat))
  /-- R16. After 1 ms below 95 °C, a basin steps back up one point toward the point it held before. -/
  | thermalStepUp (basin : Nat)
  /-- R14. The basin's up to 2 µs stop of issue for a point change ends, and held halt requests proceed. -/
  | clockPointChangeEnd (basin : Nat)
  /-- R94. A PTP sync message is timestamped and the offset is evaluated toward lock. -/
  | ptpSyncMessage (port : Nat) (domain : Nat) (time : SyncTime)
  /-- R94. After 2 s without a sync message, PTP loses lock. -/
  | ptpLockLoss (port : Nat)
  /-- R95. The timeout of MEDIA PTP passes without lock, and the command completes TIMEOUT. -/
  | ptpLockTimeout (q : Nat)
  /-- R32. A router's count of failed injections on a plane reaches 64, and it asserts STARVE on its incoming links. -/
  | starveAssert (pos : Nat) (plane : Plane)
  /-- R39. A receiver refuses a flit with a CRC error, and the sender resends it from its replay buffer. -/
  | linkReplay (pos : Nat) (dir : Dir) (plane : Plane) (err : LinkError)
  /-- R40. A flit has waited 1 µs for a handshake that does not complete, and the link is declared dead. -/
  | linkHandshakeTimeout (pos : Nat) (port : LinkPort)
  /-- R40. A link loses training and is declared dead. -/
  | linkTrainingLoss (pos : Nat) (dir : Dir)
  /-- R40. The management core receives LINK-DEAD, starts the reroute sequence and broadcasts INJ-PAUSE. -/
  | linkDead (k : Nat)
  /-- R40. The drain ends or 60 µs passes; replay buffers are read, tables are rewritten, FEPOCH is incremented, lost notices are sent and INJ-RESUME is broadcast. -/
  | rerouteDrainEnd (reported : Bool)
  /-- R40. A node stops injecting new request, event and bulk packets. -/
  | injPause (pos : Nat)
  /-- R40. A node resumes injecting after a reroute. -/
  | injResume (pos : Nat)
  /-- R40. A node receives a lost notice and retries the request; a core also writes a lost-packet record to stream 15. -/
  | lostNotice (k : Nat)
  /-- R183. A read request is performed at its home, a scratchpad bank or a slice bank with translation, and answered with data. -/
  | read (k : Nat)
  /-- R182. A write of up to 32 bytes is checked for duplicates, applied at its home in arrival order and acknowledged. -/
  | write (k : Nat)
  /-- R316. An atomic with return is performed once at its home, with a retained reply. -/
  | atomicWithReturn (k : Nat)
  /-- R193. A reduction without return is applied at its home and acknowledged. -/
  | reduction (k : Nat)
  /-- R160. A remote lwf, take or put is performed at the bank, or takes a wait-table entry and is answered WAITING or BUSY. -/
  | taggedOperation (k : Nat)
  /-- R200. An xst is written into the receiver's shadow half with its tag set and acknowledged. -/
  | exchangeStore (k : Nat)
  /-- R115. A tdec is applied at the dependence block's home bank, and it may fire the block. -/
  | dependenceDecrement (k : Nat)
  /-- R380. A tmsend command is key-checked, its descriptor read and checked, and it is queued, migrated or refused with a record. -/
  | matrixCommand (k : Nat)
  /-- R73. An atomic engine queues a ramo operation, performs it at the home and writes the KIND 0x22 record. -/
  | delegatedAtomic (k : Nat)
  /-- R27. A bulk read request is performed and answered with bulk read data. -/
  | bulkReadRequest (k : Nat)
  /-- R161. The target removes a remote wait entry, resends the retained grant reply, or answers STALE. -/
  | waitWithdrawal (k : Nat)
  /-- R174. An arriving event coalesces into an entry, takes a free entry, or is answered FULL and its source is listed. -/
  | event (k : Nat)
  /-- R390. A step-mode transfer lands in the neighbour's receive register for its direction and sets the full bit. -/
  | stepModeNeighbourTransfer (k : Nat)
  /-- R37. A reply fills the reserved slot and writes the pending register, or it is dropped and counted when no slot is reserved. -/
  | replyWithData (k : Nat)
  /-- R37. An acknowledgement without data releases a reserved slot and completes a store or other operation. -/
  | acknowledgement (k : Nat)
  /-- R175. An inbox space notice makes the producer's retry slot resend its event. -/
  | spaceNotice (k : Nat)
  /-- R28. A NACK with status FULL, BUSY, FENCED, NOCORE or STALE makes the requester hold, back off, or complete the access. -/
  | negativeAcknowledgement (k : Nat)
  /-- R34. A forwarded request is performed by the third node, which replies directly to the original requester. -/
  | forwardedRequest (k : Nat)
  /-- R34. A probe reaches the Bilaux Link agent about a line the host holds. -/
  | probe (k : Nat)
  /-- R34. A probe reply returns a forward credit to the forwarding node. -/
  | probeReply (k : Nat)
  /-- R217. The management core's debug access reads a core's register windows. -/
  | debugAccess (k : Nat)
  /-- R155. The origin of a refused nomad migration resumes the thread in its slot and issues the access remotely. -/
  | migrationRefusal (k : Nat)
  /-- R111. A bulk write of up to 128 bytes is performed at its home; into DQIN it is a remote push onto the deque. -/
  | bulkWrite (k : Nat)
  /-- R27. Bulk read data lands at the requester. -/
  | bulkReadData (k : Nat)
  /-- R155. A migrating nomad context is accepted into a free slot and acknowledged, or it is refused. -/
  | threadContext (k : Nat)
  /-- R36. No answer arrives within 50 µs, or 2 ms for a peer, so the packet is retried; after three retries it completes as lost. -/
  | retryTimeout (i : Nat)
  /-- R28. The backoff after BUSY expires and the request is resent with doubled delay. -/
  | busyBackoffExpiry (i : Nat)
  /-- R38. Every 1 ms a waiting remote tagged operation is resent with RETRY set. -/
  | waitResend (i : Nat)
  /-- R71. A peer's reset or power-down notice makes the peer DOWN, and outstanding accesses are answered peer unreachable. -/
  | peerNotice (dev : Nat) (reason : PeerReason)
  /-- R71. Firmware rewrites a peer's window entries, which returns that peer to LIVE. -/
  | peerWindowWrite (i : Nat) (value : (BitVec 128))
  /-- R112. A victim's network interface returns its bottom non-check record, or an empty reply. -/
  | stealReq (k : Nat)
  /-- R112. A thief pushes a received record onto its deque, or it counts an empty round. -/
  | stealReply (k : Nat)
  /-- R62. A core drops the revoked lease from its lease-check cache and acknowledges once prior accesses are answered. -/
  | shoot (k : Nat)
  /-- R62. On the combined acknowledgement, the management core clears PIN, writes XINV and completes UNLEASE. -/
  | shootAck (k : Nat)
  /-- R221. A receiving core stops every group of the same launch, sets TRIG 6 and answers STOP-ACK. -/
  | stop (k : Nat)
  /-- R221. Combined STOP-ACKs carry skid sums and group counts up the tree to complete the stop. -/
  | stopAck (k : Nat)
  /-- R44. A control-network write of a 64-bit value lands in a router or core register. -/
  | ctrlWrite (k : Nat)
  /-- R44. A control-network read of a register is answered with CTRL-DATA. -/
  | ctrlRead (k : Nat)
  /-- R44. The value of a control-network read arrives. -/
  | ctrlData (k : Nat)
  /-- R48. A router latches its link counters for the snapshot. -/
  | gridLatch (pos : Nat)
  /-- R48. At each TIMEB multiple of 10,000 the management core broadcasts GRID-LATCH and writes the snapshot, abandoning an unfinished one. -/
  | counterGridTimer
  /-- R46. All arrivals are present, so the release reaches every position and clears the arrivals. -/
  | barrierTreeRelease
  /-- R68. A write to XINV starts every slice dropping cached translations of the named range. -/
  | xinvWrite (value : Word)
  /-- R58. Every slice has dropped the named translations and XINV.DONE reads 1. -/
  | xinvDropComplete
  /-- R67. The patrol scrubber reads a block within its period, applies the read outcomes, and logs CE, UE, TM or BOTH events. -/
  | patrolScrub (block : Nat) (carveOut : Bool) (upset : Upset)
  /-- R82. Firmware sees a new WP or CRP in a device-memory submit line, checks it and reads entries or halts the queue. -/
  | submitLineUpdate (q : Nat)
  /-- R82. Every 1 µs firmware reads each enabled host-memory submit line uncached and processes new pointers. -/
  | submitLinePoll
  /-- R79. Setting AQCTL.EN starts or resumes queue 0 with RP := WP, or halts it with ERR 3 for an invalid field. -/
  | aqctlEnSet
  /-- R79. Clearing AQCTL.EN stops service of queue 0 once begun commands have completed. -/
  | aqctlEnClear
  /-- R81. An expert write of a queue descriptor's QCTL enables or disables service of queues 1 to 63 and sets their priority. -/
  | qctlWrite (q : Nat) (value : Word)
  /-- R89. The command completes OK. -/
  | nop (q : Nat)
  /-- R89. Validates the launch record and image, pins leases, distributes initial tasks and starts or queues the groups. -/
  | launch (q : Nat)
  /-- R89. Halts and discards every group, then completes the LAUNCH CANCELLED and itself OK. -/
  | cancel (q : Nat)
  /-- R119. Halts every core of the launch and starts its save into a save image. -/
  | preempt (q : Nat)
  /-- R120. Restores a pre-empted launch to its positions once its rectangle is free. -/
  | resume (q : Nat)
  /-- R89. Pins a new lease and adds it to a live launch. -/
  | lease (q : Nat)
  /-- R62. Revokes one lease by SHOOT on the launch's rectangle tree. -/
  | unlease (q : Nat)
  /-- R89. A copy engine transfers bytes between memory-space or host ranges. -/
  | copy (q : Nat)
  /-- R89. A copy engine fills a range with a repeated 64-bit pattern. -/
  | fillCommand (q : Nat)
  /-- R89. After earlier commands complete, performs a device-scope 64-bit write at the address's home. -/
  | signalWrite (q : Nat)
  /-- R89. After earlier commands complete, performs a device-scope 64-bit add at the address's home. -/
  | signalAdd (q : Nat)
  /-- R89. Holds later commands of the queue until a 64-bit word satisfies a comparison. -/
  | wait (q : Nat)
  /-- R89. The WAIT timeout passes and the command completes TIMEOUT. -/
  | waitTimeout (q : Nat)
  /-- R92. QUERY item 0x01 writes N, the fuse and quarantine bitmaps and the logical map. -/
  | queryDevice (q : Nat)
  /-- R92. QUERY item 0x02 get writes each basin's point, cap, power and temperature. -/
  | queryClockPoints (q : Nat)
  /-- R92. QUERY item 0x02 set sets or clears an expert clock-point cap per basin. -/
  | querySetCaps (q : Nat)
  /-- R92. QUERY item 0x03 get writes the counter-grid registers. -/
  | queryCounterGrid (q : Nat)
  /-- R49. QUERY item 0x03 set sets the ring base, slot count and EN at the next latch. -/
  | querySetCounterGrid (q : Nat)
  /-- R92. QUERY item 0x04 get writes the scrub registers and per-class counts. -/
  | queryScrub (q : Nat)
  /-- R68. QUERY item 0x04 set sets the scrub period, log ring and EN. -/
  | querySetScrub (q : Nat)
  /-- R92. QUERY item 0x05 get writes a queue's descriptor, QSTAT, RP and CWP. -/
  | queryQueue (q : Nat)
  /-- R92. QUERY item 0x05 action 0 defines queue q from a descriptor image. -/
  | queryQueueDefine (q : Nat)
  /-- R92. QUERY item 0x05 action 1 deletes queue q once its begun commands complete. -/
  | queryQueueDelete (q : Nat)
  /-- R82. QUERY item 0x05 action 2 sets RP := WP, discarding unread entries, and resumes the queue. -/
  | queryQueueRestart (q : Nat)
  /-- R92. QUERY item 0x06 writes each peer's LIVE or DOWN state and the last reason. -/
  | queryPeers (q : Nat)
  /-- R92. QUERY item 0x07 writes the 16-byte boot challenge. -/
  | queryBootChallenge (q : Nat)
  /-- R92. QUERY item 0x08 get writes the last rail, thermal or flow fault class. -/
  | queryFault (q : Nat)
  /-- R92. QUERY item 0x08 set clears the kept fault class. -/
  | queryClearFault (q : Nat)
  /-- R92. QUERY item 0x09 writes the device-control ranges open to CTL leases. -/
  | queryCtlRanges (q : Nat)
  /-- R92. QUERY item 0x0A writes the 16 containment rectangles. -/
  | queryRectangles (q : Nat)
  /-- R98. QUERY item 0x0B writes the eight counters of a media stream. -/
  | queryMediaStats (q : Nat)
  /-- R89. Defines a containment rectangle with policy and clock cap and clears its counters. -/
  | rectDefine (q : Nat)
  /-- R89. Deletes a containment rectangle other than rectangle 0. -/
  | rectDelete (q : Nat)
  /-- R106. Moves a range of cores to a new role as their groups finish. -/
  | recast (q : Nat)
  /-- R106. A recasting core's groups have ended, so it sends its records on, invalidates its instruction cache and takes the new role. -/
  | recastCoreDrained (pos : Nat)
  /-- R95. Opens a media stream from its descriptor. -/
  | mediaOpen (q : Nat)
  /-- R95. Closes open frames as at a deadline, sends their records and closes the stream. -/
  | mediaClose (q : Nat)
  /-- R98. Writes a stream's eight statistics counters to a buffer. -/
  | mediaStats (q : Nat)
  /-- R95. Chooses the port and PTP domain that discipline TIMEB and waits for lock. -/
  | mediaPtp (q : Nat)
  /-- R100. Verifies a debug token in order and opens its features. -/
  | debugToken (q : Nat)
  /-- R221. Stops the named group or groups on a core as a trigger and broadcasts STOP. -/
  | debugStop (q : Nat)
  /-- R223. Resumes the named stopped groups and those stopped by the same triggers. -/
  | debugGo (q : Nat)
  /-- R223. Resumes one stopped group with SS = 1 for one instruction per thread. -/
  | debugStep (q : Nat)
  /-- R223. Every thread has retired one instruction, or 64 clocks have passed, so the group stops again and STEP completes. -/
  | debugStepEnd (pos : Nat) (gslot : Nat)
  /-- R216. Drains a stopped group's accesses and writes its dump to the buffer. -/
  | debugDump (q : Nat)
  /-- R99. Writes the signed attestation report with the nonce. -/
  | attest (q : Nat)
  /-- R89. RESET SUB 0 performs a warm reset. -/
  | resetWarm (q : Nat)
  /-- R89. RESET SUB 1 performs a warm reset with a host-supplied boot image. -/
  | resetWithImage (q : Nat)
  /-- R80. RESET SUB 2 verifies a patch and performs a warm reset with it, or completes SIG and leaves the module running. -/
  | resetWithPatch (q : Nat)
  /-- R113. Every 10 µs firmware sweeps the rectangle tree, and two matching idle sweeps end the launch and complete LAUNCH. -/
  | launchEndSweep
  /-- R121. A waiting launch's rectangle becomes free, or images of lower-priority launches become final, and it is placed and started. -/
  | waitingLaunchStart (lid : Nat)
  /-- R121. Firmware resumes a priority-evicted launch when its rectangle is free. -/
  | evictedLaunchResume (lid : Nat)
  /-- R119. All accesses, engines and records of the launch are settled, the image is final and PREEMPT completes. -/
  | saveImageFinal (lid : Nat)
  /-- R118. A write of PREQ.HALT halts every thread of the core at an instruction boundary within 200 clocks. -/
  | haltRequest (pos : Nat)
  /-- R109. The conditions hold, so the core starts the top deque record as a group with its initial state, or discards a bad record. -/
  | groupStart (pos : Nat)
  /-- R111. The local part holds 8 records or fewer, so the top spilled records are moved beneath the local records. -/
  | dequeRefill (pos : Nat)
  /-- R112. An idle core becomes a thief and sends STEAL-REQ to victims in dale, basin, then LFSR order. -/
  | stealRound (pos : Nat)
  /-- R112. The wait after an empty steal round expires and a new round begins. -/
  | stealBackoffExpiry (pos : Nat)
  /-- R131. At the round's 2 µs point every leaf latches its contribution and switches colour, and the root reduces L, MS, S and V. -/
  | watershedRound
  /-- R131. Every 100 ns while S differs from V the tree reduces S and V again, and publishes GVT when they match. -/
  | watershedRereduce
  /-- R131. S has differed from V for 100 µs, so GVT is published anyway and WSSTAT.FORCED is set. -/
  | watershedForced
  /-- R136. The coordinator receives a part's READY with its members' entries. -/
  | gangReady (gang : Nat) (gbase : Nat) (gtotal : Nat) (entries : (List GangEntry))
  /-- R136. A module receives the full member set, writes its gang member table and acknowledges. -/
  | gangEntries (gang : Nat) (entries : (List GangEntry))
  /-- R136. The coordinator collects acknowledgements, and when all have arrived sends GO. -/
  | gangEntriesAck (gang : Nat) (dev : Nat)
  /-- R136. A module starts its gang members within 20 µs. -/
  | gangGo (gang : Nat)
  /-- R136. Placement does not complete within 1 s, and each part completes PEER. -/
  | gangPlacementTimeout (gang : Nat)
  /-- R137. A module receives a PREEMPT, RESUME or CANCEL forwarded for its gang part. -/
  | gangForwardedCommand (gang : Nat) (cmd : GangCmd)
  /-- R138. A module marks member m departed in its map and releases held exits when all have departed. -/
  | detach (gang : Nat) (member : Departure)
  /-- R143. A check run ends; the digests are compared, and the check closes, starts a third run, or changes suspicion scores. -/
  | checkClose (i : Nat)
  /-- R147. The management core fences the rectangle, resets its cores, lifts the fence and ends its launches LOST. -/
  | containmentReport (k : Nat)
  /-- R96. An arriving media packet is assigned to a frame, opening or closing frames, and its data is placed in the buffer. -/
  | mediaPacket (pkt : MediaPacket)
  /-- R96. TIMEB reaches a frame's nominal start plus DEADLINE and the frame closes. -/
  | frameDeadline (stream : Nat) (fidx : Nat)
  /-- R96. The stream's stall timer runs out with a frame open, so every open frame is flagged STALLED. -/
  | stallTimerExpiry (stream : Nat)
  /-- R175. A 1 µs reservation of a freed inbox entry lapses and passes to the next listed source. -/
  | inboxReservationLapse (pos : Nat)
  /-- R175. A source refused while the refusal list was full retries its event after 1 µs. -/
  | refusalRetryExpiry (node : Nat) (i : Nat)
  /-- R180. A write to INBCTL is ignored if invalid, and is otherwise held until USED reaches zero. -/
  | inbctlWrite (pos : Nat) (value : Word)
  /-- R180. USED reaches zero and a held INBCTL write takes effect. -/
  | inbctlApply (pos : Nat)
  /-- R164. A write of 1 to L1CTL.INV invalidates every L1 line within 64 clocks. -/
  | l1ctlInv (pos : Nat)
  /-- R194. A dale reduction unit entry reaches 100 µs of age and is flushed to its home. -/
  | daleEntryAgeFlush (dale : Nat) (i : Nat)
  /-- R219. A thread retires nothing for WDCTL.LIMIT µs and takes watchdog trap 0x13, after withdrawing a remote wait. -/
  | watchdogExpiry (pos : Nat) (slot : Nat)
  /-- R219. A write of WDCTL sets the limit and restarts every thread's watchdog count. -/
  | wdctlWrite (pos : Nat) (value : Word)
  /-- R225. A write of TRCCTL sets trace controls, and EN = 1 emits TSFULL when TRACE is open. -/
  | trcctlWrite (pos : Nat) (value : Word)
  /-- R396. 10 µs of TIMEB pass and a sleeping wfe completes. -/
  | wfeTimeout (pos : Nat) (slot : Nat)
  /-- R6. A write to a register with no row of its own stores RW fields, clears W1C bits, or is ignored. -/
  | registerWrite (ia : Nat) (value : Word)
  /-- R296. X(rd) := X(rs1) + X(rs2). -/
  | add (d : Reg) (a : Reg) (b : Reg)
  /-- R296. X(rd) := X(rs1) − X(rs2). -/
  | sub (d : Reg) (a : Reg) (b : Reg)
  /-- R296. Bitwise and. -/
  | and (d : Reg) (a : Reg) (b : Reg)
  /-- R296. Bitwise or. -/
  | or (d : Reg) (a : Reg) (b : Reg)
  /-- R296. Bitwise exclusive or. -/
  | xor (d : Reg) (a : Reg) (b : Reg)
  /-- R296. a and not b. -/
  | andn (d : Reg) (a : Reg) (b : Reg)
  /-- R296. a or not b. -/
  | orn (d : Reg) (a : Reg) (b : Reg)
  /-- R296. Shift left by b[5:0]. -/
  | sll (d : Reg) (a : Reg) (b : Reg)
  /-- R296. Logical shift right by b[5:0]. -/
  | srl (d : Reg) (a : Reg) (b : Reg)
  /-- R296. Arithmetic shift right by b[5:0]. -/
  | sra (d : Reg) (a : Reg) (b : Reg)
  /-- R296. Rotate left by b[5:0]. -/
  | rol (d : Reg) (a : Reg) (b : Reg)
  /-- R296. Rotate right by b[5:0]. -/
  | ror (d : Reg) (a : Reg) (b : Reg)
  /-- R296. 1 if a < b signed, else 0. -/
  | slt (d : Reg) (a : Reg) (b : Reg)
  /-- R296. 1 if a < b unsigned, else 0. -/
  | sltu (d : Reg) (a : Reg) (b : Reg)
  /-- R296. Signed minimum. -/
  | min (d : Reg) (a : Reg) (b : Reg)
  /-- R296. Signed maximum. -/
  | max (d : Reg) (a : Reg) (b : Reg)
  /-- R296. Unsigned minimum. -/
  | minu (d : Reg) (a : Reg) (b : Reg)
  /-- R296. Unsigned maximum. -/
  | maxu (d : Reg) (a : Reg) (b : Reg)
  /-- R296. Low 64 bits of the product. -/
  | mul (d : Reg) (a : Reg) (b : Reg)
  /-- R296. High 64 bits of the signed product. -/
  | mulh (d : Reg) (a : Reg) (b : Reg)
  /-- R296. High 64 bits of the unsigned product. -/
  | mulhu (d : Reg) (a : Reg) (b : Reg)
  /-- R296. High 64 bits of the signed-by-unsigned product. -/
  | mulhsu (d : Reg) (a : Reg) (b : Reg)
  /-- R296. Signed quotient under idiv. -/
  | div (d : Reg) (a : Reg) (b : Reg)
  /-- R296. Unsigned quotient under idiv. -/
  | divu (d : Reg) (a : Reg) (b : Reg)
  /-- R296. Signed remainder under idiv. -/
  | rem (d : Reg) (a : Reg) (b : Reg)
  /-- R296. Unsigned remainder under idiv. -/
  | remu (d : Reg) (a : Reg) (b : Reg)
  /-- R296. Count of leading zeros. -/
  | clz (d : Reg) (a : Reg)
  /-- R296. Count of trailing zeros. -/
  | ctz (d : Reg) (a : Reg)
  /-- R296. Count of set bits. -/
  | popc (d : Reg) (a : Reg)
  /-- R296. Sign-extend from 8, 16 or 32 bits by width code. -/
  | sext (d : Reg) (a : Reg) (w : ExtWidth)
  /-- R296. Zero-extend from 8, 16 or 32 bits by width code. -/
  | zext (d : Reg) (a : Reg) (w : ExtWidth)
  /-- R297. 32-bit add, sign-extended. -/
  | addW (d : Reg) (a : Reg) (b : Reg)
  /-- R297. 32-bit subtract, sign-extended. -/
  | subW (d : Reg) (a : Reg) (b : Reg)
  /-- R297. 32-bit shift left. -/
  | sllW (d : Reg) (a : Reg) (b : Reg)
  /-- R297. 32-bit logical shift right. -/
  | srlW (d : Reg) (a : Reg) (b : Reg)
  /-- R297. 32-bit arithmetic shift right. -/
  | sraW (d : Reg) (a : Reg) (b : Reg)
  /-- R297. 32-bit rotate left. -/
  | rolW (d : Reg) (a : Reg) (b : Reg)
  /-- R297. 32-bit rotate right. -/
  | rorW (d : Reg) (a : Reg) (b : Reg)
  /-- R297. 32-bit multiply, sign-extended. -/
  | mulW (d : Reg) (a : Reg) (b : Reg)
  /-- R297. 32-bit signed quotient. -/
  | divW (d : Reg) (a : Reg) (b : Reg)
  /-- R297. 32-bit unsigned quotient. -/
  | divuW (d : Reg) (a : Reg) (b : Reg)
  /-- R297. 32-bit signed remainder. -/
  | remW (d : Reg) (a : Reg) (b : Reg)
  /-- R297. 32-bit unsigned remainder. -/
  | remuW (d : Reg) (a : Reg) (b : Reg)
  /-- R297. Leading zeros of the low 32 bits. -/
  | clzW (d : Reg) (a : Reg)
  /-- R297. Trailing zeros of the low 32 bits. -/
  | ctzW (d : Reg) (a : Reg)
  /-- R297. Set bits of the low 32 bits. -/
  | popcW (d : Reg) (a : Reg)
  /-- R298. X(rd) := X(rs1) + imm. -/
  | addi (d : Reg) (a : Reg) (i : BitVec 12)
  /-- R298. And with an immediate. -/
  | andi (d : Reg) (a : Reg) (i : BitVec 12)
  /-- R298. Or with an immediate. -/
  | ori (d : Reg) (a : Reg) (i : BitVec 12)
  /-- R298. Exclusive or with an immediate. -/
  | xori (d : Reg) (a : Reg) (i : BitVec 12)
  /-- R298. Signed set-less-than with an immediate. -/
  | slti (d : Reg) (a : Reg) (i : BitVec 12)
  /-- R298. Unsigned set-less-than with an immediate. -/
  | sltiu (d : Reg) (a : Reg) (i : BitVec 12)
  /-- R298. Shift left by an immediate amount of 0 to 63. -/
  | slli (d : Reg) (a : Reg) (h : BitVec 6)
  /-- R298. Logical shift right by an immediate amount. -/
  | srli (d : Reg) (a : Reg) (h : BitVec 6)
  /-- R298. Arithmetic shift right by an immediate amount. -/
  | srai (d : Reg) (a : Reg) (h : BitVec 6)
  /-- R298. 32-bit add of an immediate, sign-extended. -/
  | addiW (d : Reg) (a : Reg) (i : BitVec 12)
  /-- R298. 32-bit shift left by an immediate. -/
  | slliW (d : Reg) (a : Reg) (h : BitVec 5)
  /-- R298. 32-bit logical shift right by an immediate. -/
  | srliW (d : Reg) (a : Reg) (h : BitVec 5)
  /-- R298. 32-bit arithmetic shift right by an immediate. -/
  | sraiW (d : Reg) (a : Reg) (h : BitVec 5)
  /-- R299. X(rd) := sext(imm20 << 12, 32). -/
  | lui (d : Reg) (i : BitVec 20)
  /-- R299. X(rd) := pc + sext(imm20 << 12, 32). -/
  | auipc (d : Reg) (i : BitVec 20)
  /-- R301. Rounded floating-point add. -/
  | fadd (p : Prec) (d : Reg) (a : Reg) (b : Reg)
  /-- R301. Rounded floating-point subtract. -/
  | fsub (p : Prec) (d : Reg) (a : Reg) (b : Reg)
  /-- R301. Rounded floating-point multiply. -/
  | fmul (p : Prec) (d : Reg) (a : Reg) (b : Reg)
  /-- R301. Rounded floating-point divide. -/
  | fdiv (p : Prec) (d : Reg) (a : Reg) (b : Reg)
  /-- R301. Rounded square root. -/
  | fsqrt (p : Prec) (d : Reg) (a : Reg)
  /-- R301. Floating-point minimum under the NaN rules. -/
  | fmin (p : Prec) (d : Reg) (a : Reg) (b : Reg)
  /-- R301. Floating-point maximum under the NaN rules. -/
  | fmax (p : Prec) (d : Reg) (a : Reg) (b : Reg)
  /-- R301. Copies the sign of b onto a. -/
  | fsgn (p : Prec) (d : Reg) (a : Reg) (b : Reg)
  /-- R301. Copies the inverted sign of b onto a. -/
  | fsgnN (p : Prec) (d : Reg) (a : Reg) (b : Reg)
  /-- R301. Sets the sign of a to the xor of both signs. -/
  | fsgnX (p : Prec) (d : Reg) (a : Reg) (b : Reg)
  /-- R302. Predicate := a = b. -/
  | fcmpEq (p : Prec) (d : Pred) (a : Reg) (b : Reg)
  /-- R302. Predicate := a ≠ b. -/
  | fcmpNe (p : Prec) (d : Pred) (a : Reg) (b : Reg)
  /-- R302. Predicate := a < b. -/
  | fcmpLt (p : Prec) (d : Pred) (a : Reg) (b : Reg)
  /-- R302. Predicate := a ≤ b. -/
  | fcmpLe (p : Prec) (d : Pred) (a : Reg) (b : Reg)
  /-- R302. Writes a one-hot 10-bit class mask. -/
  | fclass (p : Prec) (d : Reg) (a : Reg)
  /-- R303. Converts between floating-point and integer types. -/
  | fcvt (t : CvtType) (s : CvtType) (d : Reg) (a : Reg)
  /-- R304. rnd(a·b + c) with one rounding. -/
  | fmadd (p : Prec) (d : Reg) (a : Reg) (b : Reg) (c : Reg)
  /-- R304. rnd(a·b − c) with one rounding. -/
  | fmsub (p : Prec) (d : Reg) (a : Reg) (b : Reg) (c : Reg)
  /-- R304. rnd(−(a·b + c)) with one rounding. -/
  | fnmadd (p : Prec) (d : Reg) (a : Reg) (b : Reg) (c : Reg)
  /-- R305. Predicate := X(rs1) = X(rs2). -/
  | pcmpEq (d : Pred) (a : Reg) (b : Reg)
  /-- R305. Predicate := not equal. -/
  | pcmpNe (d : Pred) (a : Reg) (b : Reg)
  /-- R305. Predicate := signed less than. -/
  | pcmpLt (d : Pred) (a : Reg) (b : Reg)
  /-- R305. Predicate := signed greater or equal. -/
  | pcmpGe (d : Pred) (a : Reg) (b : Reg)
  /-- R305. Predicate := unsigned less than. -/
  | pcmpLtu (d : Pred) (a : Reg) (b : Reg)
  /-- R305. Predicate := unsigned greater or equal. -/
  | pcmpGeu (d : Pred) (a : Reg) (b : Reg)
  /-- R306. Predicate and. -/
  | pand (d : Pred) (a : Pred) (b : Pred)
  /-- R306. Predicate or. -/
  | por (d : Pred) (a : Pred) (b : Pred)
  /-- R306. Predicate xor. -/
  | pxor (d : Pred) (a : Pred) (b : Pred)
  /-- R306. Predicate not. -/
  | pnot (d : Pred) (a : Pred)
  /-- R306. Copies one predicate to another. -/
  | pmov (d : Pred) (a : Pred)
  /-- R306. Packs p0 to p7 into an x register. -/
  | pmovPack (d : Reg)
  /-- R306. Unpacks bits 1 to 7 of an x register into p1 to p7. -/
  | pmovUnpack (a : Reg)
  /-- R307. Branches if equal. -/
  | beq (a : Reg) (b : Reg) (i : BitVec 12)
  /-- R307. Branches if not equal. -/
  | bne (a : Reg) (b : Reg) (i : BitVec 12)
  /-- R307. Branches if signed less than. -/
  | blt (a : Reg) (b : Reg) (i : BitVec 12)
  /-- R307. Branches if signed greater or equal. -/
  | bge (a : Reg) (b : Reg) (i : BitVec 12)
  /-- R307. Branches if unsigned less than. -/
  | bltu (a : Reg) (b : Reg) (i : BitVec 12)
  /-- R307. Branches if unsigned greater or equal. -/
  | bgeu (a : Reg) (b : Reg) (i : BitVec 12)
  /-- R307. Branches if the predicate is true. -/
  | bp (a : Pred) (i : BitVec 12)
  /-- R307. Branches if the predicate is false. -/
  | bnp (a : Pred) (i : BitVec 12)
  /-- R308. X(rd) := pc + 4; jumps pc-relative. -/
  | jal (d : Reg) (i : BitVec 20)
  /-- R308. X(rd) := pc + 4; jumps to X(rs1) + imm with bit 0 cleared. -/
  | jalr (d : Reg) (a : Reg) (i : BitVec 12)
  /-- R310. Loads a sign-extended byte. -/
  | lb (d : Reg) (a : Reg) (i : BitVec 12)
  /-- R310. Loads a sign-extended halfword. -/
  | lh (d : Reg) (a : Reg) (i : BitVec 12)
  /-- R310. Loads a sign-extended word. -/
  | lw (d : Reg) (a : Reg) (i : BitVec 12)
  /-- R310. Loads 8 bytes. -/
  | ld (d : Reg) (a : Reg) (i : BitVec 12)
  /-- R310. Loads a zero-extended byte. -/
  | lbu (d : Reg) (a : Reg) (i : BitVec 12)
  /-- R310. Loads a zero-extended halfword. -/
  | lhu (d : Reg) (a : Reg) (i : BitVec 12)
  /-- R310. Loads a zero-extended word. -/
  | lwu (d : Reg) (a : Reg) (i : BitVec 12)
  /-- R310. Byte load that bypasses the L1. -/
  | lbB (d : Reg) (a : Reg) (i : BitVec 12)
  /-- R310. Halfword load that bypasses the L1. -/
  | lhB (d : Reg) (a : Reg) (i : BitVec 12)
  /-- R310. Word load that bypasses the L1. -/
  | lwB (d : Reg) (a : Reg) (i : BitVec 12)
  /-- R310. Doubleword load that bypasses the L1. -/
  | ldB (d : Reg) (a : Reg) (i : BitVec 12)
  /-- R310. Unsigned byte load that bypasses the L1. -/
  | lbuB (d : Reg) (a : Reg) (i : BitVec 12)
  /-- R310. Unsigned halfword load that bypasses the L1. -/
  | lhuB (d : Reg) (a : Reg) (i : BitVec 12)
  /-- R310. Unsigned word load that bypasses the L1. -/
  | lwuB (d : Reg) (a : Reg) (i : BitVec 12)
  /-- R310. Byte load filling the L1 at the LRU position. -/
  | lbN (d : Reg) (a : Reg) (i : BitVec 12)
  /-- R310. Halfword load filling the L1 at the LRU position. -/
  | lhN (d : Reg) (a : Reg) (i : BitVec 12)
  /-- R310. Word load filling the L1 at the LRU position. -/
  | lwN (d : Reg) (a : Reg) (i : BitVec 12)
  /-- R310. Doubleword load filling the L1 at the LRU position. -/
  | ldN (d : Reg) (a : Reg) (i : BitVec 12)
  /-- R310. Unsigned byte load filling the L1 at the LRU position. -/
  | lbuN (d : Reg) (a : Reg) (i : BitVec 12)
  /-- R310. Unsigned halfword load filling the L1 at the LRU position. -/
  | lhuN (d : Reg) (a : Reg) (i : BitVec 12)
  /-- R310. Unsigned word load filling the L1 at the LRU position. -/
  | lwuN (d : Reg) (a : Reg) (i : BitVec 12)
  /-- R311. Stores 1 byte. -/
  | sb (a : Reg) (b : Reg) (i : BitVec 12)
  /-- R311. Stores 2 bytes. -/
  | sh (a : Reg) (b : Reg) (i : BitVec 12)
  /-- R311. Stores 4 bytes. -/
  | sw (a : Reg) (b : Reg) (i : BitVec 12)
  /-- R311. Stores 8 bytes. -/
  | sd (a : Reg) (b : Reg) (i : BitVec 12)
  /-- R311. Stores 1 byte, keeping the slice line at LRU. -/
  | sbN (a : Reg) (b : Reg) (i : BitVec 12)
  /-- R311. Stores 2 bytes, keeping the slice line at LRU. -/
  | shN (a : Reg) (b : Reg) (i : BitVec 12)
  /-- R311. Stores 4 bytes, keeping the slice line at LRU. -/
  | swN (a : Reg) (b : Reg) (i : BitVec 12)
  /-- R311. Stores 8 bytes, keeping the slice line at LRU. -/
  | sdN (a : Reg) (b : Reg) (i : BitVec 12)
  /-- R314. Waits for the word to be full and reads it; this is an acquire. -/
  | lwf (d : Reg) (a : Reg) (i : BitVec 12)
  /-- R314. Waits for the word to be full, reads it and sets it empty; this is an acquire. -/
  | take (d : Reg) (a : Reg) (i : BitVec 12)
  /-- R314. Predicate := the word's tag. -/
  | tagq (d : Pred) (a : Reg) (i : BitVec 12)
  /-- R314. Sets the word's tag empty. -/
  | empty (a : Reg) (i : BitVec 12)
  /-- R314. Waits for the word to be empty, writes it and sets it full; this is a release. -/
  | put (a : Reg) (b : Reg) (i : BitVec 12)
  /-- R314. Writes the word and sets it full without waiting; this is a release. -/
  | fill (a : Reg) (b : Reg) (i : BitVec 12)
  /-- R315. Stores a word into another core's exchange shadow half and sets its tag. -/
  | xst (a : Reg) (b : Reg) (i : BitVec 12)
  /-- R316. Atomic add with return of the old value. -/
  | amoadd (f : Scope) (w : AtomWidth) (d : Reg) (a : Reg) (b : Reg)
  /-- R316. Atomic and with return of the old value. -/
  | amoand (f : Scope) (w : AtomWidth) (d : Reg) (a : Reg) (b : Reg)
  /-- R316. Atomic or with return of the old value. -/
  | amoor (f : Scope) (w : AtomWidth) (d : Reg) (a : Reg) (b : Reg)
  /-- R316. Atomic xor with return of the old value. -/
  | amoxor (f : Scope) (w : AtomWidth) (d : Reg) (a : Reg) (b : Reg)
  /-- R316. Atomic signed minimum with return of the old value. -/
  | amomin (f : Scope) (w : AtomWidth) (d : Reg) (a : Reg) (b : Reg)
  /-- R316. Atomic signed maximum with return of the old value. -/
  | amomax (f : Scope) (w : AtomWidth) (d : Reg) (a : Reg) (b : Reg)
  /-- R316. Atomic unsigned minimum with return of the old value. -/
  | amominu (f : Scope) (w : AtomWidth) (d : Reg) (a : Reg) (b : Reg)
  /-- R316. Atomic unsigned maximum with return of the old value. -/
  | amomaxu (f : Scope) (w : AtomWidth) (d : Reg) (a : Reg) (b : Reg)
  /-- R316. Atomic swap with return of the old value. -/
  | amoswap (f : Scope) (w : AtomWidth) (d : Reg) (a : Reg) (b : Reg)
  /-- R316. Compare-and-swap against the old rd; returns the old value. -/
  | cas (f : Scope) (w : AtomWidth) (d : Reg) (a : Reg) (b : Reg)
  /-- R319. Reduction without return, applied at the site of its scope. -/
  | red (o : RedOp) (f : Scope) (w : AtomWidth) (a : Reg) (b : Reg)
  /-- R320. Sends a delegated atomic to an atomic engine; the result arrives as a stream-15 record. -/
  | ramo (o : AmoOp) (w : AtomWidth) (a : Reg) (b : Reg) (t : Reg)
  /-- R322. Waits for earlier accesses within reach, flushing the dale unit for .d and wider. -/
  | fence (f : Scope)
  /-- R323. Reads a sync object regardless of its tag as an acquire. -/
  | acq (d : Reg) (a : Reg) (i : BitVec 12)
  /-- R324. Drains the bound regions, then writes the sync object leaving its tag. -/
  | rel (a : Reg) (b : Reg) (i : BitVec 12)
  /-- R325. Adds a binding of a sync object to a 2^k-byte region. -/
  | bind (a : Reg) (b : Reg) (k : BitVec 7)
  /-- R325. Removes every binding of a sync object. -/
  | unbind (a : Reg)
  /-- R326. Joins the level-k barrier instance as release then acquire. -/
  | bar (l : BitVec 3)
  /-- R327. Group barrier that swaps the exchange halves when the last thread arrives. -/
  | barX
  /-- R328. Releases on a barrier object and decrements ARRIVALS, flipping the phase at zero. -/
  | arrive (a : Reg)
  /-- R328. Sleeps while PHASE equals p, then acquires. -/
  | waitph (a : Reg) (b : Reg)
  /-- R345. Lane add, or lg_mul under an lg32 prefix. -/
  | vadd (w : Width) (d : VReg) (a : VReg) (b : VReg) (m : MReg)
  /-- R345. Lane subtract, or lg_div under an lg32 prefix. -/
  | vsub (w : Width) (d : VReg) (a : VReg) (b : VReg) (m : MReg)
  /-- R345. Lane multiply, low half. -/
  | vmul (w : Width) (d : VReg) (a : VReg) (b : VReg) (m : MReg)
  /-- R345. Lane signed multiply, high half. -/
  | vmulh (w : Width) (d : VReg) (a : VReg) (b : VReg) (m : MReg)
  /-- R345. Lane signed minimum. -/
  | vmin (w : Width) (d : VReg) (a : VReg) (b : VReg) (m : MReg)
  /-- R345. Lane signed maximum. -/
  | vmax (w : Width) (d : VReg) (a : VReg) (b : VReg) (m : MReg)
  /-- R345. Lane unsigned minimum. -/
  | vminu (w : Width) (d : VReg) (a : VReg) (b : VReg) (m : MReg)
  /-- R345. Lane unsigned maximum. -/
  | vmaxu (w : Width) (d : VReg) (a : VReg) (b : VReg) (m : MReg)
  /-- R345. Lane shift left by an unreduced amount. -/
  | vsll (w : Width) (d : VReg) (a : VReg) (b : VReg) (m : MReg)
  /-- R345. Lane logical shift right. -/
  | vsrl (w : Width) (d : VReg) (a : VReg) (b : VReg) (m : MReg)
  /-- R345. Lane arithmetic shift right, or lg_shr under an lg32 prefix. -/
  | vsra (w : Width) (d : VReg) (a : VReg) (b : VReg) (m : MReg)
  /-- R345. Bitwise and. -/
  | vand (d : VReg) (a : VReg) (b : VReg) (m : MReg)
  /-- R345. Bitwise or. -/
  | vor (d : VReg) (a : VReg) (b : VReg) (m : MReg)
  /-- R345. Bitwise xor. -/
  | vxor (d : VReg) (a : VReg) (b : VReg) (m : MReg)
  /-- R345. Vector register move. -/
  | vmov (d : VReg) (a : VReg) (m : MReg)
  /-- R345. Lane add with a broadcast scalar. -/
  | vaddX (w : Width) (d : VReg) (a : VReg) (b : Reg) (m : MReg)
  /-- R345. Lane subtract with a broadcast scalar. -/
  | vsubX (w : Width) (d : VReg) (a : VReg) (b : Reg) (m : MReg)
  /-- R345. Lane multiply by a broadcast scalar, or lg_pow under an lg32 prefix. -/
  | vmulX (w : Width) (d : VReg) (a : VReg) (b : Reg) (m : MReg)
  /-- R345. Lane multiply-high by a broadcast scalar. -/
  | vmulhX (w : Width) (d : VReg) (a : VReg) (b : Reg) (m : MReg)
  /-- R345. Signed minimum with a broadcast scalar. -/
  | vminX (w : Width) (d : VReg) (a : VReg) (b : Reg) (m : MReg)
  /-- R345. Signed maximum with a broadcast scalar. -/
  | vmaxX (w : Width) (d : VReg) (a : VReg) (b : Reg) (m : MReg)
  /-- R345. Unsigned minimum with a broadcast scalar. -/
  | vminuX (w : Width) (d : VReg) (a : VReg) (b : Reg) (m : MReg)
  /-- R345. Unsigned maximum with a broadcast scalar. -/
  | vmaxuX (w : Width) (d : VReg) (a : VReg) (b : Reg) (m : MReg)
  /-- R345. Shift left by a broadcast scalar amount. -/
  | vsllX (w : Width) (d : VReg) (a : VReg) (b : Reg) (m : MReg)
  /-- R345. Logical shift right by a broadcast scalar amount. -/
  | vsrlX (w : Width) (d : VReg) (a : VReg) (b : Reg) (m : MReg)
  /-- R345. Arithmetic shift right by a broadcast scalar amount. -/
  | vsraX (w : Width) (d : VReg) (a : VReg) (b : Reg) (m : MReg)
  /-- R345. And with a broadcast scalar. -/
  | vandX (d : VReg) (a : VReg) (b : Reg) (m : MReg)
  /-- R345. Or with a broadcast scalar. -/
  | vorX (d : VReg) (a : VReg) (b : Reg) (m : MReg)
  /-- R345. Xor with a broadcast scalar. -/
  | vxorX (d : VReg) (a : VReg) (b : Reg) (m : MReg)
  /-- R348. Lane floating-point add. -/
  | vfadd (p : FFmt) (d : VReg) (a : VReg) (b : VReg) (m : MReg)
  /-- R348. Lane floating-point subtract. -/
  | vfsub (p : FFmt) (d : VReg) (a : VReg) (b : VReg) (m : MReg)
  /-- R348. Lane floating-point multiply. -/
  | vfmul (p : FFmt) (d : VReg) (a : VReg) (b : VReg) (m : MReg)
  /-- R348. Lane floating-point divide. -/
  | vfdiv (p : FFmt) (d : VReg) (a : VReg) (b : VReg) (m : MReg)
  /-- R348. Lane square root. -/
  | vfsqrt (p : FFmt) (d : VReg) (a : VReg) (m : MReg)
  /-- R348. Lane floating-point minimum. -/
  | vfmin (p : FFmt) (d : VReg) (a : VReg) (b : VReg) (m : MReg)
  /-- R348. Lane floating-point maximum. -/
  | vfmax (p : FFmt) (d : VReg) (a : VReg) (b : VReg) (m : MReg)
  /-- R348. Lane fused multiply-accumulate into vd. -/
  | vfmacc (p : FFmt) (d : VReg) (a : VReg) (b : VReg) (m : MReg)
  /-- R349. Per-fp32-element dot product under the dot-product rule. -/
  | vfdot (p : FFmt) (d : VReg) (a : VReg) (b : VReg) (m : MReg)
  /-- R348. Floating-point add of a broadcast scalar. -/
  | vfaddX (p : FFmt) (d : VReg) (a : VReg) (b : Reg) (m : MReg)
  /-- R348. Floating-point subtract of a broadcast scalar. -/
  | vfsubX (p : FFmt) (d : VReg) (a : VReg) (b : Reg) (m : MReg)
  /-- R348. Floating-point multiply by a broadcast scalar. -/
  | vfmulX (p : FFmt) (d : VReg) (a : VReg) (b : Reg) (m : MReg)
  /-- R348. Floating-point divide by a broadcast scalar. -/
  | vfdivX (p : FFmt) (d : VReg) (a : VReg) (b : Reg) (m : MReg)
  /-- R348. Floating-point minimum with a broadcast scalar. -/
  | vfminX (p : FFmt) (d : VReg) (a : VReg) (b : Reg) (m : MReg)
  /-- R348. Floating-point maximum with a broadcast scalar. -/
  | vfmaxX (p : FFmt) (d : VReg) (a : VReg) (b : Reg) (m : MReg)
  /-- R348. Fused multiply-accumulate with a broadcast scalar. -/
  | vfmaccX (p : FFmt) (d : VReg) (a : VReg) (b : Reg) (m : MReg)
  /-- R351. Integer equality compare into a mask. -/
  | vcmpEq (w : Width) (d : MReg) (a : VReg) (b : VReg) (m : MReg)
  /-- R351. Integer not-equal compare into a mask. -/
  | vcmpNe (w : Width) (d : MReg) (a : VReg) (b : VReg) (m : MReg)
  /-- R351. Signed less-than compare into a mask. -/
  | vcmpLt (w : Width) (d : MReg) (a : VReg) (b : VReg) (m : MReg)
  /-- R351. Signed greater-or-equal compare into a mask. -/
  | vcmpGe (w : Width) (d : MReg) (a : VReg) (b : VReg) (m : MReg)
  /-- R351. Unsigned less-than compare into a mask. -/
  | vcmpLtu (w : Width) (d : MReg) (a : VReg) (b : VReg) (m : MReg)
  /-- R351. Unsigned greater-or-equal compare into a mask. -/
  | vcmpGeu (w : Width) (d : MReg) (a : VReg) (b : VReg) (m : MReg)
  /-- R351. Floating-point equality compare into a mask. -/
  | vfcmpEq (p : FFmt) (d : MReg) (a : VReg) (b : VReg) (m : MReg)
  /-- R351. Floating-point not-equal compare into a mask. -/
  | vfcmpNe (p : FFmt) (d : MReg) (a : VReg) (b : VReg) (m : MReg)
  /-- R351. Floating-point less-than compare into a mask. -/
  | vfcmpLt (p : FFmt) (d : MReg) (a : VReg) (b : VReg) (m : MReg)
  /-- R351. Floating-point less-or-equal compare into a mask. -/
  | vfcmpLe (p : FFmt) (d : MReg) (a : VReg) (b : VReg) (m : MReg)
  /-- R352. Mask and. -/
  | mand (d : MReg) (a : MReg) (b : MReg)
  /-- R352. Mask or. -/
  | mor (d : MReg) (a : MReg) (b : MReg)
  /-- R352. Mask xor. -/
  | mxor (d : MReg) (a : MReg) (b : MReg)
  /-- R352. Mask not. -/
  | mnot (d : MReg) (a : MReg)
  /-- R352. Counts set mask bits into an x register. -/
  | mcnt (d : Reg) (a : MReg)
  /-- R352. Writes the lowest set mask bit's index, or all ones. -/
  | mfirst (d : Reg) (a : MReg)
  /-- R353. Selects bytes from vs1 or vs2 by a mask. -/
  | vsel (d : VReg) (a : VReg) (b : VReg) (m : MReg)
  /-- R354. Integer sum of active elements into xd. -/
  | vredsum (w : Width) (d : Reg) (a : VReg) (m : MReg)
  /-- R354. Signed minimum of active elements. -/
  | vredmin (w : Width) (d : Reg) (a : VReg) (m : MReg)
  /-- R354. Signed maximum of active elements. -/
  | vredmax (w : Width) (d : Reg) (a : VReg) (m : MReg)
  /-- R354. Unsigned minimum of active elements. -/
  | vredminu (w : Width) (d : Reg) (a : VReg) (m : MReg)
  /-- R354. Unsigned maximum of active elements. -/
  | vredmaxu (w : Width) (d : Reg) (a : VReg) (m : MReg)
  /-- R355. Exact sum of active elements rounded once to fp32. -/
  | vfredsum (p : FFmt) (d : Reg) (a : VReg) (m : MReg)
  /-- R355. Floating-point minimum of active elements. -/
  | vfredmin (p : FFmt) (d : Reg) (a : VReg) (m : MReg)
  /-- R355. Floating-point maximum of active elements. -/
  | vfredmax (p : FFmt) (d : Reg) (a : VReg) (m : MReg)
  /-- R356. Permutes elements by index. -/
  | vperm (w : Width) (d : VReg) (a : VReg) (b : VReg) (m : MReg)
  /-- R356. Slides elements up by a scalar amount. -/
  | vslideUp (w : Width) (d : VReg) (a : VReg) (b : Reg) (m : MReg)
  /-- R356. Slides elements down by a scalar amount. -/
  | vslideDown (w : Width) (d : VReg) (a : VReg) (b : Reg) (m : MReg)
  /-- R356. Interleaves the elements of two registers. -/
  | vzip (w : Width) (d : VReg) (a : VReg) (b : VReg) (m : MReg)
  /-- R356. Gathers the even elements of two registers. -/
  | vunzip (w : Width) (d : VReg) (a : VReg) (b : VReg) (m : MReg)
  /-- R356. Reverses the element order. -/
  | vrev (w : Width) (d : VReg) (a : VReg) (m : MReg)
  /-- R356. Broadcasts a scalar to every element. -/
  | vbcast (w : Width) (d : VReg) (a : Reg) (m : MReg)
  /-- R356. Extracts one element into xd. -/
  | vext (w : Width) (d : Reg) (a : VReg) (b : Reg)
  /-- R357. Element-wise conversion between prefix formats. -/
  | vcvt (d : VReg) (a : VReg) (b : VReg) (m : MReg)
  /-- R358. Narrows two registers into one. -/
  | vpack (w : PackWidth) (d : VReg) (a : VReg) (b : VReg) (m : MReg)
  /-- R359. Widens the low half of a register. -/
  | vunpackLo (w : PackWidth) (d : VReg) (a : VReg) (m : MReg)
  /-- R359. Widens the high half of a register. -/
  | vunpackHi (w : PackWidth) (d : VReg) (a : VReg) (m : MReg)
  /-- R340. Loads VL/8 bytes per active byte lane. -/
  | vld (e : Bool) (d : VReg) (a : Reg) (m : MReg)
  /-- R340. Stores active byte lanes. -/
  | vst (d : VReg) (a : Reg) (m : MReg)
  /-- R341. Strided element load. -/
  | vlds (e : Bool) (w : Width) (d : VReg) (a : Reg) (b : Reg) (m : MReg)
  /-- R341. Strided element store. -/
  | vsts (w : Width) (d : VReg) (a : Reg) (b : Reg) (m : MReg)
  /-- R342. Indexed element load at unsigned byte offsets. -/
  | vgather (e : Bool) (w : Width) (d : VReg) (a : Reg) (b : VReg) (m : MReg)
  /-- R342. Indexed element store at unsigned byte offsets. -/
  | vscatter (w : Width) (d : VReg) (a : Reg) (b : VReg) (m : MReg)
  /-- R343. Loads modulus pair qmj and qcj. -/
  | vldq (e : Bool) (j : QReg) (a : Reg)
  /-- R360. Modular lane add. -/
  | vaddm (w : Lane) (j : QReg) (d : VReg) (a : VReg) (b : VReg) (m : MReg)
  /-- R360. Modular lane subtract. -/
  | vsubm (w : Lane) (j : QReg) (d : VReg) (a : VReg) (b : VReg) (m : MReg)
  /-- R360. Modular lane multiply by Barrett reduction. -/
  | vmulm (w : Lane) (j : QReg) (d : VReg) (a : VReg) (b : VReg) (m : MReg)
  /-- R360. Modular multiply-accumulate. -/
  | vmacm (w : Lane) (j : QReg) (d : VReg) (a : VReg) (b : VReg) (m : MReg)
  /-- R360. Barrett-reduces a 2W-bit value formed from vs2 and vs1. -/
  | vmodred (w : Lane) (j : QReg) (d : VReg) (a : VReg) (b : VReg) (m : MReg)
  /-- R362. Cooley–Tukey butterflies within a register at stage s. -/
  | vbflyCt (w : Lane) (j : QReg) (d : VReg) (s : BitVec 5) (b : VReg) (m : MReg)
  /-- R362. Gentleman–Sande butterflies within a register at stage s. -/
  | vbflyGs (w : Lane) (j : QReg) (d : VReg) (s : BitVec 5) (b : VReg) (m : MReg)
  /-- R363. Cooley–Tukey butterflies across two registers. -/
  | vbflyxCt (w : Lane) (j : QReg) (d : VReg) (a : VReg) (b : VReg) (m : MReg)
  /-- R363. Gentleman–Sande butterflies across two registers. -/
  | vbflyxGs (w : Lane) (j : QReg) (d : VReg) (a : VReg) (b : VReg) (m : MReg)
  /-- R364. One stage of the byte butterfly permutation network. -/
  | vpermb (s : BitVec 3) (d : VReg) (a : VReg) (b : VReg) (m : MReg)
  /-- R365. Converts floating-point elements to lg32. -/
  | vtolog (d : VReg) (a : VReg) (m : MReg)
  /-- R365. Converts lg32 elements to floating point. -/
  | vfromlog (d : VReg) (a : VReg) (m : MReg)
  /-- R365. Log-domain addition. -/
  | vlogadd (d : VReg) (a : VReg) (b : VReg) (m : MReg)
  /-- R366. Presents values to the sigma-delta unit, which sends threshold-crossing events. -/
  | vsdq (v : VReg) (a : Reg) (b : Reg) (m : MReg)
  /-- R338. Writes VL to xd. -/
  | vwidth (d : Reg)
  /-- R339. Sets a mask of elements with xs1 + i < xs2. -/
  | vwhile (u : Bool) (w : Width) (d : MReg) (a : Reg) (b : Reg)
  /-- R369. Waits until earlier vector commands and their stores and events complete. -/
  | vfence
  /-- R264. 16-bit form of vmov. -/
  | vmov16 (g : BitVec 1) (d : VReg) (s : VReg)
  /-- R264. 16-bit form of vadd.i32. -/
  | vaddI32x16 (g : BitVec 1) (d : VReg) (s : VReg)
  /-- R264. 16-bit form of vsub.i32. -/
  | vsubI32x16 (g : BitVec 1) (d : VReg) (s : VReg)
  /-- R264. 16-bit form of vand. -/
  | vand16 (g : BitVec 1) (d : VReg) (s : VReg)
  /-- R264. 16-bit form of vor. -/
  | vor16 (g : BitVec 1) (d : VReg) (s : VReg)
  /-- R264. 16-bit form of vxor. -/
  | vxor16 (g : BitVec 1) (d : VReg) (s : VReg)
  /-- R264. 16-bit form of vsll.i32. -/
  | vsllI32x16 (g : BitVec 1) (d : VReg) (s : VReg)
  /-- R264. 16-bit form of vfadd.f32. -/
  | vfaddF32x16 (g : BitVec 1) (d : VReg) (s : VReg)
  /-- R264. 16-bit form of vfsub.f32. -/
  | vfsubF32x16 (g : BitVec 1) (d : VReg) (s : VReg)
  /-- R264. 16-bit form of vfmul.f32. -/
  | vfmulF32x16 (g : BitVec 1) (d : VReg) (s : VReg)
  /-- R264. 16-bit form of vfmax.f32. -/
  | vfmaxF32x16 (g : BitVec 1) (d : VReg) (s : VReg)
  /-- R264. 16-bit form of vfmin.f32. -/
  | vfminF32x16 (g : BitVec 1) (d : VReg) (s : VReg)
  /-- R264. 16-bit form of vaddm on 64-bit lanes with pair 0. -/
  | vaddm16 (g : BitVec 1) (d : VReg) (s : VReg)
  /-- R264. 16-bit form of vsubm on 64-bit lanes with pair 0. -/
  | vsubm16 (g : BitVec 1) (d : VReg) (s : VReg)
  /-- R264. 16-bit form of vmulm on 64-bit lanes with pair 0. -/
  | vmulm16 (g : BitVec 1) (d : VReg) (s : VReg)
  /-- R264. 16-bit form of vlogadd. -/
  | vlogadd16 (g : BitVec 1) (d : VReg) (s : VReg)
  /-- R375. Tile multiply-accumulate into an accumulator under the dot-product rule. -/
  | tmma (q : AccReg) (d : Reg) (a : Reg) (b : Reg) (c : Reg)
  /-- R375. Tile multiply-accumulate into a C tile in scratchpad. -/
  | tspmac (q : AccReg) (d : Reg) (a : Reg) (b : Reg) (c : Reg)
  /-- R377. Clears an accumulator to +0. -/
  | tclr (q : AccReg)
  /-- R377. Copies accumulator rows to scratchpad. -/
  | tacc2s (q : AccReg) (a : Reg) (b : Reg)
  /-- R377. Copies scratchpad rows into an accumulator. -/
  | ts2acc (q : AccReg) (a : Reg) (b : Reg)
  /-- R379. Sends a keyed matrix command to another core's matrix unit. -/
  | tmsend (a : Reg) (b : Reg) (c : Reg)
  /-- R378. Waits until the thread's tile instructions have completed. -/
  | twait
  /-- R381. Forks a copy-engine transfer that updates a barrier object. -/
  | tcopy (d : Reg) (a : Reg) (b : Reg) (c : Reg)
  /-- R382. Forks an engine gather of indexed elements. -/
  | tgather (e : GatherSize) (d : Reg) (a : Reg) (b : Reg) (c : Reg)
  /-- R257. Sets a pending format and rounding prefix for the next instruction. -/
  | fmt (s : BitVec 1) (r : BitVec 3) (fd : BitVec 4) (fc : BitVec 4) (fb : BitVec 4) (fa : BitVec 4)
  /-- R386. Sends an event with virtual time VTIME plus lookahead. -/
  | evsend (l : Reg) (a : Reg) (b : Reg)
  /-- R387. Sleeps until an inbox entry of a masked stream is present. -/
  | evwait (a : Reg)
  /-- R388. Removes the lowest-virtual-time entry into xd and xd+1 and advances VTIME. -/
  | evnext (d : Reg)
  /-- R388. Reads the next entry without removing it. -/
  | evpeek (d : Reg)
  /-- R389. Advances VTIME to a bounded operand. -/
  | vtadv (a : Reg)
  /-- R391. Checks a record and pushes it onto the core's deque, reporting status. -/
  | dqpush (d : Reg) (a : Reg)
  /-- R391. Pops the top deque record into memory and reports status. -/
  | dqpop (d : Reg) (a : Reg)
  /-- R391. Sends a decrement to a dependence block. -/
  | tdec (a : Reg) (b : Reg)
  /-- R391. Sends a task record as a remote push to a logical core. -/
  | tspawn (a : Reg) (b : Reg)
  /-- R392. Drains the thread, folds the digest and frees the slot, ending the group if this is its last thread. -/
  | texit
  /-- R393. The member departs from its gang. -/
  | tdetach
  /-- R393. The thread moves to the end of its priority's round-robin order. -/
  | tyield
  /-- R394. Starts one group on the issuing core from a record. -/
  | go (a : Reg)
  /-- R390. Step-mode group barrier that presents the barrier-tree arrival. -/
  | barT
  /-- R390. Sends a word to the neighbour in a direction. -/
  | nsend (r : Dir) (a : Reg)
  /-- R390. Reads the receive register of a direction, sleeping until it is full. -/
  | nrecv (r : Dir) (d : Reg)
  /-- R395. Takes trap 0x0D. -/
  | ecall
  /-- R395. Takes trap 0x0C, or acts as a trigger when DBGCTL.EBRK is 1. -/
  | ebreak
  /-- R209. Returns from a handler with STATUS := ESTATUS and pc := EPC. -/
  | tret
  /-- R396. Sleeps until an event-like happening or 10 µs. -/
  | wfe
  /-- R397. Stops the group when RUN is open, and otherwise terminates it. -/
  | halt
  /-- R398. Reads a control register. -/
  | csrr (c : BitVec 12) (d : Reg)
  /-- R398. Writes the RW fields of a control register. -/
  | csrw (c : BitVec 12) (a : Reg)
  /-- R398. Sets bits in the RW fields of a control register. -/
  | csrs (c : BitVec 12) (a : Reg)
  /-- R398. Clears bits in the RW fields of a control register. -/
  | csrc (c : BitVec 12) (a : Reg)
  /-- R19. The 48 V input is lost or cycled, every rail goes down, and the module waits for the input to be good again. -/
  | inputPowerLoss
  /-- R265. A thread decodes an unassigned encoding, a nonzero field the map gives as zero, the halfword 0x0000 or major 0x3E/0x3F, and raises illegal-instruction with DETAIL 1 or 2. -/
  | unassignedEncoding (bits : (BitVec 32)) (nonzeroField : Bool)
  /-- R167. A queued vector command finishes executing, records its flags, releases its scalar destination and VBUSY, and delivers any reported element fault. -/
  | vectorCommandComplete (pos : Nat) (ctx : Bool)
  /-- R376. The macro-operation sequencer finishes a step of a tile instruction or queued matrix command, applies it, and on the last step completes the operation and writes its record. -/
  | matrixStepBoundary (pos : Nat)
  /-- R139. A gang-level bar arrival or release combined through the coordinator arrives from a peer module and completes the members waiting on this module. -/
  | gangBarrierRelease (gang : Nat)
  /-- R89. The 64-bit word named by a pending WAIT comes to satisfy its comparison, the WAIT completes OK and later commands of the queue may begin. -/
  | waitConditionMet (q : Nat)
deriving DecidableEq, Repr

end Sys2Proof
end

