-- ==== Sys2Proof/WellFormed.lean ====
section
/-! DEFINITION. Which operand values the encodings admit (spec 11 R263 to R276): the ranges beyond what the operand types
already say. An instruction that fails its check has no encoding. -/
namespace Sys2Proof

/-- R303: one of the two types is floating point and they differ. -/
def cvtPairOk (t s : CvtType) : Bool :=
  match t, s with
  | .s, .s | .d, .d | .h, .h => false
  | .w, .w | .w, .wu | .w, .l | .w, .lu => false
  | .wu, .w | .wu, .wu | .wu, .l | .wu, .lu => false
  | .l, .w | .l, .wu | .l, .l | .l, .lu => false
  | .lu, .w | .lu, .wu | .lu, .l | .lu, .lu => false
  | _, _ => true

/-- R271: butterfly stage 0 to 4 for 64-bit lanes, 0 to 5 for 32-bit lanes. -/
def stageOk (w : Lane) (s : BitVec 5) : Bool :=
  match w with
  | .m32 => s.toNat ≤ 5
  | .m64 => s.toNat ≤ 4

/-- R273: the destination pair of `evnext` and `evpeek` is even and nonzero. -/
def pairOk (d : Reg) : Bool := d.toNat % 2 = 0 && d ≠ 0#5

/-- R276: the assigned control-register addresses. -/
def csrAssigned (c : BitVec 12) : Bool :=
  let n := c.toNat
  n ≤ 0x008 || (0x010 ≤ n && n ≤ 0x014) || (0x020 ≤ n && n ≤ 0x027) || (0x040 ≤ n && n ≤ 0x05F)

/-- R325: the log2 size of a bound region. -/
def bindLogOk (k : BitVec 7) : Bool := 7 ≤ k.toNat && k.toNat ≤ 47

/-- R257: RM 6 and 7 are reserved. -/
def fmtRmOk (r : BitVec 3) : Bool := r.toNat ≤ 5

/-- The operands of an encoded instruction lie in the ranges of its encoding. A step of the device has no encoding and
no range of its own. -/
def Instr.wf : Instr → Bool
  | .fcvt t s _ _ => cvtPairOk t s
  | .bind _ _ k => bindLogOk k
  | .vbflyCt w _ _ s _ _ => stageOk w s
  | .vbflyGs w _ _ s _ _ => stageOk w s
  | .vbflyxCt _ _ d a _ _ => d ≠ a
  | .vbflyxGs _ _ d a _ _ => d ≠ a
  | .evnext d => pairOk d
  | .evpeek d => pairOk d
  | .csrr c _ => csrAssigned c
  | .csrw c _ => csrAssigned c
  | .csrs c _ => csrAssigned c
  | .csrc c _ => csrAssigned c
  | .fmt _ r _ _ _ _ => fmtRmOk r
  | .vmov16 g d s => !(g == 0#1 && d == 0#5 && s == 0#5)
  | _ => true

end Sys2Proof
end

