-- ==== Sys2Proof/Decode.lean ====
section
/-! DEFINITION. The decoder and, after it, the encoder (spec 11 R260 to R274). Bits are numbered as the spec numbers them.
Where the opcode table's row masks put f3 and rs1 elsewhere than R261 does, R261 and its worked words are followed
(assumption 10). Decoding is total: every word gives an instruction or a named error. -/
namespace Sys2Proof
noncomputable section

/-- Why a word is not an instruction (R265): DETAIL 1 and DETAIL 2 of illegal-instruction. -/
inductive DecodeError where
  /-- no assigned combination, or an operand value outside its range -/
  | unassigned
  /-- a field that the map gives as zero, or a reserved bit, is nonzero -/
  | nonzeroField
deriving DecidableEq, Repr

/-- The fields of a 32-bit instruction by their places (R261): [6:1], [11:7], [16:12], [19:17], [24:20], [31:25]. The
immediates and the fields m, f4, acc and xc of the other formats are parts of these. -/
structure Fields where
  major : BitVec 6
  rd    : BitVec 5
  rs1   : BitVec 5
  f3    : BitVec 3
  rs2   : BitVec 5
  f7    : BitVec 7
deriving DecidableEq, Repr

/-- The fields of a word (R261). -/
def Fields.ofWord (w : BitVec 32) : Fields :=
  ⟨w.extractLsb' 1 6, w.extractLsb' 7 5, w.extractLsb' 12 5, w.extractLsb' 17 3, w.extractLsb' 20 5, w.extractLsb' 25 7⟩

/-- The word that holds the fields; bit 0 is 1 (R260). -/
def Fields.word (f : Fields) : BitVec 32 :=
  f.f7 ++ f.rs2 ++ f.f3 ++ f.rs1 ++ f.rd ++ f.major ++ 1#1

/-- The code of the field (R267 to R273). -/
def Prec.code : Prec → BitVec 3
  | .s => 0#3
  | .d => 1#3
  | .h => 2#3
/-- The field read back; other values are unassigned. -/
def Prec.ofCode (c : BitVec 3) : Except DecodeError Prec :=
  match c.toNat with
  | 0 => .ok .s
  | 1 => .ok .d
  | 2 => .ok .h
  | _ => .error .unassigned

/-- The code of the field (R267 to R273). -/
def CvtType.code : CvtType → BitVec 3
  | .s => 0#3
  | .d => 1#3
  | .h => 2#3
  | .w => 4#3
  | .wu => 5#3
  | .l => 6#3
  | .lu => 7#3
/-- The field read back; other values are unassigned. -/
def CvtType.ofCode (c : BitVec 3) : Except DecodeError CvtType :=
  match c.toNat with
  | 0 => .ok .s
  | 1 => .ok .d
  | 2 => .ok .h
  | 4 => .ok .w
  | 5 => .ok .wu
  | 6 => .ok .l
  | 7 => .ok .lu
  | _ => .error .unassigned

/-- The code of the field (R267 to R273). -/
def ExtWidth.code : ExtWidth → BitVec 5
  | .b8 => 0#5
  | .b16 => 1#5
  | .b32 => 2#5
/-- The field read back; other values are unassigned. -/
def ExtWidth.ofCode (c : BitVec 5) : Except DecodeError ExtWidth :=
  match c.toNat with
  | 0 => .ok .b8
  | 1 => .ok .b16
  | 2 => .ok .b32
  | _ => .error .unassigned

/-- The code of the field (R267 to R273). -/
def Scope.code : Scope → BitVec 2
  | .g => 0#2
  | .d => 1#2
  | .v => 2#2
  | .s => 3#2
/-- The field read back; other values are unassigned. -/
def Scope.ofCode (c : BitVec 2) : Except DecodeError Scope :=
  match c.toNat with
  | 0 => .ok .g
  | 1 => .ok .d
  | 2 => .ok .v
  | 3 => .ok .s
  | _ => .error .unassigned

/-- The code of the field (R267 to R273). -/
def AtomWidth.code : AtomWidth → BitVec 3
  | .w => 2#3
  | .d => 3#3
/-- The field read back; other values are unassigned. -/
def AtomWidth.ofCode (c : BitVec 3) : Except DecodeError AtomWidth :=
  match c.toNat with
  | 2 => .ok .w
  | 3 => .ok .d
  | _ => .error .unassigned

/-- The code of the field (R267 to R273). -/
def RedOp.code : RedOp → BitVec 3
  | .add => 0#3
  | .min => 1#3
  | .max => 2#3
  | .and => 3#3
  | .or => 4#3
  | .xor => 5#3
/-- The field read back; other values are unassigned. -/
def RedOp.ofCode (c : BitVec 3) : Except DecodeError RedOp :=
  match c.toNat with
  | 0 => .ok .add
  | 1 => .ok .min
  | 2 => .ok .max
  | 3 => .ok .and
  | 4 => .ok .or
  | 5 => .ok .xor
  | _ => .error .unassigned

/-- The code of the field (R267 to R273). -/
def AmoOp.code : AmoOp → BitVec 4
  | .add => 0#4
  | .and => 1#4
  | .or => 2#4
  | .xor => 3#4
  | .min => 4#4
  | .max => 5#4
  | .minu => 6#4
  | .maxu => 7#4
  | .swap => 8#4
/-- The field read back; other values are unassigned. -/
def AmoOp.ofCode (c : BitVec 4) : Except DecodeError AmoOp :=
  match c.toNat with
  | 0 => .ok .add
  | 1 => .ok .and
  | 2 => .ok .or
  | 3 => .ok .xor
  | 4 => .ok .min
  | 5 => .ok .max
  | 6 => .ok .minu
  | 7 => .ok .maxu
  | 8 => .ok .swap
  | _ => .error .unassigned

/-- The code of the field (R267 to R273). -/
def Width.code : Width → BitVec 3
  | .i8 => 0#3
  | .i16 => 1#3
  | .i32 => 2#3
  | .i64 => 3#3
/-- The field read back; other values are unassigned. -/
def Width.ofCode (c : BitVec 3) : Except DecodeError Width :=
  match c.toNat with
  | 0 => .ok .i8
  | 1 => .ok .i16
  | 2 => .ok .i32
  | 3 => .ok .i64
  | _ => .error .unassigned

/-- The code of the field (R267 to R273). -/
def PackWidth.code : PackWidth → BitVec 3
  | .i8 => 0#3
  | .i16 => 1#3
  | .i32 => 2#3
/-- The field read back; other values are unassigned. -/
def PackWidth.ofCode (c : BitVec 3) : Except DecodeError PackWidth :=
  match c.toNat with
  | 0 => .ok .i8
  | 1 => .ok .i16
  | 2 => .ok .i32
  | _ => .error .unassigned

/-- The code of the field (R267 to R273). -/
def FFmt.code : FFmt → BitVec 3
  | .f32 => 0#3
  | .f16 => 1#3
  | .bf16 => 2#3
/-- The field read back; other values are unassigned. -/
def FFmt.ofCode (c : BitVec 3) : Except DecodeError FFmt :=
  match c.toNat with
  | 0 => .ok .f32
  | 1 => .ok .f16
  | 2 => .ok .bf16
  | _ => .error .unassigned

/-- The code of the field (R267 to R273). -/
def Lane.code : Lane → BitVec 1
  | .m32 => 0#1
  | .m64 => 1#1
/-- The field read back. -/
def Lane.ofCode (c : BitVec 1) : Lane :=
  match c.toNat with
  | 0 => .m32
  | _ => .m64

/-- The code of the field (R267 to R273). -/
def Dir.code : Dir → BitVec 2
  | .e => 0#2
  | .s => 1#2
  | .w => 2#2
  | .n => 3#2
/-- The field read back. -/
def Dir.ofCode (c : BitVec 2) : Dir :=
  match c.toNat with
  | 0 => .e
  | 1 => .s
  | 2 => .w
  | _ => .n

/-- The code of the field (R267 to R273). -/
def GatherSize.code : GatherSize → BitVec 2
  | .b8 => 0#2
  | .b16 => 1#2
  | .b64 => 2#2
  | .b128 => 3#2
/-- The field read back; other values are unassigned. -/
def GatherSize.ofCode (c : BitVec 2) : Except DecodeError GatherSize :=
  match c.toNat with
  | 0 => .ok .b8
  | 1 => .ok .b16
  | 2 => .ok .b64
  | 3 => .ok .b128
  | _ => .error .unassigned
/-- The width in f3[1:0] where f3[2] says something else (R271). -/
def Width.code2 : Width → BitVec 2
  | .i8 => 0#2
  | .i16 => 1#2
  | .i32 => 2#2
  | .i64 => 3#2
/-- That field read back. -/
def Width.ofCode2 (c : BitVec 2) : Width :=
  match c.toNat with
  | 0 => .i8
  | 1 => .i16
  | 2 => .i32
  | _ => .i64
/-- f3 of the floating-point reductions: 4 fp32, 5 fp16, 6 bf16 (R271). -/
def FFmt.redCode : FFmt → BitVec 3
  | .f32 => 4#3
  | .f16 => 5#3
  | .bf16 => 6#3
/-- That field read back. -/
def FFmt.ofRedCode (c : BitVec 3) : Except DecodeError FFmt :=
  match c.toNat with
  | 4 => .ok .f32
  | 5 => .ok .f16
  | 6 => .ok .bf16
  | _ => .error .unassigned

/-- The fields that must be zero are tested after the selectors and ranges (R265). -/
def zeros (b : Bool) (i : Instr) : Except DecodeError Instr := if b then .ok i else .error .nonzeroField
/-- An operand value outside its range is an unassigned encoding (R265). -/
def ranged (b : Bool) (r : Except DecodeError Instr) : Except DecodeError Instr := if b then r else .error .unassigned

/-- Major 0x00 (R267). -/
def major00 (fs : Fields) : Except DecodeError Instr :=
  match fs.f3.toNat, fs.f7.toNat with
  | 0x0, 0x0 => .ok (.add fs.rd fs.rs1 fs.rs2)
  | 0x0, 0x1 => .ok (.sub fs.rd fs.rs1 fs.rs2)
  | 0x0, 0x2 => .ok (.and fs.rd fs.rs1 fs.rs2)
  | 0x0, 0x3 => .ok (.or fs.rd fs.rs1 fs.rs2)
  | 0x0, 0x4 => .ok (.xor fs.rd fs.rs1 fs.rs2)
  | 0x0, 0x5 => .ok (.andn fs.rd fs.rs1 fs.rs2)
  | 0x0, 0x6 => .ok (.orn fs.rd fs.rs1 fs.rs2)
  | 0x0, 0x7 => .ok (.sll fs.rd fs.rs1 fs.rs2)
  | 0x0, 0x8 => .ok (.srl fs.rd fs.rs1 fs.rs2)
  | 0x0, 0x9 => .ok (.sra fs.rd fs.rs1 fs.rs2)
  | 0x0, 0xA => .ok (.rol fs.rd fs.rs1 fs.rs2)
  | 0x0, 0xB => .ok (.ror fs.rd fs.rs1 fs.rs2)
  | 0x0, 0xC => .ok (.slt fs.rd fs.rs1 fs.rs2)
  | 0x0, 0xD => .ok (.sltu fs.rd fs.rs1 fs.rs2)
  | 0x0, 0xE => .ok (.min fs.rd fs.rs1 fs.rs2)
  | 0x0, 0xF => .ok (.max fs.rd fs.rs1 fs.rs2)
  | 0x0, 0x10 => .ok (.minu fs.rd fs.rs1 fs.rs2)
  | 0x0, 0x11 => .ok (.maxu fs.rd fs.rs1 fs.rs2)
  | 0x0, 0x12 => .ok (.mul fs.rd fs.rs1 fs.rs2)
  | 0x0, 0x13 => .ok (.mulh fs.rd fs.rs1 fs.rs2)
  | 0x0, 0x14 => .ok (.mulhu fs.rd fs.rs1 fs.rs2)
  | 0x0, 0x15 => .ok (.mulhsu fs.rd fs.rs1 fs.rs2)
  | 0x0, 0x16 => .ok (.div fs.rd fs.rs1 fs.rs2)
  | 0x0, 0x17 => .ok (.divu fs.rd fs.rs1 fs.rs2)
  | 0x0, 0x18 => .ok (.rem fs.rd fs.rs1 fs.rs2)
  | 0x0, 0x19 => .ok (.remu fs.rd fs.rs1 fs.rs2)
  | 0x0, 0x1A => zeros (fs.rs2 == 0#5) (.clz fs.rd fs.rs1)
  | 0x0, 0x1B => zeros (fs.rs2 == 0#5) (.ctz fs.rd fs.rs1)
  | 0x0, 0x1C => zeros (fs.rs2 == 0#5) (.popc fs.rd fs.rs1)
  | 0x0, 0x1D => do let w ← ExtWidth.ofCode fs.rs2; .ok (.sext fs.rd fs.rs1 w)
  | 0x0, 0x1E => do let w ← ExtWidth.ofCode fs.rs2; .ok (.zext fs.rd fs.rs1 w)
  | 0x1, 0x0 => .ok (.addW fs.rd fs.rs1 fs.rs2)
  | 0x1, 0x1 => .ok (.subW fs.rd fs.rs1 fs.rs2)
  | 0x1, 0x7 => .ok (.sllW fs.rd fs.rs1 fs.rs2)
  | 0x1, 0x8 => .ok (.srlW fs.rd fs.rs1 fs.rs2)
  | 0x1, 0x9 => .ok (.sraW fs.rd fs.rs1 fs.rs2)
  | 0x1, 0xA => .ok (.rolW fs.rd fs.rs1 fs.rs2)
  | 0x1, 0xB => .ok (.rorW fs.rd fs.rs1 fs.rs2)
  | 0x1, 0x12 => .ok (.mulW fs.rd fs.rs1 fs.rs2)
  | 0x1, 0x16 => .ok (.divW fs.rd fs.rs1 fs.rs2)
  | 0x1, 0x17 => .ok (.divuW fs.rd fs.rs1 fs.rs2)
  | 0x1, 0x18 => .ok (.remW fs.rd fs.rs1 fs.rs2)
  | 0x1, 0x19 => .ok (.remuW fs.rd fs.rs1 fs.rs2)
  | 0x1, 0x1A => zeros (fs.rs2 == 0#5) (.clzW fs.rd fs.rs1)
  | 0x1, 0x1B => zeros (fs.rs2 == 0#5) (.ctzW fs.rd fs.rs1)
  | 0x1, 0x1C => zeros (fs.rs2 == 0#5) (.popcW fs.rd fs.rs1)
  | _, _ => .error .unassigned
/-- Major 0x01 (R267). -/
def major01 (fs : Fields) : Except DecodeError Instr :=
  match fs.f3.toNat, (fs.f7.extractLsb' 1 6).toNat with
  | 0x0, _ => .ok (.addi fs.rd fs.rs1 (fs.f7 ++ fs.rs2))
  | 0x1, _ => .ok (.andi fs.rd fs.rs1 (fs.f7 ++ fs.rs2))
  | 0x2, _ => .ok (.ori fs.rd fs.rs1 (fs.f7 ++ fs.rs2))
  | 0x3, _ => .ok (.xori fs.rd fs.rs1 (fs.f7 ++ fs.rs2))
  | 0x4, _ => .ok (.slti fs.rd fs.rs1 (fs.f7 ++ fs.rs2))
  | 0x5, _ => .ok (.sltiu fs.rd fs.rs1 (fs.f7 ++ fs.rs2))
  | 0x6, 0x0 => .ok (.slli fs.rd fs.rs1 (fs.f7.extractLsb' 0 1 ++ fs.rs2))
  | 0x6, 0x10 => .ok (.srli fs.rd fs.rs1 (fs.f7.extractLsb' 0 1 ++ fs.rs2))
  | 0x6, 0x20 => .ok (.srai fs.rd fs.rs1 (fs.f7.extractLsb' 0 1 ++ fs.rs2))
  | _, _ => .error .unassigned
/-- Major 0x02 (R267). -/
def major02 (fs : Fields) : Except DecodeError Instr :=
  match fs.f3.toNat, fs.f7.toNat with
  | 0x0, _ => .ok (.addiW fs.rd fs.rs1 (fs.f7 ++ fs.rs2))
  | 0x6, 0x0 => .ok (.slliW fs.rd fs.rs1 fs.rs2)
  | 0x6, 0x20 => .ok (.srliW fs.rd fs.rs1 fs.rs2)
  | 0x6, 0x40 => .ok (.sraiW fs.rd fs.rs1 fs.rs2)
  | _, _ => .error .unassigned
/-- Major 0x03 (R267). -/
def major03 (fs : Fields) : Except DecodeError Instr :=
  .ok (.lui fs.rd (fs.f7 ++ fs.rs2 ++ fs.f3 ++ fs.rs1))
/-- Major 0x04 (R267). -/
def major04 (fs : Fields) : Except DecodeError Instr :=
  .ok (.auipc fs.rd (fs.f7 ++ fs.rs2 ++ fs.f3 ++ fs.rs1))
/-- Major 0x05 (R267). -/
def major05 (fs : Fields) : Except DecodeError Instr :=
  match fs.f7.toNat with
  | 0x0 => do let p ← Prec.ofCode fs.f3; .ok (.fadd p fs.rd fs.rs1 fs.rs2)
  | 0x1 => do let p ← Prec.ofCode fs.f3; .ok (.fsub p fs.rd fs.rs1 fs.rs2)
  | 0x2 => do let p ← Prec.ofCode fs.f3; .ok (.fmul p fs.rd fs.rs1 fs.rs2)
  | 0x3 => do let p ← Prec.ofCode fs.f3; .ok (.fdiv p fs.rd fs.rs1 fs.rs2)
  | 0x4 => do let p ← Prec.ofCode fs.f3; zeros (fs.rs2 == 0#5) (.fsqrt p fs.rd fs.rs1)
  | 0x5 => do let p ← Prec.ofCode fs.f3; .ok (.fmin p fs.rd fs.rs1 fs.rs2)
  | 0x6 => do let p ← Prec.ofCode fs.f3; .ok (.fmax p fs.rd fs.rs1 fs.rs2)
  | 0x7 => do let p ← Prec.ofCode fs.f3; .ok (.fsgn p fs.rd fs.rs1 fs.rs2)
  | 0x8 => do let p ← Prec.ofCode fs.f3; .ok (.fsgnN p fs.rd fs.rs1 fs.rs2)
  | 0x9 => do let p ← Prec.ofCode fs.f3; .ok (.fsgnX p fs.rd fs.rs1 fs.rs2)
  | 0xA => do let p ← Prec.ofCode fs.f3; zeros (fs.rd.extractLsb' 3 2 == 0#2) (.fcmpEq p (fs.rd.extractLsb' 0 3) fs.rs1 fs.rs2)
  | 0xB => do let p ← Prec.ofCode fs.f3; zeros (fs.rd.extractLsb' 3 2 == 0#2) (.fcmpNe p (fs.rd.extractLsb' 0 3) fs.rs1 fs.rs2)
  | 0xC => do let p ← Prec.ofCode fs.f3; zeros (fs.rd.extractLsb' 3 2 == 0#2) (.fcmpLt p (fs.rd.extractLsb' 0 3) fs.rs1 fs.rs2)
  | 0xD => do let p ← Prec.ofCode fs.f3; zeros (fs.rd.extractLsb' 3 2 == 0#2) (.fcmpLe p (fs.rd.extractLsb' 0 3) fs.rs1 fs.rs2)
  | 0xE => do let p ← Prec.ofCode fs.f3; zeros (fs.rs2 == 0#5) (.fclass p fs.rd fs.rs1)
  | 0xF => do let t ← CvtType.ofCode fs.f3; let s ← CvtType.ofCode (fs.rs2.extractLsb' 0 3); ranged (cvtPairOk t s) (zeros (fs.rs2.extractLsb' 3 2 == 0#2) (.fcvt t s fs.rd fs.rs1))
  | _ => .error .unassigned
/-- Major 0x06 (R267). -/
def major06 (fs : Fields) : Except DecodeError Instr :=
  match (fs.f7.extractLsb' 0 2).toNat with
  | 0x0 => do let p ← Prec.ofCode fs.f3; .ok (.fmadd p fs.rd fs.rs1 fs.rs2 (fs.f7.extractLsb' 2 5))
  | 0x1 => do let p ← Prec.ofCode fs.f3; .ok (.fmsub p fs.rd fs.rs1 fs.rs2 (fs.f7.extractLsb' 2 5))
  | 0x2 => do let p ← Prec.ofCode fs.f3; .ok (.fnmadd p fs.rd fs.rs1 fs.rs2 (fs.f7.extractLsb' 2 5))
  | _ => .error .unassigned
/-- Major 0x07 (R267). -/
def major07 (fs : Fields) : Except DecodeError Instr :=
  match fs.f3.toNat, fs.f7.toNat with
  | 0x0, 0x0 => zeros (fs.rd.extractLsb' 3 2 == 0#2) (.pcmpEq (fs.rd.extractLsb' 0 3) fs.rs1 fs.rs2)
  | 0x0, 0x1 => zeros (fs.rd.extractLsb' 3 2 == 0#2) (.pcmpNe (fs.rd.extractLsb' 0 3) fs.rs1 fs.rs2)
  | 0x0, 0x2 => zeros (fs.rd.extractLsb' 3 2 == 0#2) (.pcmpLt (fs.rd.extractLsb' 0 3) fs.rs1 fs.rs2)
  | 0x0, 0x3 => zeros (fs.rd.extractLsb' 3 2 == 0#2) (.pcmpGe (fs.rd.extractLsb' 0 3) fs.rs1 fs.rs2)
  | 0x0, 0x4 => zeros (fs.rd.extractLsb' 3 2 == 0#2) (.pcmpLtu (fs.rd.extractLsb' 0 3) fs.rs1 fs.rs2)
  | 0x0, 0x5 => zeros (fs.rd.extractLsb' 3 2 == 0#2) (.pcmpGeu (fs.rd.extractLsb' 0 3) fs.rs1 fs.rs2)
  | 0x1, 0x0 => zeros (fs.rd.extractLsb' 3 2 == 0#2 && fs.rs1.extractLsb' 3 2 == 0#2 && fs.rs2.extractLsb' 3 2 == 0#2) (.pand (fs.rd.extractLsb' 0 3) (fs.rs1.extractLsb' 0 3) (fs.rs2.extractLsb' 0 3))
  | 0x1, 0x1 => zeros (fs.rd.extractLsb' 3 2 == 0#2 && fs.rs1.extractLsb' 3 2 == 0#2 && fs.rs2.extractLsb' 3 2 == 0#2) (.por (fs.rd.extractLsb' 0 3) (fs.rs1.extractLsb' 0 3) (fs.rs2.extractLsb' 0 3))
  | 0x1, 0x2 => zeros (fs.rd.extractLsb' 3 2 == 0#2 && fs.rs1.extractLsb' 3 2 == 0#2 && fs.rs2.extractLsb' 3 2 == 0#2) (.pxor (fs.rd.extractLsb' 0 3) (fs.rs1.extractLsb' 0 3) (fs.rs2.extractLsb' 0 3))
  | 0x1, 0x3 => zeros (fs.rd.extractLsb' 3 2 == 0#2 && fs.rs1.extractLsb' 3 2 == 0#2 && fs.rs2 == 0#5) (.pnot (fs.rd.extractLsb' 0 3) (fs.rs1.extractLsb' 0 3))
  | 0x1, 0x4 => zeros (fs.rd.extractLsb' 3 2 == 0#2 && fs.rs1.extractLsb' 3 2 == 0#2 && fs.rs2 == 0#5) (.pmov (fs.rd.extractLsb' 0 3) (fs.rs1.extractLsb' 0 3))
  | 0x1, 0x5 => zeros (fs.rs1 == 0#5 && fs.rs2 == 0#5) (.pmovPack fs.rd)
  | 0x1, 0x6 => zeros (fs.rd == 0#5 && fs.rs2 == 0#5) (.pmovUnpack fs.rs1)
  | _, _ => .error .unassigned
/-- Major 0x10 (R268). -/
def major10 (fs : Fields) : Except DecodeError Instr :=
  match fs.f3.toNat with
  | 0x0 => .ok (.lb fs.rd fs.rs1 (fs.f7 ++ fs.rs2))
  | 0x1 => .ok (.lh fs.rd fs.rs1 (fs.f7 ++ fs.rs2))
  | 0x2 => .ok (.lw fs.rd fs.rs1 (fs.f7 ++ fs.rs2))
  | 0x3 => .ok (.ld fs.rd fs.rs1 (fs.f7 ++ fs.rs2))
  | 0x4 => .ok (.lbu fs.rd fs.rs1 (fs.f7 ++ fs.rs2))
  | 0x5 => .ok (.lhu fs.rd fs.rs1 (fs.f7 ++ fs.rs2))
  | 0x6 => .ok (.lwu fs.rd fs.rs1 (fs.f7 ++ fs.rs2))
  | _ => .error .unassigned
/-- Major 0x11 (R268). -/
def major11 (fs : Fields) : Except DecodeError Instr :=
  match fs.f3.toNat with
  | 0x0 => .ok (.lbB fs.rd fs.rs1 (fs.f7 ++ fs.rs2))
  | 0x1 => .ok (.lhB fs.rd fs.rs1 (fs.f7 ++ fs.rs2))
  | 0x2 => .ok (.lwB fs.rd fs.rs1 (fs.f7 ++ fs.rs2))
  | 0x3 => .ok (.ldB fs.rd fs.rs1 (fs.f7 ++ fs.rs2))
  | 0x4 => .ok (.lbuB fs.rd fs.rs1 (fs.f7 ++ fs.rs2))
  | 0x5 => .ok (.lhuB fs.rd fs.rs1 (fs.f7 ++ fs.rs2))
  | 0x6 => .ok (.lwuB fs.rd fs.rs1 (fs.f7 ++ fs.rs2))
  | _ => .error .unassigned
/-- Major 0x12 (R268). -/
def major12 (fs : Fields) : Except DecodeError Instr :=
  match fs.f3.toNat with
  | 0x0 => .ok (.lbN fs.rd fs.rs1 (fs.f7 ++ fs.rs2))
  | 0x1 => .ok (.lhN fs.rd fs.rs1 (fs.f7 ++ fs.rs2))
  | 0x2 => .ok (.lwN fs.rd fs.rs1 (fs.f7 ++ fs.rs2))
  | 0x3 => .ok (.ldN fs.rd fs.rs1 (fs.f7 ++ fs.rs2))
  | 0x4 => .ok (.lbuN fs.rd fs.rs1 (fs.f7 ++ fs.rs2))
  | 0x5 => .ok (.lhuN fs.rd fs.rs1 (fs.f7 ++ fs.rs2))
  | 0x6 => .ok (.lwuN fs.rd fs.rs1 (fs.f7 ++ fs.rs2))
  | _ => .error .unassigned
/-- Major 0x13 (R268). -/
def major13 (fs : Fields) : Except DecodeError Instr :=
  match fs.f3.toNat with
  | 0x0 => .ok (.sb fs.rs1 fs.rs2 (fs.f7 ++ fs.rd))
  | 0x1 => .ok (.sh fs.rs1 fs.rs2 (fs.f7 ++ fs.rd))
  | 0x2 => .ok (.sw fs.rs1 fs.rs2 (fs.f7 ++ fs.rd))
  | 0x3 => .ok (.sd fs.rs1 fs.rs2 (fs.f7 ++ fs.rd))
  | 0x4 => .ok (.sbN fs.rs1 fs.rs2 (fs.f7 ++ fs.rd))
  | 0x5 => .ok (.shN fs.rs1 fs.rs2 (fs.f7 ++ fs.rd))
  | 0x6 => .ok (.swN fs.rs1 fs.rs2 (fs.f7 ++ fs.rd))
  | 0x7 => .ok (.sdN fs.rs1 fs.rs2 (fs.f7 ++ fs.rd))
  | _ => .error .unassigned
/-- Major 0x14 (R268). -/
def major14 (fs : Fields) : Except DecodeError Instr :=
  match fs.f3.toNat with
  | 0x0 => .ok (.lwf fs.rd fs.rs1 (fs.f7 ++ fs.rs2))
  | 0x1 => .ok (.take fs.rd fs.rs1 (fs.f7 ++ fs.rs2))
  | 0x2 => zeros (fs.rd.extractLsb' 3 2 == 0#2) (.tagq (fs.rd.extractLsb' 0 3) fs.rs1 (fs.f7 ++ fs.rs2))
  | 0x3 => zeros (fs.rd == 0#5) (.empty fs.rs1 (fs.f7 ++ fs.rs2))
  | _ => .error .unassigned
/-- Major 0x15 (R268). -/
def major15 (fs : Fields) : Except DecodeError Instr :=
  match fs.f3.toNat with
  | 0x0 => .ok (.put fs.rs1 fs.rs2 (fs.f7 ++ fs.rd))
  | 0x1 => .ok (.fill fs.rs1 fs.rs2 (fs.f7 ++ fs.rd))
  | 0x2 => .ok (.xst fs.rs1 fs.rs2 (fs.f7 ++ fs.rd))
  | _ => .error .unassigned
/-- Major 0x18 (R269). -/
def major18 (fs : Fields) : Except DecodeError Instr :=
  match (fs.f7.extractLsb' 0 5).toNat with
  | 0x0 => do let w ← AtomWidth.ofCode fs.f3; let f ← Scope.ofCode (fs.f7.extractLsb' 5 2); .ok (.amoadd f w fs.rd fs.rs1 fs.rs2)
  | 0x1 => do let w ← AtomWidth.ofCode fs.f3; let f ← Scope.ofCode (fs.f7.extractLsb' 5 2); .ok (.amoand f w fs.rd fs.rs1 fs.rs2)
  | 0x2 => do let w ← AtomWidth.ofCode fs.f3; let f ← Scope.ofCode (fs.f7.extractLsb' 5 2); .ok (.amoor f w fs.rd fs.rs1 fs.rs2)
  | 0x3 => do let w ← AtomWidth.ofCode fs.f3; let f ← Scope.ofCode (fs.f7.extractLsb' 5 2); .ok (.amoxor f w fs.rd fs.rs1 fs.rs2)
  | 0x4 => do let w ← AtomWidth.ofCode fs.f3; let f ← Scope.ofCode (fs.f7.extractLsb' 5 2); .ok (.amomin f w fs.rd fs.rs1 fs.rs2)
  | 0x5 => do let w ← AtomWidth.ofCode fs.f3; let f ← Scope.ofCode (fs.f7.extractLsb' 5 2); .ok (.amomax f w fs.rd fs.rs1 fs.rs2)
  | 0x6 => do let w ← AtomWidth.ofCode fs.f3; let f ← Scope.ofCode (fs.f7.extractLsb' 5 2); .ok (.amominu f w fs.rd fs.rs1 fs.rs2)
  | 0x7 => do let w ← AtomWidth.ofCode fs.f3; let f ← Scope.ofCode (fs.f7.extractLsb' 5 2); .ok (.amomaxu f w fs.rd fs.rs1 fs.rs2)
  | 0x8 => do let w ← AtomWidth.ofCode fs.f3; let f ← Scope.ofCode (fs.f7.extractLsb' 5 2); .ok (.amoswap f w fs.rd fs.rs1 fs.rs2)
  | 0x9 => do let w ← AtomWidth.ofCode fs.f3; let f ← Scope.ofCode (fs.f7.extractLsb' 5 2); .ok (.cas f w fs.rd fs.rs1 fs.rs2)
  | _ => .error .unassigned
/-- Major 0x19 (R269). -/
def major19 (fs : Fields) : Except DecodeError Instr :=
  do let w ← AtomWidth.ofCode fs.f3; let f ← Scope.ofCode (fs.f7.extractLsb' 5 2); let o ← RedOp.ofCode (fs.f7.extractLsb' 0 3); zeros (fs.rd == 0#5 && fs.f7.extractLsb' 3 2 == 0#2) (.red o f w fs.rs1 fs.rs2)
/-- Major 0x1A (R269). -/
def major1A (fs : Fields) : Except DecodeError Instr :=
  do let w ← AtomWidth.ofCode fs.f3; let o ← AmoOp.ofCode (fs.f7.extractLsb' 0 4); zeros (fs.f7.extractLsb' 4 3 == 0#3) (.ramo o w fs.rs1 fs.rs2 fs.rd)
/-- Major 0x1B (R269). -/
def major1B (fs : Fields) : Except DecodeError Instr :=
  match fs.f3.toNat, fs.f7.toNat with
  | 0x0, _ => do let f ← Scope.ofCode (fs.rs2.extractLsb' 0 2); zeros (fs.rd == 0#5 && fs.rs1 == 0#5 && fs.rs2.extractLsb' 2 3 == 0#3 && fs.f7 == 0#7) (.fence f)
  | 0x1, _ => .ok (.acq fs.rd fs.rs1 (fs.f7 ++ fs.rs2))
  | 0x2, _ => .ok (.rel fs.rs1 fs.rs2 (fs.f7 ++ fs.rd))
  | 0x3, _ => ranged (bindLogOk fs.f7) (zeros (fs.rd == 0#5) (.bind fs.rs1 fs.rs2 fs.f7))
  | 0x4, _ => zeros (fs.rd == 0#5 && fs.rs2 == 0#5 && fs.f7 == 0#7) (.unbind fs.rs1)
  | 0x5, _ => zeros (fs.rd == 0#5 && fs.rs1 == 0#5 && fs.rs2.extractLsb' 3 2 == 0#2 && fs.f7 == 0#7) (.bar (fs.rs2.extractLsb' 0 3))
  | 0x6, _ => zeros (fs.rd == 0#5 && fs.rs1 == 0#5 && fs.rs2 == 0#5 && fs.f7 == 0#7) (.barX)
  | 0x7, 0x0 => zeros (fs.rd == 0#5 && fs.rs2 == 0#5) (.arrive fs.rs1)
  | 0x7, 0x1 => zeros (fs.rd == 0#5) (.waitph fs.rs1 fs.rs2)
  | _, _ => .error .unassigned
/-- Major 0x1C (R270). -/
def major1C (fs : Fields) : Except DecodeError Instr :=
  match fs.f3.toNat with
  | 0x0 => .ok (.beq fs.rs1 fs.rs2 (fs.f7 ++ fs.rd))
  | 0x1 => .ok (.bne fs.rs1 fs.rs2 (fs.f7 ++ fs.rd))
  | 0x2 => .ok (.blt fs.rs1 fs.rs2 (fs.f7 ++ fs.rd))
  | 0x3 => .ok (.bge fs.rs1 fs.rs2 (fs.f7 ++ fs.rd))
  | 0x4 => .ok (.bltu fs.rs1 fs.rs2 (fs.f7 ++ fs.rd))
  | 0x5 => .ok (.bgeu fs.rs1 fs.rs2 (fs.f7 ++ fs.rd))
  | 0x6 => zeros (fs.rs1.extractLsb' 3 2 == 0#2 && fs.rs2 == 0#5) (.bp (fs.rs1.extractLsb' 0 3) (fs.f7 ++ fs.rd))
  | 0x7 => zeros (fs.rs1.extractLsb' 3 2 == 0#2 && fs.rs2 == 0#5) (.bnp (fs.rs1.extractLsb' 0 3) (fs.f7 ++ fs.rd))
  | _ => .error .unassigned
/-- Major 0x1D (R270). -/
def major1D (fs : Fields) : Except DecodeError Instr :=
  .ok (.jal fs.rd (fs.f7 ++ fs.rs2 ++ fs.f3 ++ fs.rs1))
/-- Major 0x1E (R270). -/
def major1E (fs : Fields) : Except DecodeError Instr :=
  match fs.f3.toNat with
  | 0x0 => .ok (.jalr fs.rd fs.rs1 (fs.f7 ++ fs.rs2))
  | _ => .error .unassigned
/-- Major 0x20 (R271). -/
def major20 (fs : Fields) : Except DecodeError Instr :=
  match (fs.f7.extractLsb' 3 4).toNat, fs.f3.toNat with
  | 0x0, _ => do let w ← Width.ofCode fs.f3; .ok (.vadd w fs.rd fs.rs1 fs.rs2 (fs.f7.extractLsb' 0 3))
  | 0x1, _ => do let w ← Width.ofCode fs.f3; .ok (.vsub w fs.rd fs.rs1 fs.rs2 (fs.f7.extractLsb' 0 3))
  | 0x2, _ => do let w ← Width.ofCode fs.f3; .ok (.vmul w fs.rd fs.rs1 fs.rs2 (fs.f7.extractLsb' 0 3))
  | 0x3, _ => do let w ← Width.ofCode fs.f3; .ok (.vmulh w fs.rd fs.rs1 fs.rs2 (fs.f7.extractLsb' 0 3))
  | 0x4, _ => do let w ← Width.ofCode fs.f3; .ok (.vmin w fs.rd fs.rs1 fs.rs2 (fs.f7.extractLsb' 0 3))
  | 0x5, _ => do let w ← Width.ofCode fs.f3; .ok (.vmax w fs.rd fs.rs1 fs.rs2 (fs.f7.extractLsb' 0 3))
  | 0x6, _ => do let w ← Width.ofCode fs.f3; .ok (.vminu w fs.rd fs.rs1 fs.rs2 (fs.f7.extractLsb' 0 3))
  | 0x7, _ => do let w ← Width.ofCode fs.f3; .ok (.vmaxu w fs.rd fs.rs1 fs.rs2 (fs.f7.extractLsb' 0 3))
  | 0x8, _ => do let w ← Width.ofCode fs.f3; .ok (.vsll w fs.rd fs.rs1 fs.rs2 (fs.f7.extractLsb' 0 3))
  | 0x9, _ => do let w ← Width.ofCode fs.f3; .ok (.vsrl w fs.rd fs.rs1 fs.rs2 (fs.f7.extractLsb' 0 3))
  | 0xA, _ => do let w ← Width.ofCode fs.f3; .ok (.vsra w fs.rd fs.rs1 fs.rs2 (fs.f7.extractLsb' 0 3))
  | 0xB, 0x0 => .ok (.vand fs.rd fs.rs1 fs.rs2 (fs.f7.extractLsb' 0 3))
  | 0xC, 0x0 => .ok (.vor fs.rd fs.rs1 fs.rs2 (fs.f7.extractLsb' 0 3))
  | 0xD, 0x0 => .ok (.vxor fs.rd fs.rs1 fs.rs2 (fs.f7.extractLsb' 0 3))
  | 0xE, 0x0 => zeros (fs.rs2 == 0#5) (.vmov fs.rd fs.rs1 (fs.f7.extractLsb' 0 3))
  | _, _ => .error .unassigned
/-- Major 0x21 (R271). -/
def major21 (fs : Fields) : Except DecodeError Instr :=
  match (fs.f7.extractLsb' 3 4).toNat, fs.f3.toNat with
  | 0x0, _ => do let w ← Width.ofCode fs.f3; .ok (.vaddX w fs.rd fs.rs1 fs.rs2 (fs.f7.extractLsb' 0 3))
  | 0x1, _ => do let w ← Width.ofCode fs.f3; .ok (.vsubX w fs.rd fs.rs1 fs.rs2 (fs.f7.extractLsb' 0 3))
  | 0x2, _ => do let w ← Width.ofCode fs.f3; .ok (.vmulX w fs.rd fs.rs1 fs.rs2 (fs.f7.extractLsb' 0 3))
  | 0x3, _ => do let w ← Width.ofCode fs.f3; .ok (.vmulhX w fs.rd fs.rs1 fs.rs2 (fs.f7.extractLsb' 0 3))
  | 0x4, _ => do let w ← Width.ofCode fs.f3; .ok (.vminX w fs.rd fs.rs1 fs.rs2 (fs.f7.extractLsb' 0 3))
  | 0x5, _ => do let w ← Width.ofCode fs.f3; .ok (.vmaxX w fs.rd fs.rs1 fs.rs2 (fs.f7.extractLsb' 0 3))
  | 0x6, _ => do let w ← Width.ofCode fs.f3; .ok (.vminuX w fs.rd fs.rs1 fs.rs2 (fs.f7.extractLsb' 0 3))
  | 0x7, _ => do let w ← Width.ofCode fs.f3; .ok (.vmaxuX w fs.rd fs.rs1 fs.rs2 (fs.f7.extractLsb' 0 3))
  | 0x8, _ => do let w ← Width.ofCode fs.f3; .ok (.vsllX w fs.rd fs.rs1 fs.rs2 (fs.f7.extractLsb' 0 3))
  | 0x9, _ => do let w ← Width.ofCode fs.f3; .ok (.vsrlX w fs.rd fs.rs1 fs.rs2 (fs.f7.extractLsb' 0 3))
  | 0xA, _ => do let w ← Width.ofCode fs.f3; .ok (.vsraX w fs.rd fs.rs1 fs.rs2 (fs.f7.extractLsb' 0 3))
  | 0xB, 0x0 => .ok (.vandX fs.rd fs.rs1 fs.rs2 (fs.f7.extractLsb' 0 3))
  | 0xC, 0x0 => .ok (.vorX fs.rd fs.rs1 fs.rs2 (fs.f7.extractLsb' 0 3))
  | 0xD, 0x0 => .ok (.vxorX fs.rd fs.rs1 fs.rs2 (fs.f7.extractLsb' 0 3))
  | _, _ => .error .unassigned
/-- Major 0x22 (R271). -/
def major22 (fs : Fields) : Except DecodeError Instr :=
  match (fs.f7.extractLsb' 3 4).toNat with
  | 0x0 => do let p ← FFmt.ofCode fs.f3; .ok (.vfadd p fs.rd fs.rs1 fs.rs2 (fs.f7.extractLsb' 0 3))
  | 0x1 => do let p ← FFmt.ofCode fs.f3; .ok (.vfsub p fs.rd fs.rs1 fs.rs2 (fs.f7.extractLsb' 0 3))
  | 0x2 => do let p ← FFmt.ofCode fs.f3; .ok (.vfmul p fs.rd fs.rs1 fs.rs2 (fs.f7.extractLsb' 0 3))
  | 0x3 => do let p ← FFmt.ofCode fs.f3; .ok (.vfdiv p fs.rd fs.rs1 fs.rs2 (fs.f7.extractLsb' 0 3))
  | 0x4 => do let p ← FFmt.ofCode fs.f3; zeros (fs.rs2 == 0#5) (.vfsqrt p fs.rd fs.rs1 (fs.f7.extractLsb' 0 3))
  | 0x5 => do let p ← FFmt.ofCode fs.f3; .ok (.vfmin p fs.rd fs.rs1 fs.rs2 (fs.f7.extractLsb' 0 3))
  | 0x6 => do let p ← FFmt.ofCode fs.f3; .ok (.vfmax p fs.rd fs.rs1 fs.rs2 (fs.f7.extractLsb' 0 3))
  | 0x7 => do let p ← FFmt.ofCode fs.f3; .ok (.vfmacc p fs.rd fs.rs1 fs.rs2 (fs.f7.extractLsb' 0 3))
  | 0x8 => do let p ← FFmt.ofCode fs.f3; .ok (.vfdot p fs.rd fs.rs1 fs.rs2 (fs.f7.extractLsb' 0 3))
  | _ => .error .unassigned
/-- Major 0x23 (R271). -/
def major23 (fs : Fields) : Except DecodeError Instr :=
  match (fs.f7.extractLsb' 3 4).toNat with
  | 0x0 => do let p ← FFmt.ofCode fs.f3; .ok (.vfaddX p fs.rd fs.rs1 fs.rs2 (fs.f7.extractLsb' 0 3))
  | 0x1 => do let p ← FFmt.ofCode fs.f3; .ok (.vfsubX p fs.rd fs.rs1 fs.rs2 (fs.f7.extractLsb' 0 3))
  | 0x2 => do let p ← FFmt.ofCode fs.f3; .ok (.vfmulX p fs.rd fs.rs1 fs.rs2 (fs.f7.extractLsb' 0 3))
  | 0x3 => do let p ← FFmt.ofCode fs.f3; .ok (.vfdivX p fs.rd fs.rs1 fs.rs2 (fs.f7.extractLsb' 0 3))
  | 0x5 => do let p ← FFmt.ofCode fs.f3; .ok (.vfminX p fs.rd fs.rs1 fs.rs2 (fs.f7.extractLsb' 0 3))
  | 0x6 => do let p ← FFmt.ofCode fs.f3; .ok (.vfmaxX p fs.rd fs.rs1 fs.rs2 (fs.f7.extractLsb' 0 3))
  | 0x7 => do let p ← FFmt.ofCode fs.f3; .ok (.vfmaccX p fs.rd fs.rs1 fs.rs2 (fs.f7.extractLsb' 0 3))
  | _ => .error .unassigned
/-- Major 0x24 (R271). -/
def major24 (fs : Fields) : Except DecodeError Instr :=
  match (fs.f7.extractLsb' 3 4).toNat with
  | 0x0 => do let w ← Width.ofCode fs.f3; zeros (fs.rd.extractLsb' 3 2 == 0#2) (.vcmpEq w (fs.rd.extractLsb' 0 3) fs.rs1 fs.rs2 (fs.f7.extractLsb' 0 3))
  | 0x1 => do let w ← Width.ofCode fs.f3; zeros (fs.rd.extractLsb' 3 2 == 0#2) (.vcmpNe w (fs.rd.extractLsb' 0 3) fs.rs1 fs.rs2 (fs.f7.extractLsb' 0 3))
  | 0x2 => do let w ← Width.ofCode fs.f3; zeros (fs.rd.extractLsb' 3 2 == 0#2) (.vcmpLt w (fs.rd.extractLsb' 0 3) fs.rs1 fs.rs2 (fs.f7.extractLsb' 0 3))
  | 0x3 => do let w ← Width.ofCode fs.f3; zeros (fs.rd.extractLsb' 3 2 == 0#2) (.vcmpGe w (fs.rd.extractLsb' 0 3) fs.rs1 fs.rs2 (fs.f7.extractLsb' 0 3))
  | 0x4 => do let w ← Width.ofCode fs.f3; zeros (fs.rd.extractLsb' 3 2 == 0#2) (.vcmpLtu w (fs.rd.extractLsb' 0 3) fs.rs1 fs.rs2 (fs.f7.extractLsb' 0 3))
  | 0x5 => do let w ← Width.ofCode fs.f3; zeros (fs.rd.extractLsb' 3 2 == 0#2) (.vcmpGeu w (fs.rd.extractLsb' 0 3) fs.rs1 fs.rs2 (fs.f7.extractLsb' 0 3))
  | 0x8 => do let p ← FFmt.ofCode fs.f3; zeros (fs.rd.extractLsb' 3 2 == 0#2) (.vfcmpEq p (fs.rd.extractLsb' 0 3) fs.rs1 fs.rs2 (fs.f7.extractLsb' 0 3))
  | 0x9 => do let p ← FFmt.ofCode fs.f3; zeros (fs.rd.extractLsb' 3 2 == 0#2) (.vfcmpNe p (fs.rd.extractLsb' 0 3) fs.rs1 fs.rs2 (fs.f7.extractLsb' 0 3))
  | 0xA => do let p ← FFmt.ofCode fs.f3; zeros (fs.rd.extractLsb' 3 2 == 0#2) (.vfcmpLt p (fs.rd.extractLsb' 0 3) fs.rs1 fs.rs2 (fs.f7.extractLsb' 0 3))
  | 0xB => do let p ← FFmt.ofCode fs.f3; zeros (fs.rd.extractLsb' 3 2 == 0#2) (.vfcmpLe p (fs.rd.extractLsb' 0 3) fs.rs1 fs.rs2 (fs.f7.extractLsb' 0 3))
  | _ => .error .unassigned
/-- Major 0x25 (R271). -/
def major25 (fs : Fields) : Except DecodeError Instr :=
  match (fs.f7.extractLsb' 3 4).toNat, fs.f3.toNat with
  | 0x0, 0x0 => zeros (fs.rd.extractLsb' 3 2 == 0#2 && fs.rs1.extractLsb' 3 2 == 0#2 && fs.rs2.extractLsb' 3 2 == 0#2 && fs.f7.extractLsb' 0 3 == 0#3) (.mand (fs.rd.extractLsb' 0 3) (fs.rs1.extractLsb' 0 3) (fs.rs2.extractLsb' 0 3))
  | 0x1, 0x0 => zeros (fs.rd.extractLsb' 3 2 == 0#2 && fs.rs1.extractLsb' 3 2 == 0#2 && fs.rs2.extractLsb' 3 2 == 0#2 && fs.f7.extractLsb' 0 3 == 0#3) (.mor (fs.rd.extractLsb' 0 3) (fs.rs1.extractLsb' 0 3) (fs.rs2.extractLsb' 0 3))
  | 0x2, 0x0 => zeros (fs.rd.extractLsb' 3 2 == 0#2 && fs.rs1.extractLsb' 3 2 == 0#2 && fs.rs2.extractLsb' 3 2 == 0#2 && fs.f7.extractLsb' 0 3 == 0#3) (.mxor (fs.rd.extractLsb' 0 3) (fs.rs1.extractLsb' 0 3) (fs.rs2.extractLsb' 0 3))
  | 0x3, 0x0 => zeros (fs.rd.extractLsb' 3 2 == 0#2 && fs.rs1.extractLsb' 3 2 == 0#2 && fs.rs2 == 0#5 && fs.f7.extractLsb' 0 3 == 0#3) (.mnot (fs.rd.extractLsb' 0 3) (fs.rs1.extractLsb' 0 3))
  | 0x4, 0x0 => zeros (fs.rs1.extractLsb' 3 2 == 0#2 && fs.rs2 == 0#5 && fs.f7.extractLsb' 0 3 == 0#3) (.mcnt fs.rd (fs.rs1.extractLsb' 0 3))
  | 0x5, 0x0 => zeros (fs.rs1.extractLsb' 3 2 == 0#2 && fs.rs2 == 0#5 && fs.f7.extractLsb' 0 3 == 0#3) (.mfirst fs.rd (fs.rs1.extractLsb' 0 3))
  | 0x6, 0x0 => .ok (.vsel fs.rd fs.rs1 fs.rs2 (fs.f7.extractLsb' 0 3))
  | 0x8, _ => do let w ← Width.ofCode fs.f3; zeros (fs.rs2 == 0#5) (.vredsum w fs.rd fs.rs1 (fs.f7.extractLsb' 0 3))
  | 0x9, _ => do let w ← Width.ofCode fs.f3; zeros (fs.rs2 == 0#5) (.vredmin w fs.rd fs.rs1 (fs.f7.extractLsb' 0 3))
  | 0xA, _ => do let w ← Width.ofCode fs.f3; zeros (fs.rs2 == 0#5) (.vredmax w fs.rd fs.rs1 (fs.f7.extractLsb' 0 3))
  | 0xB, _ => do let w ← Width.ofCode fs.f3; zeros (fs.rs2 == 0#5) (.vredminu w fs.rd fs.rs1 (fs.f7.extractLsb' 0 3))
  | 0xC, _ => do let w ← Width.ofCode fs.f3; zeros (fs.rs2 == 0#5) (.vredmaxu w fs.rd fs.rs1 (fs.f7.extractLsb' 0 3))
  | 0xD, _ => do let p ← FFmt.ofRedCode fs.f3; zeros (fs.rs2 == 0#5) (.vfredsum p fs.rd fs.rs1 (fs.f7.extractLsb' 0 3))
  | 0xE, _ => do let p ← FFmt.ofRedCode fs.f3; zeros (fs.rs2 == 0#5) (.vfredmin p fs.rd fs.rs1 (fs.f7.extractLsb' 0 3))
  | 0xF, _ => do let p ← FFmt.ofRedCode fs.f3; zeros (fs.rs2 == 0#5) (.vfredmax p fs.rd fs.rs1 (fs.f7.extractLsb' 0 3))
  | _, _ => .error .unassigned
/-- Major 0x26 (R271). -/
def major26 (fs : Fields) : Except DecodeError Instr :=
  match (fs.f7.extractLsb' 3 4).toNat with
  | 0x0 => do let w ← Width.ofCode fs.f3; .ok (.vperm w fs.rd fs.rs1 fs.rs2 (fs.f7.extractLsb' 0 3))
  | 0x1 => do let w ← Width.ofCode fs.f3; .ok (.vslideUp w fs.rd fs.rs1 fs.rs2 (fs.f7.extractLsb' 0 3))
  | 0x2 => do let w ← Width.ofCode fs.f3; .ok (.vslideDown w fs.rd fs.rs1 fs.rs2 (fs.f7.extractLsb' 0 3))
  | 0x3 => do let w ← Width.ofCode fs.f3; .ok (.vzip w fs.rd fs.rs1 fs.rs2 (fs.f7.extractLsb' 0 3))
  | 0x4 => do let w ← Width.ofCode fs.f3; .ok (.vunzip w fs.rd fs.rs1 fs.rs2 (fs.f7.extractLsb' 0 3))
  | 0x5 => do let w ← Width.ofCode fs.f3; zeros (fs.rs2 == 0#5) (.vrev w fs.rd fs.rs1 (fs.f7.extractLsb' 0 3))
  | 0x6 => do let w ← Width.ofCode fs.f3; zeros (fs.rs2 == 0#5) (.vbcast w fs.rd fs.rs1 (fs.f7.extractLsb' 0 3))
  | 0x7 => do let w ← Width.ofCode fs.f3; zeros (fs.f7.extractLsb' 0 3 == 0#3) (.vext w fs.rd fs.rs1 fs.rs2)
  | _ => .error .unassigned
/-- Major 0x27 (R271). -/
def major27 (fs : Fields) : Except DecodeError Instr :=
  match (fs.f7.extractLsb' 3 4).toNat, fs.f3.toNat with
  | 0x0, 0x0 => .ok (.vcvt fs.rd fs.rs1 fs.rs2 (fs.f7.extractLsb' 0 3))
  | 0x1, _ => do let w ← PackWidth.ofCode fs.f3; .ok (.vpack w fs.rd fs.rs1 fs.rs2 (fs.f7.extractLsb' 0 3))
  | 0x2, _ => do let w ← PackWidth.ofCode fs.f3; zeros (fs.rs2 == 0#5) (.vunpackLo w fs.rd fs.rs1 (fs.f7.extractLsb' 0 3))
  | 0x3, _ => do let w ← PackWidth.ofCode fs.f3; zeros (fs.rs2 == 0#5) (.vunpackHi w fs.rd fs.rs1 (fs.f7.extractLsb' 0 3))
  | _, _ => .error .unassigned
/-- Major 0x28 (R271). -/
def major28 (fs : Fields) : Except DecodeError Instr :=
  match (fs.f7.extractLsb' 3 4).toNat, fs.f3.toNat, (fs.f3.extractLsb' 0 2).toNat with
  | 0x0, _, 0x0 => zeros (fs.rs2 == 0#5) (.vld (fs.f3.extractLsb' 2 1 == 1#1) fs.rd fs.rs1 (fs.f7.extractLsb' 0 3))
  | 0x1, 0x0, _ => zeros (fs.rs2 == 0#5) (.vst fs.rd fs.rs1 (fs.f7.extractLsb' 0 3))
  | 0x2, _, _ => .ok (.vlds (fs.f3.extractLsb' 2 1 == 1#1) (Width.ofCode2 (fs.f3.extractLsb' 0 2)) fs.rd fs.rs1 fs.rs2 (fs.f7.extractLsb' 0 3))
  | 0x3, _, _ => do let w ← Width.ofCode fs.f3; .ok (.vsts w fs.rd fs.rs1 fs.rs2 (fs.f7.extractLsb' 0 3))
  | 0x4, _, _ => .ok (.vgather (fs.f3.extractLsb' 2 1 == 1#1) (Width.ofCode2 (fs.f3.extractLsb' 0 2)) fs.rd fs.rs1 fs.rs2 (fs.f7.extractLsb' 0 3))
  | 0x5, _, _ => do let w ← Width.ofCode fs.f3; .ok (.vscatter w fs.rd fs.rs1 fs.rs2 (fs.f7.extractLsb' 0 3))
  | 0x6, _, 0x0 => zeros (fs.rd.extractLsb' 2 3 == 0#3 && fs.rs2 == 0#5 && fs.f7.extractLsb' 0 3 == 0#3) (.vldq (fs.f3.extractLsb' 2 1 == 1#1) (fs.rd.extractLsb' 0 2) fs.rs1)
  | _, _, _ => .error .unassigned
/-- Major 0x29 (R271). -/
def major29 (fs : Fields) : Except DecodeError Instr :=
  match (fs.f7.extractLsb' 3 4).toNat with
  | 0x0 => .ok (.vaddm (Lane.ofCode (fs.f3.extractLsb' 0 1)) (fs.f3.extractLsb' 1 2) fs.rd fs.rs1 fs.rs2 (fs.f7.extractLsb' 0 3))
  | 0x1 => .ok (.vsubm (Lane.ofCode (fs.f3.extractLsb' 0 1)) (fs.f3.extractLsb' 1 2) fs.rd fs.rs1 fs.rs2 (fs.f7.extractLsb' 0 3))
  | 0x2 => .ok (.vmulm (Lane.ofCode (fs.f3.extractLsb' 0 1)) (fs.f3.extractLsb' 1 2) fs.rd fs.rs1 fs.rs2 (fs.f7.extractLsb' 0 3))
  | 0x3 => .ok (.vmacm (Lane.ofCode (fs.f3.extractLsb' 0 1)) (fs.f3.extractLsb' 1 2) fs.rd fs.rs1 fs.rs2 (fs.f7.extractLsb' 0 3))
  | 0x4 => .ok (.vmodred (Lane.ofCode (fs.f3.extractLsb' 0 1)) (fs.f3.extractLsb' 1 2) fs.rd fs.rs1 fs.rs2 (fs.f7.extractLsb' 0 3))
  | _ => .error .unassigned
/-- Major 0x2A (R271). -/
def major2A (fs : Fields) : Except DecodeError Instr :=
  match (fs.f7.extractLsb' 3 4).toNat with
  | 0x0 => ranged (stageOk (Lane.ofCode (fs.f3.extractLsb' 0 1)) fs.rs1) (.ok (.vbflyCt (Lane.ofCode (fs.f3.extractLsb' 0 1)) (fs.f3.extractLsb' 1 2) fs.rd fs.rs1 fs.rs2 (fs.f7.extractLsb' 0 3)))
  | 0x1 => ranged (stageOk (Lane.ofCode (fs.f3.extractLsb' 0 1)) fs.rs1) (.ok (.vbflyGs (Lane.ofCode (fs.f3.extractLsb' 0 1)) (fs.f3.extractLsb' 1 2) fs.rd fs.rs1 fs.rs2 (fs.f7.extractLsb' 0 3)))
  | 0x2 => ranged (fs.rd ≠ fs.rs1) (.ok (.vbflyxCt (Lane.ofCode (fs.f3.extractLsb' 0 1)) (fs.f3.extractLsb' 1 2) fs.rd fs.rs1 fs.rs2 (fs.f7.extractLsb' 0 3)))
  | 0x3 => ranged (fs.rd ≠ fs.rs1) (.ok (.vbflyxGs (Lane.ofCode (fs.f3.extractLsb' 0 1)) (fs.f3.extractLsb' 1 2) fs.rd fs.rs1 fs.rs2 (fs.f7.extractLsb' 0 3)))
  | 0x4 => .ok (.vpermb fs.f3 fs.rd fs.rs1 fs.rs2 (fs.f7.extractLsb' 0 3))
  | _ => .error .unassigned
/-- Major 0x2B (R271). -/
def major2B (fs : Fields) : Except DecodeError Instr :=
  match (fs.f7.extractLsb' 3 4).toNat, fs.f3.toNat with
  | 0x0, 0x0 => zeros (fs.rs2 == 0#5) (.vtolog fs.rd fs.rs1 (fs.f7.extractLsb' 0 3))
  | 0x1, 0x0 => zeros (fs.rs2 == 0#5) (.vfromlog fs.rd fs.rs1 (fs.f7.extractLsb' 0 3))
  | 0x2, 0x0 => .ok (.vlogadd fs.rd fs.rs1 fs.rs2 (fs.f7.extractLsb' 0 3))
  | 0x3, 0x0 => .ok (.vsdq fs.rd fs.rs1 fs.rs2 (fs.f7.extractLsb' 0 3))
  | _, _ => .error .unassigned
/-- Major 0x2C (R271). -/
def major2C (fs : Fields) : Except DecodeError Instr :=
  match (fs.f7.extractLsb' 3 4).toNat, fs.f3.toNat with
  | 0x0, 0x0 => zeros (fs.rs1 == 0#5 && fs.rs2 == 0#5 && fs.f7.extractLsb' 0 3 == 0#3) (.vwidth fs.rd)
  | 0x1, _ => zeros (fs.rd.extractLsb' 3 2 == 0#2 && fs.f7.extractLsb' 0 3 == 0#3) (.vwhile (fs.f3.extractLsb' 2 1 == 1#1) (Width.ofCode2 (fs.f3.extractLsb' 0 2)) (fs.rd.extractLsb' 0 3) fs.rs1 fs.rs2)
  | 0x2, 0x0 => zeros (fs.rd == 0#5 && fs.rs1 == 0#5 && fs.rs2 == 0#5 && fs.f7.extractLsb' 0 3 == 0#3) (.vfence)
  | _, _ => .error .unassigned
/-- Major 0x30 (R272). -/
def major30 (fs : Fields) : Except DecodeError Instr :=
  match fs.f3.toNat with
  | 0x0 => .ok (.tmma (fs.f7.extractLsb' 0 2) fs.rd fs.rs1 fs.rs2 (fs.f7.extractLsb' 2 5))
  | 0x1 => .ok (.tspmac (fs.f7.extractLsb' 0 2) fs.rd fs.rs1 fs.rs2 (fs.f7.extractLsb' 2 5))
  | 0x2 => zeros (fs.rd == 0#5 && fs.rs1 == 0#5 && fs.rs2 == 0#5 && fs.f7.extractLsb' 2 5 == 0#5) (.tclr (fs.f7.extractLsb' 0 2))
  | 0x3 => zeros (fs.rd == 0#5 && fs.f7.extractLsb' 2 5 == 0#5) (.tacc2s (fs.f7.extractLsb' 0 2) fs.rs1 fs.rs2)
  | 0x4 => zeros (fs.rd == 0#5 && fs.f7.extractLsb' 2 5 == 0#5) (.ts2acc (fs.f7.extractLsb' 0 2) fs.rs1 fs.rs2)
  | _ => .error .unassigned
/-- Major 0x31 (R272). -/
def major31 (fs : Fields) : Except DecodeError Instr :=
  match fs.f3.toNat with
  | 0x0 => zeros (fs.rd == 0#5 && fs.f7.extractLsb' 0 2 == 0#2) (.tmsend fs.rs1 fs.rs2 (fs.f7.extractLsb' 2 5))
  | 0x1 => zeros (fs.rd == 0#5 && fs.rs1 == 0#5 && fs.rs2 == 0#5 && fs.f7.extractLsb' 2 5 == 0#5 && fs.f7.extractLsb' 0 2 == 0#2) (.twait)
  | _ => .error .unassigned
/-- Major 0x32 (R272). -/
def major32 (fs : Fields) : Except DecodeError Instr :=
  match fs.f3.toNat with
  | 0x0 => zeros (fs.f7.extractLsb' 0 2 == 0#2) (.tcopy fs.rd fs.rs1 fs.rs2 (fs.f7.extractLsb' 2 5))
  | 0x1 => do let e ← GatherSize.ofCode (fs.f7.extractLsb' 0 2); .ok (.tgather e fs.rd fs.rs1 fs.rs2 (fs.f7.extractLsb' 2 5))
  | _ => .error .unassigned
/-- Major 0x38 (R273). -/
def major38 (fs : Fields) : Except DecodeError Instr :=
  match fs.f3.toNat with
  | 0x0 => zeros (fs.f7 == 0#7) (.evsend fs.rd fs.rs1 fs.rs2)
  | 0x1 => zeros (fs.rd == 0#5 && fs.rs2 == 0#5 && fs.f7 == 0#7) (.evwait fs.rs1)
  | 0x2 => ranged (pairOk fs.rd) (zeros (fs.rs1 == 0#5 && fs.rs2 == 0#5 && fs.f7 == 0#7) (.evnext fs.rd))
  | 0x3 => ranged (pairOk fs.rd) (zeros (fs.rs1 == 0#5 && fs.rs2 == 0#5 && fs.f7 == 0#7) (.evpeek fs.rd))
  | 0x4 => zeros (fs.rd == 0#5 && fs.rs2 == 0#5 && fs.f7 == 0#7) (.vtadv fs.rs1)
  | _ => .error .unassigned
/-- Major 0x39 (R273). -/
def major39 (fs : Fields) : Except DecodeError Instr :=
  match fs.f3.toNat with
  | 0x0 => zeros (fs.rs2 == 0#5 && fs.f7 == 0#7) (.dqpush fs.rd fs.rs1)
  | 0x1 => zeros (fs.rs2 == 0#5 && fs.f7 == 0#7) (.dqpop fs.rd fs.rs1)
  | 0x2 => zeros (fs.rd == 0#5 && fs.f7 == 0#7) (.tdec fs.rs1 fs.rs2)
  | 0x3 => zeros (fs.rd == 0#5 && fs.f7 == 0#7) (.tspawn fs.rs1 fs.rs2)
  | 0x4 => zeros (fs.rd == 0#5 && fs.rs1 == 0#5 && fs.rs2 == 0#5 && fs.f7 == 0#7) (.texit)
  | 0x5 => zeros (fs.rd == 0#5 && fs.rs1 == 0#5 && fs.rs2 == 0#5 && fs.f7 == 0#7) (.tdetach)
  | 0x6 => zeros (fs.rd == 0#5 && fs.rs1 == 0#5 && fs.rs2 == 0#5 && fs.f7 == 0#7) (.tyield)
  | 0x7 => zeros (fs.rd == 0#5 && fs.rs2 == 0#5 && fs.f7 == 0#7) (.go fs.rs1)
  | _ => .error .unassigned
/-- Major 0x3A (R273). -/
def major3A (fs : Fields) : Except DecodeError Instr :=
  match fs.f3.toNat with
  | 0x0 => zeros (fs.rd == 0#5 && fs.rs1 == 0#5 && fs.rs2 == 0#5 && fs.f7 == 0#7) (.barT)
  | 0x1 => zeros (fs.rd == 0#5 && fs.rs2 == 0#5 && fs.f7.extractLsb' 2 5 == 0#5) (.nsend (Dir.ofCode (fs.f7.extractLsb' 0 2)) fs.rs1)
  | 0x2 => zeros (fs.rs1 == 0#5 && fs.rs2 == 0#5 && fs.f7.extractLsb' 2 5 == 0#5) (.nrecv (Dir.ofCode (fs.f7.extractLsb' 0 2)) fs.rd)
  | _ => .error .unassigned
/-- Major 0x3D (R274). -/
def major3D (fs : Fields) : Except DecodeError Instr :=
  match fs.f3.toNat, fs.f7.toNat, fs.rs2.toNat with
  | 0x0, 0x0, 0x0 => zeros (fs.rd == 0#5 && fs.rs1 == 0#5) (.ecall)
  | 0x0, 0x0, 0x1 => zeros (fs.rd == 0#5 && fs.rs1 == 0#5) (.ebreak)
  | 0x0, 0x0, 0x2 => zeros (fs.rd == 0#5 && fs.rs1 == 0#5) (.tret)
  | 0x0, 0x0, 0x3 => zeros (fs.rd == 0#5 && fs.rs1 == 0#5) (.wfe)
  | 0x0, 0x0, 0x4 => zeros (fs.rd == 0#5 && fs.rs1 == 0#5) (.halt)
  | 0x1, _, _ => ranged (csrAssigned (fs.f7 ++ fs.rs2)) (zeros (fs.rs1 == 0#5) (.csrr (fs.f7 ++ fs.rs2) fs.rd))
  | 0x2, _, _ => ranged (csrAssigned (fs.f7 ++ fs.rs2)) (zeros (fs.rd == 0#5) (.csrw (fs.f7 ++ fs.rs2) fs.rs1))
  | 0x3, _, _ => ranged (csrAssigned (fs.f7 ++ fs.rs2)) (zeros (fs.rd == 0#5) (.csrs (fs.f7 ++ fs.rs2) fs.rs1))
  | 0x4, _, _ => ranged (csrAssigned (fs.f7 ++ fs.rs2)) (zeros (fs.rd == 0#5) (.csrc (fs.f7 ++ fs.rs2) fs.rs1))
  | _, _, _ => .error .unassigned
/-- Major 0x3C (R257, R274): FA [10:7], FB [14:11], FC [18:15], FD [22:19], RM [25:23], SAT [26], [31:27] reserved. -/
def major3C (w : BitVec 32) : Except DecodeError Instr :=
  zeros (w.extractLsb' 27 5 == 0#5 && fmtRmOk (w.extractLsb' 23 3))
    (.fmt (w.extractLsb' 26 1) (w.extractLsb' 23 3) (w.extractLsb' 19 4) (w.extractLsb' 15 4) (w.extractLsb' 11 4) (w.extractLsb' 7 4))

/-- The 32-bit instruction of a word whose bit 0 is 1 (R261, R265, R266). -/
def decode32 (w : BitVec 32) : Except DecodeError Instr :=
  let f := Fields.ofWord w
  match f.major.toNat with
  | 0x00 => major00 f
  | 0x01 => major01 f
  | 0x02 => major02 f
  | 0x03 => major03 f
  | 0x04 => major04 f
  | 0x05 => major05 f
  | 0x06 => major06 f
  | 0x07 => major07 f
  | 0x10 => major10 f
  | 0x11 => major11 f
  | 0x12 => major12 f
  | 0x13 => major13 f
  | 0x14 => major14 f
  | 0x15 => major15 f
  | 0x18 => major18 f
  | 0x19 => major19 f
  | 0x1A => major1A f
  | 0x1B => major1B f
  | 0x1C => major1C f
  | 0x1D => major1D f
  | 0x1E => major1E f
  | 0x20 => major20 f
  | 0x21 => major21 f
  | 0x22 => major22 f
  | 0x23 => major23 f
  | 0x24 => major24 f
  | 0x25 => major25 f
  | 0x26 => major26 f
  | 0x27 => major27 f
  | 0x28 => major28 f
  | 0x29 => major29 f
  | 0x2A => major2A f
  | 0x2B => major2B f
  | 0x2C => major2C f
  | 0x30 => major30 f
  | 0x31 => major31 f
  | 0x32 => major32 f
  | 0x38 => major38 f
  | 0x39 => major39 f
  | 0x3A => major3A f
  | 0x3C => major3C w
  | 0x3D => major3D f
  | _ => .error .unassigned

/-- The 16-bit form of a halfword whose bit 0 is 0 (R264): op4 [4:1], vd [9:5], vs [14:10], g [15]. -/
def decode16 (h : BitVec 16) : Except DecodeError Instr :=
  let d := h.extractLsb' 5 5
  let s := h.extractLsb' 10 5
  let g := h.extractLsb' 15 1
  match (h.extractLsb' 1 4).toNat with
  | 0x0 => if g == 0#1 && d == 0#5 && s == 0#5 then .error .unassigned else .ok (.vmov16 g d s)
  | 0x1 => .ok (.vaddI32x16 g d s)
  | 0x2 => .ok (.vsubI32x16 g d s)
  | 0x3 => .ok (.vand16 g d s)
  | 0x4 => .ok (.vor16 g d s)
  | 0x5 => .ok (.vxor16 g d s)
  | 0x6 => .ok (.vsllI32x16 g d s)
  | 0x7 => .ok (.vfaddF32x16 g d s)
  | 0x8 => .ok (.vfsubF32x16 g d s)
  | 0x9 => .ok (.vfmulF32x16 g d s)
  | 0xA => .ok (.vfmaxF32x16 g d s)
  | 0xB => .ok (.vfminF32x16 g d s)
  | 0xC => .ok (.vaddm16 g d s)
  | 0xD => .ok (.vsubm16 g d s)
  | 0xE => .ok (.vmulm16 g d s)
  | _ => .ok (.vlogadd16 g d s)

/-- An instruction of either length: what a fetch decodes from the halfword at pc and the halfword after it (R260). -/
def decodeWord (w : BitVec 32) : Except DecodeError Instr :=
  if w.getLsbD 0 then decode32 w else decode16 (w.extractLsb' 0 16)

/-- The instruction or, for an illegal word, the step that raises illegal-instruction with the word's bits (R265). -/
def decodeOrIllegal (w : BitVec 32) : Instr :=
  match decodeWord w with
  | .ok i => i
  | .error .unassigned => .unassignedEncoding (if w.getLsbD 0 then w else (w.setWidth 16).setWidth 32) false
  | .error .nonzeroField => .unassignedEncoding (if w.getLsbD 0 then w else (w.setWidth 16).setWidth 32) true

/-- What the decoder reads from the first bits of an instruction, numbered as the opcode table numbers them: bit 0 is
the least significant bit of the first halfword (R260). Bits above `nbits` are 0. -/
def decodeTableWord (nbits w : Nat) : Option Instr :=
  match decodeWord (BitVec.ofNat 32 (w % 2 ^ nbits)) with
  | .ok i => some i
  | .error _ => none

/-- The fields of an encoded 32-bit instruction other than `fmt`; the fields of a step without encoding are zero. -/
def encodeFields : Instr → Fields
  | .add d a b => ⟨0x00#6, d, a, 0x00#3, b, 0x00#7⟩
  | .sub d a b => ⟨0x00#6, d, a, 0x00#3, b, 0x01#7⟩
  | .and d a b => ⟨0x00#6, d, a, 0x00#3, b, 0x02#7⟩
  | .or d a b => ⟨0x00#6, d, a, 0x00#3, b, 0x03#7⟩
  | .xor d a b => ⟨0x00#6, d, a, 0x00#3, b, 0x04#7⟩
  | .andn d a b => ⟨0x00#6, d, a, 0x00#3, b, 0x05#7⟩
  | .orn d a b => ⟨0x00#6, d, a, 0x00#3, b, 0x06#7⟩
  | .sll d a b => ⟨0x00#6, d, a, 0x00#3, b, 0x07#7⟩
  | .srl d a b => ⟨0x00#6, d, a, 0x00#3, b, 0x08#7⟩
  | .sra d a b => ⟨0x00#6, d, a, 0x00#3, b, 0x09#7⟩
  | .rol d a b => ⟨0x00#6, d, a, 0x00#3, b, 0x0A#7⟩
  | .ror d a b => ⟨0x00#6, d, a, 0x00#3, b, 0x0B#7⟩
  | .slt d a b => ⟨0x00#6, d, a, 0x00#3, b, 0x0C#7⟩
  | .sltu d a b => ⟨0x00#6, d, a, 0x00#3, b, 0x0D#7⟩
  | .min d a b => ⟨0x00#6, d, a, 0x00#3, b, 0x0E#7⟩
  | .max d a b => ⟨0x00#6, d, a, 0x00#3, b, 0x0F#7⟩
  | .minu d a b => ⟨0x00#6, d, a, 0x00#3, b, 0x10#7⟩
  | .maxu d a b => ⟨0x00#6, d, a, 0x00#3, b, 0x11#7⟩
  | .mul d a b => ⟨0x00#6, d, a, 0x00#3, b, 0x12#7⟩
  | .mulh d a b => ⟨0x00#6, d, a, 0x00#3, b, 0x13#7⟩
  | .mulhu d a b => ⟨0x00#6, d, a, 0x00#3, b, 0x14#7⟩
  | .mulhsu d a b => ⟨0x00#6, d, a, 0x00#3, b, 0x15#7⟩
  | .div d a b => ⟨0x00#6, d, a, 0x00#3, b, 0x16#7⟩
  | .divu d a b => ⟨0x00#6, d, a, 0x00#3, b, 0x17#7⟩
  | .rem d a b => ⟨0x00#6, d, a, 0x00#3, b, 0x18#7⟩
  | .remu d a b => ⟨0x00#6, d, a, 0x00#3, b, 0x19#7⟩
  | .clz d a => ⟨0x00#6, d, a, 0x00#3, 0#5, 0x1A#7⟩
  | .ctz d a => ⟨0x00#6, d, a, 0x00#3, 0#5, 0x1B#7⟩
  | .popc d a => ⟨0x00#6, d, a, 0x00#3, 0#5, 0x1C#7⟩
  | .sext d a w => ⟨0x00#6, d, a, 0x00#3, w.code, 0x1D#7⟩
  | .zext d a w => ⟨0x00#6, d, a, 0x00#3, w.code, 0x1E#7⟩
  | .addW d a b => ⟨0x00#6, d, a, 0x01#3, b, 0x00#7⟩
  | .subW d a b => ⟨0x00#6, d, a, 0x01#3, b, 0x01#7⟩
  | .sllW d a b => ⟨0x00#6, d, a, 0x01#3, b, 0x07#7⟩
  | .srlW d a b => ⟨0x00#6, d, a, 0x01#3, b, 0x08#7⟩
  | .sraW d a b => ⟨0x00#6, d, a, 0x01#3, b, 0x09#7⟩
  | .rolW d a b => ⟨0x00#6, d, a, 0x01#3, b, 0x0A#7⟩
  | .rorW d a b => ⟨0x00#6, d, a, 0x01#3, b, 0x0B#7⟩
  | .mulW d a b => ⟨0x00#6, d, a, 0x01#3, b, 0x12#7⟩
  | .divW d a b => ⟨0x00#6, d, a, 0x01#3, b, 0x16#7⟩
  | .divuW d a b => ⟨0x00#6, d, a, 0x01#3, b, 0x17#7⟩
  | .remW d a b => ⟨0x00#6, d, a, 0x01#3, b, 0x18#7⟩
  | .remuW d a b => ⟨0x00#6, d, a, 0x01#3, b, 0x19#7⟩
  | .clzW d a => ⟨0x00#6, d, a, 0x01#3, 0#5, 0x1A#7⟩
  | .ctzW d a => ⟨0x00#6, d, a, 0x01#3, 0#5, 0x1B#7⟩
  | .popcW d a => ⟨0x00#6, d, a, 0x01#3, 0#5, 0x1C#7⟩
  | .addi d a i => ⟨0x01#6, d, a, 0x00#3, i.extractLsb' 0 5, i.extractLsb' 5 7⟩
  | .andi d a i => ⟨0x01#6, d, a, 0x01#3, i.extractLsb' 0 5, i.extractLsb' 5 7⟩
  | .ori d a i => ⟨0x01#6, d, a, 0x02#3, i.extractLsb' 0 5, i.extractLsb' 5 7⟩
  | .xori d a i => ⟨0x01#6, d, a, 0x03#3, i.extractLsb' 0 5, i.extractLsb' 5 7⟩
  | .slti d a i => ⟨0x01#6, d, a, 0x04#3, i.extractLsb' 0 5, i.extractLsb' 5 7⟩
  | .sltiu d a i => ⟨0x01#6, d, a, 0x05#3, i.extractLsb' 0 5, i.extractLsb' 5 7⟩
  | .slli d a h => ⟨0x01#6, d, a, 0x06#3, h.extractLsb' 0 5, 0x00#6 ++ h.extractLsb' 5 1⟩
  | .srli d a h => ⟨0x01#6, d, a, 0x06#3, h.extractLsb' 0 5, 0x10#6 ++ h.extractLsb' 5 1⟩
  | .srai d a h => ⟨0x01#6, d, a, 0x06#3, h.extractLsb' 0 5, 0x20#6 ++ h.extractLsb' 5 1⟩
  | .addiW d a i => ⟨0x02#6, d, a, 0x00#3, i.extractLsb' 0 5, i.extractLsb' 5 7⟩
  | .slliW d a h => ⟨0x02#6, d, a, 0x06#3, h, 0x00#7⟩
  | .srliW d a h => ⟨0x02#6, d, a, 0x06#3, h, 0x20#7⟩
  | .sraiW d a h => ⟨0x02#6, d, a, 0x06#3, h, 0x40#7⟩
  | .lui d i => ⟨0x03#6, d, i.extractLsb' 0 5, i.extractLsb' 5 3, i.extractLsb' 8 5, i.extractLsb' 13 7⟩
  | .auipc d i => ⟨0x04#6, d, i.extractLsb' 0 5, i.extractLsb' 5 3, i.extractLsb' 8 5, i.extractLsb' 13 7⟩
  | .fadd p d a b => ⟨0x05#6, d, a, p.code, b, 0x00#7⟩
  | .fsub p d a b => ⟨0x05#6, d, a, p.code, b, 0x01#7⟩
  | .fmul p d a b => ⟨0x05#6, d, a, p.code, b, 0x02#7⟩
  | .fdiv p d a b => ⟨0x05#6, d, a, p.code, b, 0x03#7⟩
  | .fsqrt p d a => ⟨0x05#6, d, a, p.code, 0#5, 0x04#7⟩
  | .fmin p d a b => ⟨0x05#6, d, a, p.code, b, 0x05#7⟩
  | .fmax p d a b => ⟨0x05#6, d, a, p.code, b, 0x06#7⟩
  | .fsgn p d a b => ⟨0x05#6, d, a, p.code, b, 0x07#7⟩
  | .fsgnN p d a b => ⟨0x05#6, d, a, p.code, b, 0x08#7⟩
  | .fsgnX p d a b => ⟨0x05#6, d, a, p.code, b, 0x09#7⟩
  | .fcmpEq p d a b => ⟨0x05#6, 0#2 ++ d, a, p.code, b, 0x0A#7⟩
  | .fcmpNe p d a b => ⟨0x05#6, 0#2 ++ d, a, p.code, b, 0x0B#7⟩
  | .fcmpLt p d a b => ⟨0x05#6, 0#2 ++ d, a, p.code, b, 0x0C#7⟩
  | .fcmpLe p d a b => ⟨0x05#6, 0#2 ++ d, a, p.code, b, 0x0D#7⟩
  | .fclass p d a => ⟨0x05#6, d, a, p.code, 0#5, 0x0E#7⟩
  | .fcvt t s d a => ⟨0x05#6, d, a, t.code, 0#2 ++ s.code, 0x0F#7⟩
  | .fmadd p d a b c => ⟨0x06#6, d, a, p.code, b, c ++ 0x0#2⟩
  | .fmsub p d a b c => ⟨0x06#6, d, a, p.code, b, c ++ 0x1#2⟩
  | .fnmadd p d a b c => ⟨0x06#6, d, a, p.code, b, c ++ 0x2#2⟩
  | .pcmpEq d a b => ⟨0x07#6, 0#2 ++ d, a, 0x00#3, b, 0x00#7⟩
  | .pcmpNe d a b => ⟨0x07#6, 0#2 ++ d, a, 0x00#3, b, 0x01#7⟩
  | .pcmpLt d a b => ⟨0x07#6, 0#2 ++ d, a, 0x00#3, b, 0x02#7⟩
  | .pcmpGe d a b => ⟨0x07#6, 0#2 ++ d, a, 0x00#3, b, 0x03#7⟩
  | .pcmpLtu d a b => ⟨0x07#6, 0#2 ++ d, a, 0x00#3, b, 0x04#7⟩
  | .pcmpGeu d a b => ⟨0x07#6, 0#2 ++ d, a, 0x00#3, b, 0x05#7⟩
  | .pand d a b => ⟨0x07#6, 0#2 ++ d, 0#2 ++ a, 0x01#3, 0#2 ++ b, 0x00#7⟩
  | .por d a b => ⟨0x07#6, 0#2 ++ d, 0#2 ++ a, 0x01#3, 0#2 ++ b, 0x01#7⟩
  | .pxor d a b => ⟨0x07#6, 0#2 ++ d, 0#2 ++ a, 0x01#3, 0#2 ++ b, 0x02#7⟩
  | .pnot d a => ⟨0x07#6, 0#2 ++ d, 0#2 ++ a, 0x01#3, 0#5, 0x03#7⟩
  | .pmov d a => ⟨0x07#6, 0#2 ++ d, 0#2 ++ a, 0x01#3, 0#5, 0x04#7⟩
  | .pmovPack d => ⟨0x07#6, d, 0#5, 0x01#3, 0#5, 0x05#7⟩
  | .pmovUnpack a => ⟨0x07#6, 0#5, a, 0x01#3, 0#5, 0x06#7⟩
  | .lb d a i => ⟨0x10#6, d, a, 0x00#3, i.extractLsb' 0 5, i.extractLsb' 5 7⟩
  | .lh d a i => ⟨0x10#6, d, a, 0x01#3, i.extractLsb' 0 5, i.extractLsb' 5 7⟩
  | .lw d a i => ⟨0x10#6, d, a, 0x02#3, i.extractLsb' 0 5, i.extractLsb' 5 7⟩
  | .ld d a i => ⟨0x10#6, d, a, 0x03#3, i.extractLsb' 0 5, i.extractLsb' 5 7⟩
  | .lbu d a i => ⟨0x10#6, d, a, 0x04#3, i.extractLsb' 0 5, i.extractLsb' 5 7⟩
  | .lhu d a i => ⟨0x10#6, d, a, 0x05#3, i.extractLsb' 0 5, i.extractLsb' 5 7⟩
  | .lwu d a i => ⟨0x10#6, d, a, 0x06#3, i.extractLsb' 0 5, i.extractLsb' 5 7⟩
  | .lbB d a i => ⟨0x11#6, d, a, 0x00#3, i.extractLsb' 0 5, i.extractLsb' 5 7⟩
  | .lhB d a i => ⟨0x11#6, d, a, 0x01#3, i.extractLsb' 0 5, i.extractLsb' 5 7⟩
  | .lwB d a i => ⟨0x11#6, d, a, 0x02#3, i.extractLsb' 0 5, i.extractLsb' 5 7⟩
  | .ldB d a i => ⟨0x11#6, d, a, 0x03#3, i.extractLsb' 0 5, i.extractLsb' 5 7⟩
  | .lbuB d a i => ⟨0x11#6, d, a, 0x04#3, i.extractLsb' 0 5, i.extractLsb' 5 7⟩
  | .lhuB d a i => ⟨0x11#6, d, a, 0x05#3, i.extractLsb' 0 5, i.extractLsb' 5 7⟩
  | .lwuB d a i => ⟨0x11#6, d, a, 0x06#3, i.extractLsb' 0 5, i.extractLsb' 5 7⟩
  | .lbN d a i => ⟨0x12#6, d, a, 0x00#3, i.extractLsb' 0 5, i.extractLsb' 5 7⟩
  | .lhN d a i => ⟨0x12#6, d, a, 0x01#3, i.extractLsb' 0 5, i.extractLsb' 5 7⟩
  | .lwN d a i => ⟨0x12#6, d, a, 0x02#3, i.extractLsb' 0 5, i.extractLsb' 5 7⟩
  | .ldN d a i => ⟨0x12#6, d, a, 0x03#3, i.extractLsb' 0 5, i.extractLsb' 5 7⟩
  | .lbuN d a i => ⟨0x12#6, d, a, 0x04#3, i.extractLsb' 0 5, i.extractLsb' 5 7⟩
  | .lhuN d a i => ⟨0x12#6, d, a, 0x05#3, i.extractLsb' 0 5, i.extractLsb' 5 7⟩
  | .lwuN d a i => ⟨0x12#6, d, a, 0x06#3, i.extractLsb' 0 5, i.extractLsb' 5 7⟩
  | .sb a b i => ⟨0x13#6, i.extractLsb' 0 5, a, 0x00#3, b, i.extractLsb' 5 7⟩
  | .sh a b i => ⟨0x13#6, i.extractLsb' 0 5, a, 0x01#3, b, i.extractLsb' 5 7⟩
  | .sw a b i => ⟨0x13#6, i.extractLsb' 0 5, a, 0x02#3, b, i.extractLsb' 5 7⟩
  | .sd a b i => ⟨0x13#6, i.extractLsb' 0 5, a, 0x03#3, b, i.extractLsb' 5 7⟩
  | .sbN a b i => ⟨0x13#6, i.extractLsb' 0 5, a, 0x04#3, b, i.extractLsb' 5 7⟩
  | .shN a b i => ⟨0x13#6, i.extractLsb' 0 5, a, 0x05#3, b, i.extractLsb' 5 7⟩
  | .swN a b i => ⟨0x13#6, i.extractLsb' 0 5, a, 0x06#3, b, i.extractLsb' 5 7⟩
  | .sdN a b i => ⟨0x13#6, i.extractLsb' 0 5, a, 0x07#3, b, i.extractLsb' 5 7⟩
  | .lwf d a i => ⟨0x14#6, d, a, 0x00#3, i.extractLsb' 0 5, i.extractLsb' 5 7⟩
  | .take d a i => ⟨0x14#6, d, a, 0x01#3, i.extractLsb' 0 5, i.extractLsb' 5 7⟩
  | .tagq d a i => ⟨0x14#6, 0#2 ++ d, a, 0x02#3, i.extractLsb' 0 5, i.extractLsb' 5 7⟩
  | .empty a i => ⟨0x14#6, 0#5, a, 0x03#3, i.extractLsb' 0 5, i.extractLsb' 5 7⟩
  | .put a b i => ⟨0x15#6, i.extractLsb' 0 5, a, 0x00#3, b, i.extractLsb' 5 7⟩
  | .fill a b i => ⟨0x15#6, i.extractLsb' 0 5, a, 0x01#3, b, i.extractLsb' 5 7⟩
  | .xst a b i => ⟨0x15#6, i.extractLsb' 0 5, a, 0x02#3, b, i.extractLsb' 5 7⟩
  | .amoadd f w d a b => ⟨0x18#6, d, a, w.code, b, f.code ++ 0x00#5⟩
  | .amoand f w d a b => ⟨0x18#6, d, a, w.code, b, f.code ++ 0x01#5⟩
  | .amoor f w d a b => ⟨0x18#6, d, a, w.code, b, f.code ++ 0x02#5⟩
  | .amoxor f w d a b => ⟨0x18#6, d, a, w.code, b, f.code ++ 0x03#5⟩
  | .amomin f w d a b => ⟨0x18#6, d, a, w.code, b, f.code ++ 0x04#5⟩
  | .amomax f w d a b => ⟨0x18#6, d, a, w.code, b, f.code ++ 0x05#5⟩
  | .amominu f w d a b => ⟨0x18#6, d, a, w.code, b, f.code ++ 0x06#5⟩
  | .amomaxu f w d a b => ⟨0x18#6, d, a, w.code, b, f.code ++ 0x07#5⟩
  | .amoswap f w d a b => ⟨0x18#6, d, a, w.code, b, f.code ++ 0x08#5⟩
  | .cas f w d a b => ⟨0x18#6, d, a, w.code, b, f.code ++ 0x09#5⟩
  | .red o f w a b => ⟨0x19#6, 0#5, a, w.code, b, f.code ++ 0#2 ++ o.code⟩
  | .ramo o w a b t => ⟨0x1A#6, t, a, w.code, b, 0#3 ++ o.code⟩
  | .fence f => ⟨0x1B#6, 0#5, 0#5, 0x00#3, 0#3 ++ f.code, 0#7⟩
  | .acq d a i => ⟨0x1B#6, d, a, 0x01#3, i.extractLsb' 0 5, i.extractLsb' 5 7⟩
  | .rel a b i => ⟨0x1B#6, i.extractLsb' 0 5, a, 0x02#3, b, i.extractLsb' 5 7⟩
  | .bind a b k => ⟨0x1B#6, 0#5, a, 0x03#3, b, k⟩
  | .unbind a => ⟨0x1B#6, 0#5, a, 0x04#3, 0#5, 0#7⟩
  | .bar l => ⟨0x1B#6, 0#5, 0#5, 0x05#3, 0#2 ++ l, 0#7⟩
  | .barX => ⟨0x1B#6, 0#5, 0#5, 0x06#3, 0#5, 0#7⟩
  | .arrive a => ⟨0x1B#6, 0#5, a, 0x07#3, 0#5, 0x00#7⟩
  | .waitph a b => ⟨0x1B#6, 0#5, a, 0x07#3, b, 0x01#7⟩
  | .beq a b i => ⟨0x1C#6, i.extractLsb' 0 5, a, 0x00#3, b, i.extractLsb' 5 7⟩
  | .bne a b i => ⟨0x1C#6, i.extractLsb' 0 5, a, 0x01#3, b, i.extractLsb' 5 7⟩
  | .blt a b i => ⟨0x1C#6, i.extractLsb' 0 5, a, 0x02#3, b, i.extractLsb' 5 7⟩
  | .bge a b i => ⟨0x1C#6, i.extractLsb' 0 5, a, 0x03#3, b, i.extractLsb' 5 7⟩
  | .bltu a b i => ⟨0x1C#6, i.extractLsb' 0 5, a, 0x04#3, b, i.extractLsb' 5 7⟩
  | .bgeu a b i => ⟨0x1C#6, i.extractLsb' 0 5, a, 0x05#3, b, i.extractLsb' 5 7⟩
  | .bp a i => ⟨0x1C#6, i.extractLsb' 0 5, 0#2 ++ a, 0x06#3, 0#5, i.extractLsb' 5 7⟩
  | .bnp a i => ⟨0x1C#6, i.extractLsb' 0 5, 0#2 ++ a, 0x07#3, 0#5, i.extractLsb' 5 7⟩
  | .jal d i => ⟨0x1D#6, d, i.extractLsb' 0 5, i.extractLsb' 5 3, i.extractLsb' 8 5, i.extractLsb' 13 7⟩
  | .jalr d a i => ⟨0x1E#6, d, a, 0x00#3, i.extractLsb' 0 5, i.extractLsb' 5 7⟩
  | .vadd w d a b m => ⟨0x20#6, d, a, w.code, b, 0x0#4 ++ m⟩
  | .vsub w d a b m => ⟨0x20#6, d, a, w.code, b, 0x1#4 ++ m⟩
  | .vmul w d a b m => ⟨0x20#6, d, a, w.code, b, 0x2#4 ++ m⟩
  | .vmulh w d a b m => ⟨0x20#6, d, a, w.code, b, 0x3#4 ++ m⟩
  | .vmin w d a b m => ⟨0x20#6, d, a, w.code, b, 0x4#4 ++ m⟩
  | .vmax w d a b m => ⟨0x20#6, d, a, w.code, b, 0x5#4 ++ m⟩
  | .vminu w d a b m => ⟨0x20#6, d, a, w.code, b, 0x6#4 ++ m⟩
  | .vmaxu w d a b m => ⟨0x20#6, d, a, w.code, b, 0x7#4 ++ m⟩
  | .vsll w d a b m => ⟨0x20#6, d, a, w.code, b, 0x8#4 ++ m⟩
  | .vsrl w d a b m => ⟨0x20#6, d, a, w.code, b, 0x9#4 ++ m⟩
  | .vsra w d a b m => ⟨0x20#6, d, a, w.code, b, 0xA#4 ++ m⟩
  | .vand d a b m => ⟨0x20#6, d, a, 0x00#3, b, 0xB#4 ++ m⟩
  | .vor d a b m => ⟨0x20#6, d, a, 0x00#3, b, 0xC#4 ++ m⟩
  | .vxor d a b m => ⟨0x20#6, d, a, 0x00#3, b, 0xD#4 ++ m⟩
  | .vmov d a m => ⟨0x20#6, d, a, 0x00#3, 0#5, 0xE#4 ++ m⟩
  | .vaddX w d a b m => ⟨0x21#6, d, a, w.code, b, 0x0#4 ++ m⟩
  | .vsubX w d a b m => ⟨0x21#6, d, a, w.code, b, 0x1#4 ++ m⟩
  | .vmulX w d a b m => ⟨0x21#6, d, a, w.code, b, 0x2#4 ++ m⟩
  | .vmulhX w d a b m => ⟨0x21#6, d, a, w.code, b, 0x3#4 ++ m⟩
  | .vminX w d a b m => ⟨0x21#6, d, a, w.code, b, 0x4#4 ++ m⟩
  | .vmaxX w d a b m => ⟨0x21#6, d, a, w.code, b, 0x5#4 ++ m⟩
  | .vminuX w d a b m => ⟨0x21#6, d, a, w.code, b, 0x6#4 ++ m⟩
  | .vmaxuX w d a b m => ⟨0x21#6, d, a, w.code, b, 0x7#4 ++ m⟩
  | .vsllX w d a b m => ⟨0x21#6, d, a, w.code, b, 0x8#4 ++ m⟩
  | .vsrlX w d a b m => ⟨0x21#6, d, a, w.code, b, 0x9#4 ++ m⟩
  | .vsraX w d a b m => ⟨0x21#6, d, a, w.code, b, 0xA#4 ++ m⟩
  | .vandX d a b m => ⟨0x21#6, d, a, 0x00#3, b, 0xB#4 ++ m⟩
  | .vorX d a b m => ⟨0x21#6, d, a, 0x00#3, b, 0xC#4 ++ m⟩
  | .vxorX d a b m => ⟨0x21#6, d, a, 0x00#3, b, 0xD#4 ++ m⟩
  | .vfadd p d a b m => ⟨0x22#6, d, a, p.code, b, 0x0#4 ++ m⟩
  | .vfsub p d a b m => ⟨0x22#6, d, a, p.code, b, 0x1#4 ++ m⟩
  | .vfmul p d a b m => ⟨0x22#6, d, a, p.code, b, 0x2#4 ++ m⟩
  | .vfdiv p d a b m => ⟨0x22#6, d, a, p.code, b, 0x3#4 ++ m⟩
  | .vfsqrt p d a m => ⟨0x22#6, d, a, p.code, 0#5, 0x4#4 ++ m⟩
  | .vfmin p d a b m => ⟨0x22#6, d, a, p.code, b, 0x5#4 ++ m⟩
  | .vfmax p d a b m => ⟨0x22#6, d, a, p.code, b, 0x6#4 ++ m⟩
  | .vfmacc p d a b m => ⟨0x22#6, d, a, p.code, b, 0x7#4 ++ m⟩
  | .vfdot p d a b m => ⟨0x22#6, d, a, p.code, b, 0x8#4 ++ m⟩
  | .vfaddX p d a b m => ⟨0x23#6, d, a, p.code, b, 0x0#4 ++ m⟩
  | .vfsubX p d a b m => ⟨0x23#6, d, a, p.code, b, 0x1#4 ++ m⟩
  | .vfmulX p d a b m => ⟨0x23#6, d, a, p.code, b, 0x2#4 ++ m⟩
  | .vfdivX p d a b m => ⟨0x23#6, d, a, p.code, b, 0x3#4 ++ m⟩
  | .vfminX p d a b m => ⟨0x23#6, d, a, p.code, b, 0x5#4 ++ m⟩
  | .vfmaxX p d a b m => ⟨0x23#6, d, a, p.code, b, 0x6#4 ++ m⟩
  | .vfmaccX p d a b m => ⟨0x23#6, d, a, p.code, b, 0x7#4 ++ m⟩
  | .vcmpEq w d a b m => ⟨0x24#6, 0#2 ++ d, a, w.code, b, 0x0#4 ++ m⟩
  | .vcmpNe w d a b m => ⟨0x24#6, 0#2 ++ d, a, w.code, b, 0x1#4 ++ m⟩
  | .vcmpLt w d a b m => ⟨0x24#6, 0#2 ++ d, a, w.code, b, 0x2#4 ++ m⟩
  | .vcmpGe w d a b m => ⟨0x24#6, 0#2 ++ d, a, w.code, b, 0x3#4 ++ m⟩
  | .vcmpLtu w d a b m => ⟨0x24#6, 0#2 ++ d, a, w.code, b, 0x4#4 ++ m⟩
  | .vcmpGeu w d a b m => ⟨0x24#6, 0#2 ++ d, a, w.code, b, 0x5#4 ++ m⟩
  | .vfcmpEq p d a b m => ⟨0x24#6, 0#2 ++ d, a, p.code, b, 0x8#4 ++ m⟩
  | .vfcmpNe p d a b m => ⟨0x24#6, 0#2 ++ d, a, p.code, b, 0x9#4 ++ m⟩
  | .vfcmpLt p d a b m => ⟨0x24#6, 0#2 ++ d, a, p.code, b, 0xA#4 ++ m⟩
  | .vfcmpLe p d a b m => ⟨0x24#6, 0#2 ++ d, a, p.code, b, 0xB#4 ++ m⟩
  | .mand d a b => ⟨0x25#6, 0#2 ++ d, 0#2 ++ a, 0x00#3, 0#2 ++ b, 0x0#4 ++ 0#3⟩
  | .mor d a b => ⟨0x25#6, 0#2 ++ d, 0#2 ++ a, 0x00#3, 0#2 ++ b, 0x1#4 ++ 0#3⟩
  | .mxor d a b => ⟨0x25#6, 0#2 ++ d, 0#2 ++ a, 0x00#3, 0#2 ++ b, 0x2#4 ++ 0#3⟩
  | .mnot d a => ⟨0x25#6, 0#2 ++ d, 0#2 ++ a, 0x00#3, 0#5, 0x3#4 ++ 0#3⟩
  | .mcnt d a => ⟨0x25#6, d, 0#2 ++ a, 0x00#3, 0#5, 0x4#4 ++ 0#3⟩
  | .mfirst d a => ⟨0x25#6, d, 0#2 ++ a, 0x00#3, 0#5, 0x5#4 ++ 0#3⟩
  | .vsel d a b m => ⟨0x25#6, d, a, 0x00#3, b, 0x6#4 ++ m⟩
  | .vredsum w d a m => ⟨0x25#6, d, a, w.code, 0#5, 0x8#4 ++ m⟩
  | .vredmin w d a m => ⟨0x25#6, d, a, w.code, 0#5, 0x9#4 ++ m⟩
  | .vredmax w d a m => ⟨0x25#6, d, a, w.code, 0#5, 0xA#4 ++ m⟩
  | .vredminu w d a m => ⟨0x25#6, d, a, w.code, 0#5, 0xB#4 ++ m⟩
  | .vredmaxu w d a m => ⟨0x25#6, d, a, w.code, 0#5, 0xC#4 ++ m⟩
  | .vfredsum p d a m => ⟨0x25#6, d, a, p.redCode, 0#5, 0xD#4 ++ m⟩
  | .vfredmin p d a m => ⟨0x25#6, d, a, p.redCode, 0#5, 0xE#4 ++ m⟩
  | .vfredmax p d a m => ⟨0x25#6, d, a, p.redCode, 0#5, 0xF#4 ++ m⟩
  | .vperm w d a b m => ⟨0x26#6, d, a, w.code, b, 0x0#4 ++ m⟩
  | .vslideUp w d a b m => ⟨0x26#6, d, a, w.code, b, 0x1#4 ++ m⟩
  | .vslideDown w d a b m => ⟨0x26#6, d, a, w.code, b, 0x2#4 ++ m⟩
  | .vzip w d a b m => ⟨0x26#6, d, a, w.code, b, 0x3#4 ++ m⟩
  | .vunzip w d a b m => ⟨0x26#6, d, a, w.code, b, 0x4#4 ++ m⟩
  | .vrev w d a m => ⟨0x26#6, d, a, w.code, 0#5, 0x5#4 ++ m⟩
  | .vbcast w d a m => ⟨0x26#6, d, a, w.code, 0#5, 0x6#4 ++ m⟩
  | .vext w d a b => ⟨0x26#6, d, a, w.code, b, 0x7#4 ++ 0#3⟩
  | .vcvt d a b m => ⟨0x27#6, d, a, 0x00#3, b, 0x0#4 ++ m⟩
  | .vpack w d a b m => ⟨0x27#6, d, a, w.code, b, 0x1#4 ++ m⟩
  | .vunpackLo w d a m => ⟨0x27#6, d, a, w.code, 0#5, 0x2#4 ++ m⟩
  | .vunpackHi w d a m => ⟨0x27#6, d, a, w.code, 0#5, 0x3#4 ++ m⟩
  | .vld e d a m => ⟨0x28#6, d, a, BitVec.ofBool e ++ 0#2, 0#5, 0x0#4 ++ m⟩
  | .vst d a m => ⟨0x28#6, d, a, 0x00#3, 0#5, 0x1#4 ++ m⟩
  | .vlds e w d a b m => ⟨0x28#6, d, a, BitVec.ofBool e ++ w.code2, b, 0x2#4 ++ m⟩
  | .vsts w d a b m => ⟨0x28#6, d, a, w.code, b, 0x3#4 ++ m⟩
  | .vgather e w d a b m => ⟨0x28#6, d, a, BitVec.ofBool e ++ w.code2, b, 0x4#4 ++ m⟩
  | .vscatter w d a b m => ⟨0x28#6, d, a, w.code, b, 0x5#4 ++ m⟩
  | .vldq e j a => ⟨0x28#6, 0#3 ++ j, a, BitVec.ofBool e ++ 0#2, 0#5, 0x6#4 ++ 0#3⟩
  | .vaddm w j d a b m => ⟨0x29#6, d, a, j ++ w.code, b, 0x0#4 ++ m⟩
  | .vsubm w j d a b m => ⟨0x29#6, d, a, j ++ w.code, b, 0x1#4 ++ m⟩
  | .vmulm w j d a b m => ⟨0x29#6, d, a, j ++ w.code, b, 0x2#4 ++ m⟩
  | .vmacm w j d a b m => ⟨0x29#6, d, a, j ++ w.code, b, 0x3#4 ++ m⟩
  | .vmodred w j d a b m => ⟨0x29#6, d, a, j ++ w.code, b, 0x4#4 ++ m⟩
  | .vbflyCt w j d s b m => ⟨0x2A#6, d, s, j ++ w.code, b, 0x0#4 ++ m⟩
  | .vbflyGs w j d s b m => ⟨0x2A#6, d, s, j ++ w.code, b, 0x1#4 ++ m⟩
  | .vbflyxCt w j d a b m => ⟨0x2A#6, d, a, j ++ w.code, b, 0x2#4 ++ m⟩
  | .vbflyxGs w j d a b m => ⟨0x2A#6, d, a, j ++ w.code, b, 0x3#4 ++ m⟩
  | .vpermb s d a b m => ⟨0x2A#6, d, a, s, b, 0x4#4 ++ m⟩
  | .vtolog d a m => ⟨0x2B#6, d, a, 0x00#3, 0#5, 0x0#4 ++ m⟩
  | .vfromlog d a m => ⟨0x2B#6, d, a, 0x00#3, 0#5, 0x1#4 ++ m⟩
  | .vlogadd d a b m => ⟨0x2B#6, d, a, 0x00#3, b, 0x2#4 ++ m⟩
  | .vsdq v a b m => ⟨0x2B#6, v, a, 0x00#3, b, 0x3#4 ++ m⟩
  | .vwidth d => ⟨0x2C#6, d, 0#5, 0x00#3, 0#5, 0x0#4 ++ 0#3⟩
  | .vwhile u w d a b => ⟨0x2C#6, 0#2 ++ d, a, BitVec.ofBool u ++ w.code2, b, 0x1#4 ++ 0#3⟩
  | .vfence => ⟨0x2C#6, 0#5, 0#5, 0x00#3, 0#5, 0x2#4 ++ 0#3⟩
  | .tmma q d a b c => ⟨0x30#6, d, a, 0x00#3, b, c ++ q⟩
  | .tspmac q d a b c => ⟨0x30#6, d, a, 0x01#3, b, c ++ q⟩
  | .tclr q => ⟨0x30#6, 0#5, 0#5, 0x02#3, 0#5, 0#5 ++ q⟩
  | .tacc2s q a b => ⟨0x30#6, 0#5, a, 0x03#3, b, 0#5 ++ q⟩
  | .ts2acc q a b => ⟨0x30#6, 0#5, a, 0x04#3, b, 0#5 ++ q⟩
  | .tmsend a b c => ⟨0x31#6, 0#5, a, 0x00#3, b, c ++ 0#2⟩
  | .twait => ⟨0x31#6, 0#5, 0#5, 0x01#3, 0#5, 0#5 ++ 0#2⟩
  | .tcopy d a b c => ⟨0x32#6, d, a, 0x00#3, b, c ++ 0#2⟩
  | .tgather e d a b c => ⟨0x32#6, d, a, 0x01#3, b, c ++ e.code⟩
  | .evsend l a b => ⟨0x38#6, l, a, 0x00#3, b, 0#7⟩
  | .evwait a => ⟨0x38#6, 0#5, a, 0x01#3, 0#5, 0#7⟩
  | .evnext d => ⟨0x38#6, d, 0#5, 0x02#3, 0#5, 0#7⟩
  | .evpeek d => ⟨0x38#6, d, 0#5, 0x03#3, 0#5, 0#7⟩
  | .vtadv a => ⟨0x38#6, 0#5, a, 0x04#3, 0#5, 0#7⟩
  | .dqpush d a => ⟨0x39#6, d, a, 0x00#3, 0#5, 0#7⟩
  | .dqpop d a => ⟨0x39#6, d, a, 0x01#3, 0#5, 0#7⟩
  | .tdec a b => ⟨0x39#6, 0#5, a, 0x02#3, b, 0#7⟩
  | .tspawn a b => ⟨0x39#6, 0#5, a, 0x03#3, b, 0#7⟩
  | .texit => ⟨0x39#6, 0#5, 0#5, 0x04#3, 0#5, 0#7⟩
  | .tdetach => ⟨0x39#6, 0#5, 0#5, 0x05#3, 0#5, 0#7⟩
  | .tyield => ⟨0x39#6, 0#5, 0#5, 0x06#3, 0#5, 0#7⟩
  | .go a => ⟨0x39#6, 0#5, a, 0x07#3, 0#5, 0#7⟩
  | .barT => ⟨0x3A#6, 0#5, 0#5, 0x00#3, 0#5, 0#7⟩
  | .nsend r a => ⟨0x3A#6, 0#5, a, 0x01#3, 0#5, 0#5 ++ r.code⟩
  | .nrecv r d => ⟨0x3A#6, d, 0#5, 0x02#3, 0#5, 0#5 ++ r.code⟩
  | .ecall => ⟨0x3D#6, 0#5, 0#5, 0x00#3, 0x00#5, 0x00#7⟩
  | .ebreak => ⟨0x3D#6, 0#5, 0#5, 0x00#3, 0x01#5, 0x00#7⟩
  | .tret => ⟨0x3D#6, 0#5, 0#5, 0x00#3, 0x02#5, 0x00#7⟩
  | .wfe => ⟨0x3D#6, 0#5, 0#5, 0x00#3, 0x03#5, 0x00#7⟩
  | .halt => ⟨0x3D#6, 0#5, 0#5, 0x00#3, 0x04#5, 0x00#7⟩
  | .csrr c d => ⟨0x3D#6, d, 0#5, 0x01#3, c.extractLsb' 0 5, c.extractLsb' 5 7⟩
  | .csrw c a => ⟨0x3D#6, 0#5, a, 0x02#3, c.extractLsb' 0 5, c.extractLsb' 5 7⟩
  | .csrs c a => ⟨0x3D#6, 0#5, a, 0x03#3, c.extractLsb' 0 5, c.extractLsb' 5 7⟩
  | .csrc c a => ⟨0x3D#6, 0#5, a, 0x04#3, c.extractLsb' 0 5, c.extractLsb' 5 7⟩
  | _ => ⟨0#6, 0#5, 0#5, 0#3, 0#5, 0#7⟩

/-- The halfword of a 16-bit form (R264). -/
def half (op : BitVec 4) (g : BitVec 1) (d s : VReg) : BitVec 16 := g ++ s ++ d ++ op ++ 0#1

/-- The bits of an instruction, zero-extended to 32 (R261, R264). -/
def encode : Instr → BitVec 32
  | .fmt s r fd fc fb fa => 0#5 ++ s ++ r ++ fd ++ fc ++ fb ++ fa ++ 0x3C#6 ++ 1#1
  | .vmov16 g d s => (half 0x0#4 g d s).setWidth 32
  | .vaddI32x16 g d s => (half 0x1#4 g d s).setWidth 32
  | .vsubI32x16 g d s => (half 0x2#4 g d s).setWidth 32
  | .vand16 g d s => (half 0x3#4 g d s).setWidth 32
  | .vor16 g d s => (half 0x4#4 g d s).setWidth 32
  | .vxor16 g d s => (half 0x5#4 g d s).setWidth 32
  | .vsllI32x16 g d s => (half 0x6#4 g d s).setWidth 32
  | .vfaddF32x16 g d s => (half 0x7#4 g d s).setWidth 32
  | .vfsubF32x16 g d s => (half 0x8#4 g d s).setWidth 32
  | .vfmulF32x16 g d s => (half 0x9#4 g d s).setWidth 32
  | .vfmaxF32x16 g d s => (half 0xA#4 g d s).setWidth 32
  | .vfminF32x16 g d s => (half 0xB#4 g d s).setWidth 32
  | .vaddm16 g d s => (half 0xC#4 g d s).setWidth 32
  | .vsubm16 g d s => (half 0xD#4 g d s).setWidth 32
  | .vmulm16 g d s => (half 0xE#4 g d s).setWidth 32
  | .vlogadd16 g d s => (half 0xF#4 g d s).setWidth 32
  | .unassignedEncoding bits _ => bits
  | i => (encodeFields i).word

/-- Length of an instruction in bytes (R260). -/
def Instr.len : Instr → Nat
  | .vmov16 _ _ _ => 2
  | .vaddI32x16 _ _ _ => 2
  | .vsubI32x16 _ _ _ => 2
  | .vand16 _ _ _ => 2
  | .vor16 _ _ _ => 2
  | .vxor16 _ _ _ => 2
  | .vsllI32x16 _ _ _ => 2
  | .vfaddF32x16 _ _ _ => 2
  | .vfsubF32x16 _ _ _ => 2
  | .vfmulF32x16 _ _ _ => 2
  | .vfmaxF32x16 _ _ _ => 2
  | .vfminF32x16 _ _ _ => 2
  | .vaddm16 _ _ _ => 2
  | .vsubm16 _ _ _ => 2
  | .vmulm16 _ _ _ => 2
  | .vlogadd16 _ _ _ => 2
  | .unassignedEncoding bits _ => if bits.getLsbD 0 then 4 else 2
  | _ => 4

end
end Sys2Proof
end

