-- ==== Sys2Proof/Machine/Num.lean ====
section
/-! DEFINITION. The arithmetic of chapter 10: IEEE codes and `rnd` (R244 to R247), d8 (R234 to R236), integers (R241, R243),
lg32 (R248 to R251), the dot-product rule (R252, R253) and modular lanes (R254 to R256). Codes are numbers; real values are
exact; a result carries the flags it raises in the layout of FFLAGS (R231). -/
namespace Sys2Proof.Machine

/-- Flags in the layout of FFLAGS (R231). -/
abbrev Flags := BitVec 8
/-- A code with the flags its computation raises. -/
abbrev Res := Nat × Flags

/-- NX. -/
def fNX : Flags := 0x01#8
/-- UF. -/
def fUF : Flags := 0x02#8
/-- OF. -/
def fOF : Flags := 0x04#8
/-- DZ. -/
def fDZ : Flags := 0x08#8
/-- NV. -/
def fNV : Flags := 0x10#8
/-- QS. -/
def fQS : Flags := 0x20#8
/-- RS. -/
def fRS : Flags := 0x40#8
/-- MQ. -/
def fMQ : Flags := 0x80#8

/-- Rounding modes (R245). -/
inductive Rm where | rne | rtz | rdn | rup | rmm
deriving DecidableEq, Repr

/-- The mode a prefix's RM field names; 0 is the default RNE (R257). -/
def Rm.ofCode (c : BitVec 3) : Rm :=
  if c = 2#3 then .rtz else if c = 3#3 then .rdn else if c = 4#3 then .rup else if c = 5#3 then .rmm else .rne

/-- A floating-point format: bits of exponent and fraction (R244). -/
structure FF where
  eb : Nat
  fb : Nat
deriving DecidableEq, Repr

/-- fp16. -/
def fp16 : FF := ⟨5, 10⟩
/-- bf16. -/
def bf16 : FF := ⟨8, 7⟩
/-- fp32. -/
def fp32 : FF := ⟨8, 23⟩
/-- fp64. -/
def fp64 : FF := ⟨11, 52⟩
/-- Width in bits. -/
def FF.width (f : FF) : Nat := 1 + f.eb + f.fb
/-- Exponent bias. -/
def FF.bias (f : FF) : Nat := 2 ^ (f.eb - 1) - 1
/-- Place of the sign bit. -/
def FF.signW (f : FF) : Nat := 2 ^ (f.eb + f.fb)
/-- Exponent of the unit of the subnormals. -/
def FF.qmin (f : FF) : Int := 1 - (f.bias : Int) - (f.fb : Int)
/-- Code of +∞. -/
def FF.inf (f : FF) : Nat := (2 ^ f.eb - 1) * 2 ^ f.fb
/-- The canonical quiet NaN (R244). -/
def FF.qnan (f : FF) : Nat := f.inf + 2 ^ (f.fb - 1)
/-- A code with a sign. -/
def FF.signed (f : FF) (s : Bool) (c : Nat) : Nat := if s then f.signW + c else c

/-- The value of a code (R244): a NaN, an infinity, or (−1)^s · m · 2^e. -/
inductive Fp where
  | nan (signalling : Bool)
  | inf (s : Bool)
  | fin (s : Bool) (m : Nat) (e : Int)
deriving DecidableEq, Repr

/-- `fdec` (R244). -/
def fdec (f : FF) (c : Nat) : Fp :=
  let s := (c / f.signW) % 2 = 1
  let e := (c / 2 ^ f.fb) % 2 ^ f.eb
  let m := c % 2 ^ f.fb
  if e = 2 ^ f.eb - 1 then
    if m = 0 then .inf s else .nan (decide (m < 2 ^ (f.fb - 1)))
  else if e = 0 then .fin s m f.qmin
  else .fin s (m + 2 ^ f.fb) (f.qmin + (e - 1 : Nat))

/-- Number of bits without leading zeros (R233). -/
def bitlen (n : Nat) : Nat := if n = 0 then 0 else Nat.log2 n + 1

/-- A positive real: m · 2^e, or strictly between m · 2^e and (m + 1) · 2^e when `sticky`. -/
structure Mag where
  m : Nat
  e : Int
  sticky : Bool := false
deriving DecidableEq, Repr

/-- Round a magnitude to a multiple of 2^q: the multiple, and whether it changed. -/
def roundAt (v : Mag) (neg : Bool) (q : Int) (rm : Rm) : Nat × Bool :=
  if q ≤ v.e then
    -- a sticky magnitude has bits to spare, so only an exact one comes here
    (v.m * 2 ^ (v.e - q).toNat, v.sticky)
  else
    let d := (q - v.e).toNat
    let n := v.m / 2 ^ d
    let r := v.m % 2 ^ d
    let inexact := r ≠ 0 || v.sticky
    let half := 2 ^ (d - 1)
    let up : Bool := match rm with
      | .rne => r > half || (r = half && (v.sticky || n % 2 = 1))
      | .rtz => false
      | .rdn => neg && inexact
      | .rup => !neg && inexact
      | .rmm => r ≥ half
    (if up then n + 1 else n, inexact)

/-- `rnd` of a nonzero real of a sign (R245). -/
def rnd (f : FF) (rm : Rm) (neg : Bool) (v : Mag) : Res :=
  let top : Int := (bitlen v.m : Int) - 1 + v.e
  let qu : Int := top - f.fb
  let qa : Int := if qu < f.qmin then f.qmin else qu
  let u := roundAt v neg qu rm
  let a := roundAt v neg qa rm
  let big : Bool := (bitlen u.1 : Int) - 1 + qu > f.bias
  let exact : Bool := !a.2 && !big
  let code := f.signed neg ((qa - f.qmin).toNat * 2 ^ f.fb + a.1)
  if exact then (code, 0#8)
  else if big then
    let ovf : Bool := match rm with
      | .rne => true
      | .rmm => true
      | .rtz => false
      | .rdn => neg
      | .rup => !neg
    (f.signed neg (if ovf then f.inf else f.inf - 1), fNX ||| fOF)
  else
    let tiny : Bool := (bitlen u.1 : Int) - 1 + qu < 1 - (f.bias : Int)
    (code, if tiny then fNX ||| fUF else fNX)

/-- Round a finite value to a format; a zero keeps its sign. -/
def rndFin (f : FF) (rm : Rm) (s : Bool) (m : Nat) (e : Int) : Res :=
  if m = 0 then (f.signed s 0, 0#8) else rnd f rm s { m := m, e := e }

/-- NV when an operand is a signalling NaN (R246). -/
def snan : Fp → Flags
  | .nan true => fNV
  | _ => 0#8

/-- The product of two values with NV for 0 × ∞ and signalling NaNs (R246). -/
def fpMul (a b : Fp) : Fp × Flags :=
  let fl := snan a ||| snan b
  match a, b with
  | .nan _, _ => (.nan false, fl)
  | _, .nan _ => (.nan false, fl)
  | .inf s, .inf t => (.inf (s != t), fl)
  | .inf s, .fin t m _ => if m = 0 then (.nan false, fNV) else (.inf (s != t), fl)
  | .fin s m _, .inf t => if m = 0 then (.nan false, fNV) else (.inf (s != t), fl)
  | .fin s m e, .fin t n k => (.fin (s != t) (m * n) (e + k), fl)

/-- The exact sum of two finite values; an exact zero sum follows R246. -/
def finAdd (rm : Rm) (s : Bool) (m : Nat) (e : Int) (t : Bool) (n : Nat) (k : Int) : Fp :=
  let q := if e < k then e else k
  let a : Int := (m * 2 ^ (e - q).toNat : Nat)
  let b : Int := (n * 2 ^ (k - q).toNat : Nat)
  let v := (if s then -a else a) + (if t then -b else b)
  if v = 0 then .fin (if m = 0 && n = 0 && s = t then s else rm = .rdn) 0 q
  else .fin (decide (v < 0)) v.natAbs q

/-- The sum of two values (R246). -/
def fpAdd (rm : Rm) (a b : Fp) : Fp × Flags :=
  let fl := snan a ||| snan b
  match a, b with
  | .nan _, _ => (.nan false, fl)
  | _, .nan _ => (.nan false, fl)
  | .inf s, .inf t => if s = t then (.inf s, fl) else (.nan false, fNV)
  | .inf s, _ => (.inf s, fl)
  | _, .inf t => (.inf t, fl)
  | .fin s m e, .fin t n k => (finAdd rm s m e t n k, fl)

/-- Negate a value. -/
def Fp.neg : Fp → Fp
  | .nan b => .nan b
  | .inf s => .inf (!s)
  | .fin s m e => .fin (!s) m e

/-- The code of a value in a format, rounded once (R245, R246). -/
def fpEnc (f : FF) (rm : Rm) (v : Fp × Flags) : Res :=
  match v.1 with
  | .nan _ => (f.qnan, v.2)
  | .inf s => (f.signed s f.inf, v.2)
  | .fin s m e => let r := rndFin f rm s m e; (r.1, r.2 ||| v.2)

/-- a + b. -/
def fadd (f : FF) (rm : Rm) (a b : Nat) : Res := fpEnc f rm (fpAdd rm (fdec f a) (fdec f b))
/-- a − b. -/
def fsub (f : FF) (rm : Rm) (a b : Nat) : Res := fpEnc f rm (fpAdd rm (fdec f a) (fdec f b).neg)
/-- a · b. -/
def fmul (f : FF) (rm : Rm) (a b : Nat) : Res := fpEnc f rm (fpMul (fdec f a) (fdec f b))
/-- a · b + c exactly (R304). -/
def fpFma (rm : Rm) (a b c : Fp) : Fp × Flags :=
  let p := fpMul a b
  let r := fpAdd rm p.1 c
  (r.1, r.2 ||| p.2)
/-- rnd(a · b + c). -/
def fmadd (f : FF) (rm : Rm) (a b c : Nat) : Res := fpEnc f rm (fpFma rm (fdec f a) (fdec f b) (fdec f c))
/-- rnd(a · b − c). -/
def fmsub (f : FF) (rm : Rm) (a b c : Nat) : Res := fpEnc f rm (fpFma rm (fdec f a) (fdec f b) (fdec f c).neg)
/-- rnd(−(a · b + c)); the sign rule of a zero sum comes before the negation (R304). -/
def fnmadd (f : FF) (rm : Rm) (a b c : Nat) : Res :=
  let r := fpFma rm (fdec f a) (fdec f b) (fdec f c)
  fpEnc f rm (r.1.neg, r.2)

/-- a / b (R246). -/
def fdiv (f : FF) (rm : Rm) (a b : Nat) : Res :=
  let x := fdec f a
  let y := fdec f b
  let fl := snan x ||| snan y
  match x, y with
  | .nan _, _ => (f.qnan, fl)
  | _, .nan _ => (f.qnan, fl)
  | .inf _, .inf _ => (f.qnan, fNV)
  | .inf s, .fin t _ _ => (f.signed (s != t) f.inf, 0#8)
  | .fin s _ _, .inf t => (f.signed (s != t) 0, 0#8)
  | .fin s m e, .fin t n k =>
    if n = 0 then (if m = 0 then (f.qnan, fNV) else (f.signed (s != t) f.inf, fDZ))
    else if m = 0 then (f.signed (s != t) 0, 0#8)
    else
      let sh := f.fb + 4 + bitlen n
      rnd f rm (s != t) { m := m * 2 ^ sh / n, e := e - k - sh, sticky := decide (m * 2 ^ sh % n ≠ 0) }

/-- Integer square root by bits from 2^k down, structural on k. -/
def isqrtFrom (n : Nat) : Nat → Nat → Nat
  | 0, r => if (r + 1) * (r + 1) ≤ n then r + 1 else r
  | k + 1, r => isqrtFrom n k (if (r + 2 ^ (k + 1)) * (r + 2 ^ (k + 1)) ≤ n then r + 2 ^ (k + 1) else r)
/-- ⌊√n⌋. -/
def isqrt (n : Nat) : Nat := isqrtFrom n (bitlen n / 2 + 1) 0

/-- √a (R246). -/
def fsqrt (f : FF) (rm : Rm) (a : Nat) : Res :=
  match fdec f a with
  | .nan sg => (f.qnan, snan (.nan sg))
  | .inf s => if s then (f.qnan, fNV) else (f.inf, 0#8)
  | .fin s m e =>
    if m = 0 then (f.signed s 0, 0#8)
    else if s then (f.qnan, fNV)
    else
      let sh := 2 * f.fb + 8 + (if e % 2 = 0 then 0 else 1)
      let n := m * 2 ^ sh
      let r := isqrt n
      rnd f rm false { m := r, e := (e - sh) / 2, sticky := decide (r * r ≠ n) }

/-- a < b of two values that are not NaNs, as reals with −0 = +0. -/
def fpLt : Fp → Fp → Bool
  | .inf s, .inf t => s && !t
  | .inf s, _ => s
  | _, .inf t => !t
  | .fin s m e, .fin t n k =>
    let q := if e < k then e else k
    let a : Int := (m * 2 ^ (e - q).toNat : Nat)
    let b : Int := (n * 2 ^ (k - q).toNat : Nat)
    decide ((if s then -a else a) < (if t then -b else b))
  | _, _ => false
/-- A value is a NaN. -/
def Fp.isNan : Fp → Bool
  | .nan _ => true
  | _ => false
/-- Sign of a value. -/
def Fp.sign : Fp → Bool
  | .nan _ => false
  | .inf s => s
  | .fin s _ _ => s

/-- `fmin` (`mx` false) and `fmax` (R246): −0 lies below +0. -/
def fminmax (f : FF) (mx : Bool) (a b : Nat) : Res :=
  let x := fdec f a
  let y := fdec f b
  let fl := snan x ||| snan y
  if x.isNan && y.isNan then (f.qnan, fl)
  else if x.isNan then (b, fl)
  else if y.isNan then (a, fl)
  else
    let lt := fpLt x y || (!fpLt y x && x.sign && !y.sign)
    (if lt = mx then b else a, fl)

/-- Comparisons (R246, R302): 0 eq, 1 ne, 2 lt, 3 le. -/
def fcompare (f : FF) (c : Nat) (a b : Nat) : Bool × Flags :=
  let x := fdec f a
  let y := fdec f b
  let n := x.isNan || y.isNan
  let eq := !n && !fpLt x y && !fpLt y x
  let ord : Flags := if n then fNV else 0#8
  match c with
  | 0 => (eq, snan x ||| snan y)
  | 1 => (!eq, snan x ||| snan y)
  | 2 => (!n && fpLt x y, ord)
  | _ => (!n && !fpLt y x, ord)

/-- The class mask (R302). -/
def fclassOf (f : FF) (a : Nat) : Nat :=
  match fdec f a with
  | .nan sg => if sg then 0x100 else 0x200
  | .inf s => if s then 0x001 else 0x080
  | .fin s m _ =>
    if m = 0 then (if s then 0x008 else 0x010)
    else if m < 2 ^ f.fb then (if s then 0x004 else 0x020)
    else if s then 0x002 else 0x040

/-- Sign injection (R301): 0 copy, 1 inverted, 2 xor. -/
def fsgnOf (f : FF) (k : Nat) (a b : Nat) : Nat :=
  let sa := (a / f.signW) % 2 = 1
  let sb := (b / f.signW) % 2 = 1
  let s : Bool := match k with
    | 0 => sb
    | 1 => !sb
    | _ => sa != sb
  f.signed s (a % f.signW)

/-! ## Integers -/

/-- The integer whose n-bit two's complement form is v (R233). -/
def sextN (n v : Nat) : Int := let w := v % 2 ^ n; if w ≥ 2 ^ (n - 1) then (w : Int) - (2 ^ n : Nat) else w
/-- The n-bit code of an integer. -/
def wrapN (n : Nat) (v : Int) : Nat := (v % (2 ^ n : Nat)).toNat
/-- Bounds of an integer format. -/
def intLo (w : Nat) (sg : Bool) : Int := if sg then -(2 ^ (w - 1) : Nat) else 0
/-- Bounds of an integer format. -/
def intHi (w : Nat) (sg : Bool) : Int := if sg then (2 ^ (w - 1) : Nat) - 1 else (2 ^ w : Nat) - 1
/-- `sat` (R233). -/
def satInt (v lo hi : Int) : Int × Flags :=
  if v < lo then (lo, fQS) else if hi < v then (hi, fQS) else (v, 0#8)

/-- Float to integer (R247): rounded, then the bounds and 0 with NV; a result out of range raises NV alone (assumption 13). -/
def fpToInt (rm : Rm) (w : Nat) (sg : Bool) (v : Fp) : Int × Flags :=
  match v with
  | .nan _ => (0, fNV)
  | .inf s => (if s then intLo w sg else intHi w sg, fNV)
  | .fin s m e =>
    let r := roundAt { m := m, e := e } s 0 rm
    let n : Int := if s then -(r.1 : Int) else r.1
    if n < intLo w sg then (intLo w sg, fNV)
    else if intHi w sg < n then (intHi w sg, fNV)
    else (n, if r.2 then fNX else 0#8)
/-- Integer to float (R247). -/
def intToFp (f : FF) (rm : Rm) (v : Int) : Res := rndFin f rm (decide (v < 0)) v.natAbs 0
/-- Float to float (R247). -/
def fpToFp (src dst : FF) (rm : Rm) (c : Nat) : Res := fpEnc dst rm (fdec src c, snan (fdec src c))

/-- Lane shifts by an unreduced amount (R243): 0 sll, 1 srl, 2 sra. -/
def laneShift (kind w v amt : Nat) : Nat :=
  let v := v % 2 ^ w
  if amt ≥ w then (if kind = 2 ∧ v ≥ 2 ^ (w - 1) then 2 ^ w - 1 else 0)
  else match kind with
    | 0 => v * 2 ^ amt % 2 ^ w
    | 1 => v / 2 ^ amt
    | _ => wrapN w (sextN w v / (2 ^ amt : Nat))

/-! ## d8 (R234 to R236) -/

/-- Marker position: the lowest set bit of the body, by search from n up. -/
def d8Marker (body : Nat) : Nat → Nat → Nat
  | 0, k => k
  | n + 1, k => if body / 2 ^ k % 2 = 1 then k else d8Marker body n (k + 1)
/-- `d8_dec`: signed units and the flag RS. -/
def d8Dec (c : Nat) : Int × Flags :=
  let body := c % 128
  let g := c / 128 % 2 = 1
  if body = 0 then (0, if g then fRS else 0#8)
  else
    let k := d8Marker body 7 0
    let m : Int := ((1 + body / 2 ^ (k + 1)) * 10 ^ k : Nat)
    (if g then -m else m, 0#8)
/-- `d8_enc`: the smallest marker position that holds the magnitude. -/
def d8EncFrom (n : Nat) : Nat → Nat → Nat
  | 0, _ => 0
  | j + 1, k => if n % 10 ^ k = 0 ∧ 1 ≤ n / 10 ^ k ∧ n / 10 ^ k ≤ 2 ^ (6 - k)
    then (n / 10 ^ k - 1) * 2 ^ (k + 1) + 2 ^ k else d8EncFrom n j (k + 1)
/-- `d8_enc` (R235). -/
def d8Enc (g : Bool) (n : Nat) : Nat := if n = 0 then 0 else (if g then 128 else 0) + d8EncFrom n 7 0
/-- The representable magnitudes of one row of R234. -/
def d8Row (k : Nat) : List Nat := (List.range (2 ^ (6 - k))).map fun p => (p + 1) * 10 ^ k
/-- The set D. -/
def d8Mags : List Nat := 0 :: (List.range 7).flatMap d8Row
/-- The member of D nearest to a/b, the smaller of two equally near. -/
def d8Nearest (a b : Nat) : Nat :=
  let dist (n : Nat) : Nat := if n * b ≤ a then a - n * b else n * b - a
  d8Mags.foldl (fun best n => if dist n < dist best ∨ (dist n = dist best ∧ n < best) then n else best) 0
/-- `quant_d8` of a value under an fp32 scale (R236). -/
def quantD8 (x : Fp) (scale : Nat) : Res :=
  match x, fdec fp32 scale with
  | .nan _, _ => (0x80, fNV)
  | _, .nan _ => (0x80, fNV)
  | _, .inf _ => (0x80, fNV)
  | .inf s, .fin t n _ => if t || n = 0 then (0x80, fNV) else ((if s then 0xC0 else 0x40), fQS ||| fNX)
  | .fin s m e, .fin t n k =>
    if t || n = 0 then (0x80, fNV)
    else
      let d := e - k
      let a := if 0 ≤ d then m * 2 ^ d.toNat else m
      let b := if 0 ≤ d then n else n * 2 ^ (-d).toNat
      let g := s && m ≠ 0
      if a > 1000000 * b then (d8Enc g 1000000, fQS ||| fNX)
      else
        let r := d8Nearest a b
        (d8Enc g r, if r * b = a then 0#8 else fNX)

/-! ## lg32 (R248 to R251) -/

/-- L of a code. -/
def lgL (c : Nat) : Int := sextN 31 (c % 2 ^ 31)
/-- The code is a zero. -/
def lgZero (c : Nat) : Bool := c % 2 ^ 31 = 0x40000000
/-- Sign of a code. -/
def lgSign (c : Nat) : Bool := c / 2 ^ 31 % 2 = 1
/-- A code from its sign and its 31 bits. -/
def lgCode (g : Bool) (l : Nat) : Nat := (if g then 2 ^ 31 else 0) + l
/-- LZERO and LMAX. -/
def lgLZero : Nat := 0x40000000
/-- LMAX. -/
def lgLMax : Nat := 0x3FFFFFFF
/-- The code at an L, with the bounds of R249. -/
def lgAt (g : Bool) (l : Int) : Res :=
  if l < -(2 ^ 30 : Nat) + 1 then (lgCode g lgLZero, fUF ||| fNX)
  else if l > (2 ^ 30 : Nat) - 1 then (lgCode g lgLMax, fOF)
  else (lgCode g (wrapN 31 l), 0#8)

/-- n further bits of log2 of x/2^P in [1, 2) by repeated squaring, `up` rounding the squares up. -/
def log2Bits (P : Nat) (up : Bool) : Nat → Nat → Nat → Nat
  | 0, _, acc => acc
  | n + 1, x, acc =>
    let y := if up then (x * x + 2 ^ P - 1) / 2 ^ P else x * x / 2 ^ P
    if y ≥ 2 ^ (P + 1) then log2Bits P up n (if up then (y + 1) / 2 else y / 2) (acc * 2 + 1)
    else log2Bits P up n y (acc * 2)
/-- ⌊2^24 · log2(m · 2^e)⌋ from below (`up` false) or above, at precision P. -/
def log2At (P : Nat) (up : Bool) (m : Nat) (e : Int) : Int :=
  let b := bitlen m - 1
  let x := if b ≤ P then m * 2 ^ (P - b) else if up then (m + 2 ^ (b - P) - 1) / 2 ^ (b - P) else m / 2 ^ (b - P)
  ((b : Int) + e) * (2 ^ 24 : Nat) + log2Bits P up 24 x 0
/-- L nearest 2^23 · log2 of a real bounded below and above by lo · 2^e and hi · 2^e, whose logarithm is no multiple of
2^−24: the half-way points are never met, so the 24th bit decides. -/
def lgNear (P : Nat) (lo hi : Nat) (e : Int) : Option Int :=
  let a := log2At P false lo e
  let b := log2At P true hi e
  if a = b then some ((a + 1) / 2) else none

/-- The first precision that decides. -/
def firstSome {α : Type} (f : Nat → Option α) : List Nat → Option α
  | [] => none
  | P :: t => match f P with
    | some v => some v
    | none => firstSome f t
/-- Precisions tried in turn: the last is far beyond any operand's need (assumption 14). -/
def lgPrecisions : List Nat := [96, 192, 384, 768, 1536, 3072]

/-- `lg_enc` of m · 2^e > 0. -/
def lgEncMag (g : Bool) (m : Nat) (e : Int) : Res :=
  let b := bitlen m - 1
  if m = 2 ^ b then lgAt g (((b : Int) + e) * (2 ^ 23 : Nat))
  else
    let l := (firstSome (fun P => lgNear P m m e) lgPrecisions).getD 0
    let r := lgAt g l
    (r.1, r.2 ||| fNX)
/-- `lg_enc` (R249). -/
def lgEnc (y : Fp) : Res :=
  match y with
  | .nan _ => (lgLZero, fNV)
  | .inf s => (lgCode s lgLMax, fOF)
  | .fin s m e => if m = 0 then (lgCode s lgLZero, 0#8) else lgEncMag s m e

/-- Bounds of 2^(1/2^i) · 2^P for i rising, by repeated square roots. -/
def exp2Prod (P : Nat) (r : Nat) : Nat → Nat → Nat × Nat → Nat × Nat → Nat × Nat
  | 0, _, _, acc => acc
  | n + 1, bit, root, acc =>
    let root' := (isqrt (root.1 * 2 ^ P), isqrt (root.2 * 2 ^ P) + 1)
    let acc' := if r / 2 ^ bit % 2 = 1 then (acc.1 * root'.1 / 2 ^ P, acc.2 * root'.2 / 2 ^ P + 1) else acc
    exp2Prod P r n (bit - 1) root' acc'
/-- Bounds of 2^(r/2^23) · 2^P for r below 2^23. -/
def exp2Bounds (P r : Nat) : Nat × Nat := exp2Prod P r 23 22 (2 ^ (P + 1), 2 ^ (P + 1)) (2 ^ P, 2 ^ P)

/-- Integer and fractional part of L / 2^23. -/
def lgSplit (l : Int) : Int × Nat := (l / (2 ^ 23 : Nat), (l % (2 ^ 23 : Nat)).toNat)

/-- `lg_dec` (R249). -/
def lgDec (f : FF) (rm : Rm) (c : Nat) : Res :=
  if lgZero c then (f.signed (lgSign c) 0, 0#8)
  else
    let (k, r) := lgSplit (lgL c)
    if r = 0 then rnd f rm (lgSign c) { m := 1, e := k }
    else
      let q (P : Nat) : Option Nat :=
        let b := exp2Bounds P r
        if b.1 / 2 ^ (P - 64) = b.2 / 2 ^ (P - 64) then some (b.1 / 2 ^ (P - 64)) else none
      let m := (firstSome q lgPrecisions).getD 0
      rnd f rm (lgSign c) { m := m, e := k - 64, sticky := true }

/-- `lg_add` (R250): the exact sum's logarithm, rounded. The sum is an exact power only when the magnitudes stand at ratio
1, 2 or 1/2 (2^(i/2^23) for i below 2^23 are linearly independent over the rationals). -/
def lgAdd (a b : Nat) : Res :=
  if lgZero a && lgZero b then (lgLZero, 0#8)
  else if lgZero a then lgAt (lgSign b) (lgL b)
  else if lgZero b then lgAt (lgSign a) (lgL a)
  else
    let big := if lgL a ≥ lgL b then a else b
    let small := if lgL a ≥ lgL b then b else a
    let d := lgL big - lgL small
    let same := lgSign a = lgSign b
    if d = 0 then (if same then lgAt (lgSign a) (lgL a + (2 ^ 23 : Nat)) else (lgLZero, 0#8))
    else if d = (2 ^ 23 : Nat) && !same then lgAt (lgSign big) (lgL small)
    else
      let (k, r) := lgSplit (lgL big)
      let (k', r') := lgSplit (lgL small)
      let q (P : Nat) : Option Int :=
        let x := exp2Bounds P r
        let y := exp2Bounds P r'
        let sh := (k - k').toNat
        if sh > 2 * P then none
        else
          let X := (x.1 * 2 ^ sh, x.2 * 2 ^ sh)
          let lo := if same then X.1 + y.1 else X.1 - y.2
          let hi := if same then X.2 + y.2 else X.2 - y.1
          if lo = 0 then none else lgNear P lo hi (k' - P)
      let l := (firstSome q lgPrecisions).getD 0
      let r := lgAt (lgSign big) l
      (r.1, r.2 ||| fNX)

/-- `lg_mul` (R251). -/
def lgMul (a b : Nat) : Res :=
  let g := lgSign a != lgSign b
  if lgZero a || lgZero b then (lgCode g lgLZero, 0#8) else lgAt g (lgL a + lgL b)
/-- `lg_div` (R251). -/
def lgDiv (a b : Nat) : Res :=
  let g := lgSign a != lgSign b
  if lgZero a && lgZero b then (lgCode g lgLZero, fNV)
  else if lgZero b then (lgCode g lgLMax, fDZ)
  else if lgZero a then (lgCode g lgLZero, 0#8)
  else lgAt g (lgL a - lgL b)
/-- `lg_shr` (R251). -/
def lgShr (a s : Nat) : Res :=
  if lgZero a then (a, 0#8)
  else
    let l := lgL a
    (lgCode (lgSign a) (wrapN 31 (l / (2 ^ s : Nat))), if l % (2 ^ s : Nat) = 0 then 0#8 else fNX)
/-- `lg_pow` (R251). -/
def lgPow (a : Nat) (k : Int) : Res :=
  let g := lgSign a && k % 2 = 1
  if k = 0 then (0, 0#8)
  else if lgZero a then (if 0 < k then (lgCode g lgLZero, 0#8) else (lgCode g lgLMax, fDZ))
  else lgAt g (lgL a * k)

/-! ## The dot-product rule (R252, R253) -/

/-- Some term is a NaN, and the infinities' signs. -/
def termsNan (t : List Fp) : Bool := t.any Fp.isNan
/-- Some term is an infinity of a sign. -/
def termsInf (t : List Fp) (s : Bool) : Bool := t.any fun x => x == .inf s
/-- A term is nonzero and finite. -/
def Fp.nonzero : Fp → Bool
  | .fin _ m _ => m ≠ 0
  | _ => false
/-- ⌊log2 |x|⌋ of a nonzero finite term. -/
def Fp.top : Fp → Int
  | .fin _ m e => (bitlen m : Int) - 1 + e
  | _ => 0
/-- A term truncated to a multiple of 2^w, and whether bits were lost. -/
def Fp.truncAt (w : Int) : Fp → Int × Bool
  | .fin s m e =>
    let (v, lost) := if w ≤ e then (m * 2 ^ (e - w).toNat, false)
      else (m / 2 ^ (w - e).toNat, decide (m % 2 ^ (w - e).toNat ≠ 0))
    (if s then -(v : Int) else v, lost)
  | _ => (0, false)
/-- `dot_group`: terms with the accumulator as one more. -/
def dotGroup (acc : Nat) (terms : List Fp) (rm : Rm) : Res :=
  let t := fdec fp32 acc :: terms
  let fl := snan (fdec fp32 acc)
  if termsNan t || (termsInf t false && termsInf t true) then (fp32.qnan, fl)
  else if termsInf t false then (fp32.inf, fl)
  else if termsInf t true then (fp32.signed true fp32.inf, fl)
  else
    let nz := t.filter Fp.nonzero
    match nz with
    | [] =>
      let neg := if rm = .rdn then t.any Fp.sign else t.all Fp.sign
      (fp32.signed neg 0, fl)
    | x :: xs =>
      let e := xs.foldl (fun m y => if m < y.top then y.top else m) x.top
      let w := e - 63
      let r := t.foldl (fun (p : Int × Bool) y => let q := y.truncAt w; (p.1 + q.1, p.2 || q.2)) (0, false)
      let fl := if r.2 then fl ||| fNX else fl
      if r.1 = 0 then (fp32.signed (rm = .rdn) 0, fl)
      else
        let c := rnd fp32 rm (decide (r.1 < 0)) { m := r.1.natAbs, e := w }
        (c.1, c.2 ||| fl)
/-- The exact product of two operands and a scale factor (R253). -/
def dotTerm (a b : Fp) (sigma : Option Fp) : Fp × Flags :=
  let p := fpMul a b
  match sigma with
  | none => p
  | some s => let q := fpMul p.1 s; (q.1, q.2 ||| p.2)

/-! ## Modular lanes (R254 to R256) -/

/-- `barrett` at width W. -/
def barrett (w x q mu : Nat) : Nat :=
  if q < 2 then 0
  else
    let l := bitlen q
    let t1 := x % 2 ^ (2 * w) / 2 ^ (l - 1)
    let t2 := t1 * mu / 2 ^ (l + 1) % 2 ^ w
    let r := wrapN w ((x : Int) - (t2 * q : Nat))
    let r := if r ≥ q then r - q else r
    if r ≥ q then r - q else r
/-- `chk`. -/
def modChk (a q : Nat) : Flags := if a ≥ q then fMQ else 0#8
/-- `addm`; a modulus below 2 gives 0. -/
def addm (w a b q : Nat) : Res :=
  let fl := modChk a q ||| modChk b q
  if q < 2 then (0, fl) else ((if a + b ≥ q then a + b - q else a + b) % 2 ^ w, fl)
/-- `subm`. -/
def subm (w a b q : Nat) : Res :=
  let fl := modChk a q ||| modChk b q
  if q < 2 then (0, fl) else (if a ≥ b then (a - b) % 2 ^ w else wrapN w ((a : Int) - b + q), fl)
/-- `mulm`. -/
def mulm (w a b q mu : Nat) : Res := (barrett w (a * b) q mu, modChk a q ||| modChk b q)
/-- `macm`. -/
def macm (w a b c q mu : Nat) : Res :=
  (barrett w ((a * b + c) % 2 ^ (2 * w)) q mu, modChk a q ||| modChk b q ||| modChk c q)
/-- `bfly_ct` and `bfly_gs` (R256): the pair and the flags of the helpers they call. -/
def bfly (gs : Bool) (w a b tw q mu : Nat) : (Nat × Nat) × Flags :=
  if gs then
    let x := addm w a b q
    let d := subm w a b q
    let y := mulm w d.1 tw q mu
    ((x.1, y.1), x.2 ||| d.2 ||| y.2)
  else
    let t := mulm w b tw q mu
    let x := addm w a t.1 q
    let y := subm w a t.1 q
    ((x.1, y.1), t.2 ||| x.2 ||| y.2)

end Sys2Proof.Machine
end

