-- ==== Sys2Proof/Config.lean ====
section
/-! DEFINITION. What an implementation fixes and what the spec leaves open, as opaque constants: nothing in Lean can
evaluate one of them, so a claim holds whatever they are (assumptions 1, 11, 12). -/
namespace Sys2Proof.Config

/-- A fresh undefined word: the spec calls a value indeterminate or random and the machine goes on. Applied to the counter
`State.freeCtr`, which every use advances (assumption 11). -/
opaque freeWord : Nat → BitVec 64
/-- A fresh undefined byte of an indeterminate destination (R170, R374, R383). -/
opaque freeByte : Nat → BitVec 8
/-- A fresh undefined fp32 code of an indeterminate accumulator element (R170). -/
opaque freeF32 : Nat → BitVec 32

/-- The XTS key pair and the tag key drawn at a reset from the random source (R64, R65). -/
opaque xtsKey : Nat → BitVec 512
opaque tagKey : Nat → BitVec 256
/-- AES-256 in XTS mode on one data unit of 64 bytes (R64, IEEE 1619): key pair, tweak, data; and its inverse. -/
opaque aesXts : BitVec 512 → BitVec 46 → BitVec 512 → BitVec 512
opaque aesXtsInv : BitVec 512 → BitVec 46 → BitVec 512 → BitVec 512
/-- KMAC128 (R65, R231, NIST SP 800-185): key, input and customisation string as bytes, bits of output. -/
opaque kmac128 : List (BitVec 8) → List (BitVec 8) → Nat → List (BitVec 8) → List (BitVec 8)
/-- The check byte of the SECDED code over a 64-bit word (R65), whose matrix the spec does not give. -/
opaque secded : BitVec 64 → BitVec 8
/-- The host frame in which firmware backs a page that it moves out (R61). -/
opaque backingFrame : Nat → Nat
/-- SHAKE256 with 256 bits of output (R80, R99): a function of another standard. -/
opaque shake256 : List (BitVec 8) → BitVec 256
/-- Verification of an XMSS signature under the vendor patch key (R80), message then signature. -/
opaque patchSigOk : List (BitVec 8) → List (BitVec 8) → Bool
/-- Verification of an XMSS signature under the vendor debug key (R100). -/
opaque tokenSigOk : List (BitVec 8) → List (BitVec 8) → Bool
/-- XMSS signature with the identity key at an index (R99): 2,820 bytes. -/
opaque identitySign : Nat → List (BitVec 8) → List (BitVec 8)
/-- XMSS signature with the boot key of a reset at an index (R99): 2,692 bytes. -/
opaque bootSign : Nat → Nat → List (BitVec 8) → List (BitVec 8)
/-- The boot public key of a reset (R99): 68 bytes. -/
opaque bootPublicKey : Nat → List (BitVec 8)
/-- The boot challenge drawn at a reset (R100). -/
opaque bootChallenge : Nat → BitVec 128
/-- DEVID (R99): SHAKE256 of the identity public key. -/
opaque deviceId : BitVec 256
/-- SHAKE256 of the ROM (R80, R99). -/
opaque romHash : BitVec 256
/-- VERSION.ROMV (R79), fixed by the part. -/
opaque romVersion : BitVec 16
/-- The ROM's boot image (R20 step 7), whose text the spec does not print. -/
opaque romImage : List (BitVec 8)
/-- The ROM step-mode boot stub of 4 KiB (R20 step 6), whose text the spec does not print. -/
opaque romStub : List (BitVec 8)
/-- Rollback floor of patches held in fuses at manufacture (R80). -/
opaque patchFloor : Nat

/-- Virtual address of the boot stub's first instruction (R20 step 6), which the spec does not give. -/
opaque stubAddress : BitVec 64
/-- The 64 KiB frames that leases can pin: 756 GiB less firmware's reserve, whose size the spec does not give (R61). -/
opaque leaseFrames : Nat
/-- Memory the firmware reserves for what R49, R68, R110, R145 and R214 say it places: the rings' bases are intermediate
addresses that firmware chooses (assumption 3 gives the state's values at reset). -/
opaque reserveBase : Nat

/-- The width and height of the peer torus, less one, that a module learns at bring-up (R42); taken modulo 16. -/
opaque torusW : Nat
opaque torusH : Nat
/-- This module's coordinates in it (R42), taken modulo its width and height. -/
opaque moduleX : Nat
opaque moduleY : Nat
/-- How far the management core slews TIMEB when a slew may be made, in ns, before the limit of 100 ppm (R18); applied to
`State.freeCtr`. -/
opaque slew : Nat → Nat

end Sys2Proof.Config
end

