-- ==== Sys2Proof/Machine/Table.lean ====
section
/-! DEFINITION. Sparse tables and memories as plain lists: a table is sorted by its key with no key twice; a memory is sorted
by address and lists no byte equal to what an unlisted address reads as, which is 0 (assumption 2). -/
namespace Sys2Proof.Machine

/-- A table keyed by a number, in canonical form when its keys strictly rise. -/
abbrev Tbl (α : Type) := List (Nat × α)
/-- Bytes by address; an unlisted address reads as 0. -/
abbrev Memory := List Host.Cell

/-- The entry of a key. -/
def tblGet? {α : Type} : Tbl α → Nat → Option α
  | [], _ => none
  | (k, v) :: t, i => if i = k then some v else tblGet? t i

/-- The entry of a key, or a default. -/
def tblGetD {α : Type} (t : Tbl α) (i : Nat) (d : α) : α := (tblGet? t i).getD d

/-- Put an entry, keeping the keys rising. -/
def tblSet {α : Type} : Tbl α → Nat → α → Tbl α
  | [], i, v => [(i, v)]
  | (k, w) :: t, i, v => if i < k then (i, v) :: (k, w) :: t else if i = k then (i, v) :: t else (k, w) :: tblSet t i v

/-- Remove an entry. -/
def tblErase {α : Type} : Tbl α → Nat → Tbl α
  | [], _ => []
  | (k, w) :: t, i => if i = k then t else (k, w) :: tblErase t i

/-- Put or remove an entry. -/
def tblPut {α : Type} (t : Tbl α) (i : Nat) (v : Option α) : Tbl α :=
  match v with
  | some w => tblSet t i w
  | none => tblErase t i

/-- The keys strictly rise: the canonical form of a table. -/
def tblWf {α : Type} : Tbl α → Bool
  | [] => true
  | [_] => true
  | (i, _) :: (j, w) :: t => decide (i < j) && tblWf ((j, w) :: t)

/-- Change the entries one by one. -/
def tblMap {α β : Type} (f : Nat → α → β) : Tbl α → Tbl β
  | [] => []
  | (k, v) :: t => (k, f k v) :: tblMap f t

/-- The byte at an address. -/
def memGet : Memory → Nat → BitVec 8
  | [], _ => 0#8
  | (k, b) :: t, a => if a = k then b else if a < k then 0#8 else memGet t a

/-- Put a byte, keeping the canonical form: a zero byte is not listed. -/
def memSet : Memory → Nat → BitVec 8 → Memory
  | [], a, b => if b = 0#8 then [] else [(a, b)]
  | (k, c) :: t, a, b =>
    if a < k then (if b = 0#8 then (k, c) :: t else (a, b) :: (k, c) :: t)
    else if a = k then (if b = 0#8 then t else (a, b) :: t)
    else (k, c) :: memSet t a b

/-- The canonical form of a memory: addresses strictly rise and no listed byte is 0. -/
def Memory.wf : Memory → Bool
  | [] => true
  | [(_, b)] => decide (b ≠ 0#8)
  | (a, b) :: (c, d) :: t => decide (b ≠ 0#8) && decide (a < c) && Memory.wf ((c, d) :: t)

/-- n bytes from an address, lowest first. -/
def memRead (m : Memory) (a : Nat) : Nat → List (BitVec 8)
  | 0 => []
  | n + 1 => memGet m a :: memRead m (a + 1) n

/-- Store bytes from an address up. -/
def memWrite (m : Memory) (a : Nat) : List (BitVec 8) → Memory
  | [] => m
  | b :: bs => memWrite (memSet m a b) (a + 1) bs

/-- A set of numbers as a rising list: membership. -/
def setHas (l : List Nat) (n : Nat) : Bool := l.contains n
/-- Insert into a rising list. -/
def setIns : List Nat → Nat → List Nat
  | [], n => [n]
  | k :: t, n => if n < k then n :: k :: t else if n = k then k :: t else k :: setIns t n
/-- Remove from a rising list. -/
def setDel : List Nat → Nat → List Nat
  | [], _ => []
  | k :: t, n => if n = k then t else k :: setDel t n

/-- Bytes of a word, little-endian (R5). -/
def bytesOf (v : BitVec 64) : Nat → List (BitVec 8)
  | 0 => []
  | n + 1 => v.extractLsb' 0 8 :: bytesOf (v >>> 8) n

/-- The little-endian value of bytes as a number (R5). -/
def natOfBytes : List (BitVec 8) → Nat
  | [] => 0
  | b :: bs => b.toNat + 256 * natOfBytes bs

/-- n little-endian bytes of a number. -/
def bytesOfNat (v : Nat) : Nat → List (BitVec 8)
  | 0 => []
  | n + 1 => BitVec.ofNat 8 v :: bytesOfNat (v / 256) n

/-- The little-endian 64-bit value of bytes. -/
def wordOf (bs : List (BitVec 8)) : BitVec 64 := BitVec.ofNat 64 (natOfBytes bs)

/-- A run of equal elements. -/
def repeatN {α : Type} (x : α) : Nat → List α
  | 0 => []
  | n + 1 => x :: repeatN x n

end Sys2Proof.Machine
end

