-- ==== Sys2Proof/Machine/State.lean ====
section
/-! DEFINITION. The state of the module as plain data, the reasons a step can stop, and the state after reset. Every piece of
architectural state that the spec names stands here under its own name; INVENTORY.md lists them with their rules and
reset values. -/
namespace Sys2Proof.Machine

/-- Why the machine stops with a fault. Every trap and termination that the spec describes is a next state, not one of these. -/
inductive Fault where
  /-- raised by the meaning of an encoded instruction when no thread stands at the state's current position and slot:
  the model's own guard, never met in a run; safe (the model stops where nothing issues) -/
  | noThread
deriving DecidableEq, Repr

/-- Why the machine refuses. -/
inductive Refusal where
  /-- raised by an arm of `exec` that has no meaning yet, by the table's mnemonic; safe -/
  | notModelled (mnemonic : String)
deriving DecidableEq, Repr

/-! ## Threads -/

/-- A trap to be taken (R208, R211); EPC is the thread's pc when it is taken. -/
structure Trap where
  code   : BitVec 8
  detail : BitVec 4 := 0#4
  async  : Bool := false
  tval   : Word := 0#64
deriving DecidableEq, Repr

/-- What a sleeping thread waits for (R117, R150, R161, R326, R327, R390, R396). -/
inductive Sleep where
  /-- a wait-table entry of the core's own bank -/
  | tag
  /-- a remote tagged operation or `acq`, by the SEQ and destination node of its request -/
  | reply (dst : Nat) (ns : Bool) (seq : BitVec 16)
  /-- `evwait`: the mask of streams -/
  | events (mask : BitVec 16)
  /-- `waitph`: the object's scratchpad offset and the phase waited on -/
  | phase (off : Nat) (p : Bool)
  /-- `wfe`: TIMEB at its issue -/
  | wfe (since : Word)
  /-- `bar`: the level -/
  | bar (level : Nat)
  /-- `bar.x` -/
  | barX
  /-- `bar.t` -/
  | barT
  /-- `nrecv`: the direction -/
  | recv (d : Dir)
deriving DecidableEq, Repr

/-- A freed inbox entry kept for a refused source (R175): for a record on stream 15 or not, and TIMEB at the reservation. -/
structure Reservation where
  src : Nat
  sys : Bool
  at0 : Word
deriving DecidableEq, Repr
/-- State of an occupied thread slot (R150); a slot that is not listed is free. -/
inductive Run where
  | running
  | sleeping (w : Sleep)
  /-- a nomad context sent and not yet accepted: the target position (R155) -/
  | transit (target : Nat)
  /-- held by pre-emption (R118) -/
  | halted
  /-- held by a debug stop (R218) -/
  | stopped
deriving DecidableEq, Repr

/-- A thread and its registers (R275, R207). Whether a hosted nomad is said by `home`. -/
structure Thread where
  x        : Vector Word 32
  p        : BitVec 8
  pc       : Word
  status   : Word
  estatus  : Word
  epc      : Word
  tcause   : Word
  tval     : Word
  tscratch : Word
  stklim   : Word
  fflags   : Word
  /-- the instruction register: the bits of the instruction being issued (R211's "instruction bits") -/
  ir       : BitVec 32
  /-- scoreboard: pending x registers and predicates (R151) -/
  pendX    : BitVec 32
  pendP    : BitVec 8
  run      : Run
  /-- the sleep a halt or stop abandoned leaves the thread to issue its instruction afresh; a barrier arrival stands (R326) -/
  arrived  : Option Sleep
  /-- group number on the home core, and index of the thread in its group -/
  group    : Nat
  idx      : Nat
  prio     : Nat
  waitCnt  : Nat
  nomad    : Bool
  /-- home position and slot of a hosted nomad thread (R155) -/
  home     : Option (Nat × Nat)
  /-- vector context: none, V0 (false) or V1 (true) (R166) -/
  ctx      : Option Bool
  /-- first reported fault not yet taken (R72, R212) with the instant of the access, and MORE -/
  held     : Option Trap
  heldMore : Bool
  /-- trap 0x13 is due once the wait's withdrawal is answered (R161, R211) -/
  wdPending : Bool
  /-- the address at which a breakpoint has acted: its next issue does not match (R220) -/
  bpPass   : Option Word
  /-- trap 0x11 is due after a restore, with TIMEB at the halt (R120, R211) -/
  pnDue    : Option Word
  /-- a target has refused this nomad thread: the access is made remotely (R155 step 3) -/
  stay     : Bool
  /-- instructions retired since a stop reached the thread, counted while it runs on; TIMEB of the stop (R222) -/
  skid     : Nat
  tstop    : Word
  lagging  : Bool := false
  /-- the instruction that single step allows has retired (R223) -/
  stepped  : Bool
  digA     : Word
  digB     : Word
  /-- both lanes as they will be once the tagged operation that the thread sleeps for retires (R140) -/
  digNext  : Option (Word × Word) := none
  /-- watchpoints that the sleeping instruction's access matched at issue, whose trigger follows its retirement, and the access's address
  (R220) -/
  watchDue : List (Nat × Nat) := []
  /-- TIMEB of the last retirement (R219) -/
  lastRet  : Word
  /-- trap 0x12 due at the boundary, with its TVAL (R211, R221) -/
  dbgTrap  : Option Word
  /-- dale reduction unit entries whose acknowledgement a fence, release, barrier arrival or exit awaits (R186, R190) -/
  flushing : Option (List Nat)
  /-- bytes of the 64-byte record that a task instruction is reading, word by word (R391) -/
  readRec  : Option (List Byte)
  /-- tile instructions and engine operations of the thread not yet completed (R374, R392) -/
  tiles    : Nat
  engines  : Nat
  /-- TIMEB since which it is halted, stopped or in transit: the watchdog does not count then (R219) -/
  heldAt   : Option Word
deriving DecidableEq, Repr

/-! ## Addresses, spans, leases -/

/-- A span SPVBn, SPVLn, SPOFn, SPATn (R51). -/
structure Span where
  vbase  : Word
  vlimit : Word
  offset : Word
  attr   : Word
deriving DecidableEq, Repr

/-- A lease descriptor (R59). -/
structure Lease where
  base  : Nat
  pages : Nat
  r : Bool
  w : Bool
  x : Bool
  inp : Bool
  ctl : Bool
deriving DecidableEq, Repr

/-- A binding of a sync object to a region, as intermediate addresses (R188). -/
structure Binding where
  sync   : Nat
  region : Nat
  log2   : Nat
deriving DecidableEq, Repr

/-! ## Groups -/

/-- A termination in progress (R212, R213). -/
structure Dying where
  cls    : Nat
  code   : BitVec 8
  thread : Nat
  epc    : Word
  tval   : Word
  time   : Word
deriving DecidableEq, Repr

/-- The part of a check or third run that a group carries (R142). -/
structure CheckRun where
  check : Nat
  third : Bool
  void  : Bool
deriving DecidableEq, Repr

/-- A group resident on a core (R109). -/
structure Group where
  gid     : Nat
  lid     : Nat
  base    : Nat
  len     : Nat
  gen     : Nat
  lowSlot : Nat
  size    : Nat
  nvec    : Nat
  nomad   : Bool
  /-- the 64-byte record it started from -/
  record  : List Byte
  member  : Option Nat
  spans   : List Span
  tvec    : Word
  binds   : List Binding
  /-- threads arrived at the current phase of a level: (level, thread index) (R102) -/
  arrivals : List (Nat × Nat)
  barX    : List Nat
  barT    : List Nat
  /-- threads that have executed `texit` -/
  exited  : Nat
  /-- number of groups started on the core before it in this launch (R103) -/
  order   : Nat
  dying   : Option Dying
  /-- since its halt or stop: accesses answered, left indeterminate, and the list of those (R215, R216); TIMEB of the stop -/
  drain   : Nat
  indet   : Nat
  badList : List (BitVec 128)
  stopAt  : Word
  /-- stopped by a debug trigger, with the trigger's number (R221, R223) -/
  stopped : Option Nat
  /-- the core's clock at which the stop holds the threads that still run on (R221) -/
  lag     : Option Nat := none
  stepping : Bool
  detached : Bool
  /-- the last `texit` is held until the gang's members have departed (R138) -/
  heldExit : Bool
  check   : Option CheckRun
  /-- digest xor of the exited threads' lanes B and A (R140) -/
  digest  : BitVec 128
  /-- hold mode: decrements kept back, address and k (R144) -/
  heldDecs : List (Nat × Nat)
deriving DecidableEq, Repr

/-! ## Requests and packets -/

/-- How an access is answered (R54, R58, R66, R69, R71, R73). -/
inductive Answer where
  | ok
  | poison
  | fault (code : BitVec 8) (detail : BitVec 4)
deriving DecidableEq, Repr

/-- Negative acknowledgements (R28). -/
inductive Nack where | full | busy | fenced | nocore | stale
deriving DecidableEq, Repr

/-- Tagged operations (R314) and the two that act on a sync object or barrier object without the tag (R323, R324, R328). -/
inductive TagOp where | lwf | take | tagq | empty | put | fill
deriving DecidableEq, Repr

/-- Header of a flit between modules (R42, R43): source and destination module coordinates, the nodes at either end, and what the
request or reply carries; `dst` is 0 for a request, whose address names its node. -/
structure PeerHead where
  sx    : Nat
  sy    : Nat
  dx    : Nat
  dy    : Nat
  src   : Nat
  dst   : Nat
  seq   : BitVec 16
  ns    : Bool
  retry : Bool
  vt    : BitVec 32
  lid   : Nat
  gen   : Option Nat
deriving DecidableEq, Repr

/-- The body of a packet (R27). -/
inductive Body where
  | read (ia n : Nat)
  | write (ia : Nat) (data : List Byte) (poison : Bool)
  | atomic (ia : Nat) (w : AtomWidth) (op : AmoOp) (b : Word)
  | cas (ia : Nat) (w : AtomWidth) (e b : Word)
  | reduce (ia : Nat) (w : AtomWidth) (op : RedOp) (b : Word)
  | tagged (ia : Nat) (op : TagOp) (b : Word)
  | xst (ia : Nat) (b : Word)
  | tdec (ia : Nat) (k : Nat)
  | matrix (key : BitVec 32) (tag : BitVec 8) (op acc : Nat) (desc : Nat)
  | delegated (ia : Nat) (w : AtomWidth) (op : AmoOp) (b : Word) (tag : BitVec 8)
  | bulkRead (ia n : Nat)
  | withdraw (ns : Bool) (seq : BitVec 16)
  | event (stream index : Nat) (vt units : BitVec 32) (srcCore : Nat)
  /-- a system record for stream 15 (R385 with REC = 1) -/
  | record (r : BitVec 128)
  | neighbour (d : Dir) (v : Word)
  /-- a space notice: an acknowledgement without data that names no request (R175) -/
  | space
  | data (bytes : List Byte) (ans : Answer)
  | ack (waiting : Bool) (ans : Answer)
  | nack (st : Nack)
  /-- a forwarded request: the request, the node that waits for its reply, and the NS and SEQ that reply carries (R34) -/
  | forwarded (req : Body) (orig : Nat) (oseq : BitVec 16) (ons : Bool)
  | probe (line : Nat)
  /-- the credit of a probe, which it answers, or of a forwarded request, whose NS and SEQ it names (R34, R36) -/
  | probeReply (fwd : Option (Bool × BitVec 16))
  | debugAccess (off : Nat)
  | debugReply (v : Word)
  | migRefusal
  | bulkWrite (ia : Nat) (data : List Byte) (poison : Bool)
  | bulkData (bytes : List Byte) (ans : Answer)
  /-- a nomad context: registers x1 to x15, pc, predicates, home position and slot, PN (R156) -/
  | context (regs : List Word) (pc : Word) (p : BitVec 8) (homePos homeSlot : Nat) (pn : Bool)
  /-- a flit on its way to a peer port's egress agent (R43) -/
  | transit (h : PeerHead) (flit : Body)
  /-- a packet of a reserved KIND on a plane (R27) -/
  | reserved (plane kind : Nat)
deriving DecidableEq, Repr

/-- Where a packet stands (R30): offered to its router by a local agent, on a mesh port (0 east to 3 north) on which a router has
received it, or ejected at its destination. -/
inductive Spot where
  | offered
  | atPort (router port : Nat)
  | ejected
deriving DecidableEq, Repr

/-- A packet in the fabric (R26), with the sideband of work packets (R132), the launch that issued it and, for a gang-window
access, the generation it carries (R55); its deflection count, and where it stands; of a bulk packet at a scratchpad, the bytes done
word by word, those read, and whether one was poisoned (R183). -/
structure Packet where
  src    : Nat
  dst    : Nat
  seq    : BitVec 16
  ns     : Bool
  retry  : Bool
  peer   : Bool
  vt     : BitVec 32
  colour : Bool
  lid    : Nat
  gen    : Option Nat
  body   : Body
  age    : BitVec 8 := 0#8
  spot   : Spot := .offered
  part   : Nat := 0
  got    : List Byte := []
  bad    : Bool := false
  /-- the record it pushes is a check record (R142) -/
  mark   : Option (Nat × Bool) := none
deriving DecidableEq, Repr

/-- What a requester does with the answer. -/
inductive Use where
  /-- a load: destination, size, sign extension, offset in the answer; `fill`: the L1 line it fetches -/
  | load (rd : Reg) (n : Nat) (signed : Bool) (off : Nat) (fill : Option Nat) (lru : Bool)
  | atomic (rd : Reg) (w : AtomWidth)
  /-- a word of a task instruction's record, read as a load reads it (R391) -/
  | recWord (off : Nat) (fill : Option Nat)
  | store
  | tagged (op : TagOp) (rd : Reg)
  | tagQuery (pd : Pred)
  | acquire (rd : Reg)
  | fetch (line : Nat)
  /-- an engine operation's chunk: destination address of the chunk's bytes; read part and write part -/
  | engineRead (op : Nat) (dst n : Nat)
  | engineWrite (op n : Nat)
  /-- a flush of a dale reduction unit entry (R194) -/
  | flush (dale entry : Nat)
  | event (slot : Nat)
  | push
  | context (slot : Nat)
  | withdrawal (dst : Nat) (ns : Bool) (seq : BitVec 16)
  | ramo
  | matrix
  | debug
  | record
  /-- an element of a vector load: context, register, first byte and bytes, offset in the answer and the L1 line it fetches; a modulus
  word of `vldq`; a vector store's element -/
  | vload (ctx : Bool) (v : BitVec 5) (e at0 n off : Nat) (fill : Option Nat)
  | vloadq (ctx : Bool) (j : QReg) (qc : Bool) (off : Nat) (fill : Option Nat)
  | vstore (ctx : Bool) (e : Nat)
  /-- a request that entered from a peer port: its answer goes back to the module it came from (R37, R43) -/
  | ingress (h : PeerHead)
deriving DecidableEq, Repr

/-- An outstanding request at its source (R33 rule 2, R36). `slot` is the issuing thread's slot where one issued it. -/
structure Req where
  src     : Nat
  dst     : Nat
  seq     : BitVec 16
  ns      : Bool
  lid     : Nat
  gen     : Option Nat
  body    : Body
  vt      : BitVec 32
  colour  : Bool
  slot    : Option Nat
  gid     : Nat
  va      : Word
  /-- issued while TH was 1 (R212) -/
  handler : Bool
  use     : Use
  tries   : Nat
  /-- a WAITING answer has arrived (R38) -/
  waiting : Bool
  /-- backoff handshakes after BUSY, and BUSY answers in a row (R28) -/
  backoff : Option Nat
  busy    : Nat
  /-- not injected: more than 64 side-effecting packets to the destination, or injection is paused (R36, R40) -/
  parked  : Bool
  /-- the wait is being withdrawn (R161) -/
  withdrawn : Bool
  /-- scope of an atomic with return, which holds later accesses within its reach back (R187) -/
  scope   : Nat
  /-- TIMEB at its last injection, or when it was last held back: the start of its timer (R28, R36, R38, R175) -/
  sent    : Word
  /-- it entered from a peer port (R26) -/
  peer    : Bool := false
  /-- its number in the order of issue -/
  id      : Nat := 0
  /-- the record it pushes is a check record: its check, and whether of the third run (R142) -/
  mark    : Option (Nat × Bool) := none
  /-- home position and number of the group whose event or matrix command it is, which a drain awaits (R215) -/
  owner   : Option (Nat × Nat) := none
deriving DecidableEq, Repr

/-- A forward slot (R34): the node, NS and SEQ of the forwarded request or probe, and the original packet; sent once a credit was there. -/
structure Fwd where
  node   : Nat
  ns     : Bool
  seq    : BitVec 16
  probe  : Bool
  packet : Packet
  sent   : Bool := true
deriving DecidableEq, Repr

/-- Per-node fabric state: sequence counters by destination, duplicate windows by source, retained replies (R36, R37). -/
structure Node where
  seqS    : Tbl (BitVec 16)
  seqN    : Tbl (BitVec 16)
  windows : Tbl (BitVec 16 × BitVec 64)
  /-- newest first: source, SEQ, reply -/
  replies : List (Nat × BitVec 16 × Body)
  /-- forward slots in use, each of which has spent a credit for its node (R34) -/
  forward : List Fwd
deriving DecidableEq, Repr

/-- The header flit of a control-network message (R44). -/
structure CtlHead where
  dst   : Nat
  type  : Nat
  len   : Nat
  scope : Nat
  src   : Nat
  col   : Bool
deriving DecidableEq, Repr

/-- Messages of the control network (R44). A tree message is sent to the root and flows down (R45): each entry is its arrival at one
position. An acknowledgement's position is the router that sends it to its parent in the tree, for itself and all below it. -/
inductive CtlMsg where
  | stealReq (thief victim : Nat)
  | stealReply (victim thief : Nat) (rec : Option (List Byte)) (vt : BitVec 32) (colour : Bool)
  | shoot (pos lid idx : Nat)
  | shootAck (pos lid idx : Nat)
  | stop (pos lid src gslot trig : Nat) (time : Word)
  | stopAck (pos trig skid groups : Nat)
  | write (pos off : Nat) (v : Word)
  | read (pos off : Nat)
  | data (pos off : Nat) (v : Word)
  | injPause (pos : Nat)
  | injResume (pos : Nat)
  | linkDead (pos : Nat) (d : Dir) (plane : Nat)
  | gridLatch (pos n : Nat)
  /-- a core's report of a poison consumption (R147 step 1) -/
  | contain (pos : Nat)
deriving DecidableEq, Repr

/-- An acknowledgement being combined on a tree (R45): its root, the positions whose own core has still to answer, the routers that
have still to acknowledge to their parents, and the sums that STOP-ACK carries, skid and groups, as each router has them (R221). -/
structure AckTree where
  root : Nat
  own  : List Nat
  left : List Nat
  sums : List (Nat × Nat × Nat)
deriving DecidableEq, Repr

/-- A command begun and not yet completed: its queue, entry index, tag, OPC and NOCPL (R83, R85). -/
structure CmdRef where
  q     : Nat
  index : Nat
  tag   : BitVec 16
  opc   : Nat
  nocpl : Bool
deriving DecidableEq, Repr

/-! ## Vector and matrix units -/

/-- The operations that vector commands perform (chapter 13), without their registers. -/
inductive VOp where
  /-- integer operation by its f4 of major 0x20 (0 vadd to 13 vxor) -/
  | int (op : Nat) (w : Width)
  | mov
  | fp (op : Nat) (f : FFmt)
  | cmp (c : Nat) (w : Width)
  | fcmp (c : Nat) (f : FFmt)
  | mask (op : Nat)
  | mcnt
  | mfirst
  | sel
  | red (op : Nat) (w : Width)
  | fred (op : Nat) (f : FFmt)
  | perm (w : Width)
  | slide (up : Bool) (w : Width)
  | zip (un : Bool) (w : Width)
  | rev (w : Width)
  | bcast (w : Width)
  | ext (w : Width)
  | cvt
  | pack (w : PackWidth)
  | unpack (hi : Bool) (w : PackWidth)
  /-- memory: the accesses are in the command; `byp`: `.b`; `part`: a gather or scatter, which a halt
  interrupts; `bytes`: the elements are bytes, whatever an access covers -/
  | load (byp part : Bool)
  | store (part bytes : Bool)
  | loadq (bypass : Bool) (j : QReg)
  | vwidth
  | modular (op : Nat) (l : Lane) (j : QReg)
  | bfly (gs : Bool) (l : Lane) (j : QReg) (stage : Nat)
  | bflyx (gs : Bool) (l : Lane) (j : QReg)
  | permb (stage : Nat)
  | tolog
  | fromlog
  | logadd
  | sdq
  | vwhile (w : Width) (unsigned : Bool)
deriving DecidableEq, Repr

/-- An access of a vector memory command: its lowest element, virtual and intermediate address, bytes, and the byte of the
register it starts at. Neighbouring bytes of `vld` and `vst` that lie in one word of a scratchpad or one 64-byte block of memory
space make one access (R183, R334). -/
structure VRun where
  e   : Nat
  va  : Word
  ia  : Nat
  n   : Nat
  at0 : Nat
deriving DecidableEq, Repr

/-- An event that the sigma-delta unit has still to send (R366): destination position, logical core, stream, index, units. -/
structure SdSend where
  dst    : Nat
  lcore  : Nat
  stream : Nat
  index  : Nat
  units  : BitVec 32
deriving DecidableEq, Repr

/-- SDCTL and SDROUTE: the bases of the sigma-delta unit's tables, and their entries (R177, R179). -/
structure SdTables where
  tbase  : Nat
  tlen   : Nat
  rbase  : Nat
  nroute : Nat
deriving DecidableEq, Repr
/-- The tables at a launch's start. -/
def SdTables.reset : SdTables := { tbase := 0, tlen := 0, rbase := 0, nroute := 0 }

/-- A queued vector command (R167): the operation, register numbers, the scalar values read at issue, the prefix. -/
structure VCmd where
  op    : VOp
  d     : BitVec 5
  a     : BitVec 5
  b     : BitVec 5
  m     : MReg
  /-- the second operand is the scalar s2 -/
  bx    : Bool
  s1    : Word
  s2    : Word
  pfx   : Option (BitVec 32)
  slot  : Nat
  gid   : Nat
  lid   : Nat
  /-- accesses of a memory command -/
  runs  : List VRun
  handler : Bool
  /-- its number in the order of issue -/
  id    : Nat := 0
  /-- the sigma-delta tables at its issue (R180) -/
  sd    : SdTables := SdTables.reset
deriving DecidableEq, Repr

/-- A vector context (R166, R275, R337). -/
structure VCtx where
  v     : Vector VecWord 32
  m     : Vector MaskWord 8
  qm    : Vector Word 4
  qc    : Vector Word 4
  queue : List VCmd
  /-- VSTATE.NEXT and PART: progress of a stopped gather or scatter -/
  next  : Nat
  part  : Bool
  /-- accesses (elements of a `vsdq`) of the head command already begun -/
  issued : Nat
  /-- lowest element of the head command that a target has refused, with its cause code (R336) -/
  fault : Option (Nat × BitVec 4)
  /-- events of the current element of a `vsdq` still to be sent -/
  sends : List SdSend
  /-- the slot of the thread that holds the context -/
  owner : Option Nat
  /-- the head command stood at the head when its thread was halted or stopped, and completes (R118) -/
  headLeft : Bool
deriving DecidableEq, Repr

/-- What a macro-operation is (R375, R377). -/
inductive TileKind where | mma | spmac | clr | acc2s | s2acc
deriving DecidableEq, Repr

/-- A tile instruction or matrix command (R373, R379, R380): its operands resolved to intermediate addresses. -/
structure TileOp where
  kind   : TileKind
  acc    : AccReg
  a      : Nat
  b      : Nat
  shape  : Word
  stride : Word
  pfx    : BitVec 32
  /-- virtual bases of A, or of the range moved, and of B, for a reported fault (R374) -/
  va     : Word
  vb     : Word
  slot   : Option Nat
  gid    : Nat
  lid    : Nat
  /-- a command: the node and logical sender that get its record, its tag, and the core whose scratchpad holds C -/
  sender : Option (Nat × BitVec 8)
  home   : Nat
  migrated : Bool
  /-- next step (R376); the staging tile of `tspmac` by row-major fp32 codes; TAB4 read at the first step -/
  step   : Nat
  stage  : List (BitVec 32)
  tab    : Word × Word
  flags  : Word
  handler : Bool
  /-- its number in the order of issue -/
  id     : Nat := 0
deriving DecidableEq, Repr

/-- A piece of an engine operation still to move: source, or none for fill data; the virtual addresses for a fault report. -/
structure Piece where
  src  : Option Nat
  vsrc : Word
  dst  : Nat
  vdst : Word
  n    : Nat
  data : List Byte
  /-- the fault that the issuing group's spans and leases give a gathered element (R382, R383) -/
  bad  : Option (BitVec 8 × BitVec 4)
  /-- the bytes' source has failed: the fault and its virtual address, reported once the free bytes written in their place count (R383) -/
  after : Option (BitVec 8 × BitVec 4 × Word) := none
deriving DecidableEq, Repr

/-- A copy or gather operation of a core's engine (R381, R382) or of an I/O die's copy engine (COPY, FILL). -/
structure EngineOp where
  id      : Nat
  node    : Nat
  slot    : Option Nat
  gid     : Nat
  lid     : Nat
  /-- scratchpad offset of the barrier object on the issuing core -/
  barrier : Option Nat
  todo    : List Piece
  /-- bytes read or written and not yet answered -/
  live    : Nat
  handler : Bool
  poison  : Bool
  /-- the first fault met, for a command's completion -/
  fail    : Option (BitVec 8)
  cmd     : Option CmdRef
deriving DecidableEq, Repr

/-! ## Inbox and events -/

/-- An inbox entry (R173): a coalescing event or a system record; `arrival` orders entries of equal virtual time (R128). -/
inductive Entry where
  | event (stream index : Nat) (vt units : BitVec 32) (src : Nat) (sseq : BitVec 16) (arrival : Nat)
  | record (r : BitVec 128) (arrival : Nat)
deriving DecidableEq, Repr

/-- A producer's event slot (R176): the packet body and destination node, whether it waits for space, and the thread slot + 1 of
the `vsdq` that sent it, 0 for `evsend`, and TIMEB at its last refusal. -/
structure EvSlot where
  dst    : Nat
  body   : Body
  retry  : Bool
  slot   : Nat
  at0    : Word
  /-- home position and number of the group that sent it (R215) -/
  owner  : Option (Nat × Nat) := none
deriving DecidableEq, Repr

/-- A wait-table entry (R160): word address in the scratchpad's own numbering, operation, data, requester. -/
structure WaitEntry where
  word : Nat
  op   : TagOp
  data : Word
  /-- a local slot and its destination, or a remote node with its NS and SEQ -/
  slot : Option (Nat × Reg)
  node : Nat
  ns   : Bool
  seq  : BitVec 16
deriving DecidableEq, Repr

/-! ## A core -/

/-- A core position's state (07, 05, 09). -/
structure Core where
  threads   : Tbl Thread
  groups    : List Group
  nextGid   : Nat
  /-- allocations of the running launch whose group has exited: base, length, generation (R54, R55) -/
  departed  : List (Nat × Nat × Nat)
  /-- scratchpad bytes; offsets 0x3_0000 to 0x3_FFFF of an enabled exchange region are the physical halves X0, X1 -/
  sp        : Memory
  /-- words whose tag is full; words that hold poison -/
  full      : List Nat
  poisoned  : List Nat
  waits     : List WaitEntry
  exEn      : Bool
  exSel     : Bool
  exSwaps   : BitVec 32
  /-- L1 lines, most recently used first: line number, 128 bytes, poison (R164) -/
  l1        : List (Nat × List Byte × Bool)
  /-- instruction-cache lines by virtual-independent line number (R165); locked lines of step mode by virtual line (R293) -/
  ic        : List (Nat × List Byte × Bool)
  locked    : List (Nat × List Byte)
  /-- leases revoked by a SHOOT that the core has applied (R62) -/
  shot      : List Nat
  /-- SHOOTs applied and not yet acknowledged: launch, lease, and the number that the next access would have had (R62 step 3) -/
  shooting  : List (Nat × Nat × Nat)
  /-- a shoot-down skipped the gated core: its lease-check cache is flushed when it resumes (R45, R62, R153) -/
  leaseFlush : Bool
  /-- launch running on the core, 0 for none -/
  lid       : Nat
  lcore     : Nat
  role      : Nat
  hasRole   : Bool
  v0        : VCtx
  v1        : VCtx
  acc       : Vector (Tbl (BitVec 32)) 4
  tiles     : List TileOp
  matrixQ   : List TileOp
  /-- the macro-operation in progress is the head of the thread list (false) or of the queue (true); whose turn is next -/
  tileBusy  : Option Bool
  tileTurn  : Bool
  mxKey     : BitVec 32
  mxEn      : Bool
  mxMig     : BitVec 32
  tab4l     : Word
  tab4h     : Word
  vtime     : BitVec 32
  vtGvtRec  : Bool
  vtStep    : BitVec 32
  vtStrag   : BitVec 32
  vtSat     : Bool
  gvt       : BitVec 32
  gvtRound  : BitVec 32
  gvtBase   : BitVec 32
  heldGvt   : Option (BitVec 128)
  sent      : BitVec 32 × BitVec 32
  recv      : BitVec 32 × BitVec 32
  minSent   : BitVec 32 × BitVec 32
  /-- contribution latched for the round in progress -/
  latched   : BitVec 32
  /-- a work packet received and not yet started (R130) -/
  holdsWork : Bool
  inbox     : List Entry
  arrivals  : Nat
  inbCap    : Nat
  inbRes15  : Nat
  inbHeld   : Option Word
  inbOvf    : Bool
  inbNacks  : BitVec 32
  /-- refused sources in the order of refusal, and whether it was a record for stream 15 -/
  refusals  : List (Nat × Bool)
  /-- sources for which a freed entry is reserved, oldest first (R175, R407) -/
  reserved  : List Reservation
  evSlots   : List EvSlot
  sd        : SdTables
  sdSent    : BitVec 32
  sdBad     : Nat
  spce      : BitVec 32
  par       : BitVec 32
  /-- SCHEDCTL (R122) -/
  auto      : Bool
  steal     : Bool
  daleOnly  : Bool
  boMax     : Nat
  /-- the deque, bottom first: spill part and local part, each record with its check mark (R110, R142) -/
  spill     : List (List Byte × Option (Nat × Bool))
  deque     : List (List Byte × Option (Nat × Bool))
  dqSpill   : Nat
  xferSent  : BitVec 32
  xferRecv  : BitVec 32
  /-- a thief's request is outstanding; last victims of the dale and basin tiers, 0 before any steal (assumption 3); empty rounds; LFSR;
  victims still to try (R112, R415) -/
  stealOut  : Bool
  lastDale  : Nat
  lastBasin : Nat
  emptyRnd  : Nat
  backoff   : Bool
  /-- a round of stealing goes on (R112) -/
  thieving  : Bool
  /-- a thread of one of its groups is awake on another core (R130) -/
  awayAwake : Bool
  lfsr      : BitVec 16
  victims   : List Nat
  /-- draws left in the round (R112, R415) -/
  draws     : Nat
  /-- TIMEB at the end of the last empty round (R112) -/
  stealAt   : Word
  recasting : Option Nat
  halted    : Bool
  /-- the clock at which a halt request holds the threads that still run on (R118) -/
  haltDue   : Option Nat
  /-- stops whose groups the core has still to hold before it acknowledges: trigger number, groups (R221) -/
  stopOwed  : List (Nat × Nat)
  /-- a halt request held while the basin changes its clock point (R14) -/
  haltHeld  : Bool
  /-- barrier member's group and barrier arrivals (R102) -/
  member    : Option Nat
  groupsRun : Nat
  nextGen   : Nat
  lastIssue : List Nat
  yielded   : Option Nat
  sampleAcc : Nat
  /-- step-mode receive registers and sends since the last release (R390) -/
  nrx       : Vector (Option Word) 4
  nsent     : BitVec 4
  barArr    : Bool
  /-- home-record cache keys, newest first (R155) -/
  homeCache : List (Nat × Nat)
  /-- debug module (R219) -/
  dbgctl    : Word
  dbgstat   : Word
  bp        : Vector Word 4
  wp        : Vector Word 2
  dbgmatch  : Word
  wdLimit   : BitVec 32
  wdTime    : Word
  /-- trace encoder (R225) -/
  trcctl    : Word
  trcbase   : Word
  trcsize   : Word
  trchead   : Word
  trcLast   : Word
  trcPc     : Word
  /-- words that memory has still to take; memory takes none for now; records dropped since the last GAP (R225) -/
  trcBuf    : List Word
  trcStall  : Bool
  trcGap    : Nat
  /-- the basin's clock count at the core's last reset, from which SYNC counts (R226) -/
  cycles    : Nat
  fenced    : Bool
  /-- injection paused by a reroute (R40) -/
  paused    : Bool
deriving DecidableEq, Repr

/-! ## Launches and firmware -/

/-- State of a launch (R119 to R121). -/
inductive LState where
  | waiting | running | saving | evicted | cancelled
deriving DecidableEq, Repr

/-- A launch held by firmware (R88 to R90). -/
structure Launch where
  lid     : Nat
  st      : LState
  /-- evicted by priority (true) or by PREEMPT -/
  byPrio  : Bool
  order   : Nat
  record  : List Byte
  recAddr : Nat
  /-- rectangle X0, Y0, W, H and containment rectangle -/
  x0 : Nat
  y0 : Nat
  w  : Nat
  h  : Nat
  rect    : Nat
  prio    : Nat
  /-- LEVELS: domain and scope of each used entry, by level -/
  levels  : Tbl (Nat × Scope)
  galloc  : Nat
  exch    : Bool
  args    : Word
  spans   : List Span
  leases  : List Lease
  image   : Nat
  /-- logical core to physical position, ascending, and role of each placed logical core -/
  map     : List Nat
  roles   : Tbl Nat
  stepMode : Bool
  sample  : Nat
  hold    : Bool
  gang    : Nat
  gbase   : Nat
  gtotal  : Nat
  vtbase  : BitVec 32
  /-- the LAUNCH command -/
  cmd     : CmdRef
  resumeBy : Option CmdRef
  lost    : Nat
  ran     : Nat
  /-- idle sweep totals of the last sweep (R113) -/
  sweep   : Option (Nat × Nat)
  cancelBy : Option CmdRef
  preemptBy : Option CmdRef
  /-- the save image (R119): the launch's cores as they stood, by position -/
  image0  : Tbl Core
  /-- level-barrier arrivals of cores: (level, position) in the current phase -/
  barArr  : List (Nat × Nat)
  nextCheck : Nat
  /-- logical cores that had a role when it was launched: the participants of its barriers (R102) -/
  parts : List Nat
deriving DecidableEq, Repr

/-- A gang as this module sees it (R135 to R139). -/
structure Gang where
  id       : Nat
  lid      : Nat
  entries  : List GangEntry
  ready    : List (Nat × Nat)
  acked    : List Nat
  placed   : Bool
  departed : List Nat
  started  : Bool
  barArr   : Nat
  peerLost : Bool
  /-- members of the gang, TIMEB at the first READY (the module's own, where it is not the coordinator), and whether the READY
  messages disagree -/
  total    : Nat
  since    : Word
  bad      : Bool
  /-- modules whose part of an evicted gang has its save image final, and modules where it could be restored (R137) -/
  finals   : List Nat
  free     : List Nat
deriving DecidableEq, Repr

/-- A record of the containment log (R147 step 1): the trap 0x0A that the consuming core did not take. -/
structure ContainNote where
  pos  : Nat
  slot : Option Nat
  epc  : Word
  tval : Word
  time : Word
deriving DecidableEq, Repr

/-- An open check (R141 to R143). -/
structure Check where
  id      : Nat
  lid     : Nat
  record  : List Byte
  orig    : Nat
  chk     : Nat
  third   : Option Nat
  digest  : BitVec 128
  result  : Option (Option (BitVec 128))
  result3 : Option (Option (BitVec 128))
  held    : List (Nat × Nat)
  heldNode : Nat
  /-- CHKCTL.INC and QTH, CHKBASE and CHKSLOTS when it was opened (R145) -/
  inc     : Nat
  qth     : Nat
  base    : Word
  slots   : Nat
deriving DecidableEq, Repr

/-- A WAIT that has begun (R89): its comparison (0 ≥, 1 =, 2 ≠), address, value, timeout in µs, and TIMEB at its beginning. -/
structure WaitCmd where
  cmd     : CmdRef
  cmp     : Nat
  addr    : Word
  value   : Word
  timeout : Nat
  since   : Word
deriving DecidableEq, Repr

/-- A command queue (R79, R81 to R83). -/
structure Queue where
  base  : Word
  cbase : Word
  sub   : Word
  stat  : Word
  size  : Word
  en    : Bool
  prio  : Nat
  state : Nat
  err   : Nat
  laps  : Nat
  rp    : Nat
  cwp   : Nat
  wpLast : Nat
  crpLast : Nat
  /-- entries read and not begun, with their index -/
  pending : List (Nat × List Byte)
  begun   : List CmdRef
  /-- completions held because the ring is full -/
  heldCpl : List (List Byte)
  deleting : Option CmdRef
  /-- EN was cleared while commands were begun (R79) -/
  stopping : Bool
  /-- the WAIT that holds the queue back -/
  waiting : Option WaitCmd
deriving DecidableEq, Repr

/-- A containment rectangle and its counters (R146, R149). -/
structure Rect where
  defined : Bool
  x0 : Nat
  y0 : Nat
  w  : Nat
  h  : Nat
  contain : Bool
  cap : Nat
  ce : Nat
  drop : Nat
  evdrop : Nat
  pcons : Nat
  count : Nat
  lastPos : Nat
  ctime : Word
  /-- containment in progress -/
  active : Bool
deriving DecidableEq, Repr

/-- A frame of a media stream (R96, R97). -/
structure Frame where
  idx    : Nat
  buf    : Nat
  first  : Word
  rtp    : BitVec 32
  pkts   : Nat
  late   : Nat
  stalled : Bool
  oversize : Bool
  paths  : BitVec 2
  /-- bytes received of each line and slots used -/
  lines  : Tbl Nat
  times  : Tbl Nat
deriving DecidableEq, Repr

/-- A media stream (R95 to R98): descriptor bytes and running state. -/
structure Stream where
  desc    : List Byte
  frames  : List Frame
  nextBuf : Nat
  /-- extended RTP sequence numbers kept of ST 2022-7 -/
  seen    : List Nat
  /-- closed and dropped frames: index, and the buffer while it is unreused -/
  closed  : List (Nat × Option Nat)
  /-- TIMEB at the last restart of the stall timer; none once it has run out -/
  stall   : Option Word
  stats   : List Nat
deriving DecidableEq, Repr

/-- A basin's power state (R13, R14, R16). -/
structure Basin where
  point    : Nat
  /-- highest point each rule still permits, 0 where it holds nothing down: basin power, module input, 100 °C, 110 °C -/
  power    : Nat
  module   : Nat
  warm     : Nat
  hot      : Nat
  /-- points held before the step-down of the module input and before 110 °C, to which the basin steps back (R13, R16) -/
  moduleFrom : Nat
  hotFrom  : Nat
  /-- boost to point B is granted (R14) -/
  boost    : Bool
  /-- samples in a row below 90 % of the rail limit, and below 95 °C -/
  calmP    : Nat
  calmT    : Nat
  expert   : Option Nat
  changing : Bool
  lastMw   : Nat
  lastTemp : Nat
  /-- core clocks since the module's last cold or warm reset, in thousandths -/
  clocks   : Nat
deriving DecidableEq, Repr

/-- Kinds of the last reset (R22). -/
inductive ResetKind where | cold | warm | rail | thermal
deriving DecidableEq, Repr

/-- A shoot-down in progress (R62): launch, lease, positions still to acknowledge. -/
structure Shoot where
  lid  : Nat
  idx  : Nat
  tree : AckTree
  cmd  : CmdRef
deriving DecidableEq, Repr

/-- A stop in progress (R221): its trigger number and the acknowledgements still to come, the triggering core's own among them. -/
structure StopOp where
  trig   : Nat
  tree   : AckTree
  cmd    : Option CmdRef
deriving DecidableEq, Repr

/-- A RECAST in progress (R106): launch, new role, positions still to move. -/
structure RecastOp where
  lid  : Nat
  role : Nat
  left : List Nat
  cmd  : CmdRef
deriving DecidableEq, Repr

/-- A DEBUG STEP in progress (R223): position and lowest slot of the group. -/
structure StepOp where
  pos   : Nat
  gslot : Nat
  cmd   : CmdRef
  /-- core clocks at its start, and threads to step -/
  since : Nat
  count : Nat
deriving DecidableEq, Repr

/-- A DEBUG DUMP waiting for its group's accesses to drain (R215, R216): position, group, buffer. -/
structure DumpOp where
  pos : Nat
  gid : Nat
  buf : Word
  cmd : CmdRef
deriving DecidableEq, Repr

/-- The watershed round between its latch and its publication (R131): L, MS, S, V, the round, TIMEB at the latch and at the last reduction. -/
structure WsRound where
  l  : BitVec 32
  ms : BitVec 32
  s  : BitVec 32
  v  : BitVec 32
  k  : Nat
  at0 : Word
  last : Word
deriving DecidableEq, Repr

/-- PTP receiver of a port (R94): locked, consecutive offsets within 1 µs, TIMEB of the last sync message, and its offset. -/
structure PtpPort where
  locked : Bool
  good   : Nat
  last   : Word
  diff   : Int
deriving DecidableEq, Repr

/-- A MEDIA PTP command waiting for lock (R95): port, domain, deadline in TIMEB. -/
structure PtpWait where
  port   : Nat
  domain : Nat
  until0 : Word
  cmd    : CmdRef
deriving DecidableEq, Repr

/-- Counter-grid settings written since the last latch, which take effect at the next one (R49): base, slots, EN, and a clear of OVR. -/
structure GridSet where
  base  : Option Word := none
  slots : Option Nat := none
  en    : Option Bool := none
  clear : Bool := false
deriving DecidableEq, Repr

set_option maxRecDepth 4096 in
/-- Firmware and package state (01, 04, 06, 09, 02, 03). -/
structure Firm where
  phase    : Nat
  ready    : Bool
  fail     : Bool
  last     : ResetKind
  mfaultn  : Bool
  inputGood : Bool
  railsOn  : Bool
  /-- shut down until MRSTN or an input cycle (R16) -/
  shutdown : Bool
  linkUp   : Bool
  /-- the queue of each priority whose head began last (R82) -/
  lastServed : Tbl Nat
  faultClass : Nat
  faultRail : Nat
  faultTime : Word
  /-- samples in a row above 2,000 W since the last step-down, and while every basin is at L3 -/
  overInput : Nat
  overFault : Nat
  /-- samples in a row with the input below 1,800 W, and with every sensor below 95 °C -/
  calmM    : Nat
  calmH    : Nat
  /-- samples in a row in which a rail was outside its voltage window, by R92's rail number (R13) -/
  railOut  : Tbl Nat
  /-- the log of 110 °C: TIMEB and the highest reading (R16); the highest reading of the last sample -/
  thermalLog : List (Word × Nat)
  lastHigh : Nat
  /-- the point that basins take where nothing holds them down and boost is not granted: L2 from step 1, N from step 8 of R20 -/
  basePoint : Nat
  basins   : Vector Basin 16
  fused    : List Nat
  quarantined : List Nat
  /-- logical-number map in force: logical number to position -/
  logical  : List Nat
  susp     : Tbl Nat
  cleanBy  : Tbl Nat
  lifeCycle : Nat
  features : BitVec 6
  /-- number of resets, to which the boot keys and challenge belong -/
  resets   : Nat
  patchv   : Nat
  patchFloor : Nat
  patch    : List Byte
  bootImage : Option (List Byte)
  /-- how the boot image came to each position (R20 step 7, R290): the communication step, and the direction of the neighbour it came
  from; the root has neither -/
  bootFrom : Tbl (Nat × Option Dir)
  idIndex  : Nat
  bootIndex : Nat
  queues   : Tbl Queue
  /-- fabric (R49) -/
  cgBase   : Word
  cgSlots  : Nat
  cgHead   : Nat
  cgEn     : Bool
  cgOvr    : Bool
  cgSkipped : Bool
  cgBusy   : Bool
  fepoch   : BitVec 32
  cgPend   : GridSet
  rerouting : Bool
  /-- TIMEB at the detection that began the reroute in progress, at the last detection, and at the last handshake in which a router
  carried a request, event or bulk flit (R40) -/
  rerouteAt : Word
  deadAt    : Word
  carriedAt : Word
  /-- replay buffers by link·4+plane, oldest first: flits sent and not accepted (R39); refused flit and refusals in a row -/
  buffers   : Tbl (List Packet)
  replays   : Tbl (Packet × Nat)
  /-- dead links as position and direction, and those of them that the routing tables in force were computed without (R29, R40) -/
  deadLinks : List (Nat × Nat)
  tableDead : List (Nat × Nat)
  /-- by position·4+plane: handshakes in a row without an injection though a flit was ready, and the agent served last (R30, R32) -/
  starveCnt : Tbl Nat
  served    : Tbl Nat
  /-- SENT, DEFL, STALL by link·4+plane, REPLAY by link, and their latches; STARVE asserted by position·4+plane; links on which it
  has been asserted in the interval -/
  sent     : Tbl (BitVec 32)
  defl     : Tbl (BitVec 32)
  stall    : Tbl (BitVec 32)
  replay   : Tbl (BitVec 32)
  starve   : List Nat
  starved  : List Nat
  latchedAt : Word
  latchN   : Nat
  latches  : Tbl (List (BitVec 32))
  /-- memory side (R68) -/
  ptBase   : Word
  /-- the XTS key pair and the tag key in force (R64, R65) -/
  xtsKey   : BitVec 512
  tagKey   : BitVec 256
  /-- the next 64 KiB frame that firmware gives out, frames it has taken back, pages it has mapped in LPDDR, oldest first, and pages whose
  content it has moved to the host backing area, by the host frame that holds it (R61) -/
  nextFrame : Nat
  freeFrames : List Nat
  resident : List Nat
  backing  : Tbl Nat
  /-- page ranges whose drop is in progress: first page and number of pages (R68) -/
  xinv     : List (Nat × Nat)
  scrubBase : Word
  scrubSlots : Nat
  scrubHead : Nat
  scrubHours : Nat
  scrubEn  : Bool
  scrubEvents : Vector Nat 4
  scrubPend : Option (Nat × Bool)
  peerWin  : Tbl (BitVec 128)
  peers    : Tbl (Bool × PeerReason)
  /-- modules of the peer torus in x and y, and this module's coordinates, learned at bring-up (R42) -/
  torusW   : Nat
  torusH   : Nat
  moduleX  : Nat
  moduleY  : Nat
  /-- peer ports that died; by port·4+plane: flits sent and not credited, refusals in a row of the oldest; by die·4+plane: flits that
  wait for a credit (R43) -/
  portDown : List Nat
  portOut  : Tbl (List (PeerHead × Body))
  portTries : Tbl Nat
  portWait : Tbl (List (PeerHead × Body))
  /-- delegated atomics of peers whose records are to come: ingress agent, tag, virtual time, and who asked (R74) -/
  peerRamos : List (Nat × BitVec 8 × BitVec 32 × PeerHead)
  lostNotices : List (Nat × Packet)
  /-- containment (R146) and checking (R145) -/
  rects    : Vector Rect 16
  /-- cores whose score has reached the threshold, until they leave the logical map (R143) -/
  doomed   : List Nat
  /-- the containment log, oldest first (R147) -/
  containLog : List ContainNote
  chkEn    : Bool
  chkInc   : Nat
  chkQth   : Nat
  chkClean : Nat
  chkBase  : Word
  chkSlots : Nat
  chkHead  : Nat
  /-- fault and dump rings (R214) -/
  fltBase  : Word
  fltSlots : Nat
  fltHead  : Nat
  dmpBase  : Word
  dmpSlots : Nat
  dmpHead  : Nat
  /-- watershed (R131, R134) -/
  wsRound  : Nat
  wsForced : Bool
  /-- the current colour of every leaf: all of them latch in one step (R130, R131) -/
  colour   : Bool
  wsCur    : Option WsRound
  /-- TIMEB at the last publication -/
  wsPub    : Word
  gvt      : BitVec 32
  /-- media (R94) -/
  ptp      : Tbl PtpPort
  ptpSel   : Option (Nat × Nat)
  ptpWait  : List PtpWait
  ptpStepped : Bool
  /-- PTP time less TIMEB, still to be slewed away, and ns since the last slew of 1 ns was due (R18) -/
  ptpOff   : Int
  slewAcc  : Nat
  /-- IPv6 frames dropped, by media port (R93) -/
  ipv6     : Tbl Nat
  streams  : Tbl Stream
  shoots   : List Shoot
  stops    : List StopOp
  nextTrig : Nat
  recasts  : List RecastOp
  steps    : List StepOp
  dumps    : List DumpOp
  resetBy  : Option CmdRef
  nextOrder : Nat
  /-- TIMEB at the last sweep of R113 -/
  sweepAt  : Word
deriving DecidableEq, Repr

/-- A delegated atomic accepted by an agent: its carried virtual time, the core it came from, its tag (R74, R132). -/
structure Bound where
  vt  : BitVec 32
  dst : Nat
  tag : BitVec 8
deriving DecidableEq, Repr

/-- Counts of a watershed leaf that is not a core: an I/O agent (R129, R130). -/
structure Leaf where
  sent    : BitVec 32 × BitVec 32
  recv    : BitVec 32 × BitVec 32
  minSent : BitVec 32 × BitVec 32
  latched : BitVec 32
  /-- the delegated atomics accepted whose records are not yet delivered (R132) -/
  bounds  : List Bound
deriving DecidableEq, Repr

/-- An entry of a dale reduction unit (R194); `flushed`: sent to its home and waiting for the acknowledgement. -/
structure DruEntry where
  id : Nat
  ia : Nat
  w  : AtomWidth
  op : RedOp
  v  : Word
  lid : Nat
  flushed : Bool
  /-- TIMEB when it was taken -/
  born : Word
  /-- the threads whose reductions it combines: position, slot, group, virtual address, issued while TH was 1 -/
  askers : List (Nat × Nat × Nat × Word × Bool)
deriving DecidableEq, Repr

/-- A translation that a slice has cached (R58): slice, 64 KiB page of memory space, whether host memory backs it, the page's address. -/
structure Tlb where
  slice : Nat
  page  : Nat
  host  : Bool
  base  : Nat
deriving DecidableEq, Repr

/-- The host's copy of a line of device memory (R56, R77): its 128 bytes, and the poison bit of each 64. -/
structure HostLine where
  data : List Byte
  lo   : Bool
  hi   : Bool
deriving DecidableEq, Repr

/-- An entry of a dale operand network's fetch table (R170): source position, address and length, when the fetch began in the dale's
clocks, and what the source answered. -/
structure Fetch where
  pos   : Nat
  ia    : Nat
  n     : Nat
  clock : Nat
  bs    : List Byte
  ans   : Answer
deriving DecidableEq, Repr

/-- What moves next, chosen by the world outside or by the order the spec leaves open (assumption 1): plain data that a step
takes from the head. -/
inductive Agenda where
  /-- the device takes the step of a row without an encoding -/
  | happen (i : Instr)
  /-- the thread in a slot of a core issues its next instruction -/
  | run (pos slot : Nat)
  /-- time passes, in ns -/
  | elapse (ns : Nat)
  /-- an L1 line leaves by a conflict of its set (R164) -/
  | evict (pos line : Nat)
  /-- a flit enters from a peer port; the other side of a port returns a credit of a plane, or refuses a beat of the oldest flit; a
  port dies (R43) -/
  | peerIn (port : Nat) (h : PeerHead) (flit : Body)
  | portCredit (port plane : Nat)
  | portRefuse (port plane beat : Nat)
  | portDies (port : Nat)
  /-- one handshake of a plane at every router (R30) -/
  | handshake (plane : Nat)
  /-- a message of a reserved TYPE or with LEN over 17 reaches a router of the control network (R44) -/
  | ctlIn (pos : Nat) (header : BitVec 32)
  /-- the host stores to host memory, or to device memory or a device register at an intermediate address -/
  | hostStore (addr : Nat) (data : List Byte)
  | devStore (ia : Nat) (data : List Byte)
  /-- the host takes a line of device memory into its caches (R77), or gives it back with its data -/
  | hostTake (line : Nat)
  | hostGive (line : Nat) (copy : HostLine)
  /-- an error appears in memory: poison in a scratchpad word (R159), or what the controller finds when a demand read
  fetches an LPDDR block (R66, R67) -/
  | poisonWord (pos word : Nat)
  | demandRead (block : Nat)
  /-- bits of a stored block and its sideband change, or those of a carve-out block, named by the 4 KiB range it serves (R65) -/
  | upset (block : Nat) (u : Upset)
  | carveUpset (range : Nat) (u : Upset)
  /-- data of a 64-byte block of host memory carries poison to the module (R77) -/
  | hostPoison (block : Nat)
  /-- a slice drops a cached translation: for room, or under XINV (R58) -/
  | tlbDrop (slice page : Nat)
  /-- firmware moves the content of an unpinned page to its host backing area (R61) -/
  | moveOut (page : Nat)
  /-- a corrected error (true: scratchpad, false: cache parity) of a core is counted (R159, R164, R165) -/
  | corrected (pos : Nat) (sp : Bool)
  /-- a corrected error of a slice is counted (R146) -/
  | sliceCorrected
  /-- another module reports that its part of a gang has its save image final, or could be restored (R137) -/
  | gangFinal (gang dev : Nat)
  | gangFree (gang dev : Nat)
  /-- firmware maps a page of memory space to a 64 KiB frame of host memory (R57, R75) -/
  | mapHost (page frame : Nat)
  /-- a write to a configuration-space register other than those with a row (R79) -/
  | config (off : Nat) (value : Word)
  /-- a thread in `wfe` completes with none of its events (R396) -/
  | wfeEnd (pos slot : Nat)
  /-- the clocks that the next stops and halts take to hold their threads (R118, R221) -/
  | lag (clocks : Nat)
  /-- memory takes a core's trace words, or takes none for now (R225) -/
  | traceStall (pos : Nat) (b : Bool)
deriving DecidableEq, Repr

/-- The state of the module. -/
structure State where
  /-- TIMEB (R18) -/
  time    : Word
  cores   : Tbl Core
  nodes   : Tbl Node
  leaves  : Tbl Leaf
  reqs    : List Req
  net     : List Packet
  ctl     : List CtlMsg
  dru     : List (Nat × DruEntry)
  /-- the dales' fetch tables, newest entry first (R170) -/
  fetches : Tbl (List Fetch)
  engines : List EngineOp
  nextId  : Nat
  /-- LPDDR by physical address, as the controllers return it; host memory by host physical address -/
  mem     : Memory
  host    : Memory
  /-- poisoned 64-byte blocks of LPDDR and of host memory, by physical number (R66, R77) -/
  bad     : List Nat
  hostBad : List Nat
  /-- errors in stored blocks of LPDDR by physical number, and in carve-out blocks by the number of the 4 KiB range they serve (R65) -/
  upsets  : Tbl Upset
  carveUpsets : Tbl Upset
  /-- the slices' translation caches, oldest entry first (R58) -/
  tlb     : List Tlb
  /-- lines of device memory that the host holds, with its copies (R56, R77) -/
  hostLines : Tbl HostLine
  launches : List Launch
  gangs   : List Gang
  checks  : List Check
  fw      : Firm
  /-- the model's own fields (assumption 1): what moves next, the counter of free values, the thread being issued -/
  agenda  : List Agenda
  freeCtr : Nat
  /-- clocks for which threads run on after a stop or a halt request has reached their core, 200 at most (R118, R221) -/
  stopLag : Nat
  pos     : Nat
  slot    : Nat
  lastPos : Nat
deriving DecidableEq, Repr

/-! ## The state after reset -/

/-- A vector context as R109 sets it: registers zero, m0 all-true, nothing queued, no owner. -/
def VCtx.reset : VCtx :=
  { v := Vector.replicate 32 0#2048, m := (Vector.replicate 8 0#256).set 0 (BitVec.allOnes 256),
    qm := Vector.replicate 4 0#64, qc := Vector.replicate 4 0#64, queue := [], next := 0, part := false, issued := 0, fault := none, sends := [], owner := none, headLeft := false }

/-- A core after reset: no thread, scratchpad zero and empty (R159), every register at its reset value; fields with reset
"—" or set by firmware are 0 (assumption 3). -/
def Core.reset : Core :=
  { threads := [], groups := [], nextGid := 0, departed := [], sp := [], full := [], poisoned := [], waits := [],
    exEn := false, exSel := false, exSwaps := 0#32, l1 := [], ic := [], locked := [], shot := [], shooting := [], leaseFlush := false,
    lid := 0, lcore := 0, role := 0, hasRole := false, v0 := VCtx.reset, v1 := VCtx.reset,
    acc := Vector.replicate 4 [], tiles := [], matrixQ := [], tileBusy := none, tileTurn := false,
    mxKey := 0#32, mxEn := false, mxMig := 0#32, tab4l := 0#64, tab4h := 0#64, vtime := 0#32,
    vtGvtRec := false, vtStep := 1#32, vtStrag := 0#32, vtSat := false, gvt := 0#32, gvtRound := 0#32,
    gvtBase := 0#32, heldGvt := none, sent := (0#32, 0#32), recv := (0#32, 0#32),
    minSent := (0xFFFFFFFF#32, 0xFFFFFFFF#32), latched := 0xFFFFFFFF#32, holdsWork := false,
    inbox := [], arrivals := 0, inbCap := 0x40, inbRes15 := 4, inbHeld := none, inbOvf := false, inbNacks := 0#32,
    refusals := [], reserved := [], evSlots := [], sd := SdTables.reset,
    sdSent := 0#32, sdBad := 0, spce := 0#32, par := 0#32,
    auto := true, steal := true, daleOnly := false, boMax := 6, spill := [], deque := [], dqSpill := 0,
    xferSent := 0#32, xferRecv := 0#32, stealOut := false, lastDale := 0, lastBasin := 0, emptyRnd := 0,
    backoff := false, thieving := false, awayAwake := false, lfsr := 1#16, victims := [], draws := 0, stealAt := 0#64, recasting := none, halted := false, haltDue := none, stopOwed := [], haltHeld := false, member := none,
    groupsRun := 0, nextGen := 1, lastIssue := [15, 15, 15, 15], yielded := none, sampleAcc := 0,
    nrx := Vector.replicate 4 none, nsent := 0#4, barArr := false, homeCache := [],
    dbgctl := 0#64, dbgstat := 0#64, bp := Vector.replicate 4 0#64, wp := Vector.replicate 2 0#64,
    dbgmatch := 0#64, wdLimit := 0#32, wdTime := 0#64,
    trcctl := 0#64, trcbase := 0#64, trcsize := 1#64, trchead := 0#64, trcLast := 0#64, trcPc := 0#64, trcBuf := [], trcStall := false, trcGap := 0,
    cycles := 0, fenced := false, paused := false }

/-- A leaf's counts at the start. -/
def Leaf.reset : Leaf :=
  { sent := (0#32, 0#32), recv := (0#32, 0#32), minSent := (0xFFFFFFFF#32, 0xFFFFFFFF#32),
    latched := 0xFFFFFFFF#32, bounds := [] }

/-- Fabric state of a node after reset (R36, R37): counters 0, windows with H = 0xFFFF and a full map, nothing retained. -/
def Node.reset : Node := { seqS := [], seqN := [], windows := [], replies := [], forward := [] }

/-- A basin after reset: point L2 (R20 step 1), no rule holding it down. -/
def Basin.reset : Basin :=
  { point := 3, power := 0, module := 0, warm := 0, hot := 0, moduleFrom := 0, hotFrom := 0, boost := false, calmP := 0, calmT := 0, expert := none, changing := false, lastMw := 0, lastTemp := 0, clocks := 0 }

/-- Rectangle 0 after any reset: the whole package, POLICY 0, CAP 0 (R146). -/
def Rect.whole : Rect :=
  { defined := true, x0 := 0, y0 := 0, w := 32, h := 32, contain := false, cap := 0, ce := 0, drop := 0, evdrop := 0,
    pcons := 0, count := 0, lastPos := 0, ctime := 0#64, active := false }

/-- An undefined rectangle. -/
def Rect.none : Rect := { Rect.whole with defined := false, w := 0, h := 0 }

/-- Firmware state at the start of a cold reset: step 0 of R20 in progress, the input good, every register of chapters 01 to
06 and 09 at its reset value; FLTBASE, DMPBASE, CGBASE, CHKBASE, SCRUBBASE and PTBASE are 0 until firmware places them
(assumption 3); no position is fused and the life cycle is PROD (assumption 4). -/
def Firm.reset : Firm :=
  { phase := 0, ready := false, fail := false, last := .cold, mfaultn := false, inputGood := true, railsOn := false,
    shutdown := false, linkUp := false, lastServed := [], faultClass := 0, faultRail := 0xFF, faultTime := 0#64, overInput := 0, overFault := 0, calmM := 0, calmH := 0,
    railOut := [], thermalLog := [], lastHigh := 0, basePoint := 3,
    basins := Vector.replicate 16 Basin.reset, fused := [], quarantined := [], logical := [], susp := [], cleanBy := [],
    lifeCycle := 2, features := 0#6, resets := 0, patchv := 0, patchFloor := 0, patch := [], bootImage := none, bootFrom := [],
    idIndex := 0, bootIndex := 0, queues := [],
    cgBase := 0#64, cgSlots := 0x10, cgHead := 0, cgEn := true, cgOvr := false, cgSkipped := false, cgBusy := false,
    fepoch := 0#32, cgPend := {}, rerouting := false, rerouteAt := 0#64, deadAt := 0#64, carriedAt := 0#64, buffers := [], replays := [],
    deadLinks := [], tableDead := [], starveCnt := [], served := [],
    sent := [], defl := [], stall := [], replay := [], starve := [], starved := [], latchedAt := 0#64, latchN := 0,
    latches := [],
    ptBase := 0#64, xtsKey := 0#512, tagKey := 0#256, nextFrame := 1, freeFrames := [], resident := [], backing := [], xinv := [], scrubBase := 0#64, scrubSlots := 0x400, scrubHead := 0, scrubHours := 0x18,
    scrubEn := true, scrubEvents := Vector.replicate 4 0, scrubPend := none,
    peerWin := [], peers := [], torusW := 1, torusH := 1, moduleX := 0, moduleY := 0, portDown := [], portOut := [], portTries := [], portWait := [], peerRamos := [],
    lostNotices := [],
    rects := (Vector.replicate 16 Rect.none).set 0 Rect.whole,
    doomed := [], containLog := [], chkEn := true, chkInc := 0x10, chkQth := 0x40, chkClean := 0, chkBase := 0#64, chkSlots := 0x100, chkHead := 0,
    fltBase := 0#64, fltSlots := 0x100, fltHead := 0, dmpBase := 0#64, dmpSlots := 4, dmpHead := 0,
    wsRound := 0, wsForced := false, colour := false, wsCur := none, wsPub := 0#64, gvt := 0#32,
    ptp := [], ptpSel := none, ptpWait := [], ptpStepped := false, ptpOff := 0, slewAcc := 0, ipv6 := [], streams := [],
    shoots := [], stops := [], nextTrig := 1, recasts := [], steps := [], dumps := [], resetBy := none, nextOrder := 0, sweepAt := 0#64 }

/-- The module right after reset: a cold reset at step 0 of R20, memory zero (step 5), nothing in flight, no launch. -/
def State.reset : State :=
  { time := 0#64, cores := [], nodes := [], leaves := [], reqs := [], net := [], ctl := [], dru := [], fetches := [], engines := [], nextId := 1,
    mem := [], host := [], bad := [], hostBad := [], upsets := [], carveUpsets := [], tlb := [], hostLines := [], launches := [], gangs := [],
    checks := [], fw := Firm.reset, agenda := [], freeCtr := 0, stopLag := 0, pos := 0, slot := 0, lastPos := 0 }

end Sys2Proof.Machine
end

