-- ==== Sys2Proof/Machine/Ops.lean ====
section
/-! DEFINITION. The named operations over the state that every meaning uses: cores, threads, registers, groups, retirement,
trap entry and return, termination, halts, the trace encoder's words, records and memory at its home. -/
namespace Sys2Proof.Machine

/-- The outcome of a meaning. -/
abbrev Out := Host.Outcome State Fault Refusal

/-! ## Positions and nodes (R8, R9, R24) -/

/-- Position of a core from its coordinates, modulo 32. -/
def posOf (x y : Nat) : Nat := (y % 32) * 32 + x % 32
/-- Coordinates of a position. -/
def posX (p : Nat) : Nat := p % 32
/-- Row of a position. -/
def posY (p : Nat) : Nat := p / 32
/-- The neighbour in a direction (R23). -/
def neighbour (p : Nat) : Dir → Nat
  | .e => posOf (posX p + 1) (posY p)
  | .s => posOf (posX p) (posY p + 1)
  | .w => posOf (posX p + 31) (posY p)
  | .n => posOf (posX p) (posY p + 31)
/-- The opposite direction. -/
def Dir.opp : Dir → Dir
  | .e => .w
  | .s => .n
  | .w => .e
  | .n => .s
/-- Number of a direction: 0 east, 1 south, 2 west, 3 north. -/
def Dir.num : Dir → Nat
  | .e => 0
  | .s => 1
  | .w => 2
  | .n => 3
/-- Basin of a position: basin row·4 + basin column. -/
def basinOf (p : Nat) : Nat := (posY p / 8) * 4 + posX p / 8
/-- Dale within the basin, row-major (R179 COREID). -/
def daleIn (p : Nat) : Nat := ((posY p % 8) / 4) * 2 + (posX p % 8) / 4
/-- Dale of the package: basin·4 + dale within the basin. -/
def daleOf (p : Nat) : Nat := basinOf p * 4 + daleIn p
/-- Upper-left position of a dale (R45). -/
def daleRoot (d : Nat) : Nat :=
  posOf ((d / 4 % 4) * 8 + (d % 2) * 4) ((d / 16) * 8 + (d % 4 / 2) * 4)
/-- The parent of a position in a tree of the control network rooted at an upper-left position (R45): its west neighbour, and the north
one in the root's column; the spec gives the trees' roots and not their links (assumption 87). -/
def treeParent (root p : Nat) : Nat := if posX p = posX root then p - 32 else p - 1
/-- The routers on the way from a position to the root of its tree, itself first. -/
def treePath (root : Nat) : Nat → Nat → List Nat
  | _, 0 => []
  | p, n + 1 => p :: (if p = root then [] else treePath root (treeParent root p) n)
/-- A combining that waits for the cores at some positions. -/
def AckTree.over (root : Nat) (ps : List Nat) : AckTree :=
  { root := root, own := ps, left := ps.foldl (fun l p => (treePath root p 64).foldl setIns l) [], sums := [] }
/-- A router may acknowledge to its parent: its own core and all its children have. -/
def AckTree.ready (t : AckTree) (p : Nat) : Bool :=
  !t.own.contains p && !t.left.any fun q => q ≠ t.root && treeParent t.root q = p
/-- Sums that a router has combined. -/
def AckTree.sum (t : AckTree) (p : Nat) : Nat × Nat := tblGetD t.sums p (0, 0)
/-- Add to the sums at a router. -/
def AckTree.add (t : AckTree) (p : Nat) (v : Nat × Nat) : AckTree :=
  { t with sums := tblSet t.sums p ((t.sum p).1 + v.1, (t.sum p).2 + v.2) }
/-- The core at a position has answered. -/
def AckTree.answered (t : AckTree) (p : Nat) (v : Nat × Nat := (0, 0)) : AckTree := { t.add p v with own := t.own.erase p }
/-- A router's acknowledgement has reached its parent. -/
def AckTree.acked (t : AckTree) (p : Nat) (v : Nat × Nat := (0, 0)) : AckTree :=
  let t := { t with left := t.left.erase p }
  if p = t.root then t else t.add (treeParent t.root p) v
/-- The position whose router may acknowledge next when one has acknowledged. -/
def AckTree.next (t : AckTree) (p : Nat) : Option Nat :=
  if p ≠ t.root && t.ready (treeParent t.root p) then some (treeParent t.root p) else none
/-- The header flit of a message (R44); firmware reports a poison consumption by CTRL-WRITE. -/
def CtlMsg.head : CtlMsg → CtlHead
  | .stealReq thief victim => { dst := victim, type := 0, len := 1, scope := 0, src := thief, col := false }
  | .stealReply victim thief r _ col => { dst := thief, type := 1, len := if r.isSome then 17 else 0, scope := 0, src := victim, col := r.isSome && col }
  | .shoot p _ _ => { dst := p, type := 2, len := 4, scope := 2, src := 0, col := false }
  | .shootAck p _ _ => { dst := 0, type := 3, len := 0, scope := 0, src := p, col := false }
  | .stop p _ src _ _ _ => { dst := p, type := 4, len := 2, scope := if daleOf p = daleOf src then 1 else 2, src := src, col := false }
  | .stopAck p _ _ _ => { dst := 0, type := 5, len := 1, scope := 0, src := p, col := false }
  | .write p _ _ => { dst := p, type := 6, len := 3, scope := 0, src := 0, col := false }
  | .read p _ => { dst := p, type := 7, len := 1, scope := 0, src := 0, col := false }
  | .data p _ _ => { dst := 0, type := 8, len := 2, scope := 0, src := p, col := false }
  | .injPause p => { dst := p, type := 9, len := 0, scope := 3, src := 0, col := false }
  | .injResume p => { dst := p, type := 10, len := 0, scope := 3, src := 0, col := false }
  | .linkDead p _ _ => { dst := 0, type := 11, len := 1, scope := 0, src := p, col := false }
  | .gridLatch p _ => { dst := p, type := 12, len := 2, scope := 3, src := 0, col := false }
  | .contain p => { dst := 0, type := 6, len := 3, scope := 0, src := p, col := false }
/-- Quadrant of a position: basins in a 2 × 2 arrangement of 2 × 2 basins. -/
def quadOf (p : Nat) : Nat := (posY p / 16) * 2 + posX p / 16
/-- Home slice of a memory-space offset (R56). -/
def sliceOf (off : Nat) : Nat := (off / 128 % 16) ^^^ (off / 32768 % 16)
/-- Node of a slice bank that is the home of a memory-space offset (R56). -/
def homeNode (off : Nat) : Nat :=
  let bank := (off / 2048 % 16) ^^^ (off / 524288 % 16)
  0x400 + sliceOf off * 16 + bank
/-- Node of an agent of an I/O die (R24, R78). -/
def agentNode (die agent : Nat) : Nat := 0x800 + die * 256 + agent
/-- A media port's node. -/
def isMedia (n : Nat) : Bool := 0x800 ≤ n && n % 256 = 4
/-- The management core's node. -/
def mgmtNode : Nat := agentNode 0 0
/-- The Bilaux Link agent's node. -/
def linkNode : Nat := agentNode 0 1

/-! ## Cores, threads, groups, launches -/

/-- The core at a position; a position that is not listed is as reset leaves it. -/
def State.core (s : State) (p : Nat) : Core := tblGetD s.cores p Core.reset
/-- Put a core. -/
def State.setCore (s : State) (p : Nat) (c : Core) : State := { s with cores := tblSet s.cores p c }
/-- Change a core. -/
def State.modCore (s : State) (p : Nat) (f : Core → Core) : State := s.setCore p (f (s.core p))
/-- The thread in a slot. -/
def State.thread? (s : State) (p slot : Nat) : Option Thread := tblGet? (s.core p).threads slot
/-- Put a thread into a slot. -/
def Core.setThread (c : Core) (slot : Nat) (t : Thread) : Core := { c with threads := tblSet c.threads slot t }
/-- Put a thread into a slot of a core. -/
def State.setThread (s : State) (p slot : Nat) (t : Thread) : State := s.modCore p fun c => c.setThread slot t
/-- Change the thread of a slot, if there is one. -/
def State.modThread (s : State) (p slot : Nat) (f : Thread → Thread) : State :=
  match s.thread? p slot with
  | some t => s.setThread p slot (f t)
  | none => s
/-- The thread that issues. -/
def State.cur? (s : State) : Option Thread := s.thread? s.pos s.slot
/-- Put the thread that issues. -/
def State.setCur (s : State) (t : Thread) : State := s.setThread s.pos s.slot t
/-- Home position of a thread that runs at p (R155). -/
def Thread.homePos (t : Thread) (p : Nat) : Nat := (t.home.map (·.1)).getD p
/-- Home slot of a thread that runs in a slot. -/
def Thread.homeSlot (t : Thread) (slot : Nat) : Nat := (t.home.map (·.2)).getD slot
/-- A group of a core by its number. -/
def Core.group? (c : Core) (gid : Nat) : Option Group := c.groups.find? fun g => g.gid == gid
/-- The group of a thread that runs at p. -/
def State.groupOf (s : State) (p : Nat) (t : Thread) : Option Group := (s.core (t.homePos p)).group? t.group
/-- Change a group of a core. -/
def Core.modGroup (c : Core) (gid : Nat) (f : Group → Group) : Core :=
  { c with groups := c.groups.map fun g => if g.gid == gid then f g else g }
/-- Change a group of a core. -/
def State.modGroup (s : State) (p gid : Nat) (f : Group → Group) : State := s.modCore p fun c => c.modGroup gid f
/-- A live launch. -/
def State.launch? (s : State) (lid : Nat) : Option Launch := s.launches.find? fun l => l.lid == lid
/-- Change a launch. -/
def State.modLaunch (s : State) (lid : Nat) (f : Launch → Launch) : State :=
  { s with launches := s.launches.map fun l => if l.lid == lid then f l else l }
/-- Change the firmware's state. -/
def State.modFw (s : State) (f : Firm → Firm) : State := { s with fw := f s.fw }
/-- The fabric state of a node. -/
def State.node (s : State) (n : Nat) : Node := tblGetD s.nodes n Node.reset
/-- Put the fabric state of a node. -/
def State.setNode (s : State) (n : Nat) (v : Node) : State := { s with nodes := tblSet s.nodes n v }
/-- The next SEQ of a source's second counter for a destination (R36). -/
def State.nextNs (s : State) (src dst : Nat) : BitVec 16 × State :=
  let nd := s.node src
  let q := tblGetD nd.seqN dst 0#16
  (q, s.setNode src { nd with seqN := tblSet nd.seqN dst (q + 1#16) })
/-- A free value of the spec: the counter advances (assumption 11). -/
def State.free (s : State) : Word × State := (Config.freeWord s.freeCtr, { s with freeCtr := s.freeCtr + 1 })
/-- An active core position: not fused off, not quarantined (R11, R143). -/
def State.active (s : State) (p : Nat) : Bool := !(s.fw.fused.contains p || s.fw.quarantined.contains p)

/-- The position lies in the launch's core rectangle (R90). -/
def Launch.inRect (l : Launch) (p : Nat) : Bool :=
  l.x0 ≤ posX p && posX p < l.x0 + l.w && l.y0 ≤ posY p && posY p < l.y0 + l.h
/-- Position of a logical core of the launch's module numbering. -/
def Launch.posOfLogical (l : Launch) (n : Nat) : Option Nat := l.map[n]?
/-- Positions of the launch's cores: the active positions of its core rectangle, in logical order (R101). -/
def Launch.cores (l : Launch) : List Nat := l.map.filter l.inRect
/-- Position of a logical core, where that is a core of the launch. -/
def Launch.core? (l : Launch) (n : Nat) : Option Nat := (l.posOfLogical n).filter l.inRect
/-- Logical cores of the launch that hold a role, in logical order (R104). -/
def Launch.placed (l : Launch) : List Nat := l.roles.map (·.1)
/-- A live launch runs in step mode (R123). -/
def State.stepMode (s : State) (lid : Nat) : Bool :=
  match s.launch? lid with
  | some l => l.stepMode
  | none => false

/-! ## Registers (R263, R275, R294) -/

/-- Index of an x register. -/
def regIx (r : Reg) : Fin 32 := ⟨r.toNat, r.isLt⟩
/-- X(n): x0 reads zero. -/
def Thread.rx (t : Thread) (r : Reg) : Word := if r = 0#5 then 0#64 else t.x.get (regIx r)
/-- X(n) := v: a write to x0 is discarded; a write clears the scoreboard's bit. -/
def Thread.wx (t : Thread) (r : Reg) (v : Word) : Thread :=
  if r = 0#5 then t
  else { t with x := t.x.set (regIx r) v, pendX := t.pendX &&& ~~~(1#32 <<< r.toNat) }
/-- P(n): p0 is true. -/
def Thread.rp (t : Thread) (k : Pred) : Bool := if k = 0#3 then true else t.p.getLsbD k.toNat
/-- P(n) := b: a write to p0 is discarded. -/
def Thread.wp (t : Thread) (k : Pred) (b : Bool) : Thread :=
  if k = 0#3 then t
  else { t with
         p := if b then t.p ||| (1#8 <<< k.toNat) else t.p &&& ~~~(1#8 <<< k.toNat),
         pendP := t.pendP &&& ~~~(1#8 <<< k.toNat) }
/-- Mark an x register pending (R151); x0 is never pending. -/
def Thread.markX (t : Thread) (r : Reg) : Thread := if r = 0#5 then t else { t with pendX := t.pendX ||| (1#32 <<< r.toNat) }
/-- Release an x register from the scoreboard without a write (R72). -/
def Thread.clearX (t : Thread) (r : Reg) : Thread := { t with pendX := t.pendX &&& ~~~(1#32 <<< r.toNat) }
/-- STATUS.TH. -/
def Thread.th (t : Thread) : Bool := t.status.getLsbD 0
/-- STATUS.PP. -/
def Thread.pp (t : Thread) : Bool := t.status.getLsbD 2
/-- STATUS.PFMT. -/
def Thread.pfmt (t : Thread) : BitVec 32 := t.status.extractLsb' 32 32
/-- STATUS.SS. -/
def Thread.ss (t : Thread) : Bool := t.status.getLsbD 4
/-- The pending prefix, if one is pending (R257). -/
def Thread.prefix? (t : Thread) : Option (BitVec 32) := if t.pp then some t.pfmt else none
/-- PP and PFMT cleared. -/
def Thread.dropPrefix (t : Thread) : Thread := { t with status := t.status &&& 0x00000000FFFFFFFB#64 }

/-! ## Memory bytes at their homes (R181, R183) -/

/-- The physical offset of a scratchpad offset: the active half of an enabled exchange region (R162). -/
def Core.spPhys (c : Core) (off : Nat) : Nat :=
  if c.exEn && 0x30000 ≤ off && off < 0x38000 then off + (if c.exSel then 0x8000 else 0) else off
/-- The physical offset in the shadow half (R162). -/
def Core.spShadow (c : Core) (off : Nat) : Nat := off + (if c.exSel then 0 else 0x8000)
/-- Bytes of the scratchpad by offset. -/
def Core.spRead (c : Core) (off n : Nat) : List Byte := memRead c.sp (c.spPhys off) n
/-- Words of the scratchpad, by number, that n bytes from an offset touch. -/
def wordsOf (phys n : Nat) : List Nat :=
  (List.range ((phys + n + 7) / 8 - phys / 8)).map fun i => phys / 8 + i
/-- Some word of the bytes is poisoned (R159). -/
def Core.spPoison (c : Core) (off n : Nat) : Bool := (wordsOf (c.spPhys off) n).any fun w => c.poisoned.contains w
/-- Store bytes: a word stored whole loses its poison, a word stored in part keeps it (R159). -/
def Core.spStorePhys (c : Core) (phys : Nat) (bs : List Byte) (poison : Bool) : Core :=
  let whole := (wordsOf phys bs.length).filter fun w => phys ≤ w * 8 && w * 8 + 8 ≤ phys + bs.length
  let pz := if poison then (wordsOf phys bs.length).foldl setIns c.poisoned else whole.foldl setDel c.poisoned
  { c with sp := memWrite c.sp phys bs, poisoned := pz }
/-- Store bytes at a scratchpad offset (active half). -/
def Core.spStore (c : Core) (off : Nat) (bs : List Byte) : Core := c.spStorePhys (c.spPhys off) bs false

/-! ## Translation (R57, R58, R61, R75) -/

/-- An entry of a page table, at its physical address in LPDDR. -/
def State.pte (s : State) (pa : Nat) : Nat := natOfBytes (memRead s.mem pa 8)
/-- FRAME: the physical address of the page or the next table. -/
def pteFrame (e : Nat) : Nat := e / 2 ^ 16 % 2 ^ 36 * 2 ^ 16
/-- The entry fails a walk: invalid, a reserved bit set, or an LPDDR frame at or above 756 GiB; LEAF and TGT are bits 1 and 3. -/
def pteBad (e : Nat) : Bool :=
  !e.testBit 0 || e / 16 % 2 ^ 12 ≠ 0 || e / 2 ^ 52 ≠ 0 || (!(e.testBit 1 && e.testBit 3) && 0xBD00000000 ≤ pteFrame e)
/-- The physical addresses of the entries that a walk reads for an offset of memory space: at level 0, at level 1 and, unless that is
a leaf, at level 2; none where the walk fails before. -/
def State.leafAt (s : State) (off : Nat) : Option Nat :=
  let e0 := s.pte (s.fw.ptBase.toNat + 8 * (off / 2 ^ 37 % 1024))
  if pteBad e0 || e0.testBit 1 then none
  else
    let a1 := pteFrame e0 + 8 * (off / 2 ^ 24 % 8192)
    if pteBad (s.pte a1) then none
    else if (s.pte a1).testBit 1 then some a1
    else some (pteFrame (s.pte a1) + 8 * (off / 2 ^ 16 % 256))
/-- The page walk (R57): whether host memory backs the 64 KiB page of an offset, and the page's physical address; none where it fails. A
16 MiB leaf lies at level 1. -/
def State.walk (s : State) (off : Nat) : Option (Bool × Nat) :=
  let e0 := s.pte (s.fw.ptBase.toNat + 8 * (off / 2 ^ 37 % 1024))
  if pteBad e0 || e0.testBit 1 then none
  else
    let e1 := s.pte (pteFrame e0 + 8 * (off / 2 ^ 24 % 8192))
    if pteBad e1 then none
    else if e1.testBit 1 then some (e1.testBit 3, pteFrame e1 / 2 ^ 24 * 2 ^ 24 + off / 2 ^ 16 % 256 * 2 ^ 16)
    else
      let e2 := s.pte (pteFrame e1 + 8 * (off / 2 ^ 16 % 256))
      if pteBad e2 || !e2.testBit 1 then none else some (e2.testBit 3, pteFrame e2)
/-- The page walk succeeds (R57, R58). -/
def State.mapped (s : State) (off : Nat) : Bool := (s.walk off).isSome
/-- The translation of an offset that its home slice has cached (R58). -/
def State.cached? (s : State) (off : Nat) : Option (Bool × Nat) :=
  (s.tlb.find? fun e => e.slice == sliceOf off && e.page == off / 65536).map fun e => (e.host, e.base)
/-- The translation that an access at its home slice uses: the cached one, else the walk's (R58, R68). -/
def State.xlate (s : State) (off : Nat) : Option (Bool × Nat) := (s.cached? off).or (s.walk off)
/-- A slice caches the translation of a walk: 4,096 entries for each slice, of which the oldest leaves (R58, assumption 5). -/
def State.cacheWalk (s : State) (off : Nat) : State :=
  if (s.cached? off).isSome then s
  else match s.walk off with
    | none => s
    | some w =>
      let k := sliceOf off
      let full := 4096 ≤ (s.tlb.filter fun e => e.slice == k).length
      let old := if full then s.tlb.eraseP fun e => e.slice == k else s.tlb
      { s with tlb := old ++ [{ slice := k, page := off / 65536, host := w.1, base := w.2 }] }
/-- Offset in the memory space is mapped to host memory: the host physical address of its byte (R57, R75). -/
def State.hostAddr? (s : State) (off : Nat) : Option Nat :=
  match s.xlate off with
  | some (true, b) => some (b + off % 65536)
  | _ => none
/-- Bytes of memory space at their homes, from a page whose walk `w` has been made and a line whose translation is `t`. -/
def State.readAt (s : State) (w t : Option (Bool × Nat)) (off : Nat) : Nat → List Byte
  | 0 => []
  | n + 1 =>
    let w := if off % 65536 = 0 then s.walk off else w
    let t := if off % 128 = 0 then (s.cached? off).or w else t
    (match t with
     | some (true, b) => memGet s.host (b + off % 65536)
     | some (false, b) => memGet s.mem (b + off % 65536)
     | none => 0#8) :: s.readAt w t (off + 1) n
/-- Bytes of memory space at their homes. -/
def State.memBytes (s : State) (off n : Nat) : List Byte := s.readAt (s.walk off) (s.xlate off) off n
/-- Put bytes of memory space, from a page whose walk has been made and a line whose translation is known, without their poison rule. -/
def State.putAt (s : State) (w t : Option (Bool × Nat)) (off : Nat) : List Byte → State
  | [] => s
  | b :: bs =>
    let w := if off % 65536 = 0 then s.walk off else w
    let t := if off % 128 = 0 then (s.cached? off).or w else t
    (match t with
     | some (true, a) => { s with host := memSet s.host (a + off % 65536) b }
     | some (false, a) => { s with mem := memSet s.mem (a + off % 65536) b }
     | none => s).putAt w t (off + 1) bs
/-- 64-byte blocks that n bytes touch. -/
def blocksOf (off n : Nat) : List Nat := (List.range ((off + n + 63) / 64 - off / 64)).map fun i => off / 64 + i
/-- Where a 64-byte block of memory space lies: in host memory or in LPDDR, and its physical number. -/
def State.blockAt (s : State) (b : Nat) : Option (Bool × Nat) := (s.xlate (b * 64)).map fun t => (t.1, t.2 / 64 + b % 1024)
/-- The LPDDR blocks, and the host's, among some blocks of memory space. -/
def State.physBlocks (s : State) (host : Bool) (l : List Nat) : List Nat :=
  l.filterMap fun b => (s.blockAt b).bind fun x => if x.1 == host then some x.2 else none
/-- Some block of the bytes is poisoned (R66, R77). -/
def State.memPoison (s : State) (off n : Nat) : Bool :=
  (blocksOf off n).any fun b => (s.blockAt b).any fun x => (if x.1 then s.hostBad else s.bad).contains x.2
/-- Store bytes: a block written whole loses its poison, one written in part keeps it (R66); what is stored is written anew. -/
def State.memStore (s : State) (off : Nat) (bs : List Byte) (poison : Bool := false) : State :=
  let all := blocksOf off bs.length
  let whole := all.filter fun b => off ≤ b * 64 && b * 64 + 64 ≤ off + bs.length
  let mark (host : Bool) (l : List Nat) : List Nat :=
    if poison then (s.physBlocks host all).foldl setIns l else (s.physBlocks host whole).foldl setDel l
  { s.putAt (s.walk off) (s.xlate off) off bs with
    bad := mark false s.bad, hostBad := mark true s.hostBad, upsets := (s.physBlocks false all).foldl tblErase s.upsets }

/-- Write an entry of a page table. -/
def State.putPte (s : State) (pa e : Nat) : State := { s with mem := memWrite s.mem pa (bytesOfNat e 8) }
/-- The level-1 entry of an offset is a leaf. -/
def State.bigLeaf (s : State) (off : Nat) : Bool :=
  let e0 := s.pte (s.fw.ptBase.toNat + 8 * (off / 2 ^ 37 % 1024))
  !(pteBad e0 || e0.testBit 1) && (s.pte (pteFrame e0 + 8 * (off / 2 ^ 24 % 8192))).testBit 1
/-- PIN of an offset's page (R57). -/
def State.pinnedPage (s : State) (off : Nat) : Bool := (s.leafAt off).any fun a => (s.pte a).testBit 0 && (s.pte a).testBit 2
/-- Firmware writes XINV for a page whose entry it has changed (R58). -/
def State.dropPage (s : State) (page : Nat) : State := { s with fw := { s.fw with xinv := s.fw.xinv ++ [(page, 1)] } }
/-- Firmware moves an unpinned LPDDR page to its host backing area, poison with it, and takes the frame back (R61, R77). -/
def State.moveOut (s : State) (page : Nat) : State :=
  if s.pinnedPage (page * 65536) || s.bigLeaf (page * 65536) then s
  else match s.leafAt (page * 65536), s.walk (page * 65536) with
    | some a, some (false, b) =>
      let f := Config.backingFrame page % 2 ^ 36
      let gone := s.bad.filter fun k => k / 1024 == b / 65536
      { ({ s with host := memWrite s.host (f * 65536) (memRead s.mem b 65536) }.putPte a 0).dropPage page with
        bad := s.bad.filter fun k => k / 1024 != b / 65536,
        hostBad := gone.foldl (fun l k => setIns l (f * 1024 + k % 1024)) (s.hostBad.filter fun k => k / 1024 != f),
        fw := { (s.dropPage page).fw with
          backing := tblSet s.fw.backing page f, freeFrames := s.fw.freeFrames ++ [b / 65536], resident := s.fw.resident.erase page } }
    | _, _ => s
/-- A frame filled with zeros under valid tags (R61); no slice still translates to it (firmware has waited for XINV.DONE). -/
def State.zeroFrame (s : State) (f : Nat) : State :=
  { s with mem := s.mem.filter fun c => c.1 / 65536 != f, bad := s.bad.filter fun k => k / 1024 != f,
           upsets := s.upsets.filter fun e => e.1 / 1024 != f, tlb := s.tlb.filter fun e => e.host || e.base / 65536 != f }
/-- Take back the frame of the first unpinned page where none is free (R61). -/
def State.reclaim (s : State) : State :=
  if s.fw.nextFrame < 0xBD0000 || !s.fw.freeFrames.isEmpty then s
  else match s.fw.resident.find? fun pg => !s.pinnedPage (pg * 65536) with
    | some pg => s.moveOut pg
    | none => s
/-- Firmware takes a fresh 64 KiB frame (R61, assumption 5). -/
def State.freshFrame (s : State) : Nat × State :=
  let s := s.reclaim
  match s.fw.freeFrames with
  | f :: t => (f * 65536, { s with fw := { s.fw with freeFrames := t } }.zeroFrame f)
  | [] => (s.fw.nextFrame * 65536, { s with
      bad := s.bad.filter fun k => k / 1024 != s.fw.nextFrame, upsets := s.upsets.filter fun e => e.1 / 1024 != s.fw.nextFrame,
      fw := { s.fw with nextFrame := s.fw.nextFrame + 1 } })
/-- The table that an entry points to, made where there is none. -/
def State.nextTable (s : State) (pa : Nat) : Nat × State :=
  let e := s.pte pa
  if e.testBit 0 then (pteFrame e, s)
  else
    let r := s.freshFrame
    (r.1, r.2.putPte pa (r.1 + 1))
/-- Put the level-2 leaf of a 64 KiB page. -/
def State.putLeaf (s : State) (page e : Nat) : State :=
  let a := s.nextTable (s.fw.ptBase.toNat + 8 * (page / 2 ^ 21 % 1024))
  let b := a.2.nextTable (a.1 + 8 * (page / 2 ^ 8 % 8192))
  b.2.putPte (b.1 + 8 * (page % 256)) e
/-- The content of a page comes back from the host backing area to its frame, poison with it (R61, R77). -/
def State.copyBack (s : State) (page pa : Nat) : State :=
  match tblGet? s.fw.backing page with
  | none => s
  | some f =>
    { s with mem := memWrite s.mem pa (memRead s.host (f * 65536) 65536),
             bad := (s.hostBad.filter fun k => k / 1024 == f).foldl (fun l k => setIns l (pa / 64 + k % 1024)) s.bad,
             fw := { s.fw with backing := tblErase s.fw.backing page } }
/-- Make a page resident (R61): one that has never been mapped gets a fresh frame, which reads zero; one that firmware has moved out is
copied back. -/
def State.mapPage (s : State) (page : Nat) : State :=
  if s.mapped (page * 65536) then s
  else
    let r := s.freshFrame
    let s := r.2.putLeaf page (r.1 + 3)
    { s with fw := { s.fw with resident := s.fw.resident ++ [page] } }.copyBack page r.1
/-- Firmware maps a page of memory space to host memory (R57, R75), unless it is pinned (R58); a frame it had is taken back. -/
def State.mapHostPage (s : State) (page frame : Nat) : State :=
  if s.pinnedPage (page * 65536) || s.bigLeaf (page * 65536) then s
  else
    let old := s.walk (page * 65536)
    let s := s.putLeaf page (frame % 2 ^ 36 * 65536 + 0xB)
    match old with
    | none => s
    | some (host, b) => { s.dropPage page with fw := { (s.dropPage page).fw with
        freeFrames := if host then s.fw.freeFrames else s.fw.freeFrames ++ [b / 65536], resident := s.fw.resident.erase page } }
/-- Set or clear PIN of a page (R57, R61). -/
def State.pinPage (s : State) (page : Nat) (pin : Bool) : State :=
  match s.leafAt (page * 65536) with
  | none => s
  | some a => s.putPte a (s.pte a / 8 * 8 + s.pte a % 4 + (if pin then 4 else 0))
/-- Make the pages of n bytes resident. -/
def State.mapRange (s : State) (off n : Nat) : State :=
  (List.range ((off + n + 65535) / 65536 - off / 65536)).foldl (fun s i => s.mapPage (off / 65536 + i)) s

/-- The host's copy of a line is recalled: its data and poison go home, and the host holds the line no more (R77, R204). -/
def State.hostRecall (s : State) (line : Nat) : State :=
  match tblGet? s.hostLines line with
  | none => s
  | some h =>
    let s := (s.memStore (line * 128) (h.data.take 64) h.lo).memStore (line * 128 + 64) ((h.data.drop 64).take 64) h.hi
    { s with hostLines := tblErase s.hostLines line }
/-- The host's copies of the lines of n bytes are recalled. -/
def State.recallRange (s : State) (off n : Nat) : State :=
  if s.hostLines.isEmpty then s
  else (List.range ((off + n + 127) / 128 - off / 128)).foldl (fun s i => s.hostRecall (off / 128 + i)) s
/-- Some byte of host memory comes with poison (R77). -/
def State.hostPoison (s : State) (a n : Nat) : Bool := (blocksOf a n).any s.hostBad.contains
/-- Bytes written to host memory: a block written whole is no longer poisoned, one written with poison is. -/
def State.hostWrite (s : State) (a : Nat) (bs : List Byte) (poison : Bool := false) : State :=
  let all := blocksOf a bs.length
  let whole := all.filter fun b => a ≤ b * 64 && b * 64 + 64 ≤ a + bs.length
  { s with host := memWrite s.host a bs, hostBad := if poison then all.foldl setIns s.hostBad else whole.foldl setDel s.hostBad }
/-- Firmware's and the encoder's writes to an intermediate or host address in the form of R81 and R225: bit 63 says a host
physical address, else the low 47 bits are an offset of memory space, whose pages firmware makes resident and whose lines are recalled
from the host (R204); leases are not consulted. -/
def State.fwStore (s : State) (addr : Word) (bs : List Byte) : State :=
  if addr.getLsbD 63 then s.hostWrite (addr.extractLsb' 0 52).toNat bs
  else ((s.mapRange (addr.extractLsb' 0 47).toNat bs.length).recallRange (addr.extractLsb' 0 47).toNat bs.length).memStore (addr.extractLsb' 0 47).toNat bs
/-- The matching reads. -/
def State.fwLoad (s : State) (addr : Word) (n : Nat) : List Byte :=
  if addr.getLsbD 63 then memRead s.host (addr.extractLsb' 0 52).toNat n
  else (s.recallRange (addr.extractLsb' 0 47).toNat n).memBytes (addr.extractLsb' 0 47).toNat n

/-! ## Counters of containment rectangles (R146, R149) -/

/-- The defined rectangle that holds a position, lowest index first but rectangle 0 last; 0 when none does. -/
def State.rectOf (s : State) (p : Nat) : Nat :=
  let holds (r : Rect) := r.defined && r.x0 ≤ posX p && posX p < r.x0 + r.w && r.y0 ≤ posY p && posY p < r.y0 + r.h
  ((List.range 16).find? fun i => i ≠ 0 && (s.fw.rects.toList[i]?).any holds).getD 0
/-- Upper-left position of the containment rectangle of a position, the root of its tree (R45). -/
def State.rectRoot (s : State) (p : Nat) : Nat := ((s.fw.rects.toList[s.rectOf p]?).map fun r => posOf r.x0 r.y0).getD 0
/-- Change a rectangle. -/
def State.modRect (s : State) (i : Nat) (f : Rect → Rect) : State :=
  s.modFw fun w => if h : i < 16 then { w with rects := w.rects.set i (f (w.rects[i]'h)) } else w
/-- Count a dropped packet at a core position (R27, R146). -/
def State.countDrop (s : State) (p : Nat) : State := s.modRect (s.rectOf p) fun r => { r with drop := r.drop + 1 }
/-- Count a dropped packet at a slice bank or an I/O agent: rectangle 0. -/
def State.countDrop0 (s : State) : State := s.modRect 0 fun r => { r with drop := r.drop + 1 }
/-- Count a dropped event. -/
def State.countEvDrop (s : State) (p : Nat) : State := s.modRect (s.rectOf p) fun r => { r with evdrop := r.evdrop + 1 }
/-- Policy 1 holds at a position (R146). -/
def State.policy1 (s : State) (p : Nat) : Bool := (s.fw.rects.toList[s.rectOf p]?).any (·.contain)

/-! ## The trace encoder (R225 to R227) -/

/-- Memory takes a word of a core's trace. -/
def State.traceWord (s : State) (p : Nat) (w : Word) : State :=
  let c := s.core p
  let words := (if (c.trcsize.extractLsb' 0 16).toNat = 0 then 1 else (c.trcsize.extractLsb' 0 16).toNat) * 512
  let a := c.trcbase + BitVec.ofNat 64 (c.trchead.toNat % words * 8)
  (s.fwStore (a &&& 0x00FFFFFFFFFFFFFF#64) (bytesOf w 8)).modCore p fun c => { c with trchead := c.trchead + 1#64 }
/-- The words of a record (R226): TSFULL first when the time since the last record does not fit in DT (R227). -/
def recordWords (now last : Word) (slot ty : Nat) (payload : BitVec 40) (second : Option Word) : List Word :=
  let dt := (now - last).toNat
  (if 65536 ≤ dt then [0xF#64, now] else []) ++ [payload ++ BitVec.ofNat 16 (if 65536 ≤ dt then 0 else dt) ++ BitVec.ofNat 4 slot ++ BitVec.ofNat 4 ty] ++ second.toList
/-- The GAP record that a core's next record comes after, when records have been dropped (R225). -/
def Core.gapWords (c : Core) (now : Word) : List Word := if c.trcGap = 0 then [] else recordWords now c.trcLast 0 0x9 (BitVec.ofNat 40 c.trcGap) none
/-- TIMEB of the record before a core's next one: now, where a GAP record comes first. -/
def Core.gapLast (c : Core) (now : Word) : Word := if c.trcGap = 0 then c.trcLast else now
/-- Memory takes what a core's trace buffer holds, unless it takes none for now (R225). -/
def State.traceDrain (s : State) (p : Nat) : State :=
  if (s.core p).trcStall then s
  else ((s.core p).trcBuf.foldl (fun s w => s.traceWord p w) s).modCore p fun c => { c with trcBuf := [] }
/-- Put the words of a record into the buffer of 64 words, after a GAP record when records have been dropped; or drop the record whole and
count it, the last full pc being 0 after the GAP to come (R225, R226). -/
def State.tracePut (s : State) (p : Nat) (ws : List Word) : State :=
  let c := s.core p
  let ws := c.gapWords s.time ++ ws
  if 64 < c.trcBuf.length + ws.length then s.modCore p fun c => { c with trcGap := min (c.trcGap + 1) (2 ^ 40 - 1), trcPc := 0#64 }
  else (s.modCore p fun c => { c with trcBuf := c.trcBuf ++ ws, trcGap := 0, trcLast := s.time }).traceDrain p
/-- TSFULL of a tracing core whose TIMEB has been stepped (R227). -/
def State.traceFull (s : State) (p : Nat) : State := if (s.core p).trcctl.getLsbD 0 then s.tracePut p [0xF#64, s.time] else s
/-- Write one record. -/
def State.traceRec (s : State) (p slot ty : Nat) (payload : BitVec 40) (second : Option Word) : State :=
  if (s.core p).trcctl.getLsbD 0 then s.tracePut p (recordWords s.time ((s.core p).gapLast s.time) slot ty payload second) else s
/-- A taken branch or jump (R226 BRANCH and PCFULL) under TRCCTL.BR. -/
def State.traceBranch (s : State) (p slot : Nat) (target : Word) : State :=
  let c := s.core p
  if !c.trcctl.getLsbD 1 then s
  else if target.extractLsb' 41 23 ≠ c.trcPc.extractLsb' 41 23 then
    (s.traceRec p slot 0x2 0#40 (some target)).modCore p fun c => if c.trcctl.getLsbD 0 && c.trcGap = 0 then { c with trcPc := target } else c
  else s.traceRec p slot 0x1 (target.extractLsb' 1 40) none
/-- A trap entry under TRCCTL.TRAP. -/
def State.traceTrap (s : State) (p slot : Nat) (code : BitVec 8) (epc : Word) : State :=
  if (s.core p).trcctl.getLsbD 2 then s.traceRec p slot 0x3 (code.setWidth 40) (some epc) else s
/-- A `tret` under TRCCTL.TRAP. -/
def State.traceTret (s : State) (p slot : Nat) : State :=
  if (s.core p).trcctl.getLsbD 2 then s.traceRec p slot 0x4 0#40 none else s
/-- An event delivered by `evnext` under TRCCTL.EV. -/
def State.traceEvent (s : State) (p slot index stream : Nat) : State :=
  if (s.core p).trcctl.getLsbD 3 then
    s.traceRec p slot 0x5 ((BitVec.ofNat 4 stream ++ BitVec.ofNat 20 index).setWidth 40) none
  else s
/-- A watchpoint match under TRCCTL.WATCH. -/
def State.traceWatch (s : State) (p slot wp node : Nat) (ia : Word) : State :=
  if (s.core p).trcctl.getLsbD 4 then
    s.traceRec p slot 0x6 ((BitVec.ofNat 12 node ++ BitVec.ofNat 1 wp).setWidth 40) (some ia)
  else s
/-- A stop of a thread under TRCCTL.TRAP. -/
def State.traceStop (s : State) (p slot skid : Nat) : State :=
  if (s.core p).trcctl.getLsbD 2 then s.traceRec p slot 0x7 ((BitVec.ofNat 16 skid).setWidth 40) none else s

/-! ## Retirement, traps, termination -/

/-- Retire the issuing thread's instruction of a length: pc advances, the prefix is used up, the watchdog's count restarts
(R151, R219, R258). -/
def Thread.retired (t : Thread) (len : Nat) (now : Word) : Thread :=
  { t.dropPrefix with pc := t.pc + BitVec.ofNat 64 len, lastRet := now, stepped := true, waitCnt := 0, skid := (if t.lagging then t.skid + 1 else t.skid),
                       bpPass := (if t.bpPass = some t.pc then none else t.bpPass), stay := false, arrived := none, flushing := none, readRec := none }
/-- Put the issuing thread, retired. -/
def State.retire (s : State) (t : Thread) (len : Nat := 4) : State := s.setCur (t.retired len s.time)

/-- A sleeping thread of the core's own wait table leaves it without effect (R118, R160). -/
def Core.dropWaits (c : Core) (slot : Nat) : Core :=
  { c with waits := c.waits.filter fun w => !(match w.slot with | some (k, _) => k == slot | none => false) }

/-- A context whose thread a test names is halted: its head command completes, those behind it are kept (R118). -/
def VCtx.leave (v : VCtx) (mine : Nat → Bool) : VCtx := if v.owner.any mine then { v with headLeft := !v.queue.isEmpty } else v
/-- The same for both contexts of a core. -/
def Core.leaveHeads (c : Core) (mine : Nat → Bool) : Core := { c with v0 := c.v0.leave mine, v1 := c.v1.leave mine }

/-- The requests of remote waits of a slot are to be withdrawn (R161): their withdrawal is sent by `State.settleWithdraw`. -/
def Req.waitOf (r : Req) (p slot : Nat) : Bool :=
  r.src == p && r.slot == some slot && !r.withdrawn &&
  (match r.use with
   | .tagged .lwf _ | .tagged .take _ | .tagged .put _ => true
   | _ => false)

/-- Halt or stop a thread at its boundary: a wait is abandoned, its instruction to be issued afresh; a barrier arrival stands
(R118, R218, R326); a thread waiting remotely keeps its request, whose answer settles it (R161). -/
def Thread.hold (t : Thread) (r : Run) : Thread :=
  match t.run with
  | .running => { t with run := r, flushing := none, readRec := none }
  | .sleeping w =>
    { t with run := r, flushing := none, readRec := none, digNext := (if w = .tag then none else t.digNext), watchDue := (if w = .tag then [] else t.watchDue), arrived := (match w with
                                   | .bar _ => some w
                                   | .barX => some w
                                   | .barT => some w
                                   | .reply _ _ _ => some w
                                   | _ => none) }
  | _ => t

/-- Halt a thread for a halt request; with STATUS.PN it is to take 0x11 after a restore, with this moment as TVAL (R120, R211). -/
def Thread.haltAt (t : Thread) (now : Word) : Thread :=
  match t.run with
  | .halted | .transit _ => t
  | _ => { t.hold .halted with pnDue := if t.status.getLsbD 3 then some now else t.pnDue }
/-- Begin a termination (R212 step 1): every thread of the group halts and sleeping waits are abandoned. `thread` is the index
of the thread that caused it. The later steps are `State.settle`'s, once the group's accesses have drained. -/
def State.terminate (s : State) (hp gid cls : Nat) (code : BitVec 8) (thread : Nat) (epc tval : Word) : State :=
  let g? := (s.core hp).group? gid
  match g? with
  | none => s
  | some g =>
    if g.dying.isSome then s
    else
      let s := s.modGroup hp gid fun g =>
        { g with dying := some { cls := cls, code := code, thread := thread, epc := epc, tval := tval, time := s.time },
                 drain := 0, indet := 0, badList := [], stopAt := s.time }
      let halt (p : Nat) (c : Core) : Core :=
        let mine (slot : Nat) (t : Thread) : Bool := t.group == gid && t.homePos p == hp && (tblGet? c.threads slot).isSome
        let c := c.threads.foldl (fun c st => if mine st.1 st.2 then c.dropWaits st.1 else c) c
        let c := c.leaveHeads fun slot => (tblGet? c.threads slot).any fun t => mine slot t
        { c with threads := tblMap (fun slot t => if mine slot t then t.hold .halted else t) c.threads }
      { s with cores := tblMap halt s.cores }

/-- A ring slot's address. -/
def ringAddr (base : Word) (head slots size : Nat) : Word := base + BitVec.ofNat 64 (head % (max slots 1) * size)
/-- Clocks of a basin since the module's last reset. -/
def State.basinClocks (s : State) (b : Nat) : Nat := ((s.fw.basins.toList[b]?).map (·.clocks)).getD 0 / 1000
/-- A core's clocks since its last reset (R226). -/
def State.coreClocks (s : State) (p : Nat) : Nat := s.basinClocks (basinOf p) - (s.core p).cycles
/-- Change a vector context. -/
def Core.modCtx (c : Core) (k : Bool) (f : VCtx → VCtx) : Core := if k then { c with v1 := f c.v1 } else { c with v0 := f c.v0 }
/-- A vector context. -/
def Core.ctx (c : Core) (k : Bool) : VCtx := if k then c.v1 else c.v0
/-- A bit as a word at a place. -/
def bitAt (b : Bool) (k : Nat) : Word := if b then 1#64 <<< k else 0#64
/-- STATUS as it reads: VBUSY is the state of the thread's vector context (R167, R207). -/
def Core.statusOf (c : Core) (t : Thread) : Word :=
  let busy := match t.ctx with
    | some k => !(c.ctx k).queue.isEmpty
    | none => false
  (t.status &&& ~~~2#64) ||| bitAt busy 1
/-- The core gates its own clock (R153): every slot free, sleeping, halted or stopped, the vector and matrix units idle. -/
def Core.gated (c : Core) : Bool :=
  c.v0.queue.isEmpty && c.v1.queue.isEmpty && c.tileBusy.isNone && c.matrixQ.isEmpty && c.threads.all fun st => match st.2.run with
    | .running => false
    | _ => true
/-- A debug stop's trap, a held fault or a pre-emption is due at the thread's next boundary, before the watchdog (R210). -/
def Thread.trapDue (t : Thread) : Bool := !t.th && (t.dbgTrap.isSome || t.held.isSome || t.pnDue.isSome)
/-- Take a trap in the thread of a slot (R208): the saved registers written, TH set, the prefix cleared, pc at TVEC; or the
group is terminated. A trap of a check run ends the run as void (R142). -/
def State.takeTrap (s : State) (p slot : Nat) (tr : Trap) : State :=
  match s.thread? p slot with
  | none => s
  | some t =>
    match s.groupOf p t with
    | none => s
    | some g =>
      let hp := t.homePos p
      if g.check.isSome then
        (s.modGroup hp g.gid fun g => { g with check := g.check.map fun k => { k with void := true } }).terminate hp g.gid 0 tr.code t.idx t.pc tr.tval
      else if tr.code = 0x05#8 ∨ g.tvec = 0#64 ∨ t.th = true then
        s.terminate hp g.gid (if tr.code = 0x05#8 then 1 else if t.th then 3 else 2) tr.code t.idx t.pc tr.tval
      else
        let st := (s.core p).statusOf t
        let es := if tr.code = 0x14#8 then st &&& 0x00000000FFFFFFFB#64 else st
        let more : BitVec 1 := BitVec.ofBool t.heldMore
        let cause : Word := (0#50 ++ (if tr.async then more else 0#1) ++ BitVec.ofBool tr.async ++ tr.detail ++ tr.code)
        let t' := { t with
          estatus := es, epc := t.pc, tcause := cause, tval := tr.tval,
          status := (t.status &&& 0x00000000FFFFFFFB#64) ||| 1#64, pc := g.tvec, run := .running,
          lastRet := s.time, stepped := true, waitCnt := 0, skid := (if t.lagging then t.skid + 1 else t.skid), arrived := none, flushing := none, readRec := none, digNext := none, watchDue := [], wdPending := false,
          heldMore := if tr.async then false else t.heldMore }
        (s.setThread p slot t').traceTrap p slot tr.code t.pc

/-- Take a trap in the issuing thread. -/
def State.trap (s : State) (tr : Trap) : State := s.takeTrap s.pos s.slot tr
/-- Illegal instruction with a DETAIL; TVAL holds the instruction bits (R211). -/
def State.illegal (s : State) (detail : BitVec 4) : State :=
  match s.cur? with
  | some t => s.trap { code := 0x01#8, detail := detail, tval := t.ir.setWidth 64 }
  | none => s
/-- A trap whose TVAL is the instruction bits: prefix misuse 0x14, step mode 0x16. -/
def State.trapBits (s : State) (code : BitVec 8) : State :=
  match s.cur? with
  | some t => s.trap { code := code, tval := t.ir.setWidth 64 }
  | none => s

/-! ## The shape of a meaning -/

/-- Run a meaning on the issuing thread. -/
def withThread (s : State) (k : Thread → Out) : Out :=
  match s.cur? with
  | some t => k t
  | none => .fault .noThread

/-- A nomad thread that names x16 to x31 raises illegal-instruction, DETAIL 4 (R275, R294). -/
def badNomad (t : Thread) (rs : List Reg) : Bool := t.nomad && rs.any fun r => 16 ≤ r.toNat

/-- The issuing thread keeps its instruction: it is not ready, and nothing happens (R116). -/
def stall (s : State) : Out := .next s
/-- A register that the instruction names is pending: the thread is not ready (R151). An instruction that writes a pending
register waits too (assumption 16). -/
def Thread.pends (t : Thread) (rs : List Reg) : Bool := rs.any fun r => t.pendX.getLsbD r.toNat

/-- The decode checks of an instruction that takes no format: prefix misuse, then nomad register names, a rule of DETAIL 4 (R258, R265,
R275); then the scoreboard (R151). -/
def plain (rs : List Reg) (s : State) (k : Thread → Out) : Out :=
  withThread s fun t =>
    if t.pp then .next (s.trapBits 0x14#8)
    else if badNomad t rs then .next (s.illegal 4#4)
    else if t.pends rs then stall s
    else k t

/-- An instruction that only computes on the thread's own registers and retires. -/
def intOp (rs : List Reg) (f : Thread → Thread) (s : State) : Out :=
  plain rs s fun t => .next (s.retire (f t))

end Sys2Proof.Machine
end

