-- ==== Sys2Proof/Machine/Flags.lean ====
section
/-! DEFINITION. Flags of a thread (R231, R232) and the pending prefix: its fields and which of them an instruction accepts
(R257, R258, R295, R333, R371). -/
namespace Sys2Proof.Machine

/-- Set the flags that an instruction raises; a nomad thread's are discarded (R232). -/
def Thread.raise (t : Thread) (f : Flags) : Thread :=
  if t.nomad then t else { t with fflags := t.fflags ||| f.setWidth 64 }

/-- FA. -/
def pFA (w : BitVec 32) : BitVec 4 := w.extractLsb' 7 4
/-- FB. -/
def pFB (w : BitVec 32) : BitVec 4 := w.extractLsb' 11 4
/-- FC. -/
def pFC (w : BitVec 32) : BitVec 4 := w.extractLsb' 15 4
/-- FD. -/
def pFD (w : BitVec 32) : BitVec 4 := w.extractLsb' 19 4
/-- RM. -/
def pRM (w : BitVec 32) : BitVec 3 := w.extractLsb' 23 3
/-- SAT. -/
def pSAT (w : BitVec 32) : Bool := w.getLsbD 26
/-- The rounding mode a prefix sets; without one the word is 0 and the mode RNE. -/
def pRm (w : BitVec 32) : Rm := Rm.ofCode (pRM w)

/-- Only RM may be set. -/
def pfxRm (w : BitVec 32) : Bool := pFA w = 0#4 && pFB w = 0#4 && pFC w = 0#4 && pFD w = 0#4 && !pSAT w
/-- Only RM and SAT may be set. -/
def pfxRmSat (w : BitVec 32) : Bool := pFA w = 0#4 && pFB w = 0#4 && pFC w = 0#4 && pFD w = 0#4

/-- The decode checks of an instruction that takes formats: a prefix it does not accept, then nomad register names (R265). The
body gets the prefix word, 0 when none is pending. -/
def withPfx (rs : List Reg) (ok : BitVec 32 → Bool) (s : State) (k : Thread → BitVec 32 → Out) : Out :=
  withThread s fun t =>
    if (t.prefix?).any fun w => !ok w then .next (s.trapBits 0x14#8)
    else if badNomad t rs then .next (s.illegal 4#4)
    else if t.pends rs then stall s
    else k t ((t.prefix?).getD 0#32)

end Sys2Proof.Machine
end

