-- ==== Sys2Proof/Machine/Operands.lean ====
section
/-! DEFINITION. Operand forms: the immediates of each format (R262), the base-plus-offset address of a memory operand (R294),
floating-point operands in x registers (R300) and the integer operands of `fcvt` (R303). -/
namespace Sys2Proof.Machine

/-- The immediate of formats I and S. -/
def immI (i : BitVec 12) : Word := i.signExtend 64
/-- The offset of a branch (format B): twice the sign-extended field. -/
def immB (i : BitVec 12) : Word := (i ++ 0#1).signExtend 64
/-- The immediate of format U: sext({imm20, 12 zero bits}, 32). -/
def immU (i : BitVec 20) : Word := (i ++ 0#12).signExtend 64
/-- The offset of `jal` (format J). -/
def immJ (i : BitVec 20) : Word := (i ++ 0#1).signExtend 64
/-- va of a memory operand [rs1 + imm] (R294). -/
def Thread.ea (t : Thread) (a : Reg) (i : BitVec 12) : Word := t.rx a + immI i

/-- The format that a precision suffix names (R300). -/
def precFF : Prec → FF
  | .s => fp32
  | .d => fp64
  | .h => fp16
/-- The code in the low bits of an x register: the upper bits are ignored. -/
def Thread.rf (t : Thread) (p : Prec) (a : Reg) : Nat := (t.rx a).toNat % 2 ^ (precFF p).width
/-- Write a code, zero-extended. -/
def Thread.wf (t : Thread) (d : Reg) (r : Res) : Thread := (t.wx d (BitVec.ofNat 64 r.1)).raise r.2

/-- Width and signedness of an integer type of `fcvt`. -/
def cvtInt : CvtType → Option (Nat × Bool)
  | .w => some (32, true)
  | .wu => some (32, false)
  | .l => some (64, true)
  | .lu => some (64, false)
  | _ => none
/-- Format of a floating-point type of `fcvt`. -/
def cvtFF : CvtType → FF
  | .d => fp64
  | .h => fp16
  | _ => fp32
/-- The integer that an x register holds at a type. -/
def cvtRead (w : Nat) (sg : Bool) (v : Word) : Int := if sg then sextN w v.toNat else (v.toNat % 2 ^ w : Nat)
/-- An integer result: .w and .wu extended by their own sign rule, .l and .lu whole (R303). -/
def cvtWrite (n : Int) : Word := BitVec.ofInt 64 n

end Sys2Proof.Machine
end

