-- ==== Sys2Proof/Machine/Addr.lean ====
section
/-! DEFINITION. The address path at the issuing core: spans (R51, R52), the intermediate map (R53, R54, R55), leases (R60), and
the issue-time checks of an access in the order of R210. -/
namespace Sys2Proof.Machine

/-- What an intermediate address names (R53, R54). -/
inductive Place where
  | sp (pos off : Nat)
  | acc (pos off : Nat)
  | ctl (pos off : Nat)
  | regw (pos : Nat)
  /-- an unassigned offset of a core window -/
  | hole (pos : Nat)
  | gang (m off : Nat)
  | mem (off : Nat)
  | dev (off : Nat)
  | peer (dev low : Nat)
  | none
deriving DecidableEq, Repr

/-- Bits [47:0] of an intermediate address lie in an assigned range, which is the same on every device (R53). -/
def lowAssigned (low : Nat) : Bool :=
  low < 0x800100000000 || (0x820000000000 ≤ low && low < 0x820004000000) || (0x830000000000 ≤ low && low < 0x830001000000)
/-- The map of R53 and R54. -/
def placeOf (ia : Nat) : Place :=
  let dv := ia / 2 ^ 48 % 256
  let low := ia % 2 ^ 48
  if dv ≠ 0xFF then (if lowAssigned low then .peer dv low else .none)
  else if low < 0x800000000000 then .mem low
  else if low < 0x800100000000 then
    let pos := (low - 0x800000000000) / 0x400000
    let off := low % 0x400000
    if off < 0x40000 then .sp pos off
    else if 0x100000 ≤ off && off < 0x108000 then .acc pos (off - 0x100000)
    else if 0x200000 ≤ off && off < 0x210000 then .regw pos
    else if 0x300000 ≤ off && off < 0x310000 then .ctl pos (off - 0x300000)
    else .hole pos
  else if 0x820000000000 ≤ low && low < 0x820004000000 then .gang ((low - 0x820000000000) / 0x40000) (low % 0x40000)
  else if 0x830000000000 ≤ low && low < 0x830001000000 then .dev (low - 0x830000000000)
  else .none

/-- Intermediate address of a scratchpad offset of a core of this module. -/
def spIa (pos off : Nat) : Nat := 0xFF800000000000 + pos * 0x400000 + off
/-- Intermediate address of an offset of memory space of this module. -/
def memIa (off : Nat) : Nat := 0xFF000000000000 + off

/-- The first span that holds every byte (R52). -/
def spanFor (spans : List Span) (va : Word) (n : Nat) : Option Span :=
  spans.find? fun p => p.vbase.toNat ≤ va.toNat && va.toNat + n ≤ p.vlimit.toNat
/-- Translation through a span, truncated to 56 bits. -/
def Span.ia (p : Span) (va : Word) : Nat := ((va - p.vbase + p.offset).extractLsb' 0 56).toNat
/-- SPAT.R. -/
def Span.r (p : Span) : Bool := p.attr.getLsbD 0
/-- SPAT.W. -/
def Span.w (p : Span) : Bool := p.attr.getLsbD 1
/-- SPAT.X. -/
def Span.x (p : Span) : Bool := p.attr.getLsbD 2
/-- The lowest virtual address of an intermediate address through the spans, by the lowest-numbered span that holds it (R109). -/
def vaOf (spans : List Span) (ia : Nat) : Option Word :=
  (spans.find? fun p => p.vbase.toNat < p.vlimit.toNat &&
      (p.offset.extractLsb' 0 56).toNat ≤ ia && ia < (p.offset.extractLsb' 0 56).toNat + (p.vlimit.toNat - p.vbase.toNat)).map
    fun p => p.vbase + BitVec.ofNat 64 (ia - (p.offset.extractLsb' 0 56).toNat)

/-- What an access does, as far as the checks of R54, R60 and R73 ask. -/
inductive Kind where
  | load | store | atomic | reduce | tagged | xst | sync | tdec | ramo | fetch
deriving DecidableEq, Repr

/-- An access to be checked at issue. -/
structure Acc where
  va    : Word
  n     : Nat
  align : Nat
  r     : Bool
  w     : Bool
  kind  : Kind
  stack : Bool := false
deriving DecidableEq, Repr

/-- Permission (0x04) with a DETAIL and TVAL. -/
def permission (detail : BitVec 4) (va : Word) : Trap := { code := 0x04#8, detail := detail, tval := va }

/-- The leases that stand for a core: those a SHOOT has revoked are gone (R62). -/
def liveLeases (c : Core) (l : Launch) : List Lease :=
  ((l.leases.zipIdx).filter fun e => !c.shot.contains e.2 && e.1.pages ≠ 0).map (·.1)
/-- A lease holds bytes. -/
def Lease.holds (e : Lease) (ia n : Nat) : Bool := e.base ≤ ia && ia + n ≤ e.base + e.pages * 65536
/-- A lease meets bytes. -/
def Lease.meets (e : Lease) (ia n : Nat) : Bool := e.base < ia + n && ia < e.base + e.pages * 65536
/-- The lease check (R60). While a check is open, a write to an IN lease has DETAIL 7 whatever lease else holds the byte (R141). -/
def leaseCheck (s : State) (c : Core) (l : Launch) (ia : Nat) (a : Acc) : Option Trap :=
  let all := (liveLeases c l).filter fun e => e.holds ia a.n
  if all.isEmpty then some { code := 0x05#8, tval := a.va }
  else if a.w && s.checks.any (fun k => k.lid == l.lid) && (liveLeases c l).any (fun e => e.inp && e.meets ia a.n) then some (permission 7#4 a.va)
  else if !(all.any fun e => (!a.r || e.r) && (!a.w || e.w) && (a.kind ≠ .fetch || e.x)) then some (permission 2#4 a.va)
  else none

/-- Offset of the deque reserve (R110). -/
def reserveOff (l : Launch) : Nat := if l.exch then 0x2F000 else 0x3F000
/-- The feature bit is open: by the life cycle or by a token (R228, R229). -/
def State.feature (s : State) (k : Nat) : Bool := s.fw.lifeCycle < 2 || s.fw.features.getLsbD k
/-- A debug or trace register, which a program writes only while SELF is open (R219, R225). -/
def debugReg (off : Nat) : Bool := 0x700 ≤ off && off < 0x770 && off ≠ 0x768
/-- Registers that no program access reaches: DQSPILL, PREQ, DQIN (R122). -/
def closedReg (off : Nat) : Bool := off = 0x210 || off = 0x220 || (0x240 ≤ off && off < 0x280)

/-- The entry of a gang's member table (R55). -/
def State.gangEntry? (s : State) (l : Launch) (m : Nat) : Option GangEntry :=
  (s.gangs.find? fun g => g.id == l.gang && g.lid == l.lid).bind fun g => g.entries.find? fun e => e.member == m

/-- The scratchpad rules that the issuing core knows: the deque reserve (R110), the hidden half and the own exchange region
(R162). -/
def spIssue (l : Launch) (own : Bool) (off : Nat) (a : Acc) : Option Trap :=
  if a.kind = .xst then (if own then some (permission 5#4 a.va) else none)
  else if reserveOff l < off + a.n && off < reserveOff l + 0x1000 then some (permission 8#4 a.va)
  else if l.exch && 0x38000 < off + a.n then some (permission 5#4 a.va)
  else none

/-- The rules of the region that the issuing core applies (R50 step 2, R54, R55, R60, R73, R124), in the order of R210. -/
def regionCheck (s : State) (p : Nat) (g : Group) (l : Launch) (ia : Nat) (a : Acc) : Option Trap :=
  let pl := placeOf ia
  let own : Bool := match pl with
    | .sp q _ => q = p
    | _ => false
  let memory : Bool := match pl with
    | .mem _ => true
    | .peer _ low => low < 0x800000000000
    | _ => false
  if l.stepMode && !own then some (permission 3#4 a.va)
  else if a.kind = .ramo && !memory then some (permission 4#4 a.va)
  else
  let window (q : Nat) (k : Option Trap) : Option Trap :=
    if !l.inRect q then some (permission 3#4 a.va)
    else if a.kind = .fetch then some (permission 5#4 a.va)
    else k
  let leased (k : Option Trap) : Option Trap :=
    match k with
    | some t => some t
    | none => leaseCheck s (s.core p) l ia a
  match pl with
  | .none => some (permission 4#4 a.va)
  | .sp q off => window q (spIssue l (q = p) off a)
  | .acc q _ =>
    window q (if a.kind = .xst then (if q = p then some (permission 5#4 a.va) else none)
      else if a.kind = .load || a.kind = .store then none else some (permission 5#4 a.va))
  | .ctl q off =>
    window q (if a.kind = .xst then (if q = p then some (permission 5#4 a.va) else none)
      else if !((a.kind = .load || a.kind = .store) && a.n = 8 && off % 8 = 0) then some (permission 5#4 a.va)
      else if closedReg off then some (permission 5#4 a.va)
      else if a.w && debugReg off && !s.feature 4 then some (permission 9#4 a.va)
      else none)
  | .regw q =>
    window q (if a.kind = .xst then (if q = p then some (permission 5#4 a.va) else none) else some (permission 8#4 a.va))
  | .hole q =>
    window q (if a.kind = .xst then (if q = p then some (permission 5#4 a.va) else none) else some (permission 4#4 a.va))
  | .gang m off =>
    if a.kind = .fetch || l.gang = 0 then some (permission 4#4 a.va)
    else if g.detached then some (permission 10#4 a.va)
    else match s.gangEntry? l m with
      | none => some (permission 4#4 a.va)
      | some e => if e.size * 4096 < off + a.n then some (permission 4#4 a.va) else none
  | .mem _ => leased none
  | .dev _ => leased (if a.kind = .fetch then some (permission 5#4 a.va) else none)
  | .peer _ low =>
    if a.kind = .atomic || a.kind = .reduce then some { code := 0x0B#8, tval := a.va }
    else if a.kind = .ramo then none
    else leased none

/-- An address lies in a scratchpad, through a core window or the gang window. -/
def inScratchpad (ia : Nat) : Bool :=
  match placeOf ia with
  | .sp _ _ => true
  | .gang _ _ => true
  | _ => false
/-- An address lies in a core window or the gang window (R315). -/
def inWindow (ia : Nat) : Bool :=
  match placeOf ia with
  | .sp _ _ | .acc _ _ | .ctl _ _ | .regw _ | .hole _ | .gang _ _ => true
  | _ => false

/-- The issue-time checks of an access, in the order of R210: the intermediate address, or the trap. -/
def checkAcc (s : State) (p : Nat) (t : Thread) (a : Acc) : Except Trap Nat :=
  match s.groupOf p t with
  | none => .error { code := 0x03#8, tval := a.va }
  | some g =>
    match s.launch? g.lid with
    | none => .error { code := 0x03#8, tval := a.va }
    | some l =>
      if a.va.toNat % a.align ≠ 0 then .error { code := 0x02#8, tval := a.va }
      else if a.stack && a.va.ult t.stklim then .error { code := 0x06#8, tval := a.va }
      else match spanFor g.spans a.va a.n with
        | none => .error { code := 0x03#8, tval := a.va }
        | some sp =>
          if (a.r && !sp.r) || (a.w && !sp.w) || (a.kind = .fetch && !sp.x) then .error (permission 1#4 a.va)
          else
            let ia := sp.ia a.va
            if (a.kind = .tagged || a.kind = .sync) && !inScratchpad ia then .error { code := 0x15#8, tval := a.va }
            else if a.kind = .xst && !inWindow ia then .error { code := 0x15#8, tval := a.va }
            else match regionCheck s p g l ia a with
              | some tr => .error tr
              | none => .ok ia

/-- The node an intermediate address is sent to, the address as the target sees it, and the generation that a gang-window
access carries (R43, R55, R56). -/
structure Route where
  node : Nat
  ia   : Nat
  gen  : Option Nat
deriving DecidableEq, Repr

/-- Egress agent toward the module at an offset: the first productive module direction, x before y, the shorter way round, ties to +
(R43, R78). -/
def State.egressToward (s : State) (ox oy : Nat) : Nat :=
  agentNode (if ox ≠ 0 then (if 2 * ox ≤ s.fw.torusW then 1 else 3) else if 2 * oy ≤ s.fw.torusH then 2 else 0) 5
/-- Egress agent for a peer device (R42, R43). -/
def State.egress (s : State) (dv : Nat) : Nat := s.egressToward ((dv + 1) % s.fw.torusW) ((dv + 1) / s.fw.torusW)

/-- The route of an address outside the gang window (R24, R43, R56). -/
def State.baseRoute (s : State) (ia : Nat) : Route :=
  match placeOf ia with
  | .sp q _ | .acc q _ | .ctl q _ | .regw q | .hole q => ⟨q, ia, none⟩
  | .mem off => ⟨homeNode off, ia, none⟩
  | .dev _ => ⟨mgmtNode, ia, none⟩
  | .peer dv _ => ⟨s.egress dv, ia, none⟩
  | .gang _ _ | .none => ⟨mgmtNode, ia, none⟩
/-- The route of an address that an access of a launch names; a gang-window address is resolved by its member's entry (R55). -/
def State.route (s : State) (lid ia : Nat) : Route :=
  match placeOf ia with
  | .gang m off =>
    match (s.launch? lid).bind fun l => s.gangEntry? l m with
    | some e =>
      let ia' := e.dev * 2 ^ 48 + 0x800000000000 + e.pos * 0x400000 + e.base * 4096 + off
      ⟨if e.dev = 0xFF then e.pos else s.egress e.dev, ia', some e.gen⟩
    | none => s.baseRoute ia
  | _ => s.baseRoute ia

/-- Scopes by width of reach: .g 0, .d 1, .v 2, .s 3 (R185). -/
def scopeNum : Scope → Nat
  | .g => 0
  | .d => 1
  | .v => 2
  | .s => 3

/-- The narrowest scope whose reach holds a target, seen from a core (R185). -/
def State.reachOf (s : State) (p : Nat) (ia : Nat) : Nat :=
  if ia / 2 ^ 48 % 256 ≠ 0xFF then 3
  else match placeOf ia with
    | .sp q _ => if q = p then 0 else if daleOf q = daleOf p then 1 else 2
    | .mem off => if (s.hostAddr? off).isSome then 3 else 2
    | _ => 2

end Sys2Proof.Machine
end

