-- ==== Sys2Proof/Machine/Digest.lean ====
section
/-! DEFINITION. The retirement digest (R140) and what a check run performs (R142). A group's digest is kept where it is ever
compared: in a sampled group and in a check run. -/
namespace Sys2Proof.Machine

/-- One bit of the ECMA-182 division. -/
def crcShift (c : Word) : Word := if c.getLsbD 63 then (c <<< 1) ^^^ 0x42F0E1EBA9EA3693#64 else c <<< 1
/-- One byte of lane A. -/
def crcByte (c : Word) (b : Byte) : Word :=
  crcShift (crcShift (crcShift (crcShift (crcShift (crcShift (crcShift (crcShift (c ^^^ (b ++ 0#56)))))))))
/-- The bits of a byte reversed. -/
def revByte (b : Byte) : Byte := b.reverse
/-- Feed bytes to both lanes of a thread. -/
def Thread.feed (t : Thread) (bs : List Byte) : Thread :=
  { t with digA := bs.foldl crcByte t.digA, digB := bs.foldl (fun c b => crcByte c (revByte b)) t.digB }
/-- An element of 24 bytes. -/
def digestElem (addr data : Word) (mask : Nat) (kind : Nat) (ext : Nat) : List Byte :=
  bytesOf addr 8 ++ bytesOf data 8 ++ [BitVec.ofNat 8 mask, BitVec.ofNat 8 kind] ++ bytesOfNat ext 6

/-- The record's ATTR byte. -/
def recAttr (r : List Byte) : Byte := r.getD 0x23 0#8
/-- The group keeps a digest that a check may compare (R141, R142). -/
def State.digests (s : State) (g : Group) : Bool :=
  g.check.isSome || ((recAttr g.record).getLsbD 3 && (s.launch? g.lid).any fun l => l.sample ≠ 0)
/-- The address lies in the group's own allocation: its offset from the base. -/
def ownOffset (hp : Nat) (g : Group) (ia n : Nat) : Option Nat :=
  match placeOf ia with
  | .sp q off => if q = hp && g.base ≤ off && off + n ≤ g.base + g.len then some (off - g.base) else none
  | _ => none
/-- The address field of an element: the chunk's virtual address, or its offset in the allocation with bit 63 set. -/
def chunkField (hp : Nat) (g : Group) (va : Word) (ia : Nat) : Word :=
  match ownOffset hp g ia 1 with
  | some o => BitVec.ofNat 64 (o / 8 * 8) ||| (1#64 <<< 63)
  | none => va &&& ~~~7#64
/-- An address as kinds 7 and 8 write it: the offset in the allocation with bit 63 set, or the virtual address. -/
def addrField (hp : Nat) (g : Group) (va : Word) : Word :=
  match spanFor g.spans va 1 with
  | some sp => match ownOffset hp g (sp.ia va) 1 with
    | some o => BitVec.ofNat 64 o ||| (1#64 <<< 63)
    | none => va
  | none => va
/-- Fold an effect of n bytes of one chunk. -/
def State.foldChunk (s : State) (p : Nat) (t : Thread) (g : Group) (va : Word) (ia n : Nat) (data : Word) (masked : Bool)
    (kind ext : Nat) : Thread :=
  if s.digests g then
    let sh := va.toNat % 8
    t.feed (digestElem (chunkField (t.homePos p) g va ia) (data <<< (8 * sh)) (if masked then (2 ^ n - 1) * 2 ^ sh else 0) kind ext)
  else t
/-- Fold an element given field by field (kinds 6 to 8). -/
def State.foldElem (s : State) (t : Thread) (g : Group) (addr data : Word) (kind ext : Nat) : Thread :=
  if s.digests g then t.feed (digestElem addr data 0xFF kind ext) else t

/-- What a check run does with an access (R142). -/
inductive CheckAct where
  | perform
  /-- folded into the digest and performed nowhere -/
  | foldOnly
  /-- ends the run as void -/
  | void
deriving DecidableEq, Repr

/-- An address lies in an IN lease of the launch (R142). -/
def inLease (l : Launch) (ia n : Nat) : Bool := l.leases.any fun e => e.inp && e.pages ≠ 0 && e.holds ia n
/-- The rule of R142 for an access: loads, other returning operations, effects. -/
def State.checkAct (s : State) (p : Nat) (t : Thread) (g : Group) (ia n : Nat) (load ret : Bool) : CheckAct :=
  if g.check.isNone then .perform
  else if (ownOffset (t.homePos p) g ia n).isSome then .perform
  else if load then
    match placeOf ia with
    | .mem _ => if (s.launch? g.lid).any fun l => inLease l ia n then .perform else .void
    | _ => .void
  else if ret then .void
  else .foldOnly
/-- End the issuing thread's check run as void (R142). -/
def State.voidRun (s : State) (t : Thread) (g : Group) : State :=
  (s.modGroup (t.homePos s.pos) g.gid fun g => { g with check := g.check.map fun k => { k with void := true } }).terminate
    (t.homePos s.pos) g.gid 0 0#8 t.idx t.pc 0#64

end Sys2Proof.Machine
end

