-- ==== Sys2Proof/Machine/Debug.lean ====
section
/-! DEFINITION. Debug stops: breakpoints, watchpoints, triggers and the stop broadcast (R219 to R224), and the wake-ups of
sleeping threads (R153, R396). -/
namespace Sys2Proof.Machine

/-- Let a thread issue again from its pc. -/
def Thread.wake (t : Thread) : Thread :=
  match t.run with
  | .sleeping _ => { t with run := .running, digNext := none, watchDue := [] }
  | _ => t
/-- Complete a sleeping instruction of 4 bytes; the element of a tagged operation enters the digest now (R140). -/
def Thread.finish (t : Thread) (now : Word) : Thread :=
  let lanes := t.digNext.getD (t.digA, t.digB)
  { t.wake.retired 4 now with digA := lanes.1, digB := lanes.2, digNext := none, watchDue := t.watchDue, wdPending := false }
/-- Change every thread of a core. -/
def Core.mapThreads (c : Core) (f : Nat → Thread → Thread) : Core := { c with threads := tblMap f c.threads }
/-- Wake the threads in `wfe` (R396): they complete. -/
def Core.wakeWfe (c : Core) (now : Word) : Core :=
  c.mapThreads fun _ t => match t.run with
    | .sleeping (.wfe _) => t.finish now
    | _ => t
/-- Wake the threads that wait for a phase of a barrier object; they issue `waitph` afresh (R153, R199). -/
def Core.wakePhase (c : Core) (off : Nat) (now : Word) : Core :=
  (c.wakeWfe now).mapThreads fun _ t => match t.run with
    | .sleeping (.phase o _) => if o = off then t.wake else t
    | _ => t
/-- Wake the threads in `waitph` whose object shows another phase than the one they wait through, whatever wrote it (R199). -/
def Core.wakePhases (c : Core) : Core :=
  c.mapThreads fun _ t => match t.run with
    | .sleeping (.phase o p) => if (wordOf (memRead c.sp (c.spPhys o) 8)).getLsbD 63 = p then t else t.wake
    | _ => t
/-- Wake the threads whose streams hold a deliverable entry (R388). -/
def Core.wakeEvents (c : Core) (stream : Nat) (now : Word) : Core :=
  (c.wakeWfe now).mapThreads fun _ t => match t.run with
    | .sleeping (.events m) => if m.getLsbD stream then t.wake else t
    | _ => t

/-- The group of a core that starts at a slot. -/
def Core.groupAt? (c : Core) (gslot : Nat) : Option Group := c.groups.find? fun g => g.lowSlot == gslot

/-- The threads of a group, wherever they run: position, slot, thread. -/
def State.threadsOf (s : State) (hp gid : Nat) : List (Nat × Nat × Thread) :=
  (s.cores.map fun pc => (pc.2.threads.filter fun st => st.2.group == gid && st.2.homePos pc.1 == hp).map fun st => (pc.1, st.1, st.2)).flatten
/-- The lowest-numbered of a group's threads, which are those that have not executed `texit` (R221): position and slot. -/
def State.lowestThread (s : State) (hp gid : Nat) : Option (Nat × Nat) :=
  ((s.threadsOf hp gid).foldl (fun (m : Option (Nat × Nat × Thread)) x => match m with
    | some y => if x.2.2.idx < y.2.2.idx then some x else m
    | none => some x) none).map fun x => (x.1, x.2.1)
/-- The skid of a group that its core has stopped: the sum over its threads, wherever they run (R222). -/
def State.groupSkid (s : State) (hp gid : Nat) : Nat := ((s.threadsOf hp gid).map fun x => x.2.2.skid).foldl (· + ·) 0
/-- The skid of the groups of a core that one stop stopped. -/
def State.stopSkid (s : State) (p trig : Nat) : Nat :=
  (((s.core p).groups.filter fun g => g.stopped == some trig).map fun g => s.groupSkid p g.gid).foldl (· + ·) 0
/-- Freeze a group: every thread of it is held, wherever it runs (R157, R218), and its STOP record and DBGSTAT.SKID hold the skid (R222,
R226). -/
def State.freeze (s : State) (hp gid trig : Nat) : State :=
  let stopT (p slot : Nat) (c : Core) (t : Thread) : Thread :=
    if t.group == gid && t.homePos p == hp && (tblGet? c.threads slot).isSome then { t.hold .stopped with lagging := false } else t
  let one (p : Nat) (c : Core) : Core :=
    let c' := c.threads.foldl (fun c' st => if st.2.group == gid && st.2.homePos p == hp then c'.dropWaits st.1 else c') c
    let c' := c'.leaveHeads fun slot => (tblGet? c'.threads slot).any fun t => t.group == gid && t.homePos p == hp
    c'.mapThreads fun slot t => stopT p slot c' t
  let s := { s with cores := tblMap one s.cores }
  let s := s.modGroup hp gid fun g => { g with stopped := some trig, lag := none, stepping := false, drain := 0, indet := 0, badList := [], stopAt := s.time }
  let s := (s.threadsOf hp gid).foldl (fun s x => s.traceStop x.1 x.2.1 x.2.2.skid) s
  let skid := min 65535 (s.stopSkid hp trig)
  s.modCore hp fun c => { c with dbgstat := (c.dbgstat &&& 0x0000FFFFFFFFFFFE#64) ||| 1#64 ||| (BitVec.ofNat 64 skid <<< 48) }
/-- A stop reaches the threads of a group: TSTOP is set and the skid counts from now (R222). -/
def State.markStop (s : State) (hp gid : Nat) : State :=
  let mark (p : Nat) (t : Thread) : Thread :=
    if t.group == gid && t.homePos p == hp then { t with skid := 0, tstop := s.time, lagging := true } else t
  { s with cores := tblMap (fun p (c : Core) => c.mapThreads fun _ t => mark p t) s.cores }
/-- A stop reaches a group, whose threads are marked. The group freezes when the clocks that the stop takes have
passed (R221, assumption 15). -/
def State.beginStop (s : State) (hp gid trig : Nat) : State :=
  let s := s.markStop hp gid
  if s.stopLag = 0 then s.freeze hp gid trig
  else s.modGroup hp gid fun g => { g with stopped := some trig, lag := some (s.coreClocks hp + min s.stopLag 200), stepping := false }

/-- Record a trigger in DBGSTAT: only the first one is kept (R221, R411). -/
def Core.recordTrigger (c : Core) (trig index gslot src : Nat) (seq : BitVec 16) : Core :=
  if (c.dbgstat.extractLsb' 1 4) = 0#4 then
    { c with dbgstat := (c.dbgstat &&& 0xFFFF000000000001#64) ||| BitVec.ofNat 64 (trig * 2 + index * 32 + gslot * 256 + src * 65536)
        ||| (seq.setWidth 64 <<< 32) }
  else c

/-- Positions that a stop broadcast reaches: the dale, or the containment rectangle with SCOPE 1 and WIDE (R219, R221). -/
def State.stopReach (s : State) (p : Nat) (scope : BitVec 2) : List Nat :=
  if scope = 2#2 then []
  else
    let all := (List.range 1024).filter fun q => q ≠ p && s.active q
    if scope = 1#2 && s.feature 3 then all.filter fun q => s.rectOf q = s.rectOf p else all.filter fun q => daleOf q = daleOf p

/-- The root of the tree on which a stop goes out: the dale's, or the containment rectangle's (R45, R221). -/
def State.stopRoot (s : State) (p : Nat) (scope : BitVec 2) : Nat :=
  if scope = 1#2 && s.feature 3 then s.rectRoot p else daleRoot (daleOf p)
/-- The core at a position answers a stop: its router acknowledges when it may (R45). -/
def State.stopAnswer (s : State) (p trig skid groups : Nat) : State :=
  match s.fw.stops.find? fun (x : StopOp) => x.trig == trig with
  | none => s
  | some x =>
    let t := x.tree.answered p (skid, groups)
    let s := s.modFw fun w => { w with stops := w.stops.map fun z => if z == x then { x with tree := t } else z }
    if t.ready p then { s with ctl := s.ctl ++ [.stopAck p trig (t.sum p).1 (t.sum p).2] } else s
/-- Answer the stops whose groups a core has frozen: the skid sum and the number of groups (R221). -/
def State.answerStops (s : State) (p : Nat) : State :=
  let c := s.core p
  let ripe (x : Nat × Nat) : Bool := !c.groups.any fun g => g.stopped == some x.1 && g.lag.isSome
  (c.stopOwed.filter ripe).foldl (fun s x => s.stopAnswer p x.1 (s.stopSkid p x.1) x.2) (s.modCore p fun c => { c with stopOwed := c.stopOwed.filter fun x => !ripe x })
/-- A core owes the answer to a stop of a number that stopped some groups of it; it answers at once when they are frozen. -/
def State.oweStop (s : State) (p trig groups : Nat) : State :=
  (s.modCore p fun c => { c with stopOwed := c.stopOwed ++ [(trig, groups)] }).answerStops p
/-- A trigger on a group of a core (R221); `thread` is the one that matched, where it runs, and for an arriving access none. -/
def State.trigger (s : State) (p gid trig index src : Nat) (seq : BitVec 16) (thread : Option (Nat × Nat)) : State :=
  match (s.core p).group? gid with
  | none => s
  | some g =>
    let c := s.core p
    let s := s.modCore p fun c => c.recordTrigger trig index g.lowSlot src seq
    if g.stopped.isSome then s
    else
      let at? := thread <|> s.lowestThread p gid
      let th := match at? with
        | some x => (s.thread? x.1 x.2).any (·.th)
        | none => false
      if c.dbgctl.getLsbD 1 && !th && trig ≠ 5 then
        match at? with
        | some x => s.modThread x.1 x.2 fun t => { t with dbgTrap := some (BitVec.ofNat 64 (trig + index * 16)) }
        | none => s
      else
        let n := s.fw.nextTrig
        let scope := c.dbgctl.extractLsb' 2 2
        let reach := s.stopReach p scope
        let s := s.beginStop p gid n
        let s := match thread with
          | some x => if trig = 1 ∨ trig = 4 then s.modThread x.1 x.2 fun t => { t.hold .stopped with lagging := false } else s
          | none => s
        let s := { s with ctl := s.ctl ++ reach.map fun q => CtlMsg.stop q g.lid p g.lowSlot n s.time, fw := { s.fw with nextTrig := n + 1 } }
        if reach.isEmpty then s
        else (s.modFw fun w => { w with stops := w.stops ++ [{ trig := n, tree := AckTree.over (s.stopRoot p scope) (setIns reach p), cmd := none }] }).oweStop p n 1

/-- The group field of DBGMATCH that belongs to a breakpoint or watchpoint matches a group (R219). -/
def Core.fieldMatches (c : Core) (k gslot : Nat) : Bool :=
  let f := c.dbgmatch.extractLsb' (5 * k) 5
  f.getLsbD 4 || (f.extractLsb' 0 4).toNat = gslot

/-- The breakpoint that matches a pc in a group, if any (R220). -/
def Core.breakAt (c : Core) (pc : Word) (gslot : Nat) : Option Nat :=
  if !c.dbgctl.getLsbD 0 then none
  else (List.range 4).find? fun k =>
    let b := c.bp.toList.getD k 0#64
    b.getLsbD 0 && b &&& ~~~1#64 = pc && c.fieldMatches k gslot

/-- The watched word of a watchpoint. -/
def wpWord (w : Word) : Nat := ((w.extractLsb' 3 53).toNat) * 8
/-- Watchpoints of a core that an access touches (R220). -/
def Core.watchHits (c : Core) (ia n : Nat) (rd wr : Bool) : List Nat :=
  if !c.dbgctl.getLsbD 0 then []
  else (List.range 2).filter fun k =>
    let w := c.wp.toList.getD k 0#64
    w.getLsbD 0 && ((rd && w.getLsbD 1) || (wr && w.getLsbD 2)) && wpWord w < ia + n && ia < wpWord w + 8

/-- Watchpoints that an access of a thread matches at issue: those of its group's core whose field names the group (R220). -/
def State.watchesOf (s : State) (p : Nat) (t : Thread) (ia n : Nat) (rd wr : Bool) : List Nat :=
  match s.groupOf p t with
  | none => []
  | some g =>
    let c := s.core (t.homePos p)
    (c.watchHits ia n rd wr).filter fun k => c.fieldMatches (4 + k) g.lowSlot
/-- The trigger of a watchpoint that matched at issue (TRIG 2). -/
def State.watchHit (s : State) (p slot : Nat) (t : Thread) (k ia : Nat) : State :=
  (s.traceWatch p slot k p (BitVec.ofNat 64 ia)).trigger (t.homePos p) t.group 2 k p 0#16 (some (p, slot))
/-- Watchpoints at issue: an access of a matching group, after its instruction. -/
def State.watchIssue (s : State) (p slot : Nat) (t : Thread) (ia n : Nat) (rd wr : Bool) : State :=
  (s.watchesOf p t ia n rd wr).foldl (fun s k => s.watchHit p slot t k ia) s
/-- The thread sleeps for the access it has just issued: a watchpoint's trigger follows its retirement (R220). -/
def State.watchLater (s : State) (p slot : Nat) (t : Thread) (ia n : Nat) (rd wr : Bool) : State :=
  let l := s.watchesOf p t ia n rd wr
  if l.isEmpty then s else s.modThread p slot fun t => { t with watchDue := l.map fun k => (k, ia) }
/-- The triggers of a thread whose instruction has retired. -/
def State.watchRetired (s : State) (p slot : Nat) : State :=
  match s.thread? p slot with
  | none => s
  | some t =>
    let done : Bool := t.arrived.isNone && (match t.run with
      | .sleeping _ => false
      | _ => true)
    if done then t.watchDue.foldl (fun s x => s.watchHit p slot t x.1 x.2) (s.setThread p slot { t with watchDue := [] }) else s
/-- The triggers that instructions which slept bring as they retire (R220). -/
def State.settleWatches (s : State) : State :=
  s.cores.foldl (fun s pc => (pc.2.threads.filter fun st => !st.2.watchDue.isEmpty).foldl (fun s st => s.watchRetired pc.1 st.1) s) s

/-- Watchpoints at the bank: an arriving access to the core's own scratchpad (TRIG 3). The group field names the group that
stops; "any group" names each of the core's groups. -/
def State.watchBank (s : State) (p off n : Nat) (rd wr : Bool) (src : Nat) (seq : BitVec 16) : State :=
  ((s.core p).watchHits (spIa p off) n rd wr).foldl (fun s k =>
      let s := s.traceWatch p 0 k src (BitVec.ofNat 64 (spIa p off))
      ((s.core p).groups.filter fun g => (s.core p).fieldMatches (4 + k) g.lowSlot).foldl
        (fun s g => s.trigger p g.gid 3 k src seq none) s) s

end Sys2Proof.Machine
end

