-- ==== Sys2Proof/Machine/Inbox.lean ====
section
/-! DEFINITION. The inbox (R173 to R175, R407), its system records, and the deque's owner operations (R110, R111). -/
namespace Sys2Proof.Machine

/-- Stream of an entry. -/
def Entry.stream : Entry → Nat
  | .event k _ _ _ _ _ _ => k
  | .record _ _ => 15
/-- Virtual time of an entry: a record's Virtual time field (R128). -/
def Entry.vt : Entry → BitVec 32
  | .event _ _ v _ _ _ _ => v
  | .record r _ => r.extractLsb' 32 32
/-- Arrival order. -/
def Entry.at : Entry → Nat
  | .event _ _ _ _ _ _ a => a
  | .record _ a => a

/-- The signed 32-bit value of units. -/
def unitsInt (u : BitVec 32) : Int := u.toInt
/-- Units summed with the limits of R174, and whether a limit was met. -/
def addUnits (a b : BitVec 32) : BitVec 32 × Bool :=
  let s := unitsInt a + unitsInt b
  if s > 0x7FFFFFFF then (0x7FFFFFFF#32, true)
  else if s < -0x7FFFFFFF then (0x80000001#32, true)
  else (BitVec.ofInt 32 s, false)
/-- Coalesce an event into the entry of its key (R173, R174). -/
def coalesce (stream index : Nat) (vt units : BitVec 32) : List Entry → Option (List Entry × Bool)
  | [] => none
  | .event k i v u src q a :: t =>
    if k = stream && i = index && v = vt then
      let r := addUnits u units
      some (.event k i v r.1 src q a :: t, r.2)
    else (coalesce stream index vt units t).map fun x => (.event k i v u src q a :: x.1, x.2)
  | .record r a :: t => (coalesce stream index vt units t).map fun x => (.record r a :: x.1, x.2)

/-- A saturating 32-bit count. -/
def satInc (n : BitVec 32) : BitVec 32 := if n = BitVec.allOnes 32 then n else n + 1#32

/-- A free entry may be used for a stream: RES15 entries are kept for stream 15, and reserved entries are not free (R173, R175). -/
def Core.inboxFree (c : Core) (stream : Nat) : Bool :=
  let used := c.inbox.length + c.reserved.length
  let plain := (c.inbox.filter fun e => e.stream ≠ 15).length + (c.reserved.filter fun x => !x.sys).length
  if stream = 15 then used < c.inbCap else used < c.inbCap && plain < c.inbCap - c.inbRes15

/-- What the inbox answers (R174). -/
inductive InboxAns where | ack | full
deriving DecidableEq, Repr

/-- Refuse a source: FULL, and its place on the refusal list of 64 (R174, R175). -/
def Core.refuse (c : Core) (src : Nat) (sys : Bool) : Core :=
  { c with inbNacks := satInc c.inbNacks,
           refusals := if c.refusals.length < 64 && !c.refusals.contains (src, sys) then c.refusals ++ [(src, sys)] else c.refusals }

/-- The event slots that hold an event refused with FULL (R176). -/
def Core.hasRetry (c : Core) : Bool := c.evSlots.any fun v => v.retry
/-- The unbounded state (R130): no work, and every thread on the core, hosted ones among them, and of its groups elsewhere, in `evwait`. -/
def Core.unbounded (c : Core) : Bool :=
  let asleep : Bool := c.threads.all fun st => match st.2.run with
    | .sleeping (.events _) => true
    | _ => false
  c.deque.isEmpty && c.spill.isEmpty && !c.holdsWork && asleep &&
    (c.lid = 0 || c.groups.isEmpty || (c.inbox.isEmpty && !c.hasRetry && !c.awayAwake))
/-- A core that was unbounded and is so no longer, through no work packet and no `evnext`, rises to the published GVT (R126, R130). -/
def Core.risen (was c : Core) : Core := if was.unbounded && !c.unbounded && c.vtime.ult c.gvt then { c with vtime := c.gvt } else c

/-- An arriving event or record of a source meets the inbox: coalesce, take an entry, or be refused (R174, R175). The second
component says whether a reservation of the source ended. -/
def Core.inboxPut (c : Core) (src : Nat) (e : Entry) : Core × InboxAns × Bool :=
  let sys := e.stream == 15
  let isMine (x : Reservation) : Bool := x.src == src && x.sys == sys
  let reservedFor := c.reserved.any isMine
  let c0 := if reservedFor then { c with reserved := c.reserved.filter fun x => !isMine x } else c
  let merged := match e with
    | .event k i v u _ _ _ => coalesce k i v u c.inbox
    | .record _ _ => none
  match merged with
  | some (l, ovf) => ({ c0 with inbox := l, inbOvf := c.inbOvf || ovf }, .ack, reservedFor)
  | none =>
    if reservedFor || (c.inboxFree e.stream && c.refusals.isEmpty && c.reserved.isEmpty) then
      (c.risen { c0 with inbox := c0.inbox ++ [e], arrivals := c.arrivals + 1 }, .ack, false)
    else (c.refuse src sys, .full, false)

/-- A response packet that names no request: a space notice to a source. -/
def spacePacket (p src : Nat) (seq : BitVec 16) : Packet :=
  { src := p, dst := src, seq := seq, ns := true, retry := false, peer := false, vt := 0#32, colour := false, lid := 0, gen := none,
    body := .space }
/-- An entry has freed: a held GVT record is written, or the entry is reserved for the first refused source that may use it, which gets a
space notice (R133, R173, R175, R407; assumption 80). A held INBCTL write takes effect when the inbox is empty (R180). -/
def State.inboxFreed (s : State) (p : Nat) : State :=
  let c := s.core p
  match c.heldGvt with
  | some r =>
    if c.inboxFree 15 then
      s.setCore p ((c.risen { c with heldGvt := none, inbox := c.inbox ++ [Entry.record r c.arrivals], arrivals := c.arrivals + 1 }).wakeEvents 15 s.time)
    else s
  | none =>
    match c.refusals.find? fun x => c.inboxFree (if x.2 then 15 else 0) with
    | none => s
    | some x =>
      let c := { c with refusals := c.refusals.erase x, reserved := c.reserved ++ [{ src := x.1, sys := x.2, at0 := s.time }] }
      let q := (s.setCore p c).nextNs p x.1
      { q.2 with net := q.2.net ++ [spacePacket p x.1 q.1] }

/-- The core writes a record of its own to stream 15; with no free entry it waits as a refused source, beside the slots that `evsend` and
`vsdq` use (R174, R176; assumption 80). -/
def State.ownRecord (s : State) (p : Nat) (r : BitVec 128) : State :=
  let c := s.core p
  let x := c.inboxPut p (Entry.record r c.arrivals)
  match x.2.1 with
  | .ack => s.setCore p (x.1.wakeEvents 15 s.time)
  | .full => s.setCore p (x.1.risen { x.1 with evSlots := x.1.evSlots ++ [{ dst := p, body := .record r, retry := true, slot := 0, at0 := s.time }] })

/-- The GVT record of a core (R133); a newer one replaces a held one. -/
def State.gvtRecord (s : State) (p : Nat) (g round : BitVec 32) : State :=
  let r : BitVec 128 := 0#32 ++ round ++ g ++ 0#8 ++ 15#4 ++ 0#12 ++ 0x25#8
  let c := s.core p
  if c.heldGvt.isNone && c.inboxFree 15 then
    s.setCore p ((c.risen { c with inbox := c.inbox ++ [Entry.record r c.arrivals], arrivals := c.arrivals + 1 }).wakeEvents 15 s.time)
  else s.setCore p { c with heldGvt := some r }

/-- The entry that `evnext` takes under a mask of streams: lowest virtual time, then first arrival (R128). -/
def bestEntry (mask : BitVec 16) (l : List Entry) : Option Entry :=
  l.foldl (fun best e =>
    if !mask.getLsbD e.stream then best
    else match best with
      | none => some e
      | some b => if e.vt.ult b.vt || (e.vt == b.vt && e.at < b.at) then some e else some b) none

/-! ## The deque -/

/-- Room for one more record (R111). -/
def Core.dequeRoom (c : Core) : Bool := c.deque.length + c.spill.length < 4096
/-- Thieving ends: the round is over, and nothing of it goes on (R112). -/
def Core.endThieving (c : Core) : Core := { c with emptyRnd := 0, backoff := false, thieving := false, victims := [], draws := 0 }
/-- Push at the top; a full local part first moves its 32 bottom records onto the spill part, or as many as the spill part has room for
(R111, assumption 82). Thieving ends (R112). -/
def Core.push (c : Core) (r : List Byte) (mark : Option (Nat × Bool)) : Core :=
  let n := if c.deque.length < 64 then 0 else min 32 (4032 - c.spill.length)
  { c.endThieving with spill := c.spill ++ c.deque.take n, deque := c.deque.drop n ++ [(r, mark)] }
/-- Move the top spilled records beneath the local ones (R111). -/
def Core.refill (c : Core) : Core :=
  let n := if c.spill.length < 32 then c.spill.length else 32
  { c with spill := c.spill.take (c.spill.length - n), deque := c.spill.drop (c.spill.length - n) ++ c.deque }
/-- The top record, refilling first (R111). -/
def Core.top? (c : Core) : Option (List Byte × Option (Nat × Bool)) :=
  match c.deque.getLast? with
  | some r => some r
  | none => c.spill.getLast?
/-- Remove the top record. -/
def Core.pop (c : Core) : Core :=
  let c := if c.deque.isEmpty then c.refill else c
  { c with deque := c.deque.dropLast }
/-- The lowest record of a list that is not a check record, and the rest. -/
def takeBottom : List (List Byte × Option (Nat × Bool)) → Option (List Byte × List (List Byte × Option (Nat × Bool)))
  | [] => none
  | (r, none) :: t => some (r, t)
  | (r, some m) :: t => (takeBottom t).map fun x => (x.1, (r, some m) :: x.2)
/-- Remove the bottom record that is not a check record, from the spill part first (R111, R112). -/
def Core.stealBottom (c : Core) : Option (List Byte × Core) :=
  match takeBottom c.spill with
  | some (r, l) => some (r, { c with spill := l })
  | none => match takeBottom c.deque with
    | some (r, l) => some (r, { c with deque := l })
    | none => none

end Sys2Proof.Machine
end

