-- ==== Sys2Proof/Machine/Bank.lean ====
section
/-! DEFINITION. The scratchpad bank: ownership (R54, R55), plain, atomic and tagged operations with the wait table (R159, R160),
exchange stores (R162), dependence decrements (R115) and barrier objects (R198); reported faults (R72) and poison (R146). -/
namespace Sys2Proof.Machine

/-! ## Reported faults and poison -/

/-- A fault reported by a completion (R72, R212): held until the thread's boundary; the first is kept and MORE tells of further
ones; a fault of an access issued while TH was 1 terminates the group. -/
def State.reportFault (s : State) (p slot : Nat) (handler : Bool) (tr : Trap) : State :=
  match s.thread? p slot with
  | none => s
  | some t =>
    if handler then s.terminate (t.homePos p) t.group 3 tr.code t.idx t.pc tr.tval
    else match t.held with
      | none => s.setThread p slot { t with held := some { tr with async := true } }
      | some _ => s.setThread p slot { t with heldMore := true }

/-- Begin the containment of the rectangle that holds a core (R147 step 1): the trap goes to the containment log, its threads halt and the
management core is told. Further poison is absorbed (R148). -/
def State.beginContain (s : State) (p : Nat) (slot : Option Nat) (va : Word) : State :=
  let i := s.rectOf p
  if (s.fw.rects.toList[i]?).any (·.active) then s
  else
    let note : ContainNote := { pos := p, slot := slot, epc := ((slot.bind (s.thread? p)).map (·.pc)).getD 0#64, tval := va, time := s.time }
    let s := s.modFw fun w => { w with containLog := w.containLog ++ [note] }
    let s := s.modRect i fun r => { r with active := true, lastPos := p, ctime := s.time }
    let s := s.modCore p fun c => (c.threads.foldl (fun c st => c.dropWaits st.1) c).mapThreads fun _ t => t.hold .halted
    { s with ctl := s.ctl ++ [.contain p] }

/-- Poison consumed into architectural state (R146): counted, then trap 0x0A under policy 0 or containment under policy 1.
`now` says that the trap is raised at the instruction itself. -/
def State.consumePoison (s : State) (p slot : Nat) (now handler : Bool) (va : Word) : State :=
  let s := s.modRect (s.rectOf p) fun r => { r with pcons := r.pcons + 1 }
  if s.policy1 p then s.beginContain p (some slot) va
  else if now then s.takeTrap p slot { code := 0x0A#8, tval := va }
  else s.reportFault p slot handler { code := 0x0A#8, tval := va }

/-! ## The L1 as a copy (R164, R189) -/

/-- A line meets a range of intermediate addresses. -/
def lineMeets (line ia n : Nat) : Bool := ia < (line + 1) * 128 && line * 128 < ia + n
/-- A fill on its way to a core for a line that a test names is not kept: its value was current before the invalidation. -/
def Req.noFill (p : Nat) (f : Nat → Bool) (r : Req) : Req :=
  match r.use with
  | .load rd n sg off (some line) lru => if r.src = p && f line then { r with use := .load rd n sg off none lru } else r
  | .recWord off (some line) => if r.src = p && f line then { r with use := .recWord off none } else r
  | .vload x v e at0 n off (some line) => if r.src = p && f line then { r with use := .vload x v e at0 n off none } else r
  | .vloadq x j qc off (some line) => if r.src = p && f line then { r with use := .vloadq x j qc off none } else r
  | _ => r
/-- Invalidate the L1 lines of a core that a test names, with the fills in flight (R164, R189, R192). -/
def State.l1Inv (s : State) (p : Nat) (f : Nat → Bool) : State :=
  { (s.modCore p fun c => { c with l1 := c.l1.filter fun e => !f e.1 }) with reqs := s.reqs.map (Req.noFill p f) }
/-- Invalidate the L1 lines of a range of intermediate addresses. -/
def State.l1Drop (s : State) (p ia n : Nat) : State := s.l1Inv p fun line => lineMeets line ia n
/-- Invalidate the whole L1. -/
def State.l1Clear (s : State) (p : Nat) : State := s.l1Inv p fun _ => true
/-- Regions bound to a sync object by a group (R188). -/
def Group.bound (g : Group) (sync : Nat) : List Binding := g.binds.filter fun b => b.sync == sync
/-- The acquire's invalidation (R189); a hosted nomad's acquire invalidates the whole L1 (R191). -/
def State.acquire (s : State) (p : Nat) (g : Group) (hosted : Bool) (sync : Nat) : State :=
  s.l1Inv p fun line => hosted || (g.bound sync).any fun b => lineMeets line b.region (2 ^ b.log2)

/-! ## Ownership -/

/-- Whether an access to scratchpad bytes reaches bytes of a live group of its launch (R54), with the generation that a
gang-window access carries (R55). The management core and the host carry launch 0. -/
def Core.ownership (c : Core) (lid : Nat) (gen : Option Nat) (off n : Nat) : Answer :=
  if lid = 0 then .ok
  else if c.lid ≠ lid && gen.isNone then .fault 0x04#8 5#4
  else if c.exEn && 0x30000 ≤ off && off < 0x38000 then .ok
  else match c.groups.find? fun g => g.base ≤ off && off + n ≤ g.base + g.len with
    | some g =>
      match gen with
      | none => if g.heldExit then .fault 0x07#8 0#4 else .ok
      | some k => if g.gen ≠ k || g.detached || g.heldExit then .fault 0x07#8 0#4 else .ok
    | none =>
      if gen.isSome || c.departed.any fun d => d.1 ≤ off && off + n ≤ d.1 + d.2.1 then .fault 0x07#8 0#4
      else .fault 0x04#8 5#4

/-! ## Arithmetic of atomics and reductions -/

/-- The new value of an atomic at a width of w bits (R316). -/
def amoVal {w : Nat} (op : AmoOp) (old b : BitVec w) : BitVec w :=
  match op with
  | .add => old + b
  | .and => old &&& b
  | .or => old ||| b
  | .xor => old ^^^ b
  | .min => if old.slt b then old else b
  | .max => if old.slt b then b else old
  | .minu => if old.ult b then old else b
  | .maxu => if old.ult b then b else old
  | .swap => b
/-- The atomic that a reduction applies (R319). -/
def redAmo : RedOp → AmoOp
  | .add => .add
  | .min => .min
  | .max => .max
  | .and => .and
  | .or => .or
  | .xor => .xor
/-- Bytes of an atomic's width. -/
def atomBytes : AtomWidth → Nat
  | .w => 4
  | .d => 8
/-- The new word of an atomic: at 32 bits on the low half. -/
def amoWord (w : AtomWidth) (op : AmoOp) (old b : Word) : Word :=
  match w with
  | .d => amoVal op old b
  | .w => (amoVal op (old.extractLsb' 0 32) (b.extractLsb' 0 32)).setWidth 64
/-- sext(old, W) (R316). -/
def atomExt (w : AtomWidth) (v : Word) : Word :=
  match w with
  | .d => v
  | .w => (v.extractLsb' 0 32).signExtend 64
/-- A word truncated to an atomic's width. -/
def atomTrunc (w : AtomWidth) (v : Word) : Word :=
  match w with
  | .d => v
  | .w => (v.extractLsb' 0 32).setWidth 64

/-! ## Tags and the wait table -/

/-- Answer a request packet: its NS and SEQ, addressed to its source (R36). -/
def replyTo (node dst : Nat) (ns : Bool) (seq : BitVec 16) (b : Body) : Packet :=
  { src := node, dst := dst, seq := seq, ns := ns, retry := false, peer := false, vt := 0#32, colour := false, lid := 0, gen := none, body := b }
/-- Entries of a node's retained-reply store: 512 of a core or an I/O agent, 2,048 of a slice bank (R37). -/
def retainMax (node : Nat) : Nat := if 0x400 ≤ node && node < 0x800 then 2048 else 512
/-- Keep a reply. -/
def State.retain (s : State) (node src : Nat) (seq : BitVec 16) (b : Body) : State :=
  let nd := s.node node
  s.setNode node { nd with replies := ((src, seq, b) :: nd.replies).take (retainMax node) }

/-- The word of a scratchpad by its physical number. -/
def Core.word (c : Core) (w : Nat) : Word := wordOf (memRead c.sp (w * 8) 8)
/-- Whether the tag satisfies an operation. -/
def tagReady (op : TagOp) (full : Bool) : Bool :=
  match op with
  | .lwf | .take => full
  | .put => !full
  | _ => true
/-- Perform a tagged operation on a word: the core, and the word read with its poison (R159, R314). `empty` leaves poison as R314 says,
where R159 says that it clears it (assumption 84). -/
def Core.tagDo (c : Core) (w : Nat) (op : TagOp) (b : Word) : Core × Word × Bool :=
  let v := c.word w
  let pz := c.poisoned.contains w
  match op with
  | .lwf => (c, v, pz)
  | .take => ({ c with full := setDel c.full w }, v, pz)
  | .tagq => (c, oneWord (c.full.contains w), false)
  | .empty => ({ c with full := setDel c.full w }, 0#64, false)
  | .put | .fill => ({ c.spStorePhys (w * 8) (bytesOf b 8) false with full := setIns c.full w }, 0#64, false)
where
  /-- The tag as a word. -/
  oneWord (f : Bool) : Word := if f then 1#64 else 0#64

/-- The reply of a tagged operation: data for those that return a word. -/
def tagReply (op : TagOp) (v : Word) (pz : Bool) : Body :=
  match op with
  | .lwf | .take | .tagq => .data (bytesOf v 8) (if pz then .poison else .ok)
  | _ => .ack false .ok

/-- The offset by which programs name a physical word of the active half (R162). -/
def Core.spLogical (c : Core) (w : Nat) : Nat := if c.exEn && 0x38000 ≤ w * 8 then w * 8 - 0x8000 else w * 8
/-- The address of the `lwf` or `take` at which a thread sleeps, from the instruction it holds (R261, R314). -/
def Thread.heldVa (t : Thread) : Word := t.rx (t.ir.extractLsb' 12 5) + (t.ir.extractLsb' 20 12).signExtend 64
/-- Grant a local thread its tagged operation: the destination is written, the acquire takes effect, the instruction retires
(R160, R189). -/
def State.grantLocal (s : State) (p slot : Nat) (rd : Reg) (op : TagOp) (w : Nat) (v : Word) (pz : Bool) : State :=
  match s.thread? p slot with
  | none => s
  | some t =>
    let t1 := if op = .put || pz then t else t.wx rd v
    let s1 := s.setThread p slot (t1.finish s.time)
    let s2 := match s.groupOf p t with
      | some g =>
        if op = .put || pz then s1
        else s1.acquire p g t.home.isSome (spIa p ((s.core p).spLogical w))
      | none => s1
    if pz then s2.consumePoison p slot false t.th t.heldVa else s2

/-- One pass of R160: the oldest entry on the word whose condition the tag satisfies is performed and leaves, until none is
left. Each grant removes an entry, so the table's length bounds the pass. -/
def State.grants (s : State) (p w : Nat) : Nat → State
  | 0 => s
  | n + 1 =>
    let c := s.core p
    match c.waits.find? fun e => e.word == w && tagReady e.op (c.full.contains w) with
    | none => s
    | some e =>
      let r := c.tagDo w e.op e.data
      let s1 := s.setCore p { r.1 with waits := r.1.waits.erase e }
      let s2 := match e.slot with
        | some (slot, rd) => s1.grantLocal p slot rd e.op w r.2.1 r.2.2
        | none =>
          let b := tagReply e.op r.2.1 r.2.2
          State.watchBank { (s1.retain p e.node e.seq b) with net := s1.net ++ [replyTo p e.node e.ns e.seq b] } p (c.spLogical w) 8 false true e.node e.seq
      s2.grants p w n
/-- The tag of a word has changed: waiters are granted, and `wfe` sleepers of the core complete (R160, R396). -/
def State.tagChanged (s : State) (p w : Nat) : State :=
  (s.modCore p fun c => c.wakeWfe s.time).grants p w ((s.core p).waits.length + 1)

/-! ## The bank -/

/-- Who asks: a local slot with its destination, or a node with the NS and SEQ of its request. -/
structure Who where
  slot : Option (Nat × Reg)
  node : Nat
  ns   : Bool
  seq  : BitVec 16
deriving DecidableEq, Repr

/-- How the bank answers. -/
inductive Did where
  | done (ans : Answer) (data : List Byte)
  /-- a wait-table entry is taken (R160) -/
  | waits
  | busy
deriving DecidableEq, Repr

/-- Push a fired record onto the core's own deque (R115). -/
def State.pushOwn (s : State) (p : Nat) (r : List Byte) : State := s.modCore p fun c => c.push r none

/-- An update of a word that the bank makes in place: it is no store, so the word's poison stays (R159). -/
def Core.spUpdate (c : Core) (phys : Nat) (bs : List Byte) : Core := { c with sp := memWrite c.sp phys bs }

/-- A dependence decrement at its bank (R115), without the tag. -/
def State.tdecAt (s : State) (p phys k : Nat) : State × Did :=
  let c := s.core p
  let v := wordOf (memRead c.sp phys 8)
  let count := (v.extractLsb' 0 32).toInt
  if v.getLsbD 32 || count ≤ 0 then
    (s.setCore p (c.spUpdate phys (bytesOf (v ||| (1#64 <<< 33)) 8)), .done .ok [])
  else
    let n := BitVec.ofInt 32 (count - k)
    let low : Word := v &&& 0xFFFFFFFF00000000#64 ||| n.setWidth 64
    if n.toInt ≤ 0 then
      if !c.dequeRoom then (s, .busy)
      else
        let w := (if n.toInt < 0 then low ||| (1#64 <<< 33) else low) ||| (1#64 <<< 32)
        let c := c.spUpdate phys (bytesOf w 8)
        ((s.setCore p c).pushOwn p (memRead c.sp (phys + 64) 64), .done .ok [])
    else (s.setCore p (c.spUpdate phys (bytesOf low 8)), .done .ok [])

/-- A barrier object's update (R198): counts fall, and at zero the phase flips and the companion's counts are loaded. The tag
is unchanged; sleepers on the phase wake. -/
def State.barrierUpdate (s : State) (p off nbytes narr : Nat) : State :=
  let c := s.core p
  let phys := c.spPhys off
  let v := wordOf (memRead c.sp phys 8)
  let bytes := (v.extractLsb' 0 40).toNat - nbytes
  let arr := (v.extractLsb' 40 16).toNat - narr
  if bytes = 0 ∧ arr = 0 then
    let comp := wordOf (memRead c.sp (phys + 8) 8)
    let w := (v ^^^ (1#64 <<< 63)) &&& 0xFF00000000000000#64 ||| (comp.extractLsb' 0 56).setWidth 64
    s.setCore p ((c.spUpdate phys (bytesOf w 8)).wakePhase off s.time)
  else
    let w := v &&& 0xFF00000000000000#64 ||| BitVec.ofNat 64 (arr * 2 ^ 40 + bytes)
    s.setCore p (c.spUpdate phys (bytesOf w 8))

/-- Put a tagged operation into the wait table, which keeps 16 entries for local threads (R160). -/
def State.waitAt (s : State) (p w : Nat) (op : TagOp) (b : Word) (who : Who) : State × Did :=
  let c := s.core p
  let remote := (c.waits.filter fun e => e.slot.isNone).length
  if c.waits.length ≥ 64 || (who.slot.isNone && remote ≥ 48) then (s, .busy)
  else
    (s.setCore p { c with waits := c.waits ++ [{ word := w, op := op, data := b, slot := who.slot, node := who.node, ns := who.ns, seq := who.seq }] },
     .waits)

/-- A tagged operation at its bank (R314). -/
def State.taggedAt (s : State) (p off : Nat) (op : TagOp) (b : Word) (who : Who) : State × Did :=
  let c := s.core p
  let w := c.spPhys off / 8
  if !tagReady op (c.full.contains w) then s.waitAt p w op b who
  else
    let r := c.tagDo w op b
    let s := s.setCore p r.1
    let s := if r.1.full.contains w = c.full.contains w then s else s.tagChanged p w
    (s, .done (if r.2.2 then .poison else .ok) (match op with
      | .lwf | .take | .tagq => bytesOf r.2.1 8
      | _ => []))

/-- An atomic on stored bytes: the new bytes, or none where a `cas` fails. -/
def atomicBytes (b : Body) (old : Word) : Option (List Byte) :=
  match b with
  | .atomic _ w op v => some (bytesOf (amoWord w op old v) (atomBytes w))
  | .cas _ w e v => if atomTrunc w old = atomTrunc w e then some (bytesOf v (atomBytes w)) else none
  | .reduce _ w op v => some (bytesOf (amoWord w (redAmo op) old v) (atomBytes w))
  | _ => none

/-- A request at a scratchpad bank, after its ownership check (R158, R159, R182). -/
def State.bankDo (s : State) (p off : Nat) (b : Body) (who : Who) : State × Did :=
  let c := s.core p
  let phys := c.spPhys off
  match b with
  | .read _ n => (s, .done (if c.spPoison off n then .poison else .ok) (c.spRead off n))
  | .bulkRead _ n => (s, .done (if c.spPoison off n then .poison else .ok) (c.spRead off n))
  | .write _ data pz => (s.setCore p (c.spStorePhys phys data pz), .done .ok [])
  | .bulkWrite _ data pz => (s.setCore p (c.spStorePhys phys data pz), .done .ok [])
  | .atomic _ w _ _ | .cas _ w _ _ =>
    if c.spPoison off (atomBytes w) then (s, .done .poison [])
    else
      let old := memRead c.sp phys (atomBytes w)
      let s := match atomicBytes b (wordOf old) with
        | some bs => s.setCore p (c.spStorePhys phys bs false)
        | none => s
      (s, .done .ok old)
  | .reduce _ w _ _ =>
    if c.spPoison off (atomBytes w) then (s.countDrop p, .done .ok [])
    else
      let old := memRead c.sp phys (atomBytes w)
      (match atomicBytes b (wordOf old) with
        | some bs => s.setCore p (c.spStorePhys phys bs false)
        | none => s, .done .ok [])
  | .tagged _ op v => s.taggedAt p off op v who
  | .tdec _ k => s.tdecAt p phys k
  | _ => (s, .done (.fault 0x04#8 5#4) [])

/-- Bytes that a request touches. -/
def Body.size : Body → Nat
  | .read _ n | .bulkRead _ n => n
  | .write _ d _ | .bulkWrite _ d _ => d.length
  | .atomic _ w _ _ | .cas _ w _ _ | .reduce _ w _ _ | .delegated _ w _ _ _ => atomBytes w
  | .tdec _ _ => 128
  | _ => 8
/-- A request reads, and a request writes (R219's RD and WR). -/
def Body.reads : Body → Bool
  | .read _ _ | .bulkRead _ _ => true
  | _ => false
/-- A request writes (R219's WR). -/
def Body.writes : Body → Bool
  | .read _ _ | .bulkRead _ _ => false
  | _ => true

/-- An exchange store at the receiver (R162, R315): the shadow half's word and its tag. -/
def State.xstAt (s : State) (p off : Nat) (b : Word) : State × Did :=
  let c := s.core p
  if !c.exEn || off < 0x30000 || 0x38000 ≤ off then (s, .done (.fault 0x04#8 5#4) [])
  else
    let phys := c.spShadow off
    let s' := s.modCore p fun c => { c.spStorePhys phys (bytesOf b 8) false with full := setIns c.full (phys / 8) }
    (if c.full.contains (phys / 8) then s' else s'.tagChanged p (phys / 8), .done .ok [])

/-- A request that a thread of the core itself issued, whose watchpoints matched at issue (R220): an access of its own, or a
decrement that it sent to its own scratchpad. -/
def Who.own (who : Who) (p : Nat) (b : Body) : Bool := who.slot.isSome || (who.node == p && (match b with
  | .tdec _ _ => true
  | _ => false))
/-- A request of a launch at the scratchpad of a core: ownership, hidden offsets, then the bank, then the watchpoints of an
arriving access (R54, R110, R162, R220); an `xst` matches a watchpoint by the offset it names (assumption 86). -/
def State.spRequest (s : State) (p off lid : Nat) (gen : Option Nat) (b : Body) (who : Who) : State × Did :=
  let c := s.core p
  match b with
  | .xst _ v =>
    if gen.isSome || (lid ≠ 0 && c.lid ≠ lid) then (s, .done (.fault 0x04#8 5#4) [])
    else
      let r := s.xstAt p off v
      (if r.2 = .done .ok [] then r.1.watchBank p off 8 false true who.node who.seq else r.1, r.2)
  | _ =>
    if c.exEn && 0x38000 < off + b.size then (s, .done (.fault 0x04#8 5#4) [])
    else match c.ownership lid gen off b.size with
      | .ok =>
        let r := s.bankDo p off b who
        match r.2 with
        | .done _ _ => if who.own p b then r else (r.1.watchBank p off b.size b.reads b.writes who.node who.seq, r.2)
        | _ => r
      | a => (s, .done a [])

end Sys2Proof.Machine
end

