-- ==== Sys2Proof/Machine/Net.lean ====
section
/-! DEFINITION. Requests and their answers: sequence counters and the window of outstanding packets (R36), duplicates (R37),
watershed counts (R130, R132), what a requester does with an answer (R37, R72, R151), and the issue rules that hold a thread
back (R70, R152, R184, R187). -/
namespace Sys2Proof.Machine

/-! ## Bodies and requests -/

/-- The intermediate address a request names. -/
def Body.ia? : Body → Option Nat
  | .read a _ | .bulkRead a _ | .write a _ _ | .bulkWrite a _ _ | .atomic a _ _ _ | .cas a _ _ _ | .reduce a _ _ _
  | .tagged a _ _ | .xst a _ | .tdec a _ | .delegated a _ _ _ _ => some a
  | _ => none
/-- A packet that is not side-effecting (R27). -/
def Body.noSide : Body → Bool
  | .read _ _ | .bulkRead _ _ | .neighbour _ _ | .probe _ => true
  | _ => false
/-- The request is for a peer: its address lies on another device. -/
def Req.toPeer (r : Req) : Bool := (r.body.ia?).any fun a => a / 2 ^ 48 % 256 ≠ 0xFF
/-- A returning access (R152). -/
def Req.returning (r : Req) : Bool :=
  match r.use with
  | .load .. | .atomic .. | .tagQuery _ | .acquire _ | .recWord .. => true
  | .tagged .lwf _ | .tagged .take _ => true
  | _ => false
/-- The reach of an outstanding request, seen from its core (R185). -/
def Req.reach (r : Req) (s : State) (p : Nat) : Nat := match r.body.ia? with
  | some a => s.reachOf p a
  | none => 2
/-- A request counts as an access of its thread. -/
def Req.isAccess (r : Req) : Bool :=
  match r.use with
  | .fetch _ | .engineRead .. | .engineWrite .. | .event _ | .context _ | .withdrawal .. | .matrix | .record | .vload .. | .vloadq .. | .vstore .. => false
  | _ => true
/-- A request of a vector command. -/
def Req.isVec (r : Req) : Bool :=
  match r.use with
  | .vload .. | .vloadq .. | .vstore .. => true
  | _ => false
/-- Requests of the thread in a slot that count as its accesses. -/
def State.accesses (s : State) (p slot : Nat) : List Req := s.reqs.filter fun r => r.src == p && r.slot == some slot && r.isAccess
/-- No earlier access of the thread within a reach is unanswered (R186). -/
def State.drained (s : State) (p slot : Nat) (sc : Scope) : Bool :=
  (s.accesses p slot).all fun r => r.reach s p > scopeNum sc

/-! ## Watershed counts -/

/-- Add one to the count of a colour. -/
def bump (c : Bool) (x : BitVec 32 × BitVec 32) : BitVec 32 × BitVec 32 := if c then (x.1, x.2 + 1#32) else (x.1 + 1#32, x.2)
/-- Lower the minimum of a colour. -/
def lowerMin (c : Bool) (v : BitVec 32) (x : BitVec 32 × BitVec 32) : BitVec 32 × BitVec 32 :=
  if c then (x.1, if v.ult x.2 then v else x.2) else (if v.ult x.1 then v else x.1, x.2)
/-- The leaf of an I/O agent. -/
def State.leaf (s : State) (n : Nat) : Leaf := tblGetD s.leaves n Leaf.reset
/-- A sending leaf's colour. -/
def State.colourOf (s : State) (_ : Nat) : Bool := s.fw.colour
/-- A sending leaf counts a packet in its current colour (R130, R132). -/
def State.countSent (s : State) (src : Nat) (vt : BitVec 32) : State :=
  if src < 0x400 then s.modCore src fun c => { c with sent := bump s.fw.colour c.sent, minSent := lowerMin s.fw.colour vt c.minSent }
  else
    let l := s.leaf src
    { s with leaves := tblSet s.leaves src { l with sent := bump s.fw.colour l.sent, minSent := lowerMin s.fw.colour vt l.minSent } }
/-- A receiving leaf counts a packet in the colour it carries. -/
def State.countRecv (s : State) (dst : Nat) (colour : Bool) : State :=
  if dst < 0x400 then s.modCore dst fun c => { c with recv := bump colour c.recv }
  else
    let l := s.leaf dst
    { s with leaves := tblSet s.leaves dst { l with recv := bump colour l.recv } }
/-- The packet counts in the tree: events and work packets; a push into DQIN is a bulk write there (R130, R132). -/
def Body.counted : Body → Bool
  | .event .. | .record _ | .tdec .. | .delegated .. | .context .. => true
  | .bulkWrite ia _ _ => match placeOf ia with
    | .ctl _ off => off = 0x240
    | _ => false
  | _ => false

/-! ## Sending -/

/-- A request to be sent. -/
structure Ask where
  dst     : Nat
  body    : Body
  lid     : Nat
  gen     : Option Nat := none
  slot    : Option Nat := none
  gid     : Nat := 0
  va      : Word := 0#64
  handler : Bool := false
  use     : Use
  vt      : BitVec 32 := 0#32
  scope   : Nat := 0
  peer    : Bool := false
  mark    : Option (Nat × Bool) := none
  owner   : Option (Nat × Nat) := none
deriving DecidableEq, Repr

/-- The core position whose router a node hangs from; an I/O die's agents enter at the position of its edge nearest the other end. -/
def routerOf (n other : Nat) : Nat :=
  if n < 0x400 then n
  else if n < 0x800 then
    let sl := n % 0x400 / 16
    let bk := n % 16
    posOf (sl % 4 * 8 + bk % 4 * 2) (sl / 4 * 8 + bk / 4 * 2)
  else
    let o := other % 0x400
    match n / 256 % 4 with
    | 0 => posOf (posX o) 0
    | 1 => posOf 31 (posY o)
    | 2 => posOf (posX o) 31
    | _ => posOf 0 (posY o)
/-- The plane of a packet (R27): 0 response, 1 event, 2 request, 3 bulk. -/
def Body.plane : Body → Nat
  | .data .. | .ack .. | .nack _ | .forwarded .. | .probe _ | .probeReply _ | .debugAccess _ | .debugReply _ | .migRefusal | .space => 0
  | .event .. | .record _ | .neighbour .. => 1
  | .bulkWrite .. | .bulkData .. | .context .. => 3
  | .transit _ b => b.plane
  | .reserved p _ => p % 4
  | _ => 2
/-- A packet is offered to the router of its source, which injects it (R30); it counts in the watershed at its first sending. -/
def State.inject (s : State) (k : Packet) (first : Bool) : State :=
  let k := if k.body.counted && first then { k with colour := s.colourOf k.src } else k
  let s := if k.body.counted && first then s.countSent k.src k.vt else s
  { s with net := s.net ++ [k] }
/-- The packet of a request. -/
def Req.packet (r : Req) (retry : Bool) : Packet :=
  { src := r.src, dst := r.dst, seq := r.seq, ns := r.ns, retry := retry, peer := r.peer, vt := r.vt, colour := r.colour, lid := r.lid,
    gen := r.gen, body := r.body, mark := r.mark }
/-- Send a packet that is not side-effecting and that nothing at the source waits for (R36): NS = 1 and the second counter's next
value. -/
def State.sendNs (s : State) (src dst : Nat) (b : Body) : State :=
  let q := s.nextNs src dst
  { q.2 with net := q.2.net ++ [replyTo src dst true q.1 b] }
/-- Injection at a node is paused by a reroute (R40). -/
def State.injPaused (s : State) (n : Nat) : Bool := if n < 0x400 then (s.core n).paused else s.fw.rerouting
/-- Side-effecting requests to a destination in the fabric and unanswered (R36). -/
def State.inFlight (s : State) (src dst : Nat) : Nat :=
  (s.reqs.filter fun r => r.src == src && r.dst == dst && !r.ns && !r.parked).length

/-- Two accesses of one thread that its core keeps apart: the same bank of one scratchpad, the same 128-byte line of memory space, or
the same host line (R184). -/
def State.clash (s : State) (a b : Nat) : Bool :=
  match placeOf a, placeOf b with
  | .sp p x, .sp q y => p = q && x / 8 % 16 = y / 8 % 16
  | .mem x, .mem y => a / 128 = b / 128 || (match s.hostAddr? x, s.hostAddr? y with
    | some h, some k => h / 128 = k / 128
    | _, _ => false)
  | .peer _ _, .peer _ _ =>
    if a % 2 ^ 48 < 0x800000000000 then a / 128 = b / 128
    else a / 0x40000 = b / 0x40000 && a / 8 % 16 = b / 8 % 16
  | _, _ => false
/-- Requests of a core to peer addresses in the fabric or beyond it: those not held back, and delegated atomics until their record (R70). -/
def State.peerOut (s : State) (src : Nat) : Nat :=
  (s.reqs.filter fun r => r.src == src && r.toPeer && !r.parked).length +
    s.leaves.foldl (fun n e => if 0x800 ≤ e.1 && e.1 % 256 = 5 then n + (e.2.bounds.filter fun b => b.dst == src).length else n) 0
/-- A request may go: injection at its source is not paused (R40), its destination's window of 64 has room (R36), of a core's no more
than 127 peer requests are out (R70), of a media port's no earlier record for the same waiter is undelivered (R97), and no earlier access of its thread that it must follow is unanswered (R184). -/
def State.mayGo (s : State) (r : Req) : Bool :=
  !s.injPaused r.src && (r.ns || s.inFlight r.src r.dst < 64) && !(r.src < 0x400 && r.toPeer && 128 ≤ s.peerOut r.src) &&
    !(isMedia r.src && r.use == .record && s.reqs.any fun q => q.src == r.src && q.dst == r.dst && q.use == .record && q.id < r.id) &&
    (match r.slot, r.body.ia? with
     | some slot, some a => !((s.accesses r.src slot).any fun q => r.isAccess && q.id < r.id && (q.body.ia?).any fun b => s.clash a b)
     | _, _ => true)
/-- Send a request: the next SEQ of its counter, and the packet, unless it is held back. -/
def State.ask (s : State) (src : Nat) (a : Ask) : State :=
  let nd := s.node src
  let ns := a.body.noSide
  let seq := if ns then tblGetD nd.seqN a.dst 0#16 else tblGetD nd.seqS a.dst 0#16
  let nd := if ns then { nd with seqN := tblSet nd.seqN a.dst (seq + 1#16) } else { nd with seqS := tblSet nd.seqS a.dst (seq + 1#16) }
  let r : Req :=
    { src := src, dst := a.dst, seq := seq, ns := ns, lid := a.lid, gen := a.gen, body := a.body, vt := a.vt, colour := s.colourOf src,
      slot := a.slot, gid := a.gid, va := a.va, handler := a.handler, use := a.use, tries := 0, waiting := false, backoff := none, busy := 0,
      parked := false, withdrawn := false, scope := a.scope, sent := s.time, peer := a.peer, id := s.nextId, mark := a.mark, owner := a.owner }
  let r := { r with parked := !s.mayGo r }
  let s := { (s.setNode src nd) with reqs := s.reqs ++ [r], nextId := s.nextId + 1 }
  if r.parked then s else s.inject (r.packet false) true
/-- Send a request afresh from its place: the next SEQ of its counter, and a new packet, unless it is held back (R36, R97). -/
def State.reissue (s : State) (r : Req) : State :=
  let nd := s.node r.src
  let seq := if r.ns then tblGetD nd.seqN r.dst 0#16 else tblGetD nd.seqS r.dst 0#16
  let nd := if r.ns then { nd with seqN := tblSet nd.seqN r.dst (seq + 1#16) } else { nd with seqS := tblSet nd.seqS r.dst (seq + 1#16) }
  let r' := { r with seq := seq, colour := s.colourOf r.src, tries := 0, waiting := false, backoff := none, busy := 0, sent := s.time, parked := true }
  let go := s.mayGo r'
  let r' := { r' with parked := !go }
  let s := { (s.setNode r.src nd) with reqs := s.reqs.map fun q => if q == r then r' else q }
  if go then s.inject (r'.packet false) true else s
/-- Send the first request that a source has held back and that may go now. A work packet carries the sender's VTIME at its injection
(R132). -/
def State.unpark (s : State) (src : Nat) : State :=
  match s.reqs.find? fun r => r.src == src && r.parked && !r.waiting && s.mayGo r with
  | none => s
  | some r =>
    let r' := { r with parked := false, colour := s.colourOf src, sent := s.time,
                       vt := if r.body.counted && src < 0x400 && r.vt.ult (s.core src).vtime then (s.core src).vtime else r.vt }
    { s with reqs := s.reqs.map fun q => if q == r then r' else q }.inject (r'.packet false) true

/-- Answer a packet on the response plane with its NS and SEQ; a reply that duplicates need is retained (R36, R37). -/
def State.answer (s : State) (k : Packet) (b : Body) (keep : Bool) : State :=
  let s := if keep then s.retain k.dst k.src k.seq b else s
  { s with net := s.net ++ [replyTo k.dst k.src k.ns k.seq b] }

/-- The duplicate window of a destination for a source (R37): the new window, or none for a duplicate. -/
def windowAccept (w : BitVec 16 × BitVec 64) (q : BitVec 16) : Option (BitVec 16 × BitVec 64) :=
  let ahead := (q - w.1).toNat
  let back := (w.1 - q).toNat
  if ahead ≠ 0 ∧ ahead < 32768 then some (q, (w.2 <<< ahead) ||| 1#64)
  else if back < 64 ∧ w.2.getLsbD back = false then some (w.1, w.2 ||| (1#64 <<< back))
  else none
/-- A window after reset: H = 0xFFFF and a full map. -/
def windowReset : BitVec 16 × BitVec 64 := (0xFFFF#16, BitVec.allOnes 64)
/-- Record a side-effecting packet at its destination; none for a duplicate. -/
def State.accept (s : State) (k : Packet) : Option State :=
  let nd := s.node k.dst
  (windowAccept (tblGetD nd.windows k.src windowReset) k.seq).map fun w =>
    s.setNode k.dst { nd with windows := tblSet nd.windows k.src w }

/-! ## Issue rules -/

/-- An outstanding atomic with return holds later accesses within its scope's reach back (R187). -/
def Req.holdsLater (r : Req) (s : State) (p : Nat) (ia : Nat) : Bool :=
  match r.use with
  | .atomic _ _ => s.reachOf p ia ≤ r.scope
  | _ => false
/-- Structural rules let the thread issue an access: eight returning accesses of the thread and 256 of the core (R152), 128 peer
requests of the core, held back or out (R70), same bank and same line (R184), atomics (R187). -/
def State.mayIssue (s : State) (p slot : Nat) (ia : Nat) (returning : Bool) : Bool :=
  let mine := s.accesses p slot
  let core := s.reqs.filter fun r => r.src == p
  let peer := ia / 2 ^ 48 % 256 ≠ 0xFF
  !(returning && (8 ≤ (mine.filter Req.returning).length || 256 ≤ (core.filter Req.returning).length))
  && !(peer && 128 ≤ s.peerOut p + (core.filter fun r => r.toPeer && r.parked).length)
  && mine.all fun r => !((r.body.ia?).any fun a => s.clash a ia) && !r.holdsLater s p ia

end Sys2Proof.Machine
end

