-- ==== Sys2Proof/Machine/Torus.lean ====
section
/-! DEFINITION. The torus (R23 to R32, R39, R47): routing headers and their CRC, the productive-direction tables, the arbitration of one
handshake of a plane at every router, injection and its starvation control, ejection, the replay buffers and the link counters. -/
namespace Sys2Proof.Machine

/-! ## Headers (R26, R27) -/

/-- KIND of a packet on its plane (R27). -/
def Body.pkind : Body → Nat
  | .read .. | .data .. | .event .. | .record _ | .bulkWrite .. => 0
  | .write .. | .ack .. | .space | .neighbour .. | .bulkData .. => 1
  | .atomic .. | .cas .. | .nack _ | .context .. => 2
  | .reduce .. | .forwarded .. => 3
  | .tagged .. | .probe _ => 4
  | .xst .. | .probeReply _ => 5
  | .tdec .. | .debugAccess _ | .debugReply _ => 6
  | .matrix .. | .migRefusal => 7
  | .delegated .. => 8
  | .bulkRead .. => 9
  | .withdraw .. => 10
  | .transit _ b => b.pkind
  | .reserved _ k => k % 16
/-- Remainder of a message, its first bit the highest, by a generator of degree w whose lower terms are `poly` (R26). -/
def crcFold (w : Nat) (poly : Nat) : List Bool → Nat → Nat
  | [], r => r
  | b :: t, r =>
    let out := r.testBit (w - 1) != b
    crcFold w poly t ((r * 2 % 2 ^ w) ^^^ (if out then poly else 0))
/-- The bits of a message, highest first. -/
def bitsDown (n : Nat) (v : Nat) : List Bool := (List.range n).map fun i => v.testBit (n - 1 - i)
/-- CRC-8 of bits 55:0 of a header: polynomial 0x07, the highest bit first, from 0 (assumption 69). -/
def crc8 (v : BitVec 56) : BitVec 8 := BitVec.ofNat 8 (crcFold 8 0x07 (bitsDown 56 v.toNat) 0)
/-- CRC-16 of a payload of up to 1,024 bits: polynomial 0x1021 (assumption 69). -/
def crc16 (v : BitVec 1024) : BitVec 16 := BitVec.ofNat 16 (crcFold 16 0x1021 (bitsDown 1024 v.toNat) 0)
/-- Bits 55:0 of the routing header. -/
def Packet.headerLow (k : Packet) : BitVec 56 :=
  k.seq ++ BitVec.ofBool k.peer ++ BitVec.ofBool k.retry ++ 0#1 ++ BitVec.ofBool k.ns ++ BitVec.ofNat 4 k.body.pkind ++ k.age ++
    BitVec.ofNat 12 k.src ++ BitVec.ofNat 12 k.dst
/-- The routing header (R26). -/
def Packet.header (k : Packet) : BitVec 64 := crc8 k.headerLow ++ k.headerLow
/-- A receiving router's check of a header. -/
def headerOk (h : BitVec 64) : Bool := crc8 (h.extractLsb' 0 56) == h.extractLsb' 56 8
/-- A receiving router refuses a flit that arrives with an error (R26): the CRCs are linear, so that the changed bits alone decide. -/
def linkRefuses : LinkError → Bool
  | .header e => !headerOk e
  | .payload e => crc16 (e.extractLsb' 0 1024) != e.extractLsb' 1024 16
  | .handshake => false
/-- The key by which golden flits are ordered: {SRC, DST, NS, SEQ, KIND} (R31). -/
def Packet.key (k : Packet) : Nat :=
  (((k.src % 4096 * 4096 + k.dst % 4096) * 2 + (if k.ns then 1 else 0)) * 65536 + k.seq.toNat) * 16 + k.body.pkind

/-! ## Links and tables (R23, R29) -/

/-- The neighbour through a mesh port: 0 east, 1 south, 2 west, 3 north. -/
def hop (p d : Nat) : Nat :=
  match d with
  | 0 => posOf (posX p + 1) (posY p)
  | 1 => posOf (posX p) (posY p + 1)
  | 2 => posOf (posX p + 31) (posY p)
  | _ => posOf (posX p) (posY p + 31)
/-- A port of a dead link: the link is dead once the router at either end has declared it so (R40). -/
def portDead (dead : List (Nat × Nat)) (p d : Nat) : Bool := dead.contains (p, d) || dead.contains (hop p d, (d + 2) % 4)
/-- A router has the final port of a node: the core's, the bank's, or the edge port of any position of the die's edge (R23). -/
def attached (n p : Nat) : Bool :=
  if n < 0x400 then n = p
  else if n < 0x800 then routerOf n 0 = p
  else match n / 256 % 4 with
    | 0 => posY p = 0
    | 1 => posX p = 31
    | 2 => posY p = 31
    | _ => posX p = 0
/-- The final port at a router: 4 local, 5 vertical, 6 to 9 the edge port of a die. -/
def finalPort (n : Nat) : Nat := if n < 0x400 then 4 else if n < 0x800 then 5 else 6 + n / 256 % 4
/-- Hops between coordinates on a ring of 32. -/
def ringDist (a b : Nat) : Nat := min ((b + 32 - a) % 32) ((a + 32 - b) % 32)
/-- Hops from a router to the nearest final port of a node, all links live. -/
def hopsTo (n p : Nat) : Nat :=
  if n < 0x800 then ringDist (posX p) (posX (routerOf n 0)) + ringDist (posY p) (posY (routerOf n 0))
  else match n / 256 % 4 with
    | 0 => ringDist (posY p) 0
    | 1 => ringDist (posX p) 31
    | 2 => ringDist (posY p) 31
    | _ => ringDist (posX p) 0
/-- A set of positions as a number: those that a test picks. -/
def positionsWhere (f : Nat → Bool) : Nat := ((List.range 1024).filter f).foldl (fun m p => m ||| (1 <<< p)) 0
/-- A set of positions with those one live hop away. -/
def grow (dead : List (Nat × Nat)) (m : Nat) : Nat :=
  let top := 2 ^ 1024
  let col0 := (top - 1) / (2 ^ 32 - 1)
  let moved := m ||| ((m &&& (top - 1 - col0 * 2 ^ 31)) <<< 1) ||| ((m &&& col0 * 2 ^ 31) >>> 31) ||| ((m &&& (top - 1 - col0)) >>> 1) ||| ((m &&& col0) <<< 31) |||
    (m <<< 32 % top) ||| (m >>> 992) ||| (m >>> 32) ||| (m <<< 992 % top)
  let cut := (dead.flatMap fun e => [e.1, hop e.1 e.2]).filter fun p => !m.testBit p && (List.range 4).all fun d => !m.testBit (hop p d) || portDead dead p d
  cut.foldl (fun s p => if s.testBit p then s - 2 ^ p else s) (moved % top)
/-- Ports of a router toward the positions of a set, by the shortest paths over live links; none where no path leads there. -/
def portsToward (dead : List (Nat × Nat)) (p : Nat) : Nat → Nat → List Nat
  | 0, _ => []
  | n + 1, m =>
    let ps := (List.range 4).filter fun d => !portDead dead p d && m.testBit (hop p d)
    if ps.isEmpty then (let m' := grow dead m; if m' = m then [] else portsToward dead p n m') else ps.take 2
/-- The productive-direction table (R29) that firmware computed over the links not in `dead`: the one or two mesh ports of a router
that reduce the distance to a node, lowest port first (assumption 70). -/
def productive (dead : List (Nat × Nat)) (n p : Nat) : List Nat :=
  if 0xC00 ≤ n || attached n p then []
  else if dead.isEmpty then ((List.range 4).filter fun d => hopsTo n (hop p d) < hopsTo n p).take 2
  else portsToward dead p 1024 (positionsWhere (attached n))

/-! ## Positions cut off (R40) -/

/-- The positions that live links join to one. -/
def component (dead : List (Nat × Nat)) : Nat → Nat → Nat
  | 0, m => m
  | n + 1, m => let m' := grow dead m; if m' = m then m else component dead n m'
/-- Positions in a set. -/
def countBits (m : Nat) : Nat := ((List.range 1024).filter m.testBit).length
/-- A position has no live link to the rest of the fabric: live links join it to fewer than half of the positions (assumption 71). -/
def State.cutOff (s : State) (p : Nat) : Bool :=
  4 ≤ s.fw.deadLinks.length && countBits (component s.fw.deadLinks 1024 (1 <<< p)) < 512
/-- No live link leads to a node: every position with a final port of it is cut off. -/
def State.nodeCut (s : State) (n : Nat) : Bool :=
  4 ≤ s.fw.deadLinks.length && (List.range 1024).all fun p => !attached n p || s.cutOff p

/-! ## Dropped packets -/

/-- A packet is dropped and counted at the node that drops it (R27, R146). -/
def State.dropAt (s : State) (n : Nat) (event : Bool) : State :=
  if n < 0x400 then (if event then s.countEvDrop n else s.countDrop n)
  else if event then s.modRect 0 fun r => { r with evdrop := r.evdrop + 1 }
  else s.countDrop0
/-- A packet that could not be delivered at a node with its body's plane. -/
def State.dropPacket (s : State) (k : Packet) : State := s.dropAt k.dst (k.body.plane = 1)

/-! ## One handshake (R30 to R32) -/

/-- A flit at a router: its index in the fabric's list, its packet, and its input port; 4 for the offered one. -/
structure Flit where
  ix   : Nat
  pkt  : Packet
  port : Nat
deriving DecidableEq, Repr
/-- A flit is served before another: higher AGE; at 255 the lower key; then the lower input port (R30, R31). -/
def Flit.before (a b : Flit) : Bool :=
  if a.pkt.age ≠ b.pkt.age then b.pkt.age.ult a.pkt.age
  else if a.pkt.age = 255#8 && a.pkt.key ≠ b.pkt.key then a.pkt.key < b.pkt.key
  else a.port < b.port
/-- Insert a flit in the order of service. -/
def insertFlit (f : Flit) : List Flit → List Flit
  | [] => [f]
  | g :: t => if f.before g then f :: g :: t else g :: insertFlit f t
/-- Where a flit goes in a handshake: ejected, or on a mesh port, deflected or not. -/
structure Move where
  flit : Flit
  port : Option Nat
  defl : Bool
deriving DecidableEq, Repr
/-- The flits of a router in turn take their final port, a productive port that is free, or the lowest free one (R30). `used` are
the ports taken. A flit that finds no port, as a link dies, stays. -/
def arbitrate (dead tables : List (Nat × Nat)) (full : Nat → Bool) (p : Nat) : List Flit → List Nat → List Move
  | [], _ => []
  | f :: t, used =>
    let free (d : Nat) : Bool := !used.contains d && !portDead dead p d && !full d
    let ports := productive tables f.pkt.dst p
    if (attached f.pkt.dst p && !used.contains (finalPort f.pkt.dst)) || (!attached f.pkt.dst p && ports.isEmpty) then
      { flit := f, port := none, defl := false } :: arbitrate dead tables full p t (finalPort f.pkt.dst :: used)
    else match ports.find? free with
      | some d => { flit := f, port := some d, defl := false } :: arbitrate dead tables full p t (d :: used)
      | none => match (List.range 4).find? free with
        | some d => { flit := f, port := some d, defl := true } :: arbitrate dead tables full p t (d :: used)
        | none => arbitrate dead tables full p t used
/-- The agent of a router that is served next, in round-robin order by node number after the last one served (R30). -/
def nextAgent (last : Nat) (l : List Nat) : Option Nat :=
  let low (l : List Nat) : Option Nat := l.foldl (fun (m : Option Nat) n => some ((m.map (min n)).getD n)) none
  low (l.filter (last < ·)) <|> low l
/-- What a router does in a handshake: where its flits go, the agent that injects, and those that had a flit ready and could not. -/
structure RouterDo where
  moves  : List Move
  inject : Option Nat
  held   : List Flit
deriving DecidableEq, Repr
/-- The arbitration of a router on a plane (R30): `arriving` on its mesh ports, `offered` by its agents, oldest first. -/
def State.routerDo (s : State) (plane p : Nat) (arriving offered : List Flit) : RouterDo :=
  let w := s.fw
  let here (f : Flit) : Bool := f.pkt.dst == p && (match f.pkt.body with
    | .neighbour .. => true
    | _ => false)
  let taken := (arriving.filter here).map fun f => { flit := f, port := none, defl := false : Move }
  let flits := (arriving.filter fun f => !here f).foldl (fun l f => insertFlit f l) []
  let ports := (List.range 4).filter fun d => !portDead w.deadLinks p d
  let starves (q : Nat) : Bool := w.starve.contains (q * 4 + plane)
  let agent := nextAgent (tblGetD w.served (p * 4 + plane) 4096) (offered.map fun f => f.pkt.src)
  let may := flits.length < ports.length && (starves p || !((List.range 4).any fun d => starves (hop p d)))
  let ready (n : Nat) : Option Flit := offered.find? fun f => f.pkt.src == n
  let new : List Flit := if may then ((agent.bind ready).map fun f => { f with pkt := { f.pkt with age := 0#8 } }).toList else []
  let full (d : Nat) : Bool := 8 ≤ (tblGetD w.buffers ((p * 4 + d) * 4 + plane) []).length
  let held := (offered.map fun f => f.pkt.src).eraseDups.filter fun n => !(may && agent == some n)
  { moves := taken ++ arbitrate w.deadLinks w.tableDead full p (flits ++ new) [],
    inject := if new.isEmpty then none else agent,
    held := held.filterMap ready }
/-- Add one to a counter that wraps at 32 bits (R47). -/
def countUp (t : Tbl (BitVec 32)) (k : Nat) : Tbl (BitVec 32) := tblSet t k (tblGetD t k 0#32 + 1#32)
/-- SENT, DEFL and STALL of a router's links after a handshake (R47): `again` are the links on which a flit is sent again. -/
def Firm.countLinks (w : Firm) (plane p : Nat) (r : RouterDo) : Firm :=
  let link (d : Nat) : Nat := (p * 4 + d) * 4 + plane
  let sent := (r.moves.filterMap fun m => m.port).filter fun d => (tblGetD w.buffers (link d) []).isEmpty
  let stalls := (r.held.filterMap fun f => if attached f.pkt.dst p then none else (productive w.tableDead f.pkt.dst p).head?).eraseDups
  { w with
    sent := sent.foldl (fun t d => countUp t (link d)) w.sent,
    defl := (r.moves.filterMap fun m => if m.defl then m.port else none).foldl (fun t d => countUp t (link d)) w.defl,
    stall := stalls.foldl (fun t d => countUp t (link d)) w.stall }
/-- The injection state of a router after a handshake (R30, R32): the agent served, and the count of handshakes without an injection,
which an injection ends; STARVE is cleared in the handshake after one. -/
def Firm.countStarve (w : Firm) (plane p : Nat) (r : RouterDo) : Firm :=
  let k := p * 4 + plane
  let w := { w with starve := if tblGetD w.starveCnt k 0 = 0 then setDel w.starve k else w.starve }
  match r.inject with
  | some n => { w with served := tblSet w.served k n, starveCnt := tblErase w.starveCnt k }
  | none => if r.held.isEmpty then (if w.starve.contains k then w else { w with starveCnt := tblErase w.starveCnt k })
            else { w with starveCnt := tblSet w.starveCnt k (tblGetD w.starveCnt k 0 + 1) }
/-- A packet after its router's arbitration: on the next router's input port, ejected, or, behind a flit that is sent again, in the
link's replay buffer (none). -/
def Move.spot (m : Move) (p : Nat) : Packet :=
  match m.port with
  | none => { m.flit.pkt with spot := .ejected }
  | some d => { m.flit.pkt with spot := .atPort (hop p d) ((d + 2) % 4), age := if m.defl && m.flit.pkt.age ≠ 255#8 then m.flit.pkt.age + 1#8 else m.flit.pkt.age }
/-- The flits of a router on a plane: those on its mesh ports, and those its agents offer, whose injection no reroute has paused. -/
def State.flitsAt (s : State) (plane : Nat) : List (Nat × Flit) :=
  s.net.zipIdx.filterMap fun (e : Packet × Nat) =>
    if e.1.body.plane ≠ plane then none
    else match e.1.spot with
      | .ejected => none
      | .atPort p d => some (p, { ix := e.2, pkt := e.1, port := d })
      | .offered => if plane ≠ 0 && s.injPaused e.1.src then none else some (routerOf e.1.src e.1.dst, { ix := e.2, pkt := e.1, port := 4 })
/-- One handshake of a plane at every router (R30): all arbitrate on the flits as they stood; a link with flits to send again sends
the oldest. A reserved KIND is dropped and counted where it is ejected (R27). -/
def State.handshake (s : State) (plane : Nat) : State :=
  let all := s.flitsAt plane
  let counting := (s.fw.starveCnt.filter fun e => e.1 % 4 = plane).map fun e => e.1 / 4
  let asserting := (s.fw.starve.filter fun k => k % 4 = plane).map fun k => k / 4
  let routers := ((all.map fun e => e.1) ++ counting ++ asserting).eraseDups
  let again := s.fw.buffers.filter fun e => e.1 % 4 = plane && !e.2.isEmpty && !portDead s.fw.deadLinks (e.1 / 16) (e.1 / 4 % 4)
  if routers.isEmpty && again.isEmpty then s
  else
    let dos := routers.map fun p =>
      let mine := (all.filter fun e => e.1 == p).map fun e => e.2
      (p, s.routerDo plane p (mine.filter fun f => f.port < 4) (mine.filter fun f => f.port = 4))
    let w := dos.foldl (fun w e => (w.countLinks plane e.1 e.2).countStarve plane e.1 e.2) s.fw
    let moved := dos.flatMap fun e => e.2.moves.map fun m =>
      (m.flit.ix, m.spot e.1, (match m.port with
        | some d => if (tblGetD s.fw.buffers ((e.1 * 4 + d) * 4 + plane) []).isEmpty then none else some ((e.1 * 4 + d) * 4 + plane)
        | none => none))
    let stays := s.net.zipIdx.filterMap fun (e : Packet × Nat) => match moved.find? fun m => m.1 == e.2 with
      | some (_, k, none) => some k
      | some (_, _, some _) => none
      | none => some e.1
    let buffers := again.foldl (fun b e => tblSet b e.1 (e.2.drop 1)) s.fw.buffers
    let buffers := moved.foldl (fun b m => match m.2.2 with
      | some k => tblSet b k (tblGetD b k [] ++ [m.2.1])
      | none => b) buffers
    let resent := again.filterMap fun e => e.2.head?
    let isBad (k : Packet) : Bool := k.spot == .ejected && (match k.body with
      | .reserved .. => true
      | _ => false)
    let s' := { s with
      net := (stays.filter fun k => !isBad k) ++ resent,
      fw := { w with
        buffers := buffers.filter fun e => !e.2.isEmpty,
        sent := again.foldl (fun t e => countUp t e.1) w.sent,
        carriedAt := if plane ≠ 0 && !all.isEmpty then s.time else w.carriedAt } }
    (stays.filter isBad).foldl (fun s k => s.dropPacket k) s'
/-- Something in the fabric moves with a handshake. -/
def State.flowing (s : State) : Bool :=
  (s.net.any fun k => k.spot != .ejected) || !s.fw.buffers.isEmpty || !s.fw.starveCnt.isEmpty || !s.fw.starve.isEmpty
/-- One handshake of every plane. -/
def State.handshakes (s : State) : State := if s.flowing then (List.range 4).foldl State.handshake s else s
/-- The handshakes of one nanosecond: four, at the nominal rate (R25). -/
def State.fabricNs (s : State) : State := (List.range 4).foldl (fun s _ => s.handshakes) s

end Sys2Proof.Machine
end

