-- ==== Sys2Proof/Machine/Peers.lean ====
section
/-! DEFINITION. The links between modules (R42, R43): device numbers, the peer ports with their credits and replay, and the flits that
leave through them; the replies to requests that entered from a peer (R37). -/
namespace Sys2Proof.Machine

/-! ## Modules and ports (R42) -/

/-- This module's number for the module at given coordinates: its offset less one, or 0xFF for itself. -/
def Firm.moduleDev (w : Firm) (x y : Nat) : Nat :=
  let o := (y + w.torusH - w.moduleY) % w.torusH * w.torusW + (x + w.torusW - w.moduleX) % w.torusW
  if o = 0 then 0xFF else o - 1
/-- Coordinates of the module with a device number. -/
def Firm.deviceXy (w : Firm) (dev : Nat) : Nat × Nat :=
  ((w.moduleX + (dev + 1) % w.torusW) % w.torusW, (w.moduleY + (dev + 1) / w.torusW) % w.torusH)
/-- A peer port is trained: 2, 3, 6 and 7 with more than one module in x, the others with more than one in y; none that died. -/
def Firm.portTrained (w : Firm) (i : Nat) : Bool := (if i / 2 % 2 = 1 then 1 < w.torusW else 1 < w.torusH) && !w.portDown.contains i
/-- The trained ports of an I/O die. -/
def Firm.diePorts (w : Firm) (die : Nat) : List Nat := [2 * die, 2 * die + 1].filter w.portTrained
/-- Flits of a plane that may be on a peer link without a credit (R43). -/
def portCredits : Nat := 64
/-- The 64-byte beats of a flit with its header (R43). -/
def beatsOf (plane : Nat) : Nat := match plane with
  | 0 => 2
  | 3 => 3
  | _ => 1
/-- Flits of a plane sent through a port and not credited. -/
def Firm.onPort (w : Firm) (port plane : Nat) : List (PeerHead × Body) := tblGetD w.portOut (port * 4 + plane) []
/-- Send a flit through the port of a die with the fewer flits on it; without a credit, or behind a flit that waits for one, it waits
(R42, R43). -/
def State.portSend (s : State) (die : Nat) (f : PeerHead × Body) : State :=
  let w := s.fw
  let plane := f.2.plane
  let wait := tblGetD w.portWait (die * 4 + plane) []
  let best := (w.diePorts die).foldl (fun (m : Option Nat) i => match m with
    | some j => if (w.onPort i plane).length < (w.onPort j plane).length then some i else m
    | none => some i) none
  match best with
  | some i =>
    if wait.isEmpty && (w.onPort i plane).length < portCredits then
      s.modFw fun w => { w with portOut := tblSet w.portOut (i * 4 + plane) (w.onPort i plane ++ [f]) }
    else s.modFw fun w => { w with portWait := tblSet w.portWait (die * 4 + plane) (wait ++ [f]) }
  | none => s.modFw fun w => { w with portWait := tblSet w.portWait (die * 4 + plane) (wait ++ [f]) }
/-- The other side of a port has taken the oldest flit of a plane: its credit returns, and a flit that waits goes (R43). -/
def State.portCredit (s : State) (port plane : Nat) : State :=
  match s.fw.onPort port plane with
  | [] => s
  | _ :: t =>
    let s := s.modFw fun w => { w with portOut := tblSet w.portOut (port * 4 + plane) t, portTries := tblErase w.portTries (port * 4 + plane) }
    match tblGetD s.fw.portWait (port / 2 * 4 + plane) [] with
    | [] => s
    | f :: rest =>
      if s.fw.portTrained port then
        s.modFw fun w => { w with
          portOut := tblSet w.portOut (port * 4 + plane) (w.onPort port plane ++ [f]),
          portWait := tblSet w.portWait (port / 2 * 4 + plane) rest }
      else s
/-- The egress agent's forward slot of a request that left from this module. -/
def State.slotOf (s : State) (h : PeerHead) : Option Fwd :=
  (List.range 4).findSome? fun d => (s.node (agentNode d 5)).forward.find? fun f => f.packet.src == h.src && f.packet.ns == h.ns && f.packet.seq == h.seq
/-- A peer port dies (R43): it is reported as a mesh link is, and each request of this module that was on it is lost, so that its
requester gets a notice (R40). -/
def State.portDies (s : State) (port : Nat) : State :=
  if !s.fw.portTrained port then s
  else
    let w := s.fw
    let gone := (List.range 4).flatMap fun pl => w.onPort port pl
    let notices := gone.filterMap fun f => if f.1.sx = w.moduleX && f.1.sy = w.moduleY then (s.slotOf f.1).map fun v => (v.packet.src, v.packet) else none
    { s with
      ctl := s.ctl ++ [.linkDead (if port / 2 = 1 then 31 else if port / 2 = 2 then 992 else 0) (match port / 2 with
        | 0 => .n
        | 1 => .e
        | 2 => .s
        | _ => .w) 0],
      fw := { w with
        portDown := setIns w.portDown port, deadAt := s.time, lostNotices := w.lostNotices ++ notices,
        portOut := w.portOut.filter fun e => e.1 / 4 ≠ port, portTries := w.portTries.filter fun e => e.1 / 4 ≠ port } }
/-- The other side refuses a beat of the oldest flit of a plane (R43): it is sent again, and after four replays in a row that fail the
link is dead, as R39 says of a mesh link. -/
def State.portRefuse (s : State) (port plane beat : Nat) : State :=
  if (s.fw.onPort port plane).isEmpty || beatsOf plane ≤ beat then s
  else
    let n := tblGetD s.fw.portTries (port * 4 + plane) 0 + 1
    if 5 ≤ n then s.portDies port else s.modFw fun w => { w with portTries := tblSet w.portTries (port * 4 + plane) n }

/-! ## Requests that leave and replies that return -/

/-- A request of this module leaves through its egress agent, which parks it in a forward slot (R34, R43). -/
def State.leaveFor (s : State) (k : Packet) (retry : Bool) : State :=
  let dev := ((k.body.ia?.getD 0) / 2 ^ 48) % 256
  let goal := s.fw.deviceXy dev
  s.portSend (k.dst / 256 % 4)
    ({ sx := s.fw.moduleX, sy := s.fw.moduleY, dx := goal.1, dy := goal.2, src := k.src, dst := 0, seq := k.seq, ns := k.ns, retry := retry, vt := k.vt,
       lid := k.lid, gen := k.gen }, k.body)
/-- Park a request in a forward slot of its egress agent and send it to its module. -/
def State.goOut (s : State) (k : Packet) : State :=
  (s.setNode k.dst { s.node k.dst with forward := (s.node k.dst).forward ++ [{ node := k.dst, ns := k.ns, seq := k.seq, probe := false, packet := k }] }).leaveFor k k.retry
/-- A flit goes on from an ingress agent to the egress agent toward its module, over this module's torus (R43). -/
def State.passOn (s : State) (agent : Nat) (h : PeerHead) (b : Body) : State :=
  s.sendNs agent (s.egressToward ((h.dx + s.fw.torusW - s.fw.moduleX) % s.fw.torusW) ((h.dy + s.fw.torusH - s.fw.moduleY) % s.fw.torusH)) (.transit h b)
/-- The answer of a request that entered from a peer goes back to its module. -/
def State.peerReply (s : State) (agent : Nat) (h : PeerHead) (b : Body) : State :=
  s.passOn agent { h with sx := s.fw.moduleX, sy := s.fw.moduleY, dx := h.sx, dy := h.sy, src := agent, dst := h.src, retry := false } b
/-- Number under which an ingress agent keeps the window and replies of a node of a peer (R37). -/
def peerKey (dev node : Nat) : Nat := 4096 + dev * 4096 + node % 4096
/-- The key of a request that entered. -/
def State.headKey (s : State) (h : PeerHead) : Nat := peerKey (s.fw.moduleDev h.sx h.sy) h.src

/-- A request with its intermediate address as this module names it. -/
def Body.named (b : Body) (a : Nat) : Body :=
  match b with
  | .read _ n => .read a n
  | .bulkRead _ n => .bulkRead a n
  | .write _ d p => .write a d p
  | .bulkWrite _ d p => .bulkWrite a d p
  | .atomic _ w o v => .atomic a w o v
  | .cas _ w e v => .cas a w e v
  | .reduce _ w o v => .reduce a w o v
  | .tagged _ o v => .tagged a o v
  | .xst _ v => .xst a v
  | .tdec _ k => .tdec a k
  | .delegated _ w o v t => .delegated a w o v t
  | b => b
/-- A request whose answer carries a word or that may wait (R37, R38): its reply is retained. -/
def Body.kept : Body → Bool
  | .atomic .. | .cas .. => true
  | .tagged _ op _ => op != .empty && op != .fill
  | _ => false
/-- The answer of a request that has been done. -/
def Body.reply (b : Body) (ans : Answer) (data : List Byte) : Body :=
  match b with
  | .read .. | .atomic .. | .cas .. => .data data ans
  | .bulkRead .. => .bulkData data ans
  | .tagged _ op _ => (match op with
    | .lwf | .take | .tagq => .data data ans
    | _ => .ack false ans)
  | _ => .ack false ans
/-- A request that entered from a peer has been answered: the reply is kept for duplicates and goes back (R37). -/
def State.ingressDone (s : State) (r : Req) (h : PeerHead) (bytes : List Byte) (ans : Answer) : State :=
  let b := r.body.reply ans bytes
  match r.body with
  | .delegated _ _ _ _ tag => if ans = .ok then { s with fw := { s.fw with peerRamos := s.fw.peerRamos ++ [(r.src, tag, r.vt, h)] } }.peerReply r.src h b
                              else s.peerReply r.src h b
  | .withdraw .. => s.peerReply r.src h b
  | _ => (if r.body.kept then s.retain r.src (s.headKey h) h.seq b else s).peerReply r.src h b

end Sys2Proof.Machine
end

