-- ==== Sys2Proof/Machine/Answer.lean ====
section
/-! DEFINITION. What a requester does with an answer (R28, R36 to R38, R72, R155, R161, R171, R176), and the engines' chunks (R196,
R381 to R383). -/
namespace Sys2Proof.Machine

/-- The value of an n-byte load (R310). -/
def loadVal (n : Nat) (signed : Bool) (bs : List Byte) : Word :=
  let v := natOfBytes (bs.take n)
  if signed then BitVec.ofInt 64 (sextN (8 * n) v) else BitVec.ofNat 64 v

/-- Fill a line into the L1: the most recently used place, or the least for `.n`; 3,072 lines (R164). -/
def Core.l1Fill (c : Core) (line : Nat) (bs : List Byte) (lru : Bool) : Core :=
  let rest := (c.l1.filter fun e => e.1 ≠ line).take 3071
  { c with l1 := if lru then rest ++ [(line, bs, false)] else (line, bs, false) :: rest }
/-- A hit moves the line to the most recently used place, unless `.n`. -/
def Core.l1Touch (c : Core) (line : Nat) (lru : Bool) : Core :=
  match c.l1.find? fun e => e.1 == line with
  | some e => if lru then c else { c with l1 := e :: c.l1.filter fun e => e.1 ≠ line }
  | none => c

/-- The request KIND of a body (R27). -/
def Body.kindNum : Body → Nat
  | .read .. => 0
  | .write .. => 1
  | .atomic .. | .cas .. => 2
  | .reduce .. => 3
  | .tagged .. => 4
  | .xst .. => 5
  | .tdec .. => 6
  | .matrix .. => 7
  | .delegated .. => 8
  | .bulkRead .. => 9
  | .withdraw .. => 10
  | _ => 0
/-- Status of an indeterminate access (R216). -/
def badStatus : Answer → Nat
  | .poison => 6
  | .fault c _ => match c.toNat with
    | 8 => 2
    | 9 => 3
    | 7 => 4
    | 4 => 5
    | 5 => 7
    | _ => 8
  | .ok => 1
/-- The entry of an indeterminate access (R216). -/
def Req.badEntry (r : Req) (ans : Answer) : BitVec 128 :=
  0#48 ++ r.seq ++ BitVec.ofNat 4 (badStatus ans) ++ BitVec.ofNat 4 r.body.kindNum ++ BitVec.ofNat 56 (r.body.ia?.getD 0 / 8 * 8)
/-- Count an answer of a group that is being terminated or is stopped: DRAIN and INDET (R215). -/
def State.countDrain (s : State) (r : Req) (ans : Answer) : State :=
  match r.slot with
  | none => s
  | some slot => match s.thread? r.src slot with
    | none => s
    | some t => s.modGroup (t.homePos r.src) t.group fun g =>
        if g.dying.isNone && (g.stopped.isNone || g.lag.isSome) then g
        else if ans = .ok then { g with drain := g.drain + 1 }
        else { g with drain := g.drain + 1, indet := g.indet + 1, badList := (g.badList ++ [r.badEntry ans]).take 512 }

/-- A fault reported by an answer (R72): a pending destination is released, and the trap is held. -/
def State.answerFault (s : State) (r : Req) (code : BitVec 8) (detail : BitVec 4) : State :=
  match r.slot with
  | none => s
  | some slot => s.reportFault r.src slot r.handler { code := code, detail := detail, tval := r.va }
/-- An answer's fault or poison in the issuing thread (R72, R146). -/
def State.answerBad (s : State) (r : Req) (ans : Answer) : State :=
  match ans with
  | .ok => s
  | .poison => match r.slot with
    | some slot => s.consumePoison r.src slot false r.handler r.va
    | none => s
  | .fault c d => s.answerFault r c d
/-- Change the thread that issued a request. -/
def State.modAsker (s : State) (r : Req) (f : Thread → Thread) : State :=
  match r.slot with
  | some slot => s.modThread r.src slot f
  | none => s
/-- The thread that issued a request acquires on the word it named (R189). -/
def State.askerAcquire (s : State) (r : Req) : State :=
  match r.slot.bind (s.thread? r.src) with
  | none => s
  | some t => match s.groupOf r.src t with
    | none => s
    | some g =>
      let sync := (spanFor g.spans r.va 8).map fun sp => sp.ia r.va
      s.acquire r.src g t.home.isSome (sync.getD 0)

/-! ## Engines -/

/-- The first chunk of a piece: within one aligned 128-byte chunk of the destination and one of the source (R381). -/
def Piece.chunk (q : Piece) : Nat :=
  let a := min q.n (128 - q.dst % 128)
  match q.src with
  | some x => min a (128 - x % 128)
  | none => a
/-- The piece past its first n bytes. -/
def Piece.advance (q : Piece) (n : Nat) : Piece :=
  { q with src := q.src.map (· + n), vsrc := q.vsrc + BitVec.ofNat 64 n, dst := q.dst + n, vdst := q.vdst + BitVec.ofNat 64 n,
           n := q.n - n, data := q.data.rotateLeft n }
/-- Change an engine operation. -/
def State.modEngine (s : State) (id : Nat) (f : EngineOp → EngineOp) : State :=
  { s with engines := s.engines.map fun e => if e.id == id then f e else e }
/-- n bytes of an operation count as written: the piece advances and the barrier object is updated (R198, R381). -/
def State.engineWrote (s : State) (e : EngineOp) (n : Nat) : State :=
  let todo := match e.todo with
    | [] => []
    | q :: t => if q.n ≤ n then t else q.advance n :: t
  let s := s.modEngine e.id fun e => { e with todo := todo, live := 0 }
  match e.barrier with
  | some off => s.barrierUpdate e.node off n 0
  | none => s
/-- A fault of an operation: the thread takes it with ASYNC = 1; a lease violation is permission, DETAIL 2 (R383). -/
def State.engineFault (s : State) (e : EngineOp) (va : Word) (code : BitVec 8) (detail : BitVec 4) : State :=
  let s := s.modEngine e.id fun e => { e with fail := e.fail <|> some code }
  match e.slot with
  | none => s
  | some slot =>
    s.reportFault e.node slot e.handler
      (if code = 0x05#8 then { code := 0x04#8, detail := 2#4, tval := va } else { code := code, detail := detail, tval := va })
/-- The operation is over: it leaves, and its thread counts one fewer; a command's operation stays for its completion. -/
def State.engineDone (s : State) (e : EngineOp) : State :=
  if e.cmd.isSome then s
  else
    let s := { s with engines := s.engines.filter fun x => x.id != e.id }
    match e.slot with
    | some slot => s.modThread e.node slot fun t => { t with engines := t.engines - 1 }
    | none => s
/-- An engine of an I/O die names host memory by the host address above this base (R81). -/
def hostBase : Nat := 2 ^ 60
/-- Bytes that a piece writes by itself, of a repeated pattern. -/
def cyc (data : List Byte) : Nat → List Byte
  | 0 => []
  | n + 1 => (cyc data n) ++ [data.getD (n % max data.length 1) 0#8]
/-- Copy n bytes of host memory, poison with them (R77); the count bounds the pieces. -/
def State.hostCopy (s : State) (a dst n : Nat) : Nat → State
  | 0 => s
  | k + 1 =>
    if n = 0 then s
    else
      let m := min n (min (64 - a % 64) (64 - dst % 64))
      (s.hostWrite dst (memRead s.host a m) (s.hostPoison a m)).hostCopy (a + m) (dst + m) (n - m) k
/-- The first n bytes of an operation cannot be read: their destination is indeterminate, so free bytes go there, and the fault
waits until they count as written (R383). -/
def State.spoilChunk (s : State) (e : EngineOp) (n : Nat) (code : BitVec 8) (detail : BitVec 4) (va : Word) : State :=
  match e.todo with
  | [] => s
  | q :: t =>
    let data := (List.range n).map fun i => Config.freeByte (s.freeCtr + i)
    let q' := { q with src := none, n := n, data := data, bad := none, after := some (code, detail, va) }
    State.modEngine { s with freeCtr := s.freeCtr + n } e.id fun e => { e with todo := q' :: (if q.n ≤ n then t else q.advance n :: t), live := 0 }
/-- Send the next chunk of an operation; elements that failed their check are counted as written (R382, R383). -/
def State.pump (s : State) (id : Nat) : Nat → State
  | 0 => s
  | k + 1 =>
    match s.engines.find? fun e => e.id == id with
    | none => s
    | some e =>
      match e.todo with
      | [] => s.engineDone e
      | q :: _ =>
        let n := q.chunk
        match q.bad with
        | some (c, d) => State.pump (s.spoilChunk e q.n c d q.vsrc) id k
        | none =>
          if n = 0 then State.pump (s.engineWrote e 0) id k
          else
            let s := s.modEngine id fun e => { e with live := n }
            match q.src with
            | some a =>
              if hostBase ≤ a then
                if hostBase ≤ q.dst then
                  State.pump ((s.hostCopy (a - hostBase) (q.dst - hostBase) q.n q.n).engineWrote e q.n) id k
                else
                  let n := if s.hostPoison (a - hostBase) n then min n (64 - (a - hostBase) % 64) else n
                  let rt := s.route e.lid q.dst
                  s.ask e.node { dst := rt.node, body := .bulkWrite rt.ia (memRead s.host (a - hostBase) n) (s.hostPoison (a - hostBase) n), lid := e.lid, gen := rt.gen,
                                 va := q.vdst, use := .engineWrite id n }
              else
              let rt := s.route e.lid a
              s.ask e.node { dst := rt.node, body := .bulkRead rt.ia n, lid := e.lid, gen := rt.gen, slot := e.slot, gid := e.gid, va := q.vsrc,
                             handler := e.handler, use := .engineRead id q.dst n }
            | none =>
              if hostBase ≤ q.dst then
                State.pump ((s.hostWrite (q.dst - hostBase) (cyc q.data q.n)).engineWrote e q.n) id k
              else
              let rt := s.route e.lid q.dst
              let s := if e.node < 0x400 then s.l1Drop e.node q.dst n else s
              s.ask e.node { dst := rt.node, body := .bulkWrite rt.ia (q.data.take n) false, lid := e.lid, gen := rt.gen, slot := e.slot, gid := e.gid,
                             va := q.vdst, handler := e.handler, use := .engineWrite id n }
/-- Pieces an operation may skip without sending. -/
def EngineOp.fuel (e : EngineOp) : Nat := e.todo.length + 2
/-- Start an engine operation (R196, R381). A length of 0 makes one update of zero bytes. -/
def State.startEngine (s : State) (e : EngineOp) : State :=
  let s := { s with engines := s.engines ++ [{ e with id := s.nextId }], nextId := s.nextId + 1 }
  let s := if e.todo.isEmpty then (match e.barrier with
    | some off => s.barrierUpdate e.node off 0 0
    | none => s) else s
  s.pump (s.nextId - 1) e.fuel
/-- The first m bytes of a piece, cut where its source passes a grain of g bytes; the count bounds the cuts. -/
def Piece.grains (q : Piece) (g m : Nat) : Nat → List Piece
  | 0 => []
  | k + 1 =>
    if m = 0 then []
    else
      let a := match q.src with
        | some x => min m (g - x % g)
        | none => m
      { q with n := a } :: (q.advance a).grains g (m - a) k
/-- A chunk was read with poison, which its source keeps for each scratchpad word or memory block (R66, R159): the bytes of several
are read again one by one. None where the chunk lies in one. -/
def EngineOp.regrain (e : EngineOp) (n : Nat) : Option (List Piece) :=
  match e.todo with
  | [] => none
  | q :: t =>
    match q.src with
    | none => none
    | some x =>
      let g := if inScratchpad x then 8 else 64
      if x % g + n ≤ g then none else some (q.grains g n (n + 1) ++ (if q.n ≤ n then t else q.advance n :: t))
/-- The bytes of a chunk have been read: they are written at the destination; poison goes along (R66, R381). -/
def State.engineData (s : State) (r : Req) (id dst n : Nat) (bytes : List Byte) (ans : Answer) : State :=
  match s.engines.find? fun e => e.id == id with
  | none => s
  | some e =>
    match ans with
    | .fault c d =>
      if e.cmd.isSome then ((s.engineWrote e n).engineFault e r.va c d).pump id e.fuel
      else (s.spoilChunk e n c d r.va).pump id e.fuel
    | _ =>
      match (if ans == .poison then e.regrain n else none) with
      | some ps => State.pump (s.modEngine id fun e => { e with todo := ps, live := 0 }) id e.fuel
      | none =>
      if hostBase ≤ dst then
        State.pump (((s.hostWrite (dst - hostBase) bytes (ans == .poison)).modEngine id fun e => { e with poison := e.poison || ans == Answer.poison }).engineWrote e n) id e.fuel
      else
      let rt := s.route e.lid dst
      let s := if e.node < 0x400 then s.l1Drop e.node dst n else s
      let s := s.modEngine id fun e => { e with poison := e.poison || ans == .poison }
      s.ask e.node { dst := rt.node, body := .bulkWrite rt.ia bytes (ans == .poison), lid := e.lid, gen := rt.gen, slot := e.slot, gid := e.gid,
                     va := (e.todo.head?.map (·.vdst)).getD 0#64, handler := e.handler, use := .engineWrite id n }
/-- A chunk has been written or refused: the barrier object is updated, and the next chunk goes (R381, R383). After bytes whose source
failed, that failure is the operation's fault, reported with their last chunk. -/
def State.engineAck (s : State) (r : Req) (id n : Nat) (ans : Answer) : State :=
  match s.engines.find? fun e => e.id == id with
  | none => s
  | some e =>
    let s := s.engineWrote e n
    let s := match (e.todo.head?.map fun q => (q.n, q.after)), ans with
      | some (m, some (c, d, va)), _ => if m ≤ n then s.engineFault e va c d else s
      | _, .fault c d => s.engineFault e r.va c d
      | _, _ => s
    s.pump id e.fuel

/-! ## Events and records -/

/-- A producer's slot that holds an event, and no record of the core's own (R176). -/
def EvSlot.isEvent (v : EvSlot) : Bool := match v.body with
  | .event .. => true
  | _ => false
/-- A producer's slot for a destination. -/
def EvSlot.isFor (v : EvSlot) (dst : Nat) : Bool := v.dst == dst && v.isEvent
/-- Send the event of a slot: a new packet with the next SEQ (R36, R176). -/
def State.sendSlot (s : State) (p : Nat) (v : EvSlot) : State :=
  let vt := match v.body with
    | .event _ _ vt _ _ => vt
    | _ => 0#32
  let s := s.modCore p fun c => { c with evSlots := c.evSlots.map fun w => if w == v then { w with retry := false } else w }
  s.ask p { dst := v.dst, body := v.body, lid := (s.core p).lid, use := .event v.slot, vt := vt, owner := v.owner }
/-- A record that an engine or an agent writes to a core's stream 15: an event-plane packet with REC = 1 (R385), counted by the
leaf that sends it (R132). The core's own records meet its inbox at once. -/
def State.sendRecord (s : State) (src dst : Nat) (vt : BitVec 32) (r : BitVec 128) : State :=
  if src = dst then s.ownRecord dst r
  else s.ask src { dst := dst, body := .record r, lid := 0, use := .record, vt := vt }
/-- The record of a lost packet (R41). -/
def lostRecord (c : Core) (node : Nat) (seq : BitVec 16) (plane pkind : Nat) (epoch : BitVec 32) : BitVec 128 :=
  0#10 ++ epoch.extractLsb' 0 16 ++ BitVec.ofNat 4 pkind ++ BitVec.ofNat 2 plane ++ seq ++ BitVec.ofNat 16 c.lcore ++ c.vtime ++ 0#8 ++ 15#4
    ++ BitVec.ofNat 12 node ++ 0x21#8
/-- The record of a delegated atomic (R74). -/
def ramoRecord (status : Nat) (tag : BitVec 8) (vt : BitVec 32) (old : Word) : BitVec 128 :=
  old ++ vt ++ 0#8 ++ 15#4 ++ tag ++ BitVec.ofNat 4 status ++ 0x22#8
/-- The record of a matrix command (R172). -/
def matrixRecord (status : Nat) (tag : BitVec 8) (vt : BitVec 32) (pos : Nat) (mig : Bool) : BitVec 128 :=
  0#53 ++ BitVec.ofBool mig ++ BitVec.ofNat 10 pos ++ vt ++ 0#8 ++ 15#4 ++ tag ++ BitVec.ofNat 4 status ++ 0x26#8

/-! ## Answers -/

/-- Put n bytes into a vector register at a byte. -/
def VCtx.putBytes (v : VCtx) (r : BitVec 5) (at0 : Nat) (bs : List Byte) : VCtx :=
  let mask : VecWord := BitVec.ofNat 2048 ((2 ^ (8 * bs.length) - 1) <<< (8 * at0))
  let new : VecWord := BitVec.ofNat 2048 (natOfBytes bs <<< (8 * at0))
  { v with v := v.v.set (regIx r) ((v.v.get (regIx r) &&& ~~~mask) ||| new) }
/-- Note a refused element of the head command: the lowest one counts (R336). -/
def VCtx.note (v : VCtx) (e : Nat) (d : BitVec 4) : VCtx :=
  match v.fault with
  | some (k, _) => if e < k then { v with fault := some (e, d) } else v
  | none => { v with fault := some (e, d) }
/-- An element's fault or poison, answered or met at the core's own bank (R146, R336); a lease violation ends the group. -/
def State.badElem (s : State) (p slot : Nat) (handler : Bool) (va : Word) (ctx : Bool) (e : Nat) (ans : Answer) : State :=
  match ans with
  | .ok => s
  | .poison =>
    let s := s.modRect (s.rectOf p) fun r => { r with pcons := r.pcons + 1 }
    if s.policy1 p then s.beginContain p (some slot) va else s.modCore p fun c => c.modCtx ctx fun x => x.note e 0xA#4
  | .fault c _ =>
    if c = 0x05#8 then s.reportFault p slot handler { code := c, tval := va }
    else s.modCore p fun k => k.modCtx ctx fun x => x.note e (c.extractLsb' 0 4)
/-- An element's answer that is no success. -/
def State.elemBad (s : State) (r : Req) (ctx : Bool) (e : Nat) (ans : Answer) : State :=
  s.badElem r.src (r.slot.getD 0) r.handler r.va ctx e ans
/-- A word of the head `vldq` arrives: the command holds it, since the pair is one element and is written whole (R336, R343). -/
def VCtx.putQ (v : VCtx) (j : QReg) (qc : Bool) (w : Word) : VCtx :=
  match v.queue with
  | h :: q => if h.op = .loadq true j ∨ h.op = .loadq false j then { v with queue := (if qc then { h with s2 := w } else { h with s1 := w }) :: q } else v
  | [] => v
/-- The head `vldq` writes its pair. -/
def VCtx.putPair (v : VCtx) : VCtx :=
  match v.queue with
  | h :: _ => match h.op with
    | .loadq _ j => { v with qm := v.qm.set j.toFin h.s1, qc := v.qc.set j.toFin h.s2 }
    | _ => v
  | [] => v

/-- µs since the later of a thread's last retirement and the core's last write of WDCTL (R211, R219). -/
def State.idleUs (s : State) (p : Nat) (t : Thread) : Nat := (s.time - (if t.lastRet.ult (s.core p).wdTime then (s.core p).wdTime else t.lastRet)).toNat / 1000
/-- An abandoned remote wait (R161): its instruction is to be executed afresh, and a watchdog trap that waited for this is taken. -/
def State.abandonWait (s : State) (w : Req) : State :=
  let s := { s with reqs := s.reqs.erase w }
  match w.slot with
  | none => s
  | some slot => match s.thread? w.src slot with
    | none => s
    | some t =>
      let s := s.setThread w.src slot { t.wake with arrived := none, wdPending := false, digNext := none }
      if t.wdPending && !t.trapDue then s.takeTrap w.src slot { code := 0x13#8, tval := BitVec.ofNat 64 (s.idleUs w.src t) } else s
/-- The requests that a withdrawal names (R161). -/
def State.waitFor (s : State) (src dst : Nat) (ns : Bool) (seq : BitVec 16) : Option Req :=
  s.reqs.find? fun r => r.src == src && r.dst == dst && r.ns == ns && r.seq == seq &&
    (match r.use with
     | .tagged _ _ => true
     | _ => false)

/-- A request is the withdrawal of a wait: it goes when the wait's own answer lands first (R161). -/
def Req.withdraws (q r : Req) : Bool :=
  match q.use with
  | .withdrawal dst ns seq => q.src == r.src && dst == r.dst && ns == r.ns && seq == r.seq
  | _ => false
/-- A flushed entry of a dale reduction unit has been acknowledged: it is free (R194). -/
def State.druFree (s : State) (d e : Nat) : State := { s with dru := s.dru.filter fun x => !(x.1 == d && x.2.id == e) }
/-- The home has refused a flushed entry: the fault is reported to each thread whose reduction it combines (R58, R73, assumption 78). -/
def State.druBad (s : State) (d e : Nat) (ans : Answer) : State :=
  match ans, s.dru.find? fun x => x.1 == d && x.2.id == e with
  | .fault c k, some x => x.2.askers.foldl (fun s a =>
      if (s.thread? a.1 a.2.1).any fun t => t.group == a.2.2.1 then
        s.reportFault a.1 a.2.1 a.2.2.2.2 { code := c, detail := k, tval := a.2.2.2.1 }
      else s) s
  | _, _ => s
/-- The records that an agent has still to deliver (R132): the bound of a delivered one ends. -/
def Leaf.delivered (l : Leaf) (dst : Nat) (vt : BitVec 32) : Leaf :=
  match l.bounds.find? fun b => b.dst == dst && b.vt == vt with
  | some b => { l with bounds := l.bounds.erase b }
  | none => l
/-- The line that a load's miss fetched, put into the L1 (R164). -/
def Core.fillWith (c : Core) (fill : Option Nat) (bytes : List Byte) (lru : Bool := false) : Core :=
  match fill with
  | some line => c.l1Fill line bytes lru
  | none => c
/-- Complete an access with its final answer (R36, R37, R54, R72): the request leaves, and its use decides. -/
def State.complete (s : State) (r : Req) (bytes : List Byte) (ans : Answer) : State :=
  let s := { s with reqs := (s.reqs.erase r).filter fun q => !(r.withdrawn && q.withdraws r) }
  let s := s.countDrain r ans
  match r.use with
  | .load rd n sg off fill lru =>
    match ans with
    | .ok =>
      let s := s.modAsker r fun t => t.wx rd (loadVal n sg (bytes.drop off))
      s.modCore r.src fun c => c.fillWith fill bytes lru
    | _ => (s.modAsker r fun t => t.clearX rd).answerBad r ans
  | .atomic rd w =>
    match ans with
    | .ok => s.modAsker r fun t => t.wx rd (atomExt w (wordOf bytes))
    | _ => (s.modAsker r fun t => t.clearX rd).answerBad r ans
  | .recWord off fill =>
    match ans with
    | .ok =>
      let s := s.modAsker r fun t => match t.run, t.readRec with
        | .running, some got => { t with readRec := some (got ++ (bytes.drop off).take 8) }
        | _, _ => t
      s.modCore r.src fun c => c.fillWith fill bytes
    | _ => s.answerBad r ans
  | .store => s.answerBad r ans
  | .tagged op rd =>
    match ans with
    | .ok =>
      let s := s.modAsker r fun t => { (if op = .lwf ∨ op = .take then t.wx rd (wordOf bytes) else t).finish s.time with wdPending := false }
      if op = .lwf ∨ op = .take then s.askerAcquire r else s
    | .poison => (s.modAsker r fun t => t.finish s.time).answerBad r ans
    | .fault _ _ => (s.modAsker r fun t => { t with digNext := none }.finish s.time).answerBad r ans
  | .tagQuery pd =>
    match ans with
    | .ok => s.modAsker r fun t => (t.wp pd ((wordOf bytes).getLsbD 0)).finish s.time
    | _ => (s.modAsker r fun t => t.finish s.time).answerBad r ans
  | .acquire rd =>
    match ans with
    | .ok => (s.modAsker r fun t => (t.wx rd (wordOf bytes)).finish s.time).askerAcquire r
    | _ => (s.modAsker r fun t => t.finish s.time).answerBad r ans
  | .fetch line =>
    match ans with
    | .ok => s.modCore r.src fun c => { c with ic := (line, bytes, false) :: (c.ic.filter fun e => e.1 ≠ line).take 511 }
    | .poison => s.modCore r.src fun c => { c with ic := (line, bytes, true) :: (c.ic.filter fun e => e.1 ≠ line).take 511 }
    | .fault c d => s.answerFault r c d
  | .engineRead id dst n => s.engineData r id dst n bytes ans
  | .engineWrite id n => s.engineAck r id n ans
  | .flush d e => (s.druBad d e ans).druFree d e
  | .event _ =>
    let s := s.modCore r.src fun c => { c with evSlots := c.evSlots.filter fun v => !v.isFor r.dst }
    if ans = .ok then s else s.countEvDrop r.src
  | .push => if ans = .ok then s else (s.countDrop r.src).answerBad r ans
  | .context slot =>
    if ans = .ok then s.modCore r.src fun c => { c with threads := tblErase c.threads slot }
    else s.modThread r.src slot fun t => { t with run := .running, stay := true }
  | .withdrawal dst ns seq =>
    match s.waitFor r.src dst ns seq with
    | some w => s.abandonWait w
    | none => s
  | .ramo =>
    match r.body with
    | .delegated _ _ _ _ tag => if ans = .ok then s else s.ownRecord r.src (ramoRecord 8 tag r.vt 0#64)
    | _ => s
  | .matrix =>
    match r.body with
    | .matrix _ tag _ _ _ =>
      if ans = .ok then s
      else s.ownRecord r.src (matrixRecord (if ans = .fault 0x04#8 5#4 then 3 else 5) tag (s.core r.src).vtime r.dst false)
    | _ => s
  | .debug => s
  | .ingress h => s.ingressDone r h bytes ans
  | .vload ctx v e at0 n off fill =>
    if ans = .ok then s.modCore r.src fun c =>
      (c.modCtx ctx fun x => x.putBytes v at0 ((bytes.drop off).take n)).fillWith fill bytes
    else s.elemBad r ctx e ans
  | .vloadq ctx j qc off fill =>
    if ans = .ok then s.modCore r.src fun c =>
      (c.modCtx ctx fun x => x.putQ j qc (wordOf ((bytes.drop off).take 8))).fillWith fill bytes
    else s.elemBad r ctx 0 ans
  | .vstore ctx e => s.elemBad r ctx e ans
  | .record =>
    let s := if r.src < 0x400 then s else { s with leaves := tblSet s.leaves r.src ((s.leaf r.src).delivered r.dst r.vt) }
    if ans = .ok then s else if r.dst < 0x400 then s.countEvDrop r.dst else s

/-- An access completes as lost (R36): peer unreachable for a target on a peer, target fenced otherwise. -/
def State.lost (s : State) (r : Req) : State :=
  match r.use with
  | .withdrawal .. => s.complete r [] .ok
  | _ => s.complete r [] (.fault (if r.toPeer then 0x08#8 else 0x09#8) 0#4)

end Sys2Proof.Machine
end

