-- ==== Sys2Proof/Machine/CoreRegs.lean ====
section
/-! DEFINITION. The core window beyond the scratchpad (R54): the accumulators (R312) and the control registers of a core (R122, R134,
R179, R180, R219, R225), read and written by the core's own threads, remote cores and the management core. -/
namespace Sys2Proof.Machine

/-! ## Accumulators -/

/-- An accumulator element: row·32 + column (R54). -/
def Core.accGet (c : Core) (k e : Nat) : BitVec 32 := tblGetD (c.acc.toList.getD k []) e 0#32
/-- Set an accumulator element. -/
def Core.accSet (c : Core) (k e : Nat) (v : BitVec 32) : Core :=
  if h : k < 4 then { c with acc := c.acc.set k (tblPut (c.acc[k]'h) e (if v = 0#32 then none else some v)) } else c
/-- A byte of the accumulator window. -/
def Core.accByte (c : Core) (o : Nat) : Byte := (c.accGet (o / 8192) (o % 8192 / 4)).extractLsb' (8 * (o % 4)) 8
/-- Store a byte of the accumulator window. -/
def Core.accPutByte (c : Core) (o : Nat) (b : Byte) : Core :=
  let v := c.accGet (o / 8192) (o % 8192 / 4)
  let sh := 8 * (o % 4)
  c.accSet (o / 8192) (o % 8192 / 4) ((v &&& ~~~((0xFF#32) <<< sh)) ||| (b.setWidth 32 <<< sh))
/-- n bytes of the accumulator window. -/
def Core.accRead (c : Core) (o : Nat) : Nat → List Byte
  | 0 => []
  | n + 1 => c.accByte o :: c.accRead (o + 1) n
/-- Store bytes of the accumulator window. -/
def Core.accWrite (c : Core) (o : Nat) : List Byte → Core
  | [] => c
  | b :: bs => (c.accPutByte o b).accWrite (o + 1) bs

/-! ## Values derived from the state -/

/-- A number as a field at a place. -/
def fieldAt (n k : Nat) : Word := BitVec.ofNat 64 n <<< k
/-- A slot holds a thread. -/
def Core.busy (c : Core) (slot : Nat) : Bool := (tblGet? c.threads slot).isSome
/-- Slots that hold a thread, as bits. -/
def Core.slotBits (c : Core) (f : Thread → Bool) : Word :=
  c.threads.foldl (fun w st => if f st.2 then w ||| (1#64 <<< st.1) else w) 0#64
/-- Free slots. -/
def Core.freeSlots (c : Core) : List Nat := (List.range 16).filter fun k => !c.busy k
/-- The core is a thief (R112), as far as the core itself decides. -/
def Core.thief (c : Core) : Bool :=
  c.auto && c.steal && c.deque.isEmpty && c.spill.isEmpty && !c.freeSlots.isEmpty && c.recasting.isNone && !c.halted && c.lid != 0 && c.hasRole
/-- A refill is due (R111). -/
def Core.refillDue (c : Core) : Bool := c.deque.length ≤ 8 && !c.spill.isEmpty
/-- Every thread of the core is halted (R122). -/
def Core.allHalted (c : Core) : Bool := c.halted && c.threads.all fun st => match st.2.run with
  | .running | .sleeping _ => false
  | _ => true
/-- Pending destination registers and unsettled remote waits (R122, R161). -/
def State.pending (s : State) (p : Nat) : Nat :=
  (s.core p).threads.foldl (fun n st => n + (List.range 32).foldl (fun k i => if st.2.pendX.getLsbD i then k + 1 else k) 0) 0
    + (s.reqs.filter fun r => r.src == p && r.withdrawn).length
/-- The core's part of R119 step 4: no access, engine operation, record or decrement of it in flight. -/
def State.quiet (s : State) (p : Nat) : Bool :=
  (s.core p).allHalted && !(s.reqs.any fun r => r.src == p) && !(s.engines.any fun e => e.node == p) && !(s.core p).stealOut
/-- The value INBCTL reads: a held write is seen at once (R180). -/
def Core.inbCtl (c : Core) : Word := c.inbHeld.getD (fieldAt c.inbCap 0 ||| fieldAt c.inbRes15 16)

/-! ## The control registers -/

/-- Read a control register of a core; an unassigned offset reads zero (R6). -/
def State.ctlRead (s : State) (p off : Nat) : Word :=
  let c := s.core p
  match off with
  | 0x000 => fieldAt p 0 ||| fieldAt (c.lcore % 1024) 16 ||| fieldAt (basinOf p) 32 ||| fieldAt (daleIn p) 36
  | 0x008 => c.slotBits (fun _ => true) ||| (c.slotBits (fun t => t.home.isSome) <<< 16) ||| bitAt c.v0.owner.isSome 32 ||| bitAt c.v1.owner.isSome 33
  | 0x018 => bitAt c.exEn 0 ||| bitAt c.exSel 1 ||| (c.exSwaps.setWidth 64 <<< 32)
  | 0x020 => c.spce.setWidth 64 ||| (c.par.setWidth 64 <<< 32)
  | 0x200 => bitAt c.auto 0 ||| bitAt c.steal 1 ||| bitAt c.daleOnly 2 ||| fieldAt (c.boMax % 16) 3
  | 0x208 => fieldAt c.deque.length 0 ||| fieldAt c.spill.length 7 ||| bitAt c.thief 19 ||| bitAt c.refillDue 20
  | 0x210 => fieldAt (c.dqSpill % 2 ^ 56) 0
  | 0x218 => c.xferSent.setWidth 64 ||| (c.xferRecv.setWidth 64 <<< 32)
  | 0x228 => bitAt c.allHalted 0 ||| bitAt (s.quiet p) 1 ||| fieldAt (min (s.pending p) 255) 8
  | 0x300 => bitAt c.vtGvtRec 0 ||| (c.vtStep.setWidth 64 <<< 32)
  | 0x308 => c.vtStrag.setWidth 64 ||| bitAt c.vtSat 32 ||| bitAt c.unbounded 33
  | 0x310 => c.gvt.setWidth 64 ||| (c.gvtRound.setWidth 64 <<< 32)
  | 0x400 => c.inbCtl
  | 0x408 => fieldAt c.inbox.length 0 ||| c.inbox.foldl (fun w e => w ||| (1#64 <<< (9 + e.stream))) 0#64 ||| bitAt c.inbOvf 25
      ||| (c.inbNacks.setWidth 64 <<< 32)
  | 0x500 => c.mxKey.setWidth 64 ||| bitAt c.mxEn 32
  | 0x508 => fieldAt c.matrixQ.length 0 ||| bitAt c.tileBusy.isSome 4 ||| (c.mxMig.setWidth 64 <<< 32)
  | 0x600 => fieldAt c.sd.tbase 0 ||| fieldAt c.sd.tlen 32
  | 0x608 => fieldAt c.sd.rbase 0 ||| fieldAt c.sd.nroute 32
  | 0x610 => c.sdSent.setWidth 64 ||| fieldAt c.sdBad 32
  | 0x700 => c.dbgctl
  | 0x708 => c.dbgstat
  | 0x710 => c.bp[0]
  | 0x718 => c.bp[1]
  | 0x720 => c.bp[2]
  | 0x728 => c.bp[3]
  | 0x730 => c.wp[0]
  | 0x738 => c.wp[1]
  | 0x740 => c.dbgmatch
  | 0x748 => c.trcctl
  | 0x750 => c.trcbase
  | 0x758 => c.trcsize
  | 0x760 => c.trchead
  | 0x768 => c.wdLimit.setWidth 64
  | _ => 0#64

/-- A write to INBCTL: ignored as a whole with a bad CAP or RES15, held while entries are in use (R180). -/
def Core.writeInbctl (c : Core) (v : Word) : Core :=
  let cap := (v.extractLsb' 0 9).toNat
  let res := (v.extractLsb' 16 5).toNat
  if cap < 4 || 256 < cap || 16 < res || cap ≤ res then c
  else if c.inbox.isEmpty then { c with inbCap := cap, inbRes15 := res, inbHeld := none }
  else { c with inbHeld := some (fieldAt cap 0 ||| fieldAt res 16) }
/-- A held write to INBCTL takes effect when no entry is in use (R180). -/
def Core.applyInbctl (c : Core) : Core :=
  match c.inbHeld with
  | some v => if c.inbox.isEmpty then { c with inbCap := (v.extractLsb' 0 9).toNat, inbRes15 := (v.extractLsb' 16 5).toNat, inbHeld := none } else c
  | none => c
/-- A write to TRCCTL (R225, R226): EN is ignored while TRACE is closed; setting it starts the ring with TSFULL. -/
def State.writeTrcctl (s : State) (p : Nat) (v : Word) : State :=
  let v := v &&& 0x1F#64
  let v := if s.feature 2 then v else v &&& ~~~1#64
  if v.getLsbD 0 then
    (s.modCore p fun c =>
      { c with trcctl := v, trchead := 0#64, trcPc := 0#64, trcLast := s.time, trcGap := 0, trcBuf := [0xF#64, s.time] }).traceDrain p
  else s.modCore p fun c => { c with trcctl := v }

/-- Write a control register of a core; read-only fields keep their values (R6). -/
def State.ctlWrite (s : State) (p off : Nat) (v : Word) : State :=
  match off with
  | 0x010 => if v.getLsbD 0 then s.l1Clear p else s
  | 0x200 => s.modCore p fun c =>
      { c with auto := v.getLsbD 0, steal := v.getLsbD 1, daleOnly := v.getLsbD 2, boMax := (v.extractLsb' 3 4).toNat }
  | 0x300 => s.modCore p fun c => { c with vtGvtRec := v.getLsbD 0, vtStep := v.extractLsb' 32 32 }
  | 0x400 => s.modCore p fun c => c.writeInbctl v
  | 0x408 => s.modCore p fun c => { c with inbOvf := c.inbOvf && !v.getLsbD 25 }
  | 0x500 => s.modCore p fun c => { c with mxKey := v.extractLsb' 0 32, mxEn := v.getLsbD 32 }
  | 0x600 => s.modCore p fun c => { c with sd := { c.sd with tbase := (v.extractLsb' 3 15).toNat * 8, tlen := (v.extractLsb' 32 16).toNat } }
  | 0x608 => s.modCore p fun c => { c with sd := { c.sd with rbase := (v.extractLsb' 4 14).toNat * 16, nroute := (v.extractLsb' 32 7).toNat } }
  | 0x700 => s.modCore p fun c => { c with dbgctl := v &&& 0x1F#64 }
  | 0x710 => s.modCore p fun c => { c with bp := c.bp.set 0 v }
  | 0x718 => s.modCore p fun c => { c with bp := c.bp.set 1 v }
  | 0x720 => s.modCore p fun c => { c with bp := c.bp.set 2 v }
  | 0x728 => s.modCore p fun c => { c with bp := c.bp.set 3 v }
  | 0x730 => s.modCore p fun c => { c with wp := c.wp.set 0 (v &&& 0x00FFFFFFFFFFFFFF#64) }
  | 0x738 => s.modCore p fun c => { c with wp := c.wp.set 1 (v &&& 0x00FFFFFFFFFFFFFF#64) }
  | 0x740 => s.modCore p fun c => { c with dbgmatch := v &&& 0x3FFFFFFF#64 }
  | 0x748 => s.writeTrcctl p v
  | 0x750 => s.modCore p fun c => { c with trcbase := v &&& 0x00FFFFFFFFFFF000#64 }
  | 0x758 => s.modCore p fun c => { c with trcsize := v &&& 0xFFFF#64 }
  | 0x768 => s.modCore p fun c => { c with wdLimit := v.extractLsb' 0 32, wdTime := s.time }
  | _ => s

/-! ## The register windows (R54, R217) -/

/-- A word of a thread context at its offset, for a STATUS as it reads (R217); p0 is true (R294). -/
def Thread.contextWord (t : Thread) (status : Word) (o : Nat) : Word :=
  if o < 0x100 then t.x.toList.getD (o / 8) 0#64
  else match o with
    | 0x100 => (t.p ||| 1#8).setWidth 64
    | 0x108 => t.pc
    | 0x110 => status
    | 0x118 => t.estatus
    | 0x120 => t.epc
    | 0x128 => t.tcause
    | 0x130 => t.tval
    | 0x138 => t.tscratch
    | 0x140 => t.stklim
    | 0x148 => BitVec.ofNat 64 t.skid
    | 0x150 => t.tstop
    | 0x158 => if t.nomad then 0#64 else t.fflags
    | _ => 0#64
/-- VSTATE (R337): NEXT in [15:0], PART in bit 16, QLEN in [20:17]. -/
def VCtx.vstate (v : VCtx) : Word := fieldAt v.next 0 ||| bitAt v.part 16 ||| fieldAt v.queue.length 17
/-- A word of a vector context at its offset (R217). -/
def VCtx.contextWord (v : VCtx) (o : Nat) : Word :=
  if o < 0x2000 then (v.v.toList.getD (o / 256) 0#2048).extractLsb' (o % 256 * 8) 64
  else if o < 0x2100 then (v.m.toList.getD ((o - 0x2000) / 32) 0#256).extractLsb' (o % 32 * 8) 64
  else if o < 0x2120 then v.qm.toList.getD ((o - 0x2100) / 8) 0#64
  else if o < 0x2140 then v.qc.toList.getD ((o - 0x2120) / 8) 0#64
  else if o = 0x2140 then v.vstate
  else 0#64
/-- A word of the register windows, as the management core's debug access reads it (R54, R217). -/
def Core.regWindow (c : Core) (o : Nat) : Word :=
  if o < 0x2000 then ((tblGet? c.threads (o / 0x200)).map fun t => t.contextWord (c.statusOf t) (o % 0x200)).getD 0#64
  else if o < 0x5000 then c.v0.contextWord (o - 0x2000)
  else if o < 0x8000 then c.v1.contextWord (o - 0x5000)
  else 0#64

/-! ## A request at a core -/

/-- A request at a core's window, after the checks that the issuing core makes (R54): its scratchpad, its accumulators, its
control registers, or a refusal. Launch 0 is the management core. -/
def State.coreRequest (s : State) (p lid : Nat) (gen : Option Nat) (b : Body) (ia : Nat) (who : Who) : State × Did :=
  let refuse (d : BitVec 4) : State × Did := (s, .done (.fault 0x04#8 d) [])
  match placeOf ia with
  | .sp _ off => s.spRequest p off lid gen b who
  | .acc _ o =>
    if lid ≠ 0 && (s.core p).lid ≠ lid then refuse 5#4
    else match b with
      | .read _ n | .bulkRead _ n => (s, .done .ok ((s.core p).accRead o n))
      | .write _ d _ | .bulkWrite _ d _ => (s.modCore p fun c => c.accWrite o d, .done .ok [])
      | _ => refuse 5#4
  | .ctl _ off =>
    if lid ≠ 0 && (s.core p).lid ≠ lid then refuse 5#4
    else match b with
      | .read _ 8 => (s, .done .ok (bytesOf (s.ctlRead p off) 8))
      | .write _ d _ => (s.ctlWrite p off (wordOf d), .done .ok [])
      | _ => refuse 5#4
  | .regw _ => refuse 8#4
  | _ => refuse (match b with
      | .xst _ _ => 5#4
      | _ => 4#4)

end Sys2Proof.Machine
end

