-- ==== Sys2Proof/Machine/Access.lean ====
section
/-! DEFINITION. The shape of a memory instruction: issue checks, nomad migration (R154), the issue rules (R152, R184, R187), the
rule of a check run (R142), waits for earlier accesses and the dale reduction unit (R186, R190, R194). -/
namespace Sys2Proof.Machine

/-- Run a meaning on the issuing thread's group and launch. -/
def withGroup (s : State) (t : Thread) (k : Group → Launch → Out) : Out :=
  match s.groupOf s.pos t with
  | none => .fault .noThread
  | some g => match s.launch? g.lid with
    | none => .fault .noThread
    | some l => k g l

/-- The issuing thread's request. -/
def Thread.asks (t : Thread) (s : State) (dst : Nat) (b : Body) (lid : Nat) (gen : Option Nat) (va : Word) (u : Use) (sc : Nat := 0) : Ask :=
  { dst := dst, body := b, lid := lid, gen := gen, slot := some s.slot, gid := t.group, va := va, handler := t.th, use := u,
    vt := (s.core s.pos).vtime, scope := sc }

/-- The core that a migration would go to (R154), for a kind of access that may migrate. -/
def State.migrateTo (s : State) (t : Thread) (l : Launch) (ia : Nat) : Option Nat :=
  match placeOf ia with
  | .sp q _ => if t.nomad && !t.stay && q ≠ s.pos && l.inRect q && !t.th && t.pc.ult 0x10000000000#64 && !(s.groupOf s.pos t).any (·.stepping) then some q else none
  | _ => none
/-- Send the context (R155 step 1, R156). -/
def State.migrate (s : State) (t : Thread) (l : Launch) (q : Nat) : State :=
  let body : Body := .context ((t.x.toList.drop 1).take 15) t.pc t.p (t.homePos s.pos) (t.homeSlot s.slot) (t.status.getLsbD 3)
  let a := { t.asks s q body l.lid none 0#64 (.context s.slot) with slot := none }
  (s.ask s.pos a).setCur { t with run := .transit q }

/-- An address of the issuing core itself: its scratchpad, accumulators or control registers. -/
def ownPlace (p ia : Nat) : Bool :=
  match placeOf ia with
  | .sp q _ | .acc q _ | .ctl q _ => q = p
  | _ => false

/-- A memory instruction from its address on: the issue checks, the migration of a nomad thread's access, the issue rules. -/
def access (s : State) (t : Thread) (a : Acc) (moves returning : Bool) (k : Group → Launch → Nat → Out) : Out :=
  match checkAcc s s.pos t a with
  | .error tr => .next (s.trap tr)
  | .ok ia => withGroup s t fun g l =>
    match (if moves then s.migrateTo t l ia else none) with
    | some q => if (s.accesses s.pos s.slot).isEmpty then .next (s.migrate t l q) else stall s
    | none => if s.mayIssue s.pos s.slot (s.route l.lid ia).ia returning then k g l ia else stall s

/-- The rule of a check run for an access (R142). -/
def checked (s : State) (t : Thread) (g : Group) (ia n : Nat) (load ret : Bool) (fold : Out) (perform : Out) : Out :=
  match s.checkAct s.pos t g ia n load ret with
  | .perform => perform
  | .foldOnly => fold
  | .void => .next (s.voidRun t g)

/-- Perform an access at the issuing core itself. -/
def State.atOwn (s : State) (l : Launch) (b : Body) (ia : Nat) (rd : Reg) : State × Did :=
  s.coreRequest s.pos l.lid none b ia { slot := some (s.slot, rd), node := s.pos, ns := false, seq := 0#16 }
/-- Retire a store, reduction or exchange store that has been issued: the L1 line is invalidated, the digest takes the effect, a
watchpoint may match (R140, R164, R220). -/
def State.issued (s : State) (t : Thread) (va : Word) (ia n : Nat) (rd wr : Bool) : State :=
  ((if wr then s.l1Drop s.pos ia n else s).retire t).watchIssue s.pos s.slot t ia n rd wr
/-- The result of an access at the issuing core: an ownership fault is reported (R54, R72). -/
def State.ownFault (s : State) (t : Thread) (va : Word) (ans : Answer) : State :=
  match ans with
  | .fault c d => s.reportFault s.pos s.slot t.th { code := c, detail := d, tval := va }
  | _ => s

/-! ## Waiting for earlier accesses, and the dale reduction unit -/

/-- Flush the unflushed entries of a dale that a test names (R194): the state and the numbers of every entry of them still
waiting for its home. -/
def State.flushDale (s : State) (d : Nat) (f : DruEntry → Bool) : State × List Nat :=
  let mine := (s.dru.filter fun e => e.1 == d && f e.2).map (·.2)
  let s := (mine.filter fun e => !e.flushed).foldl (fun s e =>
    let s := { s with dru := s.dru.map fun (x : Nat × DruEntry) => if x.2.id == e.id then (x.1, { x.2 with flushed := true }) else x }
    let rt := s.route e.lid e.ia
    s.ask (daleRoot d) { dst := rt.node, body := .reduce rt.ia e.w e.op e.v, lid := e.lid, gen := rt.gen, use := .flush d e.id }) s
  (s, mine.map (·.id))
/-- Wait until the accesses that a test names have been answered; then flush the entries that a test names and wait for them. -/
def drain (s : State) (t : Thread) (busy : Bool) (flush : Option (DruEntry → Bool)) (k : Out) : Out :=
  if busy then stall s
  else match flush with
    | none => k
    | some f => match t.flushing with
      | some ids => if ids.any fun i => s.dru.any fun x => x.2.id == i then stall s else k
      | none =>
        let r := s.flushDale (daleOf s.pos) f
        if r.2.isEmpty then k else .next (r.1.setCur { t with flushing := some r.2 })
/-- Wait until every earlier access of the thread has been answered, at any reach; nothing is flushed (R196, R202, R391). -/
def accessWait (s : State) (t : Thread) (k : Out) : Out := drain s t (!s.drained s.pos s.slot .s) none k
/-- Wait as `fence` of a scope does (R186). -/
def fenceWait (s : State) (t : Thread) (sc : Scope) (k : Out) : Out :=
  drain s t (!s.drained s.pos s.slot sc) (if sc = .g then none else some fun _ => true) k
/-- An intermediate address of an earlier access of a group, as the program named it. -/
def Req.namedIa (r : Req) (g : Group) : Option Nat := (spanFor g.spans r.va 1).map fun sp => sp.ia r.va
/-- Bytes that an access of the program names: of a load, its own, whatever line it fetches. -/
def Req.namedSize (r : Req) : Nat :=
  match r.use with
  | .load _ n _ _ _ _ => n
  | .recWord .. => 8
  | _ => r.body.size
/-- Wait as a release on a sync object does (R190, R191). -/
def releaseWait (s : State) (t : Thread) (g : Group) (sync : Nat) (k : Out) : Out :=
  let inBound (ia n : Nat) := t.home.isSome || (g.bound sync).any fun b => ia < b.region + 2 ^ b.log2 && b.region < ia + n
  drain s t ((s.accesses s.pos s.slot).any fun r => match r.namedIa g with
      | some ia => inBound ia r.namedSize
      | none => t.home.isSome)
    (if t.home.isSome || !(g.bound sync).isEmpty then some fun e => inBound e.ia (atomBytes e.w) else none) k

/-- A reduction of scope .d at the dale reduction unit (R194), for a thread: none while every entry is occupied, after the oldest
unflushed entry has been flushed. -/
def State.druReduce (s : State) (d ia : Nat) (w : AtomWidth) (op : RedOp) (v : Word) (lid : Nat) (who : Nat × Nat × Nat × Word × Bool) : State × Bool :=
  let same (e : DruEntry) := !e.flushed && e.ia == ia
  match s.dru.find? fun x => x.1 == d && same x.2 && x.2.w == w && x.2.op == op with
  | some x =>
    let v' := amoWord w (redAmo op) x.2.v v
    ({ s with dru := s.dru.map fun (y : Nat × DruEntry) => if y.2.id == x.2.id then (y.1, { y.2 with v := v', askers := y.2.askers ++ [who] }) else y }, true)
  | none =>
    let s := (s.flushDale d same).1
    if (s.dru.filter fun x => x.1 == d).length < 64 then
      ({ s with dru := s.dru ++ [(d, { id := s.nextId, ia := ia, w := w, op := op, v := v, lid := lid, flushed := false, born := s.time, askers := [who] })],
                nextId := s.nextId + 1 }, true)
    else
      match s.dru.find? fun x => x.1 == d && !x.2.flushed with
      | some x => ((s.flushDale d fun e => e.id == x.2.id).1, false)
      | none => (s, false)

end Sys2Proof.Machine
end

