-- ==== Sys2Proof/Machine/Memory.lean ====
section
/-! DEFINITION. Loads, stores, tagged operations, exchange stores, atomics, reductions, delegated atomics, fences, acquire and
release, bindings, and phase waits (R310 to R328). -/
namespace Sys2Proof.Machine

/-! ## Loads (R310) -/

/-- How a load uses the L1. -/
inductive Via where | cached | home | lru
deriving DecidableEq, Repr

/-- The address is cached by the L1: memory space of this device or of a peer (R164). -/
def cacheable (ia : Nat) : Bool :=
  match placeOf ia with
  | .mem _ => true
  | .peer _ low => low < 0x800000000000
  | _ => false

/-- A load of n bytes (R310): the own core at issue, the L1, or a request with a pending destination. -/
def load (n : Nat) (sg : Bool) (via : Via) (d a : Reg) (i : BitVec 12) (s : State) : Out :=
  plain [d, a] s fun t =>
    let va := t.ea a i
    access s t { va := va, n := n, align := n, r := true, w := false, kind := .load, stack := a == 2#5 } true true fun g l ia =>
      checked s t g ia n true true (stall s)
        (if ownPlace s.pos ia then
          match s.atOwn l (.read ia n) ia d with
          | (s', .done .ok bs) => .next (s'.issued (t.wx d (loadVal n sg bs)) va ia n true false)
          | (s', .done .poison _) => .next (s'.consumePoison s.pos s.slot true t.th va)
          | (s', .done ans _) => .next ((s'.retire t).ownFault t va ans)
          | _ => stall s
        else
          let rt := s.route l.lid ia
          let sendB (b : Body) (off : Nat) (fill : Option Nat) : Out :=
            .next ((s.ask s.pos (t.asks s rt.node b l.lid rt.gen va (.load d n sg off fill (via == .lru)))).issued (t.markX d) va ia n true false)
          if via == .home || !cacheable ia then sendB (.read rt.ia n) 0 none
          else match (s.core s.pos).l1.find? fun e => e.1 == ia / 128 with
            | some e =>
              .next ((s.modCore s.pos fun c => c.l1Touch (ia / 128) (via == .lru)).issued (t.wx d (loadVal n sg (e.2.1.drop (ia % 128)))) va ia n true false)
            | none => sendB (.bulkRead (rt.ia / 128 * 128) 128) (ia % 128) (some (ia / 128)))

/-- `lb` (R310). -/
def execLb (d a : Reg) (i : BitVec 12) (s : State) : Out := load 1 true .cached d a i s
/-- `lb.b` (R310). -/
def execLbB (d a : Reg) (i : BitVec 12) (s : State) : Out := load 1 true .home d a i s
/-- `lb.n` (R310). -/
def execLbN (d a : Reg) (i : BitVec 12) (s : State) : Out := load 1 true .lru d a i s
/-- `lh` (R310). -/
def execLh (d a : Reg) (i : BitVec 12) (s : State) : Out := load 2 true .cached d a i s
/-- `lh.b` (R310). -/
def execLhB (d a : Reg) (i : BitVec 12) (s : State) : Out := load 2 true .home d a i s
/-- `lh.n` (R310). -/
def execLhN (d a : Reg) (i : BitVec 12) (s : State) : Out := load 2 true .lru d a i s
/-- `lw` (R310). -/
def execLw (d a : Reg) (i : BitVec 12) (s : State) : Out := load 4 true .cached d a i s
/-- `lw.b` (R310). -/
def execLwB (d a : Reg) (i : BitVec 12) (s : State) : Out := load 4 true .home d a i s
/-- `lw.n` (R310). -/
def execLwN (d a : Reg) (i : BitVec 12) (s : State) : Out := load 4 true .lru d a i s
/-- `ld` (R310). -/
def execLd (d a : Reg) (i : BitVec 12) (s : State) : Out := load 8 false .cached d a i s
/-- `ld.b` (R310). -/
def execLdB (d a : Reg) (i : BitVec 12) (s : State) : Out := load 8 false .home d a i s
/-- `ld.n` (R310). -/
def execLdN (d a : Reg) (i : BitVec 12) (s : State) : Out := load 8 false .lru d a i s
/-- `lbu` (R310). -/
def execLbu (d a : Reg) (i : BitVec 12) (s : State) : Out := load 1 false .cached d a i s
/-- `lbu.b` (R310). -/
def execLbuB (d a : Reg) (i : BitVec 12) (s : State) : Out := load 1 false .home d a i s
/-- `lbu.n` (R310). -/
def execLbuN (d a : Reg) (i : BitVec 12) (s : State) : Out := load 1 false .lru d a i s
/-- `lhu` (R310). -/
def execLhu (d a : Reg) (i : BitVec 12) (s : State) : Out := load 2 false .cached d a i s
/-- `lhu.b` (R310). -/
def execLhuB (d a : Reg) (i : BitVec 12) (s : State) : Out := load 2 false .home d a i s
/-- `lhu.n` (R310). -/
def execLhuN (d a : Reg) (i : BitVec 12) (s : State) : Out := load 2 false .lru d a i s
/-- `lwu` (R310). -/
def execLwu (d a : Reg) (i : BitVec 12) (s : State) : Out := load 4 false .cached d a i s
/-- `lwu.b` (R310). -/
def execLwuB (d a : Reg) (i : BitVec 12) (s : State) : Out := load 4 false .home d a i s
/-- `lwu.n` (R310). -/
def execLwuN (d a : Reg) (i : BitVec 12) (s : State) : Out := load 4 false .lru d a i s

/-! ## Stores (R311) -/

/-- A store of n bytes: the own core at issue, or a request that is not waited for (R311). The placement that `.n` asks for in
the home slice is not visible. -/
def store (n : Nat) (a b : Reg) (i : BitVec 12) (s : State) : Out :=
  plain [a, b] s fun t =>
    let va := t.ea a i
    let v := t.rx b
    access s t { va := va, n := n, align := n, r := false, w := true, kind := .store, stack := a == 2#5 } true false fun g l ia =>
      let data : Word := BitVec.ofNat 64 (v.toNat % 2 ^ (8 * n))
      let t' := s.foldChunk s.pos t g va ia n data true 0 0
      checked s t g ia n false false (.next (s.retire t'))
        (if ownPlace s.pos ia then
          match s.atOwn l (.write ia (bytesOf v n) false) ia 0#5 with
          | (s', .done .ok _) => .next (s'.issued t' va ia n false true)
          | (s', .done ans _) => .next ((s'.retire t).ownFault t va ans)
          | _ => stall s
        else
          let rt := s.route l.lid ia
          .next ((s.ask s.pos (t.asks s rt.node (.write rt.ia (bytesOf v n) false) l.lid rt.gen va .store)).issued t' va ia n false true))

/-- `sb` (R311). -/
def execSb (a b : Reg) (i : BitVec 12) (s : State) : Out := store 1 a b i s
/-- `sb.n` (R311). -/
def execSbN (a b : Reg) (i : BitVec 12) (s : State) : Out := store 1 a b i s
/-- `sh` (R311). -/
def execSh (a b : Reg) (i : BitVec 12) (s : State) : Out := store 2 a b i s
/-- `sh.n` (R311). -/
def execShN (a b : Reg) (i : BitVec 12) (s : State) : Out := store 2 a b i s
/-- `sw` (R311). -/
def execSw (a b : Reg) (i : BitVec 12) (s : State) : Out := store 4 a b i s
/-- `sw.n` (R311). -/
def execSwN (a b : Reg) (i : BitVec 12) (s : State) : Out := store 4 a b i s
/-- `sd` (R311). -/
def execSd (a b : Reg) (i : BitVec 12) (s : State) : Out := store 8 a b i s
/-- `sd.n` (R311). -/
def execSdN (a b : Reg) (i : BitVec 12) (s : State) : Out := store 8 a b i s

/-! ## Tagged operations (R313, R314) -/

/-- The digest's element of a tagged operation (R140 kind 2). -/
def State.foldTagged (s : State) (t : Thread) (g : Group) (va : Word) (ia : Nat) (op : TagOp) (v : Word) : Thread :=
  match op with
  | .take | .empty => s.foldChunk s.pos t g va ia 8 0#64 false 2 0
  | .put | .fill => s.foldChunk s.pos t g va ia 8 v true 2 1
  | _ => t
/-- The thread sleeps until the answer to the request just sent. -/
def State.sleepForReply (s : State) (t : Thread) : State :=
  match s.reqs.getLast? with
  | some r => s.setCur { t with run := .sleeping (.reply r.dst r.ns r.seq) }
  | none => s
/-- A tagged operation (R314): the own bank, whose wait table puts the thread to sleep, or a request whose reply it sleeps for. -/
def tagged (op : TagOp) (rs : List Reg) (d : Reg) (pd : Pred) (a : Reg) (v : Thread → Word) (i : BitVec 12) (s : State) : Out :=
  plain rs s fun t =>
    let va := t.ea a i
    let rets := op == .lwf || op == .take || op == .tagq
    access s t { va := va, n := 8, align := 8, r := true, w := true, kind := .tagged } true rets fun g l ia =>
      let t' := s.foldTagged t g va ia op (v t)
      checked s t g ia 8 false rets (.next (s.retire t'))
        (let go : Out :=
          if ownPlace s.pos ia then
            match s.atOwn l (.tagged ia op (v t)) ia d with
            | (s', .done .ok bs) =>
              let t2 := match op with
                | .lwf | .take => t'.wx d (wordOf bs)
                | .tagq => t'.wp pd ((wordOf bs).getLsbD 0)
                | _ => t'
              let s2 := s'.issued t2 va ia 8 false true
              .next (if op == .lwf || op == .take then s2.acquire s.pos g t.home.isSome ia else s2)
            | (s', .done .poison _) => .next ((s'.retire t').consumePoison s.pos s.slot false t.th va)
            | (s', .done ans _) => .next ((s'.retire t).ownFault t va ans)
            | (s', .waits) => .next ((s'.setCur { t with run := .sleeping .tag, digNext := some (t'.digA, t'.digB) }).watchLater s.pos s.slot t ia 8 false true)
            | (_, .busy) => stall s
          else
            let rt := s.route l.lid ia
            let use := if op == .tagq then Use.tagQuery pd else Use.tagged op d
            .next (((s.ask s.pos (t.asks s rt.node (.tagged rt.ia op (v t)) l.lid rt.gen va use)).sleepForReply { t with digNext := some (t'.digA, t'.digB) }).watchLater s.pos s.slot t ia 8 false true)
        if op == .put || op == .fill then releaseWait s t g ia go else go)

/-- `lwf` (R314). -/
def execLwf (d a : Reg) (i : BitVec 12) (s : State) : Out := tagged .lwf [d, a] d 0#3 a (fun _ => 0#64) i s
/-- `take` (R314). -/
def execTake (d a : Reg) (i : BitVec 12) (s : State) : Out := tagged .take [d, a] d 0#3 a (fun _ => 0#64) i s
/-- `tagq` (R314). -/
def execTagq (d : Pred) (a : Reg) (i : BitVec 12) (s : State) : Out := tagged .tagq [a] 0#5 d a (fun _ => 0#64) i s
/-- `empty` (R314). -/
def execEmpty (a : Reg) (i : BitVec 12) (s : State) : Out := tagged .empty [a] 0#5 0#3 a (fun _ => 0#64) i s
/-- `put` (R314). -/
def execPut (a b : Reg) (i : BitVec 12) (s : State) : Out := tagged .put [a, b] 0#5 0#3 a (fun t => t.rx b) i s
/-- `fill` (R314). -/
def execFill (a b : Reg) (i : BitVec 12) (s : State) : Out := tagged .fill [a, b] 0#5 0#3 a (fun t => t.rx b) i s

/-- `xst` (R315): always a request; the own core window is refused at issue. -/
def execXst (a b : Reg) (i : BitVec 12) (s : State) : Out :=
  plain [a, b] s fun t =>
    let va := t.ea a i
    access s t { va := va, n := 8, align := 8, r := false, w := true, kind := .xst } false false fun g l ia =>
      let t' := s.foldChunk s.pos t g va ia 8 (t.rx b) true 3 1
      checked s t g ia 8 false false (.next (s.retire t'))
        (let rt := s.route l.lid ia
         .next ((s.ask s.pos (t.asks s rt.node (.xst rt.ia (t.rx b)) l.lid rt.gen va .store)).issued t' va ia 8 false true))

/-! ## Atomics and reductions (R316 to R321) -/

/-- An atomic with return: it waits as `fence` of its scope does, without a flush (R187). -/
def atomic (sc : Scope) (w : AtomWidth) (body : Thread → Nat → Body) (d a b : Reg) (s : State) : Out :=
  plain [d, a, b] s fun t =>
    let va := t.rx a
    let n := atomBytes w
    access s t { va := va, n := n, align := n, r := true, w := true, kind := .atomic } true true fun g l ia =>
      let t' := s.foldChunk s.pos t g va ia n (atomTrunc w (t.rx b)) true 4 0
      checked s t g ia n false true (stall s)
        (drain s t (!s.drained s.pos s.slot sc) none
          (if ownPlace s.pos ia then
            match s.atOwn l (body t ia) ia d with
            | (s', .done .ok bs) => .next (s'.issued (t'.wx d (atomExt w (wordOf bs))) va ia n false true)
            | (s', .done .poison _) => .next ((s'.retire t').consumePoison s.pos s.slot false t.th va)
            | (s', .done ans _) => .next ((s'.retire t).ownFault t va ans)
            | _ => stall s
          else
            let rt := s.route l.lid ia
            .next ((s.ask s.pos (t.asks s rt.node (body t rt.ia) l.lid rt.gen va (.atomic d w) (scopeNum sc))).issued (t'.markX d) va ia n false true)))
/-- `amo<op>` (R316). -/
def amo (op : AmoOp) (sc : Scope) (w : AtomWidth) (d a b : Reg) (s : State) : Out :=
  atomic sc w (fun t ia => .atomic ia w op (atomTrunc w (t.rx b))) d a b s
/-- `amoadd` (R316). -/
def execAmoadd (f : Scope) (w : AtomWidth) (d a b : Reg) (s : State) : Out := amo .add f w d a b s
/-- `amoand` (R316). -/
def execAmoand (f : Scope) (w : AtomWidth) (d a b : Reg) (s : State) : Out := amo .and f w d a b s
/-- `amoor` (R316). -/
def execAmoor (f : Scope) (w : AtomWidth) (d a b : Reg) (s : State) : Out := amo .or f w d a b s
/-- `amoxor` (R316). -/
def execAmoxor (f : Scope) (w : AtomWidth) (d a b : Reg) (s : State) : Out := amo .xor f w d a b s
/-- `amomin` (R316). -/
def execAmomin (f : Scope) (w : AtomWidth) (d a b : Reg) (s : State) : Out := amo .min f w d a b s
/-- `amomax` (R316). -/
def execAmomax (f : Scope) (w : AtomWidth) (d a b : Reg) (s : State) : Out := amo .max f w d a b s
/-- `amominu` (R316). -/
def execAmominu (f : Scope) (w : AtomWidth) (d a b : Reg) (s : State) : Out := amo .minu f w d a b s
/-- `amomaxu` (R316). -/
def execAmomaxu (f : Scope) (w : AtomWidth) (d a b : Reg) (s : State) : Out := amo .maxu f w d a b s
/-- `amoswap` (R316). -/
def execAmoswap (f : Scope) (w : AtomWidth) (d a b : Reg) (s : State) : Out := amo .swap f w d a b s
/-- `cas` (R316): the expected value is rd's, read before issue. -/
def execCas (f : Scope) (w : AtomWidth) (d a b : Reg) (s : State) : Out :=
  atomic f w (fun t ia => .cas ia w (atomTrunc w (t.rx d)) (atomTrunc w (t.rx b))) d a b s

/-- `red` (R319): at the home, or in the dale reduction unit for scope .d (R193, R194). -/
def execRed (o : RedOp) (f : Scope) (w : AtomWidth) (a b : Reg) (s : State) : Out :=
  plain [a, b] s fun t =>
    let va := t.rx a
    let n := atomBytes w
    let v := atomTrunc w (t.rx b)
    access s t { va := va, n := n, align := n, r := false, w := true, kind := .reduce } (f == .g) false fun g l ia =>
      let t' := s.foldChunk s.pos t g va ia n v true 1 0
      checked s t g ia n false false (.next (s.retire t'))
        (if f == .d then
          let r := s.druReduce (daleOf s.pos) ia w o v l.lid (s.pos, s.slot, t.group, va, t.th)
          if r.2 then .next (r.1.issued t' va ia n false true)
          else if t.flushing.isSome then stall s
          else .next (r.1.setCur { t with flushing := some [] })
        else if ownPlace s.pos ia then
          match s.atOwn l (.reduce ia w o v) ia 0#5 with
          | (s', .done .ok _) => .next (s'.issued t' va ia n false true)
          | (s', .done ans _) => .next ((s'.retire t).ownFault t va ans)
          | _ => stall s
        else
          let rt := s.route l.lid ia
          .next ((s.ask s.pos (t.asks s rt.node (.reduce rt.ia w o v) l.lid rt.gen va .store)).issued t' va ia n false true))

/-- `ramo` (R320, R321): to the atomic engine of die 0, or of the peer. Its result comes as a record. -/
def execRamo (o : AmoOp) (w : AtomWidth) (a b tr : Reg) (s : State) : Out :=
  plain [a, b, tr] s fun t =>
    let va := t.rx a
    let n := atomBytes w
    access s t { va := va, n := n, align := n, r := true, w := true, kind := .ramo } false false fun g l ia =>
      if g.check.isSome then .next (s.voidRun t g)
      else
        let dst := match placeOf ia with
          | .peer dv _ => s.egress dv
          | _ => agentNode 0 2
        .next ((s.ask s.pos (t.asks s dst (.delegated ia w o (atomTrunc w (t.rx b)) ((t.rx tr).extractLsb' 0 8)) l.lid none va .ramo)).issued t va ia n false true)

/-! ## Fences, acquire and release (R322 to R324) -/

/-- `fence` (R186, R322). -/
def execFence (f : Scope) (s : State) : Out := plain [] s fun t => fenceWait s t f (.next (s.retire t))

/-- `acq` (R323). -/
def execAcq (d a : Reg) (i : BitVec 12) (s : State) : Out :=
  plain [d, a] s fun t =>
    let va := t.ea a i
    access s t { va := va, n := 8, align := 8, r := true, w := false, kind := .sync } false true fun g l ia =>
      checked s t g ia 8 true true (stall s)
        (if ownPlace s.pos ia then
          match s.atOwn l (.read ia 8) ia d with
          | (s', .done .ok bs) => .next ((s'.issued (t.wx d (wordOf bs)) va ia 8 true false).acquire s.pos g t.home.isSome ia)
          | (s', .done .poison _) => .next (s'.consumePoison s.pos s.slot true t.th va)
          | (s', .done ans _) => .next ((s'.retire t).ownFault t va ans)
          | _ => stall s
        else
          let rt := s.route l.lid ia
          .next (((s.ask s.pos (t.asks s rt.node (.read rt.ia 8) l.lid rt.gen va (.acquire d))).sleepForReply t).watchLater s.pos s.slot t ia 8 true false))

/-- `rel` (R324): its own write is not waited for. -/
def execRel (a b : Reg) (i : BitVec 12) (s : State) : Out :=
  plain [a, b] s fun t =>
    let va := t.ea a i
    access s t { va := va, n := 8, align := 8, r := false, w := true, kind := .sync } false false fun g l ia =>
      let t' := s.foldChunk s.pos t g va ia 8 (t.rx b) true 0 0
      checked s t g ia 8 false false (.next (s.retire t'))
        (releaseWait s t g ia
          (if ownPlace s.pos ia then
            match s.atOwn l (.write ia (bytesOf (t.rx b) 8) false) ia 0#5 with
            | (s', .done .ok _) => .next (s'.issued t' va ia 8 false true)
            | (s', .done ans _) => .next ((s'.retire t).ownFault t va ans)
            | _ => stall s
          else
            let rt := s.route l.lid ia
            .next ((s.ask s.pos (t.asks s rt.node (.write rt.ia (bytesOf (t.rx b) 8) false) l.lid rt.gen va .store)).issued t' va ia 8 false true)))

/-! ## Bindings (R188, R325) -/

/-- The sync object that `bind` and `unbind` name, or the trap (R325 items 2 to 4). -/
def syncIa (g : Group) (va : Word) : Except Trap Nat :=
  if va.toNat % 8 ≠ 0 then .error { code := 0x02#8, tval := va }
  else match spanFor g.spans va 8 with
    | none => .error { code := 0x03#8, tval := va }
    | some sp =>
      if !sp.r then .error (permission 1#4 va)
      else if !inScratchpad (sp.ia va) then .error { code := 0x15#8, tval := va }
      else .ok (sp.ia va)
/-- `bind` (R188, R325). The region's alignment is that of its virtual base (assumption 17). -/
def execBind (a b : Reg) (k : BitVec 7) (s : State) : Out :=
  plain [a, b] s fun t => withGroup s t fun g _ =>
    if k.toNat < 7 ∨ 47 < k.toNat then .next (s.illegal 1#4)
    else match syncIa g (t.rx a) with
      | .error tr => .next (s.trap tr)
      | .ok o =>
        let base := t.rx b
        match (if base.toNat % 2 ^ k.toNat = 0 then spanFor g.spans base (2 ^ k.toNat) else none) with
        | none => .next (s.trap { code := 0x03#8, tval := base })
        | some sp =>
          let e : Binding := { sync := o, region := sp.ia base, log2 := k.toNat }
          if g.binds.contains e then .next (s.retire t)
          else if 8 ≤ g.binds.length then .next (s.illegal 4#4)
          else .next ((s.modGroup (t.homePos s.pos) g.gid fun g => { g with binds := g.binds ++ [e] }).retire t)
/-- `unbind` (R188, R325). -/
def execUnbind (a : Reg) (s : State) : Out :=
  plain [a] s fun t => withGroup s t fun g _ =>
    match syncIa g (t.rx a) with
    | .error tr => .next (s.trap tr)
    | .ok o => .next ((s.modGroup (t.homePos s.pos) g.gid fun g => { g with binds := g.binds.filter fun b => b.sync != o }).retire t)

/-! ## Phase waits (R198, R199, R328) -/

/-- The scratchpad offset, on the group's core, of the barrier object that an address names, or the trap (R198, R328). -/
def barrierObj (hp : Nat) (g : Group) (va : Word) (w : Bool) : Except Trap Nat :=
  match spanFor g.spans va 8 with
  | none => .error { code := 0x03#8, tval := va }
  | some sp =>
    if !sp.r || (w && !sp.w) then .error (permission 1#4 va)
    else match ownOffset hp g (sp.ia va) 16 with
      | some o => if (g.base + o) % 16 = 0 ∧ va.toNat % 16 = 0 then .ok (g.base + o) else .error (permission 5#4 va)
      | none => .error (permission 5#4 va)
/-- `arrive` (R328): a release, then one arrival. -/
def execArrive (a : Reg) (s : State) : Out :=
  plain [a] s fun t => withGroup s t fun g _ =>
    let hp := t.homePos s.pos
    match barrierObj hp g (t.rx a) true with
    | .error tr => .next (s.trap tr)
    | .ok off => releaseWait s t g (spIa hp off)
        (if s.mayIssue s.pos s.slot (spIa hp off) false then .next ((s.retire t).barrierUpdate hp off 0 1) else stall s)
/-- `waitph` (R199, R328): a thread hosted away from its home polls instead of sleeping. An object it reads poisoned is consumed
(R159). -/
def execWaitph (a b : Reg) (s : State) : Out :=
  plain [a, b] s fun t => withGroup s t fun g _ =>
    let hp := t.homePos s.pos
    match barrierObj hp g (t.rx a) false with
    | .error tr => .next (s.trap tr)
    | .ok off =>
      let phase := (wordOf ((s.core hp).spRead off 8)).getLsbD 63
      if !s.mayIssue s.pos s.slot (spIa hp off) false then stall s
      else if (s.core hp).spPoison off 8 then .next ((s.retire t).consumePoison s.pos s.slot false t.th (t.rx a))
      else if phase = (t.rx b).getLsbD 0 then
        (if t.home.isSome then stall s else .next (s.setCur { t with run := .sleeping (.phase off ((t.rx b).getLsbD 0)) }))
      else .next ((s.retire t).acquire s.pos g t.home.isSome (spIa hp off))

end Sys2Proof.Machine
end

