-- ==== Sys2Proof/Machine/Checks.lean ====
section
/-! DEFINITION. Sampled re-execution (R141 to R145): selection, checks, their closing, the log, suspicion and quarantine. -/
namespace Sys2Proof.Machine

/-! ## Records (R107) -/

/-- ENTRY. -/
def recEntry (r : List Byte) : Word := wordOf (r.take 8)
/-- ARG. -/
def recArg (r : List Byte) : Word := wordOf ((r.drop 8).take 8)
/-- ARG2. -/
def recArg2 (r : List Byte) : Word := wordOf ((r.drop 16).take 8)
/-- GSIZE. -/
def recGsize (r : List Byte) : Nat := (r.getD 0x22 0#8).toNat
/-- ATTR.PRIO. -/
def recPrio (r : List Byte) : Nat := ((recAttr r).extractLsb' 1 2).toNat
/-- ATTR.NVEC. -/
def recNvec (r : List Byte) : Nat := ((recAttr r).extractLsb' 4 2).toNat
/-- ATTR.NOMAD. -/
def recNomad (r : List Byte) : Bool := (recAttr r).getLsbD 0
/-- ATTR.SAMPLE. -/
def recSample (r : List Byte) : Bool := (recAttr r).getLsbD 3
/-- SSTK. -/
def recSstk (r : List Byte) : Nat := natOfBytes ((r.drop 0x24).take 2)
/-- ROLE of a record (R107). -/
def recRole (r : List Byte) : Nat := natOfBytes ((r.drop 0x20).take 2)

/-! ## Checks -/

/-- Send a group's held decrements (R144). -/
def State.sendHeld (s : State) (p lid : Nat) (l : List (Nat × Nat)) : State :=
  l.foldl (fun s e =>
    let rt := s.route lid e.1
    s.ask p { dst := rt.node, body := .tdec rt.ia e.2, lid := lid, gen := rt.gen, use := .store, vt := (s.core p).vtime }) s

/-- An entry of the check log (R145), CLASS last. -/
def checkEntry (lid orig chk third : Nat) (time : Word) (dig : BitVec 128) (cls : Nat) : List Byte :=
  bytesOfNat (lid % 2 ^ 32 + orig * 2 ^ 32 + chk * 2 ^ 42 + third * 2 ^ 52) 8 ++ bytesOf time 8 ++ bytesOf (dig.extractLsb' 0 64) 8 ++
  repeatN 0#8 7 ++ [BitVec.ofNat 8 cls]
/-- Append to a check log. -/
def State.logCheck (s : State) (base : Word) (slots : Nat) (e : List Byte) : State :=
  (s.fwStore (ringAddr base s.fw.chkHead slots 32) e).modFw fun w => { w with chkHead := w.chkHead + 1 }

/-- Logical cores of a launch that hold a role, in logical order (R104). -/
def Launch.coresOf (l : Launch) (role : Nat) : List Nat := (l.roles.filter fun x => x.2 == role).map (·.1)
/-- Cores of a launch with a role whose dale is none of a list, in logical order (R142, R143). -/
def Launch.awayFrom (l : Launch) (role : Nat) (dales : List Nat) : List Nat :=
  ((l.coresOf role).filterMap l.posOfLogical).filter fun q => !dales.contains (daleOf q)
/-- Offset of DQIN in the control window. -/
def dqinIa (q : Nat) : Nat := 0xFF800000000000 + q * 0x400000 + 0x300240
/-- Send a record as a remote push (R111, R113), marked where it is a check record (R142). -/
def State.remotePush (s : State) (p q : Nat) (r : List Byte) (slot : Option Nat) (lid : Nat) (mark : Option (Nat × Bool) := none) : State :=
  let c := s.core p
  (s.modCore p fun c => { c with xferSent := c.xferSent + 1#32 }).ask p
    { dst := q, body := .bulkWrite (dqinIa q) r false, lid := lid, slot := slot, use := .push, vt := c.vtime, mark := mark }
/-- The next core round-robin, in logical order, of those of a role away from some dales (R142), and the launch's next turn. -/
def State.checkCore (s : State) (l : Launch) (cands : List Nat) : Option (Nat × State) :=
  (cands[l.nextCheck % max cands.length 1]?).map fun q => (q, s.modLaunch l.lid fun l => { l with nextCheck := l.nextCheck + 1 })

/-- Open a check of a selected group, or skip it (R141, R142): the record goes to the check core as a remote push of the original's core
(assumption 85). -/
def State.openCheck (s : State) (p : Nat) (l : Launch) (g : Group) : State :=
  let cands := l.awayFrom (recRole g.record) [daleOf p]
  match s.checkCore l cands with
  | none => (s.logCheck s.fw.chkBase s.fw.chkSlots (checkEntry l.lid p 0 0x3FF s.time g.digest 6)).sendHeld p l.lid g.heldDecs
  | some (q, s) =>
    let id := s.nextId
    let k : Check := { id := id, lid := l.lid, record := g.record, orig := p, chk := q, third := none, digest := g.digest, result := none,
                       result3 := none, held := g.heldDecs, heldNode := p, inc := max s.fw.chkInc 1, qth := max s.fw.chkQth 1,
                       base := s.fw.chkBase, slots := s.fw.chkSlots }
    { s with checks := s.checks ++ [k], nextId := id + 1 }.remotePush p q g.record none l.lid (some (id, false))
/-- A candidate's group has ended: selection (R141), and its held decrements (R144). -/
def State.candidateEnd (s : State) (p : Nat) (l : Launch) (g : Group) : State :=
  if !(recSample g.record && l.sample ≠ 0) then s.sendHeld p l.lid g.heldDecs
  else if !s.fw.chkEn then s.sendHeld p l.lid g.heldDecs
  else
    let a := (s.core p).sampleAcc + l.sample
    if a < 1024 then (s.modCore p fun c => { c with sampleAcc := a }).sendHeld p l.lid g.heldDecs
    else (s.modCore p fun c => { c with sampleAcc := a - 1024 }).openCheck p l g
/-- A check run or third run has ended: its digest, or none for a void run (R142). -/
def State.checkRunEnd (s : State) (k : CheckRun) (digest : BitVec 128) : State :=
  let r := if k.void then none else some digest
  { s with checks := s.checks.map fun (c : Check) => if c.id = k.check then (if k.third then { c with result3 := some r } else { c with result := some r }) else c }

/-- Count a clean check of a core (R143). -/
def State.cleanCheck (s : State) (p : Nat) : State :=
  let n := tblGetD s.fw.cleanBy p 0 + 1
  s.modFw fun w => { w with
    cleanBy := tblSet w.cleanBy p n,
    susp := if n % 1024 = 0 then tblSet w.susp p (tblGetD w.susp p 0 - 1) else w.susp }
/-- A minority core's score rises; at the threshold it is to leave service (R143), by the settings when the check was opened (R145). -/
def State.blame (s : State) (k : Check) (p : Nat) : State :=
  let score := min 255 (tblGetD s.fw.susp p 0 + k.inc)
  s.modFw fun w => { w with susp := tblSet w.susp p score, doomed := if k.qth ≤ score then setIns w.doomed p else w.doomed }
/-- Close a check: it leaves; with a class it is logged; its held decrements are sent or discarded (R143, R144). -/
def State.shutCheck (s : State) (k : Check) (cls : Option Nat) (send : Bool) : State :=
  let s := { s with checks := s.checks.filter fun c => c.id != k.id }
  let s := match cls with
    | some c => s.logCheck k.base k.slots (checkEntry k.lid k.orig k.chk (k.third.getD 0x3FF) s.time k.digest c)
    | none => s
  if send then s.sendHeld k.heldNode k.lid k.held
  else s.modLaunch k.lid fun l => { l with lost := l.lost + 1 }
/-- Close a check whose result is known, or start its third run (R143). -/
def State.closeCheck (s : State) (k : Check) : State :=
  match k.result with
  | none => s
  | some none => s.shutCheck k (some 1) true
  | some (some d) =>
    if d = k.digest then
      let s := (s.cleanCheck k.orig).cleanCheck k.chk
      (s.modFw fun w => { w with chkClean := w.chkClean + 1 }).shutCheck k none true
    else match k.third with
      | none =>
        (match (s.launch? k.lid).bind fun l => s.checkCore l (l.awayFrom (recRole k.record) [daleOf k.orig, daleOf k.chk]) with
         | none => s.shutCheck k (some 5) true
         | some (q, s) =>
           { s with checks := s.checks.map fun (c : Check) => if c.id = k.id then { c with third := some q } else c }.remotePush k.orig q
             k.record none k.lid (some (k.id, true)))
      | some q =>
        match k.result3 with
        | none => s
        | some none => s.shutCheck k (some 5) true
        | some (some e) =>
          if e = k.digest then (s.blame k k.chk).shutCheck k (some 3) true
          else if e = d then (s.blame k k.orig).shutCheck k (some 2) false
          else (((s.blame k k.orig).blame k k.chk).blame k q).shutCheck k (some 4) false
/-- CHECK_CLOSE: the check of an index whose result is known closes (R143); its launch is on its cores, since what it holds is saved and
restored with it (R144). -/
def execCheckClose (i : Nat) (s : State) : Out :=
  match s.checks[i]? with
  | some k => .next (if (s.launch? k.lid).any (fun l => l.st == .running) then s.closeCheck k else s)
  | none => .next s
/-- Cores whose score reached the threshold leave service once no live launch's rectangle holds them (R143). -/
def State.quarantine (s : State) : State :=
  let q := s.fw.doomed.filter fun p => !(s.launches.any fun l => l.inRect p)
  if q.isEmpty then s
  else s.modFw fun w => { w with quarantined := q.foldl setIns w.quarantined, doomed := w.doomed.filter fun p => !q.contains p,
                                 logical := w.logical.filter fun p => !q.contains p }
/-- Move a check record of a core that takes another role: to a core chosen again under R142, or the run is void (R106). -/
def State.moveCheck (s : State) (l : Launch) (p : Nat) (r : List Byte) (m : Nat × Bool) : State :=
  match s.checks.find? fun k => k.id == m.1 with
  | none => s
  | some k =>
    match s.checkCore l ((l.awayFrom (recRole r) (if m.2 then [daleOf k.orig, daleOf k.chk] else [daleOf k.orig])).filter (· != p)) with
    | none => s.checkRunEnd { check := m.1, third := m.2, void := true } 0#128
    | some (q, s) =>
      { s with checks := s.checks.map fun (x : Check) => if x.id = m.1 then (if m.2 then { x with third := some q } else { x with chk := q }) else x
        }.remotePush p q r none l.lid (some m)

end Sys2Proof.Machine
end

