-- ==== Sys2Proof/Machine/Clock.lean ====
section
/-! DEFINITION. The passage of time and the basins' clocks (R14, R17, R18). -/
namespace Sys2Proof.Machine

/-- Core clock of a point in MHz: B, N, L1, L2, L3 (R14). -/
def pointMHz (k : Nat) : Nat :=
  match k with
  | 0 => 2400
  | 1 => 2000
  | 2 => 1600
  | 3 => 1200
  | _ => 800
/-- An integer held within ±k. -/
def clampInt (k : Nat) (d : Int) : Int := max (-(k : Int)) (min k d)
/-- The slew of TIMEB as ns pass (R18): toward PTP time, at most 1 ns for every 10,000, as far as the management core goes (assumption 75). -/
def State.slewBy (s : State) (ns : Nat) : Int :=
  if s.fw.ptpOff = 0 then 0 else clampInt (min ((s.fw.slewAcc + ns) / 10000) (Config.slew s.freeCtr)) s.fw.ptpOff
/-- ns pass: TIMEB counts them and is slewed, and each basin's cores are clocked at its point. -/
def State.elapse (s : State) (ns : Nat) : State :=
  let due := s.fw.slewAcc + ns
  { s with time := s.time + BitVec.ofInt 64 (ns + s.slewBy ns),
           freeCtr := if s.fw.ptpOff ≠ 0 ∧ 10000 ≤ due then s.freeCtr + 1 else s.freeCtr,
           fw := { s.fw with
             basins := s.fw.basins.map fun (b : Basin) => { b with clocks := b.clocks + ns * pointMHz b.point },
             ptpOff := s.fw.ptpOff - s.slewBy ns, slewAcc := if s.fw.ptpOff = 0 then 0 else due % 10000 } }
/-- The basin of a position changes its point: its cores issue nothing (R14). -/
def State.changing (s : State) (p : Nat) : Bool := (s.fw.basins.toList[basinOf p]?).any (·.changing)

end Sys2Proof.Machine
end

