-- ==== Sys2Proof/Machine/Tasks.lean ====
section
/-! DEFINITION. Task records (R107, R108), remote pushes and forwards (R111, R113, R132), the start of a group (R109), the task
instructions (R391 to R394), level barriers and the barrier tree's instructions (R102, R201, R326, R327, R390). -/
namespace Sys2Proof.Machine

/-! ## Records (R108) -/

/-- Why a record is bad (R107, R108), by the lowest reason that applies (assumption 18). -/
def badRecord (galloc : Nat) (r : List Byte) : Option Nat :=
  if recAttr r &&& 0xC0#8 ≠ 0#8 ∨ (r.drop 0x26).any (fun b => b ≠ 0#8) = true then some 1
  else if recGsize r < 1 ∨ 16 < recGsize r ∨ galloc * 4096 - 64 < recSstk r * 64 * recGsize r then some 2
  else if recNvec r = 3 ∨ recGsize r < recNvec r ∨ (recNomad r = true ∧ recNvec r ≠ 0) then some 3
  else if (r.getD 0 0#8).getLsbD 0 then some 5
  else none
/-- The bad-task record (R108). -/
def badTaskRecord (reason : Nat) (vt : BitVec 32) (entry : Word) : BitVec 128 :=
  entry ++ vt ++ 0#8 ++ 15#4 ++ 0#8 ++ BitVec.ofNat 4 reason ++ 0x24#8

/-- The core of a role nearest to a position: in its dale, else in its basin, else in the launch (R108). -/
def Launch.nearest (l : Launch) (p role : Nat) : Option Nat :=
  let cs := (l.coresOf role).filterMap l.posOfLogical
  (cs.find? fun q => daleOf q == daleOf p) <|> (cs.find? fun q => basinOf q == basinOf p) <|> cs.head?

/-- Discard a record with a bad-task record on the core's own stream 15 (R108). -/
def State.discardTask (s : State) (p reason : Nat) (r : List Byte) : State :=
  s.ownRecord p (badTaskRecord reason (s.core p).vtime (recEntry r))

/-- What becomes of a record at a core (R108). -/
inductive Fate where
  | bad (reason : Nat)
  | forward (q : Nat)
  | mine
deriving DecidableEq, Repr
/-- The fate of a record. -/
def recordFate (l : Launch) (c : Core) (p : Nat) (r : List Byte) : Fate :=
  match badRecord l.galloc r with
  | some k => .bad k
  | none =>
    if l.stepMode = true ∨ (c.hasRole ∧ recRole r = c.role) then .mine
    else match l.nearest p (recRole r) with
      | some q => .forward q
      | none => .bad 4

/-- A core leaves the unbounded state through a work packet (R126, R132). -/
def Core.leaveUnbounded (c : Core) (vt : BitVec 32) : Core :=
  if c.unbounded then
    let v := if c.vtime.ult vt then vt else c.vtime
    { c with vtime := if v.ult c.gvt then c.gvt else v }
  else c

/-- A record that arrives by a remote push (R108, R111): none when both parts of the deque are full. A check record that meets another role
goes to a core chosen again (R106, R142). -/
def State.receivePush (s : State) (p : Nat) (vt : BitVec 32) (r : List Byte) (mark : Option (Nat × Bool) := none) : Option State :=
  let c := s.core p
  if !c.dequeRoom then none
  else
    let s := s.modCore p fun c => { c.leaveUnbounded vt with xferRecv := c.xferRecv + 1#32 }
    match s.launch? c.lid with
    | none => some (s.countDrop p)
    | some l => some (match recordFate l c p r, mark with
      | .bad k, _ => s.discardTask p k r
      | .forward _, some m => s.moveCheck l p r m
      | .forward q, none => s.remotePush p q r none l.lid
      | .mine, _ => s.modCore p fun c => c.push r mark)

/-! ## The start of a group (R109) -/

/-- The lowest free 4 KiB-aligned range of GALLOC·4 KiB in the allocatable scratchpad. -/
def Core.freeRange (c : Core) (l : Launch) : Option Nat :=
  let len := l.galloc * 4096
  ((List.range 64).map (· * 4096)).find? fun b =>
    b + len ≤ reserveOff l && c.groups.all fun g => b + len ≤ g.base || g.base + g.len ≤ b
/-- Free vector contexts. -/
def Core.freeCtx (c : Core) : List Bool := (if c.v0.owner.isNone then [false] else []) ++ (if c.v1.owner.isNone then [true] else [])
/-- The conditions of R109 for a record, the deque aside. -/
def Core.canStart (c : Core) (l : Launch) (r : List Byte) : Bool :=
  recGsize r ≤ c.freeSlots.length && recNvec r ≤ c.freeCtx.length && (c.freeRange l).isSome && c.recasting.isNone && !c.halted && !c.fenced
/-- The spans of a group: the launch's, with CHK on those with W of a check run (R51, R142); in step mode SPAN0 is the core's own
scratchpad (R293). -/
def groupSpans (l : Launch) (p : Nat) (check : Bool) : List Span :=
  let base := if l.stepMode then { vbase := 0#64, vlimit := 0x40000#64, offset := BitVec.ofNat 64 (spIa p 0), attr := 3#64 } :: l.spans.drop 1 else l.spans
  base.map fun sp => if check && sp.w then { sp with attr := sp.attr ||| 8#64 } else sp
/-- The state of thread t of a group at its start; `va` gives the virtual address of an offset of the allocation. -/
def startThread (l : Launch) (r : List Byte) (va : Nat → Word) (gid t slot : Nat) (ctx : Option Bool) (now : Word) : Thread :=
  let a := l.galloc * 4096
  let sz := if recSstk r = 0 then (a - 64) / (16 * recGsize r) * 16 else recSstk r * 64
  let xs : Vector Word 32 := ((((((Vector.replicate 32 0#64).set 2 (va (a - t * sz))).set 3 l.args).set 4 (va 0)).set 8 (recArg r)).set 9
    (recArg2 r) |>.set 10 (BitVec.ofNat 64 t)) |>.set 11 (BitVec.ofNat 64 (recGsize r))
  let th : Thread := {
    x := xs, p := 0#8, pc := recEntry r, status := 0#64, estatus := 0#64, epc := 0#64, tcause := 0#64, tval := 0#64, tscratch := 0#64,
    stklim := va (a - (t + 1) * sz), fflags := 0#64, ir := 0#32, pendX := 0#32, pendP := 0#8, run := .running, arrived := none,
    group := gid, idx := t, prio := max l.prio (recPrio r), waitCnt := 0, nomad := recNomad r, home := none, ctx := ctx, held := none,
    heldMore := false, wdPending := false, bpPass := none, pnDue := none, stay := false, skid := 0, tstop := 0#64, stepped := false,
    digA := BitVec.allOnes 64, digB := BitVec.allOnes 64, lastRet := now, dbgTrap := none, flushing := none, readRec := none, tiles := 0, engines := 0,
    heldAt := none }
  th.feed (bytesOfNat t 8)
/-- Start a group from a record (R109); the conditions hold. An initial task of a gang part starts a member (R135). -/
def State.startGroup (s : State) (p : Nat) (l : Launch) (r : List Byte) (mark : Option (Nat × Bool)) (member : Option Nat := none) : State :=
  let c := s.core p
  match c.freeRange l with
  | none => s
  | some base =>
    let len := l.galloc * 4096
    let spans := groupSpans l p mark.isSome
    let va (o : Nat) : Word := (vaOf spans (spIa p (base + o))).getD 0#64
    let slots := c.freeSlots.take (recGsize r)
    let ctxs := c.freeCtx
    let gid := c.nextGid
    let g : Group := {
      gid := gid, lid := l.lid, base := base, len := len, gen := c.nextGen, lowSlot := slots.headD 0, size := recGsize r, nvec := recNvec r,
      nomad := recNomad r, record := r, member := member, spans := spans, tvec := 0#64, binds := [],
      arrivals := [], barX := [], barT := [], exited := 0, order := c.groupsRun, dying := none, drain := 0, indet := 0, badList := [], stopAt := 0#64, stopped := none, stepping := false,
      detached := false, heldExit := false, check := mark.map fun m => { check := m.1, third := m.2, void := false }, digest := 0#128, heldDecs := [] }
    let c := { c with groups := c.groups ++ [g], nextGid := gid + 1, nextGen := c.nextGen + 1, groupsRun := c.groupsRun + 1, holdsWork := false,
                      departed := c.departed.filter fun d => d.1 + d.2.1 ≤ base || base + len ≤ d.1 }
    let c := c.spStorePhys base r false
    let one (c : Core) (e : Nat × Nat) : Core :=
      let ctx := if e.1 < recNvec r then ctxs[e.1]? else none
      let c := c.setThread e.2 (startThread l r va gid e.1 e.2 ctx s.time)
      match ctx with
      | some k => c.modCtx k fun _ => { VCtx.reset with owner := some e.2 }
      | none => c
    let c := (slots.zipIdx.map fun x => (x.2, x.1)).foldl one c
    (s.setCore p c).modLaunch l.lid fun l => { l with ran := l.ran + 1 }

/-- The record at the top of the deque meets the core (R108, R109): discarded, sent on, or started when the conditions hold. -/
def State.startTop (s : State) (p : Nat) : State :=
  let c := s.core p
  match s.launch? c.lid, c.top? with
  | some l, some (r, mark) =>
    if !c.auto || c.recasting.isSome || c.halted || c.fenced || l.st ≠ .running || (l.stepMode && c.groupsRun ≠ 0) then s
    else match recordFate l c p r with
      | .bad k => (s.modCore p Core.pop).discardTask p k r
      | .forward q => (match mark with
        | some m => (s.modCore p Core.pop).moveCheck l p r m
        | none => (s.modCore p Core.pop).remotePush p q r none l.lid)
      | .mine => if c.canStart l r then (s.modCore p Core.pop).startGroup p l r mark else s
  | _, _ => s
/-- The top record of a core would change something now. -/
def State.startable (s : State) (p : Nat) : Bool :=
  let c := s.core p
  match s.launch? c.lid, c.top? with
  | some l, some (r, _) =>
    c.auto && c.recasting.isNone && !c.halted && !c.fenced && l.st == .running && !(l.stepMode && c.groupsRun ≠ 0) &&
      (match recordFate l c p r with
       | .mine => c.canStart l r
       | _ => true)
  | _, _ => false

/-! ## Task instructions -/

/-- Put the next word of the record that the issuing thread reads. -/
def Thread.recPut (t : Thread) (bs : List Byte) : Thread := { t with readRec := some (t.readRec.getD [] ++ bs) }
/-- Read a 64-byte record as eight `ld` read its words, one after the other (R184, R391): each is checked at issue, and goes to its home
unless the L1 holds its line; the meaning runs with the whole record. A check run is void when a word lies outside its allocation (R142). -/
def readRecord (s : State) (t : Thread) (b : Reg) (k : Thread → Group → Launch → List Byte → Out) : Out :=
  withGroup s t fun g l =>
    let got := t.readRec.getD []
    if 64 ≤ got.length then k t g l got
    else
      let va := t.rx b + BitVec.ofNat 64 got.length
      match checkAcc s s.pos t { va := va, n := 8, align := 8, r := true, w := false, kind := .load, stack := b == 2#5 } with
      | .error tr => .next (s.trap tr)
      | .ok ia =>
        let watch (s : State) : State := s.watchIssue s.pos s.slot t ia 8 true false
        let rt := s.route l.lid ia
        let send (body : Body) (off : Nat) (fill : Option Nat) : Out :=
          .next (watch ((s.ask s.pos (t.asks s rt.node body l.lid rt.gen va (.recWord off fill))).setCur { t with readRec := some got }))
        if !s.mayIssue s.pos s.slot rt.ia true then stall s
        else checked s t g ia 8 true true (stall s)
          (if ownPlace s.pos ia then
            match s.atOwn l (.read ia 8) ia 0#5 with
            | (s', .done .ok bs) => .next (watch (s'.setCur (t.recPut bs)))
            | (s', .done .poison _) => .next (s'.consumePoison s.pos s.slot true t.th va)
            | (s', .done ans _) => .next ((s'.setCur t).ownFault t va ans)
            | _ => stall s
          else if !cacheable ia then send (.read rt.ia 8) 0 none
          else match (s.core s.pos).l1.find? fun e => e.1 == ia / 128 with
            | some e => .next (watch ((s.modCore s.pos fun c => c.l1Touch (ia / 128) false).setCur (t.recPut ((e.2.1.drop (ia % 128)).take 8))))
            | none => send (.bulkRead (rt.ia / 128 * 128) 128) (ia % 128) (some (ia / 128)))

/-- The eight elements of a task record in the digest (R140 kind 8). -/
def State.foldRecord (s : State) (t : Thread) (g : Group) (core op : Nat) (r : List Byte) : Thread :=
  (List.range 8).foldl (fun t i =>
    s.foldElem t g (BitVec.ofNat 64 (core + i * 65536 + op * 2 ^ 20)) (wordOf ((r.drop (8 * i)).take 8)) 8 0) t

/-- The rule of the task instructions: illegal in step mode, then a wait for every earlier access (R202, R391). -/
def taskOp (rs : List Reg) (s : State) (k : Thread → Group → Launch → Out) : Out :=
  plain rs s fun t => withGroup s t fun g l =>
    if l.stepMode then .next (s.illegal 4#4)
    else accessWait s t (k t g l)

/-- `dqpush` (R391). -/
def execDqpush (d a : Reg) (s : State) : Out :=
  taskOp [d, a] s fun t _ _ => readRecord s t a fun t g l r =>
    let t' := s.foldRecord t g 0xFFFF 0 r
    match badRecord l.galloc r with
      | some k => .next (s.retire (t.wx d (BitVec.ofNat 64 (2 + k * 256))))
      | none =>
        if g.check.isSome then .next (s.retire (t'.wx d 0#64))
        else if (s.core s.pos).dequeRoom then .next ((s.modCore s.pos fun c => c.push r none).retire (t'.wx d 0#64))
        else .next (s.retire (t.wx d 1#64))
/-- Write the eight words of a popped record as plain stores (R391): each is held back while an earlier one in its bank or line is
unanswered (R184). -/
def storeWords (s : State) (t : Thread) (g : Group) (l : Launch) (va : Word) (r : List Byte) : State :=
  (List.range 8).foldl (fun s i =>
    let a := va + BitVec.ofNat 64 (8 * i)
    let bs := (r.drop (8 * i)).take 8
    match spanFor g.spans a 8 with
    | none => s
    | some sp =>
      let ia := sp.ia a
      let s := s.l1Drop s.pos ia 8
      if ownPlace s.pos ia then (s.atOwn l (.write ia bs false) ia 0#5).1
      else
        let rt := s.route l.lid ia
        s.ask s.pos (t.asks s rt.node (.write rt.ia bs false) l.lid rt.gen a .store)) s
/-- `dqpop` (R391). -/
def execDqpop (d a : Reg) (s : State) : Out :=
  taskOp [d, a] s fun t g l =>
    if g.check.isSome then .next (s.voidRun t g)
    else
      let va := t.rx a
      let bad := (List.range 8).findSome? fun i =>
        match checkAcc s s.pos t { va := va + BitVec.ofNat 64 (8 * i), n := 8, align := 8, r := false, w := true, kind := .store, stack := a == 2#5 } with
        | .error tr => some tr
        | .ok _ => none
      match bad with
      | some tr => .next (s.trap tr)
      | none => match (s.core s.pos).top? with
        | none => .next (s.retire (t.wx d 1#64))
        | some (r, _) =>
          let s' := storeWords (s.modCore s.pos Core.pop) t g l va r
          let t' := (List.range 8).foldl (fun t i =>
            match spanFor g.spans (va + BitVec.ofNat 64 (8 * i)) 8 with
            | some sp => s.foldChunk s.pos t g (va + BitVec.ofNat 64 (8 * i)) (sp.ia (va + BitVec.ofNat 64 (8 * i))) 8 (wordOf ((r.drop (8 * i)).take 8)) true 0 0
            | none => t) t
          .next (s'.retire (t'.wx d 0#64))
/-- `tdec` (R115, R391): held in hold mode by a candidate (R144). -/
def execTdec (a b : Reg) (s : State) : Out :=
  taskOp [a, b] s fun t _ _ =>
    let k := (t.rx b).toNat
    let va := t.rx a
    if k < 1 ∨ 65535 < k then .next (s.illegal 4#4)
    else access s t { va := va, n := 128, align := 128, r := false, w := true, kind := .tdec } false false fun g l ia =>
      let t' := s.foldChunk s.pos t g va ia 8 (BitVec.ofNat 64 k) true 5 0
      checked s t g ia 8 false false (.next (s.retire t'))
        (if l.hold && recSample g.record && l.sample ≠ 0 && g.check.isNone then
          .next ((s.modGroup (t.homePos s.pos) g.gid fun g => { g with heldDecs := g.heldDecs ++ [(ia, k)] }).issued t' va ia 8 false true)
        else if !inScratchpad ia then .next ((s.retire t').ownFault t va (.fault 0x04#8 5#4))
        else
          let rt := s.route l.lid ia
          .next ((s.ask s.pos (t.asks s rt.node (.tdec rt.ia k) l.lid rt.gen va .store)).issued t' va ia 8 false true))
/-- `tspawn` (R391). -/
def execTspawn (a b : Reg) (s : State) : Out :=
  taskOp [a, b] s fun t _ l =>
    let x := t.rx a
    if x.extractLsb' 16 48 ≠ 0#48 then .next (s.illegal 4#4)
    else match l.core? (x.extractLsb' 0 16).toNat with
      | none => .next (s.free.2.trap (permission 3#4 s.free.1))
      | some q => readRecord s t b fun t g l r =>
        let t' := s.foldRecord t g (x.extractLsb' 0 16).toNat 1 r
        if g.check.isSome then .next (s.retire t')
        else .next ((s.remotePush s.pos q r (some s.slot) l.lid).retire t')
/-- `tdetach` (R138, R393). -/
def execTdetach (s : State) : Out :=
  plain [] s fun t => withGroup s t fun g l =>
    if l.stepMode then .next (s.illegal 4#4)
    else if l.gang = 0 ∨ g.member.isNone then .next (s.retire t)
    else .next ((s.modGroup (t.homePos s.pos) g.gid fun g => { g with detached := true }).retire t)
/-- `tyield` (R393). -/
def execTyield (s : State) : Out :=
  plain [] s fun t =>
    if s.stepMode ((s.groupOf s.pos t).map (·.lid) |>.getD 0) then .next (s.illegal 4#4)
    else
      let s := s.modCore s.pos fun c => { c with yielded := some s.slot }
      .next (s.setCur { t.retired 4 s.time with waitCnt := t.waitCnt })
/-- `go` (R394). -/
def execGo (a : Reg) (s : State) : Out :=
  taskOp [a] s fun t _ _ => readRecord s t a fun t g l r =>
    let c := s.core s.pos
    let t' := s.foldRecord t g 0xFFFF 2 r
    if g.check.isSome then .next (s.retire t')
    else match recordFate l c s.pos r with
      | .bad k => .next ((s.discardTask s.pos k r).retire t')
      | .forward q => .next ((s.remotePush s.pos q r (some s.slot) l.lid).retire t')
      | .mine => if c.canStart l r then .next ((s.startGroup s.pos l r none).retire t') else stall s

/-- The exit of a thread (R140, R392): its final registers are fed to its digest, its slot and vector context are freed. -/
def State.exitThread (s : State) (p slot : Nat) (t : Thread) (g : Group) : State :=
  let t' := if s.digests g then
      t.feed ((([1, 3] ++ (List.range 27).map (· + 5)).map fun n => bytesOf (t.x.toList.getD n 0#64) 8).flatten)
    else t
  let s := s.modCore p fun c =>
    let c := { c with threads := tblErase c.threads slot }
    match t.ctx with
    | some k => c.modCtx k fun v => { v with owner := none }
    | none => c
  s.modGroup (t.homePos p) g.gid fun g => { g with exited := g.exited + 1, digest := g.digest ^^^ (t'.digB ++ t'.digA) }
/-- The vector context of a thread has drained, as `vfence` waits (R369). -/
def State.vectorIdle (s : State) (p : Nat) (t : Thread) : Bool :=
  match t.ctx with
  | none => true
  | some k =>
    ((s.core p).ctx k).queue.isEmpty && !(s.reqs.any fun r => r.src == p && (match r.use with
      | .vstore x _ => x == k
      | .vload x .. => x == k
      | .vloadq x .. => x == k
      | _ => false))
/-- The context has drained, and every event of an earlier `vsdq` of the thread has been acknowledged or refused (R369). -/
def State.vectorDone (s : State) (p slot : Nat) (t : Thread) : Bool :=
  s.vectorIdle p t && !((s.core p).evSlots.any fun v => v.slot == slot + 1 && !v.retry)
/-- An access of a group is unanswered: of any of its threads (R72). -/
def State.groupOpen (s : State) (gid hp : Nat) : Bool :=
  s.reqs.any fun r => r.gid == gid && (r.isAccess || r.isVec) && (match r.slot.bind (s.thread? r.src) with
    | some t => t.group == gid && t.homePos r.src == hp
    | none => false)
/-- `texit` (R72, R392): it also waits for the accesses of the group's other threads (assumption 77). -/
def execTexit (s : State) : Out :=
  plain [] s fun t => withGroup s t fun g _ =>
    fenceWait s t .s
      (if s.groupOpen g.gid (t.homePos s.pos) then stall s
       else if s.vectorDone s.pos s.slot t && t.tiles = 0 && t.engines = 0 then .next (s.exitThread s.pos s.slot t g) else stall s)

/-! ## Barriers -/

/-- The issuing thread sleeps at a barrier; a thread whose arrival already stands sleeps again (R326). -/
def State.sleepAt (s : State) (t : Thread) (w : Sleep) : State := s.setCur { t with run := .sleeping w, flushing := none, arrived := none }
/-- `bar` (R102, R326): the arrival; the completion is `State.settleBars`. -/
def execBar (lv : BitVec 3) (s : State) : Out :=
  plain [] s fun t => withGroup s t fun g l =>
    let k := lv.toNat
    let hp := t.homePos s.pos
    match tblGet? l.levels k with
    | none => .next (s.illegal 4#4)
    | some (dom, sc) =>
      let above := 1 < dom
      if above && ((s.core hp).member.any fun m => m != g.gid) then .next (s.illegal 4#4)
      else if dom = 7 && g.detached then .next (s.trap (permission 10#4 0#64))
      else if t.arrived = some (.bar k) then .next (s.sleepAt t (.bar k))
      else fenceWait s t sc
        (let s := if above then s.modCore hp fun c => { c with member := some g.gid } else s
         .next ((s.modGroup hp g.gid fun g => { g with arrivals := g.arrivals ++ [(k, t.idx)] }).sleepAt t (.bar k)))
/-- `bar.x` (R327). -/
def execBarX (s : State) : Out :=
  plain [] s fun t => withGroup s t fun g _ =>
    if t.arrived = some .barX then .next (s.sleepAt t .barX)
    else fenceWait s t .g
      (.next ((s.modGroup (t.homePos s.pos) g.gid fun g => { g with barX := g.barX ++ [t.idx] }).sleepAt t .barX))
/-- The decode checks of a step-mode instruction: 0x16 outside step mode stands before prefix misuse (R124, R210, R265). -/
def stepOp (rs : List Reg) (s : State) (k : Thread → Group → Launch → Out) : Out :=
  withThread s fun t => withGroup s t fun g l =>
    if !l.stepMode then .next (s.trapBits 0x16#8)
    else if t.pp then .next (s.trapBits 0x14#8)
    else if badNomad t rs then .next (s.illegal 4#4)
    else if t.pends rs then stall s
    else k t g l
/-- `bar.t` (R390). -/
def execBarT (s : State) : Out :=
  stepOp [] s fun t g _ =>
    if t.arrived = some .barT then .next (s.sleepAt t .barT)
    else fenceWait s t .g
      (.next ((s.modGroup (t.homePos s.pos) g.gid fun g => { g with barT := g.barT ++ [t.idx] }).sleepAt t .barT))
/-- The core at a position runs a step-mode group (R390). -/
def State.stepCore (s : State) (p : Nat) : Bool := s.active p && (s.core p).groups.any fun g => s.stepMode g.lid
/-- `nsend` (R390). -/
def execNsend (r : Dir) (a : Reg) (s : State) : Out :=
  stepOp [a] s fun t _ l =>
    if (s.core s.pos).nsent.getLsbD (Dir.num r) then .next (s.illegal 4#4)
    else
      let s' := s.modCore s.pos fun c => { c with nsent := c.nsent ||| (1#4 <<< (Dir.num r)) }
      let q := s'.nextNs s.pos (neighbour s.pos r)
      let k : Packet := { src := s.pos, dst := neighbour s.pos r, seq := q.1, ns := true, retry := false, peer := false, vt := 0#32, colour := false,
                          lid := l.lid, gen := none, body := .neighbour r (t.rx a) }
      .next ({ q.2 with net := q.2.net ++ [k] }.retire t)
/-- `nrecv` (R390). -/
def execNrecv (r : Dir) (d : Reg) (s : State) : Out :=
  stepOp [d] s fun t _ _ =>
    match (s.core s.pos).nrx.toList.getD (Dir.num r) none with
      | some v => .next ((s.modCore s.pos fun c => { c with nrx := c.nrx.setIfInBounds (Dir.num r) none }).retire (t.wx d v))
      | none =>
        if !s.stepCore (neighbour s.pos r) then .next (s.retire (t.wx d 0#64))
        else .next (s.setCur { t with run := .sleeping (.recv r) })

end Sys2Proof.Machine
end

