-- ==== Sys2Proof/Machine/System.lean ====
section
/-! DEFINITION. System instructions and control registers (R207, R209, R231, R232, R276, R277, R395 to R398), `fmt` (R257), events and
virtual time (R386 to R389). -/
namespace Sys2Proof.Machine

/-! ## Traps and stops -/

/-- An unassigned encoding (DETAIL 1) or a nonzero field that the map gives as zero (DETAIL 2) (R265). -/
def execUnassignedEncoding (bits : BitVec 32) (nonzeroField : Bool) (s : State) : Out :=
  withThread s fun _ => .next (s.trap { code := 0x01#8, detail := if nonzeroField then 2#4 else 1#4, tval := bits.setWidth 64 })

/-- `ecall` (R395). -/
def execEcall (s : State) : Out := plain [] s fun _ => .next (s.trap { code := 0x0D#8 })
/-- `ebreak` (R395): a trap, or with EBRK a trigger of kind 4 after it retires; while TH is 1 a double trap ends the group (R212). -/
def execEbreak (s : State) : Out :=
  plain [] s fun t =>
    if (s.core s.pos).dbgctl.getLsbD 4 then
      .next ((s.retire t).trigger (t.homePos s.pos) t.group 4 0 s.pos 0#16 (some (s.pos, s.slot)))
    else .next (s.trap { code := 0x0C#8 })
/-- `tret` (R209). -/
def execTret (s : State) : Out :=
  plain [] s fun t =>
    if !t.th then .next (s.illegal 4#4)
    else
      let t' := t.retired 0 s.time
      .next ((s.setCur { t' with status := t.estatus &&& 0xFFFFFFFF0000001D#64, pc := t.epc &&& ~~~1#64 }).traceTret s.pos s.slot)
/-- `wfe` (R396). -/
def execWfe (s : State) : Out := plain [] s fun t => .next (s.setCur { t with run := .sleeping (.wfe s.time) })
/-- `halt` (R397): with RUN open the group stops as a trigger of SCOPE 2 would stop it; closed, it ends with CLASS 2. -/
def execHalt (s : State) : Out :=
  plain [] s fun t =>
    let hp := t.homePos s.pos
    if s.feature 0 then
      let s := s.retire t
      let low := ((s.core hp).group? t.group).map (·.lowSlot) |>.getD 0
      let s := s.modCore hp fun c => c.recordTrigger 4 1 low hp 0#16
      let n := s.fw.nextTrig
      .next (((s.markStop hp t.group).freeze hp t.group n).modFw fun w => { w with nextTrig := n + 1 })
    else .next (s.terminate hp t.group 2 0x0C#8 t.idx t.pc 0#64)

/-! ## The prefix (R257) -/

/-- `fmt`: the word becomes the pending prefix; a prefix already pending is misused by it (R257, R258). -/
def execFmt (sat : BitVec 1) (rm : BitVec 3) (fd fc fb fa : BitVec 4) (s : State) : Out :=
  plain [] s fun t =>
    let w : BitVec 32 := 0#5 ++ sat ++ rm ++ fd ++ fc ++ fb ++ fa ++ 0x3C#6 ++ 1#1
    if 5 < rm.toNat then .next (s.illegal 2#4)
    else
      let t' := t.retired 4 s.time
      .next (s.setCur { t' with status := (t'.status &&& 0x00000000FFFFFFFB#64) ||| 4#64 ||| (w.setWidth 64 <<< 32) })

/-! ## Control registers -/

/-- LVIXk of a thread (R103). -/
def State.lvix (s : State) (p : Nat) (t : Thread) (g : Group) (l : Launch) (k : Nat) : Word :=
  let hp := t.homePos p
  match tblGet? l.levels k with
  | none => 0#64
  | some (dom, _) =>
    let rank (f : Nat → Nat) : Word :=
      let order := l.cores.foldl (fun acc q => if acc.contains (f q) then acc else acc ++ [f q]) []
      BitVec.ofNat 64 (order.findIdx (· == f hp) + order.length * 2 ^ 32)
    match dom with
    | 0 => BitVec.ofNat 64 (t.idx + g.size * 2 ^ 32)
    | 1 => BitVec.ofNat 64 (g.order % 2 ^ 32)
    | 2 => rank id
    | 3 => rank daleOf
    | 4 => rank basinOf
    | 5 => rank quadOf
    | 6 => BitVec.ofNat 64 (2 ^ 32)
    | _ => BitVec.ofNat 64 ((g.member.getD 0xFFFFFFFF) + l.gtotal * 2 ^ 32)

/-- How a control register may be accessed (R276, R277). -/
inductive CsrKind where | unassigned | readOnly | vstate | writable
deriving DecidableEq, Repr
/-- The map of R276. -/
def csrKind (c : BitVec 12) : CsrKind :=
  let n := c.toNat
  if n ≤ 8 then .writable
  else if n = 0x10 ∨ n = 0x11 then .readOnly
  else if n = 0x12 ∨ n = 0x13 then .writable
  else if n = 0x14 then .vstate
  else if 0x20 ≤ n ∧ n < 0x28 then .readOnly
  else if 0x40 ≤ n ∧ n < 0x60 then .readOnly
  else .unassigned
/-- The value of a control register. -/
def State.csrGet (s : State) (t : Thread) (g : Group) (l : Launch) (c : BitVec 12) : Word :=
  let core := s.core s.pos
  let n := c.toNat
  if 0x40 ≤ n ∧ n < 0x60 then
    let sp := g.spans.getD ((n - 0x40) / 4) { vbase := 0#64, vlimit := 0#64, offset := 0#64, attr := 0#64 }
    match n % 4 with
    | 0 => sp.vbase
    | 1 => sp.vlimit
    | 2 => sp.offset
    | _ => sp.attr
  else if 0x20 ≤ n ∧ n < 0x28 then s.lvix s.pos t g l (n - 0x20)
  else match n with
    | 0 => core.statusOf t
    | 1 => t.estatus
    | 2 => t.epc
    | 3 => t.tcause
    | 4 => t.tval
    | 5 => g.tvec
    | 6 => t.tscratch
    | 7 => t.stklim
    | 8 => if t.nomad then 0#64 else t.fflags
    | 0x10 => s.time
    | 0x11 => core.vtime.setWidth 64
    | 0x12 => core.tab4l
    | 0x13 => core.tab4h
    | 0x14 => match t.ctx with
      | some k => (core.ctx k).vstate
      | none => 0#64
    | _ => 0#64
/-- Write the RW fields of a control register; STATUS keeps all but PN, ESTATUS and EPC and TVEC keep bit 0 clear where it reads
zero (R207). The thread is returned apart from the state that the write also changes. -/
def State.csrPut (s : State) (t : Thread) (hp : Nat) (c : BitVec 12) (v : Word) : State × Thread :=
  match c.toNat with
  | 0 => (s, { t with status := (t.status &&& ~~~8#64) ||| (v &&& 8#64) })
  | 1 => (s, { t with estatus := v })
  | 2 => (s, { t with epc := v &&& ~~~1#64 })
  | 3 => (s, { t with tcause := v &&& 0x3FFF#64 })
  | 4 => (s, { t with tval := v })
  | 5 => (s.modGroup hp t.group fun g => { g with tvec := v &&& ~~~1#64 }, t)
  | 6 => (s, { t with tscratch := v })
  | 7 => (s, { t with stklim := v })
  | 8 => (s, if t.nomad then t else { t with fflags := v &&& 0xFF#64 })
  | 0x12 => (s.modCore s.pos fun c => { c with tab4l := v }, t)
  | 0x13 => (s.modCore s.pos fun c => { c with tab4h := v }, t)
  | _ => (s, t)

/-- The decode checks of a csr instruction, and the wait of an access to FFLAGS (R232, R277). -/
def csrOp (wr : Bool) (c : BitVec 12) (rs : List Reg) (s : State) (k : Thread → Group → Launch → Out) : Out :=
  withThread s fun t => withGroup s t fun g l =>
    if csrKind c = .unassigned then .next (s.illegal 1#4)
    else if csrKind c = .vstate ∧ t.ctx.isNone then .next (s.illegal 3#4)
    else if t.pp then .next (s.trapBits 0x14#8)
    else if wr && (csrKind c == .readOnly || csrKind c == .vstate) || badNomad t rs then .next (s.illegal 4#4)
    else if t.pends rs then stall s
    else if c = 8#12 && !(s.vectorIdle s.pos t && t.tiles = 0) then stall s
    else k t g l
/-- `csrr` (R398). -/
def execCsrr (c : BitVec 12) (d : Reg) (s : State) : Out :=
  csrOp false c [d] s fun t g l => .next (s.retire (t.wx d (s.csrGet t g l c)))
/-- A csr write of f(old, operand). -/
def csrWrite (f : Word → Word → Word) (c : BitVec 12) (a : Reg) (s : State) : Out :=
  csrOp true c [a] s fun t g l =>
    let r := s.csrPut t (t.homePos s.pos) c (f (s.csrGet t g l c) (t.rx a))
    .next (r.1.retire r.2)
/-- `csrw` (R398). -/
def execCsrw (c : BitVec 12) (a : Reg) (s : State) : Out := csrWrite (fun _ v => v) c a s
/-- `csrs` (R398). -/
def execCsrs (c : BitVec 12) (a : Reg) (s : State) : Out := csrWrite (fun x v => x ||| v) c a s
/-- `csrc` (R398). -/
def execCsrc (c : BitVec 12) (a : Reg) (s : State) : Out := csrWrite (fun x v => x &&& ~~~v) c a s

/-! ## Events and virtual time -/

/-- The decode checks of an event instruction: illegal in step mode and for a hosted nomad thread (R124, R386, R388, R389). -/
def eventOp (hostedOk : Bool) (rs : List Reg) (s : State) (k : Thread → Group → Launch → Out) : Out :=
  plain rs s fun t => withGroup s t fun g l =>
    if l.stepMode || (t.home.isSome && !hostedOk) then .next (s.illegal 4#4) else k t g l
/-- A virtual time limited to 0xFFFF_FFFE, and whether the limit acted (R126, R127). -/
def vtLimit (n : Nat) : BitVec 32 × Bool := if 0xFFFFFFFE < n then (0xFFFFFFFE#32, true) else (BitVec.ofNat 32 n, false)
/-- Whether a core may send an event to a destination now: a free slot, and no unacknowledged event for it (R176). -/
def Core.mayEvent (c : Core) (dst : Nat) : Bool := (c.evSlots.filter fun v => v.isEvent).length < 32 && !c.evSlots.any fun v => v.isFor dst
/-- Send an event of a group from a core (R176, R385); `who` is 0, or the slot of a thread whose `vsdq` sends it and one more. -/
def State.sendEvent (s : State) (p dst stream index : Nat) (vt units : BitVec 32) (who : Nat := 0) (owner : Option (Nat × Nat) := none) : State :=
  let v : EvSlot :=
    { dst := dst, body := .event stream index vt units (s.core p).lcore, retry := false, slot := who, at0 := s.time, owner := owner }
  (s.modCore p fun c => { c with evSlots := c.evSlots ++ [v] }).sendSlot p v
/-- `evsend` (R386). -/
def execEvsend (rl a b : Reg) (s : State) : Out :=
  eventOp false [rl, a, b] s fun t g l =>
    let x := t.rx a
    let stream := (x.extractLsb' 16 4).toNat
    let lcore := (x.extractLsb' 0 16).toNat
    let index := (x.extractLsb' 20 20).toNat
    let units : BitVec 32 := (t.rx b).extractLsb' 0 32
    if stream = 15 ∨ x.extractLsb' 40 24 ≠ 0#24 ∨ (t.rx rl).extractLsb' 16 48 ≠ 0#48 then .next (s.illegal 4#4)
    else match l.core? lcore with
      | none => .next (s.free.2.trap (permission 3#4 s.free.1))
      | some q =>
        let vt := vtLimit ((s.core s.pos).vtime.toNat + ((t.rx rl).extractLsb' 0 16).toNat)
        let t' := s.foldElem t g (BitVec.ofNat 64 (lcore + stream * 65536)) (BitVec.ofNat 64 index ||| (units.setWidth 64 <<< 32)) 6 0
        if g.check.isSome then .next (s.retire t')
        else if !(s.core s.pos).mayEvent q then stall s
        else
          let s := if vt.2 then s.modCore s.pos fun c => { c with vtSat := true } else s
          .next ((s.sendEvent s.pos q stream index vt.1 units 0 (some (t.homePos s.pos, t.group))).retire t')
/-- `evwait` (R387). -/
def execEvwait (a : Reg) (s : State) : Out :=
  eventOp true [a] s fun t g _ =>
    let m := (t.rx a).extractLsb' 0 16
    if g.check.isSome then .next (s.voidRun t g)
    else if m = 0#16 || (s.core s.pos).inbox.any (fun e => m.getLsbD e.stream) then .next (s.retire t)
    else .next (s.setCur { t with run := .sleeping (.events m) })
/-- The record that delivers an entry (R388). -/
def entryRecord : Entry → BitVec 128
  | .event stream index vt units src sseq _ =>
    units ++ sseq ++ BitVec.ofNat 16 src ++ vt ++ 0#8 ++ BitVec.ofNat 4 stream ++ BitVec.ofNat 20 index
  | .record r _ => r
/-- Write a register pair. -/
def Thread.wpair (t : Thread) (d : Reg) (r : BitVec 128) : Thread := (t.wx d (r.extractLsb' 0 64)).wx (d + 1#5) (r.extractLsb' 64 64)
/-- What an empty inbox gives. -/
def noEntry : BitVec 128 := 0#64 ++ BitVec.allOnes 64
/-- Advance a core's VTIME (R126). -/
def Core.raiseVt (c : Core) (v : BitVec 32) : Core := if c.vtime.ult v then { c with vtime := v } else c
/-- `evnext` (R388): the entry leaves, VTIME rises, and the freed entry goes to a refused source (R175). -/
def execEvnext (d : Reg) (s : State) : Out :=
  eventOp false [d, d + 1#5] s fun t g _ =>
    if d.getLsbD 0 ∨ d = 0#5 then .next (s.illegal 1#4)
    else if g.check.isSome then .next (s.voidRun t g)
    else match bestEntry 0xFFFF#16 (s.core s.pos).inbox with
      | none => .next (s.retire (t.wpair d noEntry))
      | some e =>
        let s1 := s.modCore s.pos fun c => { c with inbox := c.inbox.erase e }.raiseVt e.vt
        let s2 := (s1.modCore s.pos Core.applyInbctl).inboxFreed s.pos
        let s3 := s2.retire (t.wpair d (entryRecord e))
        .next (match e with
          | .event stream index _ _ _ _ _ => s3.traceEvent s.pos s.slot index stream
          | .record _ _ => s3.traceEvent s.pos s.slot 0 15)
/-- `evpeek` (R388). -/
def execEvpeek (d : Reg) (s : State) : Out :=
  eventOp false [d, d + 1#5] s fun t g _ =>
    if d.getLsbD 0 ∨ d = 0#5 then .next (s.illegal 1#4)
    else if g.check.isSome then .next (s.voidRun t g)
    else match bestEntry 0xFFFF#16 (s.core s.pos).inbox with
      | none => .next (s.retire (t.wpair d noEntry))
      | some e => .next (s.retire (t.wpair d (entryRecord e)))
/-- `vtadv` (R389). -/
def execVtadv (a : Reg) (s : State) : Out :=
  eventOp false [a] s fun t _ _ =>
    let v := vtLimit (t.rx a).toNat
    .next ((s.modCore s.pos fun c => { c.raiseVt v.1 with vtSat := c.vtSat || v.2 }).retire t)

end Sys2Proof.Machine
end

