-- ==== Sys2Proof/Machine/Fetch.lean ====
section
/-! DEFINITION. The instruction boundary of a thread (R210, R220) and the fetch of an instruction's bits (R165, R260, R293). -/
namespace Sys2Proof.Machine

/-- What a thread does at its boundary. -/
inductive Boundary where
  /-- a trap, a trigger, a wait for a line, or nothing -/
  | done (s : State)
  /-- the instruction's bits, latched in the thread's instruction register -/
  | issue (s : State) (w : BitVec 32)

/-- What a fetch of a halfword gives. -/
inductive Half where
  | got (h : BitVec 16)
  | wait (s : State)

/-- A fetch trap: TVAL is the pc (R211). -/
def State.fetchTrap (s : State) (t : Thread) (tr : Trap) : State := s.trap { tr with tval := t.pc }
/-- A halfword of a cache line. -/
def lineHalf (bs : List Byte) (off : Nat) : BitVec 16 := BitVec.ofNat 16 (natOfBytes ((bs.drop off).take 2))
/-- Fetch a halfword for the instruction at pc (R165, R293): span checks at every fetch, leases when a line is filled. -/
def fetchHalf (s : State) (t : Thread) (g : Group) (l : Launch) (va : Word) : Half :=
  if l.stepMode then
    match (s.core s.pos).locked.find? fun e => e.1 == va.toNat / 128 with
    | some e => .got (lineHalf e.2 (va.toNat % 128))
    | none => .wait (s.fetchTrap t { code := 0x03#8 })
  else match spanFor g.spans va 2 with
    | none => .wait (s.fetchTrap t { code := 0x03#8 })
    | some sp =>
      if !sp.x then .wait (s.fetchTrap t (permission 1#4 va))
      else
        let ia := sp.ia va
        match (s.core s.pos).ic.find? fun e => e.1 == ia / 128 with
        | some e =>
          if e.2.2 then
            .wait ((s.modCore s.pos fun c => { c with ic := c.ic.filter fun x => x.1 ≠ ia / 128 }).consumePoison s.pos s.slot true t.th t.pc)
          else .got (lineHalf e.2.1 (ia % 128))
        | none =>
          match regionCheck s s.pos g l ia { va := va, n := 2, align := 2, r := false, w := false, kind := .fetch } with
          | some tr => .wait (s.fetchTrap t tr)
          | none =>
            if s.reqs.any (fun r => r.src == s.pos && r.use == .fetch (ia / 128)) then .wait s
            else
              let rt := s.route l.lid (ia / 128 * 128)
              .wait (s.ask s.pos (t.asks s rt.node (.bulkRead rt.ia 128) l.lid rt.gen t.pc (.fetch (ia / 128))))

/-- The boundary of the thread in the current slot (R210): a held fault, pre-emption after a restore, a breakpoint, then the fetch. -/
def boundary (s : State) : Boundary :=
  match s.cur? with
  | none => .done s
  | some t =>
    match s.groupOf s.pos t with
    | none => .done s
    | some g =>
    match s.launch? g.lid with
    | none => .done s
    | some l =>
      if t.run ≠ .running ∨ (s.core s.pos).fenced = true ∨ (s.core s.pos).halted = true ∨ s.changing s.pos = true then .done s
      else if g.stepping && t.stepped then .done s
      -- a group that keeps a digest folds its vector and tile effects in program order (assumption 20)
      else if s.digests g && (t.tiles ≠ 0 || t.ctx.any fun k => !((s.core s.pos).ctx k).queue.isEmpty) then .done s
      else match t.dbgTrap, t.held, t.pnDue with
        | some v, _, _ =>
          if t.th then .done (s.setCur { t with dbgTrap := none })
          else .done ((s.setCur { t with dbgTrap := none }).trap { code := 0x12#8, tval := v })
        | none, some tr, _ =>
          if t.th then issueAt s t g l
          else .done ((s.setCur { t with held := none }).trap tr)
        | none, none, some v =>
          if t.th then issueAt s t g l
          else .done ((s.setCur { t with pnDue := none }).trap { code := 0x11#8, tval := v })
        | none, none, none => issueAt s t g l
where
  /-- The breakpoint and the fetch. -/
  issueAt (s : State) (t : Thread) (g : Group) (l : Launch) : Boundary :=
    match (if t.bpPass = some t.pc then none else (s.core (t.homePos s.pos)).breakAt t.pc g.lowSlot) with
    | some k => .done ((s.setCur { t with bpPass := some t.pc }).trigger (t.homePos s.pos) g.gid 1 k s.pos 0#16 (some (s.pos, s.slot)))
    | none =>
      match fetchHalf s t g l t.pc with
      | .wait s => .done s
      | .got lo =>
        if !lo.getLsbD 0 then .issue (s.setCur { t with ir := lo.setWidth 32 }) (lo.setWidth 32)
        else match fetchHalf s t g l (t.pc + 2#64) with
          | .wait s => .done s
          | .got hi => .issue (s.setCur { t with ir := hi ++ lo }) (hi ++ lo)

/-! ## Which thread issues (R116) -/

/-- The order in which a core's threads would be chosen in a clock (R116): overdue threads by wait count, then by priority,
round-robin after the last thread of the priority to issue. The thread that has yielded comes after every other one (R393). -/
def Core.issueOrder (c : Core) : List Nat :=
  let run := (c.threads.filter fun st => st.2.run == .running && c.yielded != some st.1)
  let late := run.filter fun st => 48 ≤ st.2.waitCnt
  let lateOrder := (((List.range 64).reverse).map fun n => (late.filter fun st => st.2.waitCnt == n).map (·.1)).flatten
  let rest := ((List.range 4).map fun pr =>
    let mine := (run.filter fun st => st.2.prio == pr && st.2.waitCnt < 48).map (·.1)
    let last := c.lastIssue.getD pr 15
    (mine.filter fun k => last < k) ++ mine.filter fun k => k ≤ last).flatten
  lateOrder ++ rest ++ (c.threads.filter fun st => st.2.run == .running && c.yielded == some st.1).map (·.1)
/-- Priority of the thread in a slot. -/
def Core.prioOf (c : Core) (slot : Nat) : Nat :=
  match tblGet? c.threads slot with
  | some t => t.prio
  | none => 0
/-- A thread of a core has issued: it is the last of its priority; the ready ones that did not issue wait one clock more. -/
def Core.issuedBy (c : Core) (slot : Nat) (passed : List Nat) : Core :=
  let pr := c.prioOf slot
  let c := { c with lastIssue := c.lastIssue.set pr slot }
  let c := match c.yielded with
    | some k => { c with yielded := none, lastIssue := if k = slot then c.lastIssue else c.lastIssue.set (c.prioOf k) k }
    | none => c
  c.mapThreads fun k t => if passed.contains k && t.run == Run.running then { t with waitCnt := min 63 (t.waitCnt + 1) } else t

end Sys2Proof.Machine
end

