-- ==== Sys2Proof/Machine/Dump.lean ====
section
/-! DEFINITION. Termination records and dumps (R213 to R217), and the ends of groups (R109, R138, R141, R212). -/
namespace Sys2Proof.Machine

/-- Accesses of a group's threads that are not answered, vector accesses, events and matrix commands among them; engine operations are not
drained (R215). -/
def State.groupBusy (s : State) (hp gid : Nat) : List Req :=
  let ths := s.threadsOf hp gid
  s.reqs.filter fun r => match r.use with
    | .fetch _ | .engineRead .. | .engineWrite .. | .flush .. | .context _ | .withdrawal .. | .record => false
    | .event _ | .matrix => r.owner == some (hp, gid)
    | _ => ths.any fun x => r.src == x.1 && r.slot == some x.2.1
/-- A vector command that stood at the head when its thread of the group was halted has still to complete (R118). -/
def State.headsLeft (s : State) (hp gid : Nat) : Bool :=
  (s.threadsOf hp gid).any fun x =>
    let c := s.core x.1
    (c.v0.headLeft && c.v0.owner == some x.2.1 && !c.v0.queue.isEmpty && !c.v0.part) ||
    (c.v1.headLeft && c.v1.owner == some x.2.1 && !c.v1.queue.isEmpty && !c.v1.part)

/-! ## The dump (R216, R217) -/

/-- Bytes of a thread context: 0x200. -/
def Thread.contextBytes (t : Thread) (status : Word) : List Byte := ((List.range 44).map fun i => bytesOf (t.contextWord status (8 * i)) 8).flatten
/-- Bytes of a vector context up to VSTATE. -/
def VCtx.contextBytes (v : VCtx) : List Byte := ((List.range 1065).map fun i => bytesOf (v.contextWord (8 * i)) 8).flatten
/-- The 32-byte form of a span (R90). -/
def Span.bytes (p : Span) : List Byte := bytesOf p.vbase 8 ++ bytesOf p.vlimit 8 ++ bytesOf p.offset 8 ++ bytesOf p.attr 8
/-- The tag bitmap of an allocation. -/
def Core.tagBitmap (c : Core) (g : Group) : List Byte :=
  (List.range (g.len / 64)).map fun i => (List.range 8).foldl (fun (b : Byte) j =>
    if c.full.contains (c.spPhys (g.base + (8 * i + j) * 8) / 8) then b ||| (1#8 <<< j) else b) 0#8
/-- The segments of a dump: offset and bytes; every other byte of the 0x5_0000 is zero. -/
def State.dumpParts (s : State) (p : Nat) (g : Group) (reason : Nat) : List (Nat × List Byte) :=
  let c := s.core p
  let ths := s.threadsOf p g.gid
  let content := s.feature 5
  let holder (v : VCtx) : Nat := match v.owner with
    | some k => match tblGet? c.threads k with
      | some t => if t.group = g.gid ∧ t.home.isNone then t.idx else 0xFF
      | none => 0xFF
    | none => 0xFF
  let mask := ths.foldl (fun n x => n ||| 2 ^ (x.2.2.homeSlot x.2.1)) 0
  let flags := (if content then 0 else 1) + (if 512 < g.indet then 2 else 0)
  let head : List (Nat × List Byte) := [
    (0x0, bytesOfNat 0x504D5A47 4), (0x4, bytesOfNat 1 4), (0x8, [BitVec.ofNat 8 reason, BitVec.ofNat 8 flags]), (0xC, bytesOfNat g.lid 4),
    (0x10, bytesOfNat p 2 ++ bytesOfNat c.lcore 2), (0x14, [BitVec.ofNat 8 g.size, BitVec.ofNat 8 g.nvec] ++ bytesOfNat mask 2),
    (0x18, bytesOfNat g.gen 4), (0x20, bytesOfNat g.base 4 ++ bytesOfNat g.len 4), (0x28, bytesOfNat g.drain 4 ++ bytesOfNat g.indet 4),
    (0x30, bytesOf g.stopAt 8 ++ bytesOf s.time 8), (0x40, bytesOf g.tvec 8),
    (0x48, [BitVec.ofNat 8 (holder c.v0), BitVec.ofNat 8 (holder c.v1)]),
    (0x100, (g.spans.map Span.bytes).flatten),
    (0x200, (g.binds.map fun b => bytesOfNat b.sync 8 ++ bytesOfNat (b.region / 64 * 64 + b.log2) 8).flatten),
    (0xA000, (g.badList.map fun (e : BitVec 128) => bytesOfNat e.toNat 16).flatten)]
  let ctxs := ths.map fun x => (0x1000 + x.2.2.idx * 0x200, x.2.2.contextBytes ((s.core x.1).statusOf x.2.2))
  let secret : List (Nat × List Byte) :=
    (if holder c.v0 ≠ 0xFF then [(0x3000, c.v0.contextBytes)] else []) ++ (if holder c.v1 ≠ 0xFF then [(0x6000, c.v1.contextBytes)] else []) ++
    [(0x9000, c.tagBitmap g), (0x10000, c.spRead g.base g.len)]
  head ++ ctxs ++ (if content then secret else [])
/-- Write a dump at an address in the form of R81. -/
def State.writeDump (s : State) (addr : Word) (p : Nat) (g : Group) (reason : Nat) : State :=
  let s0 := s.fwStore addr (repeatN 0#8 0x50000)
  (s.dumpParts p g reason).foldl (fun s' e => s'.fwStore (addr + BitVec.ofNat 64 e.1) e.2) s0

/-! ## Termination (R212, R213) -/

/-- The termination record (R213), CLASS last. -/
def terminationRecord (p : Nat) (g : Group) (d : Dying) (dslot : Nat) : List Byte :=
  bytesOfNat (g.lid % 2 ^ 32 + p * 2 ^ 32 + g.lowSlot * 2 ^ 42 + d.thread * 2 ^ 46 + d.code.toNat * 2 ^ 56) 8 ++ bytesOf d.epc 8 ++ bytesOf d.tval 8 ++
  bytesOfNat g.gen 4 ++ bytesOfNat g.drain 4 ++ bytesOfNat g.indet 4 ++ bytesOfNat dslot 4 ++ bytesOf d.time 8 ++ repeatN 0#8 15 ++ [BitVec.ofNat 8 d.cls]
/-- Steps 3 and 4 of R212: the dump, when REGS is open and there are dump slots, and the record. -/
def State.recordTermination (s : State) (p : Nat) (g : Group) (d : Dying) : State :=
  let dumps := s.feature 1 && s.fw.dmpSlots ≠ 0
  let dslot := if dumps then s.fw.dmpHead % 2 ^ 32 else 0xFFFFFFFF
  let s := if dumps then
      (s.writeDump (ringAddr s.fw.dmpBase s.fw.dmpHead s.fw.dmpSlots 0x50000) p g d.cls).modFw fun w => { w with dmpHead := w.dmpHead + 1 }
    else s
  (s.fwStore (ringAddr s.fw.fltBase s.fw.fltHead s.fw.fltSlots 64) (terminationRecord p g d dslot)).modFw fun w => { w with fltHead := w.fltHead + 1 }

end Sys2Proof.Machine
end

