-- ==== Sys2Proof/Machine/Registers.lean ====
section
/-! DEFINITION. Device control space (R53): the queue descriptors (R81), the fabric registers (R49), the memory-side registers
(R68), the peer windows (R69), WSSTAT (R134), the checking registers and scores (R145), the containment counters (R149) and the
fault and dump rings (R214); and the command queues as firmware keeps them (R79 to R86). -/
namespace Sys2Proof.Machine

/-! ## Queues -/

/-- A queue that is not defined. -/
def Queue.none : Queue :=
  { base := 0#64, cbase := 0#64, sub := 0#64, stat := 0#64, size := 0#64, en := false, prio := 0, state := 0, err := 0, laps := 0, rp := 0,
    cwp := 0, wpLast := 0, crpLast := 0, pending := [], begun := [], heldCpl := [], deleting := Option.none, stopping := false, waiting := Option.none }
/-- A queue. -/
def State.queue (s : State) (q : Nat) : Queue := tblGetD s.fw.queues q Queue.none
/-- Put a queue. -/
def State.setQueue (s : State) (q : Nat) (v : Queue) : State := s.modFw fun w => { w with queues := tblSet w.queues q v }
/-- Change a queue. -/
def State.modQueue (s : State) (q : Nat) (f : Queue → Queue) : State := s.setQueue q (f (s.queue q))
/-- Entries of the command ring: 2^CLOG. -/
def Queue.slots (v : Queue) : Nat := 2 ^ (v.size.extractLsb' 0 5).toNat
/-- Entries of the completion ring: 2^PLOG. -/
def Queue.cslots (v : Queue) : Nat := 2 ^ (v.size.extractLsb' 8 5).toNat
/-- QSTAT (R81). -/
def Queue.qstat (v : Queue) : Word := fieldAt v.state 0 ||| fieldAt v.err 4 ||| fieldAt (v.laps % 2 ^ 32) 32
/-- QCTL. -/
def Queue.qctl (v : Queue) : Word := bitAt v.en 0 ||| fieldAt v.prio 1
/-- Some ring or line lies in device memory (R84, R87). -/
def Queue.inDevice (v : Queue) : Bool := [v.base, v.cbase, v.sub, v.stat].any fun a => !a.getLsbD 63

/-- An address in the form of R81, and n bytes from it, is well formed: a host address, or memory space of this device in pages that
are mapped. -/
def State.addrOk (s : State) (a : Word) (n : Nat) : Bool :=
  if a.getLsbD 63 then a.extractLsb' 56 7 = 0#7 && (a.extractLsb' 0 52).toNat + n ≤ 2 ^ 52
  else a.extractLsb' 48 8 = 0xFF#8 && a.extractLsb' 56 7 = 0#7 && !a.getLsbD 47 && (a.extractLsb' 0 47).toNat + n ≤ 2 ^ 47
/-- Every page of a range in memory space has a translation (R57); host memory needs none. -/
def State.addrMapped (s : State) (a : Word) (n : Nat) : Bool :=
  a.getLsbD 63 || n = 0 ||
    (let o := (a.extractLsb' 0 47).toNat
     (List.range ((o + n - 1) / 65536 - o / 65536 + 1)).all fun i => s.mapped ((o / 65536 + i) * 65536))
/-- The LPDDR pages of leases: pages of this device's memory space that host memory does not back (R61, R75). -/
def State.leasePages (s : State) (l : List Lease) : List Nat :=
  (l.filter fun e => e.pages ≠ 0 && e.base / 2 ^ 48 = 0xFF && e.base % 2 ^ 48 < 2 ^ 47).foldl (fun t e =>
    (List.range e.pages).foldl (fun t i =>
      let pg := e.base % 2 ^ 48 / 65536 + i
      if (s.hostAddr? (pg * 65536)).isSome then t else setIns t pg) t) []
/-- Frames that the leases of live launches pin; a launch that waits pins nothing yet. -/
def State.pinned (s : State) : List Nat := s.leasePages (((s.launches.filter fun l => l.st != .waiting).map (·.leases)).flatten)
/-- An address in firmware's reserve (assumption 3). -/
def reserveOffset (k : Nat) : Nat := Config.reserveBase % 2 ^ 17 * 2 ^ 30 + k
/-- Its intermediate address. -/
def reserveAt (k : Nat) : Nat := memIa (reserveOffset k)
/-- Every page of a range in memory space is pinned by firmware's reserve or a live lease (R81); host memory needs none. -/
def State.addrPinned (s : State) (a : Word) (n : Nat) : Bool :=
  a.getLsbD 63 || n = 0 ||
    (let o := (a.extractLsb' 0 47).toNat
     let pins := s.pinned
     (List.range ((o + n - 1) / 65536 - o / 65536 + 1)).all fun i =>
       let pg := o / 65536 + i
       pins.contains pg || pg / 2 ^ 14 = Config.reserveBase % 2 ^ 17)
/-- The definition of a queue is valid: sizes, alignments and addresses (R79, R81). -/
def State.queueValid (s : State) (v : Queue) : Bool :=
  let cl := (v.size.extractLsb' 0 5).toNat
  let pl := (v.size.extractLsb' 8 5).toNat
  let ok (a : Word) (n : Nat) : Bool := s.addrOk a n && s.addrMapped a n && s.addrPinned a n && a.toNat % n = 0
  4 ≤ cl && cl ≤ 16 && 4 ≤ pl && pl ≤ 16 && ok v.base (64 * 2 ^ cl) && ok v.cbase (32 * 2 ^ pl) && ok v.sub 64 && ok v.stat 64

/-- Write a queue's status line (R81), where its address is one. -/
def State.writeStatus (s : State) (q : Nat) : State :=
  let v := s.queue q
  if !s.addrOk v.stat 64 || !s.addrMapped v.stat 64 || v.stat.toNat % 64 ≠ 0 then s
  else s.fwStore v.stat (bytesOfNat v.rp 8 ++ bytesOfNat v.cwp 8 ++ bytesOf v.qstat 8)
/-- The completion ring has room (R83). -/
def Queue.cplRoom (v : Queue) : Bool := v.cwp - v.crpLast < v.cslots
/-- Write a completion entry, then advance CWP (R83); without room it is held. -/
def State.postCpl (s : State) (q : Nat) (e : List Byte) : State :=
  let v := s.queue q
  if v.cplRoom && v.heldCpl.isEmpty then
    let s := s.fwStore (v.cbase + BitVec.ofNat 64 (v.cwp % v.cslots * 32)) e
    (s.setQueue q { v with cwp := v.cwp + 1 }).writeStatus q
  else s.setQueue q { v with heldCpl := v.heldCpl ++ [e] }
/-- Post completions that were held, as room allows. -/
def State.postHeld (s : State) (q : Nat) : Nat → State
  | 0 => s
  | n + 1 =>
    let v := s.queue q
    match v.heldCpl with
    | [] => s
    | e :: t => if v.cplRoom then State.postHeld ((s.setQueue q { v with heldCpl := [] }).postCpl q e |>.modQueue q fun v => { v with heldCpl := t }) q n else s
/-- The 32 bytes of a completion (R85). -/
def cplBytes (tag : BitVec 16) (status opc info0 : Nat) (info1 : Word) (time : Word) (index : Nat) : List Byte :=
  bytesOfNat (tag.toNat + status * 2 ^ 16 + opc * 2 ^ 24 + info0 % 2 ^ 32 * 2 ^ 32) 8 ++ bytesOf info1 8 ++ bytesOf time 8 ++ bytesOfNat index 8
/-- Complete a command (R85): with NOCPL only a status other than OK writes an entry. A command that began before a reset ends
without one (R84). -/
def State.finishCmd (s : State) (c : CmdRef) (status : Nat) (info0 : Nat := 0) (info1 : Word := 0#64) : State :=
  let v := s.queue c.q
  if !v.begun.contains c then s
  else
    let s := s.setQueue c.q { v with begun := v.begun.erase c }
    if c.nocpl && status = 0 then s else s.postCpl c.q (cplBytes c.tag status c.opc info0 info1 s.time c.index)
/-- Halt a queue (R82): STATE 2, ERR, LAPS but for ERR 3, and a LAPPED completion if there is room. -/
def State.haltQueue (s : State) (q err : Nat) : State :=
  let s := s.modQueue q fun v => { v with state := 2, err := err, laps := if err = 3 then v.laps else v.laps + 1 }
  if err = 3 then s.writeStatus q
  else if (s.queue q).cplRoom then s.postCpl q (cplBytes 0xFFFF#16 0x0F 0 0 0#64 s.time (s.queue q).rp) else s.writeStatus q
/-- Set RP := WP as the submit line now shows, any halt cleared: the unread entries are discarded (R79, R82). -/
def State.restartQueue (s : State) (q : Nat) : State :=
  let v := s.queue q
  let wp := natOfBytes (s.fwLoad v.sub 8)
  let s := s.setQueue q { v with rp := wp, wpLast := wp, state := 1, err := 0 }
  s.writeStatus q
/-- EN of a queue is cleared: its service stops once the begun commands have completed (R79). -/
def State.stopQueue (s : State) (q : Nat) : State :=
  let v := s.queue q
  if v.begun.isEmpty then (s.setQueue q { v with en := false, stopping := false, state := 0 }).writeStatus q
  else s.setQueue q { v with en := false, stopping := true }
/-- Begin the service of a queue that has been enabled: halted with ERR 3 where its definition is invalid (R79). -/
def State.startQueue (s : State) (q : Nat) (restart : Bool) : State :=
  let s := s.modQueue q fun v => { v with en := true, stopping := false }
  if !s.queueValid (s.queue q) then s.haltQueue q 3
  else if restart then s.restartQueue q
  else (s.modQueue q fun v => { v with state := 1, err := 0 }).writeStatus q

/-! ## Clock points (R13, R14, R91) -/

/-- A rectangle touches a basin. -/
def Rect.touches (r : Rect) (b : Nat) : Bool :=
  r.defined && b % 4 * 8 < r.x0 + r.w && r.x0 < b % 4 * 8 + 8 && b / 4 * 8 < r.y0 + r.h && r.y0 < b / 4 * 8 + 8
/-- The cap of the rectangles on a basin: the lowest point wins. -/
def State.rectCap (s : State) (b : Nat) : Nat := s.fw.rects.toList.foldl (fun n r => if r.touches b then max n r.cap else n) 0
/-- The cap in force: an expert cap overrides those of RECT. -/
def State.capOf (s : State) (b : Nat) : Nat := (((s.fw.basins.toList[b]?).bind (·.expert))).getD (s.rectCap b)
/-- The point at which a basin should run: the lowest that any power rule, thermal rule or cap allows; boost only where granted. -/
def State.wantPoint (s : State) (b : Nat) : Nat :=
  match s.fw.basins.toList[b]? with
  | none => 1
  | some x => max (max (max x.power x.module) (max x.warm x.hot)) (max (s.capOf b) (if x.boost then 0 else s.fw.basePoint))
/-- Bring every basin to its point; a basin whose point changes stops issuing until CLOCK_POINT_CHANGE_END (R14). -/
def State.applyPoints (s : State) : State :=
  let want := (List.range 16).map fun b => s.wantPoint b
  s.modFw fun w => { w with basins := (w.basins.toList.zip want).foldl (fun (x : Vector Basin 16 × Nat) e =>
      (x.1.setIfInBounds x.2 (if e.1.point = e.2 then e.1 else { e.1 with point := e.2, changing := true }), x.2 + 1)) (w.basins, 0) |>.1 }
/-- The word of a basin in QUERY item 0x02 (R92). -/
def State.basinWord (s : State) (b : Nat) (x : Basin) : Word :=
  fieldAt x.point 0 ||| fieldAt (s.capOf b) 3 ||| bitAt x.expert.isSome 6 ||| fieldAt (x.lastMw / 10 % 2 ^ 16) 16 ||| fieldAt (x.lastTemp % 2 ^ 16) 32
/-- Write a clock-point register of device control, laid out as the word of QUERY item 0x02: with bit 6 set, bits [5:3] become the
basin's expert cap; with bit 6 clear the basin has none. R14 names the registers and no rule lays them out (assumption 76). -/
def State.writePoint (s : State) (b : Nat) (v : Word) : State :=
  let k := (v.extractLsb' 3 3).toNat
  let put (x : Basin) : Basin := { x with expert := if v.getLsbD 6 then (if k ≤ 4 then some k else x.expert) else none }
  (s.modFw fun w => { w with basins := w.basins.setIfInBounds b (put ((w.basins.toList[b]?).getD Basin.reset)) }).applyPoints

/-! ## Reading device control -/

/-- The scores of eight positions (R145). -/
def State.suspWord (s : State) (o : Nat) : Word :=
  (List.range 8).foldl (fun w i => w ||| fieldAt (tblGetD s.fw.susp (o + i) 0 % 256) (8 * i)) 0#64
/-- A word of a rectangle's counters (R149). -/
def Rect.word (r : Rect) (o : Nat) : Word :=
  match o with
  | 0x00 => BitVec.ofNat 64 r.ce
  | 0x08 => BitVec.ofNat 64 r.drop
  | 0x10 => BitVec.ofNat 64 r.evdrop
  | 0x18 => BitVec.ofNat 64 r.pcons
  | 0x20 => fieldAt (r.count % 2 ^ 32) 0 ||| fieldAt (r.lastPos % 1024) 32
  | 0x28 => r.ctime
  | _ => 0#64
/-- A word of a queue's descriptor (R81). -/
def Queue.word (v : Queue) (o : Nat) : Word :=
  match o with
  | 0x00 => v.base
  | 0x08 => v.cbase
  | 0x10 => v.sub
  | 0x18 => v.stat
  | 0x20 => v.size
  | 0x28 => v.qctl
  | 0x30 => v.qstat
  | _ => 0#64
/-- Read an aligned 64-bit register of device control by its offset: an RW field as last written, though it is not yet in force (R6, R49,
R67). An unassigned offset reads zero and ignores writes: DESIGN CHOICE, since neither R6 nor R53 says so (assumption 73). -/
def State.devRead (s : State) (o : Nat) : Word :=
  let w := s.fw
  if o < 0x1000 then (if o < 0x40 then 0#64 else (s.queue (o / 64)).word (o % 64))
  else if 0x10000 ≤ o && o < 0x10080 then ((w.basins.toList[(o - 0x10000) / 8]?).map (s.basinWord ((o - 0x10000) / 8))).getD 0#64
  else if 0x40000 ≤ o && o < 0x40400 then
    (tblGetD w.peerWin ((o - 0x40000) / 16) 0#128).extractLsb' (o % 16 * 8) 64
  else if 0x51000 ≤ o && o < 0x51400 then s.suspWord (o - 0x51000)
  else if 0x60000 ≤ o && o < 0x60400 then ((w.rects.toList[(o - 0x60000) / 64]?).map fun r => r.word (o % 64)).getD 0#64
  else match o with
    | 0x20000 => w.cgPend.base.getD w.cgBase
    | 0x20008 => fieldAt (w.cgPend.slots.getD w.cgSlots) 0
    | 0x20010 => BitVec.ofNat 64 w.cgHead
    | 0x20018 => bitAt (w.cgPend.en.getD w.cgEn) 0 ||| bitAt w.cgOvr 1
    | 0x20020 => w.fepoch.setWidth 64
    | 0x30000 => w.ptBase
    | 0x30008 => bitAt w.xinv.isEmpty 63
    | 0x30010 => w.scrubBase
    | 0x30018 => fieldAt w.scrubSlots 0
    | 0x30020 => BitVec.ofNat 64 w.scrubHead
    | 0x30028 => fieldAt (w.scrubPend.getD (w.scrubHours, w.scrubEn)).1 0 ||| bitAt (w.scrubPend.getD (w.scrubHours, w.scrubEn)).2 17
    | 0x50000 => fieldAt (w.wsRound % 2 ^ 63) 0 ||| bitAt w.wsForced 63
    | 0x50100 => bitAt w.chkEn 0 ||| fieldAt w.chkInc 8 ||| fieldAt w.chkQth 16
    | 0x50108 => fieldAt (min s.checks.length 0xFFFF) 0 ||| fieldAt (w.chkClean % 2 ^ 48) 16
    | 0x50110 => w.chkBase
    | 0x50118 => fieldAt w.chkSlots 0
    | 0x50120 => BitVec.ofNat 64 w.chkHead
    | 0x70000 => w.fltBase
    | 0x70008 => fieldAt w.fltSlots 0
    | 0x70010 => BitVec.ofNat 64 w.fltHead
    | 0x70018 => w.dmpBase
    | 0x70020 => fieldAt w.dmpSlots 0
    | 0x70028 => BitVec.ofNat 64 w.dmpHead
    | _ => 0#64
/-- n bytes of device control. -/
def State.devBytes (s : State) (o : Nat) : Nat → List Byte
  | 0 => []
  | n + 1 => (s.devRead (o / 8 * 8)).extractLsb' (8 * (o % 8)) 8 :: s.devBytes (o + 1) n

/-! ## Writing device control -/

/-- A base in bits [55:0] whose low k bits must be zero: a write that breaks this is ignored (R49, R68). -/
def baseWrite (old v : Word) (k : Nat) : Word :=
  let a := v &&& 0x00FFFFFFFFFFFFFF#64
  if a.toNat % 2 ^ k = 0 then a else old
/-- A base whose low k bits read zero. -/
def baseMask (v : Word) (k : Nat) : Word := BitVec.ofNat 64 (v.toNat % 2 ^ 56 / 2 ^ k * 2 ^ k)
/-- A slot count of which a write of 0 is ignored. -/
def slotsWrite (old : Nat) (v : Word) : Nat :=
  let n := (v.extractLsb' 0 16).toNat
  if n = 0 then old else n
/-- Write QCTL of a queue from 1 to 63 (R81): EN set begins its service. -/
def State.writeQctl (s : State) (q : Nat) (v : Word) : State :=
  if q = 0 || 64 ≤ q then s
  else
    let was := (s.queue q).en
    let s := s.modQueue q fun k => { k with en := v.getLsbD 0, prio := (v.extractLsb' 1 2).toNat }
    if v.getLsbD 0 && !was then s.startQueue q false
    else if !v.getLsbD 0 && was then s.stopQueue q
    else s
/-- Write a word of the descriptor of a queue from 1 to 63 at the expert level. -/
def State.writeDesc (s : State) (q o : Nat) (v : Word) : State :=
  match o with
  | 0x00 => s.modQueue q fun k => { k with base := v }
  | 0x08 => s.modQueue q fun k => { k with cbase := v }
  | 0x10 => s.modQueue q fun k => { k with sub := v }
  | 0x18 => s.modQueue q fun k => { k with stat := v }
  | 0x20 => s.modQueue q fun k => { k with size := v &&& 0x1F1F#64 }
  | 0x28 => s.writeQctl q v
  | _ => s
/-- Write XINV (R68): every slice starts to drop the named range. -/
def State.writeXinv (s : State) (v : Word) : State :=
  s.modFw fun w => { w with xinv := w.xinv ++ [((v.extractLsb' 0 47).toNat / 65536, (v.extractLsb' 47 16).toNat + 1)] }
/-- Device of a peer window entry. -/
def winDev (e : BitVec 128) : Nat := (e.extractLsb' 48 8).toNat
/-- Write a peer window entry (R69, R71): a rewritten peer returns to LIVE. -/
def State.writePeerWin (s : State) (i : Nat) (v : BitVec 128) : State :=
  let v := v &&& 0x0003FFFFFFFF000000FFFFFFFFFF0000#128
  s.modFw fun w => { w with
    peerWin := tblSet w.peerWin i v,
    peers := match tblGet? w.peers (winDev v) with
      | some (_, r) => tblSet w.peers (winDev v) (true, r)
      | none => w.peers }
/-- Write an aligned register of device control: `v` holds the bytes written over the bytes as they read, `w1` the bytes written
alone, for the bits that a 1 clears. -/
def State.devWrite (s : State) (o : Nat) (v w1 : Word) : State :=
  if o < 0x1000 then (if o < 0x40 then s else s.writeDesc (o / 64) (o % 64) v)
  else if 0x10000 ≤ o && o < 0x10080 then s.writePoint ((o - 0x10000) / 8) v
  else if 0x40000 ≤ o && o < 0x40400 then
    let i := (o - 0x40000) / 16
    let old := tblGetD s.fw.peerWin i 0#128
    s.writePeerWin i (if o % 16 = 0 then old.extractLsb' 64 64 ++ v else v ++ old.extractLsb' 0 64)
  else s.modFw fun w => match o with
    | 0x20000 => { w with cgPend := { w.cgPend with base := if v.toNat % 2 ^ 12 = 0 then some (v &&& 0x00FFFFFFFFFFFFFF#64) else w.cgPend.base } }
    | 0x20008 => { w with cgPend := { w.cgPend with slots := if (v.extractLsb' 0 16).toNat = 0 then w.cgPend.slots else some (v.extractLsb' 0 16).toNat } }
    | 0x20018 => { w with cgPend := { w.cgPend with en := some (v.getLsbD 0), clear := w.cgPend.clear || w1.getLsbD 1 } }
    | 0x30000 => { w with ptBase := if v.toNat % 2 ^ 13 = 0 then v &&& 0x000FFFFFFFFFFFFF#64 else w.ptBase }
    | 0x30008 => (s.writeXinv v).fw
    | 0x30010 => { w with scrubBase := baseMask v 12 }
    | 0x30018 => { w with scrubSlots := slotsWrite w.scrubSlots v }
    | 0x30028 =>
      let h := (v.extractLsb' 0 17).toNat
      let old := w.scrubPend.getD (w.scrubHours, w.scrubEn)
      { w with scrubPend := some (if 1 ≤ h && h ≤ 1000 then h else old.1, v.getLsbD 17) }
    | 0x50000 => { w with wsForced := w.wsForced && !w1.getLsbD 63 }
    | 0x50100 => { w with chkEn := v.getLsbD 0, chkInc := (v.extractLsb' 8 8).toNat, chkQth := (v.extractLsb' 16 8).toNat }
    | 0x50110 => { w with chkBase := baseMask v 12 }
    | 0x50118 => { w with chkSlots := slotsWrite w.chkSlots v }
    | 0x70000 => { w with fltBase := baseMask v 12 }
    | 0x70008 => { w with fltSlots := slotsWrite w.fltSlots v }
    | 0x70018 => { w with dmpBase := baseMask v 16 }
    | 0x70020 => { w with dmpSlots := (v.extractLsb' 0 8).toNat }
    | _ => w
/-- Store bytes within one aligned word of device control. -/
def State.devStoreWord (s : State) (o : Nat) (bs : List Byte) : State :=
  let k := o % 8
  let old := s.devRead (o / 8 * 8)
  let m := BitVec.ofNat 64 ((2 ^ (8 * bs.length) - 1) * 2 ^ (8 * k))
  let new := BitVec.ofNat 64 (natOfBytes bs * 2 ^ (8 * k))
  s.devWrite (o / 8 * 8) ((old &&& ~~~m) ||| new) new
/-- Store bytes in device control, word by word. -/
def State.devStore (s : State) (o : Nat) (bs : List Byte) : Nat → State
  | 0 => s
  | n + 1 =>
    if bs.isEmpty then s
    else
      let k := min bs.length (8 - o % 8)
      (s.devStoreWord o (bs.take k)).devStore (o + k) (bs.drop k) n

/-! ## Error events of memory (R66, R67) -/

/-- Blocks of 64 bytes of LPDDR: physical addresses below 0xBD_0000_0000 (R63). -/
def memBlocks : Nat := 0xBD00000000 / 64
/-- Index of an outcome's class among CE, UE, TM and BOTH. -/
def eccClass : EccOutcome → Option Nat
  | .clean => none
  | .ce => some 0
  | .ue => some 1
  | .tm => some 2
  | .both => some 3
/-- Blocks of memory space that an event on a block poisons: the block, or the 64 blocks of a carve-out block's range. -/
def eccBlocks (block : Nat) (carve : Bool) : List Nat := if carve then (List.range 64).map fun i => block / 64 * 64 + i else [block]
/-- The entry of the scrub log (R67). -/
def scrubEntry (block : Nat) (carve demand poisoned : Bool) (time : Word) (count cls : Nat) : List Byte :=
  let pa := if carve then block / 64 * 4096 else block * 64
  bytesOfNat (pa % 2 ^ 40 + pa / 4096 % 48 * 2 ^ 40 + (if demand then 2 ^ 46 else 0) + (if poisoned then 2 ^ 47 else 0) + (if carve then 2 ^ 48 else 0)) 8 ++
  bytesOf time 8 ++ bytesOfNat count 8 ++ repeatN 0#8 7 ++ [BitVec.ofNat 8 (cls + 1)]
/-- The controller reads a block with an outcome (R66, R67): poison, the count of the class, the log entry. A carve-out block's
events are CE or UE. -/
def State.eccEvent (s : State) (block : Nat) (carve : Bool) (o : EccOutcome) (demand : Bool) : State :=
  match eccClass (if carve && o != .clean && o != .ce then .ue else o) with
  | none => s
  | some k =>
    let poisons := k ≠ 0
    let s := if poisons then { s with bad := (eccBlocks block carve).foldl setIns s.bad } else s.modRect 0 fun r => { r with ce := r.ce + 1 }
    let ev := if h : k < 4 then s.fw.scrubEvents.set k (s.fw.scrubEvents[k]'h + 1) else s.fw.scrubEvents
    let s := s.fwStore (ringAddr s.fw.scrubBase s.fw.scrubHead s.fw.scrubSlots 32)
      (scrubEntry block carve demand poisons s.time (ev.toList.foldl (· + ·) 0) k)
    s.modFw fun w => { w with scrubEvents := ev, scrubHead := w.scrubHead + 1 }

end Sys2Proof.Machine
end

