-- ==== Sys2Proof/Machine/Leases.lean ====
section
/-! DEFINITION. Leases as firmware checks and counts them: descriptors (R59), the frames they want (R61), and the lease table of a
launch. -/
namespace Sys2Proof.Machine

/-- The device-control ranges that the ROM firmware exposes: base, 64 KiB units, R and W (R92 item 0x09). -/
def ctlRanges : List (Nat × Nat × Nat) := [(0xFF830000020000, 1, 1), (0xFF830000050000, 1, 3), (0xFF830000060000, 1, 1)]
/-- The lease of a descriptor (R59). -/
def leaseOf (d : Nat) : Lease :=
  { base := d % 2 ^ 56, pages := d / 2 ^ 64 % 2 ^ 32, r := d.testBit 96, w := d.testBit 97, x := d.testBit 98, inp := d.testBit 99, ctl := d.testBit 100 }
/-- A reserved bit of a descriptor is set. -/
def leaseReserved (d : Nat) : Bool := d / 2 ^ 56 % 256 ≠ 0 || d / 2 ^ 101 ≠ 0
/-- A lease obeys R59: one region of one device, a peer window for a peer, CTL for device control. -/
def State.leaseOk (s : State) (e : Lease) : Bool :=
  let dev := e.base / 2 ^ 48
  let low := e.base % 2 ^ 48
  let len := e.pages * 65536
  e.pages = 0 || (e.base % 65536 = 0 &&
    (if low + len ≤ 2 ^ 47 then !e.ctl
     else 0x830000000000 ≤ low && low + len ≤ 0x830001000000 && e.ctl &&
       (s.feature 4 || ctlRanges.any fun r => r.1 ≤ e.base && e.base + len ≤ r.1 + r.2.1 * 65536 && (!e.r || r.2.2.testBit 0) && (!e.w || r.2.2.testBit 1) && !e.x)) &&
    (dev = 0xFF || s.fw.peerWin.any fun w => winDev w.2 == dev && (w.2.extractLsb' 0 48).toNat ≤ low && low + len ≤ (w.2.extractLsb' 64 48).toNat))
/-- More leases still find their frames beside those of the live launches. -/
def State.framesFit (s : State) (l : List Lease) : Bool :=
  let p := s.pinned
  ((s.leasePages l).foldl setIns p).length ≤ Config.leaseFrames
/-- Put a lease at the first unused index; none with 16 held. -/
def addLease (l : List Lease) (e : Lease) : Option (List Lease) :=
  match l.findIdx? fun x => x.pages = 0 with
  | some i => some (l.set i e)
  | none => if l.length < 16 then some (l ++ [e]) else none

end Sys2Proof.Machine
end

