-- ==== Sys2Proof/Machine/Lanes.lean ====
section
/-! DEFINITION. What a vector command does to its context's registers (R329, R330, R345 to R365): lanes, compares, masks,
reductions, permutes, conversions, modular arithmetic, butterflies, the log domain. -/
namespace Sys2Proof.Machine

/-! ## Elements and masks (R329, R330) -/

/-- Bits of a width. -/
def wdBits : Width → Nat
  | .i8 => 8
  | .i16 => 16
  | .i32 => 32
  | .i64 => 64
/-- Bits of a narrow width. -/
def pkBits : PackWidth → Nat
  | .i8 => 8
  | .i16 => 16
  | .i32 => 32
/-- Bits of a modular lane. -/
def laneBits : Lane → Nat
  | .m32 => 32
  | .m64 => 64
/-- The format of a vector floating-point suffix. -/
def ffOf : FFmt → FF
  | .f32 => fp32
  | .f16 => fp16
  | .bf16 => bf16
/-- The elements of a register at a width, element 0 first. -/
def elems (w : Nat) (v : VecWord) : List Nat := (List.range (2048 / w)).map fun i => (v.toNat >>> (i * w)) % 2 ^ w
/-- A register from its elements. -/
def ofElems (w : Nat) (l : List Nat) : VecWord := BitVec.ofNat 2048 (l.foldr (fun x acc => (acc <<< w) ||| (x % 2 ^ w)) 0)
/-- V(n). -/
def VCtx.rv (c : VCtx) (n : BitVec 5) : VecWord := c.v.get (regIx n)
/-- V(n) := x. -/
def VCtx.wv (c : VCtx) (n : BitVec 5) (x : VecWord) : VCtx := { c with v := c.v.set (regIx n) x }
/-- M(k): m0 is all-true. -/
def VCtx.rm (c : VCtx) (k : MReg) : MaskWord := if k = 0#3 then BitVec.allOnes 256 else c.m.get k.toFin
/-- M(k) := x: a write to m0 is discarded. -/
def VCtx.wm (c : VCtx) (k : MReg) (x : MaskWord) : VCtx := if k = 0#3 then c else { c with m := c.m.set k.toFin x }
/-- act(i, W) (R329). -/
def act (mask : MaskWord) (w i : Nat) : Bool := mask.getLsbD (i * w / 8)
/-- The active elements of a destination replaced, with the flags they raise: f takes the index and the old element. -/
def lanes (w : Nat) (mask : MaskWord) (old : VecWord) (f : Nat → Nat → Res) : VecWord × Flags :=
  let r := (elems w old).zipIdx.map fun x => if act mask w x.2 then f x.2 x.1 else (x.1, 0#8)
  (ofElems w (r.map (·.1)), r.foldl (fun fl x => fl ||| x.2) 0#8)
/-- A mask destination: all W/8 bits of an element take its result, 0 when inactive (R330). -/
def maskOf (w : Nat) (mask : MaskWord) (f : Nat → Bool × Flags) : MaskWord × Flags :=
  let r := (List.range (2048 / w)).map fun i => if act mask w i then f i else (false, 0#8)
  let unit := 2 ^ (w / 8) - 1
  (BitVec.ofNat 256 (r.foldr (fun x acc => (acc <<< (w / 8)) ||| (if x.1 then unit else 0)) 0), r.foldl (fun fl x => fl ||| x.2) 0#8)
/-- Element i of a list of elements. -/
def el (l : List Nat) (i : Nat) : Nat := l.getD i 0

/-! ## Integer lanes (R345 to R347) -/

/-- An integer lane operation by its f4, under the prefix word. -/
def intLane (op w : Nat) (pfx : BitVec 32) (a b : Nat) (s2 : Word) : Res :=
  if pFA pfx = 0xF#4 then
    match op with
    | 0 => lgMul a b
    | 1 => lgDiv a b
    | 10 => lgShr a (min b 30)
    | _ => lgPow a (sextN 32 s2.toNat)
  else
    let sg := !(pFD pfx = 3#4 || pFD pfx = 6#4 || pFD pfx = 8#4 || pFD pfx = 0xA#4)
    let addsub (v : Int) : Res :=
      if pSAT pfx then (let r := satInt v (intLo w sg) (intHi w sg); (wrapN w r.1, r.2)) else (wrapN w v, 0#8)
    let val (x : Nat) : Int := if sg then sextN w x else x
    match op with
    | 0 => addsub (val a + val b)
    | 1 => addsub (val a - val b)
    | 2 => (a * b % 2 ^ w, 0#8)
    | 3 => (wrapN w ((sextN w a * sextN w b) / (2 ^ w : Nat)), 0#8)
    | 4 => (if sextN w a < sextN w b then a else b, 0#8)
    | 5 => (if sextN w a < sextN w b then b else a, 0#8)
    | 6 => (if a < b then a else b, 0#8)
    | 7 => (if a < b then b else a, 0#8)
    | 8 => (laneShift 0 w a b, 0#8)
    | 9 => (laneShift 1 w a b, 0#8)
    | 10 => (laneShift 2 w a b, 0#8)
    | 11 => (Nat.land a b, 0#8)
    | 12 => (Nat.lor a b, 0#8)
    | _ => (Nat.xor a b, 0#8)

/-! ## Floating-point lanes (R348, R349) -/

/-- A floating-point lane operation by its f4. -/
def fpLane (op : Nat) (f : FF) (rm : Rm) (a b d : Nat) : Res :=
  match op with
  | 0 => fadd f rm a b
  | 1 => fsub f rm a b
  | 2 => fmul f rm a b
  | 3 => fdiv f rm a b
  | 4 => fsqrt f rm a
  | 5 => fminmax f false a b
  | 6 => fminmax f true a b
  | _ => fmadd f rm a b d
/-- The value of an operand of a dot product, and the flags of its decoding: a floating-point code, a d8 code in units, an
integer, or an int4t code through TAB4 (R238, R253). -/
def operandVal (code : BitVec 4) (dflt : FF) (tab : Word × Word) (c : Nat) : Fp × Flags :=
  let int (n : Int) : Fp := .fin (decide (n < 0)) n.natAbs 0
  match code.toNat with
  | 0 => (fdec dflt c, 0#8)
  | 1 => let d := d8Dec c; (int d.1, d.2)
  | 2 => (int (sextN 8 c), 0#8)
  | 3 => (int c, 0#8)
  | 4 => (int (sextN 8 ((if c % 16 < 8 then tab.1 >>> (8 * (c % 8)) else tab.2 >>> (8 * (c % 8))).toNat % 256)), 0#8)
  | 5 => (int (sextN 16 c), 0#8)
  | 6 => (int c, 0#8)
  | 7 => (int (sextN 32 c), 0#8)
  | 8 => (int c, 0#8)
  | 9 => (int (sextN 64 c), 0#8)
  | 0xA => (int c, 0#8)
  | 0xB => (fdec fp16 c, 0#8)
  | 0xC => (fdec bf16 c, 0#8)
  | 0xD => (fdec fp32 c, 0#8)
  | 0xE => (fdec fp64 c, 0#8)
  | _ => (fdec dflt c, 0#8)
/-- Width of a format code, for a default (R230). -/
def fmtWidth (code : BitVec 4) (dflt : Nat) : Nat :=
  match code.toNat with
  | 0 => dflt
  | 4 => 4
  | 1 | 2 | 3 => 8
  | 5 | 6 | 0xB | 0xC => 16
  | 7 | 8 | 0xD | 0xF => 32
  | _ => 64
/-- An element of `vfdot`: one group under R252. -/
def dotLane (f : FF) (pfx : BitVec 32) (as bs : List Nat) (k i d : Nat) : Res :=
  let t := (List.range k).map fun j =>
    let x := operandVal (pFA pfx) f (0#64, 0#64) (el as (i * k + j))
    let y := operandVal (pFB pfx) f (0#64, 0#64) (el bs (i * k + j))
    let p := dotTerm x.1 y.1 none
    (p.1, p.2 ||| x.2 ||| y.2)
  let r := dotGroup d (t.map (·.1)) (pRm pfx)
  (r.1, t.foldl (fun fl x => fl ||| x.2) r.2)

/-! ## Reductions (R354, R355) -/

/-- An integer reduction of the active elements by its f4, as a 64-bit value. -/
def intRed (op w : Nat) (l : List Nat) : Int :=
  match op with
  | 8 => sextN w (l.foldl (· + ·) 0)
  | 9 => l.foldl (fun (m : Int) x => if sextN w x < m then sextN w x else m) (intHi w true)
  | 10 => l.foldl (fun (m : Int) x => if m < sextN w x then sextN w x else m) (intLo w true)
  | 11 => l.foldl (fun (m : Int) x => if (x : Int) < m then x else m) (intHi w false)
  | _ => l.foldl (fun (m : Int) x => if m < (x : Int) then x else m) 0
/-- The exact sum of values, rounded once to fp32 (R355): NaN and opposite infinities give the canonical NaN. -/
def exactSum (l : List Fp) : Res :=
  let fl := l.foldl (fun fl x => fl ||| snan x) 0#8
  if l.any Fp.isNan then (fp32.qnan, fl)
  else if termsInf l false && termsInf l true then (fp32.qnan, fl ||| fNV)
  else if termsInf l false then (fp32.inf, fl)
  else if termsInf l true then (fp32.signed true fp32.inf, fl)
  else
    let low := l.foldl (fun (m : Int) x => match x with
      | .fin _ n e => if n ≠ 0 ∧ e < m then e else m
      | _ => m) 4096
    let s := l.foldl (fun (acc : Int) x => match x with
      | .fin g n e => if n = 0 then acc else (if g then acc - (n * 2 ^ (e - low).toNat : Nat) else acc + (n * 2 ^ (e - low).toNat : Nat))
      | _ => acc) 0
    if s = 0 then (fp32.signed (!l.isEmpty && l.all Fp.sign) 0, fl)
    else
      let r := rndFin fp32 .rne (decide (s < 0)) s.natAbs low
      (r.1, r.2 ||| fl)
/-- A floating-point reduction by its f4. -/
def fpRed (op : Nat) (f : FF) (l : List Nat) : Res :=
  match op with
  | 13 => exactSum (l.map (fdec f))
  | _ =>
    let mx := op = 15
    match l with
    | [] => (f.signed mx f.inf, 0#8)
    | x :: xs =>
      let r := xs.foldl (fun (r : Res) y => let z := fminmax f mx r.1 y; (z.1, z.2 ||| r.2)) (x, 0#8)
      -- one element alone is ordered with itself, which makes a NaN canonical
      let z := fminmax f mx r.1 r.1
      (z.1, z.2 ||| r.2)

/-! ## Conversions (R357, R365) -/

/-- A value as `vcvt` writes it in format FD. -/
def cvtTo (fa fd : BitVec 4) (pfx : BitVec 32) (src : Nat) (v : Fp) (fl : Flags) (scale : Nat) : Res :=
  let wd := fmtWidth fd 32
  let isFp := fd = 0#4 ∨ fd = 0xB#4 ∨ fd = 0xC#4 ∨ fd = 0xD#4
  let srcInt := fa ≠ 0#4 ∧ fa ≠ 1#4 ∧ fa.toNat < 0xB
  if isFp then
    let f := if fd = 0xB#4 then fp16 else if fd = 0xC#4 then bf16 else fp32
    let r := fpEnc f (pRm pfx) (v, snan v)
    (r.1, r.2 ||| fl)
  else if fd = 1#4 then
    if fa = 1#4 then (src, 0#8) else (let r := quantD8 v scale; (r.1, r.2 ||| fl))
  else
    let sg := fd = 2#4 ∨ fd = 5#4 ∨ fd = 7#4 ∨ fd = 9#4
    if srcInt then
      let n : Int := match v with
        | .fin s m _ => if s then -(m : Int) else m
        | _ => 0
      if pSAT pfx then (let r := satInt n (intLo wd sg) (intHi wd sg); (wrapN wd r.1, r.2 ||| fl)) else (wrapN wd n, fl)
    else
      let r := fpToInt (pRm pfx) wd sg v
      (wrapN wd r.1, r.2 ||| fl)
/-- `vcvt`: the whole destination (R357). The table is TAB4 at execution; the scale is the fp32 code of xs2. -/
def cvtVec (pfx : BitVec 32) (mask : MaskWord) (tab : Word × Word) (scale : Nat) (src old : VecWord) : VecWord × Flags :=
  let fa := pFA pfx
  let fd := pFD pfx
  let ws := fmtWidth fa 32
  let wd := fmtWidth fd 32
  let n := 2048 / max ws wd
  let as := elems ws src
  let one (i : Nat) : Res :=
    let c := el as i
    let x := operandVal fa fp32 tab c
    let v := if fa = 1#4 then fpMul x.1 (fdec fp32 scale) else (x.1, 0#8)
    cvtTo fa fd pfx c v.1 (x.2 ||| v.2) scale
  let r := (elems wd old).zipIdx.map fun x => if n ≤ x.2 then (0, 0#8) else if act mask wd x.2 then one x.2 else (x.1, 0#8)
  (ofElems wd (r.map (·.1)), r.foldl (fun fl x => fl ||| x.2) 0#8)
/-- The floating-point format of a code of `vtolog` and `vfromlog`. -/
def logFF (c : BitVec 4) : FF := if c = 0xB#4 then fp16 else if c = 0xC#4 then bf16 else fp32
/-- `vfromlog` (R365): 64 results at the destination's width; the upper 128 bytes of a 16-bit result are zero. -/
def fromLog (pfx : BitVec 32) (mask : MaskWord) (as : List Nat) (old : VecWord) : VecWord × Flags :=
  let f := logFF (pFD pfx)
  let w := f.width
  let r := (elems w old).zipIdx.map fun x =>
    if 64 ≤ x.2 then (0, 0#8) else if act mask w x.2 then lgDec f (pRm pfx) (el as x.2) else (x.1, 0#8)
  (ofElems w (r.map (·.1)), r.foldl (fun fl x => fl ||| x.2) 0#8)

/-! ## Modular lanes and networks (R360 to R364) -/

/-- A modular lane operation by its f4. -/
def modLane (op w a b c q mu : Nat) : Res :=
  match op with
  | 0 => addm w a b q
  | 1 => subm w a b q
  | 2 => mulm w a b q mu
  | 3 => macm w a b c q mu
  | _ => (barrett w (b * 2 ^ w + a) q mu, 0#8)
/-- `vbfly` (R362): the pairs of one register at a stage. -/
def bflyVec (gs : Bool) (w st q mu : Nat) (mask : MaskWord) (d tw : VecWord) : VecWord × Flags :=
  let ds := elems w d
  let ts := elems w tw
  let pair (i : Nat) : (Nat × Nat) × Flags := bfly gs w (el ds i) (el ds (i + 2 ^ st)) (el ts i) q mu
  let r := ds.zipIdx.map fun x =>
    let low := x.2 / 2 ^ st % 2 = 0
    let i := if low then x.2 else x.2 - 2 ^ st
    if act mask w i then (let p := pair i; if low then (p.1.1, p.2) else (p.1.2, 0#8)) else (x.1, 0#8)
  (ofElems w (r.map (·.1)), r.foldl (fun fl x => fl ||| x.2) 0#8)
/-- `vpermb` (R364). -/
def permbVec (st : Nat) (ctl src : VecWord) : List Nat :=
  let y := elems 8 src
  y.zipIdx.map fun x =>
    let low := x.2 / 2 ^ st % 2 = 0
    let i := if low then x.2 else x.2 - 2 ^ st
    if ctl.getLsbD i then (if low then el y (x.2 + 2 ^ st) else el y (x.2 - 2 ^ st)) else x.1

/-! ## A command -/

/-- What a register command leaves: the context, its flags, and the value of a scalar destination. -/
structure VDone where
  ctx   : VCtx
  flags : Flags := 0#8
  x     : Option Word := none

/-- Perform a command that touches registers only (R345 to R365). -/
def VCtx.perform (c : VCtx) (k : VCmd) (tab : Word × Word) : VDone :=
  let mask := c.rm k.m
  let pfx := k.pfx.getD 0#32
  let va := c.rv k.a
  let vb := c.rv k.b
  let old := c.rv k.d
  let bs (w : Nat) : List Nat := if k.bx then repeatN (k.s2.toNat % 2 ^ w) (2048 / w) else elems w vb
  let vec (r : VecWord × Flags) : VDone := { ctx := c.wv k.d r.1, flags := r.2 }
  let msk (r : MaskWord × Flags) : VDone := { ctx := c.wm (k.d.extractLsb' 0 3) r.1, flags := r.2 }
  let sc (v : Word) (fl : Flags) : VDone := { ctx := c, flags := fl, x := some v }
  let active (w : Nat) : List Nat := ((elems w va).zipIdx.filter fun x => act mask w x.2).map (·.1)
  match k.op with
  | .int op wd =>
    let w := (wdBits wd)
    let as := elems w va
    let b := bs w
    vec (lanes w mask old fun i _ => intLane op w pfx (el as i) (el b i) k.s2)
  | .mov => let as := elems 8 va; vec (lanes 8 mask old fun i _ => (el as i, 0#8))
  | .fp op f =>
    if op = 8 then
      let n := if pFA pfx = 0#4 then 32 / (ffOf f).width else 4
      let as := elems (32 / n) va
      let b := elems (32 / n) vb
      vec (lanes 32 mask old fun i d => dotLane (ffOf f) pfx as b n i d)
    else
      let w := (ffOf f).width
      let as := elems w va
      let b := bs w
      vec (lanes w mask old fun i d => fpLane op (ffOf f) (pRm pfx) (el as i) (el b i) d)
  | .cmp o wd =>
    let w := (wdBits wd)
    let as := elems w va
    let b := elems w vb
    msk (maskOf w mask fun i =>
      let x := el as i
      let y := el b i
      (match o with
       | 0 => x == y
       | 1 => x != y
       | 2 => decide (sextN w x < sextN w y)
       | 3 => decide (sextN w y ≤ sextN w x)
       | 4 => decide (x < y)
       | _ => decide (y ≤ x), 0#8))
  | .fcmp o f =>
    let w := (ffOf f).width
    let as := elems w va
    let b := elems w vb
    msk (maskOf w mask fun i => fcompare (ffOf f) o (el as i) (el b i))
  | .mask o =>
    let x := c.rm (k.a.extractLsb' 0 3)
    let y := c.rm (k.b.extractLsb' 0 3)
    msk (match o with
      | 0 => x &&& y
      | 1 => x ||| y
      | 2 => x ^^^ y
      | _ => ~~~x, 0#8)
  | .mcnt =>
    let x := c.rm (k.a.extractLsb' 0 3)
    sc (BitVec.ofNat 64 ((List.range 256).filter fun i => x.getLsbD i).length) 0#8
  | .mfirst =>
    let x := c.rm (k.a.extractLsb' 0 3)
    sc (match (List.range 256).find? fun i => x.getLsbD i with
      | some i => BitVec.ofNat 64 i
      | none => BitVec.allOnes 64) 0#8
  | .sel =>
    let as := elems 8 va
    let b := elems 8 vb
    vec (ofElems 8 ((List.range 256).map fun i => if mask.getLsbD i then el as i else el b i), 0#8)
  | .red o wd => sc (BitVec.ofInt 64 (intRed o (wdBits wd) (active (wdBits wd)))) 0#8
  | .fred o f => let r := fpRed o (ffOf f) (active (ffOf f).width); sc (BitVec.ofNat 64 r.1) r.2
  | .perm wd =>
    let w := (wdBits wd)
    let as := elems w va
    let b := elems w vb
    vec (lanes w mask old fun i _ => (if el b i < 2048 / w then el as (el b i) else 0, 0#8))
  | .slide up wd =>
    let w := (wdBits wd)
    let as := elems w va
    let n := k.s2.toNat
    vec (lanes w mask old fun i _ =>
      (if up then (if n ≤ i then el as (i - n) else 0) else (if i + n < 2048 / w then el as (i + n) else 0), 0#8))
  | .zip un wd =>
    let w := (wdBits wd)
    let as := elems w va
    let b := elems w vb
    let h := 2048 / w / 2
    vec (lanes w mask old fun i _ =>
      (if un then (if i < h then el as (2 * i) else el b (2 * (i - h))) else (if i % 2 = 0 then el as (i / 2) else el b ((i - 1) / 2)), 0#8))
  | .rev wd => let w := (wdBits wd); let as := elems w va; vec (lanes w mask old fun i _ => (el as (2048 / w - 1 - i), 0#8))
  | .bcast wd => vec (lanes (wdBits wd) mask old fun _ _ => (k.s1.toNat % 2 ^ (wdBits wd), 0#8))
  | .ext wd =>
    let w := (wdBits wd)
    sc (BitVec.ofInt 64 (sextN w (if k.s2.toNat < 2048 / w then el (elems w va) k.s2.toNat else 0))) 0#8
  | .cvt => vec (cvtVec pfx mask tab (k.s2.toNat % 2 ^ 32) va old)
  | .pack wd =>
    let w := (pkBits wd)
    let as := elems (2 * w) va
    let b := elems (2 * w) vb
    let h := 2048 / (2 * w)
    let sg := !(pFD pfx = 3#4 || pFD pfx = 6#4 || pFD pfx = 8#4)
    vec (lanes w mask old fun i _ =>
      let x := if i < h then el as i else el b (i - h)
      if pSAT pfx then
        let r := satInt (if sg then sextN (2 * w) x else x) (intLo w sg) (intHi w sg)
        (wrapN w r.1, r.2)
      else (x % 2 ^ w, 0#8))
  | .unpack hi wd =>
    let w := (pkBits wd)
    let as := elems w va
    let h := 2048 / (2 * w)
    let un := pFA pfx = 3#4 || pFA pfx = 6#4 || pFA pfx = 8#4
    vec (lanes (2 * w) mask old fun i _ =>
      let x := el as (if hi then i + h else i)
      (if un then x else wrapN (2 * w) (sextN w x), 0#8))
  | .modular op l j =>
    let w := (laneBits l)
    let q := (c.qm.get j.toFin).toNat % 2 ^ w
    let mu := (c.qc.get j.toFin).toNat % 2 ^ w
    let as := elems w va
    let b := elems w vb
    vec (lanes w mask old fun i d => modLane op w (el as i) (el b i) d q mu)
  | .bfly gs l j st =>
    let w := (laneBits l)
    vec (bflyVec gs w st ((c.qm.get j.toFin).toNat % 2 ^ w) ((c.qc.get j.toFin).toNat % 2 ^ w) mask old vb)
  | .bflyx gs l j =>
    let w := (laneBits l)
    let q := (c.qm.get j.toFin).toNat % 2 ^ w
    let mu := (c.qc.get j.toFin).toNat % 2 ^ w
    let ds := elems w old
    let as := elems w va
    let ts := elems w vb
    let pair (i : Nat) := bfly gs w (el ds i) (el as i) (el ts i) q mu
    let x := lanes w mask old fun i _ => let p := pair i; (p.1.1, p.2)
    let y := lanes w mask va fun i _ => let p := pair i; (p.1.2, 0#8)
    { ctx := (c.wv k.d x.1).wv k.a y.1, flags := x.2 }
  | .permb st => let y := permbVec st vb va; vec (lanes 8 mask old fun i _ => (el y i, 0#8))
  | .tolog =>
    let f := logFF (pFA pfx)
    let as := elems f.width va
    vec (lanes 32 mask old fun i _ => lgEnc (fdec f (el as i)))
  | .fromlog => vec (fromLog pfx mask (elems 32 va) old)
  | .logadd =>
    let as := elems 32 va
    let b := elems 32 vb
    vec (lanes 32 mask old fun i _ => lgAdd (el as i) (el b i))
  | .vwhile wd un =>
    let w := (wdBits wd)
    msk (maskOf w (BitVec.allOnes 256) fun i =>
      (if un then decide (k.s1.toNat + i < k.s2.toNat) else decide (k.s1.toInt + i < k.s2.toInt), 0#8))
  | .vwidth => sc 2048#64 0#8
  | .load _ _ | .store _ _ | .loadq _ _ | .sdq => { ctx := c }

end Sys2Proof.Machine
end

