-- ==== Sys2Proof/Machine/Vector.lean ====
section
/-! DEFINITION. The issue of vector instructions (R167, R331 to R335) and the execution of the commands of a context (R167, R334,
R336, R337, R366). -/
namespace Sys2Proof.Machine

/-! ## Prefixes that vector instructions accept (R333) -/

/-- Codes of the signed and unsigned integers of a width. -/
def intCode (w : Nat) (c : BitVec 4) : Bool :=
  match w with
  | 8 => c = 2#4 || c = 3#4
  | 16 => c = 5#4 || c = 6#4
  | 32 => c = 7#4 || c = 8#4
  | _ => c = 9#4 || c = 10#4
/-- An integer lane operation takes the prefix. -/
def pfxInt (op w : Nat) (bx : Bool) (p : BitVec 32) : Bool :=
  let log := pFA p = 0xF#4 && pFD p = 0xF#4 && w = 32 && !pSAT p
  pRM p = 0#3 && pFC p = 0#4 &&
  (match op with
   | 0 | 1 => (log && pFB p = 0xF#4) || (pFA p = 0#4 && pFB p = 0#4 && (pFD p = 0#4 || intCode w (pFD p)))
   | 10 => pFB p = 0#4 && (log || (pFA p = 0#4 && pFD p = 0#4 && !pSAT p))
   | 2 => bx && pFB p = 0#4 && (log || (pFA p = 0#4 && pFD p = 0#4 && !pSAT p))
   | _ => false)
/-- A floating-point lane operation takes the prefix. -/
def pfxFp (op : Nat) (f : FFmt) (p : BitVec 32) : Bool :=
  match op with
  | 5 | 6 => false
  | 8 =>
    pFC p = 0#4 && pFD p = 0#4 && !pSAT p &&
    ((pFA p = 0#4 && pFB p = 0#4) || (f == .f32 && (pFA p = 1#4 || pFA p = 2#4) && (pFB p = 1#4 || pFB p = 2#4)))
  | _ => pfxRm p
/-- A code of an integer format. -/
def isIntCode (c : BitVec 4) : Bool := c = 2#4 || c = 3#4 || (5 ≤ c.toNat && c.toNat ≤ 10)
/-- A code of a floating-point format, with 0 for fp32. -/
def isFpCode (c : BitVec 4) : Bool := c = 0#4 || c = 0xB#4 || c = 0xC#4 || c = 0xD#4
/-- `vcvt` takes the prefix (R357). -/
def pfxCvt (p : BitVec 32) : Bool :=
  let fa := pFA p
  let fd := pFD p
  fa.toNat < 0xE && fd.toNat < 0xE && fd ≠ 4#4 && pFB p = 0#4 && pFC p = 0#4 &&
  (pRM p = 0#3 || isFpCode fd || (isIntCode fd && (isFpCode fa || fa = 1#4))) &&
  (!pSAT p || ((isIntCode fa || fa = 4#4) && isIntCode fd && fmtWidth fd 32 < fmtWidth fa 32))
/-- `vpack` takes the prefix (R358). -/
def pfxPack (w : Nat) (p : BitVec 32) : Bool :=
  pFA p = 0#4 && pFB p = 0#4 && pFC p = 0#4 && pRM p = 0#3 && (pFD p = 0#4 || intCode w (pFD p))
/-- `vunpack` takes the prefix (R359). -/
def pfxUnpack (w : Nat) (p : BitVec 32) : Bool :=
  pFD p = 0#4 && pFB p = 0#4 && pFC p = 0#4 && pRM p = 0#3 && !pSAT p && (pFA p = 0#4 || intCode w (pFA p))
/-- A floating-point code of the log conversions. -/
def isLogFp (c : BitVec 4) : Bool := isFpCode c
/-- The code is lg32 or the default. -/
def isLg (c : BitVec 4) : Bool := c = 0#4 || c = 0xF#4
/-- `vtolog` takes the prefix. -/
def pfxTolog (p : BitVec 32) : Bool :=
  isLogFp (pFA p) && pFB p = 0#4 && pFC p = 0#4 && isLg (pFD p) && (pRM p).toNat ≤ 1 && !pSAT p
/-- `vfromlog` takes the prefix. -/
def pfxFromlog (p : BitVec 32) : Bool := isLg (pFA p) && pFB p = 0#4 && pFC p = 0#4 && isLogFp (pFD p) && !pSAT p
/-- `vlogadd` takes the prefix. -/
def pfxLogadd (p : BitVec 32) : Bool := isLg (pFA p) && isLg (pFB p) && pFC p = 0#4 && isLg (pFD p) && (pRM p).toNat ≤ 1 && !pSAT p
/-- No prefix is accepted. -/
def pfxNone (_ : BitVec 32) : Bool := false

/-! ## Issue -/

/-- The decode checks of a vector instruction: a context, a prefix it accepts, its scalar registers (R331, R333). -/
def vecOp (rs : List Reg) (ok : BitVec 32 → Bool) (s : State) (k : Thread → Group → Launch → Bool → Out) : Out :=
  withThread s fun t => withGroup s t fun g l =>
    match t.ctx with
    | none => .next (s.illegal 3#4)
    | some c =>
      if (t.prefix?).any fun w => !ok w then .next (s.trapBits 0x14#8)
      else if t.pends rs then stall s
      else k t g l c
/-- The command queue has an entry that a context may use (R167). -/
def Core.vecRoom (c : Core) (k : Bool) : Bool := (c.ctx k).queue.length < 12 && c.v0.queue.length + c.v1.queue.length < 16
/-- A command of the issuing thread, its other parts still to be set. -/
def Thread.cmd (t : Thread) (s : State) (l : Launch) (op : VOp) (d a b : BitVec 5) (m : MReg) : VCmd :=
  { op := op, d := d, a := a, b := b, m := m, bx := false, s1 := 0#64, s2 := 0#64, pfx := t.prefix?, slot := s.slot, gid := t.group, lid := l.lid,
    runs := [], handler := t.th }
/-- Place a command, under the next number, in a context's queue of the issuing core. -/
def State.putCmd (s : State) (c : Bool) (k : VCmd) : State :=
  { s.modCore s.pos fun x => x.modCtx c fun v => { v with queue := v.queue ++ [{ k with id := s.nextId }] } with nextId := s.nextId + 1 }
/-- Place a command in the queue and retire (R167); a scalar destination becomes pending. -/
def enqueue (s : State) (t : Thread) (c : Bool) (k : VCmd) (len : Nat) (rd : Option Reg) : Out :=
  if (s.core s.pos).vecRoom c then
    .next ((s.putCmd c k).retire (match rd with
      | some d => t.markX d
      | none => t) len)
  else stall s
/-- A vector instruction on registers alone. -/
def vecReg (len : Nat) (op : VOp) (d a b : BitVec 5) (m : MReg) (ok : BitVec 32 → Bool) (s : State) : Out :=
  vecOp [] ok s fun t _ l c => enqueue s t c (t.cmd s l op d a b m) len none
/-- A vector instruction whose second source is a scalar. -/
def vecScalar (op : VOp) (d a : BitVec 5) (b : Reg) (m : MReg) (ok : BitVec 32 → Bool) (s : State) : Out :=
  vecOp [b] ok s fun t _ l c => enqueue s t c { t.cmd s l op d a 0#5 m with bx := true, s2 := t.rx b } 4 none
/-- A vector instruction with a scalar destination and, where it has one, a scalar source. -/
def vecToX (op : VOp) (d : Reg) (a b : BitVec 5) (m : MReg) (x2 : Option Reg) (s : State) : Out :=
  vecOp (d :: x2.toList) pfxNone s fun t _ l c =>
    enqueue s t c { t.cmd s l op d a b m with s2 := (x2.map t.rx).getD 0#64 } 4 (some d)

/-! ## Memory instructions -/

/-- An element to be checked: index, virtual address, byte of the register. -/
structure VElem where
  e   : Nat
  va  : Word
  at0 : Nat
deriving DecidableEq, Repr
/-- The check of an element at issue (R335): as its own access, and the regions closed to vector accesses. -/
def checkElem (s : State) (t : Thread) (e : VElem) (n align : Nat) (load stack : Bool) : Except Trap VRun :=
  match checkAcc s s.pos t { va := e.va, n := n, align := align, r := load, w := !load, kind := if load then .load else .store, stack := stack } with
  | .error tr => .error tr
  | .ok ia =>
    let run : VRun := { e := e.e, va := e.va, ia := ia, n := n, at0 := e.at0 }
    -- the regions are the same on every device (R53)
    match placeOf (0xFF * 2 ^ 48 + ia % 2 ^ 48) with
    | .ctl _ _ | .regw _ | .hole _ | .dev _ | .none => .error (permission 5#4 e.va)
    | _ => .ok run
/-- Every element's check, in ascending order: the runs, or the lowest failing element and its trap. -/
def checkElems (s : State) (t : Thread) (n align : Nat) (load stack : Bool) : List VElem → Except (Nat × Trap) (List VRun)
  | [] => .ok []
  | e :: r => match checkElem s t e n align load stack with
    | .error tr => .error (e.e, tr)
    | .ok x => (checkElems s t n align load stack r).map (x :: ·)
/-- Bytes within which neighbouring bytes make one access: a word of a scratchpad, a block of memory space. -/
def runUnit (ia : Nat) : Nat :=
  match placeOf ia with
  | .mem _ => 64
  | .peer _ low => if low < 0x800000000000 then 64 else 8
  | _ => 8
/-- Join neighbouring byte elements (R183, R334). -/
def joinRuns : List VRun → List VRun
  | [] => []
  | x :: t => match joinRuns t with
    | [] => [x]
    | y :: t' =>
      if x.e + x.n = y.e ∧ x.ia + x.n = y.ia ∧ x.ia / runUnit x.ia = (y.ia + y.n - 1) / runUnit x.ia then { x with n := x.n + y.n } :: t'
      else x :: y :: t'
/-- The fault of an element at issue: vector element fault, or the group's end for a lease violation (R60, R335). -/
def State.elemFault (s : State) (e : Nat) (tr : Trap) : State :=
  if tr.code = 0x05#8 then s.trap tr
  else s.trap { code := 0x0E#8, detail := tr.code.extractLsb' 0 4, tval := BitVec.ofNat 64 e }
/-- A vector memory instruction: it waits until the commands that may write its mask and offsets have completed, checks every active
element, and becomes a command (R167, R335). -/
def vecMem (op : VOp) (load : Bool) (n align : Nat) (bytes : Bool) (d : BitVec 5) (base : Reg) (x2 : Option Reg) (m : MReg)
    (addr : Thread → VCtx → List VElem) (s : State) : Out :=
  vecOp (base :: x2.toList) pfxNone s fun t _ l c =>
    let ctx := (s.core s.pos).ctx c
    if !ctx.queue.isEmpty then stall s
    else match checkElems s t n align load (base == 2#5) (addr t ctx) with
      | .error (e, tr) => .next (s.elemFault e tr)
      | .ok runs => enqueue s t c { t.cmd s l op d 0#5 0#5 m with runs := if bytes then joinRuns runs else runs } 4 none
/-- The active elements of a width with their addresses. -/
def activeElems (ctx : VCtx) (m : MReg) (w : Nat) (f : Nat → Word) : List VElem :=
  ((List.range (2048 / w)).filter fun i => act (ctx.rm m) w i).map fun i => { e := i, va := f i, at0 := i * w / 8 }
/-- A contiguous access (R340). -/
def vecUnit (op : VOp) (load : Bool) (d : BitVec 5) (a : Reg) (m : MReg) (s : State) : Out :=
  vecMem op load 1 1 true d a none m (fun t c => activeElems c m 8 fun i => t.rx a + BitVec.ofNat 64 i) s
/-- A strided access (R341). -/
def vecStride (op : VOp) (load : Bool) (w : Nat) (d : BitVec 5) (a b : Reg) (m : MReg) (s : State) : Out :=
  vecMem op load (w / 8) (w / 8) false d a (some b) m (fun t c => activeElems c m w fun i => t.rx a + BitVec.ofNat 64 i * t.rx b) s
/-- An indexed access (R342). -/
def vecIndex (op : VOp) (load : Bool) (w : Nat) (d : BitVec 5) (a : Reg) (b : BitVec 5) (m : MReg) (s : State) : Out :=
  vecMem op load (w / 8) (w / 8) false d a none m
    (fun t c => let offs := elems w (c.rv b); activeElems c m w fun i => t.rx a + BitVec.ofNat 64 (el offs i)) s

/-! ## The sigma-delta unit (R177, R178, R366) -/

/-- Bytes of the scratchpad lie in an allocation of the launch on the core and outside the deque reserve (R178). -/
def Core.tableOk (c : Core) (l : Launch) (off n : Nat) : Bool :=
  off + n ≤ 0x40000 && !(reserveOff l < off + n && off < reserveOff l + 0x1000) &&
  c.groups.any fun g => g.lid == l.lid && g.base ≤ off && off + n ≤ g.base + g.len
/-- A route entry. -/
structure SdRoute where
  lo : Nat
  hi : Nat
  dest : Nat
  stream : Nat
  ioff : Nat
  en : Bool
  bad : Bool
deriving DecidableEq, Repr
/-- Route entries in use: NROUTE, larger values acting as 64 (R179). -/
def SdTables.routes (d : SdTables) : Nat := min 64 d.nroute
/-- Read an entry of a route table. -/
def Core.sdRoute (c : Core) (d : SdTables) (j : Nat) : SdRoute :=
  let n := natOfBytes (c.spRead (d.rbase + 16 * j) 16)
  { lo := n % 2 ^ 20, hi := n / 2 ^ 20 % 2 ^ 20, dest := n / 2 ^ 40 % 2 ^ 16, stream := n / 2 ^ 56 % 16, ioff := n / 2 ^ 64 % 2 ^ 20,
    en := n / 2 ^ 84 % 2 = 1, bad := n / 2 ^ 60 % 16 ≠ 0 || n / 2 ^ 85 ≠ 0 || n / 2 ^ 56 % 16 = 15 }
/-- The sends of an event for element i, in table order, and the sends that bad entries withhold. -/
def sdSends (c : Core) (d : SdTables) (l : Option Launch) (i : Nat) (units : BitVec 32) : List SdSend × Nat :=
  let hit := ((List.range d.routes).map (c.sdRoute d)).filter fun r => r.en && r.lo ≤ i && i < r.hi
  let good := hit.filter fun r => !r.bad
  (good.map fun r => { dst := ((l.bind fun l => l.core? r.dest).getD 1024), lcore := r.dest,
                       stream := r.stream, index := (i - r.lo + r.ioff) % 2 ^ 20, units := units },
   (hit.filter fun r => r.bad).length)
/-- The unit's computation for one element: PREV, RES, the value presented, threshold and scale; the new RES and PREV, the units to
send, the flags (R366). -/
def sdUpdate (prev res x theta scale : Nat) : (Nat × Nat) × Option (BitVec 32) × Flags :=
  let fx := fdec fp32 x
  let r := (fpAdd .rne (fpAdd .rne (fdec fp32 res) fx).1 (fdec fp32 prev).neg).1
  let finite (v : Fp) : Bool := match v with
    | .fin _ _ _ => true
    | _ => false
  if !finite r then ((0, if finite fx then x else 0), some 0#32, fNV)
  else
    let c1 := fpEnc fp32 .rne (r, 0#8)
    let r1 := fdec fp32 c1.1
    let mag : Fp := match r1 with
      | .fin _ m e => .fin false m e
      | .inf _ => .inf false
      | v => v
    let th := fdec fp32 theta
    if !th.isNan && !fpLt mag th then
      let q := quantD8 r1 scale
      let d := d8Dec q.1
      let u := d.1
      let ur := fpMul (.fin (decide (u < 0)) u.natAbs 0) (fdec fp32 scale)
      let r2 := (fpAdd .rne r1 ur.1.neg).1
      let c2 := fpEnc fp32 .rne (r2, 0#8)
      ((c2.1, x), some (BitVec.ofInt 32 u), c1.2 ||| q.2 ||| d.2 ||| c2.2)
    else
      let c2 := fpEnc fp32 .rne (r1, 0#8)
      ((c2.1, x), none, c1.2 ||| c2.2)

/-! ## Execution of the head command -/

/-- Change a context of a core. -/
def State.modCtx (s : State) (p : Nat) (k : Bool) (f : VCtx → VCtx) : State := s.modCore p fun c => c.modCtx k f
/-- Fold a store's run into the digest, one element of the command at a time (R140). -/
def State.foldRun (s : State) (p : Nat) (g : Group) (k : VCmd) (r : VRun) (size : Nat) (bytes : List Byte) : State :=
  (List.range (r.n / size)).foldl (fun s i =>
    s.modThread p k.slot fun t => s.foldChunk p t g (r.va + BitVec.ofNat 64 (i * size)) (r.ia + i * size) size
      (wordOf ((bytes.drop (i * size)).take size)) true 0 0) s
/-- Two accesses of one command that are kept in order: the same scratchpad word, or the same 128-byte line (R334). -/
def vclash (a b : Nat) : Bool :=
  match placeOf a, placeOf b with
  | .mem _, .mem _ => a / 128 = b / 128
  | .peer _ low, .peer _ _ => if low < 0x800000000000 then a / 128 = b / 128 else a / 8 = b / 8
  | _, _ => a / 8 = b / 8
/-- Requests of a context still unanswered. -/
def State.vecReqs (s : State) (p : Nat) (k : Bool) : List Req :=
  s.reqs.filter fun r => r.src == p && (match r.use with
    | .vstore x _ => x == k
    | .vload x .. => x == k
    | .vloadq x .. => x == k
    | _ => false)
/-- Bytes of a register from a byte on. -/
def VCtx.bytes (v : VCtx) (r : BitVec 5) (at0 n : Nat) : List Byte := bytesOfNat ((v.rv r).toNat >>> (8 * at0)) n
/-- Begin an access of the head command. -/
def State.startRun (s : State) (p : Nat) (ctx : Bool) (k : VCmd) (r : VRun) : State :=
  match s.thread? p k.slot with
  | none => s
  | some t =>
    match s.groupOf p t with
    | none => s
    | some g =>
      let load := match k.op with
        | .load _ _ | .loadq _ _ => true
        | _ => false
      let size := match k.op with
        | .store _ true => 1
        | _ => r.n
      let data := ((s.core p).ctx ctx).bytes k.d r.at0 r.n
      let watch (s : State) : State := s.watchIssue p k.slot t r.ia r.n load (!load)
      let note (s : State) (ans : Answer) : State := s.badElem p k.slot k.handler r.va ctx r.e ans
      let put (s : State) (bs : List Byte) : State := s.modCtx p ctx fun v => match k.op with
        | .loadq _ j => v.putQ j (r.at0 = 8) (wordOf (bs.take 8))
        | _ => v.putBytes k.d r.at0 (bs.take r.n)
      let ask (s : State) (b : Nat → Body) (u : Use) : State :=
        let rt := s.route k.lid r.ia
        s.ask p { dst := rt.node, body := b rt.ia, lid := k.lid, gen := rt.gen, slot := some k.slot, gid := k.gid, va := r.va, handler := k.handler,
                  use := u, vt := (s.core p).vtime }
      match s.checkAct p t g r.ia r.n load false with
      | .void => { s with pos := p, slot := k.slot }.voidRun t g
      | .foldOnly => s.foldRun p g k r size data
      | .perform =>
        if load then
          let byp := match k.op with
            | .load b _ | .loadq b _ => b
            | _ => false
          if ownPlace p r.ia then
            match (s.coreRequest p k.lid none (.read r.ia r.n) r.ia { slot := some (k.slot, 0#5), node := p, ns := false, seq := 0#16 }) with
            | (s', .done .ok bs) => put (watch s') bs
            | (s', .done ans _) => note (watch s') ans
            | _ => s
          else match (if byp || !cacheable r.ia then none else (s.core p).l1.find? fun e => e.1 == r.ia / 128) with
            | some e => put (watch (s.modCore p fun c => c.l1Touch (r.ia / 128) false)) ((e.2.1.drop (r.ia % 128)).take r.n)
            | none =>
              let fills := !byp && cacheable r.ia
              let off := if fills then r.ia % 128 else 0
              let line := if fills then some (r.ia / 128) else none
              watch (ask s (fun a => if fills then .bulkRead (a / 128 * 128) 128 else if r.n ≤ 32 then .read a r.n else .bulkRead a r.n)
                (match k.op with
                | .loadq _ j => .vloadq ctx j (r.at0 = 8) off line
                | _ => .vload ctx k.d r.e r.at0 r.n off line))
        else
          let s := (s.foldRun p g k r size data).l1Drop p r.ia r.n
          if ownPlace p r.ia then
            match (s.coreRequest p k.lid none (.write r.ia data false) r.ia { slot := some (k.slot, 0#5), node := p, ns := false, seq := 0#16 }) with
            | (s', .done ans _) => note (watch s') ans
            | _ => s
          else watch (ask s (fun a => if r.n ≤ 32 then .write a data false else .bulkWrite a data false) (.vstore ctx r.e))
/-- Process one element of a `vsdq`: the table entry is read and written, and its events wait to be sent; the tables are those of the
command's issue (R180). An entry outside its group's allocation voids a check run (R142). -/
def State.sdElem (s : State) (p : Nat) (ctx : Bool) (k : VCmd) (r : VRun) : State :=
  let c := s.core p
  match (match s.thread? p k.slot with
    | none => none
    | some t => match s.groupOf p t with
      | none => none
      | some g => if s.checkAct p t g (spIa p (k.sd.tbase + 8 * r.ia)) 8 true true = .perform then none else some (t, g)) with
  | some (t, g) => { s with pos := p, slot := k.slot }.voidRun t g
  | none =>
  let off := k.sd.tbase + 8 * r.ia
  let w := natOfBytes (c.spRead off 8)
  let x := el (elems 32 ((c.ctx ctx).rv k.d)) r.e
  let u := sdUpdate (w % 2 ^ 32) (w / 2 ^ 32) x (k.s2.toNat % 2 ^ 32) (k.s2.toNat / 2 ^ 32)
  let out := match u.2.1 with
    | some n => sdSends c k.sd (s.launch? k.lid) r.ia n
    | none => ([], 0)
  let s := s.modCore p fun c => { c.spStore off (bytesOfNat (u.1.2 + u.1.1 * 2 ^ 32) 8) with sdBad := min 65535 (c.sdBad + out.2) }
  (s.modThread p k.slot fun t => t.raise u.2.2).modCtx p ctx fun v => { v with sends := out.1, issued := v.issued + 1 }
/-- Send one event of the head `vsdq`: folded, and in a check run sent nowhere (R140, R142). None when it must stall (R176). -/
def State.sdSend (s : State) (p : Nat) (ctx : Bool) (k : VCmd) (e : SdSend) : Option State :=
  match (s.thread? p k.slot).bind fun t => (s.groupOf p t).map fun g => (t, g) with
  | none => none
  | some (t, g) =>
    let folded := (s.modThread p k.slot fun t =>
      s.foldElem t g (BitVec.ofNat 64 (e.lcore + e.stream * 65536)) (BitVec.ofNat 64 e.index ||| (e.units.setWidth 64 <<< 32)) 6 0).modCtx p ctx
        fun v => { v with sends := v.sends.drop 1 }
    if g.check.isSome then some folded
    else if e.dst = 1024 then some (folded.countEvDrop p)
    else if (s.core p).mayEvent e.dst then
      some ((folded.sendEvent p e.dst e.stream e.index (s.core p).vtime e.units (k.slot + 1) (some (t.homePos p, t.group))).modCore p fun c => { c with sdSent := c.sdSent + 1#32 })
    else none
/-- A gather, scatter or `vsdq` is to stop at an element boundary: its thread has been halted or stopped (R337). -/
def State.partStop (s : State) (p : Nat) (k : VCmd) : Bool :=
  (match k.op with
   | .load _ b | .store b _ => b
   | .sdq => true
   | _ => false) &&
  (s.thread? p k.slot).any fun t => t.run == Run.halted || t.run == Run.stopped
/-- Begin what the head command may begin now, up to a number of accesses. -/
def State.vecBegin (s : State) (p : Nat) (ctx : Bool) (k : VCmd) : Nat → State
  | 0 => s
  | n + 1 =>
    let v := (s.core p).ctx ctx
    match v.sends with
    | e :: _ => match s.sdSend p ctx k e with
      | some s' => State.vecBegin s' p ctx k n
      | none => s
    | [] =>
      match k.runs[v.issued]? with
      | none => s
      | some r =>
        if s.partStop p k then s.modCtx p ctx fun v => { v with part := true, next := r.e }
        else if k.op = .sdq then State.vecBegin (s.sdElem p ctx k r) p ctx k n
        else
          let a := (s.route k.lid r.ia).ia
          let peer := a / 2 ^ 48 % 256 ≠ 0xFF
          if (s.vecReqs p ctx).any (fun q => (q.body.ia?).any fun b => vclash a b) ||
              (peer && 128 ≤ s.peerOut p + (s.reqs.filter fun q => q.src == p && q.toPeer && q.parked).length) then s
          else State.vecBegin ((s.startRun p ctx k r).modCtx p ctx fun v => { v with issued := v.issued + 1, part := false, next := 0 }) p ctx k n
/-- The head command leaves the queue, a `vldq` without a refusal writing its pair; a refused element raises 0x0E with ASYNC = 1 (R336). -/
def State.vecFinish (s : State) (p : Nat) (ctx : Bool) (k : VCmd) : State :=
  let f := ((s.core p).ctx ctx).fault
  let s := s.modCtx p ctx fun v => { (if f.isNone then v.putPair else v) with
    queue := v.queue.drop 1, next := 0, part := false, issued := 0, fault := none, sends := [], headLeft := false }
  match f with
  | some (e, d) => s.reportFault p k.slot k.handler { code := 0x0E#8, detail := d, tval := BitVec.ofNat 64 e }
  | none => s
/-- VECTOR_COMMAND_COMPLETE: the head command of a context executes; a memory command begins the accesses it may, and completes
when every one is answered (R167, R334, R336). -/
def execVectorCommandComplete (pos : Nat) (ctx : Bool) (s : State) : Out :=
  let c := s.core pos
  match (c.ctx ctx).queue.head? with
  | none => .next s
  | some k =>
    if !(c.ctx ctx).headLeft && (s.thread? pos k.slot).any (fun t => t.run == Run.halted || t.run == Run.stopped) then .next s
    else if k.op = .sdq ∨ !k.runs.isEmpty then
      let s := s.vecBegin pos ctx k (k.runs.length * (k.sd.routes + 2) + 1)
      let v := (s.core pos).ctx ctx
      .next (if (v.queue.head?.map fun h => { h with s1 := k.s1, s2 := k.s2 }) = some k ∧ k.runs.length ≤ v.issued ∧ v.sends.isEmpty = true ∧ (s.vecReqs pos ctx).isEmpty = true
        then s.vecFinish pos ctx k else s)
    else
      let r := (c.ctx ctx).perform k (c.tab4l, c.tab4h)
      let s := s.modCtx pos ctx fun _ => r.ctx
      let s := s.modThread pos k.slot fun t => (match r.x with
        | some v => t.wx k.d v
        | none => t).raise r.flags
      .next (s.vecFinish pos ctx k)

end Sys2Proof.Machine
end

