-- ==== Sys2Proof/Machine/Tile.lean ====
section
/-! DEFINITION. Tile instructions and matrix commands (R370 to R380): operands and their checks, issue, and the steps of the
macro-operation sequencer. -/
namespace Sys2Proof.Machine

/-! ## Operands (R370 to R372) -/

/-- M, N, K of a shape word. -/
def shapeM (w : Word) : Nat := (w.extractLsb' 0 6).toNat + 1
/-- N. -/
def shapeN (w : Word) : Nat := (w.extractLsb' 6 5).toNat + 1
/-- K. -/
def shapeK (w : Word) : Nat := (w.extractLsb' 16 16).toNat
/-- AST. -/
def strideA (w : Word) : Nat := (w.extractLsb' 0 20).toNat
/-- BST. -/
def strideB (w : Word) : Nat := (w.extractLsb' 20 20).toNat
/-- COFF. -/
def strideC (w : Word) : Nat := (w.extractLsb' 40 18).toNat
/-- CST, from the acc field of `tspmac`. -/
def rowC (acc : AccReg) : Nat := 128 * 2 ^ acc.toNat
/-- The shape and stride words keep their reserved fields zero and COFF as the operation wants it. -/
def wordsOk (mma : Bool) (shape stride : Word) : Bool :=
  shape.extractLsb' 11 5 = 0#5 && stride.extractLsb' 58 6 = 0#6 && (if mma then strideC stride = 0 else strideC stride % 128 = 0)
/-- The prefix of a tile instruction (R371). -/
def pfxTile (p : BitVec 32) : Bool :=
  let ok (c : BitVec 4) : Bool := c.toNat ≤ 4 || c = 0xB#4 || c = 0xC#4
  ok (pFA p) && ok (pFB p) && pFC p = 0#4 && (pFD p = 0#4 || pFD p = 0xD#4) && !pSAT p
/-- Width of a tile operand; bf16 by default. -/
def tileWidth (c : BitVec 4) : Nat := fmtWidth c 16
/-- Bytes of ⌈w/8⌉. -/
def ceilBytes (bits : Nat) : Nat := (bits + 7) / 8
/-- Bytes from the first byte of A to its last. -/
def extentA (shape stride : Word) (pfx : BitVec 32) : Nat :=
  if shapeK shape = 0 then 0 else (shapeM shape - 1) * strideA stride + ceilBytes (shapeK shape * tileWidth (pFA pfx))
/-- Bytes from the first byte of B to its last. -/
def extentB (shape stride : Word) (pfx : BitVec 32) : Nat :=
  if shapeK shape = 0 then 0 else (shapeK shape - 1) * strideB stride + ceilBytes (shapeN shape * tileWidth (pFB pfx))
/-- The operands' alignment (R370): the misaligned base, if one is. -/
def tileMisaligned (a b : Nat) (stride : Word) (pfx : BitVec 32) : Option Bool :=
  let wa := ceilBytes (tileWidth (pFA pfx))
  let wb := ceilBytes (tileWidth (pFB pfx))
  if a % wa ≠ 0 ∨ strideA stride % wa ≠ 0 then some false
  else if b % wb ≠ 0 ∨ strideB stride % wb ≠ 0 then some true
  else none

/-- Whether operand bytes of a scratchpad are reached: as an access reaches them (R54), and none of the hidden half (R162). -/
def Core.tileReach (c : Core) (lid off n : Nat) : Answer :=
  if c.exEn && 0x38000 < off + n then .fault 0x04#8 5#4 else c.ownership lid none off n
/-- The region of an operand of the core at p for a launch (R372, R377): the scratchpad of p or of a core of its dale within one
allocation, or memory space within one lease. -/
def State.tilePlace (s : State) (p : Nat) (l : Launch) (ia n : Nat) (va : Word) (w mem : Bool) : Option Trap :=
  if n = 0 then none
  else match placeOf ia with
    | .sp q off =>
      if l.stepMode && q ≠ p || !l.inRect q then some (permission 3#4 va)
      else if reserveOff l < off + n && off < reserveOff l + 0x1000 then some (permission 8#4 va)
      else if daleOf q ≠ daleOf p ∨ 0x40000 < off + n then some (permission 5#4 va)
      else if (s.core q).tileReach l.lid off n = .ok then none else some (permission 5#4 va)
    | .mem off =>
      if l.stepMode then some (permission 3#4 va)
      else if !mem || w || (s.hostAddr? off).isSome then some (permission 5#4 va)
      else leaseCheck s (s.core p) l ia { va := va, n := n, align := 1, r := true, w := false, kind := .load }
    | .regw _ => some (permission 8#4 va)
    | .none | .hole _ => some (permission 4#4 va)
    | _ => some (permission (if l.stepMode then 3#4 else 5#4) va)
/-- The check of an operand range of the issuing thread: its intermediate base, or the trap. -/
def State.tileRange (s : State) (g : Group) (l : Launch) (va : Word) (n : Nat) (w mem : Bool) : Except Trap Nat :=
  if n = 0 then .ok 0
  else match spanFor g.spans va n with
    | none => .error { code := 0x03#8, tval := va }
    | some sp =>
      if (if w then !sp.w else !sp.r) then .error (permission 1#4 va)
      else match s.tilePlace s.pos l (sp.ia va) n va w mem with
        | some tr => .error tr
        | none => .ok (sp.ia va)
/-- The C tile of `tspmac` on a core (R375): one allocation of the launch, outside the deque reserve. -/
def State.tileC (s : State) (p : Nat) (l : Launch) (acc : AccReg) (shape stride : Word) : Bool :=
  let off := strideC stride
  let n := (shapeM shape - 1) * rowC acc + 4 * shapeN shape
  off + n ≤ 0x40000 && !(reserveOff l < off + n && off < reserveOff l + 0x1000) && (s.core p).tileReach l.lid off n = .ok

/-! ## Issue -/

/-- The decode checks of the majors 0x30 to 0x32: the prefix, then no nomad thread (R265, R371, R372). -/
def tileOp (rs : List Reg) (ok : BitVec 32 → Bool) (s : State) (k : Thread → Group → Launch → BitVec 32 → Out) : Out :=
  withThread s fun t => withGroup s t fun g l =>
    if (t.prefix?).any fun w => !ok w then .next (s.trapBits 0x14#8)
    else if t.nomad then .next (s.illegal 4#4)
    else if t.pends rs then stall s
    else k t g l ((t.prefix?).getD 0#32)
/-- Wait as a fork does (R196): every earlier access answered, the vector context drained. -/
def forkWait (s : State) (t : Thread) (k : Out) : Out :=
  accessWait s t (if s.vectorDone s.pos s.slot t then k else stall s)
/-- A tile operation of the issuing thread. -/
def Thread.tile (t : Thread) (s : State) (l : Launch) (kind : TileKind) (acc : AccReg) (a b : Nat) (shape stride : Word) (pfx : BitVec 32)
    (va vb : Word) : TileOp :=
  { kind := kind, acc := acc, a := a, b := b, shape := shape, stride := stride, pfx := pfx, va := va, vb := vb, slot := some s.slot, gid := t.group,
    lid := l.lid, sender := none, home := s.pos, migrated := false, step := 0, stage := [], tab := (0#64, 0#64), flags := 0#64, handler := t.th }
/-- Hand a tile operation to the matrix unit, which holds four of its threads (R373). -/
def forkTile (s : State) (t : Thread) (o : TileOp) : Out :=
  if 4 ≤ (s.core s.pos).tiles.length then stall s
  else .next (({ s with nextId := s.nextId + 1 }.modCore s.pos fun c => { c with tiles := c.tiles ++ [{ o with id := s.nextId }] }).retire { t with tiles := t.tiles + 1 })
/-- `tmma` and `tspmac` (R375). -/
def tileMul (kind : TileKind) (q : AccReg) (d a b c : Reg) (s : State) : Out :=
  tileOp [d, a, b, c] pfxTile s fun t g l pfx =>
    let shape := t.rx d
    let stride := t.rx c
    let va := t.rx a
    let vb := t.rx b
    if !wordsOk (kind == .mma) shape stride then .next (s.illegal 4#4)
    else match tileMisaligned va.toNat vb.toNat stride pfx with
      | some second => .next (s.trap { code := 0x02#8, tval := if second then vb else va })
      | none => match s.tileRange g l va (extentA shape stride pfx) false true with
        | .error tr => .next (s.trap tr)
        | .ok ia => match s.tileRange g l vb (extentB shape stride pfx) false true with
          | .error tr => .next (s.trap tr)
          | .ok ib =>
            if kind == .spmac && !s.tileC s.pos l q shape stride then
              .next (s.free.2.trap (permission 5#4 s.free.1))
            else forkWait s t (forkTile s t (t.tile s l kind q ia ib shape stride pfx va vb))
/-- `tmma` (R375). -/
def execTmma (q : AccReg) (d a b c : Reg) (s : State) : Out := tileMul .mma q d a b c s
/-- `tspmac` (R375). -/
def execTspmac (q : AccReg) (d a b c : Reg) (s : State) : Out := tileMul .spmac q d a b c s
/-- `tclr` (R377). -/
def execTclr (q : AccReg) (s : State) : Out :=
  tileOp [] pfxNone s fun t _ l _ => forkTile s t (t.tile s l .clr q 0 0 0#64 0#64 0#32 0#64 0#64)
/-- A legal row stride of `tacc2s` and `ts2acc`. -/
def rowStrideOk (n : Nat) : Bool := n % 16 = 0 && 128 ≤ n && n ≤ 2 ^ 18
/-- `tacc2s` and `ts2acc` (R377). -/
def tileMove (kind : TileKind) (q : AccReg) (a b : Reg) (s : State) : Out :=
  tileOp [a, b] pfxNone s fun t g l _ =>
    let n := (t.rx b).toNat
    if !rowStrideOk n then .next (s.illegal 4#4)
    else match s.tileRange g l (t.rx a) (63 * n + 128) (kind == .acc2s) false with
      | .error tr => .next (s.trap tr)
      | .ok ia => forkWait s t (forkTile s t (t.tile s l kind q ia 0 0#64 (t.rx b) 0#32 (t.rx a) 0#64))
/-- `tacc2s` (R377). -/
def execTacc2s (q : AccReg) (a b : Reg) (s : State) : Out := tileMove .acc2s q a b s
/-- `ts2acc` (R377). -/
def execTs2acc (q : AccReg) (a b : Reg) (s : State) : Out := tileMove .s2acc q a b s
/-- `twait` (R378). -/
def execTwait (s : State) : Out := tileOp [] pfxNone s fun t _ _ _ => if t.tiles = 0 then .next (s.retire t) else stall s
/-- `tmsend` (R379); illegal in step mode (R124). -/
def execTmsend (a b c : Reg) (s : State) : Out :=
  tileOp [a, b, c] pfxNone s fun t g l _ =>
    let x := t.rx a
    let lcore := (x.extractLsb' 0 16).toNat
    let op := (x.extractLsb' 24 3).toNat
    if l.stepMode = true ∨ 4 < op ∨ x.extractLsb' 29 35 ≠ 0#35 then .next (s.illegal 4#4)
    else match l.core? lcore with
      | none => .next (s.free.2.trap (permission 3#4 s.free.1))
      | some q =>
        match checkAcc s s.pos t { va := t.rx b, n := 64, align := 64, r := true, w := false, kind := .load } with
          | .error tr => .next (s.trap tr)
          | .ok ia =>
            let own : Bool := match placeOf ia with
              | .sp p _ => p = s.pos
              | _ => false
            if !own then .next (s.trap (permission 5#4 (t.rx b)))
            else
              let t' := if s.digests g then
                  t.feed (digestElem (addrField s.pos g (t.rx b)) x 0xFF 7 ((t.rx c).extractLsb' 0 32).toNat)
                else t
              if g.check.isSome then .next (s.retire t')
              else forkWait s t
                (.next ((s.ask s.pos { t.asks s q (.matrix ((t.rx c).extractLsb' 0 32) (x.extractLsb' 16 8) op ((x.extractLsb' 27 2).toNat) ia) l.lid none
                  (t.rx b) .matrix with slot := none, owner := some (t.homePos s.pos, t.group) }).retire t'))

/-! ## Operand fetch (R169, R170, R372) -/

/-- What a fetch of operand bytes gives. -/
structure Fetched where
  s   : State
  bs  : List Byte
  ans : Answer := .ok
/-- What a scratchpad answers to the fetch of an operand. -/
def State.operandAt (s : State) (q lid off n : Nat) : List Byte × Answer :=
  let c := s.core q
  if c.fenced then ([], .fault 0x09#8 0#4)
  else match c.tileReach lid off n with
    | .ok => (c.spRead off n, if c.spPoison off n then .poison else .ok)
    | a => ([], a)
/-- A fetch over the dale operand network (R170): a request joins the fetch of the same range that began fewer than 256 clocks before;
else it takes an entry of the dale's table of 16, of which the oldest, whose fetch is over, is free (assumption 21). -/
def State.networkFetch (s : State) (p q lid ia n : Nat) : Fetched :=
  let d := daleOf p
  let now := s.basinClocks (basinOf p)
  let table := tblGetD s.fetches d []
  match table.find? fun e => e.pos == q && e.ia == ia && e.n == n && now < e.clock + 256 with
  | some e => ⟨s, e.bs, e.ans⟩
  | none =>
    let r := s.operandAt q lid (ia % 0x400000) n
    ⟨{ s with fetches := tblSet s.fetches d (({ pos := q, ia := ia, n := n, clock := now, bs := r.1, ans := r.2 } : Fetch) :: table.take 15) }, r.1, r.2⟩
/-- A line of memory space as a load without `.b` reads it (R164, R204): from the L1, else from its home, from the host's copy where the
host holds it; a line without poison fills the L1. -/
def State.operandLine (s : State) (p k : Nat) : Fetched :=
  match (s.core p).l1.find? fun e => e.1 == k with
  | some e => ⟨s.modCore p fun c => c.l1Touch k false, e.2.1, .ok⟩
  | none =>
    let off := k * 128 % 2 ^ 47
    if (s.xlate off).isNone then ⟨s, [], .fault 0x05#8 0#4⟩
    else
      let v := s.recallRange off 128
      if v.memPoison off 128 then ⟨s.cacheWalk off, [], .poison⟩
      else ⟨(s.cacheWalk off).modCore p fun c => c.l1Fill k (v.memBytes off 128) false, v.memBytes off 128, .ok⟩
/-- Lines of memory space, one after the other; the first failure counts. -/
def State.operandLines (s : State) (p : Nat) : List Nat → List Byte → Fetched
  | [], acc => ⟨s, acc, .ok⟩
  | k :: t, acc =>
    let r := s.operandLine p k
    match r.ans with
    | .ok => State.operandLines r.s p t (acc ++ r.bs)
    | _ => r
/-- Read operand bytes at a step: the core's own scratchpad, that of another core of the dale over the operand network, or memory space
through the L1 (R169, R170, R372). The fetch is one step of the model (assumption 21). -/
def State.tileFetch (s : State) (p : Nat) (o : TileOp) (ia n : Nat) : Fetched :=
  match placeOf ia with
  | .sp q off =>
    if q = p then
      let r := s.operandAt q o.lid off n
      ⟨s, r.1, r.2⟩
    else s.networkFetch p q o.lid ia n
  | .mem _ =>
    let r := s.operandLines p ((List.range ((ia + n + 127) / 128 - ia / 128)).map (ia / 128 + ·)) []
    ⟨r.s, (r.bs.drop (ia % 128)).take n, r.ans⟩
  | _ => ⟨s, [], .fault 0x04#8 5#4⟩
/-- Fetch several ranges; the first failure counts. -/
def State.tileFetchAll (s : State) (p : Nat) (o : TileOp) : List (Nat × Nat) → List (List Byte) → State × List (List Byte) × Answer
  | [], acc => (s, acc.reverse, .ok)
  | (ia, n) :: t, acc =>
    let r := s.tileFetch p o ia n
    match r.ans with
    | .ok => State.tileFetchAll r.s p o t (r.bs :: acc)
    | a => (r.s, [], a)

/-! ## Steps (R376, R377) -/

/-- G (R371). -/
def groupSize (pfx : BitVec 32) : Nat :=
  let small (c : BitVec 4) : Bool := 1 ≤ c.toNat && c.toNat ≤ 4
  if small (pFA pfx) && small (pFB pfx) then 32 else 16
/-- Groups of a multiply. -/
def TileOp.groups (o : TileOp) : Nat := (shapeK o.shape + groupSize o.pfx - 1) / groupSize o.pfx
/-- Steps of an operation. -/
def TileOp.steps (o : TileOp) : Nat :=
  match o.kind with
  | .mma => o.groups
  | .spmac => o.groups + 2
  | _ => 1
/-- Element i, from bit offset 0 of some bytes, at a width. -/
def codeAt (bs : List Byte) (w i : Nat) : Nat := natOfBytes ((bs.drop (i * w / 8)).take (ceilBytes w)) / 2 ^ (i * w % 8) % 2 ^ w
/-- The terms of one group for every row of A and every column of B. -/
structure TileGroup where
  as : List (List (Fp × Flags))
  bs : List (List (Fp × Flags))
/-- One `dot_group` for element (m, n). -/
def tileDot (o : TileOp) (gr : TileGroup) (m n acc : Nat) : Res :=
  let d8 := pFA o.pfx = 1#4 ∨ pFB o.pfx = 1#4
  let sigma := if d8 then some (fdec fp32 (o.shape.extractLsb' 32 32).toNat) else none
  let as := gr.as.getD m []
  let t := gr.bs.zipIdx.map fun row =>
    let x := as.getD row.2 (.fin false 0 0, 0#8)
    let y := row.1.getD n (.fin false 0 0, 0#8)
    let p := dotTerm x.1 y.1 sigma
    (p.1, p.2 ||| x.2 ||| y.2)
  let r := dotGroup acc (t.map (·.1)) (pRm o.pfx)
  (r.1, t.foldl (fun fl x => fl ||| x.2) r.2)
/-- The operand ranges of group j: a piece of every row of A, and rows of B. -/
def TileOp.ranges (o : TileOp) (j : Nat) : List (Nat × Nat) × List (Nat × Nat) :=
  let gsz := groupSize o.pfx
  let k0 := j * gsz
  let cnt := min gsz (shapeK o.shape - k0)
  let wa := tileWidth (pFA o.pfx)
  let wb := tileWidth (pFB o.pfx)
  ((List.range (shapeM o.shape)).map fun m => (o.a + m * strideA o.stride + k0 * wa / 8, ceilBytes (cnt * wa)),
   (List.range cnt).map fun k => (o.b + (k0 + k) * strideB o.stride, ceilBytes (shapeN o.shape * wb)))
/-- The element codes of an accumulator's or a staging tile's rows and columns in use, after a group. -/
def TileOp.applyGroup (o : TileOp) (get : Nat → Nat → BitVec 32) (as bs : List (List Byte)) : List ((Nat × Nat) × BitVec 32) × Flags :=
  let wa := tileWidth (pFA o.pfx)
  let wb := tileWidth (pFB o.pfx)
  let val (c : BitVec 4) (x : Nat) : Fp × Flags := operandVal c bf16 o.tab x
  let gr : TileGroup :=
    { as := as.map fun row => (List.range bs.length).map fun k => val (pFA o.pfx) (codeAt row wa k),
      bs := bs.map fun row => (List.range (shapeN o.shape)).map fun n => val (pFB o.pfx) (codeAt row wb n) }
  ((List.range (shapeM o.shape)).flatMap fun m => (List.range (shapeN o.shape)).map fun n => (m, n)).foldl
    (fun (acc : List ((Nat × Nat) × BitVec 32) × Flags) mn =>
      let r := tileDot o gr mn.1 mn.2 (get mn.1 mn.2).toNat
      ((mn, BitVec.ofNat 32 r.1) :: acc.1, acc.2 ||| r.2)) ([], 0#8)

/-- Put the operation in progress back, changed. -/
def State.putTile (s : State) (p : Nat) (queue : Bool) (o : TileOp) : State :=
  s.modCore p fun c => if queue then { c with matrixQ := o :: c.matrixQ.drop 1 } else { c with tiles := o :: c.tiles.drop 1 }
/-- The operation in progress ends (R374, R380): its flags go to its thread; a command's record goes to its sender. -/
def State.endTile (s : State) (p : Nat) (queue : Bool) (o : TileOp) (status : Nat) : State :=
  let s := s.modCore p fun c =>
    { (if queue then { c with matrixQ := c.matrixQ.drop 1 } else { c with tiles := c.tiles.drop 1 }) with tileBusy := none, tileTurn := !queue }
  match o.sender, o.slot with
  | some (node, tag), _ => s.sendRecord p node (s.core p).vtime (matrixRecord status tag (s.core p).vtime p o.migrated)
  | none, some slot => s.modThread p slot fun t => { t.raise (o.flags.extractLsb' 0 8) with tiles := t.tiles - 1 }
  | none, none => s
/-- The destination of an operation that a source's fault ended holds indeterminate values (R170, R374). -/
def State.spoilTile (s : State) (p : Nat) (o : TileOp) : State :=
  let m := shapeM o.shape
  let n := shapeN o.shape
  let k := s.freeCtr
  match o.kind with
  | .mma =>
    { s.modCore p (fun c => ((List.range (m * n)).foldl (fun c i => c.accSet o.acc.toNat (i / n * 32 + i % n) (Config.freeF32 (k + i))) c)) with
      freeCtr := k + m * n }
  | .s2acc =>
    { s.modCore p (fun c => ((List.range 2048).foldl (fun c i => c.accSet o.acc.toNat i (Config.freeF32 (k + i))) c)) with freeCtr := k + 2048 }
  | .spmac =>
    { s.modCore o.home (fun c => ((List.range m).foldl (fun c r =>
        let off := strideC o.stride + r * rowC o.acc
        if c.tileReach o.lid off (4 * n) = .ok then c.spStore off ((List.range (4 * n)).map fun i => Config.freeByte (k + r * 4 * n + i))
        else c) c)) with
      freeCtr := k + m * n * 4 }
  | .acc2s =>
    match placeOf o.a with
    | .sp q off =>
      { s.modCore q (fun c => ((List.range 64).foldl (fun c r =>
          if c.tileReach o.lid (off + r * o.stride.toNat) 128 = .ok then
            c.spStore (off + r * o.stride.toNat) ((List.range 128).map fun i => Config.freeByte (k + r * 128 + i))
          else c) c)) with freeCtr := k + 8192 }
    | _ => s
  | .clr => s
/-- A source or a destination has refused the operation (R374, R380). -/
def State.failTile (s : State) (p : Nat) (queue : Bool) (o : TileOp) (second : Bool) (ans : Answer) : State :=
  let s := s.spoilTile p o
  let va := if second then o.vb else o.va
  let status := match ans with
    | .poison => 6
    | .fault c _ => match c.toNat with
      | 7 => 4
      | 9 => 5
      | _ => 3
    | .ok => 0
  let s := s.endTile p queue o status
  match o.slot with
  | some slot => match ans with
    | .poison => s.consumePoison p slot false o.handler va
    | .fault c d => s.reportFault p slot o.handler { code := c, detail := d, tval := va }
    | .ok => s
  | none => match ans with
    | .poison =>
      let s := s.modRect (s.rectOf p) fun r => { r with pcons := r.pcons + 1 }
      if s.policy1 p then s.beginContain p none va else s
    | _ => s
/-- The last step is done. -/
def State.stepDone (s : State) (p : Nat) (queue : Bool) (o : TileOp) : State :=
  let o := { o with step := o.step + 1 }
  if o.steps ≤ o.step then (s.putTile p queue o).endTile p queue o 0 else s.putTile p queue o
/-- Fold the stores of a tile operation into the digest (R140), a row at a time. -/
def State.foldRow (s : State) (p : Nat) (o : TileOp) (va : Word) (ia : Nat) (bs : List Byte) : State :=
  match o.slot.bind (s.thread? p) with
  | none => s
  | some t => match s.groupOf p t with
    | none => s
    | some g => (List.range ((bs.length + 7) / 8)).foldl (fun s i =>
        s.modThread p (o.slot.getD 0) fun t =>
          s.foldChunk p t g (va + BitVec.ofNat 64 (8 * i)) (ia + 8 * i) (min 8 (bs.length - 8 * i)) (wordOf ((bs.drop (8 * i)).take 8)) true 0 0) s
/-- The operation's stores and reads outside the group's allocation are those that a check run does not perform (R142). -/
def State.tileCheck (s : State) (p : Nat) (o : TileOp) (ia n : Nat) (load : Bool) : CheckAct :=
  match o.slot.bind (s.thread? p) with
  | none => .perform
  | some t => match s.groupOf p t with
    | none => .perform
    | some g => s.checkAct p t g ia n load load
/-- Write a row of bytes to a scratchpad of the dale; the destination's refusal ends the operation. -/
def State.tileStore (s : State) (p : Nat) (o : TileOp) (va : Word) (ia : Nat) (bs : List Byte) : State × Answer :=
  let s := s.foldRow p o va ia bs
  match s.tileCheck p o ia bs.length false with
  | .perform => match placeOf ia with
    | .sp q off =>
      let c := s.core q
      if c.fenced then (s, .fault 0x09#8 0#4)
      else match c.tileReach o.lid off bs.length with
        | .ok => (s.setCore q (c.spStore off bs), .ok)
        | a => (s, a)
    | _ => (s, .fault 0x04#8 5#4)
  | _ => (s, .ok)
/-- Store rows until one is refused. -/
def State.tileStores (s : State) (p : Nat) (o : TileOp) : List (Word × Nat × List Byte) → State × Answer
  | [] => (s, .ok)
  | (va, ia, bs) :: t => match s.tileStore p o va ia bs with
    | (s, .ok) => State.tileStores s p o t
    | r => r
/-- The check of a command's addresses against the executing side (R380); its group checks were made at issue for a thread's own. -/
def State.commandBad (s : State) (p : Nat) (o : TileOp) : Bool :=
  if o.sender.isNone then false
  else match s.launch? (s.core o.home).lid with
    | none => true
    | some l => match o.kind with
      | .clr => false
      | .acc2s => (s.tilePlace p l o.a (63 * o.stride.toNat + 128) 0#64 true false).isSome
      | .s2acc => (s.tilePlace p l o.a (63 * o.stride.toNat + 128) 0#64 false false).isSome
      | k => (s.tilePlace p l o.a (extentA o.shape o.stride o.pfx) 0#64 false true).isSome ||
          (s.tilePlace p l o.b (extentB o.shape o.stride o.pfx) 0#64 false true).isSome ||
          (k == .spmac && !s.tileC o.home l o.acc o.shape o.stride)
/-- Go on with an operation that reads ranges, unless one of them voids its thread's check run (R142). -/
def State.tileReads (s : State) (p : Nat) (queue : Bool) (o : TileOp) (rs : List (Nat × Nat)) (go : State) : State :=
  let void := rs.any fun x => s.tileCheck p o x.1 x.2 true == .void
  match (if void then o.slot.bind (s.thread? p) else none) with
  | some t => match s.groupOf p t with
    | some g => ({ s with pos := p, slot := o.slot.getD 0 }.voidRun t g).endTile p queue o 0
    | none => s
  | none => go
/-- A group step of `tmma` or `tspmac`. -/
def State.groupStep (s : State) (p : Nat) (queue : Bool) (o : TileOp) (j : Nat) : State :=
  let r := o.ranges j
  s.tileReads p queue o (r.1 ++ r.2) <|
    match s.tileFetchAll p o r.1 [] with
    | (s, as, .ok) => match s.tileFetchAll p o r.2 [] with
      | (s, bs, .ok) =>
        let n := shapeN o.shape
        let get (m k : Nat) : BitVec 32 := match o.kind with
          | .mma => (s.core p).accGet o.acc.toNat (m * 32 + k)
          | _ => o.stage.getD (m * n + k) 0#32
        let x := o.applyGroup get as bs
        let o := { o with flags := o.flags ||| x.2.setWidth 64 }
        (match o.kind with
         | .mma => (s.modCore p fun c => x.1.foldl (fun c e => c.accSet o.acc.toNat (e.1.1 * 32 + e.1.2) e.2) c).stepDone p queue o
         | _ => s.stepDone p queue { o with stage := (x.1.reverse).map (·.2) })
      | (s, _, a) => s.failTile p queue o true a
    | (s, _, a) => s.failTile p queue o false a
/-- One step of an operation. -/
def State.tileStep (s : State) (p : Nat) (queue : Bool) (o : TileOp) : State :=
  let o := if o.step = 0 then { o with tab := ((s.core o.home).tab4l, (s.core o.home).tab4h), id := if o.sender.isSome then s.nextId else o.id } else o
  let s := { s with nextId := s.nextId + 1 }
  if o.step = 0 && s.commandBad p o then (s.spoilTile p o).endTile p queue o 3
  else
    let c0 := spIa o.home (strideC o.stride)
    let cva := BitVec.ofNat 64 (strideC o.stride)
    match o.kind with
    | .mma => if o.groups = 0 then s.endTile p queue o 0 else s.groupStep p queue o o.step
    | .spmac =>
      if o.step = 0 then
        let rs := (List.range (shapeM o.shape)).map fun m => (c0 + m * rowC o.acc, 4 * shapeN o.shape)
        s.tileReads p queue o rs <|
          match s.tileFetchAll p o rs [] with
          | (s, rows, .ok) =>
            s.stepDone p queue { o with stage := rows.flatMap fun row => (List.range (shapeN o.shape)).map fun n => BitVec.ofNat 32 (codeAt row 32 n) }
          | (s, _, a) => s.failTile p queue o false a
      else if o.step ≤ o.groups then s.groupStep p queue o (o.step - 1)
      else
        let row (m : Nat) : List Byte := ((o.stage.drop (m * shapeN o.shape)).take (shapeN o.shape)).flatMap fun x => bytesOfNat x.toNat 4
        (match s.tileStores p o ((List.range (shapeM o.shape)).map fun m =>
            (cva + BitVec.ofNat 64 (m * rowC o.acc), c0 + m * rowC o.acc, row m)) with
         | (s, .ok) => s.stepDone p queue o
         | (s, a) => s.failTile p queue o false a)
    | .clr => (s.modCore p fun c => if h : o.acc.toNat < 4 then { c with acc := c.acc.set o.acc.toNat [] } else c).stepDone p queue o
    | .acc2s =>
      let st := o.stride.toNat
      (match s.tileStores p o ((List.range 64).map fun m => (o.va + BitVec.ofNat 64 (m * st), o.a + m * st, (s.core p).accRead (o.acc.toNat * 8192 + m * 128) 128)) with
       | (s, .ok) => s.stepDone p queue o
       | (s, a) => s.failTile p queue o false a)
    | .s2acc =>
      let st := o.stride.toNat
      let rs := (List.range 64).map fun m => (o.a + m * st, 128)
      s.tileReads p queue o rs <|
        match s.tileFetchAll p o rs [] with
        | (s, rows, .ok) => (s.modCore p fun c => (rows.zipIdx).foldl (fun c r => c.accWrite (o.acc.toNat * 8192 + r.2 * 128) r.1) c).stepDone p queue o
        | (s, _, a) => s.failTile p queue o false a

/-- An operation waits: its thread, or for a command the core, is halted or stopped (R376, R380). -/
def State.tileHeld (s : State) (p : Nat) (o : TileOp) : Bool :=
  let c := s.core p
  c.halted || c.fenced ||
  (match o.slot with
   | some slot => (s.thread? p slot).any fun t => t.run == Run.halted || t.run == Run.stopped
   | none => c.dbgstat.getLsbD 0)
/-- MATRIX_STEP_BOUNDARY: the sequencer takes its next step; between operations it takes one from the threads and one from the
queue in turn (R169, R373, R376). -/
def execMatrixStepBoundary (pos : Nat) (s : State) : Out :=
  let c := s.core pos
  let choose : Option Bool :=
    match c.tileBusy with
    | some q => some q
    | none =>
      let t := c.tiles.head?.any fun o => !s.tileHeld pos o
      let q := c.matrixQ.head?.any fun o => !s.tileHeld pos o
      if t && q then some c.tileTurn else if t then some false else if q then some true else none
  match choose with
  | none => .next s
  | some q =>
    match (if q then c.matrixQ.head? else c.tiles.head?) with
    | none => .next s
    | some o =>
      if s.tileHeld pos o then .next s
      else .next ((s.modCore pos fun c => { c with tileBusy := some q }).tileStep pos q o)

/-! ## A command at its target (R171, R380) -/

/-- The command a descriptor describes, or none when it is malformed (R380). -/
def tileOfDesc (p : Nat) (lid op acc : Nat) (tag : BitVec 8) (sender : Nat) (d : List Byte) : Option TileOp :=
  let w (i : Nat) : Word := wordOf ((d.drop (8 * i)).take 8)
  let fmt : BitVec 32 := (w 4).extractLsb' 0 32
  let tail := (d.drop 0x24).all fun b => b = 0#8
  let fmtOk := fmt = 0#32 || (fmt.extractLsb' 0 7 = 0x79#7 && (fmt.extractLsb' 27 5 = 0#5) && (pRM fmt).toNat ≤ 5 && pfxTile fmt)
  let q : AccReg := BitVec.ofNat 2 acc
  let o (k : TileKind) : TileOp :=
    { kind := k, acc := q, a := ((w 0).extractLsb' 0 56).toNat, b := ((w 1).extractLsb' 0 56).toNat, shape := w 2, stride := w 3, pfx := fmt, va := w 0,
      vb := w 1, slot := none, gid := 0, lid := lid, sender := some (sender, tag), home := p, migrated := false, step := 0, stage := [], tab := (0#64, 0#64),
      flags := 0#64, handler := false }
  if !tail || !fmtOk then none
  else match op with
    | 0 => if wordsOk true (w 2) (w 3) && (tileMisaligned (o .mma).a (o .mma).b (w 3) fmt).isNone then some (o .mma) else none
    | 1 => if wordsOk false (w 2) (w 3) && (tileMisaligned (o .mma).a (o .mma).b (w 3) fmt).isNone then some (o .spmac) else none
    | 2 => if w 0 = 0#64 ∧ w 1 = 0#64 ∧ w 2 = 0#64 ∧ w 3 = 0#64 ∧ fmt = 0#32 then some (o .clr) else none
    | 3 => if w 1 = 0#64 ∧ w 2 = 0#64 ∧ fmt = 0#32 ∧ rowStrideOk (w 3).toNat = true then some (o .acc2s) else none
    | _ => if w 1 = 0#64 ∧ w 2 = 0#64 ∧ fmt = 0#32 ∧ rowStrideOk (w 3).toNat = true then some (o .s2acc) else none
/-- A core of the dale to which a command may migrate (R171): same launch and key, queue empty, executing nothing. -/
def State.migrateTarget (s : State) (p : Nat) : Option Nat :=
  let c := s.core p
  (s.cores.map (·.1)).find? fun q =>
    let d := s.core q
    q ≠ p && daleOf q = daleOf p && d.lid = c.lid && d.matrixQ.isEmpty && d.tiles.isEmpty && d.tileBusy.isNone && d.mxEn && d.mxKey = c.mxKey && !d.fenced
/-- A matrix command meets its target (R171, R380): refused with a record, queued, or migrated. -/
def State.matrixAt (s : State) (p src lid : Nat) (key : BitVec 32) (tag : BitVec 8) (op acc desc : Nat) : State :=
  let c := s.core p
  let refuse (n : Nat) : State := s.sendRecord p src c.vtime (matrixRecord n tag c.vtime p false)
  if !c.mxEn || key ≠ c.mxKey then refuse 1
  else if 8 ≤ c.matrixQ.length then refuse 2
  else
    let d := match placeOf desc with
      | .sp q off => (s.core q).spRead off 64
      | _ => []
    match tileOfDesc p lid op acc tag src d with
    | none => refuse 7
    | some o =>
      match (if 4 ≤ c.matrixQ.length && o.kind == .spmac then s.migrateTarget p else none) with
      | some q =>
        (s.modCore p fun c => { c with mxMig := c.mxMig + 1#32 }).modCore q fun c => { c with matrixQ := c.matrixQ ++ [{ o with migrated := true }] }
      | none => s.modCore p fun c => { c with matrixQ := c.matrixQ ++ [o] }

end Sys2Proof.Machine
end

