-- ==== Sys2Proof/Machine/Packet.lean ====
section
/-! DEFINITION. Packets at their destinations (R27, R28, R33 to R38): a core, a slice bank and the agents
of the I/O dies as targets, duplicates and retained replies, forwards and probes (R34), and the answers at the requester. The
meaning of every row of a packet. -/
namespace Sys2Proof.Machine

/-- The packet that a flit on its way to a peer port carries (R43). -/
def Body.inner : Body → Body
  | .transit _ b => b
  | b => b
/-- Take packet k, ejected at its destination, when its body is of a row's kind. -/
def State.takePacket (s : State) (k : Nat) (f : Body → Bool) : Option (Packet × State) :=
  match s.net[k]? with
  | some p => if f p.body.inner && p.spot == .ejected then some (p, { s with net := s.net.eraseIdx k }) else none
  | none => none

/-! ## Requests at their targets -/

/-- Answer a duplicate (R37, R38): a waiting request is told so again; a retained reply is sent again, and without one the answer
is STALE; everything else is acknowledged. -/
def State.answerDuplicate (s : State) (k : Packet) : State :=
  if k.dst < 0x400 && (s.core k.dst).waits.any (fun w => w.slot.isNone && w.node == k.src && w.seq == k.seq && w.ns == k.ns) then
    s.answer k (.ack true .ok) false
  else if k.body.kept then
    match (s.node k.dst).replies.find? fun r => r.1 == k.src && r.2.1 == k.seq with
    | some r => s.answer k r.2.2 false
    | none => s.answer k (.nack .stale) false
  else s.answer k (.ack false .ok) false
/-- A target takes a packet: a packet that is not side-effecting is performed on every copy; a side-effecting one once, recorded
in the window unless the target answers BUSY (R37). The watershed's count of it is made here (R130, R132). -/
def State.once (s : State) (k : Packet) (f : State → Option State) : State :=
  let counted (s : State) : State := if k.body.counted then s.countRecv k.dst k.colour else s
  if k.ns then (f s).getD s
  else match s.accept k with
    | none => s.answerDuplicate k
    | some s' => match f (counted s') with
      | some s'' => s''
      | none => (counted s).answer k (.nack .busy) false

/-- An event or record at a core's inbox (R174): the answer is the inbox's. An event of a core with no launch, of another launch,
or to stream 15 is dropped (R146, R173); one for a core whose launch has been evicted is refused as FULL, and so is a media record for a core
of an evicted launch, whoever holds the core now (R119, assumption 81). -/
def State.eventAt (s : State) (k : Packet) : State :=
  let p := k.dst
  let c := s.core p
  let meets (e : Entry) : State :=
    let x := c.inboxPut k.src e
    let s1 := s.setCore p x.1
    match x.2.1 with
    | .ack =>
      let s2 := s1.setCore p ((s1.core p).wakeEvents e.stream s.time)
      (if x.2.2 then s2.inboxFreed p else s2).answer k (.ack false .ok) false
    | .full => s1.answer k (.nack .full) false
  let evicted := s.launches.any fun l => (l.st == .evicted || l.st == .saving) && l.inRect p
  match k.body with
  | .event stream index vt units srcCore =>
    let straggler := c.lid ≠ 0 && c.lid = k.lid && vt.ult c.vtime
    if c.lid ≠ k.lid && evicted then s.answer k (.nack .full) false
    else if c.lid = 0 || c.lid ≠ k.lid || stream = 15 then (s.countEvDrop p).answer k (.ack false .ok) false
    else
      let s := if straggler then s.modCore p fun c => { c with vtStrag := satInc c.vtStrag } else s
      let x := (s.core p).inboxPut k.src (.event stream index vt units srcCore k.seq c.arrivals)
      let s1 := s.setCore p x.1
      (match x.2.1 with
      | .ack =>
        let s2 := s1.setCore p ((s1.core p).wakeEvents stream s.time)
        (if x.2.2 then s2.inboxFreed p else s2).answer k (.ack false .ok) false
      | .full => s1.answer k (.nack .full) false)
  | .record r =>
    if evicted && (c.lid = 0 || isMedia k.src) then s.answer k (.nack .full) false
    else if c.lid = 0 then (s.countEvDrop p).answer k (.ack false .ok) false
    else meets (Entry.record r c.arrivals)
  | _ => s

/-- A nomad context at its target (R155, R156): accepted into the lowest free slot, or refused. One whose origin a halt request has reached
meanwhile is halted on arrival (R118, R157). -/
def State.contextAt (s : State) (k : Packet) (regs : List Word) (pc : Word) (preds : BitVec 8) (hp hs : Nat) (pn : Bool) : State :=
  let p := k.dst
  let c := s.core p
  let origin := (s.core k.src).threads.find? fun st => st.2.run == Run.transit p && st.2.homePos k.src == hp && st.2.homeSlot st.1 == hs
  let homeOk := c.lid ≠ 0 && (s.launch? c.lid).any fun l => l.inRect hp
  if !homeOk then (s.dropPacket k).answer k .migRefusal false
  else match c.freeSlots.head?, origin with
    | some slot, some st =>
      let halted := (s.core k.src).halted
      if c.lid ≠ k.lid || (c.halted && !halted) || c.recasting.isSome || c.fenced || c.groups.any (fun g => g.stopped.isSome) then s.answer k .migRefusal false
      else
        let t := st.2
        let xs : Vector Word 32 := ((List.range 15).zip regs).foldl (fun (v : Vector Word 32) x => v.setIfInBounds (x.1 + 1) x.2) (Vector.replicate 32 0#64)
        let held := (s.groupOf k.src t).any fun g => g.stopped.isSome || g.dying.isSome
        let t' : Thread :=
          { t with x := xs, pc := pc, p := preds, status := if pn then 8#64 else 0#64, estatus := 0#64, epc := 0#64, tcause := 0#64, tval := 0#64,
                   pendX := 0#32, pendP := 0#8, run := if held then .stopped else .running, home := if hp = p then none else some (hp, hs), ctx := none }
        let c := { (c.leaveUnbounded k.vt) with homeCache := ((hp, hs) :: c.homeCache.erase (hp, hs)).take 4 }
        let slot := if hp = p && !c.busy hs then hs else slot
        (s.setCore p (c.setThread slot (if halted then t'.haltAt s.time else t'))).answer k (.ack false .ok) false
    | _, _ => s.answer k .migRefusal false

/-- A withdrawal at its target (R161). The reply of a grant goes under the wait's own SEQ, so that the requester knows it. -/
def State.withdrawAt (s : State) (k : Packet) (ns : Bool) (seq : BitVec 16) : State :=
  let c := s.core k.dst
  let mine (w : WaitEntry) : Bool := w.slot.isNone && w.node == k.src && w.ns == ns && w.seq == seq
  if c.waits.any mine then (s.setCore k.dst { c with waits := c.waits.filter fun w => !mine w }).answer k (.ack false .ok) false
  else match (s.node k.dst).replies.find? fun r => r.1 == k.src && r.2.1 == seq with
    | some r => { s with net := s.net ++ [replyTo k.dst k.src ns seq r.2.2] }
    | none => s.answer k (.nack .stale) false

/-- A step-mode transfer lands in the receive register of the direction it came from (R390). -/
def State.neighbourAt (s : State) (p : Nat) (d : Dir) (v : Word) : State :=
  if !s.stepCore p then s.dropAt p true
  else
    let r := Dir.num (Dir.opp d)
    let full := ((s.core p).nrx.toList.getD r none).isSome
    let s := if full then s.dropAt p true else s
    s.modCore p fun c => ({ c with nrx := c.nrx.setIfInBounds r (some v) }).mapThreads fun _ t => match t.run with
      | .sleeping (.recv d') => if d' = Dir.opp d then t.wake else t
      | _ => t

/-- A node that cannot take a packet answers it; the leaf counts it all the same (R28, R130). -/
def State.turnedAway (s : State) (k : Packet) (b : Body) : State := (if k.body.counted && !k.ns then s.countRecv k.dst k.colour else s).answer k b false
/-- The part of a bulk request at a scratchpad that is done next: the bytes of one 64-bit word (R183). -/
def Packet.piece (k : Packet) : Body :=
  match k.body with
  | .bulkRead a n => .bulkRead (a + k.part) (min (n - k.part) (8 - (a + k.part) % 8))
  | .bulkWrite a d pz => .bulkWrite (a + k.part) ((d.drop k.part).take (8 - (a + k.part) % 8)) pz
  | b => b
/-- Do a bulk request's next word at a scratchpad: it is answered after the last, or at the first refusal. -/
def State.bulkWord (s : State) (k : Packet) : State :=
  match s.coreRequest k.dst k.lid k.gen k.piece ((k.piece.ia?).getD 0) { slot := none, node := k.src, ns := k.ns, seq := k.seq } with
  | (s', .done ans bs) =>
    let k' := { k with part := k.part + k.piece.size, got := k.got ++ bs, bad := k.bad || ans == .poison }
    (match ans with
     | .fault _ _ => s'.answer k (k.body.reply ans []) false
     | _ => if k.body.size ≤ k'.part then s'.answer k (k.body.reply (if k'.bad then .poison else .ok) k'.got) false
            else { s' with net := k' :: s'.net })
  | _ => s
/-- A request at a core (R54, R115, R158, R160, R162, R380). -/
def State.coreTarget (s : State) (k : Packet) : State :=
  let p := k.dst
  let who : Who := { slot := none, node := k.src, ns := k.ns, seq := k.seq }
  if !s.active p then (match k.body with
    | .neighbour .. => s
    | _ => s.turnedAway k (.nack .nocore))
  else if (s.core p).fenced then s.turnedAway k (.nack .fenced)
  else if k.part ≠ 0 then s.bulkWord k
  else match k.body with
    | .neighbour d v => s.neighbourAt p d v
    | .event .. | .record _ => s.once k fun s => some (s.eventAt k)
    | .context regs pc preds hp hs pn => s.once k fun s => some (s.contextAt k regs pc preds hp hs pn)
    | .withdraw ns seq => s.once k fun s => some (s.withdrawAt k ns seq)
    | .matrix key tag op acc desc => s.once k fun s => some ((s.matrixAt p k.src k.lid key tag op acc desc).answer k (.ack false .ok) false)
    | .debugAccess off => { s with net := s.net ++ [replyTo p k.src k.ns k.seq (.debugReply ((s.core p).regWindow off))] }
    | _ => match k.body.ia? with
      | none => s.dropPacket k
      | some ia => s.once k fun s =>
        let s := (match k.body with
          | .tdec .. => s.modCore p fun c => c.leaveUnbounded k.vt
          | _ => s)
        match k.body with
        | .bulkWrite a d _ =>
          if a = dqinIa p then (if (s.core p).lid ≠ k.lid && k.lid ≠ 0 then some (s.answer k (.ack false (.fault 0x04#8 5#4)) false)
            else (s.receivePush p k.vt d k.mark).map fun s => s.answer k (.ack false .ok) false)
          else if inScratchpad a then some (s.bulkWord k)
          else (match s.coreRequest p k.lid k.gen k.body ia who with
            | (s', .done ans bs) => some (s'.answer k (k.body.reply ans bs) k.body.kept)
            | _ => none)
        | .bulkRead a _ =>
          if inScratchpad a then some (s.bulkWord k)
          else (match s.coreRequest p k.lid k.gen k.body ia who with
            | (s', .done ans bs) => some (s'.answer k (k.body.reply ans bs) false)
            | _ => none)
        | _ => match s.coreRequest p k.lid k.gen k.body ia who with
          | (s', .done ans bs) => some (s'.answer k (k.body.reply ans bs) k.body.kept)
          | (s', .waits) => some (s'.answer k (.ack true .ok) false)
          | (_, .busy) => none

/-! ## Slice banks -/

/-- A request on memory space at its home, past forwarding (R56 to R58, R66, R73, R75, R181): the answer's data. -/
def State.homeDo (s : State) (b : Body) (off : Nat) : State × Answer × List Byte :=
  if (s.xlate off).isNone then (s, .fault 0x05#8 0#4, [])
  else
    let s := s.cacheWalk off
    match b with
    | .read _ n | .bulkRead _ n => (s, if s.memPoison off n then .poison else .ok, s.memBytes off n)
    | .write _ d pz | .bulkWrite _ d pz => (s.memStore off d pz, .ok, [])
    | .atomic _ w _ _ | .cas _ w _ _ =>
      if (s.hostAddr? off).isSome then (s, .fault 0x0B#8 0#4, [])
      else if s.memPoison off (atomBytes w) then (s, .poison, [])
      else
        let old := s.memBytes off (atomBytes w)
        (match atomicBytes b (wordOf old) with
          | some bs => s.memStore off bs
          | none => s, .ok, old)
    | .reduce _ w _ _ =>
      if (s.hostAddr? off).isSome then (s, .fault 0x0B#8 0#4, [])
      else if s.memPoison off (atomBytes w) then (s.countDrop0, .ok, [])
      else (match atomicBytes b (wordOf (s.memBytes off (atomBytes w))) with
          | some bs => s.memStore off bs
          | none => s, .ok, [])
    | _ => (s, .fault 0x04#8 5#4, [])
/-- Perform a request at its home and answer it. -/
def State.homeAnswer (s : State) (k : Packet) (off : Nat) : State :=
  let r := s.homeDo k.body off
  r.1.answer k (k.body.reply r.2.1 r.2.2) k.body.kept
/-- The packet of a forward slot: the forwarded request, or the probe of its line (R34). -/
def Fwd.message (f : Fwd) (retry : Bool) : Packet :=
  let body : Body := if f.probe then .probe ((f.packet.body.ia?.getD 0) % 2 ^ 47 / 128) else .forwarded f.packet.body f.packet.src f.packet.seq f.packet.ns
  { f.packet with src := f.packet.dst, dst := f.node, seq := f.seq, ns := f.ns, retry := retry, peer := false, body := body, age := 0#8, spot := .offered }
/-- Credits spent for an I/O die: a slot whose message has gone holds one (R34). -/
def Node.credits (nd : Node) (die : Nat) : Nat := (nd.forward.filter fun f => f.sent && f.node / 256 == die).length
/-- Park a request in a forward slot and send the forwarded request or the probe to the link agent, at once if one of the 16 credits
for the agent's die is left (R34); none while every slot is in use. -/
def State.forward (s : State) (k : Packet) (dst : Nat) (slots : Nat) (probe : Bool) : Option State :=
  let nd := s.node k.dst
  if slots ≤ nd.forward.length then none
  else
    let ns := probe || k.ns
    let seq := if ns then tblGetD nd.seqN dst 0#16 else tblGetD nd.seqS dst 0#16
    let f : Fwd := { node := dst, ns := ns, seq := seq, probe := probe, packet := k, sent := nd.credits (dst / 256) < 16 }
    let nd := if ns then { nd with seqN := tblSet nd.seqN dst (seq + 1#16) } else { nd with seqS := tblSet nd.seqS dst (seq + 1#16) }
    let s := s.setNode k.dst { nd with forward := nd.forward ++ [f] }
    some (if f.sent then { s with net := s.net ++ [f.message false] } else s)
/-- A credit and its slot have returned: the oldest message that waits for a credit of the die goes (R34). -/
def State.forwardNext (s : State) (n die : Nat) : State :=
  let nd := s.node n
  if 16 ≤ nd.credits die then s
  else match nd.forward.find? fun f => !f.sent && f.node / 256 == die with
    | none => s
    | some f =>
      let s := s.setNode n { nd with forward := nd.forward.map fun g => if g == f then { g with sent := true } else g }
      { s with net := s.net ++ [f.message false] }
/-- A read of a line that the host holds obtains the host's copy (R204). -/
def HostLine.read (h : HostLine) (b : Body) : Answer × List Byte :=
  match b with
  | .read a n | .bulkRead a n =>
    let o := a % 128
    (if (h.lo && o < 64) || (h.hi && 64 < o + n) then .poison else .ok, (h.data.drop o).take n)
  | _ => (.ok, [])
/-- A request at a slice bank. A line that the host holds: a read is forwarded to the link agent, and a store, atomic or reduction,
which the bank itself performs, probes it first (R34, R56, R204). -/
def State.sliceTarget (s : State) (k : Packet) : State :=
  match k.body.ia? with
  | none => s.dropPacket k
  | some ia =>
    let off := ia % 2 ^ 47
    s.once k fun s =>
      if (tblGet? s.hostLines (off / 128)).isSome then
        s.forward k linkNode 64 (match k.body with
          | .read .. | .bulkRead .. => false
          | _ => true)
      else some (s.homeAnswer k off)

/-! ## Agents of the I/O dies (R78) -/

/-- A request on device control at the management core (R53). -/
def State.mgmtTarget (s : State) (k : Packet) : State :=
  match k.body.ia? with
  | none => s.dropPacket k
  | some ia =>
    let off := ia % 0x1000000
    s.once k fun s => some (match k.body with
      | .read _ n | .bulkRead _ n => s.answer k (k.body.reply .ok (s.devBytes off n)) false
      | .write _ d _ | .bulkWrite _ d _ => (s.devStore off d (d.length + 1)).answer k (k.body.reply .ok []) false
      | _ => s.answer k (k.body.reply (.fault 0x04#8 4#4) []) k.body.kept)
/-- The node that sank a probe answers it, and the one that performed a forwarded request sends a probe reply of its own, with NS = 1
and its second counter's next value (R34, R36): the credit returns. -/
def State.probeBack (s : State) (k : Packet) : State :=
  match k.body with
  | .forwarded .. => s.sendNs k.dst k.src (.probeReply (some (k.ns, k.seq)))
  | _ => { s with net := s.net ++ [replyTo k.dst k.src k.ns k.seq (.probeReply none)] }
/-- A forwarded request at the link agent (R33, R34, R204): answered to the original requester from the host's copy, or performed once the
host holds none, and the credit returned. -/
def State.linkTarget (s : State) (k : Packet) : State :=
  match k.body with
  | .forwarded req orig oseq ons =>
    let reply (s : State) : State := (match req.ia? with
      | some ia =>
        let line := ia % 2 ^ 47 / 128
        let r : State × Answer × List Byte := match req, tblGet? s.hostLines line with
          | .read .., some h | .bulkRead .., some h => (s, h.read req)
          | _, _ => (s.hostRecall line).homeDo req (ia % 2 ^ 47)
        { r.1 with net := r.1.net ++ [replyTo k.src orig ons oseq (req.reply r.2.1 r.2.2)] }
      | none => s)
    (if k.ns then reply s
     else match s.accept k with
      | some s => reply s
      | none => { s with net := s.net ++ [replyTo k.src orig ons oseq (req.reply .ok [])] }).probeBack k
  | .probe line => (s.hostRecall line).probeBack k
  | _ => s.dropPacket k
/-- Status of a delegated atomic's record (R74). -/
def ramoStatus : Answer → Nat
  | .ok => 0
  | .poison => 0xA
  | .fault c _ => c.toNat
/-- Perform a delegated atomic at its home, the host's copy of its line recalled (R204): a device-scope atomic in LPDDR or at host memory (R73). -/
def State.ramoDo (s : State) (off : Nat) (w : AtomWidth) (op : AmoOp) (b : Word) : State × Answer × Word :=
  if (s.xlate off).isNone then (s, .fault 0x05#8 0#4, 0#64)
  else
    let s := (s.recallRange off (atomBytes w)).cacheWalk off
    if s.memPoison off (atomBytes w) then (s, .poison, 0#64)
  else
    let old := wordOf (s.memBytes off (atomBytes w))
    (s.memStore off (bytesOf (amoWord w op old b) (atomBytes w)), .ok, old)
/-- An agent accepts a delegated atomic: its carried virtual time bounds the agent's contribution (R132). -/
def Leaf.accepts (l : Leaf) (k : Packet) (tag : BitVec 8) : Leaf :=
  let b : Bound := { vt := k.vt, dst := k.src, tag := tag }
  { l with bounds := l.bounds ++ [b] }
/-- A delegated atomic at the atomic engine of an I/O die (R73, R74, R132): BUSY with 256 records outstanding; else acknowledged,
performed, and its record sent. -/
def State.atomicEngine (s : State) (k : Packet) (ia : Nat) (w : AtomWidth) (op : AmoOp) (b : Word) (tag : BitVec 8) : Option State :=
  let l := s.leaf k.dst
  if 256 ≤ l.bounds.length then none
  else
    let s := { s with leaves := tblSet s.leaves k.dst (l.accepts k tag) }
    let r := s.ramoDo (ia % 2 ^ 47) w op b
    some ((r.1.answer k (.ack false .ok) false).sendRecord k.dst k.src k.vt (ramoRecord (ramoStatus r.2.1) tag k.vt r.2.2))
/-- What a request needs of a peer window: R for reads, W for everything else (R69). -/
def State.windowOk (s : State) (ia : Nat) (b : Body) : Bool :=
  s.fw.peerWin.any fun e =>
    let v := e.2
    let low := ia % 2 ^ 48
    winDev v == ia / 2 ^ 48 % 256 && (v.extractLsb' 0 48).toNat ≤ low && low + b.size ≤ (v.extractLsb' 64 48).toNat &&
      (match b with
       | .read .. | .bulkRead .. => v.getLsbD 112
       | _ => v.getLsbD 113)
/-- A peer device is LIVE (R71). -/
def State.peerLive (s : State) (dev : Nat) : Bool := ((tblGet? s.fw.peers dev).map (·.1)).getD true
/-- A request for a peer at an egress agent (R69 to R71, R73): refused without a window, answered at once for a peer that is DOWN or
that no live port leads to, else parked in a forward slot and sent to its module; a copy of a parked one goes out too, for the
peer's side to answer (R36 to R38, assumption 72). A delegated atomic is acknowledged, and its fault is a record. -/
def State.egressTarget (s : State) (k : Packet) : State :=
  match k.body.ia? with
  | none => s.dropPacket k
  | some ia =>
    let live := s.peerLive (ia / 2 ^ 48 % 256) && !(s.fw.diePorts (k.dst / 256 % 4)).isEmpty
    let nd := s.node k.dst
    let bad : Option Answer := if !s.windowOk ia k.body then some (.fault 0x04#8 6#4) else if !live then some (.fault 0x08#8 0#4) else none
    if k.body.kindNum ≠ 8 && nd.forward.any (fun f => f.packet.src == k.src && f.packet.ns == k.ns && f.packet.seq == k.seq) then s.leaveFor k true
    else s.once k fun s =>
      match k.body with
      | .delegated _ _ _ _ tag =>
        let l := s.leaf k.dst
        if 256 ≤ l.bounds.length || (bad.isNone && 256 ≤ nd.forward.length) then none
        else
          let s := { s with leaves := tblSet s.leaves k.dst (l.accepts k tag) }
          let s := s.answer k (.ack false .ok) false
          (match bad with
          | some a => some (s.sendRecord k.dst k.src k.vt (ramoRecord (ramoStatus a) tag k.vt 0#64))
          | none => some (s.goOut k))
      | _ => match bad with
        | some a => some (s.answer k (k.body.reply a []) k.body.kept)
        | none =>
          if 256 ≤ nd.forward.length then none else some (s.goOut k)
/-- The record of a delegated atomic that a peer asked for: acknowledged, and sent back to its module (R74). -/
def State.recordOut (s : State) (k : Packet) (r : BitVec 128) : State :=
  let s := s.answer k (.ack false .ok) false
  match s.fw.peerRamos.find? fun e => e.1 == k.dst && e.2.1 == r.extractLsb' 12 8 && e.2.2.1 == r.extractLsb' 32 32 with
  | none => s
  | some e => { s with fw := { s.fw with peerRamos := s.fw.peerRamos.erase e } }.peerReply k.dst e.2.2.2 (.record r)
/-- A request at an agent; the record of a delegated atomic that a peer asked for leaves through the ingress agent; a reserved agent, or a packet the agent does not take, is dropped
and counted (R27, R78). Agent 0x05 is the egress side of both peer ports of its die and 0x06 the ingress side (assumption 88). -/
def State.agentTarget (s : State) (k : Packet) : State :=
  let agent := k.dst % 256
  if k.dst = mgmtNode then s.mgmtTarget k
  else if k.dst = linkNode then s.linkTarget k
  else if agent = 2 then (match k.body with
    | .delegated ia w op b tag => s.once k fun s => s.atomicEngine k ia w op b tag
    | _ => s.dropPacket k)
  else if agent = 5 then (match k.body with
    | .transit h b => s.portSend (k.dst / 256 % 4) (h, b)
    | _ => s.egressTarget k)
  else if agent = 6 then (match k.body with
    | .record r => s.once k fun s => some (s.recordOut k r)
    | _ => s.dropPacket k)
  else s.dropPacket k
/-- A request, event or bulk packet at its destination; one for a node that is cut off is answered by the boundary routers (R40). -/
def State.target (s : State) (k : Packet) : State :=
  if s.nodeCut k.dst && routerOf k.dst k.src ≠ routerOf k.src k.dst then s.turnedAway k (.nack .fenced)
  else if k.dst < 0x400 then s.coreTarget k
  else if k.dst < 0x800 then s.sliceTarget k
  else if k.dst < 0xC00 then s.agentTarget k
  else s.dropPacket k

/-- An egress agent answers an access that its peer cannot (R71, R74). -/
def State.answerDown (s : State) (node : Nat) (f : Fwd) : State :=
  let s := s.setNode node { s.node node with forward := (s.node node).forward.erase f }
  match f.packet.body with
  | .delegated _ _ _ _ tag => s.sendRecord node f.packet.src f.packet.vt (ramoRecord 8 tag f.packet.vt 0#64)
  | b => s.answer f.packet (b.reply (.fault 0x08#8 0#4) []) b.kept
/-- A peer goes DOWN (R71): every outstanding access to it is answered, and its members of the gangs count as departed (R138). -/
def State.peerDown (s : State) (dev : Nat) (reason : PeerReason) : State :=
  if !s.peerLive dev then s
  else
    let s := s.modFw fun w => { w with peers := tblSet w.peers dev (false, reason) }
    let s := s.nodes.foldl (fun s e =>
      if 0x800 ≤ e.1 && e.1 % 256 = 5 then
        (e.2.forward.filter fun f => (f.packet.body.ia?).any fun a => a / 2 ^ 48 % 256 = dev).foldl (fun s f => s.answerDown e.1 f) s
      else s) s
    { s with gangs := s.gangs.map fun (g : Gang) =>
      let gone := g.entries.filter fun e => e.dev == dev
      if gone.isEmpty then g else { g with departed := gone.foldl (fun l e => setIns l e.member) g.departed, peerLost := true } }

/-! ## Answers at the requester -/

/-- The outstanding request that an answer names (R36, R37). -/
def State.asked (s : State) (k : Packet) : Option Req := s.reqs.find? fun r => r.src == k.dst && r.dst == k.src && r.ns == k.ns && r.seq == k.seq && !r.parked
/-- Put a request. -/
def State.putReq (s : State) (r r' : Req) : State := { s with reqs := s.reqs.map fun q => if q == r then r' else q }
/-- An answer that finds no reserved slot is dropped and counted (R37); responses to a fenced core, and those that no live link brings
to their node, are discarded (R40, R147). -/
def State.withAsked (s : State) (k : Packet) (f : Req → State) : State :=
  if (k.dst < 0x400 && (s.core k.dst).fenced) || s.nodeCut k.dst then s
  else match k.body, s.asked k with
    | .transit .., _ => s.target k
    | _, none => s.dropPacket k
    | _, some r => f r
/-- The final answer of a request, and the next packet that its window held back. -/
def State.final (s : State) (k : Packet) (r : Req) (bytes : List Byte) (ans : Answer) : State := (s.complete r bytes ans).unpark k.dst
/-- An event answered FULL goes back to its retry slot; a record waits at its agent (R36, R176). A further refusal of a request that is
neither is final as lost. -/
def State.refusedFull (s : State) (k : Packet) (r : Req) : State :=
  match r.use with
  | .event _ =>
    ({ (s.modCore r.src fun c => c.risen { c with evSlots := c.evSlots.map fun (v : EvSlot) => if v.isFor r.dst then { v with retry := true, at0 := s.time } else v })
      with reqs := s.reqs.erase r }).unpark k.dst
  | .record => s.putReq r { r with parked := true, waiting := true, sent := s.time }
  | _ => (s.lost r).unpark k.dst
/-- The wait after BUSY: 64 handshakes, doubling up to 4,096 (R28). -/
def busyWait (n : Nat) : Nat := 64 * 2 ^ min n 6
/-- A negative acknowledgement at the requester (R28). -/
def State.refused (s : State) (k : Packet) (r : Req) : Nack → State
  | .full => s.refusedFull k r
  | .busy => s.putReq r { r with backoff := some (busyWait r.busy), busy := r.busy + 1, sent := s.time }
  | .fenced => s.final k r [] (.fault 0x09#8 0#4)
  | .nocore => s.final k r [] (.fault 0x04#8 5#4)
  | .stale => (s.lost r).unpark k.dst
/-- Inject a request again with RETRY = 1; a resend after BUSY or a lost notice counts as a new send in the current colour (R132). -/
def State.resend (s : State) (r : Req) (tries : Nat) (counts : Bool) : State :=
  let r' := { r with tries := tries, sent := s.time, backoff := none, colour := if counts then s.colourOf r.src else r.colour }
  (s.putReq r r').inject (r'.packet true) counts
/-! ## The rows of packets -/

/-- READ (R183): a read at its home, answered with data. -/
def execRead (k : Nat) (s : State) : Out :=
  match s.takePacket k fun b => (match b with | .read .. => true | _ => false) with
  | some (p, s') => .next (s'.target p)
  | none => .next s
/-- WRITE (R182): a write at its home, acknowledged. -/
def execWrite (k : Nat) (s : State) : Out :=
  match s.takePacket k fun b => (match b with | .write .. => true | _ => false) with
  | some (p, s') => .next (s'.target p)
  | none => .next s
/-- ATOMIC_WITH_RETURN (R316): an atomic at its home, its reply retained. -/
def execAtomicWithReturn (k : Nat) (s : State) : Out :=
  match s.takePacket k fun b => (match b with | .atomic .. | .cas .. => true | _ => false) with
  | some (p, s') => .next (s'.target p)
  | none => .next s
/-- REDUCTION (R193): a reduction at its home, acknowledged. -/
def execReduction (k : Nat) (s : State) : Out :=
  match s.takePacket k fun b => (match b with | .reduce .. => true | _ => false) with
  | some (p, s') => .next (s'.target p)
  | none => .next s
/-- TAGGED_OPERATION (R160): performed at the bank, or waiting there, or BUSY. -/
def execTaggedOperation (k : Nat) (s : State) : Out :=
  match s.takePacket k fun b => (match b with | .tagged .. => true | _ => false) with
  | some (p, s') => .next (s'.target p)
  | none => .next s
/-- EXCHANGE_STORE (R162, R200): into the receiver's shadow half, its tag set. -/
def execExchangeStore (k : Nat) (s : State) : Out :=
  match s.takePacket k fun b => (match b with | .xst .. => true | _ => false) with
  | some (p, s') => .next (s'.target p)
  | none => .next s
/-- DEPENDENCE_DECREMENT (R115). -/
def execDependenceDecrement (k : Nat) (s : State) : Out :=
  match s.takePacket k fun b => (match b with | .tdec .. => true | _ => false) with
  | some (p, s') => .next (s'.target p)
  | none => .next s
/-- MATRIX_COMMAND (R171, R380). -/
def execMatrixCommand (k : Nat) (s : State) : Out :=
  match s.takePacket k fun b => (match b with | .matrix .. => true | _ => false) with
  | some (p, s') => .next (s'.target p)
  | none => .next s
/-- DELEGATED_ATOMIC (R73, R74). -/
def execDelegatedAtomic (k : Nat) (s : State) : Out :=
  match s.takePacket k fun b => (match b with | .delegated .. => true | _ => false) with
  | some (p, s') => .next (s'.target p)
  | none => .next s
/-- BULK_READ_REQUEST (R27). -/
def execBulkReadRequest (k : Nat) (s : State) : Out :=
  match s.takePacket k fun b => (match b with | .bulkRead .. => true | _ => false) with
  | some (p, s') => .next (s'.target p)
  | none => .next s
/-- WAIT_WITHDRAWAL (R161). -/
def execWaitWithdrawal (k : Nat) (s : State) : Out :=
  match s.takePacket k fun b => (match b with | .withdraw .. => true | _ => false) with
  | some (p, s') => .next (s'.target p)
  | none => .next s
/-- EVENT (R174): an event or a record at an inbox. -/
def execEvent (k : Nat) (s : State) : Out :=
  match s.takePacket k fun b => (match b with | .event .. | .record _ => true | _ => false) with
  | some (p, s') => .next (s'.target p)
  | none => .next s
/-- STEP_MODE_NEIGHBOUR_TRANSFER (R390). -/
def execStepModeNeighbourTransfer (k : Nat) (s : State) : Out :=
  match s.takePacket k fun b => (match b with | .neighbour .. => true | _ => false) with
  | some (p, s') => .next (s'.target p)
  | none => .next s
/-- BULK_WRITE (R27, R111): at its home; into DQIN a remote push. -/
def execBulkWrite (k : Nat) (s : State) : Out :=
  match s.takePacket k fun b => (match b with | .bulkWrite .. => true | _ => false) with
  | some (p, s') => .next (s'.target p)
  | none => .next s
/-- THREAD_CONTEXT (R155). -/
def execThreadContext (k : Nat) (s : State) : Out :=
  match s.takePacket k fun b => (match b with | .context .. => true | _ => false) with
  | some (p, s') => .next (s'.target p)
  | none => .next s
/-- DEBUG_ACCESS (R217): a core's register windows, answered to the management core. -/
def execDebugAccess (k : Nat) (s : State) : Out :=
  match s.takePacket k fun b => (match b with | .debugAccess _ => true | _ => false) with
  | some (p, s') => .next (if p.dst < 0x400 && p.src = mgmtNode then s'.coreTarget p else s'.dropPacket p)
  | none => .next s
/-- FORWARDED_REQUEST (R34). -/
def execForwardedRequest (k : Nat) (s : State) : Out :=
  match s.takePacket k fun b => (match b with | .forwarded .. => true | _ => false) with
  | some (p, s') => .next (if p.dst = linkNode then s'.linkTarget p else s'.dropPacket p)
  | none => .next s
/-- PROBE (R34, R77): the host gives the line up, and the credit returns. -/
def execProbe (k : Nat) (s : State) : Out :=
  match s.takePacket k fun b => (match b with | .probe _ => true | _ => false) with
  | some (p, s') => .next (if p.dst = linkNode then s'.linkTarget p else s'.dropPacket p)
  | none => .next s
/-- PROBE_REPLY (R34): the credit and the forward slot return; a request that waited for its probe is performed. -/
def execProbeReply (k : Nat) (s : State) : Out :=
  match s.takePacket k fun b => (match b with | .probeReply _ => true | _ => false) with
  | some (p, s') =>
    let nd := s'.node p.dst
    let name := match p.body with
      | .probeReply (some n) => n
      | _ => (p.ns, p.seq)
    (match nd.forward.find? fun f => f.sent && f.node == p.src && f.ns == name.1 && f.seq == name.2 with
    | none => .next (s'.dropPacket p)
    | some f =>
      let s1 := (s'.setNode p.dst { nd with forward := nd.forward.erase f }).forwardNext p.dst (p.src / 256)
      .next (if f.probe then s1.homeAnswer f.packet ((f.packet.body.ia?.getD 0) % 2 ^ 47) else s1))
  | none => .next s
/-- REPLY_WITH_DATA (R37): the reserved slot, the pending register; or dropped and counted. -/
def execReplyWithData (k : Nat) (s : State) : Out :=
  match s.takePacket k fun b => (match b with | .data .. | .debugReply _ => true | _ => false) with
  | some (p, s') => .next (s'.withAsked p fun r => match p.body with
    | .data bs ans => s'.final p r bs ans
    | .debugReply v => s'.final p r (bytesOf v 8) .ok
    | _ => s')
  | none => .next s
/-- BULK_READ_DATA (R27). -/
def execBulkReadData (k : Nat) (s : State) : Out :=
  match s.takePacket k fun b => (match b with | .bulkData .. => true | _ => false) with
  | some (p, s') => .next (s'.withAsked p fun r => match p.body with
    | .bulkData bs ans => s'.final p r bs ans
    | _ => s')
  | none => .next s
/-- ACKNOWLEDGEMENT (R37, R38): the slot is released and the operation completes; WAITING stops the timer. -/
def execAcknowledgement (k : Nat) (s : State) : Out :=
  match s.takePacket k fun b => (match b with | .ack .. => true | _ => false) with
  | some (p, s') => .next (s'.withAsked p fun r => match p.body with
    | .ack true _ =>
      let s1 := s'.putReq r { r with waiting := true, tries := 0, sent := s.time }
      (match r.use with
       | .ingress h => s1.peerReply r.src h (.ack true .ok)
       | _ => s1)
    | .ack false ans => s'.final p r [] ans
    | _ => s')
  | none => .next s
/-- NEGATIVE_ACKNOWLEDGEMENT (R28). -/
def execNegativeAcknowledgement (k : Nat) (s : State) : Out :=
  match s.takePacket k fun b => (match b with | .nack _ => true | _ => false) with
  | some (p, s') => .next (s'.withAsked p fun r => match p.body with
    | .nack st => s'.refused p r st
    | _ => s')
  | none => .next s
/-- MIGRATION_REFUSAL (R155): the thread runs on where it was, and its access is made remotely. -/
def execMigrationRefusal (k : Nat) (s : State) : Out :=
  match s.takePacket k fun b => (match b with | .migRefusal => true | _ => false) with
  | some (p, s') => .next (s'.withAsked p fun r => s'.final p r [] (.fault 0x04#8 0#4))
  | none => .next s
/-- SPACE_NOTICE (R175, R176): the retry slot for the notice's source resends. A record of the core's own takes its entry. -/
def execSpaceNotice (k : Nat) (s : State) : Out :=
  match s.takePacket k fun b => (match b with | .space => true | _ => false) with
  | none => .next s
  | some (p, s') =>
    if p.dst < 0x400 then
      match (s'.core p.dst).evSlots.find? fun v => v.dst == p.src && v.retry with
      | none => .next s'
      | some v => match v.body with
        | .record r => .next ((s'.modCore p.dst fun c => { c with evSlots := c.evSlots.erase v }).ownRecord p.dst r)
        | _ => .next (s'.sendSlot p.dst v)
    else match s'.reqs.find? fun r => r.src == p.dst && r.dst == p.src && r.use == .record && r.parked && r.waiting with
      | none => .next s'
      | some r => .next (s'.reissue r)

/-! ## Timers of requests -/

/-- The retries of a request are exhausted (R36, R71): a peer it was for goes DOWN, and the access is lost. -/
def State.exhausted (s : State) (r : Req) : State :=
  ((if r.toPeer then s.peerDown (((r.body.ia?.getD 0) / 2 ^ 48) % 256) .retriesExhausted else s).lost r).unpark r.src

/-- RETRY_TIMEOUT (R36): 50 µs in the package and 2 ms for a peer without an answer; after three retries the access is lost. -/
def execRetryTimeout (i : Nat) (s : State) : Out :=
  match s.reqs[i]? with
  | none => .next s
  | some r =>
    let limit := if r.toPeer then 2000000 else 50000
    if r.parked || r.waiting || r.backoff.isSome || (s.time - r.sent).toNat < limit then .next s
    else if r.tries < 3 then .next (s.resend r (r.tries + 1) false)
    else .next (s.exhausted r)
/-- BUSY_BACKOFF_EXPIRY (R28): the wait in handshakes of a quarter ns is over, and the request goes again. -/
def execBusyBackoffExpiry (i : Nat) (s : State) : Out :=
  match s.reqs[i]? with
  | none => .next s
  | some r => match r.backoff with
    | none => .next s
    | some n => if (s.time - r.sent).toNat * 4 < n then .next s else .next (s.resend r r.tries true)
/-- WAIT_RESEND (R38): a waiting tagged operation goes again every 1 ms; three resends without an answer lose it. -/
def execWaitResend (i : Nat) (s : State) : Out :=
  match s.reqs[i]? with
  | none => .next s
  | some r =>
    let tagged : Bool := match r.use with
      | .tagged .. => true
      | _ => false
    if !tagged || !r.waiting || (s.time - r.sent).toNat < 1000000 then .next s
    else if r.tries < 3 then
      .next (s.resend r (r.tries + 1) false)
    else .next (s.exhausted r)

end Sys2Proof.Machine
end

