-- ==== Sys2Proof/Machine/Commands.lean ====
section
/-! DEFINITION. The service of the command queues (R82, R83, R85, R87) and the commands NOP, COPY, FILL, SIGNAL, WAIT and RECT
(R89). -/
namespace Sys2Proof.Machine

/-! ## Entries -/

/-- n bytes of an entry as a number. -/
def entNat (e : List Byte) (o n : Nat) : Nat := natOfBytes ((e.drop o).take n)
/-- Eight bytes of an entry. -/
def entWord (e : List Byte) (o : Nat) : Word := wordOf ((e.drop o).take 8)
/-- OPC. -/
def entOpc (e : List Byte) : Nat := entNat e 0 1
/-- FENCE. -/
def entFence (e : List Byte) : Bool := (e.getD 1 0#8).getLsbD 0
/-- NOCPL. -/
def entNocpl (e : List Byte) : Bool := (e.getD 1 0#8).getLsbD 1
/-- TAG. -/
def entTag (e : List Byte) : BitVec 16 := BitVec.ofNat 16 (entNat e 2 2)
/-- SUB. -/
def entSub (e : List Byte) : Nat := entNat e 4 1

/-- The descriptor of LEASE. -/
def entLease (e : List Byte) : Nat := entNat e 16 16

/-- The command assigns the SUB (R85 step 2, R89, R91, R95). -/
def subOk (opc sub : Nat) : Bool :=
  match opc with
  | 0x09 => sub ≤ 1
  | 0x0A => sub ≤ 2
  | 0x0B => if sub < 0x80 then 1 ≤ sub && sub ≤ 0xB else [2, 3, 4, 5, 8].contains (sub - 0x80)
  | 0x0E => sub ≤ 3
  | 0x0F => sub ≤ 4
  | 0x11 => sub ≤ 2
  | _ => sub = 0
/-- The operand bytes of a command, as first byte and length (R89, R92, R95). -/
def operands (opc sub : Nat) : List (Nat × Nat) :=
  match opc with
  | 0x01 => [(8, 4), (16, 8)]
  | 0x02 | 0x03 | 0x04 => [(8, 4)]
  | 0x05 => [(8, 4), (16, 16)]
  | 0x06 => [(8, 5)]
  | 0x07 => [(16, 24)]
  | 0x08 => [(16, 8), (32, 16)]
  | 0x09 => [(16, 16)]
  | 0x0A => [(16, 20)]
  | 0x0B => (16, 8) :: (match sub with
    | 0x05 | 0x0B => [(24, 1)]
    | 0x82 => [(24, 16)]
    | 0x83 => [(24, 11)]
    | 0x84 => [(24, 13)]
    | 0x85 => [(24, 2), (32, 8)]
    | _ => [])
  | 0x0C => [(8, 8)]
  | 0x0D => [(8, 6), (16, 4)]
  | 0x0E => (match sub with
    | 0 => [(16, 8)]
    | 1 => [(8, 1)]
    | 2 => [(8, 1), (16, 8)]
    | _ => [(8, 2), (12, 4)])
  | 0x0F => [(16, 15)]
  | 0x10 => [(16, 40)]
  | 0x11 => [(16, 8)]
  | _ => []
/-- A reserved field of the entry is nonzero (R85 step 3); the reserved bits of a lease descriptor stand among the operands (R59). -/
def reservedSet (e : List Byte) : Bool :=
  let ops := operands (entOpc e) (entSub e)
  (e.getD 1 0#8).toNat / 4 ≠ 0 ∨ entNat e 5 3 ≠ 0 ∨
  ((List.range 56).any fun i => !(ops.any fun o => o.1 ≤ i + 8 && i + 8 < o.1 + o.2) && e.getD (i + 8) 0#8 != 0#8) ∨
  (entOpc e = 0x0B ∧ entSub e = 0x85 ∧ entNat e 25 1 ≠ 0 ∧ entNat e 32 8 ≠ 0) ∨
  (entOpc e = 0x05 ∧ (entNat e 23 1 ≠ 0 ∨ entNat e 28 4 / 32 ≠ 0))
/-- The command is accepted on the queue (R87). -/
def State.accepted (s : State) (q : Nat) (e : List Byte) : Bool :=
  let dev := (s.queue q).inDevice
  if q = 0 then true
  else match entOpc e with
    | 0x03 | 0x04 | 0x05 | 0x06 | 0x0D | 0x0E => !dev
    | 0x0B => entSub e < 0x80
    | 0x0C | 0x0F | 0x10 | 0x11 => false
    | _ => true
/-- The first failure of an entry before the command's own checks (R85, R87), as a status. -/
def State.badEntry (s : State) (q : Nat) (e : List Byte) : Option Nat :=
  if 0x12 ≤ entOpc e ∨ !subOk (entOpc e) (entSub e) then some 0x01
  else if reservedSet e then some 0x02
  else if entTag e = 0xFFFF#16 then some 0x03
  else if !s.accepted q e then some 0x09
  else none

/-! ## Service -/

/-- Read the new entries of a command ring (R82). -/
def State.readEntries (s : State) (v : Queue) : Nat → List (Nat × List Byte)
  | 0 => []
  | n + 1 => s.readEntries v n ++ [(v.rp + n, s.fwLoad (v.base + BitVec.ofNat 64 ((v.rp + n) % v.slots * 64)) 64)]
/-- Firmware sees a submit line (R82): its pointers are checked, and the new entries read, for which slots are always free (assumption
79). A queue that is halted or no longer served has its CRP read while completions of it are held (R83). -/
def State.readSubmit (s : State) (q : Nat) : State :=
  let v := s.queue q
  if !s.fw.ready then s
  else if !v.en || v.state ≠ 1 then
    let crp := natOfBytes (s.fwLoad (v.sub + 8#64) 8)
    if v.heldCpl.isEmpty || crp < v.crpLast || v.cwp < crp then s
    else (s.setQueue q { v with crpLast := crp }).postHeld q (v.heldCpl.length + 1)
  else
    let wp := natOfBytes (s.fwLoad v.sub 8)
    let crp := natOfBytes (s.fwLoad (v.sub + 8#64) 8)
    if wp < v.wpLast ∨ crp < v.crpLast then s.haltQueue q 2
    else if v.cwp < crp then s.haltQueue q 4
    else if v.slots < wp - v.rp then s.haltQueue q 1
    else if wp = v.wpLast ∧ crp = v.crpLast then s
    else
      let v' := { v with wpLast := wp, crpLast := crp, pending := v.pending ++ s.readEntries v (wp - v.rp), rp := wp }
      ((s.setQueue q v').postHeld q (v.heldCpl.length + 1)).writeStatus q
/-- A LEASE whose frames are taken waits, not begun (R61), and so does an UNLEASE of a lease that open checks read (R62). -/
def State.entryHeld (s : State) (e : List Byte) : Bool :=
  match s.launch? (entNat e 8 4) with
  | none => false
  | some l =>
    if entOpc e = 0x05 then
      let x := leaseOf (entLease e)
      s.leaseOk x && (addLease l.leases x).isSome && (s.leasePages [x]).length ≤ Config.leaseFrames && !s.framesFit [x]
    else entOpc e = 0x06 && (l.leases[entNat e 12 1]?).any (fun e => e.inp && e.pages ≠ 0) && s.checks.any fun k => k.lid == l.lid
/-- The head command of a queue, where nothing of its own queue holds it back (R82, R83): the queue runs, earlier commands are done for
FENCE and SIGNAL, no WAIT is open, no completion is held and the ring has room. -/
def State.headOf (s : State) (q : Nat) : Option (Nat × List Byte) :=
  let v := s.queue q
  match v.pending with
  | [] => none
  | (i, e) :: _ =>
    if !v.en || v.state ≠ 1 || !s.fw.ready || v.waiting.isSome || !v.heldCpl.isEmpty || !v.cplRoom then none
    else if (entFence e || entOpc e = 0x09) && !v.begun.isEmpty then none
    else if (s.badEntry q e).isNone && s.entryHeld e then none
    else some (i, e)
/-- The queue that is served next (R82): PRIO order, round-robin within a priority. -/
def State.serveNext (s : State) : Option Nat :=
  (List.range 4).findSome? fun pr =>
    let l := (s.fw.queues.filter fun e => e.2.prio == pr && (s.headOf e.1).isSome).map (·.1)
    (l.find? fun q => tblGetD s.fw.lastServed pr 63 < q) <|> l.head?
/-- The head command of a queue, when it is the queue's turn. -/
def State.mayBegin (s : State) (q : Nat) : Option (Nat × List Byte) := if s.serveNext = some q then s.headOf q else none
/-- Take the head command of a queue as begun. -/
def State.begin_ (s : State) (q i : Nat) (e : List Byte) : CmdRef × State :=
  let c : CmdRef := { q := q, index := i, tag := entTag e, opc := entOpc e, nocpl := entNocpl e }
  (c, (s.modQueue q fun v => { v with pending := v.pending.tail, begun := v.begun ++ [c] }).modFw fun w =>
    { w with lastServed := tblSet w.lastServed (s.queue q).prio q })
/-- Complete the head commands that fail R85 or R87, in the order of service; the count bounds them. -/
def State.rejectHeads (s : State) : Nat → State
  | 0 => s
  | n + 1 => match s.serveNext with
    | none => s
    | some q => match s.headOf q with
      | none => s
      | some (i, e) => match s.badEntry q e with
        | none => s
        | some k =>
          let x := s.begin_ q i e
          State.rejectHeads (x.2.finishCmd x.1 k) n
/-- Begin the head command of a queue when it is of an OPC and SUB; nothing happens else. -/
def command (q opc : Nat) (f : Nat → Bool) (s : State) (k : CmdRef → List Byte → State → State) : Out :=
  match s.mayBegin q with
  | none => .next s
  | some (i, e) =>
    if entOpc e = opc && f (entSub e) && (s.badEntry q e).isNone then
      let x := s.begin_ q i e
      .next (k x.1 e x.2)
    else .next s
/-- What a queue settles after a step: once its begun commands have completed it stops (R79), and once its completions are written too it is
deleted (R92). Its LAPS go on (R81). -/
def State.settleQueue (s : State) (q : Nat) : State :=
  let v := s.queue q
  if !v.begun.isEmpty then s
  else match v.deleting with
    | some c =>
      if !v.heldCpl.isEmpty then s
      else (((s.setQueue q { v with state := 0 }).writeStatus q).setQueue q { Queue.none with laps := v.laps }).finishCmd c 0
    | none => if v.stopping then (s.setQueue q { v with state := 0, stopping := false }).writeStatus q else s
/-- Status of an engine operation that a command asked for. -/
def EngineOp.status (e : EngineOp) : Nat :=
  match e.fail with
  | some c => if c = 0x05#8 then 0x0B else if c = 0x08#8 then 0x12 else 0x03
  | none => if e.poison then 0x13 else 0
/-- Complete the commands whose engine operations are done. -/
def State.settleEngines (s : State) : State :=
  s.engines.foldl (fun s e => match e.cmd with
    | some c => if e.todo.isEmpty && e.live = 0 then { s with engines := s.engines.filter fun x => x.id != e.id }.finishCmd c e.status else s
    | none => s) s
/-- The queues and the commands' engine operations. -/
def State.settleQueues (s : State) : State :=
  let s := s.settleEngines
  let s := s.rejectHeads (s.fw.queues.foldl (fun n e => n + e.2.pending.length) 1)
  s.fw.queues.foldl (fun s e => s.settleQueue e.1) s

/-- SUBMIT_LINE_UPDATE (R82): firmware sees a new WP or CRP in a submit line in device memory. -/
def execSubmitLineUpdate (q : Nat) (s : State) : Out :=
  if (s.queue q).sub.getLsbD 63 then .next s else .next (s.readSubmit q)
/-- SUBMIT_LINE_POLL (R82): firmware reads the submit lines in host memory, in PRIO order. -/
def execSubmitLinePoll (s : State) : Out :=
  let order := (List.range 4).flatMap fun pr => (s.fw.queues.filter fun e => e.2.prio == pr && e.2.sub.getLsbD 63).map (·.1)
  .next (order.foldl (fun s q => s.readSubmit q) s)
/-- AQCTL_EN_SET (R79): service of queue 0 starts or resumes with RP := WP, or it halts with ERR 3. -/
def execAqctlEnSet (s : State) : Out := .next (s.startQueue 0 true)
/-- AQCTL_EN_CLEAR (R79): service stops once the begun commands have completed. -/
def execAqctlEnClear (s : State) : Out := .next (s.stopQueue 0)
/-- QCTL_WRITE (R81). -/
def execQctlWrite (q : Nat) (v : Word) (s : State) : Out := .next (s.writeQctl q v)

/-! ## Commands of one step -/

/-- NOP (R89). -/
def execNop (q : Nat) (s : State) : Out := command q 0x00 (fun _ => true) s fun c _ s => s.finishCmd c 0
/-- An engine's address for an address in the form of R81. -/
def engineAddr (a : Word) : Nat := if a.getLsbD 63 then hostBase + (a.extractLsb' 0 52).toNat else (a.extractLsb' 0 56).toNat
/-- The transfer of a copy engine for a command; the spec does not say which I/O die's, and the model takes die 0's (assumption 88). -/
def copyOp (c : CmdRef) (src : Option Nat) (dst n : Nat) (data : List Byte) : EngineOp :=
  { id := 0, node := agentNode 0 3, slot := none, gid := 0, lid := 0, barrier := none,
    todo := [{ src := src, vsrc := 0#64, dst := dst, vdst := 0#64, n := n, data := data, bad := none }],
    live := 0, handler := false, poison := false, fail := none, cmd := some c }
/-- COPY (R89). -/
def execCopy (q : Nat) (s : State) : Out :=
  command q 0x07 (fun _ => true) s fun c e s =>
    let a := entWord e 16
    let b := entWord e 24
    let n := (entWord e 32).toNat
    let x := engineAddr a
    let y := engineAddr b
    if n = 0 ∨ 2 ^ 40 < n ∨ !s.addrOk a n ∨ !s.addrOk b n ∨ (x < y + n ∧ y < x + n) then s.finishCmd c 0x03
    else if !s.addrMapped a n ∨ !s.addrMapped b n then s.finishCmd c 0x0B
    else s.startEngine (copyOp c (some x) y n [])
/-- FILL_COMMAND (R89): byte i receives pattern byte i mod 8. -/
def execFillCommand (q : Nat) (s : State) : Out :=
  command q 0x08 (fun _ => true) s fun c e s =>
    let b := entWord e 16
    let n := (entWord e 32).toNat
    if n = 0 ∨ !s.addrOk b n then s.finishCmd c 0x03
    else if !s.addrMapped b n then s.finishCmd c 0x0B
    else s.startEngine (copyOp c none (engineAddr b) n (cyc ((e.drop 40).take 8) 128))
/-- The checks of an aligned 64-bit word that a command names. -/
def State.badWord (s : State) (a : Word) : Option Nat :=
  if a.toNat % 8 ≠ 0 ∨ !s.addrOk a 8 then some 0x03 else if !s.addrMapped a 8 then some 0x0B else none
/-- SIGNAL_WRITE (R89): a device-scope 64-bit write at the word's home. -/
def execSignalWrite (q : Nat) (s : State) : Out :=
  command q 0x09 (fun k => k = 0) s fun c e s =>
    match s.badWord (entWord e 16) with
    | some k => s.finishCmd c k
    | none => (s.fwStore (entWord e 16) (bytesOf (entWord e 24) 8)).finishCmd c 0
/-- SIGNAL_ADD (R89): a device-scope 64-bit add at the word's home. -/
def execSignalAdd (q : Nat) (s : State) : Out :=
  command q 0x09 (fun k => k = 1) s fun c e s =>
    match s.badWord (entWord e 16) with
    | some k => s.finishCmd c k
    | none => (s.fwStore (entWord e 16) (bytesOf (wordOf (s.fwLoad (entWord e 16) 8) + entWord e 24) 8)).finishCmd c 0
/-- The comparison of WAIT: 0 unsigned ≥, 1 =, 2 ≠. -/
def waitHolds (cmp : Nat) (v x : Word) : Bool := match cmp with
  | 0 => x.ule v
  | 1 => v = x
  | _ => v ≠ x
/-- WAIT (R89): it holds its queue back until the comparison or the timeout. -/
def execWait (q : Nat) (s : State) : Out :=
  command q 0x0A (fun _ => true) s fun c e s =>
    match s.badWord (entWord e 16) with
    | some k => s.finishCmd c k
    | none =>
      if waitHolds (entSub e) (wordOf (s.fwLoad (entWord e 16) 8)) (entWord e 24) then s.finishCmd c 0
      else
        let w : WaitCmd := { cmd := c, cmp := entSub e, addr := entWord e 16, value := entWord e 24, timeout := entNat e 32 4, since := s.time }
        s.modQueue q fun v => { v with waiting := some w }
/-- The WAIT of a queue ends with a status. -/
def State.endWait (s : State) (q : Nat) (c : CmdRef) (status : Nat) : State := (s.modQueue q fun v => { v with waiting := none }).finishCmd c status
/-- WAIT_CONDITION_MET (R89). -/
def execWaitConditionMet (q : Nat) (s : State) : Out :=
  match (s.queue q).waiting with
  | none => .next s
  | some w => .next (if waitHolds w.cmp (wordOf (s.fwLoad w.addr 8)) w.value then s.endWait q w.cmd 0 else s)
/-- WAIT_TIMEOUT (R89). -/
def execWaitTimeout (q : Nat) (s : State) : Out :=
  match (s.queue q).waiting with
  | none => .next s
  | some w => .next (if w.timeout ≠ 0 && w.timeout * 1000 ≤ (s.time - w.since).toNat then s.endWait q w.cmd 0x0C else s)

/-! ## Rectangles and clock points (R13, R14, R89, R146) -/

/-- Two rectangles share a position. -/
def Rect.overlaps (a b : Rect) : Bool := a.x0 < b.x0 + b.w && b.x0 < a.x0 + a.w && a.y0 < b.y0 + b.h && b.y0 < a.y0 + a.h
/-- A live launch names the rectangle (R146). -/
def State.rectBusy (s : State) (i : Nat) : Bool := s.launches.any (fun l => l.rect == i) || (s.fw.rects.toList[i]?).any (·.active)
/-- Put a rectangle; the expert caps end (R91). -/
def State.putRect (s : State) (i : Nat) (r : Rect) : State :=
  ((s.modRect i fun _ => r).modFw fun w => { w with basins := w.basins.map fun (b : Basin) => { b with expert := none } }).applyPoints
/-- The BADFIELD checks of RECT that its two forms share. -/
def rectField (e : List Byte) : Bool := 16 ≤ entNat e 8 1 || 2 ≤ entNat e 15 1
/-- RECT_DEFINE (R89). -/
def execRectDefine (q : Nat) (s : State) : Out :=
  match s.mayBegin q with
  | none => .next s
  | some (_, e) =>
    if entNat e 15 1 = 1 then .next s
    else command q 0x0C (fun _ => true) s fun c e s =>
      let i := entNat e 8 1
      let r : Rect := { Rect.whole with
        x0 := entNat e 9 1, y0 := entNat e 10 1, w := entNat e 11 1 + 1, h := entNat e 12 1 + 1, contain := entNat e 13 1 = 1, cap := entNat e 14 1 }
      if rectField e ∨ 32 < r.x0 + r.w ∨ 32 < r.y0 + r.h ∨ 1 < entNat e 13 1 ∨ 4 < r.cap
          ∨ (List.range 16).any (fun j => j != i && (s.fw.rects.toList[j]?).any fun o => o.defined && r.overlaps o) = true then s.finishCmd c 0x03
      else if s.rectBusy i then s.finishCmd c 0x05
      else (s.putRect i r).finishCmd c 0
/-- RECT_DELETE (R89). -/
def execRectDelete (q : Nat) (s : State) : Out :=
  match s.mayBegin q with
  | none => .next s
  | some (_, e) =>
    if entNat e 15 1 ≠ 1 then .next s
    else command q 0x0C (fun _ => true) s fun c e s =>
      let i := entNat e 8 1
      if rectField e ∨ i = 0 then s.finishCmd c 0x03
      else if !((s.fw.rects.toList[i]?).any (·.defined)) then s.finishCmd c 0x04
      else if s.rectBusy i then s.finishCmd c 0x05
      else (s.putRect i Rect.none).finishCmd c 0

end Sys2Proof.Machine
end

