-- ==== Sys2Proof/Machine/Ends.lean ====
section
/-! DEFINITION. What follows from an instruction or a happening without a decision of anyone (R102, R109, R138, R201, R212, R326,
R327): barriers whose last arrival is in, groups whose last thread has exited, terminations whose accesses have drained. -/
namespace Sys2Proof.Machine

/-! ## Barriers -/

/-- Complete the threads of a group that sleep at a barrier or whose arrival stands; each invalidates in the L1 of the core where
it runs what a test names (R201). -/
def State.completeAt (s : State) (hp gid : Nat) (w : Sleep) (inv : Option (Nat → Bool)) : State :=
  (s.threadsOf hp gid).foldl (fun s x =>
    if x.2.2.run = .sleeping w ∨ x.2.2.arrived = some w then
      let s := s.setThread x.1 x.2.1 (x.2.2.finish s.time)
      match inv with
      | some f => s.l1Inv x.1 f
      | none => s
    else s) s
/-- Complete level k for a group: the whole L1 at scope .v or .s, the bound regions otherwise. -/
def State.completeLevel (s : State) (hp : Nat) (g : Group) (k : Nat) (sc : Scope) : State :=
  let s := s.modGroup hp g.gid fun g => { g with arrivals := g.arrivals.filter fun a => a.1 != k }
  s.completeAt hp g.gid (.bar k) (some fun line => sc = .v || sc = .s || g.binds.any fun b => lineMeets line b.region (2 ^ b.log2))
/-- Every thread of a group that has not exited has arrived at level k. -/
def Group.allArrived (g : Group) (k : Nat) : Bool := g.exited < g.size && g.size - g.exited ≤ (g.arrivals.filter fun a => a.1 == k).length
/-- The instance of a level's domain that holds a position (R101). -/
def instanceOf (dom p : Nat) : Nat :=
  match dom with
  | 2 => p
  | 3 => daleOf p
  | 4 => basinOf p
  | 5 => quadOf p
  | _ => 0
/-- The core at a position has arrived at level k through its barrier member. -/
def State.coreArrived (s : State) (p k : Nat) : Bool :=
  let c := s.core p
  match c.member.bind c.group? with
  | some g => g.allArrived k
  | none => false
/-- Complete the instances of a level that are full (R102, R326): as many cores have arrived as had a role in the instance at the launch. The gang level waits for GANG_BARRIER_RELEASE. -/
def State.settleLevel (s : State) (l : Launch) (k dom : Nat) (sc : Scope) : State :=
  if dom ≤ 1 then
    s.cores.foldl (fun s pc => if pc.2.lid = l.lid then (pc.2.groups.filter fun g => g.allArrived k).foldl (fun s g => s.completeLevel pc.1 g k sc) s else s) s
  else if dom = 7 then s
  else
    let count (i : Nat) : Nat := ((l.parts.filterMap l.posOfLogical).filter fun q => instanceOf dom q = i).length
    let arrived := l.cores.filter fun p => s.coreArrived p k
    let full := arrived.filter fun p =>
      let i := instanceOf dom p
      count i ≤ (arrived.filter fun q => instanceOf dom q = i).length
    full.foldl (fun s p => match (s.core p).member.bind (s.core p).group? with
      | some g => s.completeLevel p g k sc
      | none => s) s
/-- Swap the exchange region (R163). -/
def Core.swap (c : Core) : Core := if c.exEn then { c with exSel := !c.exSel, exSwaps := c.exSwaps + 1#32 } else c
/-- Complete `bar.x` of a group that is full (R327). -/
def State.settleBarX (s : State) (p : Nat) (g : Group) : State :=
  if g.exited < g.size && g.size - g.exited ≤ g.barX.length then
    ((s.modCore p Core.swap).modGroup p g.gid fun g => { g with barX := [] }).completeAt p g.gid .barX none
  else s
/-- A full `bar.t` presents the core's arrival at the barrier tree once its transfers have landed (R390). -/
def State.settleBarT (s : State) (p : Nat) (g : Group) : State :=
  if g.exited < g.size && g.size - g.exited ≤ g.barT.length && !(s.net.any fun k => k.src == p && (match k.body with
    | .neighbour .. => true
    | _ => false)) then s.modCore p fun c => { c with barArr := true }
  else s
/-- Every barrier of every launch. -/
def State.settleBars (s : State) : State :=
  let s := s.launches.foldl (fun s l => l.levels.foldl (fun s e => s.settleLevel l e.1 e.2.1 e.2.2) s) s
  s.cores.foldl (fun s pc => pc.2.groups.foldl (fun s g => (s.settleBarX pc.1 g).settleBarT pc.1 g) s) s

/-! ## Ends of groups -/

/-- The gang of a launch. -/
def State.gangOf (s : State) (l : Launch) : Option Gang := s.gangs.find? fun g => g.lid == l.lid && g.id == l.gang
/-- A member departs (R138): its module's map holds it, and DETACH goes to the other modules. -/
def State.depart (s : State) (l : Launch) (m : Nat) : State :=
  { s with gangs := s.gangs.map fun g => if g.lid = l.lid ∧ g.id = l.gang then { g with departed := setIns g.departed m } else g }
/-- Every member of the gang has departed. -/
def Gang.allDeparted (g : Gang) : Bool := g.entries.all fun e => g.departed.contains e.member

/-- Remove a group: its allocation departs, its barrier membership ends (R54, R102, R109). -/
def Core.removeGroup (c : Core) (g : Group) : Core :=
  { c with groups := c.groups.filter fun x => x.gid != g.gid, departed := c.departed ++ [(g.base, g.len, g.gen)],
           member := if c.member = some g.gid then none else c.member,
           dbgstat := if c.groups.any fun x => x.gid != g.gid && x.stopped.isSome then c.dbgstat else c.dbgstat &&& ~~~1#64 }
/-- A group whose last thread has exited ends: a gang member's exit is held until every member has departed (R138). -/
def State.endGroup (s : State) (p : Nat) (g : Group) : State :=
  match s.launch? g.lid with
  | none => s.modCore p fun c => c.removeGroup g
  | some l =>
    let s := match g.member with
      | some m => s.depart l m
      | none => s
    if g.member.isSome && !((s.gangOf l).any Gang.allDeparted) then s.modGroup p g.gid fun g => { g with heldExit := true }
    else
      let s := s.modCore p fun c => c.removeGroup g
      match g.check with
      | some k => s.checkRunEnd k g.digest
      | none => s.candidateEnd p l g
/-- A terminated group: its accesses answered or 10 ms past, the dale's reductions flushed; the dump and the record are written and
the group ends (R212, R215). -/
def State.settleDying (s : State) (p : Nat) (g : Group) (d : Dying) : State :=
  let late := 10000000 ≤ (s.time - d.time).toNat
  let open0 := s.groupBusy p g.gid
  let r := s.flushDale (daleOf p) fun _ => true
  if !late && (!open0.isEmpty || !r.2.isEmpty || s.headsLeft p g.gid) then r.1
  else
    let g := { g with indet := g.indet + open0.length, badList := (g.badList ++ open0.map fun r => r.badEntry .ok).take 512 }
    let s := if g.check.isSome then r.1 else r.1.recordTermination p g d
    let s := (s.threadsOf p g.gid).foldl (fun s x => s.modCore x.1 fun c =>
      let c := { c with threads := tblErase c.threads x.2.1 }
      match x.2.2.ctx with
      | some k => c.modCtx k fun v => { v with owner := none, queue := [], issued := 0, part := false, next := 0, fault := none, sends := [] }
      | none => c) s
    let s := { s with reqs := s.reqs.filter fun r => !open0.contains r }
    let s := s.modCore p fun c =>
      let mine (o : TileOp) : Bool := o.slot.isSome && o.gid == g.gid
      { c with tiles := c.tiles.filter fun o => !mine o, tileBusy := if c.tileBusy = some false ∧ c.tiles.head?.any mine then none else c.tileBusy }
    match g.check, s.launch? g.lid with
    | some k, _ => (s.modCore p fun c => c.removeGroup g).checkRunEnd { k with void := true } g.digest
    | none, some l =>
      let s := match g.member with
        | some m => s.depart l m
        | none => s
      s.modCore p fun c => c.removeGroup g
    | none, none => s.modCore p fun c => c.removeGroup g
/-- A thread is awake: it is not in `evwait`. -/
def Thread.awake (t : Thread) : Bool := match t.run with
  | .sleeping (.events _) => false
  | _ => true
/-- The home cores of threads that are awake elsewhere (R130). -/
def State.settleAway (s : State) : State :=
  let homes := (s.cores.map fun pc => (pc.2.threads.filter fun st => st.2.awake).filterMap fun st => st.2.home.map (·.1)).flatten
  { s with cores := tblMap (fun p (c : Core) => if c.awayAwake = homes.contains p then c else { c with awayAwake := homes.contains p }) s.cores }
/-- Groups that end now. -/
def State.settleGroups (s : State) : State :=
  s.cores.foldl (fun s pc => pc.2.groups.foldl (fun s g =>
    match g.dying with
    | some d => s.settleDying pc.1 g d
    | none => if g.exited < g.size || g.heldExit then s else s.endGroup pc.1 g) s) s
/-- A member that has detached departs (R138). -/
def State.settleDetached (s : State) : State :=
  s.cores.foldl (fun s pc => pc.2.groups.foldl (fun s g =>
    match g.member, s.launch? g.lid with
    | some m, some l => if g.detached && !((s.gangOf l).any fun x => x.departed.contains m) then s.depart l m else s
    | _, _ => s) s) s
/-- Held exits are released when every member has departed (R138). -/
def State.settleHeld (s : State) : State :=
  s.cores.foldl (fun s pc => pc.2.groups.foldl (fun s g =>
    match s.launch? g.lid with
    | some l => if g.heldExit && (s.gangOf l).any Gang.allDeparted then (s.modCore pc.1 fun c => c.removeGroup g) else s
    | none => s) s) s

end Sys2Proof.Machine
end

