-- ==== Sys2Proof/Machine/Query.lean ====
section
/-! DEFINITION. QUERY in its get and set forms (R91, R92), ATTEST (R99) and DEBUG TOKEN (R100, R228, R229). -/
namespace Sys2Proof.Machine

/-! ## Get forms -/

/-- The buffer of a get form: 64-byte aligned with room for LEN bytes (R92); the status of the first failure. -/
def State.badBuffer (s : State) (a : Word) (n align : Nat) : Option Nat :=
  if a.toNat % align ≠ 0 ∨ !s.addrOk a n then some 0x03 else if !s.addrMapped a n then some 0x0B else none
/-- A get form's buffer: header, then content; or the failure (R92). -/
def State.putResult (s : State) (c : CmdRef) (item : Nat) (buf : Word) (content : List Byte) : State :=
  let n := content.length + 16
  match s.badBuffer buf n 64 with
  | some k => s.finishCmd c k
  | none => (s.fwStore buf (bytesOfNat item 4 ++ bytesOfNat n 4 ++ bytesOf s.time 8 ++ content)).finishCmd c 0
/-- Begin the head command when it is the get form of an item. -/
def queryGet (q item : Nat) (s : State) (content : State → List Byte) : Out :=
  command q 0x0B (fun k => k = item) s fun c e s => s.putResult c item (entWord e 16) (content s)
/-- A bitmap of 128 bytes over the positions. -/
def bitmap (f : Nat → Bool) : List Byte :=
  (List.range 128).map fun i => (List.range 8).foldl (fun (b : Byte) j => if f (8 * i + j) then b ||| (1#8 <<< j) else b) 0#8
/-- The logical number of a position in the map in force, or 0xFFFF (R92). -/
def State.logicalOf (s : State) (p : Nat) : Nat := ((s.fw.logical.zipIdx.find? fun e => e.1 == p).map (·.2)).getD 0xFFFF
/-- Content of item 0x01. -/
def State.deviceContent (s : State) : List Byte :=
  bytesOfNat s.fw.logical.length 2 ++ bytesOfNat s.fw.fused.length 2 ++ bytesOfNat s.fw.quarantined.length 2 ++ repeatN 0#8 10 ++
  bitmap (fun p => s.fw.fused.contains p) ++ bitmap (fun p => s.fw.quarantined.contains p) ++
  ((List.range 1024).map fun p => bytesOfNat (s.logicalOf p) 2).flatten
/-- Number of a reason for which a peer went down (R92). -/
def reasonNum : PeerReason → Nat
  | .none => 0
  | .linkLost => 1
  | .reset => 2
  | .powerDown => 3
  | .retriesExhausted => 4
/-- The word of a rectangle in item 0x0A. -/
def Rect.info (r : Rect) : Word :=
  if r.defined then
    bitAt true 0 ||| fieldAt r.x0 1 ||| fieldAt r.y0 6 ||| fieldAt (r.w - 1) 11 ||| fieldAt (r.h - 1) 16 ||| bitAt r.contain 21 ||| fieldAt r.cap 22
  else 0#64

/-- QUERY_DEVICE: item 0x01. -/
def execQueryDevice (q : Nat) (s : State) : Out := queryGet q 0x01 s State.deviceContent
/-- QUERY_CLOCK_POINTS: item 0x02. -/
def execQueryClockPoints (q : Nat) (s : State) : Out :=
  queryGet q 0x02 s fun s => (s.fw.basins.toList.zipIdx.map fun e => bytesOf (s.basinWord e.2 e.1) 8).flatten
/-- QUERY_COUNTER_GRID: item 0x03. -/
def execQueryCounterGrid (q : Nat) (s : State) : Out :=
  queryGet q 0x03 s fun s => ([0x20000, 0x20008, 0x20010, 0x20018, 0x20020].map fun o => bytesOf (s.devRead o) 8).flatten
/-- QUERY_SCRUB: item 0x04. -/
def execQueryScrub (q : Nat) (s : State) : Out :=
  queryGet q 0x04 s fun s => ([0x30010, 0x30018, 0x30020, 0x30028].map fun o => bytesOf (s.devRead o) 8).flatten ++
    (s.fw.scrubEvents.toList.map fun n => bytesOfNat n 8).flatten
/-- QUERY_QUEUE: item 0x05. -/
def execQueryQueue (q : Nat) (s : State) : Out :=
  command q 0x0B (fun k => k = 0x05) s fun c e s =>
    let i := entNat e 24 1
    if 64 ≤ i then s.finishCmd c 0x03
    else
      let v := s.queue i
      s.putResult c 0x05 (entWord e 16) (((List.range 8).map fun k => bytesOf (v.word (8 * k)) 8).flatten ++ bytesOfNat v.rp 8 ++ bytesOfNat v.cwp 8)
/-- QUERY_PEERS: item 0x06. -/
def execQueryPeers (q : Nat) (s : State) : Out :=
  queryGet q 0x06 s fun s => ((List.range 255).map fun d =>
    let x := (tblGet? s.fw.peers d).getD (true, .none)
    bytesOfNat ((if x.1 then 1 else 0) + 2 * reasonNum x.2) 2).flatten
/-- QUERY_BOOT_CHALLENGE: item 0x07. -/
def execQueryBootChallenge (q : Nat) (s : State) : Out := queryGet q 0x07 s fun s => bytesOfNat (Config.bootChallenge s.fw.resets).toNat 16
/-- QUERY_FAULT: item 0x08. -/
def execQueryFault (q : Nat) (s : State) : Out :=
  queryGet q 0x08 s fun s => bytesOfNat s.fw.faultClass 1 ++ bytesOfNat s.fw.faultRail 1 ++ repeatN 0#8 6 ++ bytesOf s.fw.faultTime 8
/-- QUERY_CTL_RANGES: item 0x09. -/
def execQueryCtlRanges (q : Nat) (s : State) : Out :=
  queryGet q 0x09 s fun _ => bytesOfNat ctlRanges.length 4 ++ repeatN 0#8 12 ++
    (ctlRanges.map fun e => bytesOfNat e.1 8 ++ bytesOfNat e.2.1 4 ++ bytesOfNat e.2.2 4).flatten
/-- QUERY_RECTANGLES: item 0x0A. -/
def execQueryRectangles (q : Nat) (s : State) : Out :=
  queryGet q 0x0A s fun s => (s.fw.rects.toList.map fun r => bytesOf r.info 8).flatten
/-- The counters of a stream as STATS and item 0x0B write them. -/
def State.putStats (s : State) (c : CmdRef) (i : Nat) (buf : Word) : State :=
  match tblGet? s.fw.streams i with
  | none => s.finishCmd c 0x04
  | some m => s.putResult c 0x0B buf (m.stats.map fun n => bytesOfNat n 8).flatten
/-- QUERY_MEDIA_STATS: item 0x0B (R98). -/
def execQueryMediaStats (q : Nat) (s : State) : Out :=
  command q 0x0B (fun k => k = 0x0B) s fun c e s => s.putStats c (entNat e 24 1) (entWord e 16)

/-! ## Set forms -/

/-- QUERY_SET_CAPS: item 0x02. -/
def execQuerySetCaps (q : Nat) (s : State) : Out :=
  command q 0x0B (fun k => k = 0x82) s fun c e s =>
    let v := (List.range 16).map fun b => entNat e (24 + b) 1
    if v.any fun k => 4 < k && k ≠ 0xFE && k ≠ 0xFF then s.finishCmd c 0x03
    else
      let one (x : Vector Basin 16 × Nat) (k : Nat) : Vector Basin 16 × Nat :=
        (x.1.setIfInBounds x.2 (match x.1.toList[x.2]? with
          | some b => if k = 0xFF then b else { b with expert := if k = 0xFE then none else some k }
          | none => Basin.reset), x.2 + 1)
      ((s.modFw fun w => { w with basins := (v.foldl one (w.basins, 0)).1 }).applyPoints).finishCmd c 0
/-- QUERY_SET_COUNTER_GRID: item 0x03; it takes effect at the next latch (R49). -/
def execQuerySetCounterGrid (q : Nat) (s : State) : Out :=
  command q 0x0B (fun k => k = 0x83) s fun c e s =>
    let base := entWord e 24
    let slots := entNat e 32 2
    let en := entNat e 34 1
    if base.toNat % 4096 ≠ 0 ∨ 2 ^ 56 ≤ base.toNat ∨ (1 < en ∧ en ≠ 0xFF) then s.finishCmd c 0x03
    else
      (s.modFw fun w => { w with
        cgPend := { w.cgPend with
          base := if base = 0#64 then w.cgPend.base else some base,
          slots := if slots = 0 then w.cgPend.slots else some slots,
          en := if en = 0xFF then w.cgPend.en else some (en = 1) } }).finishCmd c 0
/-- QUERY_SET_SCRUB: item 0x04; the ring at once, period and EN at the next period (R68). -/
def execQuerySetScrub (q : Nat) (s : State) : Out :=
  command q 0x0B (fun k => k = 0x84) s fun c e s =>
    let base := entWord e 24
    let slots := entNat e 32 2
    let hours := entNat e 34 2
    let en := entNat e 36 1
    if base.toNat % 4096 ≠ 0 ∨ 2 ^ 56 ≤ base.toNat ∨ 1000 < hours ∨ (1 < en ∧ en ≠ 0xFF) then s.finishCmd c 0x03
    else
      (s.modFw fun w =>
        let old := w.scrubPend.getD (w.scrubHours, w.scrubEn)
        { w with
          scrubBase := if base = 0#64 then w.scrubBase else base, scrubSlots := if slots = 0 then w.scrubSlots else slots,
          scrubPend := if hours = 0 ∧ en = 0xFF then w.scrubPend
            else some (if hours = 0 then old.1 else hours, if en = 0xFF then old.2 else en = 1) }).finishCmd c 0
/-- The action of a set form of item 0x05. -/
def entAction (e : List Byte) : Nat := entNat e 25 1
/-- A set form of item 0x05 whose head command has an action. -/
def queueAction (q action : Nat) (s : State) (k : CmdRef → Nat → List Byte → State → State) : Out :=
  match s.mayBegin q with
  | none => .next s
  | some (_, e) =>
    if entAction e ≠ action then .next s
    else command q 0x0B (fun x => x = 0x85) s fun c e s =>
      let i := entNat e 24 1
      if i = 0 ∨ 64 ≤ i then s.finishCmd c 0x03 else k c i e s
/-- The queue that a descriptor image defines. -/
def imageQueue (b : List Byte) : Queue :=
  let w (i : Nat) : Word := wordOf ((b.drop (8 * i)).take 8)
  { Queue.none with base := w 0, cbase := w 1, sub := w 2, stat := w 3, size := w 4 &&& 0x1F1F#64, prio := ((w 5).extractLsb' 1 2).toNat }
/-- A reserved field of a descriptor image is nonzero (R7, R81). -/
def imageReserved (b : List Byte) : Bool :=
  let w (i : Nat) : Word := wordOf ((b.drop (8 * i)).take 8)
  w 4 &&& ~~~0x1F1F#64 != 0#64 || w 5 &&& ~~~7#64 != 0#64 || w 6 &&& 0xFFFFFF0C#64 != 0#64 || w 7 != 0#64
/-- QUERY_QUEUE_DEFINE: item 0x05, ACTION 0 (R81). An ACTION above 2 is refused here. -/
def execQueryQueueDefine (q : Nat) (s : State) : Out :=
  match s.mayBegin q with
  | none => .next s
  | some (_, e0) =>
    if 2 < entAction e0 then command q 0x0B (fun x => x = 0x85) s fun c _ s => s.finishCmd c 0x03
    else queueAction q 0 s fun c i e s =>
      let a := entWord e 32
      if !s.addrOk a 64 then s.finishCmd c 0x03
      else if !s.addrMapped a 64 then s.finishCmd c 0x0B
      else
        let b := s.fwLoad a 64
        if imageReserved b then s.finishCmd c 0x02
        else if (s.queue i).en || (s.queue i).stopping || (s.queue i).deleting.isSome then s.finishCmd c 0x05
        else if !s.queueValid (imageQueue b) then s.finishCmd c 0x03
        else
          let s := s.setQueue i { imageQueue b with laps := (s.queue i).laps }
          (if (b.getD 40 0#8).getLsbD 0 then s.startQueue i false else s).finishCmd c 0
/-- QUERY_QUEUE_DELETE: item 0x05, ACTION 1: complete when the queue's begun commands have completed (R92). -/
def execQueryQueueDelete (q : Nat) (s : State) : Out :=
  queueAction q 1 s fun c i _ s =>
    if (s.queue i).deleting.isSome then s.finishCmd c 0x05
    else s.modQueue i fun v => { v with en := false, stopping := false, pending := [], deleting := some c }
/-- QUERY_QUEUE_RESTART: item 0x05, ACTION 2 (R82): RP := WP and the queue resumes. A queue that is not enabled gives STATE. -/
def execQueryQueueRestart (q : Nat) (s : State) : Out :=
  queueAction q 2 s fun c i _ s =>
    if !(s.queue i).en then s.finishCmd c 0x05 else (s.startQueue i true).finishCmd c 0
/-- QUERY_CLEAR_FAULT: item 0x08. -/
def execQueryClearFault (q : Nat) (s : State) : Out :=
  command q 0x0B (fun k => k = 0x88) s fun c _ s => (s.modFw fun w => { w with faultClass := 0, faultRail := 0xFF }).finishCmd c 0

/-! ## Attestation and debug tokens -/

/-- 32 bytes of a hash. -/
def hashBytes (h : BitVec 256) : List Byte := bytesOfNat h.toNat 32
/-- The report up to the boot-key signature, 0xC48 bytes (R99); the hash of the applied patch covers its header and code, without the
signature (assumption 88). The boot key has a certificate while the identity key's 2^20
indices last. -/
def State.report (s : State) (nonce : List Byte) : List Byte :=
  let w := s.fw
  let key := Config.bootPublicKey w.resets
  let cert := if w.idIndex ≤ 2 ^ 20 then Config.identitySign (w.idIndex - 1) key else repeatN 0#8 2820
  bytesOfNat 0x54415A47 4 ++ bytesOfNat 1 4 ++ nonce ++ hashBytes Config.deviceId ++ bytesOfNat w.lifeCycle 4 ++ bytesOfNat w.fused.length 4 ++
  hashBytes Config.romHash ++ (if w.patchv = 0 then repeatN 0#8 32 else hashBytes (Config.shake256 w.patch)) ++
  hashBytes (Config.shake256 (w.bootImage.getD Config.romImage)) ++ bytesOf s.time 8 ++ bytesOfNat (Config.bootChallenge w.resets).toNat 16 ++
  repeatN 0#8 56 ++ (key.take 68 ++ repeatN 0#8 (68 - key.length)) ++ (cert.take 2820 ++ repeatN 0#8 (2820 - cert.length))
/-- ATTEST (R99). -/
def execAttest (q : Nat) (s : State) : Out :=
  command q 0x10 (fun _ => true) s fun c e s =>
    let buf := entWord e 16
    match s.badBuffer buf 0x2000 4096 with
    | some k => s.finishCmd c k
    | none =>
      if 65536 ≤ s.fw.bootIndex then s.finishCmd c 0x10
      else
        let r := s.report ((e.drop 24).take 32)
        let sig := Config.bootSign s.fw.resets s.fw.bootIndex r
        let s := s.modFw fun w => { w with bootIndex := w.bootIndex + 1 }
        (s.fwStore buf (r ++ sig.take 2692 ++ repeatN 0#8 (2692 - sig.length))).finishCmd c (if s.fw.idIndex ≤ 2 ^ 20 then 0 else 0x10)
/-- The features that a life-cycle state lets a token open (R228): the dash of MANUF and DEV is read as none (DEDUCED). -/
def tokenMay (lc : Nat) : BitVec 6 := if lc = 2 then 0x3F#6 else if lc = 3 then 0x0D#6 else 0#6
/-- The first failure of a token, in the order of R100. -/
def State.badToken (s : State) (t : List Byte) : Option Nat :=
  let feat := entWord t 0x38
  if ((t.drop 0x40).take 64).any (fun b => b != 0#8) || feat.extractLsb' 6 58 != 0#58 then some 0x02
  else if entNat t 0 4 ≠ 0x4B545A47 ∨ entNat t 4 4 ≠ 1 then some 0x0A
  else if !Config.tokenSigOk (t.take 0x80) (t.drop 0x80) then some 0x0A
  else if (t.drop 8).take 32 ≠ hashBytes Config.deviceId then some 0x0A
  else if entNat t 0x28 16 ≠ (Config.bootChallenge s.fw.resets).toNat then some 0x0A
  else if feat.extractLsb' 0 6 &&& ~~~tokenMay s.fw.lifeCycle ≠ 0#6 then some 0x09
  else none
/-- DEBUG_TOKEN (R89, R100, R229): the union of the tokens' features of one boot. -/
def execDebugToken (q : Nat) (s : State) : Out :=
  command q 0x0F (fun k => k = 0) s fun c e s =>
    let a := entWord e 16
    if !s.addrOk a 2948 then s.finishCmd c 0x03
    else if !s.addrMapped a 2948 then s.finishCmd c 0x0B
    else
      let t := s.fwLoad a 2948
      match s.badToken t with
      | some k => s.finishCmd c k
      | none => (s.modFw fun w => { w with features := w.features ||| (entWord t 0x38).extractLsb' 0 6 }).finishCmd c 0

end Sys2Proof.Machine
end

