-- ==== Sys2Proof/Machine/Halts.lean ====
section
/-! DEFINITION. Phase waits that end (R199), halt requests (R118), withdrawals of remote waits (R161), what a halt leaves of a thread (R119, R219), a core's
part of a save image and its restore (R119, R120), and the end of a launch (R62, R89, R113). -/
namespace Sys2Proof.Machine

/-! ## Halts -/

/-- A thread is held: halted or stopped. -/
def Thread.isHeld (t : Thread) : Bool := t.run == Run.halted || t.run == Run.stopped
/-- A halt request holds the threads of a core (R118): the dale's reductions are flushed (R194), waits in the core's own table are
abandoned, heads of the vector queues complete, and every thread halts. -/
def State.haltNow (s : State) (p : Nat) : State :=
    let s := ((s.core p).groups.filter fun g => g.lag.isSome && g.dying.isNone).foldl (fun s g => s.freeze p g.gid (g.stopped.getD 0)) s
    let s := (s.flushDale (daleOf p) fun _ => true).1
    s.modCore p fun c =>
      let c := (c.threads.foldl (fun c st => c.dropWaits st.1) c).leaveHeads fun _ => true
      { c with halted := true, haltHeld := false, haltDue := none }.mapThreads fun _ t => t.haltAt s.time
/-- A halt request reaches a core: its threads are held when the clocks that the halt takes have passed (R118, assumption 15). During a
point change the request is held (R14). -/
def State.haltCore (s : State) (p : Nat) : State :=
  if (s.core p).halted then s
  else if s.changing p then s.modCore p fun c => { c with haltHeld := true }
  else if s.stopLag = 0 then s.haltNow p
  else s.modCore p fun c => { c with haltDue := c.haltDue <|> some (s.coreClocks p + min s.stopLag 200) }
/-- HALT_REQUEST: the write of PREQ.HALT that is on its way to a core arrives (R44, R118). -/
def execHaltRequest (pos : Nat) (s : State) : Out :=
  match s.ctl.find? fun m => (match m with
    | .write q off _ => q == pos && off == 0x220
    | _ => false) with
  | none => .next s
  | some m => .next ({ s with ctl := s.ctl.erase m }.haltCore pos)
/-- Send halt requests to the positions of a launch's rectangle tree (R118). -/
def State.sendHalts (s : State) (l : Launch) : State :=
  { s with ctl := s.ctl ++ ((List.range 1024).filter fun p => l.inRect p && s.active p).map fun p => CtlMsg.write p 0x220 1#64 }
/-- Let a held thread of a restored or resumed core run again: a standing barrier arrival sleeps on (R326). -/
def Thread.resume (t : Thread) : Thread :=
  match t.arrived with
  | some w => { t with run := .sleeping w }
  | none => { t with run := .running }

/-- Send the withdrawal of a remote wait (R161). -/
def State.withdraw (s : State) (r : Req) : State :=
  (s.putReq r { r with withdrawn := true }).ask r.src
    { dst := r.dst, body := .withdraw r.ns r.seq, lid := r.lid, slot := r.slot, gid := r.gid, va := r.va, use := .withdrawal r.dst r.ns r.seq }
/-- The withdrawals that are due: waits whose target has answered WAITING, of threads that are held or have met the watchdog (R161). -/
def State.settleWithdraw (s : State) : State :=
  s.reqs.foldl (fun s r =>
    if r.waiting && (match r.slot with
      | some slot => (s.thread? r.src slot).any (fun t => t.isHeld || t.wdPending) && r.waitOf r.src slot
      | none => false) then s.withdraw r else s) s
/-- What a halt does to a thread as time goes: a thread of a halted core does not run on, and the watchdog's count stands while a
thread is held or in transit (R118, R219). -/
def Core.settleThread (c : Core) (now : Word) (t : Thread) : Thread :=
  let t := if c.halted then (match t.run with
    | .running | .sleeping _ => t.haltAt now
    | _ => t) else t
  let held := match t.run with
    | .running | .sleeping _ => false
    | _ => true
  match held, t.heldAt with
  | true, none => { t with heldAt := some now }
  | false, some h => { t with heldAt := none, lastRet := (if t.lastRet.ult c.wdTime then c.wdTime else t.lastRet) + (now - h) }
  | _, _ => t
/-- Phase waits of every core. -/
def State.settlePhases (s : State) : State := { s with cores := tblMap (fun _ c => c.wakePhases) s.cores }
/-- Settle the threads of every core. -/
def State.settleThreads (s : State) : State := { s with cores := tblMap (fun _ c => c.mapThreads fun _ t => c.settleThread s.time t) s.cores }

/-! ## A core's part of a save image (R119, R120) -/

/-- A core's place when its launch has left it: no thread, group, record or entry; the scratchpad, the accumulators and what the
fabric and the watershed keep stay. -/
def Core.leave (c : Core) : Core :=
  { c with threads := [], groups := [], departed := [], waits := [], shot := [], shooting := [], leaseFlush := false, lid := 0, hasRole := false, v0 := VCtx.reset,
           v1 := VCtx.reset, tiles := [], matrixQ := [], tileBusy := none, heldGvt := none, holdsWork := false, inbox := [], inbHeld := none,
           refusals := [], reserved := [], evSlots := [], spill := [], deque := [], stealOut := false, backoff := false, thieving := false, awayAwake := false, victims := [], draws := 0,
           recasting := none, halted := false, haltHeld := false, haltDue := none, member := none, yielded := none, barArr := false, homeCache := [], l1 := [],
           exEn := false }
/-- A scratchpad offset belongs to a group's allocation or to an enabled exchange region. -/
def Core.savedOff (c : Core) (o : Nat) : Bool := (c.groups.any fun g => g.base ≤ o && o < g.base + g.len) || (c.exEn && 0x30000 ≤ o)
/-- Restore a core from its image: the launch's registers and allocations return, what the fabric and the watershed keep stays, the
halted threads run. -/
def Core.restored (cur saved : Core) : Core :=
  let out (o : Nat) : Bool := !saved.savedOff o
  let mem := (saved.sp.filter fun e => !out e.1).foldl (fun m e => memSet m e.1 e.2) (cur.sp.filter fun e => out e.1)
  let set (a b : List Nat) : List Nat := (b.filter fun w => !out (w * 8)).foldl setIns (a.filter fun w => out (w * 8))
  { saved with
    sp := mem, full := set cur.full saved.full, poisoned := set cur.poisoned saved.poisoned, fenced := cur.fenced, paused := cur.paused,
    gvt := cur.gvt, gvtRound := cur.gvtRound, sent := cur.sent, recv := cur.recv, minSent := cur.minSent,
    latched := cur.latched, cycles := cur.cycles, halted := false, haltHeld := false, l1 := [], ic := if saved.locked.isEmpty then [] else saved.ic
    }.mapThreads fun _ t => if t.run == Run.halted then t.resume else t
/-- Positions of a launch's core rectangle that hold the launch. -/
def State.coresOn (s : State) (lid : Nat) : List Nat := (s.cores.filter fun e => e.2.lid == lid).map (·.1)
/-- The save image of a launch is final (R119 step 4). -/
def State.imageFinal (s : State) (l : Launch) : Bool :=
  let ps := s.coresOn l.lid
  ps.all (fun p => let c := s.core p
    c.allHalted && !c.stealOut &&
      [c.v0, c.v1].all fun v => v.queue.isEmpty || v.part || !v.headLeft) &&
  !(s.reqs.any fun r => r.lid == l.lid || ps.contains r.src) && !(s.engines.any fun e => e.lid == l.lid && e.cmd.isNone) &&
  !(s.ctl.any fun m => match m with
    | .stealReply _ t (some _) _ _ => ps.contains t
    | .write q 0x220 _ => l.inRect q
    | _ => false)

/-- Clear PIN on the pages of leases that no live launch's lease covers (R62). -/
def State.unpin (s : State) (l : List Lease) : State :=
  let keep := s.pinned
  (s.leasePages l).foldl (fun s pg => if keep.contains pg then s else s.pinPage pg false) s

/-! ## The end of a launch -/

/-- Commands that act on a launch and are open when it ends find it gone (R86). -/
def State.dropCommands (s : State) (lid : Nat) : State :=
  let at0 (p : Nat) : Bool := (s.core p).lid == lid
  let open0 := (s.fw.shoots.filter fun x => x.lid == lid).map (·.cmd) ++ (s.fw.recasts.filter fun x => x.lid == lid).map (·.cmd) ++
    (s.fw.steps.filter fun x => at0 x.pos).map (·.cmd) ++ (s.fw.dumps.filter fun x => at0 x.pos).map (·.cmd)
  let s := s.modFw fun w => { w with
    shoots := w.shoots.filter (fun x => x.lid != lid), recasts := w.recasts.filter (fun x => x.lid != lid),
    steps := w.steps.filter (fun x => !at0 x.pos), dumps := w.dumps.filter fun x => !at0 x.pos }
  open0.foldl (fun s c => s.finishCmd c 0x04) s
/-- After a step-mode launch every virtual time is zero, that of a round in progress too (R125, R126). -/
def State.zeroTimes (s : State) : State :=
  { s with cores := tblMap (fun _ (c : Core) => { c with vtime := 0#32, gvt := 0#32, gvtBase := 0#32, minSent := (0xFFFFFFFF#32, 0xFFFFFFFF#32) }) s.cores,
           leaves := tblMap (fun _ (l : Leaf) => { l with minSent := (0xFFFFFFFF#32, 0xFFFFFFFF#32) }) s.leaves,
           fw := { s.fw with gvt := 0#32, wsCur := s.fw.wsCur.map fun r => { r with l := 0#32, ms := 0#32 } } }
/-- A launch ends (R62, R89, R113, R125): its cores are free, its leases, gang and checks are gone, and LAUNCH completes with a status and
the lost and run counts; a CANCEL completes OK, a PREEMPT or RESUME that was open gives STATE. -/
def State.endLaunch (s : State) (l : Launch) (status : Nat) : State :=
  let s := s.dropCommands l.lid
  let s := { s with
    cores := tblMap (fun _ (c : Core) => if c.lid = l.lid then c.leave else c) s.cores,
    launches := s.launches.filter (fun m => m.lid != l.lid), gangs := s.gangs.filter (fun g => g.lid != l.lid), checks := s.checks.filter (fun k => k.lid != l.lid) }
  let s := if l.st == .waiting then s else s.unpin l.leases
  let s := if l.stepMode && l.st != .waiting then s.zeroTimes else s
  let s := s.finishCmd l.cmd status l.lid (BitVec.ofNat 64 (l.lost % 2 ^ 32 + l.ran % 2 ^ 32 * 2 ^ 32))
  let s := match l.cancelBy with
    | some c => s.finishCmd c 0
    | none => s
  let s := match l.preemptBy with
    | some c => s.finishCmd c 0x05
    | none => s
  match l.resumeBy with
  | some c => s.finishCmd c 0x05
  | none => s

end Sys2Proof.Machine
end

