-- ==== Sys2Proof/Machine/Launches.lean ====
section
/-! DEFINITION. The launch record, image, placement and lease checks (R59, R61, R88 to R90, R101, R104, R105, R107, R123, R135,
R287 to R293), and the start of a launch on its cores. -/
namespace Sys2Proof.Machine

/-! ## Images (R287 to R292) -/

/-- An entry of the role table (R288). -/
structure RoleImg where
  flags : Nat
  tv    : Nat
  toff  : Nat
  tsize : Nat
  dv    : Nat
  doff  : Nat
  dsize : Nat
  /-- a reserved byte or flag is nonzero -/
  rsvd  : Bool
deriving DecidableEq, Repr
/-- A range of a placement table (R289). -/
structure PlaceEnt where
  first : Nat
  count : Nat
  role  : Nat
deriving DecidableEq, Repr
/-- An image as firmware reads it: its offset in memory space, whether R292 finds it valid but for its placement, and its tables. -/
structure Image where
  base  : Nat
  ok    : Bool
  roles : List RoleImg
  /-- its own placement table, with whether a reserved field of it is nonzero -/
  place : Option (List PlaceEnt × Bool)
deriving DecidableEq, Repr

/-- Read a role-table entry. -/
def roleImg (e : List Byte) : RoleImg :=
  { flags := entNat e 0x10 1, tv := entNat e 0x18 8, toff := entNat e 0x20 4, tsize := entNat e 0x24 4, dv := entNat e 0x28 8, doff := entNat e 0x30 4,
    dsize := entNat e 0x34 4, rsvd := entNat e 0x10 8 / 2 ≠ 0 || entNat e 0x38 8 ≠ 0 }
/-- A placement table from its bytes: the entries, and whether a reserved field is nonzero. -/
def placeTable (read : Nat → Nat → List Byte) : List PlaceEnt × Bool :=
  let h := natOfBytes (read 0 8)
  let n := min (h % 65536) 1025
  let es := (List.range n).map fun i => natOfBytes (read (8 + 8 * i) 8)
  (es.map fun e => { first := e % 65536, count := e / 2 ^ 16 % 65536, role := e / 2 ^ 32 % 256 }, h / 65536 ≠ 0 || es.any fun e => e / 2 ^ 40 ≠ 0)
/-- No two of a list of extents (offset, length) overlap. -/
def apart : List (Nat × Nat) → Bool
  | [] => true
  | a :: t => (t.all fun b => a.2 = 0 || b.2 = 0 || a.1 + a.2 ≤ b.1 || b.1 + b.2 ≤ a.1) && apart t
/-- Read an image through a reader of its bytes. -/
def imageOf (base : Nat) (rd : Nat → Nat → List Byte) : Image :=
  let h := rd 0 256
  let nrole := entNat h 6 2
  let size := entNat h 8 8
  let roff := entNat h 0x10 8
  let poff := entNat h 0x18 8
  let boff := entNat h 0x20 8
  let head := entNat h 0 4 = 0x49595A47 && entNat h 4 2 = 1 && 1 ≤ nrole && nrole ≤ 64 && (h.drop 0x48).all (fun b => b == 0#8) &&
    roff + 64 * nrole ≤ size && size < 2 ^ 47
  if !head then { base := base, ok := false, roles := [], place := none }
  else
    let roles := (List.range nrole).map fun r => roleImg (rd (roff + 64 * r) 64)
    let pt := if poff = 0 then none else if size < poff + 8 then none else some (placeTable fun o n => rd (poff + o) n)
    let exts : List (Nat × Nat) :=
      [(roff, 64 * nrole), (poff, if poff = 0 then 0 else 8 + 8 * (pt.map (·.1.length)).getD 0), (boff, if boff = 0 then 0 else 1024),
       (entNat h 0x28 8, entNat h 0x30 8), (entNat h 0x38 8, entNat h 0x40 8)] ++
      (roles.map fun r => [(r.toff, r.tsize), (r.doff, r.dsize)]).flatten
    let ok := (exts.all fun e => e.2 = 0 || e.1 + e.2 ≤ size) && apart exts &&
      (roles.all fun r => !r.rsvd && r.tv % 4096 = 0 && r.toff % 4096 = 0 && r.dv % 4096 = 0 && r.doff % 4096 = 0) &&
      !(pt.any (·.2)) && (poff = 0 || pt.isSome) && (boff = 0 || (rd boff 1024).all fun b => b.toNat < 16)
    { base := base, ok := ok, roles := roles, place := pt }
/-- Read an image at an offset of memory space. -/
def State.readImage (s : State) (base : Nat) : Image := imageOf base fun o n => s.memBytes (base + o) n
/-- A role has an image (R104). -/
def Image.hasRole (m : Image) (r : Nat) : Bool := (m.roles[r]?).any fun x => x.tsize ≠ 0

/-! ## Leases (R59, R61) -/

/-- Make the pages of leases resident and pinned (R61). -/
def State.mapPages (s : State) (l : List Lease) : State := (s.leasePages l).foldl (fun s pg => (s.mapPage pg).pinPage pg true) s

/-! ## The launch record (R90) -/

/-- The launch record with the tables it names. -/
structure LaunchRec where
  r      : List Byte
  image  : Image
  place  : Option (List PlaceEnt × Bool)
  leases : List Nat
  tasks  : List (List Byte)
  spans  : List Byte
  /-- an address of the record is malformed or misaligned; one has no page entry -/
  badAddr : Bool
  unmapped : Bool
deriving DecidableEq, Repr

/-- Read the record's tables. -/
def State.readLaunch (s : State) (r : List Byte) : LaunchRec :=
  let img := entWord r 0
  let pl := entWord r 8
  let ls := entWord r 0x10
  let nl := min (entNat r 0x18 1) 16
  let ts := entWord r 0x50
  let nt := entNat r 0x58 4
  let sp := entWord r 0x68
  let imgOk := !img.getLsbD 63 && img.toNat % 65536 = 0 && s.addrOk img 256
  let plOk := pl = 0#64 || s.addrOk pl 8
  let lsOk := nl = 0 || s.addrOk ls (16 * nl)
  let tsOk := ts.toNat % 8 = 0 && nt ≤ 65536 && s.addrOk ts (64 * nt)
  let spOk := s.addrOk sp 256
  let here (ok : Bool) (a : Word) (n : Nat) : Bool := !ok || s.addrMapped a n
  { r := r,
    image := if imgOk then s.readImage (img.extractLsb' 0 47).toNat else { base := 0, ok := false, roles := [], place := none },
    place := if pl = 0#64 then none else if plOk then some (placeTable fun o n => s.fwLoad (pl + BitVec.ofNat 64 o) n) else some ([], false),
    leases := if lsOk then (List.range nl).map fun i => natOfBytes (s.fwLoad (ls + BitVec.ofNat 64 (16 * i)) 16) else [],
    tasks := if tsOk then (List.range nt).map fun i => s.fwLoad (ts + BitVec.ofNat 64 (64 * i)) 64 else [],
    spans := if spOk then s.fwLoad sp 256 else [],
    badAddr := !(imgOk && plOk && lsOk && tsOk && (spOk || sp = 0#64)),
    unmapped := !(here imgOk img 256 && (pl = 0#64 || here plOk pl 8) && (nl = 0 || here lsOk ls (16 * nl)) && here tsOk ts (64 * nt) && here spOk sp 256) }
/-- A span of the SPANS table. -/
def spanOf (b : List Byte) (i : Nat) : Span :=
  { vbase := entWord b (32 * i), vlimit := entWord b (32 * i + 8), offset := entWord b (32 * i + 16), attr := entWord b (32 * i + 24) }
/-- The eight spans. -/
def LaunchRec.spanList (k : LaunchRec) : List Span := (List.range 8).map (spanOf k.spans)
/-- LEVELS entry k. -/
def LaunchRec.level (k : LaunchRec) (i : Nat) : Nat := entNat k.r (0x20 + 4 * i) 4
/-- A reserved field of the record, its placement, lease or span table is nonzero (R7). -/
def LaunchRec.reserved (k : LaunchRec) : Bool :=
  let r := k.r
  entNat r 0x19 1 / 4 ≠ 0 || entNat r 0x1A 2 / 512 ≠ 0 || entNat r 0x1C 4 / 2 ^ 24 ≠ 0 || ((List.range 8).any fun i => k.level i / 64 ≠ 0) ||
  entNat r 0x4C 4 ≠ 0 || (r.drop 0x71).any (fun b => b != 0#8) || k.place.any (·.2) || k.leases.any leaseReserved ||
  k.spanList.any fun s => s.attr.extractLsb' 4 60 != 0#60 || s.offset.extractLsb' 56 8 != 0#8
/-- The narrowest scope of a domain (R101). -/
def minScope (dom : Nat) : Nat := if dom ≤ 2 then 0 else if dom = 3 then 1 else if dom ≤ 6 then 2 else 3
/-- The scope of a code. -/
def scopeOf (n : Nat) : Scope := match n with
  | 0 => .g
  | 1 => .d
  | 2 => .v
  | _ => .s
/-- The used LEVELS entries: level, domain, scope code. -/
def LaunchRec.levels (k : LaunchRec) : List (Nat × Nat × Nat) :=
  ((List.range 8).map fun i => (i, k.level i % 16, k.level i / 16 % 4)).filter fun e => e.2.1 ≠ 15
/-- LEVELS breaks R90 or R101. -/
def LaunchRec.badLevels (k : LaunchRec) : Bool :=
  let u := k.levels
  u.isEmpty || (u.zipIdx.any fun e => e.1.1 ≠ e.2) || (u.any fun e => 7 < e.2.1 || e.2.2 < minScope e.2.1 || (e.2.1 = 7 && entNat k.r 0x40 8 = 0)) ||
  (u.zip (u.drop 1)).any fun e => e.2.2.1 ≤ e.1.2.1
/-- Core rectangle: X0, Y0, W, H. -/
def LaunchRec.rect (k : LaunchRec) : Rect :=
  let n := entNat k.r 0x1C 4
  { Rect.whole with x0 := n % 32, y0 := n / 32 % 32, w := n / 2 ^ 10 % 32 + 1, h := n / 2 ^ 15 % 32 + 1 }
/-- Containment rectangle. -/
def LaunchRec.crect (k : LaunchRec) : Nat := entNat k.r 0x1C 4 / 2 ^ 20 % 16
/-- The placement in force. -/
def LaunchRec.ents (k : LaunchRec) : List PlaceEnt := match k.place with
  | some p => p.1
  | none => ((k.image.place).map (·.1)).getD []
/-- Logical cores with their roles. -/
def LaunchRec.roles (k : LaunchRec) : Tbl Nat := (k.ents.map fun e => (List.range e.count).map fun i => (e.first + i, e.role)).flatten.foldl
  (fun t e => tblSet t e.1 e.2) []
/-- GALLOC and its exchange bit. -/
def LaunchRec.galloc (k : LaunchRec) : Nat := entNat k.r 0x70 1 % 128
/-- The exchange region is enabled. -/
def LaunchRec.exch (k : LaunchRec) : Bool := entNat k.r 0x70 1 / 128 = 1
/-- Roles of the image that have one. -/
def LaunchRec.withImage (k : LaunchRec) : List RoleImg := k.image.roles.filter fun r => r.tsize ≠ 0
/-- The launch is a step-mode launch (R123). -/
def LaunchRec.step (k : LaunchRec) : Bool := k.image.ok && !k.withImage.isEmpty && k.withImage.all fun r => r.flags % 2 = 1
/-- Initial tasks of a role. -/
def LaunchRec.tasksOf (k : LaunchRec) (role : Nat) : Nat := (k.tasks.filter fun t => recRole t == role).length
/-- Cores of a role. -/
def coresIn (roles : Tbl Nat) (role : Nat) : List Nat := (roles.filter fun x => x.2 == role).map (·.1)
/-- A span with R and W covers the scratchpad of every core of the rectangle (R104). -/
def LaunchRec.stackSpan (k : LaunchRec) : Bool :=
  let r := k.rect
  k.spanList.any fun sp => sp.r && sp.w && sp.vbase.toNat < sp.vlimit.toNat &&
    (let lo := (sp.offset.extractLsb' 0 56).toNat
     let hi := lo + (sp.vlimit.toNat - sp.vbase.toNat)
     lo ≤ spIa (posOf r.x0 r.y0) 0 && spIa (posOf (r.x0 + r.w - 1) (r.y0 + r.h - 1)) 0 + 0x40000 ≤ hi)
/-- The placement breaks R104 or R289 for a map of logical numbers to positions. -/
def LaunchRec.badPlace (k : LaunchRec) (map : List Nat) : Bool :=
  let r := k.rect
  let inside (n : Nat) : Bool := match map[n]? with
    | some p => r.x0 ≤ posX p && posX p < r.x0 + r.w && r.y0 ≤ posY p && posY p < r.y0 + r.h
    | none => false
  (k.place.isSome || k.image.place.isSome) &&
    (k.ents.isEmpty || 1024 < k.ents.length || (k.ents.any fun e => e.count < 1 || 1024 < e.count) ||
     !apart (k.ents.map fun e => (e.first, e.count)) || k.ents.any fun e => !(List.range e.count).all fun i => inside (e.first + i))
/-- The gang fields break R90 or R135. -/
def LaunchRec.badGang (k : LaunchRec) : Bool :=
  let gb := entNat k.r 0x48 2
  let gt := entNat k.r 0x4A 2
  let n := k.tasks.length
  entNat k.r 0x40 8 ≠ 0 && (gt < 1 || 256 < gt || 256 < n || gt < gb + n || k.roles.length < n || entNat k.r 0x1A 2 ≠ 0 ||
    k.tasks.any fun t => (coresIn k.roles (recRole t)).length < k.tasksOf (recRole t) && !(coresIn k.roles (recRole t)).isEmpty)
/-- The step-mode limits of R123 and R293 are broken. -/
def LaunchRec.badStep (k : LaunchRec) : Bool :=
  let r := k.rect
  (k.image.ok && k.withImage.any (fun x => x.flags % 2 = 1) && !k.step) ||
  (k.step && (r.x0 ≠ 0 || r.y0 ≠ 0 || r.w ≠ 32 || r.h ≠ 32 || entNat k.r 0x18 1 ≠ 0 || entNat k.r 0x1A 2 ≠ 0 || entNat k.r 0x40 8 ≠ 0 ||
    k.withImage.any fun x => 61440 < x.tsize || 131072 < x.dsize || 0x20000 ≤ x.dv))
/-- A field of the record gives BADFIELD (R90, R101, R104, R105, R110, R123, R135). -/
def State.badFields (s : State) (k : LaunchRec) : Bool :=
  let r := k.r
  let x := k.rect
  k.badAddr || 16 < entNat r 0x18 1 || (entNat r 0x18 1 ≠ 0 && entWord r 0x10 = 0#64) || 128 < entNat r 0x1A 1 ||
  32 < x.x0 + x.w || 32 < x.y0 + x.h ||
  (s.fw.rects.toList[k.crect]?).any (fun c => c.defined && !(c.x0 ≤ x.x0 && x.x0 + x.w ≤ c.x0 + c.w && c.y0 ≤ x.y0 && x.y0 + x.h ≤ c.y0 + c.h)) ||
  k.badLevels || k.tasks.length < 1 || 65536 < entNat r 0x58 4 ||
  k.spanList.any (fun sp => sp.attr.getLsbD 3 || sp.vbase.toNat % 4096 ≠ 0 || sp.vlimit.toNat % 4096 ≠ 0 || sp.offset.toNat % 4096 ≠ 0) ||
  k.galloc < 1 || (if k.exch then 47 else 63) < k.galloc || k.badPlace s.fw.logical || (!k.step && !k.stackSpan) ||
  k.tasks.any (fun t => (badRecord k.galloc t).isSome) ||
  k.tasks.any (fun t => let n := (coresIn k.roles (recRole t)).length
    n ≠ 0 && 4096 * n < k.tasksOf (recRole t)) ||
  k.badGang || k.badStep
/-- The first failure of a launch record, in the order of R90. -/
def State.badLaunch (s : State) (k : LaunchRec) : Option Nat :=
  if k.reserved then some 0x02
  else if s.badFields k then some 0x03
  else if k.unmapped then some 0x0B
  else if !((s.fw.rects.toList[k.crect]?).any (·.defined)) then some 0x04
  else if !k.image.ok || k.ents.isEmpty || k.ents.any (fun e => !k.image.hasRole e.role) || k.tasks.any (fun t => (coresIn k.roles (recRole t)).isEmpty) then some 0x08
  else if (k.leases.any fun d => !s.leaseOk (leaseOf d)) || Config.leaseFrames < (s.leasePages (k.leases.map leaseOf)).length then some 0x07
  else none
/-- The launch that a valid record makes. -/
def State.makeLaunch (s : State) (k : LaunchRec) (lid : Nat) (addr : Word) (c : CmdRef) : Launch :=
  let x := k.rect
  { lid := lid, st := .waiting, byPrio := false, order := s.fw.nextOrder, record := k.r, recAddr := addr.toNat, x0 := x.x0, y0 := x.y0, w := x.w, h := x.h,
    rect := k.crect, prio := entNat k.r 0x19 1 % 4, levels := k.levels.map fun e => (e.1, e.2.1, scopeOf e.2.2), galloc := k.galloc, exch := k.exch,
    args := entWord k.r 0x60, spans := k.spanList, leases := k.leases.map leaseOf, image := k.image.base, map := s.fw.logical, roles := k.roles,
    stepMode := k.step, sample := entNat k.r 0x1A 1, hold := entNat k.r 0x1A 2 / 256 = 1, gang := entNat k.r 0x40 8, gbase := entNat k.r 0x48 2,
    gtotal := entNat k.r 0x4A 2, vtbase := BitVec.ofNat 32 (entNat k.r 0x5C 4), cmd := c, resumeBy := none, lost := 0, ran := 0, sweep := none,
    cancelBy := none, preemptBy := none, image0 := [], barArr := [], nextCheck := 0, parts := k.roles.map (·.1) }

/-! ## Start on the cores -/

/-- The largest virtual time a core may hold. -/
def vtCap (v : BitVec 32) : BitVec 32 := if v = 0xFFFFFFFF#32 then 0xFFFFFFFE#32 else v
/-- The lines of a text, as locked lines by virtual line number (R293). -/
def lockText (va : Nat) (bs : List Byte) (n : Nat) : List (Nat × List Byte) :=
  (List.range n).map fun i => (va / 128 + i, (bs.drop (128 * i)).take 128 ++ repeatN 0#8 (128 - ((bs.drop (128 * i)).take 128).length))
/-- The stub's 4 KiB, locked (R20 step 6, R293). -/
def stubLines : List (Nat × List Byte) := lockText (Config.stubAddress.toNat / 4096 * 4096) Config.romStub 32
/-- A launch starts on a core of its rectangle: every register of R122, R134, R179, R219 and R238 at its reset value, VTIME at VTBASE,
the accumulator of R141 and the LFSR of R415 loaded, both caches empty; the scratchpad and the accumulators keep their contents. -/
def Core.begin_ (c : Core) (l : Launch) (p lcore : Nat) : Core :=
  { Core.reset with
    sp := c.sp, full := c.full, poisoned := c.poisoned, acc := c.acc, exEn := l.exch, lid := l.lid, lcore := lcore,
    role := (tblGet? l.roles lcore).getD 0, hasRole := (tblGet? l.roles lcore).isSome, vtime := vtCap l.vtbase, gvt := c.gvt, gvtRound := c.gvtRound,
    gvtBase := c.gvt, sent := c.sent, recv := c.recv, minSent := c.minSent, latched := c.latched, sampleAcc := lcore * 619 % 1024,
    lfsr := if lcore % 65536 = 0 then 1#16 else BitVec.ofNat 16 lcore, dqSpill := reserveAt (2 ^ 28 + p * 0x40000), cycles := c.cycles, fenced := c.fenced,
    paused := c.paused, locked := [] }
/-- A step-mode role on a core: its text locked beside the stub, its data in the scratchpad (R293). -/
def Core.loadRole (c : Core) (r : RoleImg) (text data : List Byte) : Core :=
  { c.spStore r.dv data with locked := lockText r.tv text ((r.tsize + 127) / 128) ++ stubLines }
/-- Load the role of a core from its launch's image. -/
def State.loadStep (s : State) (l : Launch) (p : Nat) : State :=
  match ((s.readImage l.image).roles[(s.core p).role]?) with
  | none => s
  | some r => s.modCore p fun c => c.loadRole r (s.memBytes (l.image + r.toff) r.tsize) (s.memBytes (l.image + r.doff) r.dsize)
/-- The initial tasks with the cores that R105 gives them. -/
def Launch.deal (l : Launch) (tasks : List (List Byte)) : List (Nat × List Byte) :=
  (tasks.foldl (fun (x : List (Nat × List Byte) × Tbl Nat) r =>
    let j := tblGetD x.2 (recRole r) 0
    let cs := (l.coresOf (recRole r)).filterMap l.posOfLogical
    (x.1 ++ ((cs[j % max cs.length 1]?).map fun p => (p, r)).toList, tblSet x.2 (recRole r) (j + 1))) ([], [])).1
/-- Push the initial tasks (R105), each of which makes its core leave the unbounded state (R126): task i of a role onto the role's cores in turn. In step mode record 0 goes to every core that has a
role (R124). -/
def State.dealTasks (s : State) (l : Launch) (tasks : List (List Byte)) : State :=
  if l.stepMode then
    match tasks.head? with
    | none => s
    | some r => (l.placed.filterMap l.posOfLogical).foldl (fun s p => s.modCore p fun c => c.push r none) s
  else
    (l.deal tasks).foldl (fun s x => s.modCore x.1 fun c => (c.leaveUnbounded 0#32).push x.2 none) s
/-- The tasks of a launch, read again from its record. -/
def State.launchTasks (s : State) (l : Launch) : List (List Byte) :=
  (List.range (entNat l.record 0x58 4)).map fun i => s.fwLoad (entWord l.record 0x50 + BitVec.ofNat 64 (64 * i)) 64
/-- A launch takes its cores: every active core of its rectangle begins it (R105, R109). -/
def State.beginCores (s : State) (l : Launch) : State :=
  let l := { l with st := .running }
  let s := s.modLaunch l.lid fun _ => l
  (l.map.zipIdx.filter fun e => l.inRect e.1).foldl (fun s e =>
    let s := s.modCore e.1 fun c => c.begin_ l e.1 e.2
    if l.stepMode && (s.core e.1).hasRole then s.loadStep l e.1 else s) s

/-! ## Who may start (R121, R123) -/

/-- Two launches' core rectangles share a position. -/
def Launch.overlaps (a b : Launch) : Bool := a.x0 < b.x0 + b.w && b.x0 < a.x0 + a.w && a.y0 < b.y0 + b.h && b.y0 < a.y0 + a.h
/-- A launch occupies its cores. -/
def Launch.onCores (l : Launch) : Bool := l.st == .running || l.st == .saving || l.st == .cancelled
/-- A launch stands before another in the queue: lower PRIO number, or equal and earlier. -/
def Launch.before (a b : Launch) : Bool := a.prio < b.prio || (a.prio == b.prio && a.order < b.order)
/-- No other launch stands on a launch's rectangle, no step-mode launch is live, and its containment rectangle is in service. -/
def State.rectFree (s : State) (l : Launch) : Bool :=
  s.launches.all (fun m => m.lid == l.lid || !(m.onCores && m.overlaps l)) &&
  !(s.launches.any fun m => m.lid != l.lid && m.stepMode && m.onCores) && (!l.stepMode || s.launches.all fun m => m.lid == l.lid || !m.onCores) &&
  !((s.fw.rects.toList[l.rect]?).any (·.active))
/-- A waiting launch may start now (R61, R121): its rectangle is free, its pages find frames, and no launch that waits before it wants
the same cores. -/
def State.canPlace (s : State) (l : Launch) : Bool :=
  s.rectFree l && s.framesFit l.leases &&
  !(s.launches.any fun m => m.lid != l.lid && m.st == .waiting && m.before l && m.overlaps l && s.rectFree m)
/-- Begin a full context switch (R118, R119). -/
def State.beginSave (s : State) (l : Launch) (byPrio : Bool) (c : Option CmdRef) : State :=
  (s.modLaunch l.lid fun l => { l with st := .saving, byPrio := byPrio, preemptBy := c, order := s.fw.nextOrder }).modFw
    (fun w => { w with nextOrder := w.nextOrder + 1 }) |>.sendHalts l
/-- The launches that stand on a launch's rectangle. -/
def State.inTheWay (s : State) (l : Launch) : List Launch := s.launches.filter fun m => m.lid != l.lid && m.onCores && m.overlaps l
/-- A waiting launch evicts those in its way when each has a greater PRIO number, it finds its frames, and no launch waits before it for the
same cores (R121); a step-mode launch is not evicted. -/
def State.evictFor (s : State) (l : Launch) : State :=
  let way := s.inTheWay l
  if way.isEmpty || !(way.all fun m => l.prio < m.prio && !m.stepMode) || !s.framesFit l.leases ||
      s.launches.any (fun m => (m.stepMode && m.onCores) || (m.lid != l.lid && m.st == .waiting && m.before l && m.overlaps l)) then s
  else (way.filter fun m => m.st == .running).foldl (fun s m => s.beginSave m true none) s

end Sys2Proof.Machine
end

