-- ==== Sys2Proof/Machine/Launching.lean ====
section
/-! DEFINITION. The launch commands LAUNCH, CANCEL, PREEMPT, RESUME, LEASE, UNLEASE and RECAST (R89), firmware's placing, saving,
restoring and ending of launches (R106, R113, R119 to R121, R125), revocation (R62), and the gangs (R135 to R139). -/
namespace Sys2Proof.Machine

/-! ## Placing -/

/-- The members of a gang part as they will be placed (R135, R136): initial task i is member GBASE + i; its group takes the lowest
range of its core as the core's first group. -/
def State.memberEntries (s : State) (l : Launch) : List GangEntry :=
  (l.deal (s.launchTasks l)).zipIdx.map fun x =>
    { member := l.gbase + x.2, dev := 0xFF, pos := x.1.1, base := 0, size := l.galloc, gen := 1 }
/-- A gang of which nothing is known yet. -/
def Gang.fresh (id total : Nat) (now : Word) : Gang :=
  { id := id, lid := 0, entries := [], ready := [], acked := [], placed := false, departed := [], started := false, barArr := 0, peerLost := false,
    total := total, since := now, bad := false, finals := [], free := [] }
/-- Change a gang by its identity. -/
def State.modGang (s : State) (id : Nat) (f : Gang → Gang) : State := { s with gangs := s.gangs.map fun g => if g.id = id then f g else g }
/-- A gang by its identity. -/
def State.gang? (s : State) (id : Nat) : Option Gang := s.gangs.find? fun g => g.id == id
/-- The coordinator takes a READY (R136 steps 2 and 3): a member claimed twice or an unequal GTOTAL spoils the placement. -/
def Gang.take (g : Gang) (gbase gtotal : Nat) (es : List GangEntry) : Gang :=
  { g with ready := g.ready ++ [(gbase, es.length)], entries := g.entries ++ es,
           bad := g.bad || g.total != gtotal || es.any fun e => gtotal ≤ e.member || g.entries.any fun x => x.member == e.member }
/-- READY messages cover members 0 to GTOTAL − 1. -/
def Gang.covered (g : Gang) : Bool := g.entries.length == g.total && !g.bad
/-- The other modules of a gang. -/
def Gang.peers (g : Gang) : List Nat := ((g.entries.map (·.dev)).filter fun d => d != 0xFF).foldl setIns []
/-- A gang part ends with PEER and holds nothing, though it may still wait for its cores (R136). -/
def State.failGang (s : State) (g : Gang) : State :=
  let s := match s.launches.find? fun l => l.gang == g.id with
    | some l => s.endLaunch l 0x12
    | none => s
  { s with gangs := s.gangs.filter fun (x : Gang) => x.id != g.id }
/-- GO: the members of this module start, each from its initial task on its own core (R135, R136 step 5). -/
def State.goGang (s : State) (g : Gang) : State :=
  match s.launch? g.lid with
  | some l =>
    if g.started then s
    else (l.deal (s.launchTasks l)).zipIdx.foldl (fun s x =>
        (s.modCore x.1.1 fun c => c.leaveUnbounded 0#32).startGroup x.1.1 l x.1.2 none (some (l.gbase + x.2)))
      (s.modGang g.id fun g => { g with started := true })
  | none => s
/-- The coordinator goes on when it can (R136 steps 3 to 5): the entries go out when every READY is in and its own part stands; with every
acknowledgement GO follows. -/
def State.coordinate (s : State) (id : Nat) : State :=
  match s.gang? id with
  | none => s
  | some g =>
    if g.bad then s.failGang g
    else if g.lid = 0 || g.started || !g.covered then s
    else if !(s.launch? g.lid).any (fun l => l.gbase == 0) then s
    else
      let s := s.modGang id fun g => { g with placed := true }
      if g.peers.all fun d => g.acked.contains d then s.goGang { g with placed := true } else s
/-- A gang part stands on its cores (R136 steps 1 and 2): the coordinator takes its own READY; any other sends it. -/
def State.placeGang (s : State) (l : Launch) : State :=
  let es := s.memberEntries l
  let s := s.beginCores l
  let g := (s.gang? l.gang).getD (Gang.fresh l.gang l.gtotal s.time)
  let g := { g with lid := l.lid }
  let g := if l.gbase = 0 then g.take 0 l.gtotal es else { g with total := l.gtotal, since := s.time }
  { s with gangs := (s.gangs.filter fun (x : Gang) => x.id != l.gang) ++ [g] }.coordinate l.gang
/-- A launch whose conditions hold takes its cores, its pages resident (R61, R105, R136). -/
def State.place (s : State) (l : Launch) : State :=
  let s := s.mapPages l.leases
  if l.gang = 0 then (s.beginCores l).dealTasks l (s.launchTasks l) else s.placeGang l
/-- A waiting launch starts, or evicts those in its way, or waits (R121). -/
def State.tryPlace (s : State) (lid : Nat) : State :=
  match s.launch? lid with
  | some l => if l.st == .waiting then (if s.canPlace l then s.place l else s.evictFor l) else s
  | none => s
/-- A gang launch has not started its members. -/
def State.placing (s : State) (l : Launch) : Bool := l.gang != 0 && !((s.gangOf l).any (·.started))

/-! ## The launch commands -/

/-- LAUNCH (R88 to R90, R121, R123). -/
def execLaunch (q : Nat) (s : State) : Out :=
  command q 0x01 (fun _ => true) s fun c e s =>
    let lid := entNat e 8 4
    let a := entWord e 16
    if lid = 0 ∨ a.toNat % 256 ≠ 0 ∨ !s.addrOk a 256 then s.finishCmd c 0x03
    else if !s.addrMapped a 256 then s.finishCmd c 0x0B
    else if (s.launch? lid).isSome then s.finishCmd c 0x05
    else if 64 ≤ s.launches.length then s.finishCmd c 0x06
    else
      let k := s.readLaunch (s.fwLoad a 256)
      match s.badLaunch k with
      | some st => s.finishCmd c st
      | none =>
        if k.step && !s.launches.isEmpty then s.finishCmd c 0x05
        else
          let l := s.makeLaunch k lid a c
          ({ s with launches := s.launches ++ [l] }.modFw fun w => { w with nextOrder := w.nextOrder + 1 }).tryPlace lid
/-- CANCEL of a launch (R89, R121): one without cores ends at once; else every group halts, and the launch ends when its accesses have. -/
def State.cancel (s : State) (l : Launch) (c : Option CmdRef) : State :=
  match l.st with
  | .waiting | .evicted => s.endLaunch { l with cancelBy := c } 0x0D
  | .running => (s.modLaunch l.lid fun l => { l with st := .cancelled, cancelBy := c }).sendHalts l
  | .saving => s.modLaunch l.lid fun l => { l with st := .cancelled, cancelBy := c }
  | .cancelled => s
/-- CANCEL (R89). -/
def execCancel (q : Nat) (s : State) : Out :=
  command q 0x02 (fun _ => true) s fun c e s =>
    match s.launch? (entNat e 8 4) with
    | none => s.finishCmd c 0x04
    | some l => if l.st == .cancelled then s.finishCmd c 0x05 else s.cancel l (some c)
/-- A launch can be pre-empted: it runs, its gang has started, and it is not in step mode (R89, R121). -/
def State.mayPreempt (s : State) (l : Launch) : Bool := l.st == .running && !l.stepMode && !s.placing l
/-- PREEMPT (R119). -/
def execPreempt (q : Nat) (s : State) : Out :=
  command q 0x03 (fun _ => true) s fun c e s =>
    match s.launch? (entNat e 8 4) with
    | none => s.finishCmd c 0x04
    | some l => if s.mayPreempt l then s.beginSave l false (some c) else s.finishCmd c 0x05
/-- RESUME (R120, R121): the restore waits for the final image and a free rectangle. -/
def execResume (q : Nat) (s : State) : Out :=
  command q 0x04 (fun _ => true) s fun c e s =>
    match s.launch? (entNat e 8 4) with
    | none => s.finishCmd c 0x04
    | some l =>
      if (l.st == .evicted || l.st == .saving) && l.resumeBy.isNone then s.modLaunch l.lid fun l => { l with resumeBy := some c }
      else s.finishCmd c 0x05
/-- LEASE (R59, R61, R89). -/
def execLease (q : Nat) (s : State) : Out :=
  command q 0x05 (fun _ => true) s fun c e s =>
    let x := leaseOf (entLease e)
    match s.launch? (entNat e 8 4) with
    | none => s.finishCmd c 0x04
    | some l =>
      if !s.leaseOk x || Config.leaseFrames < (s.leasePages [x]).length then s.finishCmd c 0x07
      else match addLease l.leases x with
        | none => s.finishCmd c 0x06
        | some t => ((s.modLaunch l.lid fun l => { l with leases := t }).mapPages [x]).finishCmd c 0

/-! ## Revocation (R62) -/

/-- A lease of a launch is revoked: its entry is unused, and translations of its pages are dropped. -/
def State.dropLease (s : State) (lid i : Nat) : State :=
  match s.launch? lid with
  | none => s
  | some l =>
    let s := match l.leases[i]? with
      | some e => if e.base / 2 ^ 48 = 0xFF ∧ e.base % 2 ^ 48 < 2 ^ 47 then
          s.writeXinv (BitVec.ofNat 64 (e.base % 2 ^ 47 + (e.pages - 1) % 65536 * 2 ^ 47)) else s
      | none => s
    let s := s.modLaunch lid fun l =>
      { l with leases := l.leases.modify i fun (e : Lease) => { e with pages := 0 },
               image0 := tblMap (fun _ (c : Core) => { c with shot := setDel c.shot i }) l.image0 }
    let s := { s with cores := tblMap (fun _ (c : Core) => if c.lid = lid then { c with shot := setDel c.shot i } else c) s.cores }
    match l.leases[i]? with
    | some e => s.unpin [e]
    | none => s
/-- UNLEASE (R62, R89): step 1. A launch without cores has nothing to shoot. -/
def execUnlease (q : Nat) (s : State) : Out :=
  command q 0x06 (fun _ => true) s fun c e s =>
    let i := entNat e 12 1
    match s.launch? (entNat e 8 4) with
    | none => s.finishCmd c 0x04
    | some l =>
      if !(l.leases[i]?).any (fun e => e.pages ≠ 0) then s.finishCmd c 0x04
      else if s.fw.shoots.any fun x => x.lid == l.lid && x.idx == i then s.finishCmd c 0x05
      else
        let ps := s.coresOn l.lid
        if ps.isEmpty then (s.dropLease l.lid i).finishCmd c 0
        else
          let root := ((s.fw.rects.toList[l.rect]?).map fun r => posOf r.x0 r.y0).getD 0
          let x : Shoot := { lid := l.lid, idx := i, tree := AckTree.over root ps, cmd := c }
          { s with ctl := s.ctl ++ ps.map fun p => CtlMsg.shoot p l.lid i, fw := { s.fw with shoots := s.fw.shoots ++ [x] } }
/-- The core at a position, or its router for it, acknowledges a shoot-down: the router acknowledges to its parent when it may (R45). -/
def State.shotAnswer (s : State) (p lid i : Nat) : State :=
  match s.fw.shoots.find? fun x => x.lid == lid && x.idx == i with
  | none => s
  | some x =>
    let t := x.tree.answered p
    let s := s.modFw fun w => { w with shoots := w.shoots.map fun y => if y == x then { x with tree := t } else y }
    if t.ready p then { s with ctl := s.ctl ++ [.shootAck p lid i] } else s
/-- SHOOT (R62 step 2): the core drops the lease; the acknowledgement is `State.settleShots`'s. The router of a gated core with no access
outstanding acknowledges on its behalf and marks its lease-check cache for a flush (R45). A core that the launch has left acknowledges at
once. -/
def execShoot (k : Nat) (s : State) : Out :=
  match s.ctl[k]? with
  | some (.shoot p lid i) =>
    let s := { s with ctl := s.ctl.eraseIdx k }
    let c := s.core p
    .next (if c.lid ≠ lid then s.shotAnswer p lid i
      else if c.gated && !s.reqs.any (fun r => r.src == p) && !s.engines.any (fun x => x.node == p) then
        (s.modCore p fun c => { c with leaseFlush := true }).shotAnswer p lid i
      else s.modCore p fun c => { c with shot := setIns c.shot i, shooting := c.shooting ++ [(lid, i, s.nextId)] })
  | _ => .next s
/-- An access of a core under a lease, issued before the access of a number, has not been answered: a request, what an engine operation,
a queued vector command or a tile operation has still to read or write, or a combined reduction still to be flushed. -/
def State.underLease (s : State) (p lid i mark : Nat) : Bool :=
  match (s.launch? lid).bind fun l => l.leases[i]? with
  | some e =>
    let c := s.core p
    let meets (a n : Nat) : Bool := e.base < a + n && a < e.base + e.pages * 65536
    (s.reqs.any fun r => r.src == p && r.lid == lid && r.id < mark && (r.body.ia?).any fun a => meets a r.body.size) ||
      (s.engines.any fun x => x.node == p && x.lid == lid && x.id < mark && x.todo.any fun q => meets q.dst q.n || (q.src).any fun a => meets a q.n) ||
      (c.v0.queue ++ c.v1.queue).any (fun k => k.lid == lid && k.id < mark && k.runs.any fun r => meets r.ia r.n) ||
      (c.tiles ++ c.matrixQ).any (fun o => o.lid == lid && o.id < mark && (o.sender.isNone || o.step ≠ 0) &&
        (meets o.a (extentA o.shape o.stride o.pfx) || meets o.b (extentB o.shape o.stride o.pfx)))
  | none => false
/-- Acknowledge the shoot-downs whose earlier accesses have been answered (R62 step 3). -/
def State.settleShots (s : State) : State :=
  s.cores.foldl (fun s pc => pc.2.shooting.foldl (fun s x =>
    if s.underLease pc.1 x.1 x.2.1 x.2.2 then s
    else (s.modCore pc.1 fun (c : Core) => { c with shooting := c.shooting.erase x }).shotAnswer pc.1 x.1 x.2.1) s) s
/-- A core that a shoot-down skipped and that is gated no more flushes its lease-check cache: the leases under revocation are gone from
it (R45, R62, R153). -/
def State.settleFlush (s : State) : State :=
  s.cores.foldl (fun s pc =>
    if !pc.2.leaseFlush || pc.2.gated then s
    else s.modCore pc.1 fun c =>
      { c with leaseFlush := false, shot := (s.fw.shoots.filter fun x => x.lid == c.lid).foldl (fun l x => setIns l x.idx) c.shot }) s
/-- SHOOT_ACK (R45, R62 step 4): a router's acknowledgement reaches its parent; the root's ends the lease and completes UNLEASE. -/
def execShootAck (k : Nat) (s : State) : Out :=
  match s.ctl[k]? with
  | some (.shootAck p lid i) =>
    let s := { s with ctl := s.ctl.eraseIdx k }
    .next (match s.fw.shoots.find? fun x => x.lid == lid && x.idx == i with
      | none => s
      | some x =>
        let t := x.tree.acked p
        if p = t.root then ((s.modFw fun w => { w with shoots := w.shoots.erase x }).dropLease lid i).finishCmd x.cmd 0
        else
          let s := s.modFw fun w => { w with shoots := w.shoots.map fun y => if y == x then { x with tree := t } else y }
          match t.next p with
          | some q => { s with ctl := s.ctl ++ [.shootAck q lid i] }
          | none => s)
  | _ => .next s

/-! ## RECAST (R106) -/

/-- RECAST. -/
def execRecast (q : Nat) (s : State) : Out :=
  command q 0x0D (fun _ => true) s fun c e s =>
    let role := entNat e 12 2
    let first := entNat e 16 2
    let n := entNat e 18 2
    let range := (List.range n).map (first + ·)
    match s.launch? (entNat e 8 4) with
    | none => s.finishCmd c 0x04
    | some l =>
      if n = 0 ∨ range.any (fun k => (l.core? k).isNone) then s.finishCmd c 0x03
      else if !(s.readImage l.image).hasRole role then s.finishCmd c 0x08
      else if l.st != .running || l.stepMode || s.placing l || range.any (fun k => (l.posOfLogical k).any fun p => (s.core p).recasting.isSome) ||
          l.roles.any fun x => x.2 != role && (coresIn l.roles x.2).all fun k => range.contains k || (l.posOfLogical k).any fun p => (s.core p).recasting.isSome
        then s.finishCmd c 0x05
      else
        let ps := range.filterMap l.posOfLogical
        (ps.foldl (fun s p => s.modCore p fun c => { c with recasting := some role, victims := [], draws := 0 }) s).modFw fun w =>
          { w with recasts := w.recasts ++ [({ lid := l.lid, role := role, left := ps, cmd := c } : RecastOp)] }
/-- RECAST_CORE_DRAINED (R106 steps 2 to 5): the remaining records go to the lowest core that keeps the old role, the instruction cache is
emptied, and the core takes the new role. -/
def execRecastCoreDrained (p : Nat) (s : State) : Out :=
  let c := s.core p
  match c.recasting, s.launch? c.lid with
  | some role, some l =>
    if !c.groups.isEmpty || c.stealOut || c.halted || l.st != .running then .next s
    else
      let keep := ((l.coresOf c.role).filterMap l.posOfLogical).find? fun q => q != p && (s.core q).recasting.isNone
      let s := s.modCore p fun c => { c with spill := [], deque := [] }
      let s := (c.spill ++ c.deque).foldl (fun s r => match r.2, keep with
        | some m, _ => s.moveCheck l p r.1 m
        | none, some q => s.remotePush p q r.1 none l.lid
        | none, none => s.modCore p fun c => c.push r.1 none) s
      let s := s.modCore p fun c => { c with ic := [], role := role, hasRole := true, recasting := none }
      let s := s.modLaunch l.lid fun l => { l with roles := tblSet l.roles c.lcore role }
      match s.fw.recasts.find? fun x => x.lid == l.lid && x.left.contains p with
      | none => .next s
      | some x =>
        let left := x.left.erase p
        .next (if left.isEmpty then (s.modFw fun w => { w with recasts := w.recasts.erase x }).finishCmd x.cmd 0
          else s.modFw fun w => { w with recasts := w.recasts.map fun y => if y == x then { x with left := left } else y })
  | _, _ => .next s

/-! ## Firmware's steps -/

/-- WAITING_LAUNCH_START (R121): it starts, or evicts the launches in its way. -/
def execWaitingLaunchStart (lid : Nat) (s : State) : Out :=
  .next (s.tryPlace lid)
/-- The other modules of a launch's gang are all in a list (R137); true where there is none. -/
def State.gangAll (s : State) (l : Launch) (f : Gang → List Nat) : Bool := (s.gangOf l).all fun g => g.peers.all fun d => (f g).contains d
/-- A PREEMPT that waits for the save images completes once all are final: this module's, and those of a gang's other modules (R119, R137). -/
def State.preemptDone (s : State) (lid : Nat) : State :=
  match s.launch? lid with
  | none => s
  | some l =>
    if l.st != .evicted || !s.gangAll l (·.finals) then s
    else match l.preemptBy with
      | some c => (s.modLaunch lid fun l => { l with preemptBy := none }).finishCmd c 0
      | none => s
/-- Another module's part of a gang has its save image final (R137). -/
def State.gangFinal (s : State) (gang dev : Nat) : State :=
  let s := s.modGang gang fun g => { g with finals := setIns g.finals dev }
  match s.gang? gang with
  | some g => s.preemptDone g.lid
  | none => s
/-- SAVE_IMAGE_FINAL (R119 step 4, R121): the launch's cores are free, and PREEMPT completes; a cancelled launch ends. -/
def execSaveImageFinal (lid : Nat) (s : State) : Out :=
  match s.launch? lid with
  | none => .next s
  | some l =>
    if !(l.st == .saving || l.st == .cancelled) || !s.imageFinal l then .next s
    else if l.st == .cancelled then .next (s.endLaunch l 0x0D)
    else
      let image := (s.coresOn lid).map fun p => (p, s.core p)
      let s := { s with cores := tblMap (fun _ (c : Core) => if c.lid = lid then c.leave else c) s.cores }
      .next ((s.modLaunch lid fun l => { l with st := .evicted, image0 := image }).preemptDone lid)
/-- A launch evicted before another, of the same or a lower PRIO number, that could return now (R121). -/
def State.resumesBefore (s : State) (l : Launch) : Bool :=
  s.launches.any fun m => m.lid != l.lid && m.st == .evicted && m.byPrio && m.before l && m.overlaps l && s.rectFree m
/-- Restore a launch (R120): each core from its image, retry slots sent again; poison in the image is consumed at once (R148). -/
def State.restore (s : State) (l : Launch) : State :=
  let s := l.image0.foldl (fun s e => s.modCore e.1 fun c => c.restored e.2) s
  let s := s.modLaunch l.lid fun l => { l with st := .running, image0 := [], resumeBy := none, sweep := none }
  let s := if l.gang = 0 then s else s.modGang l.gang fun g => { g with finals := [], free := [] }
  let s := l.image0.foldl (fun s e => (e.2.evSlots.filter fun v => v.retry && v.dst != e.1).foldl (fun s v => s.sendSlot e.1 v) s) s
  let s := l.image0.foldl (fun s e => if s.policy1 e.1 && e.2.poisoned.any fun w => e.2.savedOff (w * 8) then s.beginContain e.1 none 0#64 else s) s
  match l.resumeBy with
  | some c => s.finishCmd c 0
  | none => s
/-- A launch of a lower PRIO number waits for the same cores and takes them next: those in its way have left or are leaving (R121). -/
def State.waitsFor (s : State) (l : Launch) : Bool :=
  s.launches.any fun m => m.lid != l.lid && m.st == .waiting && m.prio < l.prio && m.overlaps l && s.framesFit m.leases &&
    (s.inTheWay m).all fun x => x.st != .running
/-- EVICTED_LAUNCH_RESUME (R120, R121): an evicted launch returns when its rectangle is free: one that priority evicted in its order, one
that PREEMPT evicted after RESUME. The parts of a gang return together, once every module could (R137). -/
def execEvictedLaunchResume (lid : Nat) (s : State) : Out :=
  match s.launch? lid with
  | none => .next s
  | some l =>
    .next (if l.st == .evicted && s.rectFree l && !s.waitsFor l && s.gangAll l (·.free) && (l.resumeBy.isSome || (l.byPrio && !s.resumesBefore l)) then s.restore l else s)
/-- A launch is idle (R113): no group, record, steal, push, engine operation or access of its cores. -/
def State.idleLaunch (s : State) (l : Launch) : Bool :=
  let ps := s.coresOn l.lid
  l.st == .running && !s.placing l && !((s.fw.rects.toList[l.rect]?).any (·.active)) &&
  ps.all (fun p => let c := s.core p
    c.groups.isEmpty && c.deque.isEmpty && c.spill.isEmpty && !c.stealOut && c.threads.isEmpty) &&
  !(s.reqs.any fun r => ps.contains r.src && (match r.use with
    | .event _ | .record => false
    | _ => true)) && !(s.engines.any fun e => ps.contains e.node) && !(s.checks.any fun k => k.lid == l.lid)
/-- The totals of DQXFER over a launch's cores. -/
def State.transfers (s : State) (l : Launch) : Nat × Nat :=
  (s.coresOn l.lid).foldl (fun (x : Nat × Nat) p => (x.1 + (s.core p).xferSent.toNat, x.2 + (s.core p).xferRecv.toNat)) (0, 0)
/-- One launch in a sweep (R113): the second idle sweep with the same totals ends it; a gang part that lost a peer ends with PEER (R138). -/
def State.sweepLaunch (s : State) (l : Launch) : State :=
  let t := s.transfers l
  if !(s.idleLaunch l && t.1 % 2 ^ 32 = t.2 % 2 ^ 32) then s.modLaunch l.lid fun l => { l with sweep := none }
  else if l.sweep ≠ some t then s.modLaunch l.lid fun l => { l with sweep := some t }
  else
    s.endLaunch l (if (s.gangOf l).any (·.peerLost) then 0x12 else 0)
/-- LAUNCH_END_SWEEP (R113), every 10 µs. -/
def execLaunchEndSweep (s : State) : Out :=
  if (s.time - s.fw.sweepAt).toNat < 10000 then .next s
  else .next (s.launches.foldl (fun s l => s.sweepLaunch l) (s.modFw fun w => { w with sweepAt := s.time }))

/-! ## Gang messages (R136 to R139) -/

/-- A device number of another module's numbering in this module's: both count modules by their offset on the W × H torus (R42). `me` is
this module's number in the other's numbering. -/
def translateDev (w h me d : Nat) : Nat :=
  let off (n : Nat) : Nat := if n = 0xFF then 0 else n + 1
  let dx := (off d % w + w - off me % w) % w
  let dy := (off d / w + h - off me / w) % h
  if dy * w + dx = 0 then 0xFF else dy * w + dx - 1
/-- GANG_READY (R136 steps 2 and 3) at the coordinator; a READY may come before its own launch. -/
def execGangReady (gang gbase gtotal : Nat) (es : List GangEntry) (s : State) : Out :=
  let s := if (s.gang? gang).isSome then s else { s with gangs := s.gangs ++ [Gang.fresh gang gtotal s.time] }
  .next (if (s.gang? gang).any (·.started) then s else (s.modGang gang fun g => g.take gbase gtotal es).coordinate gang)
/-- GANG_ENTRIES (R136 step 4) at a part that is not the coordinator: the member table is written, in this module's numbering. -/
def execGangEntries (gang : Nat) (es : List GangEntry) (s : State) : Out :=
  match s.gang? gang with
  | none => .next s
  | some g => match s.launch? g.lid with
    | none => .next s
    | some l =>
      if l.gbase = 0 || g.started then .next s
      else
        let me := ((es.find? fun e => e.member == l.gbase).map (·.dev)).getD 0xFF
        .next (s.modGang gang fun g => { g with placed := true, entries := es.map fun e => { e with dev := translateDev s.fw.torusW s.fw.torusH me e.dev } })
/-- GANG_ENTRIES_ACK (R136 step 5) at the coordinator. -/
def execGangEntriesAck (gang dev : Nat) (s : State) : Out :=
  match s.gang? gang with
  | none => .next s
  | some g => .next (if g.placed && !g.started then (s.modGang gang fun g => { g with acked := setIns g.acked dev }).coordinate gang else s)
/-- GANG_GO (R136 step 5) at a part that is not the coordinator. -/
def execGangGo (gang : Nat) (s : State) : Out :=
  match s.gang? gang with
  | none => .next s
  | some g => .next (if g.placed then s.goGang g else s)
/-- GANG_PLACEMENT_TIMEOUT (R136): 1 s after the first READY. -/
def execGangPlacementTimeout (gang : Nat) (s : State) : Out :=
  match s.gang? gang with
  | none => .next s
  | some g => .next (if !g.started && 1000000000 ≤ (s.time - g.since).toNat then s.failGang g else s)
/-- GANG_FORWARDED_COMMAND (R137): this module's part does as the command says; it completes on the module that took it. -/
def execGangForwardedCommand (gang : Nat) (cmd : GangCmd) (s : State) : Out :=
  match (s.gang? gang).bind fun g => s.launch? g.lid with
  | none => .next s
  | some l => .next (match cmd with
    | .preempt => if s.mayPreempt l then s.beginSave l false none else s
    | .resume => if l.st == .saving || l.st == .evicted then s.modLaunch l.lid fun l => { l with byPrio := true } else s
    | .cancel => s.cancel l none)
/-- DETACH (R138): a member has departed; a member lost to a containment reset leaves the other parts to complete with PEER. -/
def execDetach (gang : Nat) (d : Departure) (s : State) : Out :=
  .next (s.modGang gang fun g => { g with departed := setIns g.departed d.member, peerLost := g.peerLost || d.lost })
/-- Every member that GO started on this module has arrived at the gang level k. The count is fixed at GO, and a departed member
cannot arrive (R139). -/
def State.gangArrived (s : State) (l : Launch) (k : Nat) : Bool :=
  let here := ((s.gangOf l).map fun g => (g.entries.filter fun e => e.dev == 0xFF).length).getD 0
  let arrived := ((s.coresOn l.lid).map fun p => ((s.core p).groups.filter fun g => g.member.isSome && !g.detached && g.allArrived k).length).sum
  here ≤ arrived && 0 < arrived
/-- GANG_BARRIER_RELEASE (R139): the release that the coordinator sends when the arrivals of every module are in. -/
def execGangBarrierRelease (gang : Nat) (s : State) : Out :=
  match (s.gang? gang).bind fun g => s.launch? g.lid with
  | none => .next s
  | some l => match l.levels.find? fun e => e.2.1 == 7 with
    | none => .next s
    | some (k, _, sc) =>
      .next (if s.gangArrived l k then (s.coresOn l.lid).foldl (fun s p =>
          ((s.core p).groups.filter fun g => g.member.isSome && g.allArrived k).foldl (fun s g => s.completeLevel p g k sc) s) s
        else s)

end Sys2Proof.Machine
end

