-- ==== Sys2Proof/Machine/Contain.lean ====
section
/-! DEFINITION. Containment (R146 to R149): the fence, the reset of a rectangle's cores, its end; and corrected errors. -/
namespace Sys2Proof.Machine

/-- The active positions of a containment rectangle. -/
def State.rectCores (s : State) (i : Nat) : List Nat := (List.range 1024).filter fun p => s.active p && s.rectOf p == i
/-- A side-effecting request has been performed at its target: the target's window holds it (R37). -/
def State.performed (s : State) (r : Req) : Bool :=
  !r.parked && (windowAccept (tblGetD (s.node r.dst).windows r.src windowReset) r.seq).isNone
/-- Task records in flight to a core: pushes not yet performed, and steal replies. -/
def State.recordsTo (s : State) (p : Nat) : Nat :=
  (s.reqs.filter fun r => r.dst == p && r.use == .push && r.mark.isNone && !s.performed r).length +
  (s.ctl.filter fun m => match m with
    | .stealReply _ t (some _) _ _ => t == p
    | _ => false).length
/-- Tasks that a launch loses on a core (R147): its groups that run, its records, and those in flight to it. -/
def State.lostOn (s : State) (p : Nat) : Nat :=
  let c := s.core p
  (c.groups.filter fun g => g.check.isNone).length + (c.deque.filter fun r => r.2.isNone).length + (c.spill.filter fun r => r.2.isNone).length + s.recordsTo p
/-- A core reset by containment (R147 step 3): everything of the core is cleared, the scratchpad zero and empty; what the fabric and the
watershed tree keep stays. Debug state and the inbox are cleared with it. -/
def Core.containReset (c : Core) : Core :=
  { Core.reset with gvt := c.gvt, gvtRound := c.gvtRound, sent := c.sent, recv := c.recv, minSent := c.minSent, latched := c.latched,
                    cycles := c.cycles, spce := c.spce, par := c.par, lid := c.lid, lcore := c.lcore, fenced := true, paused := c.paused, stopOwed := c.stopOwed }
/-- Checks that meet a contained rectangle (R148): one whose original was in it is gone, and its original lost; one whose check or third run
was in it closes void. -/
def State.containChecks (s : State) (inside : Nat → Bool) : State :=
  s.checks.foldl (fun s k =>
    if inside k.orig then { s with checks := s.checks.filter fun x => x.id != k.id }.modLaunch k.lid fun l => { l with lost := l.lost + 1 }
    else if inside k.chk || k.third.any inside then s.shutCheck k (some 1) true
    else s) s
/-- Steps 2 and 3 of R147 for the rectangle of a position. -/
def State.containCores (s : State) (i : Nat) : State :=
  let ps := s.rectCores i
  let inside (p : Nat) : Bool := ps.contains p
  -- the dales' reductions go first (R194)
  let s := (ps.map daleOf).eraseDups.foldl (fun s d => (s.flushDale d fun _ => true).1) s
  let s := { s with launches := s.launches.map fun (l : Launch) =>
    if l.rect = i then { l with lost := l.lost + ((ps.filter fun p => (s.core p).lid == l.lid).map s.lostOn).foldl (· + ·) 0 } else l }
  let s := s.containChecks inside
  -- members of gangs depart
  let s := ps.foldl (fun s p => (s.core p).groups.foldl (fun s g => match g.member, s.launch? g.lid with
    | some m, some l => s.depart l m
    | _, _ => s) s) s
  let s := s.ctl.foldl (fun s m => match m with
    | .stealReply _ t (some _) _ colour => if inside t then s.countRecv t colour else s
    | _ => s) s
  let s := { s with
    engines := s.engines.filter (fun e => e.cmd.isSome || !inside e.node),
    reqs := s.reqs.filter (fun r => !inside r.src || match r.use with
      | .flush _ _ => true
      | _ => false),
    ctl := s.ctl.filter fun m => match m with
      | .contain p => !inside p
      | .stealReq t v => !(inside t && inside v)
      | .stealReply _ t _ _ _ => !inside t
      | .write p _ _ => !inside p
      | _ => true }
  let s := ps.foldl (fun s p => s.modCore p Core.containReset) s
  s.modRect i fun r => { r with count := r.count + 1 }
/-- CONTAINMENT_REPORT (R147): the report of a consuming core reaches the management core. -/
def execContainmentReport (k : Nat) (s : State) : Out :=
  match s.ctl[k]? with
  | some (.contain p) => .next (({ s with ctl := s.ctl.eraseIdx k }).containCores (s.rectOf p))
  | _ => .next s
/-- A containment is over 20 µs after the consuming instruction (R147 step 4): the fence is lifted and the rectangle's launches end LOST. -/
def State.endContain (s : State) (i : Nat) : State :=
  match s.fw.rects.toList[i]? with
  | none => s
  | some r =>
    if !r.active || (s.time - r.ctime).toNat < 20000 || (s.ctl.any fun m => match m with
        | .contain p => s.rectOf p == i
        | _ => false) then s
    else
      let s := (s.launches.filter fun l => l.rect == i).foldl (fun s l => s.endLaunch l 0x0E) s
      let s := (s.rectCores i).foldl (fun s p => s.modCore p fun c => { c with fenced := s.cutOff p, lid := 0 }) s
      s.modRect i fun r => { r with active := false }
/-- The containments that are over. -/
def State.settleContain (s : State) : State := (List.range 16).foldl (fun s i => s.endContain i) s
/-- A corrected error of a slice is counted in rectangle 0 (R146). -/
def State.sliceCorrected (s : State) : State := s.modRect 0 fun r => { r with ce := r.ce + 1 }
/-- A corrected error of a core's scratchpad (true) or caches is counted (R146, R159, R164, R165). -/
def State.corrected (s : State) (p : Nat) (sp : Bool) : State :=
  (s.modCore p fun c => if sp then { c with spce := satInc c.spce } else { c with par := satInc c.par }).modRect (s.rectOf p) fun r => { r with ce := r.ce + 1 }

end Sys2Proof.Machine
end

