-- ==== Sys2Proof/Machine/Control.lean ====
section
/-! DEFINITION. Branches and jumps (R307, R308). A target that fails its fetch check faults at the target (R260). -/
namespace Sys2Proof.Machine

/-- The issuing thread retires and goes on at a target; a taken branch is traced (R226). -/
def State.jump (s : State) (t : Thread) (target : Word) : State :=
  (s.setCur { t.retired 0 s.time with pc := target }).traceBranch s.pos s.slot target
/-- A conditional branch (R307). -/
def branch (rs : List Reg) (c : Thread → Bool) (i : BitVec 12) (s : State) : Out :=
  plain rs s fun t => .next (if c t then s.jump t (t.pc + immB i) else s.retire t)

/-- `beq` (R307). -/
def execBeq (a b : Reg) (i : BitVec 12) (s : State) : Out := branch [a, b] (fun t => t.rx a == t.rx b) i s
/-- `bne` (R307). -/
def execBne (a b : Reg) (i : BitVec 12) (s : State) : Out := branch [a, b] (fun t => t.rx a != t.rx b) i s
/-- `blt` (R307). -/
def execBlt (a b : Reg) (i : BitVec 12) (s : State) : Out := branch [a, b] (fun t => (t.rx a).slt (t.rx b)) i s
/-- `bge` (R307). -/
def execBge (a b : Reg) (i : BitVec 12) (s : State) : Out := branch [a, b] (fun t => (t.rx b).sle (t.rx a)) i s
/-- `bltu` (R307). -/
def execBltu (a b : Reg) (i : BitVec 12) (s : State) : Out := branch [a, b] (fun t => (t.rx a).ult (t.rx b)) i s
/-- `bgeu` (R307). -/
def execBgeu (a b : Reg) (i : BitVec 12) (s : State) : Out := branch [a, b] (fun t => (t.rx b).ule (t.rx a)) i s
/-- `bp` (R307). -/
def execBp (a : Pred) (i : BitVec 12) (s : State) : Out := branch [] (fun t => t.rp a) i s
/-- `bnp` (R307). -/
def execBnp (a : Pred) (i : BitVec 12) (s : State) : Out := branch [] (fun t => !t.rp a) i s
/-- `jal` (R308). -/
def execJal (d : Reg) (i : BitVec 20) (s : State) : Out := 
  plain [d] s fun t => .next (s.jump (t.wx d (t.pc + 4#64)) (t.pc + immJ i))
/-- `jalr` (R308): the base is read before the link is written. -/
def execJalr (d a : Reg) (i : BitVec 12) (s : State) : Out := 
  plain [d, a] s fun t => .next (s.jump (t.wx d (t.pc + 4#64)) ((t.rx a + immI i) &&& ~~~1#64))

end Sys2Proof.Machine
end

