-- ==== Sys2Proof/Machine/Integrity.lean ====
section
/-! DEFINITION. Encryption, integrity tags and error correction of LPDDR (R64 to R66): what the memory devices hold for each block, and
what the controller finds when it reads one. The state keeps plaintext as the controllers return it; everything stored derives from it,
the keys in force and the errors since it was written. -/
namespace Sys2Proof.Machine

/-- Plaintext of a physical block. -/
def State.plainBlock (s : State) (k : Nat) : BitVec 512 := BitVec.ofNat 512 (natOfBytes (memRead s.mem (64 * k) 64))
/-- The tweak of a block: pa[51:6] (R64). -/
def tweakOf (k : Nat) : BitVec 46 := BitVec.ofNat 46 k
/-- Ciphertext of a physical block as the controller writes it (R64). -/
def State.cipherBlock (s : State) (k : Nat) : BitVec 512 := Config.aesXts s.fw.xtsKey (tweakOf k) (s.plainBlock k)
/-- The 56-bit tag of a ciphertext (R65). -/
def State.tagFor (s : State) (k : Nat) (c : BitVec 512) : BitVec 56 :=
  BitVec.ofNat 56 (natOfBytes (Config.kmac128 (bytesOfNat s.fw.tagKey.toNat 32) (bytesOfNat (tweakOf k ++ c).toNat 70) 56
    [0x47#8, 0x5A#8, 0x54#8, 0x41#8, 0x47#8]))
/-- The check bytes of the eight 64-bit words of a block, word i in bits [8i+7:8i] (R65). -/
def checkBytes (c : BitVec 512) : BitVec 64 :=
  (List.range 8).foldl (fun (w : BitVec 64) i => w ||| ((Config.secded (c.extractLsb' (64 * i) 64)).setWidth 64 <<< (8 * i))) 0#64
/-- The sideband of a block with a tag (R65). -/
def sidebandOf (c : BitVec 512) (tag : BitVec 56) : BitVec 128 :=
  let high := tag.extractLsb' 8 48
  0#8 ++ Config.secded (high.setWidth 64) ++ high ++ checkBytes c
/-- The low tag byte of a block, which the carve-out holds (R65). -/
def State.carveByte (s : State) (k : Nat) : Byte := (s.tagFor k (s.cipherBlock k)).extractLsb' 0 8
/-- The carve-out block that serves a 4 KiB range: the low tag bytes of its 64 blocks (R65). -/
def State.carveBlock (s : State) (r : Nat) : BitVec 512 := BitVec.ofNat 512 (natOfBytes ((List.range 64).map fun i => s.carveByte (64 * r + i)))
/-- No error. -/
def Upset.none : Upset := { data := 0#512, side := 0#128 }
/-- Errors on top of errors. -/
def Upset.add (a b : Upset) : Upset := { data := a.data ^^^ b.data, side := a.side ^^^ b.side }
/-- What the devices hold for a block: ciphertext and sideband with their errors. -/
def State.storedBlock (s : State) (k : Nat) : BitVec 512 × BitVec 128 :=
  let u := tblGetD s.upsets k Upset.none
  let c := s.cipherBlock k
  (c ^^^ u.data, sidebandOf c (s.tagFor k c) ^^^ u.side)
/-- What they hold for the carve-out block of a range: no tag (R65). -/
def State.storedCarve (s : State) (r : Nat) : BitVec 512 × BitVec 128 :=
  let u := tblGetD s.carveUpsets r Upset.none
  (s.carveBlock r ^^^ u.data, (checkBytes (s.carveBlock r)).setWidth 128 ^^^ u.side)

/-- SECDED on a word and its check byte: the word, and whether one bit was corrected; none where it is uncorrectable. -/
def eccWord (w : Word) (c : Byte) : Option (Word × Bool) :=
  if Config.secded w = c then some (w, false)
  else match (List.range 64).find? fun i => Config.secded (w ^^^ (1#64 <<< i)) == c with
    | some i => some (w ^^^ (1#64 <<< i), true)
    | none => if (List.range 8).any fun i => Config.secded w == c ^^^ (1#8 <<< i) then some (w, true) else none
/-- SECDED on the words of a block. -/
def eccBlock (d : BitVec 512) (c : BitVec 64) : Option (BitVec 512 × Bool) :=
  (List.range 8).foldl (fun acc i => acc.bind fun (x : BitVec 512 × Bool) =>
    (eccWord (d.extractLsb' (64 * i) 64) (c.extractLsb' (8 * i) 8)).map fun w =>
      ((x.1 ||| ((BitVec.setWidth 512 w.1 : BitVec 512) <<< (64 * i)) : BitVec 512), x.2 || w.2)) (some (0#512, false))
/-- The carve-out block of a range after its own ECC. -/
def State.carveEcc (s : State) (r : Nat) : Option (BitVec 512 × Bool) := eccBlock (s.storedCarve r).1 ((s.storedCarve r).2.extractLsb' 0 64)
/-- What reading a carve-out block finds: clean, corrected or uncorrectable (R67). -/
def State.carveOutcome (s : State) (r : Nat) : EccOutcome :=
  match s.carveEcc r with
  | none => .ue
  | some (_, fixed) => if fixed then .ce else .clean
/-- What reading a block finds (R66), with its ciphertext after correction: ECC over the data and over the high tag bits, then the tag
compared, its low byte from the carve-out. -/
def State.blockOutcome (s : State) (k : Nat) : EccOutcome × BitVec 512 :=
  let x := s.storedBlock k
  match eccBlock x.1 (x.2.extractLsb' 0 64), eccWord ((x.2.extractLsb' 64 48).setWidth 64) (x.2.extractLsb' 112 8), s.carveEcc (k / 64) with
  | some (c, a), some (t, b), some (low, _) =>
    let tag : BitVec 56 := t.extractLsb' 0 48 ++ low.extractLsb' (8 * (k % 64)) 8
    (if tag = s.tagFor k c then (if a || b then .ce else .clean) else if a || b then .both else .tm, c)
  | _, _, _ => (.ue, x.1)
/-- The controller reads the carve-out block of a range (R66, R67): corrected and written back, or its 64 blocks are poisoned. -/
def State.readCarve (s : State) (r : Nat) (demand : Bool) : State :=
  let o := s.carveOutcome r
  let s := s.eccEvent (64 * r) true o demand
  if o = .ce then { s with carveUpsets := tblErase s.carveUpsets r } else s
/-- The controller reads a block (R66): a corrected one is written back, and one whose errors went unseen is decrypted as it stands. -/
def State.readData (s : State) (k : Nat) (demand : Bool) : State :=
  let o := s.blockOutcome k
  let s1 := s.eccEvent k false o.1 demand
  if (o.1 = .ce ∨ o.1 = .clean) ∧ (tblGet? s.upsets k).isSome = true then
    { s1 with upsets := tblErase s1.upsets k,
              mem := if o.2 = s.cipherBlock k then s1.mem
                else memWrite s1.mem (64 * k) (bytesOfNat (Config.aesXtsInv s.fw.xtsKey (tweakOf k) o.2).toNat 64) }
  else s1
/-- The controller reads a block and the carve-out byte of its tag (R66, R67); an uncorrectable carve-out block leaves the tag unverifiable. -/
def State.readBlock (s : State) (k : Nat) (demand : Bool) : State :=
  if s.carveOutcome (k / 64) = .ue then s.readCarve (k / 64) demand
  else (s.readCarve (k / 64) demand).readData k demand
/-- Errors appear in a stored block. -/
def State.upsetBlock (s : State) (k : Nat) (u : Upset) : State :=
  if k < memBlocks then { s with upsets := tblSet s.upsets k (Upset.add (tblGetD s.upsets k Upset.none) u) } else s
/-- Errors appear in the carve-out block of a range. -/
def State.upsetCarve (s : State) (r : Nat) (u : Upset) : State :=
  if 64 * r < memBlocks then { s with carveUpsets := tblSet s.carveUpsets r (Upset.add (tblGetD s.carveUpsets r Upset.none) u) } else s
/-- Errors, if any, appear in a block or in the carve-out block of its range. -/
def State.upset (s : State) (k : Nat) (carveOut : Bool) (u : Upset) : State :=
  if u = Upset.none then s else if carveOut then s.upsetCarve (k / 64) u else s.upsetBlock k u

end Sys2Proof.Machine
end

