-- ==== Sys2Proof/Machine/Reset.lean ====
section
/-! DEFINITION. Resets (R19 to R22, R80, R84, R89), the input and the coolant (R12, R15), the sampling of rails and sensors and the
clock points (R13, R14, R16). -/
namespace Sys2Proof.Machine

/-! ## Resets -/

/-- A cold reset begins at step 0 (R19, R20): what lies in fuses, in the VAUX-powered fault storage and outside the module stays. -/
def State.coldReset (s : State) (kind : ResetKind) : State :=
  let w := s.fw
  { State.reset with
    host := s.host, hostBad := s.hostBad, agenda := s.agenda, freeCtr := s.freeCtr, pos := s.pos, slot := s.slot, lastPos := s.lastPos,
    fw := { Firm.reset with
      last := kind, fused := w.fused, lifeCycle := w.lifeCycle, patchFloor := w.patchFloor, idIndex := w.idIndex, resets := w.resets,
      faultClass := w.faultClass, faultRail := w.faultRail, faultTime := w.faultTime, thermalLog := w.thermalLog, inputGood := w.inputGood } }
/-- Note a fault in the storage that QUERY item 0x08 reports (R13). -/
def State.noteFault (s : State) (cls rail : Nat) : State := s.modFw fun w => { w with faultClass := cls, faultRail := rail, faultTime := s.time }
/-- A thermal or flow fault (R16): every rail except VAUX goes off, until MRSTN or an input cycle. -/
def State.shutDown (s : State) (cls : Nat) : State :=
  ((s.noteFault cls 0xFF).coldReset .thermal).modFw fun w => { w with shutdown := true, railsOn := false }
/-- A rail fault or an input overload (R13): a cold reset. -/
def State.railReset (s : State) (cls rail : Nat) : State := (s.noteFault cls rail).coldReset .rail

/-- A queue held wholly in host memory as a warm reset leaves it (R84), running or not before. `keep` is the RESET command. -/
def State.warmQueue (s : State) (keep : Option CmdRef) (v : Queue) : Queue :=
  let wp := natOfBytes (s.fwLoad v.sub 8)
  let crp := natOfBytes (s.fwLoad (v.sub + 8#64) 8)
  { v with rp := wp, wpLast := wp, cwp := crp, crpLast := crp, pending := [], begun := v.begun.filter fun c => keep = some c, heldCpl := [],
           waiting := none, deleting := none, stopping := false, laps := 0, state := 1, err := 0 }
/-- The queues at the beginning of a warm reset (R79, R84). -/
def State.warmQueues (s : State) (keep : Option CmdRef) : Tbl Queue :=
  (s.fw.queues.filter fun e => e.1 = 0 || !e.2.inDevice).map fun e =>
    (e.1, if e.2.inDevice then { Queue.none with base := e.2.base, cbase := e.2.cbase, sub := e.2.sub, stat := e.2.stat, size := e.2.size }
      else s.warmQueue keep e.2)
/-- A basin at a warm reset: it keeps its point and what holds it down, its clock count restarts; an expert cap ends (assumption 44). -/
def Basin.warm0 (b : Basin) : Basin := { b with expert := none, boost := false, changing := false, clocks := 0 }
/-- A warm reset begins at step 3 (R19, R84): rails, time, link counters and the routers' tables stay; the queues are dealt with first. -/
def State.warmReset (s : State) (image : Option (List Byte)) (c : Option CmdRef) : State :=
  let w := s.fw
  let keep := match c with
    | some x => if (s.queue x.q).inDevice then none else some x
    | none => none
  let qs := s.warmQueues keep
  let s' : State := { State.reset with
    time := s.time, host := s.host, hostBad := s.hostBad, agenda := s.agenda, freeCtr := s.freeCtr, pos := s.pos, slot := s.slot, lastPos := s.lastPos,
    fw := { Firm.reset with
      phase := 3, last := .warm, linkUp := true, railsOn := true, basePoint := w.basePoint, railOut := w.railOut, thermalLog := w.thermalLog,
      lastHigh := w.lastHigh, inputGood := w.inputGood, faultClass := w.faultClass, faultRail := w.faultRail, faultTime := w.faultTime,
      overInput := w.overInput, overFault := w.overFault, calmM := w.calmM, calmH := w.calmH, basins := w.basins.map Basin.warm0,
      fused := w.fused, quarantined := w.quarantined, susp := w.susp, doomed := w.doomed, cleanBy := w.cleanBy, lifeCycle := w.lifeCycle, resets := w.resets,
      patchv := w.patchv, patchFloor := w.patchFloor, patch := w.patch, bootImage := image, idIndex := w.idIndex, queues := qs,
      deadLinks := w.deadLinks, tableDead := w.tableDead, moduleX := w.moduleX, moduleY := w.moduleY, portDown := w.portDown, sent := w.sent, defl := w.defl, stall := w.stall, replay := w.replay, ptpStepped := w.ptpStepped, peers := w.peers,
      torusW := w.torusW, torusH := w.torusH, resetBy := keep, wsPub := s.time, sweepAt := s.time } }
  ((qs.filter fun e => !e.2.inDevice).map (·.1)).foldl (fun s q => s.writeStatus q) s'
/-- A warm reset can begin: the rails are up and the link has trained (R21). -/
def State.mayWarm (s : State) : Bool := s.fw.inputGood && !s.fw.shutdown && s.fw.linkUp && (3 ≤ s.fw.phase || s.fw.fail)

/-- The launch of the step-mode boot stub (R20 step 6), with a number that no host launch has. -/
def blankLaunch (lid : Nat) (map : List Nat) (roles : Tbl Nat) (step : Bool) : Launch :=
  { lid := lid, st := .running, byPrio := false, order := 0, record := [], recAddr := 0, x0 := 0, y0 := 0, w := 32, h := 32, rect := 0, prio := 0,
    levels := [], galloc := 1, exch := false, args := 0#64, spans := [], leases := [], image := 0, map := map, roles := roles, stepMode := step,
    sample := 0, hold := false, gang := 0, gbase := 0, gtotal := 0, vtbase := 0#32, cmd := { q := 64, index := 0, tag := 0#16, opc := 1, nocpl := true },
    resumeBy := none, lost := 0, ran := 0, sweep := none, cancelBy := none, preemptBy := none, image0 := [], barArr := [], nextCheck := 0,
    parts := roles.map (·.1) }
/-- The record of a group of one thread that starts at an address. -/
def plainRecord (entry : Word) : List Byte := bytesOf entry 8 ++ repeatN 0#8 26 ++ [1#8] ++ repeatN 0#8 29
/-- Number of the stub's launch. -/
def stubLid : Nat := 2 ^ 32
/-- The active positions in ascending order: the logical-number map (R9). -/
def State.activeMap (s : State) : List Nat := (List.range 1024).filter s.active
/-- Every active core starts the stub in step mode (R20 step 6). -/
def State.startStub (s : State) : State :=
  let m := s.activeMap
  let l := { blankLaunch stubLid m (m.zipIdx.map fun e => (e.2, 0)) true with spans := [{ vbase := 0#64, vlimit := 0x40000#64, offset := 0#64, attr := 3#64 }] }
  let s := { s with launches := s.launches ++ [l] }
  m.zipIdx.foldl (fun s e =>
    (s.modCore e.1 fun c => { c.begin_ l e.1 e.2 with locked := stubLines }).startGroup e.1 l (plainRecord Config.stubAddress) none) s
/-- The stub is over. -/
def State.endStub (s : State) : State :=
  { s with cores := tblMap (fun _ (c : Core) => if c.lid = stubLid then { c.leave with locked := [] } else c) s.cores,
           launches := s.launches.filter fun l => l.lid != stubLid }
/-- The rings that firmware places in its reserve before normal service (R49, R68, R145, R214; assumption 3). -/
def State.placeRings (s : State) : State :=
  let a (k : Nat) : Word := BitVec.ofNat 64 (reserveAt k)
  s.modFw fun w => { w with fltBase := a 0, chkBase := a 0x10000, scrubBase := a 0x20000, dmpBase := a 0x100000, cgBase := a 0x400000 }
/-- Normal service begins (R20 step 8): every time is zero, every basin moves to point N or as near as the rules allow, and the enabled
queues are served, an invalid one halted with ERR 3 (R79, assumption 79). -/
def State.beginService (s : State) : State :=
  let s := s.endStub.zeroTimes.placeRings
  let s := (s.modFw fun w => { w with ready := true, phase := 8, resetBy := none, basePoint := 1 }).applyPoints
  let s := s.modFw fun w => { w with basins := w.basins.map fun (b : Basin) => { b with changing := false } }
  (s.fw.queues.filter fun e => e.2.en).foldl (fun s e => if s.queueValid e.2 then s else s.haltQueue e.1 3) s

/-! ## The boot image (R20 step 7, R290, R293) -/

/-- The direction from which a position takes the image in a communication step: the lowest whose neighbour holds the image and is told
by its mask to send it here (R290). -/
def bootTakes (mask : Nat → Nat) (held : BitVec 1024) (p : Nat) : Option Dir :=
  [Dir.e, .s, .w, .n].find? fun d => held.getLsbD (neighbour p d) && (mask (neighbour p d)).testBit (Dir.num (Dir.opp d))
/-- Communication steps from step k until no position takes the image, or n have passed: the next step, who holds the image, and how it
came to each. -/
def bootRounds (active : List Nat) (mask : Nat → Nat) : Nat → Nat → BitVec 1024 → Tbl (Nat × Option Dir) → Nat × BitVec 1024 × Tbl (Nat × Option Dir)
  | 0, k, held, from_ => (k, held, from_)
  | n + 1, k, held, from_ =>
    let new := active.filterMap fun p => if held.getLsbD p then none else (bootTakes mask held p).map fun d => (p, k, some d)
    if new.isEmpty then (k, held, from_)
    else bootRounds active mask n (k + 1) (new.foldl (fun b e => b ||| (1#1024 <<< e.1)) held) (new.foldl (fun l e => tblSet l e.1 e.2) from_)
/-- The forwarding masks of an image: its boot-tree section, or 0xF everywhere (R290). -/
def bootMask (img : List Byte) (p : Nat) : Nat := if entNat img 0x20 8 = 0 then 0xF else (img.getD (entNat img 0x20 8 + p) 0#8).toNat % 16
/-- The distribution from the root, the first active position: down the masks, then with every mask 0xF to the active cores left. -/
def bootFlood (active : List Nat) (img : List Byte) : Tbl (Nat × Option Dir) :=
  match active with
  | [] => []
  | root :: _ =>
    let r := bootRounds active (bootMask img) 1024 1 (1#1024 <<< root) [(root, 0, none)]
    (bootRounds active (fun _ => 0xF) 1024 r.1 r.2.1 r.2.2).2.2
/-- The role of a logical core under the image's own placement table. -/
def bootRole (m : Image) (n : Nat) : Option RoleImg :=
  (((m.place.map (·.1)).getD []).find? fun e => e.first ≤ n && n < e.first + e.count).bind fun e => m.roles[e.role]?
/-- The boot image. -/
def State.bootBytes (s : State) : List Byte := s.fw.bootImage.getD Config.romImage
/-- Step 7 of R20: coordinates and logical numbers, the distribution of the boot image, and the load of each core's role. -/
def State.distribute (s : State) : State :=
  let img := s.bootBytes
  let m := imageOf 0 fun o n => (img.drop o).take n
  let came := bootFlood s.activeMap img
  let s := s.modFw fun w => { w with logical := s.activeMap, bootFrom := came }
  s.activeMap.zipIdx.foldl (fun s e =>
    match if (tblGet? came e.1).isSome then bootRole m e.2 else none with
    | some r => s.modCore e.1 fun c => c.loadRole r ((img.drop r.toff).take r.tsize) ((img.drop r.doff).take r.dsize)
    | none => s) s
/-- What the end of a step of R20 leaves. -/
def State.endOfStep (s : State) (k : Nat) : State :=
  match k with
  | 1 => s.modFw fun w => { w with railsOn := true }
  | 2 => s.modFw fun w => { w with
      sent := [], defl := [], stall := [], replay := [], starve := [], starved := [], starveCnt := [], latches := [], latchN := 0, deadLinks := [],
      tableDead := [], buffers := [], replays := [], portDown := [], torusW := Config.torusW % 16 + 1, torusH := Config.torusH % 16 + 1,
      moduleX := Config.moduleX % (Config.torusW % 16 + 1), moduleY := Config.moduleY % (Config.torusH % 16 + 1), linkUp := true }
  | 4 => s.modFw fun w => { w with resets := w.resets + 1, xtsKey := Config.xtsKey (w.resets + 1), tagKey := Config.tagKey (w.resets + 1) }
  | 5 => { s with mem := [], bad := [], upsets := [], carveUpsets := [], tlb := [], fw := { s.fw with idIndex := s.fw.idIndex + 1, bootIndex := 0 } }
  | 6 => s.startStub
  | 7 => s.distribute
  | _ => s
/-- A reset sequence runs. -/
def State.resetting (s : State) : Bool := s.fw.inputGood && !s.fw.shutdown && !s.fw.fail && !s.fw.ready
/-- RESET_STEP_COMPLETE (R20): after step 8 a RESET command completes (R89). -/
def execResetStepComplete (s : State) : Out :=
  if !s.resetting then .next s
  else if s.fw.phase < 8 then .next ((s.endOfStep s.fw.phase).modFw fun w => { w with phase := w.phase + 1 })
  else
    let c := s.fw.resetBy
    let s := s.beginService
    .next (match c with
      | some c => s.finishCmd c 0
      | none => s)
/-- RESET_STEP_OVERRUN (R21): FAIL; before step 3 the link is trained alone, or MFAULTN is driven low. -/
def execResetStepOverrun (linkOk : Bool) (s : State) : Out :=
  if !s.resetting then .next s
  else .next (s.modFw fun w => { w with
    fail := true, linkUp := if w.phase < 3 then linkOk else w.linkUp, mfaultn := if w.phase < 3 then !linkOk else w.mfaultn })
/-- POWER_GOOD (R19, R20): the input becomes good and a cold reset begins. -/
def execPowerGood (s : State) : Out :=
  if s.fw.inputGood then .next s else .next ({ s with fw := { s.fw with inputGood := true } }.coldReset .cold)
/-- INPUT_POWER_LOSS: every rail goes down, and the fault storage with them. -/
def execInputPowerLoss (s : State) : Out :=
  let s := s.coldReset .cold
  .next (s.modFw fun w => { w with inputGood := false, railsOn := false, thermalLog := [], faultClass := 0, faultRail := 0xFF, faultTime := 0#64 })
/-- MRSTN_PULSE (R16, R19, R21). -/
def execMrstnPulse (s : State) : Out :=
  if s.fw.inputGood then .next (s.coldReset (if s.fw.shutdown then .thermal else .cold)) else .next s
/-- COOLANT_FLOW_LOSS (R16). -/
def execCoolantFlowLoss (s : State) : Out := if s.fw.inputGood && !s.fw.shutdown then .next (s.shutDown 5) else .next s
/-- DEVCTL_WARM_WRITE (R79): a warm reset with the ROM boot image and the applied patch. -/
def execDevctlWarmWrite (s : State) : Out := .next (if s.mayWarm then s.warmReset none none else s)

/-! ## RESET (R80, R89) -/

/-- RESET_WARM: SUB 0. -/
def execResetWarm (q : Nat) (s : State) : Out := command q 0x11 (fun k => k = 0) s fun c _ s => s.warmReset none (some c)
/-- n bytes of host memory at an address in the form of R81; the address must name host memory. -/
def State.hostRange (s : State) (a : Word) (n : Nat) : Bool := a.getLsbD 63 && s.addrOk a n
/-- RESET_WITH_IMAGE: SUB 1. An image whose header R288 does not allow gives IMAGE. -/
def execResetWithImage (q : Nat) (s : State) : Out :=
  command q 0x11 (fun k => k = 1) s fun c e s =>
    let a := entWord e 16
    if !s.hostRange a 256 then s.finishCmd c 0x03
    else
      let h := s.fwLoad a 256
      let n := entNat h 8 8
      if entNat h 0 4 ≠ 0x49595A47 ∨ entNat h 4 2 ≠ 1 ∨ n < 256 ∨ !s.hostRange a n then s.finishCmd c 0x08
      else s.warmReset (some (s.fwLoad a n)) (some c)
/-- Firmware accepts a patch (R80): the first failure of its container. -/
def State.badPatch (s : State) (h : List Byte) (body : Nat → List Byte) : Option Nat :=
  let n := entNat h 8 4
  if entNat h 6 2 ≠ 0 ∨ entNat h 0xC 4 ≠ 0 ∨ entNat h 0x30 16 ≠ 0 then some 0x02
  else if n % 64 ≠ 0 ∨ n < 64 ∨ 61440 < n ∨ entNat h 4 2 = 0 then some 0x03
  else if entNat h 0 4 ≠ 0x48505A47 ∨ (h.drop 0x10).take 32 ≠ hashBytes Config.romHash ∨
      entNat h 4 2 < max s.fw.patchFloor (Config.patchFloor % 65536) ∨ !Config.patchSigOk ((body (0x40 + n)).take (0x40 + n)) ((body (0x40 + n + 2820)).drop (0x40 + n))
    then some 0x0A
  else none
/-- RESET_WITH_PATCH: SUB 2. -/
def execResetWithPatch (q : Nat) (s : State) : Out :=
  command q 0x11 (fun k => k = 2) s fun c e s =>
    let a := entWord e 16
    if !s.hostRange a 0x40 then s.finishCmd c 0x03
    else
      let h := s.fwLoad a 0x40
      let n := 0x40 + entNat h 8 4
      if !s.hostRange a (n + 2820) then s.finishCmd c 0x03
      else match s.badPatch h (s.fwLoad a) with
        | some k => s.finishCmd c k
        | none =>
          let v := entNat h 4 2
          (s.modFw fun w => { w with patch := s.fwLoad a n, patchv := v, patchFloor := max w.patchFloor v }).warmReset none (some c)

/-! ## Power and temperature (R13, R14, R16) -/

/-- One point lower than a basin's, L3 at the lowest. -/
def Basin.lower (b : Basin) : Nat := min 4 (b.point + 1)
/-- Voltage window of a rail in µV, by R92's rail number (R12). -/
def railWindow (n : Nat) : Nat × Nat :=
  if n < 16 then (600000, 900000) else if n < 36 then (784000, 816000) else if n = 36 then (886500, 913500) else (3135000, 3465000)
/-- Nominal mV and limit in W of a rail whose current limit R12 gives through its power. -/
def railNominal (n : Nat) : Nat × Nat := if n < 32 then (800, 12) else if n < 36 then (800, 35) else if n = 36 then (900, 38) else (3300, 12)
/-- A sample's reading of a rail. -/
def railRead (m : PowerSample) (n : Nat) : RailReading := m.rails.getD n { uv := 0, ma := 0 }
/-- Power of a rail in mW. -/
def railMw (m : PowerSample) (n : Nat) : Nat := (railRead m n).uv * (railRead m n).ma / 1000000
/-- A rail is outside its voltage window (R12, R13). -/
def railOutside (m : PowerSample) (n : Nat) : Bool :=
  if n = 37 then !m.vmemOk else (railRead m n).uv < (railWindow n).1 || (railWindow n).2 < (railRead m n).uv
/-- A rail carries more than 125 % of its limit (R13): VCORE's of 120 A, another's at its nominal voltage, VMEM's of 260 W (assumption 74). -/
def railOver (m : PowerSample) (n : Nat) : Bool :=
  if n < 16 then 150000 < (railRead m n).ma
  else if n = 37 then 325000 < m.vmemMw
  else 1250000 * (railNominal n).2 < (railRead m n).ma * (railNominal n).1
/-- A sample within every limit of R12: windows, power and current of each rail, 1,650 W of the compute package, 2,000 W of the module, and
an input of 40 to 60 V. -/
def sampleRated (m : PowerSample) : Bool :=
  ((List.range 39).all fun n => !railOutside m n) &&
  ((List.range 16).all fun n => railMw m n ≤ 80000 && (railRead m n).ma ≤ 120000) &&
  ((List.range 39).all fun n => n < 16 || n == 37 || railMw m n ≤ 1000 * (railNominal n).2) && m.vmemMw ≤ 260000 &&
  ((List.range 37).map (railMw m)).foldl (· + ·) 0 ≤ 1650000 && m.input ≤ 2000000 && 40000 ≤ m.inputMv && m.inputMv ≤ 60000
/-- A rail is up: VAUX from step 1 of R20, the others once step 1 has raised them. -/
def State.railUp (s : State) (n : Nat) : Bool := if n = 38 then 1 ≤ s.fw.phase else s.fw.railsOn
/-- Samples in a row in which each rail that is up was outside its window, this sample with them. -/
def State.railsOut (s : State) (m : PowerSample) : Tbl Nat :=
  (List.range 39).filterMap fun n => if s.railUp n && railOutside m n then some (n, tblGetD s.fw.railOut n 0 + 1) else none
/-- The rail fault of a sample: its class and rail (R13). A rail has been outside its window for more than 20 µs at the fourth sample. -/
def State.railFault (s : State) (m : PowerSample) : Option (Nat × Nat) :=
  (List.range 39).findSome? fun n =>
    if 4 ≤ tblGetD (s.railsOut m) n 0 then some (1, n) else if s.railUp n && railOver m n then some (2, n) else none
/-- Highest of some sensors. -/
def highest (l : List Nat) : Nat := l.foldl max 0
/-- Highest sensor of a basin: its four dales and its cache die (R16). -/
def basinTemp (m : PowerSample) (b : Nat) : Nat := highest ((m.dales.drop (4 * b)).take 4 ++ (m.caches.drop (2 * b)).take 2)
/-- What one sample does to a basin: its own rail, its sensors, and whether the module steps down or overheats. The point held before a step
of the module or before 110 °C is remembered. -/
def Basin.sampled (b : Basin) (mw temp : Nat) (down hot release : Bool) : Basin :=
  { b with
    lastMw := mw, lastTemp := temp,
    power := if 80000 < mw then b.lower else b.power, calmP := if mw < 72000 then b.calmP + 1 else 0,
    module := if down && b.point < 4 then b.lower else b.module, moduleFrom := if down && b.module = 0 then b.point else b.moduleFrom,
    warm := if 1000 ≤ temp then b.lower else b.warm, calmT := if release && 0 < b.hot then 0 else if temp < 950 then b.calmT + 1 else 0,
    hot := if hot then 4 else b.hot, hotFrom := if hot && b.hot = 0 then b.point else b.hotFrom, boost := b.boost && mw < 68000 && temp < 900 }
/-- A held point one higher; none once it is back at the point held before (R13, R16). -/
def stepUpTo (from_ held : Nat) : Nat := if held - 1 ≤ from_ then 0 else held - 1
/-- POWER_SAMPLE (R13, R16): every 10 µs. A rail fault acts before a sensor at 115 °C in the same sample (assumption 74). -/
def execPowerSample (smp : PowerSample) (s : State) : Out :=
  let w := s.fw
  if !w.inputGood || w.shutdown then .next s
  else match s.railFault smp with
    | some (cls, rail) => .next (s.railReset cls rail)
    | none =>
      let high := highest (smp.dales ++ smp.caches ++ smp.ios)
      if 1150 ≤ high then .next (s.shutDown 4)
      else
        let above := 2000000 < smp.input
        let allLow := w.basins.toList.all fun b => b.point = 4
        let overFault := if above && allLow then w.overFault + 1 else 0
        if 100 ≤ overFault then .next (s.railReset 3 0xFF)
        else
          let n := if above then w.overInput + 1 else 0
          let down := 3 ≤ n
          let calmH := if high < 950 then w.calmH + 1 else 0
          let one (b : Nat) (x : Basin) : Basin := x.sampled (railMw smp b) (basinTemp smp b) down (1100 ≤ high) (calmH = 100)
          let s := s.modFw fun w => { w with
            overInput := if down then 0 else n, overFault := overFault, calmM := if smp.input < 1800000 then w.calmM + 1 else 0, calmH := calmH,
            railOut := s.railsOut smp, lastHigh := high,
            thermalLog := if 1100 ≤ high && w.lastHigh < 1100 then w.thermalLog ++ [(s.time, high)] else w.thermalLog,
            basins := Vector.ofFn fun i => one i.val w.basins[i] }
          .next s.applyPoints
/-- Change a basin. -/
def State.modBasin (s : State) (b : Nat) (f : Basin → Basin) : State :=
  s.modFw fun w => if h : b < 16 then { w with basins := w.basins.set b (f (w.basins[b]'h)) } else w
/-- POWER_STEP_UP (R13, R14): 1 ms below the release threshold. A basin that nothing holds down is granted point B while its conditions
hold. -/
def execPowerStepUp (basin : Option Nat) (s : State) : Out :=
  match basin with
  | some k => match s.fw.basins.toList[k]? with
    | none => .next s
    | some b =>
      if 0 < b.power then
        (if 100 ≤ b.calmP then .next (s.modBasin k fun b => { b with power := b.power - 1, calmP := 0 }).applyPoints else .next s)
      else if s.fw.ready && b.lastMw < 68000 && b.lastTemp < 900 && !b.boost then .next (s.modBasin k fun b => { b with boost := true }).applyPoints
      else .next s
  | none =>
    if s.fw.calmM < 100 then .next s
    else .next (s.modFw fun w => { w with calmM := 0, basins := w.basins.map fun (b : Basin) => { b with module := stepUpTo b.moduleFrom b.module } }).applyPoints
/-- THERMAL_STEP_UP (R16). -/
def execThermalStepUp (basin : Nat) (s : State) : Out :=
  match s.fw.basins.toList[basin]? with
  | none => .next s
  | some b =>
    if b.calmT < 100 then .next s
    else .next (s.modBasin basin fun b => { b with
      calmT := 0, warm := b.warm - 1, hot := if 100 ≤ s.fw.calmH then stepUpTo b.hotFrom b.hot else b.hot }).applyPoints
/-- CLOCK_POINT_CHANGE_END (R14, R226): issue resumes, held halt requests proceed, and each tracing core of the basin writes SYNC. -/
def execClockPointChangeEnd (basin : Nat) (s : State) : Out :=
  match s.fw.basins.toList[basin]? with
  | none => .next s
  | some b =>
    if !b.changing then .next s
    else
      let s := s.modBasin basin fun b => { b with changing := false }
      .next ((s.cores.filter fun e => basinOf e.1 == basin).foldl (fun s e =>
        let s := if e.2.trcctl.getLsbD 0 then s.traceRec e.1 0 0x8 (BitVec.ofNat 40 b.point) (some (BitVec.ofNat 64 (s.coreClocks e.1))) else s
        if e.2.haltHeld then s.haltCore e.1 else s) s)

end Sys2Proof.Machine
end

