-- ==== Sys2Proof/Machine/Fabric.lean ====
section
/-! DEFINITION. What the fabric does outside the paths of single packets: starvation (R32), link replay and dead links, rerouting and
lost notices (R39 to R41), control-network messages (R44), the counter grid (R47 to R49), the memory side's slow work (R67, R68), and
peers (R69, R71). -/
namespace Sys2Proof.Machine

/-! ## Links -/

/-- Number of a plane: 0 response, 1 event, 2 request, 3 bulk. -/
def planeNum : Plane → Nat
  | .response => 0
  | .event => 1
  | .request => 2
  | .bulk => 3
/-- Handshakes in a row without an injection after which a router asserts STARVE (R32). -/
def starveLimit : Nat := 64
/-- STARVE_ASSERT (R32): the count has reached 64, and the router asserts STARVE on its four incoming links. -/
def execStarveAssert (pos : Nat) (plane : Plane) (s : State) : Out :=
  let k := pos % 1024 * 4 + planeNum plane
  if tblGetD s.fw.starveCnt k 0 < starveLimit then .next s
  else .next (s.modFw fun w => { w with
    starve := setIns w.starve k,
    starved := (List.range 4).foldl (fun l d => setIns l (hop (pos % 1024) d * 4 + (d + 2) % 4)) w.starved })
/-- A flit of a plane waits on the link from a router for the handshake to complete: it stands at the other end's port. -/
def Packet.onLink (k : Packet) (pos : Nat) (d : Nat) : Bool := k.spot == .atPort (hop pos d) ((d + 2) % 4)
/-- Flits whose handshakes on a link did not complete go back to its replay buffers (R39). -/
def State.pullBack (s : State) (pos d : Nat) : State :=
  (s.net.filter fun k => k.onLink pos d).foldl (fun s k =>
    let b := (pos * 4 + d) * 4 + k.body.plane
    { s with net := s.net.erase k, fw := { s.fw with buffers := tblSet s.fw.buffers b (tblGetD s.fw.buffers b [] ++ [k]) } }) s
/-- A router declares an output link dead and reports it with the plane (R40): the ports at both ends are never free again, and the flits
whose handshakes failed wait in the replay buffers. -/
def State.linkDies (s : State) (pos : Nat) (d : Dir) (plane : Nat) : State :=
  if portDead s.fw.deadLinks pos (Dir.num d) then s
  else
    let s := (s.pullBack pos (Dir.num d)).pullBack (neighbour pos d) (Dir.num (Dir.opp d))
    { s with
      ctl := s.ctl ++ [.linkDead pos d plane],
      fw := { s.fw with deadLinks := s.fw.deadLinks ++ [(pos, Dir.num d)], deadAt := s.time } }
/-- A flit with its place in the fabric left out, by which a link knows it again. -/
def Packet.plainly (k : Packet) : Packet := { k with age := 0#8, spot := .offered }
/-- LINK_REPLAY (R26, R39): the flit of a plane that stands at the other end of a link is refused for a CRC error and goes back to the
replay buffer; when only the handshake was corrupted the receiver keeps it, and the copy sent again travels on too. A fifth refusal
of one flit in a row, four replays having failed, kills the link (R40). -/
def execLinkReplay (pos : Nat) (dir : Dir) (plane : Plane) (err : LinkError) (s : State) : Out :=
  let l := pos * 4 + Dir.num dir
  match s.net.find? fun k => k.body.plane == planeNum plane && k.onLink pos (Dir.num dir) with
  | none => .next s
  | some p =>
    if 1024 ≤ pos || portDead s.fw.deadLinks pos (Dir.num dir) || !(linkRefuses err || err == .handshake) then .next s
    else
      let n := match tblGet? s.fw.replays (l * 4 + planeNum plane) with
        | some (q, n) => if q = p.plainly then n + 1 else 1
        | none => 1
      if 5 ≤ n then .next (s.linkDies pos dir (planeNum plane))
      else
        let b := l * 4 + planeNum plane
        .next { s with
          net := if err == .handshake then s.net else s.net.erase p,
          fw := { s.fw with
            replays := tblSet s.fw.replays b (p.plainly, n), replay := countUp s.fw.replay l,
            buffers := tblSet s.fw.buffers b (p :: tblGetD s.fw.buffers b []) } }
/-- LINK_HANDSHAKE_TIMEOUT (R40). -/
def execLinkHandshakeTimeout (pos : Nat) (port : LinkPort) (s : State) : Out :=
  .next (if pos < 1024 then s.linkDies pos port.dir (planeNum port.plane) else s)
/-- LINK_TRAINING_LOSS (R40). -/
def execLinkTrainingLoss (pos : Nat) (dir : Dir) (s : State) : Out := if 1024 ≤ pos then .next s else .next (s.linkDies pos dir 0)
/-- LINK_DEAD (R40 step 1): the sequence starts, or starts again, its times counted from the detection, and INJ-PAUSE goes to every
node. -/
def execLinkDead (k : Nat) (s : State) : Out :=
  match s.ctl[k]? with
  | some (.linkDead ..) =>
    .next { s with
      ctl := s.ctl.eraseIdx k ++ ((List.range 1024).filter s.active).map CtlMsg.injPause,
      fw := { s.fw with rerouting := true, rerouteAt := s.fw.deadAt } }
  | _ => .next s
/-- A control message to a position is taken. -/
def State.takeCtl (s : State) (m : CtlMsg) : Option State := if s.ctl.contains m then some { s with ctl := s.ctl.erase m } else none
/-- INJ_PAUSE (R40). -/
def execInjPause (pos : Nat) (s : State) : Out :=
  match s.takeCtl (.injPause pos) with
  | some s => .next (s.modCore pos fun c => { c with paused := true })
  | none => .next s
/-- Send what a source has held back. -/
def State.unparkAll (s : State) (f : Nat → Bool) : State :=
  (s.reqs.filter fun r => f r.src && r.parked && !r.waiting).foldl (fun s r => s.unpark r.src) s
/-- INJ_RESUME (R40). -/
def execInjResume (pos : Nat) (s : State) : Out :=
  match s.takeCtl (.injResume pos) with
  | some s => .next ((s.modCore pos fun c => { c with paused := false }).unparkAll fun p => p == pos)
  | none => .next s
/-- The node that a lost notice for a packet goes to (R40): the one that reserved the reply slot, a forward's or probe's sender. -/
def Packet.noticeNode (k : Packet) : Option Nat :=
  match k.body with
  | .space => none
  | .forwarded .. | .probe _ | .debugAccess _ => some k.src
  | _ => if k.body.plane = 0 then some k.dst else some k.src
/-- The drain of a reroute is over (R40 step 2): no router has carried a request, event or bulk flit for 64 handshakes and all have
reported so, or 60 µs have passed since the detection. -/
def State.drainOver (s : State) (reported : Bool) : Bool :=
  60000 ≤ (s.time - s.fw.rerouteAt).toNat ||
    (reported && 16 ≤ (s.time - s.fw.carriedAt).toNat && !s.net.any fun k => k.body.plane ≠ 0 && (match k.spot with
      | .atPort .. => true
      | _ => false))
/-- REROUTE_DRAIN_END (R40 steps 3 to 5): the flits in the dead links' replay buffers are lost; the tables are computed over the live
links and written; FEPOCH rises; the notices and INJ-RESUME go. A core left with no live link is fenced. -/
def execRerouteDrainEnd (reported : Bool) (s : State) : Out :=
  if !s.fw.rerouting || !s.drainOver reported then .next s
  else
    let dead (e : Nat × List Packet) : Bool := portDead s.fw.deadLinks (e.1 / 16) (e.1 / 4 % 4)
    let gone := (s.fw.buffers.filter dead).flatMap fun e => e.2
    let notices := gone.filterMap fun k => k.noticeNode.map fun n => (n, k)
    let s := { s with
      ctl := s.ctl.filter (fun (m : CtlMsg) => match m with
        | .injPause _ => false
        | _ => true) ++ ((List.range 1024).filter s.active).map CtlMsg.injResume,
      fw := { s.fw with
        rerouting := false, fepoch := s.fw.fepoch + 1#32, lostNotices := s.fw.lostNotices ++ notices, replays := [],
        buffers := s.fw.buffers.filter fun e => !dead e, tableDead := s.fw.deadLinks } }
    let s := { s with cores := tblMap (fun p (c : Core) => if s.cutOff p then { c with fenced := true } else c) s.cores }
    .next (s.unparkAll fun p => 0x400 ≤ p)
/-- A request retried after a lost notice (R36, R40). -/
def State.retryLost (s : State) (r : Req) : State := if r.tries < 3 then s.resend r (r.tries + 1) true else s.exhausted r
/-- LOST_NOTICE (R40, R41): the node retries what it waits for, and a core writes a lost-packet record. -/
def execLostNotice (k : Nat) (s : State) : Out :=
  match s.fw.lostNotices[k]? with
  | none => .next s
  | some (n, p) =>
    let s := s.modFw fun w => { w with lostNotices := w.lostNotices.eraseIdx k }
    let far := if p.src = n then p.dst else p.src
    let s := if n < 0x400 && s.active n then
        s.ownRecord n (lostRecord (s.core n) far p.seq p.body.plane p.body.pkind s.fw.fepoch)
      else s
    .next (match s.reqs.find? fun r => r.src == n && r.dst == far && r.ns == p.ns && r.seq == p.seq && !r.parked with
      | some r => s.retryLost r
      | none => match (s.node n).forward.find? fun f => f.sent && f.node == far && f.ns == p.ns && f.seq == p.seq with
        | some f => { s with net := s.net ++ [f.message true] }
        | none => s)

/-! ## Control-network registers (R44) -/

/-- CTRL_WRITE: a 64-bit value lands in a core's register; PREQ.HALT is a halt request (R118). -/
def execCtrlWrite (k : Nat) (s : State) : Out :=
  match s.ctl[k]? with
  | some (.write p off v) =>
    let s := { s with ctl := s.ctl.eraseIdx k }
    .next (if off = 0x220 then (if v.getLsbD 0 then s.haltCore p else s) else s.ctlWrite p off v)
  | _ => .next s
/-- CTRL_READ: answered with CTRL-DATA. -/
def execCtrlRead (k : Nat) (s : State) : Out :=
  match s.ctl[k]? with
  | some (.read p off) => .next { s with ctl := s.ctl.eraseIdx k ++ [.data p off (s.ctlRead p off)] }
  | _ => .next s
/-- CTRL_DATA: the value arrives at the management core. -/
def execCtrlData (k : Nat) (s : State) : Out :=
  match s.ctl[k]? with
  | some (.data _ _ _) => .next { s with ctl := s.ctl.eraseIdx k }
  | _ => .next s

/-! ## The counter grid (R47 to R49) -/

/-- The 64 bytes of a link's record (R48): link d of a position. -/
def State.linkRecord (s : State) (pos : Nat) (d : Dir) : List (BitVec 32) :=
  let w := s.fw
  let l := pos * 4 + Dir.num d
  (List.range 4).flatMap (fun p => [tblGetD w.sent (l * 4 + p) 0#32, tblGetD w.defl (l * 4 + p) 0#32, tblGetD w.stall (l * 4 + p) 0#32]) ++
  [tblGetD w.replay l 0#32,
   BitVec.ofNat 32 ((if portDead w.deadLinks pos (Dir.num d) then 1 else 0) + (if w.starved.contains l then 2 else 0) + (if w.fused.contains pos then 4 else 0)), 0#32, 0#32]
/-- Write a snapshot whose latches are all in (R48): every record, then SNAP; then CGHEAD rises. -/
def State.writeSnapshot (s : State) : State :=
  let w := s.fw
  let a := ringAddr w.cgBase w.cgHead w.cgSlots 0x41000
  let head := match tblGet? w.latches 1024 with
    | some l => l
    | none => []
  let records := ((List.range 1024).map fun p => (tblGetD w.latches p []).flatMap fun (v : BitVec 32) => bytesOfNat v.toNat 4).flatten
  let s := (s.fwStore (a + 0x1000#64) records).fwStore (a + 8#64) (bytesOf w.latchedAt 8 ++ head.flatMap (fun (v : BitVec 32) => bytesOfNat v.toNat 4) ++ repeatN 0#8 0xFE4)
  (s.fwStore a (bytesOfNat w.latchN 8)).modFw fun w => { w with
    cgHead := w.cgHead + 1, cgBusy := false, latches := [] }
/-- A router's links with STARVE asserted on them as its next interval begins (R48). -/
def Firm.starvesNow (w : Firm) (pos d : Nat) : Bool := (List.range 4).any fun p => w.starve.contains (hop pos d * 4 + p)
/-- GRID_LATCH (R48): a router latches its counters and begins its next interval; with the last one the management core writes the
snapshot. -/
def execGridLatch (pos : Nat) (s : State) : Out :=
  match s.takeCtl (.gridLatch pos s.fw.latchN) with
  | none => .next s
  | some s =>
    let r := [Dir.e, Dir.s, Dir.w, Dir.n].flatMap fun d => s.linkRecord pos d
    let s := s.modFw fun w => { w with
      latches := tblSet w.latches pos r,
      starved := (List.range 4).foldl (fun l d => if w.starvesNow pos d then setIns l (pos * 4 + d) else setDel l (pos * 4 + d)) w.starved }
    .next (if s.ctl.any fun m => (match m with
        | .gridLatch _ _ => true
        | _ => false) then s else s.writeSnapshot)
/-- COUNTER_GRID_TIMER (R48, R49): at each multiple of 10,000 the pending settings take effect and GRID-LATCH goes out; an unfinished
snapshot is abandoned. -/
def execCounterGridTimer (s : State) : Out :=
  let now := s.time.toNat / 10000
  if now ≤ s.fw.latchedAt.toNat / 10000 || !s.fw.ready then .next s
  else
    let s := { s with
      ctl := s.ctl.filter (fun (m : CtlMsg) => match m with
        | .gridLatch _ _ => false
        | _ => true),
      fw := { s.fw with latches := [], latchedAt := BitVec.ofNat 64 (now * 10000) } }
    let s := s.modFw fun w => { w with
      cgBase := w.cgPend.base.getD w.cgBase, cgSlots := w.cgPend.slots.getD w.cgSlots, cgEn := w.cgPend.en.getD w.cgEn,
      cgOvr := (w.cgOvr && !w.cgPend.clear) || w.cgBusy, cgSkipped := w.cgSkipped || w.cgBusy, cgBusy := false, cgPend := {} }
    if !s.fw.cgEn then .next s
    else
      let head := [s.fw.fepoch, BitVec.ofNat 32 s.fw.deadLinks.length, if s.fw.cgSkipped then 1#32 else 0#32]
      .next { s with
        ctl := s.ctl ++ (List.range 1024).map fun p => CtlMsg.gridLatch p s.fw.cgHead,
        fw := { s.fw with cgBusy := true, cgSkipped := false, latchN := s.fw.cgHead, latches := [(1024, head)] } }

/-! ## The memory side (R67, R68) -/

/-- XINV_WRITE (R68). -/
def execXinvWrite (value : Word) (s : State) : Out := .next (s.writeXinv value)
/-- XINV_DROP_COMPLETE (R68): XINV.DONE reads 1. -/
def execXinvDropComplete (s : State) : Out := .next ({ s with
  tlb := s.tlb.filter fun e => !(s.fw.xinv.any fun x => x.1 ≤ e.page && e.page < x.1 + x.2), fw := { s.fw with xinv := [] } })
/-- PATROL_SCRUB (R67): the scrubber reads a block, in which errors may have appeared since it was last read. Its first block begins a period, in which a changed period and EN take effect. -/
def execPatrolScrub (block : Nat) (carveOut : Bool) (u : Upset) (s : State) : Out :=
  let s := s.upset block carveOut u
  let s := if block = 0 && !carveOut then
      (match s.fw.scrubPend with
       | some (h, en) => s.modFw fun w => { w with scrubHours := h, scrubEn := en, scrubPend := none }
       | none => s)
    else s
  .next (if s.fw.scrubEn && s.fw.ready && block < memBlocks then (if carveOut then s.readCarve (block / 64) false else s.readBlock block false) else s)

/-! ## Peers (R69, R71) -/

/-- PEER_NOTICE (R71). -/
def execPeerNotice (dev : Nat) (reason : PeerReason) (s : State) : Out := .next (if dev < 255 then s.peerDown dev reason else s)
/-- PEER_WINDOW_WRITE (R69, R71). -/
def execPeerWindowWrite (i : Nat) (v : BitVec 128) (s : State) : Out := .next (if i < 64 then s.writePeerWin i v else s)
/-- A launch number that no launch has, for requests from other modules that carry none. -/
def foreignLid (lid : Nat) : Nat := if lid = 0 then 2 ^ 33 else lid
/-- A response enters for a request that an egress agent has parked (R34, R71): its slot is free unless the request waits on, and it is
answered; a record is stamped with the virtual time its request carried (R74). -/
def State.peerAnswer (s : State) (h : PeerHead) (b : Body) : State :=
  let mine (f : Fwd) : Bool := f.packet.src == h.dst && (match b, f.packet.body with
    | .record r, .delegated _ _ _ _ tag => r.extractLsb' 12 8 == tag
    | .record _, _ => false
    | _, .delegated .. => false
    | _, _ => f.packet.ns == h.ns && f.packet.seq == h.seq)
  match (List.range 4).findSome? fun d => ((s.node (agentNode d 5)).forward.find? mine).map fun f => (agentNode d 5, f) with
  | none => s.dropAt (agentNode 0 5) (b.plane = 1)
  | some (n, f) =>
    let free := s.setNode n { s.node n with forward := (s.node n).forward.erase f }
    match b with
    | .ack true _ => s.answer f.packet b false
    | .record r => free.sendRecord n f.packet.src f.packet.vt (ramoRecord (r.extractLsb' 8 4).toNat (r.extractLsb' 12 8) f.packet.vt (r.extractLsb' 64 64))
    | _ => free.answer f.packet b f.packet.body.kept
/-- A request enters for this module: its ingress agent, the source inside the module, checks its window for the (device, node)
pair, answers a duplicate, and sends a new one on (R26, R37, R73). -/
def State.peerRequest (s : State) (agent : Nat) (h : PeerHead) (b : Body) : State :=
  let key := s.headKey h
  let nd := s.node agent
  let go (s : State) : State := match b, b.ia? with
    | .delegated .., some ia => s.ask agent { dst := agent / 256 * 256 + 2, body := b.named (0xFF000000000000 + ia % 2 ^ 48), lid := foreignLid h.lid, use := .ingress h, vt := h.vt, peer := true }
    | .withdraw .., _ => s.ask agent { dst := h.dst, body := b, lid := foreignLid h.lid, use := .ingress h, vt := h.vt, peer := true }
    | _, some ia =>
      let a := 0xFF000000000000 + ia % 2 ^ 48
      s.ask agent { dst := (s.route 0 a).node, body := b.named a, lid := foreignLid h.lid, gen := h.gen, use := .ingress h, vt := h.vt, peer := true }
    | _, none => s.dropAt agent (b.plane = 1)
  if h.ns then go s
  else match windowAccept (tblGetD nd.windows key windowReset) h.seq with
    | some w => go (s.setNode agent { nd with windows := tblSet nd.windows key w })
    | none =>
      if s.reqs.any fun r => r.src == agent && r.waiting && (match r.use with
        | .ingress g => g.src == h.src && g.seq == h.seq && g.sx == h.sx && g.sy == h.sy
        | _ => false) then s.peerReply agent h (.ack true .ok)
      else if b.kept then s.peerReply agent h (match nd.replies.find? fun r => r.1 == key && r.2.1 == h.seq with
        | some r => r.2.2
        | none => .nack .stale)
      else s.peerReply agent h (.ack false .ok)
/-- A flit enters from a peer port (R43): one for another module goes on to its egress agent, without any core; a reserved KIND is
dropped and counted (R27). -/
def State.peerIn (s : State) (port : Nat) (h : PeerHead) (b : Body) : State :=
  let agent := agentNode (port / 2 % 4) 6
  if h.dx ≠ s.fw.moduleX || h.dy ≠ s.fw.moduleY then s.passOn agent h b
  else match b with
    | .data .. | .ack .. | .nack _ | .bulkData .. | .record _ => s.peerAnswer h b
    | .reserved .. => s.dropAt agent (b.plane = 1)
    | _ => s.peerRequest agent h b

/-! ## Registers without a row of their own -/

/-- REGISTER_WRITE (R6): a write by firmware to a register of device control or of a core's control window. -/
def execRegisterWrite (ia : Nat) (v : Word) (s : State) : Out :=
  match placeOf ia with
  | .dev off => .next (s.devStore (off / 8 * 8) (bytesOf v 8) 2)
  | .ctl p off => .next (s.ctlWrite p off v)
  | _ => .next s

end Sys2Proof.Machine
end

