-- ==== Sys2Proof/Machine/Timers.lean ====
section
/-! DEFINITION. The timers of a core and of its dale (R175, R194, R219, R396), and the firmware's writes to INBCTL, L1CTL, WDCTL and
TRCCTL (R164, R180, R219, R225). -/
namespace Sys2Proof.Machine

/-- A time in ns has passed since a moment. -/
def State.past (s : State) (since : Word) (ns : Nat) : Bool := ns ≤ (s.time - since).toNat

/-- INBOX_RESERVATION_LAPSE (R175): the oldest reservation, 1 µs old, passes to the next listed source. -/
def execInboxReservationLapse (pos : Nat) (s : State) : Out :=
  match (s.core pos).reserved with
  | [] => .next s
  | r :: t => .next (if s.past r.at0 1000 then (s.modCore pos fun c => { c with reserved := t }).inboxFreed pos else s)
/-- A source has its place on the refusal list or a reserved entry at a destination. -/
def State.listed (s : State) (src dst : Nat) : Bool :=
  ((s.core dst).refusals.any fun x => x.1 == src) || (s.core dst).reserved.any fun r => r.src == src
/-- REFUSAL_RETRY_EXPIRY (R175): a source refused while the list was full retries after 1 µs: a core's event slot, or a record of an
agent. -/
def execRefusalRetryExpiry (node i : Nat) (s : State) : Out :=
  if node < 0x400 then
    match (s.core node).evSlots[i]? with
    | none => .next s
    | some v =>
      if !v.retry || s.listed node v.dst || !s.past v.at0 1000 then .next s
      else match v.body with
        | .record r => .next ((s.modCore node fun c => { c with evSlots := c.evSlots.erase v }).ownRecord node r)
        | _ => .next (s.sendSlot node v)
  else
    match (s.reqs.filter fun r => r.src == node && r.use == .record && r.parked && r.waiting)[i]? with
    | none => .next s
    | some r => .next (if s.listed node r.dst || !s.past r.sent 1000 then s else s.reissue r)
/-- INBCTL_WRITE (R180). -/
def execInbctlWrite (pos : Nat) (v : Word) (s : State) : Out := .next (s.ctlWrite pos 0x400 v)
/-- INBCTL_APPLY (R180): USED is zero, and a held write takes effect. -/
def execInbctlApply (pos : Nat) (s : State) : Out := .next (s.modCore pos Core.applyInbctl)
/-- The held writes of every core whose inbox is empty. -/
def State.settleInbctl (s : State) : State := { s with cores := tblMap (fun _ (c : Core) => c.applyInbctl) s.cores }
/-- L1CTL_INV (R164): every L1 line of the core is invalid. -/
def execL1ctlInv (pos : Nat) (s : State) : Out := .next (s.l1Clear pos)
/-- DALE_ENTRY_AGE_FLUSH (R194): an entry 100 µs old is flushed. -/
def execDaleEntryAgeFlush (dale i : Nat) (s : State) : Out :=
  match (s.dru.filter fun e => e.1 == dale)[i]? with
  | none => .next s
  | some x => .next (if x.2.flushed || !s.past x.2.born 100000 then s else (s.flushDale dale fun e => e.id == x.2.id).1)
/-- WDCTL_WRITE (R219): the limit, and every thread's count starts again. -/
def execWdctlWrite (pos : Nat) (v : Word) (s : State) : Out := .next (s.ctlWrite pos 0x768 v)
/-- TRCCTL_WRITE (R225). -/
def execTrcctlWrite (pos : Nat) (v : Word) (s : State) : Out := .next (s.writeTrcctl pos v)
/-- `wfe` completes with none of its events, as R396 allows. -/
def State.wfeEnd (s : State) (pos slot : Nat) : State :=
  match s.thread? pos slot with
  | none => s
  | some t => match t.run with
    | .sleeping (.wfe _) => s.setThread pos slot (t.finish s.time)
    | _ => s
/-- WFE_TIMEOUT (R396): 10 µs of TIMEB have passed, and `wfe` completes. -/
def execWfeTimeout (pos slot : Nat) (s : State) : Out :=
  match s.thread? pos slot with
  | none => .next s
  | some t => match t.run with
    | .sleeping (.wfe since) => .next (if s.past since 10000 then s.setThread pos slot (t.finish s.time) else s)
    | _ => .next s

/-- A thread's arrival at a barrier is withdrawn with its wait. -/
def Group.withdraw (g : Group) (w : Sleep) (idx : Nat) : Group :=
  match w with
  | .bar k => { g with arrivals := g.arrivals.erase (k, idx) }
  | .barX => { g with barX := g.barX.erase idx }
  | .barT => { g with barT := g.barT.erase idx }
  | _ => g
/-- The watchdog's trap in a thread (R211). -/
def State.watchdogTrap (s : State) (pos slot : Nat) (t : Thread) : State :=
  s.takeTrap pos slot { code := 0x13#8, tval := BitVec.ofNat 64 (s.idleUs pos t) }
/-- WATCHDOG_EXPIRY (R211, R219): a thread that has retired nothing for LIMIT µs takes 0x13. A wait in the core's own table and a barrier
arrival are abandoned; a remote wait is withdrawn first (R161); a remote operation that is no wait is answered first. A trap that is due at
the boundary comes before it (R210). -/
def execWatchdogExpiry (pos slot : Nat) (s : State) : Out :=
  match s.thread? pos slot with
  | none => .next s
  | some t =>
    if (s.core pos).wdLimit = 0#32 || s.idleUs pos t < (s.core pos).wdLimit.toNat then .next s
    else match t.run with
      | .running => .next (if t.trapDue then s else s.watchdogTrap pos slot t)
      | .sleeping (.reply dst ns seq) =>
        let isWait := s.reqs.any fun r => r.src == pos && r.dst == dst && r.ns == ns && r.seq == seq && r.waitOf pos slot
        .next (if isWait && !t.wdPending then s.setThread pos slot { t with wdPending := true } else s)
      | .sleeping w =>
        let s := s.modCore pos fun c => c.dropWaits slot
        let s := s.modGroup (t.homePos pos) t.group fun g => g.withdraw w t.idx
        .next (if t.trapDue then s.modThread pos slot Thread.wake else s.watchdogTrap pos slot t)
      | _ => .next s

end Sys2Proof.Machine
end

