-- ==== Sys2Proof/Machine/DebugCommands.lean ====
section
/-! DEFINITION. Run control: the stop broadcast and its acknowledgements (R221), and the commands DEBUG STOP, GO, STEP and DUMP (R89,
R215, R216, R223). -/
namespace Sys2Proof.Machine

/-- A group is stopped: its threads are held, and no step of it runs. -/
def Group.isStopped (g : Group) : Bool := g.stopped.isSome && g.lag.isNone && !g.stepping
/-- DBGSTAT.STOPPED as the groups stand (R411). -/
def Core.fixStopped (c : Core) : Core :=
  { c with dbgstat := (c.dbgstat &&& ~~~1#64) ||| bitAt (c.groups.any Group.isStopped) 0 }
/-- Stop several groups of a core by one trigger; groups already stopped stay as they are. -/
def State.freezeAll (s : State) (p trig : Nat) (l : List Group) : State := (l.filter fun g => g.stopped.isNone).foldl (fun s g => s.beginStop p g.gid trig) s

/-! ## The stop broadcast (R44, R221) -/

/-- STOP: the receiving core stops every group of the sender's launch, records TRIG 6 and acknowledges. -/
def execStop (k : Nat) (s : State) : Out :=
  match s.ctl[k]? with
  | some (.stop p lid src gslot trig _) =>
    let s := { s with ctl := s.ctl.eraseIdx k }
    let c := s.core p
    if c.lid ≠ lid || lid = 0 then .next (s.stopAnswer p trig 0 0)
    else
      let l := c.groups.filter fun g => g.stopped.isNone
      let s := (s.modCore p fun c => c.recordTrigger 6 0 gslot src 0#16).freezeAll p trig l
      .next (s.oweStop p trig l.length)
  | _ => .next s
/-- STOP_ACK: a router's combined acknowledgement, with the sums of skid and groups, reaches its parent; the root's completes the stop (R45,
R221, R223). -/
def execStopAck (k : Nat) (s : State) : Out :=
  match s.ctl[k]? with
  | some (.stopAck p trig skid groups) =>
    let s := { s with ctl := s.ctl.eraseIdx k }
    (match s.fw.stops.find? fun (x : StopOp) => x.trig == trig with
    | none => .next s
    | some x =>
      let t := x.tree.acked p (skid, groups)
      if p = t.root then
        let s := s.modFw fun w => { w with stops := w.stops.erase x }
        .next (match x.cmd with
          | some c => s.finishCmd c 0 groups (BitVec.ofNat 64 skid)
          | none => s)
      else
        let s := s.modFw fun w => { w with stops := w.stops.map fun z => if z == x then { x with tree := t } else z }
        .next (match t.next p with
          | some q => { s with ctl := s.ctl ++ [.stopAck q trig (t.sum q).1 (t.sum q).2] }
          | none => s))
  | _ => .next s

/-! ## The commands -/

/-- What a DEBUG command names: position, core, launch, and the group slot or 0xFF. -/
structure Target where
  pos   : Nat
  lid   : Nat
  gslot : Nat
deriving DecidableEq, Repr
/-- The group of a target. -/
def State.targetGroup (s : State) (t : Target) : Option Group := (s.core t.pos).groups.find? fun g => g.lowSlot == t.gslot && g.lid == t.lid
/-- The checks that STOP, GO, STEP and DUMP share, in their order (R89): the feature, the LID, the logical core, the group; `all` admits
0xFF as the group. -/
def State.debugTarget (s : State) (e : List Byte) (feat : Nat) (all : Bool) : Except Nat Target :=
  if !s.feature feat then .error 0x09
  else match s.launch? (entNat e 24 4) with
    | none => .error 0x04
    | some l =>
      match l.posOfLogical (entNat e 28 2) with
      | none => .error 0x03
      | some p =>
        if !l.inRect p then .error 0x03
        else
          let t : Target := { pos := p, lid := l.lid, gslot := entNat e 30 1 }
          if (all && t.gslot = 0xFF) || (s.targetGroup t).isSome then .ok t else .error 0x04
/-- Begin a DEBUG command. -/
def debugCommand (q sub feat : Nat) (all : Bool) (s : State) (k : CmdRef → List Byte → Target → State → State) : Out :=
  command q 0x0F (fun n => n = sub) s fun c e s =>
    match s.debugTarget e feat all with
    | .error n => s.finishCmd c n
    | .ok t => k c e t s
/-- The groups that a target names. -/
def State.targetGroups (s : State) (t : Target) : List Group :=
  if t.gslot = 0xFF then (s.core t.pos).groups.filter fun g => g.lid == t.lid else (s.targetGroup t).toList
/-- DEBUG_STOP (R221): a trigger whatever DBGCTL.ACT and EN say. -/
def execDebugStop (q : Nat) (s : State) : Out :=
  debugCommand q 1 0 true s fun c _ t s =>
    let l := (s.targetGroups t).filter fun g => g.stopped.isNone
    if l.isEmpty then s.finishCmd c (if (s.targetGroups t).isEmpty then 0 else 0x05)
    else
      let n := s.fw.nextTrig
      let low := (l.map (·.lowSlot)).foldl min 15
      let scope := (s.core t.pos).dbgctl.extractLsb' 2 2
      let reach := s.stopReach t.pos scope
      let s := (s.modCore t.pos fun c => c.recordTrigger 5 0 low 0 0#16).freezeAll t.pos n l
      let root := if reach.isEmpty then t.pos else s.stopRoot t.pos scope
      let x : StopOp := { trig := n, tree := AckTree.over root (setIns reach t.pos), cmd := some c }
      let s := s.modFw fun w => { w with nextTrig := n + 1, stops := w.stops ++ [x] }
      { s with ctl := s.ctl ++ reach.map fun p => CtlMsg.stop p t.lid t.pos low n s.time }.oweStop t.pos n l.length
/-- Change the threads of a group, wherever they run. -/
def State.modGroupThreads (s : State) (hp gid : Nat) (f : Thread → Thread) : State :=
  (s.threadsOf hp gid).foldl (fun s x => s.setThread x.1 x.2.1 (f x.2.2)) s
/-- SS cleared. -/
def Thread.clearSs (t : Thread) : Thread := { t with status := t.status &&& ~~~0x10#64 }
/-- A stopped group resumes (R223). -/
def State.go (s : State) (p : Nat) (g : Group) : State :=
  ((s.modGroup p g.gid fun g => { g with stopped := none, stepping := false }).modGroupThreads p g.gid fun t =>
    if t.run == Run.stopped then t.clearSs.resume else t).modCore p Core.fixStopped
/-- DEBUG_GO (R223). -/
def execDebugGo (q : Nat) (s : State) : Out :=
  debugCommand q 2 0 true s fun c _ t s =>
    let here := (s.targetGroups t).filter Group.isStopped
    if here.isEmpty then s.finishCmd c 0x05
    else
      let trigs := here.filterMap (·.stopped)
      let named : List (Nat × Group) :=
        if t.gslot ≠ 0xFF then here.map fun g => (t.pos, g)
        else (s.cores.map fun pc => (pc.2.groups.filter fun g => g.isStopped && ((pc.1 == t.pos && g.lid == t.lid) || g.stopped.any fun n => trigs.contains n)).map
          fun g => (pc.1, g)).flatten
      (named.foldl (fun s x => s.go x.1 x.2) s).finishCmd c 0 named.length
/-- DEBUG_STEP (R223): one stopped group resumes with SS = 1. -/
def execDebugStep (q : Nat) (s : State) : Out :=
  debugCommand q 3 0 false s fun c _ t s =>
    match s.targetGroup t with
    | none => s.finishCmd c 0x04
    | some g =>
      if !g.isStopped then s.finishCmd c 0x05
      else
        let s := s.modGroup t.pos g.gid fun g => { g with stepping := true }
        let s := s.modGroupThreads t.pos g.gid fun t =>
          if t.run == Run.stopped then { t.resume with status := t.status ||| 0x10#64, stepped := false } else t
        let x : StepOp := { pos := t.pos, gslot := t.gslot, cmd := c, since := s.coreClocks t.pos, count := (s.threadsOf t.pos g.gid).length }
        (s.modCore t.pos Core.fixStopped).modFw fun w => { w with steps := w.steps ++ [x] }
/-- Threads of a group that have not retired their instruction of the step. -/
def State.unstepped (s : State) (p gid : Nat) : Nat := ((s.threadsOf p gid).filter fun x => !x.2.2.stepped).length
/-- End a step: the group, if it stands, stops again with skid 0, and STEP completes; a trigger may have stopped it before. -/
def State.endStep (s : State) (x : StepOp) : State :=
  let s := s.modFw fun w => { w with steps := w.steps.erase x }
  match (s.core x.pos).groups.find? fun g => g.lowSlot == x.gslot with
  | none => s.finishCmd x.cmd 0 x.count
  | some g =>
    let n := x.count - s.unstepped x.pos g.gid
    if !g.stepping then (s.modGroupThreads x.pos g.gid Thread.clearSs).finishCmd x.cmd 0 n
    else
      let s := s.modGroupThreads x.pos g.gid fun t => (t.hold .stopped).clearSs
      let drop (p : Nat) (c : Core) (st : Nat × Thread) : Core := if st.2.group == g.gid && st.2.homePos p == x.pos then c.dropWaits st.1 else c
      let s := { s with cores := tblMap (fun p (c : Core) => c.threads.foldl (drop p) c) s.cores }
      ((s.modGroup x.pos g.gid fun g => { g with stepping := false }).modCore x.pos Core.fixStopped).finishCmd x.cmd 0 n
/-- A step is over: every thread has retired its instruction, or the group is gone, or 64 clocks have passed. -/
def State.stepOver (s : State) (x : StepOp) : Bool :=
  match (s.core x.pos).groups.find? fun g => g.lowSlot == x.gslot && g.stepping with
  | none => true
  | some g => g.dying.isSome || s.unstepped x.pos g.gid = 0 || 64 ≤ s.coreClocks x.pos - x.since
/-- DEBUG_STEP_END (R223). -/
def execDebugStepEnd (pos gslot : Nat) (s : State) : Out :=
  match s.fw.steps.find? fun (x : StepOp) => x.pos == pos && x.gslot == gslot with
  | none => .next s
  | some x => .next (if s.stepOver x then s.endStep x else s)
/-- DEBUG_DUMP (R215, R216): the buffer is checked, then the group; the dump is written when the group's accesses have drained. -/
def execDebugDump (q : Nat) (s : State) : Out :=
  command q 0x0F (fun n => n = 4) s fun c e s =>
    let buf := entWord e 16
    match s.debugTarget e 1 false with
    | .error n => s.finishCmd c n
    | .ok t => match s.targetGroup t with
      | none => s.finishCmd c 0x04
      | some g => match s.badBuffer buf 0x50000 4096 with
        | some n => s.finishCmd c n
        | none =>
          if !g.isStopped then s.finishCmd c 0x05
          else s.modFw fun w => { w with dumps := w.dumps ++ [({ pos := t.pos, gid := g.gid, buf := buf, cmd := c } : DumpOp)] }
/-- Write the dump of a group whose accesses have drained, or 10 ms after it stopped; the entries of its dale are flushed first. -/
def State.settleDump (s : State) (x : DumpOp) : State :=
  match (s.core x.pos).group? x.gid with
  | none => (s.modFw fun w => { w with dumps := w.dumps.erase x }).finishCmd x.cmd 0x04
  | some g =>
    let late := 10000000 ≤ (s.time - g.stopAt).toNat
    let open0 := s.groupBusy x.pos x.gid
    let r := s.flushDale (daleOf x.pos) fun _ => true
    if !late && (!open0.isEmpty || !r.2.isEmpty || s.headsLeft x.pos x.gid) then r.1
    else
      let g := { g with indet := g.indet + open0.length, badList := (g.badList ++ open0.map fun q => q.badEntry .ok).take 512 }
      (r.1.writeDump x.buf x.pos g 0).modFw (fun w => { w with dumps := w.dumps.erase x }) |>.finishCmd x.cmd 0 g.drain (BitVec.ofNat 64 g.indet)
/-- Stops and halts whose clocks have passed hold their threads, and the cores answer (R118, R221). -/
def State.settleLags (s : State) : State :=
  s.cores.foldl (fun s pc =>
    let p := pc.1
    let now := s.coreClocks p
    let s := if pc.2.haltDue.any fun k => k ≤ now then s.haltNow p else s
    let ripe := (s.core p).groups.filter fun g => g.lag.any fun k => k ≤ now
    let s := ripe.foldl (fun s g =>
      if g.dying.isSome then s.modGroup p g.gid fun g => { g with lag := none } else s.freeze p g.gid (g.stopped.getD 0)) s
    if (s.core p).stopOwed.isEmpty then s else s.answerStops p) s
/-- The dumps that wait. -/
def State.settleDumps (s : State) : State := s.fw.dumps.foldl (fun s x => s.settleDump x) s
/-- The steps whose groups are gone. -/
def State.settleSteps (s : State) : State :=
  s.fw.steps.foldl (fun s x => if (s.core x.pos).groups.any fun g => g.lowSlot == x.gslot && g.stepping && g.dying.isNone then s else s.endStep x) s

end Sys2Proof.Machine
end

