-- ==== Sys2Proof/Machine/Engines.lean ====
section
/-! DEFINITION. The copy engine's instructions `tcopy` and `tgather` (R381 to R383). The chunks move in Answer.lean. -/
namespace Sys2Proof.Machine

/-- The region of an engine range (R381), or the trap. -/
def State.engineRegion (s : State) (g : Group) (l : Launch) (ia n : Nat) (va : Word) (w : Bool) : Option Trap :=
  let a : Acc := { va := va, n := n, align := 1, r := !w, w := w, kind := if w then .store else .load }
  match placeOf ia with
  | .acc _ _ | .ctl _ _ | .dev _ => some (permission (if l.stepMode then 3#4 else 5#4) va)
  | .sp _ off => if 0x40000 < off + n then some (permission 5#4 va) else regionCheck s s.pos g l ia a
  | .peer _ low => if low < 0x800000000000 then regionCheck s s.pos g l ia a else some (permission (if l.stepMode then 3#4 else 5#4) va)
  | _ => regionCheck s s.pos g l ia a
/-- The check of an engine range at issue: its intermediate base, or the trap. A range of no bytes is not checked. -/
def State.engineRange (s : State) (g : Group) (l : Launch) (va : Word) (n : Nat) (w : Bool) : Except Trap Nat :=
  if n = 0 then .ok 0
  else match spanFor g.spans va n with
    | none => .error { code := 0x03#8, tval := va }
    | some sp =>
      if (if w then !sp.w else !sp.r) then .error (permission 1#4 va)
      else match s.engineRegion g l (sp.ia va) n va w with
        | some tr => .error tr
        | none => .ok (sp.ia va)
/-- Fork an engine operation of the issuing thread (R196): a core has sixteen outstanding. -/
def forkEngine (s : State) (t : Thread) (off : Nat) (todo : List Piece) : Out :=
  if 16 ≤ (s.engines.filter fun e => e.node == s.pos).length then stall s
  else
    let e : EngineOp := { id := 0, node := s.pos, slot := some s.slot, gid := t.group, lid := (s.core s.pos).lid, barrier := some off, todo := todo, live := 0,
                          handler := t.th, poison := false, fail := none, cmd := none }
    .next ((s.retire { t with engines := t.engines + 1 }).startEngine e)
/-- The digest's element of an engine command (R140 kind 7). -/
def State.foldEngine (s : State) (t : Thread) (g : Group) (d a : Word) (x : Word) (size : Nat) : Thread :=
  if s.digests g then
    t.feed (digestElem (addrField s.pos g d) (addrField s.pos g a) 0xFF 7 ((x.extractLsb' 0 40).toNat + size * 2 ^ 40))
  else t
/-- `tcopy` (R381). -/
def execTcopy (d a b c : Reg) (s : State) : Out :=
  tileOp [d, a, b, c] pfxNone s fun t g l _ =>
    let n := (t.rx b).toNat
    if 2 ^ 32 < n then .next (s.illegal 4#4)
    else match s.engineRange g l (t.rx a) n false with
      | .error tr => .next (s.trap tr)
      | .ok src => match s.engineRange g l (t.rx d) n true with
        | .error tr => .next (s.trap tr)
        | .ok dst => match barrierObj s.pos g (t.rx c) true with
          | .error tr => .next (s.trap tr)
          | .ok off =>
            let t' := s.foldEngine t g (t.rx d) (t.rx a) (t.rx b) 0
            if g.check.isSome then .next (s.retire t')
            else forkWait s t (forkEngine s t' off
              (if n = 0 then [] else [{ src := some src, vsrc := t.rx a, dst := dst, vdst := t.rx d, n := n, data := [], bad := none }]))
/-- Bytes of an element of `tgather`. -/
def gatherBytes : GatherSize → Nat
  | .b8 => 8
  | .b16 => 16
  | .b64 => 64
  | .b128 => 128
/-- The acc code of an element size. -/
def gatherCode : GatherSize → Nat
  | .b8 => 0
  | .b16 => 1
  | .b64 => 2
  | .b128 => 3
/-- The check of a gathered element when the engine reads it (R382): a fault of that element. -/
def State.gatherElem (s : State) (g : Group) (l : Launch) (base : Word) (e dst : Nat) (vdst : Word) (j ix : Nat) : Piece :=
  let va := base + BitVec.ofNat 64 (ix * e)
  let q : Piece := { src := none, vsrc := va, dst := dst + j * e, vdst := vdst + BitVec.ofNat 64 (j * e), n := e, data := [], bad := none }
  match s.engineRange g l va e false with
  | .ok ia => { q with src := some ia }
  | .error tr => { q with bad := some (if tr.code = 0x05#8 then (0x05#8, 0#4) else (0x04#8, 5#4)) }
/-- `tgather` (R382): the count and the indices are read at issue. -/
def execTgather (e : GatherSize) (d a b c : Reg) (s : State) : Out :=
  tileOp [d, a, b, c] pfxNone s fun t g l _ =>
    let lst := t.rx b
    match checkAcc s s.pos t { va := lst, n := 8, align := 8, r := true, w := false, kind := .load } with
    | .error tr => .next (s.trap tr)
    | .ok ia =>
      if !(inScratchpad ia && ownPlace s.pos ia) then .next (s.trap (permission 5#4 lst))
      else
        let off := ia % 0x400000
        let cnt := natOfBytes ((s.core s.pos).spRead off 4)
        let list : Acc := { va := lst, n := 8 + 4 * cnt, align := 8, r := true, w := false, kind := .load }
        if 65536 < cnt then .next (s.illegal 4#4)
        else match checkAcc s s.pos t list with
          | .error tr => .next (s.trap tr)
          | .ok _ =>
            if 0x40000 < off + list.n then .next (s.trap (permission 5#4 lst))
            else match s.engineRange g l (t.rx d) (cnt * gatherBytes e) true with
              | .error tr => .next (s.trap tr)
              | .ok dst => match barrierObj s.pos g (t.rx c) true with
                | .error tr => .next (s.trap tr)
                | .ok bo =>
                  if (s.core s.pos).spPoison off list.n then .next (s.consumePoison s.pos s.slot true t.th lst)
                  else
                    let t' := s.foldEngine t g (t.rx d) (t.rx a) lst (gatherCode e)
                    let bytes := (s.core s.pos).spRead off list.n
                    let idx := (List.range cnt).map fun j => natOfBytes ((bytes.drop (8 + 4 * j)).take 4)
                    if g.check.isSome then .next (s.retire t')
                    else forkWait s t (forkEngine s t' bo
                      ((idx.zipIdx).map fun x => s.gatherElem g l (t.rx a) (gatherBytes e) dst (t.rx d) x.2 x.1))

end Sys2Proof.Machine
end

