-- ==== Sys2Proof/Machine/Media.lean ====
section
/-! DEFINITION. The media ports (R93 to R98): stream descriptors, packets, frames and their records; and the PTP receivers that discipline
TIMEB (R18, R94, R227). -/
namespace Sys2Proof.Machine

/-! ## Stream descriptors (R95) -/

/-- n bytes of a stream's descriptor at an offset. -/
def Stream.field (m : Stream) (o n : Nat) : Nat := entNat m.desc o n
/-- ESS. -/
def Stream.ess (m : Stream) : Nat := m.field 0x02 1
/-- WIDTH. -/
def Stream.width (m : Stream) : Nat := m.field 0x20 2
/-- HEIGHT. -/
def Stream.height (m : Stream) : Nat := m.field 0x22 2
/-- DEPTH. -/
def Stream.depth (m : Stream) : Nat := m.field 0x24 1
/-- SAMP. -/
def Stream.samp (m : Stream) : Nat := m.field 0x25 1
/-- RATEN. -/
def Stream.raten (m : Stream) : Nat := m.field 0x26 2
/-- RATED. -/
def Stream.rated (m : Stream) : Nat := m.field 0x28 2
/-- STRIDE. -/
def Stream.stride (m : Stream) : Nat := m.field 0x2C 4
/-- NBUF. -/
def Stream.nbuf (m : Stream) : Nat := m.field 0x38 2
/-- Media clock of the essence. -/
def Stream.clk (m : Stream) : Nat := if m.ess = 0x30 then 48000 else 90000
/-- Packets a second of an audio stream. -/
def Stream.pktRate (m : Stream) : Nat := if m.samp = 0 then 8000 else 1000
/-- pgroup bytes and pixels of the video formats (ST 2110-20). -/
def Stream.pgroup (m : Stream) : Nat × Nat :=
  if m.samp = 0 then (m.depth / 2, 2)
  else match m.depth with
    | 8 => (3, 1)
    | 10 => (15, 4)
    | _ => (9, 2)
/-- Bytes of a line, or of an audio packet's slot. -/
def Stream.line (m : Stream) : Nat :=
  if m.ess = 0x20 then (m.width * m.pgroup.1 + m.pgroup.2 - 1) / m.pgroup.2
  else m.width * (m.depth / 8) * (48000 / m.pktRate)
/-- Bytes of a frame buffer: 0x1_0000 + HEIGHT·STRIDE, rounded up to 64 KiB. -/
def Stream.bufSize (m : Stream) : Nat := (0x10000 + m.height * m.stride + 65535) / 65536 * 65536
/-- Address of a buffer's byte. -/
def Stream.at (m : Stream) (b o : Nat) : Word := BitVec.ofNat 64 (m.field 0x30 8 + b * m.bufSize + o)
/-- The waiters' logical cores. -/
def Stream.waiters (m : Stream) : List Nat := (List.range (m.field 0x3A 1)).map fun i => m.field (0x50 + 2 * i) 2
/-- A stream as OPEN makes it. -/
def Stream.open0 (d : List Byte) : Stream := { desc := d, frames := [], nextBuf := 0, seen := [], closed := [], stall := none, stats := List.replicate 8 0 }
/-- A reserved byte or bit of a descriptor is nonzero. -/
def Stream.reserved (m : Stream) : Bool :=
  m.field 0x04 2 / 2 ^ 12 % 8 ≠ 0 || [(0x06, 2), (0x0E, 2), (0x16, 2), (0x2A, 2), (0x3B, 1), (0x48, 8), (0x70, 16)].any fun r => m.field r.1 r.2 ≠ 0
/-- A field of a descriptor is out of range. -/
def State.badStream (s : State) (m : Stream) : Bool :=
  3 < m.field 0 1 || (3 < m.field 1 1 && m.field 1 1 ≠ 0xFF) || m.field 3 1 < 96 || 127 < m.field 3 1 ||
  m.rated = 0 || m.raten < m.rated || 240 * m.rated < m.raten || m.stride % 64 ≠ 0 || m.stride = 0 || m.height = 0 ||
  (match m.ess with
   | 0x20 => !([8, 10, 12].contains m.depth) || 2 < m.samp || m.width = 0 || 7680 < m.width || 4320 < m.height || m.stride < m.line
   | 0x30 => !([16, 24].contains m.depth) || 1 < m.samp || m.width = 0 || 64 < m.width || m.height * m.raten ≠ m.rated * m.pktRate || m.stride < m.line
   | 0x40 => false
   | _ => true) ||
  m.field 0x30 8 % 65536 ≠ 0 || m.nbuf < 2 || 256 < m.nbuf || !s.addrOk (m.at 0 0) (m.nbuf * m.bufSize) || 16 < m.field 0x3A 1 ||
  m.field 0x3C 4 < 100 || 1000000 < m.field 0x3C 4 || m.field 0x40 4 < 1 || 10 ^ 7 < m.field 0x40 4 ||
  m.waiters.any fun n => s.fw.logical.length ≤ n

/-! ## Frames (R96, R97) -/

/-- The node of a media port. -/
def mediaNode (port : Nat) : Nat := agentNode port 4
/-- Virtual time of a frame index. -/
def Stream.vt (m : Stream) (idx : Nat) : BitVec 32 := BitVec.ofNat 32 idx - BitVec.ofNat 32 (m.field 0x44 4)
/-- Nominal start of a frame, a TIMEB value. -/
def Stream.start (m : Stream) (idx : Nat) : Nat := (idx * m.rated * 10 ^ 9 + m.raten - 1) / max m.raten 1
/-- An RTP timestamp extended against TIMEB: the value nearest to TIMEB's own. -/
def Stream.extend (m : Stream) (ts : BitVec 32) (now : Word) : Nat :=
  let ref := now.toNat * m.clk / 10 ^ 9
  (Int.ofNat ref + (ts - BitVec.ofNat 32 ref).toInt).toNat
/-- The frame index of an extended timestamp: nearest for video and ancillary, floor for audio. -/
def Stream.index (m : Stream) (t : Nat) : Nat :=
  if m.ess = 0x30 then t * m.raten / (m.clk * m.rated) else (2 * t * m.raten + m.clk * m.rated) / (2 * m.clk * m.rated)
/-- Slot of an audio packet. -/
def Stream.slot (m : Stream) (t idx : Nat) : Nat := (t - (idx * m.clk * m.rated + m.raten - 1) / max m.raten 1) / (48000 / m.pktRate)
/-- Add to a counter of a stream. -/
def Stream.count (m : Stream) (k : Nat) : Stream := { m with stats := m.stats.modify k (· + 1) }
/-- Put a stream. -/
def State.setStream (s : State) (i : Nat) (m : Stream) : State := s.modFw fun w => { w with streams := tblSet w.streams i m }
/-- Send a frame's record to every waiter (R97); the port's leaf is bounded by it until it is delivered. -/
def State.sendFrameRecord (s : State) (i : Nat) (m : Stream) (vt : BitVec 32) (flags buf lines : Nat) : State :=
  let r : BitVec 128 := s.time.extractLsb' 0 32 ++ BitVec.ofNat 16 (min lines 0xFFFF) ++ BitVec.ofNat 16 buf ++ vt ++ 0#8 ++ 15#4 ++ BitVec.ofNat 4 flags ++
    BitVec.ofNat 8 i ++ 0x23#8
  let n := mediaNode (m.field 0 1)
  (m.waiters.filterMap fun k => s.fw.logical[k]?).foldl (fun s p =>
    let l := s.leaf n
    let b : Bound := { vt := vt, dst := p, tag := BitVec.ofNat 8 i }
    { s with leaves := tblSet s.leaves n { l with bounds := l.bounds ++ [b] } }.sendRecord n p vt r) s
/-- The bitmap of a frame. -/
def Frame.bitmap (f : Frame) (h : Nat) : List Byte :=
  (List.range ((h + 7) / 8)).map fun i => (List.range 8).foldl (fun (b : Byte) j => if (tblGet? f.times (8 * i + j)).isSome then b ||| (1#8 <<< j) else b) 0#8
/-- Close an open frame (R96, R97): the header, STATE 2 last, then the records. -/
def State.closeFrame (s : State) (i : Nat) (m : Stream) (f : Frame) (early : Bool) : State :=
  let h := m.height
  let lines := f.times.length
  let inc := lines < h
  let single := m.field 1 1 ≠ 0xFF && f.paths ≠ 3#2
  let flags := (if inc then 1 else 0) + (if f.stalled then 2 else 0) + (if single then 4 else 0) + (if early then 8 else 0) + (if f.oversize then 16 else 0)
  let put (s : State) (o : Nat) (bs : List Byte) : State := s.fwStore (m.at f.buf o) bs
  let s := put s 8 (bytesOfNat f.idx 4 ++ bytesOf ((m.vt f.idx).setWidth 64) 4 ++ bytesOfNat flags 4 ++ bytesOfNat lines 4 ++ bytesOf (f.rtp.setWidth 64) 4 ++
    bytesOfNat f.pkts 4 ++ bytesOf f.first 8 ++ bytesOf s.time 8 ++ bytesOfNat f.late 4)
  let s := put s 0x40 (f.bitmap h)
  let s := put s 0x400 ((List.range h).map fun k => bytesOfNat ((tblGet? f.times k).getD 0xFFFFFFFF) 4).flatten
  let s := put s 0 (bytesOfNat 2 8)
  let m := { m.count (if inc then 5 else 4) with frames := m.frames.filter fun x => x.idx != f.idx, closed := (f.idx, some f.buf) :: m.closed }
  (s.setStream i m).sendFrameRecord i m (m.vt f.idx) ((if inc then 1 else 0) + (if f.stalled then 2 else 0) + (if early then 8 else 0)) f.buf lines
/-- Drop a frame that finds no free buffer. -/
def State.dropFrame (s : State) (i : Nat) (m : Stream) (idx : Nat) : State :=
  let m := { m.count 6 with closed := (idx, none) :: m.closed }
  (s.setStream i m).sendFrameRecord i m (m.vt idx) 4 0xFFFF 0

/-! ## Packets (R93, R96) -/

/-- The path of a stream that a packet comes by: 1, 2, or none. -/
def Stream.path (m : Stream) (k : MediaPacket) : Option Nat :=
  let vl := m.field 4 2
  let tag : Bool := if vl / 2 ^ 15 = 1 then k.vlan = some (vl % 2 ^ 12) else k.vlan.isNone
  let ip (o : Nat) : BitVec 32 := BitVec.ofNat 32 (m.field o 4)
  if !(tag && k.pt = m.field 3 1) then none
  else if k.port = m.field 0 1 && k.group = ip 0x08 && k.udp = m.field 0x0C 2 && (ip 0x18 = 0#32 || k.source = ip 0x18) then some 1
  else if k.port = m.field 1 1 && k.group = ip 0x10 && k.udp = m.field 0x14 2 && (ip 0x1C = 0#32 || k.source = ip 0x1C) then some 2
  else none
/-- Place a segment's data in a frame: its line's bytes and, when the line is whole, its time. -/
def State.placeData (s : State) (i : Nat) (m : Stream) (f : Frame) (row o : Nat) (data : List Byte) (whole : Nat) : State × Frame × Bool :=
  if m.height ≤ row || whole < o + data.length then (s, { f with oversize := true }, false)
  else
    let n := tblGetD f.lines row 0 + data.length
    let dt := min ((s.time - f.first).toNat) 0xFFFFFFFE
    (s.fwStore (m.at f.buf (0x10000 + row * m.stride + o)) data,
     { f with lines := tblSet f.lines row n, times := if n = whole then tblSet f.times row dt else f.times }, true)
/-- A packet of an open frame: its data is placed, and the marker closes the frame. A packet with a dropped segment counts once among
the OVERSIZE packets (R98). -/
def State.acceptPacket (s : State) (i : Nat) (k : MediaPacket) (t : Nat) (path : Nat) (idx : Nat) : State :=
  match tblGet? s.fw.streams i with
  | none => s
  | some m => match m.frames.find? fun f => f.idx == idx with
    | none => s
    | some f =>
      let f := { f with pkts := f.pkts + 1, paths := f.paths ||| BitVec.ofNat 2 path }
      let one (x : State × Frame × Bool) (g : MediaSegment) : State × Frame × Bool :=
        let r := match m.ess with
          | 0x20 => x.1.placeData i m x.2.1 g.row (g.offset * m.pgroup.1 / m.pgroup.2) g.data m.line
          | 0x30 => x.1.placeData i m x.2.1 (m.slot t idx) 0 g.data m.line
          | _ => if m.stride < g.data.length then (x.1, { x.2.1 with oversize := true }, false)
            else x.1.placeData i m x.2.1 x.2.1.lines.length 0 g.data g.data.length
        (r.1, r.2.1, x.2.2 && r.2.2)
      let r := k.segments.foldl one (s, f, true)
      let m := if r.2.2 then m.count 0 else (m.count 0).count 3
      let m' := { m with frames := m.frames.map fun x => if x.idx = idx then r.2.1 else x, stall := some s.time }
      let s := r.1.setStream i m'
      if k.marker then s.closeFrame i m' r.2.1 false else s
/-- A packet of a frame that is not open opens the next buffer when that is free. -/
def State.openFrame (s : State) (i : Nat) (k : MediaPacket) (idx : Nat) : State :=
  match tblGet? s.fw.streams i with
  | none => s
  | some m0 =>
    let s := match m0.frames with
      | [f, _] => s.closeFrame i m0 f true
      | _ => s
    let m := (tblGet? s.fw.streams i).getD m0
    let b := m.nextBuf
    if natOfBytes (s.fwLoad (m.at b 0) 8) ≠ 0 then s.dropFrame i m idx
    else
      let f : Frame := { idx := idx, buf := b, first := s.time, rtp := k.rtpTs, pkts := 0, late := 0, stalled := false, oversize := false, paths := 0#2,
                         lines := [], times := [] }
      (s.fwStore (m.at b 0) (bytesOfNat 1 8)).setStream i { m with
        frames := m.frames ++ [f], nextBuf := (b + 1) % max m.nbuf 1,
        closed := m.closed.map fun x => if x.2 = some b then (x.1, none) else x }
/-- A late packet (R96): counted in its buffer's LATE while the buffer is unreused, in the stream's statistics otherwise. -/
def State.latePacket (s : State) (i : Nat) (m : Stream) (idx : Nat) : State :=
  match (m.closed.find? fun x => x.1 == idx).bind (·.2) with
  | some b => s.fwStore (m.at b 0x30) (bytesOfNat (natOfBytes (s.fwLoad (m.at b 0x30) 4) + 1) 4)
  | none => s.setStream i (m.count 2)
/-- MEDIA_PACKET (R93, R96): an IPv6 frame is dropped and counted; a frame over 9,216 bytes is not accepted. -/
def execMediaPacket (k : MediaPacket) (s : State) : Out :=
  if k.ipv6 then .next (s.modFw fun w => { w with ipv6 := tblSet w.ipv6 k.port (tblGetD w.ipv6 k.port 0 + 1) })
  else if 9216 < k.size then .next s
  else match s.fw.streams.findSome? fun e => (e.2.path k).map fun p => (e.1, e.2, p) with
  | none => .next s
  | some (i, m, path) =>
    if k.malformed then .next (s.setStream i (m.count 3))
    else
      let t := m.extend k.rtpTs s.time
      let idx := m.index t
      let dual := m.field 1 1 ≠ 0xFF
      if dual && m.seen.contains k.seq then
        .next (s.setStream i { m.count 1 with frames := m.frames.map fun f => if f.idx = idx then { f with paths := f.paths ||| BitVec.ofNat 2 path } else f })
      else
        let m := if dual then
            let top := m.seen.foldl max k.seq
            { m with seen := (k.seq :: m.seen).filter fun n => top < n + 4096 }
          else m
        let s := s.setStream i m
        if m.frames.any fun f => f.idx == idx then .next (s.acceptPacket i k t path idx)
        else if (m.closed.any fun x => x.1 == idx) || (!m.frames.isEmpty && m.frames.all fun f => idx < f.idx) then .next (s.latePacket i m idx)
        else .next ((s.openFrame i k idx).acceptPacket i k t path idx)
/-- FRAME_DEADLINE (R96). -/
def execFrameDeadline (i idx : Nat) (s : State) : Out :=
  match tblGet? s.fw.streams i with
  | none => .next s
  | some m => match m.frames.find? fun f => f.idx == idx with
    | some f => .next (if m.start idx + m.field 0x40 4 * 1000 ≤ s.time.toNat then s.closeFrame i m f false else s)
    | none => .next s
/-- STALL_TIMER_EXPIRY (R96). -/
def execStallTimerExpiry (i : Nat) (s : State) : Out :=
  match tblGet? s.fw.streams i with
  | none => .next s
  | some m => match m.stall with
    | some t =>
      .next (if !m.frames.isEmpty && m.field 0x3C 4 * 1000 ≤ (s.time - t).toNat then
        s.setStream i { m.count 7 with stall := none, frames := m.frames.map fun f => { f with stalled := true } } else s)
    | none => .next s
/-- What a stream contributes to the watershed tree (R97): its oldest open frame or undelivered record, else the next frame ahead. -/
def State.streamBound (s : State) (i : Nat) (m : Stream) : BitVec 32 :=
  let mine := (m.frames.map fun f => m.vt f.idx) ++ ((s.leaf (mediaNode (m.field 0 1))).bounds.filter fun b => b.tag.toNat == i).map (·.vt)
  match mine with
  | [] => m.vt (s.time.toNat * m.raten / (max m.rated 1 * 10 ^ 9) + 1)
  | v :: t => t.foldl (fun a b => if b.ult a then b else a) v

/-! ## MEDIA commands (R95) -/

/-- TIMEB is locked to PTP. -/
def State.ptpLocked (s : State) : Bool :=
  match s.fw.ptpSel with
  | some (port, _) => (tblGet? s.fw.ptp port).any (·.locked)
  | none => false
/-- MEDIA_OPEN. -/
def execMediaOpen (q : Nat) (s : State) : Out :=
  command q 0x0E (fun k => k = 0) s fun c e s =>
    let a := entWord e 16
    if !s.addrOk a 128 then s.finishCmd c 0x03
    else if !s.addrMapped a 128 then s.finishCmd c 0x0B
    else
      let m := Stream.open0 (s.fwLoad a 128)
      let used (port : Nat) : Nat := (s.fw.streams.filter fun x => x.2.field 0 1 == port || x.2.field 1 1 == port).length
      if m.reserved then s.finishCmd c 0x02
      else if s.badStream m then s.finishCmd c 0x03
      else if !s.addrMapped (m.at 0 0) (m.nbuf * m.bufSize) then s.finishCmd c 0x0B
      else if !s.ptpLocked then s.finishCmd c 0x11
      else if 64 ≤ used (m.field 0 1) || (m.field 1 1 ≠ 0xFF && 64 ≤ used (m.field 1 1)) then s.finishCmd c 0x06
      else match (List.range 256).find? fun i => (tblGet? s.fw.streams i).isNone with
        | none => s.finishCmd c 0x06
        | some i => (s.setStream i m).finishCmd c 0 i
/-- MEDIA_CLOSE: open frames close as at a deadline. -/
def execMediaClose (q : Nat) (s : State) : Out :=
  command q 0x0E (fun k => k = 1) s fun c e s =>
    let i := entNat e 8 1
    match tblGet? s.fw.streams i with
    | none => s.finishCmd c 0x04
    | some m =>
      let s := m.frames.foldl (fun s f => match tblGet? s.fw.streams i with
        | some m => s.closeFrame i m f false
        | none => s) s
      (s.modFw fun w => { w with streams := tblErase w.streams i }).finishCmd c 0
/-- MEDIA_STATS (R98). -/
def execMediaStats (q : Nat) (s : State) : Out :=
  command q 0x0E (fun k => k = 2) s fun c e s => s.putStats c (entNat e 8 1) (entWord e 16)
/-- MEDIA_PTP: the port and domain that discipline TIMEB. One already chosen and locked completes at once; another waits for lock. -/
def execMediaPtp (q : Nat) (s : State) : Out :=
  command q 0x0E (fun k => k = 3) s fun c e s =>
    let port := entNat e 8 1
    let dom := entNat e 9 1
    if 3 < port ∨ 127 < dom then s.finishCmd c 0x03
    else if s.fw.ptpSel = some (port, dom) ∧ s.ptpLocked = true then s.finishCmd c 0
    else
      let w : PtpWait := { port := port, domain := dom, until0 := s.time + BitVec.ofNat 64 (entNat e 12 4 * 1000000), cmd := c }
      s.modFw fun f => { f with
        ptpSel := some (port, dom), ptpWait := f.ptpWait ++ [w], ptp := if f.ptpSel = some (port, dom) then f.ptp else tblErase f.ptp port }

/-! ## PTP (R18, R94) -/

/-- TIMEB is stepped forward once, to PTP time; every trace encoder writes TSFULL (R18, R227). -/
def State.stepTime (s : State) (t : Word) : State :=
  if s.fw.ptpStepped || !(s.time.ult t) then s
  else
    let s := { s with time := t, fw := { s.fw with ptpStepped := true } }
    s.cores.foldl (fun s pc =>
      s.traceFull pc.1) s
/-- PTP locks: TIMEB is stepped at the first lock, and every MEDIA PTP that waits for the port and domain completes (R95). -/
def State.ptpLock (s : State) (t : Word) : State :=
  let s := (s.stepTime t).modFw fun w => { w with ptpStepped := true }
  let mine := s.fw.ptpWait.filter fun w => s.fw.ptpSel = some (w.port, w.domain)
  mine.foldl (fun s w => s.finishCmd w.cmd 0) (s.modFw fun f => { f with ptpWait := f.ptpWait.filter fun w => f.ptpSel ≠ some (w.port, w.domain) })
/-- PTP_SYNC_MESSAGE (R94) of the chosen port and domain: once TIMEB has been stepped, its offset is PTP time against TIMEB; before that,
what the port's receiver measures against its own clock (assumption 75). Sixteen in a row within ±1 µs lock; while locked, TIMEB is slewed
toward PTP time (R18). -/
def execPtpSyncMessage (port domain : Nat) (m : SyncTime) (s : State) : Out :=
  if s.fw.ptpSel ≠ some (port, domain) then .next s
  else
    let t := BitVec.ofNat 64 m.time
    let off : Int := if s.fw.ptpStepped then (t - s.time).toInt else m.offset
    let old := tblGetD s.fw.ptp port { locked := false, good := 0, last := s.time, diff := 0 }
    let good := if -1000 ≤ off ∧ off ≤ 1000 then old.good + 1 else 0
    let locked := old.locked || 16 ≤ good
    let s := if locked && !old.locked then s.ptpLock t else s
    .next (s.modFw fun w => { w with
      ptp := tblSet w.ptp port { locked := locked, good := min good 16, last := s.time, diff := off },
      ptpOff := if locked then (t - s.time).toInt else w.ptpOff })
/-- PTP_LOCK_LOSS (R94): 2 s without a sync message; TIMEB runs on undisciplined. -/
def execPtpLockLoss (port : Nat) (s : State) : Out :=
  match tblGet? s.fw.ptp port with
  | some x => .next (if 2000000000 ≤ (s.time - x.last).toNat then
      s.modFw fun w => { w with ptp := tblSet w.ptp port { x with locked := false, good := 0 },
                                ptpOff := if (w.ptpSel.map (·.1)) = some port then 0 else w.ptpOff }
    else s)
  | none => .next s
/-- PTP_LOCK_TIMEOUT (R95): a MEDIA PTP of a queue has waited out its time. -/
def execPtpLockTimeout (q : Nat) (s : State) : Out :=
  match s.fw.ptpWait.find? fun w => w.cmd.q = q && !(s.time.ult w.until0) with
  | some w => .next ((s.modFw fun f => { f with ptpWait := f.ptpWait.erase w }).finishCmd w.cmd 0x0C)
  | none => .next s

end Sys2Proof.Machine
end

