-- ==== Sys2Proof/Machine/Scalar.lean ====
section
/-! DEFINITION. Integer arithmetic, predicates and moves of the scalar registers (R296 to R299, R305, R306). -/
namespace Sys2Proof.Machine

/-- `idiv` at width w: quotient and remainder (R241). -/
def idiv {w : Nat} (sg : Bool) (a b : BitVec w) : BitVec w × BitVec w :=
  if b = 0#w then (BitVec.allOnes w, a)
  else if sg then (BitVec.ofInt w (a.toInt.tdiv b.toInt), BitVec.ofInt w (a.toInt.tmod b.toInt))
  else (a / b, a % b)
/-- Leading zeros. -/
def clzN {w : Nat} (a : BitVec w) : Nat := w - bitlen a.toNat
/-- Trailing zeros: w for zero. -/
def ctzN {w : Nat} (a : BitVec w) : Nat :=
  (List.range w).foldr (fun i n => if a.getLsbD i then i else n) w
/-- Set bits. -/
def popN {w : Nat} (a : BitVec w) : Nat := (List.range w).foldl (fun n i => if a.getLsbD i then n + 1 else n) 0
/-- Signed minimum and maximum. -/
def sminW {w : Nat} (a b : BitVec w) : BitVec w := if a.slt b then a else b
/-- Signed maximum. -/
def smaxW {w : Nat} (a b : BitVec w) : BitVec w := if a.slt b then b else a
/-- Unsigned minimum. -/
def uminW {w : Nat} (a b : BitVec w) : BitVec w := if a.ult b then a else b
/-- Unsigned maximum. -/
def umaxW {w : Nat} (a b : BitVec w) : BitVec w := if a.ult b then b else a
/-- Shift amount of a 64-bit form: b[5:0]. -/
def amt6 (b : Word) : Nat := (b.extractLsb' 0 6).toNat
/-- Shift amount of a 32-bit form: b[4:0]. -/
def amt5 (b : Word) : Nat := (b.extractLsb' 0 5).toNat
/-- 1 or 0. -/
def oneIf (b : Bool) : Word := if b then 1#64 else 0#64
/-- The low 32 bits. -/
def lo32 (v : Word) : BitVec 32 := v.extractLsb' 0 32
/-- A 32-bit result as every .w form writes it. -/
def sx32 (v : BitVec 32) : Word := v.signExtend 64
/-- High 64 bits of the product of two 128-bit extensions. -/
def mulHi (a b : BitVec 128) : Word := (a * b).extractLsb' 64 64

/-- X(rd) := f(X(rs1), X(rs2)), with no flag and no format (R296). -/
def binOp (f : Word → Word → Word) (d a b : Reg) (s : State) : Out :=
  intOp [d, a, b] (fun t => t.wx d (f (t.rx a) (t.rx b))) s
/-- X(rd) := f(X(rs1)). -/
def unOp (f : Word → Word) (d a : Reg) (s : State) : Out := intOp [d, a] (fun t => t.wx d (f (t.rx a))) s
/-- A word form: on the low halves, the 32-bit result sign-extended (R297). -/
def binOpW (f : BitVec 32 → BitVec 32 → BitVec 32) (d a b : Reg) (s : State) : Out :=
  binOp (fun x y => sx32 (f (lo32 x) (lo32 y))) d a b s
/-- P(pd) := a comparison of two x registers (R305). -/
def pcmpOp (f : Word → Word → Bool) (d : Pred) (a b : Reg) (s : State) : Out :=
  intOp [a, b] (fun t => t.wp d (f (t.rx a) (t.rx b))) s
/-- Predicate logic (R306). -/
def predOp (f : Bool → Bool → Bool) (d a b : Pred) (s : State) : Out := intOp [] (fun t => t.wp d (f (t.rp a) (t.rp b))) s

/-- `add` (R296). -/
def execAdd (d a b : Reg) (s : State) : Out := binOp (fun x y => x + y) d a b s
/-- `sub` (R296). -/
def execSub (d a b : Reg) (s : State) : Out := binOp (fun x y => x - y) d a b s
/-- `and` (R296). -/
def execAnd (d a b : Reg) (s : State) : Out := binOp (fun x y => x &&& y) d a b s
/-- `or` (R296). -/
def execOr (d a b : Reg) (s : State) : Out := binOp (fun x y => x ||| y) d a b s
/-- `xor` (R296). -/
def execXor (d a b : Reg) (s : State) : Out := binOp (fun x y => x ^^^ y) d a b s
/-- `andn` (R296). -/
def execAndn (d a b : Reg) (s : State) : Out := binOp (fun x y => x &&& ~~~y) d a b s
/-- `orn` (R296). -/
def execOrn (d a b : Reg) (s : State) : Out := binOp (fun x y => x ||| ~~~y) d a b s
/-- `sll` (R296). -/
def execSll (d a b : Reg) (s : State) : Out := binOp (fun x y => x <<< amt6 y) d a b s
/-- `srl` (R296). -/
def execSrl (d a b : Reg) (s : State) : Out := binOp (fun x y => x >>> amt6 y) d a b s
/-- `sra` (R296). -/
def execSra (d a b : Reg) (s : State) : Out := binOp (fun x y => x.sshiftRight (amt6 y)) d a b s
/-- `rol` (R296). -/
def execRol (d a b : Reg) (s : State) : Out := binOp (fun x y => x.rotateLeft (amt6 y)) d a b s
/-- `ror` (R296). -/
def execRor (d a b : Reg) (s : State) : Out := binOp (fun x y => x.rotateRight (amt6 y)) d a b s
/-- `slt` (R296). -/
def execSlt (d a b : Reg) (s : State) : Out := binOp (fun x y => oneIf (x.slt y)) d a b s
/-- `sltu` (R296). -/
def execSltu (d a b : Reg) (s : State) : Out := binOp (fun x y => oneIf (x.ult y)) d a b s
/-- `min` (R296). -/
def execMin (d a b : Reg) (s : State) : Out := binOp (fun x y => sminW x y) d a b s
/-- `max` (R296). -/
def execMax (d a b : Reg) (s : State) : Out := binOp (fun x y => smaxW x y) d a b s
/-- `minu` (R296). -/
def execMinu (d a b : Reg) (s : State) : Out := binOp (fun x y => uminW x y) d a b s
/-- `maxu` (R296). -/
def execMaxu (d a b : Reg) (s : State) : Out := binOp (fun x y => umaxW x y) d a b s
/-- `mul` (R296). -/
def execMul (d a b : Reg) (s : State) : Out := binOp (fun x y => x * y) d a b s
/-- `mulh` (R296). -/
def execMulh (d a b : Reg) (s : State) : Out := binOp (fun x y => mulHi (x.signExtend 128) (y.signExtend 128)) d a b s
/-- `mulhu` (R296). -/
def execMulhu (d a b : Reg) (s : State) : Out := binOp (fun x y => mulHi (x.setWidth 128) (y.setWidth 128)) d a b s
/-- `mulhsu` (R296). -/
def execMulhsu (d a b : Reg) (s : State) : Out := binOp (fun x y => mulHi (x.signExtend 128) (y.setWidth 128)) d a b s
/-- `div` (R296). -/
def execDiv (d a b : Reg) (s : State) : Out := binOp (fun x y => (idiv true x y).1) d a b s
/-- `divu` (R296). -/
def execDivu (d a b : Reg) (s : State) : Out := binOp (fun x y => (idiv false x y).1) d a b s
/-- `rem` (R296). -/
def execRem (d a b : Reg) (s : State) : Out := binOp (fun x y => (idiv true x y).2) d a b s
/-- `remu` (R296). -/
def execRemu (d a b : Reg) (s : State) : Out := binOp (fun x y => (idiv false x y).2) d a b s
/-- `clz` (R296). -/
def execClz (d a : Reg) (s : State) : Out := unOp (fun x => BitVec.ofNat 64 (clzN x)) d a s
/-- `ctz` (R296). -/
def execCtz (d a : Reg) (s : State) : Out := unOp (fun x => BitVec.ofNat 64 (ctzN x)) d a s
/-- `popc` (R296). -/
def execPopc (d a : Reg) (s : State) : Out := unOp (fun x => BitVec.ofNat 64 (popN x)) d a s
/-- The width that a code of `sext` and `zext` names. -/
def extBits : ExtWidth → Nat
  | .b8 => 8
  | .b16 => 16
  | .b32 => 32
/-- `sext` (R296). -/
def execSext (d a : Reg) (w : ExtWidth) (s : State) : Out := unOp (fun x => (x.extractLsb' 0 (extBits w)).signExtend 64) d a s
/-- `zext` (R296). -/
def execZext (d a : Reg) (w : ExtWidth) (s : State) : Out := unOp (fun x => (x.extractLsb' 0 (extBits w)).setWidth 64) d a s
/-- `add.w` (R297). -/
def execAddW (d a b : Reg) (s : State) : Out := binOpW (fun x y => x + y) d a b s
/-- `sub.w` (R297). -/
def execSubW (d a b : Reg) (s : State) : Out := binOpW (fun x y => x - y) d a b s
/-- `mul.w` (R297). -/
def execMulW (d a b : Reg) (s : State) : Out := binOpW (fun x y => x * y) d a b s
/-- `div.w` (R297). -/
def execDivW (d a b : Reg) (s : State) : Out := binOpW (fun x y => (idiv true x y).1) d a b s
/-- `divu.w` (R297). -/
def execDivuW (d a b : Reg) (s : State) : Out := binOpW (fun x y => (idiv false x y).1) d a b s
/-- `rem.w` (R297). -/
def execRemW (d a b : Reg) (s : State) : Out := binOpW (fun x y => (idiv true x y).2) d a b s
/-- `remu.w` (R297). -/
def execRemuW (d a b : Reg) (s : State) : Out := binOpW (fun x y => (idiv false x y).2) d a b s
/-- `sll.w` (R297). -/
def execSllW (d a b : Reg) (s : State) : Out := binOpW (fun x y => x <<< (y.extractLsb' 0 5).toNat) d a b s
/-- `srl.w` (R297). -/
def execSrlW (d a b : Reg) (s : State) : Out := binOpW (fun x y => x >>> (y.extractLsb' 0 5).toNat) d a b s
/-- `sra.w` (R297). -/
def execSraW (d a b : Reg) (s : State) : Out := binOpW (fun x y => x.sshiftRight (y.extractLsb' 0 5).toNat) d a b s
/-- `rol.w` (R297). -/
def execRolW (d a b : Reg) (s : State) : Out := binOpW (fun x y => x.rotateLeft (y.extractLsb' 0 5).toNat) d a b s
/-- `ror.w` (R297). -/
def execRorW (d a b : Reg) (s : State) : Out := binOpW (fun x y => x.rotateRight (y.extractLsb' 0 5).toNat) d a b s
/-- `clz.w` (R297). -/
def execClzW (d a : Reg) (s : State) : Out := unOp (fun x => BitVec.ofNat 64 (clzN (lo32 x))) d a s
/-- `ctz.w` (R297). -/
def execCtzW (d a : Reg) (s : State) : Out := unOp (fun x => BitVec.ofNat 64 (ctzN (lo32 x))) d a s
/-- `popc.w` (R297). -/
def execPopcW (d a : Reg) (s : State) : Out := unOp (fun x => BitVec.ofNat 64 (popN (lo32 x))) d a s
/-- `addi` (R298). -/
def execAddi (d a : Reg) (i : BitVec 12) (s : State) : Out := unOp (fun x => x + immI i) d a s
/-- `andi` (R298). -/
def execAndi (d a : Reg) (i : BitVec 12) (s : State) : Out := unOp (fun x => x &&& immI i) d a s
/-- `ori` (R298). -/
def execOri (d a : Reg) (i : BitVec 12) (s : State) : Out := unOp (fun x => x ||| immI i) d a s
/-- `xori` (R298). -/
def execXori (d a : Reg) (i : BitVec 12) (s : State) : Out := unOp (fun x => x ^^^ immI i) d a s
/-- `slti` (R298). -/
def execSlti (d a : Reg) (i : BitVec 12) (s : State) : Out := unOp (fun x => oneIf (x.slt (immI i))) d a s
/-- `sltiu` (R298). -/
def execSltiu (d a : Reg) (i : BitVec 12) (s : State) : Out := unOp (fun x => oneIf (x.ult (immI i))) d a s
/-- `slli` (R298). -/
def execSlli (d a : Reg) (h : BitVec 6) (s : State) : Out := unOp (fun x => x <<< h.toNat) d a s
/-- `srli` (R298). -/
def execSrli (d a : Reg) (h : BitVec 6) (s : State) : Out := unOp (fun x => x >>> h.toNat) d a s
/-- `srai` (R298). -/
def execSrai (d a : Reg) (h : BitVec 6) (s : State) : Out := unOp (fun x => x.sshiftRight h.toNat) d a s
/-- `addi.w` (R298). -/
def execAddiW (d a : Reg) (i : BitVec 12) (s : State) : Out := unOp (fun x => sx32 (lo32 (x + immI i))) d a s
/-- `slli.w` (R298). -/
def execSlliW (d a : Reg) (h : BitVec 5) (s : State) : Out := unOp (fun x => sx32 (lo32 x <<< h.toNat)) d a s
/-- `srli.w` (R298). -/
def execSrliW (d a : Reg) (h : BitVec 5) (s : State) : Out := unOp (fun x => sx32 (lo32 x >>> h.toNat)) d a s
/-- `srai.w` (R298). -/
def execSraiW (d a : Reg) (h : BitVec 5) (s : State) : Out := unOp (fun x => sx32 ((lo32 x).sshiftRight h.toNat)) d a s
/-- `lui` (R299). -/
def execLui (d : Reg) (i : BitVec 20) (s : State) : Out := intOp [d] (fun t => t.wx d (immU i)) s
/-- `auipc` (R299): pc is the address of the auipc. -/
def execAuipc (d : Reg) (i : BitVec 20) (s : State) : Out := intOp [d] (fun t => t.wx d (t.pc + immU i)) s
/-- `pcmp.eq` (R305). -/
def execPcmpEq (d : Pred) (a b : Reg) (s : State) : Out := pcmpOp (fun x y => x == y) d a b s
/-- `pcmp.ne` (R305). -/
def execPcmpNe (d : Pred) (a b : Reg) (s : State) : Out := pcmpOp (fun x y => x != y) d a b s
/-- `pcmp.lt` (R305). -/
def execPcmpLt (d : Pred) (a b : Reg) (s : State) : Out := pcmpOp (fun x y => x.slt y) d a b s
/-- `pcmp.ge` (R305). -/
def execPcmpGe (d : Pred) (a b : Reg) (s : State) : Out := pcmpOp (fun x y => y.sle x) d a b s
/-- `pcmp.ltu` (R305). -/
def execPcmpLtu (d : Pred) (a b : Reg) (s : State) : Out := pcmpOp (fun x y => x.ult y) d a b s
/-- `pcmp.geu` (R305). -/
def execPcmpGeu (d : Pred) (a b : Reg) (s : State) : Out := pcmpOp (fun x y => y.ule x) d a b s
/-- `pand` (R306). -/
def execPand (d a b : Pred) (s : State) : Out := predOp (fun x y => x && y) d a b s
/-- `por` (R306). -/
def execPor (d a b : Pred) (s : State) : Out := predOp (fun x y => x || y) d a b s
/-- `pxor` (R306). -/
def execPxor (d a b : Pred) (s : State) : Out := predOp (fun x y => x != y) d a b s
/-- `pnot` (R306). -/
def execPnot (d a : Pred) (s : State) : Out := intOp [] (fun t => t.wp d (!t.rp a)) s
/-- `pmov pd, ps1` (R306). -/
def execPmov (d a : Pred) (s : State) : Out := intOp [] (fun t => t.wp d (t.rp a)) s
/-- `pmov xd, p`: p7 to p1 with p0 true (R306). -/
def execPmovPack (d : Reg) (s : State) : Out := intOp [d] (fun t => t.wx d ((t.p ||| 1#8).setWidth 64)) s
/-- `pmov p, xs1`: p1 to p7; p0 stays true (R306). -/
def execPmovUnpack (a : Reg) (s : State) : Out := 
  intOp [a] (fun t => { t with p := ((t.rx a).extractLsb' 0 8 &&& 0xFE#8) ||| (t.p &&& 1#8), pendP := t.pendP &&& 1#8 }) s

end Sys2Proof.Machine
end

