-- ==== Sys2Proof/Machine/ScalarFp.lean ====
section
/-! DEFINITION. Scalar floating point (R300 to R304). -/
namespace Sys2Proof.Machine

/-- X(rd) := the code of an operation that takes a rounding mode from the prefix (R295, R300). -/
def fpBin (f : FF → Rm → Nat → Nat → Res) (p : Prec) (d a b : Reg) (s : State) : Out :=
  withPfx [d, a, b] pfxRm s fun t w => .next (s.retire (t.wf d (f (precFF p) (pRm w) (t.rf p a) (t.rf p b))))
/-- A fused form (R304). -/
def fpTri (f : FF → Rm → Nat → Nat → Nat → Res) (p : Prec) (d a b c : Reg) (s : State) : Out :=
  withPfx [d, a, b, c] pfxRm s fun t w =>
    .next (s.retire (t.wf d (f (precFF p) (pRm w) (t.rf p a) (t.rf p b) (t.rf p c))))
/-- An operation that takes no format: minimum, maximum, sign injection. -/
def fpPlain (f : FF → Nat → Nat → Res) (p : Prec) (d a b : Reg) (s : State) : Out :=
  intOp [d, a, b] (fun t => t.wf d (f (precFF p) (t.rf p a) (t.rf p b))) s
/-- A comparison (R302): 0 eq, 1 ne, 2 lt, 3 le. -/
def fpCmp (c : Nat) (p : Prec) (d : Pred) (a b : Reg) (s : State) : Out :=
  intOp [a, b] (fun t => let r := fcompare (precFF p) c (t.rf p a) (t.rf p b); (t.wp d r.1).raise r.2) s
/-- `fcvt` of a register value (R247, R303). -/
def fcvtOf (dst src : CvtType) (rm : Rm) (v : Word) : Word × Flags :=
  match cvtInt dst, cvtInt src with
  | some (w, sg), none =>
    let r := fpToInt rm w sg (fdec (cvtFF src) (v.toNat % 2 ^ (cvtFF src).width))
    -- a signalling NaN needs no clause of its own: every NaN sets NV here
    (cvtWrite r.1, r.2)
  | none, some (w, sg) =>
    let r := intToFp (cvtFF dst) rm (cvtRead w sg v)
    (BitVec.ofNat 64 r.1, r.2)
  | none, none =>
    let r := fpToFp (cvtFF src) (cvtFF dst) rm (v.toNat % 2 ^ (cvtFF src).width)
    (BitVec.ofNat 64 r.1, r.2)
  | some _, some _ => (v, 0#8)

/-- `fadd` (R301). -/
def execFadd (p : Prec) (d a b : Reg) (s : State) : Out := fpBin fadd p d a b s
/-- `fsub` (R301). -/
def execFsub (p : Prec) (d a b : Reg) (s : State) : Out := fpBin fsub p d a b s
/-- `fmul` (R301). -/
def execFmul (p : Prec) (d a b : Reg) (s : State) : Out := fpBin fmul p d a b s
/-- `fdiv` (R301). -/
def execFdiv (p : Prec) (d a b : Reg) (s : State) : Out := fpBin fdiv p d a b s
/-- `fsqrt` (R301). -/
def execFsqrt (p : Prec) (d a : Reg) (s : State) : Out := fpBin (fun f rm x _ => fsqrt f rm x) p d a a s
/-- `fmin` (R301). -/
def execFmin (p : Prec) (d a b : Reg) (s : State) : Out := fpPlain (fun f x y => fminmax f false x y) p d a b s
/-- `fmax` (R301). -/
def execFmax (p : Prec) (d a b : Reg) (s : State) : Out := fpPlain (fun f x y => fminmax f true x y) p d a b s
/-- `fsgn` (R301). -/
def execFsgn (p : Prec) (d a b : Reg) (s : State) : Out := fpPlain (fun f x y => (fsgnOf f 0 x y, 0#8)) p d a b s
/-- `fsgn.n` (R301). -/
def execFsgnN (p : Prec) (d a b : Reg) (s : State) : Out := fpPlain (fun f x y => (fsgnOf f 1 x y, 0#8)) p d a b s
/-- `fsgn.x` (R301). -/
def execFsgnX (p : Prec) (d a b : Reg) (s : State) : Out := fpPlain (fun f x y => (fsgnOf f 2 x y, 0#8)) p d a b s
/-- `fcmp.eq` (R302). -/
def execFcmpEq (p : Prec) (d : Pred) (a b : Reg) (s : State) : Out := fpCmp 0 p d a b s
/-- `fcmp.ne` (R302). -/
def execFcmpNe (p : Prec) (d : Pred) (a b : Reg) (s : State) : Out := fpCmp 1 p d a b s
/-- `fcmp.lt` (R302). -/
def execFcmpLt (p : Prec) (d : Pred) (a b : Reg) (s : State) : Out := fpCmp 2 p d a b s
/-- `fcmp.le` (R302). -/
def execFcmpLe (p : Prec) (d : Pred) (a b : Reg) (s : State) : Out := fpCmp 3 p d a b s
/-- `fclass` (R302). -/
def execFclass (p : Prec) (d a : Reg) (s : State) : Out := 
  intOp [d, a] (fun t => t.wx d (BitVec.ofNat 64 (fclassOf (precFF p) (t.rf p a)))) s
/-- `fcvt` (R303): an integer destination accepts SAT too, with no further effect (R295). -/
def execFcvt (t s : CvtType) (d a : Reg) (st : State) : Out := 
  withPfx [d, a] (if (cvtInt t).isSome then pfxRmSat else pfxRm) st fun th w =>
    let r := fcvtOf t s (pRm w) (th.rx a)
    .next (st.retire ((th.wx d r.1).raise r.2))
/-- `fmadd` (R304). -/
def execFmadd (p : Prec) (d a b c : Reg) (s : State) : Out := fpTri fmadd p d a b c s
/-- `fmsub` (R304). -/
def execFmsub (p : Prec) (d a b c : Reg) (s : State) : Out := fpTri fmsub p d a b c s
/-- `fnmadd` (R304). -/
def execFnmadd (p : Prec) (d a b c : Reg) (s : State) : Out := fpTri fnmadd p d a b c s

end Sys2Proof.Machine
end

