-- ==== Sys2Proof/Machine/Stealing.lean ====
section
/-! DEFINITION. The start of groups from the deque (R109), refills (R111), work stealing (R112, R415), and the release of the barrier
tree (R46, R390). -/
namespace Sys2Proof.Machine

/-- GROUP_START (R108, R109): the top record of a core's deque starts a group, is sent on, or is discarded. -/
def execGroupStart (p : Nat) (s : State) : Out := .next (s.startTop p)
/-- DEQUE_REFILL (R111). -/
def execDequeRefill (p : Nat) (s : State) : Out :=
  .next (if (s.core p).refillDue then s.modCore p Core.refill else s)

/-! ## Stealing (R112) -/

/-- The core at a position may be a victim of another's thief: same launch and role. -/
def State.victimOf (s : State) (p q : Nat) : Bool :=
  let c := s.core p
  let v := s.core q
  q != p && v.lid == c.lid && v.hasRole && v.role == c.role
/-- Positions after a position, then those up to it. -/
def roundFrom (l : List Nat) (last : Nat) : List Nat := (l.filter fun q => last < q) ++ l.filter fun q => q ≤ last
/-- The victims of the first two tiers, in turn. -/
def State.nearVictims (s : State) (p : Nat) : List Nat :=
  let c := s.core p
  let all := (List.range 1024).filter fun q => basinOf q == basinOf p && s.victimOf p q
  let dale := all.filter fun q => daleOf q == daleOf p
  let basin := all.filter fun q => daleOf q != daleOf p
  roundFrom dale c.lastDale ++ (if c.daleOnly then [] else roundFrom basin c.lastBasin)
/-- The candidates of the third tier, in logical order (R415). -/
def State.farVictims (s : State) (p : Nat) (l : Launch) : List Nat :=
  ((l.coresOf (s.core p).role).filterMap l.posOfLogical).filter fun q => basinOf q != basinOf p
/-- One step of the LFSR (R415). -/
def lfsrStep (v : BitVec 16) : BitVec 16 :=
  (v <<< 1) ||| (BitVec.ofBool (v.getLsbD 15 ^^ v.getLsbD 13 ^^ v.getLsbD 12 ^^ v.getLsbD 10)).setWidth 16
/-- Send a STEAL-REQ. -/
def State.sendSteal (s : State) (p q : Nat) : State :=
  let s := s.modCore p fun c =>
    { c with stealOut := true, lastDale := if daleOf q = daleOf p then q else c.lastDale,
             lastBasin := if daleOf q ≠ daleOf p && basinOf q = basinOf p then q else c.lastBasin }
  { s with ctl := s.ctl ++ [.stealReq p q] }
/-- A round has found nothing: the wait begins. -/
def Core.emptyRound (c : Core) (now : Word) : Core :=
  { c with emptyRnd := c.emptyRnd + 1, backoff := true, stealAt := now, thieving := false, draws := 0 }
/-- The next victim of a round, or the round's end. -/
def State.nextVictim (s : State) (p : Nat) (l : Launch) : State :=
  let c := s.core p
  match c.victims with
  | q :: t => (s.modCore p fun c => { c with victims := t }).sendSteal p q
  | [] =>
    let far := s.farVictims p l
    if c.draws = 0 || far.isEmpty then s.modCore p fun c => c.emptyRound s.time
    else
      let v := lfsrStep c.lfsr
      let s := s.modCore p fun c => { c with lfsr := v, draws := c.draws - 1 }
      match far[v.toNat % max far.length 1]? with
      | some q => s.sendSteal p q
      | none => s
/-- Begin a round. -/
def State.stealRound (s : State) (p : Nat) : State :=
  let c := s.core p
  match s.launch? c.lid with
  | none => s
  | some l =>
    if !c.thief || c.stealOut || c.backoff || l.st != .running || l.stepMode then s
    else
      (s.modCore p fun c => { c with thieving := true, victims := s.nearVictims p, draws := if c.daleOnly then 0 else 16 }).nextVictim p l
/-- STEAL_ROUND (R112): an idle core becomes a thief. -/
def execStealRound (p : Nat) (s : State) : Out := .next (s.stealRound p)
/-- STEAL_BACKOFF_EXPIRY (R112): 1 µs, doubling after each further empty round up to 2^BOMAX µs. -/
def execStealBackoffExpiry (p : Nat) (s : State) : Out :=
  let c := s.core p
  let wait := 1000 * 2 ^ min (c.emptyRnd - 1) (min c.boMax 6)
  if c.backoff && wait ≤ (s.time - c.stealAt).toNat then .next ((s.modCore p fun c => { c with backoff := false }).stealRound p) else .next s
/-- STEAL_REQ (R112, R113, R132): the victim's network interface answers with its bottom record, or with none. -/
def execStealReq (k : Nat) (s : State) : Out :=
  match s.ctl[k]? with
  | some (.stealReq thief victim) =>
    let s := { s with ctl := s.ctl.eraseIdx k }
    let v := s.core victim
    let none0 : State := { s with ctl := s.ctl ++ [.stealReply victim thief none 0#32 false] }
    .next (if v.halted || v.fenced || !s.victimOf thief victim then none0
      else match v.stealBottom with
        | none => none0
        | some (r, v') =>
          let s := (s.setCore victim { v' with xferSent := v'.xferSent + 1#32 }).countSent victim v.vtime
          { s with ctl := s.ctl ++ [.stealReply victim thief (some r) v.vtime s.fw.colour] })
  | _ => .next s
/-- STEAL_REPLY (R112, R113, R132): the record is pushed, or the round goes on, unless a push has ended it. -/
def execStealReply (k : Nat) (s : State) : Out :=
  match s.ctl[k]? with
  | some (.stealReply _ thief rec vt colour) =>
    let s := { s with ctl := s.ctl.eraseIdx k }
    let s := s.modCore thief fun c => { c with stealOut := false }
    .next (match rec with
      | some r =>
        (s.countRecv thief colour).modCore thief fun c => { c.leaveUnbounded vt with xferRecv := c.xferRecv + 1#32 }.push r none
      | none =>
        let c := s.core thief
        match s.launch? c.lid with
        | some l =>
          if !c.thieving then s
          else if c.thief && l.st == .running then s.nextVictim thief l
          else s.modCore thief fun c => { c with thieving := false, victims := [], draws := 0 }
        | none => s)
  | _ => .next s

/-! ## The barrier tree (R46, R390) -/

/-- BARRIER_TREE_RELEASE: every arrival is present, and some position has a step-mode group. -/
def execBarrierTreeRelease (s : State) : Out :=
  let ps := (s.cores.map (·.1)).filter fun p => s.stepCore p
  if ps.isEmpty || !(ps.all fun p => (s.core p).barArr) then .next s
  else .next (ps.foldl (fun s p =>
    let s := s.modCore p fun c => { c with barArr := false, nsent := 0#4, groups := c.groups.map fun (g : Group) => { g with barT := [] } }
    (s.core p).groups.foldl (fun s g => s.completeAt p g.gid .barT none) s) s)

end Sys2Proof.Machine
end

