-- ==== Sys2Proof/Machine/VectorOps.lean ====
section
/-! DEFINITION. The vector instructions (R338 to R369) and their 16-bit forms (R264), each as one command of its context. -/
namespace Sys2Proof.Machine

/-- `vadd` (R345). -/
def execVadd (w : Width) (d a b : VReg) (m : MReg) (s : State) : Out := vecReg 4 (.int 0 w) d a b m (pfxInt 0 (wdBits w) false) s
/-- `vadd` with a scalar (R345). -/
def execVaddX (w : Width) (d a : VReg) (b : Reg) (m : MReg) (s : State) : Out := vecScalar (.int 0 w) d a b m (pfxInt 0 (wdBits w) true) s
/-- `vsub` (R345). -/
def execVsub (w : Width) (d a b : VReg) (m : MReg) (s : State) : Out := vecReg 4 (.int 1 w) d a b m (pfxInt 1 (wdBits w) false) s
/-- `vsub` with a scalar (R345). -/
def execVsubX (w : Width) (d a : VReg) (b : Reg) (m : MReg) (s : State) : Out := vecScalar (.int 1 w) d a b m (pfxInt 1 (wdBits w) true) s
/-- `vmul` (R345). -/
def execVmul (w : Width) (d a b : VReg) (m : MReg) (s : State) : Out := vecReg 4 (.int 2 w) d a b m (pfxInt 2 (wdBits w) false) s
/-- `vmul` with a scalar (R345). -/
def execVmulX (w : Width) (d a : VReg) (b : Reg) (m : MReg) (s : State) : Out := vecScalar (.int 2 w) d a b m (pfxInt 2 (wdBits w) true) s
/-- `vmulh` (R345). -/
def execVmulh (w : Width) (d a b : VReg) (m : MReg) (s : State) : Out := vecReg 4 (.int 3 w) d a b m (pfxInt 3 (wdBits w) false) s
/-- `vmulh` with a scalar (R345). -/
def execVmulhX (w : Width) (d a : VReg) (b : Reg) (m : MReg) (s : State) : Out := vecScalar (.int 3 w) d a b m (pfxInt 3 (wdBits w) true) s
/-- `vmin` (R345). -/
def execVmin (w : Width) (d a b : VReg) (m : MReg) (s : State) : Out := vecReg 4 (.int 4 w) d a b m (pfxInt 4 (wdBits w) false) s
/-- `vmin` with a scalar (R345). -/
def execVminX (w : Width) (d a : VReg) (b : Reg) (m : MReg) (s : State) : Out := vecScalar (.int 4 w) d a b m (pfxInt 4 (wdBits w) true) s
/-- `vmax` (R345). -/
def execVmax (w : Width) (d a b : VReg) (m : MReg) (s : State) : Out := vecReg 4 (.int 5 w) d a b m (pfxInt 5 (wdBits w) false) s
/-- `vmax` with a scalar (R345). -/
def execVmaxX (w : Width) (d a : VReg) (b : Reg) (m : MReg) (s : State) : Out := vecScalar (.int 5 w) d a b m (pfxInt 5 (wdBits w) true) s
/-- `vminu` (R345). -/
def execVminu (w : Width) (d a b : VReg) (m : MReg) (s : State) : Out := vecReg 4 (.int 6 w) d a b m (pfxInt 6 (wdBits w) false) s
/-- `vminu` with a scalar (R345). -/
def execVminuX (w : Width) (d a : VReg) (b : Reg) (m : MReg) (s : State) : Out := vecScalar (.int 6 w) d a b m (pfxInt 6 (wdBits w) true) s
/-- `vmaxu` (R345). -/
def execVmaxu (w : Width) (d a b : VReg) (m : MReg) (s : State) : Out := vecReg 4 (.int 7 w) d a b m (pfxInt 7 (wdBits w) false) s
/-- `vmaxu` with a scalar (R345). -/
def execVmaxuX (w : Width) (d a : VReg) (b : Reg) (m : MReg) (s : State) : Out := vecScalar (.int 7 w) d a b m (pfxInt 7 (wdBits w) true) s
/-- `vsll` (R345). -/
def execVsll (w : Width) (d a b : VReg) (m : MReg) (s : State) : Out := vecReg 4 (.int 8 w) d a b m (pfxInt 8 (wdBits w) false) s
/-- `vsll` with a scalar (R345). -/
def execVsllX (w : Width) (d a : VReg) (b : Reg) (m : MReg) (s : State) : Out := vecScalar (.int 8 w) d a b m (pfxInt 8 (wdBits w) true) s
/-- `vsrl` (R345). -/
def execVsrl (w : Width) (d a b : VReg) (m : MReg) (s : State) : Out := vecReg 4 (.int 9 w) d a b m (pfxInt 9 (wdBits w) false) s
/-- `vsrl` with a scalar (R345). -/
def execVsrlX (w : Width) (d a : VReg) (b : Reg) (m : MReg) (s : State) : Out := vecScalar (.int 9 w) d a b m (pfxInt 9 (wdBits w) true) s
/-- `vsra` (R345). -/
def execVsra (w : Width) (d a b : VReg) (m : MReg) (s : State) : Out := vecReg 4 (.int 10 w) d a b m (pfxInt 10 (wdBits w) false) s
/-- `vsra` with a scalar (R345). -/
def execVsraX (w : Width) (d a : VReg) (b : Reg) (m : MReg) (s : State) : Out := vecScalar (.int 10 w) d a b m (pfxInt 10 (wdBits w) true) s
/-- `vand` (R345). -/
def execVand (d a b : VReg) (m : MReg) (s : State) : Out := vecReg 4 (.int 11 .i8) d a b m pfxNone s
/-- `vand` with a scalar (R345): bytes of the low byte of xs2. -/
def execVandX (d a : VReg) (b : Reg) (m : MReg) (s : State) : Out := vecScalar (.int 11 .i8) d a b m pfxNone s
/-- `vor` (R345). -/
def execVor (d a b : VReg) (m : MReg) (s : State) : Out := vecReg 4 (.int 12 .i8) d a b m pfxNone s
/-- `vor` with a scalar (R345): bytes of the low byte of xs2. -/
def execVorX (d a : VReg) (b : Reg) (m : MReg) (s : State) : Out := vecScalar (.int 12 .i8) d a b m pfxNone s
/-- `vxor` (R345). -/
def execVxor (d a b : VReg) (m : MReg) (s : State) : Out := vecReg 4 (.int 13 .i8) d a b m pfxNone s
/-- `vxor` with a scalar (R345): bytes of the low byte of xs2. -/
def execVxorX (d a : VReg) (b : Reg) (m : MReg) (s : State) : Out := vecScalar (.int 13 .i8) d a b m pfxNone s
/-- `vmov` (R345). -/
def execVmov (d a : VReg) (m : MReg) (s : State) : Out := vecReg 4 .mov d a 0#5 m pfxNone s
/-- `vfadd` (R348). -/
def execVfadd (p : FFmt) (d a b : VReg) (m : MReg) (s : State) : Out := vecReg 4 (.fp 0 p) d a b m (pfxFp 0 p) s
/-- `vfadd` with a scalar (R348). -/
def execVfaddX (p : FFmt) (d a : VReg) (b : Reg) (m : MReg) (s : State) : Out := vecScalar (.fp 0 p) d a b m (pfxFp 0 p) s
/-- `vfsub` (R348). -/
def execVfsub (p : FFmt) (d a b : VReg) (m : MReg) (s : State) : Out := vecReg 4 (.fp 1 p) d a b m (pfxFp 1 p) s
/-- `vfsub` with a scalar (R348). -/
def execVfsubX (p : FFmt) (d a : VReg) (b : Reg) (m : MReg) (s : State) : Out := vecScalar (.fp 1 p) d a b m (pfxFp 1 p) s
/-- `vfmul` (R348). -/
def execVfmul (p : FFmt) (d a b : VReg) (m : MReg) (s : State) : Out := vecReg 4 (.fp 2 p) d a b m (pfxFp 2 p) s
/-- `vfmul` with a scalar (R348). -/
def execVfmulX (p : FFmt) (d a : VReg) (b : Reg) (m : MReg) (s : State) : Out := vecScalar (.fp 2 p) d a b m (pfxFp 2 p) s
/-- `vfdiv` (R348). -/
def execVfdiv (p : FFmt) (d a b : VReg) (m : MReg) (s : State) : Out := vecReg 4 (.fp 3 p) d a b m (pfxFp 3 p) s
/-- `vfdiv` with a scalar (R348). -/
def execVfdivX (p : FFmt) (d a : VReg) (b : Reg) (m : MReg) (s : State) : Out := vecScalar (.fp 3 p) d a b m (pfxFp 3 p) s
/-- `vfsqrt` (R348). -/
def execVfsqrt (p : FFmt) (d a : VReg) (m : MReg) (s : State) : Out := vecReg 4 (.fp 4 p) d a 0#5 m (pfxFp 4 p) s
/-- `vfmin` (R348). -/
def execVfmin (p : FFmt) (d a b : VReg) (m : MReg) (s : State) : Out := vecReg 4 (.fp 5 p) d a b m (pfxFp 5 p) s
/-- `vfmin` with a scalar (R348). -/
def execVfminX (p : FFmt) (d a : VReg) (b : Reg) (m : MReg) (s : State) : Out := vecScalar (.fp 5 p) d a b m (pfxFp 5 p) s
/-- `vfmax` (R348). -/
def execVfmax (p : FFmt) (d a b : VReg) (m : MReg) (s : State) : Out := vecReg 4 (.fp 6 p) d a b m (pfxFp 6 p) s
/-- `vfmax` with a scalar (R348). -/
def execVfmaxX (p : FFmt) (d a : VReg) (b : Reg) (m : MReg) (s : State) : Out := vecScalar (.fp 6 p) d a b m (pfxFp 6 p) s
/-- `vfmacc` (R348). -/
def execVfmacc (p : FFmt) (d a b : VReg) (m : MReg) (s : State) : Out := vecReg 4 (.fp 7 p) d a b m (pfxFp 7 p) s
/-- `vfmacc` with a scalar (R348). -/
def execVfmaccX (p : FFmt) (d a : VReg) (b : Reg) (m : MReg) (s : State) : Out := vecScalar (.fp 7 p) d a b m (pfxFp 7 p) s
/-- `vfdot` (R349). -/
def execVfdot (p : FFmt) (d a b : VReg) (m : MReg) (s : State) : Out := vecReg 4 (.fp 8 p) d a b m (pfxFp 8 p) s
/-- `vcmp.eq` (R351). -/
def execVcmpEq (w : Width) (d : MReg) (a b : VReg) (m : MReg) (s : State) : Out := vecReg 4 (.cmp 0 w) (d.setWidth 5) a b m pfxNone s
/-- `vcmp.ne` (R351). -/
def execVcmpNe (w : Width) (d : MReg) (a b : VReg) (m : MReg) (s : State) : Out := vecReg 4 (.cmp 1 w) (d.setWidth 5) a b m pfxNone s
/-- `vcmp.lt` (R351). -/
def execVcmpLt (w : Width) (d : MReg) (a b : VReg) (m : MReg) (s : State) : Out := vecReg 4 (.cmp 2 w) (d.setWidth 5) a b m pfxNone s
/-- `vcmp.ge` (R351). -/
def execVcmpGe (w : Width) (d : MReg) (a b : VReg) (m : MReg) (s : State) : Out := vecReg 4 (.cmp 3 w) (d.setWidth 5) a b m pfxNone s
/-- `vcmp.ltu` (R351). -/
def execVcmpLtu (w : Width) (d : MReg) (a b : VReg) (m : MReg) (s : State) : Out := vecReg 4 (.cmp 4 w) (d.setWidth 5) a b m pfxNone s
/-- `vcmp.geu` (R351). -/
def execVcmpGeu (w : Width) (d : MReg) (a b : VReg) (m : MReg) (s : State) : Out := vecReg 4 (.cmp 5 w) (d.setWidth 5) a b m pfxNone s
/-- `vfcmp.eq` (R351). -/
def execVfcmpEq (p : FFmt) (d : MReg) (a b : VReg) (m : MReg) (s : State) : Out := vecReg 4 (.fcmp 0 p) (d.setWidth 5) a b m pfxNone s
/-- `vfcmp.ne` (R351). -/
def execVfcmpNe (p : FFmt) (d : MReg) (a b : VReg) (m : MReg) (s : State) : Out := vecReg 4 (.fcmp 1 p) (d.setWidth 5) a b m pfxNone s
/-- `vfcmp.lt` (R351). -/
def execVfcmpLt (p : FFmt) (d : MReg) (a b : VReg) (m : MReg) (s : State) : Out := vecReg 4 (.fcmp 2 p) (d.setWidth 5) a b m pfxNone s
/-- `vfcmp.le` (R351). -/
def execVfcmpLe (p : FFmt) (d : MReg) (a b : VReg) (m : MReg) (s : State) : Out := vecReg 4 (.fcmp 3 p) (d.setWidth 5) a b m pfxNone s
/-- `mand` (R352). -/
def execMand (d a b : MReg) (s : State) : Out := vecReg 4 (.mask 0) (d.setWidth 5) (a.setWidth 5) (b.setWidth 5) 0#3 pfxNone s
/-- `mor` (R352). -/
def execMor (d a b : MReg) (s : State) : Out := vecReg 4 (.mask 1) (d.setWidth 5) (a.setWidth 5) (b.setWidth 5) 0#3 pfxNone s
/-- `mxor` (R352). -/
def execMxor (d a b : MReg) (s : State) : Out := vecReg 4 (.mask 2) (d.setWidth 5) (a.setWidth 5) (b.setWidth 5) 0#3 pfxNone s
/-- `mnot` (R352). -/
def execMnot (d a : MReg) (s : State) : Out := vecReg 4 (.mask 3) (d.setWidth 5) (a.setWidth 5) 0#5 0#3 pfxNone s
/-- `mcnt` (R352). -/
def execMcnt (d : Reg) (a : MReg) (s : State) : Out := vecToX .mcnt d (a.setWidth 5) 0#5 0#3 none s
/-- `mfirst` (R352). -/
def execMfirst (d : Reg) (a : MReg) (s : State) : Out := vecToX .mfirst d (a.setWidth 5) 0#5 0#3 none s
/-- `vsel` (R353). -/
def execVsel (d a b : VReg) (m : MReg) (s : State) : Out := vecReg 4 .sel d a b m pfxNone s
/-- `vredsum` (R354). -/
def execVredsum (w : Width) (d : Reg) (a : VReg) (m : MReg) (s : State) : Out := vecToX (.red 8 w) d a 0#5 m none s
/-- `vredmin` (R354). -/
def execVredmin (w : Width) (d : Reg) (a : VReg) (m : MReg) (s : State) : Out := vecToX (.red 9 w) d a 0#5 m none s
/-- `vredmax` (R354). -/
def execVredmax (w : Width) (d : Reg) (a : VReg) (m : MReg) (s : State) : Out := vecToX (.red 10 w) d a 0#5 m none s
/-- `vredminu` (R354). -/
def execVredminu (w : Width) (d : Reg) (a : VReg) (m : MReg) (s : State) : Out := vecToX (.red 11 w) d a 0#5 m none s
/-- `vredmaxu` (R354). -/
def execVredmaxu (w : Width) (d : Reg) (a : VReg) (m : MReg) (s : State) : Out := vecToX (.red 12 w) d a 0#5 m none s
/-- `vfredsum` (R355). -/
def execVfredsum (p : FFmt) (d : Reg) (a : VReg) (m : MReg) (s : State) : Out := vecToX (.fred 13 p) d a 0#5 m none s
/-- `vfredmin` (R355). -/
def execVfredmin (p : FFmt) (d : Reg) (a : VReg) (m : MReg) (s : State) : Out := vecToX (.fred 14 p) d a 0#5 m none s
/-- `vfredmax` (R355). -/
def execVfredmax (p : FFmt) (d : Reg) (a : VReg) (m : MReg) (s : State) : Out := vecToX (.fred 15 p) d a 0#5 m none s
/-- `vperm` (R356). -/
def execVperm (w : Width) (d a b : VReg) (m : MReg) (s : State) : Out := vecReg 4 (.perm w) d a b m pfxNone s
/-- `vslide.up` (R356). -/
def execVslideUp (w : Width) (d a : VReg) (b : Reg) (m : MReg) (s : State) : Out := vecScalar (.slide true w) d a b m pfxNone s
/-- `vslide.down` (R356). -/
def execVslideDown (w : Width) (d a : VReg) (b : Reg) (m : MReg) (s : State) : Out := vecScalar (.slide false w) d a b m pfxNone s
/-- `vzip` (R356). -/
def execVzip (w : Width) (d a b : VReg) (m : MReg) (s : State) : Out := vecReg 4 (.zip false w) d a b m pfxNone s
/-- `vunzip` (R356). -/
def execVunzip (w : Width) (d a b : VReg) (m : MReg) (s : State) : Out := vecReg 4 (.zip true w) d a b m pfxNone s
/-- `vrev` (R356). -/
def execVrev (w : Width) (d a : VReg) (m : MReg) (s : State) : Out := vecReg 4 (.rev w) d a 0#5 m pfxNone s
/-- `vbcast` (R356). -/
def execVbcast (w : Width) (d : VReg) (a : Reg) (m : MReg) (s : State) : Out :=
  vecOp [a] pfxNone s fun t _ l c => enqueue s t c { t.cmd s l (.bcast w) d 0#5 0#5 m with s1 := t.rx a } 4 none
/-- `vext` (R356). -/
def execVext (w : Width) (d : Reg) (a : VReg) (b : Reg) (s : State) : Out := vecToX (.ext w) d a 0#5 0#3 (some b) s
/-- `vcvt` (R357): vs2 names xs2 when a format is d8 and is 0 otherwise. -/
def execVcvt (d a b : VReg) (m : MReg) (s : State) : Out :=
  withThread s fun t =>
    let p := (t.prefix?).getD 0#32
    let d8 := pFA p = 1#4 || pFD p = 1#4
    if !d8 && b ≠ 0#5 then .next (s.illegal 2#4)
    else vecOp (if d8 then [b] else []) pfxCvt s fun t _ l c =>
      enqueue s t c { t.cmd s l .cvt d a 0#5 m with s2 := if d8 then t.rx b else 0#64 } 4 none
/-- `vpack` (R358). -/
def execVpack (w : PackWidth) (d a b : VReg) (m : MReg) (s : State) : Out := vecReg 4 (.pack w) d a b m (pfxPack (pkBits w)) s
/-- `vunpack.lo` (R359). -/
def execVunpackLo (w : PackWidth) (d a : VReg) (m : MReg) (s : State) : Out := vecReg 4 (.unpack false w) d a 0#5 m (pfxUnpack (pkBits w)) s
/-- `vunpack.hi` (R359). -/
def execVunpackHi (w : PackWidth) (d a : VReg) (m : MReg) (s : State) : Out := vecReg 4 (.unpack true w) d a 0#5 m (pfxUnpack (pkBits w)) s
/-- `vld` (R340). -/
def execVld (e : Bool) (d : VReg) (a : Reg) (m : MReg) (s : State) : Out := vecUnit (.load e false) true d a m s
/-- `vst` (R340). -/
def execVst (d : VReg) (a : Reg) (m : MReg) (s : State) : Out := vecUnit (.store false true) false d a m s
/-- `vlds` (R341). -/
def execVlds (e : Bool) (w : Width) (d : VReg) (a b : Reg) (m : MReg) (s : State) : Out := vecStride (.load e false) true (wdBits w) d a b m s
/-- `vsts` (R341). -/
def execVsts (w : Width) (d : VReg) (a b : Reg) (m : MReg) (s : State) : Out := vecStride (.store false false) false (wdBits w) d a b m s
/-- `vgather` (R342). -/
def execVgather (e : Bool) (w : Width) (d : VReg) (a : Reg) (b : VReg) (m : MReg) (s : State) : Out := vecIndex (.load e true) true (wdBits w) d a b m s
/-- `vscatter` (R342). -/
def execVscatter (w : Width) (d : VReg) (a : Reg) (b : VReg) (m : MReg) (s : State) : Out := vecIndex (.store true false) false (wdBits w) d a b m s
/-- `vldq` (R343): 16 bytes checked as one element, read as two words, at the home for `.b`. -/
def execVldq (e : Bool) (j : QReg) (a : Reg) (s : State) : Out :=
  vecOp [a] pfxNone s fun t _ l c =>
    if !((s.core s.pos).ctx c).queue.isEmpty then stall s
    else match checkElem s t { e := 0, va := t.rx a, at0 := 0 } 16 8 true (a == 2#5) with
      | .error tr => .next (s.elemFault 0 tr)
      | .ok r =>
        let x := (s.core s.pos).ctx c
        enqueue s t c { t.cmd s l (.loadq e j) 0#5 0#5 0#5 0#3 with
          s1 := x.qm.get j.toFin, s2 := x.qc.get j.toFin,
          runs := [{ r with n := 8 }, { r with va := r.va + 8#64, ia := r.ia + 8, n := 8, at0 := 8 }] } 4 none
/-- `vaddm` (R360). -/
def execVaddm (w : Lane) (j : QReg) (d a b : VReg) (m : MReg) (s : State) : Out := vecReg 4 (.modular 0 w j) d a b m pfxNone s
/-- `vsubm` (R360). -/
def execVsubm (w : Lane) (j : QReg) (d a b : VReg) (m : MReg) (s : State) : Out := vecReg 4 (.modular 1 w j) d a b m pfxNone s
/-- `vmulm` (R360). -/
def execVmulm (w : Lane) (j : QReg) (d a b : VReg) (m : MReg) (s : State) : Out := vecReg 4 (.modular 2 w j) d a b m pfxNone s
/-- `vmacm` (R360). -/
def execVmacm (w : Lane) (j : QReg) (d a b : VReg) (m : MReg) (s : State) : Out := vecReg 4 (.modular 3 w j) d a b m pfxNone s
/-- `vmodred` (R360). -/
def execVmodred (w : Lane) (j : QReg) (d a b : VReg) (m : MReg) (s : State) : Out := vecReg 4 (.modular 4 w j) d a b m pfxNone s
/-- `vbfly.ct` (R362). -/
def execVbflyCt (w : Lane) (j : QReg) (d : VReg) (st : BitVec 5) (b : VReg) (m : MReg) (s : State) : Out := vecReg 4 (.bfly false w j st.toNat) d 0#5 b m pfxNone s
/-- `vbfly.gs` (R362). -/
def execVbflyGs (w : Lane) (j : QReg) (d : VReg) (st : BitVec 5) (b : VReg) (m : MReg) (s : State) : Out := vecReg 4 (.bfly true w j st.toNat) d 0#5 b m pfxNone s
/-- `vbflyx.ct` (R363). -/
def execVbflyxCt (w : Lane) (j : QReg) (d a b : VReg) (m : MReg) (s : State) : Out := vecReg 4 (.bflyx false w j) d a b m pfxNone s
/-- `vbflyx.gs` (R363). -/
def execVbflyxGs (w : Lane) (j : QReg) (d a b : VReg) (m : MReg) (s : State) : Out := vecReg 4 (.bflyx true w j) d a b m pfxNone s
/-- `vpermb` (R364). -/
def execVpermb (st : BitVec 3) (d a b : VReg) (m : MReg) (s : State) : Out := vecReg 4 (.permb st.toNat) d a b m pfxNone s
/-- `vtolog` (R365). -/
def execVtolog (d a : VReg) (m : MReg) (s : State) : Out := vecReg 4 .tolog d a 0#5 m pfxTolog s
/-- `vfromlog` (R365). -/
def execVfromlog (d a : VReg) (m : MReg) (s : State) : Out := vecReg 4 .fromlog d a 0#5 m pfxFromlog s
/-- `vlogadd` (R365). -/
def execVlogadd (d a b : VReg) (m : MReg) (s : State) : Out := vecReg 4 .logadd d a b m pfxLogadd s
/-- `vsdq` (R366, R178): every active element's table entry, and the route table, are checked at issue. -/
def execVsdq (v : VReg) (a b : Reg) (m : MReg) (s : State) : Out :=
  vecOp [a, b] pfxNone s fun t _ l c =>
    let core := s.core s.pos
    let ctx := core.ctx c
    if l.stepMode then .next (s.illegal 4#4)
    else if !ctx.queue.isEmpty then stall s
    else
      let es := (List.range 64).filter fun e => act (ctx.rm m) 32 e
      let d := core.sd
      let routes := d.routes = 0 || core.tableOk l d.rbase (16 * d.routes)
      let ok (e : Nat) : Bool :=
        let i := (t.rx a).toNat + e
        i < d.tlen && core.tableOk l (d.tbase + 8 * i) 8 && routes
      match es.find? fun e => !ok e with
      | some e => .next (s.trap { code := 0x0E#8, detail := 4#4, tval := BitVec.ofNat 64 e })
      | none =>
        enqueue s t c { t.cmd s l .sdq v 0#5 0#5 m with
          s1 := t.rx a, s2 := t.rx b, sd := d,
          runs := es.map fun (e : Nat) => { e := e, va := 0#64, ia := (t.rx a).toNat + e, n := 4, at0 := 4 * e } } 4 none
/-- `vwidth` (R338). -/
def execVwidth (d : Reg) (s : State) : Out := vecToX .vwidth d 0#5 0#5 0#3 none s
/-- `vwhile` (R339). -/
def execVwhile (u : Bool) (w : Width) (d : MReg) (a b : Reg) (s : State) : Out :=
  vecOp [a, b] pfxNone s fun t _ l c =>
    enqueue s t c { t.cmd s l (.vwhile w u) (d.setWidth 5) 0#5 0#5 0#3 with s1 := t.rx a, s2 := t.rx b } 4 none
/-- `vfence` (R369). -/
def execVfence (s : State) : Out :=
  vecOp [] pfxNone s fun t _ _ _ => if s.vectorDone s.pos s.slot t then .next (s.retire t) else stall s
/-- The 16-bit form of `vmov` (R264); v0, v0 under m0 is the illegal halfword 0x0000. -/
def execVmov16 (g : BitVec 1) (d s0 : VReg) (s : State) : Out :=
  if g = 0#1 ∧ d = 0#5 ∧ s0 = 0#5 then .next (s.illegal 1#4) else vecReg 2 .mov d s0 0#5 (g.setWidth 3) pfxNone s
/-- The 16-bit form of `vadd.i32` (R264). -/
def execVaddI32x16 (g : BitVec 1) (d s0 : VReg) (s : State) : Out := vecReg 2 (.int 0 .i32) d d s0 (g.setWidth 3) pfxNone s
/-- The 16-bit form of `vsub.i32` (R264). -/
def execVsubI32x16 (g : BitVec 1) (d s0 : VReg) (s : State) : Out := vecReg 2 (.int 1 .i32) d d s0 (g.setWidth 3) pfxNone s
/-- The 16-bit form of `vand` (R264). -/
def execVand16 (g : BitVec 1) (d s0 : VReg) (s : State) : Out := vecReg 2 (.int 11 .i8) d d s0 (g.setWidth 3) pfxNone s
/-- The 16-bit form of `vor` (R264). -/
def execVor16 (g : BitVec 1) (d s0 : VReg) (s : State) : Out := vecReg 2 (.int 12 .i8) d d s0 (g.setWidth 3) pfxNone s
/-- The 16-bit form of `vxor` (R264). -/
def execVxor16 (g : BitVec 1) (d s0 : VReg) (s : State) : Out := vecReg 2 (.int 13 .i8) d d s0 (g.setWidth 3) pfxNone s
/-- The 16-bit form of `vsll.i32` (R264). -/
def execVsllI32x16 (g : BitVec 1) (d s0 : VReg) (s : State) : Out := vecReg 2 (.int 8 .i32) d d s0 (g.setWidth 3) pfxNone s
/-- The 16-bit form of `vfadd.f32` (R264). -/
def execVfaddF32x16 (g : BitVec 1) (d s0 : VReg) (s : State) : Out := vecReg 2 (.fp 0 .f32) d d s0 (g.setWidth 3) pfxNone s
/-- The 16-bit form of `vfsub.f32` (R264). -/
def execVfsubF32x16 (g : BitVec 1) (d s0 : VReg) (s : State) : Out := vecReg 2 (.fp 1 .f32) d d s0 (g.setWidth 3) pfxNone s
/-- The 16-bit form of `vfmul.f32` (R264). -/
def execVfmulF32x16 (g : BitVec 1) (d s0 : VReg) (s : State) : Out := vecReg 2 (.fp 2 .f32) d d s0 (g.setWidth 3) pfxNone s
/-- The 16-bit form of `vfmax.f32` (R264). -/
def execVfmaxF32x16 (g : BitVec 1) (d s0 : VReg) (s : State) : Out := vecReg 2 (.fp 6 .f32) d d s0 (g.setWidth 3) pfxNone s
/-- The 16-bit form of `vfmin.f32` (R264). -/
def execVfminF32x16 (g : BitVec 1) (d s0 : VReg) (s : State) : Out := vecReg 2 (.fp 5 .f32) d d s0 (g.setWidth 3) pfxNone s
/-- The 16-bit form of `vaddm` (R264). -/
def execVaddm16 (g : BitVec 1) (d s0 : VReg) (s : State) : Out := vecReg 2 (.modular 0 .m64 0#2) d d s0 (g.setWidth 3) pfxNone s
/-- The 16-bit form of `vsubm` (R264). -/
def execVsubm16 (g : BitVec 1) (d s0 : VReg) (s : State) : Out := vecReg 2 (.modular 1 .m64 0#2) d d s0 (g.setWidth 3) pfxNone s
/-- The 16-bit form of `vmulm` (R264). -/
def execVmulm16 (g : BitVec 1) (d s0 : VReg) (s : State) : Out := vecReg 2 (.modular 2 .m64 0#2) d d s0 (g.setWidth 3) pfxNone s
/-- The 16-bit form of `vlogadd` (R264). -/
def execVlogadd16 (g : BitVec 1) (d s0 : VReg) (s : State) : Out := vecReg 2 .logadd d d s0 (g.setWidth 3) pfxNone s

end Sys2Proof.Machine
end

