-- ==== Sys2Proof/Machine/Watershed.lean ====
section
/-! DEFINITION. The watershed tree (R129 to R133): contributions, rounds, publication and the GVT record. -/
namespace Sys2Proof.Machine

/-- The lower of two virtual times. -/
def lowVt (a b : BitVec 32) : BitVec 32 := if b.ult a then b else a
/-- The lowest of a list; 0xFFFF_FFFF of none. -/
def minVt (l : List (BitVec 32)) : BitVec 32 := l.foldl lowVt 0xFFFFFFFF#32
/-- A core's contribution (R130): VTIME unless it is unbounded, its inbox entries but GVT records (R133), its retry slots. -/
def Core.contribution (c : Core) : BitVec 32 :=
  let gvtRec (e : Entry) : Bool := match e with
    | .record r _ => r.extractLsb' 0 8 == 0x25#8
    | _ => false
  minVt ((if c.unbounded then [] else [c.vtime]) ++ (c.inbox.filter fun e => !gvtRec e).map Entry.vt ++
    (c.evSlots.filter fun v => v.retry).map fun v => match v.body with
      | .event _ _ vt _ _ => vt
      | .record r => r.extractLsb' 32 32
      | _ => 0xFFFFFFFF#32)
/-- What a core's leaf latches: with the virtual times of its events that are held back and not yet in the fabric (assumption 83). -/
def State.coreContribution (s : State) (p : Nat) (c : Core) : BitVec 32 :=
  lowVt c.contribution (minVt ((s.reqs.filter fun r => r.src == p && r.parked && r.body.counted).map (·.vt)))
/-- An I/O agent's contribution (R97, R132): the requests it has accepted whose records are not delivered, and a media port's streams. -/
def State.leafContribution (s : State) (n : Nat) : BitVec 32 :=
  minVt ((s.leaf n).bounds.map (·.vt) ++ ((s.reqs.filter fun r => r.src == n && r.parked && r.body.counted).map (·.vt)) ++ (s.fw.streams.filter fun e => mediaNode (e.2.field 0 1) == n).map fun e => s.streamBound e.1 e.2)
/-- The leaves that are not cores and contribute something. -/
def State.agentLeaves (s : State) : List Nat :=
  (s.fw.streams.map fun e => mediaNode (e.2.field 0 1)).foldl setIns (s.leaves.map (·.1))
/-- A field of a pair by colour. -/
def ofColour (c : Bool) (x : BitVec 32 × BitVec 32) : BitVec 32 := if c then x.2 else x.1
/-- A pair with the field of a colour replaced. -/
def putColour (c : Bool) (v : BitVec 32) (x : BitVec 32 × BitVec 32) : BitVec 32 × BitVec 32 := if c then (x.1, v) else (v, x.2)
/-- Step 1 of R131: every leaf latches its contribution and switches its colour. -/
def State.latchRound (s : State) (k : Nat) : State :=
  let col := k % 2 == 1
  let s := { s with leaves := s.agentLeaves.foldl (fun t n => tblSet t n
    { s.leaf n with latched := s.leafContribution n, sent := putColour col 0#32 (s.leaf n).sent, recv := putColour col 0#32 (s.leaf n).recv,
                    minSent := putColour col 0xFFFFFFFF#32 (s.leaf n).minSent }) s.leaves }
  let s := { s with cores := tblMap (fun p (c : Core) =>
    { c with latched := s.coreContribution p c, sent := putColour col 0#32 c.sent, recv := putColour col 0#32 c.recv,
             minSent := putColour col 0xFFFFFFFF#32 c.minSent }) s.cores }
  s.modFw fun w => { w with colour := col }
/-- The sums S and V of a colour. -/
def State.sumCounts (s : State) (col : Bool) : BitVec 32 × BitVec 32 :=
  let add (x : BitVec 32 × BitVec 32) (a b : BitVec 32 × BitVec 32) : BitVec 32 × BitVec 32 := (x.1 + ofColour col a, x.2 + ofColour col b)
  let x := s.cores.foldl (fun x e => add x e.2.sent e.2.recv) (0#32, 0#32)
  s.leaves.foldl (fun x e => add x e.2.sent e.2.recv) x
/-- A core's GVT register takes the published value; with VTCTL.GVTREC a rise of VTCTL.STEP since the last record writes one (R133). -/
def State.coreGvt (s : State) (p : Nat) (g round : BitVec 32) : State :=
  let s := s.modCore p fun c => { c with gvt := g, gvtRound := round }
  let c := s.core p
  let step := if c.vtStep = 0#32 then 1#32 else c.vtStep
  if c.vtGvtRec && c.lid ≠ 0 && c.gvtBase.ule g && step.ule (g - c.gvtBase) then
    (s.gvtRecord p g round).modCore p fun c => { c with gvtBase := g }
  else s
/-- Steps 4 and 5 of R131. A position that is not listed reads GVT as the module's. -/
def State.publish (s : State) (r : WsRound) (forced : Bool) : State :=
  let b := lowVt r.l r.ms
  let g := if b = 0xFFFFFFFF#32 then s.fw.gvt else if s.fw.gvt.ult b then b else s.fw.gvt
  let s := s.modFw fun w => { w with gvt := g, wsRound := r.k, wsCur := none, wsPub := s.time, wsForced := w.wsForced || forced }
  (List.range 1024).foldl (fun s p => if s.active p then s.coreGvt p g (BitVec.ofNat 32 r.k) else s) s
/-- The round goes on with new sums: published when they agree. -/
def State.roundSums (s : State) (r : WsRound) : State :=
  let x := s.sumCounts ((r.k + 1) % 2 == 1)
  let r := { r with s := x.1, v := x.2, last := s.time }
  if x.1 = x.2 then s.publish r false else s.modFw fun w => { w with wsCur := some r }
/-- WATERSHED_ROUND (R131 steps 1 and 2). -/
def execWatershedRound (s : State) : Out :=
  let k := s.fw.wsRound + 1
  let tick := s.time.toNat / 2000 * 2000
  if s.fw.wsCur.isSome || tick < 2000 * k || tick < s.fw.wsPub.toNat || !s.fw.ready then .next s
  else
    let s := s.latchRound k
    let old := (k + 1) % 2 == 1
    let l := minVt (s.cores.map (fun e => e.2.latched) ++ s.leaves.map fun e => e.2.latched)
    let ms := minVt (s.cores.map (fun e => ofColour old e.2.minSent) ++ s.leaves.map fun e => ofColour old e.2.minSent)
    .next (s.roundSums { l := l, ms := ms, s := 0#32, v := 0#32, k := k, at0 := s.time, last := s.time })
/-- WATERSHED_REREDUCE (R131 step 3), every 100 ns. -/
def execWatershedRereduce (s : State) : Out :=
  match s.fw.wsCur with
  | some r => .next (if 100 ≤ (s.time - r.last).toNat then s.roundSums r else s)
  | none => .next s
/-- WATERSHED_FORCED (R131): S has differed from V for 100 µs. -/
def execWatershedForced (s : State) : Out :=
  match s.fw.wsCur with
  | some r => .next (if 100000 ≤ (s.time - r.at0).toNat then s.publish r true else s)
  | none => .next s

end Sys2Proof.Machine
end

