-- ==== Sys2Proof/Machine/Dispatch.lean ====
section
/-! DEFINITION. One arm per constructor of `Instr`: the meaning of each instruction and of each step of the device. -/
namespace Sys2Proof.Machine

/-- The meaning of an instruction at a state. -/
def exec (i : Instr) (s : State) : Host.Outcome State Fault Refusal :=
  match i with
  | .powerGood => Sys2Proof.Machine.execPowerGood s
  | .mrstnPulse => Sys2Proof.Machine.execMrstnPulse s
  | .coolantFlowLoss => Sys2Proof.Machine.execCoolantFlowLoss s
  | .resetStepComplete => Sys2Proof.Machine.execResetStepComplete s
  | .resetStepOverrun linkOk => Sys2Proof.Machine.execResetStepOverrun linkOk s
  | .devctlWarmWrite => Sys2Proof.Machine.execDevctlWarmWrite s
  | .powerSample smp => Sys2Proof.Machine.execPowerSample smp s
  | .powerStepUp basin => Sys2Proof.Machine.execPowerStepUp basin s
  | .thermalStepUp basin => Sys2Proof.Machine.execThermalStepUp basin s
  | .clockPointChangeEnd basin => Sys2Proof.Machine.execClockPointChangeEnd basin s
  | .ptpSyncMessage port domain time => Sys2Proof.Machine.execPtpSyncMessage port domain time s
  | .ptpLockLoss port => Sys2Proof.Machine.execPtpLockLoss port s
  | .ptpLockTimeout q => Sys2Proof.Machine.execPtpLockTimeout q s
  | .starveAssert pos plane => Sys2Proof.Machine.execStarveAssert pos plane s
  | .linkReplay pos dir plane err => Sys2Proof.Machine.execLinkReplay pos dir plane err s
  | .linkHandshakeTimeout pos port => Sys2Proof.Machine.execLinkHandshakeTimeout pos port s
  | .linkTrainingLoss pos dir => Sys2Proof.Machine.execLinkTrainingLoss pos dir s
  | .linkDead k => Sys2Proof.Machine.execLinkDead k s
  | .rerouteDrainEnd reported => Sys2Proof.Machine.execRerouteDrainEnd reported s
  | .injPause pos => Sys2Proof.Machine.execInjPause pos s
  | .injResume pos => Sys2Proof.Machine.execInjResume pos s
  | .lostNotice k => Sys2Proof.Machine.execLostNotice k s
  | .read k => Sys2Proof.Machine.execRead k s
  | .write k => Sys2Proof.Machine.execWrite k s
  | .atomicWithReturn k => Sys2Proof.Machine.execAtomicWithReturn k s
  | .reduction k => Sys2Proof.Machine.execReduction k s
  | .taggedOperation k => Sys2Proof.Machine.execTaggedOperation k s
  | .exchangeStore k => Sys2Proof.Machine.execExchangeStore k s
  | .dependenceDecrement k => Sys2Proof.Machine.execDependenceDecrement k s
  | .matrixCommand k => Sys2Proof.Machine.execMatrixCommand k s
  | .delegatedAtomic k => Sys2Proof.Machine.execDelegatedAtomic k s
  | .bulkReadRequest k => Sys2Proof.Machine.execBulkReadRequest k s
  | .waitWithdrawal k => Sys2Proof.Machine.execWaitWithdrawal k s
  | .event k => Sys2Proof.Machine.execEvent k s
  | .stepModeNeighbourTransfer k => Sys2Proof.Machine.execStepModeNeighbourTransfer k s
  | .replyWithData k => Sys2Proof.Machine.execReplyWithData k s
  | .acknowledgement k => Sys2Proof.Machine.execAcknowledgement k s
  | .spaceNotice k => Sys2Proof.Machine.execSpaceNotice k s
  | .negativeAcknowledgement k => Sys2Proof.Machine.execNegativeAcknowledgement k s
  | .forwardedRequest k => Sys2Proof.Machine.execForwardedRequest k s
  | .probe k => Sys2Proof.Machine.execProbe k s
  | .probeReply k => Sys2Proof.Machine.execProbeReply k s
  | .debugAccess k => Sys2Proof.Machine.execDebugAccess k s
  | .migrationRefusal k => Sys2Proof.Machine.execMigrationRefusal k s
  | .bulkWrite k => Sys2Proof.Machine.execBulkWrite k s
  | .bulkReadData k => Sys2Proof.Machine.execBulkReadData k s
  | .threadContext k => Sys2Proof.Machine.execThreadContext k s
  | .retryTimeout i0 => Sys2Proof.Machine.execRetryTimeout i0 s
  | .busyBackoffExpiry i0 => Sys2Proof.Machine.execBusyBackoffExpiry i0 s
  | .waitResend i0 => Sys2Proof.Machine.execWaitResend i0 s
  | .peerNotice dev reason => Sys2Proof.Machine.execPeerNotice dev reason s
  | .peerWindowWrite i0 value => Sys2Proof.Machine.execPeerWindowWrite i0 value s
  | .stealReq k => Sys2Proof.Machine.execStealReq k s
  | .stealReply k => Sys2Proof.Machine.execStealReply k s
  | .shoot k => Sys2Proof.Machine.execShoot k s
  | .shootAck k => Sys2Proof.Machine.execShootAck k s
  | .stop k => Sys2Proof.Machine.execStop k s
  | .stopAck k => Sys2Proof.Machine.execStopAck k s
  | .ctrlWrite k => Sys2Proof.Machine.execCtrlWrite k s
  | .ctrlRead k => Sys2Proof.Machine.execCtrlRead k s
  | .ctrlData k => Sys2Proof.Machine.execCtrlData k s
  | .gridLatch pos => Sys2Proof.Machine.execGridLatch pos s
  | .counterGridTimer => Sys2Proof.Machine.execCounterGridTimer s
  | .barrierTreeRelease => Sys2Proof.Machine.execBarrierTreeRelease s
  | .xinvWrite value => Sys2Proof.Machine.execXinvWrite value s
  | .xinvDropComplete => Sys2Proof.Machine.execXinvDropComplete s
  | .patrolScrub block carveOut upset => Sys2Proof.Machine.execPatrolScrub block carveOut upset s
  | .submitLineUpdate q => Sys2Proof.Machine.execSubmitLineUpdate q s
  | .submitLinePoll => Sys2Proof.Machine.execSubmitLinePoll s
  | .aqctlEnSet => Sys2Proof.Machine.execAqctlEnSet s
  | .aqctlEnClear => Sys2Proof.Machine.execAqctlEnClear s
  | .qctlWrite q value => Sys2Proof.Machine.execQctlWrite q value s
  | .nop q => Sys2Proof.Machine.execNop q s
  | .launch q => Sys2Proof.Machine.execLaunch q s
  | .cancel q => Sys2Proof.Machine.execCancel q s
  | .preempt q => Sys2Proof.Machine.execPreempt q s
  | .resume q => Sys2Proof.Machine.execResume q s
  | .lease q => Sys2Proof.Machine.execLease q s
  | .unlease q => Sys2Proof.Machine.execUnlease q s
  | .copy q => Sys2Proof.Machine.execCopy q s
  | .fillCommand q => Sys2Proof.Machine.execFillCommand q s
  | .signalWrite q => Sys2Proof.Machine.execSignalWrite q s
  | .signalAdd q => Sys2Proof.Machine.execSignalAdd q s
  | .wait q => Sys2Proof.Machine.execWait q s
  | .waitTimeout q => Sys2Proof.Machine.execWaitTimeout q s
  | .queryDevice q => Sys2Proof.Machine.execQueryDevice q s
  | .queryClockPoints q => Sys2Proof.Machine.execQueryClockPoints q s
  | .querySetCaps q => Sys2Proof.Machine.execQuerySetCaps q s
  | .queryCounterGrid q => Sys2Proof.Machine.execQueryCounterGrid q s
  | .querySetCounterGrid q => Sys2Proof.Machine.execQuerySetCounterGrid q s
  | .queryScrub q => Sys2Proof.Machine.execQueryScrub q s
  | .querySetScrub q => Sys2Proof.Machine.execQuerySetScrub q s
  | .queryQueue q => Sys2Proof.Machine.execQueryQueue q s
  | .queryQueueDefine q => Sys2Proof.Machine.execQueryQueueDefine q s
  | .queryQueueDelete q => Sys2Proof.Machine.execQueryQueueDelete q s
  | .queryQueueRestart q => Sys2Proof.Machine.execQueryQueueRestart q s
  | .queryPeers q => Sys2Proof.Machine.execQueryPeers q s
  | .queryBootChallenge q => Sys2Proof.Machine.execQueryBootChallenge q s
  | .queryFault q => Sys2Proof.Machine.execQueryFault q s
  | .queryClearFault q => Sys2Proof.Machine.execQueryClearFault q s
  | .queryCtlRanges q => Sys2Proof.Machine.execQueryCtlRanges q s
  | .queryRectangles q => Sys2Proof.Machine.execQueryRectangles q s
  | .queryMediaStats q => Sys2Proof.Machine.execQueryMediaStats q s
  | .rectDefine q => Sys2Proof.Machine.execRectDefine q s
  | .rectDelete q => Sys2Proof.Machine.execRectDelete q s
  | .recast q => Sys2Proof.Machine.execRecast q s
  | .recastCoreDrained pos => Sys2Proof.Machine.execRecastCoreDrained pos s
  | .mediaOpen q => Sys2Proof.Machine.execMediaOpen q s
  | .mediaClose q => Sys2Proof.Machine.execMediaClose q s
  | .mediaStats q => Sys2Proof.Machine.execMediaStats q s
  | .mediaPtp q => Sys2Proof.Machine.execMediaPtp q s
  | .debugToken q => Sys2Proof.Machine.execDebugToken q s
  | .debugStop q => Sys2Proof.Machine.execDebugStop q s
  | .debugGo q => Sys2Proof.Machine.execDebugGo q s
  | .debugStep q => Sys2Proof.Machine.execDebugStep q s
  | .debugStepEnd pos gslot => Sys2Proof.Machine.execDebugStepEnd pos gslot s
  | .debugDump q => Sys2Proof.Machine.execDebugDump q s
  | .attest q => Sys2Proof.Machine.execAttest q s
  | .resetWarm q => Sys2Proof.Machine.execResetWarm q s
  | .resetWithImage q => Sys2Proof.Machine.execResetWithImage q s
  | .resetWithPatch q => Sys2Proof.Machine.execResetWithPatch q s
  | .launchEndSweep => Sys2Proof.Machine.execLaunchEndSweep s
  | .waitingLaunchStart lid => Sys2Proof.Machine.execWaitingLaunchStart lid s
  | .evictedLaunchResume lid => Sys2Proof.Machine.execEvictedLaunchResume lid s
  | .saveImageFinal lid => Sys2Proof.Machine.execSaveImageFinal lid s
  | .haltRequest pos => Sys2Proof.Machine.execHaltRequest pos s
  | .groupStart pos => Sys2Proof.Machine.execGroupStart pos s
  | .dequeRefill pos => Sys2Proof.Machine.execDequeRefill pos s
  | .stealRound pos => Sys2Proof.Machine.execStealRound pos s
  | .stealBackoffExpiry pos => Sys2Proof.Machine.execStealBackoffExpiry pos s
  | .watershedRound => Sys2Proof.Machine.execWatershedRound s
  | .watershedRereduce => Sys2Proof.Machine.execWatershedRereduce s
  | .watershedForced => Sys2Proof.Machine.execWatershedForced s
  | .gangReady gang gbase gtotal entries => Sys2Proof.Machine.execGangReady gang gbase gtotal entries s
  | .gangEntries gang entries => Sys2Proof.Machine.execGangEntries gang entries s
  | .gangEntriesAck gang dev => Sys2Proof.Machine.execGangEntriesAck gang dev s
  | .gangGo gang => Sys2Proof.Machine.execGangGo gang s
  | .gangPlacementTimeout gang => Sys2Proof.Machine.execGangPlacementTimeout gang s
  | .gangForwardedCommand gang cmd => Sys2Proof.Machine.execGangForwardedCommand gang cmd s
  | .detach gang member => Sys2Proof.Machine.execDetach gang member s
  | .checkClose i0 => Sys2Proof.Machine.execCheckClose i0 s
  | .containmentReport k => Sys2Proof.Machine.execContainmentReport k s
  | .mediaPacket pkt => Sys2Proof.Machine.execMediaPacket pkt s
  | .frameDeadline stream fidx => Sys2Proof.Machine.execFrameDeadline stream fidx s
  | .stallTimerExpiry stream => Sys2Proof.Machine.execStallTimerExpiry stream s
  | .inboxReservationLapse pos => Sys2Proof.Machine.execInboxReservationLapse pos s
  | .refusalRetryExpiry node i0 => Sys2Proof.Machine.execRefusalRetryExpiry node i0 s
  | .inbctlWrite pos value => Sys2Proof.Machine.execInbctlWrite pos value s
  | .inbctlApply pos => Sys2Proof.Machine.execInbctlApply pos s
  | .l1ctlInv pos => Sys2Proof.Machine.execL1ctlInv pos s
  | .daleEntryAgeFlush dale i0 => Sys2Proof.Machine.execDaleEntryAgeFlush dale i0 s
  | .watchdogExpiry pos slot => Sys2Proof.Machine.execWatchdogExpiry pos slot s
  | .wdctlWrite pos value => Sys2Proof.Machine.execWdctlWrite pos value s
  | .trcctlWrite pos value => Sys2Proof.Machine.execTrcctlWrite pos value s
  | .wfeTimeout pos slot => Sys2Proof.Machine.execWfeTimeout pos slot s
  | .registerWrite ia value => Sys2Proof.Machine.execRegisterWrite ia value s
  | .add d a b => Sys2Proof.Machine.execAdd d a b s
  | .sub d a b => Sys2Proof.Machine.execSub d a b s
  | .and d a b => Sys2Proof.Machine.execAnd d a b s
  | .or d a b => Sys2Proof.Machine.execOr d a b s
  | .xor d a b => Sys2Proof.Machine.execXor d a b s
  | .andn d a b => Sys2Proof.Machine.execAndn d a b s
  | .orn d a b => Sys2Proof.Machine.execOrn d a b s
  | .sll d a b => Sys2Proof.Machine.execSll d a b s
  | .srl d a b => Sys2Proof.Machine.execSrl d a b s
  | .sra d a b => Sys2Proof.Machine.execSra d a b s
  | .rol d a b => Sys2Proof.Machine.execRol d a b s
  | .ror d a b => Sys2Proof.Machine.execRor d a b s
  | .slt d a b => Sys2Proof.Machine.execSlt d a b s
  | .sltu d a b => Sys2Proof.Machine.execSltu d a b s
  | .min d a b => Sys2Proof.Machine.execMin d a b s
  | .max d a b => Sys2Proof.Machine.execMax d a b s
  | .minu d a b => Sys2Proof.Machine.execMinu d a b s
  | .maxu d a b => Sys2Proof.Machine.execMaxu d a b s
  | .mul d a b => Sys2Proof.Machine.execMul d a b s
  | .mulh d a b => Sys2Proof.Machine.execMulh d a b s
  | .mulhu d a b => Sys2Proof.Machine.execMulhu d a b s
  | .mulhsu d a b => Sys2Proof.Machine.execMulhsu d a b s
  | .div d a b => Sys2Proof.Machine.execDiv d a b s
  | .divu d a b => Sys2Proof.Machine.execDivu d a b s
  | .rem d a b => Sys2Proof.Machine.execRem d a b s
  | .remu d a b => Sys2Proof.Machine.execRemu d a b s
  | .clz d a => Sys2Proof.Machine.execClz d a s
  | .ctz d a => Sys2Proof.Machine.execCtz d a s
  | .popc d a => Sys2Proof.Machine.execPopc d a s
  | .sext d a w => Sys2Proof.Machine.execSext d a w s
  | .zext d a w => Sys2Proof.Machine.execZext d a w s
  | .addW d a b => Sys2Proof.Machine.execAddW d a b s
  | .subW d a b => Sys2Proof.Machine.execSubW d a b s
  | .sllW d a b => Sys2Proof.Machine.execSllW d a b s
  | .srlW d a b => Sys2Proof.Machine.execSrlW d a b s
  | .sraW d a b => Sys2Proof.Machine.execSraW d a b s
  | .rolW d a b => Sys2Proof.Machine.execRolW d a b s
  | .rorW d a b => Sys2Proof.Machine.execRorW d a b s
  | .mulW d a b => Sys2Proof.Machine.execMulW d a b s
  | .divW d a b => Sys2Proof.Machine.execDivW d a b s
  | .divuW d a b => Sys2Proof.Machine.execDivuW d a b s
  | .remW d a b => Sys2Proof.Machine.execRemW d a b s
  | .remuW d a b => Sys2Proof.Machine.execRemuW d a b s
  | .clzW d a => Sys2Proof.Machine.execClzW d a s
  | .ctzW d a => Sys2Proof.Machine.execCtzW d a s
  | .popcW d a => Sys2Proof.Machine.execPopcW d a s
  | .addi d a i0 => Sys2Proof.Machine.execAddi d a i0 s
  | .andi d a i0 => Sys2Proof.Machine.execAndi d a i0 s
  | .ori d a i0 => Sys2Proof.Machine.execOri d a i0 s
  | .xori d a i0 => Sys2Proof.Machine.execXori d a i0 s
  | .slti d a i0 => Sys2Proof.Machine.execSlti d a i0 s
  | .sltiu d a i0 => Sys2Proof.Machine.execSltiu d a i0 s
  | .slli d a h => Sys2Proof.Machine.execSlli d a h s
  | .srli d a h => Sys2Proof.Machine.execSrli d a h s
  | .srai d a h => Sys2Proof.Machine.execSrai d a h s
  | .addiW d a i0 => Sys2Proof.Machine.execAddiW d a i0 s
  | .slliW d a h => Sys2Proof.Machine.execSlliW d a h s
  | .srliW d a h => Sys2Proof.Machine.execSrliW d a h s
  | .sraiW d a h => Sys2Proof.Machine.execSraiW d a h s
  | .lui d i0 => Sys2Proof.Machine.execLui d i0 s
  | .auipc d i0 => Sys2Proof.Machine.execAuipc d i0 s
  | .fadd p d a b => Sys2Proof.Machine.execFadd p d a b s
  | .fsub p d a b => Sys2Proof.Machine.execFsub p d a b s
  | .fmul p d a b => Sys2Proof.Machine.execFmul p d a b s
  | .fdiv p d a b => Sys2Proof.Machine.execFdiv p d a b s
  | .fsqrt p d a => Sys2Proof.Machine.execFsqrt p d a s
  | .fmin p d a b => Sys2Proof.Machine.execFmin p d a b s
  | .fmax p d a b => Sys2Proof.Machine.execFmax p d a b s
  | .fsgn p d a b => Sys2Proof.Machine.execFsgn p d a b s
  | .fsgnN p d a b => Sys2Proof.Machine.execFsgnN p d a b s
  | .fsgnX p d a b => Sys2Proof.Machine.execFsgnX p d a b s
  | .fcmpEq p d a b => Sys2Proof.Machine.execFcmpEq p d a b s
  | .fcmpNe p d a b => Sys2Proof.Machine.execFcmpNe p d a b s
  | .fcmpLt p d a b => Sys2Proof.Machine.execFcmpLt p d a b s
  | .fcmpLe p d a b => Sys2Proof.Machine.execFcmpLe p d a b s
  | .fclass p d a => Sys2Proof.Machine.execFclass p d a s
  | .fcvt t s0 d a => Sys2Proof.Machine.execFcvt t s0 d a s
  | .fmadd p d a b c => Sys2Proof.Machine.execFmadd p d a b c s
  | .fmsub p d a b c => Sys2Proof.Machine.execFmsub p d a b c s
  | .fnmadd p d a b c => Sys2Proof.Machine.execFnmadd p d a b c s
  | .pcmpEq d a b => Sys2Proof.Machine.execPcmpEq d a b s
  | .pcmpNe d a b => Sys2Proof.Machine.execPcmpNe d a b s
  | .pcmpLt d a b => Sys2Proof.Machine.execPcmpLt d a b s
  | .pcmpGe d a b => Sys2Proof.Machine.execPcmpGe d a b s
  | .pcmpLtu d a b => Sys2Proof.Machine.execPcmpLtu d a b s
  | .pcmpGeu d a b => Sys2Proof.Machine.execPcmpGeu d a b s
  | .pand d a b => Sys2Proof.Machine.execPand d a b s
  | .por d a b => Sys2Proof.Machine.execPor d a b s
  | .pxor d a b => Sys2Proof.Machine.execPxor d a b s
  | .pnot d a => Sys2Proof.Machine.execPnot d a s
  | .pmov d a => Sys2Proof.Machine.execPmov d a s
  | .pmovPack d => Sys2Proof.Machine.execPmovPack d s
  | .pmovUnpack a => Sys2Proof.Machine.execPmovUnpack a s
  | .beq a b i0 => Sys2Proof.Machine.execBeq a b i0 s
  | .bne a b i0 => Sys2Proof.Machine.execBne a b i0 s
  | .blt a b i0 => Sys2Proof.Machine.execBlt a b i0 s
  | .bge a b i0 => Sys2Proof.Machine.execBge a b i0 s
  | .bltu a b i0 => Sys2Proof.Machine.execBltu a b i0 s
  | .bgeu a b i0 => Sys2Proof.Machine.execBgeu a b i0 s
  | .bp a i0 => Sys2Proof.Machine.execBp a i0 s
  | .bnp a i0 => Sys2Proof.Machine.execBnp a i0 s
  | .jal d i0 => Sys2Proof.Machine.execJal d i0 s
  | .jalr d a i0 => Sys2Proof.Machine.execJalr d a i0 s
  | .lb d a i0 => Sys2Proof.Machine.execLb d a i0 s
  | .lh d a i0 => Sys2Proof.Machine.execLh d a i0 s
  | .lw d a i0 => Sys2Proof.Machine.execLw d a i0 s
  | .ld d a i0 => Sys2Proof.Machine.execLd d a i0 s
  | .lbu d a i0 => Sys2Proof.Machine.execLbu d a i0 s
  | .lhu d a i0 => Sys2Proof.Machine.execLhu d a i0 s
  | .lwu d a i0 => Sys2Proof.Machine.execLwu d a i0 s
  | .lbB d a i0 => Sys2Proof.Machine.execLbB d a i0 s
  | .lhB d a i0 => Sys2Proof.Machine.execLhB d a i0 s
  | .lwB d a i0 => Sys2Proof.Machine.execLwB d a i0 s
  | .ldB d a i0 => Sys2Proof.Machine.execLdB d a i0 s
  | .lbuB d a i0 => Sys2Proof.Machine.execLbuB d a i0 s
  | .lhuB d a i0 => Sys2Proof.Machine.execLhuB d a i0 s
  | .lwuB d a i0 => Sys2Proof.Machine.execLwuB d a i0 s
  | .lbN d a i0 => Sys2Proof.Machine.execLbN d a i0 s
  | .lhN d a i0 => Sys2Proof.Machine.execLhN d a i0 s
  | .lwN d a i0 => Sys2Proof.Machine.execLwN d a i0 s
  | .ldN d a i0 => Sys2Proof.Machine.execLdN d a i0 s
  | .lbuN d a i0 => Sys2Proof.Machine.execLbuN d a i0 s
  | .lhuN d a i0 => Sys2Proof.Machine.execLhuN d a i0 s
  | .lwuN d a i0 => Sys2Proof.Machine.execLwuN d a i0 s
  | .sb a b i0 => Sys2Proof.Machine.execSb a b i0 s
  | .sh a b i0 => Sys2Proof.Machine.execSh a b i0 s
  | .sw a b i0 => Sys2Proof.Machine.execSw a b i0 s
  | .sd a b i0 => Sys2Proof.Machine.execSd a b i0 s
  | .sbN a b i0 => Sys2Proof.Machine.execSbN a b i0 s
  | .shN a b i0 => Sys2Proof.Machine.execShN a b i0 s
  | .swN a b i0 => Sys2Proof.Machine.execSwN a b i0 s
  | .sdN a b i0 => Sys2Proof.Machine.execSdN a b i0 s
  | .lwf d a i0 => Sys2Proof.Machine.execLwf d a i0 s
  | .take d a i0 => Sys2Proof.Machine.execTake d a i0 s
  | .tagq d a i0 => Sys2Proof.Machine.execTagq d a i0 s
  | .empty a i0 => Sys2Proof.Machine.execEmpty a i0 s
  | .put a b i0 => Sys2Proof.Machine.execPut a b i0 s
  | .fill a b i0 => Sys2Proof.Machine.execFill a b i0 s
  | .xst a b i0 => Sys2Proof.Machine.execXst a b i0 s
  | .amoadd f w d a b => Sys2Proof.Machine.execAmoadd f w d a b s
  | .amoand f w d a b => Sys2Proof.Machine.execAmoand f w d a b s
  | .amoor f w d a b => Sys2Proof.Machine.execAmoor f w d a b s
  | .amoxor f w d a b => Sys2Proof.Machine.execAmoxor f w d a b s
  | .amomin f w d a b => Sys2Proof.Machine.execAmomin f w d a b s
  | .amomax f w d a b => Sys2Proof.Machine.execAmomax f w d a b s
  | .amominu f w d a b => Sys2Proof.Machine.execAmominu f w d a b s
  | .amomaxu f w d a b => Sys2Proof.Machine.execAmomaxu f w d a b s
  | .amoswap f w d a b => Sys2Proof.Machine.execAmoswap f w d a b s
  | .cas f w d a b => Sys2Proof.Machine.execCas f w d a b s
  | .red o f w a b => Sys2Proof.Machine.execRed o f w a b s
  | .ramo o w a b t => Sys2Proof.Machine.execRamo o w a b t s
  | .fence f => Sys2Proof.Machine.execFence f s
  | .acq d a i0 => Sys2Proof.Machine.execAcq d a i0 s
  | .rel a b i0 => Sys2Proof.Machine.execRel a b i0 s
  | .bind a b k => Sys2Proof.Machine.execBind a b k s
  | .unbind a => Sys2Proof.Machine.execUnbind a s
  | .bar l => Sys2Proof.Machine.execBar l s
  | .barX => Sys2Proof.Machine.execBarX s
  | .arrive a => Sys2Proof.Machine.execArrive a s
  | .waitph a b => Sys2Proof.Machine.execWaitph a b s
  | .vadd w d a b m => Sys2Proof.Machine.execVadd w d a b m s
  | .vsub w d a b m => Sys2Proof.Machine.execVsub w d a b m s
  | .vmul w d a b m => Sys2Proof.Machine.execVmul w d a b m s
  | .vmulh w d a b m => Sys2Proof.Machine.execVmulh w d a b m s
  | .vmin w d a b m => Sys2Proof.Machine.execVmin w d a b m s
  | .vmax w d a b m => Sys2Proof.Machine.execVmax w d a b m s
  | .vminu w d a b m => Sys2Proof.Machine.execVminu w d a b m s
  | .vmaxu w d a b m => Sys2Proof.Machine.execVmaxu w d a b m s
  | .vsll w d a b m => Sys2Proof.Machine.execVsll w d a b m s
  | .vsrl w d a b m => Sys2Proof.Machine.execVsrl w d a b m s
  | .vsra w d a b m => Sys2Proof.Machine.execVsra w d a b m s
  | .vand d a b m => Sys2Proof.Machine.execVand d a b m s
  | .vor d a b m => Sys2Proof.Machine.execVor d a b m s
  | .vxor d a b m => Sys2Proof.Machine.execVxor d a b m s
  | .vmov d a m => Sys2Proof.Machine.execVmov d a m s
  | .vaddX w d a b m => Sys2Proof.Machine.execVaddX w d a b m s
  | .vsubX w d a b m => Sys2Proof.Machine.execVsubX w d a b m s
  | .vmulX w d a b m => Sys2Proof.Machine.execVmulX w d a b m s
  | .vmulhX w d a b m => Sys2Proof.Machine.execVmulhX w d a b m s
  | .vminX w d a b m => Sys2Proof.Machine.execVminX w d a b m s
  | .vmaxX w d a b m => Sys2Proof.Machine.execVmaxX w d a b m s
  | .vminuX w d a b m => Sys2Proof.Machine.execVminuX w d a b m s
  | .vmaxuX w d a b m => Sys2Proof.Machine.execVmaxuX w d a b m s
  | .vsllX w d a b m => Sys2Proof.Machine.execVsllX w d a b m s
  | .vsrlX w d a b m => Sys2Proof.Machine.execVsrlX w d a b m s
  | .vsraX w d a b m => Sys2Proof.Machine.execVsraX w d a b m s
  | .vandX d a b m => Sys2Proof.Machine.execVandX d a b m s
  | .vorX d a b m => Sys2Proof.Machine.execVorX d a b m s
  | .vxorX d a b m => Sys2Proof.Machine.execVxorX d a b m s
  | .vfadd p d a b m => Sys2Proof.Machine.execVfadd p d a b m s
  | .vfsub p d a b m => Sys2Proof.Machine.execVfsub p d a b m s
  | .vfmul p d a b m => Sys2Proof.Machine.execVfmul p d a b m s
  | .vfdiv p d a b m => Sys2Proof.Machine.execVfdiv p d a b m s
  | .vfsqrt p d a m => Sys2Proof.Machine.execVfsqrt p d a m s
  | .vfmin p d a b m => Sys2Proof.Machine.execVfmin p d a b m s
  | .vfmax p d a b m => Sys2Proof.Machine.execVfmax p d a b m s
  | .vfmacc p d a b m => Sys2Proof.Machine.execVfmacc p d a b m s
  | .vfdot p d a b m => Sys2Proof.Machine.execVfdot p d a b m s
  | .vfaddX p d a b m => Sys2Proof.Machine.execVfaddX p d a b m s
  | .vfsubX p d a b m => Sys2Proof.Machine.execVfsubX p d a b m s
  | .vfmulX p d a b m => Sys2Proof.Machine.execVfmulX p d a b m s
  | .vfdivX p d a b m => Sys2Proof.Machine.execVfdivX p d a b m s
  | .vfminX p d a b m => Sys2Proof.Machine.execVfminX p d a b m s
  | .vfmaxX p d a b m => Sys2Proof.Machine.execVfmaxX p d a b m s
  | .vfmaccX p d a b m => Sys2Proof.Machine.execVfmaccX p d a b m s
  | .vcmpEq w d a b m => Sys2Proof.Machine.execVcmpEq w d a b m s
  | .vcmpNe w d a b m => Sys2Proof.Machine.execVcmpNe w d a b m s
  | .vcmpLt w d a b m => Sys2Proof.Machine.execVcmpLt w d a b m s
  | .vcmpGe w d a b m => Sys2Proof.Machine.execVcmpGe w d a b m s
  | .vcmpLtu w d a b m => Sys2Proof.Machine.execVcmpLtu w d a b m s
  | .vcmpGeu w d a b m => Sys2Proof.Machine.execVcmpGeu w d a b m s
  | .vfcmpEq p d a b m => Sys2Proof.Machine.execVfcmpEq p d a b m s
  | .vfcmpNe p d a b m => Sys2Proof.Machine.execVfcmpNe p d a b m s
  | .vfcmpLt p d a b m => Sys2Proof.Machine.execVfcmpLt p d a b m s
  | .vfcmpLe p d a b m => Sys2Proof.Machine.execVfcmpLe p d a b m s
  | .mand d a b => Sys2Proof.Machine.execMand d a b s
  | .mor d a b => Sys2Proof.Machine.execMor d a b s
  | .mxor d a b => Sys2Proof.Machine.execMxor d a b s
  | .mnot d a => Sys2Proof.Machine.execMnot d a s
  | .mcnt d a => Sys2Proof.Machine.execMcnt d a s
  | .mfirst d a => Sys2Proof.Machine.execMfirst d a s
  | .vsel d a b m => Sys2Proof.Machine.execVsel d a b m s
  | .vredsum w d a m => Sys2Proof.Machine.execVredsum w d a m s
  | .vredmin w d a m => Sys2Proof.Machine.execVredmin w d a m s
  | .vredmax w d a m => Sys2Proof.Machine.execVredmax w d a m s
  | .vredminu w d a m => Sys2Proof.Machine.execVredminu w d a m s
  | .vredmaxu w d a m => Sys2Proof.Machine.execVredmaxu w d a m s
  | .vfredsum p d a m => Sys2Proof.Machine.execVfredsum p d a m s
  | .vfredmin p d a m => Sys2Proof.Machine.execVfredmin p d a m s
  | .vfredmax p d a m => Sys2Proof.Machine.execVfredmax p d a m s
  | .vperm w d a b m => Sys2Proof.Machine.execVperm w d a b m s
  | .vslideUp w d a b m => Sys2Proof.Machine.execVslideUp w d a b m s
  | .vslideDown w d a b m => Sys2Proof.Machine.execVslideDown w d a b m s
  | .vzip w d a b m => Sys2Proof.Machine.execVzip w d a b m s
  | .vunzip w d a b m => Sys2Proof.Machine.execVunzip w d a b m s
  | .vrev w d a m => Sys2Proof.Machine.execVrev w d a m s
  | .vbcast w d a m => Sys2Proof.Machine.execVbcast w d a m s
  | .vext w d a b => Sys2Proof.Machine.execVext w d a b s
  | .vcvt d a b m => Sys2Proof.Machine.execVcvt d a b m s
  | .vpack w d a b m => Sys2Proof.Machine.execVpack w d a b m s
  | .vunpackLo w d a m => Sys2Proof.Machine.execVunpackLo w d a m s
  | .vunpackHi w d a m => Sys2Proof.Machine.execVunpackHi w d a m s
  | .vld e d a m => Sys2Proof.Machine.execVld e d a m s
  | .vst d a m => Sys2Proof.Machine.execVst d a m s
  | .vlds e w d a b m => Sys2Proof.Machine.execVlds e w d a b m s
  | .vsts w d a b m => Sys2Proof.Machine.execVsts w d a b m s
  | .vgather e w d a b m => Sys2Proof.Machine.execVgather e w d a b m s
  | .vscatter w d a b m => Sys2Proof.Machine.execVscatter w d a b m s
  | .vldq e j a => Sys2Proof.Machine.execVldq e j a s
  | .vaddm w j d a b m => Sys2Proof.Machine.execVaddm w j d a b m s
  | .vsubm w j d a b m => Sys2Proof.Machine.execVsubm w j d a b m s
  | .vmulm w j d a b m => Sys2Proof.Machine.execVmulm w j d a b m s
  | .vmacm w j d a b m => Sys2Proof.Machine.execVmacm w j d a b m s
  | .vmodred w j d a b m => Sys2Proof.Machine.execVmodred w j d a b m s
  | .vbflyCt w j d s0 b m => Sys2Proof.Machine.execVbflyCt w j d s0 b m s
  | .vbflyGs w j d s0 b m => Sys2Proof.Machine.execVbflyGs w j d s0 b m s
  | .vbflyxCt w j d a b m => Sys2Proof.Machine.execVbflyxCt w j d a b m s
  | .vbflyxGs w j d a b m => Sys2Proof.Machine.execVbflyxGs w j d a b m s
  | .vpermb s0 d a b m => Sys2Proof.Machine.execVpermb s0 d a b m s
  | .vtolog d a m => Sys2Proof.Machine.execVtolog d a m s
  | .vfromlog d a m => Sys2Proof.Machine.execVfromlog d a m s
  | .vlogadd d a b m => Sys2Proof.Machine.execVlogadd d a b m s
  | .vsdq v a b m => Sys2Proof.Machine.execVsdq v a b m s
  | .vwidth d => Sys2Proof.Machine.execVwidth d s
  | .vwhile u w d a b => Sys2Proof.Machine.execVwhile u w d a b s
  | .vfence => Sys2Proof.Machine.execVfence s
  | .vmov16 g d s0 => Sys2Proof.Machine.execVmov16 g d s0 s
  | .vaddI32x16 g d s0 => Sys2Proof.Machine.execVaddI32x16 g d s0 s
  | .vsubI32x16 g d s0 => Sys2Proof.Machine.execVsubI32x16 g d s0 s
  | .vand16 g d s0 => Sys2Proof.Machine.execVand16 g d s0 s
  | .vor16 g d s0 => Sys2Proof.Machine.execVor16 g d s0 s
  | .vxor16 g d s0 => Sys2Proof.Machine.execVxor16 g d s0 s
  | .vsllI32x16 g d s0 => Sys2Proof.Machine.execVsllI32x16 g d s0 s
  | .vfaddF32x16 g d s0 => Sys2Proof.Machine.execVfaddF32x16 g d s0 s
  | .vfsubF32x16 g d s0 => Sys2Proof.Machine.execVfsubF32x16 g d s0 s
  | .vfmulF32x16 g d s0 => Sys2Proof.Machine.execVfmulF32x16 g d s0 s
  | .vfmaxF32x16 g d s0 => Sys2Proof.Machine.execVfmaxF32x16 g d s0 s
  | .vfminF32x16 g d s0 => Sys2Proof.Machine.execVfminF32x16 g d s0 s
  | .vaddm16 g d s0 => Sys2Proof.Machine.execVaddm16 g d s0 s
  | .vsubm16 g d s0 => Sys2Proof.Machine.execVsubm16 g d s0 s
  | .vmulm16 g d s0 => Sys2Proof.Machine.execVmulm16 g d s0 s
  | .vlogadd16 g d s0 => Sys2Proof.Machine.execVlogadd16 g d s0 s
  | .tmma q d a b c => Sys2Proof.Machine.execTmma q d a b c s
  | .tspmac q d a b c => Sys2Proof.Machine.execTspmac q d a b c s
  | .tclr q => Sys2Proof.Machine.execTclr q s
  | .tacc2s q a b => Sys2Proof.Machine.execTacc2s q a b s
  | .ts2acc q a b => Sys2Proof.Machine.execTs2acc q a b s
  | .tmsend a b c => Sys2Proof.Machine.execTmsend a b c s
  | .twait => Sys2Proof.Machine.execTwait s
  | .tcopy d a b c => Sys2Proof.Machine.execTcopy d a b c s
  | .tgather e d a b c => Sys2Proof.Machine.execTgather e d a b c s
  | .fmt s0 r fd fc fb fa => Sys2Proof.Machine.execFmt s0 r fd fc fb fa s
  | .evsend l a b => Sys2Proof.Machine.execEvsend l a b s
  | .evwait a => Sys2Proof.Machine.execEvwait a s
  | .evnext d => Sys2Proof.Machine.execEvnext d s
  | .evpeek d => Sys2Proof.Machine.execEvpeek d s
  | .vtadv a => Sys2Proof.Machine.execVtadv a s
  | .dqpush d a => Sys2Proof.Machine.execDqpush d a s
  | .dqpop d a => Sys2Proof.Machine.execDqpop d a s
  | .tdec a b => Sys2Proof.Machine.execTdec a b s
  | .tspawn a b => Sys2Proof.Machine.execTspawn a b s
  | .texit => Sys2Proof.Machine.execTexit s
  | .tdetach => Sys2Proof.Machine.execTdetach s
  | .tyield => Sys2Proof.Machine.execTyield s
  | .go a => Sys2Proof.Machine.execGo a s
  | .barT => Sys2Proof.Machine.execBarT s
  | .nsend r a => Sys2Proof.Machine.execNsend r a s
  | .nrecv r d => Sys2Proof.Machine.execNrecv r d s
  | .ecall => Sys2Proof.Machine.execEcall s
  | .ebreak => Sys2Proof.Machine.execEbreak s
  | .tret => Sys2Proof.Machine.execTret s
  | .wfe => Sys2Proof.Machine.execWfe s
  | .halt => Sys2Proof.Machine.execHalt s
  | .csrr c d => Sys2Proof.Machine.execCsrr c d s
  | .csrw c a => Sys2Proof.Machine.execCsrw c a s
  | .csrs c a => Sys2Proof.Machine.execCsrs c a s
  | .csrc c a => Sys2Proof.Machine.execCsrc c a s
  | .inputPowerLoss => Sys2Proof.Machine.execInputPowerLoss s
  | .unassignedEncoding bits nonzeroField => Sys2Proof.Machine.execUnassignedEncoding bits nonzeroField s
  | .vectorCommandComplete pos ctx => Sys2Proof.Machine.execVectorCommandComplete pos ctx s
  | .matrixStepBoundary pos => Sys2Proof.Machine.execMatrixStepBoundary pos s
  | .gangBarrierRelease gang => Sys2Proof.Machine.execGangBarrierRelease gang s
  | .waitConditionMet q => Sys2Proof.Machine.execWaitConditionMet q s

end Sys2Proof.Machine
end

