-- ==== Sys2Proof/Machine/Settle.lean ====
section
/-! DEFINITION. What settles after every step: barriers and groups, halted threads and their waits, the fences and shoot-downs, and the
queues and commands whose conditions have come true. -/
namespace Sys2Proof.Machine

/-- Everything that follows from a step without anyone's decision. -/
def State.settle (s : State) : State :=
  s.settleWatches.settleLags.settlePhases.settleAway.settleGroups.settleBars.settleDetached.settleHeld.settleThreads.settleWithdraw.settleInbctl.settleShots.settleFlush.settleContain
    |>.quarantine.settleSteps.settleDumps.settleQueues
/-- Settle the next state of an outcome. -/
def settled (o : Out) : Out :=
  match o with
  | .next s => .next s.settle
  | .fault f => .fault f
  | .refused r => .refused r

end Sys2Proof.Machine
end

