-- ==== Sys2Proof/Machine/HostSide.lean ====
section
/-! DEFINITION. What the host does to the module outside the command queues: its caches of device memory (R56, R77), its stores to
device memory and device control (R76), and configuration space (R79). -/
namespace Sys2Proof.Machine

/-- The host stores within one line of device memory: into its own copy where it holds one, else at the home. A block written whole loses
its poison. -/
def State.hostLineStore (s : State) (off : Nat) (data : List Byte) : State :=
  match tblGet? s.hostLines (off / 128) with
  | none => (s.mapRange off data.length).memStore off data
  | some h =>
    let o := off % 128
    let whole (k : Nat) : Bool := o ≤ k && k + 64 ≤ o + data.length
    let h : HostLine :=
      { data := (h.data.take o ++ data ++ h.data.drop (o + data.length)).take 128, lo := h.lo && !whole 0, hi := h.hi && !whole 64 }
    { s with hostLines := tblSet s.hostLines (off / 128) h }
/-- The host's stores to device memory, line by line; the count bounds the lines. -/
def State.hostMemStore (s : State) (off : Nat) (data : List Byte) : Nat → State
  | 0 => s
  | n + 1 =>
    if data.isEmpty then s
    else
      let k := min data.length (128 - off % 128)
      (s.hostLineStore off (data.take k)).hostMemStore (off + k) (data.drop k) n
/-- The host stores to device memory space, whose pages firmware makes resident, or to device control (R76); it reaches nothing else. -/
def State.hostDevStore (s : State) (ia : Nat) (data : List Byte) : State :=
  match placeOf ia with
  | .mem off => s.hostMemStore off data (data.length + 1)
  | .dev off => s.devStore off data (data.length + 1)
  | _ => s
/-- The host takes a line of device memory into its caches (R56, R77): the data, and for each 64 bytes the link's poison bit (R66). -/
def State.hostTakeLine (s : State) (line : Nat) : State :=
  if line < 2 ^ 40 ∧ (tblGet? s.hostLines line).isNone = true then
    let s := s.mapRange (line * 128) 128
    let h : HostLine := { data := s.memBytes (line * 128) 128, lo := s.memPoison (line * 128) 64, hi := s.memPoison (line * 128 + 64) 64 }
    { s with hostLines := tblSet s.hostLines line h }
  else s
/-- The host gives a line back with its data, which it may have changed, and its poison. -/
def State.hostGiveLine (s : State) (line : Nat) (h : HostLine) : State :=
  if (tblGet? s.hostLines line).isSome then { s with hostLines := tblSet s.hostLines line h }.hostRecall line else s
/-- A write to configuration space (R79); the host reaches it once the link has trained (R22). -/
def State.configWrite (s : State) (off : Nat) (v : Word) : State :=
  let set (f : Queue → Queue) : State := if (s.queue 0).en then s else s.modQueue 0 f
  if !s.fw.linkUp then s
  else match off with
    | 0x08 => set fun q => { q with base := v }
    | 0x10 => set fun q => { q with cbase := v }
    | 0x18 => set fun q => { q with sub := v }
    | 0x20 => set fun q => { q with stat := v }
    | 0x28 => set fun q => { q with size := v &&& 0x1F1F#64 }
    | 0x2C => if v.getLsbD 0 then s.startQueue 0 true else s.stopQueue 0
    | 0x30 => if v.getLsbD 0 && s.mayWarm then s.warmReset none none else s
    | _ => s
/-- A word of configuration space (R22, R79): DEVSTAT, VERSION and the queue 0 registers. -/
def State.configWord (s : State) (off : Nat) : Word :=
  let w := s.fw
  let kind : Nat := match w.last with
    | .cold => 0
    | .warm => 1
    | .rail => 2
    | .thermal => 3
  match off with
  | 0x00 => fieldAt w.phase 0 ||| bitAt w.ready 4 ||| bitAt w.fail 5 ||| fieldAt kind 6 ||| fieldAt w.fused.length 8
  | 0x04 => Config.romVersion.setWidth 64 ||| fieldAt w.patchv 16
  | 0x08 => (s.queue 0).base
  | 0x10 => (s.queue 0).cbase
  | 0x18 => (s.queue 0).sub
  | 0x20 => (s.queue 0).stat
  | 0x28 => (s.queue 0).size
  | 0x2C => bitAt (s.queue 0).en 0
  | _ => 0#64
/-- A read of configuration space: nothing answers while the Bilaux Link is down (R16, R22). -/
def State.configRead (s : State) (off : Nat) : Option Word := if s.fw.linkUp then some (s.configWord off) else none

end Sys2Proof.Machine
end

