-- ==== Sys2Proof/Machine/Schedule.lean ====
section
/-! DEFINITION. What moves next (assumption 1): the agenda, and without one a policy that gives packets, messages, units, firmware
and threads their turns. The issue of a thread's instruction (R116, R210). The bytes of an instruction laid where the next step
fetches them. -/
namespace Sys2Proof.Machine
noncomputable section

/-! ## Issue -/

/-- The thread in a slot of a core issues: its boundary, and the instruction that its bits decode to. -/
def issue (s : State) (pos slot : Nat) : Out :=
  match boundary { s with pos := pos, slot := slot } with
  | .done s => .next s
  | .issue s w => exec (decodeOrIllegal w) s
/-- A thread issues and the core's choice counts it (R116). -/
def issueCounted (s : State) (pos slot : Nat) (passed : List Nat) : Out :=
  issue (s.modCore pos fun c => c.issuedBy slot passed) pos slot

/-! ## The default policy -/

/-- The row of a packet in the fabric (R27). -/
def Body.row (k : Nat) : Body → Instr
  | .read .. => .read k
  | .write .. => .write k
  | .atomic .. | .cas .. => .atomicWithReturn k
  | .reduce .. => .reduction k
  | .tagged .. => .taggedOperation k
  | .xst .. => .exchangeStore k
  | .tdec .. => .dependenceDecrement k
  | .matrix .. => .matrixCommand k
  | .delegated .. => .delegatedAtomic k
  | .bulkRead .. => .bulkReadRequest k
  | .withdraw .. => .waitWithdrawal k
  | .event .. | .record _ => .event k
  | .neighbour .. => .stepModeNeighbourTransfer k
  | .space => .spaceNotice k
  | .data .. => .replyWithData k
  | .ack .. => .acknowledgement k
  | .nack _ => .negativeAcknowledgement k
  | .forwarded .. => .forwardedRequest k
  | .probe _ => .probe k
  | .probeReply _ => .probeReply k
  | .debugAccess _ => .debugAccess k
  | .debugReply _ => .replyWithData k
  | .migRefusal => .migrationRefusal k
  | .bulkWrite .. => .bulkWrite k
  | .bulkData .. => .bulkReadData k
  | .context .. => .threadContext k
  | .transit _ b => b.row k
  | .reserved .. => .negativeAcknowledgement k
/-- The row of a control-network message (R44). -/
def CtlMsg.row (k : Nat) : CtlMsg → Instr
  | .stealReq .. => .stealReq k
  | .stealReply .. => .stealReply k
  | .shoot .. => .shoot k
  | .shootAck .. => .shootAck k
  | .stop .. => .stop k
  | .stopAck .. => .stopAck k
  | .write .. => .ctrlWrite k
  | .read .. => .ctrlRead k
  | .data .. => .ctrlData k
  | .injPause p => .injPause p
  | .injResume p => .injResume p
  | .linkDead .. => .linkDead k
  | .gridLatch p _ => .gridLatch p
  | .contain _ => .containmentReport k
/-- The row that performs a command by its OPC and SUB is chosen by the command's own meaning; here the head command of a queue is
offered to every command row, of which one takes it. -/
def commandRows (q : Nat) : List Instr :=
  [.nop q, .launch q, .cancel q, .preempt q, .resume q, .lease q, .unlease q, .copy q, .fillCommand q, .signalWrite q, .signalAdd q, .wait q,
   .waitConditionMet q, .waitTimeout q, .queryDevice q, .queryClockPoints q, .querySetCaps q, .queryCounterGrid q, .querySetCounterGrid q,
   .queryScrub q, .querySetScrub q, .queryQueue q, .queryQueueDefine q, .queryQueueDelete q, .queryQueueRestart q, .queryPeers q,
   .queryBootChallenge q, .queryFault q, .queryClearFault q, .queryCtlRanges q, .queryRectangles q, .queryMediaStats q, .rectDefine q,
   .rectDelete q, .recast q, .mediaOpen q, .mediaClose q, .mediaStats q, .mediaPtp q, .debugToken q, .debugStop q, .debugGo q, .debugStep q,
   .debugDump q, .attest q, .resetWarm q, .resetWithImage q, .resetWithPatch q, .ptpLockTimeout q]
/-- Rows of a core that happen by themselves. -/
def coreRows (p : Nat) (c : Core) : List Instr :=
  [.vectorCommandComplete p false, .vectorCommandComplete p true, .matrixStepBoundary p, .inbctlApply p, .recastCoreDrained p,
   .dequeRefill p] ++
  (c.threads.map fun st => [Instr.wfeTimeout p st.1, Instr.watchdogExpiry p st.1]).flatten ++ c.groups.map fun g => Instr.debugStepEnd p g.lowSlot
/-- The plane of a number. -/
def planeAt : Nat → Plane
  | 0 => .response
  | 1 => .event
  | 2 => .request
  | _ => .bulk
/-- Rows that happen by themselves, in the order in which the policy tries them: a group starts as soon as its conditions hold (R109). -/
def State.ownRows (s : State) : List Instr :=
  s.cores.map (fun pc => Instr.groupStart pc.1) ++
  ((s.fw.starveCnt.filter fun e => starveLimit ≤ e.2 && !s.fw.starve.contains e.1).map fun e => Instr.starveAssert (e.1 / 4) (planeAt (e.1 % 4))) ++
  ((s.net.zipIdx.find? fun (e : Packet × Nat) => e.1.spot == .ejected).map fun (e : Packet × Nat) => e.1.body.row e.2).toList ++
  (match s.ctl with
   | m :: _ => [m.row 0]
   | [] => []) ++
  (s.cores.map fun pc => coreRows pc.1 pc.2).flatten ++
  [.resetStepComplete, .barrierTreeRelease] ++ ((s.gangs.filter fun g => g.started && g.entries.all fun e => e.dev == 0xFF).map fun g => Instr.gangBarrierRelease g.id) ++
  (s.fw.queues.map fun q => commandRows q.1).flatten ++
  (s.launches.map fun l => [Instr.waitingLaunchStart l.lid, Instr.evictedLaunchResume l.lid, Instr.saveImageFinal l.lid]).flatten ++
  (List.range s.checks.length).map .checkClose
/-- Rows that time brings, and rounds of stealing: tried when nothing else moves, and in turn once in 64 ns (assumption 1). -/
def State.timedRows (s : State) : List Instr :=
  ((List.range s.reqs.length).map fun i => [Instr.busyBackoffExpiry i, Instr.retryTimeout i, Instr.waitResend i]).flatten ++
  s.dru.map (fun e => Instr.daleEntryAgeFlush e.1 0) ++
  (s.cores.map fun pc => Instr.inboxReservationLapse pc.1 :: (List.range pc.2.evSlots.length).map fun i => Instr.refusalRetryExpiry pc.1 i).flatten ++
  (s.nodes.map fun e => Instr.refusalRetryExpiry e.1 0) ++
  ((List.range 16).map fun b => [Instr.clockPointChangeEnd b, Instr.thermalStepUp b]).flatten ++
  (s.gangs.map fun g => Instr.gangPlacementTimeout g.id) ++
  (s.fw.streams.map fun e => Instr.stallTimerExpiry e.1 :: e.2.frames.map fun f => Instr.frameDeadline e.1 f.idx).flatten ++
  (s.fw.ptp.map fun e => Instr.ptpLockLoss e.1) ++
  [.submitLinePoll, .launchEndSweep, .watershedForced, .watershedRound, .watershedRereduce, .rerouteDrainEnd true, .lostNotice 0, .xinvDropComplete,
   .powerStepUp none, .counterGridTimer] ++
  (s.cores.map fun pc => [Instr.stealRound pc.1, .stealBackoffExpiry pc.1]).flatten
/-- A list begun at a place that moves on with the turns. -/
def fromTurn (l : List Instr) (k : Nat) : List Instr := l.drop (k % max l.length 1) ++ l.take (k % max l.length 1)
/-- The rows of time whose turn has come, at every 64th ns. -/
def State.turnRows (s : State) : List Instr := if s.time.toNat % 64 = 0 then fromTurn s.timedRows (s.time.toNat / 64) else []
/-- The first outcome that changes the state. -/
def firstChange (s : State) : List Out → Option Out
  | [] => none
  | o :: t => match o with
    | .next s' => if s' = s then firstChange s t else some o
    | _ => some o
/-- Cores in turn after the last one that issued. -/
def State.coreTurn (s : State) : List Nat :=
  let all := s.cores.map (·.1)
  all.filter (s.lastPos < ·) ++ all.filter (· ≤ s.lastPos)
/-- A slot can issue now: its issue changes the state (R116's ready thread). -/
def State.ready (s : State) (p slot : Nat) : Bool :=
  match issue s p slot with
  | .next s' => decide ({ s' with pos := s.pos, slot := s.slot } ≠ s)
  | _ => true
/-- The issue of the thread that R116 chooses at the first core that has a ready one. -/
def State.issueNext (s : State) : List Nat → Option Out
  | [] => none
  | p :: t =>
    let order := (s.core p).issueOrder.filter fun k => s.ready p k
    match order with
    | [] => State.issueNext s t
    | k :: passed => some (issueCounted { s with lastPos := p } p k passed)
/-- The default step: four handshakes of the fabric in a nanosecond; then the rows of time whose turn has come, then rows, then threads,
then every row of time; and where none of them moves, the handshakes alone, or the passage of time. -/
def State.defaultStep (s : State) : Out :=
  let s1 := (s.elapse 1).fabricNs
  match firstChange s1 ((s1.turnRows ++ s.ownRows).map fun i => exec i s1) with
  | some o => o
  | none => match s1.issueNext s.coreTurn with
    | some o => o
    | none => match firstChange s1 (s.timedRows.map fun i => exec i s1) with
      | some o => o
      | none => .next (if s.flowing then s1 else s.elapse 100)

/-- Take an item of the agenda. -/
def State.take (s : State) : Agenda → Out
  | .happen i => exec i s
  | .run pos slot => issueCounted s pos slot []
  | .elapse ns => .next (s.elapse ns)
  | .evict pos line => .next (s.modCore pos fun c => { c with l1 := c.l1.filter fun e => e.1 ≠ line })
  | .peerIn port h b => .next (s.peerIn (port % 8) h b)
  | .portCredit port plane => .next (s.portCredit (port % 8) (plane % 4))
  | .portRefuse port plane beat => .next (s.portRefuse (port % 8) (plane % 4) beat)
  | .portDies port => .next (s.portDies (port % 8))
  | .handshake plane => .next (s.handshake (plane % 4))
  | .ctlIn pos h => .next (if 0xD ≤ (h.extractLsb' 10 4).toNat || 17 < (h.extractLsb' 14 5).toNat then s.dropAt (pos % 1024) false else s)
  | .hostStore addr data => .next { s with host := memWrite s.host addr data }
  | .devStore ia data => .next (s.hostDevStore ia data)
  | .hostTake line => .next (s.hostTakeLine line)
  | .hostGive line x => .next (s.hostGiveLine line x)
  | .poisonWord pos w => .next (s.modCore pos fun c => { c with poisoned := setIns c.poisoned w })
  | .demandRead b => .next (if b < memBlocks then s.readBlock b true else s)
  | .upset b u => .next (s.upsetBlock b u)
  | .carveUpset r u => .next (s.upsetCarve r u)
  | .hostPoison b => .next { s with hostBad := setIns s.hostBad b }
  | .tlbDrop k page => .next { s with tlb := s.tlb.filter fun e => !(e.slice == k && e.page == page) }
  | .moveOut page => .next (s.moveOut page)
  | .corrected pos sp => .next (s.corrected pos sp)
  | .sliceCorrected => .next s.sliceCorrected
  | .gangFinal gang dev => .next (s.gangFinal gang dev)
  | .gangFree gang dev => .next (s.modGang gang fun g => { g with free := setIns g.free dev })
  | .mapHost page frame => .next (s.mapHostPage page frame)
  | .config off v => .next (s.configWrite off v)
  | .wfeEnd pos slot => .next (s.wfeEnd pos slot)
  | .lag n => .next { s with stopLag := n }
  | .traceStall pos b => .next ((s.modCore pos fun c => { c with trcStall := b }).traceDrain pos)

/-- One step: the head of the agenda, or the default policy; then everything settles. -/
def stepOnce (s : State) : Out :=
  match s.agenda with
  | a :: rest => settled (State.take { s with agenda := rest } a)
  | [] => settled s.defaultStep

/-! ## An instruction laid where the next step fetches it -/

/-- A launch for the model's own use: the whole package, GALLOC 1. -/
def plainLaunch (lid : Nat) : Launch := { blankLaunch lid (List.range 1024) [(0, 0)] false with ran := 1 }
/-- A thread stands at the current position and slot, with its group and launch; else a launch, a group and a thread are made
there, as a started record of one thread makes them. -/
def State.withThread (s : State) : State :=
  match s.cur? with
  | some t => match s.groupOf s.pos t with
    | some g => if (s.launch? g.lid).isSome then s else { s with launches := s.launches ++ [plainLaunch g.lid] }
    | none => fresh s
  | none => fresh s
where
  /-- A new launch, group and thread. -/
  fresh (s : State) : State :=
    let lid := s.launches.foldl (fun n l => max n l.lid) 0 + 1
    let l := plainLaunch lid
    let s := { s with launches := s.launches ++ [l] }
    let slot := (s.core s.pos).freeSlots.headD 0
    { s.modCore s.pos (fun c => { c with lid := lid, hasRole := true, role := 0 }) with slot := slot }.startGroup s.pos l (plainRecord 0#64) none
/-- Put an instruction's bits where the thread of the current slot fetches them: its pc lies in an executable span, the
instruction cache holds the line (and step mode's locked lines do), and nothing stands before the fetch. -/
def State.placeWord (s : State) (bits : BitVec 32) : State :=
  let s := s.withThread
  match s.cur? with
  | none => s
  | some t =>
    match s.groupOf s.pos t with
    | none => s
    | some g =>
      let pc := t.pc
      let cover (a : Word) : Bool := (spanFor g.spans a 2).any Span.x
      let own : Span := { vbase := pc &&& ~~~0x7F#64, vlimit := (pc &&& ~~~0x7F#64) + 0x100#64, offset := 0xFF000000000000#64, attr := 5#64 }
      let spans := if cover pc && cover (pc + 2#64) then g.spans else own :: g.spans
      let put (s : State) (a : Word) (h : BitVec 16) : State :=
        let bs := bytesOf (h.setWidth 64) 2
        match spanFor spans a 2 with
        | none => s
        | some sp =>
          let line := sp.ia a / 128
          let off := sp.ia a % 128
          s.modCore s.pos fun c =>
            let old := match c.ic.find? fun e => e.1 == line with
              | some e => e.2.1
              | none => repeatN 0#8 128
            let lk := match c.locked.find? fun e => e.1 == a.toNat / 128 with
              | some e => e.2
              | none => repeatN 0#8 128
            { c with ic := (line, old.take off ++ bs ++ old.drop (off + 2), false) :: c.ic.filter fun e => e.1 ≠ line,
                     locked := (a.toNat / 128, lk.take (a.toNat % 128) ++ bs ++ lk.drop (a.toNat % 128 + 2)) :: c.locked.filter fun e => e.1 ≠ a.toNat / 128 }
      let s := s.modGroup (t.homePos s.pos) t.group fun g => { g with spans := spans, dying := none }
      let s := put (put s pc (bits.extractLsb' 0 16)) (pc + 2#64) (bits.extractLsb' 16 16)
      let s := s.modCore s.pos fun c => { c with fenced := false, halted := false }
      let s := s.setCur { t with run := .running, held := none, pnDue := none, dbgTrap := none, bpPass := some pc, stepped := false }
      { s with agenda := [.run s.pos s.slot] }

end
end Sys2Proof.Machine
end

