-- ==== Sys2Proof/Machine/Step.lean ====
section
/-! DEFINITION. One step of the module, and the placing of an instruction where the next step fetches it. Both only call what
Schedule.lean defines. -/
namespace Sys2Proof.Machine

/-- One step of the module. -/
noncomputable def step (s : State) : Host.Outcome State Fault Refusal := stepOnce s

/-- The state with an instruction stored where `step` fetches its next instruction: the code bytes in the issuing core's
instruction cache at the pc of the thread in the current slot, which the next step issues. -/
noncomputable def State.withFetchWord (s : State) (nbits w : Nat) : State := s.placeWord (BitVec.ofNat 32 (w % 2 ^ nbits))

end Sys2Proof.Machine
end

