-- ==== Sys2Proof/Safety.lean ====
section
/-! DEFINITION. What counts as a safe run: one that never stops, since every trap and termination of the spec is a next state; and
the form that the memories of every state of a run keep. -/
namespace Sys2Proof

/-- An outcome is a next state. -/
def Goes (o : Host.Outcome Machine.State Machine.Fault Machine.Refusal) : Prop := ∃ t, o = .next t

/-- k steps from a state end in a state. -/
def SafeFor : Nat → Machine.State → Prop
  | 0, _ => True
  | k + 1, s => ∃ t, Machine.step s = .next t ∧ SafeFor k t

end Sys2Proof

namespace Sys2Proof.Claims
open Sys2Proof.Machine

/-- Every memory of the machine is in its canonical form: the module's, the host's, every scratchpad, and every scratchpad of a saved image. -/
def MemoriesWf (s : State) : Prop :=
  Memory.wf s.mem = true ∧ Memory.wf s.host = true ∧ (∀ e ∈ s.cores, Memory.wf e.2.sp = true) ∧ ∀ l ∈ s.launches, ∀ e ∈ l.image0, Memory.wf e.2.sp = true

end Sys2Proof.Claims
end

