-- ==== Sys2Proof/Certificates/Slice0/Terms.lean ====
section
/-! DEFINITION. The terms of the statements of Obligations.lean: when a thread issues an instruction past its decode checks, what a
step leaves unchanged, and tables of results written from the rules of the spec and not from the meanings. -/
namespace Sys2Proof.Claims
open Sys2Proof.Machine

/-! ## Issue and frames -/

/-- The thread t stands at the current position and slot, may name the registers (R275), has no prefix pending (R258) and waits
for none of the registers (R151). -/
def Issues (s : State) (t : Thread) (rs : List Reg) : Prop :=
  s.cur? = some t ∧ badNomad t rs = false ∧ t.pp = false ∧ t.pends rs = false
/-- The same for a form that takes a format: w is the pending prefix word, or 0 where none is pending. -/
def IssuesFmt (s : State) (t : Thread) (rs : List Reg) (ok : BitVec 32 → Bool) (w : BitVec 32) : Prop :=
  s.cur? = some t ∧ badNomad t rs = false ∧ t.pends rs = false ∧ ((t.pp = false ∧ w = 0#32) ∨ (t.pp = true ∧ t.pfmt = w ∧ ok w = true))
/-- The issuing thread with its group and its launch. -/
def Runs (s : State) (t : Thread) (g : Group) (l : Launch) : Prop := s.groupOf s.pos t = some g ∧ s.launch? g.lid = some l
/-- Nothing outside the issuing core differs. -/
def OnlyCore (s u : State) : Prop := u = { s with cores := u.cores } ∧ ∀ q, q ≠ s.pos → u.core q = s.core q
/-- Nothing outside the issuing thread differs. -/
def OnlyThread (s u : State) : Prop :=
  OnlyCore s u ∧ u.core s.pos = { s.core s.pos with threads := (u.core s.pos).threads } ∧ ∀ k, k ≠ s.slot → u.thread? s.pos k = s.thread? s.pos k
/-- A retired thread differs from the one before in its pc, its x registers and predicates, the pending bits, FFLAGS, the prefix and
the model's notes about its issue only. -/
def KeepsControl (t t' : Thread) : Prop :=
  t'.status &&& 0x00000000FFFFFFFB#64 = t.status &&& 0x00000000FFFFFFFB#64 ∧ t'.estatus = t.estatus ∧ t'.epc = t.epc ∧ t'.tcause = t.tcause ∧
  t'.tval = t.tval ∧ t'.tscratch = t.tscratch ∧ t'.stklim = t.stklim ∧ t'.run = t.run ∧ t'.group = t.group ∧ t'.idx = t.idx ∧ t'.prio = t.prio ∧
  t'.nomad = t.nomad ∧ t'.home = t.home ∧ t'.ctx = t.ctx ∧ t'.held = t.held ∧ t'.digA = t.digA ∧ t'.digB = t.digB ∧ t'.tiles = t.tiles ∧ t'.engines = t.engines
/-- What the x registers read after a write of d, x0 excepted (R294). -/
def AfterX (t t' : Thread) (d : Option (Reg × Word)) : Prop :=
  ∀ r, t'.rx r = match d with
    | some (x, v) => if r = x ∧ x ≠ 0#5 then v else t.rx r
    | none => t.rx r
/-- What the predicates read after a write of d, p0 excepted (R294). -/
def AfterP (t t' : Thread) (d : Option (Pred × Bool)) : Prop :=
  ∀ k, t'.rp k = match d with
    | some (x, v) => if k = x ∧ x ≠ 0#3 then v else t.rp k
    | none => t.rp k
/-- FFLAGS after an instruction raises flags: a nomad thread's are discarded (R231, R232). -/
def AfterFlags (t t' : Thread) (f : Flags) : Prop := t'.fflags = if t.nomad then t.fflags else t.fflags ||| f.setWidth 64
/-- No prefix is pending (R258). -/
def NoPrefix (t : Thread) : Prop := t.pp = false ∧ t.pfmt = 0#32

/-- The outcome is a next state in which the issuing thread stands at a pc with its registers, predicates and flags written and its
prefix used up, and nothing else of the machine differs. -/
def Retires (s : State) (t : Thread) (o : Out) (pc : Word) (d : Option (Reg × Word)) (pd : Option (Pred × Bool)) (f : Flags) : Prop :=
  ∃ u t', o = .next u ∧ OnlyThread s u ∧ u.cur? = some t' ∧ t'.pc = pc ∧ AfterX t t' d ∧ AfterP t t' pd ∧ AfterFlags t t' f ∧
    KeepsControl t t' ∧ NoPrefix t'

/-! ## Integer arithmetic (R241, R242, R296 to R299) -/

/-- The operations of the register forms. -/
inductive Alu where
  | add | sub | and | or | xor | andn | orn | sll | srl | sra | rol | ror | slt | sltu | min | max | minu | maxu
  | mul | mulh | mulhu | mulhsu | div | divu | rem | remu | clz | ctz | popc
deriving DecidableEq, Repr
/-- The value of an operation at a width, on the exact integers that the operands stand for (R241, R242, R296). -/
def Alu.at (o : Alu) {w : Nat} (a b : BitVec w) : BitVec w :=
  let n := b.toNat % w
  match o with
  | .add => BitVec.ofNat w (a.toNat + b.toNat)
  | .sub => BitVec.ofInt w (a.toInt - b.toInt)
  | .and => a &&& b
  | .or => a ||| b
  | .xor => a ^^^ b
  | .andn => a &&& ~~~b
  | .orn => a ||| ~~~b
  | .sll => BitVec.ofNat w (a.toNat * 2 ^ n)
  | .srl => BitVec.ofNat w (a.toNat / 2 ^ n)
  | .sra => BitVec.ofInt w (a.toInt / 2 ^ n)
  | .rol => BitVec.ofNat w (a.toNat * 2 ^ n % 2 ^ w + a.toNat / 2 ^ (w - n))
  | .ror => BitVec.ofNat w (a.toNat / 2 ^ n + a.toNat * 2 ^ (w - n) % 2 ^ w)
  | .slt => if a.toInt < b.toInt then 1#w else 0#w
  | .sltu => if a.toNat < b.toNat then 1#w else 0#w
  | .min => if a.toInt < b.toInt then a else b
  | .max => if a.toInt < b.toInt then b else a
  | .minu => if a.toNat < b.toNat then a else b
  | .maxu => if a.toNat < b.toNat then b else a
  | .mul => BitVec.ofInt w (a.toInt * b.toInt)
  | .mulh => BitVec.ofInt w (a.toInt * b.toInt / 2 ^ w)
  | .mulhu => BitVec.ofNat w (a.toNat * b.toNat / 2 ^ w)
  | .mulhsu => BitVec.ofInt w (a.toInt * b.toNat / 2 ^ w)
  | .div => if b.toNat = 0 then BitVec.allOnes w else BitVec.ofInt w (a.toInt.tdiv b.toInt)
  | .divu => if b.toNat = 0 then BitVec.allOnes w else BitVec.ofNat w (a.toNat / b.toNat)
  | .rem => if b.toNat = 0 then a else BitVec.ofInt w (a.toInt - a.toInt.tdiv b.toInt * b.toInt)
  | .remu => if b.toNat = 0 then a else BitVec.ofNat w (a.toNat - a.toNat / b.toNat * b.toNat)
  | .clz => BitVec.ofNat w ((List.range w).takeWhile fun i => !a.getMsbD i).length
  | .ctz => BitVec.ofNat w ((List.range w).takeWhile fun i => !a.getLsbD i).length
  | .popc => BitVec.ofNat w ((List.range w).filter fun i => a.getLsbD i).length
/-- A word form: on the low halves, its 32-bit result sign-extended (R297). -/
def Alu.word (o : Alu) (a b : Word) : Word := (o.at (a.extractLsb' 0 32) (b.extractLsb' 0 32)).signExtend 64
/-- The immediate of format I, as a 64-bit value (R262). -/
def immOf (i : BitVec 12) : Word := BitVec.ofInt 64 i.toInt

/-- The register forms (R296): the registers an instruction names, its destination and the value written. -/
def registerForm (i : Instr) (t : Thread) : Option (List Reg × Reg × Word) :=
  let two (o : Alu) (d a b : Reg) : Option (List Reg × Reg × Word) := some ([d, a, b], d, o.at (t.rx a) (t.rx b))
  let one (o : Alu) (d a : Reg) : Option (List Reg × Reg × Word) := some ([d, a], d, o.at (t.rx a) 0#64)
  match i with
  | .add d a b => two .add d a b
  | .sub d a b => two .sub d a b
  | .and d a b => two .and d a b
  | .or d a b => two .or d a b
  | .xor d a b => two .xor d a b
  | .andn d a b => two .andn d a b
  | .orn d a b => two .orn d a b
  | .sll d a b => two .sll d a b
  | .srl d a b => two .srl d a b
  | .sra d a b => two .sra d a b
  | .rol d a b => two .rol d a b
  | .ror d a b => two .ror d a b
  | .slt d a b => two .slt d a b
  | .sltu d a b => two .sltu d a b
  | .min d a b => two .min d a b
  | .max d a b => two .max d a b
  | .minu d a b => two .minu d a b
  | .maxu d a b => two .maxu d a b
  | .mul d a b => two .mul d a b
  | .mulh d a b => two .mulh d a b
  | .mulhu d a b => two .mulhu d a b
  | .mulhsu d a b => two .mulhsu d a b
  | .div d a b => two .div d a b
  | .divu d a b => two .divu d a b
  | .rem d a b => two .rem d a b
  | .remu d a b => two .remu d a b
  | .clz d a => one .clz d a
  | .ctz d a => one .ctz d a
  | .popc d a => one .popc d a
  | .sext d a w => some ([d, a], d, match w with
    | .b8 => BitVec.ofInt 64 ((t.rx a).setWidth 8).toInt
    | .b16 => BitVec.ofInt 64 ((t.rx a).setWidth 16).toInt
    | .b32 => BitVec.ofInt 64 ((t.rx a).setWidth 32).toInt)
  | .zext d a w => some ([d, a], d, match w with
    | .b8 => BitVec.ofNat 64 ((t.rx a).toNat % 2 ^ 8)
    | .b16 => BitVec.ofNat 64 ((t.rx a).toNat % 2 ^ 16)
    | .b32 => BitVec.ofNat 64 ((t.rx a).toNat % 2 ^ 32))
  | _ => none
/-- The word forms (R297). -/
def wordForm (i : Instr) (t : Thread) : Option (List Reg × Reg × Word) :=
  let two (o : Alu) (d a b : Reg) : Option (List Reg × Reg × Word) := some ([d, a, b], d, o.word (t.rx a) (t.rx b))
  let one (o : Alu) (d a : Reg) : Option (List Reg × Reg × Word) := some ([d, a], d, o.word (t.rx a) 0#64)
  match i with
  | .addW d a b => two .add d a b
  | .subW d a b => two .sub d a b
  | .sllW d a b => two .sll d a b
  | .srlW d a b => two .srl d a b
  | .sraW d a b => two .sra d a b
  | .rolW d a b => two .rol d a b
  | .rorW d a b => two .ror d a b
  | .mulW d a b => two .mul d a b
  | .divW d a b => two .div d a b
  | .divuW d a b => two .divu d a b
  | .remW d a b => two .rem d a b
  | .remuW d a b => two .remu d a b
  | .clzW d a => one .clz d a
  | .ctzW d a => one .ctz d a
  | .popcW d a => one .popc d a
  | _ => none
/-- The immediate forms (R298) and `lui` and `auipc` (R299). -/
def immediateForm (i : Instr) (t : Thread) : Option (List Reg × Reg × Word) :=
  let imm (o : Alu) (d a : Reg) (n : BitVec 12) : Option (List Reg × Reg × Word) := some ([d, a], d, o.at (t.rx a) (immOf n))
  let sh (o : Alu) (d a : Reg) (n : BitVec 6) : Option (List Reg × Reg × Word) := some ([d, a], d, o.at (t.rx a) (n.setWidth 64))
  let shW (o : Alu) (d a : Reg) (n : BitVec 5) : Option (List Reg × Reg × Word) := some ([d, a], d, o.word (t.rx a) (n.setWidth 64))
  match i with
  | .addi d a n => imm .add d a n
  | .andi d a n => imm .and d a n
  | .ori d a n => imm .or d a n
  | .xori d a n => imm .xor d a n
  | .slti d a n => imm .slt d a n
  | .sltiu d a n => imm .sltu d a n
  | .slli d a n => sh .sll d a n
  | .srli d a n => sh .srl d a n
  | .srai d a n => sh .sra d a n
  | .addiW d a n => some ([d, a], d, ((t.rx a + immOf n).setWidth 32).signExtend 64)
  | .slliW d a n => shW .sll d a n
  | .srliW d a n => shW .srl d a n
  | .sraiW d a n => shW .sra d a n
  | .lui d n => some ([d], d, BitVec.ofInt 64 (n.toInt * 4096))
  | .auipc d n => some ([d], d, t.pc + BitVec.ofInt 64 (n.toInt * 4096))
  | _ => none

/-! ## Predicates (R305, R306) -/

/-- The predicate forms: the x registers named, and the thread's predicates and x registers after it, as a function of a predicate's
or register's number. -/
def predicateForm (i : Instr) (t : Thread) : Option (List Reg × Pred × Bool) :=
  match i with
  | .pcmpEq d a b => some ([a, b], d, decide (t.rx a = t.rx b))
  | .pcmpNe d a b => some ([a, b], d, decide (t.rx a ≠ t.rx b))
  | .pcmpLt d a b => some ([a, b], d, decide ((t.rx a).toInt < (t.rx b).toInt))
  | .pcmpGe d a b => some ([a, b], d, decide ((t.rx b).toInt ≤ (t.rx a).toInt))
  | .pcmpLtu d a b => some ([a, b], d, decide ((t.rx a).toNat < (t.rx b).toNat))
  | .pcmpGeu d a b => some ([a, b], d, decide ((t.rx b).toNat ≤ (t.rx a).toNat))
  | .pand d a b => some ([], d, t.rp a && t.rp b)
  | .por d a b => some ([], d, t.rp a || t.rp b)
  | .pxor d a b => some ([], d, xor (t.rp a) (t.rp b))
  | .pnot d a => some ([], d, !t.rp a)
  | .pmov d a => some ([], d, t.rp a)
  | _ => none

/-! ## Branches and jumps (R307, R308) -/

/-- The branches: the x registers named, whether the branch is taken, and its offset. -/
def branchForm (i : Instr) (t : Thread) : Option (List Reg × Bool × BitVec 12) :=
  match i with
  | .beq a b n => some ([a, b], decide (t.rx a = t.rx b), n)
  | .bne a b n => some ([a, b], decide (t.rx a ≠ t.rx b), n)
  | .blt a b n => some ([a, b], decide ((t.rx a).toInt < (t.rx b).toInt), n)
  | .bge a b n => some ([a, b], decide ((t.rx b).toInt ≤ (t.rx a).toInt), n)
  | .bltu a b n => some ([a, b], decide ((t.rx a).toNat < (t.rx b).toNat), n)
  | .bgeu a b n => some ([a, b], decide ((t.rx b).toNat ≤ (t.rx a).toNat), n)
  | .bp a n => some ([], t.rp a, n)
  | .bnp a n => some ([], !t.rp a, n)
  | _ => none

/-! ## Scalar floating point (R301, R302, R304) -/

/-- The operations that take a rounding mode: the registers named, the destination and the result of a mode. -/
def roundedForm (i : Instr) (t : Thread) : Option (List Reg × Reg × (Rm → Res)) :=
  let two (f : FF → Rm → Nat → Nat → Res) (p : Prec) (d a b : Reg) : Option (List Reg × Reg × (Rm → Res)) :=
    some ([d, a, b], d, fun rm => f (precFF p) rm ((t.rx a).toNat % 2 ^ (precFF p).width) ((t.rx b).toNat % 2 ^ (precFF p).width))
  let three (f : FF → Rm → Nat → Nat → Nat → Res) (p : Prec) (d a b c : Reg) : Option (List Reg × Reg × (Rm → Res)) :=
    some ([d, a, b, c], d, fun rm => f (precFF p) rm ((t.rx a).toNat % 2 ^ (precFF p).width) ((t.rx b).toNat % 2 ^ (precFF p).width)
      ((t.rx c).toNat % 2 ^ (precFF p).width))
  match i with
  | .fadd p d a b => two fadd p d a b
  | .fsub p d a b => two fsub p d a b
  | .fmul p d a b => two fmul p d a b
  | .fdiv p d a b => two fdiv p d a b
  | .fsqrt p d a => some ([d, a, a], d, fun rm => fsqrt (precFF p) rm ((t.rx a).toNat % 2 ^ (precFF p).width))
  | .fmadd p d a b c => three fmadd p d a b c
  | .fmsub p d a b c => three fmsub p d a b c
  | .fnmadd p d a b c => three fnmadd p d a b c
  | _ => none
/-- The operations on codes that take no rounding mode. -/
def codeForm (i : Instr) (t : Thread) : Option (List Reg × Reg × Res) :=
  let two (f : FF → Nat → Nat → Res) (p : Prec) (d a b : Reg) : Option (List Reg × Reg × Res) :=
    some ([d, a, b], d, f (precFF p) ((t.rx a).toNat % 2 ^ (precFF p).width) ((t.rx b).toNat % 2 ^ (precFF p).width))
  match i with
  | .fmin p d a b => two (fun f x y => fminmax f false x y) p d a b
  | .fmax p d a b => two (fun f x y => fminmax f true x y) p d a b
  | .fsgn p d a b => two (fun f x y => (fsgnOf f 0 x y, 0#8)) p d a b
  | .fsgnN p d a b => two (fun f x y => (fsgnOf f 1 x y, 0#8)) p d a b
  | .fsgnX p d a b => two (fun f x y => (fsgnOf f 2 x y, 0#8)) p d a b
  | .fclass p d a => some ([d, a], d, (fclassOf (precFF p) ((t.rx a).toNat % 2 ^ (precFF p).width), 0#8))
  | _ => none
/-- The comparisons: eq, ne, lt, le. -/
def compareForm (i : Instr) (t : Thread) : Option (List Reg × Pred × Bool × Flags) :=
  let c (k : Nat) (p : Prec) (d : Pred) (a b : Reg) : Option (List Reg × Pred × Bool × Flags) :=
    some ([a, b], d, fcompare (precFF p) k ((t.rx a).toNat % 2 ^ (precFF p).width) ((t.rx b).toNat % 2 ^ (precFF p).width))
  match i with
  | .fcmpEq p d a b => c 0 p d a b
  | .fcmpNe p d a b => c 1 p d a b
  | .fcmpLt p d a b => c 2 p d a b
  | .fcmpLe p d a b => c 3 p d a b
  | _ => none

/-! ## Traps (R207, R208) and control registers (R276, R398) -/

/-- Everything of a thread that trap entry does not name is as before (R208). -/
def TrapKeeps (t t' : Thread) : Prop :=
  t'.x = t.x ∧ t'.p = t.p ∧ t'.tscratch = t.tscratch ∧ t'.stklim = t.stklim ∧ t'.fflags = t.fflags ∧ t'.pendX = t.pendX ∧ t'.pendP = t.pendP ∧
  t'.group = t.group ∧ t'.idx = t.idx ∧ t'.ctx = t.ctx ∧ t'.home = t.home ∧ t'.digA = t.digA ∧ t'.digB = t.digB ∧ t'.held = t.held
/-- The thread of a slot has taken a trap: the saved registers, the new status and pc, and the rest as before (R208). -/
def TookTrap (s u : State) (p k : Nat) (t : Thread) (g : Group) (tr : Trap) : Prop :=
  ∃ t', u.thread? p k = some t' ∧
    t'.estatus = (if tr.code = 0x14#8 then (s.core p).statusOf t &&& 0x00000000FFFFFFFB#64 else (s.core p).statusOf t) ∧ t'.epc = t.pc ∧
    t'.tcause = 0#50 ++ (if tr.async then BitVec.ofBool t.heldMore else 0#1) ++ BitVec.ofBool tr.async ++ tr.detail ++ tr.code ∧ t'.tval = tr.tval ∧
    t'.status = (t.status &&& 0x00000000FFFFFFFB#64) ||| 1#64 ∧ t'.pc = g.tvec ∧ TrapKeeps t t' ∧
    u = { s with cores := u.cores } ∧ (∀ q, q ≠ p → u.core q = s.core q) ∧ (∀ j, j ≠ k → u.thread? p j = s.thread? p j) ∧
    u.core p = { s.core p with threads := (u.core p).threads }
/-- The thread may take a trap at a handler: its group runs no check, has a handler, and the thread is not in one (R208); the trace of traps
is off, so that no record of the trace is written beside it (R226). -/
def HasHandler (s : State) (p k : Nat) (t : Thread) (g : Group) : Prop :=
  s.thread? p k = some t ∧ s.groupOf p t = some g ∧ g.check = none ∧ g.tvec ≠ 0#64 ∧ t.th = false ∧ (s.core p).trcctl.getLsbD 2 = false
/-- The control-register writes: address, operand register and the new value of the old one and the operand (R398). -/
def csrWriteForm (i : Instr) : Option (BitVec 12 × Reg × (Word → Word → Word)) :=
  match i with
  | .csrw c a => some (c, a, fun _ v => v)
  | .csrs c a => some (c, a, fun x v => x ||| v)
  | .csrc c a => some (c, a, fun x v => x &&& ~~~v)
  | _ => none
/-- A csr instruction passes its decode checks: an assigned address, written only where software may (R276, R277), with a vector context for
VSTATE, and for FFLAGS nothing of the thread's vector and tile work outstanding (R232). -/
def CsrIssues (s : State) (t : Thread) (rs : List Reg) (c : BitVec 12) (wr : Bool) : Prop :=
  Issues s t rs ∧ csrKind c ≠ .unassigned ∧ (wr = true → csrKind c = .writable) ∧ (csrKind c = .vstate → t.ctx.isSome = true) ∧
  (c = 8#12 → s.vectorIdle s.pos t = true ∧ t.tiles = 0)

/-! ## Memory instructions (R310 to R328) -/

/-- The integer that bytes stand for, sign-extended or not, as a 64-bit value (R5, R310). -/
def valueOf (n : Nat) (sg : Bool) (bs : List Byte) : Word :=
  if sg && decide (2 ^ (8 * n) ≤ 2 * natOfBytes bs) then BitVec.ofInt 64 (natOfBytes bs - 2 ^ (8 * n)) else BitVec.ofNat 64 (natOfBytes bs)
/-- The loads: bytes, sign, whether the copy in the L1 may serve, destination, base, offset. -/
def loadForm (i : Instr) : Option (Nat × Bool × Bool × Reg × Reg × BitVec 12) :=
  match i with
  | .lb d a n => some (1, true, true, d, a, n)
  | .lh d a n => some (2, true, true, d, a, n)
  | .lw d a n => some (4, true, true, d, a, n)
  | .ld d a n => some (8, false, true, d, a, n)
  | .lbu d a n => some (1, false, true, d, a, n)
  | .lhu d a n => some (2, false, true, d, a, n)
  | .lwu d a n => some (4, false, true, d, a, n)
  | .lbB d a n => some (1, true, false, d, a, n)
  | .lhB d a n => some (2, true, false, d, a, n)
  | .lwB d a n => some (4, true, false, d, a, n)
  | .ldB d a n => some (8, false, false, d, a, n)
  | .lbuB d a n => some (1, false, false, d, a, n)
  | .lhuB d a n => some (2, false, false, d, a, n)
  | .lwuB d a n => some (4, false, false, d, a, n)
  | .lbN d a n => some (1, true, true, d, a, n)
  | .lhN d a n => some (2, true, true, d, a, n)
  | .lwN d a n => some (4, true, true, d, a, n)
  | .ldN d a n => some (8, false, true, d, a, n)
  | .lbuN d a n => some (1, false, true, d, a, n)
  | .lhuN d a n => some (2, false, true, d, a, n)
  | .lwuN d a n => some (4, false, true, d, a, n)
  | _ => none
/-- The stores: bytes, base, source, offset. -/
def storeForm (i : Instr) : Option (Nat × Reg × Reg × BitVec 12) :=
  match i with
  | .sb a b n => some (1, a, b, n)
  | .sh a b n => some (2, a, b, n)
  | .sw a b n => some (4, a, b, n)
  | .sd a b n => some (8, a, b, n)
  | .sbN a b n => some (1, a, b, n)
  | .shN a b n => some (2, a, b, n)
  | .swN a b n => some (4, a, b, n)
  | .sdN a b n => some (8, a, b, n)
  | _ => none
/-- The atomics of R316: scope, width, destination, base, source, and the value stored for the old one, none where nothing is stored. -/
def atomicForm (i : Instr) (t : Thread) : Option (Scope × AtomWidth × Reg × Reg × Reg × (Word → Option Word)) :=
  let lo (v : Word) : BitVec 32 := v.setWidth 32
  let pick (w : AtomWidth) (sg : Bool) (big : Bool) (x y : Word) : Word :=
    let less : Bool := match w, sg with
      | .d, true => decide (x.toInt < y.toInt)
      | .d, false => decide (x.toNat < y.toNat)
      | .w, true => decide ((lo x).toInt < (lo y).toInt)
      | .w, false => decide ((lo x).toNat < (lo y).toNat)
    if less != big then x else y
  match i with
  | .amoadd f w d a b => some (f, w, d, a, b, fun x => some (x + t.rx b))
  | .amoand f w d a b => some (f, w, d, a, b, fun x => some (x &&& t.rx b))
  | .amoor f w d a b => some (f, w, d, a, b, fun x => some (x ||| t.rx b))
  | .amoxor f w d a b => some (f, w, d, a, b, fun x => some (x ^^^ t.rx b))
  | .amomin f w d a b => some (f, w, d, a, b, fun x => some (pick w true false x (t.rx b)))
  | .amomax f w d a b => some (f, w, d, a, b, fun x => some (pick w true true x (t.rx b)))
  | .amominu f w d a b => some (f, w, d, a, b, fun x => some (pick w false false x (t.rx b)))
  | .amomaxu f w d a b => some (f, w, d, a, b, fun x => some (pick w false true x (t.rx b)))
  | .amoswap f w d a b => some (f, w, d, a, b, fun _ => some (t.rx b))
  | .cas f w d a b => some (f, w, d, a, b, fun x =>
      if (match w with
        | .d => decide (x = t.rx d)
        | .w => decide (lo x = lo (t.rx d))) then some (t.rx b) else none)
  | _ => none

/-- An access passes its issue checks (R210) and the issue rules (R152, R184, R187), in a group that runs no check and keeps no digest, on a
core that is not debugged, by a thread that does not migrate. -/
def Reaches (s : State) (t : Thread) (g : Group) (l : Launch) (a : Acc) (ia : Nat) (returning : Bool) : Prop :=
  checkAcc s s.pos t a = .ok ia ∧ Runs s t g l ∧ t.nomad = false ∧ s.mayIssue s.pos s.slot (s.route l.lid ia).ia returning = true ∧
  g.check = none ∧ s.digests g = false ∧ (s.core s.pos).dbgctl.getLsbD 0 = false
/-- An intermediate address lies in the issuing core's own scratchpad at an offset, in bytes that its launch may reach there (R54, R162). -/
def OwnBytes (s : State) (l : Launch) (ia off n : Nat) : Prop :=
  placeOf ia = .sp s.pos off ∧ (s.core s.pos).ownership l.lid none off n = .ok ∧ ((s.core s.pos).exEn = true → off + n ≤ 0x38000)
/-- Outside n bytes from a scratchpad offset (in the active half) every byte of the core's scratchpad is as before. -/
def OtherBytes (c c' : Core) (off n : Nat) : Prop :=
  ∀ x, (x < c.spPhys off ∨ c.spPhys off + n ≤ x) → memGet c'.sp x = memGet c.sp x
/-- The issuing thread goes on at the next instruction with at most d written. -/
def GoesOn (t t' : Thread) (d : Option (Reg × Word)) : Prop :=
  t'.pc = t.pc + 4#64 ∧ AfterX t t' d ∧ AfterP t t' none ∧ t'.fflags = t.fflags ∧ KeepsControl t t' ∧ NoPrefix t'
/-- Memory space, host memory and the other cores are as before. -/
def OutsideKept (s u : State) : Prop := u.mem = s.mem ∧ u.host = s.host ∧ u.bad = s.bad ∧ u.fw = s.fw ∧ ∀ q, q ≠ s.pos → u.core q = s.core q
/-- Exactly one request leaves a node: it is outstanding, and its packet enters the fabric unless the window of 64 or a reroute holds it back
(R36, R40). -/
def SendsFrom (s u : State) (src : Nat) (slot : Option Nat) (dst : Nat) (b : Body) (use : Use) : Prop :=
  ∃ r : Req, r ∈ u.reqs ∧ u.reqs.length = s.reqs.length + 1 ∧ r.src = src ∧ r.dst = dst ∧ r.body = b ∧ r.use = use ∧ r.slot = slot ∧
    ((r.parked = true ∧ u.net = s.net) ∨
     (r.parked = false ∧ ∃ k : Packet, u.net = s.net ++ [k] ∧ k.src = src ∧ k.dst = dst ∧ k.seq = r.seq ∧ k.body = b ∧ k.retry = false))
/-- The issuing thread sends exactly one request. -/
def Sends (s u : State) (dst : Nat) (b : Body) (use : Use) : Prop := SendsFrom s u s.pos (some s.slot) dst b use
/-- The issuing thread goes on after sending a request; a returning one leaves its destination pending (R151). -/
def SentOn (s : State) (t : Thread) (o : Out) (dst : Nat) (b : Body) (use : Use) (pend : Option Reg) : Prop :=
  ∃ u t', o = .next u ∧ Sends s u dst b use ∧ u.cur? = some t' ∧ GoesOn t t' none ∧
    t'.pendX = (match pend with
      | some d => if d = 0#5 then t.pendX else t.pendX ||| (1#32 <<< d.toNat)
      | none => t.pendX) ∧ u.mem = s.mem ∧ u.host = s.host ∧ (u.core s.pos).sp = (s.core s.pos).sp
/-- Nothing that a fence, a release or a barrier waits for is outstanding: the thread's accesses are answered, it waits for no flush, and its dale's
reduction unit is empty (R186, R190, R194). -/
def Quiet (s : State) (t : Thread) : Prop :=
  s.accesses s.pos s.slot = [] ∧ t.flushing = none ∧ ∀ e ∈ s.dru, e.1 ≠ daleOf s.pos

/-! ## Vector instructions (chapter 13) -/

/-- A vector instruction on registers: its operation, registers and mask, the scalar it reads, its length, the x register it leaves pending, and the
prefixes it takes (R331 to R333). -/
structure VForm where
  op    : VOp
  d     : BitVec 5
  a     : BitVec 5 := 0#5
  b     : BitVec 5 := 0#5
  m     : MReg
  bx    : Bool := false
  s1    : Word := 0#64
  s2    : Word := 0#64
  rs    : List Reg := []
  rd    : Option Reg := none
  len   : Nat := 4
  takes : BitVec 32 → Bool := fun _ => false
/-- The instructions that become one command on registers alone (R338 to R365, R264). -/
def vectorForm (i : Instr) (t : Thread) : Option VForm :=
  match i with
  | .vadd w d a b m => some { op := (.int 0 w), d := d, a := a, b := b, m := m, takes := (pfxInt 0 (wdBits w) false) }
  | .vaddX w d a b m => some { op := (.int 0 w), d := d, a := a, m := m, rs := [b], bx := true, s2 := t.rx b, takes := (pfxInt 0 (wdBits w) true) }
  | .vsub w d a b m => some { op := (.int 1 w), d := d, a := a, b := b, m := m, takes := (pfxInt 1 (wdBits w) false) }
  | .vsubX w d a b m => some { op := (.int 1 w), d := d, a := a, m := m, rs := [b], bx := true, s2 := t.rx b, takes := (pfxInt 1 (wdBits w) true) }
  | .vmul w d a b m => some { op := (.int 2 w), d := d, a := a, b := b, m := m, takes := (pfxInt 2 (wdBits w) false) }
  | .vmulX w d a b m => some { op := (.int 2 w), d := d, a := a, m := m, rs := [b], bx := true, s2 := t.rx b, takes := (pfxInt 2 (wdBits w) true) }
  | .vmulh w d a b m => some { op := (.int 3 w), d := d, a := a, b := b, m := m, takes := (pfxInt 3 (wdBits w) false) }
  | .vmulhX w d a b m => some { op := (.int 3 w), d := d, a := a, m := m, rs := [b], bx := true, s2 := t.rx b, takes := (pfxInt 3 (wdBits w) true) }
  | .vmin w d a b m => some { op := (.int 4 w), d := d, a := a, b := b, m := m, takes := (pfxInt 4 (wdBits w) false) }
  | .vminX w d a b m => some { op := (.int 4 w), d := d, a := a, m := m, rs := [b], bx := true, s2 := t.rx b, takes := (pfxInt 4 (wdBits w) true) }
  | .vmax w d a b m => some { op := (.int 5 w), d := d, a := a, b := b, m := m, takes := (pfxInt 5 (wdBits w) false) }
  | .vmaxX w d a b m => some { op := (.int 5 w), d := d, a := a, m := m, rs := [b], bx := true, s2 := t.rx b, takes := (pfxInt 5 (wdBits w) true) }
  | .vminu w d a b m => some { op := (.int 6 w), d := d, a := a, b := b, m := m, takes := (pfxInt 6 (wdBits w) false) }
  | .vminuX w d a b m => some { op := (.int 6 w), d := d, a := a, m := m, rs := [b], bx := true, s2 := t.rx b, takes := (pfxInt 6 (wdBits w) true) }
  | .vmaxu w d a b m => some { op := (.int 7 w), d := d, a := a, b := b, m := m, takes := (pfxInt 7 (wdBits w) false) }
  | .vmaxuX w d a b m => some { op := (.int 7 w), d := d, a := a, m := m, rs := [b], bx := true, s2 := t.rx b, takes := (pfxInt 7 (wdBits w) true) }
  | .vsll w d a b m => some { op := (.int 8 w), d := d, a := a, b := b, m := m, takes := (pfxInt 8 (wdBits w) false) }
  | .vsllX w d a b m => some { op := (.int 8 w), d := d, a := a, m := m, rs := [b], bx := true, s2 := t.rx b, takes := (pfxInt 8 (wdBits w) true) }
  | .vsrl w d a b m => some { op := (.int 9 w), d := d, a := a, b := b, m := m, takes := (pfxInt 9 (wdBits w) false) }
  | .vsrlX w d a b m => some { op := (.int 9 w), d := d, a := a, m := m, rs := [b], bx := true, s2 := t.rx b, takes := (pfxInt 9 (wdBits w) true) }
  | .vsra w d a b m => some { op := (.int 10 w), d := d, a := a, b := b, m := m, takes := (pfxInt 10 (wdBits w) false) }
  | .vsraX w d a b m => some { op := (.int 10 w), d := d, a := a, m := m, rs := [b], bx := true, s2 := t.rx b, takes := (pfxInt 10 (wdBits w) true) }
  | .vand d a b m => some { op := (.int 11 .i8), d := d, a := a, b := b, m := m }
  | .vandX d a b m => some { op := (.int 11 .i8), d := d, a := a, m := m, rs := [b], bx := true, s2 := t.rx b }
  | .vor d a b m => some { op := (.int 12 .i8), d := d, a := a, b := b, m := m }
  | .vorX d a b m => some { op := (.int 12 .i8), d := d, a := a, m := m, rs := [b], bx := true, s2 := t.rx b }
  | .vxor d a b m => some { op := (.int 13 .i8), d := d, a := a, b := b, m := m }
  | .vxorX d a b m => some { op := (.int 13 .i8), d := d, a := a, m := m, rs := [b], bx := true, s2 := t.rx b }
  | .vmov d a m => some { op := .mov, d := d, a := a, m := m }
  | .vfadd p d a b m => some { op := (.fp 0 p), d := d, a := a, b := b, m := m, takes := (pfxFp 0 p) }
  | .vfaddX p d a b m => some { op := (.fp 0 p), d := d, a := a, m := m, rs := [b], bx := true, s2 := t.rx b, takes := (pfxFp 0 p) }
  | .vfsub p d a b m => some { op := (.fp 1 p), d := d, a := a, b := b, m := m, takes := (pfxFp 1 p) }
  | .vfsubX p d a b m => some { op := (.fp 1 p), d := d, a := a, m := m, rs := [b], bx := true, s2 := t.rx b, takes := (pfxFp 1 p) }
  | .vfmul p d a b m => some { op := (.fp 2 p), d := d, a := a, b := b, m := m, takes := (pfxFp 2 p) }
  | .vfmulX p d a b m => some { op := (.fp 2 p), d := d, a := a, m := m, rs := [b], bx := true, s2 := t.rx b, takes := (pfxFp 2 p) }
  | .vfdiv p d a b m => some { op := (.fp 3 p), d := d, a := a, b := b, m := m, takes := (pfxFp 3 p) }
  | .vfdivX p d a b m => some { op := (.fp 3 p), d := d, a := a, m := m, rs := [b], bx := true, s2 := t.rx b, takes := (pfxFp 3 p) }
  | .vfsqrt p d a m => some { op := (.fp 4 p), d := d, a := a, m := m, takes := (pfxFp 4 p) }
  | .vfmin p d a b m => some { op := (.fp 5 p), d := d, a := a, b := b, m := m, takes := (pfxFp 5 p) }
  | .vfminX p d a b m => some { op := (.fp 5 p), d := d, a := a, m := m, rs := [b], bx := true, s2 := t.rx b, takes := (pfxFp 5 p) }
  | .vfmax p d a b m => some { op := (.fp 6 p), d := d, a := a, b := b, m := m, takes := (pfxFp 6 p) }
  | .vfmaxX p d a b m => some { op := (.fp 6 p), d := d, a := a, m := m, rs := [b], bx := true, s2 := t.rx b, takes := (pfxFp 6 p) }
  | .vfmacc p d a b m => some { op := (.fp 7 p), d := d, a := a, b := b, m := m, takes := (pfxFp 7 p) }
  | .vfmaccX p d a b m => some { op := (.fp 7 p), d := d, a := a, m := m, rs := [b], bx := true, s2 := t.rx b, takes := (pfxFp 7 p) }
  | .vfdot p d a b m => some { op := (.fp 8 p), d := d, a := a, b := b, m := m, takes := (pfxFp 8 p) }
  | .vcmpEq w d a b m => some { op := (.cmp 0 w), d := (d.setWidth 5), a := a, b := b, m := m }
  | .vcmpNe w d a b m => some { op := (.cmp 1 w), d := (d.setWidth 5), a := a, b := b, m := m }
  | .vcmpLt w d a b m => some { op := (.cmp 2 w), d := (d.setWidth 5), a := a, b := b, m := m }
  | .vcmpGe w d a b m => some { op := (.cmp 3 w), d := (d.setWidth 5), a := a, b := b, m := m }
  | .vcmpLtu w d a b m => some { op := (.cmp 4 w), d := (d.setWidth 5), a := a, b := b, m := m }
  | .vcmpGeu w d a b m => some { op := (.cmp 5 w), d := (d.setWidth 5), a := a, b := b, m := m }
  | .vfcmpEq p d a b m => some { op := (.fcmp 0 p), d := (d.setWidth 5), a := a, b := b, m := m }
  | .vfcmpNe p d a b m => some { op := (.fcmp 1 p), d := (d.setWidth 5), a := a, b := b, m := m }
  | .vfcmpLt p d a b m => some { op := (.fcmp 2 p), d := (d.setWidth 5), a := a, b := b, m := m }
  | .vfcmpLe p d a b m => some { op := (.fcmp 3 p), d := (d.setWidth 5), a := a, b := b, m := m }
  | .mand d a b => some { op := (.mask 0), d := (d.setWidth 5), a := (a.setWidth 5), b := (b.setWidth 5), m := 0#3 }
  | .mor d a b => some { op := (.mask 1), d := (d.setWidth 5), a := (a.setWidth 5), b := (b.setWidth 5), m := 0#3 }
  | .mxor d a b => some { op := (.mask 2), d := (d.setWidth 5), a := (a.setWidth 5), b := (b.setWidth 5), m := 0#3 }
  | .mnot d a => some { op := (.mask 3), d := (d.setWidth 5), a := (a.setWidth 5), m := 0#3 }
  | .mcnt d a => some { op := .mcnt, d := d, a := (a.setWidth 5), m := 0#3, rd := some d, rs := [d] }
  | .mfirst d a => some { op := .mfirst, d := d, a := (a.setWidth 5), m := 0#3, rd := some d, rs := [d] }
  | .vsel d a b m => some { op := .sel, d := d, a := a, b := b, m := m }
  | .vredsum w d a m => some { op := (.red 8 w), d := d, a := a, m := m, rd := some d, rs := [d] }
  | .vredmin w d a m => some { op := (.red 9 w), d := d, a := a, m := m, rd := some d, rs := [d] }
  | .vredmax w d a m => some { op := (.red 10 w), d := d, a := a, m := m, rd := some d, rs := [d] }
  | .vredminu w d a m => some { op := (.red 11 w), d := d, a := a, m := m, rd := some d, rs := [d] }
  | .vredmaxu w d a m => some { op := (.red 12 w), d := d, a := a, m := m, rd := some d, rs := [d] }
  | .vfredsum p d a m => some { op := (.fred 13 p), d := d, a := a, m := m, rd := some d, rs := [d] }
  | .vfredmin p d a m => some { op := (.fred 14 p), d := d, a := a, m := m, rd := some d, rs := [d] }
  | .vfredmax p d a m => some { op := (.fred 15 p), d := d, a := a, m := m, rd := some d, rs := [d] }
  | .vperm w d a b m => some { op := (.perm w), d := d, a := a, b := b, m := m }
  | .vslideUp w d a b m => some { op := (.slide true w), d := d, a := a, m := m, rs := [b], bx := true, s2 := t.rx b }
  | .vslideDown w d a b m => some { op := (.slide false w), d := d, a := a, m := m, rs := [b], bx := true, s2 := t.rx b }
  | .vzip w d a b m => some { op := (.zip false w), d := d, a := a, b := b, m := m }
  | .vunzip w d a b m => some { op := (.zip true w), d := d, a := a, b := b, m := m }
  | .vrev w d a m => some { op := (.rev w), d := d, a := a, m := m }
  | .vext w d a b => some { op := (.ext w), d := d, a := a, m := 0#3, rd := some d, rs := [d, b], s2 := t.rx b }
  | .vpack w d a b m => some { op := (.pack w), d := d, a := a, b := b, m := m, takes := (pfxPack (pkBits w)) }
  | .vunpackLo w d a m => some { op := (.unpack false w), d := d, a := a, m := m, takes := (pfxUnpack (pkBits w)) }
  | .vunpackHi w d a m => some { op := (.unpack true w), d := d, a := a, m := m, takes := (pfxUnpack (pkBits w)) }
  | .vaddm w j d a b m => some { op := (.modular 0 w j), d := d, a := a, b := b, m := m }
  | .vsubm w j d a b m => some { op := (.modular 1 w j), d := d, a := a, b := b, m := m }
  | .vmulm w j d a b m => some { op := (.modular 2 w j), d := d, a := a, b := b, m := m }
  | .vmacm w j d a b m => some { op := (.modular 3 w j), d := d, a := a, b := b, m := m }
  | .vmodred w j d a b m => some { op := (.modular 4 w j), d := d, a := a, b := b, m := m }
  | .vbflyCt w j d st b m => some { op := (.bfly false w j st.toNat), d := d, b := b, m := m }
  | .vbflyGs w j d st b m => some { op := (.bfly true w j st.toNat), d := d, b := b, m := m }
  | .vbflyxCt w j d a b m => some { op := (.bflyx false w j), d := d, a := a, b := b, m := m }
  | .vbflyxGs w j d a b m => some { op := (.bflyx true w j), d := d, a := a, b := b, m := m }
  | .vpermb st d a b m => some { op := (.permb st.toNat), d := d, a := a, b := b, m := m }
  | .vtolog d a m => some { op := .tolog, d := d, a := a, m := m, takes := pfxTolog }
  | .vfromlog d a m => some { op := .fromlog, d := d, a := a, m := m, takes := pfxFromlog }
  | .vlogadd d a b m => some { op := .logadd, d := d, a := a, b := b, m := m, takes := pfxLogadd }
  | .vwidth d => some { op := .vwidth, d := d, m := 0#3, rd := some d, rs := [d] }
  | .vmov16 g d s0 => if g = 0#1 ∧ d = 0#5 ∧ s0 = 0#5 then none else some { op := .mov, len := 2, d := d, a := s0, m := g.setWidth 3 }
  | .vaddI32x16 g d s0 => some { op := (.int 0 .i32), d := d, a := d, b := s0, m := (g.setWidth 3), len := 2 }
  | .vsubI32x16 g d s0 => some { op := (.int 1 .i32), d := d, a := d, b := s0, m := (g.setWidth 3), len := 2 }
  | .vand16 g d s0 => some { op := (.int 11 .i8), d := d, a := d, b := s0, m := (g.setWidth 3), len := 2 }
  | .vor16 g d s0 => some { op := (.int 12 .i8), d := d, a := d, b := s0, m := (g.setWidth 3), len := 2 }
  | .vxor16 g d s0 => some { op := (.int 13 .i8), d := d, a := d, b := s0, m := (g.setWidth 3), len := 2 }
  | .vsllI32x16 g d s0 => some { op := (.int 8 .i32), d := d, a := d, b := s0, m := (g.setWidth 3), len := 2 }
  | .vfaddF32x16 g d s0 => some { op := (.fp 0 .f32), d := d, a := d, b := s0, m := (g.setWidth 3), len := 2 }
  | .vfsubF32x16 g d s0 => some { op := (.fp 1 .f32), d := d, a := d, b := s0, m := (g.setWidth 3), len := 2 }
  | .vfmulF32x16 g d s0 => some { op := (.fp 2 .f32), d := d, a := d, b := s0, m := (g.setWidth 3), len := 2 }
  | .vfmaxF32x16 g d s0 => some { op := (.fp 6 .f32), d := d, a := d, b := s0, m := (g.setWidth 3), len := 2 }
  | .vfminF32x16 g d s0 => some { op := (.fp 5 .f32), d := d, a := d, b := s0, m := (g.setWidth 3), len := 2 }
  | .vaddm16 g d s0 => some { op := (.modular 0 .m64 0#2), d := d, a := d, b := s0, m := (g.setWidth 3), len := 2 }
  | .vsubm16 g d s0 => some { op := (.modular 1 .m64 0#2), d := d, a := d, b := s0, m := (g.setWidth 3), len := 2 }
  | .vmulm16 g d s0 => some { op := (.modular 2 .m64 0#2), d := d, a := d, b := s0, m := (g.setWidth 3), len := 2 }
  | .vlogadd16 g d s0 => some { op := .logadd, d := d, a := d, b := s0, m := (g.setWidth 3), len := 2 }
  | .vbcast w d a m => some { op := .bcast w, d := d, m := m, rs := [a], s1 := t.rx a }
  | .vwhile u w d a b => some { op := .vwhile w u, d := d.setWidth 5, m := 0#3, rs := [a, b], s1 := t.rx a, s2 := t.rx b }
  | _ => none
/-- The active elements of a width in ascending order (R329). -/
def activeOf (mask : MaskWord) (w : Nat) : List Nat := (List.range (2048 / w)).filter fun i => mask.getLsbD (i * w / 8)
/-- A vector memory instruction: operation, whether it loads, bytes and alignment of an element, whether its elements are bytes, the register, the
base, the other scalar, the mask, and the address of element i (R340 to R342). -/
structure VMemForm where
  op    : VOp
  load  : Bool
  n     : Nat
  bytes : Bool
  d     : BitVec 5
  base  : Reg
  rs    : List Reg
  m     : MReg
  addr  : Nat → Word
/-- The contiguous, strided and indexed accesses. -/
def vectorMemForm (i : Instr) (t : Thread) (c : VCtx) : Option VMemForm :=
  let unit (op : VOp) (ld : Bool) (d : BitVec 5) (a : Reg) (m : MReg) : Option VMemForm :=
    some { op := op, load := ld, n := 1, bytes := true, d := d, base := a, rs := [a], m := m, addr := fun i => t.rx a + BitVec.ofNat 64 i }
  let stride (op : VOp) (ld : Bool) (w : Width) (d : BitVec 5) (a b : Reg) (m : MReg) : Option VMemForm :=
    some { op := op, load := ld, n := wdBits w / 8, bytes := false, d := d, base := a, rs := [a, b], m := m,
           addr := fun i => t.rx a + BitVec.ofNat 64 i * t.rx b }
  let index (op : VOp) (ld : Bool) (w : Width) (d : BitVec 5) (a : Reg) (b : BitVec 5) (m : MReg) : Option VMemForm :=
    some { op := op, load := ld, n := wdBits w / 8, bytes := false, d := d, base := a, rs := [a], m := m,
           addr := fun i => t.rx a + BitVec.ofNat 64 (el (elems (wdBits w) (c.rv b)) i) }
  match i with
  | .vld e d a m => unit (.load e false) true d a m
  | .vst d a m => unit (.store false true) false d a m
  | .vlds e w d a b m => stride (.load e false) true w d a b m
  | .vsts w d a b m => stride (.store false false) false w d a b m
  | .vgather e w d a b m => index (.load e true) true w d a b m
  | .vscatter w d a b m => index (.store true false) false w d a b m
  | _ => none
/-- Nothing outside the issuing core differs but the count of numbers given out, one more of which is taken. -/
def Numbered (s u : State) : Prop := u = { s with cores := u.cores, nextId := s.nextId + 1 } ∧ ∀ q, q ≠ s.pos → u.core q = s.core q
/-- The issuing thread goes on with one more command, under the next number, in the queue of its context; nothing but the queue, the thread and the count of numbers
differs (R167). -/
def Queues (s : State) (t : Thread) (c : Bool) (o : Out) (k : VCmd) (len : Nat) (rd : Option Reg) : Prop :=
  ∃ u t', o = .next u ∧ Numbered s u ∧ u.cur? = some t' ∧ t'.pc = t.pc + BitVec.ofNat 64 len ∧ AfterX t t' none ∧ AfterP t t' none ∧
    t'.fflags = t.fflags ∧ KeepsControl t t' ∧ NoPrefix t' ∧
    t'.pendX = (match rd with
      | some d => if d = 0#5 then t.pendX else t.pendX ||| (1#32 <<< d.toNat)
      | none => t.pendX) ∧
    (u.core s.pos).ctx c = { (s.core s.pos).ctx c with queue := ((s.core s.pos).ctx c).queue ++ [{ k with id := s.nextId }] } ∧
    (u.core s.pos).ctx (!c) = (s.core s.pos).ctx (!c) ∧ (u.core s.pos).sp = (s.core s.pos).sp ∧
    (u.core s.pos).groups = (s.core s.pos).groups ∧ ∀ j, j ≠ s.slot → u.thread? s.pos j = s.thread? s.pos j
/-- A thread with a vector context issues a vector instruction whose prefix, if one is pending, is taken (R331, R333). -/
def VectorIssues (s : State) (t : Thread) (g : Group) (l : Launch) (c : Bool) (rs : List Reg) (takes : BitVec 32 → Bool) : Prop :=
  s.cur? = some t ∧ Runs s t g l ∧ t.ctx = some c ∧ t.pends rs = false ∧ (∀ w, t.prefix? = some w → takes w = true) ∧
  (s.core s.pos).vecRoom c = true
/-- The integer operations on elements of a width without a prefix, on the numbers that the elements hold (R243, R345). -/
def laneValue (op w : Nat) (a b : BitVec w) : Option (BitVec w) :=
  match op with
  | 0 => some (Alu.add.at a b)
  | 1 => some (Alu.sub.at a b)
  | 2 => some (Alu.mul.at a b)
  | 3 => some (Alu.mulh.at a b)
  | 4 => some (Alu.min.at a b)
  | 5 => some (Alu.max.at a b)
  | 6 => some (Alu.minu.at a b)
  | 7 => some (Alu.maxu.at a b)
  | 8 => some (if w ≤ b.toNat then 0#w else a <<< b.toNat)
  | 9 => some (if w ≤ b.toNat then 0#w else a >>> b.toNat)
  | 10 => some (a.sshiftRight b.toNat)
  | 11 => some (a &&& b)
  | 12 => some (a ||| b)
  | 13 => some (a ^^^ b)
  | _ => none

/-! ## Tiles, engines, events and tasks -/

/-- A tile or engine instruction passes its decode checks: no nomad thread, a prefix that it takes, no pending operand (R371, R372). -/
def TileIssues (s : State) (t : Thread) (g : Group) (l : Launch) (rs : List Reg) (takes : BitVec 32 → Bool) : Prop :=
  s.cur? = some t ∧ Runs s t g l ∧ t.nomad = false ∧ (∀ w, t.prefix? = some w → takes w = true) ∧ t.pends rs = false
/-- A fork may start: the thread's accesses are answered and its vector context has drained (R196). -/
def Forks (s : State) (t : Thread) : Prop := Quiet s t ∧ s.vectorDone s.pos s.slot t = true
/-- The thread goes on with one more operation, under the next number, in its core's matrix unit (R373); nothing else differs. -/
def QueuesTile (s : State) (t : Thread) (o : Out) (x : TileOp) : Prop :=
  ∃ u t', o = .next u ∧ Numbered s u ∧ u.cur? = some t' ∧ GoesOn { t with tiles := t.tiles + 1 } t' none ∧
    u.core s.pos = { s.core s.pos with tiles := (s.core s.pos).tiles ++ [{ x with id := s.nextId }], threads := (u.core s.pos).threads } ∧
    ∀ j, j ≠ s.slot → u.thread? s.pos j = s.thread? s.pos j
/-- An event instruction passes its checks: not in step mode, not hosted, no check run, no digest kept (R124, R386). -/
def EventIssues (s : State) (t : Thread) (g : Group) (l : Launch) (rs : List Reg) : Prop :=
  Issues s t rs ∧ Runs s t g l ∧ l.stepMode = false ∧ t.home = none ∧ g.check = none ∧ s.digests g = false
/-- The thread goes on with a register pair written (R388). -/
def GoesOnPair (t t' : Thread) (d : Reg) (r : BitVec 128) : Prop :=
  t'.pc = t.pc + 4#64 ∧ (∀ x, t'.rx x = if x = d then r.extractLsb' 0 64 else if x = d + 1#5 then r.extractLsb' 64 64 else t.rx x) ∧ AfterP t t' none ∧
    t'.fflags = t.fflags ∧ KeepsControl t t' ∧ NoPrefix t'
/-- An entry comes before every other of the inbox: lower virtual time, or equal and earlier (R128). -/
def First (e : Entry) (l : List Entry) : Prop := e ∈ l ∧ ∀ x ∈ l, x.stream < 16 ∧ (x = e ∨ e.vt.toNat < x.vt.toNat ∨ (e.vt = x.vt ∧ e.at < x.at))
/-- A task instruction passes its checks and its wait (R391). -/
def TaskIssues (s : State) (t : Thread) (g : Group) (l : Launch) (rs : List Reg) : Prop :=
  Issues s t rs ∧ Runs s t g l ∧ l.stepMode = false ∧ Quiet s t ∧ g.check = none ∧ s.digests g = false
/-- The thread has read the 64 bytes of its record (R391). -/
def HasRecord (t : Thread) (r : List Byte) : Prop := t.readRec = some r ∧ r.length = 64
/-- The task instructions that read a record: the registers they name and the one that holds its address. -/
def recordReader (i : Instr) (l : Launch) : Option (List Reg × Reg) :=
  if l.stepMode then none
  else match i with
    | .dqpush d a => some ([d, a], a)
    | .tspawn a b => some ([a, b], b)
    | .go a => some ([a], a)
    | _ => none
/-- The records of a core's deque, bottom first: the spilled part, then the local part (R111). -/
def records (c : Core) : List (List Byte × Option (Nat × Bool)) := c.spill ++ c.deque
/-- A group of a record runs on a core: its threads stand in the slots with the registers of R109. -/
def Started (s u : State) (p : Nat) (l : Launch) (r : List Byte) : Prop :=
  ∃ g, (u.core p).groups = (s.core p).groups ++ [g] ∧ g.lid = l.lid ∧ g.record = r ∧ g.size = recGsize r ∧ (s.core p).freeRange l = some g.base ∧
    g.len = l.galloc * 4096 ∧ memRead (u.core p).sp g.base 64 = r ∧
    ∀ i k, i < recGsize r → (s.core p).freeSlots[i]? = some k → ∃ t, u.thread? p k = some t ∧ t.group = g.gid ∧ t.idx = i ∧ t.run = .running ∧
      t.pc = recEntry r ∧ t.rx 3#5 = l.args ∧ t.rx 8#5 = recArg r ∧ t.rx 9#5 = recArg2 r ∧ t.rx 10#5 = BitVec.ofNat 64 i ∧
      t.rx 11#5 = BitVec.ofNat 64 (recGsize r) ∧ t.status = 0#64 ∧ t.fflags = 0#64 ∧ t.rx 1#5 = 0#64

/-! ## Packets (R26 to R41) -/

/-- Packet k of the fabric is p, ejected at its destination, to which live links lead (R30, R40). -/
def Arrives (s : State) (k : Nat) (p : Packet) : Prop := s.net[k]? = some p ∧ p.spot = .ejected ∧ s.nodeCut p.dst = false
/-- No copy of the packet has been taken before (R37). -/
def Fresh (s : State) (p : Packet) : Prop := p.ns = true ∨ (windowAccept (tblGetD (s.node p.dst).windows p.src windowReset) p.seq).isSome = true
/-- The packet has left the fabric and its answer has entered. -/
def Answered (s u : State) (k : Nat) (p : Packet) (b : Body) : Prop := u.net = s.net.eraseIdx k ++ [replyTo p.dst p.src p.ns p.seq b]
/-- n bytes of a memory from an address are some bytes, and every other byte is as before. -/
def Stored (m m' : Memory) (a : Nat) (bs : List Byte) : Prop :=
  memRead m' a bs.length = bs ∧ ∀ x, (x < a ∨ a + bs.length ≤ x) → memGet m' x = memGet m x
/-- A packet arrives at an active core that is not fenced and whose watchpoints are off. -/
def Lands (s : State) (k : Nat) (p : Packet) : Prop :=
  Arrives s k p ∧ p.dst < 0x400 ∧ s.active p.dst = true ∧ (s.core p.dst).fenced = false ∧ (s.core p.dst).dbgctl.getLsbD 0 = false
/-- A fresh packet arrives so, and none of it has been done. -/
def Meets (s : State) (k : Nat) (p : Packet) : Prop := Lands s k p ∧ Fresh s p ∧ p.part = 0
/-- Bytes of memory space lie in one page, of LPDDR or of the host, at a physical base: so their homes translate them (R57, R58, R75). -/
def Lies (s : State) (off n : Nat) (host : Bool) (b : Nat) : Prop :=
  off % 65536 + n ≤ 65536 ∧ ∀ x, off ≤ x → x < off + max n 1 → s.xlate x = some (host, b)
/-- The host holds no copy of a line of the bytes (R56, R204). -/
def NotHeld (s : State) (off n : Nat) : Prop := ∀ x, off ≤ x → x < off + max n 1 → tblGet? s.hostLines (x / 128) = none
/-- A fresh packet meets bytes of a scratchpad that its launch may reach, none of them poisoned (R54). -/
def MeetsBytes (s : State) (k : Nat) (p : Packet) (ia off n : Nat) : Prop :=
  Meets s k p ∧ (∃ q, placeOf ia = .sp q off) ∧ (s.core p.dst).ownership p.lid p.gen off n = .ok ∧
  ((s.core p.dst).exEn = true → off + n ≤ 0x38000) ∧ (s.core p.dst).spPoison off n = false ∧ Memory.wf (s.core p.dst).sp = true
/-- Memory space, host memory, the requests and the other cores are as before. -/
def ElsewhereKept (s u : State) (p : Nat) : Prop := u.mem = s.mem ∧ u.host = s.host ∧ u.reqs = s.reqs ∧ ∀ q, q ≠ p → u.core q = s.core q
/-- An answer in the fabric names an outstanding request of a requester that is not fenced (R36, R37). -/
def Names (s : State) (k : Nat) (p : Packet) (r : Req) : Prop :=
  Arrives s k p ∧ (p.dst < 0x400 → (s.core p.dst).fenced = false) ∧
  (s.reqs.find? fun r => r.src == p.dst && r.dst == p.src && r.ns == p.ns && r.seq == p.seq && !r.parked) = some r
/-- The thread of a request: its slot at the requester. -/
def Asker (s : State) (r : Req) (slot : Nat) (t : Thread) : Prop := r.slot = some slot ∧ s.thread? r.src slot = some t

/-! ## The device's own steps -/

/-- Nothing but the core at a position differs. -/
def OnlyAt (s u : State) (p : Nat) : Prop := u = { s with cores := u.cores } ∧ ∀ q, q ≠ p → u.core q = s.core q
/-- The bits that a write of a control register of a core sets, for the registers that read back what is written (R6, R122, R134, R177, R219, R225). -/
def ctlMask (off : Nat) : Option Word :=
  match off with
  | 0x200 => some 0x7F#64
  | 0x300 => some 0xFFFFFFFF00000001#64
  | 0x500 => some 0x1FFFFFFFF#64
  | 0x600 => some 0x0000FFFF0003FFF8#64
  | 0x608 => some 0x0000007F0003FFF0#64
  | 0x700 => some 0x1F#64
  | 0x710 => some 0xFFFFFFFFFFFFFFFF#64
  | 0x718 => some 0xFFFFFFFFFFFFFFFF#64
  | 0x720 => some 0xFFFFFFFFFFFFFFFF#64
  | 0x728 => some 0xFFFFFFFFFFFFFFFF#64
  | 0x730 => some 0x00FFFFFFFFFFFFFF#64
  | 0x738 => some 0x00FFFFFFFFFFFFFF#64
  | 0x740 => some 0x3FFFFFFF#64
  | 0x750 => some 0x00FFFFFFFFFFF000#64
  | 0x758 => some 0xFFFF#64
  | 0x768 => some 0xFFFFFFFF#64
  | _ => none
/-- Firmware takes a message of the control network out. -/
def TakesCtl (s u : State) (m : CtlMsg) : Prop := m ∈ s.ctl ∧ u.ctl = s.ctl.erase m
/-- Every thread of a core is held: none runs, none sleeps (R118). -/
def AllHeld (s : State) (p : Nat) : Prop := ∀ k t, s.thread? p k = some t → t.run ≠ .running ∧ ∀ w, t.run ≠ .sleeping w
/-- A halt takes no time at a core that is not halted, whose basin keeps its point and none of whose groups is being stopped (R14, R118; log entry 15). -/
def HaltsAtOnce (s : State) (p : Nat) : Prop :=
  s.stopLag = 0 ∧ (s.core p).halted = false ∧ s.changing p = false ∧ ∀ g ∈ (s.core p).groups, g.lag = none
/-- Refusals in a row of a flit at a link and plane (R39). -/
def refusals (s : State) (b : Nat) (p : Packet) : Nat :=
  match tblGet? s.fw.replays b with
  | some (q, n) => if q = p.plainly then n else 0
  | none => 0
/-- The one flit of a plane that stands at the far end of a link (R30). -/
def OnLink (s : State) (p : Nat) (d : Dir) (plane : Nat) (x : Packet) : Prop :=
  (s.net.filter fun k => k.body.plane == plane && k.onLink p (Dir.num d)) = [x]
/-- The drain of a reroute is over (R40): 60 µs have passed since the detection, or no mesh port has held a request, event or bulk flit for 64 handshakes and the routers have reported so. -/
def Drained (s : State) (reported : Bool) : Prop :=
  60000 ≤ (s.time - s.fw.rerouteAt).toNat ∨
    (reported = true ∧ 16 ≤ (s.time - s.fw.carriedAt).toNat ∧ ∀ x ∈ s.net, x.body.plane = 0 ∨ ∀ p d, x.spot ≠ .atPort p d)
/-- A router declares its output link dead (R40): it says so with the plane, the ports at both ends are dead, and the flits that stood on the link wait in replay
buffers; no packet is lost yet. -/
def LinkDies (s u : State) (p : Nat) (d : Dir) (plane : Nat) : Prop :=
  u = { s with net := u.net, ctl := s.ctl ++ [.linkDead p d plane], fw := u.fw } ∧
  u.fw = { s.fw with deadLinks := s.fw.deadLinks ++ [(p, Dir.num d)], deadAt := s.time, buffers := u.fw.buffers } ∧
  portDead u.fw.deadLinks p (Dir.num d) = true ∧ portDead u.fw.deadLinks (hop p (Dir.num d)) ((Dir.num d + 2) % 4) = true ∧
  (∀ x ∈ s.net, x.onLink p (Dir.num d) = true → x ∈ tblGetD u.fw.buffers ((p * 4 + Dir.num d) * 4 + x.body.plane) []) ∧
  ∀ x ∈ u.net, x ∈ s.net ∧ x.onLink p (Dir.num d) = false
/-- The next entry of the scrub log lies in pages that are mapped, none of whose lines the host holds (R61, R67, R204). -/
def ScrubStored (s : State) : Prop := s.hostLines = [] ∧ s.addrMapped (ringAddr s.fw.scrubBase s.fw.scrubHead s.fw.scrubSlots 32) 32 = true
/-- One event of a class has been counted and logged (R67). -/
def Scrubbed (s u : State) (i : Nat) : Prop :=
  u.fw.scrubHead = s.fw.scrubHead + 1 ∧ u.fw.scrubEvents.toList[i]? = (s.fw.scrubEvents.toList[i]?).map (· + 1)
/-- The message is one of a counter latch. -/
def isLatch : CtlMsg → Bool
  | .gridLatch _ _ => true
  | _ => false
/-- The message pauses injection. -/
def isPause : CtlMsg → Bool
  | .injPause _ => true
  | _ => false
/-- A watershed value is published: GVT does not fall, it takes the round's bound where that is lower than the largest value and higher, and every active
core reads it with its round (R131, R133). -/
def Publishes (s u : State) (r : WsRound) (forced : Bool) : Prop :=
  let b := if r.ms.toNat < r.l.toNat then r.ms else r.l
  u.fw.gvt = (if b ≠ 0xFFFFFFFF#32 ∧ s.fw.gvt.toNat < b.toNat then b else s.fw.gvt) ∧ u.fw.wsRound = r.k ∧ u.fw.wsCur = none ∧ u.fw.wsPub = s.time ∧
  u.fw.wsForced = (s.fw.wsForced || forced) ∧ ∀ p, p < 1024 → s.active p = true → (u.core p).gvt = u.fw.gvt ∧ (u.core p).gvtRound = BitVec.ofNat 32 r.k


/-! ## Resets, power and commands -/

/-- A cold reset of a kind has begun (R19, R20): step 0, nothing runs, memory and scratchpads are zero; the host's memory, the fuses and the life cycle stay. -/
def ColdReset (s u : State) (kind : ResetKind) : Prop :=
  u.time = 0#64 ∧ u.cores = [] ∧ u.reqs = [] ∧ u.net = [] ∧ u.ctl = [] ∧ u.launches = [] ∧ u.mem = [] ∧ u.bad = [] ∧ u.host = s.host ∧ u.fw.queues = [] ∧
  u.fw.phase = 0 ∧ u.fw.ready = false ∧ u.fw.fail = false ∧ u.fw.linkUp = false ∧ u.fw.last = kind ∧ u.fw.fused = s.fw.fused ∧ u.fw.lifeCycle = s.fw.lifeCycle ∧
  u.fw.features = 0#6 ∧ u.fw.patchv = 0 ∧ u.fw.quarantined = []
/-- A warm reset has begun (R19, R84): step 3, nothing runs, memory and scratchpads are zero, the time base goes on; a queue of host memory takes its
pointers from its submit line, and one in device memory is gone. -/
def WarmReset (s u : State) : Prop :=
  u.time = s.time ∧ u.cores = [] ∧ u.reqs = [] ∧ u.net = [] ∧ u.ctl = [] ∧ u.launches = [] ∧ u.mem = [] ∧ u.bad = [] ∧
  u.fw.phase = 3 ∧ u.fw.ready = false ∧ u.fw.fail = false ∧ u.fw.last = .warm ∧ u.fw.fused = s.fw.fused ∧ u.fw.quarantined = s.fw.quarantined ∧
  u.fw.resets = s.fw.resets ∧ u.fw.features = 0#6 ∧
  (tblWf s.fw.queues = true → ∀ q v, tblGet? s.fw.queues q = some v →
    (v.inDevice = false → (u.queue q).state = 1 ∧ (u.queue q).err = 0 ∧ (u.queue q).rp = natOfBytes (s.fwLoad v.sub 8) ∧ (u.queue q).cwp = natOfBytes (s.fwLoad (v.sub + 8#64) 8) ∧
      (u.queue q).pending = [] ∧ (u.queue q).base = v.base ∧ (u.queue q).en = v.en) ∧
    (v.inDevice = true → (q ≠ 0 → tblGet? u.fw.queues q = none) ∧ (q = 0 → (u.queue q).en = false)))
/-- A warm reset may begin (R21). -/
def MayWarm (s : State) : Prop := s.fw.inputGood = true ∧ s.fw.shutdown = false ∧ s.fw.linkUp = true ∧ (3 ≤ s.fw.phase ∨ s.fw.fail = true)
/-- The head entry of a queue may begin, passes the checks of R85 and R87, and has an OPC. -/
def Heads (s : State) (q i : Nat) (e : List Byte) (opc : Nat) : Prop := s.mayBegin q = some (i, e) ∧ entOpc e = opc ∧ s.badEntry q e = none
/-- The command of an entry. -/
def headRef (q i : Nat) (e : List Byte) : CmdRef := { q := q, index := i, tag := entTag e, opc := entOpc e, nocpl := entNocpl e }
/-- The state in which the head entry of a queue has begun. -/
def begun (s : State) (q i : Nat) (e : List Byte) : State :=
  let s1 := s.modQueue q fun v => { v with pending := v.pending.tail, begun := v.begun ++ [headRef q i e] }
  { s1 with fw := { s1.fw with lastServed := tblSet s.fw.lastServed (s1.queue q).prio q } }
/-- The head entry completes with a status and nothing else happens. -/
def Ends (s : State) (q i : Nat) (e : List Byte) (o : Out) (status : Nat) : Prop := o = .next ((begun s q i e).finishCmd (headRef q i e) status)

/-- A get form fills its buffer (R92): the buffer's checks, the header, and a content. -/
def Fills (s : State) (q i : Nat) (e : List Byte) (o : Out) (buf : Word) (item len : Nat) (good : List Byte → Prop) : Prop :=
  (buf.toNat % 64 ≠ 0 ∨ s.addrOk buf len = false → Ends s q i e o 0x03) ∧
  (buf.toNat % 64 = 0 → s.addrOk buf len = true → s.addrMapped buf len = false → Ends s q i e o 0x0B) ∧
  (buf.toNat % 64 = 0 → s.addrOk buf len = true → s.addrMapped buf len = true →
    ∃ r, o = .next (((begun s q i e).fwStore buf r).finishCmd (headRef q i e) 0) ∧ r.length = len ∧ entNat r 0 1 = item ∧ entNat r 1 3 = 0 ∧ entNat r 4 4 = len ∧
      entWord r 8 = s.time ∧ good r)
/-- The head entry completes OK in a state. -/
def EndsIn (q i : Nat) (e : List Byte) (o : Out) (good : State → Prop) : Prop := ∃ v, o = .next (v.finishCmd (headRef q i e) 0) ∧ good v

/-- The cores of a launch's rectangle stand under it, each with its logical number (R105). -/
def OnItsCores (u : State) (l : Launch) : Prop := ∀ (n p : Nat), l.map[n]? = some p → l.inRect p = true → (u.core p).lid = l.lid ∧ (u.core p).lcore = n
/-- A halt request is on its way to every active core of a launch's rectangle (R118). -/
def HaltsSent (s u : State) (l : Launch) : Prop := ∀ p, p < 1024 → l.inRect p = true → s.active p = true → CtlMsg.write p 0x220 1#64 ∈ u.ctl
/-- A launch has ended with a status: it is no longer live, its cores are free and its LAUNCH completes (R89, R113). -/
def LaunchEnds (s v : State) (l : Launch) : Prop :=
  v.launch? l.lid = none ∧ (∀ p, (s.core p).lid = l.lid → (v.core p).lid = 0 ∧ (v.core p).groups = [] ∧ (v.core p).threads = [] ∧ records (v.core p) = [])
/-- Lost and run counts of a launch as INFO1 (R89). -/
def countsOf (l : Launch) : Word := BitVec.ofNat 64 (l.lost % 2 ^ 32 + l.ran % 2 ^ 32 * 2 ^ 32)
/-- Live launches have numbers of their own, none of them 0. -/
def LidsApart (s : State) : Prop := (s.launches.map (·.lid)).Nodup ∧ ∀ l ∈ s.launches, l.lid ≠ 0

/-- A DEBUG command names a group slot on a core of a live launch, with its feature open (R89). -/
def Names4 (s : State) (q i : Nat) (e : List Byte) (sub feat : Nat) (l : Launch) (p : Nat) : Prop :=
  Heads s q i e 0x0F ∧ entSub e = sub ∧ s.feature feat = true ∧ s.launch? (entNat e 24 4) = some l ∧ l.posOfLogical (entNat e 28 2) = some p ∧ l.inRect p = true
/-- The group of a core that a DEBUG command names by its lowest slot. -/
def TargetGroup (s : State) (p : Nat) (l : Launch) (e : List Byte) (g : Group) : Prop :=
  (s.core p).groups.find? (fun g => g.lowSlot == entNat e 30 1 && g.lid == l.lid) = some g ∧ (s.core p).group? g.gid = some g
/-- The tables of the cores and their threads are in their canonical form. -/
def TablesWf (s : State) : Prop := tblWf s.cores = true ∧ ∀ e ∈ s.cores, tblWf e.2.threads = true
/-- Every thread of a group on its own core that ran or slept is stopped at its pc (R218, R221). -/
def GroupHeld (s v : State) (p : Nat) (g : Group) : Prop :=
  (∃ g', (v.core p).group? g.gid = some g' ∧ g'.stopped ≠ none) ∧
  ∀ k t, s.thread? p k = some t → t.home = none → t.group = g.gid → t.run = .running →
    ∃ t', v.thread? p k = some t' ∧ t'.run = .stopped ∧ t'.pc = t.pc ∧ t'.x = t.x ∧ t'.p = t.p ∧ t'.status = t.status

/-- Quotient and remainder (R241). -/
def idiv {w : Nat} (a b : BitVec w) (signed : Bool) : BitVec w × BitVec w :=
  if b = 0#w then (BitVec.allOnes w, a)
  else if signed = true ∧ a = BitVec.intMin w ∧ b = BitVec.allOnes w then (a, 0#w)
  else
    let x : Int := if signed then a.toInt else a.toNat
    let y : Int := if signed then b.toInt else b.toNat
    (BitVec.ofInt w (x.tdiv y), BitVec.ofInt w (x - x.tdiv y * y))
end Sys2Proof.Claims

namespace Sys2Proof
open Sys2Proof.Machine

/-- The instruction has an encoding: it is not a step of the device. -/
def Instr.encoded : Instr → Bool
  | .powerGood => false
  | .mrstnPulse => false
  | .coolantFlowLoss => false
  | .resetStepComplete => false
  | .resetStepOverrun _ => false
  | .devctlWarmWrite => false
  | .powerSample _ => false
  | .powerStepUp _ => false
  | .thermalStepUp _ => false
  | .clockPointChangeEnd _ => false
  | .ptpSyncMessage _ _ _ => false
  | .ptpLockLoss _ => false
  | .ptpLockTimeout _ => false
  | .starveAssert _ _ => false
  | .linkReplay _ _ _ _ => false
  | .linkHandshakeTimeout _ _ => false
  | .linkTrainingLoss _ _ => false
  | .linkDead _ => false
  | .rerouteDrainEnd _ => false
  | .injPause _ => false
  | .injResume _ => false
  | .lostNotice _ => false
  | .read _ => false
  | .write _ => false
  | .atomicWithReturn _ => false
  | .reduction _ => false
  | .taggedOperation _ => false
  | .exchangeStore _ => false
  | .dependenceDecrement _ => false
  | .matrixCommand _ => false
  | .delegatedAtomic _ => false
  | .bulkReadRequest _ => false
  | .waitWithdrawal _ => false
  | .event _ => false
  | .stepModeNeighbourTransfer _ => false
  | .replyWithData _ => false
  | .acknowledgement _ => false
  | .spaceNotice _ => false
  | .negativeAcknowledgement _ => false
  | .forwardedRequest _ => false
  | .probe _ => false
  | .probeReply _ => false
  | .debugAccess _ => false
  | .migrationRefusal _ => false
  | .bulkWrite _ => false
  | .bulkReadData _ => false
  | .threadContext _ => false
  | .retryTimeout _ => false
  | .busyBackoffExpiry _ => false
  | .waitResend _ => false
  | .peerNotice _ _ => false
  | .peerWindowWrite _ _ => false
  | .stealReq _ => false
  | .stealReply _ => false
  | .shoot _ => false
  | .shootAck _ => false
  | .stop _ => false
  | .stopAck _ => false
  | .ctrlWrite _ => false
  | .ctrlRead _ => false
  | .ctrlData _ => false
  | .gridLatch _ => false
  | .counterGridTimer => false
  | .barrierTreeRelease => false
  | .xinvWrite _ => false
  | .xinvDropComplete => false
  | .patrolScrub _ _ _ => false
  | .submitLineUpdate _ => false
  | .submitLinePoll => false
  | .aqctlEnSet => false
  | .aqctlEnClear => false
  | .qctlWrite _ _ => false
  | .nop _ => false
  | .launch _ => false
  | .cancel _ => false
  | .preempt _ => false
  | .resume _ => false
  | .lease _ => false
  | .unlease _ => false
  | .copy _ => false
  | .fillCommand _ => false
  | .signalWrite _ => false
  | .signalAdd _ => false
  | .wait _ => false
  | .waitTimeout _ => false
  | .queryDevice _ => false
  | .queryClockPoints _ => false
  | .querySetCaps _ => false
  | .queryCounterGrid _ => false
  | .querySetCounterGrid _ => false
  | .queryScrub _ => false
  | .querySetScrub _ => false
  | .queryQueue _ => false
  | .queryQueueDefine _ => false
  | .queryQueueDelete _ => false
  | .queryQueueRestart _ => false
  | .queryPeers _ => false
  | .queryBootChallenge _ => false
  | .queryFault _ => false
  | .queryClearFault _ => false
  | .queryCtlRanges _ => false
  | .queryRectangles _ => false
  | .queryMediaStats _ => false
  | .rectDefine _ => false
  | .rectDelete _ => false
  | .recast _ => false
  | .recastCoreDrained _ => false
  | .mediaOpen _ => false
  | .mediaClose _ => false
  | .mediaStats _ => false
  | .mediaPtp _ => false
  | .debugToken _ => false
  | .debugStop _ => false
  | .debugGo _ => false
  | .debugStep _ => false
  | .debugStepEnd _ _ => false
  | .debugDump _ => false
  | .attest _ => false
  | .resetWarm _ => false
  | .resetWithImage _ => false
  | .resetWithPatch _ => false
  | .launchEndSweep => false
  | .waitingLaunchStart _ => false
  | .evictedLaunchResume _ => false
  | .saveImageFinal _ => false
  | .haltRequest _ => false
  | .groupStart _ => false
  | .dequeRefill _ => false
  | .stealRound _ => false
  | .stealBackoffExpiry _ => false
  | .watershedRound => false
  | .watershedRereduce => false
  | .watershedForced => false
  | .gangReady _ _ _ _ => false
  | .gangEntries _ _ => false
  | .gangEntriesAck _ _ => false
  | .gangGo _ => false
  | .gangPlacementTimeout _ => false
  | .gangForwardedCommand _ _ => false
  | .detach _ _ => false
  | .checkClose _ => false
  | .containmentReport _ => false
  | .mediaPacket _ => false
  | .frameDeadline _ _ => false
  | .stallTimerExpiry _ => false
  | .inboxReservationLapse _ => false
  | .refusalRetryExpiry _ _ => false
  | .inbctlWrite _ _ => false
  | .inbctlApply _ => false
  | .l1ctlInv _ => false
  | .daleEntryAgeFlush _ _ => false
  | .watchdogExpiry _ _ => false
  | .wdctlWrite _ _ => false
  | .trcctlWrite _ _ => false
  | .wfeTimeout _ _ => false
  | .registerWrite _ _ => false
  | .inputPowerLoss => false
  | .unassignedEncoding _ _ => false
  | .vectorCommandComplete _ _ => false
  | .matrixStepBoundary _ => false
  | .gangBarrierRelease _ => false
  | .waitConditionMet _ => false
  | _ => true

end Sys2Proof
end

