-- ==== Sys2Proof/Certificates/Slice0/Obligations.lean ====
section
/-! DEFINITION. The statements for the provers, one def per obligation; OBLIGATIONS.json lists them. -/
open Sys2Proof Sys2Proof.Machine Sys2Proof.Claims

/-- Decoding inverts encoding (R261 to R274): every well-formed instruction that has an encoding is decoded from its own bits. -/
def Obligations.DecodeInvertsEncode : Prop :=
  ∀ i : Instr, i.encoded = true → i.wf = true → decodeWord (encode i) = .ok i

/-- Encoding inverts decoding (R261, R264, R265): what the decoder accepts is well-formed, and its encoding is the bits that were
decoded, so no bit of a word is ignored and no two words mean one instruction. -/
def Obligations.EncodeInvertsDecode : Prop :=
  ∀ (w : BitVec 32) (i : Instr), decodeWord w = .ok i →
    i.encoded = true ∧ i.wf = true ∧ encode i = (if w.getLsbD 0 then w else (w.setWidth 16).setWidth 32)

/-- Words written out from the spec's encodings and worked examples decode to the instructions they stand for. -/
def Obligations.WorkedWordsDecode : Prop :=
  decodeTableWord 32 0x00A09401 = some (.add 8#5 9#5 10#5) ∧
  decodeTableWord 32 0x00106303 = some (.addi 6#5 6#5 1#12) ∧
  decodeTableWord 32 0xE1A14E0D = some (.fmadd .s 28#5 20#5 26#5 28#5) ∧
  decodeTableWord 32 0x1911020B = some (.fcmpLt .s 4#3 16#5 17#5) ∧
  decodeTableWord 32 0xFE908CB9 = some (.beq 8#5 9#5 4089#12) ∧
  decodeTableWord 32 0x01066423 = some (.ldB 8#5 6#5 16#12) ∧
  decodeTableWord 32 0x00668027 = some (.sd 8#5 6#5 0#12) ∧
  decodeTableWord 32 0x000292A9 = some (.take 5#5 9#5 0#12) ∧
  decodeTableWord 32 0x41D73F31 = some (.amoadd .d .d 30#5 19#5 29#5) ∧
  decodeTableWord 32 0x00200037 = some (.fence .v) ∧
  decodeTableWord 32 0x045431C1 = some (.vadd .i32 3#5 3#5 5#5 2#3) ∧
  decodeTableWord 16 0x1462 = some (.vaddI32x16 0#1 3#5 5#5) ∧
  decodeTableWord 32 0x329082E1 = some (.tmma 1#2 5#5 8#5 9#5 6#5) ∧
  decodeTableWord 32 0x01686679 = some (.fmt 0#1 2#3 13#4 0#4 12#4 12#4) ∧
  decodeTableWord 32 0x009082F1 = some (.evsend 5#5 8#5 9#5) ∧
  decodeTableWord 32 0x00025075 = some (.nsend .e 5#5) ∧
  decodeTableWord 32 0x008202FB = some (.csrr 8#12 5#5) ∧
  decodeTableWord 32 0x0000007B = some .ecall ∧
  decodeTableWord 16 0x0000 = none

/-- A step that the agenda gives to a thread runs the instruction that the thread's boundary fetches: exec of what the fetched bits decode to, after which
everything settles; bits that decode to nothing run the step that raises illegal-instruction (R265). The boundary of a running thread with nothing due before
the fetch latches the bits that the fetch of one or two halfwords gives, the second one where bit 0 of the first is 1 (R210, R260).
Clauses that rest on the model's choice: log entry 1. -/
def Obligations.StepRunsDecodedInstruction : Prop :=
  (∀ (s s1 : State) (p k : Nat) (rest : List Agenda) (w : BitVec 32),
    s.agenda = .run p k :: rest →
    boundary { ({ s with agenda := rest }.modCore p fun c => c.issuedBy k []) with pos := p, slot := k } = .issue s1 w →
    (∀ i, decodeWord w = .ok i → step s = settled (exec i s1)) ∧
    (decodeWord w = .error .unassigned →
      step s = settled (exec (.unassignedEncoding (if w.getLsbD 0 then w else (w.setWidth 16).setWidth 32) false) s1)) ∧
    (decodeWord w = .error .nonzeroField →
      step s = settled (exec (.unassignedEncoding (if w.getLsbD 0 then w else (w.setWidth 16).setWidth 32) true) s1))) ∧
  (∀ (s : State) (t : Thread) (g : Group) (l : Launch) (lo hi : BitVec 16),
    s.cur? = some t → Runs s t g l → t.run = .running → (s.core s.pos).fenced = false → (s.core s.pos).halted = false → s.changing s.pos = false →
    t.ss = false → s.digests g = false → t.dbgTrap = none → t.held = none → t.pnDue = none → t.bpPass = some t.pc →
    fetchHalf s t g l t.pc = .got lo →
    (lo.getLsbD 0 = false → boundary s = .issue (s.setCur { t with ir := lo.setWidth 32 }) (lo.setWidth 32)) ∧
    (lo.getLsbD 0 = true → fetchHalf s t g l (t.pc + 2#64) = .got hi →
      boundary s = .issue (s.setCur { t with ir := hi ++ lo }) (hi ++ lo)))

/-- Register forms (R296 with R241 and R242), word forms (R297), immediate forms, `lui` and `auipc` (R298, R299): each completes, writes the value of its
row to rd, and changes nothing but the thread's pc.
Clauses that rest on the model's choice: log entry 16. -/
def Obligations.IntegerFormsWriteTheirValue : Prop :=
  ∀ (i : Instr) (s : State) (t : Thread) (rs : List Reg) (d : Reg) (v : Word),
    registerForm i t = some (rs, d, v) ∨ wordForm i t = some (rs, d, v) ∨ immediateForm i t = some (rs, d, v) →
    Issues s t rs → Retires s t (exec i s) (t.pc + 4#64) (some (d, v)) none 0#8

/-- Predicate comparisons and logic (R305, R306), with `pmov` between predicates and an x register. -/
def Obligations.PredicateFormsWriteTheirValue : Prop :=
  (∀ (i : Instr) (s : State) (t : Thread) (rs : List Reg) (d : Pred) (v : Bool),
    predicateForm i t = some (rs, d, v) → Issues s t rs → Retires s t (exec i s) (t.pc + 4#64) none (some (d, v)) 0#8) ∧
  (∀ (s : State) (t : Thread) (d : Reg), Issues s t [d] →
    Retires s t (exec (.pmovPack d) s) (t.pc + 4#64) (some (d, ((t.p ||| 1#8).setWidth 64))) none 0#8) ∧
  (∀ (s : State) (t : Thread) (a : Reg), Issues s t [a] →
    ∃ u t', exec (.pmovUnpack a) s = .next u ∧ OnlyThread s u ∧ u.cur? = some t' ∧ t'.pc = t.pc + 4#64 ∧ AfterX t t' none ∧
      (∀ k, t'.rp k = if k = 0#3 then true else (t.rx a).getLsbD k.toNat) ∧ AfterFlags t t' 0#8 ∧ KeepsControl t t' ∧ NoPrefix t')

/-- Minimum, maximum, sign injection, class (R301, R302) and the comparisons (R302): no format is taken. -/
def Obligations.CodeFormsAndComparisons : Prop :=
  (∀ (i : Instr) (s : State) (t : Thread) (rs : List Reg) (d : Reg) (r : Res),
    codeForm i t = some (rs, d, r) → Issues s t rs → Retires s t (exec i s) (t.pc + 4#64) (some (d, BitVec.ofNat 64 r.1)) none r.2) ∧
  (∀ (i : Instr) (s : State) (t : Thread) (rs : List Reg) (d : Pred) (v : Bool) (f : Flags),
    compareForm i t = some (rs, d, v, f) → Issues s t rs → Retires s t (exec i s) (t.pc + 4#64) none (some (d, v)) f)

/-- Scalar floating point that rounds (R295, R301, R304): the mode is RNE or the pending prefix's RM, and the flags accrue; and `fcvt` (R247, R303): to an
integer by rounding at the mode and saturating, the result extended by its own sign rule, from an integer or between formats by rounding. An integer
destination takes SAT too.
Clauses that rest on the model's choice: log entry 13. -/
def Obligations.RoundedFormsAndConversions : Prop :=
  (∀ (i : Instr) (s : State) (t : Thread) (rs : List Reg) (d : Reg) (r : Rm → Res) (w : BitVec 32),
    roundedForm i t = some (rs, d, r) → IssuesFmt s t rs pfxRm w →
    Retires s t (exec i s) (t.pc + 4#64) (some (d, BitVec.ofNat 64 (r (Rm.ofCode (w.extractLsb' 23 3))).1)) none
      (r (Rm.ofCode (w.extractLsb' 23 3))).2) ∧
  (∀ (dst src : CvtType) (n : Nat) (sg : Bool) (d a : Reg) (s : State) (t : Thread) (w : BitVec 32),
    cvtInt dst = some (n, sg) → cvtInt src = none → IssuesFmt s t [d, a] pfxRmSat w →
    Retires s t (exec (.fcvt dst src d a) s) (t.pc + 4#64)
      (some (d, BitVec.ofInt 64 (fpToInt (pRm w) n sg (fdec (cvtFF src) ((t.rx a).toNat % 2 ^ (cvtFF src).width))).1)) none
      (fpToInt (pRm w) n sg (fdec (cvtFF src) ((t.rx a).toNat % 2 ^ (cvtFF src).width))).2) ∧
  (∀ (dst src : CvtType) (n : Nat) (sg : Bool) (d a : Reg) (s : State) (t : Thread) (w : BitVec 32),
    cvtInt dst = none → cvtInt src = some (n, sg) → IssuesFmt s t [d, a] pfxRm w →
    Retires s t (exec (.fcvt dst src d a) s) (t.pc + 4#64)
      (some (d, BitVec.ofNat 64 (intToFp (cvtFF dst) (pRm w) (if sg then ((t.rx a).setWidth n).toInt else ((t.rx a).setWidth n).toNat)).1)) none
      (intToFp (cvtFF dst) (pRm w) (if sg then ((t.rx a).setWidth n).toInt else ((t.rx a).setWidth n).toNat)).2) ∧
  (∀ (dst src : CvtType) (d a : Reg) (s : State) (t : Thread) (w : BitVec 32),
    cvtInt dst = none → cvtInt src = none → IssuesFmt s t [d, a] pfxRm w →
    Retires s t (exec (.fcvt dst src d a) s) (t.pc + 4#64)
      (some (d, BitVec.ofNat 64 (fpToFp (cvtFF src) (cvtFF dst) (pRm w) ((t.rx a).toNat % 2 ^ (cvtFF src).width)).1)) none
      (fpToFp (cvtFF src) (cvtFF dst) (pRm w) ((t.rx a).toNat % 2 ^ (cvtFF src).width)).2)

/-- Branches and jumps (R307, R308): a taken branch goes to pc plus its even offset, another to the next instruction, and no register changes; a jump links
the address after it, and `jalr` reads its base before the link is written. With the trace of branches off nothing else changes. -/
def Obligations.BranchesAndJumpsGoWhereTheySay : Prop :=
  (∀ (i : Instr) (s : State) (t : Thread) (rs : List Reg) (taken : Bool) (n : BitVec 12),
    branchForm i t = some (rs, taken, n) → Issues s t rs → (s.core s.pos).trcctl.getLsbD 1 = false →
    Retires s t (exec i s) (if taken then t.pc + BitVec.ofInt 64 (2 * n.toInt) else t.pc + 4#64) none none 0#8) ∧
  (∀ (d : Reg) (n : BitVec 20) (s : State) (t : Thread), Issues s t [d] → (s.core s.pos).trcctl.getLsbD 1 = false →
    Retires s t (exec (.jal d n) s) (t.pc + BitVec.ofInt 64 (2 * n.toInt)) (some (d, t.pc + 4#64)) none 0#8) ∧
  (∀ (d a : Reg) (n : BitVec 12) (s : State) (t : Thread), Issues s t [d, a] → (s.core s.pos).trcctl.getLsbD 1 = false →
    Retires s t (exec (.jalr d a n) s) ((t.rx a + immOf n) &&& ~~~1#64) (some (d, t.pc + 4#64)) none 0#8)

/-- Trap entry (R208): ESTATUS, EPC, TCAUSE and TVAL are saved, TH is set, the prefix is cleared, pc goes to TVEC; nothing else changes. -/
def Obligations.TrapEntrySavesAndGoesToHandler : Prop :=
  ∀ (s : State) (p k : Nat) (t : Thread) (g : Group) (tr : Trap),
    HasHandler s p k t g → tr.code ≠ 0x05#8 → TookTrap s (s.takeTrap p k tr) p k t g tr

/-- A lease violation, a trap without a handler and a trap in a handler terminate the group (R208, R212): every thread of it halts, and the
termination holds the cause, the thread and its pc. -/
def Obligations.UnhandledTrapTerminatesGroup : Prop :=
  ∀ (s : State) (p k : Nat) (t : Thread) (g : Group) (tr : Trap),
    s.thread? p k = some t → s.groupOf p t = some g → t.home = none → g.check = none → g.dying = none →
    (tr.code = 0x05#8 ∨ g.tvec = 0#64 ∨ t.th = true) →
    let u := s.takeTrap p k tr
    (∃ g' d, u.groupOf p t = some g' ∧ g'.dying = some d ∧ d.code = tr.code ∧ d.thread = t.idx ∧ d.epc = t.pc ∧ d.tval = tr.tval ∧
      d.cls = (if tr.code = 0x05#8 then 1 else if t.th then 3 else 2)) ∧
    (∀ j t', u.thread? p j = some t' → t'.group = t.group → t'.home = none → t'.run ≠ .running ∧ ∀ w, t'.run ≠ .sleeping w) ∧
    u.mem = s.mem ∧ u.host = s.host ∧ u.reqs = s.reqs ∧ u.net = s.net ∧ u.fw = s.fw

/-- `ecall` and, with EBRK 0, `ebreak` take their traps (R395); an unassigned encoding takes illegal-instruction with the instruction's bits
(R211, R265).
Clauses that rest on the model's choice: log entry 26. -/
def Obligations.SystemCallsAndIllegalWordsTrap : Prop :=
  (∀ (s : State) (t : Thread) (g : Group), Issues s t [] → HasHandler s s.pos s.slot t g →
    ∃ u, exec .ecall s = .next u ∧ TookTrap s u s.pos s.slot t g { code := 0x0D#8, detail := 0#4, async := false, tval := 0#64 }) ∧
  (∀ (s : State) (t : Thread) (g : Group), Issues s t [] → HasHandler s s.pos s.slot t g → (s.core s.pos).dbgctl.getLsbD 4 = false →
    ∃ u, exec .ebreak s = .next u ∧ TookTrap s u s.pos s.slot t g { code := 0x0C#8, detail := 0#4, async := false, tval := 0#64 }) ∧
  (∀ (s : State) (t : Thread) (g : Group) (bits : BitVec 32) (nz : Bool), s.cur? = some t → HasHandler s s.pos s.slot t g →
    ∃ u, exec (.unassignedEncoding bits nz) s = .next u ∧
      TookTrap s u s.pos s.slot t g { code := 0x01#8, detail := if nz then 2#4 else 1#4, async := false, tval := bits.setWidth 64 })

/-- `tret` (R207, R209): STATUS becomes ESTATUS, its reserved bits reading zero and VBUSY the state of the context, and pc becomes EPC with bit 0 zero; outside
a handler it is illegal. -/
def Obligations.TretRestores : Prop :=
  ∀ (s : State) (t : Thread), Issues s t [] →
    (t.th = true → (s.core s.pos).trcctl.getLsbD 2 = false →
      ∃ u t', exec .tret s = .next u ∧ OnlyThread s u ∧ u.cur? = some t' ∧ t'.status = t.estatus &&& 0xFFFFFFFF0000001D#64 ∧ t'.pc = t.epc &&& ~~~1#64 ∧ t'.estatus = t.estatus ∧
        t'.epc = t.epc ∧ t'.tcause = t.tcause ∧ t'.tval = t.tval ∧ t'.x = t.x ∧ t'.p = t.p ∧ t'.fflags = t.fflags ∧ t'.tscratch = t.tscratch) ∧
    (t.th = false → exec .tret s = .next (s.trap { code := 0x01#8, detail := 4#4, tval := t.ir.setWidth 64 }))

/-- `fmt` (R257): its own word becomes the pending prefix, PP is set, and nothing else changes; a prefix already pending is misused by it. -/
def Obligations.FmtSetsThePrefix : Prop :=
  ∀ (s : State) (t : Thread) (sat : BitVec 1) (rm : BitVec 3) (fd fc fb fa : BitVec 4),
    s.cur? = some t →
    (t.pp = false → rm.toNat ≤ 5 →
      ∃ u t', exec (.fmt sat rm fd fc fb fa) s = .next u ∧ OnlyThread s u ∧ u.cur? = some t' ∧ t'.pc = t.pc + 4#64 ∧ t'.pp = true ∧
        t'.pfmt = encode (.fmt sat rm fd fc fb fa) ∧ AfterX t t' none ∧ AfterP t t' none ∧ t'.fflags = t.fflags ∧ KeepsControl t t') ∧
    (t.pp = true → exec (.fmt sat rm fd fc fb fa) s = .next (s.trap { code := 0x14#8, tval := t.ir.setWidth 64 }))

/-- `csrr` (R207, R276, R398): rd gets the register's value. -/
def Obligations.CsrReadGivesTheRegister : Prop :=
  (∀ (s : State) (t : Thread) (g : Group) (l : Launch) (c : BitVec 12) (d : Reg),
    CsrIssues s t [d] c false → Runs s t g l →
    Retires s t (exec (.csrr c d) s) (t.pc + 4#64) (some (d, s.csrGet t g l c)) none 0#8) ∧
  (∀ (s : State) (t : Thread) (g : Group) (l : Launch),
    s.csrGet t g l 0x000#12 &&& ~~~2#64 = t.status &&& ~~~2#64 ∧ s.csrGet t g l 0x001#12 = t.estatus ∧ s.csrGet t g l 0x002#12 = t.epc ∧
    s.csrGet t g l 0x003#12 = t.tcause ∧ s.csrGet t g l 0x004#12 = t.tval ∧ s.csrGet t g l 0x005#12 = g.tvec ∧ s.csrGet t g l 0x006#12 = t.tscratch ∧
    s.csrGet t g l 0x007#12 = t.stklim ∧ (t.nomad = false → s.csrGet t g l 0x008#12 = t.fflags) ∧ s.csrGet t g l 0x010#12 = s.time ∧
    s.csrGet t g l 0x011#12 = (s.core s.pos).vtime.setWidth 64 ∧ s.csrGet t g l 0x012#12 = (s.core s.pos).tab4l ∧
    s.csrGet t g l 0x013#12 = (s.core s.pos).tab4h)

/-- `csrw`, `csrs` and `csrc` (R207, R398): the written fields of the one register named take the new value, and nothing else changes. -/
def Obligations.CsrWriteChangesItsRegister : Prop :=
  ∀ (i : Instr) (c : BitVec 12) (a : Reg) (f : Word → Word → Word) (s : State) (t : Thread) (g : Group) (l : Launch),
    csrWriteForm i = some (c, a, f) → CsrIssues s t [a] c true → Runs s t g l → t.home = none →
    let v := f (s.csrGet t g l c) (t.rx a)
    ∃ u t' g', exec i s = .next u ∧ OnlyCore s u ∧ u.cur? = some t' ∧ t'.pc = t.pc + 4#64 ∧ AfterX t t' none ∧ AfterP t t' none ∧
      u.groupOf s.pos t' = some g' ∧ g' = { g with tvec := if c = 5#12 then v &&& ~~~1#64 else g.tvec } ∧
      t'.status &&& 0x00000000FFFFFFFB#64 = (if c = 0#12 then (t.status &&& ~~~8#64) ||| (v &&& 8#64) else t.status) &&& 0x00000000FFFFFFFB#64 ∧
      t'.estatus = (if c = 1#12 then v else t.estatus) ∧ t'.epc = (if c = 2#12 then v &&& ~~~1#64 else t.epc) ∧
      t'.tcause = (if c = 3#12 then v &&& 0x3FFF#64 else t.tcause) ∧ t'.tval = (if c = 4#12 then v else t.tval) ∧
      t'.tscratch = (if c = 6#12 then v else t.tscratch) ∧ t'.stklim = (if c = 7#12 then v else t.stklim) ∧
      t'.fflags = (if c = 8#12 ∧ t.nomad = false then v &&& 0xFF#64 else t.fflags) ∧
      (u.core s.pos).tab4l = (if c = 0x12#12 then v else (s.core s.pos).tab4l) ∧ (u.core s.pos).tab4h = (if c = 0x13#12 then v else (s.core s.pos).tab4h) ∧
      (u.core s.pos).sp = (s.core s.pos).sp ∧ (u.core s.pos).vtime = (s.core s.pos).vtime

/-- `wfe` puts its thread to sleep (R396); `halt` stops the group where RUN is open, and ends it with CLASS 2 where it is closed (R397). -/
def Obligations.WfeSleepsAndHaltStops : Prop :=
  (∀ (s : State) (t : Thread), Issues s t [] →
    ∃ u, exec .wfe s = .next u ∧ OnlyThread s u ∧ u.cur? = some { t with run := .sleeping (.wfe s.time) }) ∧
  (∀ (s : State) (t : Thread) (g : Group), Issues s t [] → s.groupOf s.pos t = some g → t.home = none → g.dying = none → s.feature 0 = false →
    ∃ u g' d, exec .halt s = .next u ∧ u.groupOf s.pos t = some g' ∧ g'.dying = some d ∧ d.cls = 2 ∧ d.epc = t.pc ∧ d.thread = t.idx ∧
      ∃ t', u.cur? = some t' ∧ t'.pc = t.pc ∧ t'.run ≠ .running) ∧
  (∀ (s : State) (t : Thread) (g : Group), Issues s t [] → s.groupOf s.pos t = some g → t.home = none → g.dying = none → s.feature 0 = true →
    t.run = .running →
    ∃ u g' t', exec .halt s = .next u ∧ u.groupOf s.pos t = some g' ∧ g'.stopped = some s.fw.nextTrig ∧ u.cur? = some t' ∧ t'.pc = t.pc + 4#64 ∧
      t'.run = .stopped ∧ t'.x = t.x)

/-- Loads (R158, R164, R183, R310): of the core's own scratchpad, rd gets the bytes extended by the form's rule and nothing else changes; of anything else
through the L1 where the form lets it and a line holds the address, and by a request to the home otherwise, which leaves rd pending.
Clauses that rest on the model's choice: log entry 16. -/
def Obligations.LoadsReadTheirBytesOrAsk : Prop :=
  (∀ (i : Instr) (s : State) (t : Thread) (g : Group) (l : Launch) (n : Nat) (sg via : Bool) (d a : Reg) (k : BitVec 12) (ia off : Nat),
    loadForm i = some (n, sg, via, d, a, k) → Issues s t [d, a] →
    Reaches s t g l { va := t.rx a + immOf k, n := n, align := n, r := true, w := false, kind := .load, stack := a == 2#5 } ia true →
    OwnBytes s l ia off n → (s.core s.pos).spPoison off n = false →
    Retires s t (exec i s) (t.pc + 4#64) (some (d, valueOf n sg (memRead (s.core s.pos).sp ((s.core s.pos).spPhys off) n))) none 0#8) ∧
  (∀ (i : Instr) (s : State) (t : Thread) (g : Group) (l : Launch) (n : Nat) (sg via : Bool) (d a : Reg) (k : BitVec 12) (ia : Nat),
    loadForm i = some (n, sg, via, d, a, k) → Issues s t [d, a] →
    Reaches s t g l { va := t.rx a + immOf k, n := n, align := n, r := true, w := false, kind := .load, stack := a == 2#5 } ia true →
    ownPlace s.pos ia = false →
    (via = true → cacheable ia = true → ∀ e, (s.core s.pos).l1.find? (fun e => e.1 == ia / 128) = some e →
      ∃ u t', exec i s = .next u ∧ u.cur? = some t' ∧ GoesOn t t' (some (d, valueOf n sg ((e.2.1.drop (ia % 128)).take n))) ∧ OutsideKept s u ∧
        u.reqs = s.reqs ∧ u.net = s.net ∧ (u.core s.pos).sp = (s.core s.pos).sp) ∧
    (via = true → cacheable ia = true → (s.core s.pos).l1.find? (fun e => e.1 == ia / 128) = none →
      ∃ use, SentOn s t (exec i s) (s.route l.lid ia).node (.bulkRead ((s.route l.lid ia).ia / 128 * 128) 128) use (some d)) ∧
    ((via = false ∨ cacheable ia = false) →
      ∃ use, SentOn s t (exec i s) (s.route l.lid ia).node (.read (s.route l.lid ia).ia n) use (some d)))

/-- Stores (R311): to the core's own scratchpad at issue, where the stored bytes become the low bytes of rs2 and every other byte of every memory
is as before; elsewhere by one write to the home. -/
def Obligations.StoresWriteTheirBytes : Prop :=
  ∀ (i : Instr) (s : State) (t : Thread) (g : Group) (l : Launch) (n : Nat) (a b : Reg) (k : BitVec 12) (ia : Nat),
    storeForm i = some (n, a, b, k) → Issues s t [a, b] →
    Reaches s t g l { va := t.rx a + immOf k, n := n, align := n, r := false, w := true, kind := .store, stack := a == 2#5 } ia false →
    (∀ off, OwnBytes s l ia off n → Memory.wf (s.core s.pos).sp = true →
      ∃ u t', exec i s = .next u ∧ u.cur? = some t' ∧ GoesOn t t' none ∧ OutsideKept s u ∧ u.net = s.net ∧
        natOfBytes (memRead (u.core s.pos).sp ((s.core s.pos).spPhys off) n) = (t.rx b).toNat % 2 ^ (8 * n) ∧
        OtherBytes (s.core s.pos) (u.core s.pos) off n ∧ (u.core s.pos).full = (s.core s.pos).full) ∧
    (ownPlace s.pos ia = false → SentOn s t (exec i s) (s.route l.lid ia).node (.write (s.route l.lid ia).ia (bytesOf (t.rx b) n) false) .store none)

/-- Atomics (R187, R316): at the core's own scratchpad rd gets the old value extended, and the bytes become the new value or stay where a `cas` does
not match; elsewhere one request goes to the home, with rd pending. -/
def Obligations.AtomicsExchangeWithMemory : Prop :=
  ∀ (i : Instr) (s : State) (t : Thread) (g : Group) (l : Launch) (f : Scope) (w : AtomWidth) (d a b : Reg) (new : Word → Option Word) (ia : Nat),
    atomicForm i t = some (f, w, d, a, b, new) → Issues s t [d, a, b] →
    Reaches s t g l { va := t.rx a, n := atomBytes w, align := atomBytes w, r := true, w := true, kind := .atomic } ia true →
    s.drained s.pos s.slot f = true →
    (∀ off, OwnBytes s l ia off (atomBytes w) → (s.core s.pos).spPoison off (atomBytes w) = false → Memory.wf (s.core s.pos).sp = true →
      let old := memRead (s.core s.pos).sp ((s.core s.pos).spPhys off) (atomBytes w)
      ∃ u t', exec i s = .next u ∧ u.cur? = some t' ∧ GoesOn t t' (some (d, valueOf (atomBytes w) (w == .w) old)) ∧ OutsideKept s u ∧ u.net = s.net ∧
        natOfBytes (memRead (u.core s.pos).sp ((s.core s.pos).spPhys off) (atomBytes w)) =
          (match new (wordOf old) with
            | some v => v.toNat % 2 ^ (8 * atomBytes w)
            | none => natOfBytes old) ∧
        OtherBytes (s.core s.pos) (u.core s.pos) off (atomBytes w)) ∧
    (ownPlace s.pos ia = false → ∃ body, SentOn s t (exec i s) (s.route l.lid ia).node body (.atomic d w) (some d) ∧
      body.ia? = some (s.route l.lid ia).ia)

/-- Reductions, delegated atomics and exchange stores (R193, R194, R315, R319, R320): performed at the own scratchpad, taken by the dale's reduction
unit, or sent as one request; none writes a register. -/
def Obligations.ReductionsAndExchangesSend : Prop :=
  (∀ (s : State) (t : Thread) (g : Group) (l : Launch) (o : RedOp) (f : Scope) (w : AtomWidth) (a b : Reg) (ia : Nat),
    Issues s t [a, b] → Reaches s t g l { va := t.rx a, n := atomBytes w, align := atomBytes w, r := false, w := true, kind := .reduce } ia false →
    (f ≠ .d → ownPlace s.pos ia = false →
      SentOn s t (exec (.red o f w a b) s) (s.route l.lid ia).node (.reduce (s.route l.lid ia).ia w o (atomTrunc w (t.rx b))) .store none) ∧
    (f ≠ .d → ∀ off, OwnBytes s l ia off (atomBytes w) → (s.core s.pos).spPoison off (atomBytes w) = false → Memory.wf (s.core s.pos).sp = true →
      ∃ u t', exec (.red o f w a b) s = .next u ∧ u.cur? = some t' ∧ GoesOn t t' none ∧ OutsideKept s u ∧ u.net = s.net ∧
        memRead (u.core s.pos).sp ((s.core s.pos).spPhys off) (atomBytes w) =
          bytesOf (amoWord w (redAmo o) (wordOf (memRead (s.core s.pos).sp ((s.core s.pos).spPhys off) (atomBytes w))) (atomTrunc w (t.rx b))) (atomBytes w) ∧
        OtherBytes (s.core s.pos) (u.core s.pos) off (atomBytes w)) ∧
    (f = .d → (∀ e ∈ s.dru, e.1 ≠ daleOf s.pos) →
      ∃ u t' e, exec (.red o f w a b) s = .next u ∧ u.cur? = some t' ∧ GoesOn t t' none ∧ u.mem = s.mem ∧ u.host = s.host ∧ u.net = s.net ∧
        u.dru = s.dru ++ [(daleOf s.pos, e)] ∧ e.ia = ia ∧ e.w = w ∧ e.op = o ∧ e.v = atomTrunc w (t.rx b) ∧ e.flushed = false)) ∧
  (∀ (s : State) (t : Thread) (g : Group) (l : Launch) (o : AmoOp) (w : AtomWidth) (a b c : Reg) (ia : Nat),
    Issues s t [a, b, c] → Reaches s t g l { va := t.rx a, n := atomBytes w, align := atomBytes w, r := true, w := true, kind := .ramo } ia false →
    SentOn s t (exec (.ramo o w a b c) s)
      (match placeOf ia with
        | .peer dv _ => s.egress dv
        | _ => agentNode 0 2)
      (.delegated ia w o (atomTrunc w (t.rx b)) ((t.rx c).setWidth 8)) .ramo none) ∧
  (∀ (s : State) (t : Thread) (g : Group) (l : Launch) (a b : Reg) (k : BitVec 12) (ia : Nat),
    Issues s t [a, b] → Reaches s t g l { va := t.rx a + immOf k, n := 8, align := 8, r := false, w := true, kind := .xst } ia false →
    SentOn s t (exec (.xst a b k) s) (s.route l.lid ia).node (.xst (s.route l.lid ia).ia (t.rx b)) .store none)

/-- Tagged operations on the core's own scratchpad (R159, R160, R314): one that finds the tag it needs has its effect on the word, the tag and the
destination while no word waits; one that does not puts its thread to sleep with an entry in the core's wait table, unless the table is full, when nothing
happens. -/
def Obligations.TaggedOperationsUseTheTagOrWait : Prop :=
  (∀ (s : State) (t : Thread) (g : Group) (l : Launch) (d a b : Reg) (pd : Pred) (k : BitVec 12) (ia off : Nat),
    Reaches s t g l { va := t.rx a + immOf k, n := 8, align := 8, r := true, w := true, kind := .tagged } ia true →
    OwnBytes s l ia off 8 → (s.core s.pos).waits = [] → Memory.wf (s.core s.pos).sp = true → s.cur? = some t → t.run = .running →
    let w := (s.core s.pos).spPhys off / 8
    let v := wordOf (memRead (s.core s.pos).sp (8 * w) 8)
    let isFull := w ∈ (s.core s.pos).full
    let After (i : Instr) (dst : Option (Reg × Word)) (full : Prop) (word : Word) : Prop :=
      ∃ u t', exec i s = .next u ∧ u.cur? = some t' ∧ GoesOn t t' dst ∧ OutsideKept s u ∧ u.net = s.net ∧ (w ∈ (u.core s.pos).full ↔ full) ∧
        (∀ x, x ≠ w → (x ∈ (u.core s.pos).full ↔ x ∈ (s.core s.pos).full)) ∧ wordOf (memRead (u.core s.pos).sp (8 * w) 8) = word ∧
        ∀ x, (x < 8 * w ∨ 8 * w + 8 ≤ x) → memGet (u.core s.pos).sp x = memGet (s.core s.pos).sp x
    w ∉ (s.core s.pos).poisoned →
    (Issues s t [d, a] → isFull → After (.lwf d a k) (some (d, v)) True v) ∧
    (Issues s t [d, a] → isFull → (s.core s.pos).full.Pairwise (· < ·) → After (.take d a k) (some (d, v)) False v) ∧
    (Issues s t [a] → (s.core s.pos).full.Pairwise (· < ·) → After (.empty a k) none False v) ∧
    (Issues s t [a, b] → Quiet s t → ¬ isFull → After (.put a b k) none True (t.rx b)) ∧
    (Issues s t [a, b] → Quiet s t → After (.fill a b k) none True (t.rx b)) ∧
    (Issues s t [a] → ∃ u t', exec (.tagq pd a k) s = .next u ∧ u.cur? = some t' ∧ AfterX t t' none ∧
      AfterP t t' (some (pd, (s.core s.pos).full.contains w)) ∧ t'.pc = t.pc + 4#64 ∧ KeepsControl t t' ∧ OutsideKept s u ∧
      (u.core s.pos).full = (s.core s.pos).full ∧ (u.core s.pos).sp = (s.core s.pos).sp)) ∧
  (∀ (s : State) (t : Thread) (g : Group) (l : Launch) (d a b : Reg) (k : BitVec 12) (ia off : Nat),
    Reaches s t g l { va := t.rx a + immOf k, n := 8, align := 8, r := true, w := true, kind := .tagged } ia true →
    OwnBytes s l ia off 8 →
    let w := (s.core s.pos).spPhys off / 8
    let Sleeps (i : Instr) (op : TagOp) : Prop :=
      ((s.core s.pos).waits.length < 64 →
        ∃ u t' e, exec i s = .next u ∧ u.cur? = some t' ∧ t'.run = .sleeping .tag ∧ t'.pc = t.pc ∧ t'.x = t.x ∧
          (u.core s.pos).waits = (s.core s.pos).waits ++ [e] ∧ e.word = w ∧ e.op = op ∧ e.slot.map (·.1) = some s.slot ∧
          (u.core s.pos).sp = (s.core s.pos).sp ∧ (u.core s.pos).full = (s.core s.pos).full ∧ OutsideKept s u) ∧
      (64 ≤ (s.core s.pos).waits.length → exec i s = .next s)
    (Issues s t [d, a] → w ∉ (s.core s.pos).full → Sleeps (.lwf d a k) .lwf ∧ Sleeps (.take d a k) .take) ∧
    (Issues s t [a, b] → Quiet s t → w ∈ (s.core s.pos).full → Sleeps (.put a b k) .put))

/-- `fence`, `acq` and `rel` (R186, R189, R190, R322 to R324): a fence with nothing outstanding in its reach completes, and with something
outstanding does nothing; an acquire reads its word and drops the copies of the bound regions; a release stores its word. -/
def Obligations.FencesAcquireAndRelease : Prop :=
  (∀ (s : State) (t : Thread) (f : Scope), Issues s t [] → Quiet s t → Retires s t (exec (.fence f) s) (t.pc + 4#64) none none 0#8) ∧
  (∀ (s : State) (t : Thread) (f : Scope), Issues s t [] → s.drained s.pos s.slot f = false → exec (.fence f) s = .next s) ∧
  (∀ (s : State) (t : Thread) (g : Group) (l : Launch) (d a : Reg) (k : BitVec 12) (ia off : Nat),
    Issues s t [d, a] → Reaches s t g l { va := t.rx a + immOf k, n := 8, align := 8, r := true, w := false, kind := .sync } ia true →
    OwnBytes s l ia off 8 → (s.core s.pos).spPoison off 8 = false → t.home = none →
    ∃ u t', exec (.acq d a k) s = .next u ∧ u.cur? = some t' ∧
      GoesOn t t' (some (d, valueOf 8 false (memRead (s.core s.pos).sp ((s.core s.pos).spPhys off) 8))) ∧ OutsideKept s u ∧
      (u.core s.pos).sp = (s.core s.pos).sp ∧
      (∀ e ∈ (u.core s.pos).l1, e ∈ (s.core s.pos).l1 ∧
        ∀ b ∈ g.binds, b.sync = ia → ¬ (b.region < (e.1 + 1) * 128 ∧ e.1 * 128 < b.region + 2 ^ b.log2))) ∧
  (∀ (s : State) (t : Thread) (g : Group) (l : Launch) (a b : Reg) (k : BitVec 12) (ia off : Nat),
    Issues s t [a, b] → Reaches s t g l { va := t.rx a + immOf k, n := 8, align := 8, r := false, w := true, kind := .sync } ia false →
    OwnBytes s l ia off 8 → Quiet s t → Memory.wf (s.core s.pos).sp = true →
    ∃ u t', exec (.rel a b k) s = .next u ∧ u.cur? = some t' ∧ GoesOn t t' none ∧ OutsideKept s u ∧
      wordOf (memRead (u.core s.pos).sp ((s.core s.pos).spPhys off) 8) = t.rx b ∧ OtherBytes (s.core s.pos) (u.core s.pos) off 8)

/-- `bind` and `unbind` (R188, R325): the binding of a sync object to a region is added once, and all of an object's are removed. -/
def Obligations.BindingsAreKeptByTheGroup : Prop :=
  (∀ (s : State) (t : Thread) (g : Group) (l : Launch) (a b : Reg) (k : BitVec 7) (o : Nat) (sp : Span),
    Issues s t [a, b] → Runs s t g l → t.home = none → 7 ≤ k.toNat → k.toNat ≤ 47 → syncIa g (t.rx a) = .ok o → (t.rx b).toNat % 2 ^ k.toNat = 0 →
    spanFor g.spans (t.rx b) (2 ^ k.toNat) = some sp → g.binds.length < 8 →
    ∃ u t' g', exec (.bind a b k) s = .next u ∧ OnlyCore s u ∧ u.cur? = some t' ∧ GoesOn t t' none ∧ u.groupOf s.pos t' = some g' ∧
      (let e : Binding := { sync := o, region := sp.ia (t.rx b), log2 := k.toNat }
       g' = { g with binds := if e ∈ g.binds then g.binds else g.binds ++ [e] })) ∧
  (∀ (s : State) (t : Thread) (g : Group) (l : Launch) (a : Reg) (o : Nat),
    Issues s t [a] → Runs s t g l → t.home = none → syncIa g (t.rx a) = .ok o →
    ∃ u t' g', exec (.unbind a) s = .next u ∧ OnlyCore s u ∧ u.cur? = some t' ∧ GoesOn t t' none ∧ u.groupOf s.pos t' = some g' ∧
      g' = { g with binds := g.binds.filter fun b => b.sync ≠ o })

/-- Barriers (R102, R198, R199, R326 to R328, R390): an arrival is noted and the thread sleeps; `arrive` takes one arrival from a barrier object;
`waitph` goes on where the phase has flipped and sleeps where it has not. -/
def Obligations.BarriersNoteTheirArrivals : Prop :=
  (∀ (s : State) (t : Thread) (g : Group) (l : Launch) (k : BitVec 3) (dom : Nat) (sc : Scope),
    Issues s t [] → Runs s t g l → t.home = none → t.arrived = none → Quiet s t → tblGet? l.levels k.toNat = some (dom, sc) → dom ≤ 1 →
    ∃ u t' g', exec (.bar k) s = .next u ∧ OnlyCore s u ∧ u.cur? = some t' ∧ t'.run = .sleeping (.bar k.toNat) ∧ t'.pc = t.pc ∧ t'.x = t.x ∧
      u.groupOf s.pos t' = some g' ∧ g' = { g with arrivals := g.arrivals ++ [(k.toNat, t.idx)] }) ∧
  (∀ (s : State) (t : Thread) (g : Group) (l : Launch),
    Issues s t [] → Runs s t g l → t.home = none → t.arrived = none → Quiet s t →
    ∃ u t' g', exec .barX s = .next u ∧ OnlyCore s u ∧ u.cur? = some t' ∧ t'.run = .sleeping .barX ∧ t'.pc = t.pc ∧ t'.x = t.x ∧
      u.groupOf s.pos t' = some g' ∧ g' = { g with barX := g.barX ++ [t.idx] }) ∧
  (∀ (s : State) (t : Thread) (g : Group) (l : Launch),
    Issues s t [] → Runs s t g l → l.stepMode = true → t.home = none → t.arrived = none → Quiet s t →
    ∃ u t' g', exec .barT s = .next u ∧ OnlyCore s u ∧ u.cur? = some t' ∧ t'.run = .sleeping .barT ∧ t'.pc = t.pc ∧ t'.x = t.x ∧
      u.groupOf s.pos t' = some g' ∧ g' = { g with barT := g.barT ++ [t.idx] }) ∧
  (∀ (s : State) (t : Thread) (g : Group) (l : Launch) (a : Reg) (off : Nat),
    Issues s t [a] → Runs s t g l → t.home = none → Quiet s t → barrierObj s.pos g (t.rx a) true = .ok off → (s.core s.pos).spPhys off = off →
    Memory.wf (s.core s.pos).sp = true →
    let v := natOfBytes (memRead (s.core s.pos).sp off 8)
    1 ≤ v / 2 ^ 40 % 2 ^ 16 → ¬ (v % 2 ^ 40 = 0 ∧ v / 2 ^ 40 % 2 ^ 16 = 1) →
    ∃ u t', exec (.arrive a) s = .next u ∧ u.cur? = some t' ∧ GoesOn t t' none ∧ OutsideKept s u ∧
      natOfBytes (memRead (u.core s.pos).sp off 8) = v - 2 ^ 40 ∧ OtherBytes (s.core s.pos) (u.core s.pos) off 8) ∧
  (∀ (s : State) (t : Thread) (g : Group) (l : Launch) (a b : Reg) (off : Nat),
    Issues s t [a, b] → Runs s t g l → t.home = none → barrierObj s.pos g (t.rx a) false = .ok off → (s.core s.pos).spPoison off 8 = false →
    s.mayIssue s.pos s.slot (spIa s.pos off) false = true →
    let phase := (wordOf ((s.core s.pos).spRead off 8)).getLsbD 63
    (phase ≠ (t.rx b).getLsbD 0 → ∃ u t', exec (.waitph a b) s = .next u ∧ u.cur? = some t' ∧ GoesOn t t' none ∧ OutsideKept s u ∧
      (u.core s.pos).sp = (s.core s.pos).sp) ∧
    (phase = (t.rx b).getLsbD 0 → ∃ u, exec (.waitph a b) s = .next u ∧ OnlyThread s u ∧
      u.cur? = some { t with run := .sleeping (.phase off phase) }))

/-- Vector instructions on registers (R167, R264, R331 to R365): each becomes one command at the tail of its context's queue, with the scalars read at
issue and the prefix, and retires; a scalar destination becomes pending. -/
def Obligations.VectorFormsQueueOneCommand : Prop :=
  ∀ (i : Instr) (s : State) (t : Thread) (g : Group) (l : Launch) (c : Bool) (f : VForm),
    vectorForm i t = some f → VectorIssues s t g l c f.rs f.takes →
    Queues s t c (exec i s)
      { op := f.op, d := f.d, a := f.a, b := f.b, m := f.m, bx := f.bx, s1 := f.s1, s2 := f.s2, pfx := t.prefix?, slot := s.slot, gid := t.group,
        lid := l.lid, runs := [], handler := t.th } f.len f.rd

/-- Decode checks (R151, R167, R258, R265, R275, R331, R333). Scalar forms without a format: a pending prefix and then a nomad thread's high register trap,
and a register still pending holds the instruction back with no effect. Vector forms: no context and a prefix that is not taken trap, and a full queue
holds the instruction back.
Clauses that rest on the model's choice: log entries 16, 26. -/
def Obligations.DecodeChecksTrapOrHold : Prop :=
  (∀ (i : Instr) (s : State) (t : Thread) (rs : List Reg),
    ((∃ d v, registerForm i t = some (rs, d, v)) ∨ (∃ d v, wordForm i t = some (rs, d, v)) ∨ (∃ d v, immediateForm i t = some (rs, d, v)) ∨
      (∃ d v, predicateForm i t = some (rs, d, v)) ∨ (∃ k n, branchForm i t = some (rs, k, n)) ∨ (∃ d r, codeForm i t = some (rs, d, r)) ∨
      (∃ d v f, compareForm i t = some (rs, d, v, f))) →
    s.cur? = some t →
    (t.pp = true → exec i s = .next (s.trap { code := 0x14#8, tval := t.ir.setWidth 64 })) ∧
    (t.pp = false → badNomad t rs = true → exec i s = .next (s.trap { code := 0x01#8, detail := 4#4, tval := t.ir.setWidth 64 })) ∧
    (badNomad t rs = false → t.pp = false → t.pends rs = true → exec i s = .next s)) ∧
  (∀ (i : Instr) (s : State) (t : Thread) (g : Group) (l : Launch) (f : VForm),
    vectorForm i t = some f → s.cur? = some t → Runs s t g l →
    (t.ctx = none → exec i s = .next (s.trap { code := 0x01#8, detail := 3#4, tval := t.ir.setWidth 64 })) ∧
    (∀ c w, t.ctx = some c → t.prefix? = some w → f.takes w = false →
      exec i s = .next (s.trap { code := 0x14#8, tval := t.ir.setWidth 64 })) ∧
    (∀ c, t.ctx = some c → (∀ w, t.prefix? = some w → f.takes w = true) → (s.core s.pos).vecRoom c = false → exec i s = .next s))

/-- `vcvt`, `vfence`, `vldq` and the memory forms (R335, R340 to R343, R357, R369): a conversion queues with the scale where a d8 format takes
part; a fence completes when the context has drained; a memory form whose elements all pass their checks queues its accesses.
Clauses that rest on the model's choice: log entries 38, 39. -/
def Obligations.VectorMemoryAndConversionsQueue : Prop :=
  (∀ (s : State) (t : Thread) (g : Group) (l : Launch) (c : Bool) (d a b : BitVec 5) (m : MReg),
    VectorIssues s t g l c [b] pfxCvt →
    let p := (t.prefix?).getD 0#32
    let d8 := pFA p = 1#4 ∨ pFD p = 1#4
    (d8 ∨ b = 0#5) →
    Queues s t c (exec (.vcvt d a b m) s)
      { op := .cvt, d := d, a := a, b := 0#5, m := m, bx := false, s1 := 0#64, s2 := if d8 then t.rx b else 0#64, pfx := t.prefix?, slot := s.slot,
        gid := t.group, lid := l.lid, runs := [], handler := t.th } 4 none) ∧
  (∀ (s : State) (t : Thread) (g : Group) (l : Launch) (c : Bool),
    VectorIssues s t g l c [] (fun _ => false) → s.vectorDone s.pos s.slot t = true → Retires s t (exec .vfence s) (t.pc + 4#64) none none 0#8) ∧
  (∀ (i : Instr) (s : State) (t : Thread) (g : Group) (l : Launch) (c : Bool) (f : VMemForm) (runs : List VRun),
    vectorMemForm i t ((s.core s.pos).ctx c) = some f → VectorIssues s t g l c f.rs (fun _ => false) → ((s.core s.pos).ctx c).queue = [] →
    checkElems s t f.n f.n f.load (f.base == 2#5)
      ((activeOf (((s.core s.pos).ctx c).rm f.m) (8 * f.n)).map fun j => { e := j, va := f.addr j, at0 := j * (8 * f.n) / 8 }) = .ok runs →
    Queues s t c (exec i s)
      { op := f.op, d := f.d, a := 0#5, b := 0#5, m := f.m, bx := false, s1 := 0#64, s2 := 0#64, pfx := none, slot := s.slot, gid := t.group, lid := l.lid,
        runs := if f.bytes then joinRuns runs else runs, handler := t.th } 4 none) ∧
  (∀ (s : State) (t : Thread) (g : Group) (l : Launch) (c : Bool) (e : Bool) (j : QReg) (a : Reg) (r : VRun),
    VectorIssues s t g l c [a] (fun _ => false) → ((s.core s.pos).ctx c).queue = [] →
    checkElem s t { e := 0, va := t.rx a, at0 := 0 } 16 8 true (a == 2#5) = .ok r →
    Queues s t c (exec (.vldq e j a) s)
      { op := .loadq e j, d := 0#5, a := 0#5, b := 0#5, m := 0#3, bx := false, s1 := ((s.core s.pos).ctx c).qm.get j.toFin,
        s2 := ((s.core s.pos).ctx c).qc.get j.toFin, pfx := none, slot := s.slot, gid := t.group,
        lid := l.lid, runs := [{ r with n := 8 }, { r with va := r.va + 8#64, ia := r.ia + 8, n := 8, at0 := 8 }], handler := t.th } 4 none) ∧
  (∀ (s : State) (t : Thread) (g : Group) (l : Launch) (c : Bool) (v : BitVec 5) (a b : Reg) (m : MReg),
    VectorIssues s t g l c [a, b] (fun _ => false) → l.stepMode = false → ((s.core s.pos).ctx c).queue = [] →
    (let d := (s.core s.pos).sd
     (d.nroute = 0 ∨ (s.core s.pos).tableOk l d.rbase (16 * min 64 d.nroute) = true) ∧
     (∀ e ∈ activeOf (((s.core s.pos).ctx c).rm m) 32, (t.rx a).toNat + e < d.tlen ∧
       (s.core s.pos).tableOk l (d.tbase + 8 * ((t.rx a).toNat + e)) 8 = true)) →
    Queues s t c (exec (.vsdq v a b m) s)
      { op := .sdq, d := v, a := 0#5, b := 0#5, m := m, bx := false, s1 := t.rx a, s2 := t.rx b, pfx := none, slot := s.slot, gid := t.group, lid := l.lid,
        runs := (activeOf (((s.core s.pos).ctx c).rm m) 32).map fun e => { e := e, va := 0#64, ia := (t.rx a).toNat + e, n := 4, at0 := 4 * e },
        handler := t.th, sd := (s.core s.pos).sd } 4 none)

/-- The head command of a context that works on registers is performed and leaves the queue; its scalar result and its flags reach the thread that
issued it (R167). -/
def Obligations.VectorCommandCompletes : Prop :=
  ∀ (s : State) (p : Nat) (c : Bool) (k : VCmd) (rest : List VCmd) (t : Thread),
    ((s.core p).ctx c).queue = k :: rest → k.runs = [] → k.op ≠ .sdq → ((s.core p).ctx c).fault = none → s.thread? p k.slot = some t →
    t.run = .running →
    let r := ((s.core p).ctx c).perform k ((s.core p).tab4l, (s.core p).tab4h)
    ∃ u t', exec (.vectorCommandComplete p c) s = .next u ∧ u = { s with cores := u.cores } ∧ (∀ q, q ≠ p → u.core q = s.core q) ∧
      ((u.core p).ctx c).queue = rest ∧ ((u.core p).ctx c).v = r.ctx.v ∧ ((u.core p).ctx c).m = r.ctx.m ∧ (u.core p).ctx (!c) = (s.core p).ctx (!c) ∧
      u.thread? p k.slot = some t' ∧ t'.pc = t.pc ∧ AfterX t t' (r.x.map fun v => (k.d, v)) ∧ t'.p = t.p ∧ AfterFlags t t' r.flags ∧
      KeepsControl t t' ∧ (u.core p).sp = (s.core p).sp

/-- Integer lanes (R243, R329, R345): every active element of vd is the operation on the elements of the sources, every other element is as before, and no
flag is raised; masks, the other registers and the modulus registers stay. -/
def Obligations.IntegerLanesCompute : Prop :=
  ∀ (c : VCtx) (k : VCmd) (tab : Word × Word) (op : Nat) (wd : Width),
    k.op = .int op wd → k.pfx = none → op ≤ 13 →
    let w := wdBits wd
    let r := c.perform k tab
    (∀ i, i < 2048 / w →
      let old : BitVec w := (c.rv k.d).extractLsb' (i * w) w
      let a : BitVec w := (c.rv k.a).extractLsb' (i * w) w
      let b : BitVec w := if k.bx then k.s2.setWidth w else (c.rv k.b).extractLsb' (i * w) w
      some ((r.ctx.rv k.d).extractLsb' (i * w) w) = if (c.rm k.m).getLsbD (i * w / 8) then laneValue op w a b else some old) ∧
    (∀ n, n ≠ k.d → r.ctx.rv n = c.rv n) ∧ r.ctx.m = c.m ∧ r.ctx.qm = c.qm ∧ r.ctx.qc = c.qc ∧ r.ctx.queue = c.queue ∧ r.flags = 0#8 ∧ r.x = none


/-- Tile instructions (R370 to R379): a fork whose operands pass their checks becomes the last of at most four operations of its core; `twait` goes on
when all of the thread's have ended and holds its thread until then; `tmsend` sends the matrix command that its operands describe. -/
def Obligations.TileInstructionsQueueTheirOperation : Prop :=
  (∀ (s : State) (t : Thread) (g : Group) (l : Launch) (q : AccReg),
    TileIssues s t g l [] (fun _ => false) → Forks s t → (s.core s.pos).tiles.length < 4 →
    QueuesTile s t (exec (.tclr q) s) (t.tile s l .clr q 0 0 0#64 0#64 0#32 0#64 0#64)) ∧
  (∀ (s : State) (t : Thread) (g : Group) (l : Launch) (q : AccReg) (d a b c : Reg) (ia ib : Nat),
    TileIssues s t g l [d, a, b, c] pfxTile → Forks s t → (s.core s.pos).tiles.length < 4 →
    let p := (t.prefix?).getD 0#32
    tileMisaligned (t.rx a).toNat (t.rx b).toNat (t.rx c) p = none →
    s.tileRange g l (t.rx a) (extentA (t.rx d) (t.rx c) p) false true = .ok ia → s.tileRange g l (t.rx b) (extentB (t.rx d) (t.rx c) p) false true = .ok ib →
    (wordsOk true (t.rx d) (t.rx c) = true →
      QueuesTile s t (exec (.tmma q d a b c) s) (t.tile s l .mma q ia ib (t.rx d) (t.rx c) p (t.rx a) (t.rx b))) ∧
    (wordsOk false (t.rx d) (t.rx c) = true → s.tileC s.pos l q (t.rx d) (t.rx c) = true →
      QueuesTile s t (exec (.tspmac q d a b c) s) (t.tile s l .spmac q ia ib (t.rx d) (t.rx c) p (t.rx a) (t.rx b)))) ∧
  (∀ (s : State) (t : Thread) (g : Group) (l : Launch) (q : AccReg) (a b : Reg) (ia : Nat),
    TileIssues s t g l [a, b] (fun _ => false) → Forks s t → (s.core s.pos).tiles.length < 4 →
    (t.rx b).toNat % 16 = 0 → 128 ≤ (t.rx b).toNat → (t.rx b).toNat ≤ 2 ^ 18 →
    (s.tileRange g l (t.rx a) (63 * (t.rx b).toNat + 128) true false = .ok ia →
      QueuesTile s t (exec (.tacc2s q a b) s) (t.tile s l .acc2s q ia 0 0#64 (t.rx b) 0#32 (t.rx a) 0#64)) ∧
    (s.tileRange g l (t.rx a) (63 * (t.rx b).toNat + 128) false false = .ok ia →
      QueuesTile s t (exec (.ts2acc q a b) s) (t.tile s l .s2acc q ia 0 0#64 (t.rx b) 0#32 (t.rx a) 0#64))) ∧
  (∀ (s : State) (t : Thread) (g : Group) (l : Launch), TileIssues s t g l [] (fun _ => false) →
    (t.tiles = 0 → Retires s t (exec .twait s) (t.pc + 4#64) none none 0#8) ∧ (t.tiles ≠ 0 → exec .twait s = .next s)) ∧
  (∀ (s : State) (t : Thread) (g : Group) (l : Launch) (a b c : Reg) (q ia off : Nat),
    TileIssues s t g l [a, b, c] (fun _ => false) → Forks s t → g.check = none → s.digests g = false →
    let x := t.rx a
    l.stepMode = false → (x.extractLsb' 24 3).toNat ≤ 4 → x.extractLsb' 29 35 = 0#35 → l.posOfLogical (x.extractLsb' 0 16).toNat = some q → l.inRect q = true →
    checkAcc s s.pos t { va := t.rx b, n := 64, align := 64, r := true, w := false, kind := .load } = .ok ia → placeOf ia = .sp s.pos off →
    ∃ u t', exec (.tmsend a b c) s = .next u ∧ u.cur? = some t' ∧ GoesOn t t' none ∧ u.mem = s.mem ∧ u.host = s.host ∧
      SendsFrom s u s.pos none q
        (.matrix ((t.rx c).extractLsb' 0 32) (x.extractLsb' 16 8) (x.extractLsb' 24 3).toNat (x.extractLsb' 27 2).toNat ia) .matrix)

/-- Steps of the matrix unit (R374, R376, R377): a `tclr` at its head empties its accumulator, and a step of a `tmma` makes every element of its rows
and columns the `dot_group` of the element before with the operands' group. The other accumulators stay.
Clauses that rest on the model's choice: log entries 21, 36. -/
def Obligations.MatrixStepsClearAndMultiply : Prop :=
  (∀ (s : State) (p k : Nat) (o : TileOp) (rest : List TileOp) (t : Thread),
    (s.core p).tileBusy = none → (s.core p).tiles = o :: rest → (s.core p).matrixQ = [] → s.tileHeld p o = false →
    o.kind = .clr → o.step = 0 → o.flags = 0#64 → o.sender = none → o.slot = some k → s.thread? p k = some t →
    ∃ u t', exec (.matrixStepBoundary p) s = .next u ∧ u = { s with cores := u.cores, nextId := s.nextId + 1 } ∧ (∀ q, q ≠ p → u.core q = s.core q) ∧ (u.core p).tiles = rest ∧
      (u.core p).tileBusy = none ∧ (∀ i, i < 2048 → (u.core p).accGet o.acc.toNat i = 0#32) ∧
      (∀ q i, q ≠ o.acc.toNat → (u.core p).accGet q i = (s.core p).accGet q i) ∧ u.thread? p k = some t' ∧ t' = { t with tiles := t.tiles - 1 }) ∧
  (∀ (s s1 s2 : State) (p : Nat) (o : TileOp) (rest : List TileOp) (as bs : List (List Byte)),
    (s.core p).tileBusy = some false → (s.core p).tiles = o :: rest → s.tileHeld p o = false → o.kind = .mma → o.sender = none →
    o.step < o.groups → (∀ a ∈ (s.core p).acc.toList, tblWf a = true) →
    let s0 := { s.modCore p fun c => { c with tileBusy := some false } with nextId := s.nextId + 1 }
    (∀ x, x ∈ (o.ranges o.step).1 ++ (o.ranges o.step).2 → s0.tileCheck p o x.1 x.2 true ≠ .void) →
    let o' : TileOp := if o.step = 0 then { o with tab := ((s.core o.home).tab4l, (s.core o.home).tab4h) } else o
    s0.tileFetchAll p o' (o.ranges o.step).1 [] = (s1, as, .ok) → s1.tileFetchAll p o' (o.ranges o.step).2 [] = (s2, bs, .ok) →
    ∃ u, exec (.matrixStepBoundary p) s = .next u ∧ u.mem = s2.mem ∧ u.host = s2.host ∧
      ∀ m n, m < shapeM o.shape → n < shapeN o.shape →
        (u.core p).accGet o.acc.toNat (m * 32 + n) =
          BitVec.ofNat 32 (dotGroup ((s.core p).accGet o.acc.toNat (m * 32 + n)).toNat
            ((List.range bs.length).map fun k =>
              (dotTerm (operandVal (pFA o.pfx) bf16 o'.tab (codeAt (as.getD m []) (tileWidth (pFA o.pfx)) k)).1
                (operandVal (pFB o.pfx) bf16 o'.tab (codeAt (bs.getD k []) (tileWidth (pFB o.pfx)) n)).1
                (if pFA o.pfx = 1#4 ∨ pFB o.pfx = 1#4 then some (fdec fp32 (o.shape.extractLsb' 32 32).toNat) else none)).1)
            (pRm o.pfx)).1)

/-- `tcopy` and `tgather` (R196, R381, R382): a command whose ranges pass their checks goes on with one more engine operation of its thread, whose first
chunk is read from its home, within one aligned 128 bytes of the source and of the destination. A `tcopy` of no bytes sends nothing.
Clauses that rest on the model's choice: log entry 31. -/
def Obligations.EngineCommandsReadTheirFirstChunk : Prop :=
  (∀ (s : State) (t : Thread) (g : Group) (l : Launch) (d a b c : Reg) (src dst off : Nat),
    TileIssues s t g l [d, a, b, c] (fun _ => false) → Forks s t → g.check = none → s.digests g = false → t.run = .running →
    (s.engines.filter fun e => e.node == s.pos).length < 16 → (∀ e ∈ s.engines, e.id ≠ s.nextId) →
    let n := (t.rx b).toNat
    n ≤ 2 ^ 32 → s.engineRange g l (t.rx a) n false = .ok src → s.engineRange g l (t.rx d) n true = .ok dst → barrierObj s.pos g (t.rx c) true = .ok off →
    (0 < n → ∃ u t', exec (.tcopy d a b c) s = .next u ∧ u.cur? = some t' ∧ GoesOn { t with engines := t.engines + 1 } t' none ∧ u.mem = s.mem ∧
      u.host = s.host ∧
      (let m := min (min n (128 - dst % 128)) (128 - src % 128)
       let rt := s.route (s.core s.pos).lid src
       SendsFrom s u s.pos (some s.slot) rt.node (.bulkRead rt.ia m) (.engineRead s.nextId dst m))) ∧
    (n = 0 → ∃ u t', exec (.tcopy d a b c) s = .next u ∧ u.cur? = some t' ∧ GoesOn t t' none ∧ u.mem = s.mem ∧ u.host = s.host ∧ u.reqs = s.reqs ∧
      u.net = s.net)) ∧
  (∀ (s : State) (t : Thread) (g : Group) (l : Launch) (e : GatherSize) (d a b c : Reg) (ia dst bo i0 src : Nat),
    TileIssues s t g l [d, a, b, c] (fun _ => false) → Forks s t → g.check = none → s.digests g = false → t.run = .running →
    (s.engines.filter fun e => e.node == s.pos).length < 16 → (∀ e ∈ s.engines, e.id ≠ s.nextId) →
    checkAcc s s.pos t { va := t.rx b, n := 8, align := 8, r := true, w := false, kind := .load } = .ok ia → placeOf ia = .sp s.pos (ia % 0x400000) →
    let off := ia % 0x400000
    let cnt := natOfBytes ((s.core s.pos).spRead off 4)
    let bytes := (s.core s.pos).spRead off (8 + 4 * cnt)
    0 < cnt → cnt ≤ 65536 →
    (∃ z, checkAcc s s.pos t { va := t.rx b, n := 8 + 4 * cnt, align := 8, r := true, w := false, kind := .load } = .ok z) →
    off + (8 + 4 * cnt) ≤ 0x40000 → s.engineRange g l (t.rx d) (cnt * gatherBytes e) true = .ok dst → barrierObj s.pos g (t.rx c) true = .ok bo →
    (s.core s.pos).spPoison off (8 + 4 * cnt) = false → natOfBytes ((bytes.drop 8).take 4) = i0 →
    s.engineRange g l (t.rx a + BitVec.ofNat 64 (i0 * gatherBytes e)) (gatherBytes e) false = .ok src →
    ∃ u t', exec (.tgather e d a b c) s = .next u ∧ u.cur? = some t' ∧ GoesOn { t with engines := t.engines + 1 } t' none ∧ u.mem = s.mem ∧
      u.host = s.host ∧
      (let m := min (min (gatherBytes e) (128 - dst % 128)) (128 - src % 128)
       let rt := s.route (s.core s.pos).lid src
       SendsFrom s u s.pos (some s.slot) rt.node (.bulkRead rt.ia m) (.engineRead s.nextId dst m)))

/-- Events (R126 to R128, R176, R386 to R389): `evsend` sends one event at the core's virtual time plus the delay, limited to 0xFFFFFFFE, and waits while
the destination has one unanswered; `evwait` goes on where a stream of its mask has an entry and sleeps where none has; `evnext` gives the first
entry, takes it out and raises VTIME to its time; `evpeek` gives it and leaves it; an empty inbox reads all ones; `vtadv` raises VTIME. -/
def Obligations.EventInstructions : Prop :=
  (∀ (s : State) (t : Thread) (g : Group) (l : Launch) (r a b : Reg) (q : Nat),
    EventIssues s t g l [r, a, b] →
    let x := t.rx a
    (x.extractLsb' 16 4).toNat ≠ 15 → x.extractLsb' 40 24 = 0#24 → (t.rx r).extractLsb' 16 48 = 0#48 →
    l.posOfLogical (x.extractLsb' 0 16).toNat = some q → l.inRect q = true →
    ((s.core s.pos).mayEvent q = true →
      ∃ u t', exec (.evsend r a b) s = .next u ∧ u.cur? = some t' ∧ GoesOn t t' none ∧ u.mem = s.mem ∧ u.host = s.host ∧
        (u.core s.pos).inbox = (s.core s.pos).inbox ∧ (u.core s.pos).vtime = (s.core s.pos).vtime ∧
        (u.core s.pos).evSlots.length = (s.core s.pos).evSlots.length + 1 ∧ (u.core s.pos).mayEvent q = false ∧
        SendsFrom s u s.pos none q
          (.event (x.extractLsb' 16 4).toNat (x.extractLsb' 20 20).toNat
            (BitVec.ofNat 32 (min ((s.core s.pos).vtime.toNat + ((t.rx r).extractLsb' 0 16).toNat) 0xFFFFFFFE)) ((t.rx b).extractLsb' 0 32)
            (s.core s.pos).lcore) (.event 0)) ∧
    ((s.core s.pos).mayEvent q = false → exec (.evsend r a b) s = .next s)) ∧
  (∀ (s : State) (t : Thread) (g : Group) (l : Launch) (a : Reg), EventIssues s t g l [a] →
    let hit : Prop := (t.rx a).extractLsb' 0 16 = 0#16 ∨ ∃ e ∈ (s.core s.pos).inbox, (t.rx a).getLsbD e.stream = true ∧ e.stream < 16
    (hit → Retires s t (exec (.evwait a) s) (t.pc + 4#64) none none 0#8) ∧
    (¬ hit → ∃ u, exec (.evwait a) s = .next u ∧ OnlyThread s u ∧ u.cur? = some { t with run := .sleeping (.events ((t.rx a).extractLsb' 0 16)) })) ∧
  (∀ (s : State) (t : Thread) (g : Group) (l : Launch) (d : Reg), EventIssues s t g l [d, d + 1#5] → d.getLsbD 0 = false → d ≠ 0#5 →
    ((s.core s.pos).inbox = [] →
      (∃ u t', exec (.evnext d) s = .next u ∧ OnlyThread s u ∧ u.cur? = some t' ∧ GoesOnPair t t' d (0#64 ++ BitVec.allOnes 64)) ∧
      (∃ u t', exec (.evpeek d) s = .next u ∧ OnlyThread s u ∧ u.cur? = some t' ∧ GoesOnPair t t' d (0#64 ++ BitVec.allOnes 64))) ∧
    (∀ e, First e (s.core s.pos).inbox →
      (∃ u t', exec (.evpeek d) s = .next u ∧ OnlyThread s u ∧ u.cur? = some t' ∧ GoesOnPair t t' d (entryRecord e)) ∧
      ((s.core s.pos).trcctl.getLsbD 3 = false →
        ∃ u t', exec (.evnext d) s = .next u ∧ u.cur? = some t' ∧ GoesOnPair t t' d (entryRecord e) ∧ OutsideKept s u ∧ u.reqs = s.reqs ∧
          ((s.core s.pos).heldGvt = none ∨ t.run = .running →
            (u.core s.pos).vtime = (if (s.core s.pos).vtime.toNat < e.vt.toNat then e.vt else (s.core s.pos).vtime)) ∧
          ((s.core s.pos).heldGvt = none → (u.core s.pos).inbox = (s.core s.pos).inbox.erase e) ∧ (u.core s.pos).sp = (s.core s.pos).sp))) ∧
  (∀ (s : State) (t : Thread) (g : Group) (l : Launch) (a : Reg), EventIssues s t g l [a] →
    ∃ u t', exec (.vtadv a) s = .next u ∧ OnlyCore s u ∧ u.cur? = some t' ∧ GoesOn t t' none ∧
      (u.core s.pos).vtime.toNat = max (s.core s.pos).vtime.toNat (min (t.rx a).toNat 0xFFFFFFFE) ∧ (u.core s.pos).inbox = (s.core s.pos).inbox ∧
      (u.core s.pos).sp = (s.core s.pos).sp)

/-- The deque's instructions (R107, R108, R111, R113, R391): a task instruction reads its record word by word; a bad record, a pushed one and a full
deque give their status; a pop takes the top record and stores its eight words, or gives 1 where there is none.
Clauses that rest on the model's choice: log entries 19, 58. -/
def Obligations.DequeInstructionsPushAndPop : Prop :=
  (∀ (s : State) (t : Thread) (g : Group) (l : Launch) (i : Instr) (rs : List Reg) (b : Reg) (ia : Nat), recordReader i l = some (rs, b) → TaskIssues s t g l rs →
    (∀ a, i = .tspawn a b → (t.rx a).extractLsb' 16 48 = 0#48 ∧ ∃ q, l.posOfLogical ((t.rx a).extractLsb' 0 16).toNat = some q ∧ l.inRect q = true) →
    let got := (t.readRec).getD []
    got.length < 64 →
    Reaches s t g l { va := t.rx b + BitVec.ofNat 64 got.length, n := 8, align := 8, r := true, w := false, kind := .load, stack := b == 2#5 } ia true →
    (∀ off, OwnBytes s l ia off 8 → (s.core s.pos).spPoison off 8 = false →
      ∃ u, exec i s = .next u ∧ OnlyThread s u ∧ u.cur? = some { t with readRec := some (got ++ memRead (s.core s.pos).sp ((s.core s.pos).spPhys off) 8) }) ∧
    (ownPlace s.pos ia = false → (cacheable ia = true → ∀ e ∈ (s.core s.pos).l1, e.1 ≠ ia / 128) →
      ∃ u body use, exec i s = .next u ∧ Sends s u (s.route l.lid ia).node body use ∧ u.cur? = some { t with readRec := some got })) ∧
  (∀ (s : State) (t : Thread) (g : Group) (l : Launch) (d a : Reg) (r : List Byte), TaskIssues s t g l [d, a] → HasRecord t r →
    (∀ k, badRecord l.galloc r = some k → Retires s t (exec (.dqpush d a) s) (t.pc + 4#64) (some (d, BitVec.ofNat 64 (2 + k * 256))) none 0#8) ∧
    (badRecord l.galloc r = none → 4096 ≤ (records (s.core s.pos)).length →
      Retires s t (exec (.dqpush d a) s) (t.pc + 4#64) (some (d, 1#64)) none 0#8) ∧
    (badRecord l.galloc r = none → (records (s.core s.pos)).length < 4096 →
      ∃ u t', exec (.dqpush d a) s = .next u ∧ OnlyCore s u ∧ u.cur? = some t' ∧ GoesOn t t' (some (d, 0#64)) ∧
        records (u.core s.pos) = records (s.core s.pos) ++ [(r, none)] ∧ (u.core s.pos).sp = (s.core s.pos).sp ∧
        (u.core s.pos).groups = (s.core s.pos).groups)) ∧
  (∀ (s : State) (t : Thread) (g : Group) (l : Launch) (d a : Reg) (off : Nat), TaskIssues s t g l [d, a] → (s.core s.pos).dbgctl.getLsbD 0 = false →
    Memory.wf (s.core s.pos).sp = true →
    (∀ i, i < 8 → checkAcc s s.pos t { va := t.rx a + BitVec.ofNat 64 (8 * i), n := 8, align := 8, r := false, w := true, kind := .store, stack := a == 2#5 } =
      .ok (spIa s.pos (off + 8 * i)) ∧ OwnBytes s l (spIa s.pos (off + 8 * i)) (off + 8 * i) 8) →
    (records (s.core s.pos) = [] → Retires s t (exec (.dqpop d a) s) (t.pc + 4#64) (some (d, 1#64)) none 0#8) ∧
    (∀ r m, (records (s.core s.pos)).getLast? = some (r, m) → r.length = 64 →
      ∃ u t', exec (.dqpop d a) s = .next u ∧ u.cur? = some t' ∧ GoesOn t t' (some (d, 0#64)) ∧ OutsideKept s u ∧ u.net = s.net ∧
        records (u.core s.pos) = (records (s.core s.pos)).dropLast ∧
        ∀ i, i < 8 → memRead (u.core s.pos).sp ((s.core s.pos).spPhys (off + 8 * i)) 8 = (r.drop (8 * i)).take 8))

/-- `tdec`, `tspawn` and `go` (R109, R113, R115, R144, R391, R394): a decrement goes to its object's home, or is kept back in hold mode; a record goes to
the named core's DQIN; `go` discards a bad record, sends one of another role on, starts a group of its own where the conditions hold, and waits where
they do not.
Clauses that rest on the model's choice: log entries 19, 58. -/
def Obligations.TasksAreCountedSentAndStarted : Prop :=
  (∀ (s : State) (t : Thread) (g : Group) (l : Launch) (a b : Reg) (ia : Nat), TaskIssues s t g l [a, b] →
    Reaches s t g l { va := t.rx a, n := 128, align := 128, r := false, w := true, kind := .tdec } ia false →
    1 ≤ (t.rx b).toNat → (t.rx b).toNat ≤ 65535 →
    inScratchpad ia = true → SentOn s t (exec (.tdec a b) s) (s.route l.lid ia).node (.tdec (s.route l.lid ia).ia (t.rx b).toNat) .store none) ∧
  (∀ (s : State) (t : Thread) (g : Group) (l : Launch) (a b : Reg) (ia : Nat), Issues s t [a, b] → Runs s t g l → l.stepMode = false → Quiet s t →
    g.check = none → t.home = none → checkAcc s s.pos t { va := t.rx a, n := 128, align := 128, r := false, w := true, kind := .tdec } = .ok ia →
    s.mayIssue s.pos s.slot (s.route l.lid ia).ia false = true → 1 ≤ (t.rx b).toNat → (t.rx b).toNat ≤ 65535 →
    (s.core s.pos).dbgctl.getLsbD 0 = false → (l.hold && recSample g.record && l.sample ≠ 0) = true →
      ∃ u t' g', exec (.tdec a b) s = .next u ∧ OnlyCore s u ∧ u.cur? = some t' ∧ t'.pc = t.pc + 4#64 ∧ AfterX t t' none ∧ AfterP t t' none ∧
        t'.fflags = t.fflags ∧ u.groupOf s.pos t' = some g' ∧ g' = { g with heldDecs := g.heldDecs ++ [(ia, (t.rx b).toNat)] }) ∧
  (∀ (s : State) (t : Thread) (g : Group) (l : Launch) (a b : Reg) (r : List Byte) (q : Nat), TaskIssues s t g l [a, b] → HasRecord t r →
    (t.rx a).extractLsb' 16 48 = 0#48 → l.posOfLogical ((t.rx a).extractLsb' 0 16).toNat = some q → l.inRect q = true →
    SentOn s t (exec (.tspawn a b) s) q (.bulkWrite (dqinIa q) r false) .push none) ∧
  (∀ (s : State) (t : Thread) (g : Group) (l : Launch) (a : Reg) (r : List Byte), TaskIssues s t g l [a] → HasRecord t r →
    (∀ k, recordFate l (s.core s.pos) s.pos r = .bad k →
      ∃ u t', exec (.go a) s = .next u ∧ u.cur? = some t' ∧ t'.pc = t.pc + 4#64 ∧ AfterX t t' none ∧ u.mem = s.mem ∧ u.reqs = s.reqs ∧
        (u.core s.pos).groups = (s.core s.pos).groups ∧ records (u.core s.pos) = records (s.core s.pos)) ∧
    (∀ q, recordFate l (s.core s.pos) s.pos r = .forward q → SentOn s t (exec (.go a) s) q (.bulkWrite (dqinIa q) r false) .push none) ∧
    (recordFate l (s.core s.pos) s.pos r = .mine → (s.core s.pos).canStart l r = false → exec (.go a) s = .next s) ∧
    (recordFate l (s.core s.pos) s.pos r = .mine → (s.core s.pos).canStart l r = true → Memory.wf (s.core s.pos).sp = true →
      ∃ u t', exec (.go a) s = .next u ∧ u.cur? = some t' ∧ GoesOn t t' none ∧ Started s u s.pos l r ∧ u.mem = s.mem ∧ u.net = s.net))

/-- `texit`, `tdetach` and `tyield` (R138, R140, R392, R393): an exit frees the slot and the vector context and counts in its group; a member of a gang
detaches its group and anything else retires; a yield is noted for the core's next choice.
Clauses that rest on the model's choice: log entry 53. -/
def Obligations.ThreadsExitDetachAndYield : Prop :=
  (∀ (s : State) (t : Thread) (g : Group) (l : Launch), Issues s t [] → Runs s t g l → t.home = none → Quiet s t → s.vectorDone s.pos s.slot t = true →
    s.digests g = false → t.tiles = 0 → t.engines = 0 → tblWf (s.core s.pos).threads = true → s.groupOpen g.gid s.pos = false → ∃ u, exec .texit s = .next u ∧ OnlyCore s u ∧ u.thread? s.pos s.slot = none ∧
      (∀ k, k ≠ s.slot → u.thread? s.pos k = s.thread? s.pos k) ∧
      (u.core s.pos).group? g.gid = some { g with exited := g.exited + 1, digest := g.digest ^^^ (t.digB ++ t.digA) } ∧
      (∀ c, t.ctx = some c → ((u.core s.pos).ctx c).owner = none) ∧ (u.core s.pos).sp = (s.core s.pos).sp) ∧
  (∀ (s : State) (t : Thread) (g : Group) (l : Launch), Issues s t [] → Runs s t g l → t.home = none → l.stepMode = false →
    (l.gang = 0 ∨ g.member = none → Retires s t (exec .tdetach s) (t.pc + 4#64) none none 0#8) ∧
    (l.gang ≠ 0 → g.member.isSome = true →
      ∃ u t' g', exec .tdetach s = .next u ∧ OnlyCore s u ∧ u.cur? = some t' ∧ GoesOn t t' none ∧ u.groupOf s.pos t' = some g' ∧
        g' = { g with detached := true })) ∧
  (∀ (s : State) (t : Thread) (g : Group) (l : Launch), Issues s t [] → Runs s t g l → l.stepMode = false →
    ∃ u t', exec .tyield s = .next u ∧ OnlyCore s u ∧ u.cur? = some t' ∧ GoesOn t t' none ∧
      u.core s.pos = { s.core s.pos with yielded := some s.slot, threads := (u.core s.pos).threads })

/-- Step mode (R124, R390): `nsend` sends one value toward a neighbour and marks the direction used; `nrecv` takes the value of a direction, reads zero
where the neighbour is no core in step mode, and sleeps otherwise. Outside step mode both trap with 0x16.
Clauses that rest on the model's choice: log entry 57. -/
def Obligations.NeighboursExchangeValues : Prop :=
  ∀ (s : State) (t : Thread) (g : Group) (l : Launch) (d : Dir) (a : Reg), Issues s t [a] → Runs s t g l →
    (l.stepMode = true → (s.core s.pos).nsent.getLsbD (Dir.num d) = false →
      ∃ u t' k, exec (.nsend d a) s = .next u ∧ u = { s with cores := u.cores, nodes := u.nodes, net := s.net ++ [k] } ∧ (∀ q, q ≠ s.pos → u.core q = s.core q) ∧
        u.cur? = some t' ∧ GoesOn t t' none ∧ k.src = s.pos ∧ k.dst = neighbour s.pos d ∧ k.body = .neighbour d (t.rx a) ∧
        k.ns = true ∧ k.seq = tblGetD (s.node s.pos).seqN k.dst 0#16 ∧ tblGetD (u.node s.pos).seqN k.dst 0#16 = k.seq + 1#16 ∧
        u.core s.pos = { s.core s.pos with nsent := (s.core s.pos).nsent ||| (1#4 <<< Dir.num d), threads := (u.core s.pos).threads }) ∧
    (l.stepMode = true → ∀ v, (s.core s.pos).nrx.toList[Dir.num d]? = some (some v) →
      ∃ u t', exec (.nrecv d a) s = .next u ∧ OnlyCore s u ∧ u.cur? = some t' ∧ GoesOn t t' (some (a, v)) ∧
        (u.core s.pos).nrx.toList[Dir.num d]? = some none ∧ (u.core s.pos).sp = (s.core s.pos).sp) ∧
    (l.stepMode = true → (s.core s.pos).nrx.toList[Dir.num d]? = some none →
      (s.stepCore (neighbour s.pos d) = false → Retires s t (exec (.nrecv d a) s) (t.pc + 4#64) (some (a, 0#64)) none 0#8) ∧
      (s.stepCore (neighbour s.pos d) = true →
        ∃ u, exec (.nrecv d a) s = .next u ∧ OnlyThread s u ∧ u.cur? = some { t with run := .sleeping (.recv d) })) ∧
    (l.stepMode = false → exec (.nsend d a) s = .next (s.trap { code := 0x16#8, tval := t.ir.setWidth 64 }) ∧
      exec (.nrecv d a) s = .next (s.trap { code := 0x16#8, tval := t.ir.setWidth 64 }))


/-- Requests on memory space at their home slice (R56, R66, R181 to R183, R193, R316): a read, a write, an atomic with return, a reduction, a bulk read
or a bulk write of bytes of one LPDDR page leaves the fabric, is done on exactly its bytes, and its answer enters.
Clauses that rest on the model's choice: log entries 5, 56. -/
def Obligations.MemorySpaceAnswersRequests : Prop :=
  ∀ (s : State) (k : Nat) (p : Packet) (ia b : Nat),
    Arrives s k p → Fresh s p → 0x400 ≤ p.dst → p.dst < 0x800 → p.body.ia? = some ia →
    let off := ia % 2 ^ 47
    let n := p.body.size
    let a := b + off % 65536
    let old := memRead s.mem a n
    tblGet? s.hostLines (off / 128) = none → Lies s off n false b → s.memPoison off n = false → Memory.wf s.mem = true →
    let Does (i : Instr) (r : Body) (bs : List Byte) : Prop :=
      ∃ u, exec i s = .next u ∧ Answered s u k p r ∧ Stored s.mem u.mem a bs ∧ u.host = s.host ∧ u.cores = s.cores ∧ u.reqs = s.reqs
    (∀ m, p.body = .read ia m → Does (.read k) (.data old .ok) old) ∧
    (∀ m, p.body = .bulkRead ia m → Does (.bulkReadRequest k) (.bulkData old .ok) old) ∧
    (∀ d z, p.body = .write ia d z → Does (.write k) (.ack false .ok) d) ∧
    (∀ d z, p.body = .bulkWrite ia d z → Does (.bulkWrite k) (.ack false .ok) d) ∧
    (∀ w o v, p.body = .atomic ia w o v → Does (.atomicWithReturn k) (.data old .ok) (bytesOf (amoWord w o (wordOf old) v) (atomBytes w))) ∧
    (∀ w e v, p.body = .cas ia w e v → Does (.atomicWithReturn k) (.data old .ok)
      (if atomTrunc w (wordOf old) = atomTrunc w e then bytesOf v (atomBytes w) else old)) ∧
    (∀ w o v, p.body = .reduce ia w o v → Does (.reduction k) (.ack false .ok) (bytesOf (amoWord w (redAmo o) (wordOf old) v) (atomBytes w)))

/-- Requests at a core's scratchpad (R54, R115, R158 to R160, R162, R181, R193, R314 to R316): each is done on exactly its bytes, with the tag rules of
tagged operations, the wait of one whose tag is not ready, the shadow half of an exchange store, and the count of a decrement, which fires at zero. A bulk
request is done one 64-bit word at a time, and answered after the last. -/
def Obligations.ScratchpadsAnswerRequests : Prop :=
  ∀ (s : State) (k : Nat) (p : Packet) (ia off : Nat), p.body.ia? = some ia →
    let c := s.core p.dst
    let n := p.body.size
    let a := c.spPhys off
    let w := a / 8
    let old := memRead c.sp a n
    let Does (i : Instr) (r : Body) (bs : List Byte) : Prop :=
      ∃ u, exec i s = .next u ∧ Answered s u k p r ∧ ElsewhereKept s u p.dst ∧ Stored c.sp (u.core p.dst).sp a bs
    (MeetsBytes s k p ia off n →
      (∀ m, p.body = .read ia m → Does (.read k) (.data old .ok) old) ∧
      (∀ d z, p.body = .write ia d z → Does (.write k) (.ack false .ok) d) ∧
      (∀ x o v, p.body = .atomic ia x o v → Does (.atomicWithReturn k) (.data old .ok) (bytesOf (amoWord x o (wordOf old) v) (atomBytes x))) ∧
      (∀ x o v, p.body = .reduce ia x o v → Does (.reduction k) (.ack false .ok) (bytesOf (amoWord x (redAmo o) (wordOf old) v) (atomBytes x))) ∧
      (∀ o v, p.body = .tagged ia o v → tagReady o (c.full.contains w) = true → c.waits = [] → c.full.Pairwise (· < ·) →
        ∃ u, exec (.taggedOperation k) s = .next u ∧ ElsewhereKept s u p.dst ∧
          Answered s u k p (match o with
            | .lwf => .data (memRead c.sp (w * 8) 8) .ok
            | .take => .data (memRead c.sp (w * 8) 8) .ok
            | .tagq => .data (bytesOf (if w ∈ c.full then 1#64 else 0#64) 8) .ok
            | _ => .ack false .ok) ∧
          (w ∈ (u.core p.dst).full ↔ (match o with
            | .take => False
            | .empty => False
            | .tagq => w ∈ c.full
            | _ => True)) ∧
          Stored c.sp (u.core p.dst).sp (w * 8) (match o with
            | .put => bytesOf v 8
            | .fill => bytesOf v 8
            | _ => memRead c.sp (w * 8) 8)) ∧
      (∀ o v, p.body = .tagged ia o v → tagReady o (c.full.contains w) = false → c.waits.length < 48 →
        ∃ u, exec (.taggedOperation k) s = .next u ∧ ElsewhereKept s u p.dst ∧ Answered s u k p (.ack true .ok) ∧ (u.core p.dst).sp = c.sp ∧
          (u.core p.dst).full = c.full ∧
          (u.core p.dst).waits = c.waits ++ [{ word := w, op := o, data := v, slot := none, node := p.src, ns := p.ns, seq := p.seq }]) ∧
      (∀ m, p.body = .tdec ia m →
        let v := wordOf (memRead c.sp a 8)
        let count := (v.extractLsb' 0 32).toInt
        v.getLsbD 32 = false →
        (1 ≤ m → (m : Int) < count →
          Does (.dependenceDecrement k) (.ack false .ok) (bytesOf (v &&& 0xFFFFFFFF00000000#64 ||| BitVec.ofNat 64 (count.toNat - m)) 8)) ∧
        (0 < count → (m : Int) = count → (records c).length < 4096 →
          ∃ u, exec (.dependenceDecrement k) s = .next u ∧ Answered s u k p (.ack false .ok) ∧ ElsewhereKept s u p.dst ∧
            Stored c.sp (u.core p.dst).sp a (bytesOf (v &&& 0xFFFFFFFF00000000#64 ||| 0x100000000#64) 8) ∧
            records (u.core p.dst) = records c ++ [(memRead c.sp (a + 64) 64, none)]))) ∧
    (∀ q v, Meets s k p → placeOf ia = .sp q off → p.body = .xst ia v → c.exEn = true → 0x30000 ≤ off → off < 0x38000 → p.gen = none →
      (p.lid = 0 ∨ c.lid = p.lid) → Memory.wf c.sp = true → c.waits = [] →
      ∃ u, exec (.exchangeStore k) s = .next u ∧ Answered s u k p (.ack false .ok) ∧ ElsewhereKept s u p.dst ∧
        Stored c.sp (u.core p.dst).sp (c.spShadow off) (bytesOf v 8) ∧ c.spShadow off / 8 ∈ (u.core p.dst).full) ∧
    (∀ q o, Lands s k p → (p.part = 0 → Fresh s p) → inScratchpad ia = true →
      let m := min (n - p.part) (8 - (ia + p.part) % 8)
      let last := n ≤ p.part + m
      p.part < n → placeOf (ia + p.part) = .sp q o → c.ownership p.lid p.gen o m = .ok → (c.exEn = true → o + m ≤ 0x38000) → c.spPoison o m = false →
      (p.body = .bulkRead ia n →
        ∃ u, exec (.bulkReadRequest k) s = .next u ∧ ElsewhereKept s u p.dst ∧ (u.core p.dst).sp = c.sp ∧
          (let got := p.got ++ memRead c.sp (c.spPhys o) m
           (last → Answered s u k p (.bulkData got (if p.bad then .poison else .ok))) ∧
           (¬ last → u.net = { p with part := p.part + m, got := got } :: s.net.eraseIdx k))) ∧
      (∀ d z, p.body = .bulkWrite ia d z → Memory.wf c.sp = true → p.bad = false → p.got = [] →
        ∃ u, exec (.bulkWrite k) s = .next u ∧ ElsewhereKept s u p.dst ∧ Stored c.sp (u.core p.dst).sp (c.spPhys o) ((d.drop p.part).take m) ∧
          (last → Answered s u k p (.ack false .ok)) ∧
          (¬ last → u.net = { p with part := p.part + m } :: s.net.eraseIdx k)))

/-- What else arrives at a core (R111, R155, R156, R161, R171, R174, R217, R380, R390): a matrix command joins the queue; a withdrawal takes its entry from
the wait table; an event coalesces, takes a free entry or is refused; a neighbour's value fills its register; a nomad context takes the lowest free
slot; a record joins the deque; a debug access reads a word of the register windows.
Clauses that rest on the model's choice: log entries 30, 53. -/
def Obligations.CoresTakeEveryKindOfPacket : Prop :=
  ∀ (s : State) (k : Nat) (p : Packet), Meets s k p →
    let c := s.core p.dst
    (∀ key tag op acc desc z o x, p.body = .matrix key tag op acc desc → c.mxEn = true → key = c.mxKey → c.matrixQ.length < 4 → placeOf desc = .sp z o →
      tileOfDesc p.dst p.lid op acc tag p.src ((s.core z).spRead o 64) = some x →
      ∃ u, exec (.matrixCommand k) s = .next u ∧ Answered s u k p (.ack false .ok) ∧ ElsewhereKept s u p.dst ∧ (u.core p.dst).matrixQ = c.matrixQ ++ [x]) ∧
    (∀ ns seq, p.body = .withdraw ns seq → (∃ e ∈ c.waits, e.slot = none ∧ e.node = p.src ∧ e.ns = ns ∧ e.seq = seq) →
      ∃ u, exec (.waitWithdrawal k) s = .next u ∧ Answered s u k p (.ack false .ok) ∧ ElsewhereKept s u p.dst ∧
        ∀ e, e ∈ (u.core p.dst).waits ↔ e ∈ c.waits ∧ ¬ (e.slot = none ∧ e.node = p.src ∧ e.ns = ns ∧ e.seq = seq)) ∧
    (∀ stream index vt units src, p.body = .event stream index vt units src → c.lid = p.lid → c.lid ≠ 0 → stream ≠ 15 → c.reserved = [] →
      (∀ x, coalesce stream index vt units c.inbox = some x →
        ∃ u, exec (.event k) s = .next u ∧ Answered s u k p (.ack false .ok) ∧ (u.core p.dst).inbox = x.1) ∧
      (coalesce stream index vt units c.inbox = none →
        (c.inboxFree stream = true → c.refusals = [] →
          ∃ u, exec (.event k) s = .next u ∧ Answered s u k p (.ack false .ok) ∧
            (u.core p.dst).inbox = c.inbox ++ [.event stream index vt units src p.seq c.arrivals]) ∧
        (c.inboxFree stream = false ∨ c.refusals ≠ [] →
          ∃ u, exec (.event k) s = .next u ∧ Answered s u k p (.nack .full) ∧ (u.core p.dst).inbox = c.inbox))) ∧
    (∀ d v, p.body = .neighbour d v → s.stepCore p.dst = true →
      ∃ u, exec (.stepModeNeighbourTransfer k) s = .next u ∧ u.net = s.net.eraseIdx k ∧ ElsewhereKept s u p.dst ∧
        (u.core p.dst).nrx.toList[Dir.num (Dir.opp d)]? = some (some v)) ∧
    (∀ regs pc ps hp hs pn slot l st, p.body = .context regs pc ps hp hs pn → regs.length = 15 → c.lid ≠ 0 → c.lid = p.lid → s.launch? c.lid = some l →
      l.inRect hp = true → hp ≠ p.dst → c.freeSlots.head? = some slot → c.halted = false → c.recasting = none → (∀ g ∈ c.groups, g.stopped = none) →
      ((s.core p.src).threads.find? fun x => x.2.run == Run.transit p.dst && x.2.homePos p.src == hp && x.2.homeSlot x.1 == hs) = some st →
      (∀ g, s.groupOf p.src st.2 = some g → g.stopped = none ∧ g.dying = none) → (s.core p.src).halted = false →
      ∃ u t', exec (.threadContext k) s = .next u ∧ Answered s u k p (.ack false .ok) ∧ ElsewhereKept s u p.dst ∧ u.thread? p.dst slot = some t' ∧
        t'.pc = pc ∧ t'.p = ps ∧ t'.run = .running ∧ t'.home = some (hp, hs) ∧ t'.status = (if pn then 8#64 else 0#64) ∧ t'.group = st.2.group ∧
        ∀ i, i < 15 → t'.rx (BitVec.ofNat 5 (i + 1)) = regs.getD i 0#64) ∧
    (∀ r z l, p.body = .bulkWrite (dqinIa p.dst) r z → c.lid = p.lid → s.launch? c.lid = some l → (records c).length < 4096 → recordFate l c p.dst r = .mine →
      ∃ u, exec (.bulkWrite k) s = .next u ∧ Answered s u k p (.ack false .ok) ∧ ElsewhereKept s u p.dst ∧
        records (u.core p.dst) = records c ++ [(r, p.mark)] ∧ (u.core p.dst).xferRecv = c.xferRecv + 1#32) ∧
    (∀ off, p.body = .debugAccess off → p.src = mgmtNode →
      ∃ u, exec (.debugAccess k) s = .next u ∧ Answered s u k p (.debugReply (c.regWindow off)) ∧ u.cores = s.cores ∧ u.mem = s.mem)

/-- Agents, forwards and probes (R33, R34, R73, R74, R77): the atomic engine performs a delegated atomic at its home, in LPDDR or in host memory, and sends
its record; the link agent answers a forwarded read from the host's copy of its line, or performs the request, and returns the credit in a packet of its own; a probed line
leaves the host, its data stored at home; a credit frees its forward slot, and the request that waited for a probe is performed.
Clauses that rest on the model's choice: log entries 23, 32. -/
def Obligations.AgentsPerformAndForward : Prop :=
  (∀ (s : State) (k : Nat) (p : Packet) (ia b : Nat) (host : Bool) (w : AtomWidth) (o : AmoOp) (v : Word) (tag : BitVec 8),
    Arrives s k p → Fresh s p → 0x800 ≤ p.dst → p.dst < 0xC00 → p.dst % 256 = 2 → p.body = .delegated ia w o v tag → p.src < 0x400 →
    (s.leaf p.dst).bounds.length < 256 → Lies s (ia % 2 ^ 47) (atomBytes w) host b → NotHeld s (ia % 2 ^ 47) (atomBytes w) →
    s.memPoison (ia % 2 ^ 47) (atomBytes w) = false → Memory.wf s.mem = true → Memory.wf s.host = true →
    let a := b + ia % 2 ^ 47 % 65536
    let old := wordOf (memRead (if host then s.host else s.mem) a (atomBytes w))
    ∃ u rest, exec (.delegatedAtomic k) s = .next u ∧ u.net = s.net.eraseIdx k ++ [replyTo p.dst p.src p.ns p.seq (.ack false .ok)] ++ rest ∧
      Stored (if host then s.host else s.mem) (if host then u.host else u.mem) a (bytesOf (amoWord w o old v) (atomBytes w)) ∧
      (if host then u.mem = s.mem else u.host = s.host) ∧
      ∃ r ∈ u.reqs, r.src = p.dst ∧ r.dst = p.src ∧ r.body = .record (ramoRecord 0 tag p.vt old) ∧ r.use = .record) ∧
  (∀ (s : State) (k : Nat) (p : Packet) (req : Body) (orig ia b : Nat) (oseq : BitVec 16) (ons : Bool),
    s.net[k]? = some p → p.spot = .ejected → p.dst = linkNode → Fresh s p → p.body = .forwarded req orig oseq ons → req.ia? = some ia →
    let off := ia % 2 ^ 47
    let back := replyTo p.dst p.src true (tblGetD (s.node p.dst).seqN p.src 0#16) (.probeReply (some (p.ns, p.seq)))
    (∀ n h, req = .read ia n → tblGet? s.hostLines (off / 128) = some h → ∃ u, exec (.forwardedRequest k) s = .next u ∧ u.mem = s.mem ∧
      u.net = s.net.eraseIdx k ++ [replyTo p.src orig ons oseq (.data ((h.data.drop (ia % 128)).take n)
        (if (h.lo = true ∧ ia % 128 < 64) ∨ (h.hi = true ∧ 64 < ia % 128 + n) then .poison else .ok))] ++ [back]) ∧
    (tblGet? s.hostLines (off / 128) = none → Lies s off req.size false b → s.memPoison off req.size = false → Memory.wf s.mem = true →
    let a := b + off % 65536
    (∀ n, req = .read ia n → ∃ u, exec (.forwardedRequest k) s = .next u ∧ u.mem = s.mem ∧
      u.net = s.net.eraseIdx k ++ [replyTo p.src orig ons oseq (.data (memRead s.mem a n) .ok)] ++ [back]) ∧
    (∀ d z, req = .write ia d z → ∃ u, exec (.forwardedRequest k) s = .next u ∧ Stored s.mem u.mem a d ∧
      u.net = s.net.eraseIdx k ++ [replyTo p.src orig ons oseq (.ack false .ok)] ++ [back]))) ∧
  (∀ (s : State) (k : Nat) (p : Packet) (line : Nat), s.net[k]? = some p → p.spot = .ejected → p.dst = linkNode → p.body = .probe line →
    ∃ u, exec (.probe k) s = .next u ∧ Answered s u k p (.probeReply none) ∧
      (tblWf s.hostLines = true → ∀ x, tblGet? u.hostLines x = if x = line then none else tblGet? s.hostLines x) ∧
      (tblGet? s.hostLines line = none → u.mem = s.mem ∧ u.host = s.host) ∧
      (∀ h b, tblGet? s.hostLines line = some h → s.cached? (line * 128) = some (false, b) → h.data.length = 128 → Memory.wf s.mem = true →
        Stored s.mem u.mem (b + line * 128 % 65536) h.data ∧ u.host = s.host)) ∧
  (∀ (s : State) (k : Nat) (p : Packet) (fwd : Option (Bool × BitVec 16)) (f : Fwd), s.net[k]? = some p → p.spot = .ejected → p.body = .probeReply fwd →
    ((s.node p.dst).forward.find? fun f => f.sent && f.node == p.src && f.ns == (fwd.getD (p.ns, p.seq)).1 && f.seq == (fwd.getD (p.ns, p.seq)).2) = some f →
    (∀ g ∈ (s.node p.dst).forward, g.sent = true) →
    (f.probe = false → ∃ u, exec (.probeReply k) s = .next u ∧ u.net = s.net.eraseIdx k ∧ u.mem = s.mem ∧
      (u.node p.dst).forward = (s.node p.dst).forward.erase f) ∧
    (∀ ia w o v b, f.probe = true → f.packet.body = .reduce ia w o v → Lies s (ia % 2 ^ 47) (atomBytes w) false b →
      s.memPoison (ia % 2 ^ 47) (atomBytes w) = false → Memory.wf s.mem = true →
      let a := b + ia % 2 ^ 47 % 65536
      ∃ u, exec (.probeReply k) s = .next u ∧ (u.node p.dst).forward = (s.node p.dst).forward.erase f ∧
        u.net = s.net.eraseIdx k ++ [replyTo f.packet.dst f.packet.src f.packet.ns f.packet.seq (.ack false .ok)] ∧
        Stored s.mem u.mem a (bytesOf (amoWord w (redAmo o) (wordOf (memRead s.mem a (atomBytes w))) v) (atomBytes w))))

/-- Answers at the requester (R28, R36 to R38, R72, R151, R155, R164, R175, R176): data goes to the pending register, with its line to the L1 or the
instruction cache; an acknowledgement ends its request, or says that it waits; refusals set the backoff, fill the retry slot, or are held as a fault;
a refused context runs on where it was; a space notice sends the refused event again.
Clauses that rest on the model's choice: log entries 28, 29, 30. -/
def Obligations.AnswersReachTheirRequests : Prop :=
  ∀ (s : State) (k : Nat) (p : Packet),
    (∀ r slot t bs, Names s k p r → Asker s r slot t →
      let Writes (i : Instr) (rd : Reg) (v : Word) : Prop :=
        ∃ u t', exec i s = .next u ∧ u.thread? r.src slot = some t' ∧ AfterX t t' (some (rd, v)) ∧ t'.pc = t.pc ∧ t'.run = t.run ∧ t'.p = t.p ∧ u.mem = s.mem ∧
          u.host = s.host ∧ u.reqs.length < s.reqs.length
      (∀ rd n sg off lru, p.body = .data bs .ok → r.use = .load rd n sg off none lru → Writes (.replyWithData k) rd (valueOf n sg ((bs.drop off).take n))) ∧
      (∀ rd w, p.body = .data bs .ok → r.use = .atomic rd w → Writes (.replyWithData k) rd (atomExt w (wordOf bs))) ∧
      (∀ rd n sg off line lru, p.body = .bulkData bs .ok → r.use = .load rd n sg off (some line) lru →
        Writes (.bulkReadData k) rd (valueOf n sg ((bs.drop off).take n)) ∧
        ∃ u, exec (.bulkReadData k) s = .next u ∧ (line, bs, false) ∈ (u.core r.src).l1) ∧
      (∀ line, p.body = .bulkData bs .ok → r.use = .fetch line →
        ∃ u, exec (.bulkReadData k) s = .next u ∧ (line, bs, false) ∈ (u.core r.src).ic ∧ u.thread? r.src slot = some t) ∧
      (p.body = .ack false .ok → r.use = .store →
        ∃ u, exec (.acknowledgement k) s = .next u ∧ u.thread? r.src slot = some t ∧ u.mem = s.mem ∧ u.reqs.length < s.reqs.length) ∧
      (p.body = .nack .fenced → r.use = .store → r.handler = false → t.held = none →
        ∃ u t', exec (.negativeAcknowledgement k) s = .next u ∧ u.thread? r.src slot = some t' ∧ u.reqs.length < s.reqs.length ∧
          t' = { t with held := some { code := 0x09#8, detail := 0#4, async := true, tval := r.va } })) ∧
    (∀ r, Names s k p r →
      (p.body = .ack true .ok → (∀ h, r.use ≠ .ingress h) →
        ∃ u r', exec (.acknowledgement k) s = .next u ∧ r' ∈ u.reqs ∧ r' = { r with waiting := true, tries := 0, sent := s.time } ∧
          u.reqs.length = s.reqs.length ∧ u.net = s.net.eraseIdx k) ∧
      (p.body = .nack .busy →
        ∃ u r', exec (.negativeAcknowledgement k) s = .next u ∧ r' ∈ u.reqs ∧
          r' = { r with backoff := some (64 * 2 ^ min r.busy 6), busy := r.busy + 1, sent := s.time } ∧ u.net = s.net.eraseIdx k) ∧
      (∀ slot, p.body = .nack .full → r.use = .event slot →
        ∃ u, exec (.negativeAcknowledgement k) s = .next u ∧ u.reqs.length < s.reqs.length ∧
          ∀ v ∈ (u.core r.src).evSlots, v.isFor r.dst = true → v.retry = true) ∧
      (∀ slot t, p.body = .migRefusal → r.use = .context slot → s.thread? r.src slot = some t →
        ∃ u, exec (.migrationRefusal k) s = .next u ∧ u.thread? r.src slot = some { t with run := .running, stay := true })) ∧
    (∀ v, s.net[k]? = some p → p.spot = .ejected → p.body = .space → p.dst < 0x400 → ((s.core p.dst).evSlots.find? fun v => v.dst == p.src && v.retry) = some v →
      (∀ x, v.body ≠ .record x) →
      ∃ u r, exec (.spaceNotice k) s = .next u ∧ u.reqs.length = s.reqs.length + 1 ∧ r ∈ u.reqs ∧ r.src = p.dst ∧ r.dst = v.dst ∧ r.body = v.body ∧
        r.use = .event v.slot ∧ { v with retry := false } ∈ (u.core p.dst).evSlots)

/-- Timers of requests (R28, R36, R38): after 50 µs in the package, or 2 ms at a peer, the same packet goes again with RETRY, at most three times, and then
the access is lost; after BUSY it goes when its wait of handshakes is over; a waiting tagged operation goes again after 1 ms. Before its time nothing
happens.
Clauses that rest on the model's choice: log entry 28. -/
def Obligations.RequestTimersResendOrLose : Prop :=
  ∀ (s : State) (j : Nat) (r : Req), s.reqs[j]? = some r →
    let limit := if r.toPeer then 2000000 else 50000
    let Again (i : Instr) (n : Nat) : Prop :=
      ∃ u q r', exec i s = .next u ∧ u.net = s.net ++ [q] ∧ q.src = r.src ∧ q.dst = r.dst ∧ q.seq = r.seq ∧ q.ns = r.ns ∧ q.body = r.body ∧ q.retry = true ∧
        r' ∈ u.reqs ∧ r'.tries = n ∧ r'.sent = s.time ∧ r'.backoff = none ∧ r'.seq = r.seq ∧ r'.use = r.use ∧ u.mem = s.mem ∧ u.reqs.length = s.reqs.length
    (r.parked = false → r.waiting = false → r.backoff = none → limit ≤ (s.time - r.sent).toNat →
      (r.tries < 3 → Again (.retryTimeout j) (r.tries + 1)) ∧
      (∀ slot t, 3 ≤ r.tries → r.toPeer = false → r.use = .store → Asker s r slot t → r.handler = false → t.held = none →
        ∃ u, exec (.retryTimeout j) s = .next u ∧ u.reqs.length < s.reqs.length ∧
          u.thread? r.src slot = some { t with held := some { code := 0x09#8, detail := 0#4, async := true, tval := r.va } })) ∧
    ((s.time - r.sent).toNat < limit → exec (.retryTimeout j) s = .next s) ∧
    (∀ n, r.backoff = some n → (n ≤ (s.time - r.sent).toNat * 4 → Again (.busyBackoffExpiry j) r.tries) ∧
      ((s.time - r.sent).toNat * 4 < n → exec (.busyBackoffExpiry j) s = .next s)) ∧
    (∀ o rd, r.use = .tagged o rd → r.waiting = true → 1000000 ≤ (s.time - r.sent).toNat →
      (r.tries < 3 → r.backoff = none → Again (.waitResend j) (r.tries + 1)) ∧
      (∀ slot t, 3 ≤ r.tries → r.toPeer = false → Asker s r slot t → r.handler = false → t.held = none →
        ∃ u t', exec (.waitResend j) s = .next u ∧ u.thread? r.src slot = some t' ∧ u.reqs.length < s.reqs.length ∧
          t'.held = some { code := 0x09#8, detail := 0#4, async := true, tval := r.va })) ∧
    ((s.time - r.sent).toNat < 1000000 → exec (.waitResend j) s = .next s)

/-- Control and device registers (R6, R44, R68, R69, R71, R81, R118, R122, R134, R164, R180, R219, R225). A register that reads back what is written keeps its
own bits and no other register changes; messages of the control network write and read them, a write of PREQ.HALT halts the core; INBCTL takes effect at
an empty inbox and is ignored as a whole where it is bad; L1CTL empties the L1; TRCCTL starts the ring with TSFULL; QCTL, XINV, the peer windows and the
checking control take their fields.
Clauses that rest on the model's choice: log entries 3, 42. -/
def Obligations.ControlRegistersKeepWhatIsWritten : Prop :=
  (∀ (s : State) (p off : Nat) (v m : Word), ctlMask off = some m →
    (s.ctlWrite p off v).ctlRead p off = v &&& m ∧ OnlyAt s (s.ctlWrite p off v) p ∧
    (∀ o m', ctlMask o = some m' → o ≠ off → (s.ctlWrite p off v).ctlRead p o = s.ctlRead p o) ∧
    ((s.ctlWrite p off v).core p).threads = (s.core p).threads ∧ ((s.ctlWrite p off v).core p).sp = (s.core p).sp) ∧
  (∀ (s : State) (k p off : Nat) (v m : Word), ctlMask off = some m →
    (s.ctl[k]? = some (.write p off v) → exec (.ctrlWrite k) s = .next ({ s with ctl := s.ctl.eraseIdx k }.ctlWrite p off v)) ∧
    (∀ ia, placeOf ia = .ctl p off → exec (.registerWrite ia v) s = .next (s.ctlWrite p off v))) ∧
  (∀ (s : State) (k p : Nat) (v : Word), s.ctl[k]? = some (.write p 0x220 v) → v.getLsbD 0 = true → HaltsAtOnce s p →
    ∃ u, exec (.ctrlWrite k) s = .next u ∧ u.ctl = s.ctl.eraseIdx k ∧ (u.core p).halted = true ∧ AllHeld u p ∧ (u.core p).sp = (s.core p).sp ∧
      u.mem = s.mem) ∧
  (∀ (s : State) (p : Nat), CtlMsg.write p 0x220 1#64 ∈ s.ctl → HaltsAtOnce s p →
    ∃ u, exec (.haltRequest p) s = .next u ∧ (u.core p).halted = true ∧ AllHeld u p ∧ (u.core p).sp = (s.core p).sp ∧ u.mem = s.mem) ∧
  (∀ (s : State) (k p off : Nat) (v : Word),
    (s.ctl[k]? = some (.read p off) → exec (.ctrlRead k) s = .next { s with ctl := s.ctl.eraseIdx k ++ [.data p off (s.ctlRead p off)] }) ∧
    (s.ctl[k]? = some (.data p off v) → exec (.ctrlData k) s = .next { s with ctl := s.ctl.eraseIdx k })) ∧
  (∀ (s : State) (ia : Nat) (v : Word), placeOf ia = .dev 0x50100 →
    exec (.registerWrite ia v) s = .next { s with fw := { s.fw with
      chkEn := v.getLsbD 0, chkInc := (v.extractLsb' 8 8).toNat, chkQth := (v.extractLsb' 16 8).toNat } }) ∧
  (∀ (s : State) (p : Nat) (v : Word),
    let cap := (v.extractLsb' 0 9).toNat
    let res := (v.extractLsb' 16 5).toNat
    ∃ u, exec (.inbctlWrite p v) s = .next u ∧ OnlyAt s u p ∧
      u.core p = (if 4 ≤ cap ∧ cap ≤ 256 ∧ res ≤ 16 ∧ res < cap then
          (if (s.core p).inbox = [] then { s.core p with inbCap := cap, inbRes15 := res, inbHeld := none }
           else { s.core p with inbHeld := some (BitVec.ofNat 64 (cap + res * 2 ^ 16)) })
        else s.core p)) ∧
  (∀ (s : State) (p : Nat) (v : Word), (s.core p).inbHeld = some v → (s.core p).inbox = [] →
    ∃ u, exec (.inbctlApply p) s = .next u ∧ OnlyAt s u p ∧
      u.core p = { s.core p with inbCap := (v.extractLsb' 0 9).toNat, inbRes15 := (v.extractLsb' 16 5).toNat, inbHeld := none }) ∧
  (∀ (s : State) (p : Nat), ∃ u, exec (.l1ctlInv p) s = .next u ∧ u = { s with cores := u.cores, reqs := u.reqs } ∧ (∀ q, q ≠ p → u.core q = s.core q) ∧
    u.core p = { s.core p with l1 := [] } ∧ ∀ r ∈ u.reqs, r.src = p → ∀ rd n sg off line lru, r.use ≠ .load rd n sg off (some line) lru) ∧
  (∀ (s : State) (p : Nat) (v : Word), ∃ u, exec (.wdctlWrite p v) s = .next u ∧ OnlyAt s u p ∧
    u.core p = { s.core p with wdLimit := v.extractLsb' 0 32, wdTime := s.time }) ∧
  (∀ (s : State) (p : Nat) (v : Word), ∃ u, exec (.trcctlWrite p v) s = .next u ∧ (∀ q, q ≠ p → u.core q = s.core q) ∧
    (s.feature 2 = false → u.core p = { s.core p with trcctl := v &&& 0x1E#64 }) ∧
    (s.feature 2 = true → v.getLsbD 0 = false → u.core p = { s.core p with trcctl := v &&& 0x1F#64 }) ∧
    (s.feature 2 = true → v.getLsbD 0 = true →
      u.core p = { s.core p with trcctl := v &&& 0x1F#64, trchead := (if (s.core p).trcStall then 0#64 else 2#64), trcPc := 0#64, trcLast := s.time,
                                 trcGap := 0, trcBuf := (if (s.core p).trcStall then [0xF#64, s.time] else []) })) ∧
  (∀ (s : State) (q : Nat) (v : Word), 1 ≤ q → q < 64 → ∃ u, exec (.qctlWrite q v) s = .next u ∧ (u.queue q).en = v.getLsbD 0 ∧
    (u.queue q).prio = (v.extractLsb' 1 2).toNat ∧ (∀ j, j ≠ q → u.queue j = s.queue j) ∧ (u.queue q).rp = (s.queue q).rp ∧ (u.queue q).base = (s.queue q).base ∧
    (v.getLsbD 0 = true → (s.queue q).en = false →
      (s.queueValid (s.queue q) = true → (u.queue q).state = 1 ∧ (u.queue q).err = 0) ∧
      (s.queueValid (s.queue q) = false → (u.queue q).state = 2 ∧ (u.queue q).err = 3)) ∧
    (v.getLsbD 0 = false → (s.queue q).en = true → (s.queue q).begun = [] → (u.queue q).state = 0)) ∧
  (∀ (s : State) (v : Word), ∃ u, exec (.xinvWrite v) s = .next u ∧ u = { s with fw := u.fw } ∧ (u.devRead 0x30008).getLsbD 63 = false ∧
    u.fw = { s.fw with xinv := s.fw.xinv ++ [((v.extractLsb' 0 47).toNat / 65536, (v.extractLsb' 47 16).toNat + 1)] }) ∧
  (∀ (s : State), ∃ u, exec .xinvDropComplete s = .next u ∧ u = { s with tlb := u.tlb, fw := { s.fw with xinv := [] } } ∧ u.devRead 0x30008 = 1#64 <<< 63 ∧
    ∀ e, e ∈ u.tlb ↔ e ∈ s.tlb ∧ ∀ x ∈ s.fw.xinv, e.page < x.1 ∨ x.1 + x.2 ≤ e.page) ∧
  (∀ (s : State) (i : Nat) (v : BitVec 128), i < 64 →
    let w := v &&& 0x0003FFFFFFFF000000FFFFFFFFFF0000#128
    ∃ u, exec (.peerWindowWrite i v) s = .next u ∧ u = { s with fw := { s.fw with peerWin := u.fw.peerWin, peers := u.fw.peers } } ∧
      tblGet? u.fw.peerWin i = some w ∧ (∀ j, j ≠ i → tblGet? u.fw.peerWin j = tblGet? s.fw.peerWin j) ∧
      ((tblGet? u.fw.peers (w.extractLsb' 48 8).toNat).all (·.1)) = true)

/-- The fabric's slow steps (R32, R39 to R41, R44, R48, R49, R67, R71, R131, R133): starvation is noted; a refused packet is sent again, and a fifth refusal in
a row, a lost handshake or lost training kill a link; a dead link pauses injection, and after the drain the epoch rises, lost packets go and injection
resumes; a lost notice resends or is recorded; latches and the grid's timer; a scrubbed block; a peer that goes down; and the watershed's rounds.
Clauses that rest on the model's choice: log entries 22, 51, 52. -/
def Obligations.LinksFailAndFirmwareGoesOn : Prop :=
  (∀ (s : State) (p : Nat) (pl : Plane), p < 1024 → 64 ≤ tblGetD s.fw.starveCnt (p * 4 + planeNum pl) 0 → ∃ u, exec (.starveAssert p pl) s = .next u ∧
    u = { s with fw := { s.fw with starve := u.fw.starve, starved := u.fw.starved } } ∧
    (∀ k, k ∈ u.fw.starve ↔ k = p * 4 + planeNum pl ∨ k ∈ s.fw.starve) ∧
    ∀ k, k ∈ u.fw.starved ↔ (∃ d < 4, k = hop p d * 4 + (d + 2) % 4) ∨ k ∈ s.fw.starved) ∧
  (∀ (s : State) (p : Nat) (d : Dir) (pl : Plane) (err : LinkError) (x : Packet), p < 1024 → portDead s.fw.deadLinks p (Dir.num d) = false →
    (linkRefuses err = true ∨ err = .handshake) → OnLink s p d (planeNum pl) x →
    let b := (p * 4 + Dir.num d) * 4 + planeNum pl
    (refusals s b x < 4 → ∃ u, exec (.linkReplay p d pl err) s = .next u ∧
      tblGetD u.fw.replay (p * 4 + Dir.num d) 0#32 = tblGetD s.fw.replay (p * 4 + Dir.num d) 0#32 + 1#32 ∧
      refusals u b x = refusals s b x + 1 ∧ tblGetD u.fw.buffers b [] = x :: tblGetD s.fw.buffers b [] ∧
      u.net = (if err = .handshake then s.net else s.net.erase x) ∧ u.fw.deadLinks = s.fw.deadLinks ∧ u.cores = s.cores) ∧
    (4 ≤ refusals s b x → ∃ u, exec (.linkReplay p d pl err) s = .next u ∧ LinkDies s u p d (planeNum pl))) ∧
  (∀ (s : State) (p : Nat) (d : Dir) (pl : Plane), p < 1024 → portDead s.fw.deadLinks p (Dir.num d) = false →
    (∃ u, exec (.linkHandshakeTimeout p ⟨d, pl⟩) s = .next u ∧ LinkDies s u p d (planeNum pl)) ∧
    (∃ u, exec (.linkTrainingLoss p d) s = .next u ∧ LinkDies s u p d 0)) ∧
  (∀ (s : State) (k p pl : Nat) (d : Dir), s.ctl[k]? = some (.linkDead p d pl) →
    ∃ u, exec (.linkDead k) s = .next u ∧ u = { s with ctl := u.ctl, fw := { s.fw with rerouting := true, rerouteAt := s.fw.deadAt } } ∧
      (∀ q, q < 1024 → s.active q = true → CtlMsg.injPause q ∈ u.ctl) ∧ ∃ l, u.ctl = s.ctl.eraseIdx k ++ l ∧ ∀ m ∈ l, isPause m = true) ∧
  (∀ (s : State) (p : Nat), CtlMsg.injPause p ∈ s.ctl →
    ∃ u, exec (.injPause p) s = .next u ∧ TakesCtl s u (.injPause p) ∧ u = { s with cores := u.cores, ctl := u.ctl } ∧
      (∀ q, q ≠ p → u.core q = s.core q) ∧ u.core p = { s.core p with paused := true }) ∧
  (∀ (s : State) (p : Nat), CtlMsg.injResume p ∈ s.ctl →
    ∃ u, exec (.injResume p) s = .next u ∧ TakesCtl s u (.injResume p) ∧ (u.core p).paused = false ∧ (u.core p).threads = (s.core p).threads ∧
      ((∀ r ∈ s.reqs, r.src = p → r.parked = false) → u.net = s.net ∧ u.reqs = s.reqs)) ∧
  (∀ (s : State) (reported : Bool), s.fw.rerouting = true → Drained s reported →
    ∃ u, exec (.rerouteDrainEnd reported) s = .next u ∧ u.fw.rerouting = false ∧ u.fw.fepoch = s.fw.fepoch + 1#32 ∧ u.fw.tableDead = s.fw.deadLinks ∧
      (∀ q, q < 1024 → s.active q = true → CtlMsg.injResume q ∈ u.ctl) ∧ (∀ m ∈ u.ctl, isPause m = false) ∧
      (∀ e ∈ s.fw.buffers, portDead s.fw.deadLinks (e.1 / 16) (e.1 / 4 % 4) = true → ∀ x ∈ e.2, ∀ n, x.noticeNode = some n → (n, x) ∈ u.fw.lostNotices) ∧
      (∀ e ∈ u.fw.buffers, portDead s.fw.deadLinks (e.1 / 16) (e.1 / 4 % 4) = false) ∧
      ((∀ r ∈ s.reqs, 0x400 ≤ r.src → r.parked = false) → u.net = s.net)) ∧
  (∀ (s : State) (reported : Bool), s.fw.rerouting = true → ¬ Drained s reported → exec (.rerouteDrainEnd reported) s = .next s) ∧
  (∀ (s : State) (k n : Nat) (x : Packet), s.fw.lostNotices[k]? = some (n, x) →
    let far := if x.src = n then x.dst else x.src
    let mine := s.reqs.find? fun r => r.src == n && r.dst == far && r.ns == x.ns && r.seq == x.seq && !r.parked
    (∀ r, 0x400 ≤ n → mine = some r → r.tries < 3 →
      ∃ u, exec (.lostNotice k) s = .next u ∧ u.fw.lostNotices = s.fw.lostNotices.eraseIdx k ∧
        (let r' : Req := { r with tries := r.tries + 1, sent := s.time, backoff := none, colour := s.fw.colour }
         r' ∈ u.reqs ∧ ∃ q : Packet, u.net = s.net ++ [q] ∧ q.src = n ∧ q.dst = far ∧ q.seq = r.seq ∧ q.body = r.body ∧ q.retry = true)) ∧
    (n < 0x400 → s.active n = true → mine = none →
      (s.node n).forward.find? (fun f => f.sent && f.node == far && f.ns == x.ns && f.seq == x.seq) = none →
      (s.core n).inboxFree 15 = true → (s.core n).refusals = [] → (s.core n).reserved = [] →
      ∃ u, exec (.lostNotice k) s = .next u ∧ u.fw.lostNotices = s.fw.lostNotices.eraseIdx k ∧ u.net = s.net ∧
        (u.core n).inbox = (s.core n).inbox ++
          [.record (lostRecord (s.core n) far x.seq x.body.plane x.body.pkind s.fw.fepoch) (s.core n).arrivals])) ∧
  (∀ (s : State) (p : Nat), CtlMsg.gridLatch p s.fw.latchN ∈ s.ctl →
    ∃ u, exec (.gridLatch p) s = .next u ∧ TakesCtl s u (.gridLatch p s.fw.latchN) ∧
      ((∃ m ∈ u.ctl, isLatch m = true) → (tblGet? u.fw.latches p).isSome = true ∧ u.fw.cgHead = s.fw.cgHead ∧ u.fw.cgBusy = s.fw.cgBusy) ∧
      ((∀ m ∈ u.ctl, isLatch m = false) → u.fw.cgHead = s.fw.cgHead + 1 ∧ u.fw.cgBusy = false)) ∧
  (∀ (s : State), s.fw.latchedAt.toNat / 10000 < s.time.toNat / 10000 → s.fw.ready = true →
    ∃ u, exec .counterGridTimer s = .next u ∧ u = { s with ctl := u.ctl, fw := u.fw } ∧ u.fw.latchedAt.toNat = s.time.toNat / 10000 * 10000 ∧
      u.fw.cgOvr = ((s.fw.cgOvr && !s.fw.cgPend.clear) || s.fw.cgBusy) ∧ u.fw.cgPend = {} ∧
      u.fw.cgBase = s.fw.cgPend.base.getD s.fw.cgBase ∧ u.fw.cgSlots = s.fw.cgPend.slots.getD s.fw.cgSlots ∧ u.fw.cgEn = s.fw.cgPend.en.getD s.fw.cgEn ∧
      u.fw.cgBusy = u.fw.cgEn ∧ ((∃ m ∈ u.ctl, isLatch m = true) ↔ u.fw.cgEn = true) ∧
      (u.fw.cgEn = true → ∀ p, p < 1024 → CtlMsg.gridLatch p s.fw.cgHead ∈ u.ctl)) ∧
  (∀ (s : State) (block : Nat), s.fw.scrubEn = true → s.fw.ready = true → (block ≠ 0 ∨ s.fw.scrubPend = none) → block < 0xBD00000000 / 64 → tblGet? s.carveUpsets (block / 64) = none →
    ScrubStored s →
    (tblGet? s.upsets block = none → exec (.patrolScrub block false Upset.none) s = .next s) ∧
    let poisoned (u : State) := ∀ b, b ∈ u.bad ↔ b = block ∨ b ∈ s.bad
    ∃ u, exec (.patrolScrub block false Upset.none) s = .next u ∧ match (s.blockOutcome block).1 with
      | .clean => u.bad = s.bad ∧ u.fw = s.fw
      | .ce => u.bad = s.bad ∧ Scrubbed s u 0
      | .ue => poisoned u ∧ Scrubbed s u 1
      | .tm => poisoned u ∧ Scrubbed s u 2
      | .both => poisoned u ∧ Scrubbed s u 3) ∧
  (∀ (s : State) (block : Nat), s.fw.scrubEn = true → s.fw.ready = true → block < 0xBD00000000 / 64 → ScrubStored s →
    ∃ u, exec (.patrolScrub block true Upset.none) s = .next u ∧ match s.carveOutcome (block / 64) with
      | .ce => u.bad = s.bad ∧ Scrubbed s u 0
      | .ue => (∀ b, b ∈ u.bad ↔ b / 64 = block / 64 ∨ b ∈ s.bad) ∧ Scrubbed s u 1
      | _ => u = s) ∧
  (∀ (s : State) (block : Nat) (co : Bool) (u : Upset),
    exec (.patrolScrub block co u) s = exec (.patrolScrub block co Upset.none) (s.upset block co u)) ∧
  (∀ (s : State) (h : Nat) (en : Bool), s.fw.scrubPend = some (h, en) →
    exec (.patrolScrub 0 false Upset.none) s =
      exec (.patrolScrub 0 false Upset.none) { s with fw := { s.fw with scrubHours := h, scrubEn := en, scrubPend := none } }) ∧
  (∀ (s : State) (dev : Nat) (why : PeerReason), dev < 255 → s.peerLive dev = true →
    ∃ u, exec (.peerNotice dev why) s = .next u ∧ tblGet? u.fw.peers dev = some (false, why) ∧
      ∀ g ∈ s.gangs, ∀ e ∈ g.entries, e.dev = dev → ∃ g' ∈ u.gangs, g'.id = g.id ∧ g'.peerLost = true ∧ e.member ∈ g'.departed) ∧
  (∀ (s : State), s.fw.wsCur = none → s.fw.ready = true → 2000 * (s.fw.wsRound + 1) ≤ s.time.toNat / 2000 * 2000 → s.fw.wsPub.toNat ≤ s.time.toNat / 2000 * 2000 →
    ∃ u, exec .watershedRound s = .next u ∧ u.fw.colour = ((s.fw.wsRound + 1) % 2 == 1) ∧
      (∀ p c, tblGet? s.cores p = some c → (u.core p).latched = s.coreContribution p c) ∧ s.fw.gvt.toNat ≤ u.fw.gvt.toNat ∧
      ((u.fw.wsRound = s.fw.wsRound + 1 ∧ u.fw.wsCur = none) ∨
       (u.fw.wsRound = s.fw.wsRound ∧ ∃ r, u.fw.wsCur = some r ∧ r.k = s.fw.wsRound + 1 ∧ r.s ≠ r.v))) ∧
  (∀ (s : State) (r : WsRound), s.fw.wsCur = some r →
    (100 ≤ (s.time - r.last).toNat →
      let x := s.sumCounts ((r.k + 1) % 2 == 1)
      ∃ u, exec .watershedRereduce s = .next u ∧ (x.1 = x.2 → Publishes s u r false) ∧
        (x.1 ≠ x.2 → u = { s with fw := { s.fw with wsCur := some { r with s := x.1, v := x.2, last := s.time } } })) ∧
    (100000 ≤ (s.time - r.at0).toNat → ∃ u, exec .watershedForced s = .next u ∧ Publishes s u r true) ∧
    ((s.time - r.at0).toNat < 100000 → exec .watershedForced s = .next s))

/-- The timers of a core and the start and spread of its tasks (R46, R108, R109, R111, R112, R175, R194, R211, R219, R390, R396, R415): reservations lapse, refused
sources retry, old dale entries are flushed, the watchdog traps, `wfe` ends; the top record starts its group; refills and steals move records and lose none;
and the barrier tree releases a full step.
Clauses that rest on the model's choice: log entries 1, 59. -/
def Obligations.CoreTimersAndThieves : Prop :=
  (∀ (s : State) (p : Nat) (r : Reservation) (l : List Reservation), (s.core p).reserved = r :: l →
    ((s.time - r.at0).toNat < 1000 → exec (.inboxReservationLapse p) s = .next s) ∧
    (1000 ≤ (s.time - r.at0).toNat → (s.core p).heldGvt = none →
      ((s.core p).refusals = [] → ∃ u, exec (.inboxReservationLapse p) s = .next u ∧ OnlyAt s u p ∧ u.core p = { s.core p with reserved := l }) ∧
      (∀ x xs, (s.core p).refusals = x :: xs → ({ s.core p with reserved := l } : Core).inboxFree (if x.2 then 15 else 0) = true →
        ∃ u k, exec (.inboxReservationLapse p) s = .next u ∧ u = { s with cores := u.cores, nodes := u.nodes, net := u.net } ∧
        (∀ q, q ≠ p → u.core q = s.core q) ∧ u.core p = { s.core p with reserved := l ++ [{ src := x.1, sys := x.2, at0 := s.time }], refusals := xs } ∧
        u.net = s.net ++ [k] ∧ k.dst = x.1 ∧ k.src = p ∧ k.body = .space))) ∧
  (∀ (s : State) (p i : Nat) (v : EvSlot), p < 0x400 → (s.core p).evSlots[i]? = some v → v.retry = true → s.listed p v.dst = false →
    1000 ≤ (s.time - v.at0).toNat →
    ((∀ r, v.body ≠ .record r) → ∃ u, exec (.refusalRetryExpiry p i) s = .next u ∧ SendsFrom s u p none v.dst v.body (.event v.slot) ∧
      (∀ q, q ≠ p → u.core q = s.core q) ∧ (u.core p).evSlots = (s.core p).evSlots.map fun w => if w = v then { w with retry := false } else w) ∧
    (∀ r, v.body = .record r → v.dst = p → (s.core p).inboxFree 15 = true → (s.core p).refusals = [] → (s.core p).reserved = [] →
      ∃ u, exec (.refusalRetryExpiry p i) s = .next u ∧ OnlyAt s u p ∧ (u.core p).inbox = (s.core p).inbox ++ [.record r (s.core p).arrivals] ∧
        (u.core p).evSlots = (s.core p).evSlots.erase v)) ∧
  (∀ (s : State) (n i : Nat) (r : Req), 0x400 ≤ n → (s.reqs.filter fun r => r.src == n && r.use == .record && r.parked && r.waiting)[i]? = some r →
    s.listed n r.dst = false → 1000 ≤ (s.time - r.sent).toNat →
    ∃ u r', exec (.refusalRetryExpiry n i) s = .next u ∧ u.reqs = (s.reqs.map fun q => if q = r then r' else q) ∧ r'.src = r.src ∧ r'.dst = r.dst ∧ r'.body = r.body ∧
      r'.use = .record ∧ r'.waiting = false ∧
      ((r'.parked = true ∧ u.net = s.net) ∨ ∃ k : Packet, u.net = s.net ++ [k] ∧ k.src = n ∧ k.dst = r.dst ∧ k.seq = r'.seq ∧ k.body = r.body)) ∧
  (∀ (s : State) (d i : Nat) (x : Nat × DruEntry), (s.dru.filter fun e => e.1 == d)[i]? = some x →
    ((s.time - x.2.born).toNat < 100000 → exec (.daleEntryAgeFlush d i) s = .next s) ∧
    (100000 ≤ (s.time - x.2.born).toNat → x.2.flushed = false → (s.dru.filter fun y => y.2.id == x.2.id) = [x] →
      let rt := s.route x.2.lid x.2.ia
      ∃ u, exec (.daleEntryAgeFlush d i) s = .next u ∧
        SendsFrom s u (daleRoot d) none rt.node (.reduce rt.ia x.2.w x.2.op x.2.v) (.flush d x.2.id) ∧
        u.dru = (s.dru.map fun y => if y = x then (x.1, { x.2 with flushed := true }) else y) ∧ u.mem = s.mem ∧ ∀ q, (u.core q).sp = (s.core q).sp)) ∧
  (∀ (s : State) (p k : Nat) (t : Thread), s.thread? p k = some t →
    ((s.core p).wdLimit = 0#32 ∨ s.idleUs p t < (s.core p).wdLimit.toNat → exec (.watchdogExpiry p k) s = .next s) ∧
    ((s.core p).wdLimit ≠ 0#32 → (s.core p).wdLimit.toNat ≤ s.idleUs p t → t.trapDue = false →
      (∀ g, t.run = .running → HasHandler s p k t g →
        ∃ u, exec (.watchdogExpiry p k) s = .next u ∧ TookTrap s u p k t g { code := 0x13#8, tval := BitVec.ofNat 64 (s.idleUs p t) }) ∧
      (∀ g w, t.run = .sleeping w → (∀ d n q, w ≠ .reply d n q) → HasHandler s p k t g →
        ∃ u t', exec (.watchdogExpiry p k) s = .next u ∧ u.thread? p k = some t' ∧ TrapKeeps t t' ∧ t'.epc = t.pc ∧ t'.pc = g.tvec ∧
          t'.tcause = 0x2013#64 ∧ t'.tval = BitVec.ofNat 64 (s.idleUs p t) ∧ t'.th = true ∧ t'.run = .running ∧
          (∀ e ∈ (u.core p).waits, ∀ d, e.slot ≠ some (k, d)) ∧ (u.core p).sp = (s.core p).sp ∧ u.mem = s.mem ∧ u.reqs = s.reqs) ∧
      (∀ d n q r, t.run = .sleeping (.reply d n q) → t.wdPending = false → r ∈ s.reqs → r.dst = d → r.ns = n → r.seq = q → r.waitOf p k = true →
        ∃ u, exec (.watchdogExpiry p k) s = .next u ∧ OnlyAt s u p ∧ u.thread? p k = some { t with wdPending := true }))) ∧
  (∀ (s : State) (p k : Nat) (t : Thread) (w : Word), s.thread? p k = some t → t.run = .sleeping (.wfe w) → t.digNext = none →
    ((s.time - w).toNat < 10000 → exec (.wfeTimeout p k) s = .next s) ∧
    (10000 ≤ (s.time - w).toNat → ∃ u t', exec (.wfeTimeout p k) s = .next u ∧ OnlyAt s u p ∧ u.thread? p k = some t' ∧ t'.run = .running ∧
      t'.pc = t.pc + 4#64 ∧ t'.x = t.x ∧ t'.p = t.p ∧ KeepsControl { t with run := .running } t')) ∧
  (∀ (s : State) (p : Nat) (l : Launch) (r : List Byte), s.launch? (s.core p).lid = some l → (records (s.core p)).getLast? = some (r, none) → r.length = 64 →
    (s.core p).auto = true → (s.core p).recasting = none → (s.core p).halted = false → (s.core p).fenced = false → l.st = .running →
    (l.stepMode = true → (s.core p).groupsRun = 0) →
    (∀ q, recordFate l (s.core p) p r = .forward q → ∃ u, exec (.groupStart p) s = .next u ∧
      SendsFrom s u p none q (.bulkWrite (dqinIa q) r false) .push ∧ records (u.core p) = (records (s.core p)).dropLast ∧
      (u.core p).groups = (s.core p).groups) ∧
    (recordFate l (s.core p) p r = .mine → (s.core p).canStart l r = false → exec (.groupStart p) s = .next s) ∧
    (recordFate l (s.core p) p r = .mine → (s.core p).canStart l r = true → Memory.wf (s.core p).sp = true →
      ∃ u, exec (.groupStart p) s = .next u ∧ Started s u p l r ∧ records (u.core p) = (records (s.core p)).dropLast ∧ u.mem = s.mem ∧ u.net = s.net ∧
        ∀ q, q ≠ p → u.core q = s.core q)) ∧
  (∀ (s : State) (p : Nat), (s.core p).deque.length ≤ 8 → (s.core p).spill ≠ [] →
    ∃ u, exec (.dequeRefill p) s = .next u ∧ OnlyAt s u p ∧ records (u.core p) = records (s.core p) ∧
      (u.core p).deque.length = (s.core p).deque.length + min 32 (s.core p).spill.length) ∧
  (∀ (s : State) (p q : Nat), q ∈ s.nearVictims p ↔ (q < 1024 ∧ q ≠ p ∧ basinOf q = basinOf p ∧ (s.core q).lid = (s.core p).lid ∧ (s.core q).hasRole = true ∧
    (s.core q).role = (s.core p).role ∧ ((s.core p).daleOnly = true → daleOf q = daleOf p))) ∧
  (∀ (s : State) (p : Nat) (l : Launch), s.launch? (s.core p).lid = some l → l.st = .running → l.stepMode = false → (s.core p).thief = true →
    (s.core p).stealOut = false →
    ((s.core p).backoff = false →
      (∀ q qs, s.nearVictims p = q :: qs → ∃ u, exec (.stealRound p) s = .next u ∧ u = { s with cores := u.cores, ctl := s.ctl ++ [.stealReq p q] } ∧
        (u.core p).stealOut = true ∧ (u.core p).victims = qs ∧ records (u.core p) = [] ∧ ∀ j, j ≠ p → u.core j = s.core j) ∧
      (s.nearVictims p = [] → (s.core p).daleOnly = true ∨ s.farVictims p l = [] →
        ∃ u, exec (.stealRound p) s = .next u ∧ OnlyAt s u p ∧ (u.core p).backoff = true ∧ (u.core p).emptyRnd = (s.core p).emptyRnd + 1 ∧
          (u.core p).stealAt = s.time ∧ (u.core p).stealOut = false) ∧
      (s.nearVictims p = [] → (s.core p).daleOnly = false → ∀ q, s.farVictims p l ≠ [] →
        let o := (s.core p).lfsr
        let b (k : Nat) : Nat := if o.getLsbD k then 1 else 0
        let v := 2 * o.toNat % 65536 + (b 15 + b 13 + b 12 + b 10) % 2
        (s.farVictims p l)[v % (s.farVictims p l).length]? = some q →
        ∃ u, exec (.stealRound p) s = .next u ∧ u = { s with cores := u.cores, ctl := s.ctl ++ [.stealReq p q] } ∧ (u.core p).lfsr.toNat = v ∧
          (u.core p).draws = 15 ∧ (u.core p).stealOut = true)) ∧
    ((s.core p).backoff = true →
      let w := 1000 * 2 ^ min ((s.core p).emptyRnd - 1) (min (s.core p).boMax 6)
      ((s.time - (s.core p).stealAt).toNat < w → exec (.stealBackoffExpiry p) s = .next s) ∧
      (w ≤ (s.time - (s.core p).stealAt).toNat → ∀ q qs, s.nearVictims p = q :: qs →
        ∃ u, exec (.stealBackoffExpiry p) s = .next u ∧ u = { s with cores := u.cores, ctl := s.ctl ++ [.stealReq p q] } ∧
          (u.core p).stealOut = true ∧ (u.core p).backoff = false ∧ (u.core p).victims = qs))) ∧
  (∀ (s : State) (k a v : Nat), s.ctl[k]? = some (.stealReq a v) →
    ((s.core v).halted = true ∨ (s.core v).fenced = true ∨ s.victimOf a v = false ∨ (∀ x ∈ records (s.core v), x.2 ≠ none) →
      exec (.stealReq k) s = .next { s with ctl := s.ctl.eraseIdx k ++ [.stealReply v a none 0#32 false] }) ∧
    (∀ pre post r, (s.core v).halted = false → (s.core v).fenced = false → s.victimOf a v = true → v < 1024 →
      records (s.core v) = pre ++ (r, none) :: post → (∀ x ∈ pre, x.2 ≠ none) →
      ∃ u, exec (.stealReq k) s = .next u ∧ u.ctl = s.ctl.eraseIdx k ++ [.stealReply v a (some r) (s.core v).vtime s.fw.colour] ∧
        records (u.core v) = pre ++ post ∧ (u.core v).xferSent = (s.core v).xferSent + 1#32 ∧ (u.core v).threads = (s.core v).threads ∧
        ∀ q, q ≠ v → u.core q = s.core q)) ∧
  (∀ (s : State) (k v a : Nat) (vt : BitVec 32) (cl : Bool), a < 1024 →
    (∀ r, s.ctl[k]? = some (.stealReply v a (some r) vt cl) →
      ∃ u, exec (.stealReply k) s = .next u ∧ u.ctl = s.ctl.eraseIdx k ∧ records (u.core a) = records (s.core a) ++ [(r, none)] ∧
        (u.core a).stealOut = false ∧ (u.core a).victims = [] ∧ (u.core a).xferRecv = (s.core a).xferRecv + 1#32 ∧ ∀ q, q ≠ a → u.core q = s.core q) ∧
    (∀ l q qs, s.ctl[k]? = some (.stealReply v a none vt cl) → s.launch? (s.core a).lid = some l → l.st = .running → (s.core a).thief = true →
      (s.core a).thieving = true →
      (s.core a).victims = q :: qs →
      ∃ u, exec (.stealReply k) s = .next u ∧ u.ctl = s.ctl.eraseIdx k ++ [.stealReq a q] ∧ (u.core a).victims = qs ∧ (u.core a).stealOut = true)) ∧
  (∀ (s : State), tblWf s.cores = true → (∀ e ∈ s.cores, tblWf e.2.threads = true) →
    ((∃ e ∈ s.cores, s.stepCore e.1 = true ∧ (s.core e.1).barArr = false) → exec .barrierTreeRelease s = .next s) ∧
    ((∃ e ∈ s.cores, s.stepCore e.1 = true) → (∀ e ∈ s.cores, s.stepCore e.1 = true → (s.core e.1).barArr = true) →
      ∃ u, exec .barrierTreeRelease s = .next u ∧ u = { s with cores := u.cores } ∧
        ∀ e ∈ s.cores, s.stepCore e.1 = true → (u.core e.1).barArr = false ∧ (u.core e.1).nsent = 0#4 ∧
          ∀ k t, s.thread? e.1 k = some t → t.home = none → t.run = .sleeping .barT → (∃ g ∈ (s.core e.1).groups, g.gid = t.group) →
            ∃ t', u.thread? e.1 k = some t' ∧ t'.run = .running ∧ t'.pc = t.pc + 4#64 ∧ t'.x = t.x))

/-- Resets, the steps of a reset sequence, rails, temperature and clock points (R12, R13, R14, R16, R19 to R21, R80, R84, R89).
Clauses that rest on the model's choice: log entries 3, 4, 43, 44, 45. -/
def Obligations.ResetsAndPowerSteps : Prop :=
  (∀ (s : State), s.fw.inputGood = false → ∃ u, exec .powerGood s = .next u ∧ ColdReset s u .cold ∧ u.fw.inputGood = true ∧ u.fw.railsOn = false) ∧
  (∀ (s : State), ∃ u, exec .inputPowerLoss s = .next u ∧ ColdReset s u .cold ∧ u.fw.inputGood = false ∧ u.fw.railsOn = false ∧ u.fw.faultClass = 0) ∧
  (∀ (s : State), s.fw.inputGood = true → ∃ u, exec .mrstnPulse s = .next u ∧ ColdReset s u (if s.fw.shutdown then .thermal else .cold) ∧
    u.fw.shutdown = false ∧ u.fw.railsOn = false ∧ u.fw.faultClass = s.fw.faultClass) ∧
  (∀ (s : State), s.fw.inputGood = true → s.fw.shutdown = false →
    ∃ u, exec .coolantFlowLoss s = .next u ∧ ColdReset s u .thermal ∧ u.fw.shutdown = true ∧ u.fw.railsOn = false ∧ u.fw.faultClass = 5 ∧
      u.fw.faultTime = s.time) ∧
  (∀ (s : State), s.fw.inputGood = true → s.fw.shutdown = false → s.fw.fail = false → s.fw.ready = false →
    (s.fw.phase < 8 → ∃ u, exec .resetStepComplete s = .next u ∧ u.fw.phase = s.fw.phase + 1 ∧ u.fw.ready = false ∧
      (s.fw.phase ≠ 5 → u.mem = s.mem) ∧ (s.fw.phase = 5 → u.mem = [] ∧ u.bad = []) ∧ (s.fw.phase = 1 → u.fw.railsOn = true) ∧
      (s.fw.phase = 2 → u.fw.linkUp = true) ∧
      (s.fw.phase = 7 → ∀ p, p ∈ u.fw.logical ↔ p < 1024 ∧ s.active p = true) ∧
      (s.fw.phase = 6 → s.launches = [] → ∀ p, p < 1024 → s.active p = true → ∃ g k t, (u.core p).groups = [g] ∧ g.size = 1 ∧ u.stepMode g.lid = true ∧
        u.thread? p k = some t ∧ t.group = g.gid ∧ t.pc = Config.stubAddress ∧ t.run = .running)) ∧
    (8 ≤ s.fw.phase → ∃ u, exec .resetStepComplete s = .next u ∧ u.fw.phase = 8 ∧ u.fw.ready = true ∧ u.fw.gvt = 0#32 ∧ u.fw.resetBy = none ∧
      (∀ p, (u.core p).vtime = 0#32 ∧ (u.core p).gvt = 0#32) ∧ (∀ l ∈ u.launches, l.lid ≠ stubLid ∧ l ∈ s.launches)) ∧
    ∀ ok, ∃ u, exec (.resetStepOverrun ok) s = .next u ∧ u = { s with fw := u.fw } ∧ u.fw.fail = true ∧ u.fw.phase = s.fw.phase ∧
      (s.fw.phase < 3 → u.fw.linkUp = ok ∧ u.fw.mfaultn = !ok) ∧ (3 ≤ s.fw.phase → u.fw.linkUp = s.fw.linkUp ∧ u.fw.mfaultn = s.fw.mfaultn)) ∧
  (∀ (s : State), MayWarm s → ∃ u, exec .devctlWarmWrite s = .next u ∧ WarmReset s u ∧ u.fw.patchv = s.fw.patchv ∧ u.fw.bootImage = none ∧ u.fw.resetBy = none) ∧
  (∀ (s : State) (q i : Nat) (e : List Byte), Heads s q i e 0x11 →
    (entSub e = 0 → ∃ u, exec (.resetWarm q) s = .next u ∧ WarmReset (begun s q i e) u ∧ u.fw.patchv = s.fw.patchv ∧ u.fw.bootImage = none ∧
      u.fw.resetBy = (if (s.queue q).inDevice then none else some (headRef q i e))) ∧
    (entSub e = 1 →
      let a := entWord e 16
      let n := entNat (s.fwLoad a 256) 8 8
      let good := entNat (s.fwLoad a 256) 0 4 = 0x49595A47 ∧ entNat (s.fwLoad a 256) 4 2 = 1 ∧ 256 ≤ n ∧ s.hostRange a n = true
      (s.hostRange a 256 = false → Ends s q i e (exec (.resetWithImage q) s) 0x03) ∧
      (s.hostRange a 256 = true → ¬ good → Ends s q i e (exec (.resetWithImage q) s) 0x08) ∧
      (s.hostRange a 256 = true → good → ∃ u, exec (.resetWithImage q) s = .next u ∧ WarmReset (begun s q i e) u ∧
        u.fw.bootImage = some (s.fwLoad a n) ∧ u.fw.patchv = s.fw.patchv)) ∧
    (entSub e = 2 →
      let a := entWord e 16
      let h := s.fwLoad a 0x40
      let n := 0x40 + entNat h 8 4
      s.hostRange a 0x40 = true → s.hostRange a (n + 2820) = true →
      (∀ st, s.badPatch h (s.fwLoad a) = some st → Ends s q i e (exec (.resetWithPatch q) s) st) ∧
      (s.badPatch h (s.fwLoad a) = none → ∃ u, exec (.resetWithPatch q) s = .next u ∧ WarmReset (begun s q i e) u ∧
        u.fw.patchv = entNat h 4 2 ∧ u.fw.patch = s.fwLoad a n ∧ s.fw.patchFloor ≤ u.fw.patchFloor))) ∧
  (∀ (s : State) (m : PowerSample), s.fw.inputGood = true → s.fw.shutdown = false →
    let high := (m.dales ++ m.caches ++ m.ios).foldl max 0
    let mw (b : Nat) : Nat := (railRead m b).uv * (railRead m b).ma / 1000000
    let temp (b : Nat) : Nat := ((m.dales.drop (4 * b)).take 4 ++ (m.caches.drop (2 * b)).take 2).foldl max 0
    let low := ∀ b ∈ s.fw.basins.toList, b.point = 4
    (∀ n, n < 16 → s.fw.railsOn = true → ((railRead m n).uv < 600000 ∨ 900000 < (railRead m n).uv) → 3 ≤ tblGetD s.fw.railOut n 0 → s.railFault m ≠ none) ∧
    (∀ n, n < 16 → s.fw.railsOn = true → 150000 < (railRead m n).ma → s.railFault m ≠ none) ∧
    ((∀ n, n < 39 → railOutside m n = false ∧ railOver m n = false) → s.railFault m = none) ∧
    (∀ v r, s.railFault m = some (v, r) → ∃ u, exec (.powerSample m) s = .next u ∧ ColdReset s u .rail ∧ u.fw.faultClass = v ∧ u.fw.faultRail = r ∧
      (v = 1 ∨ v = 2)) ∧
    (s.railFault m = none → 1150 ≤ high → ∃ u, exec (.powerSample m) s = .next u ∧ ColdReset s u .thermal ∧ u.fw.shutdown = true ∧ u.fw.faultClass = 4) ∧
    (s.railFault m = none → high < 1150 → 2000000 < m.input → low → 99 ≤ s.fw.overFault →
      ∃ u, exec (.powerSample m) s = .next u ∧ ColdReset s u .rail ∧ u.fw.faultClass = 3) ∧
    (s.railFault m = none → high < 1150 → (m.input ≤ 2000000 ∨ ¬ low ∨ s.fw.overFault < 99) →
      ∃ u, exec (.powerSample m) s = .next u ∧ u = { s with fw := { s.fw with
          basins := u.fw.basins, overInput := u.fw.overInput, overFault := u.fw.overFault, calmM := u.fw.calmM, calmH := u.fw.calmH, railOut := u.fw.railOut,
          lastHigh := high, thermalLog := u.fw.thermalLog } } ∧
        u.fw.calmM = (if m.input < 1800000 then s.fw.calmM + 1 else 0) ∧
        u.fw.thermalLog = (if 1100 ≤ high ∧ s.fw.lastHigh < 1100 then s.fw.thermalLog ++ [(s.time, high)] else s.fw.thermalLog) ∧
        ∀ (b : Nat) (x : Basin), s.fw.basins.toList[b]? = some x → ∃ x', u.fw.basins.toList[b]? = some x' ∧
          x'.power = (if 80000 < mw b then min 4 (x.point + 1) else x.power) ∧
          x'.module = (if 2000000 < m.input ∧ 2 ≤ s.fw.overInput ∧ x.point < 4 then x.point + 1 else x.module) ∧
          x'.warm = (if 1000 ≤ temp b then min 4 (x.point + 1) else x.warm) ∧ x'.hot = (if 1100 ≤ high then 4 else x.hot) ∧
          (x'.boost = true → x.boost = true ∧ mw b < 68000 ∧ temp b < 900) ∧
          x'.point = max (max (max x'.power x'.module) (max x'.warm x'.hot)) (max (s.capOf b) (if x'.boost then 0 else s.fw.basePoint)) ∧
          (x'.point ≠ x.point → x'.changing = true))) ∧
  (∀ (s : State) (b : Nat) (x : Basin), s.fw.basins.toList[b]? = some x →
    let up (from_ held : Nat) : Nat := if held - 1 ≤ from_ then 0 else held - 1
    (0 < x.power → 100 ≤ x.calmP → ∃ u x', exec (.powerStepUp (some b)) s = .next u ∧ u.fw.basins.toList[b]? = some x' ∧ x'.power = x.power - 1 ∧ x'.calmP = 0) ∧
    (x.power = 0 → s.fw.ready = true → x.lastMw < 68000 → x.lastTemp < 900 → x.boost = false →
      ∃ u x', exec (.powerStepUp (some b)) s = .next u ∧ u.fw.basins.toList[b]? = some x' ∧ x'.boost = true) ∧
    (100 ≤ s.fw.calmM → ∃ u x', exec (.powerStepUp none) s = .next u ∧ u.fw.basins.toList[b]? = some x' ∧ x'.module = up x.moduleFrom x.module) ∧
    (100 ≤ x.calmT → ∃ u x', exec (.thermalStepUp b) s = .next u ∧ u.fw.basins.toList[b]? = some x' ∧ x'.warm = x.warm - 1 ∧
      x'.hot = (if 100 ≤ s.fw.calmH then up x.hotFrom x.hot else x.hot)) ∧
    (x.changing = true → s.stopLag = 0 → tblWf s.cores = true → (∀ e ∈ s.cores, e.2.trcctl.getLsbD 0 = false ∧ ∀ g ∈ e.2.groups, g.lag = none) →
      ∃ u x', exec (.clockPointChangeEnd b) s = .next u ∧ u.fw.basins.toList[b]? = some x' ∧ x' = { x with changing := false } ∧
        (∀ p c, tblGet? s.cores p = some c → basinOf p = b → c.haltHeld = true → c.halted = false → (u.core p).halted = true ∧ AllHeld u p) ∧
        ∀ p, basinOf p = b → (s.core p).haltHeld = false → (u.core p).threads = (s.core p).threads))

/-- The submit lines, queue 0's enable, and the commands NOP, COPY, FILL, SIGNAL, WAIT and RECT (R79, R82, R83, R85, R89, R146).
Clauses that rest on the model's choice: log entries 31, 32, 46. -/
def Obligations.QueuesReadAndBeginCommands : Prop :=
  (∀ (s : State) (q wp crp : Nat), (s.queue q).en = true → (s.queue q).state = 1 → s.fw.ready = true →
    natOfBytes (s.fwLoad (s.queue q).sub 8) = wp → natOfBytes (s.fwLoad ((s.queue q).sub + 8#64) 8) = crp → (s.queue q).sub.getLsbD 63 = false →
    (wp < (s.queue q).wpLast ∨ crp < (s.queue q).crpLast → ∃ u, exec (.submitLineUpdate q) s = .next u ∧ (u.queue q).state = 2 ∧ (u.queue q).err = 2) ∧
    ((s.queue q).wpLast ≤ wp → (s.queue q).crpLast ≤ crp → (s.queue q).cwp < crp →
      ∃ u, exec (.submitLineUpdate q) s = .next u ∧ (u.queue q).state = 2 ∧ (u.queue q).err = 4) ∧
    ((s.queue q).wpLast ≤ wp → (s.queue q).crpLast ≤ crp → crp ≤ (s.queue q).cwp → (s.queue q).rp + (s.queue q).slots < wp →
      ∃ u, exec (.submitLineUpdate q) s = .next u ∧ (u.queue q).state = 2 ∧ (u.queue q).err = 1 ∧ (u.queue q).laps = (s.queue q).laps + 1) ∧
    ((s.queue q).wpLast ≤ wp → (s.queue q).crpLast ≤ crp → crp ≤ (s.queue q).cwp → wp ≤ (s.queue q).rp + (s.queue q).slots → (s.queue q).rp ≤ wp →
      (wp ≠ (s.queue q).wpLast ∨ crp ≠ (s.queue q).crpLast) → ∃ u, exec (.submitLineUpdate q) s = .next u ∧ (u.queue q).rp = wp ∧ (u.queue q).wpLast = wp ∧
        (u.queue q).crpLast = crp ∧ (u.queue q).state = 1 ∧
        (u.queue q).pending = (s.queue q).pending ++ (List.range (wp - (s.queue q).rp)).map fun k =>
          ((s.queue q).rp + k, s.fwLoad ((s.queue q).base + BitVec.ofNat 64 (((s.queue q).rp + k) % (s.queue q).slots * 64)) 64))) ∧
  (∀ (s : State) (q : Nat) (v : Queue), s.fw.queues = [(q, v)] → v.sub.getLsbD 63 = true → v.prio < 4 → v.en = true → v.state = 1 → s.fw.ready = true →
    v.wpLast ≤ natOfBytes (s.fwLoad v.sub 8) → v.rp ≤ natOfBytes (s.fwLoad v.sub 8) → natOfBytes (s.fwLoad v.sub 8) ≤ v.rp + v.slots →
    v.crpLast ≤ natOfBytes (s.fwLoad (v.sub + 8#64) 8) → natOfBytes (s.fwLoad (v.sub + 8#64) 8) ≤ v.cwp →
    ∃ u, exec .submitLinePoll s = .next u ∧ (u.queue q).wpLast = natOfBytes (s.fwLoad v.sub 8) ∧
      (u.queue q).pending.length = v.pending.length + (natOfBytes (s.fwLoad v.sub 8) - (if natOfBytes (s.fwLoad v.sub 8) = v.wpLast ∧
        natOfBytes (s.fwLoad (v.sub + 8#64) 8) = v.crpLast then natOfBytes (s.fwLoad v.sub 8) else v.rp))) ∧
  (∀ (s : State), ∃ u, exec .aqctlEnSet s = .next u ∧ (u.queue 0).en = true ∧ (∀ q, q ≠ 0 → u.queue q = s.queue q) ∧
    (s.queueValid (s.queue 0) = true → (u.queue 0).state = 1 ∧ (u.queue 0).err = 0 ∧ (u.queue 0).rp = natOfBytes (s.fwLoad (s.queue 0).sub 8) ∧
      (u.queue 0).pending = (s.queue 0).pending) ∧
    (s.queueValid (s.queue 0) = false → (u.queue 0).state = 2 ∧ (u.queue 0).err = 3)) ∧
  (∀ (s : State), ∃ u, exec .aqctlEnClear s = .next u ∧ (u.queue 0).en = false ∧ (∀ q, q ≠ 0 → u.queue q = s.queue q) ∧
    ((s.queue 0).begun = [] → (u.queue 0).state = 0) ∧ ((s.queue 0).begun ≠ [] → (u.queue 0).stopping = true ∧ u.mem = s.mem ∧ u.host = s.host)) ∧
  (∀ (s : State) (q i : Nat) (e : List Byte), Heads s q i e 0x00 → Ends s q i e (exec (.nop q) s) 0x00) ∧
  (∀ (s : State) (q i : Nat) (e : List Byte), Heads s q i e 0x07 →
    let a := entWord e 16
    let b := entWord e 24
    let n := (entWord e 32).toNat
    let x := (a.extractLsb' 0 52).toNat
    let y := (b.extractLsb' 0 52).toNat
    (n = 0 ∨ 2 ^ 40 < n ∨ s.addrOk a n = false ∨ s.addrOk b n = false ∨ (a.getLsbD 63 = true ∧ b.getLsbD 63 = true ∧ x < y + n ∧ y < x + n) →
      Ends s q i e (exec (.copy q) s) 0x03) ∧
    (1 ≤ n → n ≤ 2 ^ 40 → s.addrOk a n = true → s.addrOk b n = true → a.getLsbD 63 = false → s.addrMapped a n = true → b.getLsbD 63 = true →
      (∀ g ∈ s.engines, g.id ≠ s.nextId) → ∃ u m, exec (.copy q) s = .next u ∧ 1 ≤ m ∧ m ≤ n ∧ a.toNat % 128 + m ≤ 128 ∧ u.mem = s.mem ∧ u.host = s.host ∧
        SendsFrom s u (agentNode 0 3) none (homeNode (a.extractLsb' 0 47).toNat) (.bulkRead (a.extractLsb' 0 56).toNat m) (.engineRead s.nextId (2 ^ 60 + y) m)) ∧
    (1 ≤ n → n ≤ 2 ^ 40 → s.addrOk a n = true → s.addrOk b n = true → a.getLsbD 63 = true → b.getLsbD 63 = true → (y + n ≤ x ∨ x + n ≤ y) →
      (∀ g ∈ s.engines, g.id ≠ s.nextId) →
      ∃ u, exec (.copy q) s = .next u ∧ (Memory.wf s.host = true → memRead u.host y n = memRead s.host x n ∧
          ∀ k, (k < y ∨ y + n ≤ k) → memGet u.host k = memGet s.host k) ∧ u.mem = s.mem ∧
        ∃ g ∈ u.engines, g.cmd = some (headRef q i e) ∧ g.todo = [] ∧ g.fail = none)) ∧
  (∀ (s : State) (q i : Nat) (e : List Byte), Heads s q i e 0x08 → e.length = 64 →
    let b := entWord e 16
    let n := (entWord e 32).toNat
    let y := (b.extractLsb' 0 52).toNat
    (n = 0 ∨ s.addrOk b n = false → Ends s q i e (exec (.fillCommand q) s) 0x03) ∧
    (1 ≤ n → s.addrOk b n = true → b.getLsbD 63 = true → (∀ g ∈ s.engines, g.id ≠ s.nextId) → ∃ u, exec (.fillCommand q) s = .next u ∧ u.mem = s.mem ∧
      (Memory.wf s.host = true → (∀ k, k < n → memGet u.host (y + k) = e.getD (40 + k % 8) 0#8) ∧
        ∀ k, (k < y ∨ y + n ≤ k) → memGet u.host k = memGet s.host k) ∧
      ∃ g ∈ u.engines, g.cmd = some (headRef q i e) ∧ g.todo = [] ∧ g.fail = none)) ∧
  (∀ (s : State) (q i : Nat) (e : List Byte), Heads s q i e 0x09 →
    let a := entWord e 16
    let old := wordOf (s.fwLoad a 8)
    let bad := a.toNat % 8 ≠ 0 ∨ s.addrOk a 8 = false
    let o := if entSub e = 0 then exec (.signalWrite q) s else exec (.signalAdd q) s
    (bad → Ends s q i e o 0x03) ∧ (¬ bad → s.addrMapped a 8 = false → Ends s q i e o 0x0B) ∧
    (¬ bad → s.addrMapped a 8 = true → o = .next (((begun s q i e).fwStore a (bytesOf (if entSub e = 0 then entWord e 24 else old + entWord e 24) 8)).finishCmd
      (headRef q i e) 0))) ∧
  (∀ (s : State) (q i : Nat) (e : List Byte), Heads s q i e 0x0A →
    let a := entWord e 16
    let v := wordOf (s.fwLoad a 8)
    let holds := match entSub e with
      | 0 => (entWord e 24).toNat ≤ v.toNat
      | 1 => v = entWord e 24
      | _ => v ≠ entWord e 24
    let bad := a.toNat % 8 ≠ 0 ∨ s.addrOk a 8 = false
    (bad → Ends s q i e (exec (.wait q) s) 0x03) ∧ (¬ bad → s.addrMapped a 8 = false → Ends s q i e (exec (.wait q) s) 0x0B) ∧
    (¬ bad → s.addrMapped a 8 = true → holds → Ends s q i e (exec (.wait q) s) 0x00) ∧
    (¬ bad → s.addrMapped a 8 = true → ¬ holds → ∃ u w, exec (.wait q) s = .next u ∧ u = { s with fw := { s.fw with queues := u.fw.queues, lastServed := u.fw.lastServed } } ∧
      (u.queue q).waiting = some w ∧ w.cmd = headRef q i e ∧ w.addr = a ∧ w.value = entWord e 24 ∧ w.cmp = entSub e ∧ w.timeout = entNat e 32 4 ∧
      w.since = s.time ∧ u.mayBegin q = none)) ∧
  (∀ (s : State) (q : Nat) (w : WaitCmd), (s.queue q).waiting = some w →
    let v := wordOf (s.fwLoad w.addr 8)
    let holds := match w.cmp with
      | 0 => w.value.toNat ≤ v.toNat
      | 1 => v = w.value
      | _ => v ≠ w.value
    (holds → exec (.waitConditionMet q) s = .next ((s.modQueue q fun v => { v with waiting := none }).finishCmd w.cmd 0)) ∧
    (¬ holds → exec (.waitConditionMet q) s = .next s) ∧
    (w.timeout ≠ 0 → w.timeout * 1000 ≤ (s.time - w.since).toNat →
      exec (.waitTimeout q) s = .next ((s.modQueue q fun v => { v with waiting := none }).finishCmd w.cmd 0x0C)) ∧
    (w.timeout = 0 ∨ (s.time - w.since).toNat < w.timeout * 1000 → exec (.waitTimeout q) s = .next s)) ∧
  (∀ (s : State) (q i : Nat) (e : List Byte), Heads s q i e 0x0C → entNat e 15 1 = 0 →
    let k := entNat e 8 1
    let x := entNat e 9 1
    let y := entNat e 10 1
    let w := entNat e 11 1 + 1
    let h := entNat e 12 1 + 1
    let bad := 16 ≤ k ∨ 32 < x + w ∨ 32 < y + h ∨ 1 < entNat e 13 1 ∨ 4 < entNat e 14 1 ∨
      ∃ j o, j ≠ k ∧ s.fw.rects.toList[j]? = some o ∧ o.defined = true ∧ x < o.x0 + o.w ∧ o.x0 < x + w ∧ y < o.y0 + o.h ∧ o.y0 < y + h
    let busy := (∃ l ∈ s.launches, l.rect = k) ∨ ∃ o, s.fw.rects.toList[k]? = some o ∧ o.active = true
    (bad → Ends s q i e (exec (.rectDefine q) s) 0x03) ∧ (¬ bad → busy → Ends s q i e (exec (.rectDefine q) s) 0x05) ∧
    (¬ bad → ¬ busy → ∃ u r, exec (.rectDefine q) s = .next u ∧ u.fw.rects.toList[k]? = some r ∧ r.defined = true ∧ r.x0 = x ∧ r.y0 = y ∧ r.w = w ∧ r.h = h ∧
      r.contain = decide (entNat e 13 1 = 1) ∧ r.cap = entNat e 14 1 ∧ r.count = 0 ∧ ∀ j, j ≠ k → u.fw.rects.toList[j]? = s.fw.rects.toList[j]?)) ∧
  (∀ (s : State) (q i : Nat) (e : List Byte), Heads s q i e 0x0C → entNat e 15 1 = 1 →
    let k := entNat e 8 1
    let busy := (∃ l ∈ s.launches, l.rect = k) ∨ ∃ o, s.fw.rects.toList[k]? = some o ∧ o.active = true
    (16 ≤ k ∨ k = 0 → Ends s q i e (exec (.rectDelete q) s) 0x03) ∧
    (∀ o, s.fw.rects.toList[k]? = some o → k ≠ 0 → o.defined = false → Ends s q i e (exec (.rectDelete q) s) 0x04) ∧
    (∀ o, s.fw.rects.toList[k]? = some o → k ≠ 0 → o.defined = true → busy → Ends s q i e (exec (.rectDelete q) s) 0x05) ∧
    (∀ o, s.fw.rects.toList[k]? = some o → k ≠ 0 → o.defined = true → ¬ busy →
      ∃ u r, exec (.rectDelete q) s = .next u ∧ u.fw.rects.toList[k]? = some r ∧ r.defined = false ∧
        ∀ j, j ≠ k → u.fw.rects.toList[j]? = s.fw.rects.toList[j]?))

/-- QUERY in its get and set forms, MEDIA STATS, ATTEST and DEBUG TOKEN (R81, R82, R91, R92, R98 to R100, R228, R229).
Clauses that rest on the model's choice: log entries 12, 24. -/
def Obligations.QueriesFillTheirBuffer : Prop :=
  (∀ (s : State) (q i : Nat) (e : List Byte), Heads s q i e 0x0B →
    (entSub e = 0x01 → Fills s q i e (exec (.queryDevice q) s) (entWord e 16) 0x01 0x920 fun r =>
      entNat r 0x10 2 = s.fw.logical.length % 65536 ∧ entNat r 0x12 2 = s.fw.fused.length % 65536 ∧ entNat r 0x14 2 = s.fw.quarantined.length % 65536 ∧
      (∀ p, p < 1024 → ((r.getD (0x20 + p / 8) 0#8).getLsbD (p % 8) = true ↔ p ∈ s.fw.fused) ∧
        ((r.getD (0xA0 + p / 8) 0#8).getLsbD (p % 8) = true ↔ p ∈ s.fw.quarantined) ∧ (p ∉ s.fw.logical → entNat r (0x120 + 2 * p) 2 = 0xFFFF)) ∧
      ∀ p n, p < 1024 → n < 65536 → s.fw.logical[n]? = some p → (∀ m, m < n → s.fw.logical[m]? ≠ some p) → entNat r (0x120 + 2 * p) 2 = n) ∧
    (entSub e = 0x02 → Fills s q i e (exec (.queryClockPoints q) s) (entWord e 16) 0x02 0x90 fun r =>
      ∀ b x, s.fw.basins.toList[b]? = some x → x.point < 8 → s.capOf b < 8 →
        let w := entWord r (0x10 + 8 * b)
        (w.extractLsb' 0 3).toNat = x.point ∧ (w.extractLsb' 3 3).toNat = s.capOf b ∧ w.getLsbD 6 = x.expert.isSome ∧ w.extractLsb' 7 9 = 0#9 ∧
          (w.extractLsb' 16 16).toNat = x.lastMw / 10 % 65536 ∧ (w.extractLsb' 32 16).toNat = x.lastTemp % 65536 ∧ w.extractLsb' 48 16 = 0#16) ∧
    (entSub e = 0x03 → Fills s q i e (exec (.queryCounterGrid q) s) (entWord e 16) 0x03 0x38 fun r =>
      entWord r 0x10 = s.fw.cgPend.base.getD s.fw.cgBase ∧ entNat r 0x18 8 = s.fw.cgPend.slots.getD s.fw.cgSlots % 2 ^ 64 ∧
        entNat r 0x20 8 = s.fw.cgHead % 2 ^ 64 ∧ (entWord r 0x28).getLsbD 0 = s.fw.cgPend.en.getD s.fw.cgEn ∧ (entWord r 0x28).getLsbD 1 = s.fw.cgOvr ∧ entWord r 0x30 = s.fw.fepoch.setWidth 64) ∧
    (entSub e = 0x04 → Fills s q i e (exec (.queryScrub q) s) (entWord e 16) 0x04 0x50 fun r =>
      entWord r 0x10 = s.fw.scrubBase ∧ entNat r 0x18 8 = s.fw.scrubSlots % 2 ^ 64 ∧ entNat r 0x20 8 = s.fw.scrubHead % 2 ^ 64 ∧
        (∀ h en, s.fw.scrubPend.getD (s.fw.scrubHours, s.fw.scrubEn) = (h, en) → h < 2 ^ 17 →
          ((entWord r 0x28).extractLsb' 0 17).toNat = h ∧ (entWord r 0x28).getLsbD 17 = en) ∧
        ∀ k n, s.fw.scrubEvents.toList[k]? = some n → entNat r (0x30 + 8 * k) 8 = n % 2 ^ 64) ∧
    (entSub e = 0x05 → 64 ≤ entNat e 24 1 → Ends s q i e (exec (.queryQueue q) s) 0x03) ∧
    (entSub e = 0x05 → entNat e 24 1 < 64 → Fills s q i e (exec (.queryQueue q) s) (entWord e 16) 0x05 0x60 fun r =>
      let v := s.queue (entNat e 24 1)
      entWord r 0x10 = v.base ∧ entWord r 0x18 = v.cbase ∧ entWord r 0x20 = v.sub ∧ entWord r 0x28 = v.stat ∧ entWord r 0x30 = v.size ∧
        entWord r 0x38 = v.qctl ∧ entWord r 0x40 = v.qstat ∧ entNat r 0x48 8 = 0 ∧ entNat r 0x50 8 = v.rp % 2 ^ 64 ∧ entNat r 0x58 8 = v.cwp % 2 ^ 64) ∧
    (entSub e = 0x06 → Fills s q i e (exec (.queryPeers q) s) (entWord e 16) 0x06 0x20E fun r =>
      ∀ d, d < 255 → entNat r (0x10 + 2 * d) 2 = match tblGet? s.fw.peers d with
        | none => 1
        | some (live, why) => (if live then 1 else 0) + 2 * (match why with
          | .none => 0
          | .linkLost => 1
          | .reset => 2
          | .powerDown => 3
          | .retriesExhausted => 4)) ∧
    (entSub e = 0x07 → Fills s q i e (exec (.queryBootChallenge q) s) (entWord e 16) 0x07 0x20 fun r =>
      entNat r 0x10 16 = (Config.bootChallenge s.fw.resets).toNat) ∧
    (entSub e = 0x08 → Fills s q i e (exec (.queryFault q) s) (entWord e 16) 0x08 0x20 fun r =>
      entNat r 0x10 1 = s.fw.faultClass % 256 ∧ entNat r 0x11 1 = s.fw.faultRail % 256 ∧ entNat r 0x12 6 = 0 ∧ entWord r 0x18 = s.fw.faultTime) ∧
    (entSub e = 0x09 → Fills s q i e (exec (.queryCtlRanges q) s) (entWord e 16) 0x09 0x50 fun r =>
      entNat r 0x10 4 = 3 ∧ entNat r 0x14 12 = 0 ∧ entNat r 0x20 8 = 0xFF830000020000 ∧ entNat r 0x28 8 = 1 + 1 * 2 ^ 32 ∧
        entNat r 0x30 8 = 0xFF830000050000 ∧ entNat r 0x38 8 = 1 + 3 * 2 ^ 32 ∧ entNat r 0x40 8 = 0xFF830000060000 ∧ entNat r 0x48 8 = 1 + 1 * 2 ^ 32) ∧
    (entSub e = 0x0A → Fills s q i e (exec (.queryRectangles q) s) (entWord e 16) 0x0A 0x90 fun r =>
      ∀ k x, s.fw.rects.toList[k]? = some x →
        let w := entWord r (0x10 + 8 * k)
        (x.defined = false → w = 0#64) ∧
        (x.defined = true → x.x0 < 32 → x.y0 < 32 → 1 ≤ x.w → x.w ≤ 32 → 1 ≤ x.h → x.h ≤ 32 → x.cap < 8 → w.getLsbD 0 = true ∧ (w.extractLsb' 1 5).toNat = x.x0 ∧
          (w.extractLsb' 6 5).toNat = x.y0 ∧ (w.extractLsb' 11 5).toNat + 1 = x.w ∧ (w.extractLsb' 16 5).toNat + 1 = x.h ∧ w.getLsbD 21 = x.contain ∧
          (w.extractLsb' 22 3).toNat = x.cap ∧ w.extractLsb' 25 39 = 0#39)) ∧
    (entSub e = 0x0B → tblGet? s.fw.streams (entNat e 24 1) = none → Ends s q i e (exec (.queryMediaStats q) s) 0x04) ∧
    (∀ m, entSub e = 0x0B → tblGet? s.fw.streams (entNat e 24 1) = some m → m.stats.length = 8 →
      Fills s q i e (exec (.queryMediaStats q) s) (entWord e 16) 0x0B 0x50 fun r => ∀ j n, m.stats[j]? = some n → entNat r (0x10 + 8 * j) 8 = n % 2 ^ 64)) ∧
  (∀ (s : State) (q i : Nat) (e : List Byte), Heads s q i e 0x0E → entSub e = 2 →
    (tblGet? s.fw.streams (entNat e 8 1) = none → Ends s q i e (exec (.mediaStats q) s) 0x04) ∧
    (∀ m, tblGet? s.fw.streams (entNat e 8 1) = some m → m.stats.length = 8 →
      Fills s q i e (exec (.mediaStats q) s) (entWord e 16) 0x0B 0x50 fun r => ∀ j n, m.stats[j]? = some n → entNat r (0x10 + 8 * j) 8 = n % 2 ^ 64)) ∧
  (∀ (s : State) (q i : Nat) (e : List Byte), Heads s q i e 0x0B →
    (entSub e = 0x82 →
      let ok (k : Nat) := k ≤ 4 ∨ k = 0xFE ∨ k = 0xFF
      ((∃ b, b < 16 ∧ ¬ ok (entNat e (24 + b) 1)) → Ends s q i e (exec (.querySetCaps q) s) 0x03) ∧
      ((∀ b, b < 16 → ok (entNat e (24 + b) 1)) → EndsIn q i e (exec (.querySetCaps q) s) fun v =>
        ∀ b x, s.fw.basins.toList[b]? = some x → ∃ x', v.fw.basins.toList[b]? = some x' ∧
          x'.expert = (if entNat e (24 + b) 1 = 0xFF then x.expert else if entNat e (24 + b) 1 = 0xFE then none else some (entNat e (24 + b) 1)))) ∧
    (entSub e = 0x83 →
      let base := entWord e 24
      let n := entNat e 32 2
      let en := entNat e 34 1
      let bad := base.toNat % 4096 ≠ 0 ∨ 2 ^ 56 ≤ base.toNat ∨ (2 ≤ en ∧ en ≠ 0xFF)
      (bad → Ends s q i e (exec (.querySetCounterGrid q) s) 0x03) ∧
      (¬ bad → EndsIn q i e (exec (.querySetCounterGrid q) s) fun v =>
        v.fw.cgBase = s.fw.cgBase ∧ v.fw.cgSlots = s.fw.cgSlots ∧ v.fw.cgEn = s.fw.cgEn ∧
          v.fw.cgPend.base = (if base = 0#64 then s.fw.cgPend.base else some base) ∧ v.fw.cgPend.slots = (if n = 0 then s.fw.cgPend.slots else some n) ∧
          v.fw.cgPend.en = (if en = 0xFF then s.fw.cgPend.en else some (decide (en = 1))))) ∧
    (entSub e = 0x84 →
      let base := entWord e 24
      let n := entNat e 32 2
      let h := entNat e 34 2
      let en := entNat e 36 1
      let bad := base.toNat % 4096 ≠ 0 ∨ 2 ^ 56 ≤ base.toNat ∨ 1000 < h ∨ (2 ≤ en ∧ en ≠ 0xFF)
      (bad → Ends s q i e (exec (.querySetScrub q) s) 0x03) ∧
      (¬ bad → EndsIn q i e (exec (.querySetScrub q) s) fun v =>
        v.fw.scrubBase = (if base = 0#64 then s.fw.scrubBase else base) ∧ v.fw.scrubSlots = (if n = 0 then s.fw.scrubSlots else n) ∧
          v.fw.scrubHours = s.fw.scrubHours ∧ v.fw.scrubEn = s.fw.scrubEn ∧
          (let old := s.fw.scrubPend.getD (s.fw.scrubHours, s.fw.scrubEn)
           v.fw.scrubPend = (if h = 0 ∧ en = 0xFF then s.fw.scrubPend else some (if h = 0 then old.1 else h, if en = 0xFF then old.2 else decide (en = 1)))))) ∧
    (entSub e = 0x88 → EndsIn q i e (exec (.queryClearFault q) s) fun v => v.fw.faultClass = 0 ∧ v.fw.faultRail = 0xFF ∧ v.fw.faultTime = s.fw.faultTime) ∧
    (entSub e = 0x85 →
      let k := entNat e 24 1
      let a := entWord e 32
      let d := s.fwLoad a 64
      let f := imageQueue d
      let o := match entNat e 25 1 with
        | 1 => exec (.queryQueueDelete q) s
        | 2 => exec (.queryQueueRestart q) s
        | _ => exec (.queryQueueDefine q) s
      (2 < entNat e 25 1 ∨ k = 0 ∨ 64 ≤ k → Ends s q i e o 0x03) ∧
      (1 ≤ k → k < 64 → entNat e 25 1 = 0 →
        (s.addrOk a 64 = false → Ends s q i e o 0x03) ∧ (s.addrOk a 64 = true → s.addrMapped a 64 = false → Ends s q i e o 0x0B) ∧
        (s.addrOk a 64 = true → s.addrMapped a 64 = true →
          (imageReserved d = true → Ends s q i e o 0x02) ∧
          (imageReserved d = false → ((s.queue k).en = true ∨ (s.queue k).stopping = true ∨ (s.queue k).deleting ≠ none) → Ends s q i e o 0x05) ∧
          (imageReserved d = false → (s.queue k).en = false → (s.queue k).stopping = false → (s.queue k).deleting = none → s.queueValid f = false → Ends s q i e o 0x03) ∧
          (imageReserved d = false → (s.queue k).en = false → (s.queue k).stopping = false → (s.queue k).deleting = none → s.queueValid f = true → EndsIn q i e o fun v =>
            (v.queue k).base = entWord d 0 ∧ (v.queue k).cbase = entWord d 8 ∧ (v.queue k).sub = entWord d 16 ∧ (v.queue k).stat = entWord d 24 ∧
              (v.queue k).size = entWord d 32 ∧ (v.queue k).en = (d.getD 40 0#8).getLsbD 0 ∧ (v.queue k).rp = 0 ∧ (v.queue k).cwp = 0 ∧
              (v.queue k).state = (if (d.getD 40 0#8).getLsbD 0 then 1 else 0) ∧ ∀ j, j ≠ k → j ≠ q → v.queue j = s.queue j))) ∧
      (1 ≤ k → k < 64 → entNat e 25 1 = 1 →
        ((s.queue k).deleting ≠ none → Ends s q i e o 0x05) ∧
        ((s.queue k).deleting = none → ∃ u, o = .next u ∧ (u.queue k).en = false ∧ (u.queue k).pending = [] ∧ (u.queue k).deleting = some (headRef q i e) ∧
          (∀ j, j ≠ k → j ≠ q → u.queue j = s.queue j))) ∧
      (1 ≤ k → k < 64 → entNat e 25 1 = 2 →
        ((s.queue k).en = false → Ends s q i e o 0x05) ∧
        ((s.queue k).en = true → s.queueValid (s.queue k) = true → EndsIn q i e o fun v =>
          (v.queue k).rp = natOfBytes (s.fwLoad (s.queue k).sub 8) ∧ (v.queue k).pending = ((begun s q i e).queue k).pending ∧ (v.queue k).state = 1 ∧ (v.queue k).err = 0)))) ∧
  (∀ (s : State) (q i : Nat) (e : List Byte), Heads s q i e 0x10 → e.length = 64 →
    let buf := entWord e 16
    (buf.toNat % 4096 ≠ 0 ∨ s.addrOk buf 0x2000 = false → Ends s q i e (exec (.attest q) s) 0x03) ∧
    (buf.toNat % 4096 = 0 → s.addrOk buf 0x2000 = true → s.addrMapped buf 0x2000 = false → Ends s q i e (exec (.attest q) s) 0x0B) ∧
    (buf.toNat % 4096 = 0 → s.addrOk buf 0x2000 = true → s.addrMapped buf 0x2000 = true →
      (65536 ≤ s.fw.bootIndex → Ends s q i e (exec (.attest q) s) 0x10) ∧
      (s.fw.bootIndex < 65536 → ∃ (v : State) (r : List Byte), exec (.attest q) s = .next ((v.fwStore buf r).finishCmd (headRef q i e) (if s.fw.idIndex ≤ 2 ^ 20 then 0 else 0x10)) ∧
        v.fw.bootIndex = s.fw.bootIndex + 1 ∧ v.mem = s.mem ∧ v.host = s.host ∧ r.length = 0xC48 + 2692 ∧ entNat r 0 4 = 0x54415A47 ∧ entNat r 4 4 = 1 ∧
        (r.drop 8).take 32 = (e.drop 24).take 32 ∧ entNat r 0x28 32 = Config.deviceId.toNat ∧ entNat r 0x48 4 = s.fw.lifeCycle % 2 ^ 32 ∧
        entNat r 0x4C 4 = s.fw.fused.length % 2 ^ 32 ∧ entNat r 0x50 32 = Config.romHash.toNat ∧ (s.fw.patchv = 0 → entNat r 0x70 32 = 0) ∧
        entWord r 0xB0 = s.time ∧ entNat r 0xB8 16 = (Config.bootChallenge s.fw.resets).toNat ∧ entNat r 0xC8 56 = 0 ∧
        ((Config.bootSign s.fw.resets s.fw.bootIndex (r.take 0xC48)).length = 2692 → r.drop 0xC48 = Config.bootSign s.fw.resets s.fw.bootIndex (r.take 0xC48))))) ∧
  (∀ (s : State) (q i : Nat) (e : List Byte), Heads s q i e 0x0F → entSub e = 0 →
    let a := entWord e 16
    let t := s.fwLoad a 2948
    let feat := entWord t 0x38
    (s.addrOk a 2948 = false → Ends s q i e (exec (.debugToken q) s) 0x03) ∧
    (s.addrOk a 2948 = true → s.addrMapped a 2948 = false → Ends s q i e (exec (.debugToken q) s) 0x0B) ∧
    (s.addrOk a 2948 = true → s.addrMapped a 2948 = true →
      let rsvd := entNat t 0x40 64 ≠ 0 ∨ feat.extractLsb' 6 58 ≠ 0#58
      let sig := entNat t 0 4 = 0x4B545A47 ∧ entNat t 4 4 = 1 ∧ Config.tokenSigOk (t.take 0x80) (t.drop 0x80) = true ∧
        entNat t 8 32 = Config.deviceId.toNat ∧ entNat t 0x28 16 = (Config.bootChallenge s.fw.resets).toNat
      let may := ∀ k, k < 6 → feat.getLsbD k = true → s.fw.lifeCycle = 2 ∨ (s.fw.lifeCycle = 3 ∧ (k = 0 ∨ k = 2 ∨ k = 3))
      (rsvd → Ends s q i e (exec (.debugToken q) s) 0x02) ∧ (¬ rsvd → ¬ sig → Ends s q i e (exec (.debugToken q) s) 0x0A) ∧
      (¬ rsvd → sig → ¬ may → Ends s q i e (exec (.debugToken q) s) 0x09) ∧
      (¬ rsvd → sig → may → EndsIn q i e (exec (.debugToken q) s) fun v => v.fw.features = s.fw.features ||| feat.extractLsb' 0 6)))

/-- LAUNCH and its commands, revocation, RECAST, and firmware's steps for launches (R61, R62, R88 to R90, R105, R106, R113, R118 to R121).
Clauses that rest on the model's choice: log entries 5, 41, 47, 55. -/
def Obligations.LaunchCommandsActOnTheirLaunch : Prop :=
  (∀ (s : State) (q i : Nat) (e : List Byte), Heads s q i e 0x01 →
    let lid := entNat e 8 4
    let a := entWord e 16
    let k := s.readLaunch (s.fwLoad a 256)
    let l := s.makeLaunch k lid a (headRef q i e)
    let s1 : State := { s with launches := s.launches ++ [l] }
    let o := exec (.launch q) s
    (lid = 0 ∨ a.toNat % 256 ≠ 0 ∨ s.addrOk a 256 = false → Ends s q i e o 0x03) ∧
    (lid ≠ 0 → a.toNat % 256 = 0 → s.addrOk a 256 = true →
      (s.addrMapped a 256 = false → Ends s q i e o 0x0B) ∧
      (s.addrMapped a 256 = true → s.launch? lid ≠ none → Ends s q i e o 0x05) ∧
      (s.addrMapped a 256 = true → s.launch? lid = none → 64 ≤ s.launches.length → Ends s q i e o 0x06) ∧
      (s.addrMapped a 256 = true → s.launch? lid = none → s.launches.length < 64 →
        (∀ st, s.badLaunch k = some st → Ends s q i e o st) ∧
        (s.badLaunch k = none → k.step = true → s.launches ≠ [] → Ends s q i e o 0x05) ∧
        (s.badLaunch k = none → k.step = false ∨ s.launches = [] → s1.canPlace l = true → l.gang = 0 → s.fw.logical.Nodup →
          ∃ u l', o = .next u ∧ u.launch? lid = some l' ∧ l'.st = .running ∧ l'.cmd = headRef q i e ∧ OnItsCores u l ∧ u.net = s.net ∧
            ∀ r n p, k.step = false → l.leases = [] → k.tasks = [r] → (coresIn l.roles (recRole r)).head? = some n → l.map[n]? = some p → l.inRect p = true →
              records (u.core p) = [(r, none)]) ∧
        (s.badLaunch k = none → k.step = false ∨ s.launches = [] → s1.canPlace l = false →
          (s1.inTheWay l = [] → ∃ u, o = .next u ∧ u.launch? lid = some l ∧ l.st = .waiting ∧ u.cores = s.cores ∧ u.ctl = s.ctl) ∧
          (LidsApart s → (∀ m ∈ s1.inTheWay l, l.prio < m.prio ∧ m.stepMode = false) → (∀ m ∈ s.launches, m.onCores = true → m.stepMode = false) →
            s1.framesFit l.leases = true → (∀ m ∈ s.launches, m.st = .waiting → m.overlaps l = true → m.before l = false) → ∀ m, m ∈ s.launches → m.st = .running → m.overlaps l = true →
              ∃ u m', o = .next u ∧ u.launch? lid = some l ∧ u.launch? m.lid = some m' ∧ m'.st = .saving ∧ m'.byPrio = true ∧ HaltsSent s u m))))) ∧
  (∀ (s : State) (q i : Nat) (e : List Byte), Heads s q i e 0x02 →
    (s.launch? (entNat e 8 4) = none → Ends s q i e (exec (.cancel q) s) 0x04) ∧
    ∀ l, s.launch? (entNat e 8 4) = some l →
      (l.st = .cancelled → Ends s q i e (exec (.cancel q) s) 0x05) ∧
      (l.st = .waiting ∨ l.st = .evicted → l.preemptBy = none → l.resumeBy = none → l.lid ≠ 0 →
        ∃ v : State, exec (.cancel q) s = .next ((v.finishCmd l.cmd 0x0D l.lid (countsOf l)).finishCmd (headRef q i e) 0) ∧ LaunchEnds s v l) ∧
      (l.st = .running → ∃ u, exec (.cancel q) s = .next u ∧ u.launch? l.lid = some { l with st := .cancelled, cancelBy := some (headRef q i e) } ∧
        HaltsSent s u l ∧ u.cores = s.cores) ∧
      (l.st = .saving → ∃ u, exec (.cancel q) s = .next u ∧ u.launch? l.lid = some { l with st := .cancelled, cancelBy := some (headRef q i e) } ∧
        u.cores = s.cores ∧ u.ctl = s.ctl)) ∧
  (∀ (s : State) (q i : Nat) (e : List Byte), Heads s q i e 0x03 →
    (s.launch? (entNat e 8 4) = none → Ends s q i e (exec (.preempt q) s) 0x04) ∧
    ∀ l, s.launch? (entNat e 8 4) = some l →
      (l.st ≠ .running ∨ l.stepMode = true → Ends s q i e (exec (.preempt q) s) 0x05) ∧
      (l.st = .running → l.stepMode = false → l.gang = 0 → ∃ u l', exec (.preempt q) s = .next u ∧ u.launch? l.lid = some l' ∧ l'.st = .saving ∧ l'.byPrio = false ∧
        l'.preemptBy = some (headRef q i e) ∧ l'.spans = l.spans ∧ l'.leases = l.leases ∧ HaltsSent s u l ∧ u.cores = s.cores)) ∧
  (∀ (s : State) (q i : Nat) (e : List Byte), Heads s q i e 0x04 →
    (s.launch? (entNat e 8 4) = none → Ends s q i e (exec (.resume q) s) 0x04) ∧
    ∀ l, s.launch? (entNat e 8 4) = some l →
      (l.st ≠ .evicted → l.st ≠ .saving → Ends s q i e (exec (.resume q) s) 0x05) ∧
      (l.st = .evicted ∨ l.st = .saving → l.resumeBy = none → ∃ u, exec (.resume q) s = .next u ∧
        u.launch? l.lid = some { l with resumeBy := some (headRef q i e) } ∧ u.cores = s.cores)) ∧
  (∀ (s : State) (q i : Nat) (e : List Byte), Heads s q i e 0x05 →
    let x := leaseOf (entNat e 16 16)
    let few := (s.leasePages [x]).length ≤ Config.leaseFrames
    (s.launch? (entNat e 8 4) = none → Ends s q i e (exec (.lease q) s) 0x04) ∧
    ∀ l, s.launch? (entNat e 8 4) = some l →
      (s.leaseOk x = false ∨ ¬ few → Ends s q i e (exec (.lease q) s) 0x07) ∧
      (s.leaseOk x = true → few → (∀ y ∈ l.leases, y.pages ≠ 0) →
        (16 ≤ l.leases.length → Ends s q i e (exec (.lease q) s) 0x06) ∧
        (l.leases.length < 16 → EndsIn q i e (exec (.lease q) s) fun v => v.launch? l.lid = some { l with leases := l.leases ++ [x] } ∧ v.cores = s.cores)) ∧
      (s.leaseOk x = true → few → ∀ j y, l.leases[j]? = some y → y.pages = 0 → (∀ m z, m < j → l.leases[m]? = some z → z.pages ≠ 0) →
        EndsIn q i e (exec (.lease q) s) fun v => v.launch? l.lid = some { l with leases := l.leases.set j x } ∧ v.cores = s.cores)) ∧
  (∀ (s : State) (q i : Nat) (e : List Byte) (l : Launch), (s.queue q).pending.head? = some (i, e) → entOpc e = 0x05 → s.badEntry q e = none →
    s.launch? (entNat e 8 4) = some l → s.leaseOk (leaseOf (entNat e 16 16)) = true → (s.leasePages [leaseOf (entNat e 16 16)]).length ≤ Config.leaseFrames →
    (l.leases.length < 16 ∨ ∃ y ∈ l.leases, y.pages = 0) → s.framesFit [leaseOf (entNat e 16 16)] = false → exec (.lease q) s = .next s) ∧
  (∀ (s : State) (q i : Nat) (e : List Byte), Heads s q i e 0x06 →
    let j := entNat e 12 1
    (s.launch? (entNat e 8 4) = none → Ends s q i e (exec (.unlease q) s) 0x04) ∧
    ∀ l, s.launch? (entNat e 8 4) = some l →
      ((∀ y, l.leases[j]? = some y → y.pages = 0) → Ends s q i e (exec (.unlease q) s) 0x04) ∧
      (∀ y, l.leases[j]? = some y → y.pages ≠ 0 →
        ((∃ x ∈ s.fw.shoots, x.lid = l.lid ∧ x.idx = j) → Ends s q i e (exec (.unlease q) s) 0x05) ∧
        ((∀ x ∈ s.fw.shoots, x.lid ≠ l.lid ∨ x.idx ≠ j) → s.coresOn l.lid ≠ [] → ∃ u x, exec (.unlease q) s = .next u ∧
          (∀ p ∈ s.coresOn l.lid, CtlMsg.shoot p l.lid j ∈ u.ctl) ∧ x ∈ u.fw.shoots ∧ x.cmd = headRef q i e ∧ x.lid = l.lid ∧ x.idx = j ∧ x.tree.own = s.coresOn l.lid ∧ u.launches = s.launches) ∧
        ((∀ x ∈ s.fw.shoots, x.lid ≠ l.lid ∨ x.idx ≠ j) → s.coresOn l.lid = [] → EndsIn q i e (exec (.unlease q) s) fun v =>
          ∃ l' y', v.launch? l.lid = some l' ∧ l'.leases[j]? = some y' ∧ y'.pages = 0))) ∧
  (∀ (s : State) (k p lid j : Nat), s.ctl[k]? = some (.shoot p lid j) →
    let out := (∃ r ∈ s.reqs, r.src = p) ∨ ∃ x ∈ s.engines, x.node = p
    ((s.core p).lid = lid → (s.core p).gated = false ∨ out →
      ∃ u, exec (.shoot k) s = .next u ∧ u.ctl = s.ctl.eraseIdx k ∧ (∀ x, x ∈ (u.core p).shot ↔ x = j ∨ x ∈ (s.core p).shot) ∧
      (lid, j, s.nextId) ∈ (u.core p).shooting ∧ (u.core p).threads = (s.core p).threads ∧ u.fw = s.fw) ∧
    ((s.core p).lid = lid → (s.core p).gated = true → ¬ out → (s.fw.shoots.find? fun y => y.lid == lid && y.idx == j) = none →
      ∃ u, exec (.shoot k) s = .next u ∧ u = { s with cores := u.cores, ctl := s.ctl.eraseIdx k } ∧ u.core p = { s.core p with leaseFlush := true }) ∧
    (∀ x, (s.fw.shoots.find? fun y => y.lid == lid && y.idx == j) = some x → (s.core p).lid ≠ lid ∨ ((s.core p).gated = true ∧ ¬ out) →
      ∃ u, exec (.shoot k) s = .next u ∧ { x with tree := x.tree.answered p } ∈ u.fw.shoots ∧ (u.core p).shot = (s.core p).shot ∧
        (u.core p).leaseFlush = ((s.core p).leaseFlush || (s.core p).lid == lid) ∧
        u.ctl = s.ctl.eraseIdx k ++ (if (x.tree.answered p).ready p then [.shootAck p lid j] else []))) ∧
  (∀ (s : State) (k p lid j : Nat) (x : Shoot) (l : Launch), s.ctl[k]? = some (.shootAck p lid j) →
    (s.fw.shoots.find? fun y => y.lid == lid && y.idx == j) = some x → s.launch? lid = some l →
    (p = x.tree.root → ∃ v : State, exec (.shootAck k) s = .next (v.finishCmd x.cmd 0) ∧ v.fw.shoots = s.fw.shoots.erase x ∧ v.ctl = s.ctl.eraseIdx k ∧
      ∃ l', v.launch? lid = some l' ∧ ∀ y, l'.leases[j]? = some y → y.pages = 0) ∧
    (p ≠ x.tree.root → ∃ u, exec (.shootAck k) s = .next u ∧ { x with tree := x.tree.acked p } ∈ u.fw.shoots ∧ u.launches = s.launches ∧
      u.ctl = s.ctl.eraseIdx k ++ (if (x.tree.acked p).ready (treeParent x.tree.root p) then [.shootAck (treeParent x.tree.root p) lid j] else []))) ∧
  (∀ (s : State) (q i : Nat) (e : List Byte), Heads s q i e 0x0D →
    let role := entNat e 12 2
    let first := entNat e 16 2
    let n := entNat e 18 2
    (s.launch? (entNat e 8 4) = none → Ends s q i e (exec (.recast q) s) 0x04) ∧
    ∀ l, s.launch? (entNat e 8 4) = some l →
      (n = 0 ∨ (∃ j, j < n ∧ l.core? (first + j) = none) → Ends s q i e (exec (.recast q) s) 0x03) ∧
      (1 ≤ n → (∀ j, j < n → l.core? (first + j) ≠ none) →
        ((s.readImage l.image).hasRole role = false → Ends s q i e (exec (.recast q) s) 0x08) ∧
        ((s.readImage l.image).hasRole role = true → (l.st ≠ .running ∨ l.stepMode = true) → Ends s q i e (exec (.recast q) s) 0x05) ∧
        ((s.readImage l.image).hasRole role = true → l.st = .running → l.stepMode = false → l.gang = 0 →
          (∀ (m p : Nat), l.map[m]? = some p → (s.core p).recasting = none) →
          (∀ x ∈ l.roles, x.2 = role ∨ ∃ y ∈ l.roles, y.2 = x.2 ∧ (y.1 < first ∨ first + n ≤ y.1)) →
          ∃ u x, exec (.recast q) s = .next u ∧ x ∈ u.fw.recasts ∧ x.cmd = headRef q i e ∧ x.role = role ∧ x.lid = l.lid ∧
            ∀ (j p : Nat), j < n → l.map[first + j]? = some p → p ∈ x.left ∧ (u.core p).recasting = some role ∧ (u.core p).groups = (s.core p).groups))) ∧
  (∀ (s : State) (p role : Nat) (l : Launch), (s.core p).recasting = some role → s.launch? (s.core p).lid = some l →
    ((s.core p).groups ≠ [] → exec (.recastCoreDrained p) s = .next s) ∧
    ((s.core p).groups = [] → (s.core p).stealOut = false → (s.core p).halted = false → l.st = .running → records (s.core p) = [] →
      ∀ x, (s.fw.recasts.find? fun x => x.lid == l.lid && x.left.contains p) = some x →
        ∃ v : State, exec (.recastCoreDrained p) s = .next (if x.left.erase p = [] then v.finishCmd x.cmd 0 else v) ∧ (v.core p).role = role ∧
          (v.core p).recasting = none ∧ (v.core p).ic = [] ∧ (∃ l', v.launch? l.lid = some l' ∧ tblGet? l'.roles (s.core p).lcore = some role) ∧
          (x.left.erase p = [] → v.fw.recasts = s.fw.recasts.erase x) ∧ (x.left.erase p ≠ [] → { x with left := x.left.erase p } ∈ v.fw.recasts)) ∧
    ((s.core p).groups = [] → (s.core p).stealOut = false → (s.core p).halted = false → l.st = .running → ∀ r to0, records (s.core p) = [(r, none)] →
      (((l.coresOf (s.core p).role).filterMap l.posOfLogical).find? fun j => j != p && (s.core j).recasting.isNone) = some to0 →
      ∃ u, exec (.recastCoreDrained p) s = .next u ∧ (u.core p).role = role ∧ records (u.core p) = [] ∧
        ∃ y ∈ u.reqs, y.src = p ∧ y.dst = to0 ∧ y.body = .bulkWrite (dqinIa to0) r false ∧ y.use = .push)) ∧
  (∀ (s : State) (l : Launch), s.launch? l.lid = some l →
    (l.st = .waiting → s.canPlace l = false → s.inTheWay l = [] ∨ (∃ m ∈ s.inTheWay l, m.prio ≤ l.prio ∨ m.stepMode = true) ∨ s.framesFit l.leases = false →
      exec (.waitingLaunchStart l.lid) s = .next s) ∧
    (l.st = .waiting → s.canPlace l = false → LidsApart s → (∀ m ∈ s.inTheWay l, l.prio < m.prio) → s.framesFit l.leases = true →
      (∀ m ∈ s.launches, m.onCores = true → m.stepMode = false) → (∀ m ∈ s.launches, m.lid ≠ l.lid → m.st = .waiting → m.overlaps l = true → m.before l = false) →
      ∀ m ∈ s.inTheWay l, m.st = .running → ∃ u m', exec (.waitingLaunchStart l.lid) s = .next u ∧ u.launch? m.lid = some m' ∧ m'.st = .saving ∧ m'.byPrio = true ∧
        HaltsSent s u m) ∧
    (l.st = .waiting → s.canPlace l = true → l.gang = 0 → l.map.Nodup →
      ∃ u l', exec (.waitingLaunchStart l.lid) s = .next u ∧ u.launch? l.lid = some l' ∧ l'.st = .running ∧ OnItsCores u l) ∧
    (l.st = .evicted → s.rectFree l = false ∨ s.waitsFor l = true ∨ s.gangAll l (·.free) = false ∨ (l.resumeBy = none ∧ l.byPrio = false) → exec (.evictedLaunchResume l.lid) s = .next s) ∧
    (l.st = .evicted → s.rectFree l = true → s.waitsFor l = false → s.gangAll l (·.free) = true → l.resumeBy ≠ none ∨ (l.byPrio = true ∧ s.resumesBefore l = false) → tblWf l.image0 = true →
      (∀ p c, tblGet? l.image0 p = some c → c.poisoned = []) →
      ∃ v : State, exec (.evictedLaunchResume l.lid) s = .next (match l.resumeBy with
          | some c => v.finishCmd c 0
          | none => v) ∧ v.launch? l.lid = some { l with st := .running, image0 := [], resumeBy := none, sweep := none } ∧
        ∀ p c, tblGet? l.image0 p = some c → (v.core p).lid = c.lid ∧ (v.core p).groups = c.groups ∧ records (v.core p) = records c ∧
          (v.core p).vtime = c.vtime ∧ (v.core p).inbox = c.inbox ∧ (v.core p).halted = false ∧
          ∀ k t, tblGet? c.threads k = some t → t.run = .halted → t.arrived = none → v.thread? p k = some { t with run := .running }) ∧
    (l.st = .saving → s.imageFinal l = false → exec (.saveImageFinal l.lid) s = .next s) ∧
    (l.st = .saving → s.imageFinal l = true → s.gangAll l (·.finals) = true → tblWf s.cores = true → l.lid ≠ 0 →
      ∃ (v : State) (l' : Launch), exec (.saveImageFinal l.lid) s = .next (match l.preemptBy with
          | some c => v.finishCmd c 0
          | none => v) ∧ v.launch? l.lid = some l' ∧ l'.st = .evicted ∧ l'.preemptBy = none ∧
        ∀ p c, tblGet? s.cores p = some c → (c.lid = l.lid → tblGet? l'.image0 p = some c ∧ (v.core p).lid = 0 ∧ (v.core p).groups = [] ∧ (v.core p).threads = []) ∧
          (c.lid ≠ l.lid → v.core p = c)) ∧
    (l.st = .cancelled → s.imageFinal l = true → l.preemptBy = none → l.resumeBy = none → l.lid ≠ 0 →
      ∃ v : State, exec (.saveImageFinal l.lid) s = .next (match l.cancelBy with
          | some c => (v.finishCmd l.cmd 0x0D l.lid (countsOf l)).finishCmd c 0
          | none => v.finishCmd l.cmd 0x0D l.lid (countsOf l)) ∧ LaunchEnds s v l)) ∧
  (∀ (s : State), LidsApart s →
    ((s.time - s.fw.sweepAt).toNat < 10000 → exec .launchEndSweep s = .next s) ∧
    (10000 ≤ (s.time - s.fw.sweepAt).toNat → ∃ u, exec .launchEndSweep s = .next u ∧ u.fw.sweepAt = s.time ∧ ∀ l ∈ s.launches,
      let t := s.transfers l
      let idle := s.idleLaunch l = true ∧ t.1 % 2 ^ 32 = t.2 % 2 ^ 32
      (¬ idle → u.launch? l.lid = some { l with sweep := none }) ∧ (idle → l.sweep ≠ some t → u.launch? l.lid = some { l with sweep := some t }) ∧
      (idle → l.sweep = some t → LaunchEnds s u l)))

/-- Gangs, checks and containment (R131, R136 to R139, R143, R144, R147). The coordinator collects READY messages, sends entries out, starts the members with
the last acknowledgement and fails a spoiled or late placement; a forwarded command does at this part what it says; a departure is noted; a gang barrier
releases its members; a check closes by its result; and a contained rectangle's cores are reset behind the fence.
Clauses that rest on the model's choice: log entries 48, 49. -/
def Obligations.GangsChecksAndContainment : Prop :=
  (∀ (s : State) (id gb gt : Nat) (es : List GangEntry), s.gang? id = none → (∀ x ∈ es, x.member < gt) →
    ∃ u g, exec (.gangReady id gb gt es) s = .next u ∧ u.gang? id = some g ∧ g.entries = es ∧ g.ready = [(gb, es.length)] ∧ g.total = gt ∧ g.since = s.time ∧
      g.started = false ∧ u.launches = s.launches ∧ u.cores = s.cores) ∧
  (∀ (s : State) (id gb gt : Nat) (es : List GangEntry) (g : Gang) (l : Launch), s.gang? id = some g → s.launch? g.lid = some l → g.lid ≠ 0 → g.started = false →
    (s.gangs.map (·.id)).Nodup → (s.launches.map (·.lid)).Nodup → g.bad = false → l.resumeBy = none → l.preemptBy = none → l.cancelBy = none → l.gang = id → (∀ m ∈ s.launches, m.gang = id → m.lid = l.lid) →
    ((∃ x ∈ es, (∃ y ∈ g.entries, y.member = x.member) ∨ gt ≤ x.member) ∨ g.total ≠ gt →
      ∃ v : State, exec (.gangReady id gb gt es) s = .next { v.finishCmd l.cmd 0x12 l.lid (countsOf l) with gangs := v.gangs } ∧ v.gang? id = none ∧ LaunchEnds s v l) ∧
    ((∀ x ∈ es, x.member < gt ∧ ∀ y ∈ g.entries, y.member ≠ x.member) → g.total = gt → l.gbase = 0 →
      (g.entries.length + es.length ≠ gt → ∃ u g', exec (.gangReady id gb gt es) s = .next u ∧ u.gang? id = some g' ∧ g'.entries = g.entries ++ es ∧ g'.placed = g.placed ∧
        u.launches = s.launches ∧ u.cores = s.cores) ∧
      (g.entries.length + es.length = gt → (∃ x ∈ g.entries ++ es, x.dev ≠ 0xFF ∧ x.dev ∉ g.acked) →
        ∃ u g', exec (.gangReady id gb gt es) s = .next u ∧ u.gang? id = some g' ∧ g'.placed = true ∧ g'.started = false ∧ u.cores = s.cores))) ∧
  (∀ (s : State) (id : Nat) (es : List GangEntry) (g : Gang) (l : Launch), s.gang? id = some g → s.launch? g.lid = some l → l.gbase ≠ 0 → g.started = false →
    ∃ u g', exec (.gangEntries id es) s = .next u ∧ u.gang? id = some g' ∧ g'.placed = true ∧ g'.entries.length = es.length ∧ u.cores = s.cores ∧
      ∀ (k : Nat) x, es[k]? = some x → ∃ x', g'.entries[k]? = some x' ∧ x'.member = x.member ∧ x'.pos = x.pos ∧ x'.base = x.base ∧ x'.size = x.size ∧ x'.gen = x.gen ∧
        (∀ y, (es.find? fun y => y.member == l.gbase) = some y → y.dev = x.dev → 0 < s.fw.torusW → 0 < s.fw.torusH → x'.dev = 0xFF)) ∧
  (∀ (s : State) (id dev : Nat) (g : Gang) (l : Launch), s.gang? id = some g → s.launch? g.lid = some l → g.lid ≠ 0 → g.started = false → g.bad = false → g.placed = true →
    l.gbase = 0 → g.entries.length = g.total →
    (∀ x ∈ g.entries, x.dev ≠ 0xFF → x.dev = dev ∨ x.dev ∈ g.acked) →
    ∃ u g', exec (.gangEntriesAck id dev) s = .next u ∧ u.gang? id = some g' ∧ g'.started = true ∧ (∀ d, d ∈ g'.acked ↔ d = dev ∨ d ∈ g.acked) ∧
      u.launches.map (·.lid) = s.launches.map (·.lid)) ∧
  (∀ (s : State) (id : Nat) (g : Gang) (l : Launch), s.gang? id = some g → s.launch? g.lid = some l → g.placed = true → g.started = false →
    ∃ u g', exec (.gangGo id) s = .next u ∧ u.gang? id = some g' ∧ g'.started = true ∧ u.launches.map (·.lid) = s.launches.map (·.lid) ∧
      ∀ r n p, s.launchTasks l = [r] → r.length = 64 → (l.coresOf (recRole r)).head? = some n → l.posOfLogical n = some p →
        ((s.core p).freeRange l).isSome = true → Memory.wf (s.core p).sp = true → Started s u p l r ∧ records (u.core p) = records (s.core p) ∧
          ∃ x ∈ (u.core p).groups, x ∉ (s.core p).groups ∧ x.member = some l.gbase) ∧
  (∀ (s : State) (id : Nat) (g : Gang) (l : Launch), s.gang? id = some g → s.launch? g.lid = some l → g.lid ≠ 0 → l.gang = id →
    (∀ m ∈ s.launches, m.gang = id → m.lid = l.lid) →
    (g.started = true ∨ (s.time - g.since).toNat < 1000000000 → exec (.gangPlacementTimeout id) s = .next s) ∧
    (g.started = false → 1000000000 ≤ (s.time - g.since).toNat → l.resumeBy = none → l.preemptBy = none → l.cancelBy = none →
      ∃ v : State, exec (.gangPlacementTimeout id) s = .next { v.finishCmd l.cmd 0x12 l.lid (countsOf l) with gangs := v.gangs } ∧ v.gang? id = none ∧ LaunchEnds s v l)) ∧
  (∀ (s : State) (id : Nat) (g : Gang) (l : Launch), s.gang? id = some g → s.launch? g.lid = some l →
    (l.st = .running → l.stepMode = false → s.placing l = false → ∃ u l', exec (.gangForwardedCommand id .preempt) s = .next u ∧ u.launch? l.lid = some l' ∧
      l'.st = .saving ∧ l'.preemptBy = none ∧ HaltsSent s u l) ∧
    (l.st = .running → ∃ u l', exec (.gangForwardedCommand id .cancel) s = .next u ∧ u.launch? l.lid = some l' ∧ l'.st = .cancelled ∧ l'.cancelBy = none ∧
      HaltsSent s u l) ∧
    (l.st = .evicted ∨ l.st = .saving → ∃ u, exec (.gangForwardedCommand id .resume) s = .next u ∧ u = { s with launches := u.launches } ∧
      u.launch? l.lid = some { l with byPrio := true })) ∧
  (∀ (s : State) (id m : Nat) (lost : Bool), ∃ u, exec (.detach id ⟨m, lost⟩) s = .next u ∧ u = { s with gangs := u.gangs } ∧
    u.gangs.length = s.gangs.length ∧ ∀ (k : Nat) g, s.gangs[k]? = some g → ∃ g', u.gangs[k]? = some g' ∧ g'.id = g.id ∧ g'.entries = g.entries ∧
      g'.peerLost = (g.peerLost || (g.id == id && lost)) ∧ ∀ d, d ∈ g'.departed ↔ d ∈ g.departed ∨ (g.id = id ∧ d = m)) ∧
  (∀ (s : State) (id k : Nat) (g : Gang) (l : Launch) (sc : Scope), s.gang? id = some g → s.launch? g.lid = some l →
    (l.levels.find? fun e => e.2.1 == 7) = some (k, 7, sc) → tblWf s.cores = true → (∀ e ∈ s.cores, tblWf e.2.threads = true) →
    (s.gangArrived l k = false → exec (.gangBarrierRelease id) s = .next s) ∧
    (s.gangArrived l k = true → ∃ u, exec (.gangBarrierRelease id) s = .next u ∧ u.mem = s.mem ∧ u.net = s.net ∧ u.launches = s.launches ∧
      ∀ p x j t, (s.core p).lid = l.lid → p ∈ s.cores.map (·.1) → x ∈ (s.core p).groups → x.member ≠ none → x.allArrived k = true →
        s.thread? p j = some t → t.home = none → t.group = x.gid → t.run = .sleeping (.bar k) →
        ((s.core p).groups.map (·.gid)).Nodup →
        ∃ t' x', u.thread? p j = some t' ∧ t'.run = .running ∧ t'.pc = t.pc + 4#64 ∧ t'.x = t.x ∧ (u.core p).group? x.gid = some x' ∧ ∀ a ∈ x'.arrivals, a.1 ≠ k)) ∧
  (∀ (s : State) (i : Nat) (k : Check), s.checks[i]? = some k → (s.checks.map (·.id)).Nodup →
    (k.result = none → exec (.checkClose i) s = .next s) ∧
    ((∀ l, s.launch? k.lid = some l → l.st ≠ .running) → exec (.checkClose i) s = .next s) ∧
    (∀ l, s.launch? k.lid = some l → l.st = .running → k.result ≠ none → k.held = [] →
      let gone (u : State) := ∀ c, c ∈ u.checks ↔ c ∈ s.checks ∧ c ≠ k
      (k.result = some none → ∃ u, exec (.checkClose i) s = .next u ∧ gone u ∧ u.fw.susp = s.fw.susp ∧ u.fw.chkHead = s.fw.chkHead + 1) ∧
      (k.result = some (some k.digest) → ∃ u, exec (.checkClose i) s = .next u ∧ gone u ∧ u.fw.chkClean = s.fw.chkClean + 1 ∧ u.fw.chkHead = s.fw.chkHead) ∧
      (∀ d, k.result = some (some d) → d ≠ k.digest →
        (∀ x, k.third = none → let cores := l.awayFrom (recRole k.record) [daleOf k.orig, daleOf k.chk]
          cores[l.nextCheck % cores.length]? = some x →
          ∃ u, exec (.checkClose i) s = .next u ∧ { k with third := some x } ∈ u.checks ∧ SendsFrom s u k.orig none x (.bulkWrite (dqinIa x) k.record false) .push ∧
            u.launch? k.lid = some { l with nextCheck := l.nextCheck + 1 }) ∧
        (∀ x, k.third = some x →
          (k.result3 = none → exec (.checkClose i) s = .next s) ∧
          (k.result3 = some none → ∃ u, exec (.checkClose i) s = .next u ∧ gone u ∧ u.fw.susp = s.fw.susp) ∧
          (k.result3 = some (some k.digest) → ∃ u, exec (.checkClose i) s = .next u ∧ gone u ∧
            tblGetD u.fw.susp k.chk 0 = min 255 (tblGetD s.fw.susp k.chk 0 + k.inc) ∧ ∀ j, j ≠ k.chk → tblGetD u.fw.susp j 0 = tblGetD s.fw.susp j 0) ∧
          (k.result3 = some (some d) → ∃ u, exec (.checkClose i) s = .next u ∧ gone u ∧
            tblGetD u.fw.susp k.orig 0 = min 255 (tblGetD s.fw.susp k.orig 0 + k.inc) ∧ ∀ j, j ≠ k.orig → tblGetD u.fw.susp j 0 = tblGetD s.fw.susp j 0))))) ∧
  (∀ (s : State) (k p : Nat), s.ctl[k]? = some (.contain p) → p < 1024 → s.active p = true → s.checks = [] →
    ∃ u, exec (.containmentReport k) s = .next u ∧ u.mem = s.mem ∧ u.host = s.host ∧
      ∀ j, j < 1024 → s.active j = true → s.rectOf j = s.rectOf p →
        (u.core j).fenced = true ∧ (u.core j).threads = [] ∧ (u.core j).groups = [] ∧ (u.core j).sp = [] ∧ (u.core j).full = [] ∧ (u.core j).inbox = [] ∧
        records (u.core j) = [] ∧ (u.core j).lid = (s.core j).lid ∧ CtlMsg.contain j ∉ u.ctl)

/-- The media ports and PTP (R18, R93 to R98). OPEN takes the lowest free stream number; a packet is counted as malformed, removed, late, dropped or accepted, and
opens the next free buffer; a frame closes at its deadline with one record; the stall timer flags open frames; sixteen offsets within 1 µs lock the
clock, which is stepped forward once.
Clauses that rest on the model's choice: log entries 50, 75. -/
def Obligations.MediaAndPtpSteps : Prop :=
  (∀ (s : State) (q i : Nat) (e : List Byte), Heads s q i e 0x0E → entSub e = 0 →
    let a := entWord e 16
    let m := Stream.open0 (s.fwLoad a 128)
    let o := exec (.mediaOpen q) s
    let used (port : Nat) : Nat := (s.fw.streams.filter fun x => x.2.field 0 1 == port || x.2.field 1 1 == port).length
    (s.addrOk a 128 = false → Ends s q i e o 0x03) ∧ (s.addrOk a 128 = true → s.addrMapped a 128 = false → Ends s q i e o 0x0B) ∧
    (s.addrOk a 128 = true → s.addrMapped a 128 = true →
      (m.reserved = true → Ends s q i e o 0x02) ∧ (m.reserved = false → s.badStream m = true → Ends s q i e o 0x03) ∧
      (m.reserved = false → s.badStream m = false → s.addrMapped (m.at 0 0) (m.nbuf * m.bufSize) = true →
        (s.ptpLocked = false → Ends s q i e o 0x11) ∧
        (s.ptpLocked = true → 64 ≤ used (m.field 0 1) → Ends s q i e o 0x06) ∧
        (s.ptpLocked = true → used (m.field 0 1) < 64 → (m.field 1 1 = 0xFF ∨ used (m.field 1 1) < 64) →
          ∀ n, n < 256 → tblGet? s.fw.streams n = none → (∀ k, k < n → tblGet? s.fw.streams k ≠ none) →
            ∃ v : State, o = .next (v.finishCmd (headRef q i e) 0 n) ∧ tblGet? v.fw.streams n = some m ∧ ∀ k, k ≠ n → tblGet? v.fw.streams k = tblGet? s.fw.streams k))) ∧
  (∀ (s : State) (q i : Nat) (e : List Byte), Heads s q i e 0x0E → entSub e = 1 →
    (tblGet? s.fw.streams (entNat e 8 1) = none → Ends s q i e (exec (.mediaClose q) s) 0x04) ∧
    (∀ m, tblGet? s.fw.streams (entNat e 8 1) = some m → tblWf s.fw.streams = true →
      EndsIn q i e (exec (.mediaClose q) s) fun v => tblGet? v.fw.streams (entNat e 8 1) = none ∧ (m.frames = [] → v.mem = s.mem ∧ v.reqs = s.reqs))) ∧
  (∀ (s : State) (q i : Nat) (e : List Byte), Heads s q i e 0x0E → entSub e = 3 →
    let port := entNat e 8 1
    let dom := entNat e 9 1
    (3 < port ∨ 127 < dom → Ends s q i e (exec (.mediaPtp q) s) 0x03) ∧
    (port ≤ 3 → dom ≤ 127 →
      (s.fw.ptpSel = some (port, dom) → s.ptpLocked = true → Ends s q i e (exec (.mediaPtp q) s) 0x00) ∧
      (s.fw.ptpSel ≠ some (port, dom) ∨ s.ptpLocked = false → ∃ u w, exec (.mediaPtp q) s = .next u ∧ u.fw.ptpSel = some (port, dom) ∧ u.fw.ptpWait = s.fw.ptpWait ++ [w] ∧
        w.cmd = headRef q i e ∧ w.until0 = s.time + BitVec.ofNat 64 (entNat e 12 4 * 1000000) ∧ u.time = s.time))) ∧
  (∀ (s : State) (k : MediaPacket),
    (k.ipv6 = true → ∃ u, exec (.mediaPacket k) s = .next u ∧ tblGet? u.fw.ipv6 k.port = some (tblGetD s.fw.ipv6 k.port 0 + 1) ∧ u.fw.streams = s.fw.streams ∧ u.mem = s.mem) ∧
    (k.ipv6 = false → 9216 < k.size → exec (.mediaPacket k) s = .next s)) ∧
  (∀ (s : State) (i : Nat) (m : Stream) (k : MediaPacket) (path : Nat), s.fw.streams = [(i, m)] → m.path k = some path → m.stats.length = 8 →
    k.ipv6 = false → k.size ≤ 9216 →
    let idx := m.index (m.extend k.rtpTs s.time)
    let up (m' : Stream) (n : Nat) := ∀ j, m'.stats[j]? = (if j = n then (m.stats[j]?).map (· + 1) else m.stats[j]?)
    (k.malformed = true → ∃ u m', exec (.mediaPacket k) s = .next u ∧ tblGet? u.fw.streams i = some m' ∧ m'.frames = m.frames ∧ up m' 3 ∧ u.mem = s.mem) ∧
    (k.malformed = false → m.field 1 1 ≠ 0xFF → m.seen.contains k.seq = true →
      ∃ u m', exec (.mediaPacket k) s = .next u ∧ tblGet? u.fw.streams i = some m' ∧ m'.frames.length = m.frames.length ∧ up m' 1 ∧ u.mem = s.mem) ∧
    (k.malformed = false → m.field 1 1 = 0xFF → (∀ f ∈ m.frames, f.idx ≠ idx) → m.frames.length < 2 → (∀ x ∈ m.closed, x.1 ≠ idx) →
      (m.frames = [] ∨ ∃ f ∈ m.frames, f.idx < idx) →
      (natOfBytes (s.fwLoad (m.at m.nextBuf 0) 8) ≠ 0 →
        ∃ u m', exec (.mediaPacket k) s = .next u ∧ tblGet? u.fw.streams i = some m' ∧ m'.frames = m.frames ∧ m'.closed = (idx, none) :: m.closed ∧ up m' 6) ∧
      (natOfBytes (s.fwLoad (m.at m.nextBuf 0) 8) = 0 → k.marker = false → k.segments = [] →
        ∃ u m' f, exec (.mediaPacket k) s = .next u ∧ tblGet? u.fw.streams i = some m' ∧ m'.frames = m.frames ++ [f] ∧ f.idx = idx ∧ f.buf = m.nextBuf ∧
          f.first = s.time ∧ f.pkts = 1 ∧ f.rtp = k.rtpTs ∧ m'.nextBuf = (m.nextBuf + 1) % max m.nbuf 1 ∧ m'.stall = some s.time ∧ up m' 0)) ∧
    (k.malformed = false → m.field 1 1 = 0xFF → (∀ f ∈ m.frames, f.idx ≠ idx) → (m.closed.find? fun x => x.1 == idx) = some (idx, none) →
      ∃ u m', exec (.mediaPacket k) s = .next u ∧ tblGet? u.fw.streams i = some m' ∧ m'.frames = m.frames ∧ up m' 2 ∧ u.mem = s.mem)) ∧
  (∀ (s : State) (i idx : Nat) (m : Stream) (f : Frame), tblGet? s.fw.streams i = some m → (m.frames.find? fun f => f.idx == idx) = some f →
    (s.time.toNat < m.start idx + m.field 0x40 4 * 1000 → exec (.frameDeadline i idx) s = .next s) ∧
    (m.start idx + m.field 0x40 4 * 1000 ≤ s.time.toNat → ∃ u m', exec (.frameDeadline i idx) s = .next u ∧ tblGet? u.fw.streams i = some m' ∧
      m'.frames = m.frames.filter (fun x => x.idx != idx) ∧ m'.closed = (idx, some f.buf) :: m.closed ∧
      (∀ n, n ≠ 4 → n ≠ 5 → m'.stats[n]? = m.stats[n]?) ∧
      (∀ n p, m.waiters = [n] → s.fw.logical[n]? = some p → p < 0x400 → ∃ (y : Req) (r : BitVec 128), y ∈ u.reqs ∧ y.src = mediaNode (m.field 0 1) ∧ y.dst = p ∧
        y.body = .record r ∧ r.extractLsb' 0 8 = 0x23#8 ∧ r.extractLsb' 8 8 = BitVec.ofNat 8 i ∧ r.extractLsb' 20 4 = 15#4 ∧
          r.extractLsb' 32 32 = m.vt idx ∧ r.extractLsb' 64 16 = BitVec.ofNat 16 f.buf ∧ r.extractLsb' 96 32 = s.time.extractLsb' 0 32 ∧
          r.getLsbD 16 = decide (f.times.length < m.height) ∧ r.getLsbD 17 = f.stalled)))) ∧
  (∀ (s : State) (i : Nat) (m : Stream) (t : Word), tblGet? s.fw.streams i = some m → m.stall = some t →
    ((s.time - t).toNat < m.field 0x3C 4 * 1000 ∨ m.frames = [] → exec (.stallTimerExpiry i) s = .next s) ∧
    (m.field 0x3C 4 * 1000 ≤ (s.time - t).toNat → m.frames ≠ [] → ∃ u m', exec (.stallTimerExpiry i) s = .next u ∧ tblGet? u.fw.streams i = some m' ∧
      m'.frames.length = m.frames.length ∧ (∀ f ∈ m'.frames, f.stalled = true) ∧ m'.stall = none ∧ m'.stats[7]? = (m.stats[7]?).map (· + 1) ∧ u.mem = s.mem)) ∧
  (∀ (s : State) (port dom time : Nat) (off : Int), s.fw.ptpSel ≠ some (port, dom) → exec (.ptpSyncMessage port dom ⟨time, off⟩) s = .next s) ∧
  (∀ (s : State) (port dom time : Nat) (offset : Int) (x : PtpPort), s.fw.ptpSel = some (port, dom) → tblGet? s.fw.ptp port = some x →
    let t := BitVec.ofNat 64 time
    let off : Int := if s.fw.ptpStepped = true then (t - s.time).toInt else offset
    let near := -1000 ≤ off ∧ off ≤ 1000
    (¬ near → ∃ u x', exec (.ptpSyncMessage port dom ⟨time, offset⟩) s = .next u ∧ u.time = s.time ∧ tblGet? u.fw.ptp port = some x' ∧ x'.good = 0 ∧
      x'.locked = x.locked ∧ x'.last = s.time ∧ x'.diff = off ∧ u.fw.ptpOff = (if x.locked = true then (t - s.time).toInt else s.fw.ptpOff)) ∧
    (near → x.locked = true ∨ x.good < 15 → ∃ u x', exec (.ptpSyncMessage port dom ⟨time, offset⟩) s = .next u ∧ u.time = s.time ∧ tblGet? u.fw.ptp port = some x' ∧
      x'.good = min (x.good + 1) 16 ∧ x'.locked = x.locked ∧ u.fw.ptpOff = (if x.locked = true then (t - s.time).toInt else s.fw.ptpOff)) ∧
    (near → x.locked = false → 15 ≤ x.good → ∃ (v : State) (x' : PtpPort), exec (.ptpSyncMessage port dom ⟨time, offset⟩) s = .next v ∧ tblGet? v.fw.ptp port = some x' ∧
      x'.locked = true ∧ v.fw.ptpStepped = true ∧ (∀ w ∈ v.fw.ptpWait, ¬ (w.port = port ∧ w.domain = dom)) ∧
      v.time = (if s.fw.ptpStepped = false ∧ s.time.toNat < t.toNat then t else s.time) ∧ v.fw.ptpOff = (t - v.time).toInt)) ∧
  (∀ (s : State) (port : Nat) (x : PtpPort), tblGet? s.fw.ptp port = some x →
    ((s.time - x.last).toNat < 2000000000 → exec (.ptpLockLoss port) s = .next s) ∧
    (2000000000 ≤ (s.time - x.last).toNat → ∃ u x', exec (.ptpLockLoss port) s = .next u ∧ u.time = s.time ∧ tblGet? u.fw.ptp port = some x' ∧
      x'.locked = false ∧ x'.good = 0 ∧ u.fw.ptpOff = (if (s.fw.ptpSel.map (·.1)) = some port then 0 else s.fw.ptpOff))) ∧
  (∀ (s : State) (q : Nat),
    ((∀ w ∈ s.fw.ptpWait, w.cmd.q = q → s.time.toNat < w.until0.toNat) → exec (.ptpLockTimeout q) s = .next s) ∧
    (∀ w rest, s.fw.ptpWait = w :: rest → w.cmd.q = q → w.until0.toNat ≤ s.time.toNat →
      ∃ v : State, exec (.ptpLockTimeout q) s = .next (v.finishCmd w.cmd 0x0C) ∧ v.fw.ptpWait = rest ∧ v.time = s.time))

/-- The DEBUG commands and the stop broadcast (R44, R89, R215, R216, R218, R221, R223).
Clauses that rest on the model's choice: log entries 15, 54, 87. -/
def Obligations.DebugStopsAndResumesGroups : Prop :=
  (∀ (s : State) (q i : Nat) (e : List Byte), Heads s q i e 0x0F → 1 ≤ entSub e → entSub e ≤ 4 →
    let o := match entSub e with
      | 1 => exec (.debugStop q) s
      | 2 => exec (.debugGo q) s
      | 3 => exec (.debugStep q) s
      | _ => exec (.debugDump q) s
    let f := if entSub e = 4 then 1 else 0
    (s.feature f = false → Ends s q i e o 0x09) ∧
    (s.feature f = true → s.launch? (entNat e 24 4) = none → Ends s q i e o 0x04) ∧
    ∀ l, s.feature f = true → s.launch? (entNat e 24 4) = some l →
      ((∀ p, l.posOfLogical (entNat e 28 2) = some p → l.inRect p = false) → Ends s q i e o 0x03) ∧
      (∀ p, l.posOfLogical (entNat e 28 2) = some p → l.inRect p = true → (∀ g ∈ (s.core p).groups, g.lowSlot ≠ entNat e 30 1 ∨ g.lid ≠ l.lid) →
        (3 ≤ entSub e ∨ entNat e 30 1 ≠ 0xFF) → Ends s q i e o 0x04)) ∧
  (∀ (s : State) (q i : Nat) (e : List Byte) (l : Launch) (p : Nat) (g : Group), Names4 s q i e 1 0 l p → TargetGroup s p l e g → entNat e 30 1 ≠ 0xFF →
    (g.stopped ≠ none → Ends s q i e (exec (.debugStop q) s) 0x05) ∧
    (g.stopped = none → g.lowSlot < 16 → s.stopLag = 0 → (s.core p).trcctl.getLsbD 2 = false → TablesWf s →
      (∀ x ∈ s.fw.stops, x.trig < s.fw.nextTrig) → (∀ x ∈ (s.core p).stopOwed, x.1 < s.fw.nextTrig) →
      let n := s.fw.nextTrig
      let reach := s.stopReach p ((s.core p).dbgctl.extractLsb' 2 2)
      ∃ u x, exec (.debugStop q) s = .next u ∧ GroupHeld s u p g ∧ u.mem = s.mem ∧ u.fw.nextTrig = n + 1 ∧ x ∈ u.fw.stops ∧ x.cmd = some (headRef q i e) ∧ x.trig = n ∧
        (∀ j ∈ reach, j ∈ x.tree.own ∧ CtlMsg.stop j l.lid p g.lowSlot n s.time ∈ u.ctl) ∧
        (reach = [] → x.tree.root = p ∧ ∃ sk, CtlMsg.stopAck p n sk 1 ∈ u.ctl))) ∧
  (∀ (s : State) (q i : Nat) (e : List Byte) (l : Launch) (p : Nat) (g : Group), Names4 s q i e 2 0 l p → TargetGroup s p l e g → entNat e 30 1 ≠ 0xFF →
    (g.stopped = none ∨ g.lag ≠ none ∨ g.stepping = true → Ends s q i e (exec (.debugGo q) s) 0x05) ∧
    (g.stopped ≠ none → g.lag = none → g.stepping = false → TablesWf s → ∃ (v : State) (g' : Group), exec (.debugGo q) s = .next (v.finishCmd (headRef q i e) 0 1) ∧
          (v.core p).group? g.gid = some g' ∧ g'.stopped = none ∧ g'.stepping = false ∧
          ∀ k t, s.thread? p k = some t → t.home = none → t.group = g.gid → t.run = .stopped → t.arrived = none →
            ∃ t', v.thread? p k = some t' ∧ t'.run = .running ∧ t'.pc = t.pc ∧ t'.ss = false ∧ t'.x = t.x)) ∧
  (∀ (s : State) (q i : Nat) (e : List Byte) (l : Launch) (p : Nat) (g : Group), Names4 s q i e 3 0 l p → TargetGroup s p l e g →
    (g.stopped = none ∨ g.lag ≠ none ∨ g.stepping = true → Ends s q i e (exec (.debugStep q) s) 0x05) ∧
    (g.stopped ≠ none → g.lag = none → g.stepping = false → TablesWf s → ∃ (u : State) (x : StepOp) (g' : Group), exec (.debugStep q) s = .next u ∧ x ∈ u.fw.steps ∧
      x.cmd = headRef q i e ∧ x.pos = p ∧ (u.core p).group? g.gid = some g' ∧ g'.stepping = true ∧
      ∀ k t, s.thread? p k = some t → t.home = none → t.group = g.gid → t.run = .stopped → t.arrived = none →
        ∃ t', u.thread? p k = some t' ∧ t'.run = .running ∧ t'.pc = t.pc ∧ t'.ss = true ∧ t'.stepped = false ∧ t'.x = t.x)) ∧
  (∀ (s : State) (p k : Nat) (x : StepOp) (g : Group), (s.fw.steps.find? fun (y : StepOp) => y.pos == p && y.gslot == k) = some x →
    (s.core p).groups.find? (fun g => g.lowSlot == k) = some g → (s.core p).group? g.gid = some g → g.stepping = true → g.dying = none → TablesWf s →
    (s.unstepped p g.gid ≠ 0 → s.coreClocks p - x.since < 64 → exec (.debugStepEnd p k) s = .next s) ∧
    (s.unstepped p g.gid = 0 ∨ 64 ≤ s.coreClocks p - x.since → ∃ (v : State) (g' : Group),
      exec (.debugStepEnd p k) s = .next (v.finishCmd x.cmd 0 (x.count - s.unstepped p g.gid)) ∧ v.fw.steps = s.fw.steps.erase x ∧
      (v.core p).group? g.gid = some g' ∧ g'.stepping = false ∧
      ∀ j t, s.thread? p j = some t → t.home = none → t.group = g.gid → t.run = .running →
        ∃ t', v.thread? p j = some t' ∧ t'.run = .stopped ∧ t'.pc = t.pc ∧ t'.ss = false ∧ t'.x = t.x)) ∧
  (∀ (s : State) (q i : Nat) (e : List Byte) (l : Launch) (p : Nat) (g : Group), Names4 s q i e 4 1 l p → TargetGroup s p l e g →
    let buf := entWord e 16
    (buf.toNat % 4096 ≠ 0 ∨ s.addrOk buf 0x50000 = false → Ends s q i e (exec (.debugDump q) s) 0x03) ∧
    (buf.toNat % 4096 = 0 → s.addrOk buf 0x50000 = true → s.addrMapped buf 0x50000 = false → Ends s q i e (exec (.debugDump q) s) 0x0B) ∧
    (buf.toNat % 4096 = 0 → s.addrOk buf 0x50000 = true → s.addrMapped buf 0x50000 = true →
      (g.stopped = none ∨ g.lag ≠ none ∨ g.stepping = true → Ends s q i e (exec (.debugDump q) s) 0x05) ∧
      (g.stopped ≠ none → g.lag = none → g.stepping = false → ∃ u x, exec (.debugDump q) s = .next u ∧ u.fw.dumps = s.fw.dumps ++ [x] ∧ x.pos = p ∧ x.gid = g.gid ∧ x.buf = buf ∧
        x.cmd = headRef q i e ∧ u.cores = s.cores ∧ u.mem = s.mem))) ∧
  (∀ (s : State) (k p lid src slot trig : Nat) (tm : Word) (x : StopOp), s.ctl[k]? = some (.stop p lid src slot trig tm) →
    (s.fw.stops.find? fun (y : StopOp) => y.trig == trig) = some x → x.tree.own.Nodup →
    let kids := ∃ q ∈ x.tree.left, q ≠ x.tree.root ∧ treeParent x.tree.root q = p
    let sum := tblGetD x.tree.sums p (0, 0)
    ((s.core p).lid ≠ lid ∨ lid = 0 → ∃ u, exec (.stop k) s = .next u ∧ u.cores = s.cores ∧ u.mem = s.mem ∧
      (∃ y ∈ u.fw.stops, y.trig = trig ∧ y.cmd = x.cmd ∧ y.tree.own = x.tree.own.erase p) ∧
      (kids → u.ctl = s.ctl.eraseIdx k) ∧ (¬ kids → u.ctl = s.ctl.eraseIdx k ++ [.stopAck p trig sum.1 sum.2])) ∧
    ((s.core p).lid = lid → lid ≠ 0 → s.stopLag = 0 → (s.core p).trcctl.getLsbD 2 = false → TablesWf s → (s.core p).stopOwed = [] →
      (∀ g ∈ (s.core p).groups, g.lag = none) → ∃ u sk, exec (.stop k) s = .next u ∧
      (kids → u.ctl = s.ctl.eraseIdx k) ∧
      (¬ kids → u.ctl = s.ctl.eraseIdx k ++ [.stopAck p trig (sum.1 + sk) (sum.2 + ((s.core p).groups.filter fun g => g.stopped.isNone).length)]) ∧
      (∃ y ∈ u.fw.stops, y.trig = trig ∧ y.cmd = x.cmd ∧ y.tree.own = x.tree.own.erase p) ∧
      (∀ q, q ≠ p → (∀ j t, s.thread? q j = some t → t.homePos q ≠ p) → ∀ j, u.thread? q j = s.thread? q j) ∧
      ∀ g ∈ (s.core p).groups, (s.core p).group? g.gid = some g → g.stopped = none → GroupHeld s u p g)) ∧
  (∀ (s : State) (k p trig sk n : Nat) (x : StopOp), s.ctl[k]? = some (.stopAck p trig sk n) → (s.fw.stops.find? fun (y : StopOp) => y.trig == trig) = some x →
    (p = x.tree.root → ∃ v : State, exec (.stopAck k) s = .next (match x.cmd with
        | some c => v.finishCmd c 0 n (BitVec.ofNat 64 sk)
        | none => v) ∧ v.fw.stops = s.fw.stops.erase x ∧ v.ctl = s.ctl.eraseIdx k ∧ v.cores = s.cores) ∧
    (p ≠ x.tree.root →
      let q := treeParent x.tree.root p
      let sum := tblGetD x.tree.sums q (0, 0)
      let waits := q ∈ x.tree.own ∨ ∃ r ∈ x.tree.left.erase p, r ≠ x.tree.root ∧ treeParent x.tree.root r = q
      ∃ u, exec (.stopAck k) s = .next u ∧ u.cores = s.cores ∧
        (∃ y ∈ u.fw.stops, y.trig = trig ∧ y.cmd = x.cmd ∧ y.tree.left = x.tree.left.erase p ∧ tblGetD y.tree.sums q (0, 0) = (sum.1 + sk, sum.2 + n)) ∧
        (waits → u.ctl = s.ctl.eraseIdx k) ∧ (¬ waits → u.ctl = s.ctl.eraseIdx k ++ [.stopAck q trig (sum.1 + sk) (sum.2 + n)])))

/-- Integer division (R241): `div`, `divu`, `rem`, `remu` and their word forms never trap for their operands and raise no flag; a zero divisor gives all ones
and the dividend, the most negative value by −1 gives itself and 0, a quotient truncates toward zero, and a signed remainder has its dividend's sign. -/
def Obligations.IntegerDivisionFollowsItsRule : Prop :=
  (∀ (s : State) (t : Thread) (d a b : Reg), Issues s t [d, a, b] →
    let x := t.rx a
    let y := t.rx b
    let xw := x.extractLsb' 0 32
    let yw := y.extractLsb' 0 32
    Retires s t (exec (.div d a b) s) (t.pc + 4#64) (some (d, (idiv x y true).1)) none 0#8 ∧
    Retires s t (exec (.divu d a b) s) (t.pc + 4#64) (some (d, (idiv x y false).1)) none 0#8 ∧
    Retires s t (exec (.rem d a b) s) (t.pc + 4#64) (some (d, (idiv x y true).2)) none 0#8 ∧
    Retires s t (exec (.remu d a b) s) (t.pc + 4#64) (some (d, (idiv x y false).2)) none 0#8 ∧
    Retires s t (exec (.divW d a b) s) (t.pc + 4#64) (some (d, (idiv xw yw true).1.signExtend 64)) none 0#8 ∧
    Retires s t (exec (.divuW d a b) s) (t.pc + 4#64) (some (d, (idiv xw yw false).1.signExtend 64)) none 0#8 ∧
    Retires s t (exec (.remW d a b) s) (t.pc + 4#64) (some (d, (idiv xw yw true).2.signExtend 64)) none 0#8 ∧
    Retires s t (exec (.remuW d a b) s) (t.pc + 4#64) (some (d, (idiv xw yw false).2.signExtend 64)) none 0#8) ∧
  (∀ (w : Nat) (x y : BitVec w), 2 ≤ w → y ≠ 0#w →
    ((idiv x y true).2.toInt < 0 → x.toInt < 0) ∧ (0 < (idiv x y true).2.toInt → 0 < x.toInt) ∧
    ((idiv x y true).2.toInt).natAbs < y.toInt.natAbs ∧ (idiv x y false).2.toNat < y.toNat ∧
    x.toNat = (idiv x y false).1.toNat * y.toNat + (idiv x y false).2.toNat ∧
    (¬ (x = BitVec.intMin w ∧ y = BitVec.allOnes w) →
      x.toInt = (idiv x y true).1.toInt * y.toInt + (idiv x y true).2.toInt ∧ (idiv x y true).1.toInt.natAbs = x.toInt.natAbs / y.toInt.natAbs))

/-- `vsel` (R353): its encoding, its issue as one command, and what the command does: byte b of vd is byte b of vs1 where the mask's bit is 1 and of vs2
where it is 0, whether or not the lane is governed; with m0 it copies vs1; nothing else of the context changes. -/
def Obligations.SelectTakesBytesByMask : Prop :=
  (∀ (w : BitVec 32) (d a b : BitVec 5) (m : BitVec 3),
    w = (0x6#4 ++ m ++ b ++ 0#3 ++ a ++ d ++ 0x25#6 ++ 1#1 : BitVec 32) → decodeWord w = .ok (.vsel d a b m)) ∧
  (∀ (s : State) (t : Thread) (g : Group) (l : Launch) (c : Bool) (d a b : BitVec 5) (m : MReg), VectorIssues s t g l c [] (fun _ => false) →
    Queues s t c (exec (.vsel d a b m) s)
      { op := .sel, d := d, a := a, b := b, m := m, bx := false, s1 := 0#64, s2 := 0#64, pfx := none, slot := s.slot, gid := t.group, lid := l.lid,
        runs := [], handler := t.th } 4 none) ∧
  (∀ (c : VCtx) (k : VCmd) (tab : Word × Word), k.op = .sel →
    let r := c.perform k tab
    (∀ i, i < 256 → (r.ctx.rv k.d).extractLsb' (8 * i) 8 =
      if (c.rm k.m).getLsbD i then (c.rv k.a).extractLsb' (8 * i) 8 else (c.rv k.b).extractLsb' (8 * i) 8) ∧
    (k.m = 0#3 → r.ctx.rv k.d = c.rv k.a) ∧ (∀ n, n ≠ k.d → r.ctx.rv n = c.rv n) ∧ r.ctx.m = c.m ∧ r.ctx.qm = c.qm ∧ r.ctx.qc = c.qc ∧
    r.ctx.queue = c.queue ∧ r.flags = 0#8 ∧ r.x = none)

/-- The completion of a command (R83, R85): with NOCPL an OK writes nothing; else a 32-byte entry is written at CWP before CWP advances past it, or is held
where the completion ring has no room; a command that is not begun completes nothing.
Clauses that rest on the model's choice: log entry 46. -/
def Obligations.CompletionEntriesAreWritten : Prop :=
  ∀ (s : State) (c : CmdRef) (status info0 : Nat) (info1 : Word), status < 256 → c.opc < 256 →
    let v := s.queue c.q
    let u := s.finishCmd c status info0 info1
    let slot := v.cbase + BitVec.ofNat 64 (v.cwp % v.cslots * 32)
    let a := (slot.extractLsb' 0 52).toNat
    let b := (v.stat.extractLsb' 0 52).toNat
    let entry (e : List Byte) : Prop := e.length = 32 ∧ entTag e = BitVec.ofNat 16 (status + c.opc * 256) ∧ BitVec.ofNat 16 (entNat e 0 2) = c.tag ∧
      entNat e 4 4 = info0 % 2 ^ 32 ∧ entWord e 8 = info1 ∧ entWord e 16 = s.time ∧ entNat e 24 8 = c.index % 2 ^ 64
    (c ∉ v.begun → u = s) ∧
    (c ∈ v.begun → (∀ q, q ≠ c.q → u.queue q = s.queue q) ∧ u.cores = s.cores ∧ u.time = s.time ∧ u.reqs = s.reqs) ∧
    (c ∈ v.begun → c.nocpl = true → status = 0 → u.mem = s.mem ∧ u.host = s.host ∧ u.queue c.q = { v with begun := v.begun.erase c }) ∧
    (c ∈ v.begun → (c.nocpl = false ∨ status ≠ 0) → v.cwp - v.crpLast < v.cslots → v.heldCpl = [] → slot.getLsbD 63 = true → v.stat.getLsbD 63 = true →
      s.addrOk v.stat 64 = true → v.stat.toNat % 64 = 0 →
      Memory.wf s.host = true → (b + 24 ≤ a ∨ a + 32 ≤ b) → u.mem = s.mem ∧ u.queue c.q = { v with begun := v.begun.erase c, cwp := v.cwp + 1 } ∧
        entry (memRead u.host a 32) ∧ natOfBytes (memRead u.host b 8) = v.rp % 2 ^ 64 ∧ natOfBytes (memRead u.host (b + 8) 8) = (v.cwp + 1) % 2 ^ 64 ∧
        wordOf (memRead u.host (b + 16) 8) = v.qstat ∧
        ∀ k, (k < a ∨ a + 32 ≤ k) → (k < b ∨ b + 24 ≤ k) → memGet u.host k = memGet s.host k) ∧
    (c ∈ v.begun → (c.nocpl = false ∨ status ≠ 0) → (v.cslots ≤ v.cwp - v.crpLast ∨ v.heldCpl ≠ []) → u.mem = s.mem ∧ u.host = s.host ∧
      ∃ e, entry e ∧ u.queue c.q = { v with begun := v.begun.erase c, heldCpl := v.heldCpl ++ [e] })

/-- Every step keeps the canonical form of every memory: the module's, the host's, every scratchpad and every scratchpad of a launch's saved image.
Clauses that rest on the model's choice: log entry 2. -/
def Obligations.StepKeepsCanonicalMemory : Prop :=
  ∀ (s u : State), MemoriesWf s → step s = .next u → MemoriesWf u

/-- What the start of a cold reset leaves (R20, R36, R79, R109, R122, R134, R146, R159, R177, R214): no launch, no thread and no packet; memory, every scratchpad
and every tag zero; the counters and windows of the fabric at their first values; the control registers at the reset values of their tables; and every memory in its
canonical form.
Clauses that rest on the model's choice: log entries 2, 3, 4. -/
def Obligations.ResetLeavesItsState : Prop :=
  MemoriesWf State.reset ∧ State.reset.time = 0#64 ∧ State.reset.launches = [] ∧ State.reset.net = [] ∧ State.reset.reqs = [] ∧
  State.reset.fw.phase = 0 ∧ State.reset.fw.ready = false ∧ State.reset.fw.fail = false ∧ State.reset.fw.last = .cold ∧
  (∀ a, memGet State.reset.mem a = 0#8) ∧
  (∀ p, (State.reset.core p).threads = [] ∧ (State.reset.core p).groups = [] ∧ (∀ a, memGet (State.reset.core p).sp a = 0#8) ∧
    (State.reset.core p).full = [] ∧ (State.reset.core p).poisoned = [] ∧ (State.reset.core p).lid = 0 ∧ (State.reset.core p).vtime = 0#32 ∧
    (State.reset.core p).gvt = 0#32 ∧ (State.reset.core p).exEn = false ∧ (State.reset.core p).dbgctl = 0#64 ∧ (State.reset.core p).wdLimit = 0#32 ∧
    (State.reset.core p).inbCap = 0x40 ∧ (State.reset.core p).inbRes15 = 4 ∧ (State.reset.core p).auto = true ∧ (State.reset.core p).steal = true ∧
    (State.reset.core p).daleOnly = false ∧ (State.reset.core p).fenced = false) ∧
  (∀ n k, tblGetD (State.reset.node n).seqS k 0#16 = 0#16 ∧ tblGetD (State.reset.node n).seqN k 0#16 = 0#16 ∧
    (State.reset.node n).replies = []) ∧
  State.reset.fw.gvt = 0#32 ∧ State.reset.fw.rects.get 0 = Rect.whole ∧ (State.reset.queue 0).en = false ∧ (State.reset.queue 0).base = 0#64 ∧
  (State.reset.queue 0).state = 0 ∧ State.reset.fw.streams = []

/-- Predicate compares (R305): major 0x07, format R, f3 0; the comparisons by f7; rd[4:3] must be zero and f7 6 to 0x7F is unassigned; each writes
P(rd[2:0]) and nothing else but the pc, and p0 keeps reading true. -/
def Obligations.PredicateComparesFollowTheirRule : Prop :=
  (∀ (f : BitVec 7) (a b d : BitVec 5),
    let w : BitVec 32 := f ++ b ++ 0#3 ++ a ++ d ++ 0x07#6 ++ 1#1
    let p := d.setWidth 3
    (d.toNat < 8 → decodeWord w = (match f.toNat with
      | 0 => .ok (.pcmpEq p a b)
      | 1 => .ok (.pcmpNe p a b)
      | 2 => .ok (.pcmpLt p a b)
      | 3 => .ok (.pcmpGe p a b)
      | 4 => .ok (.pcmpLtu p a b)
      | 5 => .ok (.pcmpGeu p a b)
      | _ => .error .unassigned)) ∧
    (8 ≤ d.toNat → ∃ e, decodeWord w = .error e) ∧ (6 ≤ f.toNat → decodeWord w = .error .unassigned)) ∧
  (∀ (s : State) (t : Thread) (d : Pred) (a b : Reg), Issues s t [a, b] →
    let x := t.rx a
    let y := t.rx b
    Retires s t (exec (.pcmpEq d a b) s) (t.pc + 4#64) none (some (d, decide (x = y))) 0#8 ∧
    Retires s t (exec (.pcmpNe d a b) s) (t.pc + 4#64) none (some (d, decide (x ≠ y))) 0#8 ∧
    Retires s t (exec (.pcmpLt d a b) s) (t.pc + 4#64) none (some (d, decide (x.toInt < y.toInt))) 0#8 ∧
    Retires s t (exec (.pcmpGe d a b) s) (t.pc + 4#64) none (some (d, decide (y.toInt ≤ x.toInt))) 0#8 ∧
    Retires s t (exec (.pcmpLtu d a b) s) (t.pc + 4#64) none (some (d, decide (x.toNat < y.toNat))) 0#8 ∧
    Retires s t (exec (.pcmpGeu d a b) s) (t.pc + 4#64) none (some (d, decide (y.toNat ≤ x.toNat))) 0#8)
end

