-- ==== Sys2Proof/Laws/Integrity.lean ====
section
/-! SUPPORT. A stored block without errors reads clean: its check bytes and its tag are the ones its own bits give (R65, R66). -/
namespace Sys2Proof.Machine

/-- A word that stands with its own check byte is taken as it is. -/
theorem eccWord_self (w : Word) : eccWord w (Config.secded w) = some (w, false) := by simp [eccWord]

/-- Fields of m bits packed side by side: bit j is a bit of field j / m. -/
theorem packed_getLsbD {v : Nat} (m k : Nat) (hm : 0 < m) (f : Nat → BitVec m) (n j : Nat) (hn : n * m ≤ v) :
    ((List.range n).foldl (fun (w : BitVec v) i => w ||| ((f i).setWidth v <<< (m * i))) 0#v).getLsbD j =
      (decide (j / m < n) && (f (j / m)).getLsbD (j % m)) := by
  induction n with
  | zero => simp
  | succ n ih =>
    have hv : n * m + m ≤ v := by rw [← Nat.succ_mul]; exact hn
    rw [List.range_succ, List.foldl_append, List.foldl_cons, List.foldl_nil, BitVec.getLsbD_or, ih (by omega), BitVec.getLsbD_shiftLeft, BitVec.getLsbD_setWidth]
    have e := Nat.div_add_mod j m
    have l := Nat.mod_lt j hm
    rcases lt_trichotomy (j / m) n with h | h | h
    · have : j < m * n := by
        calc j < m * (j / m + 1) := by rw [Nat.mul_add]; omega
          _ ≤ m * n := Nat.mul_le_mul_left m h
      simp [h, Nat.lt_succ_of_lt h, this]
    · have hj : j - m * n = j % m := by rw [← h]; omega
      have g : ¬ j < m * n := by rw [← h]; omega
      have hw : j < v := by rw [h] at e; rw [Nat.mul_comm] at e; omega
      simp [h, hj, g, hw]
      intro _; omega
    · have hm' : m * (n + 1) ≤ j := by
        calc m * (n + 1) ≤ m * (j / m) := Nat.mul_le_mul_left m h
          _ ≤ j := Nat.mul_div_le j m
      have g : m ≤ j - m * n := by rw [Nat.mul_add] at hm'; omega
      simp [Nat.not_lt.mpr h.le, Nat.not_lt.mpr h, BitVec.getLsbD_of_ge _ _ g]

/-- A check byte stands where R65 puts it. -/
theorem checkBytes_byte (c : BitVec 512) (i : Nat) (h : i < 8) :
    (checkBytes c).extractLsb' (8 * i) 8 = Config.secded (c.extractLsb' (64 * i) 64) := by
  refine BitVec.eq_of_getLsbD_eq fun j hj => ?_
  unfold checkBytes
  rw [BitVec.getLsbD_extractLsb', packed_getLsbD 8 0 (by omega) (fun i => Config.secded (c.extractLsb' (64 * i) 64)) 8 _ (by omega)]
  have a : (8 * i + j) / 8 = i := by omega
  have b : (8 * i + j) % 8 = j := by omega
  simp [a, b, h, hj]

/-- Eight words with their check bytes are taken as they are. -/
theorem eccBlock_self (c : BitVec 512) (k : BitVec 64) (h : ∀ i < 8, k.extractLsb' (8 * i) 8 = Config.secded (c.extractLsb' (64 * i) 64)) :
    eccBlock c k = some (c, false) := by
  have step : ∀ n ≤ 8, (List.range n).foldl (fun acc i => acc.bind fun (x : BitVec 512 × Bool) =>
      (eccWord (c.extractLsb' (64 * i) 64) (k.extractLsb' (8 * i) 8)).map fun w =>
        ((x.1 ||| ((BitVec.setWidth 512 w.1 : BitVec 512) <<< (64 * i)) : BitVec 512), x.2 || w.2)) (some (0#512, false)) =
      some ((List.range n).foldl (fun (w : BitVec 512) i => w ||| ((c.extractLsb' (64 * i) 64).setWidth 512 <<< (64 * i))) 0#512, false) := by
    intro n
    induction n with
    | zero => intro _; rfl
    | succ n ih =>
      intro hn
      rw [List.range_succ, List.foldl_append, ih (by omega), List.foldl_cons, List.foldl_nil, h n (by omega), eccWord_self, List.foldl_append]
      rfl
  unfold eccBlock
  rw [step 8 (by omega)]
  congr 2
  refine BitVec.eq_of_getLsbD_eq fun j hj => ?_
  rw [packed_getLsbD 64 0 (by omega) (fun i => c.extractLsb' (64 * i) 64) 8 _ (by omega)]
  have a : j / 64 < 8 := by omega
  have b : j % 64 < 64 := by omega
  have e : 64 * (j / 64) + j % 64 = j := by omega
  simp [a, b, e]

/-- A carve-out block without errors reads clean. -/
theorem State.carveEcc_clean {s : State} {r : Nat} (h : tblGet? s.carveUpsets r = none) : s.carveEcc r = some (s.carveBlock r, false) := by
  have hu : tblGetD s.carveUpsets r Upset.none = Upset.none := by simp [tblGetD, h]
  unfold State.carveEcc State.storedCarve
  rw [hu]
  simp only [Upset.none, BitVec.xor_zero]
  refine eccBlock_self _ _ fun i hi => ?_
  rw [show ((checkBytes (s.carveBlock r)).setWidth 128).extractLsb' 0 64 = checkBytes (s.carveBlock r) from
    BitVec.eq_of_getLsbD_eq fun j hj => by simp [hj]; intro; omega, checkBytes_byte _ _ hi]
theorem State.carveOutcome_clean {s : State} {r : Nat} (h : tblGet? s.carveUpsets r = none) : s.carveOutcome r = .clean := by
  unfold State.carveOutcome; rw [State.carveEcc_clean h]; rfl

/-- Byte j of a little-endian number. -/
theorem natOfBytes_byte (l : List Byte) (j : Nat) : natOfBytes l / 256 ^ j % 256 = (l.getD j 0#8).toNat := by
  induction l generalizing j with
  | nil => simp [natOfBytes]
  | cons b t ih =>
    cases j with
    | zero => simp [natOfBytes]; omega
    | succ j =>
      rw [List.getD_cons_succ, ← ih j, Nat.pow_succ, Nat.mul_comm (256 ^ j) 256, ← Nat.div_div_eq_div_mul]
      congr 2
      have := b.isLt
      rw [natOfBytes]; omega
/-- The carve-out byte of a block in the carve-out block of its range. -/
theorem State.carveBlock_byte (s : State) (k : Nat) : (s.carveBlock (k / 64)).extractLsb' (8 * (k % 64)) 8 = s.carveByte k := by
  have hk : k % 64 < 64 := Nat.mod_lt k (by omega)
  have e : 64 * (k / 64) + k % 64 = k := Nat.div_add_mod k 64
  apply BitVec.eq_of_toNat_eq
  have g := natOfBytes_byte ((List.range 64).map fun i => s.carveByte (64 * (k / 64) + i)) (k % 64)
  have l : ((List.range 64).map fun i => s.carveByte (64 * (k / 64) + i)).getD (k % 64) 0#8 = s.carveByte k := by
    simp [List.getD, List.getElem?_map, List.getElem?_range hk, e]
  rw [l] at g
  unfold State.carveBlock
  rw [BitVec.extractLsb'_toNat, BitVec.toNat_ofNat, ← g, Nat.shiftRight_eq_div_pow, show (256 : Nat) = 2 ^ 8 from rfl, ← Nat.pow_mul]
  refine Nat.eq_of_testBit_eq fun i => ?_
  simp only [Nat.testBit_mod_two_pow, Nat.testBit_div_two_pow]
  by_cases h : i < 8
  · simp [h]; intro; omega
  · simp [h]
/-- The fields of a sideband (R65). -/
theorem sidebandOf_getLsbD (c : BitVec 512) (tag : BitVec 56) (j : Nat) : (sidebandOf c tag).getLsbD j =
    if j < 64 then (checkBytes c).getLsbD j else if j < 112 then (tag.extractLsb' 8 48).getLsbD (j - 64)
    else if j < 120 then (Config.secded ((tag.extractLsb' 8 48).setWidth 64)).getLsbD (j - 112) else false := by
  unfold sidebandOf
  refine BitVec.getLsbD_append.trans ?_
  by_cases h : j < 64
  · rw [if_pos h, if_pos h]
  rw [if_neg h, if_neg h]
  refine BitVec.getLsbD_append.trans ?_
  by_cases g : j < 112
  · rw [if_pos g, if_pos (by omega)]
  rw [if_neg g, if_neg (by omega), show j - 64 - 48 = j - 112 by omega]
  refine BitVec.getLsbD_append.trans ?_
  by_cases k : j < 120
  · rw [if_pos k, if_pos (by omega)]
  · rw [if_neg k, if_neg (by omega), BitVec.getLsbD_zero]
/-- A block without errors, whose carve-out block has none, reads clean. -/
theorem State.blockOutcome_clean {s : State} {k : Nat} (h : tblGet? s.upsets k = none) (hc : tblGet? s.carveUpsets (k / 64) = none) :
    s.blockOutcome k = (.clean, s.cipherBlock k) := by
  have hu : tblGetD s.upsets k Upset.none = Upset.none := by simp [tblGetD, h]
  unfold State.blockOutcome State.storedBlock
  rw [hu, State.carveEcc_clean hc]
  simp only [Upset.none, BitVec.xor_zero]
  generalize hcb : s.cipherBlock k = c
  generalize ht : s.tagFor k c = tag
  have lo : (sidebandOf c tag).extractLsb' 0 64 = checkBytes c := by
    refine BitVec.eq_of_getLsbD_eq fun j hj => ?_
    rw [BitVec.getLsbD_extractLsb', sidebandOf_getLsbD, if_pos (by omega)]; simp [hj]
  have hi : ((sidebandOf c tag).extractLsb' 64 48).setWidth 64 = (tag.extractLsb' 8 48).setWidth 64 := by
    congr 1
    refine BitVec.eq_of_getLsbD_eq fun j hj => ?_
    rw [BitVec.getLsbD_extractLsb', sidebandOf_getLsbD, if_neg (by omega), if_pos (by omega)]; simp [hj]
  have ch : (sidebandOf c tag).extractLsb' 112 8 = Config.secded ((tag.extractLsb' 8 48).setWidth 64) := by
    refine BitVec.eq_of_getLsbD_eq fun j hj => ?_
    rw [BitVec.getLsbD_extractLsb', sidebandOf_getLsbD, if_neg (by omega), if_neg (by omega), if_pos (by omega)]; simp [hj]
  have bl := State.carveBlock_byte s k
  have cb : s.carveByte k = tag.extractLsb' 0 8 := by unfold State.carveByte; rw [hcb, ht]
  have tg : (((tag.extractLsb' 8 48).setWidth 64).extractLsb' 0 48 ++ tag.extractLsb' 0 8 : BitVec 56) = tag := by
    refine BitVec.eq_of_getLsbD_eq fun j hj => ?_
    refine BitVec.getLsbD_append.trans ?_
    by_cases g : j < 8
    · rw [if_pos g]; simp [g]
    · have e : 8 + (j - 8) = j := by omega
      have l : j - 8 < 48 := by omega
      have m : j - 8 < 64 := by omega
      rw [if_neg g]; simp [e, l, m]
  rw [lo, eccBlock_self c _ (checkBytes_byte c), hi, ch, eccWord_self]
  simp only [bl, cb]
  rw [tg, ht]
  simp

end Sys2Proof.Machine
end

