-- ==== Sys2Proof/Laws/Table.lean ====
section
/-! SUPPORT. Laws of sparse tables and memories: a read after a write, and the canonical form that every operation keeps. -/
namespace Sys2Proof.Machine

/-! ## Tables -/

/-- A read after a write of the same key gives the value written. -/
@[simp] theorem tblGet?_tblSet_same {α : Type} (t : Tbl α) (i : Nat) (v : α) : tblGet? (tblSet t i v) i = some v := by
  induction t with
  | nil => simp [tblSet, tblGet?]
  | cons h t ih =>
    obtain ⟨k, w⟩ := h
    by_cases h1 : i < k
    · simp [tblSet, tblGet?, h1]
    · by_cases h2 : i = k
      · simp [tblSet, tblGet?, h2]
      · simp [tblSet, tblGet?, h1, h2, ih]
/-- A read of another key is not affected by a write. -/
theorem tblGet?_tblSet_other {α : Type} (t : Tbl α) (i j : Nat) (v : α) (hij : j ≠ i) :
    tblGet? (tblSet t i v) j = tblGet? t j := by
  induction t with
  | nil => simp [tblSet, tblGet?, hij]
  | cons h t ih =>
    obtain ⟨k, w⟩ := h
    by_cases h1 : i < k
    · simp [tblSet, tblGet?, h1, hij]
    · by_cases h2 : i = k
      · subst h2; simp [tblSet, tblGet?, hij]
      · simp [tblSet, tblGet?, h1, h2, ih]
/-- The same with a default. -/
@[simp] theorem tblGetD_tblSet_same {α : Type} (t : Tbl α) (i : Nat) (v d : α) : tblGetD (tblSet t i v) i d = v := by
  simp [tblGetD]
/-- The same for another key. -/
theorem tblGetD_tblSet_other {α : Type} (t : Tbl α) (i j : Nat) (v d : α) (hij : j ≠ i) :
    tblGetD (tblSet t i v) j d = tblGetD t j d := by simp [tblGetD, tblGet?_tblSet_other t i j v hij]
/-- A read through a map over the entries. -/
@[simp] theorem tblGet?_tblMap {α β : Type} (f : Nat → α → β) (t : Tbl α) (i : Nat) :
    tblGet? (tblMap f t) i = (tblGet? t i).map (f i) := by
  induction t with
  | nil => rfl
  | cons h t ih =>
    obtain ⟨k, w⟩ := h
    by_cases h1 : i = k
    · subst h1; simp [tblMap, tblGet?]
    · simp [tblMap, tblGet?, h1, ih]
/-- Entries of a table that a write puts come from the write or the table. -/
theorem mem_tblSet {α : Type} {t : Tbl α} {i : Nat} {v : α} {e : Nat × α} (h : e ∈ tblSet t i v) : e = (i, v) ∨ e ∈ t := by
  induction t with
  | nil => simp [tblSet] at h; exact .inl h
  | cons x t ih =>
    obtain ⟨k, w⟩ := x
    simp only [tblSet] at h
    split at h
    · rcases List.mem_cons.1 h with h | h
      · exact .inl h
      · exact .inr h
    · split at h
      · rcases List.mem_cons.1 h with h | h
        · exact .inl h
        · exact .inr (List.mem_cons_of_mem _ h)
      · rcases List.mem_cons.1 h with h | h
        · exact .inr (by simp [h])
        · rcases ih h with h | h
          · exact .inl h
          · exact .inr (List.mem_cons_of_mem _ h)
/-- An entry that a read finds stands in the table. -/
theorem mem_of_tblGet? {α : Type} {t : Tbl α} {i : Nat} {v : α} (h : tblGet? t i = some v) : (i, v) ∈ t := by
  induction t with
  | nil => simp [tblGet?] at h
  | cons x t ih =>
    obtain ⟨k, w⟩ := x
    simp only [tblGet?] at h
    split at h
    · simp_all
    · exact List.mem_cons_of_mem _ (ih h)
/-- Entries of a mapped table are images of entries. -/
theorem mem_tblMap {α β : Type} {f : Nat → α → β} {t : Tbl α} {e : Nat × β} (h : e ∈ tblMap f t) :
    ∃ v, (e.1, v) ∈ t ∧ e.2 = f e.1 v := by
  induction t with
  | nil => simp [tblMap] at h
  | cons x t ih =>
    obtain ⟨k, w⟩ := x
    simp only [tblMap, List.mem_cons] at h
    rcases h with h | h
    · exact ⟨w, by simp [h]⟩
    · obtain ⟨v, hv, he⟩ := ih h
      exact ⟨v, List.mem_cons_of_mem _ hv, he⟩

/-! ## Memory -/

/-- Every listed address of a memory is at or above a bound and no listed byte is 0, addresses rising: the canonical form from a
bound up. -/
def Memory.from (lo : Nat) : Memory → Prop
  | [] => True
  | (a, b) :: t => lo ≤ a ∧ b ≠ 0#8 ∧ Memory.from (a + 1) t

/-- The canonical form is the one from 0. -/
theorem Memory.from_iff (m : Memory) : Memory.from 0 m ↔ Memory.wf m = true := by
  suffices h : ∀ (m : Memory) (lo : Nat), Memory.from lo m ↔ (Memory.wf m = true ∧ ∀ e ∈ m.head?, lo ≤ e.1) by
    simp [h m 0]
  intro m
  induction m with
  | nil => intro lo; simp [Memory.from, Memory.wf]
  | cons x t ih =>
    intro lo
    obtain ⟨a, b⟩ := x
    cases t with
    | nil => simp [Memory.from, Memory.wf]; tauto
    | cons y u =>
      obtain ⟨c, d⟩ := y
      rw [Memory.from, ih (a + 1)]
      simp [Memory.wf, Nat.succ_le_iff]
      tauto
/-- A bound may be lowered. -/
theorem Memory.from_mono {m : Memory} {lo lo' : Nat} (h : Memory.from lo m) (hl : lo' ≤ lo) : Memory.from lo' m := by
  cases m with
  | nil => trivial
  | cons x t => obtain ⟨a, b⟩ := x; exact ⟨by have := h.1; omega, h.2⟩
/-- Deleting cells keeps the form of a memory. -/
theorem Memory.filter_wf (q : Nat × BitVec 8 → Bool) (m : Memory) (h : Memory.wf m = true) : Memory.wf (m.filter q) = true := by
  rw [← Memory.from_iff] at h ⊢
  suffices H : ∀ (m : Memory) (lo : Nat), Memory.from lo m → Memory.from lo (m.filter q) from H m 0 h
  intro m
  induction m with
  | nil => intro lo _; trivial
  | cons c m ih =>
    intro lo h
    rw [List.filter_cons]
    split
    · exact ⟨h.1, h.2.1, ih _ h.2.2⟩
    · exact Memory.from_mono (ih _ h.2.2) (Nat.le_succ_of_le h.1)
/-- A byte put at or above a bound keeps the form from it. -/
theorem Memory.from_memSet (m : Memory) (lo a : Nat) (b : BitVec 8) (h : Memory.from lo m) (ha : lo ≤ a) :
    Memory.from lo (memSet m a b) := by
  induction m generalizing lo with
  | nil => by_cases hb : b = 0#8 <;> simp [memSet, Memory.from, hb, ha]
  | cons x t ih =>
    obtain ⟨k, c⟩ := x
    obtain ⟨h1, h2, h3⟩ := h
    simp only [memSet]
    split
    · next hk =>
      split
      · exact ⟨h1, h2, h3⟩
      · next hb => exact ⟨ha, hb, by omega, h2, h3⟩
    · next hk =>
      split
      · next he =>
        subst he
        split
        · exact Memory.from_mono h3 (by omega)
        · next hb => exact ⟨ha, hb, h3⟩
      · next he => exact ⟨h1, h2, ih (k + 1) h3 (by omega)⟩
/-- Putting a byte keeps the canonical form. -/
theorem memSet_wf (m : Memory) (a : Nat) (b : BitVec 8) (h : Memory.wf m = true) : Memory.wf (memSet m a b) = true :=
  (Memory.from_iff _).1 (Memory.from_memSet m 0 a b ((Memory.from_iff m).2 h) (Nat.zero_le a))
/-- Storing bytes keeps the canonical form. -/
theorem memWrite_wf (m : Memory) (a : Nat) (bs : List (BitVec 8)) (h : Memory.wf m = true) : Memory.wf (memWrite m a bs) = true := by
  induction bs generalizing m a with
  | nil => exact h
  | cons b bs ih => exact ih _ _ (memSet_wf m a b h)
/-- Below its bound a memory lists nothing. -/
theorem memGet_below {m : Memory} {lo a : Nat} (h : Memory.from lo m) (ha : a < lo) : memGet m a = 0#8 := by
  cases m with
  | nil => rfl
  | cons x t =>
    obtain ⟨k, c⟩ := x
    have := h.1
    simp [memGet, show a ≠ k by omega, show a < k by omega]
/-- A byte reads as it was put. -/
theorem memGet_memSet_same (m : Memory) (a : Nat) (b : BitVec 8) (h : Memory.wf m = true) : memGet (memSet m a b) a = b := by
  suffices ∀ (m : Memory) (lo : Nat), Memory.from lo m → memGet (memSet m a b) a = b from
    this m 0 ((Memory.from_iff m).2 h)
  intro m
  induction m with
  | nil => intro lo _; by_cases hb : b = 0#8 <;> simp [memSet, memGet, hb]
  | cons x t ih =>
    intro lo hf
    obtain ⟨k, c⟩ := x
    obtain ⟨h1, h2, h3⟩ := hf
    simp only [memSet]
    split
    · next hk =>
      split
      · next hb => simp [memGet, show a ≠ k by omega, hk, hb]
      · simp [memGet]
    · next hk =>
      split
      · next he =>
        split
        · next hb => rw [hb]; exact memGet_below h3 (by omega)
        · simp [memGet]
      · next he => simp [memGet, he, hk, ih (k + 1) h3]
/-- A byte at another address is not affected. -/
theorem memGet_memSet_other (m : Memory) (a x : Nat) (b : BitVec 8) (h : Memory.wf m = true) (hx : x ≠ a) :
    memGet (memSet m a b) x = memGet m x := by
  suffices ∀ (m : Memory) (lo : Nat), Memory.from lo m → memGet (memSet m a b) x = memGet m x from
    this m 0 ((Memory.from_iff m).2 h)
  intro m
  induction m with
  | nil => intro lo _; by_cases hb : b = 0#8 <;> simp [memSet, memGet, hb, hx]
  | cons y t ih =>
    intro lo hf
    obtain ⟨k, c⟩ := y
    obtain ⟨h1, h2, h3⟩ := hf
    simp only [memSet]
    split
    · next hk =>
      split
      · rfl
      · simp only [memGet]
        rw [if_neg hx]
        split
        · simp [show x ≠ k by omega, show x < k by omega]
        · rfl
    · next hk =>
      split
      · next he =>
        subst he
        split
        · by_cases hlt : x < a
          · simp [memGet, hx, hlt, memGet_below h3 (show x < a + 1 by omega)]
          · simp [memGet, hx, hlt]
        · simp [memGet, hx]
      · next he => simp only [memGet]; split; rfl; split; rfl; exact ih (k + 1) h3
/-- Bytes outside a store read as before it. -/
theorem memGet_memWrite_other (m : Memory) (a x : Nat) (bs : List (BitVec 8)) (h : Memory.wf m = true)
    (hx : x < a ∨ a + bs.length ≤ x) : memGet (memWrite m a bs) x = memGet m x := by
  induction bs generalizing m a with
  | nil => rfl
  | cons b bs ih =>
    simp only [List.length_cons] at hx
    rw [memWrite, ih _ _ (memSet_wf m a b h) (by omega), memGet_memSet_other m a x b h (by omega)]
/-- Bytes of a store read as stored. -/
theorem memRead_memWrite (m : Memory) (a : Nat) (bs : List (BitVec 8)) (h : Memory.wf m = true) :
    memRead (memWrite m a bs) a bs.length = bs := by
  induction bs generalizing m a with
  | nil => rfl
  | cons b bs ih =>
    simp only [List.length_cons, memRead, memWrite]
    rw [ih _ _ (memSet_wf m a b h), memGet_memWrite_other _ _ _ _ (memSet_wf m a b h) (by omega), memGet_memSet_same m a b h]
/-- A read gives as many bytes as it asks for. -/
@[simp] theorem memRead_length (m : Memory) (a n : Nat) : (memRead m a n).length = n := by
  induction n generalizing a with
  | zero => rfl
  | succ n ih => simp [memRead, ih]
/-- A word's bytes are as many as asked for. -/
@[simp] theorem bytesOf_length (v : BitVec 64) (n : Nat) : (bytesOf v n).length = n := by
  induction n generalizing v with
  | zero => rfl
  | succ n ih => simp [bytesOf, ih]

end Sys2Proof.Machine
end

