-- ==== Sys2Proof/Laws/State.lean ====
section
/-! SUPPORT. One law per field of State, Thread and Core and per update: a read of the field it writes gives the value written,
and of every other field the value before. -/
namespace Sys2Proof.Machine


/-! ## State.setCore -/

/-- State.setCore keeps `time`. -/
@[simp] theorem State.setCore_time (s : State) (p : Nat) (c : Core) : (s.setCore p c).time = s.time := rfl
/-- `cores` after State.setCore. -/
@[simp] theorem State.setCore_cores (s : State) (p : Nat) (c : Core) : (s.setCore p c).cores = tblSet s.cores p c := rfl
/-- State.setCore keeps `nodes`. -/
@[simp] theorem State.setCore_nodes (s : State) (p : Nat) (c : Core) : (s.setCore p c).nodes = s.nodes := rfl
/-- State.setCore keeps `leaves`. -/
@[simp] theorem State.setCore_leaves (s : State) (p : Nat) (c : Core) : (s.setCore p c).leaves = s.leaves := rfl
/-- State.setCore keeps `reqs`. -/
@[simp] theorem State.setCore_reqs (s : State) (p : Nat) (c : Core) : (s.setCore p c).reqs = s.reqs := rfl
/-- State.setCore keeps `net`. -/
@[simp] theorem State.setCore_net (s : State) (p : Nat) (c : Core) : (s.setCore p c).net = s.net := rfl
/-- State.setCore keeps `ctl`. -/
@[simp] theorem State.setCore_ctl (s : State) (p : Nat) (c : Core) : (s.setCore p c).ctl = s.ctl := rfl
/-- State.setCore keeps `dru`. -/
@[simp] theorem State.setCore_dru (s : State) (p : Nat) (c : Core) : (s.setCore p c).dru = s.dru := rfl
/-- State.setCore keeps `fetches`. -/
@[simp] theorem State.setCore_fetches (s : State) (p : Nat) (c : Core) : (s.setCore p c).fetches = s.fetches := rfl
/-- State.setCore keeps `engines`. -/
@[simp] theorem State.setCore_engines (s : State) (p : Nat) (c : Core) : (s.setCore p c).engines = s.engines := rfl
/-- State.setCore keeps `nextId`. -/
@[simp] theorem State.setCore_nextId (s : State) (p : Nat) (c : Core) : (s.setCore p c).nextId = s.nextId := rfl
/-- State.setCore keeps `mem`. -/
@[simp] theorem State.setCore_mem (s : State) (p : Nat) (c : Core) : (s.setCore p c).mem = s.mem := rfl
/-- State.setCore keeps `host`. -/
@[simp] theorem State.setCore_host (s : State) (p : Nat) (c : Core) : (s.setCore p c).host = s.host := rfl
/-- State.setCore keeps `bad`. -/
@[simp] theorem State.setCore_bad (s : State) (p : Nat) (c : Core) : (s.setCore p c).bad = s.bad := rfl
/-- State.setCore keeps `hostBad`. -/
@[simp] theorem State.setCore_hostBad (s : State) (p : Nat) (c : Core) : (s.setCore p c).hostBad = s.hostBad := rfl
/-- State.setCore keeps `upsets`. -/
@[simp] theorem State.setCore_upsets (s : State) (p : Nat) (c : Core) : (s.setCore p c).upsets = s.upsets := rfl
/-- State.setCore keeps `carveUpsets`. -/
@[simp] theorem State.setCore_carveUpsets (s : State) (p : Nat) (c : Core) : (s.setCore p c).carveUpsets = s.carveUpsets := rfl
/-- State.setCore keeps `tlb`. -/
@[simp] theorem State.setCore_tlb (s : State) (p : Nat) (c : Core) : (s.setCore p c).tlb = s.tlb := rfl
/-- State.setCore keeps `hostLines`. -/
@[simp] theorem State.setCore_hostLines (s : State) (p : Nat) (c : Core) : (s.setCore p c).hostLines = s.hostLines := rfl
/-- State.setCore keeps `launches`. -/
@[simp] theorem State.setCore_launches (s : State) (p : Nat) (c : Core) : (s.setCore p c).launches = s.launches := rfl
/-- State.setCore keeps `gangs`. -/
@[simp] theorem State.setCore_gangs (s : State) (p : Nat) (c : Core) : (s.setCore p c).gangs = s.gangs := rfl
/-- State.setCore keeps `checks`. -/
@[simp] theorem State.setCore_checks (s : State) (p : Nat) (c : Core) : (s.setCore p c).checks = s.checks := rfl
/-- State.setCore keeps `fw`. -/
@[simp] theorem State.setCore_fw (s : State) (p : Nat) (c : Core) : (s.setCore p c).fw = s.fw := rfl
/-- State.setCore keeps `agenda`. -/
@[simp] theorem State.setCore_agenda (s : State) (p : Nat) (c : Core) : (s.setCore p c).agenda = s.agenda := rfl
/-- State.setCore keeps `freeCtr`. -/
@[simp] theorem State.setCore_freeCtr (s : State) (p : Nat) (c : Core) : (s.setCore p c).freeCtr = s.freeCtr := rfl
/-- State.setCore keeps `stopLag`. -/
@[simp] theorem State.setCore_stopLag (s : State) (p : Nat) (c : Core) : (s.setCore p c).stopLag = s.stopLag := rfl
/-- State.setCore keeps `pos`. -/
@[simp] theorem State.setCore_pos (s : State) (p : Nat) (c : Core) : (s.setCore p c).pos = s.pos := rfl
/-- State.setCore keeps `slot`. -/
@[simp] theorem State.setCore_slot (s : State) (p : Nat) (c : Core) : (s.setCore p c).slot = s.slot := rfl
/-- State.setCore keeps `lastPos`. -/
@[simp] theorem State.setCore_lastPos (s : State) (p : Nat) (c : Core) : (s.setCore p c).lastPos = s.lastPos := rfl

/-! ## State.modCore -/

/-- State.modCore keeps `time`. -/
@[simp] theorem State.modCore_time (s : State) (p : Nat) (f : Core → Core) : (s.modCore p f).time = s.time := rfl
/-- `cores` after State.modCore. -/
@[simp] theorem State.modCore_cores (s : State) (p : Nat) (f : Core → Core) : (s.modCore p f).cores = tblSet s.cores p (f (s.core p)) := rfl
/-- State.modCore keeps `nodes`. -/
@[simp] theorem State.modCore_nodes (s : State) (p : Nat) (f : Core → Core) : (s.modCore p f).nodes = s.nodes := rfl
/-- State.modCore keeps `leaves`. -/
@[simp] theorem State.modCore_leaves (s : State) (p : Nat) (f : Core → Core) : (s.modCore p f).leaves = s.leaves := rfl
/-- State.modCore keeps `reqs`. -/
@[simp] theorem State.modCore_reqs (s : State) (p : Nat) (f : Core → Core) : (s.modCore p f).reqs = s.reqs := rfl
/-- State.modCore keeps `net`. -/
@[simp] theorem State.modCore_net (s : State) (p : Nat) (f : Core → Core) : (s.modCore p f).net = s.net := rfl
/-- State.modCore keeps `ctl`. -/
@[simp] theorem State.modCore_ctl (s : State) (p : Nat) (f : Core → Core) : (s.modCore p f).ctl = s.ctl := rfl
/-- State.modCore keeps `dru`. -/
@[simp] theorem State.modCore_dru (s : State) (p : Nat) (f : Core → Core) : (s.modCore p f).dru = s.dru := rfl
/-- State.modCore keeps `fetches`. -/
@[simp] theorem State.modCore_fetches (s : State) (p : Nat) (f : Core → Core) : (s.modCore p f).fetches = s.fetches := rfl
/-- State.modCore keeps `engines`. -/
@[simp] theorem State.modCore_engines (s : State) (p : Nat) (f : Core → Core) : (s.modCore p f).engines = s.engines := rfl
/-- State.modCore keeps `nextId`. -/
@[simp] theorem State.modCore_nextId (s : State) (p : Nat) (f : Core → Core) : (s.modCore p f).nextId = s.nextId := rfl
/-- State.modCore keeps `mem`. -/
@[simp] theorem State.modCore_mem (s : State) (p : Nat) (f : Core → Core) : (s.modCore p f).mem = s.mem := rfl
/-- State.modCore keeps `host`. -/
@[simp] theorem State.modCore_host (s : State) (p : Nat) (f : Core → Core) : (s.modCore p f).host = s.host := rfl
/-- State.modCore keeps `bad`. -/
@[simp] theorem State.modCore_bad (s : State) (p : Nat) (f : Core → Core) : (s.modCore p f).bad = s.bad := rfl
/-- State.modCore keeps `hostBad`. -/
@[simp] theorem State.modCore_hostBad (s : State) (p : Nat) (f : Core → Core) : (s.modCore p f).hostBad = s.hostBad := rfl
/-- State.modCore keeps `upsets`. -/
@[simp] theorem State.modCore_upsets (s : State) (p : Nat) (f : Core → Core) : (s.modCore p f).upsets = s.upsets := rfl
/-- State.modCore keeps `carveUpsets`. -/
@[simp] theorem State.modCore_carveUpsets (s : State) (p : Nat) (f : Core → Core) : (s.modCore p f).carveUpsets = s.carveUpsets := rfl
/-- State.modCore keeps `tlb`. -/
@[simp] theorem State.modCore_tlb (s : State) (p : Nat) (f : Core → Core) : (s.modCore p f).tlb = s.tlb := rfl
/-- State.modCore keeps `hostLines`. -/
@[simp] theorem State.modCore_hostLines (s : State) (p : Nat) (f : Core → Core) : (s.modCore p f).hostLines = s.hostLines := rfl
/-- State.modCore keeps `launches`. -/
@[simp] theorem State.modCore_launches (s : State) (p : Nat) (f : Core → Core) : (s.modCore p f).launches = s.launches := rfl
/-- State.modCore keeps `gangs`. -/
@[simp] theorem State.modCore_gangs (s : State) (p : Nat) (f : Core → Core) : (s.modCore p f).gangs = s.gangs := rfl
/-- State.modCore keeps `checks`. -/
@[simp] theorem State.modCore_checks (s : State) (p : Nat) (f : Core → Core) : (s.modCore p f).checks = s.checks := rfl
/-- State.modCore keeps `fw`. -/
@[simp] theorem State.modCore_fw (s : State) (p : Nat) (f : Core → Core) : (s.modCore p f).fw = s.fw := rfl
/-- State.modCore keeps `agenda`. -/
@[simp] theorem State.modCore_agenda (s : State) (p : Nat) (f : Core → Core) : (s.modCore p f).agenda = s.agenda := rfl
/-- State.modCore keeps `freeCtr`. -/
@[simp] theorem State.modCore_freeCtr (s : State) (p : Nat) (f : Core → Core) : (s.modCore p f).freeCtr = s.freeCtr := rfl
/-- State.modCore keeps `stopLag`. -/
@[simp] theorem State.modCore_stopLag (s : State) (p : Nat) (f : Core → Core) : (s.modCore p f).stopLag = s.stopLag := rfl
/-- State.modCore keeps `pos`. -/
@[simp] theorem State.modCore_pos (s : State) (p : Nat) (f : Core → Core) : (s.modCore p f).pos = s.pos := rfl
/-- State.modCore keeps `slot`. -/
@[simp] theorem State.modCore_slot (s : State) (p : Nat) (f : Core → Core) : (s.modCore p f).slot = s.slot := rfl
/-- State.modCore keeps `lastPos`. -/
@[simp] theorem State.modCore_lastPos (s : State) (p : Nat) (f : Core → Core) : (s.modCore p f).lastPos = s.lastPos := rfl

/-! ## State.setNode -/

/-- State.setNode keeps `time`. -/
@[simp] theorem State.setNode_time (s : State) (n : Nat) (v : Node) : (s.setNode n v).time = s.time := rfl
/-- State.setNode keeps `cores`. -/
@[simp] theorem State.setNode_cores (s : State) (n : Nat) (v : Node) : (s.setNode n v).cores = s.cores := rfl
/-- `nodes` after State.setNode. -/
@[simp] theorem State.setNode_nodes (s : State) (n : Nat) (v : Node) : (s.setNode n v).nodes = tblSet s.nodes n v := rfl
/-- State.setNode keeps `leaves`. -/
@[simp] theorem State.setNode_leaves (s : State) (n : Nat) (v : Node) : (s.setNode n v).leaves = s.leaves := rfl
/-- State.setNode keeps `reqs`. -/
@[simp] theorem State.setNode_reqs (s : State) (n : Nat) (v : Node) : (s.setNode n v).reqs = s.reqs := rfl
/-- State.setNode keeps `net`. -/
@[simp] theorem State.setNode_net (s : State) (n : Nat) (v : Node) : (s.setNode n v).net = s.net := rfl
/-- State.setNode keeps `ctl`. -/
@[simp] theorem State.setNode_ctl (s : State) (n : Nat) (v : Node) : (s.setNode n v).ctl = s.ctl := rfl
/-- State.setNode keeps `dru`. -/
@[simp] theorem State.setNode_dru (s : State) (n : Nat) (v : Node) : (s.setNode n v).dru = s.dru := rfl
/-- State.setNode keeps `fetches`. -/
@[simp] theorem State.setNode_fetches (s : State) (n : Nat) (v : Node) : (s.setNode n v).fetches = s.fetches := rfl
/-- State.setNode keeps `engines`. -/
@[simp] theorem State.setNode_engines (s : State) (n : Nat) (v : Node) : (s.setNode n v).engines = s.engines := rfl
/-- State.setNode keeps `nextId`. -/
@[simp] theorem State.setNode_nextId (s : State) (n : Nat) (v : Node) : (s.setNode n v).nextId = s.nextId := rfl
/-- State.setNode keeps `mem`. -/
@[simp] theorem State.setNode_mem (s : State) (n : Nat) (v : Node) : (s.setNode n v).mem = s.mem := rfl
/-- State.setNode keeps `host`. -/
@[simp] theorem State.setNode_host (s : State) (n : Nat) (v : Node) : (s.setNode n v).host = s.host := rfl
/-- State.setNode keeps `bad`. -/
@[simp] theorem State.setNode_bad (s : State) (n : Nat) (v : Node) : (s.setNode n v).bad = s.bad := rfl
/-- State.setNode keeps `hostBad`. -/
@[simp] theorem State.setNode_hostBad (s : State) (n : Nat) (v : Node) : (s.setNode n v).hostBad = s.hostBad := rfl
/-- State.setNode keeps `upsets`. -/
@[simp] theorem State.setNode_upsets (s : State) (n : Nat) (v : Node) : (s.setNode n v).upsets = s.upsets := rfl
/-- State.setNode keeps `carveUpsets`. -/
@[simp] theorem State.setNode_carveUpsets (s : State) (n : Nat) (v : Node) : (s.setNode n v).carveUpsets = s.carveUpsets := rfl
/-- State.setNode keeps `tlb`. -/
@[simp] theorem State.setNode_tlb (s : State) (n : Nat) (v : Node) : (s.setNode n v).tlb = s.tlb := rfl
/-- State.setNode keeps `hostLines`. -/
@[simp] theorem State.setNode_hostLines (s : State) (n : Nat) (v : Node) : (s.setNode n v).hostLines = s.hostLines := rfl
/-- State.setNode keeps `launches`. -/
@[simp] theorem State.setNode_launches (s : State) (n : Nat) (v : Node) : (s.setNode n v).launches = s.launches := rfl
/-- State.setNode keeps `gangs`. -/
@[simp] theorem State.setNode_gangs (s : State) (n : Nat) (v : Node) : (s.setNode n v).gangs = s.gangs := rfl
/-- State.setNode keeps `checks`. -/
@[simp] theorem State.setNode_checks (s : State) (n : Nat) (v : Node) : (s.setNode n v).checks = s.checks := rfl
/-- State.setNode keeps `fw`. -/
@[simp] theorem State.setNode_fw (s : State) (n : Nat) (v : Node) : (s.setNode n v).fw = s.fw := rfl
/-- State.setNode keeps `agenda`. -/
@[simp] theorem State.setNode_agenda (s : State) (n : Nat) (v : Node) : (s.setNode n v).agenda = s.agenda := rfl
/-- State.setNode keeps `freeCtr`. -/
@[simp] theorem State.setNode_freeCtr (s : State) (n : Nat) (v : Node) : (s.setNode n v).freeCtr = s.freeCtr := rfl
/-- State.setNode keeps `stopLag`. -/
@[simp] theorem State.setNode_stopLag (s : State) (n : Nat) (v : Node) : (s.setNode n v).stopLag = s.stopLag := rfl
/-- State.setNode keeps `pos`. -/
@[simp] theorem State.setNode_pos (s : State) (n : Nat) (v : Node) : (s.setNode n v).pos = s.pos := rfl
/-- State.setNode keeps `slot`. -/
@[simp] theorem State.setNode_slot (s : State) (n : Nat) (v : Node) : (s.setNode n v).slot = s.slot := rfl
/-- State.setNode keeps `lastPos`. -/
@[simp] theorem State.setNode_lastPos (s : State) (n : Nat) (v : Node) : (s.setNode n v).lastPos = s.lastPos := rfl

/-! ## State.modFw -/

/-- State.modFw keeps `time`. -/
@[simp] theorem State.modFw_time (s : State) (f : Firm → Firm) : (s.modFw f).time = s.time := rfl
/-- State.modFw keeps `cores`. -/
@[simp] theorem State.modFw_cores (s : State) (f : Firm → Firm) : (s.modFw f).cores = s.cores := rfl
/-- State.modFw keeps `nodes`. -/
@[simp] theorem State.modFw_nodes (s : State) (f : Firm → Firm) : (s.modFw f).nodes = s.nodes := rfl
/-- State.modFw keeps `leaves`. -/
@[simp] theorem State.modFw_leaves (s : State) (f : Firm → Firm) : (s.modFw f).leaves = s.leaves := rfl
/-- State.modFw keeps `reqs`. -/
@[simp] theorem State.modFw_reqs (s : State) (f : Firm → Firm) : (s.modFw f).reqs = s.reqs := rfl
/-- State.modFw keeps `net`. -/
@[simp] theorem State.modFw_net (s : State) (f : Firm → Firm) : (s.modFw f).net = s.net := rfl
/-- State.modFw keeps `ctl`. -/
@[simp] theorem State.modFw_ctl (s : State) (f : Firm → Firm) : (s.modFw f).ctl = s.ctl := rfl
/-- State.modFw keeps `dru`. -/
@[simp] theorem State.modFw_dru (s : State) (f : Firm → Firm) : (s.modFw f).dru = s.dru := rfl
/-- State.modFw keeps `fetches`. -/
@[simp] theorem State.modFw_fetches (s : State) (f : Firm → Firm) : (s.modFw f).fetches = s.fetches := rfl
/-- State.modFw keeps `engines`. -/
@[simp] theorem State.modFw_engines (s : State) (f : Firm → Firm) : (s.modFw f).engines = s.engines := rfl
/-- State.modFw keeps `nextId`. -/
@[simp] theorem State.modFw_nextId (s : State) (f : Firm → Firm) : (s.modFw f).nextId = s.nextId := rfl
/-- State.modFw keeps `mem`. -/
@[simp] theorem State.modFw_mem (s : State) (f : Firm → Firm) : (s.modFw f).mem = s.mem := rfl
/-- State.modFw keeps `host`. -/
@[simp] theorem State.modFw_host (s : State) (f : Firm → Firm) : (s.modFw f).host = s.host := rfl
/-- State.modFw keeps `bad`. -/
@[simp] theorem State.modFw_bad (s : State) (f : Firm → Firm) : (s.modFw f).bad = s.bad := rfl
/-- State.modFw keeps `hostBad`. -/
@[simp] theorem State.modFw_hostBad (s : State) (f : Firm → Firm) : (s.modFw f).hostBad = s.hostBad := rfl
/-- State.modFw keeps `upsets`. -/
@[simp] theorem State.modFw_upsets (s : State) (f : Firm → Firm) : (s.modFw f).upsets = s.upsets := rfl
/-- State.modFw keeps `carveUpsets`. -/
@[simp] theorem State.modFw_carveUpsets (s : State) (f : Firm → Firm) : (s.modFw f).carveUpsets = s.carveUpsets := rfl
/-- State.modFw keeps `tlb`. -/
@[simp] theorem State.modFw_tlb (s : State) (f : Firm → Firm) : (s.modFw f).tlb = s.tlb := rfl
/-- State.modFw keeps `hostLines`. -/
@[simp] theorem State.modFw_hostLines (s : State) (f : Firm → Firm) : (s.modFw f).hostLines = s.hostLines := rfl
/-- State.modFw keeps `launches`. -/
@[simp] theorem State.modFw_launches (s : State) (f : Firm → Firm) : (s.modFw f).launches = s.launches := rfl
/-- State.modFw keeps `gangs`. -/
@[simp] theorem State.modFw_gangs (s : State) (f : Firm → Firm) : (s.modFw f).gangs = s.gangs := rfl
/-- State.modFw keeps `checks`. -/
@[simp] theorem State.modFw_checks (s : State) (f : Firm → Firm) : (s.modFw f).checks = s.checks := rfl
/-- `fw` after State.modFw. -/
@[simp] theorem State.modFw_fw (s : State) (f : Firm → Firm) : (s.modFw f).fw = f s.fw := rfl
/-- State.modFw keeps `agenda`. -/
@[simp] theorem State.modFw_agenda (s : State) (f : Firm → Firm) : (s.modFw f).agenda = s.agenda := rfl
/-- State.modFw keeps `freeCtr`. -/
@[simp] theorem State.modFw_freeCtr (s : State) (f : Firm → Firm) : (s.modFw f).freeCtr = s.freeCtr := rfl
/-- State.modFw keeps `stopLag`. -/
@[simp] theorem State.modFw_stopLag (s : State) (f : Firm → Firm) : (s.modFw f).stopLag = s.stopLag := rfl
/-- State.modFw keeps `pos`. -/
@[simp] theorem State.modFw_pos (s : State) (f : Firm → Firm) : (s.modFw f).pos = s.pos := rfl
/-- State.modFw keeps `slot`. -/
@[simp] theorem State.modFw_slot (s : State) (f : Firm → Firm) : (s.modFw f).slot = s.slot := rfl
/-- State.modFw keeps `lastPos`. -/
@[simp] theorem State.modFw_lastPos (s : State) (f : Firm → Firm) : (s.modFw f).lastPos = s.lastPos := rfl

/-! ## State.modLaunch -/

/-- State.modLaunch keeps `time`. -/
@[simp] theorem State.modLaunch_time (s : State) (lid : Nat) (f : Launch → Launch) : (s.modLaunch lid f).time = s.time := rfl
/-- State.modLaunch keeps `cores`. -/
@[simp] theorem State.modLaunch_cores (s : State) (lid : Nat) (f : Launch → Launch) : (s.modLaunch lid f).cores = s.cores := rfl
/-- State.modLaunch keeps `nodes`. -/
@[simp] theorem State.modLaunch_nodes (s : State) (lid : Nat) (f : Launch → Launch) : (s.modLaunch lid f).nodes = s.nodes := rfl
/-- State.modLaunch keeps `leaves`. -/
@[simp] theorem State.modLaunch_leaves (s : State) (lid : Nat) (f : Launch → Launch) : (s.modLaunch lid f).leaves = s.leaves := rfl
/-- State.modLaunch keeps `reqs`. -/
@[simp] theorem State.modLaunch_reqs (s : State) (lid : Nat) (f : Launch → Launch) : (s.modLaunch lid f).reqs = s.reqs := rfl
/-- State.modLaunch keeps `net`. -/
@[simp] theorem State.modLaunch_net (s : State) (lid : Nat) (f : Launch → Launch) : (s.modLaunch lid f).net = s.net := rfl
/-- State.modLaunch keeps `ctl`. -/
@[simp] theorem State.modLaunch_ctl (s : State) (lid : Nat) (f : Launch → Launch) : (s.modLaunch lid f).ctl = s.ctl := rfl
/-- State.modLaunch keeps `dru`. -/
@[simp] theorem State.modLaunch_dru (s : State) (lid : Nat) (f : Launch → Launch) : (s.modLaunch lid f).dru = s.dru := rfl
/-- State.modLaunch keeps `fetches`. -/
@[simp] theorem State.modLaunch_fetches (s : State) (lid : Nat) (f : Launch → Launch) : (s.modLaunch lid f).fetches = s.fetches := rfl
/-- State.modLaunch keeps `engines`. -/
@[simp] theorem State.modLaunch_engines (s : State) (lid : Nat) (f : Launch → Launch) : (s.modLaunch lid f).engines = s.engines := rfl
/-- State.modLaunch keeps `nextId`. -/
@[simp] theorem State.modLaunch_nextId (s : State) (lid : Nat) (f : Launch → Launch) : (s.modLaunch lid f).nextId = s.nextId := rfl
/-- State.modLaunch keeps `mem`. -/
@[simp] theorem State.modLaunch_mem (s : State) (lid : Nat) (f : Launch → Launch) : (s.modLaunch lid f).mem = s.mem := rfl
/-- State.modLaunch keeps `host`. -/
@[simp] theorem State.modLaunch_host (s : State) (lid : Nat) (f : Launch → Launch) : (s.modLaunch lid f).host = s.host := rfl
/-- State.modLaunch keeps `bad`. -/
@[simp] theorem State.modLaunch_bad (s : State) (lid : Nat) (f : Launch → Launch) : (s.modLaunch lid f).bad = s.bad := rfl
/-- State.modLaunch keeps `hostBad`. -/
@[simp] theorem State.modLaunch_hostBad (s : State) (lid : Nat) (f : Launch → Launch) : (s.modLaunch lid f).hostBad = s.hostBad := rfl
/-- State.modLaunch keeps `upsets`. -/
@[simp] theorem State.modLaunch_upsets (s : State) (lid : Nat) (f : Launch → Launch) : (s.modLaunch lid f).upsets = s.upsets := rfl
/-- State.modLaunch keeps `carveUpsets`. -/
@[simp] theorem State.modLaunch_carveUpsets (s : State) (lid : Nat) (f : Launch → Launch) : (s.modLaunch lid f).carveUpsets = s.carveUpsets := rfl
/-- State.modLaunch keeps `tlb`. -/
@[simp] theorem State.modLaunch_tlb (s : State) (lid : Nat) (f : Launch → Launch) : (s.modLaunch lid f).tlb = s.tlb := rfl
/-- State.modLaunch keeps `hostLines`. -/
@[simp] theorem State.modLaunch_hostLines (s : State) (lid : Nat) (f : Launch → Launch) : (s.modLaunch lid f).hostLines = s.hostLines := rfl
/-- `launches` after State.modLaunch. -/
@[simp] theorem State.modLaunch_launches (s : State) (lid : Nat) (f : Launch → Launch) : (s.modLaunch lid f).launches = s.launches.map fun l => if l.lid == lid then f l else l := rfl
/-- State.modLaunch keeps `gangs`. -/
@[simp] theorem State.modLaunch_gangs (s : State) (lid : Nat) (f : Launch → Launch) : (s.modLaunch lid f).gangs = s.gangs := rfl
/-- State.modLaunch keeps `checks`. -/
@[simp] theorem State.modLaunch_checks (s : State) (lid : Nat) (f : Launch → Launch) : (s.modLaunch lid f).checks = s.checks := rfl
/-- State.modLaunch keeps `fw`. -/
@[simp] theorem State.modLaunch_fw (s : State) (lid : Nat) (f : Launch → Launch) : (s.modLaunch lid f).fw = s.fw := rfl
/-- State.modLaunch keeps `agenda`. -/
@[simp] theorem State.modLaunch_agenda (s : State) (lid : Nat) (f : Launch → Launch) : (s.modLaunch lid f).agenda = s.agenda := rfl
/-- State.modLaunch keeps `freeCtr`. -/
@[simp] theorem State.modLaunch_freeCtr (s : State) (lid : Nat) (f : Launch → Launch) : (s.modLaunch lid f).freeCtr = s.freeCtr := rfl
/-- State.modLaunch keeps `stopLag`. -/
@[simp] theorem State.modLaunch_stopLag (s : State) (lid : Nat) (f : Launch → Launch) : (s.modLaunch lid f).stopLag = s.stopLag := rfl
/-- State.modLaunch keeps `pos`. -/
@[simp] theorem State.modLaunch_pos (s : State) (lid : Nat) (f : Launch → Launch) : (s.modLaunch lid f).pos = s.pos := rfl
/-- State.modLaunch keeps `slot`. -/
@[simp] theorem State.modLaunch_slot (s : State) (lid : Nat) (f : Launch → Launch) : (s.modLaunch lid f).slot = s.slot := rfl
/-- State.modLaunch keeps `lastPos`. -/
@[simp] theorem State.modLaunch_lastPos (s : State) (lid : Nat) (f : Launch → Launch) : (s.modLaunch lid f).lastPos = s.lastPos := rfl

/-! ## State.modGroup -/

/-- State.modGroup keeps `time`. -/
@[simp] theorem State.modGroup_time (s : State) (p gid : Nat) (f : Group → Group) : (s.modGroup p gid f).time = s.time := rfl
/-- `cores` after State.modGroup. -/
@[simp] theorem State.modGroup_cores (s : State) (p gid : Nat) (f : Group → Group) : (s.modGroup p gid f).cores = tblSet s.cores p ((s.core p).modGroup gid f) := rfl
/-- State.modGroup keeps `nodes`. -/
@[simp] theorem State.modGroup_nodes (s : State) (p gid : Nat) (f : Group → Group) : (s.modGroup p gid f).nodes = s.nodes := rfl
/-- State.modGroup keeps `leaves`. -/
@[simp] theorem State.modGroup_leaves (s : State) (p gid : Nat) (f : Group → Group) : (s.modGroup p gid f).leaves = s.leaves := rfl
/-- State.modGroup keeps `reqs`. -/
@[simp] theorem State.modGroup_reqs (s : State) (p gid : Nat) (f : Group → Group) : (s.modGroup p gid f).reqs = s.reqs := rfl
/-- State.modGroup keeps `net`. -/
@[simp] theorem State.modGroup_net (s : State) (p gid : Nat) (f : Group → Group) : (s.modGroup p gid f).net = s.net := rfl
/-- State.modGroup keeps `ctl`. -/
@[simp] theorem State.modGroup_ctl (s : State) (p gid : Nat) (f : Group → Group) : (s.modGroup p gid f).ctl = s.ctl := rfl
/-- State.modGroup keeps `dru`. -/
@[simp] theorem State.modGroup_dru (s : State) (p gid : Nat) (f : Group → Group) : (s.modGroup p gid f).dru = s.dru := rfl
/-- State.modGroup keeps `fetches`. -/
@[simp] theorem State.modGroup_fetches (s : State) (p gid : Nat) (f : Group → Group) : (s.modGroup p gid f).fetches = s.fetches := rfl
/-- State.modGroup keeps `engines`. -/
@[simp] theorem State.modGroup_engines (s : State) (p gid : Nat) (f : Group → Group) : (s.modGroup p gid f).engines = s.engines := rfl
/-- State.modGroup keeps `nextId`. -/
@[simp] theorem State.modGroup_nextId (s : State) (p gid : Nat) (f : Group → Group) : (s.modGroup p gid f).nextId = s.nextId := rfl
/-- State.modGroup keeps `mem`. -/
@[simp] theorem State.modGroup_mem (s : State) (p gid : Nat) (f : Group → Group) : (s.modGroup p gid f).mem = s.mem := rfl
/-- State.modGroup keeps `host`. -/
@[simp] theorem State.modGroup_host (s : State) (p gid : Nat) (f : Group → Group) : (s.modGroup p gid f).host = s.host := rfl
/-- State.modGroup keeps `bad`. -/
@[simp] theorem State.modGroup_bad (s : State) (p gid : Nat) (f : Group → Group) : (s.modGroup p gid f).bad = s.bad := rfl
/-- State.modGroup keeps `hostBad`. -/
@[simp] theorem State.modGroup_hostBad (s : State) (p gid : Nat) (f : Group → Group) : (s.modGroup p gid f).hostBad = s.hostBad := rfl
/-- State.modGroup keeps `upsets`. -/
@[simp] theorem State.modGroup_upsets (s : State) (p gid : Nat) (f : Group → Group) : (s.modGroup p gid f).upsets = s.upsets := rfl
/-- State.modGroup keeps `carveUpsets`. -/
@[simp] theorem State.modGroup_carveUpsets (s : State) (p gid : Nat) (f : Group → Group) : (s.modGroup p gid f).carveUpsets = s.carveUpsets := rfl
/-- State.modGroup keeps `tlb`. -/
@[simp] theorem State.modGroup_tlb (s : State) (p gid : Nat) (f : Group → Group) : (s.modGroup p gid f).tlb = s.tlb := rfl
/-- State.modGroup keeps `hostLines`. -/
@[simp] theorem State.modGroup_hostLines (s : State) (p gid : Nat) (f : Group → Group) : (s.modGroup p gid f).hostLines = s.hostLines := rfl
/-- State.modGroup keeps `launches`. -/
@[simp] theorem State.modGroup_launches (s : State) (p gid : Nat) (f : Group → Group) : (s.modGroup p gid f).launches = s.launches := rfl
/-- State.modGroup keeps `gangs`. -/
@[simp] theorem State.modGroup_gangs (s : State) (p gid : Nat) (f : Group → Group) : (s.modGroup p gid f).gangs = s.gangs := rfl
/-- State.modGroup keeps `checks`. -/
@[simp] theorem State.modGroup_checks (s : State) (p gid : Nat) (f : Group → Group) : (s.modGroup p gid f).checks = s.checks := rfl
/-- State.modGroup keeps `fw`. -/
@[simp] theorem State.modGroup_fw (s : State) (p gid : Nat) (f : Group → Group) : (s.modGroup p gid f).fw = s.fw := rfl
/-- State.modGroup keeps `agenda`. -/
@[simp] theorem State.modGroup_agenda (s : State) (p gid : Nat) (f : Group → Group) : (s.modGroup p gid f).agenda = s.agenda := rfl
/-- State.modGroup keeps `freeCtr`. -/
@[simp] theorem State.modGroup_freeCtr (s : State) (p gid : Nat) (f : Group → Group) : (s.modGroup p gid f).freeCtr = s.freeCtr := rfl
/-- State.modGroup keeps `stopLag`. -/
@[simp] theorem State.modGroup_stopLag (s : State) (p gid : Nat) (f : Group → Group) : (s.modGroup p gid f).stopLag = s.stopLag := rfl
/-- State.modGroup keeps `pos`. -/
@[simp] theorem State.modGroup_pos (s : State) (p gid : Nat) (f : Group → Group) : (s.modGroup p gid f).pos = s.pos := rfl
/-- State.modGroup keeps `slot`. -/
@[simp] theorem State.modGroup_slot (s : State) (p gid : Nat) (f : Group → Group) : (s.modGroup p gid f).slot = s.slot := rfl
/-- State.modGroup keeps `lastPos`. -/
@[simp] theorem State.modGroup_lastPos (s : State) (p gid : Nat) (f : Group → Group) : (s.modGroup p gid f).lastPos = s.lastPos := rfl

/-! ## State.setThread -/

/-- State.setThread keeps `time`. -/
@[simp] theorem State.setThread_time (s : State) (p slot : Nat) (t : Thread) : (s.setThread p slot t).time = s.time := rfl
/-- `cores` after State.setThread. -/
@[simp] theorem State.setThread_cores (s : State) (p slot : Nat) (t : Thread) : (s.setThread p slot t).cores = tblSet s.cores p ((s.core p).setThread slot t) := rfl
/-- State.setThread keeps `nodes`. -/
@[simp] theorem State.setThread_nodes (s : State) (p slot : Nat) (t : Thread) : (s.setThread p slot t).nodes = s.nodes := rfl
/-- State.setThread keeps `leaves`. -/
@[simp] theorem State.setThread_leaves (s : State) (p slot : Nat) (t : Thread) : (s.setThread p slot t).leaves = s.leaves := rfl
/-- State.setThread keeps `reqs`. -/
@[simp] theorem State.setThread_reqs (s : State) (p slot : Nat) (t : Thread) : (s.setThread p slot t).reqs = s.reqs := rfl
/-- State.setThread keeps `net`. -/
@[simp] theorem State.setThread_net (s : State) (p slot : Nat) (t : Thread) : (s.setThread p slot t).net = s.net := rfl
/-- State.setThread keeps `ctl`. -/
@[simp] theorem State.setThread_ctl (s : State) (p slot : Nat) (t : Thread) : (s.setThread p slot t).ctl = s.ctl := rfl
/-- State.setThread keeps `dru`. -/
@[simp] theorem State.setThread_dru (s : State) (p slot : Nat) (t : Thread) : (s.setThread p slot t).dru = s.dru := rfl
/-- State.setThread keeps `fetches`. -/
@[simp] theorem State.setThread_fetches (s : State) (p slot : Nat) (t : Thread) : (s.setThread p slot t).fetches = s.fetches := rfl
/-- State.setThread keeps `engines`. -/
@[simp] theorem State.setThread_engines (s : State) (p slot : Nat) (t : Thread) : (s.setThread p slot t).engines = s.engines := rfl
/-- State.setThread keeps `nextId`. -/
@[simp] theorem State.setThread_nextId (s : State) (p slot : Nat) (t : Thread) : (s.setThread p slot t).nextId = s.nextId := rfl
/-- State.setThread keeps `mem`. -/
@[simp] theorem State.setThread_mem (s : State) (p slot : Nat) (t : Thread) : (s.setThread p slot t).mem = s.mem := rfl
/-- State.setThread keeps `host`. -/
@[simp] theorem State.setThread_host (s : State) (p slot : Nat) (t : Thread) : (s.setThread p slot t).host = s.host := rfl
/-- State.setThread keeps `bad`. -/
@[simp] theorem State.setThread_bad (s : State) (p slot : Nat) (t : Thread) : (s.setThread p slot t).bad = s.bad := rfl
/-- State.setThread keeps `hostBad`. -/
@[simp] theorem State.setThread_hostBad (s : State) (p slot : Nat) (t : Thread) : (s.setThread p slot t).hostBad = s.hostBad := rfl
/-- State.setThread keeps `upsets`. -/
@[simp] theorem State.setThread_upsets (s : State) (p slot : Nat) (t : Thread) : (s.setThread p slot t).upsets = s.upsets := rfl
/-- State.setThread keeps `carveUpsets`. -/
@[simp] theorem State.setThread_carveUpsets (s : State) (p slot : Nat) (t : Thread) : (s.setThread p slot t).carveUpsets = s.carveUpsets := rfl
/-- State.setThread keeps `tlb`. -/
@[simp] theorem State.setThread_tlb (s : State) (p slot : Nat) (t : Thread) : (s.setThread p slot t).tlb = s.tlb := rfl
/-- State.setThread keeps `hostLines`. -/
@[simp] theorem State.setThread_hostLines (s : State) (p slot : Nat) (t : Thread) : (s.setThread p slot t).hostLines = s.hostLines := rfl
/-- State.setThread keeps `launches`. -/
@[simp] theorem State.setThread_launches (s : State) (p slot : Nat) (t : Thread) : (s.setThread p slot t).launches = s.launches := rfl
/-- State.setThread keeps `gangs`. -/
@[simp] theorem State.setThread_gangs (s : State) (p slot : Nat) (t : Thread) : (s.setThread p slot t).gangs = s.gangs := rfl
/-- State.setThread keeps `checks`. -/
@[simp] theorem State.setThread_checks (s : State) (p slot : Nat) (t : Thread) : (s.setThread p slot t).checks = s.checks := rfl
/-- State.setThread keeps `fw`. -/
@[simp] theorem State.setThread_fw (s : State) (p slot : Nat) (t : Thread) : (s.setThread p slot t).fw = s.fw := rfl
/-- State.setThread keeps `agenda`. -/
@[simp] theorem State.setThread_agenda (s : State) (p slot : Nat) (t : Thread) : (s.setThread p slot t).agenda = s.agenda := rfl
/-- State.setThread keeps `freeCtr`. -/
@[simp] theorem State.setThread_freeCtr (s : State) (p slot : Nat) (t : Thread) : (s.setThread p slot t).freeCtr = s.freeCtr := rfl
/-- State.setThread keeps `stopLag`. -/
@[simp] theorem State.setThread_stopLag (s : State) (p slot : Nat) (t : Thread) : (s.setThread p slot t).stopLag = s.stopLag := rfl
/-- State.setThread keeps `pos`. -/
@[simp] theorem State.setThread_pos (s : State) (p slot : Nat) (t : Thread) : (s.setThread p slot t).pos = s.pos := rfl
/-- State.setThread keeps `slot`. -/
@[simp] theorem State.setThread_slot (s : State) (p slot : Nat) (t : Thread) : (s.setThread p slot t).slot = s.slot := rfl
/-- State.setThread keeps `lastPos`. -/
@[simp] theorem State.setThread_lastPos (s : State) (p slot : Nat) (t : Thread) : (s.setThread p slot t).lastPos = s.lastPos := rfl

/-! ## State.setCur -/

/-- State.setCur keeps `time`. -/
@[simp] theorem State.setCur_time (s : State) (t : Thread) : (s.setCur t).time = s.time := rfl
/-- `cores` after State.setCur. -/
@[simp] theorem State.setCur_cores (s : State) (t : Thread) : (s.setCur t).cores = tblSet s.cores s.pos ((s.core s.pos).setThread s.slot t) := rfl
/-- State.setCur keeps `nodes`. -/
@[simp] theorem State.setCur_nodes (s : State) (t : Thread) : (s.setCur t).nodes = s.nodes := rfl
/-- State.setCur keeps `leaves`. -/
@[simp] theorem State.setCur_leaves (s : State) (t : Thread) : (s.setCur t).leaves = s.leaves := rfl
/-- State.setCur keeps `reqs`. -/
@[simp] theorem State.setCur_reqs (s : State) (t : Thread) : (s.setCur t).reqs = s.reqs := rfl
/-- State.setCur keeps `net`. -/
@[simp] theorem State.setCur_net (s : State) (t : Thread) : (s.setCur t).net = s.net := rfl
/-- State.setCur keeps `ctl`. -/
@[simp] theorem State.setCur_ctl (s : State) (t : Thread) : (s.setCur t).ctl = s.ctl := rfl
/-- State.setCur keeps `dru`. -/
@[simp] theorem State.setCur_dru (s : State) (t : Thread) : (s.setCur t).dru = s.dru := rfl
/-- State.setCur keeps `fetches`. -/
@[simp] theorem State.setCur_fetches (s : State) (t : Thread) : (s.setCur t).fetches = s.fetches := rfl
/-- State.setCur keeps `engines`. -/
@[simp] theorem State.setCur_engines (s : State) (t : Thread) : (s.setCur t).engines = s.engines := rfl
/-- State.setCur keeps `nextId`. -/
@[simp] theorem State.setCur_nextId (s : State) (t : Thread) : (s.setCur t).nextId = s.nextId := rfl
/-- State.setCur keeps `mem`. -/
@[simp] theorem State.setCur_mem (s : State) (t : Thread) : (s.setCur t).mem = s.mem := rfl
/-- State.setCur keeps `host`. -/
@[simp] theorem State.setCur_host (s : State) (t : Thread) : (s.setCur t).host = s.host := rfl
/-- State.setCur keeps `bad`. -/
@[simp] theorem State.setCur_bad (s : State) (t : Thread) : (s.setCur t).bad = s.bad := rfl
/-- State.setCur keeps `hostBad`. -/
@[simp] theorem State.setCur_hostBad (s : State) (t : Thread) : (s.setCur t).hostBad = s.hostBad := rfl
/-- State.setCur keeps `upsets`. -/
@[simp] theorem State.setCur_upsets (s : State) (t : Thread) : (s.setCur t).upsets = s.upsets := rfl
/-- State.setCur keeps `carveUpsets`. -/
@[simp] theorem State.setCur_carveUpsets (s : State) (t : Thread) : (s.setCur t).carveUpsets = s.carveUpsets := rfl
/-- State.setCur keeps `tlb`. -/
@[simp] theorem State.setCur_tlb (s : State) (t : Thread) : (s.setCur t).tlb = s.tlb := rfl
/-- State.setCur keeps `hostLines`. -/
@[simp] theorem State.setCur_hostLines (s : State) (t : Thread) : (s.setCur t).hostLines = s.hostLines := rfl
/-- State.setCur keeps `launches`. -/
@[simp] theorem State.setCur_launches (s : State) (t : Thread) : (s.setCur t).launches = s.launches := rfl
/-- State.setCur keeps `gangs`. -/
@[simp] theorem State.setCur_gangs (s : State) (t : Thread) : (s.setCur t).gangs = s.gangs := rfl
/-- State.setCur keeps `checks`. -/
@[simp] theorem State.setCur_checks (s : State) (t : Thread) : (s.setCur t).checks = s.checks := rfl
/-- State.setCur keeps `fw`. -/
@[simp] theorem State.setCur_fw (s : State) (t : Thread) : (s.setCur t).fw = s.fw := rfl
/-- State.setCur keeps `agenda`. -/
@[simp] theorem State.setCur_agenda (s : State) (t : Thread) : (s.setCur t).agenda = s.agenda := rfl
/-- State.setCur keeps `freeCtr`. -/
@[simp] theorem State.setCur_freeCtr (s : State) (t : Thread) : (s.setCur t).freeCtr = s.freeCtr := rfl
/-- State.setCur keeps `stopLag`. -/
@[simp] theorem State.setCur_stopLag (s : State) (t : Thread) : (s.setCur t).stopLag = s.stopLag := rfl
/-- State.setCur keeps `pos`. -/
@[simp] theorem State.setCur_pos (s : State) (t : Thread) : (s.setCur t).pos = s.pos := rfl
/-- State.setCur keeps `slot`. -/
@[simp] theorem State.setCur_slot (s : State) (t : Thread) : (s.setCur t).slot = s.slot := rfl
/-- State.setCur keeps `lastPos`. -/
@[simp] theorem State.setCur_lastPos (s : State) (t : Thread) : (s.setCur t).lastPos = s.lastPos := rfl

/-! ## State.retire -/

/-- State.retire keeps `time`. -/
@[simp] theorem State.retire_time (s : State) (t : Thread) (n : Nat) : (s.retire t n).time = s.time := rfl
/-- `cores` after State.retire. -/
@[simp] theorem State.retire_cores (s : State) (t : Thread) (n : Nat) : (s.retire t n).cores = tblSet s.cores s.pos ((s.core s.pos).setThread s.slot (t.retired n s.time)) := rfl
/-- State.retire keeps `nodes`. -/
@[simp] theorem State.retire_nodes (s : State) (t : Thread) (n : Nat) : (s.retire t n).nodes = s.nodes := rfl
/-- State.retire keeps `leaves`. -/
@[simp] theorem State.retire_leaves (s : State) (t : Thread) (n : Nat) : (s.retire t n).leaves = s.leaves := rfl
/-- State.retire keeps `reqs`. -/
@[simp] theorem State.retire_reqs (s : State) (t : Thread) (n : Nat) : (s.retire t n).reqs = s.reqs := rfl
/-- State.retire keeps `net`. -/
@[simp] theorem State.retire_net (s : State) (t : Thread) (n : Nat) : (s.retire t n).net = s.net := rfl
/-- State.retire keeps `ctl`. -/
@[simp] theorem State.retire_ctl (s : State) (t : Thread) (n : Nat) : (s.retire t n).ctl = s.ctl := rfl
/-- State.retire keeps `dru`. -/
@[simp] theorem State.retire_dru (s : State) (t : Thread) (n : Nat) : (s.retire t n).dru = s.dru := rfl
/-- State.retire keeps `fetches`. -/
@[simp] theorem State.retire_fetches (s : State) (t : Thread) (n : Nat) : (s.retire t n).fetches = s.fetches := rfl
/-- State.retire keeps `engines`. -/
@[simp] theorem State.retire_engines (s : State) (t : Thread) (n : Nat) : (s.retire t n).engines = s.engines := rfl
/-- State.retire keeps `nextId`. -/
@[simp] theorem State.retire_nextId (s : State) (t : Thread) (n : Nat) : (s.retire t n).nextId = s.nextId := rfl
/-- State.retire keeps `mem`. -/
@[simp] theorem State.retire_mem (s : State) (t : Thread) (n : Nat) : (s.retire t n).mem = s.mem := rfl
/-- State.retire keeps `host`. -/
@[simp] theorem State.retire_host (s : State) (t : Thread) (n : Nat) : (s.retire t n).host = s.host := rfl
/-- State.retire keeps `bad`. -/
@[simp] theorem State.retire_bad (s : State) (t : Thread) (n : Nat) : (s.retire t n).bad = s.bad := rfl
/-- State.retire keeps `hostBad`. -/
@[simp] theorem State.retire_hostBad (s : State) (t : Thread) (n : Nat) : (s.retire t n).hostBad = s.hostBad := rfl
/-- State.retire keeps `upsets`. -/
@[simp] theorem State.retire_upsets (s : State) (t : Thread) (n : Nat) : (s.retire t n).upsets = s.upsets := rfl
/-- State.retire keeps `carveUpsets`. -/
@[simp] theorem State.retire_carveUpsets (s : State) (t : Thread) (n : Nat) : (s.retire t n).carveUpsets = s.carveUpsets := rfl
/-- State.retire keeps `tlb`. -/
@[simp] theorem State.retire_tlb (s : State) (t : Thread) (n : Nat) : (s.retire t n).tlb = s.tlb := rfl
/-- State.retire keeps `hostLines`. -/
@[simp] theorem State.retire_hostLines (s : State) (t : Thread) (n : Nat) : (s.retire t n).hostLines = s.hostLines := rfl
/-- State.retire keeps `launches`. -/
@[simp] theorem State.retire_launches (s : State) (t : Thread) (n : Nat) : (s.retire t n).launches = s.launches := rfl
/-- State.retire keeps `gangs`. -/
@[simp] theorem State.retire_gangs (s : State) (t : Thread) (n : Nat) : (s.retire t n).gangs = s.gangs := rfl
/-- State.retire keeps `checks`. -/
@[simp] theorem State.retire_checks (s : State) (t : Thread) (n : Nat) : (s.retire t n).checks = s.checks := rfl
/-- State.retire keeps `fw`. -/
@[simp] theorem State.retire_fw (s : State) (t : Thread) (n : Nat) : (s.retire t n).fw = s.fw := rfl
/-- State.retire keeps `agenda`. -/
@[simp] theorem State.retire_agenda (s : State) (t : Thread) (n : Nat) : (s.retire t n).agenda = s.agenda := rfl
/-- State.retire keeps `freeCtr`. -/
@[simp] theorem State.retire_freeCtr (s : State) (t : Thread) (n : Nat) : (s.retire t n).freeCtr = s.freeCtr := rfl
/-- State.retire keeps `stopLag`. -/
@[simp] theorem State.retire_stopLag (s : State) (t : Thread) (n : Nat) : (s.retire t n).stopLag = s.stopLag := rfl
/-- State.retire keeps `pos`. -/
@[simp] theorem State.retire_pos (s : State) (t : Thread) (n : Nat) : (s.retire t n).pos = s.pos := rfl
/-- State.retire keeps `slot`. -/
@[simp] theorem State.retire_slot (s : State) (t : Thread) (n : Nat) : (s.retire t n).slot = s.slot := rfl
/-- State.retire keeps `lastPos`. -/
@[simp] theorem State.retire_lastPos (s : State) (t : Thread) (n : Nat) : (s.retire t n).lastPos = s.lastPos := rfl

/-! ## State.putPte -/

/-- State.putPte keeps `time`. -/
@[simp] theorem State.putPte_time (s : State) (pa e : Nat) : (s.putPte pa e).time = s.time := rfl
/-- State.putPte keeps `cores`. -/
@[simp] theorem State.putPte_cores (s : State) (pa e : Nat) : (s.putPte pa e).cores = s.cores := rfl
/-- State.putPte keeps `nodes`. -/
@[simp] theorem State.putPte_nodes (s : State) (pa e : Nat) : (s.putPte pa e).nodes = s.nodes := rfl
/-- State.putPte keeps `leaves`. -/
@[simp] theorem State.putPte_leaves (s : State) (pa e : Nat) : (s.putPte pa e).leaves = s.leaves := rfl
/-- State.putPte keeps `reqs`. -/
@[simp] theorem State.putPte_reqs (s : State) (pa e : Nat) : (s.putPte pa e).reqs = s.reqs := rfl
/-- State.putPte keeps `net`. -/
@[simp] theorem State.putPte_net (s : State) (pa e : Nat) : (s.putPte pa e).net = s.net := rfl
/-- State.putPte keeps `ctl`. -/
@[simp] theorem State.putPte_ctl (s : State) (pa e : Nat) : (s.putPte pa e).ctl = s.ctl := rfl
/-- State.putPte keeps `dru`. -/
@[simp] theorem State.putPte_dru (s : State) (pa e : Nat) : (s.putPte pa e).dru = s.dru := rfl
/-- State.putPte keeps `fetches`. -/
@[simp] theorem State.putPte_fetches (s : State) (pa e : Nat) : (s.putPte pa e).fetches = s.fetches := rfl
/-- State.putPte keeps `engines`. -/
@[simp] theorem State.putPte_engines (s : State) (pa e : Nat) : (s.putPte pa e).engines = s.engines := rfl
/-- State.putPte keeps `nextId`. -/
@[simp] theorem State.putPte_nextId (s : State) (pa e : Nat) : (s.putPte pa e).nextId = s.nextId := rfl
/-- `mem` after State.putPte. -/
@[simp] theorem State.putPte_mem (s : State) (pa e : Nat) : (s.putPte pa e).mem = memWrite s.mem pa (bytesOfNat e 8) := rfl
/-- State.putPte keeps `host`. -/
@[simp] theorem State.putPte_host (s : State) (pa e : Nat) : (s.putPte pa e).host = s.host := rfl
/-- State.putPte keeps `bad`. -/
@[simp] theorem State.putPte_bad (s : State) (pa e : Nat) : (s.putPte pa e).bad = s.bad := rfl
/-- State.putPte keeps `hostBad`. -/
@[simp] theorem State.putPte_hostBad (s : State) (pa e : Nat) : (s.putPte pa e).hostBad = s.hostBad := rfl
/-- State.putPte keeps `upsets`. -/
@[simp] theorem State.putPte_upsets (s : State) (pa e : Nat) : (s.putPte pa e).upsets = s.upsets := rfl
/-- State.putPte keeps `carveUpsets`. -/
@[simp] theorem State.putPte_carveUpsets (s : State) (pa e : Nat) : (s.putPte pa e).carveUpsets = s.carveUpsets := rfl
/-- State.putPte keeps `tlb`. -/
@[simp] theorem State.putPte_tlb (s : State) (pa e : Nat) : (s.putPte pa e).tlb = s.tlb := rfl
/-- State.putPte keeps `hostLines`. -/
@[simp] theorem State.putPte_hostLines (s : State) (pa e : Nat) : (s.putPte pa e).hostLines = s.hostLines := rfl
/-- State.putPte keeps `launches`. -/
@[simp] theorem State.putPte_launches (s : State) (pa e : Nat) : (s.putPte pa e).launches = s.launches := rfl
/-- State.putPte keeps `gangs`. -/
@[simp] theorem State.putPte_gangs (s : State) (pa e : Nat) : (s.putPte pa e).gangs = s.gangs := rfl
/-- State.putPte keeps `checks`. -/
@[simp] theorem State.putPte_checks (s : State) (pa e : Nat) : (s.putPte pa e).checks = s.checks := rfl
/-- State.putPte keeps `fw`. -/
@[simp] theorem State.putPte_fw (s : State) (pa e : Nat) : (s.putPte pa e).fw = s.fw := rfl
/-- State.putPte keeps `agenda`. -/
@[simp] theorem State.putPte_agenda (s : State) (pa e : Nat) : (s.putPte pa e).agenda = s.agenda := rfl
/-- State.putPte keeps `freeCtr`. -/
@[simp] theorem State.putPte_freeCtr (s : State) (pa e : Nat) : (s.putPte pa e).freeCtr = s.freeCtr := rfl
/-- State.putPte keeps `stopLag`. -/
@[simp] theorem State.putPte_stopLag (s : State) (pa e : Nat) : (s.putPte pa e).stopLag = s.stopLag := rfl
/-- State.putPte keeps `pos`. -/
@[simp] theorem State.putPte_pos (s : State) (pa e : Nat) : (s.putPte pa e).pos = s.pos := rfl
/-- State.putPte keeps `slot`. -/
@[simp] theorem State.putPte_slot (s : State) (pa e : Nat) : (s.putPte pa e).slot = s.slot := rfl
/-- State.putPte keeps `lastPos`. -/
@[simp] theorem State.putPte_lastPos (s : State) (pa e : Nat) : (s.putPte pa e).lastPos = s.lastPos := rfl

/-! ## State.elapse -/

/-- `time` after State.elapse. -/
@[simp] theorem State.elapse_time (s : State) (ns : Nat) : (s.elapse ns).time = s.time + BitVec.ofInt 64 (ns + s.slewBy ns) := rfl
/-- State.elapse keeps `cores`. -/
@[simp] theorem State.elapse_cores (s : State) (ns : Nat) : (s.elapse ns).cores = s.cores := rfl
/-- State.elapse keeps `nodes`. -/
@[simp] theorem State.elapse_nodes (s : State) (ns : Nat) : (s.elapse ns).nodes = s.nodes := rfl
/-- State.elapse keeps `leaves`. -/
@[simp] theorem State.elapse_leaves (s : State) (ns : Nat) : (s.elapse ns).leaves = s.leaves := rfl
/-- State.elapse keeps `reqs`. -/
@[simp] theorem State.elapse_reqs (s : State) (ns : Nat) : (s.elapse ns).reqs = s.reqs := rfl
/-- State.elapse keeps `net`. -/
@[simp] theorem State.elapse_net (s : State) (ns : Nat) : (s.elapse ns).net = s.net := rfl
/-- State.elapse keeps `ctl`. -/
@[simp] theorem State.elapse_ctl (s : State) (ns : Nat) : (s.elapse ns).ctl = s.ctl := rfl
/-- State.elapse keeps `dru`. -/
@[simp] theorem State.elapse_dru (s : State) (ns : Nat) : (s.elapse ns).dru = s.dru := rfl
/-- State.elapse keeps `fetches`. -/
@[simp] theorem State.elapse_fetches (s : State) (ns : Nat) : (s.elapse ns).fetches = s.fetches := rfl
/-- State.elapse keeps `engines`. -/
@[simp] theorem State.elapse_engines (s : State) (ns : Nat) : (s.elapse ns).engines = s.engines := rfl
/-- State.elapse keeps `nextId`. -/
@[simp] theorem State.elapse_nextId (s : State) (ns : Nat) : (s.elapse ns).nextId = s.nextId := rfl
/-- State.elapse keeps `mem`. -/
@[simp] theorem State.elapse_mem (s : State) (ns : Nat) : (s.elapse ns).mem = s.mem := rfl
/-- State.elapse keeps `host`. -/
@[simp] theorem State.elapse_host (s : State) (ns : Nat) : (s.elapse ns).host = s.host := rfl
/-- State.elapse keeps `bad`. -/
@[simp] theorem State.elapse_bad (s : State) (ns : Nat) : (s.elapse ns).bad = s.bad := rfl
/-- State.elapse keeps `hostBad`. -/
@[simp] theorem State.elapse_hostBad (s : State) (ns : Nat) : (s.elapse ns).hostBad = s.hostBad := rfl
/-- State.elapse keeps `upsets`. -/
@[simp] theorem State.elapse_upsets (s : State) (ns : Nat) : (s.elapse ns).upsets = s.upsets := rfl
/-- State.elapse keeps `carveUpsets`. -/
@[simp] theorem State.elapse_carveUpsets (s : State) (ns : Nat) : (s.elapse ns).carveUpsets = s.carveUpsets := rfl
/-- State.elapse keeps `tlb`. -/
@[simp] theorem State.elapse_tlb (s : State) (ns : Nat) : (s.elapse ns).tlb = s.tlb := rfl
/-- State.elapse keeps `hostLines`. -/
@[simp] theorem State.elapse_hostLines (s : State) (ns : Nat) : (s.elapse ns).hostLines = s.hostLines := rfl
/-- State.elapse keeps `launches`. -/
@[simp] theorem State.elapse_launches (s : State) (ns : Nat) : (s.elapse ns).launches = s.launches := rfl
/-- State.elapse keeps `gangs`. -/
@[simp] theorem State.elapse_gangs (s : State) (ns : Nat) : (s.elapse ns).gangs = s.gangs := rfl
/-- State.elapse keeps `checks`. -/
@[simp] theorem State.elapse_checks (s : State) (ns : Nat) : (s.elapse ns).checks = s.checks := rfl
/-- State.elapse keeps `agenda`. -/
@[simp] theorem State.elapse_agenda (s : State) (ns : Nat) : (s.elapse ns).agenda = s.agenda := rfl
/-- State.elapse keeps `stopLag`. -/
@[simp] theorem State.elapse_stopLag (s : State) (ns : Nat) : (s.elapse ns).stopLag = s.stopLag := rfl
/-- State.elapse keeps `pos`. -/
@[simp] theorem State.elapse_pos (s : State) (ns : Nat) : (s.elapse ns).pos = s.pos := rfl
/-- State.elapse keeps `slot`. -/
@[simp] theorem State.elapse_slot (s : State) (ns : Nat) : (s.elapse ns).slot = s.slot := rfl
/-- State.elapse keeps `lastPos`. -/
@[simp] theorem State.elapse_lastPos (s : State) (ns : Nat) : (s.elapse ns).lastPos = s.lastPos := rfl

/-! ## State.modRect -/

/-- State.modRect keeps `time`. -/
@[simp] theorem State.modRect_time (s : State) (i : Nat) (f : Rect → Rect) : (s.modRect i f).time = s.time := rfl
/-- State.modRect keeps `cores`. -/
@[simp] theorem State.modRect_cores (s : State) (i : Nat) (f : Rect → Rect) : (s.modRect i f).cores = s.cores := rfl
/-- State.modRect keeps `nodes`. -/
@[simp] theorem State.modRect_nodes (s : State) (i : Nat) (f : Rect → Rect) : (s.modRect i f).nodes = s.nodes := rfl
/-- State.modRect keeps `leaves`. -/
@[simp] theorem State.modRect_leaves (s : State) (i : Nat) (f : Rect → Rect) : (s.modRect i f).leaves = s.leaves := rfl
/-- State.modRect keeps `reqs`. -/
@[simp] theorem State.modRect_reqs (s : State) (i : Nat) (f : Rect → Rect) : (s.modRect i f).reqs = s.reqs := rfl
/-- State.modRect keeps `net`. -/
@[simp] theorem State.modRect_net (s : State) (i : Nat) (f : Rect → Rect) : (s.modRect i f).net = s.net := rfl
/-- State.modRect keeps `ctl`. -/
@[simp] theorem State.modRect_ctl (s : State) (i : Nat) (f : Rect → Rect) : (s.modRect i f).ctl = s.ctl := rfl
/-- State.modRect keeps `dru`. -/
@[simp] theorem State.modRect_dru (s : State) (i : Nat) (f : Rect → Rect) : (s.modRect i f).dru = s.dru := rfl
/-- State.modRect keeps `fetches`. -/
@[simp] theorem State.modRect_fetches (s : State) (i : Nat) (f : Rect → Rect) : (s.modRect i f).fetches = s.fetches := rfl
/-- State.modRect keeps `engines`. -/
@[simp] theorem State.modRect_engines (s : State) (i : Nat) (f : Rect → Rect) : (s.modRect i f).engines = s.engines := rfl
/-- State.modRect keeps `nextId`. -/
@[simp] theorem State.modRect_nextId (s : State) (i : Nat) (f : Rect → Rect) : (s.modRect i f).nextId = s.nextId := rfl
/-- State.modRect keeps `mem`. -/
@[simp] theorem State.modRect_mem (s : State) (i : Nat) (f : Rect → Rect) : (s.modRect i f).mem = s.mem := rfl
/-- State.modRect keeps `host`. -/
@[simp] theorem State.modRect_host (s : State) (i : Nat) (f : Rect → Rect) : (s.modRect i f).host = s.host := rfl
/-- State.modRect keeps `bad`. -/
@[simp] theorem State.modRect_bad (s : State) (i : Nat) (f : Rect → Rect) : (s.modRect i f).bad = s.bad := rfl
/-- State.modRect keeps `hostBad`. -/
@[simp] theorem State.modRect_hostBad (s : State) (i : Nat) (f : Rect → Rect) : (s.modRect i f).hostBad = s.hostBad := rfl
/-- State.modRect keeps `upsets`. -/
@[simp] theorem State.modRect_upsets (s : State) (i : Nat) (f : Rect → Rect) : (s.modRect i f).upsets = s.upsets := rfl
/-- State.modRect keeps `carveUpsets`. -/
@[simp] theorem State.modRect_carveUpsets (s : State) (i : Nat) (f : Rect → Rect) : (s.modRect i f).carveUpsets = s.carveUpsets := rfl
/-- State.modRect keeps `tlb`. -/
@[simp] theorem State.modRect_tlb (s : State) (i : Nat) (f : Rect → Rect) : (s.modRect i f).tlb = s.tlb := rfl
/-- State.modRect keeps `hostLines`. -/
@[simp] theorem State.modRect_hostLines (s : State) (i : Nat) (f : Rect → Rect) : (s.modRect i f).hostLines = s.hostLines := rfl
/-- State.modRect keeps `launches`. -/
@[simp] theorem State.modRect_launches (s : State) (i : Nat) (f : Rect → Rect) : (s.modRect i f).launches = s.launches := rfl
/-- State.modRect keeps `gangs`. -/
@[simp] theorem State.modRect_gangs (s : State) (i : Nat) (f : Rect → Rect) : (s.modRect i f).gangs = s.gangs := rfl
/-- State.modRect keeps `checks`. -/
@[simp] theorem State.modRect_checks (s : State) (i : Nat) (f : Rect → Rect) : (s.modRect i f).checks = s.checks := rfl
/-- State.modRect keeps `agenda`. -/
@[simp] theorem State.modRect_agenda (s : State) (i : Nat) (f : Rect → Rect) : (s.modRect i f).agenda = s.agenda := rfl
/-- State.modRect keeps `freeCtr`. -/
@[simp] theorem State.modRect_freeCtr (s : State) (i : Nat) (f : Rect → Rect) : (s.modRect i f).freeCtr = s.freeCtr := rfl
/-- State.modRect keeps `stopLag`. -/
@[simp] theorem State.modRect_stopLag (s : State) (i : Nat) (f : Rect → Rect) : (s.modRect i f).stopLag = s.stopLag := rfl
/-- State.modRect keeps `pos`. -/
@[simp] theorem State.modRect_pos (s : State) (i : Nat) (f : Rect → Rect) : (s.modRect i f).pos = s.pos := rfl
/-- State.modRect keeps `slot`. -/
@[simp] theorem State.modRect_slot (s : State) (i : Nat) (f : Rect → Rect) : (s.modRect i f).slot = s.slot := rfl
/-- State.modRect keeps `lastPos`. -/
@[simp] theorem State.modRect_lastPos (s : State) (i : Nat) (f : Rect → Rect) : (s.modRect i f).lastPos = s.lastPos := rfl

/-! ## State.countDrop -/

/-- State.countDrop keeps `time`. -/
@[simp] theorem State.countDrop_time (s : State) (p : Nat) : (s.countDrop p).time = s.time := rfl
/-- State.countDrop keeps `cores`. -/
@[simp] theorem State.countDrop_cores (s : State) (p : Nat) : (s.countDrop p).cores = s.cores := rfl
/-- State.countDrop keeps `nodes`. -/
@[simp] theorem State.countDrop_nodes (s : State) (p : Nat) : (s.countDrop p).nodes = s.nodes := rfl
/-- State.countDrop keeps `leaves`. -/
@[simp] theorem State.countDrop_leaves (s : State) (p : Nat) : (s.countDrop p).leaves = s.leaves := rfl
/-- State.countDrop keeps `reqs`. -/
@[simp] theorem State.countDrop_reqs (s : State) (p : Nat) : (s.countDrop p).reqs = s.reqs := rfl
/-- State.countDrop keeps `net`. -/
@[simp] theorem State.countDrop_net (s : State) (p : Nat) : (s.countDrop p).net = s.net := rfl
/-- State.countDrop keeps `ctl`. -/
@[simp] theorem State.countDrop_ctl (s : State) (p : Nat) : (s.countDrop p).ctl = s.ctl := rfl
/-- State.countDrop keeps `dru`. -/
@[simp] theorem State.countDrop_dru (s : State) (p : Nat) : (s.countDrop p).dru = s.dru := rfl
/-- State.countDrop keeps `fetches`. -/
@[simp] theorem State.countDrop_fetches (s : State) (p : Nat) : (s.countDrop p).fetches = s.fetches := rfl
/-- State.countDrop keeps `engines`. -/
@[simp] theorem State.countDrop_engines (s : State) (p : Nat) : (s.countDrop p).engines = s.engines := rfl
/-- State.countDrop keeps `nextId`. -/
@[simp] theorem State.countDrop_nextId (s : State) (p : Nat) : (s.countDrop p).nextId = s.nextId := rfl
/-- State.countDrop keeps `mem`. -/
@[simp] theorem State.countDrop_mem (s : State) (p : Nat) : (s.countDrop p).mem = s.mem := rfl
/-- State.countDrop keeps `host`. -/
@[simp] theorem State.countDrop_host (s : State) (p : Nat) : (s.countDrop p).host = s.host := rfl
/-- State.countDrop keeps `bad`. -/
@[simp] theorem State.countDrop_bad (s : State) (p : Nat) : (s.countDrop p).bad = s.bad := rfl
/-- State.countDrop keeps `hostBad`. -/
@[simp] theorem State.countDrop_hostBad (s : State) (p : Nat) : (s.countDrop p).hostBad = s.hostBad := rfl
/-- State.countDrop keeps `upsets`. -/
@[simp] theorem State.countDrop_upsets (s : State) (p : Nat) : (s.countDrop p).upsets = s.upsets := rfl
/-- State.countDrop keeps `carveUpsets`. -/
@[simp] theorem State.countDrop_carveUpsets (s : State) (p : Nat) : (s.countDrop p).carveUpsets = s.carveUpsets := rfl
/-- State.countDrop keeps `tlb`. -/
@[simp] theorem State.countDrop_tlb (s : State) (p : Nat) : (s.countDrop p).tlb = s.tlb := rfl
/-- State.countDrop keeps `hostLines`. -/
@[simp] theorem State.countDrop_hostLines (s : State) (p : Nat) : (s.countDrop p).hostLines = s.hostLines := rfl
/-- State.countDrop keeps `launches`. -/
@[simp] theorem State.countDrop_launches (s : State) (p : Nat) : (s.countDrop p).launches = s.launches := rfl
/-- State.countDrop keeps `gangs`. -/
@[simp] theorem State.countDrop_gangs (s : State) (p : Nat) : (s.countDrop p).gangs = s.gangs := rfl
/-- State.countDrop keeps `checks`. -/
@[simp] theorem State.countDrop_checks (s : State) (p : Nat) : (s.countDrop p).checks = s.checks := rfl
/-- State.countDrop keeps `agenda`. -/
@[simp] theorem State.countDrop_agenda (s : State) (p : Nat) : (s.countDrop p).agenda = s.agenda := rfl
/-- State.countDrop keeps `freeCtr`. -/
@[simp] theorem State.countDrop_freeCtr (s : State) (p : Nat) : (s.countDrop p).freeCtr = s.freeCtr := rfl
/-- State.countDrop keeps `stopLag`. -/
@[simp] theorem State.countDrop_stopLag (s : State) (p : Nat) : (s.countDrop p).stopLag = s.stopLag := rfl
/-- State.countDrop keeps `pos`. -/
@[simp] theorem State.countDrop_pos (s : State) (p : Nat) : (s.countDrop p).pos = s.pos := rfl
/-- State.countDrop keeps `slot`. -/
@[simp] theorem State.countDrop_slot (s : State) (p : Nat) : (s.countDrop p).slot = s.slot := rfl
/-- State.countDrop keeps `lastPos`. -/
@[simp] theorem State.countDrop_lastPos (s : State) (p : Nat) : (s.countDrop p).lastPos = s.lastPos := rfl

/-! ## State.countEvDrop -/

/-- State.countEvDrop keeps `time`. -/
@[simp] theorem State.countEvDrop_time (s : State) (p : Nat) : (s.countEvDrop p).time = s.time := rfl
/-- State.countEvDrop keeps `cores`. -/
@[simp] theorem State.countEvDrop_cores (s : State) (p : Nat) : (s.countEvDrop p).cores = s.cores := rfl
/-- State.countEvDrop keeps `nodes`. -/
@[simp] theorem State.countEvDrop_nodes (s : State) (p : Nat) : (s.countEvDrop p).nodes = s.nodes := rfl
/-- State.countEvDrop keeps `leaves`. -/
@[simp] theorem State.countEvDrop_leaves (s : State) (p : Nat) : (s.countEvDrop p).leaves = s.leaves := rfl
/-- State.countEvDrop keeps `reqs`. -/
@[simp] theorem State.countEvDrop_reqs (s : State) (p : Nat) : (s.countEvDrop p).reqs = s.reqs := rfl
/-- State.countEvDrop keeps `net`. -/
@[simp] theorem State.countEvDrop_net (s : State) (p : Nat) : (s.countEvDrop p).net = s.net := rfl
/-- State.countEvDrop keeps `ctl`. -/
@[simp] theorem State.countEvDrop_ctl (s : State) (p : Nat) : (s.countEvDrop p).ctl = s.ctl := rfl
/-- State.countEvDrop keeps `dru`. -/
@[simp] theorem State.countEvDrop_dru (s : State) (p : Nat) : (s.countEvDrop p).dru = s.dru := rfl
/-- State.countEvDrop keeps `fetches`. -/
@[simp] theorem State.countEvDrop_fetches (s : State) (p : Nat) : (s.countEvDrop p).fetches = s.fetches := rfl
/-- State.countEvDrop keeps `engines`. -/
@[simp] theorem State.countEvDrop_engines (s : State) (p : Nat) : (s.countEvDrop p).engines = s.engines := rfl
/-- State.countEvDrop keeps `nextId`. -/
@[simp] theorem State.countEvDrop_nextId (s : State) (p : Nat) : (s.countEvDrop p).nextId = s.nextId := rfl
/-- State.countEvDrop keeps `mem`. -/
@[simp] theorem State.countEvDrop_mem (s : State) (p : Nat) : (s.countEvDrop p).mem = s.mem := rfl
/-- State.countEvDrop keeps `host`. -/
@[simp] theorem State.countEvDrop_host (s : State) (p : Nat) : (s.countEvDrop p).host = s.host := rfl
/-- State.countEvDrop keeps `bad`. -/
@[simp] theorem State.countEvDrop_bad (s : State) (p : Nat) : (s.countEvDrop p).bad = s.bad := rfl
/-- State.countEvDrop keeps `hostBad`. -/
@[simp] theorem State.countEvDrop_hostBad (s : State) (p : Nat) : (s.countEvDrop p).hostBad = s.hostBad := rfl
/-- State.countEvDrop keeps `upsets`. -/
@[simp] theorem State.countEvDrop_upsets (s : State) (p : Nat) : (s.countEvDrop p).upsets = s.upsets := rfl
/-- State.countEvDrop keeps `carveUpsets`. -/
@[simp] theorem State.countEvDrop_carveUpsets (s : State) (p : Nat) : (s.countEvDrop p).carveUpsets = s.carveUpsets := rfl
/-- State.countEvDrop keeps `tlb`. -/
@[simp] theorem State.countEvDrop_tlb (s : State) (p : Nat) : (s.countEvDrop p).tlb = s.tlb := rfl
/-- State.countEvDrop keeps `hostLines`. -/
@[simp] theorem State.countEvDrop_hostLines (s : State) (p : Nat) : (s.countEvDrop p).hostLines = s.hostLines := rfl
/-- State.countEvDrop keeps `launches`. -/
@[simp] theorem State.countEvDrop_launches (s : State) (p : Nat) : (s.countEvDrop p).launches = s.launches := rfl
/-- State.countEvDrop keeps `gangs`. -/
@[simp] theorem State.countEvDrop_gangs (s : State) (p : Nat) : (s.countEvDrop p).gangs = s.gangs := rfl
/-- State.countEvDrop keeps `checks`. -/
@[simp] theorem State.countEvDrop_checks (s : State) (p : Nat) : (s.countEvDrop p).checks = s.checks := rfl
/-- State.countEvDrop keeps `agenda`. -/
@[simp] theorem State.countEvDrop_agenda (s : State) (p : Nat) : (s.countEvDrop p).agenda = s.agenda := rfl
/-- State.countEvDrop keeps `freeCtr`. -/
@[simp] theorem State.countEvDrop_freeCtr (s : State) (p : Nat) : (s.countEvDrop p).freeCtr = s.freeCtr := rfl
/-- State.countEvDrop keeps `stopLag`. -/
@[simp] theorem State.countEvDrop_stopLag (s : State) (p : Nat) : (s.countEvDrop p).stopLag = s.stopLag := rfl
/-- State.countEvDrop keeps `pos`. -/
@[simp] theorem State.countEvDrop_pos (s : State) (p : Nat) : (s.countEvDrop p).pos = s.pos := rfl
/-- State.countEvDrop keeps `slot`. -/
@[simp] theorem State.countEvDrop_slot (s : State) (p : Nat) : (s.countEvDrop p).slot = s.slot := rfl
/-- State.countEvDrop keeps `lastPos`. -/
@[simp] theorem State.countEvDrop_lastPos (s : State) (p : Nat) : (s.countEvDrop p).lastPos = s.lastPos := rfl

/-! ## Core.setThread -/

/-- `threads` after Core.setThread. -/
@[simp] theorem Core.setThread_threads (c : Core) (slot : Nat) (t : Thread) : (c.setThread slot t).threads = tblSet c.threads slot t := rfl
/-- Core.setThread keeps `groups`. -/
@[simp] theorem Core.setThread_groups (c : Core) (slot : Nat) (t : Thread) : (c.setThread slot t).groups = c.groups := rfl
/-- Core.setThread keeps `nextGid`. -/
@[simp] theorem Core.setThread_nextGid (c : Core) (slot : Nat) (t : Thread) : (c.setThread slot t).nextGid = c.nextGid := rfl
/-- Core.setThread keeps `departed`. -/
@[simp] theorem Core.setThread_departed (c : Core) (slot : Nat) (t : Thread) : (c.setThread slot t).departed = c.departed := rfl
/-- Core.setThread keeps `sp`. -/
@[simp] theorem Core.setThread_sp (c : Core) (slot : Nat) (t : Thread) : (c.setThread slot t).sp = c.sp := rfl
/-- Core.setThread keeps `full`. -/
@[simp] theorem Core.setThread_full (c : Core) (slot : Nat) (t : Thread) : (c.setThread slot t).full = c.full := rfl
/-- Core.setThread keeps `poisoned`. -/
@[simp] theorem Core.setThread_poisoned (c : Core) (slot : Nat) (t : Thread) : (c.setThread slot t).poisoned = c.poisoned := rfl
/-- Core.setThread keeps `waits`. -/
@[simp] theorem Core.setThread_waits (c : Core) (slot : Nat) (t : Thread) : (c.setThread slot t).waits = c.waits := rfl
/-- Core.setThread keeps `exEn`. -/
@[simp] theorem Core.setThread_exEn (c : Core) (slot : Nat) (t : Thread) : (c.setThread slot t).exEn = c.exEn := rfl
/-- Core.setThread keeps `exSel`. -/
@[simp] theorem Core.setThread_exSel (c : Core) (slot : Nat) (t : Thread) : (c.setThread slot t).exSel = c.exSel := rfl
/-- Core.setThread keeps `exSwaps`. -/
@[simp] theorem Core.setThread_exSwaps (c : Core) (slot : Nat) (t : Thread) : (c.setThread slot t).exSwaps = c.exSwaps := rfl
/-- Core.setThread keeps `l1`. -/
@[simp] theorem Core.setThread_l1 (c : Core) (slot : Nat) (t : Thread) : (c.setThread slot t).l1 = c.l1 := rfl
/-- Core.setThread keeps `ic`. -/
@[simp] theorem Core.setThread_ic (c : Core) (slot : Nat) (t : Thread) : (c.setThread slot t).ic = c.ic := rfl
/-- Core.setThread keeps `locked`. -/
@[simp] theorem Core.setThread_locked (c : Core) (slot : Nat) (t : Thread) : (c.setThread slot t).locked = c.locked := rfl
/-- Core.setThread keeps `shot`. -/
@[simp] theorem Core.setThread_shot (c : Core) (slot : Nat) (t : Thread) : (c.setThread slot t).shot = c.shot := rfl
/-- Core.setThread keeps `shooting`. -/
@[simp] theorem Core.setThread_shooting (c : Core) (slot : Nat) (t : Thread) : (c.setThread slot t).shooting = c.shooting := rfl
/-- Core.setThread keeps `leaseFlush`. -/
@[simp] theorem Core.setThread_leaseFlush (c : Core) (slot : Nat) (t : Thread) : (c.setThread slot t).leaseFlush = c.leaseFlush := rfl
/-- Core.setThread keeps `lid`. -/
@[simp] theorem Core.setThread_lid (c : Core) (slot : Nat) (t : Thread) : (c.setThread slot t).lid = c.lid := rfl
/-- Core.setThread keeps `lcore`. -/
@[simp] theorem Core.setThread_lcore (c : Core) (slot : Nat) (t : Thread) : (c.setThread slot t).lcore = c.lcore := rfl
/-- Core.setThread keeps `role`. -/
@[simp] theorem Core.setThread_role (c : Core) (slot : Nat) (t : Thread) : (c.setThread slot t).role = c.role := rfl
/-- Core.setThread keeps `hasRole`. -/
@[simp] theorem Core.setThread_hasRole (c : Core) (slot : Nat) (t : Thread) : (c.setThread slot t).hasRole = c.hasRole := rfl
/-- Core.setThread keeps `v0`. -/
@[simp] theorem Core.setThread_v0 (c : Core) (slot : Nat) (t : Thread) : (c.setThread slot t).v0 = c.v0 := rfl
/-- Core.setThread keeps `v1`. -/
@[simp] theorem Core.setThread_v1 (c : Core) (slot : Nat) (t : Thread) : (c.setThread slot t).v1 = c.v1 := rfl
/-- Core.setThread keeps `acc`. -/
@[simp] theorem Core.setThread_acc (c : Core) (slot : Nat) (t : Thread) : (c.setThread slot t).acc = c.acc := rfl
/-- Core.setThread keeps `tiles`. -/
@[simp] theorem Core.setThread_tiles (c : Core) (slot : Nat) (t : Thread) : (c.setThread slot t).tiles = c.tiles := rfl
/-- Core.setThread keeps `matrixQ`. -/
@[simp] theorem Core.setThread_matrixQ (c : Core) (slot : Nat) (t : Thread) : (c.setThread slot t).matrixQ = c.matrixQ := rfl
/-- Core.setThread keeps `tileBusy`. -/
@[simp] theorem Core.setThread_tileBusy (c : Core) (slot : Nat) (t : Thread) : (c.setThread slot t).tileBusy = c.tileBusy := rfl
/-- Core.setThread keeps `tileTurn`. -/
@[simp] theorem Core.setThread_tileTurn (c : Core) (slot : Nat) (t : Thread) : (c.setThread slot t).tileTurn = c.tileTurn := rfl
/-- Core.setThread keeps `mxKey`. -/
@[simp] theorem Core.setThread_mxKey (c : Core) (slot : Nat) (t : Thread) : (c.setThread slot t).mxKey = c.mxKey := rfl
/-- Core.setThread keeps `mxEn`. -/
@[simp] theorem Core.setThread_mxEn (c : Core) (slot : Nat) (t : Thread) : (c.setThread slot t).mxEn = c.mxEn := rfl
/-- Core.setThread keeps `mxMig`. -/
@[simp] theorem Core.setThread_mxMig (c : Core) (slot : Nat) (t : Thread) : (c.setThread slot t).mxMig = c.mxMig := rfl
/-- Core.setThread keeps `tab4l`. -/
@[simp] theorem Core.setThread_tab4l (c : Core) (slot : Nat) (t : Thread) : (c.setThread slot t).tab4l = c.tab4l := rfl
/-- Core.setThread keeps `tab4h`. -/
@[simp] theorem Core.setThread_tab4h (c : Core) (slot : Nat) (t : Thread) : (c.setThread slot t).tab4h = c.tab4h := rfl
/-- Core.setThread keeps `vtime`. -/
@[simp] theorem Core.setThread_vtime (c : Core) (slot : Nat) (t : Thread) : (c.setThread slot t).vtime = c.vtime := rfl
/-- Core.setThread keeps `vtGvtRec`. -/
@[simp] theorem Core.setThread_vtGvtRec (c : Core) (slot : Nat) (t : Thread) : (c.setThread slot t).vtGvtRec = c.vtGvtRec := rfl
/-- Core.setThread keeps `vtStep`. -/
@[simp] theorem Core.setThread_vtStep (c : Core) (slot : Nat) (t : Thread) : (c.setThread slot t).vtStep = c.vtStep := rfl
/-- Core.setThread keeps `vtStrag`. -/
@[simp] theorem Core.setThread_vtStrag (c : Core) (slot : Nat) (t : Thread) : (c.setThread slot t).vtStrag = c.vtStrag := rfl
/-- Core.setThread keeps `vtSat`. -/
@[simp] theorem Core.setThread_vtSat (c : Core) (slot : Nat) (t : Thread) : (c.setThread slot t).vtSat = c.vtSat := rfl
/-- Core.setThread keeps `gvt`. -/
@[simp] theorem Core.setThread_gvt (c : Core) (slot : Nat) (t : Thread) : (c.setThread slot t).gvt = c.gvt := rfl
/-- Core.setThread keeps `gvtRound`. -/
@[simp] theorem Core.setThread_gvtRound (c : Core) (slot : Nat) (t : Thread) : (c.setThread slot t).gvtRound = c.gvtRound := rfl
/-- Core.setThread keeps `gvtBase`. -/
@[simp] theorem Core.setThread_gvtBase (c : Core) (slot : Nat) (t : Thread) : (c.setThread slot t).gvtBase = c.gvtBase := rfl
/-- Core.setThread keeps `heldGvt`. -/
@[simp] theorem Core.setThread_heldGvt (c : Core) (slot : Nat) (t : Thread) : (c.setThread slot t).heldGvt = c.heldGvt := rfl
/-- Core.setThread keeps `sent`. -/
@[simp] theorem Core.setThread_sent (c : Core) (slot : Nat) (t : Thread) : (c.setThread slot t).sent = c.sent := rfl
/-- Core.setThread keeps `recv`. -/
@[simp] theorem Core.setThread_recv (c : Core) (slot : Nat) (t : Thread) : (c.setThread slot t).recv = c.recv := rfl
/-- Core.setThread keeps `minSent`. -/
@[simp] theorem Core.setThread_minSent (c : Core) (slot : Nat) (t : Thread) : (c.setThread slot t).minSent = c.minSent := rfl
/-- Core.setThread keeps `latched`. -/
@[simp] theorem Core.setThread_latched (c : Core) (slot : Nat) (t : Thread) : (c.setThread slot t).latched = c.latched := rfl
/-- Core.setThread keeps `holdsWork`. -/
@[simp] theorem Core.setThread_holdsWork (c : Core) (slot : Nat) (t : Thread) : (c.setThread slot t).holdsWork = c.holdsWork := rfl
/-- Core.setThread keeps `inbox`. -/
@[simp] theorem Core.setThread_inbox (c : Core) (slot : Nat) (t : Thread) : (c.setThread slot t).inbox = c.inbox := rfl
/-- Core.setThread keeps `arrivals`. -/
@[simp] theorem Core.setThread_arrivals (c : Core) (slot : Nat) (t : Thread) : (c.setThread slot t).arrivals = c.arrivals := rfl
/-- Core.setThread keeps `inbCap`. -/
@[simp] theorem Core.setThread_inbCap (c : Core) (slot : Nat) (t : Thread) : (c.setThread slot t).inbCap = c.inbCap := rfl
/-- Core.setThread keeps `inbRes15`. -/
@[simp] theorem Core.setThread_inbRes15 (c : Core) (slot : Nat) (t : Thread) : (c.setThread slot t).inbRes15 = c.inbRes15 := rfl
/-- Core.setThread keeps `inbHeld`. -/
@[simp] theorem Core.setThread_inbHeld (c : Core) (slot : Nat) (t : Thread) : (c.setThread slot t).inbHeld = c.inbHeld := rfl
/-- Core.setThread keeps `inbOvf`. -/
@[simp] theorem Core.setThread_inbOvf (c : Core) (slot : Nat) (t : Thread) : (c.setThread slot t).inbOvf = c.inbOvf := rfl
/-- Core.setThread keeps `inbNacks`. -/
@[simp] theorem Core.setThread_inbNacks (c : Core) (slot : Nat) (t : Thread) : (c.setThread slot t).inbNacks = c.inbNacks := rfl
/-- Core.setThread keeps `refusals`. -/
@[simp] theorem Core.setThread_refusals (c : Core) (slot : Nat) (t : Thread) : (c.setThread slot t).refusals = c.refusals := rfl
/-- Core.setThread keeps `reserved`. -/
@[simp] theorem Core.setThread_reserved (c : Core) (slot : Nat) (t : Thread) : (c.setThread slot t).reserved = c.reserved := rfl
/-- Core.setThread keeps `evSlots`. -/
@[simp] theorem Core.setThread_evSlots (c : Core) (slot : Nat) (t : Thread) : (c.setThread slot t).evSlots = c.evSlots := rfl
/-- Core.setThread keeps `sd`. -/
@[simp] theorem Core.setThread_sd (c : Core) (slot : Nat) (t : Thread) : (c.setThread slot t).sd = c.sd := rfl
/-- Core.setThread keeps `sdSent`. -/
@[simp] theorem Core.setThread_sdSent (c : Core) (slot : Nat) (t : Thread) : (c.setThread slot t).sdSent = c.sdSent := rfl
/-- Core.setThread keeps `sdBad`. -/
@[simp] theorem Core.setThread_sdBad (c : Core) (slot : Nat) (t : Thread) : (c.setThread slot t).sdBad = c.sdBad := rfl
/-- Core.setThread keeps `spce`. -/
@[simp] theorem Core.setThread_spce (c : Core) (slot : Nat) (t : Thread) : (c.setThread slot t).spce = c.spce := rfl
/-- Core.setThread keeps `par`. -/
@[simp] theorem Core.setThread_par (c : Core) (slot : Nat) (t : Thread) : (c.setThread slot t).par = c.par := rfl
/-- Core.setThread keeps `auto`. -/
@[simp] theorem Core.setThread_auto (c : Core) (slot : Nat) (t : Thread) : (c.setThread slot t).auto = c.auto := rfl
/-- Core.setThread keeps `steal`. -/
@[simp] theorem Core.setThread_steal (c : Core) (slot : Nat) (t : Thread) : (c.setThread slot t).steal = c.steal := rfl
/-- Core.setThread keeps `daleOnly`. -/
@[simp] theorem Core.setThread_daleOnly (c : Core) (slot : Nat) (t : Thread) : (c.setThread slot t).daleOnly = c.daleOnly := rfl
/-- Core.setThread keeps `boMax`. -/
@[simp] theorem Core.setThread_boMax (c : Core) (slot : Nat) (t : Thread) : (c.setThread slot t).boMax = c.boMax := rfl
/-- Core.setThread keeps `spill`. -/
@[simp] theorem Core.setThread_spill (c : Core) (slot : Nat) (t : Thread) : (c.setThread slot t).spill = c.spill := rfl
/-- Core.setThread keeps `deque`. -/
@[simp] theorem Core.setThread_deque (c : Core) (slot : Nat) (t : Thread) : (c.setThread slot t).deque = c.deque := rfl
/-- Core.setThread keeps `dqSpill`. -/
@[simp] theorem Core.setThread_dqSpill (c : Core) (slot : Nat) (t : Thread) : (c.setThread slot t).dqSpill = c.dqSpill := rfl
/-- Core.setThread keeps `xferSent`. -/
@[simp] theorem Core.setThread_xferSent (c : Core) (slot : Nat) (t : Thread) : (c.setThread slot t).xferSent = c.xferSent := rfl
/-- Core.setThread keeps `xferRecv`. -/
@[simp] theorem Core.setThread_xferRecv (c : Core) (slot : Nat) (t : Thread) : (c.setThread slot t).xferRecv = c.xferRecv := rfl
/-- Core.setThread keeps `stealOut`. -/
@[simp] theorem Core.setThread_stealOut (c : Core) (slot : Nat) (t : Thread) : (c.setThread slot t).stealOut = c.stealOut := rfl
/-- Core.setThread keeps `lastDale`. -/
@[simp] theorem Core.setThread_lastDale (c : Core) (slot : Nat) (t : Thread) : (c.setThread slot t).lastDale = c.lastDale := rfl
/-- Core.setThread keeps `lastBasin`. -/
@[simp] theorem Core.setThread_lastBasin (c : Core) (slot : Nat) (t : Thread) : (c.setThread slot t).lastBasin = c.lastBasin := rfl
/-- Core.setThread keeps `emptyRnd`. -/
@[simp] theorem Core.setThread_emptyRnd (c : Core) (slot : Nat) (t : Thread) : (c.setThread slot t).emptyRnd = c.emptyRnd := rfl
/-- Core.setThread keeps `backoff`. -/
@[simp] theorem Core.setThread_backoff (c : Core) (slot : Nat) (t : Thread) : (c.setThread slot t).backoff = c.backoff := rfl
/-- Core.setThread keeps `thieving`. -/
@[simp] theorem Core.setThread_thieving (c : Core) (slot : Nat) (t : Thread) : (c.setThread slot t).thieving = c.thieving := rfl
/-- Core.setThread keeps `awayAwake`. -/
@[simp] theorem Core.setThread_awayAwake (c : Core) (slot : Nat) (t : Thread) : (c.setThread slot t).awayAwake = c.awayAwake := rfl
/-- Core.setThread keeps `lfsr`. -/
@[simp] theorem Core.setThread_lfsr (c : Core) (slot : Nat) (t : Thread) : (c.setThread slot t).lfsr = c.lfsr := rfl
/-- Core.setThread keeps `victims`. -/
@[simp] theorem Core.setThread_victims (c : Core) (slot : Nat) (t : Thread) : (c.setThread slot t).victims = c.victims := rfl
/-- Core.setThread keeps `draws`. -/
@[simp] theorem Core.setThread_draws (c : Core) (slot : Nat) (t : Thread) : (c.setThread slot t).draws = c.draws := rfl
/-- Core.setThread keeps `stealAt`. -/
@[simp] theorem Core.setThread_stealAt (c : Core) (slot : Nat) (t : Thread) : (c.setThread slot t).stealAt = c.stealAt := rfl
/-- Core.setThread keeps `recasting`. -/
@[simp] theorem Core.setThread_recasting (c : Core) (slot : Nat) (t : Thread) : (c.setThread slot t).recasting = c.recasting := rfl
/-- Core.setThread keeps `halted`. -/
@[simp] theorem Core.setThread_halted (c : Core) (slot : Nat) (t : Thread) : (c.setThread slot t).halted = c.halted := rfl
/-- Core.setThread keeps `haltDue`. -/
@[simp] theorem Core.setThread_haltDue (c : Core) (slot : Nat) (t : Thread) : (c.setThread slot t).haltDue = c.haltDue := rfl
/-- Core.setThread keeps `stopOwed`. -/
@[simp] theorem Core.setThread_stopOwed (c : Core) (slot : Nat) (t : Thread) : (c.setThread slot t).stopOwed = c.stopOwed := rfl
/-- Core.setThread keeps `haltHeld`. -/
@[simp] theorem Core.setThread_haltHeld (c : Core) (slot : Nat) (t : Thread) : (c.setThread slot t).haltHeld = c.haltHeld := rfl
/-- Core.setThread keeps `member`. -/
@[simp] theorem Core.setThread_member (c : Core) (slot : Nat) (t : Thread) : (c.setThread slot t).member = c.member := rfl
/-- Core.setThread keeps `groupsRun`. -/
@[simp] theorem Core.setThread_groupsRun (c : Core) (slot : Nat) (t : Thread) : (c.setThread slot t).groupsRun = c.groupsRun := rfl
/-- Core.setThread keeps `nextGen`. -/
@[simp] theorem Core.setThread_nextGen (c : Core) (slot : Nat) (t : Thread) : (c.setThread slot t).nextGen = c.nextGen := rfl
/-- Core.setThread keeps `lastIssue`. -/
@[simp] theorem Core.setThread_lastIssue (c : Core) (slot : Nat) (t : Thread) : (c.setThread slot t).lastIssue = c.lastIssue := rfl
/-- Core.setThread keeps `yielded`. -/
@[simp] theorem Core.setThread_yielded (c : Core) (slot : Nat) (t : Thread) : (c.setThread slot t).yielded = c.yielded := rfl
/-- Core.setThread keeps `sampleAcc`. -/
@[simp] theorem Core.setThread_sampleAcc (c : Core) (slot : Nat) (t : Thread) : (c.setThread slot t).sampleAcc = c.sampleAcc := rfl
/-- Core.setThread keeps `nrx`. -/
@[simp] theorem Core.setThread_nrx (c : Core) (slot : Nat) (t : Thread) : (c.setThread slot t).nrx = c.nrx := rfl
/-- Core.setThread keeps `nsent`. -/
@[simp] theorem Core.setThread_nsent (c : Core) (slot : Nat) (t : Thread) : (c.setThread slot t).nsent = c.nsent := rfl
/-- Core.setThread keeps `barArr`. -/
@[simp] theorem Core.setThread_barArr (c : Core) (slot : Nat) (t : Thread) : (c.setThread slot t).barArr = c.barArr := rfl
/-- Core.setThread keeps `homeCache`. -/
@[simp] theorem Core.setThread_homeCache (c : Core) (slot : Nat) (t : Thread) : (c.setThread slot t).homeCache = c.homeCache := rfl
/-- Core.setThread keeps `dbgctl`. -/
@[simp] theorem Core.setThread_dbgctl (c : Core) (slot : Nat) (t : Thread) : (c.setThread slot t).dbgctl = c.dbgctl := rfl
/-- Core.setThread keeps `dbgstat`. -/
@[simp] theorem Core.setThread_dbgstat (c : Core) (slot : Nat) (t : Thread) : (c.setThread slot t).dbgstat = c.dbgstat := rfl
/-- Core.setThread keeps `bp`. -/
@[simp] theorem Core.setThread_bp (c : Core) (slot : Nat) (t : Thread) : (c.setThread slot t).bp = c.bp := rfl
/-- Core.setThread keeps `wp`. -/
@[simp] theorem Core.setThread_wp (c : Core) (slot : Nat) (t : Thread) : (c.setThread slot t).wp = c.wp := rfl
/-- Core.setThread keeps `dbgmatch`. -/
@[simp] theorem Core.setThread_dbgmatch (c : Core) (slot : Nat) (t : Thread) : (c.setThread slot t).dbgmatch = c.dbgmatch := rfl
/-- Core.setThread keeps `wdLimit`. -/
@[simp] theorem Core.setThread_wdLimit (c : Core) (slot : Nat) (t : Thread) : (c.setThread slot t).wdLimit = c.wdLimit := rfl
/-- Core.setThread keeps `wdTime`. -/
@[simp] theorem Core.setThread_wdTime (c : Core) (slot : Nat) (t : Thread) : (c.setThread slot t).wdTime = c.wdTime := rfl
/-- Core.setThread keeps `trcctl`. -/
@[simp] theorem Core.setThread_trcctl (c : Core) (slot : Nat) (t : Thread) : (c.setThread slot t).trcctl = c.trcctl := rfl
/-- Core.setThread keeps `trcbase`. -/
@[simp] theorem Core.setThread_trcbase (c : Core) (slot : Nat) (t : Thread) : (c.setThread slot t).trcbase = c.trcbase := rfl
/-- Core.setThread keeps `trcsize`. -/
@[simp] theorem Core.setThread_trcsize (c : Core) (slot : Nat) (t : Thread) : (c.setThread slot t).trcsize = c.trcsize := rfl
/-- Core.setThread keeps `trchead`. -/
@[simp] theorem Core.setThread_trchead (c : Core) (slot : Nat) (t : Thread) : (c.setThread slot t).trchead = c.trchead := rfl
/-- Core.setThread keeps `trcLast`. -/
@[simp] theorem Core.setThread_trcLast (c : Core) (slot : Nat) (t : Thread) : (c.setThread slot t).trcLast = c.trcLast := rfl
/-- Core.setThread keeps `trcPc`. -/
@[simp] theorem Core.setThread_trcPc (c : Core) (slot : Nat) (t : Thread) : (c.setThread slot t).trcPc = c.trcPc := rfl
/-- Core.setThread keeps `trcBuf`. -/
@[simp] theorem Core.setThread_trcBuf (c : Core) (slot : Nat) (t : Thread) : (c.setThread slot t).trcBuf = c.trcBuf := rfl
/-- Core.setThread keeps `trcStall`. -/
@[simp] theorem Core.setThread_trcStall (c : Core) (slot : Nat) (t : Thread) : (c.setThread slot t).trcStall = c.trcStall := rfl
/-- Core.setThread keeps `trcGap`. -/
@[simp] theorem Core.setThread_trcGap (c : Core) (slot : Nat) (t : Thread) : (c.setThread slot t).trcGap = c.trcGap := rfl
/-- Core.setThread keeps `cycles`. -/
@[simp] theorem Core.setThread_cycles (c : Core) (slot : Nat) (t : Thread) : (c.setThread slot t).cycles = c.cycles := rfl
/-- Core.setThread keeps `fenced`. -/
@[simp] theorem Core.setThread_fenced (c : Core) (slot : Nat) (t : Thread) : (c.setThread slot t).fenced = c.fenced := rfl
/-- Core.setThread keeps `paused`. -/
@[simp] theorem Core.setThread_paused (c : Core) (slot : Nat) (t : Thread) : (c.setThread slot t).paused = c.paused := rfl

/-! ## Core.modGroup -/

/-- Core.modGroup keeps `threads`. -/
@[simp] theorem Core.modGroup_threads (c : Core) (gid : Nat) (f : Group → Group) : (c.modGroup gid f).threads = c.threads := rfl
/-- `groups` after Core.modGroup. -/
@[simp] theorem Core.modGroup_groups (c : Core) (gid : Nat) (f : Group → Group) : (c.modGroup gid f).groups = c.groups.map fun g => if g.gid == gid then f g else g := rfl
/-- Core.modGroup keeps `nextGid`. -/
@[simp] theorem Core.modGroup_nextGid (c : Core) (gid : Nat) (f : Group → Group) : (c.modGroup gid f).nextGid = c.nextGid := rfl
/-- Core.modGroup keeps `departed`. -/
@[simp] theorem Core.modGroup_departed (c : Core) (gid : Nat) (f : Group → Group) : (c.modGroup gid f).departed = c.departed := rfl
/-- Core.modGroup keeps `sp`. -/
@[simp] theorem Core.modGroup_sp (c : Core) (gid : Nat) (f : Group → Group) : (c.modGroup gid f).sp = c.sp := rfl
/-- Core.modGroup keeps `full`. -/
@[simp] theorem Core.modGroup_full (c : Core) (gid : Nat) (f : Group → Group) : (c.modGroup gid f).full = c.full := rfl
/-- Core.modGroup keeps `poisoned`. -/
@[simp] theorem Core.modGroup_poisoned (c : Core) (gid : Nat) (f : Group → Group) : (c.modGroup gid f).poisoned = c.poisoned := rfl
/-- Core.modGroup keeps `waits`. -/
@[simp] theorem Core.modGroup_waits (c : Core) (gid : Nat) (f : Group → Group) : (c.modGroup gid f).waits = c.waits := rfl
/-- Core.modGroup keeps `exEn`. -/
@[simp] theorem Core.modGroup_exEn (c : Core) (gid : Nat) (f : Group → Group) : (c.modGroup gid f).exEn = c.exEn := rfl
/-- Core.modGroup keeps `exSel`. -/
@[simp] theorem Core.modGroup_exSel (c : Core) (gid : Nat) (f : Group → Group) : (c.modGroup gid f).exSel = c.exSel := rfl
/-- Core.modGroup keeps `exSwaps`. -/
@[simp] theorem Core.modGroup_exSwaps (c : Core) (gid : Nat) (f : Group → Group) : (c.modGroup gid f).exSwaps = c.exSwaps := rfl
/-- Core.modGroup keeps `l1`. -/
@[simp] theorem Core.modGroup_l1 (c : Core) (gid : Nat) (f : Group → Group) : (c.modGroup gid f).l1 = c.l1 := rfl
/-- Core.modGroup keeps `ic`. -/
@[simp] theorem Core.modGroup_ic (c : Core) (gid : Nat) (f : Group → Group) : (c.modGroup gid f).ic = c.ic := rfl
/-- Core.modGroup keeps `locked`. -/
@[simp] theorem Core.modGroup_locked (c : Core) (gid : Nat) (f : Group → Group) : (c.modGroup gid f).locked = c.locked := rfl
/-- Core.modGroup keeps `shot`. -/
@[simp] theorem Core.modGroup_shot (c : Core) (gid : Nat) (f : Group → Group) : (c.modGroup gid f).shot = c.shot := rfl
/-- Core.modGroup keeps `shooting`. -/
@[simp] theorem Core.modGroup_shooting (c : Core) (gid : Nat) (f : Group → Group) : (c.modGroup gid f).shooting = c.shooting := rfl
/-- Core.modGroup keeps `leaseFlush`. -/
@[simp] theorem Core.modGroup_leaseFlush (c : Core) (gid : Nat) (f : Group → Group) : (c.modGroup gid f).leaseFlush = c.leaseFlush := rfl
/-- Core.modGroup keeps `lid`. -/
@[simp] theorem Core.modGroup_lid (c : Core) (gid : Nat) (f : Group → Group) : (c.modGroup gid f).lid = c.lid := rfl
/-- Core.modGroup keeps `lcore`. -/
@[simp] theorem Core.modGroup_lcore (c : Core) (gid : Nat) (f : Group → Group) : (c.modGroup gid f).lcore = c.lcore := rfl
/-- Core.modGroup keeps `role`. -/
@[simp] theorem Core.modGroup_role (c : Core) (gid : Nat) (f : Group → Group) : (c.modGroup gid f).role = c.role := rfl
/-- Core.modGroup keeps `hasRole`. -/
@[simp] theorem Core.modGroup_hasRole (c : Core) (gid : Nat) (f : Group → Group) : (c.modGroup gid f).hasRole = c.hasRole := rfl
/-- Core.modGroup keeps `v0`. -/
@[simp] theorem Core.modGroup_v0 (c : Core) (gid : Nat) (f : Group → Group) : (c.modGroup gid f).v0 = c.v0 := rfl
/-- Core.modGroup keeps `v1`. -/
@[simp] theorem Core.modGroup_v1 (c : Core) (gid : Nat) (f : Group → Group) : (c.modGroup gid f).v1 = c.v1 := rfl
/-- Core.modGroup keeps `acc`. -/
@[simp] theorem Core.modGroup_acc (c : Core) (gid : Nat) (f : Group → Group) : (c.modGroup gid f).acc = c.acc := rfl
/-- Core.modGroup keeps `tiles`. -/
@[simp] theorem Core.modGroup_tiles (c : Core) (gid : Nat) (f : Group → Group) : (c.modGroup gid f).tiles = c.tiles := rfl
/-- Core.modGroup keeps `matrixQ`. -/
@[simp] theorem Core.modGroup_matrixQ (c : Core) (gid : Nat) (f : Group → Group) : (c.modGroup gid f).matrixQ = c.matrixQ := rfl
/-- Core.modGroup keeps `tileBusy`. -/
@[simp] theorem Core.modGroup_tileBusy (c : Core) (gid : Nat) (f : Group → Group) : (c.modGroup gid f).tileBusy = c.tileBusy := rfl
/-- Core.modGroup keeps `tileTurn`. -/
@[simp] theorem Core.modGroup_tileTurn (c : Core) (gid : Nat) (f : Group → Group) : (c.modGroup gid f).tileTurn = c.tileTurn := rfl
/-- Core.modGroup keeps `mxKey`. -/
@[simp] theorem Core.modGroup_mxKey (c : Core) (gid : Nat) (f : Group → Group) : (c.modGroup gid f).mxKey = c.mxKey := rfl
/-- Core.modGroup keeps `mxEn`. -/
@[simp] theorem Core.modGroup_mxEn (c : Core) (gid : Nat) (f : Group → Group) : (c.modGroup gid f).mxEn = c.mxEn := rfl
/-- Core.modGroup keeps `mxMig`. -/
@[simp] theorem Core.modGroup_mxMig (c : Core) (gid : Nat) (f : Group → Group) : (c.modGroup gid f).mxMig = c.mxMig := rfl
/-- Core.modGroup keeps `tab4l`. -/
@[simp] theorem Core.modGroup_tab4l (c : Core) (gid : Nat) (f : Group → Group) : (c.modGroup gid f).tab4l = c.tab4l := rfl
/-- Core.modGroup keeps `tab4h`. -/
@[simp] theorem Core.modGroup_tab4h (c : Core) (gid : Nat) (f : Group → Group) : (c.modGroup gid f).tab4h = c.tab4h := rfl
/-- Core.modGroup keeps `vtime`. -/
@[simp] theorem Core.modGroup_vtime (c : Core) (gid : Nat) (f : Group → Group) : (c.modGroup gid f).vtime = c.vtime := rfl
/-- Core.modGroup keeps `vtGvtRec`. -/
@[simp] theorem Core.modGroup_vtGvtRec (c : Core) (gid : Nat) (f : Group → Group) : (c.modGroup gid f).vtGvtRec = c.vtGvtRec := rfl
/-- Core.modGroup keeps `vtStep`. -/
@[simp] theorem Core.modGroup_vtStep (c : Core) (gid : Nat) (f : Group → Group) : (c.modGroup gid f).vtStep = c.vtStep := rfl
/-- Core.modGroup keeps `vtStrag`. -/
@[simp] theorem Core.modGroup_vtStrag (c : Core) (gid : Nat) (f : Group → Group) : (c.modGroup gid f).vtStrag = c.vtStrag := rfl
/-- Core.modGroup keeps `vtSat`. -/
@[simp] theorem Core.modGroup_vtSat (c : Core) (gid : Nat) (f : Group → Group) : (c.modGroup gid f).vtSat = c.vtSat := rfl
/-- Core.modGroup keeps `gvt`. -/
@[simp] theorem Core.modGroup_gvt (c : Core) (gid : Nat) (f : Group → Group) : (c.modGroup gid f).gvt = c.gvt := rfl
/-- Core.modGroup keeps `gvtRound`. -/
@[simp] theorem Core.modGroup_gvtRound (c : Core) (gid : Nat) (f : Group → Group) : (c.modGroup gid f).gvtRound = c.gvtRound := rfl
/-- Core.modGroup keeps `gvtBase`. -/
@[simp] theorem Core.modGroup_gvtBase (c : Core) (gid : Nat) (f : Group → Group) : (c.modGroup gid f).gvtBase = c.gvtBase := rfl
/-- Core.modGroup keeps `heldGvt`. -/
@[simp] theorem Core.modGroup_heldGvt (c : Core) (gid : Nat) (f : Group → Group) : (c.modGroup gid f).heldGvt = c.heldGvt := rfl
/-- Core.modGroup keeps `sent`. -/
@[simp] theorem Core.modGroup_sent (c : Core) (gid : Nat) (f : Group → Group) : (c.modGroup gid f).sent = c.sent := rfl
/-- Core.modGroup keeps `recv`. -/
@[simp] theorem Core.modGroup_recv (c : Core) (gid : Nat) (f : Group → Group) : (c.modGroup gid f).recv = c.recv := rfl
/-- Core.modGroup keeps `minSent`. -/
@[simp] theorem Core.modGroup_minSent (c : Core) (gid : Nat) (f : Group → Group) : (c.modGroup gid f).minSent = c.minSent := rfl
/-- Core.modGroup keeps `latched`. -/
@[simp] theorem Core.modGroup_latched (c : Core) (gid : Nat) (f : Group → Group) : (c.modGroup gid f).latched = c.latched := rfl
/-- Core.modGroup keeps `holdsWork`. -/
@[simp] theorem Core.modGroup_holdsWork (c : Core) (gid : Nat) (f : Group → Group) : (c.modGroup gid f).holdsWork = c.holdsWork := rfl
/-- Core.modGroup keeps `inbox`. -/
@[simp] theorem Core.modGroup_inbox (c : Core) (gid : Nat) (f : Group → Group) : (c.modGroup gid f).inbox = c.inbox := rfl
/-- Core.modGroup keeps `arrivals`. -/
@[simp] theorem Core.modGroup_arrivals (c : Core) (gid : Nat) (f : Group → Group) : (c.modGroup gid f).arrivals = c.arrivals := rfl
/-- Core.modGroup keeps `inbCap`. -/
@[simp] theorem Core.modGroup_inbCap (c : Core) (gid : Nat) (f : Group → Group) : (c.modGroup gid f).inbCap = c.inbCap := rfl
/-- Core.modGroup keeps `inbRes15`. -/
@[simp] theorem Core.modGroup_inbRes15 (c : Core) (gid : Nat) (f : Group → Group) : (c.modGroup gid f).inbRes15 = c.inbRes15 := rfl
/-- Core.modGroup keeps `inbHeld`. -/
@[simp] theorem Core.modGroup_inbHeld (c : Core) (gid : Nat) (f : Group → Group) : (c.modGroup gid f).inbHeld = c.inbHeld := rfl
/-- Core.modGroup keeps `inbOvf`. -/
@[simp] theorem Core.modGroup_inbOvf (c : Core) (gid : Nat) (f : Group → Group) : (c.modGroup gid f).inbOvf = c.inbOvf := rfl
/-- Core.modGroup keeps `inbNacks`. -/
@[simp] theorem Core.modGroup_inbNacks (c : Core) (gid : Nat) (f : Group → Group) : (c.modGroup gid f).inbNacks = c.inbNacks := rfl
/-- Core.modGroup keeps `refusals`. -/
@[simp] theorem Core.modGroup_refusals (c : Core) (gid : Nat) (f : Group → Group) : (c.modGroup gid f).refusals = c.refusals := rfl
/-- Core.modGroup keeps `reserved`. -/
@[simp] theorem Core.modGroup_reserved (c : Core) (gid : Nat) (f : Group → Group) : (c.modGroup gid f).reserved = c.reserved := rfl
/-- Core.modGroup keeps `evSlots`. -/
@[simp] theorem Core.modGroup_evSlots (c : Core) (gid : Nat) (f : Group → Group) : (c.modGroup gid f).evSlots = c.evSlots := rfl
/-- Core.modGroup keeps `sd`. -/
@[simp] theorem Core.modGroup_sd (c : Core) (gid : Nat) (f : Group → Group) : (c.modGroup gid f).sd = c.sd := rfl
/-- Core.modGroup keeps `sdSent`. -/
@[simp] theorem Core.modGroup_sdSent (c : Core) (gid : Nat) (f : Group → Group) : (c.modGroup gid f).sdSent = c.sdSent := rfl
/-- Core.modGroup keeps `sdBad`. -/
@[simp] theorem Core.modGroup_sdBad (c : Core) (gid : Nat) (f : Group → Group) : (c.modGroup gid f).sdBad = c.sdBad := rfl
/-- Core.modGroup keeps `spce`. -/
@[simp] theorem Core.modGroup_spce (c : Core) (gid : Nat) (f : Group → Group) : (c.modGroup gid f).spce = c.spce := rfl
/-- Core.modGroup keeps `par`. -/
@[simp] theorem Core.modGroup_par (c : Core) (gid : Nat) (f : Group → Group) : (c.modGroup gid f).par = c.par := rfl
/-- Core.modGroup keeps `auto`. -/
@[simp] theorem Core.modGroup_auto (c : Core) (gid : Nat) (f : Group → Group) : (c.modGroup gid f).auto = c.auto := rfl
/-- Core.modGroup keeps `steal`. -/
@[simp] theorem Core.modGroup_steal (c : Core) (gid : Nat) (f : Group → Group) : (c.modGroup gid f).steal = c.steal := rfl
/-- Core.modGroup keeps `daleOnly`. -/
@[simp] theorem Core.modGroup_daleOnly (c : Core) (gid : Nat) (f : Group → Group) : (c.modGroup gid f).daleOnly = c.daleOnly := rfl
/-- Core.modGroup keeps `boMax`. -/
@[simp] theorem Core.modGroup_boMax (c : Core) (gid : Nat) (f : Group → Group) : (c.modGroup gid f).boMax = c.boMax := rfl
/-- Core.modGroup keeps `spill`. -/
@[simp] theorem Core.modGroup_spill (c : Core) (gid : Nat) (f : Group → Group) : (c.modGroup gid f).spill = c.spill := rfl
/-- Core.modGroup keeps `deque`. -/
@[simp] theorem Core.modGroup_deque (c : Core) (gid : Nat) (f : Group → Group) : (c.modGroup gid f).deque = c.deque := rfl
/-- Core.modGroup keeps `dqSpill`. -/
@[simp] theorem Core.modGroup_dqSpill (c : Core) (gid : Nat) (f : Group → Group) : (c.modGroup gid f).dqSpill = c.dqSpill := rfl
/-- Core.modGroup keeps `xferSent`. -/
@[simp] theorem Core.modGroup_xferSent (c : Core) (gid : Nat) (f : Group → Group) : (c.modGroup gid f).xferSent = c.xferSent := rfl
/-- Core.modGroup keeps `xferRecv`. -/
@[simp] theorem Core.modGroup_xferRecv (c : Core) (gid : Nat) (f : Group → Group) : (c.modGroup gid f).xferRecv = c.xferRecv := rfl
/-- Core.modGroup keeps `stealOut`. -/
@[simp] theorem Core.modGroup_stealOut (c : Core) (gid : Nat) (f : Group → Group) : (c.modGroup gid f).stealOut = c.stealOut := rfl
/-- Core.modGroup keeps `lastDale`. -/
@[simp] theorem Core.modGroup_lastDale (c : Core) (gid : Nat) (f : Group → Group) : (c.modGroup gid f).lastDale = c.lastDale := rfl
/-- Core.modGroup keeps `lastBasin`. -/
@[simp] theorem Core.modGroup_lastBasin (c : Core) (gid : Nat) (f : Group → Group) : (c.modGroup gid f).lastBasin = c.lastBasin := rfl
/-- Core.modGroup keeps `emptyRnd`. -/
@[simp] theorem Core.modGroup_emptyRnd (c : Core) (gid : Nat) (f : Group → Group) : (c.modGroup gid f).emptyRnd = c.emptyRnd := rfl
/-- Core.modGroup keeps `backoff`. -/
@[simp] theorem Core.modGroup_backoff (c : Core) (gid : Nat) (f : Group → Group) : (c.modGroup gid f).backoff = c.backoff := rfl
/-- Core.modGroup keeps `thieving`. -/
@[simp] theorem Core.modGroup_thieving (c : Core) (gid : Nat) (f : Group → Group) : (c.modGroup gid f).thieving = c.thieving := rfl
/-- Core.modGroup keeps `awayAwake`. -/
@[simp] theorem Core.modGroup_awayAwake (c : Core) (gid : Nat) (f : Group → Group) : (c.modGroup gid f).awayAwake = c.awayAwake := rfl
/-- Core.modGroup keeps `lfsr`. -/
@[simp] theorem Core.modGroup_lfsr (c : Core) (gid : Nat) (f : Group → Group) : (c.modGroup gid f).lfsr = c.lfsr := rfl
/-- Core.modGroup keeps `victims`. -/
@[simp] theorem Core.modGroup_victims (c : Core) (gid : Nat) (f : Group → Group) : (c.modGroup gid f).victims = c.victims := rfl
/-- Core.modGroup keeps `draws`. -/
@[simp] theorem Core.modGroup_draws (c : Core) (gid : Nat) (f : Group → Group) : (c.modGroup gid f).draws = c.draws := rfl
/-- Core.modGroup keeps `stealAt`. -/
@[simp] theorem Core.modGroup_stealAt (c : Core) (gid : Nat) (f : Group → Group) : (c.modGroup gid f).stealAt = c.stealAt := rfl
/-- Core.modGroup keeps `recasting`. -/
@[simp] theorem Core.modGroup_recasting (c : Core) (gid : Nat) (f : Group → Group) : (c.modGroup gid f).recasting = c.recasting := rfl
/-- Core.modGroup keeps `halted`. -/
@[simp] theorem Core.modGroup_halted (c : Core) (gid : Nat) (f : Group → Group) : (c.modGroup gid f).halted = c.halted := rfl
/-- Core.modGroup keeps `haltDue`. -/
@[simp] theorem Core.modGroup_haltDue (c : Core) (gid : Nat) (f : Group → Group) : (c.modGroup gid f).haltDue = c.haltDue := rfl
/-- Core.modGroup keeps `stopOwed`. -/
@[simp] theorem Core.modGroup_stopOwed (c : Core) (gid : Nat) (f : Group → Group) : (c.modGroup gid f).stopOwed = c.stopOwed := rfl
/-- Core.modGroup keeps `haltHeld`. -/
@[simp] theorem Core.modGroup_haltHeld (c : Core) (gid : Nat) (f : Group → Group) : (c.modGroup gid f).haltHeld = c.haltHeld := rfl
/-- Core.modGroup keeps `member`. -/
@[simp] theorem Core.modGroup_member (c : Core) (gid : Nat) (f : Group → Group) : (c.modGroup gid f).member = c.member := rfl
/-- Core.modGroup keeps `groupsRun`. -/
@[simp] theorem Core.modGroup_groupsRun (c : Core) (gid : Nat) (f : Group → Group) : (c.modGroup gid f).groupsRun = c.groupsRun := rfl
/-- Core.modGroup keeps `nextGen`. -/
@[simp] theorem Core.modGroup_nextGen (c : Core) (gid : Nat) (f : Group → Group) : (c.modGroup gid f).nextGen = c.nextGen := rfl
/-- Core.modGroup keeps `lastIssue`. -/
@[simp] theorem Core.modGroup_lastIssue (c : Core) (gid : Nat) (f : Group → Group) : (c.modGroup gid f).lastIssue = c.lastIssue := rfl
/-- Core.modGroup keeps `yielded`. -/
@[simp] theorem Core.modGroup_yielded (c : Core) (gid : Nat) (f : Group → Group) : (c.modGroup gid f).yielded = c.yielded := rfl
/-- Core.modGroup keeps `sampleAcc`. -/
@[simp] theorem Core.modGroup_sampleAcc (c : Core) (gid : Nat) (f : Group → Group) : (c.modGroup gid f).sampleAcc = c.sampleAcc := rfl
/-- Core.modGroup keeps `nrx`. -/
@[simp] theorem Core.modGroup_nrx (c : Core) (gid : Nat) (f : Group → Group) : (c.modGroup gid f).nrx = c.nrx := rfl
/-- Core.modGroup keeps `nsent`. -/
@[simp] theorem Core.modGroup_nsent (c : Core) (gid : Nat) (f : Group → Group) : (c.modGroup gid f).nsent = c.nsent := rfl
/-- Core.modGroup keeps `barArr`. -/
@[simp] theorem Core.modGroup_barArr (c : Core) (gid : Nat) (f : Group → Group) : (c.modGroup gid f).barArr = c.barArr := rfl
/-- Core.modGroup keeps `homeCache`. -/
@[simp] theorem Core.modGroup_homeCache (c : Core) (gid : Nat) (f : Group → Group) : (c.modGroup gid f).homeCache = c.homeCache := rfl
/-- Core.modGroup keeps `dbgctl`. -/
@[simp] theorem Core.modGroup_dbgctl (c : Core) (gid : Nat) (f : Group → Group) : (c.modGroup gid f).dbgctl = c.dbgctl := rfl
/-- Core.modGroup keeps `dbgstat`. -/
@[simp] theorem Core.modGroup_dbgstat (c : Core) (gid : Nat) (f : Group → Group) : (c.modGroup gid f).dbgstat = c.dbgstat := rfl
/-- Core.modGroup keeps `bp`. -/
@[simp] theorem Core.modGroup_bp (c : Core) (gid : Nat) (f : Group → Group) : (c.modGroup gid f).bp = c.bp := rfl
/-- Core.modGroup keeps `wp`. -/
@[simp] theorem Core.modGroup_wp (c : Core) (gid : Nat) (f : Group → Group) : (c.modGroup gid f).wp = c.wp := rfl
/-- Core.modGroup keeps `dbgmatch`. -/
@[simp] theorem Core.modGroup_dbgmatch (c : Core) (gid : Nat) (f : Group → Group) : (c.modGroup gid f).dbgmatch = c.dbgmatch := rfl
/-- Core.modGroup keeps `wdLimit`. -/
@[simp] theorem Core.modGroup_wdLimit (c : Core) (gid : Nat) (f : Group → Group) : (c.modGroup gid f).wdLimit = c.wdLimit := rfl
/-- Core.modGroup keeps `wdTime`. -/
@[simp] theorem Core.modGroup_wdTime (c : Core) (gid : Nat) (f : Group → Group) : (c.modGroup gid f).wdTime = c.wdTime := rfl
/-- Core.modGroup keeps `trcctl`. -/
@[simp] theorem Core.modGroup_trcctl (c : Core) (gid : Nat) (f : Group → Group) : (c.modGroup gid f).trcctl = c.trcctl := rfl
/-- Core.modGroup keeps `trcbase`. -/
@[simp] theorem Core.modGroup_trcbase (c : Core) (gid : Nat) (f : Group → Group) : (c.modGroup gid f).trcbase = c.trcbase := rfl
/-- Core.modGroup keeps `trcsize`. -/
@[simp] theorem Core.modGroup_trcsize (c : Core) (gid : Nat) (f : Group → Group) : (c.modGroup gid f).trcsize = c.trcsize := rfl
/-- Core.modGroup keeps `trchead`. -/
@[simp] theorem Core.modGroup_trchead (c : Core) (gid : Nat) (f : Group → Group) : (c.modGroup gid f).trchead = c.trchead := rfl
/-- Core.modGroup keeps `trcLast`. -/
@[simp] theorem Core.modGroup_trcLast (c : Core) (gid : Nat) (f : Group → Group) : (c.modGroup gid f).trcLast = c.trcLast := rfl
/-- Core.modGroup keeps `trcPc`. -/
@[simp] theorem Core.modGroup_trcPc (c : Core) (gid : Nat) (f : Group → Group) : (c.modGroup gid f).trcPc = c.trcPc := rfl
/-- Core.modGroup keeps `trcBuf`. -/
@[simp] theorem Core.modGroup_trcBuf (c : Core) (gid : Nat) (f : Group → Group) : (c.modGroup gid f).trcBuf = c.trcBuf := rfl
/-- Core.modGroup keeps `trcStall`. -/
@[simp] theorem Core.modGroup_trcStall (c : Core) (gid : Nat) (f : Group → Group) : (c.modGroup gid f).trcStall = c.trcStall := rfl
/-- Core.modGroup keeps `trcGap`. -/
@[simp] theorem Core.modGroup_trcGap (c : Core) (gid : Nat) (f : Group → Group) : (c.modGroup gid f).trcGap = c.trcGap := rfl
/-- Core.modGroup keeps `cycles`. -/
@[simp] theorem Core.modGroup_cycles (c : Core) (gid : Nat) (f : Group → Group) : (c.modGroup gid f).cycles = c.cycles := rfl
/-- Core.modGroup keeps `fenced`. -/
@[simp] theorem Core.modGroup_fenced (c : Core) (gid : Nat) (f : Group → Group) : (c.modGroup gid f).fenced = c.fenced := rfl
/-- Core.modGroup keeps `paused`. -/
@[simp] theorem Core.modGroup_paused (c : Core) (gid : Nat) (f : Group → Group) : (c.modGroup gid f).paused = c.paused := rfl

/-! ## Core.spStorePhys -/

/-- Core.spStorePhys keeps `threads`. -/
@[simp] theorem Core.spStorePhys_threads (c : Core) (a : Nat) (bs : List Byte) (z : Bool) : (c.spStorePhys a bs z).threads = c.threads := rfl
/-- Core.spStorePhys keeps `groups`. -/
@[simp] theorem Core.spStorePhys_groups (c : Core) (a : Nat) (bs : List Byte) (z : Bool) : (c.spStorePhys a bs z).groups = c.groups := rfl
/-- Core.spStorePhys keeps `nextGid`. -/
@[simp] theorem Core.spStorePhys_nextGid (c : Core) (a : Nat) (bs : List Byte) (z : Bool) : (c.spStorePhys a bs z).nextGid = c.nextGid := rfl
/-- Core.spStorePhys keeps `departed`. -/
@[simp] theorem Core.spStorePhys_departed (c : Core) (a : Nat) (bs : List Byte) (z : Bool) : (c.spStorePhys a bs z).departed = c.departed := rfl
/-- `sp` after Core.spStorePhys. -/
@[simp] theorem Core.spStorePhys_sp (c : Core) (a : Nat) (bs : List Byte) (z : Bool) : (c.spStorePhys a bs z).sp = memWrite c.sp a bs := rfl
/-- Core.spStorePhys keeps `full`. -/
@[simp] theorem Core.spStorePhys_full (c : Core) (a : Nat) (bs : List Byte) (z : Bool) : (c.spStorePhys a bs z).full = c.full := rfl
/-- Core.spStorePhys keeps `waits`. -/
@[simp] theorem Core.spStorePhys_waits (c : Core) (a : Nat) (bs : List Byte) (z : Bool) : (c.spStorePhys a bs z).waits = c.waits := rfl
/-- Core.spStorePhys keeps `exEn`. -/
@[simp] theorem Core.spStorePhys_exEn (c : Core) (a : Nat) (bs : List Byte) (z : Bool) : (c.spStorePhys a bs z).exEn = c.exEn := rfl
/-- Core.spStorePhys keeps `exSel`. -/
@[simp] theorem Core.spStorePhys_exSel (c : Core) (a : Nat) (bs : List Byte) (z : Bool) : (c.spStorePhys a bs z).exSel = c.exSel := rfl
/-- Core.spStorePhys keeps `exSwaps`. -/
@[simp] theorem Core.spStorePhys_exSwaps (c : Core) (a : Nat) (bs : List Byte) (z : Bool) : (c.spStorePhys a bs z).exSwaps = c.exSwaps := rfl
/-- Core.spStorePhys keeps `l1`. -/
@[simp] theorem Core.spStorePhys_l1 (c : Core) (a : Nat) (bs : List Byte) (z : Bool) : (c.spStorePhys a bs z).l1 = c.l1 := rfl
/-- Core.spStorePhys keeps `ic`. -/
@[simp] theorem Core.spStorePhys_ic (c : Core) (a : Nat) (bs : List Byte) (z : Bool) : (c.spStorePhys a bs z).ic = c.ic := rfl
/-- Core.spStorePhys keeps `locked`. -/
@[simp] theorem Core.spStorePhys_locked (c : Core) (a : Nat) (bs : List Byte) (z : Bool) : (c.spStorePhys a bs z).locked = c.locked := rfl
/-- Core.spStorePhys keeps `shot`. -/
@[simp] theorem Core.spStorePhys_shot (c : Core) (a : Nat) (bs : List Byte) (z : Bool) : (c.spStorePhys a bs z).shot = c.shot := rfl
/-- Core.spStorePhys keeps `shooting`. -/
@[simp] theorem Core.spStorePhys_shooting (c : Core) (a : Nat) (bs : List Byte) (z : Bool) : (c.spStorePhys a bs z).shooting = c.shooting := rfl
/-- Core.spStorePhys keeps `leaseFlush`. -/
@[simp] theorem Core.spStorePhys_leaseFlush (c : Core) (a : Nat) (bs : List Byte) (z : Bool) : (c.spStorePhys a bs z).leaseFlush = c.leaseFlush := rfl
/-- Core.spStorePhys keeps `lid`. -/
@[simp] theorem Core.spStorePhys_lid (c : Core) (a : Nat) (bs : List Byte) (z : Bool) : (c.spStorePhys a bs z).lid = c.lid := rfl
/-- Core.spStorePhys keeps `lcore`. -/
@[simp] theorem Core.spStorePhys_lcore (c : Core) (a : Nat) (bs : List Byte) (z : Bool) : (c.spStorePhys a bs z).lcore = c.lcore := rfl
/-- Core.spStorePhys keeps `role`. -/
@[simp] theorem Core.spStorePhys_role (c : Core) (a : Nat) (bs : List Byte) (z : Bool) : (c.spStorePhys a bs z).role = c.role := rfl
/-- Core.spStorePhys keeps `hasRole`. -/
@[simp] theorem Core.spStorePhys_hasRole (c : Core) (a : Nat) (bs : List Byte) (z : Bool) : (c.spStorePhys a bs z).hasRole = c.hasRole := rfl
/-- Core.spStorePhys keeps `v0`. -/
@[simp] theorem Core.spStorePhys_v0 (c : Core) (a : Nat) (bs : List Byte) (z : Bool) : (c.spStorePhys a bs z).v0 = c.v0 := rfl
/-- Core.spStorePhys keeps `v1`. -/
@[simp] theorem Core.spStorePhys_v1 (c : Core) (a : Nat) (bs : List Byte) (z : Bool) : (c.spStorePhys a bs z).v1 = c.v1 := rfl
/-- Core.spStorePhys keeps `acc`. -/
@[simp] theorem Core.spStorePhys_acc (c : Core) (a : Nat) (bs : List Byte) (z : Bool) : (c.spStorePhys a bs z).acc = c.acc := rfl
/-- Core.spStorePhys keeps `tiles`. -/
@[simp] theorem Core.spStorePhys_tiles (c : Core) (a : Nat) (bs : List Byte) (z : Bool) : (c.spStorePhys a bs z).tiles = c.tiles := rfl
/-- Core.spStorePhys keeps `matrixQ`. -/
@[simp] theorem Core.spStorePhys_matrixQ (c : Core) (a : Nat) (bs : List Byte) (z : Bool) : (c.spStorePhys a bs z).matrixQ = c.matrixQ := rfl
/-- Core.spStorePhys keeps `tileBusy`. -/
@[simp] theorem Core.spStorePhys_tileBusy (c : Core) (a : Nat) (bs : List Byte) (z : Bool) : (c.spStorePhys a bs z).tileBusy = c.tileBusy := rfl
/-- Core.spStorePhys keeps `tileTurn`. -/
@[simp] theorem Core.spStorePhys_tileTurn (c : Core) (a : Nat) (bs : List Byte) (z : Bool) : (c.spStorePhys a bs z).tileTurn = c.tileTurn := rfl
/-- Core.spStorePhys keeps `mxKey`. -/
@[simp] theorem Core.spStorePhys_mxKey (c : Core) (a : Nat) (bs : List Byte) (z : Bool) : (c.spStorePhys a bs z).mxKey = c.mxKey := rfl
/-- Core.spStorePhys keeps `mxEn`. -/
@[simp] theorem Core.spStorePhys_mxEn (c : Core) (a : Nat) (bs : List Byte) (z : Bool) : (c.spStorePhys a bs z).mxEn = c.mxEn := rfl
/-- Core.spStorePhys keeps `mxMig`. -/
@[simp] theorem Core.spStorePhys_mxMig (c : Core) (a : Nat) (bs : List Byte) (z : Bool) : (c.spStorePhys a bs z).mxMig = c.mxMig := rfl
/-- Core.spStorePhys keeps `tab4l`. -/
@[simp] theorem Core.spStorePhys_tab4l (c : Core) (a : Nat) (bs : List Byte) (z : Bool) : (c.spStorePhys a bs z).tab4l = c.tab4l := rfl
/-- Core.spStorePhys keeps `tab4h`. -/
@[simp] theorem Core.spStorePhys_tab4h (c : Core) (a : Nat) (bs : List Byte) (z : Bool) : (c.spStorePhys a bs z).tab4h = c.tab4h := rfl
/-- Core.spStorePhys keeps `vtime`. -/
@[simp] theorem Core.spStorePhys_vtime (c : Core) (a : Nat) (bs : List Byte) (z : Bool) : (c.spStorePhys a bs z).vtime = c.vtime := rfl
/-- Core.spStorePhys keeps `vtGvtRec`. -/
@[simp] theorem Core.spStorePhys_vtGvtRec (c : Core) (a : Nat) (bs : List Byte) (z : Bool) : (c.spStorePhys a bs z).vtGvtRec = c.vtGvtRec := rfl
/-- Core.spStorePhys keeps `vtStep`. -/
@[simp] theorem Core.spStorePhys_vtStep (c : Core) (a : Nat) (bs : List Byte) (z : Bool) : (c.spStorePhys a bs z).vtStep = c.vtStep := rfl
/-- Core.spStorePhys keeps `vtStrag`. -/
@[simp] theorem Core.spStorePhys_vtStrag (c : Core) (a : Nat) (bs : List Byte) (z : Bool) : (c.spStorePhys a bs z).vtStrag = c.vtStrag := rfl
/-- Core.spStorePhys keeps `vtSat`. -/
@[simp] theorem Core.spStorePhys_vtSat (c : Core) (a : Nat) (bs : List Byte) (z : Bool) : (c.spStorePhys a bs z).vtSat = c.vtSat := rfl
/-- Core.spStorePhys keeps `gvt`. -/
@[simp] theorem Core.spStorePhys_gvt (c : Core) (a : Nat) (bs : List Byte) (z : Bool) : (c.spStorePhys a bs z).gvt = c.gvt := rfl
/-- Core.spStorePhys keeps `gvtRound`. -/
@[simp] theorem Core.spStorePhys_gvtRound (c : Core) (a : Nat) (bs : List Byte) (z : Bool) : (c.spStorePhys a bs z).gvtRound = c.gvtRound := rfl
/-- Core.spStorePhys keeps `gvtBase`. -/
@[simp] theorem Core.spStorePhys_gvtBase (c : Core) (a : Nat) (bs : List Byte) (z : Bool) : (c.spStorePhys a bs z).gvtBase = c.gvtBase := rfl
/-- Core.spStorePhys keeps `heldGvt`. -/
@[simp] theorem Core.spStorePhys_heldGvt (c : Core) (a : Nat) (bs : List Byte) (z : Bool) : (c.spStorePhys a bs z).heldGvt = c.heldGvt := rfl
/-- Core.spStorePhys keeps `sent`. -/
@[simp] theorem Core.spStorePhys_sent (c : Core) (a : Nat) (bs : List Byte) (z : Bool) : (c.spStorePhys a bs z).sent = c.sent := rfl
/-- Core.spStorePhys keeps `recv`. -/
@[simp] theorem Core.spStorePhys_recv (c : Core) (a : Nat) (bs : List Byte) (z : Bool) : (c.spStorePhys a bs z).recv = c.recv := rfl
/-- Core.spStorePhys keeps `minSent`. -/
@[simp] theorem Core.spStorePhys_minSent (c : Core) (a : Nat) (bs : List Byte) (z : Bool) : (c.spStorePhys a bs z).minSent = c.minSent := rfl
/-- Core.spStorePhys keeps `latched`. -/
@[simp] theorem Core.spStorePhys_latched (c : Core) (a : Nat) (bs : List Byte) (z : Bool) : (c.spStorePhys a bs z).latched = c.latched := rfl
/-- Core.spStorePhys keeps `holdsWork`. -/
@[simp] theorem Core.spStorePhys_holdsWork (c : Core) (a : Nat) (bs : List Byte) (z : Bool) : (c.spStorePhys a bs z).holdsWork = c.holdsWork := rfl
/-- Core.spStorePhys keeps `inbox`. -/
@[simp] theorem Core.spStorePhys_inbox (c : Core) (a : Nat) (bs : List Byte) (z : Bool) : (c.spStorePhys a bs z).inbox = c.inbox := rfl
/-- Core.spStorePhys keeps `arrivals`. -/
@[simp] theorem Core.spStorePhys_arrivals (c : Core) (a : Nat) (bs : List Byte) (z : Bool) : (c.spStorePhys a bs z).arrivals = c.arrivals := rfl
/-- Core.spStorePhys keeps `inbCap`. -/
@[simp] theorem Core.spStorePhys_inbCap (c : Core) (a : Nat) (bs : List Byte) (z : Bool) : (c.spStorePhys a bs z).inbCap = c.inbCap := rfl
/-- Core.spStorePhys keeps `inbRes15`. -/
@[simp] theorem Core.spStorePhys_inbRes15 (c : Core) (a : Nat) (bs : List Byte) (z : Bool) : (c.spStorePhys a bs z).inbRes15 = c.inbRes15 := rfl
/-- Core.spStorePhys keeps `inbHeld`. -/
@[simp] theorem Core.spStorePhys_inbHeld (c : Core) (a : Nat) (bs : List Byte) (z : Bool) : (c.spStorePhys a bs z).inbHeld = c.inbHeld := rfl
/-- Core.spStorePhys keeps `inbOvf`. -/
@[simp] theorem Core.spStorePhys_inbOvf (c : Core) (a : Nat) (bs : List Byte) (z : Bool) : (c.spStorePhys a bs z).inbOvf = c.inbOvf := rfl
/-- Core.spStorePhys keeps `inbNacks`. -/
@[simp] theorem Core.spStorePhys_inbNacks (c : Core) (a : Nat) (bs : List Byte) (z : Bool) : (c.spStorePhys a bs z).inbNacks = c.inbNacks := rfl
/-- Core.spStorePhys keeps `refusals`. -/
@[simp] theorem Core.spStorePhys_refusals (c : Core) (a : Nat) (bs : List Byte) (z : Bool) : (c.spStorePhys a bs z).refusals = c.refusals := rfl
/-- Core.spStorePhys keeps `reserved`. -/
@[simp] theorem Core.spStorePhys_reserved (c : Core) (a : Nat) (bs : List Byte) (z : Bool) : (c.spStorePhys a bs z).reserved = c.reserved := rfl
/-- Core.spStorePhys keeps `evSlots`. -/
@[simp] theorem Core.spStorePhys_evSlots (c : Core) (a : Nat) (bs : List Byte) (z : Bool) : (c.spStorePhys a bs z).evSlots = c.evSlots := rfl
/-- Core.spStorePhys keeps `sd`. -/
@[simp] theorem Core.spStorePhys_sd (c : Core) (a : Nat) (bs : List Byte) (z : Bool) : (c.spStorePhys a bs z).sd = c.sd := rfl
/-- Core.spStorePhys keeps `sdSent`. -/
@[simp] theorem Core.spStorePhys_sdSent (c : Core) (a : Nat) (bs : List Byte) (z : Bool) : (c.spStorePhys a bs z).sdSent = c.sdSent := rfl
/-- Core.spStorePhys keeps `sdBad`. -/
@[simp] theorem Core.spStorePhys_sdBad (c : Core) (a : Nat) (bs : List Byte) (z : Bool) : (c.spStorePhys a bs z).sdBad = c.sdBad := rfl
/-- Core.spStorePhys keeps `spce`. -/
@[simp] theorem Core.spStorePhys_spce (c : Core) (a : Nat) (bs : List Byte) (z : Bool) : (c.spStorePhys a bs z).spce = c.spce := rfl
/-- Core.spStorePhys keeps `par`. -/
@[simp] theorem Core.spStorePhys_par (c : Core) (a : Nat) (bs : List Byte) (z : Bool) : (c.spStorePhys a bs z).par = c.par := rfl
/-- Core.spStorePhys keeps `auto`. -/
@[simp] theorem Core.spStorePhys_auto (c : Core) (a : Nat) (bs : List Byte) (z : Bool) : (c.spStorePhys a bs z).auto = c.auto := rfl
/-- Core.spStorePhys keeps `steal`. -/
@[simp] theorem Core.spStorePhys_steal (c : Core) (a : Nat) (bs : List Byte) (z : Bool) : (c.spStorePhys a bs z).steal = c.steal := rfl
/-- Core.spStorePhys keeps `daleOnly`. -/
@[simp] theorem Core.spStorePhys_daleOnly (c : Core) (a : Nat) (bs : List Byte) (z : Bool) : (c.spStorePhys a bs z).daleOnly = c.daleOnly := rfl
/-- Core.spStorePhys keeps `boMax`. -/
@[simp] theorem Core.spStorePhys_boMax (c : Core) (a : Nat) (bs : List Byte) (z : Bool) : (c.spStorePhys a bs z).boMax = c.boMax := rfl
/-- Core.spStorePhys keeps `spill`. -/
@[simp] theorem Core.spStorePhys_spill (c : Core) (a : Nat) (bs : List Byte) (z : Bool) : (c.spStorePhys a bs z).spill = c.spill := rfl
/-- Core.spStorePhys keeps `deque`. -/
@[simp] theorem Core.spStorePhys_deque (c : Core) (a : Nat) (bs : List Byte) (z : Bool) : (c.spStorePhys a bs z).deque = c.deque := rfl
/-- Core.spStorePhys keeps `dqSpill`. -/
@[simp] theorem Core.spStorePhys_dqSpill (c : Core) (a : Nat) (bs : List Byte) (z : Bool) : (c.spStorePhys a bs z).dqSpill = c.dqSpill := rfl
/-- Core.spStorePhys keeps `xferSent`. -/
@[simp] theorem Core.spStorePhys_xferSent (c : Core) (a : Nat) (bs : List Byte) (z : Bool) : (c.spStorePhys a bs z).xferSent = c.xferSent := rfl
/-- Core.spStorePhys keeps `xferRecv`. -/
@[simp] theorem Core.spStorePhys_xferRecv (c : Core) (a : Nat) (bs : List Byte) (z : Bool) : (c.spStorePhys a bs z).xferRecv = c.xferRecv := rfl
/-- Core.spStorePhys keeps `stealOut`. -/
@[simp] theorem Core.spStorePhys_stealOut (c : Core) (a : Nat) (bs : List Byte) (z : Bool) : (c.spStorePhys a bs z).stealOut = c.stealOut := rfl
/-- Core.spStorePhys keeps `lastDale`. -/
@[simp] theorem Core.spStorePhys_lastDale (c : Core) (a : Nat) (bs : List Byte) (z : Bool) : (c.spStorePhys a bs z).lastDale = c.lastDale := rfl
/-- Core.spStorePhys keeps `lastBasin`. -/
@[simp] theorem Core.spStorePhys_lastBasin (c : Core) (a : Nat) (bs : List Byte) (z : Bool) : (c.spStorePhys a bs z).lastBasin = c.lastBasin := rfl
/-- Core.spStorePhys keeps `emptyRnd`. -/
@[simp] theorem Core.spStorePhys_emptyRnd (c : Core) (a : Nat) (bs : List Byte) (z : Bool) : (c.spStorePhys a bs z).emptyRnd = c.emptyRnd := rfl
/-- Core.spStorePhys keeps `backoff`. -/
@[simp] theorem Core.spStorePhys_backoff (c : Core) (a : Nat) (bs : List Byte) (z : Bool) : (c.spStorePhys a bs z).backoff = c.backoff := rfl
/-- Core.spStorePhys keeps `thieving`. -/
@[simp] theorem Core.spStorePhys_thieving (c : Core) (a : Nat) (bs : List Byte) (z : Bool) : (c.spStorePhys a bs z).thieving = c.thieving := rfl
/-- Core.spStorePhys keeps `awayAwake`. -/
@[simp] theorem Core.spStorePhys_awayAwake (c : Core) (a : Nat) (bs : List Byte) (z : Bool) : (c.spStorePhys a bs z).awayAwake = c.awayAwake := rfl
/-- Core.spStorePhys keeps `lfsr`. -/
@[simp] theorem Core.spStorePhys_lfsr (c : Core) (a : Nat) (bs : List Byte) (z : Bool) : (c.spStorePhys a bs z).lfsr = c.lfsr := rfl
/-- Core.spStorePhys keeps `victims`. -/
@[simp] theorem Core.spStorePhys_victims (c : Core) (a : Nat) (bs : List Byte) (z : Bool) : (c.spStorePhys a bs z).victims = c.victims := rfl
/-- Core.spStorePhys keeps `draws`. -/
@[simp] theorem Core.spStorePhys_draws (c : Core) (a : Nat) (bs : List Byte) (z : Bool) : (c.spStorePhys a bs z).draws = c.draws := rfl
/-- Core.spStorePhys keeps `stealAt`. -/
@[simp] theorem Core.spStorePhys_stealAt (c : Core) (a : Nat) (bs : List Byte) (z : Bool) : (c.spStorePhys a bs z).stealAt = c.stealAt := rfl
/-- Core.spStorePhys keeps `recasting`. -/
@[simp] theorem Core.spStorePhys_recasting (c : Core) (a : Nat) (bs : List Byte) (z : Bool) : (c.spStorePhys a bs z).recasting = c.recasting := rfl
/-- Core.spStorePhys keeps `halted`. -/
@[simp] theorem Core.spStorePhys_halted (c : Core) (a : Nat) (bs : List Byte) (z : Bool) : (c.spStorePhys a bs z).halted = c.halted := rfl
/-- Core.spStorePhys keeps `haltDue`. -/
@[simp] theorem Core.spStorePhys_haltDue (c : Core) (a : Nat) (bs : List Byte) (z : Bool) : (c.spStorePhys a bs z).haltDue = c.haltDue := rfl
/-- Core.spStorePhys keeps `stopOwed`. -/
@[simp] theorem Core.spStorePhys_stopOwed (c : Core) (a : Nat) (bs : List Byte) (z : Bool) : (c.spStorePhys a bs z).stopOwed = c.stopOwed := rfl
/-- Core.spStorePhys keeps `haltHeld`. -/
@[simp] theorem Core.spStorePhys_haltHeld (c : Core) (a : Nat) (bs : List Byte) (z : Bool) : (c.spStorePhys a bs z).haltHeld = c.haltHeld := rfl
/-- Core.spStorePhys keeps `member`. -/
@[simp] theorem Core.spStorePhys_member (c : Core) (a : Nat) (bs : List Byte) (z : Bool) : (c.spStorePhys a bs z).member = c.member := rfl
/-- Core.spStorePhys keeps `groupsRun`. -/
@[simp] theorem Core.spStorePhys_groupsRun (c : Core) (a : Nat) (bs : List Byte) (z : Bool) : (c.spStorePhys a bs z).groupsRun = c.groupsRun := rfl
/-- Core.spStorePhys keeps `nextGen`. -/
@[simp] theorem Core.spStorePhys_nextGen (c : Core) (a : Nat) (bs : List Byte) (z : Bool) : (c.spStorePhys a bs z).nextGen = c.nextGen := rfl
/-- Core.spStorePhys keeps `lastIssue`. -/
@[simp] theorem Core.spStorePhys_lastIssue (c : Core) (a : Nat) (bs : List Byte) (z : Bool) : (c.spStorePhys a bs z).lastIssue = c.lastIssue := rfl
/-- Core.spStorePhys keeps `yielded`. -/
@[simp] theorem Core.spStorePhys_yielded (c : Core) (a : Nat) (bs : List Byte) (z : Bool) : (c.spStorePhys a bs z).yielded = c.yielded := rfl
/-- Core.spStorePhys keeps `sampleAcc`. -/
@[simp] theorem Core.spStorePhys_sampleAcc (c : Core) (a : Nat) (bs : List Byte) (z : Bool) : (c.spStorePhys a bs z).sampleAcc = c.sampleAcc := rfl
/-- Core.spStorePhys keeps `nrx`. -/
@[simp] theorem Core.spStorePhys_nrx (c : Core) (a : Nat) (bs : List Byte) (z : Bool) : (c.spStorePhys a bs z).nrx = c.nrx := rfl
/-- Core.spStorePhys keeps `nsent`. -/
@[simp] theorem Core.spStorePhys_nsent (c : Core) (a : Nat) (bs : List Byte) (z : Bool) : (c.spStorePhys a bs z).nsent = c.nsent := rfl
/-- Core.spStorePhys keeps `barArr`. -/
@[simp] theorem Core.spStorePhys_barArr (c : Core) (a : Nat) (bs : List Byte) (z : Bool) : (c.spStorePhys a bs z).barArr = c.barArr := rfl
/-- Core.spStorePhys keeps `homeCache`. -/
@[simp] theorem Core.spStorePhys_homeCache (c : Core) (a : Nat) (bs : List Byte) (z : Bool) : (c.spStorePhys a bs z).homeCache = c.homeCache := rfl
/-- Core.spStorePhys keeps `dbgctl`. -/
@[simp] theorem Core.spStorePhys_dbgctl (c : Core) (a : Nat) (bs : List Byte) (z : Bool) : (c.spStorePhys a bs z).dbgctl = c.dbgctl := rfl
/-- Core.spStorePhys keeps `dbgstat`. -/
@[simp] theorem Core.spStorePhys_dbgstat (c : Core) (a : Nat) (bs : List Byte) (z : Bool) : (c.spStorePhys a bs z).dbgstat = c.dbgstat := rfl
/-- Core.spStorePhys keeps `bp`. -/
@[simp] theorem Core.spStorePhys_bp (c : Core) (a : Nat) (bs : List Byte) (z : Bool) : (c.spStorePhys a bs z).bp = c.bp := rfl
/-- Core.spStorePhys keeps `wp`. -/
@[simp] theorem Core.spStorePhys_wp (c : Core) (a : Nat) (bs : List Byte) (z : Bool) : (c.spStorePhys a bs z).wp = c.wp := rfl
/-- Core.spStorePhys keeps `dbgmatch`. -/
@[simp] theorem Core.spStorePhys_dbgmatch (c : Core) (a : Nat) (bs : List Byte) (z : Bool) : (c.spStorePhys a bs z).dbgmatch = c.dbgmatch := rfl
/-- Core.spStorePhys keeps `wdLimit`. -/
@[simp] theorem Core.spStorePhys_wdLimit (c : Core) (a : Nat) (bs : List Byte) (z : Bool) : (c.spStorePhys a bs z).wdLimit = c.wdLimit := rfl
/-- Core.spStorePhys keeps `wdTime`. -/
@[simp] theorem Core.spStorePhys_wdTime (c : Core) (a : Nat) (bs : List Byte) (z : Bool) : (c.spStorePhys a bs z).wdTime = c.wdTime := rfl
/-- Core.spStorePhys keeps `trcctl`. -/
@[simp] theorem Core.spStorePhys_trcctl (c : Core) (a : Nat) (bs : List Byte) (z : Bool) : (c.spStorePhys a bs z).trcctl = c.trcctl := rfl
/-- Core.spStorePhys keeps `trcbase`. -/
@[simp] theorem Core.spStorePhys_trcbase (c : Core) (a : Nat) (bs : List Byte) (z : Bool) : (c.spStorePhys a bs z).trcbase = c.trcbase := rfl
/-- Core.spStorePhys keeps `trcsize`. -/
@[simp] theorem Core.spStorePhys_trcsize (c : Core) (a : Nat) (bs : List Byte) (z : Bool) : (c.spStorePhys a bs z).trcsize = c.trcsize := rfl
/-- Core.spStorePhys keeps `trchead`. -/
@[simp] theorem Core.spStorePhys_trchead (c : Core) (a : Nat) (bs : List Byte) (z : Bool) : (c.spStorePhys a bs z).trchead = c.trchead := rfl
/-- Core.spStorePhys keeps `trcLast`. -/
@[simp] theorem Core.spStorePhys_trcLast (c : Core) (a : Nat) (bs : List Byte) (z : Bool) : (c.spStorePhys a bs z).trcLast = c.trcLast := rfl
/-- Core.spStorePhys keeps `trcPc`. -/
@[simp] theorem Core.spStorePhys_trcPc (c : Core) (a : Nat) (bs : List Byte) (z : Bool) : (c.spStorePhys a bs z).trcPc = c.trcPc := rfl
/-- Core.spStorePhys keeps `trcBuf`. -/
@[simp] theorem Core.spStorePhys_trcBuf (c : Core) (a : Nat) (bs : List Byte) (z : Bool) : (c.spStorePhys a bs z).trcBuf = c.trcBuf := rfl
/-- Core.spStorePhys keeps `trcStall`. -/
@[simp] theorem Core.spStorePhys_trcStall (c : Core) (a : Nat) (bs : List Byte) (z : Bool) : (c.spStorePhys a bs z).trcStall = c.trcStall := rfl
/-- Core.spStorePhys keeps `trcGap`. -/
@[simp] theorem Core.spStorePhys_trcGap (c : Core) (a : Nat) (bs : List Byte) (z : Bool) : (c.spStorePhys a bs z).trcGap = c.trcGap := rfl
/-- Core.spStorePhys keeps `cycles`. -/
@[simp] theorem Core.spStorePhys_cycles (c : Core) (a : Nat) (bs : List Byte) (z : Bool) : (c.spStorePhys a bs z).cycles = c.cycles := rfl
/-- Core.spStorePhys keeps `fenced`. -/
@[simp] theorem Core.spStorePhys_fenced (c : Core) (a : Nat) (bs : List Byte) (z : Bool) : (c.spStorePhys a bs z).fenced = c.fenced := rfl
/-- Core.spStorePhys keeps `paused`. -/
@[simp] theorem Core.spStorePhys_paused (c : Core) (a : Nat) (bs : List Byte) (z : Bool) : (c.spStorePhys a bs z).paused = c.paused := rfl

/-! ## Core.spStore -/

/-- Core.spStore keeps `threads`. -/
@[simp] theorem Core.spStore_threads (c : Core) (a : Nat) (bs : List Byte) : (c.spStore a bs).threads = c.threads := rfl
/-- Core.spStore keeps `groups`. -/
@[simp] theorem Core.spStore_groups (c : Core) (a : Nat) (bs : List Byte) : (c.spStore a bs).groups = c.groups := rfl
/-- Core.spStore keeps `nextGid`. -/
@[simp] theorem Core.spStore_nextGid (c : Core) (a : Nat) (bs : List Byte) : (c.spStore a bs).nextGid = c.nextGid := rfl
/-- Core.spStore keeps `departed`. -/
@[simp] theorem Core.spStore_departed (c : Core) (a : Nat) (bs : List Byte) : (c.spStore a bs).departed = c.departed := rfl
/-- `sp` after Core.spStore. -/
@[simp] theorem Core.spStore_sp (c : Core) (a : Nat) (bs : List Byte) : (c.spStore a bs).sp = memWrite c.sp (c.spPhys a) bs := rfl
/-- Core.spStore keeps `full`. -/
@[simp] theorem Core.spStore_full (c : Core) (a : Nat) (bs : List Byte) : (c.spStore a bs).full = c.full := rfl
/-- Core.spStore keeps `waits`. -/
@[simp] theorem Core.spStore_waits (c : Core) (a : Nat) (bs : List Byte) : (c.spStore a bs).waits = c.waits := rfl
/-- Core.spStore keeps `exEn`. -/
@[simp] theorem Core.spStore_exEn (c : Core) (a : Nat) (bs : List Byte) : (c.spStore a bs).exEn = c.exEn := rfl
/-- Core.spStore keeps `exSel`. -/
@[simp] theorem Core.spStore_exSel (c : Core) (a : Nat) (bs : List Byte) : (c.spStore a bs).exSel = c.exSel := rfl
/-- Core.spStore keeps `exSwaps`. -/
@[simp] theorem Core.spStore_exSwaps (c : Core) (a : Nat) (bs : List Byte) : (c.spStore a bs).exSwaps = c.exSwaps := rfl
/-- Core.spStore keeps `l1`. -/
@[simp] theorem Core.spStore_l1 (c : Core) (a : Nat) (bs : List Byte) : (c.spStore a bs).l1 = c.l1 := rfl
/-- Core.spStore keeps `ic`. -/
@[simp] theorem Core.spStore_ic (c : Core) (a : Nat) (bs : List Byte) : (c.spStore a bs).ic = c.ic := rfl
/-- Core.spStore keeps `locked`. -/
@[simp] theorem Core.spStore_locked (c : Core) (a : Nat) (bs : List Byte) : (c.spStore a bs).locked = c.locked := rfl
/-- Core.spStore keeps `shot`. -/
@[simp] theorem Core.spStore_shot (c : Core) (a : Nat) (bs : List Byte) : (c.spStore a bs).shot = c.shot := rfl
/-- Core.spStore keeps `shooting`. -/
@[simp] theorem Core.spStore_shooting (c : Core) (a : Nat) (bs : List Byte) : (c.spStore a bs).shooting = c.shooting := rfl
/-- Core.spStore keeps `leaseFlush`. -/
@[simp] theorem Core.spStore_leaseFlush (c : Core) (a : Nat) (bs : List Byte) : (c.spStore a bs).leaseFlush = c.leaseFlush := rfl
/-- Core.spStore keeps `lid`. -/
@[simp] theorem Core.spStore_lid (c : Core) (a : Nat) (bs : List Byte) : (c.spStore a bs).lid = c.lid := rfl
/-- Core.spStore keeps `lcore`. -/
@[simp] theorem Core.spStore_lcore (c : Core) (a : Nat) (bs : List Byte) : (c.spStore a bs).lcore = c.lcore := rfl
/-- Core.spStore keeps `role`. -/
@[simp] theorem Core.spStore_role (c : Core) (a : Nat) (bs : List Byte) : (c.spStore a bs).role = c.role := rfl
/-- Core.spStore keeps `hasRole`. -/
@[simp] theorem Core.spStore_hasRole (c : Core) (a : Nat) (bs : List Byte) : (c.spStore a bs).hasRole = c.hasRole := rfl
/-- Core.spStore keeps `v0`. -/
@[simp] theorem Core.spStore_v0 (c : Core) (a : Nat) (bs : List Byte) : (c.spStore a bs).v0 = c.v0 := rfl
/-- Core.spStore keeps `v1`. -/
@[simp] theorem Core.spStore_v1 (c : Core) (a : Nat) (bs : List Byte) : (c.spStore a bs).v1 = c.v1 := rfl
/-- Core.spStore keeps `acc`. -/
@[simp] theorem Core.spStore_acc (c : Core) (a : Nat) (bs : List Byte) : (c.spStore a bs).acc = c.acc := rfl
/-- Core.spStore keeps `tiles`. -/
@[simp] theorem Core.spStore_tiles (c : Core) (a : Nat) (bs : List Byte) : (c.spStore a bs).tiles = c.tiles := rfl
/-- Core.spStore keeps `matrixQ`. -/
@[simp] theorem Core.spStore_matrixQ (c : Core) (a : Nat) (bs : List Byte) : (c.spStore a bs).matrixQ = c.matrixQ := rfl
/-- Core.spStore keeps `tileBusy`. -/
@[simp] theorem Core.spStore_tileBusy (c : Core) (a : Nat) (bs : List Byte) : (c.spStore a bs).tileBusy = c.tileBusy := rfl
/-- Core.spStore keeps `tileTurn`. -/
@[simp] theorem Core.spStore_tileTurn (c : Core) (a : Nat) (bs : List Byte) : (c.spStore a bs).tileTurn = c.tileTurn := rfl
/-- Core.spStore keeps `mxKey`. -/
@[simp] theorem Core.spStore_mxKey (c : Core) (a : Nat) (bs : List Byte) : (c.spStore a bs).mxKey = c.mxKey := rfl
/-- Core.spStore keeps `mxEn`. -/
@[simp] theorem Core.spStore_mxEn (c : Core) (a : Nat) (bs : List Byte) : (c.spStore a bs).mxEn = c.mxEn := rfl
/-- Core.spStore keeps `mxMig`. -/
@[simp] theorem Core.spStore_mxMig (c : Core) (a : Nat) (bs : List Byte) : (c.spStore a bs).mxMig = c.mxMig := rfl
/-- Core.spStore keeps `tab4l`. -/
@[simp] theorem Core.spStore_tab4l (c : Core) (a : Nat) (bs : List Byte) : (c.spStore a bs).tab4l = c.tab4l := rfl
/-- Core.spStore keeps `tab4h`. -/
@[simp] theorem Core.spStore_tab4h (c : Core) (a : Nat) (bs : List Byte) : (c.spStore a bs).tab4h = c.tab4h := rfl
/-- Core.spStore keeps `vtime`. -/
@[simp] theorem Core.spStore_vtime (c : Core) (a : Nat) (bs : List Byte) : (c.spStore a bs).vtime = c.vtime := rfl
/-- Core.spStore keeps `vtGvtRec`. -/
@[simp] theorem Core.spStore_vtGvtRec (c : Core) (a : Nat) (bs : List Byte) : (c.spStore a bs).vtGvtRec = c.vtGvtRec := rfl
/-- Core.spStore keeps `vtStep`. -/
@[simp] theorem Core.spStore_vtStep (c : Core) (a : Nat) (bs : List Byte) : (c.spStore a bs).vtStep = c.vtStep := rfl
/-- Core.spStore keeps `vtStrag`. -/
@[simp] theorem Core.spStore_vtStrag (c : Core) (a : Nat) (bs : List Byte) : (c.spStore a bs).vtStrag = c.vtStrag := rfl
/-- Core.spStore keeps `vtSat`. -/
@[simp] theorem Core.spStore_vtSat (c : Core) (a : Nat) (bs : List Byte) : (c.spStore a bs).vtSat = c.vtSat := rfl
/-- Core.spStore keeps `gvt`. -/
@[simp] theorem Core.spStore_gvt (c : Core) (a : Nat) (bs : List Byte) : (c.spStore a bs).gvt = c.gvt := rfl
/-- Core.spStore keeps `gvtRound`. -/
@[simp] theorem Core.spStore_gvtRound (c : Core) (a : Nat) (bs : List Byte) : (c.spStore a bs).gvtRound = c.gvtRound := rfl
/-- Core.spStore keeps `gvtBase`. -/
@[simp] theorem Core.spStore_gvtBase (c : Core) (a : Nat) (bs : List Byte) : (c.spStore a bs).gvtBase = c.gvtBase := rfl
/-- Core.spStore keeps `heldGvt`. -/
@[simp] theorem Core.spStore_heldGvt (c : Core) (a : Nat) (bs : List Byte) : (c.spStore a bs).heldGvt = c.heldGvt := rfl
/-- Core.spStore keeps `sent`. -/
@[simp] theorem Core.spStore_sent (c : Core) (a : Nat) (bs : List Byte) : (c.spStore a bs).sent = c.sent := rfl
/-- Core.spStore keeps `recv`. -/
@[simp] theorem Core.spStore_recv (c : Core) (a : Nat) (bs : List Byte) : (c.spStore a bs).recv = c.recv := rfl
/-- Core.spStore keeps `minSent`. -/
@[simp] theorem Core.spStore_minSent (c : Core) (a : Nat) (bs : List Byte) : (c.spStore a bs).minSent = c.minSent := rfl
/-- Core.spStore keeps `latched`. -/
@[simp] theorem Core.spStore_latched (c : Core) (a : Nat) (bs : List Byte) : (c.spStore a bs).latched = c.latched := rfl
/-- Core.spStore keeps `holdsWork`. -/
@[simp] theorem Core.spStore_holdsWork (c : Core) (a : Nat) (bs : List Byte) : (c.spStore a bs).holdsWork = c.holdsWork := rfl
/-- Core.spStore keeps `inbox`. -/
@[simp] theorem Core.spStore_inbox (c : Core) (a : Nat) (bs : List Byte) : (c.spStore a bs).inbox = c.inbox := rfl
/-- Core.spStore keeps `arrivals`. -/
@[simp] theorem Core.spStore_arrivals (c : Core) (a : Nat) (bs : List Byte) : (c.spStore a bs).arrivals = c.arrivals := rfl
/-- Core.spStore keeps `inbCap`. -/
@[simp] theorem Core.spStore_inbCap (c : Core) (a : Nat) (bs : List Byte) : (c.spStore a bs).inbCap = c.inbCap := rfl
/-- Core.spStore keeps `inbRes15`. -/
@[simp] theorem Core.spStore_inbRes15 (c : Core) (a : Nat) (bs : List Byte) : (c.spStore a bs).inbRes15 = c.inbRes15 := rfl
/-- Core.spStore keeps `inbHeld`. -/
@[simp] theorem Core.spStore_inbHeld (c : Core) (a : Nat) (bs : List Byte) : (c.spStore a bs).inbHeld = c.inbHeld := rfl
/-- Core.spStore keeps `inbOvf`. -/
@[simp] theorem Core.spStore_inbOvf (c : Core) (a : Nat) (bs : List Byte) : (c.spStore a bs).inbOvf = c.inbOvf := rfl
/-- Core.spStore keeps `inbNacks`. -/
@[simp] theorem Core.spStore_inbNacks (c : Core) (a : Nat) (bs : List Byte) : (c.spStore a bs).inbNacks = c.inbNacks := rfl
/-- Core.spStore keeps `refusals`. -/
@[simp] theorem Core.spStore_refusals (c : Core) (a : Nat) (bs : List Byte) : (c.spStore a bs).refusals = c.refusals := rfl
/-- Core.spStore keeps `reserved`. -/
@[simp] theorem Core.spStore_reserved (c : Core) (a : Nat) (bs : List Byte) : (c.spStore a bs).reserved = c.reserved := rfl
/-- Core.spStore keeps `evSlots`. -/
@[simp] theorem Core.spStore_evSlots (c : Core) (a : Nat) (bs : List Byte) : (c.spStore a bs).evSlots = c.evSlots := rfl
/-- Core.spStore keeps `sd`. -/
@[simp] theorem Core.spStore_sd (c : Core) (a : Nat) (bs : List Byte) : (c.spStore a bs).sd = c.sd := rfl
/-- Core.spStore keeps `sdSent`. -/
@[simp] theorem Core.spStore_sdSent (c : Core) (a : Nat) (bs : List Byte) : (c.spStore a bs).sdSent = c.sdSent := rfl
/-- Core.spStore keeps `sdBad`. -/
@[simp] theorem Core.spStore_sdBad (c : Core) (a : Nat) (bs : List Byte) : (c.spStore a bs).sdBad = c.sdBad := rfl
/-- Core.spStore keeps `spce`. -/
@[simp] theorem Core.spStore_spce (c : Core) (a : Nat) (bs : List Byte) : (c.spStore a bs).spce = c.spce := rfl
/-- Core.spStore keeps `par`. -/
@[simp] theorem Core.spStore_par (c : Core) (a : Nat) (bs : List Byte) : (c.spStore a bs).par = c.par := rfl
/-- Core.spStore keeps `auto`. -/
@[simp] theorem Core.spStore_auto (c : Core) (a : Nat) (bs : List Byte) : (c.spStore a bs).auto = c.auto := rfl
/-- Core.spStore keeps `steal`. -/
@[simp] theorem Core.spStore_steal (c : Core) (a : Nat) (bs : List Byte) : (c.spStore a bs).steal = c.steal := rfl
/-- Core.spStore keeps `daleOnly`. -/
@[simp] theorem Core.spStore_daleOnly (c : Core) (a : Nat) (bs : List Byte) : (c.spStore a bs).daleOnly = c.daleOnly := rfl
/-- Core.spStore keeps `boMax`. -/
@[simp] theorem Core.spStore_boMax (c : Core) (a : Nat) (bs : List Byte) : (c.spStore a bs).boMax = c.boMax := rfl
/-- Core.spStore keeps `spill`. -/
@[simp] theorem Core.spStore_spill (c : Core) (a : Nat) (bs : List Byte) : (c.spStore a bs).spill = c.spill := rfl
/-- Core.spStore keeps `deque`. -/
@[simp] theorem Core.spStore_deque (c : Core) (a : Nat) (bs : List Byte) : (c.spStore a bs).deque = c.deque := rfl
/-- Core.spStore keeps `dqSpill`. -/
@[simp] theorem Core.spStore_dqSpill (c : Core) (a : Nat) (bs : List Byte) : (c.spStore a bs).dqSpill = c.dqSpill := rfl
/-- Core.spStore keeps `xferSent`. -/
@[simp] theorem Core.spStore_xferSent (c : Core) (a : Nat) (bs : List Byte) : (c.spStore a bs).xferSent = c.xferSent := rfl
/-- Core.spStore keeps `xferRecv`. -/
@[simp] theorem Core.spStore_xferRecv (c : Core) (a : Nat) (bs : List Byte) : (c.spStore a bs).xferRecv = c.xferRecv := rfl
/-- Core.spStore keeps `stealOut`. -/
@[simp] theorem Core.spStore_stealOut (c : Core) (a : Nat) (bs : List Byte) : (c.spStore a bs).stealOut = c.stealOut := rfl
/-- Core.spStore keeps `lastDale`. -/
@[simp] theorem Core.spStore_lastDale (c : Core) (a : Nat) (bs : List Byte) : (c.spStore a bs).lastDale = c.lastDale := rfl
/-- Core.spStore keeps `lastBasin`. -/
@[simp] theorem Core.spStore_lastBasin (c : Core) (a : Nat) (bs : List Byte) : (c.spStore a bs).lastBasin = c.lastBasin := rfl
/-- Core.spStore keeps `emptyRnd`. -/
@[simp] theorem Core.spStore_emptyRnd (c : Core) (a : Nat) (bs : List Byte) : (c.spStore a bs).emptyRnd = c.emptyRnd := rfl
/-- Core.spStore keeps `backoff`. -/
@[simp] theorem Core.spStore_backoff (c : Core) (a : Nat) (bs : List Byte) : (c.spStore a bs).backoff = c.backoff := rfl
/-- Core.spStore keeps `thieving`. -/
@[simp] theorem Core.spStore_thieving (c : Core) (a : Nat) (bs : List Byte) : (c.spStore a bs).thieving = c.thieving := rfl
/-- Core.spStore keeps `awayAwake`. -/
@[simp] theorem Core.spStore_awayAwake (c : Core) (a : Nat) (bs : List Byte) : (c.spStore a bs).awayAwake = c.awayAwake := rfl
/-- Core.spStore keeps `lfsr`. -/
@[simp] theorem Core.spStore_lfsr (c : Core) (a : Nat) (bs : List Byte) : (c.spStore a bs).lfsr = c.lfsr := rfl
/-- Core.spStore keeps `victims`. -/
@[simp] theorem Core.spStore_victims (c : Core) (a : Nat) (bs : List Byte) : (c.spStore a bs).victims = c.victims := rfl
/-- Core.spStore keeps `draws`. -/
@[simp] theorem Core.spStore_draws (c : Core) (a : Nat) (bs : List Byte) : (c.spStore a bs).draws = c.draws := rfl
/-- Core.spStore keeps `stealAt`. -/
@[simp] theorem Core.spStore_stealAt (c : Core) (a : Nat) (bs : List Byte) : (c.spStore a bs).stealAt = c.stealAt := rfl
/-- Core.spStore keeps `recasting`. -/
@[simp] theorem Core.spStore_recasting (c : Core) (a : Nat) (bs : List Byte) : (c.spStore a bs).recasting = c.recasting := rfl
/-- Core.spStore keeps `halted`. -/
@[simp] theorem Core.spStore_halted (c : Core) (a : Nat) (bs : List Byte) : (c.spStore a bs).halted = c.halted := rfl
/-- Core.spStore keeps `haltDue`. -/
@[simp] theorem Core.spStore_haltDue (c : Core) (a : Nat) (bs : List Byte) : (c.spStore a bs).haltDue = c.haltDue := rfl
/-- Core.spStore keeps `stopOwed`. -/
@[simp] theorem Core.spStore_stopOwed (c : Core) (a : Nat) (bs : List Byte) : (c.spStore a bs).stopOwed = c.stopOwed := rfl
/-- Core.spStore keeps `haltHeld`. -/
@[simp] theorem Core.spStore_haltHeld (c : Core) (a : Nat) (bs : List Byte) : (c.spStore a bs).haltHeld = c.haltHeld := rfl
/-- Core.spStore keeps `member`. -/
@[simp] theorem Core.spStore_member (c : Core) (a : Nat) (bs : List Byte) : (c.spStore a bs).member = c.member := rfl
/-- Core.spStore keeps `groupsRun`. -/
@[simp] theorem Core.spStore_groupsRun (c : Core) (a : Nat) (bs : List Byte) : (c.spStore a bs).groupsRun = c.groupsRun := rfl
/-- Core.spStore keeps `nextGen`. -/
@[simp] theorem Core.spStore_nextGen (c : Core) (a : Nat) (bs : List Byte) : (c.spStore a bs).nextGen = c.nextGen := rfl
/-- Core.spStore keeps `lastIssue`. -/
@[simp] theorem Core.spStore_lastIssue (c : Core) (a : Nat) (bs : List Byte) : (c.spStore a bs).lastIssue = c.lastIssue := rfl
/-- Core.spStore keeps `yielded`. -/
@[simp] theorem Core.spStore_yielded (c : Core) (a : Nat) (bs : List Byte) : (c.spStore a bs).yielded = c.yielded := rfl
/-- Core.spStore keeps `sampleAcc`. -/
@[simp] theorem Core.spStore_sampleAcc (c : Core) (a : Nat) (bs : List Byte) : (c.spStore a bs).sampleAcc = c.sampleAcc := rfl
/-- Core.spStore keeps `nrx`. -/
@[simp] theorem Core.spStore_nrx (c : Core) (a : Nat) (bs : List Byte) : (c.spStore a bs).nrx = c.nrx := rfl
/-- Core.spStore keeps `nsent`. -/
@[simp] theorem Core.spStore_nsent (c : Core) (a : Nat) (bs : List Byte) : (c.spStore a bs).nsent = c.nsent := rfl
/-- Core.spStore keeps `barArr`. -/
@[simp] theorem Core.spStore_barArr (c : Core) (a : Nat) (bs : List Byte) : (c.spStore a bs).barArr = c.barArr := rfl
/-- Core.spStore keeps `homeCache`. -/
@[simp] theorem Core.spStore_homeCache (c : Core) (a : Nat) (bs : List Byte) : (c.spStore a bs).homeCache = c.homeCache := rfl
/-- Core.spStore keeps `dbgctl`. -/
@[simp] theorem Core.spStore_dbgctl (c : Core) (a : Nat) (bs : List Byte) : (c.spStore a bs).dbgctl = c.dbgctl := rfl
/-- Core.spStore keeps `dbgstat`. -/
@[simp] theorem Core.spStore_dbgstat (c : Core) (a : Nat) (bs : List Byte) : (c.spStore a bs).dbgstat = c.dbgstat := rfl
/-- Core.spStore keeps `bp`. -/
@[simp] theorem Core.spStore_bp (c : Core) (a : Nat) (bs : List Byte) : (c.spStore a bs).bp = c.bp := rfl
/-- Core.spStore keeps `wp`. -/
@[simp] theorem Core.spStore_wp (c : Core) (a : Nat) (bs : List Byte) : (c.spStore a bs).wp = c.wp := rfl
/-- Core.spStore keeps `dbgmatch`. -/
@[simp] theorem Core.spStore_dbgmatch (c : Core) (a : Nat) (bs : List Byte) : (c.spStore a bs).dbgmatch = c.dbgmatch := rfl
/-- Core.spStore keeps `wdLimit`. -/
@[simp] theorem Core.spStore_wdLimit (c : Core) (a : Nat) (bs : List Byte) : (c.spStore a bs).wdLimit = c.wdLimit := rfl
/-- Core.spStore keeps `wdTime`. -/
@[simp] theorem Core.spStore_wdTime (c : Core) (a : Nat) (bs : List Byte) : (c.spStore a bs).wdTime = c.wdTime := rfl
/-- Core.spStore keeps `trcctl`. -/
@[simp] theorem Core.spStore_trcctl (c : Core) (a : Nat) (bs : List Byte) : (c.spStore a bs).trcctl = c.trcctl := rfl
/-- Core.spStore keeps `trcbase`. -/
@[simp] theorem Core.spStore_trcbase (c : Core) (a : Nat) (bs : List Byte) : (c.spStore a bs).trcbase = c.trcbase := rfl
/-- Core.spStore keeps `trcsize`. -/
@[simp] theorem Core.spStore_trcsize (c : Core) (a : Nat) (bs : List Byte) : (c.spStore a bs).trcsize = c.trcsize := rfl
/-- Core.spStore keeps `trchead`. -/
@[simp] theorem Core.spStore_trchead (c : Core) (a : Nat) (bs : List Byte) : (c.spStore a bs).trchead = c.trchead := rfl
/-- Core.spStore keeps `trcLast`. -/
@[simp] theorem Core.spStore_trcLast (c : Core) (a : Nat) (bs : List Byte) : (c.spStore a bs).trcLast = c.trcLast := rfl
/-- Core.spStore keeps `trcPc`. -/
@[simp] theorem Core.spStore_trcPc (c : Core) (a : Nat) (bs : List Byte) : (c.spStore a bs).trcPc = c.trcPc := rfl
/-- Core.spStore keeps `trcBuf`. -/
@[simp] theorem Core.spStore_trcBuf (c : Core) (a : Nat) (bs : List Byte) : (c.spStore a bs).trcBuf = c.trcBuf := rfl
/-- Core.spStore keeps `trcStall`. -/
@[simp] theorem Core.spStore_trcStall (c : Core) (a : Nat) (bs : List Byte) : (c.spStore a bs).trcStall = c.trcStall := rfl
/-- Core.spStore keeps `trcGap`. -/
@[simp] theorem Core.spStore_trcGap (c : Core) (a : Nat) (bs : List Byte) : (c.spStore a bs).trcGap = c.trcGap := rfl
/-- Core.spStore keeps `cycles`. -/
@[simp] theorem Core.spStore_cycles (c : Core) (a : Nat) (bs : List Byte) : (c.spStore a bs).cycles = c.cycles := rfl
/-- Core.spStore keeps `fenced`. -/
@[simp] theorem Core.spStore_fenced (c : Core) (a : Nat) (bs : List Byte) : (c.spStore a bs).fenced = c.fenced := rfl
/-- Core.spStore keeps `paused`. -/
@[simp] theorem Core.spStore_paused (c : Core) (a : Nat) (bs : List Byte) : (c.spStore a bs).paused = c.paused := rfl

/-! ## Thread.wx -/

/-- Thread.wx keeps `p`. -/
@[simp] theorem Thread.wx_p (t : Thread) (r : Reg) (v : Word) : (t.wx r v).p = t.p := by unfold Thread.wx; split <;> rfl
/-- Thread.wx keeps `pc`. -/
@[simp] theorem Thread.wx_pc (t : Thread) (r : Reg) (v : Word) : (t.wx r v).pc = t.pc := by unfold Thread.wx; split <;> rfl
/-- Thread.wx keeps `status`. -/
@[simp] theorem Thread.wx_status (t : Thread) (r : Reg) (v : Word) : (t.wx r v).status = t.status := by unfold Thread.wx; split <;> rfl
/-- Thread.wx keeps `estatus`. -/
@[simp] theorem Thread.wx_estatus (t : Thread) (r : Reg) (v : Word) : (t.wx r v).estatus = t.estatus := by unfold Thread.wx; split <;> rfl
/-- Thread.wx keeps `epc`. -/
@[simp] theorem Thread.wx_epc (t : Thread) (r : Reg) (v : Word) : (t.wx r v).epc = t.epc := by unfold Thread.wx; split <;> rfl
/-- Thread.wx keeps `tcause`. -/
@[simp] theorem Thread.wx_tcause (t : Thread) (r : Reg) (v : Word) : (t.wx r v).tcause = t.tcause := by unfold Thread.wx; split <;> rfl
/-- Thread.wx keeps `tval`. -/
@[simp] theorem Thread.wx_tval (t : Thread) (r : Reg) (v : Word) : (t.wx r v).tval = t.tval := by unfold Thread.wx; split <;> rfl
/-- Thread.wx keeps `tscratch`. -/
@[simp] theorem Thread.wx_tscratch (t : Thread) (r : Reg) (v : Word) : (t.wx r v).tscratch = t.tscratch := by unfold Thread.wx; split <;> rfl
/-- Thread.wx keeps `stklim`. -/
@[simp] theorem Thread.wx_stklim (t : Thread) (r : Reg) (v : Word) : (t.wx r v).stklim = t.stklim := by unfold Thread.wx; split <;> rfl
/-- Thread.wx keeps `fflags`. -/
@[simp] theorem Thread.wx_fflags (t : Thread) (r : Reg) (v : Word) : (t.wx r v).fflags = t.fflags := by unfold Thread.wx; split <;> rfl
/-- Thread.wx keeps `ir`. -/
@[simp] theorem Thread.wx_ir (t : Thread) (r : Reg) (v : Word) : (t.wx r v).ir = t.ir := by unfold Thread.wx; split <;> rfl
/-- Thread.wx keeps `pendP`. -/
@[simp] theorem Thread.wx_pendP (t : Thread) (r : Reg) (v : Word) : (t.wx r v).pendP = t.pendP := by unfold Thread.wx; split <;> rfl
/-- Thread.wx keeps `run`. -/
@[simp] theorem Thread.wx_run (t : Thread) (r : Reg) (v : Word) : (t.wx r v).run = t.run := by unfold Thread.wx; split <;> rfl
/-- Thread.wx keeps `arrived`. -/
@[simp] theorem Thread.wx_arrived (t : Thread) (r : Reg) (v : Word) : (t.wx r v).arrived = t.arrived := by unfold Thread.wx; split <;> rfl
/-- Thread.wx keeps `group`. -/
@[simp] theorem Thread.wx_group (t : Thread) (r : Reg) (v : Word) : (t.wx r v).group = t.group := by unfold Thread.wx; split <;> rfl
/-- Thread.wx keeps `idx`. -/
@[simp] theorem Thread.wx_idx (t : Thread) (r : Reg) (v : Word) : (t.wx r v).idx = t.idx := by unfold Thread.wx; split <;> rfl
/-- Thread.wx keeps `prio`. -/
@[simp] theorem Thread.wx_prio (t : Thread) (r : Reg) (v : Word) : (t.wx r v).prio = t.prio := by unfold Thread.wx; split <;> rfl
/-- Thread.wx keeps `waitCnt`. -/
@[simp] theorem Thread.wx_waitCnt (t : Thread) (r : Reg) (v : Word) : (t.wx r v).waitCnt = t.waitCnt := by unfold Thread.wx; split <;> rfl
/-- Thread.wx keeps `nomad`. -/
@[simp] theorem Thread.wx_nomad (t : Thread) (r : Reg) (v : Word) : (t.wx r v).nomad = t.nomad := by unfold Thread.wx; split <;> rfl
/-- Thread.wx keeps `home`. -/
@[simp] theorem Thread.wx_home (t : Thread) (r : Reg) (v : Word) : (t.wx r v).home = t.home := by unfold Thread.wx; split <;> rfl
/-- Thread.wx keeps `ctx`. -/
@[simp] theorem Thread.wx_ctx (t : Thread) (r : Reg) (v : Word) : (t.wx r v).ctx = t.ctx := by unfold Thread.wx; split <;> rfl
/-- Thread.wx keeps `held`. -/
@[simp] theorem Thread.wx_held (t : Thread) (r : Reg) (v : Word) : (t.wx r v).held = t.held := by unfold Thread.wx; split <;> rfl
/-- Thread.wx keeps `heldMore`. -/
@[simp] theorem Thread.wx_heldMore (t : Thread) (r : Reg) (v : Word) : (t.wx r v).heldMore = t.heldMore := by unfold Thread.wx; split <;> rfl
/-- Thread.wx keeps `wdPending`. -/
@[simp] theorem Thread.wx_wdPending (t : Thread) (r : Reg) (v : Word) : (t.wx r v).wdPending = t.wdPending := by unfold Thread.wx; split <;> rfl
/-- Thread.wx keeps `bpPass`. -/
@[simp] theorem Thread.wx_bpPass (t : Thread) (r : Reg) (v : Word) : (t.wx r v).bpPass = t.bpPass := by unfold Thread.wx; split <;> rfl
/-- Thread.wx keeps `pnDue`. -/
@[simp] theorem Thread.wx_pnDue (t : Thread) (r : Reg) (v : Word) : (t.wx r v).pnDue = t.pnDue := by unfold Thread.wx; split <;> rfl
/-- Thread.wx keeps `stay`. -/
@[simp] theorem Thread.wx_stay (t : Thread) (r : Reg) (v : Word) : (t.wx r v).stay = t.stay := by unfold Thread.wx; split <;> rfl
/-- Thread.wx keeps `skid`. -/
@[simp] theorem Thread.wx_skid (t : Thread) (r : Reg) (v : Word) : (t.wx r v).skid = t.skid := by unfold Thread.wx; split <;> rfl
/-- Thread.wx keeps `tstop`. -/
@[simp] theorem Thread.wx_tstop (t : Thread) (r : Reg) (v : Word) : (t.wx r v).tstop = t.tstop := by unfold Thread.wx; split <;> rfl
/-- Thread.wx keeps `lagging`. -/
@[simp] theorem Thread.wx_lagging (t : Thread) (r : Reg) (v : Word) : (t.wx r v).lagging = t.lagging := by unfold Thread.wx; split <;> rfl
/-- Thread.wx keeps `stepped`. -/
@[simp] theorem Thread.wx_stepped (t : Thread) (r : Reg) (v : Word) : (t.wx r v).stepped = t.stepped := by unfold Thread.wx; split <;> rfl
/-- Thread.wx keeps `digA`. -/
@[simp] theorem Thread.wx_digA (t : Thread) (r : Reg) (v : Word) : (t.wx r v).digA = t.digA := by unfold Thread.wx; split <;> rfl
/-- Thread.wx keeps `digB`. -/
@[simp] theorem Thread.wx_digB (t : Thread) (r : Reg) (v : Word) : (t.wx r v).digB = t.digB := by unfold Thread.wx; split <;> rfl
/-- Thread.wx keeps `digNext`. -/
@[simp] theorem Thread.wx_digNext (t : Thread) (r : Reg) (v : Word) : (t.wx r v).digNext = t.digNext := by unfold Thread.wx; split <;> rfl
/-- Thread.wx keeps `watchDue`. -/
@[simp] theorem Thread.wx_watchDue (t : Thread) (r : Reg) (v : Word) : (t.wx r v).watchDue = t.watchDue := by unfold Thread.wx; split <;> rfl
/-- Thread.wx keeps `lastRet`. -/
@[simp] theorem Thread.wx_lastRet (t : Thread) (r : Reg) (v : Word) : (t.wx r v).lastRet = t.lastRet := by unfold Thread.wx; split <;> rfl
/-- Thread.wx keeps `dbgTrap`. -/
@[simp] theorem Thread.wx_dbgTrap (t : Thread) (r : Reg) (v : Word) : (t.wx r v).dbgTrap = t.dbgTrap := by unfold Thread.wx; split <;> rfl
/-- Thread.wx keeps `flushing`. -/
@[simp] theorem Thread.wx_flushing (t : Thread) (r : Reg) (v : Word) : (t.wx r v).flushing = t.flushing := by unfold Thread.wx; split <;> rfl
/-- Thread.wx keeps `readRec`. -/
@[simp] theorem Thread.wx_readRec (t : Thread) (r : Reg) (v : Word) : (t.wx r v).readRec = t.readRec := by unfold Thread.wx; split <;> rfl
/-- Thread.wx keeps `tiles`. -/
@[simp] theorem Thread.wx_tiles (t : Thread) (r : Reg) (v : Word) : (t.wx r v).tiles = t.tiles := by unfold Thread.wx; split <;> rfl
/-- Thread.wx keeps `engines`. -/
@[simp] theorem Thread.wx_engines (t : Thread) (r : Reg) (v : Word) : (t.wx r v).engines = t.engines := by unfold Thread.wx; split <;> rfl
/-- Thread.wx keeps `heldAt`. -/
@[simp] theorem Thread.wx_heldAt (t : Thread) (r : Reg) (v : Word) : (t.wx r v).heldAt = t.heldAt := by unfold Thread.wx; split <;> rfl

/-! ## Thread.wp -/

/-- Thread.wp keeps `x`. -/
@[simp] theorem Thread.wp_x (t : Thread) (k : Pred) (b : Bool) : (t.wp k b).x = t.x := by unfold Thread.wp; split <;> rfl
/-- Thread.wp keeps `pc`. -/
@[simp] theorem Thread.wp_pc (t : Thread) (k : Pred) (b : Bool) : (t.wp k b).pc = t.pc := by unfold Thread.wp; split <;> rfl
/-- Thread.wp keeps `status`. -/
@[simp] theorem Thread.wp_status (t : Thread) (k : Pred) (b : Bool) : (t.wp k b).status = t.status := by unfold Thread.wp; split <;> rfl
/-- Thread.wp keeps `estatus`. -/
@[simp] theorem Thread.wp_estatus (t : Thread) (k : Pred) (b : Bool) : (t.wp k b).estatus = t.estatus := by unfold Thread.wp; split <;> rfl
/-- Thread.wp keeps `epc`. -/
@[simp] theorem Thread.wp_epc (t : Thread) (k : Pred) (b : Bool) : (t.wp k b).epc = t.epc := by unfold Thread.wp; split <;> rfl
/-- Thread.wp keeps `tcause`. -/
@[simp] theorem Thread.wp_tcause (t : Thread) (k : Pred) (b : Bool) : (t.wp k b).tcause = t.tcause := by unfold Thread.wp; split <;> rfl
/-- Thread.wp keeps `tval`. -/
@[simp] theorem Thread.wp_tval (t : Thread) (k : Pred) (b : Bool) : (t.wp k b).tval = t.tval := by unfold Thread.wp; split <;> rfl
/-- Thread.wp keeps `tscratch`. -/
@[simp] theorem Thread.wp_tscratch (t : Thread) (k : Pred) (b : Bool) : (t.wp k b).tscratch = t.tscratch := by unfold Thread.wp; split <;> rfl
/-- Thread.wp keeps `stklim`. -/
@[simp] theorem Thread.wp_stklim (t : Thread) (k : Pred) (b : Bool) : (t.wp k b).stklim = t.stklim := by unfold Thread.wp; split <;> rfl
/-- Thread.wp keeps `fflags`. -/
@[simp] theorem Thread.wp_fflags (t : Thread) (k : Pred) (b : Bool) : (t.wp k b).fflags = t.fflags := by unfold Thread.wp; split <;> rfl
/-- Thread.wp keeps `ir`. -/
@[simp] theorem Thread.wp_ir (t : Thread) (k : Pred) (b : Bool) : (t.wp k b).ir = t.ir := by unfold Thread.wp; split <;> rfl
/-- Thread.wp keeps `pendX`. -/
@[simp] theorem Thread.wp_pendX (t : Thread) (k : Pred) (b : Bool) : (t.wp k b).pendX = t.pendX := by unfold Thread.wp; split <;> rfl
/-- Thread.wp keeps `run`. -/
@[simp] theorem Thread.wp_run (t : Thread) (k : Pred) (b : Bool) : (t.wp k b).run = t.run := by unfold Thread.wp; split <;> rfl
/-- Thread.wp keeps `arrived`. -/
@[simp] theorem Thread.wp_arrived (t : Thread) (k : Pred) (b : Bool) : (t.wp k b).arrived = t.arrived := by unfold Thread.wp; split <;> rfl
/-- Thread.wp keeps `group`. -/
@[simp] theorem Thread.wp_group (t : Thread) (k : Pred) (b : Bool) : (t.wp k b).group = t.group := by unfold Thread.wp; split <;> rfl
/-- Thread.wp keeps `idx`. -/
@[simp] theorem Thread.wp_idx (t : Thread) (k : Pred) (b : Bool) : (t.wp k b).idx = t.idx := by unfold Thread.wp; split <;> rfl
/-- Thread.wp keeps `prio`. -/
@[simp] theorem Thread.wp_prio (t : Thread) (k : Pred) (b : Bool) : (t.wp k b).prio = t.prio := by unfold Thread.wp; split <;> rfl
/-- Thread.wp keeps `waitCnt`. -/
@[simp] theorem Thread.wp_waitCnt (t : Thread) (k : Pred) (b : Bool) : (t.wp k b).waitCnt = t.waitCnt := by unfold Thread.wp; split <;> rfl
/-- Thread.wp keeps `nomad`. -/
@[simp] theorem Thread.wp_nomad (t : Thread) (k : Pred) (b : Bool) : (t.wp k b).nomad = t.nomad := by unfold Thread.wp; split <;> rfl
/-- Thread.wp keeps `home`. -/
@[simp] theorem Thread.wp_home (t : Thread) (k : Pred) (b : Bool) : (t.wp k b).home = t.home := by unfold Thread.wp; split <;> rfl
/-- Thread.wp keeps `ctx`. -/
@[simp] theorem Thread.wp_ctx (t : Thread) (k : Pred) (b : Bool) : (t.wp k b).ctx = t.ctx := by unfold Thread.wp; split <;> rfl
/-- Thread.wp keeps `held`. -/
@[simp] theorem Thread.wp_held (t : Thread) (k : Pred) (b : Bool) : (t.wp k b).held = t.held := by unfold Thread.wp; split <;> rfl
/-- Thread.wp keeps `heldMore`. -/
@[simp] theorem Thread.wp_heldMore (t : Thread) (k : Pred) (b : Bool) : (t.wp k b).heldMore = t.heldMore := by unfold Thread.wp; split <;> rfl
/-- Thread.wp keeps `wdPending`. -/
@[simp] theorem Thread.wp_wdPending (t : Thread) (k : Pred) (b : Bool) : (t.wp k b).wdPending = t.wdPending := by unfold Thread.wp; split <;> rfl
/-- Thread.wp keeps `bpPass`. -/
@[simp] theorem Thread.wp_bpPass (t : Thread) (k : Pred) (b : Bool) : (t.wp k b).bpPass = t.bpPass := by unfold Thread.wp; split <;> rfl
/-- Thread.wp keeps `pnDue`. -/
@[simp] theorem Thread.wp_pnDue (t : Thread) (k : Pred) (b : Bool) : (t.wp k b).pnDue = t.pnDue := by unfold Thread.wp; split <;> rfl
/-- Thread.wp keeps `stay`. -/
@[simp] theorem Thread.wp_stay (t : Thread) (k : Pred) (b : Bool) : (t.wp k b).stay = t.stay := by unfold Thread.wp; split <;> rfl
/-- Thread.wp keeps `skid`. -/
@[simp] theorem Thread.wp_skid (t : Thread) (k : Pred) (b : Bool) : (t.wp k b).skid = t.skid := by unfold Thread.wp; split <;> rfl
/-- Thread.wp keeps `tstop`. -/
@[simp] theorem Thread.wp_tstop (t : Thread) (k : Pred) (b : Bool) : (t.wp k b).tstop = t.tstop := by unfold Thread.wp; split <;> rfl
/-- Thread.wp keeps `lagging`. -/
@[simp] theorem Thread.wp_lagging (t : Thread) (k : Pred) (b : Bool) : (t.wp k b).lagging = t.lagging := by unfold Thread.wp; split <;> rfl
/-- Thread.wp keeps `stepped`. -/
@[simp] theorem Thread.wp_stepped (t : Thread) (k : Pred) (b : Bool) : (t.wp k b).stepped = t.stepped := by unfold Thread.wp; split <;> rfl
/-- Thread.wp keeps `digA`. -/
@[simp] theorem Thread.wp_digA (t : Thread) (k : Pred) (b : Bool) : (t.wp k b).digA = t.digA := by unfold Thread.wp; split <;> rfl
/-- Thread.wp keeps `digB`. -/
@[simp] theorem Thread.wp_digB (t : Thread) (k : Pred) (b : Bool) : (t.wp k b).digB = t.digB := by unfold Thread.wp; split <;> rfl
/-- Thread.wp keeps `digNext`. -/
@[simp] theorem Thread.wp_digNext (t : Thread) (k : Pred) (b : Bool) : (t.wp k b).digNext = t.digNext := by unfold Thread.wp; split <;> rfl
/-- Thread.wp keeps `watchDue`. -/
@[simp] theorem Thread.wp_watchDue (t : Thread) (k : Pred) (b : Bool) : (t.wp k b).watchDue = t.watchDue := by unfold Thread.wp; split <;> rfl
/-- Thread.wp keeps `lastRet`. -/
@[simp] theorem Thread.wp_lastRet (t : Thread) (k : Pred) (b : Bool) : (t.wp k b).lastRet = t.lastRet := by unfold Thread.wp; split <;> rfl
/-- Thread.wp keeps `dbgTrap`. -/
@[simp] theorem Thread.wp_dbgTrap (t : Thread) (k : Pred) (b : Bool) : (t.wp k b).dbgTrap = t.dbgTrap := by unfold Thread.wp; split <;> rfl
/-- Thread.wp keeps `flushing`. -/
@[simp] theorem Thread.wp_flushing (t : Thread) (k : Pred) (b : Bool) : (t.wp k b).flushing = t.flushing := by unfold Thread.wp; split <;> rfl
/-- Thread.wp keeps `readRec`. -/
@[simp] theorem Thread.wp_readRec (t : Thread) (k : Pred) (b : Bool) : (t.wp k b).readRec = t.readRec := by unfold Thread.wp; split <;> rfl
/-- Thread.wp keeps `tiles`. -/
@[simp] theorem Thread.wp_tiles (t : Thread) (k : Pred) (b : Bool) : (t.wp k b).tiles = t.tiles := by unfold Thread.wp; split <;> rfl
/-- Thread.wp keeps `engines`. -/
@[simp] theorem Thread.wp_engines (t : Thread) (k : Pred) (b : Bool) : (t.wp k b).engines = t.engines := by unfold Thread.wp; split <;> rfl
/-- Thread.wp keeps `heldAt`. -/
@[simp] theorem Thread.wp_heldAt (t : Thread) (k : Pred) (b : Bool) : (t.wp k b).heldAt = t.heldAt := by unfold Thread.wp; split <;> rfl

/-! ## Thread.markX -/

/-- Thread.markX keeps `x`. -/
@[simp] theorem Thread.markX_x (t : Thread) (r : Reg) : (t.markX r).x = t.x := by unfold Thread.markX; split <;> rfl
/-- Thread.markX keeps `p`. -/
@[simp] theorem Thread.markX_p (t : Thread) (r : Reg) : (t.markX r).p = t.p := by unfold Thread.markX; split <;> rfl
/-- Thread.markX keeps `pc`. -/
@[simp] theorem Thread.markX_pc (t : Thread) (r : Reg) : (t.markX r).pc = t.pc := by unfold Thread.markX; split <;> rfl
/-- Thread.markX keeps `status`. -/
@[simp] theorem Thread.markX_status (t : Thread) (r : Reg) : (t.markX r).status = t.status := by unfold Thread.markX; split <;> rfl
/-- Thread.markX keeps `estatus`. -/
@[simp] theorem Thread.markX_estatus (t : Thread) (r : Reg) : (t.markX r).estatus = t.estatus := by unfold Thread.markX; split <;> rfl
/-- Thread.markX keeps `epc`. -/
@[simp] theorem Thread.markX_epc (t : Thread) (r : Reg) : (t.markX r).epc = t.epc := by unfold Thread.markX; split <;> rfl
/-- Thread.markX keeps `tcause`. -/
@[simp] theorem Thread.markX_tcause (t : Thread) (r : Reg) : (t.markX r).tcause = t.tcause := by unfold Thread.markX; split <;> rfl
/-- Thread.markX keeps `tval`. -/
@[simp] theorem Thread.markX_tval (t : Thread) (r : Reg) : (t.markX r).tval = t.tval := by unfold Thread.markX; split <;> rfl
/-- Thread.markX keeps `tscratch`. -/
@[simp] theorem Thread.markX_tscratch (t : Thread) (r : Reg) : (t.markX r).tscratch = t.tscratch := by unfold Thread.markX; split <;> rfl
/-- Thread.markX keeps `stklim`. -/
@[simp] theorem Thread.markX_stklim (t : Thread) (r : Reg) : (t.markX r).stklim = t.stklim := by unfold Thread.markX; split <;> rfl
/-- Thread.markX keeps `fflags`. -/
@[simp] theorem Thread.markX_fflags (t : Thread) (r : Reg) : (t.markX r).fflags = t.fflags := by unfold Thread.markX; split <;> rfl
/-- Thread.markX keeps `ir`. -/
@[simp] theorem Thread.markX_ir (t : Thread) (r : Reg) : (t.markX r).ir = t.ir := by unfold Thread.markX; split <;> rfl
/-- Thread.markX keeps `pendP`. -/
@[simp] theorem Thread.markX_pendP (t : Thread) (r : Reg) : (t.markX r).pendP = t.pendP := by unfold Thread.markX; split <;> rfl
/-- Thread.markX keeps `run`. -/
@[simp] theorem Thread.markX_run (t : Thread) (r : Reg) : (t.markX r).run = t.run := by unfold Thread.markX; split <;> rfl
/-- Thread.markX keeps `arrived`. -/
@[simp] theorem Thread.markX_arrived (t : Thread) (r : Reg) : (t.markX r).arrived = t.arrived := by unfold Thread.markX; split <;> rfl
/-- Thread.markX keeps `group`. -/
@[simp] theorem Thread.markX_group (t : Thread) (r : Reg) : (t.markX r).group = t.group := by unfold Thread.markX; split <;> rfl
/-- Thread.markX keeps `idx`. -/
@[simp] theorem Thread.markX_idx (t : Thread) (r : Reg) : (t.markX r).idx = t.idx := by unfold Thread.markX; split <;> rfl
/-- Thread.markX keeps `prio`. -/
@[simp] theorem Thread.markX_prio (t : Thread) (r : Reg) : (t.markX r).prio = t.prio := by unfold Thread.markX; split <;> rfl
/-- Thread.markX keeps `waitCnt`. -/
@[simp] theorem Thread.markX_waitCnt (t : Thread) (r : Reg) : (t.markX r).waitCnt = t.waitCnt := by unfold Thread.markX; split <;> rfl
/-- Thread.markX keeps `nomad`. -/
@[simp] theorem Thread.markX_nomad (t : Thread) (r : Reg) : (t.markX r).nomad = t.nomad := by unfold Thread.markX; split <;> rfl
/-- Thread.markX keeps `home`. -/
@[simp] theorem Thread.markX_home (t : Thread) (r : Reg) : (t.markX r).home = t.home := by unfold Thread.markX; split <;> rfl
/-- Thread.markX keeps `ctx`. -/
@[simp] theorem Thread.markX_ctx (t : Thread) (r : Reg) : (t.markX r).ctx = t.ctx := by unfold Thread.markX; split <;> rfl
/-- Thread.markX keeps `held`. -/
@[simp] theorem Thread.markX_held (t : Thread) (r : Reg) : (t.markX r).held = t.held := by unfold Thread.markX; split <;> rfl
/-- Thread.markX keeps `heldMore`. -/
@[simp] theorem Thread.markX_heldMore (t : Thread) (r : Reg) : (t.markX r).heldMore = t.heldMore := by unfold Thread.markX; split <;> rfl
/-- Thread.markX keeps `wdPending`. -/
@[simp] theorem Thread.markX_wdPending (t : Thread) (r : Reg) : (t.markX r).wdPending = t.wdPending := by unfold Thread.markX; split <;> rfl
/-- Thread.markX keeps `bpPass`. -/
@[simp] theorem Thread.markX_bpPass (t : Thread) (r : Reg) : (t.markX r).bpPass = t.bpPass := by unfold Thread.markX; split <;> rfl
/-- Thread.markX keeps `pnDue`. -/
@[simp] theorem Thread.markX_pnDue (t : Thread) (r : Reg) : (t.markX r).pnDue = t.pnDue := by unfold Thread.markX; split <;> rfl
/-- Thread.markX keeps `stay`. -/
@[simp] theorem Thread.markX_stay (t : Thread) (r : Reg) : (t.markX r).stay = t.stay := by unfold Thread.markX; split <;> rfl
/-- Thread.markX keeps `skid`. -/
@[simp] theorem Thread.markX_skid (t : Thread) (r : Reg) : (t.markX r).skid = t.skid := by unfold Thread.markX; split <;> rfl
/-- Thread.markX keeps `tstop`. -/
@[simp] theorem Thread.markX_tstop (t : Thread) (r : Reg) : (t.markX r).tstop = t.tstop := by unfold Thread.markX; split <;> rfl
/-- Thread.markX keeps `lagging`. -/
@[simp] theorem Thread.markX_lagging (t : Thread) (r : Reg) : (t.markX r).lagging = t.lagging := by unfold Thread.markX; split <;> rfl
/-- Thread.markX keeps `stepped`. -/
@[simp] theorem Thread.markX_stepped (t : Thread) (r : Reg) : (t.markX r).stepped = t.stepped := by unfold Thread.markX; split <;> rfl
/-- Thread.markX keeps `digA`. -/
@[simp] theorem Thread.markX_digA (t : Thread) (r : Reg) : (t.markX r).digA = t.digA := by unfold Thread.markX; split <;> rfl
/-- Thread.markX keeps `digB`. -/
@[simp] theorem Thread.markX_digB (t : Thread) (r : Reg) : (t.markX r).digB = t.digB := by unfold Thread.markX; split <;> rfl
/-- Thread.markX keeps `digNext`. -/
@[simp] theorem Thread.markX_digNext (t : Thread) (r : Reg) : (t.markX r).digNext = t.digNext := by unfold Thread.markX; split <;> rfl
/-- Thread.markX keeps `watchDue`. -/
@[simp] theorem Thread.markX_watchDue (t : Thread) (r : Reg) : (t.markX r).watchDue = t.watchDue := by unfold Thread.markX; split <;> rfl
/-- Thread.markX keeps `lastRet`. -/
@[simp] theorem Thread.markX_lastRet (t : Thread) (r : Reg) : (t.markX r).lastRet = t.lastRet := by unfold Thread.markX; split <;> rfl
/-- Thread.markX keeps `dbgTrap`. -/
@[simp] theorem Thread.markX_dbgTrap (t : Thread) (r : Reg) : (t.markX r).dbgTrap = t.dbgTrap := by unfold Thread.markX; split <;> rfl
/-- Thread.markX keeps `flushing`. -/
@[simp] theorem Thread.markX_flushing (t : Thread) (r : Reg) : (t.markX r).flushing = t.flushing := by unfold Thread.markX; split <;> rfl
/-- Thread.markX keeps `readRec`. -/
@[simp] theorem Thread.markX_readRec (t : Thread) (r : Reg) : (t.markX r).readRec = t.readRec := by unfold Thread.markX; split <;> rfl
/-- Thread.markX keeps `tiles`. -/
@[simp] theorem Thread.markX_tiles (t : Thread) (r : Reg) : (t.markX r).tiles = t.tiles := by unfold Thread.markX; split <;> rfl
/-- Thread.markX keeps `engines`. -/
@[simp] theorem Thread.markX_engines (t : Thread) (r : Reg) : (t.markX r).engines = t.engines := by unfold Thread.markX; split <;> rfl
/-- Thread.markX keeps `heldAt`. -/
@[simp] theorem Thread.markX_heldAt (t : Thread) (r : Reg) : (t.markX r).heldAt = t.heldAt := by unfold Thread.markX; split <;> rfl

/-! ## Thread.clearX -/

/-- Thread.clearX keeps `x`. -/
@[simp] theorem Thread.clearX_x (t : Thread) (r : Reg) : (t.clearX r).x = t.x := rfl
/-- Thread.clearX keeps `p`. -/
@[simp] theorem Thread.clearX_p (t : Thread) (r : Reg) : (t.clearX r).p = t.p := rfl
/-- Thread.clearX keeps `pc`. -/
@[simp] theorem Thread.clearX_pc (t : Thread) (r : Reg) : (t.clearX r).pc = t.pc := rfl
/-- Thread.clearX keeps `status`. -/
@[simp] theorem Thread.clearX_status (t : Thread) (r : Reg) : (t.clearX r).status = t.status := rfl
/-- Thread.clearX keeps `estatus`. -/
@[simp] theorem Thread.clearX_estatus (t : Thread) (r : Reg) : (t.clearX r).estatus = t.estatus := rfl
/-- Thread.clearX keeps `epc`. -/
@[simp] theorem Thread.clearX_epc (t : Thread) (r : Reg) : (t.clearX r).epc = t.epc := rfl
/-- Thread.clearX keeps `tcause`. -/
@[simp] theorem Thread.clearX_tcause (t : Thread) (r : Reg) : (t.clearX r).tcause = t.tcause := rfl
/-- Thread.clearX keeps `tval`. -/
@[simp] theorem Thread.clearX_tval (t : Thread) (r : Reg) : (t.clearX r).tval = t.tval := rfl
/-- Thread.clearX keeps `tscratch`. -/
@[simp] theorem Thread.clearX_tscratch (t : Thread) (r : Reg) : (t.clearX r).tscratch = t.tscratch := rfl
/-- Thread.clearX keeps `stklim`. -/
@[simp] theorem Thread.clearX_stklim (t : Thread) (r : Reg) : (t.clearX r).stklim = t.stklim := rfl
/-- Thread.clearX keeps `fflags`. -/
@[simp] theorem Thread.clearX_fflags (t : Thread) (r : Reg) : (t.clearX r).fflags = t.fflags := rfl
/-- Thread.clearX keeps `ir`. -/
@[simp] theorem Thread.clearX_ir (t : Thread) (r : Reg) : (t.clearX r).ir = t.ir := rfl
/-- `pendX` after Thread.clearX. -/
@[simp] theorem Thread.clearX_pendX (t : Thread) (r : Reg) : (t.clearX r).pendX = t.pendX &&& ~~~(1#32 <<< r.toNat) := rfl
/-- Thread.clearX keeps `pendP`. -/
@[simp] theorem Thread.clearX_pendP (t : Thread) (r : Reg) : (t.clearX r).pendP = t.pendP := rfl
/-- Thread.clearX keeps `run`. -/
@[simp] theorem Thread.clearX_run (t : Thread) (r : Reg) : (t.clearX r).run = t.run := rfl
/-- Thread.clearX keeps `arrived`. -/
@[simp] theorem Thread.clearX_arrived (t : Thread) (r : Reg) : (t.clearX r).arrived = t.arrived := rfl
/-- Thread.clearX keeps `group`. -/
@[simp] theorem Thread.clearX_group (t : Thread) (r : Reg) : (t.clearX r).group = t.group := rfl
/-- Thread.clearX keeps `idx`. -/
@[simp] theorem Thread.clearX_idx (t : Thread) (r : Reg) : (t.clearX r).idx = t.idx := rfl
/-- Thread.clearX keeps `prio`. -/
@[simp] theorem Thread.clearX_prio (t : Thread) (r : Reg) : (t.clearX r).prio = t.prio := rfl
/-- Thread.clearX keeps `waitCnt`. -/
@[simp] theorem Thread.clearX_waitCnt (t : Thread) (r : Reg) : (t.clearX r).waitCnt = t.waitCnt := rfl
/-- Thread.clearX keeps `nomad`. -/
@[simp] theorem Thread.clearX_nomad (t : Thread) (r : Reg) : (t.clearX r).nomad = t.nomad := rfl
/-- Thread.clearX keeps `home`. -/
@[simp] theorem Thread.clearX_home (t : Thread) (r : Reg) : (t.clearX r).home = t.home := rfl
/-- Thread.clearX keeps `ctx`. -/
@[simp] theorem Thread.clearX_ctx (t : Thread) (r : Reg) : (t.clearX r).ctx = t.ctx := rfl
/-- Thread.clearX keeps `held`. -/
@[simp] theorem Thread.clearX_held (t : Thread) (r : Reg) : (t.clearX r).held = t.held := rfl
/-- Thread.clearX keeps `heldMore`. -/
@[simp] theorem Thread.clearX_heldMore (t : Thread) (r : Reg) : (t.clearX r).heldMore = t.heldMore := rfl
/-- Thread.clearX keeps `wdPending`. -/
@[simp] theorem Thread.clearX_wdPending (t : Thread) (r : Reg) : (t.clearX r).wdPending = t.wdPending := rfl
/-- Thread.clearX keeps `bpPass`. -/
@[simp] theorem Thread.clearX_bpPass (t : Thread) (r : Reg) : (t.clearX r).bpPass = t.bpPass := rfl
/-- Thread.clearX keeps `pnDue`. -/
@[simp] theorem Thread.clearX_pnDue (t : Thread) (r : Reg) : (t.clearX r).pnDue = t.pnDue := rfl
/-- Thread.clearX keeps `stay`. -/
@[simp] theorem Thread.clearX_stay (t : Thread) (r : Reg) : (t.clearX r).stay = t.stay := rfl
/-- Thread.clearX keeps `skid`. -/
@[simp] theorem Thread.clearX_skid (t : Thread) (r : Reg) : (t.clearX r).skid = t.skid := rfl
/-- Thread.clearX keeps `tstop`. -/
@[simp] theorem Thread.clearX_tstop (t : Thread) (r : Reg) : (t.clearX r).tstop = t.tstop := rfl
/-- Thread.clearX keeps `lagging`. -/
@[simp] theorem Thread.clearX_lagging (t : Thread) (r : Reg) : (t.clearX r).lagging = t.lagging := rfl
/-- Thread.clearX keeps `stepped`. -/
@[simp] theorem Thread.clearX_stepped (t : Thread) (r : Reg) : (t.clearX r).stepped = t.stepped := rfl
/-- Thread.clearX keeps `digA`. -/
@[simp] theorem Thread.clearX_digA (t : Thread) (r : Reg) : (t.clearX r).digA = t.digA := rfl
/-- Thread.clearX keeps `digB`. -/
@[simp] theorem Thread.clearX_digB (t : Thread) (r : Reg) : (t.clearX r).digB = t.digB := rfl
/-- Thread.clearX keeps `digNext`. -/
@[simp] theorem Thread.clearX_digNext (t : Thread) (r : Reg) : (t.clearX r).digNext = t.digNext := rfl
/-- Thread.clearX keeps `watchDue`. -/
@[simp] theorem Thread.clearX_watchDue (t : Thread) (r : Reg) : (t.clearX r).watchDue = t.watchDue := rfl
/-- Thread.clearX keeps `lastRet`. -/
@[simp] theorem Thread.clearX_lastRet (t : Thread) (r : Reg) : (t.clearX r).lastRet = t.lastRet := rfl
/-- Thread.clearX keeps `dbgTrap`. -/
@[simp] theorem Thread.clearX_dbgTrap (t : Thread) (r : Reg) : (t.clearX r).dbgTrap = t.dbgTrap := rfl
/-- Thread.clearX keeps `flushing`. -/
@[simp] theorem Thread.clearX_flushing (t : Thread) (r : Reg) : (t.clearX r).flushing = t.flushing := rfl
/-- Thread.clearX keeps `readRec`. -/
@[simp] theorem Thread.clearX_readRec (t : Thread) (r : Reg) : (t.clearX r).readRec = t.readRec := rfl
/-- Thread.clearX keeps `tiles`. -/
@[simp] theorem Thread.clearX_tiles (t : Thread) (r : Reg) : (t.clearX r).tiles = t.tiles := rfl
/-- Thread.clearX keeps `engines`. -/
@[simp] theorem Thread.clearX_engines (t : Thread) (r : Reg) : (t.clearX r).engines = t.engines := rfl
/-- Thread.clearX keeps `heldAt`. -/
@[simp] theorem Thread.clearX_heldAt (t : Thread) (r : Reg) : (t.clearX r).heldAt = t.heldAt := rfl

/-! ## Thread.raise -/

/-- Thread.raise keeps `x`. -/
@[simp] theorem Thread.raise_x (t : Thread) (f : Flags) : (t.raise f).x = t.x := by unfold Thread.raise; split <;> rfl
/-- Thread.raise keeps `p`. -/
@[simp] theorem Thread.raise_p (t : Thread) (f : Flags) : (t.raise f).p = t.p := by unfold Thread.raise; split <;> rfl
/-- Thread.raise keeps `pc`. -/
@[simp] theorem Thread.raise_pc (t : Thread) (f : Flags) : (t.raise f).pc = t.pc := by unfold Thread.raise; split <;> rfl
/-- Thread.raise keeps `status`. -/
@[simp] theorem Thread.raise_status (t : Thread) (f : Flags) : (t.raise f).status = t.status := by unfold Thread.raise; split <;> rfl
/-- Thread.raise keeps `estatus`. -/
@[simp] theorem Thread.raise_estatus (t : Thread) (f : Flags) : (t.raise f).estatus = t.estatus := by unfold Thread.raise; split <;> rfl
/-- Thread.raise keeps `epc`. -/
@[simp] theorem Thread.raise_epc (t : Thread) (f : Flags) : (t.raise f).epc = t.epc := by unfold Thread.raise; split <;> rfl
/-- Thread.raise keeps `tcause`. -/
@[simp] theorem Thread.raise_tcause (t : Thread) (f : Flags) : (t.raise f).tcause = t.tcause := by unfold Thread.raise; split <;> rfl
/-- Thread.raise keeps `tval`. -/
@[simp] theorem Thread.raise_tval (t : Thread) (f : Flags) : (t.raise f).tval = t.tval := by unfold Thread.raise; split <;> rfl
/-- Thread.raise keeps `tscratch`. -/
@[simp] theorem Thread.raise_tscratch (t : Thread) (f : Flags) : (t.raise f).tscratch = t.tscratch := by unfold Thread.raise; split <;> rfl
/-- Thread.raise keeps `stklim`. -/
@[simp] theorem Thread.raise_stklim (t : Thread) (f : Flags) : (t.raise f).stklim = t.stklim := by unfold Thread.raise; split <;> rfl
/-- Thread.raise keeps `ir`. -/
@[simp] theorem Thread.raise_ir (t : Thread) (f : Flags) : (t.raise f).ir = t.ir := by unfold Thread.raise; split <;> rfl
/-- Thread.raise keeps `pendX`. -/
@[simp] theorem Thread.raise_pendX (t : Thread) (f : Flags) : (t.raise f).pendX = t.pendX := by unfold Thread.raise; split <;> rfl
/-- Thread.raise keeps `pendP`. -/
@[simp] theorem Thread.raise_pendP (t : Thread) (f : Flags) : (t.raise f).pendP = t.pendP := by unfold Thread.raise; split <;> rfl
/-- Thread.raise keeps `run`. -/
@[simp] theorem Thread.raise_run (t : Thread) (f : Flags) : (t.raise f).run = t.run := by unfold Thread.raise; split <;> rfl
/-- Thread.raise keeps `arrived`. -/
@[simp] theorem Thread.raise_arrived (t : Thread) (f : Flags) : (t.raise f).arrived = t.arrived := by unfold Thread.raise; split <;> rfl
/-- Thread.raise keeps `group`. -/
@[simp] theorem Thread.raise_group (t : Thread) (f : Flags) : (t.raise f).group = t.group := by unfold Thread.raise; split <;> rfl
/-- Thread.raise keeps `idx`. -/
@[simp] theorem Thread.raise_idx (t : Thread) (f : Flags) : (t.raise f).idx = t.idx := by unfold Thread.raise; split <;> rfl
/-- Thread.raise keeps `prio`. -/
@[simp] theorem Thread.raise_prio (t : Thread) (f : Flags) : (t.raise f).prio = t.prio := by unfold Thread.raise; split <;> rfl
/-- Thread.raise keeps `waitCnt`. -/
@[simp] theorem Thread.raise_waitCnt (t : Thread) (f : Flags) : (t.raise f).waitCnt = t.waitCnt := by unfold Thread.raise; split <;> rfl
/-- Thread.raise keeps `nomad`. -/
@[simp] theorem Thread.raise_nomad (t : Thread) (f : Flags) : (t.raise f).nomad = t.nomad := by unfold Thread.raise; split <;> rfl
/-- Thread.raise keeps `home`. -/
@[simp] theorem Thread.raise_home (t : Thread) (f : Flags) : (t.raise f).home = t.home := by unfold Thread.raise; split <;> rfl
/-- Thread.raise keeps `ctx`. -/
@[simp] theorem Thread.raise_ctx (t : Thread) (f : Flags) : (t.raise f).ctx = t.ctx := by unfold Thread.raise; split <;> rfl
/-- Thread.raise keeps `held`. -/
@[simp] theorem Thread.raise_held (t : Thread) (f : Flags) : (t.raise f).held = t.held := by unfold Thread.raise; split <;> rfl
/-- Thread.raise keeps `heldMore`. -/
@[simp] theorem Thread.raise_heldMore (t : Thread) (f : Flags) : (t.raise f).heldMore = t.heldMore := by unfold Thread.raise; split <;> rfl
/-- Thread.raise keeps `wdPending`. -/
@[simp] theorem Thread.raise_wdPending (t : Thread) (f : Flags) : (t.raise f).wdPending = t.wdPending := by unfold Thread.raise; split <;> rfl
/-- Thread.raise keeps `bpPass`. -/
@[simp] theorem Thread.raise_bpPass (t : Thread) (f : Flags) : (t.raise f).bpPass = t.bpPass := by unfold Thread.raise; split <;> rfl
/-- Thread.raise keeps `pnDue`. -/
@[simp] theorem Thread.raise_pnDue (t : Thread) (f : Flags) : (t.raise f).pnDue = t.pnDue := by unfold Thread.raise; split <;> rfl
/-- Thread.raise keeps `stay`. -/
@[simp] theorem Thread.raise_stay (t : Thread) (f : Flags) : (t.raise f).stay = t.stay := by unfold Thread.raise; split <;> rfl
/-- Thread.raise keeps `skid`. -/
@[simp] theorem Thread.raise_skid (t : Thread) (f : Flags) : (t.raise f).skid = t.skid := by unfold Thread.raise; split <;> rfl
/-- Thread.raise keeps `tstop`. -/
@[simp] theorem Thread.raise_tstop (t : Thread) (f : Flags) : (t.raise f).tstop = t.tstop := by unfold Thread.raise; split <;> rfl
/-- Thread.raise keeps `lagging`. -/
@[simp] theorem Thread.raise_lagging (t : Thread) (f : Flags) : (t.raise f).lagging = t.lagging := by unfold Thread.raise; split <;> rfl
/-- Thread.raise keeps `stepped`. -/
@[simp] theorem Thread.raise_stepped (t : Thread) (f : Flags) : (t.raise f).stepped = t.stepped := by unfold Thread.raise; split <;> rfl
/-- Thread.raise keeps `digA`. -/
@[simp] theorem Thread.raise_digA (t : Thread) (f : Flags) : (t.raise f).digA = t.digA := by unfold Thread.raise; split <;> rfl
/-- Thread.raise keeps `digB`. -/
@[simp] theorem Thread.raise_digB (t : Thread) (f : Flags) : (t.raise f).digB = t.digB := by unfold Thread.raise; split <;> rfl
/-- Thread.raise keeps `digNext`. -/
@[simp] theorem Thread.raise_digNext (t : Thread) (f : Flags) : (t.raise f).digNext = t.digNext := by unfold Thread.raise; split <;> rfl
/-- Thread.raise keeps `watchDue`. -/
@[simp] theorem Thread.raise_watchDue (t : Thread) (f : Flags) : (t.raise f).watchDue = t.watchDue := by unfold Thread.raise; split <;> rfl
/-- Thread.raise keeps `lastRet`. -/
@[simp] theorem Thread.raise_lastRet (t : Thread) (f : Flags) : (t.raise f).lastRet = t.lastRet := by unfold Thread.raise; split <;> rfl
/-- Thread.raise keeps `dbgTrap`. -/
@[simp] theorem Thread.raise_dbgTrap (t : Thread) (f : Flags) : (t.raise f).dbgTrap = t.dbgTrap := by unfold Thread.raise; split <;> rfl
/-- Thread.raise keeps `flushing`. -/
@[simp] theorem Thread.raise_flushing (t : Thread) (f : Flags) : (t.raise f).flushing = t.flushing := by unfold Thread.raise; split <;> rfl
/-- Thread.raise keeps `readRec`. -/
@[simp] theorem Thread.raise_readRec (t : Thread) (f : Flags) : (t.raise f).readRec = t.readRec := by unfold Thread.raise; split <;> rfl
/-- Thread.raise keeps `tiles`. -/
@[simp] theorem Thread.raise_tiles (t : Thread) (f : Flags) : (t.raise f).tiles = t.tiles := by unfold Thread.raise; split <;> rfl
/-- Thread.raise keeps `engines`. -/
@[simp] theorem Thread.raise_engines (t : Thread) (f : Flags) : (t.raise f).engines = t.engines := by unfold Thread.raise; split <;> rfl
/-- Thread.raise keeps `heldAt`. -/
@[simp] theorem Thread.raise_heldAt (t : Thread) (f : Flags) : (t.raise f).heldAt = t.heldAt := by unfold Thread.raise; split <;> rfl

/-! ## Thread.dropPrefix -/

/-- Thread.dropPrefix keeps `x`. -/
@[simp] theorem Thread.dropPrefix_x (t : Thread) : t.dropPrefix.x = t.x := rfl
/-- Thread.dropPrefix keeps `p`. -/
@[simp] theorem Thread.dropPrefix_p (t : Thread) : t.dropPrefix.p = t.p := rfl
/-- Thread.dropPrefix keeps `pc`. -/
@[simp] theorem Thread.dropPrefix_pc (t : Thread) : t.dropPrefix.pc = t.pc := rfl
/-- `status` after Thread.dropPrefix. -/
@[simp] theorem Thread.dropPrefix_status (t : Thread) : t.dropPrefix.status = t.status &&& 0x00000000FFFFFFFB#64 := rfl
/-- Thread.dropPrefix keeps `estatus`. -/
@[simp] theorem Thread.dropPrefix_estatus (t : Thread) : t.dropPrefix.estatus = t.estatus := rfl
/-- Thread.dropPrefix keeps `epc`. -/
@[simp] theorem Thread.dropPrefix_epc (t : Thread) : t.dropPrefix.epc = t.epc := rfl
/-- Thread.dropPrefix keeps `tcause`. -/
@[simp] theorem Thread.dropPrefix_tcause (t : Thread) : t.dropPrefix.tcause = t.tcause := rfl
/-- Thread.dropPrefix keeps `tval`. -/
@[simp] theorem Thread.dropPrefix_tval (t : Thread) : t.dropPrefix.tval = t.tval := rfl
/-- Thread.dropPrefix keeps `tscratch`. -/
@[simp] theorem Thread.dropPrefix_tscratch (t : Thread) : t.dropPrefix.tscratch = t.tscratch := rfl
/-- Thread.dropPrefix keeps `stklim`. -/
@[simp] theorem Thread.dropPrefix_stklim (t : Thread) : t.dropPrefix.stklim = t.stklim := rfl
/-- Thread.dropPrefix keeps `fflags`. -/
@[simp] theorem Thread.dropPrefix_fflags (t : Thread) : t.dropPrefix.fflags = t.fflags := rfl
/-- Thread.dropPrefix keeps `ir`. -/
@[simp] theorem Thread.dropPrefix_ir (t : Thread) : t.dropPrefix.ir = t.ir := rfl
/-- Thread.dropPrefix keeps `pendX`. -/
@[simp] theorem Thread.dropPrefix_pendX (t : Thread) : t.dropPrefix.pendX = t.pendX := rfl
/-- Thread.dropPrefix keeps `pendP`. -/
@[simp] theorem Thread.dropPrefix_pendP (t : Thread) : t.dropPrefix.pendP = t.pendP := rfl
/-- Thread.dropPrefix keeps `run`. -/
@[simp] theorem Thread.dropPrefix_run (t : Thread) : t.dropPrefix.run = t.run := rfl
/-- Thread.dropPrefix keeps `arrived`. -/
@[simp] theorem Thread.dropPrefix_arrived (t : Thread) : t.dropPrefix.arrived = t.arrived := rfl
/-- Thread.dropPrefix keeps `group`. -/
@[simp] theorem Thread.dropPrefix_group (t : Thread) : t.dropPrefix.group = t.group := rfl
/-- Thread.dropPrefix keeps `idx`. -/
@[simp] theorem Thread.dropPrefix_idx (t : Thread) : t.dropPrefix.idx = t.idx := rfl
/-- Thread.dropPrefix keeps `prio`. -/
@[simp] theorem Thread.dropPrefix_prio (t : Thread) : t.dropPrefix.prio = t.prio := rfl
/-- Thread.dropPrefix keeps `waitCnt`. -/
@[simp] theorem Thread.dropPrefix_waitCnt (t : Thread) : t.dropPrefix.waitCnt = t.waitCnt := rfl
/-- Thread.dropPrefix keeps `nomad`. -/
@[simp] theorem Thread.dropPrefix_nomad (t : Thread) : t.dropPrefix.nomad = t.nomad := rfl
/-- Thread.dropPrefix keeps `home`. -/
@[simp] theorem Thread.dropPrefix_home (t : Thread) : t.dropPrefix.home = t.home := rfl
/-- Thread.dropPrefix keeps `ctx`. -/
@[simp] theorem Thread.dropPrefix_ctx (t : Thread) : t.dropPrefix.ctx = t.ctx := rfl
/-- Thread.dropPrefix keeps `held`. -/
@[simp] theorem Thread.dropPrefix_held (t : Thread) : t.dropPrefix.held = t.held := rfl
/-- Thread.dropPrefix keeps `heldMore`. -/
@[simp] theorem Thread.dropPrefix_heldMore (t : Thread) : t.dropPrefix.heldMore = t.heldMore := rfl
/-- Thread.dropPrefix keeps `wdPending`. -/
@[simp] theorem Thread.dropPrefix_wdPending (t : Thread) : t.dropPrefix.wdPending = t.wdPending := rfl
/-- Thread.dropPrefix keeps `bpPass`. -/
@[simp] theorem Thread.dropPrefix_bpPass (t : Thread) : t.dropPrefix.bpPass = t.bpPass := rfl
/-- Thread.dropPrefix keeps `pnDue`. -/
@[simp] theorem Thread.dropPrefix_pnDue (t : Thread) : t.dropPrefix.pnDue = t.pnDue := rfl
/-- Thread.dropPrefix keeps `stay`. -/
@[simp] theorem Thread.dropPrefix_stay (t : Thread) : t.dropPrefix.stay = t.stay := rfl
/-- Thread.dropPrefix keeps `skid`. -/
@[simp] theorem Thread.dropPrefix_skid (t : Thread) : t.dropPrefix.skid = t.skid := rfl
/-- Thread.dropPrefix keeps `tstop`. -/
@[simp] theorem Thread.dropPrefix_tstop (t : Thread) : t.dropPrefix.tstop = t.tstop := rfl
/-- Thread.dropPrefix keeps `lagging`. -/
@[simp] theorem Thread.dropPrefix_lagging (t : Thread) : t.dropPrefix.lagging = t.lagging := rfl
/-- Thread.dropPrefix keeps `stepped`. -/
@[simp] theorem Thread.dropPrefix_stepped (t : Thread) : t.dropPrefix.stepped = t.stepped := rfl
/-- Thread.dropPrefix keeps `digA`. -/
@[simp] theorem Thread.dropPrefix_digA (t : Thread) : t.dropPrefix.digA = t.digA := rfl
/-- Thread.dropPrefix keeps `digB`. -/
@[simp] theorem Thread.dropPrefix_digB (t : Thread) : t.dropPrefix.digB = t.digB := rfl
/-- Thread.dropPrefix keeps `digNext`. -/
@[simp] theorem Thread.dropPrefix_digNext (t : Thread) : t.dropPrefix.digNext = t.digNext := rfl
/-- Thread.dropPrefix keeps `watchDue`. -/
@[simp] theorem Thread.dropPrefix_watchDue (t : Thread) : t.dropPrefix.watchDue = t.watchDue := rfl
/-- Thread.dropPrefix keeps `lastRet`. -/
@[simp] theorem Thread.dropPrefix_lastRet (t : Thread) : t.dropPrefix.lastRet = t.lastRet := rfl
/-- Thread.dropPrefix keeps `dbgTrap`. -/
@[simp] theorem Thread.dropPrefix_dbgTrap (t : Thread) : t.dropPrefix.dbgTrap = t.dbgTrap := rfl
/-- Thread.dropPrefix keeps `flushing`. -/
@[simp] theorem Thread.dropPrefix_flushing (t : Thread) : t.dropPrefix.flushing = t.flushing := rfl
/-- Thread.dropPrefix keeps `readRec`. -/
@[simp] theorem Thread.dropPrefix_readRec (t : Thread) : t.dropPrefix.readRec = t.readRec := rfl
/-- Thread.dropPrefix keeps `tiles`. -/
@[simp] theorem Thread.dropPrefix_tiles (t : Thread) : t.dropPrefix.tiles = t.tiles := rfl
/-- Thread.dropPrefix keeps `engines`. -/
@[simp] theorem Thread.dropPrefix_engines (t : Thread) : t.dropPrefix.engines = t.engines := rfl
/-- Thread.dropPrefix keeps `heldAt`. -/
@[simp] theorem Thread.dropPrefix_heldAt (t : Thread) : t.dropPrefix.heldAt = t.heldAt := rfl

/-! ## Thread.retired -/

/-- Thread.retired keeps `x`. -/
@[simp] theorem Thread.retired_x (t : Thread) (n : Nat) (now : Word) : (t.retired n now).x = t.x := rfl
/-- Thread.retired keeps `p`. -/
@[simp] theorem Thread.retired_p (t : Thread) (n : Nat) (now : Word) : (t.retired n now).p = t.p := rfl
/-- `pc` after Thread.retired. -/
@[simp] theorem Thread.retired_pc (t : Thread) (n : Nat) (now : Word) : (t.retired n now).pc = t.pc + BitVec.ofNat 64 n := rfl
/-- `status` after Thread.retired. -/
@[simp] theorem Thread.retired_status (t : Thread) (n : Nat) (now : Word) : (t.retired n now).status = t.status &&& 0x00000000FFFFFFFB#64 := rfl
/-- Thread.retired keeps `estatus`. -/
@[simp] theorem Thread.retired_estatus (t : Thread) (n : Nat) (now : Word) : (t.retired n now).estatus = t.estatus := rfl
/-- Thread.retired keeps `epc`. -/
@[simp] theorem Thread.retired_epc (t : Thread) (n : Nat) (now : Word) : (t.retired n now).epc = t.epc := rfl
/-- Thread.retired keeps `tcause`. -/
@[simp] theorem Thread.retired_tcause (t : Thread) (n : Nat) (now : Word) : (t.retired n now).tcause = t.tcause := rfl
/-- Thread.retired keeps `tval`. -/
@[simp] theorem Thread.retired_tval (t : Thread) (n : Nat) (now : Word) : (t.retired n now).tval = t.tval := rfl
/-- Thread.retired keeps `tscratch`. -/
@[simp] theorem Thread.retired_tscratch (t : Thread) (n : Nat) (now : Word) : (t.retired n now).tscratch = t.tscratch := rfl
/-- Thread.retired keeps `stklim`. -/
@[simp] theorem Thread.retired_stklim (t : Thread) (n : Nat) (now : Word) : (t.retired n now).stklim = t.stklim := rfl
/-- Thread.retired keeps `fflags`. -/
@[simp] theorem Thread.retired_fflags (t : Thread) (n : Nat) (now : Word) : (t.retired n now).fflags = t.fflags := rfl
/-- Thread.retired keeps `ir`. -/
@[simp] theorem Thread.retired_ir (t : Thread) (n : Nat) (now : Word) : (t.retired n now).ir = t.ir := rfl
/-- Thread.retired keeps `pendX`. -/
@[simp] theorem Thread.retired_pendX (t : Thread) (n : Nat) (now : Word) : (t.retired n now).pendX = t.pendX := rfl
/-- Thread.retired keeps `pendP`. -/
@[simp] theorem Thread.retired_pendP (t : Thread) (n : Nat) (now : Word) : (t.retired n now).pendP = t.pendP := rfl
/-- Thread.retired keeps `run`. -/
@[simp] theorem Thread.retired_run (t : Thread) (n : Nat) (now : Word) : (t.retired n now).run = t.run := rfl
/-- `arrived` after Thread.retired. -/
@[simp] theorem Thread.retired_arrived (t : Thread) (n : Nat) (now : Word) : (t.retired n now).arrived = none := rfl
/-- Thread.retired keeps `group`. -/
@[simp] theorem Thread.retired_group (t : Thread) (n : Nat) (now : Word) : (t.retired n now).group = t.group := rfl
/-- Thread.retired keeps `idx`. -/
@[simp] theorem Thread.retired_idx (t : Thread) (n : Nat) (now : Word) : (t.retired n now).idx = t.idx := rfl
/-- Thread.retired keeps `prio`. -/
@[simp] theorem Thread.retired_prio (t : Thread) (n : Nat) (now : Word) : (t.retired n now).prio = t.prio := rfl
/-- `waitCnt` after Thread.retired. -/
@[simp] theorem Thread.retired_waitCnt (t : Thread) (n : Nat) (now : Word) : (t.retired n now).waitCnt = 0 := rfl
/-- Thread.retired keeps `nomad`. -/
@[simp] theorem Thread.retired_nomad (t : Thread) (n : Nat) (now : Word) : (t.retired n now).nomad = t.nomad := rfl
/-- Thread.retired keeps `home`. -/
@[simp] theorem Thread.retired_home (t : Thread) (n : Nat) (now : Word) : (t.retired n now).home = t.home := rfl
/-- Thread.retired keeps `ctx`. -/
@[simp] theorem Thread.retired_ctx (t : Thread) (n : Nat) (now : Word) : (t.retired n now).ctx = t.ctx := rfl
/-- Thread.retired keeps `held`. -/
@[simp] theorem Thread.retired_held (t : Thread) (n : Nat) (now : Word) : (t.retired n now).held = t.held := rfl
/-- Thread.retired keeps `heldMore`. -/
@[simp] theorem Thread.retired_heldMore (t : Thread) (n : Nat) (now : Word) : (t.retired n now).heldMore = t.heldMore := rfl
/-- Thread.retired keeps `wdPending`. -/
@[simp] theorem Thread.retired_wdPending (t : Thread) (n : Nat) (now : Word) : (t.retired n now).wdPending = t.wdPending := rfl
/-- Thread.retired keeps `pnDue`. -/
@[simp] theorem Thread.retired_pnDue (t : Thread) (n : Nat) (now : Word) : (t.retired n now).pnDue = t.pnDue := rfl
/-- `stay` after Thread.retired. -/
@[simp] theorem Thread.retired_stay (t : Thread) (n : Nat) (now : Word) : (t.retired n now).stay = false := rfl
/-- `skid` after Thread.retired. -/
@[simp] theorem Thread.retired_skid (t : Thread) (n : Nat) (now : Word) : (t.retired n now).skid = if t.lagging then t.skid + 1 else t.skid := rfl
/-- Thread.retired keeps `tstop`. -/
@[simp] theorem Thread.retired_tstop (t : Thread) (n : Nat) (now : Word) : (t.retired n now).tstop = t.tstop := rfl
/-- Thread.retired keeps `lagging`. -/
@[simp] theorem Thread.retired_lagging (t : Thread) (n : Nat) (now : Word) : (t.retired n now).lagging = t.lagging := rfl
/-- `stepped` after Thread.retired. -/
@[simp] theorem Thread.retired_stepped (t : Thread) (n : Nat) (now : Word) : (t.retired n now).stepped = true := rfl
/-- Thread.retired keeps `digA`. -/
@[simp] theorem Thread.retired_digA (t : Thread) (n : Nat) (now : Word) : (t.retired n now).digA = t.digA := rfl
/-- Thread.retired keeps `digB`. -/
@[simp] theorem Thread.retired_digB (t : Thread) (n : Nat) (now : Word) : (t.retired n now).digB = t.digB := rfl
/-- Thread.retired keeps `digNext`. -/
@[simp] theorem Thread.retired_digNext (t : Thread) (n : Nat) (now : Word) : (t.retired n now).digNext = t.digNext := rfl
/-- Thread.retired keeps `watchDue`. -/
@[simp] theorem Thread.retired_watchDue (t : Thread) (n : Nat) (now : Word) : (t.retired n now).watchDue = t.watchDue := rfl
/-- `lastRet` after Thread.retired. -/
@[simp] theorem Thread.retired_lastRet (t : Thread) (n : Nat) (now : Word) : (t.retired n now).lastRet = now := rfl
/-- Thread.retired keeps `dbgTrap`. -/
@[simp] theorem Thread.retired_dbgTrap (t : Thread) (n : Nat) (now : Word) : (t.retired n now).dbgTrap = t.dbgTrap := rfl
/-- `flushing` after Thread.retired. -/
@[simp] theorem Thread.retired_flushing (t : Thread) (n : Nat) (now : Word) : (t.retired n now).flushing = none := rfl
/-- `readRec` after Thread.retired. -/
@[simp] theorem Thread.retired_readRec (t : Thread) (n : Nat) (now : Word) : (t.retired n now).readRec = none := rfl
/-- Thread.retired keeps `tiles`. -/
@[simp] theorem Thread.retired_tiles (t : Thread) (n : Nat) (now : Word) : (t.retired n now).tiles = t.tiles := rfl
/-- Thread.retired keeps `engines`. -/
@[simp] theorem Thread.retired_engines (t : Thread) (n : Nat) (now : Word) : (t.retired n now).engines = t.engines := rfl
/-- Thread.retired keeps `heldAt`. -/
@[simp] theorem Thread.retired_heldAt (t : Thread) (n : Nat) (now : Word) : (t.retired n now).heldAt = t.heldAt := rfl

end Sys2Proof.Machine
end

