-- ==== Sys2Proof/Laws/Registers.lean ====
section
/-! SUPPORT. Laws of the accessors: cores and threads by their place, x registers and predicates, and the shapes that the meanings
share (decode checks, retirement). -/
namespace Sys2Proof.Machine

/-! ## Cores and threads -/

/-- A core that was put is read back. -/
@[simp] theorem State.core_setCore_same (s : State) (p : Nat) (c : Core) : (s.setCore p c).core p = c := by simp [State.core]
/-- Another core is not affected. -/
theorem State.core_setCore_other (s : State) (p q : Nat) (c : Core) (h : q ≠ p) : (s.setCore p c).core q = s.core q := by
  simp [State.core, tblGetD_tblSet_other _ _ _ _ _ h]
/-- A core that was changed is read back. -/
@[simp] theorem State.core_modCore_same (s : State) (p : Nat) (f : Core → Core) : (s.modCore p f).core p = f (s.core p) := by
  simp [State.modCore]
/-- Another core is not affected by a change. -/
theorem State.core_modCore_other (s : State) (p q : Nat) (f : Core → Core) (h : q ≠ p) : (s.modCore p f).core q = s.core q := by
  simp [State.modCore, State.core_setCore_other _ _ _ _ h]
/-- The core of a thread that was put. -/
@[simp] theorem State.core_setThread_same (s : State) (p slot : Nat) (t : Thread) :
    (s.setThread p slot t).core p = (s.core p).setThread slot t := by simp [State.setThread]
/-- A thread that was put is read back. -/
@[simp] theorem State.thread?_setThread_same (s : State) (p slot : Nat) (t : Thread) : (s.setThread p slot t).thread? p slot = some t := by
  simp [State.thread?]
/-- A thread of another slot of the core is not affected. -/
theorem State.thread?_setThread_slot (s : State) (p slot k : Nat) (t : Thread) (h : k ≠ slot) :
    (s.setThread p slot t).thread? p k = s.thread? p k := by
  simp [State.thread?, tblGet?_tblSet_other _ _ _ _ h]
/-- A thread of another core is not affected. -/
theorem State.thread?_setThread_core (s : State) (p slot q k : Nat) (t : Thread) (h : q ≠ p) :
    (s.setThread p slot t).thread? q k = s.thread? q k := by
  simp [State.thread?, State.setThread, State.core_modCore_other _ _ _ _ h]
/-- The issuing thread that was put is read back. -/
@[simp] theorem State.cur?_setCur (s : State) (t : Thread) : (s.setCur t).cur? = some t := by
  simp [State.cur?, State.setCur]
/-- The issuing thread after it retires. -/
@[simp] theorem State.cur?_retire (s : State) (t : Thread) (n : Nat) : (s.retire t n).cur? = some (t.retired n s.time) := by
  simp [State.retire]
/-- Another thread of the core after the issuing one retires. -/
theorem State.thread?_retire_slot (s : State) (t : Thread) (n k : Nat) (h : k ≠ s.slot) : (s.retire t n).thread? s.pos k = s.thread? s.pos k := by
  simp [State.retire, State.setCur, State.thread?_setThread_slot _ _ _ _ _ h]
/-- Another core after a thread retires. -/
theorem State.core_retire_other (s : State) (t : Thread) (n q : Nat) (h : q ≠ s.pos) : (s.retire t n).core q = s.core q := by
  simp [State.retire, State.setCur, State.setThread, State.core_modCore_other _ _ _ _ h]
/-- The issuing core after its thread retires. -/
@[simp] theorem State.core_retire_same (s : State) (t : Thread) (n : Nat) :
    (s.retire t n).core s.pos = (s.core s.pos).setThread s.slot (t.retired n s.time) := by
  simp [State.retire, State.setCur]

/-! ## Registers -/

/-- A register's element by its number. -/
theorem get_regIx (v : Vector Word 32) (r : Reg) : v.get (regIx r) = v[r.toNat]'r.isLt := rfl
/-- An element after a register's is set. -/
theorem get_set_regIx (v : Vector Word 32) (r q : Reg) (w : Word) :
    (v.set (regIx r) w).get (regIx q) = if r = q then w else v.get (regIx q) := by
  rw [get_regIx, get_regIx]
  have : (r = q) ↔ (r.toNat = q.toNat) := ⟨fun e => by rw [e], fun e => BitVec.eq_of_toNat_eq e⟩
  simp [Vector.getElem_set, this, regIx]
/-- x0 reads zero. -/
@[simp] theorem Thread.rx_zero (t : Thread) : t.rx 0#5 = 0#64 := rfl
/-- A write to x0 is discarded. -/
@[simp] theorem Thread.wx_zero (t : Thread) (v : Word) : t.wx 0#5 v = t := rfl
/-- A register that was written reads as written. -/
theorem Thread.rx_wx_same (t : Thread) (r : Reg) (v : Word) (h : r ≠ 0#5) : (t.wx r v).rx r = v := by
  unfold Thread.rx Thread.wx
  rw [if_neg h, if_neg h]
  simp only [get_set_regIx, if_true]
/-- Another register is not affected by a write. -/
theorem Thread.rx_wx_other (t : Thread) (r q : Reg) (v : Word) (h : q ≠ r) : (t.wx r v).rx q = t.rx q := by
  unfold Thread.rx Thread.wx
  by_cases hr : r = 0#5
  · rw [if_pos hr]
  · by_cases hq : q = 0#5
    · rw [if_pos hq, if_pos hq]
    · rw [if_neg hr, if_neg hq, if_neg hq]
      simp only [get_set_regIx, if_neg (Ne.symm h)]
/-- Retirement writes no x register. -/
@[simp] theorem Thread.rx_retired (t : Thread) (n : Nat) (now : Word) (r : Reg) : (t.retired n now).rx r = t.rx r := rfl
/-- Raising flags writes no x register. -/
@[simp] theorem Thread.rx_raise (t : Thread) (f : Flags) (r : Reg) : (t.raise f).rx r = t.rx r := by simp [Thread.rx]
/-- p0 is true. -/
@[simp] theorem Thread.rp_zero (t : Thread) : t.rp 0#3 = true := rfl
/-- A write to p0 is discarded. -/
@[simp] theorem Thread.wp_zero (t : Thread) (b : Bool) : t.wp 0#3 b = t := rfl
/-- A predicate that was written reads as written. -/
theorem Thread.rp_wp_same (t : Thread) (k : Pred) (b : Bool) (h : k ≠ 0#3) : (t.wp k b).rp k = b := by
  unfold Thread.rp Thread.wp
  rw [if_neg h, if_neg h]
  obtain ⟨n, hn⟩ : ∃ n, n = k.toNat := ⟨_, rfl⟩
  have hlt : n < 8 := by rw [hn]; exact k.isLt
  have h1 : (1#8 <<< k.toNat).getLsbD k.toNat = true := by
    rw [← hn]; interval_cases n <;> decide
  cases b <;> simp [h1, BitVec.getLsbD_or, BitVec.getLsbD_and, BitVec.getLsbD_not]
/-- Another predicate is not affected by a write. -/
theorem Thread.rp_wp_other (t : Thread) (k q : Pred) (b : Bool) (h : q ≠ k) : (t.wp k b).rp q = t.rp q := by
  unfold Thread.rp Thread.wp
  by_cases hk : k = 0#3
  · rw [if_pos hk]
  · by_cases hq : q = 0#3
    · rw [if_pos hq, if_pos hq]
    · rw [if_neg hk, if_neg hq, if_neg hq]
      have hne : k.toNat ≠ q.toNat := fun e => h (BitVec.eq_of_toNat_eq e.symm)
      have hl' : q.toNat < 8 := q.isLt
      cases b <;> simp [hl'] <;> omega
/-- Retirement writes no predicate. -/
@[simp] theorem Thread.rp_retired (t : Thread) (n : Nat) (now : Word) (k : Pred) : (t.retired n now).rp k = t.rp k := rfl

/-! ## The shapes of meanings -/

/-- The decode checks of `plain` pass: the body runs. -/
theorem plain_pass {rs : List Reg} {s : State} {t : Thread} {k : Thread → Out} (hc : s.cur? = some t) (hn : badNomad t rs = false)
    (hp : t.pp = false) (hx : t.pends rs = false) : plain rs s k = k t := by
  simp [plain, Machine.withThread, hc, hn, hp, hx]
/-- An instruction on registers alone retires with its effect. -/
theorem intOp_pass {rs : List Reg} {s : State} {t : Thread} {f : Thread → Thread} (hc : s.cur? = some t) (hn : badNomad t rs = false)
    (hp : t.pp = false) (hx : t.pends rs = false) : intOp rs f s = .next (s.retire (f t)) := by
  simp [intOp, plain_pass hc hn hp hx]
/-- A pending prefix of a form that takes none is prefix misuse. -/
theorem plain_prefix {rs : List Reg} {s : State} {t : Thread} {k : Thread → Out} (hc : s.cur? = some t)
    (hp : t.pp = true) : plain rs s k = .next (s.trapBits 0x14#8) := by simp [plain, Machine.withThread, hc, hp]
/-- A pending register holds the instruction back. -/
theorem plain_pending {rs : List Reg} {s : State} {t : Thread} {k : Thread → Out} (hc : s.cur? = some t) (hn : badNomad t rs = false)
    (hp : t.pp = false) (hx : t.pends rs = true) : plain rs s k = .next s := by simp [plain, Machine.withThread, hc, hn, hp, hx, stall]
/-- A nomad thread that names a high register raises illegal-instruction with DETAIL 4. -/
theorem plain_nomad {rs : List Reg} {s : State} {t : Thread} {k : Thread → Out} (hc : s.cur? = some t) (hp : t.pp = false)
    (hn : badNomad t rs = true) : plain rs s k = .next (s.illegal 4#4) := by simp [plain, Machine.withThread, hc, hn, hp]
/-- The checks of `withPfx` pass without a prefix. -/
theorem withPfx_none {rs : List Reg} {ok : BitVec 32 → Bool} {s : State} {t : Thread} {k : Thread → BitVec 32 → Out} (hc : s.cur? = some t)
    (hn : badNomad t rs = false) (hp : t.prefix? = none) (hx : t.pends rs = false) : withPfx rs ok s k = k t 0#32 := by
  simp [withPfx, Machine.withThread, hc, hn, hp, hx]
/-- The checks of `withPfx` pass with a prefix that the form accepts. -/
theorem withPfx_some {rs : List Reg} {ok : BitVec 32 → Bool} {s : State} {t : Thread} {w : BitVec 32} {k : Thread → BitVec 32 → Out}
    (hc : s.cur? = some t) (hn : badNomad t rs = false) (hp : t.prefix? = some w) (ho : ok w = true) (hx : t.pends rs = false) :
    withPfx rs ok s k = k t w := by simp [withPfx, Machine.withThread, hc, hn, hp, hx, ho]

end Sys2Proof.Machine
end

