-- ==== Sys2Proof/Laws/Memory.lean ====
section
/-! SUPPORT. Laws of the canonical form of memories: each shared operation keeps it, and what an operation on registers, groups,
counters or firmware fields alone leaves of memory. -/
namespace Sys2Proof.Claims
open Sys2Proof.Machine

/-! ## The form as a whole -/

/-- The form rests on four fields alone. -/
theorem MemoriesWf.of_eq {s u : State} (h : MemoriesWf s) (hm : u.mem = s.mem) (hh : u.host = s.host) (hc : u.cores = s.cores)
    (hl : u.launches = s.launches) : MemoriesWf u := by
  unfold MemoriesWf at *
  rw [hm, hh, hc, hl]; exact h
/-- A core that is read has its scratchpad in the form. -/
theorem MemoriesWf.core {s : State} (h : MemoriesWf s) (p : Nat) : Memory.wf (s.core p).sp = true := by
  unfold State.core tblGetD
  cases he : tblGet? s.cores p with
  | none => rfl
  | some c => exact h.2.2.1 (p, c) (mem_of_tblGet? he)
/-- Putting a core whose scratchpad has the form. -/
theorem MemoriesWf.setCore {s : State} (h : MemoriesWf s) (p : Nat) {c : Core} (hc : Memory.wf c.sp = true) : MemoriesWf (s.setCore p c) := by
  refine ⟨h.1, h.2.1, fun e he => ?_, h.2.2.2⟩
  rcases mem_tblSet he with rfl | he
  · exact hc
  · exact h.2.2.1 e he
/-- Changing a core by an operation that keeps the form of its scratchpad. -/
theorem MemoriesWf.modCore {s : State} (h : MemoriesWf s) (p : Nat) {f : Core → Core}
    (hf : ∀ c, Memory.wf c.sp = true → Memory.wf (f c).sp = true) : MemoriesWf (s.modCore p f) :=
  h.setCore p (hf _ (h.core p))
/-- Changing a core by an operation that leaves its scratchpad alone. -/
theorem MemoriesWf.modCore_sp {s : State} (h : MemoriesWf s) (p : Nat) {f : Core → Core} (hf : ∀ c, (f c).sp = c.sp) : MemoriesWf (s.modCore p f) :=
  h.modCore p fun c hc => by rw [hf c]; exact hc
/-- Changing every core by an operation that leaves the scratchpads alone. -/
theorem MemoriesWf.mapCores {s : State} (h : MemoriesWf s) {f : Nat → Core → Core} (hf : ∀ p c, (f p c).sp = c.sp) :
    MemoriesWf { s with cores := tblMap f s.cores } := by
  refine ⟨h.1, h.2.1, fun e he => ?_, h.2.2.2⟩
  obtain ⟨c, hc, hv⟩ := mem_tblMap he
  rw [hv, hf]; exact h.2.2.1 _ hc
/-- Putting a thread. -/
theorem MemoriesWf.setThread {s : State} (h : MemoriesWf s) (p k : Nat) (t : Thread) : MemoriesWf (s.setThread p k t) :=
  h.modCore_sp p fun _ => rfl
/-- Changing a thread. -/
theorem MemoriesWf.modThread {s : State} (h : MemoriesWf s) (p k : Nat) (f : Thread → Thread) : MemoriesWf (s.modThread p k f) := by
  unfold State.modThread
  split
  · exact h.setThread _ _ _
  · exact h
/-- Putting the issuing thread. -/
theorem MemoriesWf.setCur {s : State} (h : MemoriesWf s) (t : Thread) : MemoriesWf (s.setCur t) := h.setThread _ _ _
/-- Retiring the issuing thread. -/
theorem MemoriesWf.retire {s : State} (h : MemoriesWf s) (t : Thread) (n : Nat) : MemoriesWf (s.retire t n) := h.setCur _
/-- Changing a group. -/
theorem MemoriesWf.modGroup {s : State} (h : MemoriesWf s) (p gid : Nat) (f : Group → Group) : MemoriesWf (s.modGroup p gid f) :=
  h.modCore_sp p fun _ => rfl
/-- Changing a launch by an operation that leaves its saved cores alone. -/
theorem MemoriesWf.modLaunch {s : State} (h : MemoriesWf s) (lid : Nat) {f : Launch → Launch} (hf : ∀ l, (f l).image0 = l.image0) :
    MemoriesWf (s.modLaunch lid f) := by
  refine ⟨h.1, h.2.1, h.2.2.1, fun l hl e he => ?_⟩
  obtain ⟨l', hl', rfl⟩ := List.mem_map.1 hl
  refine h.2.2.2 l' hl' e ?_
  split at he
  · rwa [hf] at he
  · exact he
/-- Changing the firmware's state. -/
theorem MemoriesWf.modFw {s : State} (h : MemoriesWf s) (f : Firm → Firm) : MemoriesWf (s.modFw f) := h.of_eq rfl rfl rfl rfl
/-- Putting a node. -/
theorem MemoriesWf.setNode {s : State} (h : MemoriesWf s) (n : Nat) (v : Node) : MemoriesWf (s.setNode n v) := h.of_eq rfl rfl rfl rfl
/-- Taking a free value. -/
theorem MemoriesWf.free {s : State} (h : MemoriesWf s) : MemoriesWf s.free.2 := h.of_eq rfl rfl rfl rfl
/-- Changing a containment rectangle. -/
theorem MemoriesWf.modRect {s : State} (h : MemoriesWf s) (i : Nat) (f : Rect → Rect) : MemoriesWf (s.modRect i f) := h.modFw _
/-- Counting a dropped packet at a core. -/
theorem MemoriesWf.countDrop {s : State} (h : MemoriesWf s) (p : Nat) : MemoriesWf (s.countDrop p) := h.modRect _ _
/-- Counting a dropped packet elsewhere. -/
theorem MemoriesWf.countDrop0 {s : State} (h : MemoriesWf s) : MemoriesWf s.countDrop0 := h.modRect _ _
/-- Counting a dropped event. -/
theorem MemoriesWf.countEvDrop {s : State} (h : MemoriesWf s) (p : Nat) : MemoriesWf (s.countEvDrop p) := h.modRect _ _

/-! ## Scratchpads -/

/-- A store to a scratchpad keeps its form. -/
theorem spStorePhys_wf (c : Core) (phys : Nat) (bs : List Byte) (z : Bool) (h : Memory.wf c.sp = true) :
    Memory.wf (c.spStorePhys phys bs z).sp = true := memWrite_wf _ _ _ h
/-- The same by the offset. -/
theorem spStore_wf (c : Core) (off : Nat) (bs : List Byte) (h : Memory.wf c.sp = true) : Memory.wf (c.spStore off bs).sp = true :=
  memWrite_wf _ _ _ h
/-- A store to a core's scratchpad keeps the form of every memory. -/
theorem MemoriesWf.spStore {s : State} (h : MemoriesWf s) (p off : Nat) (bs : List Byte) : MemoriesWf (s.modCore p fun c => c.spStore off bs) :=
  h.modCore p fun c hc => spStore_wf c off bs hc
/-- Bytes stored outside a byte of a scratchpad leave it. -/
theorem spStorePhys_other (c : Core) (phys a : Nat) (bs : List Byte) (z : Bool) (h : Memory.wf c.sp = true) (ha : a < phys ∨ phys + bs.length ≤ a) :
    memGet (c.spStorePhys phys bs z).sp a = memGet c.sp a := memGet_memWrite_other _ _ _ _ h ha
/-- Bytes stored to a scratchpad are read back. -/
theorem spRead_spStore (c : Core) (off : Nat) (bs : List Byte) (h : Memory.wf c.sp = true) :
    (c.spStore off bs).spRead off bs.length = bs := memRead_memWrite _ _ _ h

/-! ## Memory space -/

/-- A write of module memory. -/
theorem MemoriesWf.memWrite {s : State} (h : MemoriesWf s) (a : Nat) (bs : List Byte) : MemoriesWf { s with mem := memWrite s.mem a bs } :=
  ⟨memWrite_wf _ _ _ h.1, h.2.1, h.2.2.1, h.2.2.2⟩
/-- A write of host memory. -/
theorem MemoriesWf.hostWrite {s : State} (h : MemoriesWf s) (a : Nat) (bs : List Byte) : MemoriesWf { s with host := Machine.memWrite s.host a bs } :=
  ⟨h.1, memWrite_wf _ _ _ h.2.1, h.2.2.1, h.2.2.2⟩
/-- What firmware's pages and stores change, and no more: the two memories, whose form they keep, their poison and upsets, cached
translations, the host's lines, and firmware's record of frames and pages. -/
structure Stores (s u : State) : Prop where
  eq : ∃ m k b hb up tl hl nf ff rs bk xi, u = { s with mem := m, host := k, bad := b, hostBad := hb, upsets := up, tlb := tl, hostLines := hl, fw :=
    { s.fw with nextFrame := nf, freeFrames := ff, resident := rs, backing := bk, xinv := xi } }
  mem : Memory.wf s.mem = true → Memory.wf u.mem = true
  host : Memory.wf s.host = true → Memory.wf u.host = true
/-- Nothing changes. -/
theorem Stores.refl (s : State) : Stores s s := ⟨⟨_, _, _, _, _, _, _, _, _, _, _, _, rfl⟩, id, id⟩
/-- One change after another. -/
theorem Stores.trans {s u v : State} (h : Stores s u) (k : Stores u v) : Stores s v := by
  obtain ⟨⟨_, _, _, _, _, _, _, _, _, _, _, _, rfl⟩, h1, h2⟩ := h
  obtain ⟨⟨_, _, _, _, _, _, _, _, _, _, _, _, rfl⟩, k1, k2⟩ := k
  exact ⟨⟨_, _, _, _, _, _, _, _, _, _, _, _, rfl⟩, k1 ∘ h1, k2 ∘ h2⟩
/-- The form of every memory stands. -/
theorem Stores.keeps {s u : State} (k : Stores s u) (h : MemoriesWf s) : MemoriesWf u := by
  obtain ⟨⟨_, _, _, _, _, _, _, _, _, _, _, _, e⟩, k1, k2⟩ := k
  exact ⟨k1 h.1, k2 h.2.1, by rw [e]; exact h.2.2.1, by rw [e]; exact h.2.2.2⟩
/-- No core changes. -/
theorem Stores.cores {s u : State} (k : Stores s u) : u.cores = s.cores := by obtain ⟨⟨_, _, _, _, _, _, _, _, _, _, _, _, rfl⟩, _, _⟩ := k; rfl
/-- Putting bytes. -/
theorem putAt_stores (bs : List Byte) : ∀ (s : State) (w t : Option (Bool × Nat)) (off : Nat), Stores s (s.putAt w t off bs) := by
  induction bs with
  | nil => intro s w t off; exact Stores.refl s
  | cons b bs ih =>
    intro s w t off
    unfold State.putAt
    dsimp only
    generalize (if off % 128 = 0 then _ else t) = t'
    generalize (if off % 65536 = 0 then s.walk off else w) = w'
    refine Stores.trans ?_ (ih _ w' t' (off + 1))
    rcases t' with _ | ⟨_ | _, a⟩
    · exact Stores.refl s
    · exact ⟨⟨_, _, _, _, _, _, _, _, _, _, _, _, rfl⟩, memSet_wf _ _ _, id⟩
    · exact ⟨⟨_, _, _, _, _, _, _, _, _, _, _, _, rfl⟩, id, memSet_wf _ _ _⟩
/-- A store to memory space. -/
theorem memStore_stores (s : State) (off : Nat) (bs : List Byte) (z : Bool) : Stores s (s.memStore off bs z) :=
  (putAt_stores bs s (s.walk off) (s.xlate off) off).trans ⟨⟨_, _, _, _, _, _, _, _, _, _, _, _, rfl⟩, id, id⟩
/-- A store to memory space keeps the form. -/
theorem MemoriesWf.memStore {s : State} (h : MemoriesWf s) (off : Nat) (bs : List Byte) (z : Bool) : MemoriesWf (s.memStore off bs z) :=
  (memStore_stores s off bs z).keeps h
/-- Writing an entry of a page table. -/
theorem putPte_stores (s : State) (pa e : Nat) : Stores s (s.putPte pa e) :=
  ⟨⟨_, _, _, _, _, _, _, _, _, _, _, _, rfl⟩, memWrite_wf _ _ _, id⟩
/-- Moving a page to the host's backing area. -/
theorem moveOut_stores (s : State) (page : Nat) : Stores s (s.moveOut page) := by
  unfold State.moveOut
  split
  · exact Stores.refl s
  · split
    · dsimp only
      generalize memRead s.mem _ 65536 = l
      exact ⟨⟨_, _, _, _, _, _, _, _, _, _, _, _, rfl⟩, memWrite_wf _ _ _, memWrite_wf _ _ _⟩
    · exact Stores.refl s
/-- Taking a frame. -/
theorem freshFrame_stores (s : State) : Stores s s.freshFrame.2 := by
  have hr : Stores s s.reclaim := by
    unfold State.reclaim
    split
    · exact Stores.refl s
    · split
      · exact moveOut_stores _ _
      · exact Stores.refl s
  unfold State.freshFrame
  dsimp only
  split
  · exact hr.trans ⟨⟨_, _, _, _, _, _, _, _, _, _, _, _, rfl⟩, Memory.filter_wf _ _, id⟩
  · exact hr.trans ⟨⟨_, _, _, _, _, _, _, _, _, _, _, _, rfl⟩, id, id⟩
/-- Making a table. -/
theorem nextTable_stores (s : State) (pa : Nat) : Stores s (s.nextTable pa).2 := by
  unfold State.nextTable
  dsimp only
  split
  · exact Stores.refl s
  · exact (freshFrame_stores s).trans (putPte_stores _ _ _)
/-- Putting a leaf. -/
theorem putLeaf_stores (s : State) (page e : Nat) : Stores s (s.putLeaf page e) :=
  ((nextTable_stores s _).trans (nextTable_stores _ _)).trans (putPte_stores _ _ _)
/-- Copying a page back. -/
theorem copyBack_stores (s : State) (page pa : Nat) : Stores s (s.copyBack page pa) := by
  unfold State.copyBack
  split
  · exact Stores.refl s
  · generalize memRead s.host _ 65536 = l
    exact ⟨⟨_, _, _, _, _, _, _, _, _, _, _, _, rfl⟩, memWrite_wf _ _ _, id⟩
/-- Making a page resident. -/
theorem mapPage_stores (s : State) (page : Nat) : Stores s (s.mapPage page) := by
  unfold State.mapPage
  split
  · exact Stores.refl s
  · dsimp only
    have h := (freshFrame_stores s).trans (putLeaf_stores s.freshFrame.2 page (s.freshFrame.1 + 3))
    generalize s.freshFrame.2.putLeaf page (s.freshFrame.1 + 3) = v at h ⊢
    refine Stores.trans (u := { v with fw := { v.fw with resident := v.fw.resident ++ [page] } }) (h.trans ?_) (copyBack_stores _ _ _)
    exact ⟨⟨_, _, _, _, _, _, _, _, _, _, _, _, rfl⟩, id, id⟩
/-- Making the pages of a range resident. -/
theorem mapRange_stores (s : State) (off n : Nat) : Stores s (s.mapRange off n) := by
  unfold State.mapRange
  generalize List.range _ = l
  induction l generalizing s with
  | nil => exact Stores.refl s
  | cons i l ih => exact (mapPage_stores s _).trans (ih _)
/-- Recalling a line. -/
theorem hostRecall_stores (s : State) (line : Nat) : Stores s (s.hostRecall line) := by
  unfold State.hostRecall
  split
  · exact Stores.refl s
  · exact ((memStore_stores s _ _ _).trans (memStore_stores _ _ _ _)).trans ⟨⟨_, _, _, _, _, _, _, _, _, _, _, _, rfl⟩, id, id⟩
/-- Recalling the lines of a range. -/
theorem recallRange_stores (s : State) (off n : Nat) : Stores s (s.recallRange off n) := by
  unfold State.recallRange
  split
  · exact Stores.refl s
  · generalize List.range _ = l
    induction l generalizing s with
    | nil => exact Stores.refl s
    | cons i l ih =>
      rw [List.foldl_cons]
      generalize hu : s.hostRecall (off / 128 + i) = u
      have h1 : Stores s u := by rw [← hu]; exact hostRecall_stores s _
      refine h1.trans ?_
      clear hu h1 ih
      induction l generalizing u with
      | nil => exact Stores.refl u
      | cons j l ih => exact (hostRecall_stores u _).trans (ih _)
/-- Writing host memory. -/
theorem hostWrite_stores (s : State) (a : Nat) (bs : List Byte) (z : Bool) : Stores s (s.hostWrite a bs z) :=
  ⟨⟨_, _, _, _, _, _, _, _, _, _, _, _, rfl⟩, id, memWrite_wf _ _ _⟩
/-- A store by firmware. -/
theorem fwStore_stores (s : State) (addr : Word) (bs : List Byte) : Stores s (s.fwStore addr bs) := by
  unfold State.fwStore
  split
  · exact hostWrite_stores _ _ _ _
  · exact ((mapRange_stores s _ _).trans (recallRange_stores _ _ _)).trans (memStore_stores _ _ _ _)
/-- Mapping a page keeps the form. -/
theorem MemoriesWf.mapPage {s : State} (h : MemoriesWf s) (page : Nat) : MemoriesWf (s.mapPage page) := (mapPage_stores s page).keeps h
/-- Mapping a page to host memory keeps the form. -/
theorem MemoriesWf.mapHostPage {s : State} (h : MemoriesWf s) (page frame : Nat) : MemoriesWf (s.mapHostPage page frame) := by
  have k := (putLeaf_stores s page (frame % 2 ^ 36 * 65536 + 0xB)).keeps h
  unfold State.mapHostPage
  split
  · exact h
  · dsimp only
    split
    · exact k
    · exact k.of_eq rfl rfl rfl rfl
/-- Pinning a page keeps the form. -/
theorem MemoriesWf.pinPage {s : State} (h : MemoriesWf s) (page : Nat) (pin : Bool) : MemoriesWf (s.pinPage page pin) := by
  unfold State.pinPage
  split
  · exact h
  · exact h.memWrite _ _
/-- Mapping a range keeps the form. -/
theorem MemoriesWf.mapRange {s : State} (h : MemoriesWf s) (off n : Nat) : MemoriesWf (s.mapRange off n) := (mapRange_stores s off n).keeps h
/-- A store by firmware keeps the form. -/
theorem MemoriesWf.fwStore {s : State} (h : MemoriesWf s) (addr : Word) (bs : List Byte) : MemoriesWf (s.fwStore addr bs) :=
  (fwStore_stores s addr bs).keeps h

/-! ## The trace encoder -/

/-- A word of the encoder keeps the form. -/
theorem MemoriesWf.traceWord {s : State} (h : MemoriesWf s) (p : Nat) (w : Word) : MemoriesWf (s.traceWord p w) :=
  (h.fwStore _ _).modCore_sp p fun _ => rfl
/-- Draining the buffer keeps the form. -/
theorem MemoriesWf.traceDrain {s : State} (h : MemoriesWf s) (p : Nat) : MemoriesWf (s.traceDrain p) := by
  unfold State.traceDrain
  split
  · exact h
  · refine MemoriesWf.modCore_sp ?_ p fun _ => rfl
    generalize (s.core p).trcBuf = l
    clear * - h
    induction l generalizing s with
    | nil => exact h
    | cons w l ih => exact ih (h.traceWord p w)
/-- Words put into the buffer keep the form. -/
theorem MemoriesWf.tracePut {s : State} (h : MemoriesWf s) (p : Nat) (ws : List Word) : MemoriesWf (s.tracePut p ws) := by
  unfold State.tracePut
  dsimp only
  split
  · exact h.modCore_sp _ fun _ => rfl
  · refine MemoriesWf.traceDrain ?_ p
    exact h.modCore_sp _ fun _ => rfl
/-- A record of the encoder keeps the form. -/
theorem MemoriesWf.traceRec {s : State} (h : MemoriesWf s) (p k ty : Nat) (pl : BitVec 40) (w : Option Word) :
    MemoriesWf (s.traceRec p k ty pl w) := by unfold State.traceRec; split; exacts [h.tracePut _ _, h]
/-- The record of a branch. -/
theorem MemoriesWf.traceBranch {s : State} (h : MemoriesWf s) (p k : Nat) (a : Word) : MemoriesWf (s.traceBranch p k a) := by
  unfold State.traceBranch
  dsimp only
  split
  · exact h
  · split
    · exact (h.traceRec _ _ _ _ _).modCore_sp p fun c => by split <;> rfl
    · exact h.traceRec _ _ _ _ _
/-- The record of a trap. -/
theorem MemoriesWf.traceTrap {s : State} (h : MemoriesWf s) (p k : Nat) (c : BitVec 8) (a : Word) : MemoriesWf (s.traceTrap p k c a) := by
  unfold State.traceTrap; split; exacts [h.traceRec _ _ _ _ _, h]
/-- The record of a `tret`. -/
theorem MemoriesWf.traceTret {s : State} (h : MemoriesWf s) (p k : Nat) : MemoriesWf (s.traceTret p k) := by
  unfold State.traceTret; split; exacts [h.traceRec _ _ _ _ _, h]
/-- The record of an event. -/
theorem MemoriesWf.traceEvent {s : State} (h : MemoriesWf s) (p k i st : Nat) : MemoriesWf (s.traceEvent p k i st) := by
  unfold State.traceEvent; split; exacts [h.traceRec _ _ _ _ _, h]
/-- The record of a watchpoint. -/
theorem MemoriesWf.traceWatch {s : State} (h : MemoriesWf s) (p k w n : Nat) (a : Word) : MemoriesWf (s.traceWatch p k w n a) := by
  unfold State.traceWatch; split; exacts [h.traceRec _ _ _ _ _, h]
/-- The record of a stop. -/
theorem MemoriesWf.traceStop {s : State} (h : MemoriesWf s) (p k n : Nat) : MemoriesWf (s.traceStop p k n) := by
  unfold State.traceStop; split; exacts [h.traceRec _ _ _ _ _, h]

/-! ## Traps and terminations -/

/-- Abandoning a slot's waits leaves the scratchpad. -/
theorem sp_foldl_dropWaits (l : List (Nat × Thread)) (f : Nat → Thread → Bool) : ∀ c : Core,
    (l.foldl (fun c st => if f st.1 st.2 then c.dropWaits st.1 else c) c).sp = c.sp := by
  induction l with
  | nil => intro c; rfl
  | cons x l ih =>
    intro c
    rw [List.foldl_cons, ih]
    split <;> rfl
/-- The beginning of a termination keeps the form. -/
theorem MemoriesWf.terminate {s : State} (h : MemoriesWf s) (hp gid cls : Nat) (code : BitVec 8) (th : Nat) (epc tval : Word) :
    MemoriesWf (s.terminate hp gid cls code th epc tval) := by
  unfold State.terminate
  dsimp only
  split
  · exact h
  · split
    · exact h
    · exact (h.modGroup _ _ _).mapCores fun p c =>
        sp_foldl_dropWaits c.threads (fun k t => t.group == gid && t.homePos p == hp && (tblGet? c.threads k).isSome) c
/-- Taking a trap keeps the form. -/
theorem MemoriesWf.takeTrap {s : State} (h : MemoriesWf s) (p k : Nat) (tr : Trap) : MemoriesWf (s.takeTrap p k tr) := by
  unfold State.takeTrap
  dsimp only
  split
  · exact h
  · split
    · exact h
    · split
      · exact (h.modGroup _ _ _).terminate _ _ _ _ _ _ _
      · split
        · exact h.terminate _ _ _ _ _ _ _
        · exact (h.setThread _ _ _).traceTrap _ _ _ _
/-- Taking a trap in the issuing thread keeps the form. -/
theorem MemoriesWf.trap {s : State} (h : MemoriesWf s) (tr : Trap) : MemoriesWf (s.trap tr) := h.takeTrap _ _ _
/-- An illegal instruction keeps the form. -/
theorem MemoriesWf.illegal {s : State} (h : MemoriesWf s) (d : BitVec 4) : MemoriesWf (s.illegal d) := by
  unfold State.illegal; split; exacts [h.trap _, h]
/-- A trap with the instruction's bits keeps the form. -/
theorem MemoriesWf.trapBits {s : State} (h : MemoriesWf s) (c : BitVec 8) : MemoriesWf (s.trapBits c) := by
  unfold State.trapBits; split; exacts [h.trap _, h]
/-- The shape of an instruction without a format keeps the form where its effect does. -/
theorem MemoriesWf.plain {s : State} (h : MemoriesWf s) {rs : List Reg} {k : Thread → Out} (hk : ∀ t u, k t = .next u → MemoriesWf u)
    {u : State} (e : Machine.plain rs s k = .next u) : MemoriesWf u := by
  unfold Machine.plain Machine.withThread at e
  split at e
  · dsimp only at e
    split at e
    · cases e; exact h.trapBits _
    · split at e
      · cases e; exact h.illegal _
      · split at e
        · cases e; exact h
        · exact hk _ _ e
  · cases e
/-- An instruction on registers alone keeps the form. -/
theorem MemoriesWf.intOp {s : State} (h : MemoriesWf s) {rs : List Reg} {f : Thread → Thread} {u : State}
    (e : Machine.intOp rs f s = .next u) : MemoriesWf u :=
  h.plain (fun t u ht => by cases ht; exact h.retire _ _) e

/-! ## What taking a trap does (R208) -/

/-- Taking a trap in a thread whose group handles it: the thread is put with its saved registers written, and the encoder may record it. -/
theorem takeTrap_enter {s : State} {p k : Nat} {t : Thread} {g : Group} (tr : Trap) (ht : s.thread? p k = some t)
    (hg : s.groupOf p t = some g) (hc : g.check = none) (hcode : tr.code ≠ 0x05#8) (hv : g.tvec ≠ 0#64) (hth : t.th = false) :
    s.takeTrap p k tr = (s.setThread p k { t with
      estatus := if tr.code = 0x14#8 then (s.core p).statusOf t &&& 0x00000000FFFFFFFB#64 else (s.core p).statusOf t,
      epc := t.pc,
      tcause := 0#50 ++ (if tr.async then BitVec.ofBool t.heldMore else 0#1) ++ BitVec.ofBool tr.async ++ tr.detail ++ tr.code,
      tval := tr.tval, status := (t.status &&& 0x00000000FFFFFFFB#64) ||| 1#64, pc := g.tvec, run := .running, lastRet := s.time,
      stepped := true, waitCnt := 0, skid := (if t.lagging then t.skid + 1 else t.skid), arrived := none, flushing := none, readRec := none,
      digNext := none, watchDue := [], wdPending := false, heldMore := if tr.async then false else t.heldMore }).traceTrap p k tr.code t.pc := by
  simp [State.takeTrap, ht, hg, hc, hcode, hv, hth]
/-- A trap that the group cannot handle, or a double fault, terminates it. -/
theorem takeTrap_terminates {s : State} {p k : Nat} {t : Thread} {g : Group} (tr : Trap) (ht : s.thread? p k = some t)
    (hg : s.groupOf p t = some g) (hc : g.check = none) (h : tr.code = 0x05#8 ∨ g.tvec = 0#64 ∨ t.th = true) :
    s.takeTrap p k tr = s.terminate (t.homePos p) g.gid (if tr.code = 0x05#8 then 1 else if t.th then 3 else 2) tr.code t.idx t.pc tr.tval := by
  simp [State.takeTrap, ht, hg, hc, h]

end Sys2Proof.Claims
end

