-- ==== Sys2Proof/Laws/Shapes.lean ====
section
/-! SUPPORT. Laws of the shapes that the meanings share (issue with a group, memory accesses, vector commands, branches, requests,
commands of the host): when each reaches its body, and that each keeps the form of every memory where its body does. -/
namespace Sys2Proof.Machine
open Sys2Proof.Claims

/-! ## When a shape reaches its body -/

/-- A thread with a group and a launch runs the body on them. -/
theorem withGroup_pass {s : State} {t : Thread} {g : Group} {l : Launch} {k : Group → Launch → Out} (hg : s.groupOf s.pos t = some g)
    (hl : s.launch? g.lid = some l) : withGroup s t k = k g l := by simp [withGroup, hg, hl]
/-- An access that passes its checks, migrates nowhere and may issue performs its body at the intermediate address. -/
theorem access_pass {s : State} {t : Thread} {a : Acc} {moves ret : Bool} {k : Group → Launch → Nat → Out} {g : Group} {l : Launch} {ia : Nat}
    (hc : checkAcc s s.pos t a = .ok ia) (hg : s.groupOf s.pos t = some g) (hl : s.launch? g.lid = some l)
    (hm : moves = true → s.migrateTo t l ia = none) (hi : s.mayIssue s.pos s.slot (s.route l.lid ia).ia ret = true) :
    access s t a moves ret k = k g l ia := by
  cases moves with
  | false => simp [access, hc, withGroup_pass hg hl, hi]
  | true => simp [access, hc, withGroup_pass hg hl, hi, hm rfl]
/-- An access that fails a check takes the trap that the check names. -/
theorem access_trap {s : State} {t : Thread} {a : Acc} {moves ret : Bool} {k : Group → Launch → Nat → Out} {tr : Trap}
    (hc : checkAcc s s.pos t a = .error tr) : access s t a moves ret k = .next (s.trap tr) := by simp [access, hc]
/-- A vector instruction of a thread with a context reaches its body. -/
theorem vecOp_pass {rs : List Reg} {ok : BitVec 32 → Bool} {s : State} {t : Thread} {g : Group} {l : Launch} {c : Bool}
    {k : Thread → Group → Launch → Bool → Out} (ht : s.cur? = some t) (hg : s.groupOf s.pos t = some g) (hl : s.launch? g.lid = some l)
    (hc : t.ctx = some c) (hp : (t.prefix?.any fun w => !ok w) = false) (hx : t.pends rs = false) : vecOp rs ok s k = k t g l c := by
  simp only [vecOp, Machine.withThread, ht, withGroup_pass hg hl, hc, hp, hx]; rfl
/-- A vector instruction of a thread without a context is illegal with DETAIL 3 (R331). -/
theorem vecOp_noContext {rs : List Reg} {ok : BitVec 32 → Bool} {s : State} {t : Thread} {g : Group} {l : Launch}
    {k : Thread → Group → Launch → Bool → Out} (ht : s.cur? = some t) (hg : s.groupOf s.pos t = some g) (hl : s.launch? g.lid = some l)
    (hc : t.ctx = none) : vecOp rs ok s k = .next (s.illegal 3#4) := by
  simp only [vecOp, Machine.withThread, ht, withGroup_pass hg hl, hc]
/-- With room in the command queue a command is placed and its instruction retires. -/
theorem enqueue_pass {s : State} {t : Thread} {c : Bool} {k : VCmd} {len : Nat} {rd : Option Reg} (h : (s.core s.pos).vecRoom c = true) :
    enqueue s t c k len rd = .next ((s.putCmd c k).retire
      (match rd with
       | some d => t.markX d
       | none => t) len) := by
  cases rd <;> simp [enqueue, h]
/-- A full command queue holds the instruction back (R167). -/
theorem enqueue_full {s : State} {t : Thread} {c : Bool} {k : VCmd} {len : Nat} {rd : Option Reg} (h : (s.core s.pos).vecRoom c = false) :
    enqueue s t c k len rd = .next s := by simp [enqueue, h, stall]
/-- A branch past its checks jumps when its condition holds and falls through else. -/
theorem branch_pass {rs : List Reg} {c : Thread → Bool} {i : BitVec 12} {s : State} {t : Thread} (ht : s.cur? = some t)
    (hn : badNomad t rs = false) (hp : t.pp = false) (hx : t.pends rs = false) :
    branch rs c i s = .next (if c t then s.jump t (t.pc + immB i) else s.retire t) := by simp [branch, plain_pass ht hn hp hx]
/-- A step-mode instruction in step mode reaches its body. -/
theorem stepOp_pass {rs : List Reg} {s : State} {t : Thread} {g : Group} {l : Launch} {k : Thread → Group → Launch → Out}
    (ht : s.cur? = some t) (hg : s.groupOf s.pos t = some g) (hl : s.launch? g.lid = some l) (hn : badNomad t rs = false)
    (hm : l.stepMode = true) (hp : t.pp = false) (hx : t.pends rs = false) : stepOp rs s k = k t g l := by
  simp [stepOp, Machine.withThread, ht, withGroup_pass hg hl, hn, hm, hp, hx]
/-- A step-mode instruction outside step mode traps with code 0x16 (R124). -/
theorem stepOp_outside {rs : List Reg} {s : State} {t : Thread} {g : Group} {l : Launch} {k : Thread → Group → Launch → Out}
    (ht : s.cur? = some t) (hg : s.groupOf s.pos t = some g) (hl : s.launch? g.lid = some l)
    (hm : l.stepMode = false) : stepOp rs s k = .next (s.trapBits 0x16#8) := by
  simp [stepOp, Machine.withThread, ht, withGroup_pass hg hl, hm]
/-- A wait whose accesses have been answered and which flushes nothing goes on. -/
theorem drain_pass {s : State} {t : Thread} {k : Out} : drain s t false none k = k := rfl
/-- A wait with an access outstanding holds its instruction back. -/
theorem drain_busy {s : State} {t : Thread} {f : Option (DruEntry → Bool)} {k : Out} : drain s t true f k = .next s := rfl
/-- A command of the host that may begin and passes its checks runs its body with itself taken from the queue. -/
theorem command_pass {q opc : Nat} {f : Nat → Bool} {s : State} {k : CmdRef → List Byte → State → State} {i : Nat} {e : List Byte}
    (hb : s.mayBegin q = some (i, e)) (ho : entOpc e = opc) (hf : f (entSub e) = true) (hx : s.badEntry q e = none) :
    command q opc f s k = .next (k (s.begin_ q i e).1 e (s.begin_ q i e).2) := by simp [command, hb, ho, hf, hx]
/-- Without a command that may begin nothing changes. -/
theorem command_none {q opc : Nat} {f : Nat → Bool} {s : State} {k : CmdRef → List Byte → State → State} (hb : s.mayBegin q = none) :
    command q opc f s k = .next s := by simp [command, hb]

/-! ## The form of memories -/

/-- A shape that runs on the issuing thread. -/
theorem withThread_keeps {s : State} {k : Thread → Out} (hk : ∀ t u, k t = .next u → MemoriesWf u) {u : State} (e : withThread s k = .next u) :
    MemoriesWf u := by
  unfold withThread at e
  split at e
  · exact hk _ _ e
  · cases e
/-- A shape that runs on a group and a launch. -/
theorem withGroup_keeps {s : State} {t : Thread} {k : Group → Launch → Out} (hk : ∀ g l u, k g l = .next u → MemoriesWf u) {u : State}
    (e : withGroup s t k = .next u) : MemoriesWf u := by
  unfold withGroup at e
  split at e
  · cases e
  · split at e
    · cases e
    · exact hk _ _ _ e
/-- An instruction that takes formats. -/
theorem withPfx_keeps {rs : List Reg} {ok : BitVec 32 → Bool} {s : State} {k : Thread → BitVec 32 → Out} (h : MemoriesWf s)
    (hk : ∀ t w u, k t w = .next u → MemoriesWf u) {u : State} (e : withPfx rs ok s k = .next u) : MemoriesWf u := by
  refine withThread_keeps (fun t u e => ?_) e
  split at e
  · cases e; exact h.trapBits _
  · split at e
    · cases e; exact h.illegal _
    · split at e
      · cases e; exact h
      · exact hk _ _ _ e
/-- The count of a packet sent keeps the form. -/
theorem countSent_keeps {s : State} (h : MemoriesWf s) (n : Nat) (v : BitVec 32) : MemoriesWf (s.countSent n v) := by
  unfold State.countSent
  split
  · exact h.modCore_sp _ fun _ => rfl
  · exact h.of_eq rfl rfl rfl rfl
/-- An injection changes the packets, the counts of the watershed and the starvation it ends: it keeps the form. -/
theorem inject_keeps {s : State} (h : MemoriesWf s) (k : Packet) (first : Bool) : MemoriesWf (s.inject k first) := by
  unfold State.inject
  extract_lets k u
  have hu : MemoriesWf u := by
    unfold u
    split
    · exact countSent_keeps h _ _
    · exact h
  exact hu.of_eq rfl rfl rfl rfl
/-- A request keeps the form. -/
theorem ask_keeps {s : State} (h : MemoriesWf s) (src : Nat) (a : Ask) : MemoriesWf (s.ask src a) := by
  unfold State.ask
  extract_lets nd ns seq nd' parked r w u
  have hu : MemoriesWf u := h.of_eq rfl rfl rfl rfl
  split
  · exact hu
  · exact inject_keeps hu _ _
/-- An access keeps the form where its body does. -/
theorem access_keeps {s : State} {t : Thread} {a : Acc} {moves ret : Bool} {k : Group → Launch → Nat → Out} (h : MemoriesWf s)
    (hk : ∀ g l ia u, k g l ia = .next u → MemoriesWf u) {u : State} (e : access s t a moves ret k = .next u) : MemoriesWf u := by
  unfold access at e
  split at e
  · cases e; exact h.trap _
  · refine withGroup_keeps (fun g l u e => ?_) e
    split at e
    · split at e
      · cases e
        exact MemoriesWf.setCur (ask_keeps h _ _) _
      · cases e; exact h
    · split at e
      · exact hk _ _ _ _ e
      · cases e; exact h
/-- A placed vector command keeps the form. -/
theorem putCmd_keeps {s : State} (h : MemoriesWf s) (c : Bool) (k : VCmd) : MemoriesWf (s.putCmd c k) := by
  refine MemoriesWf.of_eq (h.modCore_sp s.pos (f := fun x => x.modCtx c fun v => { v with queue := v.queue ++ [{ k with id := s.nextId }] })
    fun x => ?_) rfl rfl rfl rfl
  unfold Core.modCtx
  split <;> rfl
/-- An instruction that places a command keeps the form. -/
theorem enqueue_keeps {s : State} {t : Thread} {c : Bool} {k : VCmd} {len : Nat} {rd : Option Reg} (h : MemoriesWf s) {u : State}
    (e : enqueue s t c k len rd = .next u) : MemoriesWf u := by
  unfold enqueue at e
  split at e
  · cases e
    exact (putCmd_keeps h c k).retire _ _
  · cases e; exact h
/-- A vector instruction keeps the form where its body does. -/
theorem vecOp_keeps {rs : List Reg} {ok : BitVec 32 → Bool} {s : State} {k : Thread → Group → Launch → Bool → Out} (h : MemoriesWf s)
    (hk : ∀ t g l c u, k t g l c = .next u → MemoriesWf u) {u : State} (e : vecOp rs ok s k = .next u) : MemoriesWf u := by
  refine withThread_keeps (fun t u e => ?_) e
  refine withGroup_keeps (fun g l u e => ?_) e
  split at e
  · cases e; exact h.illegal _
  · split at e
    · cases e; exact h.trapBits _
    · split at e
      · cases e; exact h
      · exact hk _ _ _ _ _ e
/-- A vector instruction on registers alone keeps the form. -/
theorem vecReg_keeps {len : Nat} {op : VOp} {d a b : BitVec 5} {m : MReg} {ok : BitVec 32 → Bool} {s : State} (h : MemoriesWf s) {u : State}
    (e : vecReg len op d a b m ok s = .next u) : MemoriesWf u := vecOp_keeps h (fun _ _ _ _ _ e => enqueue_keeps h e) e
/-- A vector instruction with a scalar source keeps the form. -/
theorem vecScalar_keeps {op : VOp} {d a : BitVec 5} {b : Reg} {m : MReg} {ok : BitVec 32 → Bool} {s : State} (h : MemoriesWf s) {u : State}
    (e : vecScalar op d a b m ok s = .next u) : MemoriesWf u := vecOp_keeps h (fun _ _ _ _ _ e => enqueue_keeps h e) e
/-- A vector instruction with a scalar destination keeps the form. -/
theorem vecToX_keeps {op : VOp} {d : Reg} {a b : BitVec 5} {m : MReg} {x2 : Option Reg} {s : State} (h : MemoriesWf s) {u : State}
    (e : vecToX op d a b m x2 s = .next u) : MemoriesWf u := vecOp_keeps h (fun _ _ _ _ _ e => enqueue_keeps h e) e
/-- A jump keeps the form. -/
theorem jump_keeps {s : State} (h : MemoriesWf s) (t : Thread) (a : Word) : MemoriesWf (s.jump t a) := (h.setCur _).traceBranch _ _ _
/-- A branch keeps the form. -/
theorem branch_keeps {rs : List Reg} {c : Thread → Bool} {i : BitVec 12} {s : State} (h : MemoriesWf s) {u : State}
    (e : branch rs c i s = .next u) : MemoriesWf u := by
  refine h.plain (fun t u ht => ?_) e
  cases ht
  split
  · exact jump_keeps h _ _
  · exact h.retire _ _
/-- A step-mode instruction keeps the form where its body does. -/
theorem stepOp_keeps {rs : List Reg} {s : State} {k : Thread → Group → Launch → Out} (h : MemoriesWf s)
    (hk : ∀ t g l u, k t g l = .next u → MemoriesWf u) {u : State} (e : stepOp rs s k = .next u) : MemoriesWf u := by
  refine withThread_keeps (fun t u e => ?_) e
  refine withGroup_keeps (fun g l u e => ?_) e
  split at e
  · cases e; exact h.trapBits _
  · split at e
    · cases e; exact h.trapBits _
    · split at e
      · cases e; exact h.illegal _
      · split at e
        · cases e; exact h
        · exact hk _ _ _ _ e

/-! ## The host's queues -/

/-- Putting a queue keeps the form. -/
theorem setQueue_keeps {s : State} (h : MemoriesWf s) (q : Nat) (v : Queue) : MemoriesWf (s.setQueue q v) := h.modFw _
/-- The status line keeps the form. -/
theorem writeStatus_keeps {s : State} (h : MemoriesWf s) (q : Nat) : MemoriesWf (s.writeStatus q) := by
  unfold State.writeStatus
  dsimp only
  split
  · exact h
  · exact h.fwStore _ _
/-- A completion keeps the form. -/
theorem postCpl_keeps {s : State} (h : MemoriesWf s) (q : Nat) (e : List Byte) : MemoriesWf (s.postCpl q e) := by
  unfold State.postCpl
  dsimp only
  split
  · exact writeStatus_keeps (setQueue_keeps (h.fwStore _ _) _ _) _
  · exact setQueue_keeps h _ _
/-- The completion of a command keeps the form. -/
theorem finishCmd_keeps {s : State} (h : MemoriesWf s) (c : CmdRef) (k i0 : Nat) (i1 : Word) : MemoriesWf (s.finishCmd c k i0 i1) := by
  unfold State.finishCmd
  dsimp only
  split
  · exact h
  · split
    · exact setQueue_keeps h _ _
    · exact postCpl_keeps (setQueue_keeps h _ _) _ _
/-- A command keeps the form where its body does. -/
theorem command_keeps {q opc : Nat} {f : Nat → Bool} {s : State} {k : CmdRef → List Byte → State → State} (h : MemoriesWf s)
    (hk : ∀ c e u, MemoriesWf u → MemoriesWf (k c e u)) {u : State} (e : command q opc f s k = .next u) : MemoriesWf u := by
  unfold command at e
  split at e
  · cases e; exact h
  · split at e
    · cases e; exact hk _ _ _ ((setQueue_keeps h _ _).modFw _)
    · cases e; exact h

end Sys2Proof.Machine
end

