-- ==== Sys2Proof/Machine/Assembler.lean ====
section
/-! DEFINITION. The program side of the encoding: the register conventions (R278 to R280), the expressions, pseudo-instructions, choice of
form, layout and checks of the assembler `yas` (R281 to R286, R384), over statements. `Source` reads them from text. -/
namespace Sys2Proof.Machine

/-! ## Register conventions (R278, R280) -/

/-- Who keeps a register over a call (R278). `fixed` is x0; `same` holds the same value at every call and return (R279). -/
inductive SavedBy where | caller | callee | same | fixed
deriving DecidableEq, Repr
/-- Names of the x registers (R278). -/
def abiNames : List String :=
  ["zero", "lr", "sp", "gp", "kp", "t0", "t1", "t2", "a0", "a1", "a2", "a3", "a4", "a5", "a6", "a7"] ++
  ["s0", "s1", "s2", "s3", "s4", "s5", "s6", "s7", "s8", "s9", "s10", "s11", "t3", "t4", "t5", "t6"]
/-- Names of a nomad thread's x registers (R280). -/
def nomadNames : List String := abiNames.take 12 ++ ["s0", "s1", "s2", "s3"]
/-- The register a name stands for: its number, or its name by the convention in force. -/
def regNamed (names : List String) (n : String) : Option Reg :=
  (List.range names.length).find? (fun k => names[k]? == some n || n == "x" ++ toString k) |>.map (BitVec.ofNat 5)
/-- Who keeps an x register (R278). -/
def xSaved (r : Reg) : SavedBy :=
  let n := r.toNat
  if n = 0 then .fixed else if n = 2 ∨ (16 ≤ n ∧ n ≤ 27) then .callee else if n = 3 ∨ n = 4 then .same else .caller
/-- Who keeps an x register of a nomad thread (R280). -/
def nomadSaved (r : Reg) : SavedBy :=
  let n := r.toNat
  if n = 0 then .fixed else if n = 2 ∨ (12 ≤ n ∧ n ≤ 15) then .callee else if n = 3 ∨ n = 4 then .same else .caller
/-- Who keeps a predicate: p0 is always true. -/
def pSaved (p : Pred) : SavedBy := if p = 0#3 then .fixed else if p.toNat ≤ 3 then .caller else .callee
/-- Who keeps a vector register. -/
def vSaved (v : VReg) : SavedBy := if v.toNat < 16 then .caller else .callee
/-- Who keeps a mask register: m0 is all-true. -/
def mSaved (m : MReg) : SavedBy := if m = 0#3 then .fixed else if m.toNat ≤ 3 then .caller else .callee

/-! ## Expressions (R281) -/

/-- An expression on 64-bit two's-complement values; a symbol is a label, a defined name, or `.`. -/
inductive AExp where
  | num (n : Word)
  | sym (s : String)
  | here
  | neg (a : AExp)
  | inv (a : AExp)
  | add (a b : AExp)
  | sub (a b : AExp)
  | mul (a b : AExp)
  | div (a b : AExp)
  | shl (a b : AExp)
  | shr (a b : AExp)
  | and (a b : AExp)
  | or (a b : AExp)
  | xor (a b : AExp)
  /-- `%hi(e)` and `%lo(e)` (R284) -/
  | hi (a : AExp)
  | lo (a : AExp)
deriving DecidableEq, Repr
/-- %hi of a value (R284). -/
def hiOf (v : Word) : BitVec 20 := (v + 0x800#64).extractLsb' 12 20
/-- %lo of a value (R284). -/
def loOf (v : Word) : BitVec 12 := v.extractLsb' 0 12
/-- The value of an expression. An undefined symbol is an error (R286); so are a division by zero and a shift by 64 or more, for which the
spec states no value (assumption 89). -/
def aval (syms : List (String × Word)) (pc : Word) : AExp → Option Word
  | .num n => some n
  | .sym s => (syms.find? fun e => e.1 == s).map (·.2)
  | .here => some pc
  | .neg a => (aval syms pc a).map fun x => -x
  | .inv a => (aval syms pc a).map fun x => ~~~x
  | .add a b => (aval syms pc a).bind fun x => (aval syms pc b).map fun y => x + y
  | .sub a b => (aval syms pc a).bind fun x => (aval syms pc b).map fun y => x - y
  | .mul a b => (aval syms pc a).bind fun x => (aval syms pc b).map fun y => x * y
  | .div a b => (aval syms pc a).bind fun x => (aval syms pc b).bind fun y => if y = 0#64 then none else some (x.sdiv y)
  | .shl a b => (aval syms pc a).bind fun x => (aval syms pc b).bind fun y => if y.toNat < 64 then some (x <<< y.toNat) else none
  | .shr a b => (aval syms pc a).bind fun x => (aval syms pc b).bind fun y => if y.toNat < 64 then some (x.sshiftRight y.toNat) else none
  | .and a b => (aval syms pc a).bind fun x => (aval syms pc b).map fun y => x &&& y
  | .or a b => (aval syms pc a).bind fun x => (aval syms pc b).map fun y => x ||| y
  | .xor a b => (aval syms pc a).bind fun x => (aval syms pc b).map fun y => x ^^^ y
  | .hi a => (aval syms pc a).map fun x => (hiOf x).setWidth 64
  | .lo a => (aval syms pc a).map fun x => (loOf x).setWidth 64
/-- The value fits a signed field of w bits. -/
def fitsS (w : Nat) (v : Word) : Bool := v.toInt < 2 ^ (w - 1) && -(2 ^ (w - 1) : Int) ≤ v.toInt

/-! ## Pseudo-instructions (R284) -/

/-- `nop`. -/
noncomputable def asmNop : Instr := .addi 0#5 0#5 0#12
/-- `mv`. -/
noncomputable def asmMv (d a : Reg) : Instr := .addi d a 0#12
/-- `not`. -/
noncomputable def asmNot (d a : Reg) : Instr := .xori d a 0xFFF#12
/-- `neg`. -/
noncomputable def asmNeg (d a : Reg) : Instr := .sub d 0#5 a
/-- `li` for the values that two instructions reach, or none. -/
noncomputable def asmLi32 (d : Reg) (v : Word) : Option (List Instr) :=
  if fitsS 12 v then some [.addi d 0#5 (loOf v)]
  else if fitsS 32 v then some (.lui d (hiOf v) :: if loOf v = 0#12 then [] else [.addiW d d (loOf v)])
  else none
/-- `li`: the upper part first, then shifts of 12. Every shift leaves a value of 12 bits less, so five suffice. -/
noncomputable def asmLi (d : Reg) (v : Word) : Nat → List Instr
  | 0 => (asmLi32 d v).getD []
  | n + 1 => match asmLi32 d v with
    | some l => l
    | none =>
      let lo := (loOf v).signExtend 64
      asmLi d ((v - lo).sshiftRight 12) n ++ .slli d d 12#6 :: if lo = 0#64 then [] else [.addi d d (loOf v)]
/-- The instructions of `li rd, v`. -/
noncomputable def expandLi (d : Reg) (v : Word) : List Instr := asmLi d v 5
/-- The instructions of `la rd, sym` at an address. -/
noncomputable def expandLa (d : Reg) (sym pc : Word) : List Instr := [.auipc d (hiOf (sym - pc)), .addi d d (loOf (sym - pc))]
/-- `ret`. -/
noncomputable def asmRet : Instr := .jalr 0#5 1#5 0#12

/-! ## The choice of the 16-bit form (R264, R283) -/

/-- The bit g that a governing mask needs in a 16-bit form: m0 or m1. -/
def maskBit (m : MReg) : Option (BitVec 1) := if m = 0#3 then some 0#1 else if m = 1#3 then some 1#1 else none
/-- A 16-bit form of two operands, where the first source is the destination. -/
def half2 (f : BitVec 1 → VReg → VReg → Instr) (d a b : VReg) (m : MReg) : Option Instr :=
  if a = d then (maskBit m).map fun g => f g d b else none
/-- The 16-bit form of an instruction, where R283 chooses it. -/
noncomputable def shorten : Instr → Option Instr
  | .vmov d a m => if d = 0#5 ∧ a = 0#5 ∧ m = 0#3 then none else (maskBit m).map fun g => .vmov16 g d a
  | .vadd .i32 d a b m => half2 .vaddI32x16 d a b m
  | .vsub .i32 d a b m => half2 .vsubI32x16 d a b m
  | .vand d a b m => half2 .vand16 d a b m
  | .vor d a b m => half2 .vor16 d a b m
  | .vxor d a b m => half2 .vxor16 d a b m
  | .vsll .i32 d a b m => half2 .vsllI32x16 d a b m
  | .vfadd .f32 d a b m => half2 .vfaddF32x16 d a b m
  | .vfsub .f32 d a b m => half2 .vfsubF32x16 d a b m
  | .vfmul .f32 d a b m => half2 .vfmulF32x16 d a b m
  | .vfmax .f32 d a b m => half2 .vfmaxF32x16 d a b m
  | .vfmin .f32 d a b m => half2 .vfminF32x16 d a b m
  | .vaddm .m64 j d a b m => if j = 0#2 then half2 .vaddm16 d a b m else none
  | .vsubm .m64 j d a b m => if j = 0#2 then half2 .vsubm16 d a b m else none
  | .vmulm .m64 j d a b m => if j = 0#2 then half2 .vmulm16 d a b m else none
  | .vlogadd d a b m => half2 .vlogadd16 d a b m
  | _ => none

/-! ## `fmt` (R257, R384) -/

/-- The codes of the format names, in order; the last name is code 0 (R257, R384). -/
def fmtNames : List String :=
  ["default", "d8", "int8", "uint8", "int4t", "int16", "uint16", "int32", "uint32", "int64", "uint64", "fp16", "bf16", "fp32", "fp64", "lg32"]
/-- The rounding modes in order of their codes, with the first as the default too (R257, R384). -/
def rmNames : List String := ["", "rne", "rtz", "rdn", "rup", "rmm"]
/-- An item of a `fmt` statement: the operand `a` to `d` with its format, `rm` with its mode, or `sat` (R384). -/
inductive FmtItem where
  | fmt (field : Fin 4) (name : String)
  | rm (name : String)
  | sat
deriving DecidableEq, Repr
/-- The place of an item: each may be given once. -/
def FmtItem.place : FmtItem → Nat
  | .fmt k _ => k
  | .rm _ => 4
  | .sat => 5
/-- Code of a name in a list. -/
def codeOf (l : List String) (n : String) : Option Nat := (List.range l.length).find? fun k => l[k]? == some n
/-- Code of an item; `sat` is 1. -/
def FmtItem.code : FmtItem → Option Nat
  | .fmt _ n => codeOf fmtNames n
  | .rm n => if n = "" then none else codeOf rmNames n
  | .sat => some 1
/-- The `fmt` instruction of a list of items; none is an error (R384). -/
noncomputable def fmtOf (l : List FmtItem) : Option Instr :=
  let at0 (k : Nat) : Nat := (((l.find? fun i => i.place == k).bind FmtItem.code)).getD 0
  if (l.map FmtItem.place).Nodup && l.all fun i => i.code.isSome then
    some (.fmt (BitVec.ofNat 1 (at0 5)) (BitVec.ofNat 3 (at0 4)) (BitVec.ofNat 4 (at0 3)) (BitVec.ofNat 4 (at0 2)) (BitVec.ofNat 4 (at0 1)) (BitVec.ofNat 4 (at0 0)))
  else none
/-- The instruction accepts the prefix word under its own description (R258, R295, R333, R371, R386). -/
def accepts (p : BitVec 32) : Instr → Bool
  | .fadd .. | .fsub .. | .fmul .. | .fdiv .. | .fsqrt .. | .fmadd .. | .fmsub .. | .fnmadd .. => pfxRm p
  | .fcvt t .. => if (cvtInt t).isSome then pfxRmSat p else pfxRm p
  | .vadd w .. => pfxInt 0 (wdBits w) false p
  | .vaddX w .. => pfxInt 0 (wdBits w) true p
  | .vsub w .. => pfxInt 1 (wdBits w) false p
  | .vsubX w .. => pfxInt 1 (wdBits w) true p
  | .vmulX w .. => pfxInt 2 (wdBits w) true p
  | .vsra w .. => pfxInt 10 (wdBits w) false p
  | .vsraX w .. => pfxInt 10 (wdBits w) true p
  | .vfadd .. | .vfaddX .. | .vfsub .. | .vfsubX .. | .vfmul .. | .vfmulX .. | .vfdiv .. | .vfdivX .. | .vfsqrt .. | .vfmacc .. | .vfmaccX .. => pfxRm p
  | .vfdot f .. => pfxFp 8 f p
  | .vcvt .. => pfxCvt p
  | .vpack w .. => pfxPack (pkBits w) p
  | .vunpackLo w .. => pfxUnpack (pkBits w) p
  | .vunpackHi w .. => pfxUnpack (pkBits w) p
  | .vtolog .. => pfxTolog p
  | .vfromlog .. => pfxFromlog p
  | .vlogadd .. => pfxLogadd p
  | .tmma .. | .tspmac .. => pfxTile p
  | _ => false

/-! ## Statements, directives, layout (R281, R283 to R286) -/

/-- A statement of a section. Offsets of branches and jumps are expressions of their target. -/
inductive Stmt where
  | ins (i : Instr)
  /-- an instruction with any I, S or U immediate, and that immediate (R262) -/
  | imm (i : Instr) (e : AExp)
  | li (d : Reg) (v : Word)
  | la (d : Reg) (e : AExp)
  /-- a branch (R307): the instruction with any offset, and its target -/
  | branch (i : Instr) (e : AExp)
  /-- `jal`, and so `j` and `call` (R284) -/
  | jump (d : Reg) (e : AExp)
  | align (n : Nat)
  /-- `.byte`, `.half`, `.word`, `.dword`: the size in bytes, and the values -/
  | data (size : Nat) (v : List AExp)
  | space (n : Nat) (b : Byte)
  /-- `.lease`, its flags as bits 100 to 96 of the descriptor (R59) -/
  | lease (base pages : AExp) (flags : BitVec 5)
  | equ (name : String) (e : AExp)
  | proc (name : String)
  | endproc
  /-- a directive that places nothing in its section -/
  | other
deriving DecidableEq, Repr
/-- A line: at most one label and one statement (R281), and its number. -/
structure Line where
  label : Option String
  stmt  : Option Stmt
  no    : Nat := 0
deriving DecidableEq, Repr
/-- The statement is a directive. -/
def Stmt.directive : Stmt → Bool
  | .ins _ | .imm _ _ | .li _ _ | .la _ _ | .branch _ _ | .jump _ _ => false
  | _ => true
/-- The prefix word of a `fmt` statement. -/
def Stmt.fmt? : Stmt → Option (BitVec 32)
  | .ins (.fmt s r fd fc fb fa) => some (encode (.fmt s r fd fc fb fa))
  | _ => none
/-- A line laid out: its address, whether its 32-bit form is kept, and the padding that its `.align` inserts. -/
structure Placed where
  line : Line
  at0  : Nat
  wide : Bool
  pad  : Nat
deriving DecidableEq, Repr
/-- Bytes of a statement other than `.align`, in its 16-bit form where it may have it. -/
noncomputable def Stmt.size (wide : Bool) : Stmt → Nat
  | .ins i => if !wide && (shorten i).isSome then 2 else 4
  | .li d v => 4 * (expandLi d v).length
  | .la _ _ => 8
  | .branch _ _ | .jump _ _ => 4
  | .imm _ _ => 4
  | .align _ | .equ _ _ | .proc _ | .endproc | .other => 0
  | .data n v => n * v.length
  | .space n _ => n
  | .lease _ _ _ => 16
/-- The statement stands in its 16-bit form. -/
noncomputable def Placed.short (p : Placed) : Bool :=
  match p.line.stmt with
  | some (.ins i) => !p.wide && (shorten i).isSome
  | _ => false
/-- Bytes of a placed line. -/
noncomputable def Placed.size (p : Placed) : Nat := p.pad + ((p.line.stmt.map (·.size p.wide)).getD 0)
/-- Widen the last 16-bit form of a list held latest first (R286). -/
noncomputable def widenLast : List Placed → Option (List Placed)
  | [] => none
  | p :: t => if p.short then some ({ p with wide := true } :: t) else (widenLast t).map fun t' => { p with at0 := p.at0 + 2 } :: t'
/-- Lay out lines from an address: the lines before the last `.align` stand as they are, those after it may be widened, latest first. A line
after a `fmt` keeps its 32-bit form (R283, R384). None is an error (R286). -/
noncomputable def layout (text : Bool) (fixed seg : List Placed) (pc : Nat) (after : Bool) : List Line → Option (List Placed)
  | [] => some ((fixed.reverse ++ seg.reverse))
  | l :: t => match l.stmt with
    | some (.align n) =>
      if n < 1 ∨ 16 < n then none
      else
        let gap := (2 ^ n - pc % 2 ^ n) % 2 ^ n
        if text && gap % 2 = 1 then none
        else if text && gap % 4 = 2 then match widenLast seg with
          | none => none
          | some seg' => layout text (({ line := l, at0 := pc + 2, wide := false, pad := gap - 2 } :: seg') ++ fixed) [] (pc + gap) false t
        else layout text (({ line := l, at0 := pc, wide := false, pad := gap } :: seg) ++ fixed) [] (pc + gap) false t
    | st =>
      let pad := match st with
        | some (.lease _ _ _) => (16 - pc % 16) % 16
        | _ => 0
      let p : Placed := { line := l, at0 := pc + pad, wide := after, pad := pad }
      layout text fixed (p :: seg) (pc + p.size) (if st.isNone then after else (st.bind Stmt.fmt?).isSome) t
/-- The labels of a layout: each names the address of its line's statement. -/
def labelsOf (ps : List Placed) : List (String × Word) := ps.filterMap fun p => p.line.label.map fun n => (n, BitVec.ofNat 64 p.at0)
/-- A branch with its offset set. -/
noncomputable def setOffset (o : BitVec 12) : Instr → Option Instr
  | .beq a b _ => some (.beq a b o)
  | .bne a b _ => some (.bne a b o)
  | .blt a b _ => some (.blt a b o)
  | .bge a b _ => some (.bge a b o)
  | .bltu a b _ => some (.bltu a b o)
  | .bgeu a b _ => some (.bgeu a b o)
  | .bp p _ => some (.bp p o)
  | .bnp p _ => some (.bnp p o)
  | _ => none
/-- The 12 bits of an I or S immediate: a signed value, or the twelve bits of a `%lo` (R262, R284). -/
def immBits (e : AExp) (v : Word) : Option (BitVec 12) := match e with
  | .lo _ => some (loOf v)
  | _ => if fitsS 12 v then some (loOf v) else none
/-- The 20 bits of a U immediate: −524,288 to 1,048,575 (R299). -/
def immUpper (v : Word) : Option (BitVec 20) := if v.slt 0x100000#64 && !v.slt (-0x80000#64) then some (v.extractLsb' 0 20) else none
/-- An instruction with its immediate set. -/
noncomputable def setImm (e : AExp) (v : Word) (i : Instr) : Option Instr :=
  let k := immBits e v
  match i with
  | .lui d _ => (immUpper v).map (.lui d)
  | .auipc d _ => (immUpper v).map (.auipc d)
  | .addi d a _ => k.map (.addi d a)
  | .andi d a _ => k.map (.andi d a)
  | .ori d a _ => k.map (.ori d a)
  | .xori d a _ => k.map (.xori d a)
  | .slti d a _ => k.map (.slti d a)
  | .sltiu d a _ => k.map (.sltiu d a)
  | .addiW d a _ => k.map (.addiW d a)
  | .jalr d a _ => k.map (.jalr d a)
  | .lb d a _ => k.map (.lb d a)
  | .lh d a _ => k.map (.lh d a)
  | .lw d a _ => k.map (.lw d a)
  | .ld d a _ => k.map (.ld d a)
  | .lbu d a _ => k.map (.lbu d a)
  | .lhu d a _ => k.map (.lhu d a)
  | .lwu d a _ => k.map (.lwu d a)
  | .lbB d a _ => k.map (.lbB d a)
  | .lhB d a _ => k.map (.lhB d a)
  | .lwB d a _ => k.map (.lwB d a)
  | .ldB d a _ => k.map (.ldB d a)
  | .lbuB d a _ => k.map (.lbuB d a)
  | .lhuB d a _ => k.map (.lhuB d a)
  | .lwuB d a _ => k.map (.lwuB d a)
  | .lbN d a _ => k.map (.lbN d a)
  | .lhN d a _ => k.map (.lhN d a)
  | .lwN d a _ => k.map (.lwN d a)
  | .ldN d a _ => k.map (.ldN d a)
  | .lbuN d a _ => k.map (.lbuN d a)
  | .lhuN d a _ => k.map (.lhuN d a)
  | .lwuN d a _ => k.map (.lwuN d a)
  | .sb a b _ => k.map (.sb a b)
  | .sh a b _ => k.map (.sh a b)
  | .sw a b _ => k.map (.sw a b)
  | .sd a b _ => k.map (.sd a b)
  | .sbN a b _ => k.map (.sbN a b)
  | .shN a b _ => k.map (.shN a b)
  | .swN a b _ => k.map (.swN a b)
  | .sdN a b _ => k.map (.sdN a b)
  | .lwf d a _ => k.map (.lwf d a)
  | .take d a _ => k.map (.take d a)
  | .tagq d a _ => k.map (.tagq d a)
  | .empty a _ => k.map (.empty a)
  | .put a b _ => k.map (.put a b)
  | .fill a b _ => k.map (.fill a b)
  | .xst a b _ => k.map (.xst a b)
  | .acq d a _ => k.map (.acq d a)
  | .rel a b _ => k.map (.rel a b)
  | _ => none
/-- The bytes of a list of instructions, each in 32 bits. -/
def instrBytes (l : List Instr) : List Byte := (l.map fun i => bytesOfNat (encode i).toNat 4).flatten
/-- A value fits 1, 2, 4 or 8 bytes, as a signed or as an unsigned number (R285). -/
def fitsData (size : Nat) (v : Word) : Bool := size == 8 || fitsS (8 * size) v || v.toNat < 2 ^ (8 * size)
/-- The bytes of a placed statement; none is an error (R286). -/
noncomputable def Placed.emit (text : Bool) (syms : List (String × Word)) (p : Placed) : Option (List Byte) :=
  let pc := BitVec.ofNat 64 p.at0
  let off (e : AExp) : Option Word := (aval syms pc e).map fun v => v - pc
  match p.line.stmt with
  | none => some []
  | some (.ins i) =>
    if !i.wf then none
    else if p.short then (shorten i).map fun h => bytesOfNat (encode h).toNat 2
    else some (instrBytes [i])
  | some (.li d v) => some (instrBytes (expandLi d v))
  | some (.imm i e) => (aval syms pc e).bind fun v => (setImm e v i).map fun i' => instrBytes [i']
  | some (.la d e) => (aval syms pc e).bind fun v => if fitsS 32 (v - pc + 0x800#64) then some (instrBytes (expandLa d v pc)) else none
  | some (.branch i e) => (off e).bind fun o =>
    if fitsS 13 o && !o.getLsbD 0 then (setOffset (o.extractLsb' 1 12) i).map fun i' => instrBytes [i'] else none
  | some (.jump d e) => (off e).bind fun o => if fitsS 21 o && !o.getLsbD 0 then some (instrBytes [.jal d (o.extractLsb' 1 20)]) else none
  | some (.align _) => some (if text then instrBytes (repeatN asmNop (p.pad / 4)) else repeatN 0#8 p.pad)
  | some (.data n v) => (v.mapM fun e => (aval syms pc e).bind fun x => if fitsData n x then some (bytesOf x n) else none).map List.flatten
  | some (.space n b) => some (repeatN b n)
  | some (.lease b n f) => (aval syms pc b).bind fun x => (aval syms pc n).bind fun y =>
    if x.toNat < 2 ^ 56 ∧ y.toNat < 2 ^ 32 then some (repeatN 0#8 p.pad ++ bytesOf x 8 ++ bytesOf y 4 ++ bytesOf (f.setWidth 64) 4) else none
  | some (.equ _ _) | some (.proc _) | some .endproc | some .other => some []
/-- The errors of `fmt` (R384): a label on the next statement, no next statement, a directive next, an item it does not accept. -/
def fmtOk : List Line → Bool
  | [] => true
  | l :: t => fmtOk t && match l.stmt.bind Stmt.fmt? with
    | none => true
    | some w => match t.find? fun n => n.stmt.isSome || n.label.isSome with
      | none => false
      | some n => n.label.isNone && match n.stmt with
        | some (.ins i) => accepts w i
        | _ => false
/-- The definitions of a layout: the name, the address of the statement, and the expression (R285). -/
def equsOf (ps : List Placed) : List (String × Nat × AExp) := ps.filterMap fun p => match p.line.stmt with
  | some (.equ n e) => some (n, p.at0, e)
  | _ => none
/-- Definitions given their values, each from the symbols known by then; the count bounds the passes, since one may name a later one. -/
def equate (defs : List (String × Nat × AExp)) (syms : List (String × Word)) : Nat → List (String × Word)
  | 0 => syms
  | k + 1 => equate defs (defs.foldl (fun l d => if l.any (fun e => e.1 == d.1) then l else
      match aval l (BitVec.ofNat 64 d.2.1) d.2.2 with
      | some v => l ++ [(d.1, v)]
      | none => l) syms) k

end Sys2Proof.Machine
end

