-- ==== Sys2Proof/Machine/Source.lean ====
section
/-! DEFINITION. The text of an assembler source: its lexical rules (R281), operands and qualifiers (R282), the statements of every instruction
(R294 to R398), pseudo-instructions (R284) and directives (R285). What it reads are the statements of `Assembler`. -/
namespace Sys2Proof.Machine

/-! ## Lexical rules (R281) -/

/-- A token: an identifier, a number, or a sign. -/
inductive Tok where
  | word (s : String)
  | num (n : Nat)
  | op (s : String)
deriving DecidableEq, Repr
/-- The value of a digit. -/
def digitVal (c : Char) : Option Nat :=
  let n := c.toNat
  if 48 ≤ n ∧ n ≤ 57 then some (n - 48) else if 97 ≤ n ∧ n ≤ 102 then some (n - 87) else if 65 ≤ n ∧ n ≤ 70 then some (n - 55) else none
/-- Digits of a base, underscores between them; `sep` says that the character before is no digit. -/
def digits (base n : Nat) (sep : Bool) : List Char → Option Nat
  | [] => if sep then none else some n
  | '_' :: t => if sep then none else digits base n true t
  | c :: t => match digitVal c with
    | some d => if d < base then digits base (n * base + d) false t else none
    | none => none
/-- A number: decimal, or hexadecimal with `0x`, or binary with `0b`. -/
def number : List Char → Option Nat
  | '0' :: 'x' :: t => digits 16 0 true t
  | '0' :: 'b' :: t => digits 2 0 true t
  | l => digits 10 0 true l
/-- A character of an identifier or a number. -/
def wordChar (c : Char) : Bool := c.isAlphanum || c == '_' || c == '.'
/-- The token of a run of such characters. -/
def runTok : List Char → Option Tok
  | [] => none
  | c :: t => if c.isDigit then (number (c :: t)).map .num else some (.word (String.ofList (c :: t)))
/-- The tokens of a line, up to its comment; `cur` is the run so far, last character first. -/
def lexLine (cur : List Char) : List Char → Option (List Tok)
  | [] => if cur.isEmpty then some [] else (runTok cur.reverse).map fun k => [k]
  | c :: t =>
    if wordChar c then lexLine (c :: cur) t
    else
      let rest : Option (List Tok) := match c, t with
        | ';', _ => some []
        | '/', '/' :: _ => some []
        | '<', '<' :: _ => (lexLine [] t).map fun l => .op "<<" :: l.drop 1
        | '>', '>' :: _ => (lexLine [] t).map fun l => .op ">>" :: l.drop 1
        | _, _ => (lexLine [] t).bind fun l =>
          if c == ' ' || c == '\t' || c == '\r' then some l
          else if [',', '[', ']', '(', ')', '+', '-', '*', '/', '&', '|', '^', '~', ':', '=', '%', '<', '>'].contains c then some (.op c.toString :: l)
          else none
      if cur.isEmpty then rest else (runTok cur.reverse).bind fun k => rest.map (k :: ·)

/-! ## Expressions (R281; precedence: assumption 90) -/

/-- How tightly an operator binds; 0 is the loosest. -/
def opLevel (o : String) : Option Nat :=
  if o == "|" then some 0 else if o == "^" then some 1 else if o == "&" then some 2 else if o == "<<" || o == ">>" then some 3
  else if o == "+" || o == "-" then some 4 else if o == "*" || o == "/" then some 5 else none
/-- An operator between two expressions. -/
def opExp (o : String) (a b : AExp) : AExp :=
  if o == "|" then .or a b else if o == "^" then .xor a b else if o == "&" then .and a b else if o == "<<" then .shl a b
  else if o == ">>" then .shr a b else if o == "+" then .add a b else if o == "-" then .sub a b else if o == "*" then .mul a b else .div a b
/-- Read an expression at a level, its left part read already or not; the count bounds the depth. -/
def readExp : Nat → Nat → Option AExp → List Tok → Option (AExp × List Tok)
  | 0, _, _, _ => none
  | n + 1, lv, none, ts =>
    if lv < 6 then (readExp n (lv + 1) none ts).bind fun (a, r) => readExp n lv (some a) r
    else
      let inner (r : List Tok) : Option (AExp × List Tok) := (readExp n 0 none r).bind fun (a, r') => match r' with
        | .op ")" :: r'' => some (a, r'')
        | _ => none
      match ts with
      | .num k :: r => if k < 2 ^ 64 then some (.num (BitVec.ofNat 64 k), r) else none
      | .word s :: r => some (if s == "." then .here else .sym s, r)
      | .op "-" :: r => (readExp n 6 none r).map fun (a, r') => (.neg a, r')
      | .op "~" :: r => (readExp n 6 none r).map fun (a, r') => (.inv a, r')
      | .op "(" :: r => inner r
      | .op "%" :: .word w :: .op "(" :: r =>
        if w.toLower == "hi" then (inner r).map fun (a, r') => (.hi a, r')
        else if w.toLower == "lo" then (inner r).map fun (a, r') => (.lo a, r') else none
      | _ => none
  | n + 1, lv, some a, ts => match ts with
    | .op o :: r =>
      if opLevel o == some lv then (readExp n (lv + 1) none r).bind fun (b, r') => readExp n lv (some (opExp o a b)) r'
      else some (a, ts)
    | _ => some (a, ts)
/-- The expression that tokens are, whole. -/
def wholeExp (ts : List Tok) : Option AExp := match readExp (8 * ts.length + 8) 0 none ts with
  | some (a, []) => some a
  | _ => none

/-! ## Operands (R282) -/

/-- An operand: an expression, of which a register's name is one; a memory operand with its base and offset, if it names one; an item of `fmt`. -/
inductive Opnd where
  | exp (e : AExp)
  | mem (base : String) (off : Option AExp)
  | item (key val : String)
deriving DecidableEq, Repr
/-- The operands of a statement, apart at its commas. -/
def splitOps (cur : List Tok) : List Tok → List (List Tok)
  | [] => [cur.reverse]
  | .op "," :: t => cur.reverse :: splitOps [] t
  | k :: t => splitOps (k :: cur) t
/-- One operand. The `e` of `[xs-e]` is the whole of what follows (assumption 90). -/
def readOpnd : List Tok → Option Opnd
  | [.op "[", .word b, .op "]"] => some (.mem b none)
  | .op "[" :: .word b :: .op "+" :: t => if t.getLast? == some (.op "]") then (wholeExp t.dropLast).map fun e => .mem b (some e) else none
  | .op "[" :: .word b :: .op "-" :: t => if t.getLast? == some (.op "]") then (wholeExp t.dropLast).map fun e => .mem b (some (.neg e)) else none
  | [.word k, .op "=", .word v] => some (.item k.toLower v.toLower)
  | t => (wholeExp t).map .exp
/-- The operands of a statement. -/
def readOps (t : List Tok) : Option (List Opnd) := if t.isEmpty then some [] else (splitOps [] t).mapM readOpnd

/-- The name that an operand is, in lower case. -/
def oName : Opnd → Option String
  | .exp (.sym s) => some s.toLower
  | _ => none
/-- A name of some letters with a number below a bound. -/
def numbered (pre : List Char) (bound : Nat) (o : Opnd) : Option Nat := (oName o).bind fun s =>
  if s.toList.take pre.length == pre then (digits 10 0 true (s.toList.drop pre.length)).bind fun n => if n < bound then some n else none else none
/-- An x register (R278, R282). -/
def oX (o : Opnd) : Option Reg := (oName o).bind (regNamed abiNames)
/-- A v register. -/
def oV (o : Opnd) : Option VReg := (numbered ['v'] 32 o).map (BitVec.ofNat 5)
/-- A predicate. -/
def oP (o : Opnd) : Option Pred := (numbered ['p'] 8 o).map (BitVec.ofNat 3)
/-- A mask register. -/
def oM (o : Opnd) : Option MReg := (numbered ['m'] 8 o).map (BitVec.ofNat 3)
/-- A modulus pair. -/
def oQ (o : Opnd) : Option QReg := (numbered ['q'] 4 o).map (BitVec.ofNat 2)
/-- An accumulator. -/
def oAcc (o : Opnd) : Option AccReg := (numbered ['a', 'c', 'c'] 4 o).map (BitVec.ofNat 2)
/-- A memory operand without an offset. -/
def oB : Opnd → Option Reg
  | .mem b none => regNamed abiNames b.toLower
  | _ => none
/-- A memory operand and its offset, 0 where it names none. -/
def oMem : Opnd → Option (Reg × AExp)
  | .mem b e => (regNamed abiNames b.toLower).map fun r => (r, e.getD (.num 0#64))
  | _ => none
/-- An expression. -/
def oE : Opnd → Option AExp
  | .exp e => some e
  | _ => none
/-- A constant below a bound, of numbers and of definitions that stand before (assumption 90). -/
def oC (defs : List (String × Word)) (bound : Nat) (o : Opnd) : Option Nat :=
  ((oE o).bind (aval defs 0#64)).bind fun v => if v.toNat < bound then some v.toNat else none
/-- The governing mask, written last as m1 to m7, and the operands before it; m0 where none is written (R282). -/
def unmask (l : List Opnd) : List Opnd × MReg := match l.getLast?.bind oM with
  | some m => if m = 0#3 then (l, 0#3) else (l.dropLast, m)
  | none => (l, 0#3)
/-- The modulus pair before the mask, and the operands before it; q0 where none is written (R282). -/
def unpair (l : List Opnd) : List Opnd × QReg := match l.getLast?.bind oQ with
  | some q => (l.dropLast, q)
  | none => (l, 0#2)

/-! ## Qualifiers (R282) -/

/-- A mnemonic apart at its dots, in lower case. -/
def splitDots (cur : List Char) : List Char → List String
  | [] => [(String.ofList cur.reverse).toLower]
  | '.' :: t => (String.ofList cur.reverse).toLower :: splitDots [] t
  | c :: t => splitDots (c :: cur) t
/-- The parts of a mnemonic joined again. -/
def joinDots : List String → String
  | [] => ""
  | [s] => s
  | s :: t => s ++ "." ++ joinDots t
/-- Scalar precision. -/
def qPrec (s : String) : Option Prec := [("s", Prec.s), ("d", .d), ("h", .h)].lookup s
/-- Types of `fcvt` (R303). -/
def qCvt (s : String) : Option CvtType := [("s", CvtType.s), ("d", .d), ("h", .h), ("w", .w), ("wu", .wu), ("l", .l), ("lu", .lu)].lookup s
/-- Scope. -/
def qScope (s : String) : Option Scope := [("g", Scope.g), ("d", .d), ("v", .v), ("s", .s)].lookup s
/-- Element width. -/
def qWidth (s : String) : Option Width := [("i8", Width.i8), ("i16", .i16), ("i32", .i32), ("i64", .i64)].lookup s
/-- Width of a pack. -/
def qPack (s : String) : Option PackWidth := [("i8", PackWidth.i8), ("i16", .i16), ("i32", .i32)].lookup s
/-- Element format. -/
def qFmt (s : String) : Option FFmt := [("f32", FFmt.f32), ("f16", .f16), ("bf16", .bf16)].lookup s
/-- Lane width of modular instructions. -/
def qLane (s : String) : Option Lane := [("m32", Lane.m32), ("m64", .m64)].lookup s
/-- The width of an atomic or a reduction after its other qualifiers: `.d` where none is written (R282). -/
def qAtom : List String → Option AtomWidth
  | [] => some .d
  | ["w"] => some .w
  | ["d"] => some .d
  | _ => none
/-- The last qualifier of a mnemonic's parts, and what stands before it. -/
def lastPart (l : List String) : Option (String × String) := l.getLast?.map fun q => (joinDots l.dropLast, q)
/-- Operations of reductions and of remote atomics. -/
def oRed (o : Opnd) : Option RedOp := (oName o).bind fun s =>
  [("add", RedOp.add), ("min", .min), ("max", .max), ("and", .and), ("or", .or), ("xor", .xor)].lookup s
/-- Operations of `ramo` (R320). -/
def oAmo (o : Opnd) : Option AmoOp := (oName o).bind fun s =>
  [("add", AmoOp.add), ("and", .and), ("or", .or), ("xor", .xor), ("min", .min), ("max", .max), ("minu", .minu), ("maxu", .maxu), ("swap", .swap)].lookup s
/-- A control register: its name, or a number from 0 to 4,095 (R276, R398). -/
def oCsr (defs : List (String × Word)) (o : Opnd) : Option (BitVec 12) :=
  let fixed : List (String × Nat) :=
    [("status", 0), ("estatus", 1), ("epc", 2), ("tcause", 3), ("tval", 4), ("tvec", 5), ("tscratch", 6), ("stklim", 7), ("fflags", 8),
     ("timeb", 0x10), ("vtime", 0x11), ("tab4l", 0x12), ("tab4h", 0x13), ("vstate", 0x14)]
  let row (pre : List Char) (base step : Nat) : Option Nat := (numbered pre 8 o).map fun k => base + step * k
  (((oName o).bind fun s => fixed.lookup s) <|> row "lvix".toList 0x20 1 <|> row "spvb".toList 0x40 4 <|> row "spvl".toList 0x41 4
    <|> row "spof".toList 0x42 4 <|> row "spat".toList 0x43 4 <|> oC defs 0x1000 o).map (BitVec.ofNat 12)

/-! ## Instructions -/

/-- Register forms `op rd, rs1, rs2` (R296, R297). -/
noncomputable def ops3 : List (String × (Reg → Reg → Reg → Instr)) :=
  [[("add", .add), ("sub", .sub), ("and", .and), ("or", .or), ("xor", .xor), ("andn", .andn), ("orn", .orn), ("sll", .sll), ("srl", .srl), ("sra", .sra),
    ("rol", .rol), ("ror", .ror), ("slt", .slt), ("sltu", .sltu), ("min", .min), ("max", .max), ("minu", .minu), ("maxu", .maxu)],
   [("mul", .mul), ("mulh", .mulh), ("mulhu", .mulhu), ("mulhsu", .mulhsu), ("div", .div), ("divu", .divu), ("rem", .rem), ("remu", .remu)],
   [("add.w", .addW), ("sub.w", .subW), ("sll.w", .sllW), ("srl.w", .srlW), ("sra.w", .sraW), ("rol.w", .rolW), ("ror.w", .rorW), ("mul.w", .mulW),
    ("div.w", .divW), ("divu.w", .divuW), ("rem.w", .remW), ("remu.w", .remuW)]].flatten
/-- Register forms `op rd, rs1` (R296, R297). -/
noncomputable def ops2 : List (String × (Reg → Reg → Instr)) :=
  [("clz", .clz), ("ctz", .ctz), ("popc", .popc), ("clz.w", .clzW), ("ctz.w", .ctzW), ("popc.w", .popcW)]
/-- Immediate forms `op rd, rs1, e` (R298, R308). -/
noncomputable def opsImm : List (String × (Reg → Reg → BitVec 12 → Instr)) :=
  [("addi", .addi), ("andi", .andi), ("ori", .ori), ("xori", .xori), ("slti", .slti), ("sltiu", .sltiu), ("addi.w", .addiW), ("jalr", .jalr)]
/-- Shifts by a constant of 6 bits, and of 5 (R298). -/
noncomputable def opsShift : List (String × (Reg → Reg → BitVec 6 → Instr)) := [("slli", .slli), ("srli", .srli), ("srai", .srai)]
/-- The word forms of the constant shifts (R298). -/
noncomputable def opsShiftW : List (String × (Reg → Reg → BitVec 5 → Instr)) := [("slli.w", .slliW), ("srli.w", .srliW), ("srai.w", .sraiW)]
/-- Loads `op rd, [rs1+e]`, and the tagged reads (R310, R314, R323). -/
noncomputable def opsLoad : List (String × (Reg → Reg → BitVec 12 → Instr)) :=
  [[("lb", .lb), ("lh", .lh), ("lw", .lw), ("ld", .ld), ("lbu", .lbu), ("lhu", .lhu), ("lwu", .lwu)],
   [("lb.b", .lbB), ("lh.b", .lhB), ("lw.b", .lwB), ("ld.b", .ldB), ("lbu.b", .lbuB), ("lhu.b", .lhuB), ("lwu.b", .lwuB)],
   [("lb.n", .lbN), ("lh.n", .lhN), ("lw.n", .lwN), ("ld.n", .ldN), ("lbu.n", .lbuN), ("lhu.n", .lhuN), ("lwu.n", .lwuN)],
   [("lwf", .lwf), ("take", .take), ("acq", .acq)]].flatten
/-- Stores `op [rs1+e], rs2`, and the tagged writes (R311, R314, R315, R324). -/
noncomputable def opsStore : List (String × (Reg → Reg → BitVec 12 → Instr)) :=
  [[("sb", .sb), ("sh", .sh), ("sw", .sw), ("sd", .sd), ("sb.n", .sbN), ("sh.n", .shN), ("sw.n", .swN), ("sd.n", .sdN)],
   [("put", .put), ("fill", .fill), ("xst", .xst), ("rel", .rel)]].flatten
/-- Scalar floating point `op.<p> rd, rs1, rs2` (R301). -/
noncomputable def opsF3 : List (String × (Prec → Reg → Reg → Reg → Instr)) :=
  [("fadd", .fadd), ("fsub", .fsub), ("fmul", .fmul), ("fdiv", .fdiv), ("fmin", .fmin), ("fmax", .fmax), ("fsgn", .fsgn), ("fsgn.n", .fsgnN),
   ("fsgn.x", .fsgnX)]
/-- Scalar floating point `op.<p> rd, rs1` (R301, R302). -/
noncomputable def opsF2 : List (String × (Prec → Reg → Reg → Instr)) := [("fsqrt", .fsqrt), ("fclass", .fclass)]
/-- Scalar floating-point compares (R302). -/
noncomputable def opsFCmp : List (String × (Prec → Pred → Reg → Reg → Instr)) :=
  [("fcmp.eq", .fcmpEq), ("fcmp.ne", .fcmpNe), ("fcmp.lt", .fcmpLt), ("fcmp.le", .fcmpLe)]
/-- Fused forms (R304). -/
noncomputable def opsF4 : List (String × (Prec → Reg → Reg → Reg → Reg → Instr)) := [("fmadd", .fmadd), ("fmsub", .fmsub), ("fnmadd", .fnmadd)]
/-- Predicate compares (R305). -/
noncomputable def opsPCmp : List (String × (Pred → Reg → Reg → Instr)) :=
  [("pcmp.eq", .pcmpEq), ("pcmp.ne", .pcmpNe), ("pcmp.lt", .pcmpLt), ("pcmp.ge", .pcmpGe), ("pcmp.ltu", .pcmpLtu), ("pcmp.geu", .pcmpGeu)]
/-- Predicate logic (R306). -/
noncomputable def opsP3 : List (String × (Pred → Pred → Pred → Instr)) := [("pand", .pand), ("por", .por), ("pxor", .pxor)]
/-- Branches (R307); the second list swaps their operands (R284). -/
noncomputable def opsBranch : List (String × (Reg → Reg → BitVec 12 → Instr)) :=
  [("beq", .beq), ("bne", .bne), ("blt", .blt), ("bge", .bge), ("bltu", .bltu), ("bgeu", .bgeu)]
/-- `bgt` and its kin (R284). -/
noncomputable def opsSwapped : List (String × (Reg → Reg → BitVec 12 → Instr)) := [("bgt", .blt), ("ble", .bge), ("bgtu", .bltu), ("bleu", .bgeu)]
/-- Atomics with return (R316). -/
noncomputable def opsAmo : List (String × (Scope → AtomWidth → Reg → Reg → Reg → Instr)) :=
  [("amoadd", .amoadd), ("amoand", .amoand), ("amoor", .amoor), ("amoxor", .amoxor), ("amomin", .amomin), ("amomax", .amomax), ("amominu", .amominu),
   ("amomaxu", .amomaxu), ("amoswap", .amoswap), ("cas", .cas)]
/-- Integer lanes `op.<w> vd, vs1, vs2` and the forms with a scalar (R345). -/
noncomputable def opsV : List (String × (Width → VReg → VReg → VReg → MReg → Instr) × (Width → VReg → VReg → Reg → MReg → Instr)) :=
  [[("vadd", .vadd, .vaddX), ("vsub", .vsub, .vsubX), ("vmul", .vmul, .vmulX), ("vmulh", .vmulh, .vmulhX), ("vmin", .vmin, .vminX), ("vmax", .vmax, .vmaxX)],
   [("vminu", .vminu, .vminuX), ("vmaxu", .vmaxu, .vmaxuX), ("vsll", .vsll, .vsllX), ("vsrl", .vsrl, .vsrlX), ("vsra", .vsra, .vsraX)]].flatten
/-- Lane logic (R345). -/
noncomputable def opsVLogic : List (String × (VReg → VReg → VReg → MReg → Instr) × (VReg → VReg → Reg → MReg → Instr)) :=
  [("vand", .vand, .vandX), ("vor", .vor, .vorX), ("vxor", .vxor, .vxorX)]
/-- Floating-point lanes and the forms with a scalar (R348). -/
noncomputable def opsVF : List (String × (FFmt → VReg → VReg → VReg → MReg → Instr) × (FFmt → VReg → VReg → Reg → MReg → Instr)) :=
  [("vfadd", .vfadd, .vfaddX), ("vfsub", .vfsub, .vfsubX), ("vfmul", .vfmul, .vfmulX), ("vfdiv", .vfdiv, .vfdivX), ("vfmin", .vfmin, .vfminX),
   ("vfmax", .vfmax, .vfmaxX), ("vfmacc", .vfmacc, .vfmaccX)]
/-- Compares of lanes (R351). -/
noncomputable def opsVCmp : List (String × (Width → MReg → VReg → VReg → MReg → Instr)) :=
  [("vcmp.eq", .vcmpEq), ("vcmp.ne", .vcmpNe), ("vcmp.lt", .vcmpLt), ("vcmp.ge", .vcmpGe), ("vcmp.ltu", .vcmpLtu), ("vcmp.geu", .vcmpGeu)]
/-- Floating-point compares of lanes (R351). -/
noncomputable def opsVFCmp : List (String × (FFmt → MReg → VReg → VReg → MReg → Instr)) :=
  [("vfcmp.eq", .vfcmpEq), ("vfcmp.ne", .vfcmpNe), ("vfcmp.lt", .vfcmpLt), ("vfcmp.le", .vfcmpLe)]
/-- Mask logic (R352). -/
noncomputable def opsM3 : List (String × (MReg → MReg → MReg → Instr)) := [("mand", .mand), ("mor", .mor), ("mxor", .mxor)]
/-- Integer reductions (R354). -/
noncomputable def opsVRed : List (String × (Width → Reg → VReg → MReg → Instr)) :=
  [("vredsum", .vredsum), ("vredmin", .vredmin), ("vredmax", .vredmax), ("vredminu", .vredminu), ("vredmaxu", .vredmaxu)]
/-- Floating-point reductions (R355). -/
noncomputable def opsVFRed : List (String × (FFmt → Reg → VReg → MReg → Instr)) := [("vfredsum", .vfredsum), ("vfredmin", .vfredmin), ("vfredmax", .vfredmax)]
/-- Permutes of two registers (R356). -/
noncomputable def opsVPerm : List (String × (Width → VReg → VReg → VReg → MReg → Instr)) := [("vperm", .vperm), ("vzip", .vzip), ("vunzip", .vunzip)]
/-- Slides (R356). -/
noncomputable def opsVSlide : List (String × (Width → VReg → VReg → Reg → MReg → Instr)) := [("vslide.up", .vslideUp), ("vslide.down", .vslideDown)]
/-- Modular lanes (R360, R363). -/
noncomputable def opsMod : List (String × (Lane → QReg → VReg → VReg → VReg → MReg → Instr)) :=
  [("vaddm", .vaddm), ("vsubm", .vsubm), ("vmulm", .vmulm), ("vmacm", .vmacm), ("vmodred", .vmodred), ("vbflyx.ct", .vbflyxCt), ("vbflyx.gs", .vbflyxGs)]
/-- Butterflies with a stage (R362). -/
noncomputable def opsBfly : List (String × (Lane → QReg → VReg → BitVec 5 → VReg → MReg → Instr)) := [("vbfly.ct", .vbflyCt), ("vbfly.gs", .vbflyGs)]
/-- Instructions without operands (R327, R369, R378, R390 to R395). -/
noncomputable def ops0 : List (String × Instr) :=
  [("bar.x", .barX), ("vfence", .vfence), ("twait", .twait), ("texit", .texit), ("tdetach", .tdetach), ("tyield", .tyield), ("bar.t", .barT),
    ("ecall", .ecall),
   ("ebreak", .ebreak), ("tret", .tret), ("wfe", .wfe), ("halt", .halt), ("nop", asmNop), ("ret", asmRet)]
/-- The sixteen bases of R264 that may be written with two operands, the first source then being the destination (R283). -/
def shortBases : List String :=
  ["vadd.i32", "vsub.i32", "vand", "vor", "vxor", "vsll.i32", "vfadd.f32", "vfsub.f32", "vfmul.f32", "vfmax.f32", "vfmin.f32", "vaddm.m32", "vaddm.m64",
   "vsubm.m32", "vsubm.m64", "vmulm.m32", "vmulm.m64", "vlogadd"]
/-- The first that there is. -/
def firstOf : List (Option α) → Option α
  | [] => none
  | some x :: _ => some x
  | none :: t => firstOf t
/-- Two x registers. -/
def two (f : Reg → Reg → Instr) (a b : Opnd) : Option Instr := (oX a).bind fun x => (oX b).map (f x)
/-- Three x registers. -/
def three (f : Reg → Reg → Reg → Instr) (a b c : Opnd) : Option Instr := (oX a).bind fun x => two (f x) b c
/-- A form of a list with its last qualifier read. -/
def qualified (l : List (String × (β → α))) (q : String → Option β) (ps : List String) : Option α :=
  (lastPart ps).bind fun (n, s) => (l.lookup n).bind fun f => (q s).map f
/-- Scalar instructions of one operand. -/
noncomputable def read1 (defs : List (String × Word)) (m : String) (a : Opnd) : Option Instr :=
  match m with
  | "unbind" => (oB a).map .unbind
  | "bar" => (oC defs 8 a).map fun k => .bar (BitVec.ofNat 3 k)
  | "arrive" => (oB a).map .arrive
  | "vwidth" => (oX a).map .vwidth
  | "tclr" => (oAcc a).map .tclr
  | "evwait" => (oX a).map .evwait
  | "evnext" => (oX a).map .evnext
  | "evpeek" => (oX a).map .evpeek
  | "vtadv" => (oX a).map .vtadv
  | "go" => (oB a).map .go
  | _ => none
/-- A direction, written as its number (R390). -/
def oDir (defs : List (String × Word)) (a : Opnd) : Option Dir := (oC defs 4 a).bind fun k => [Dir.e, .s, .w, .n][k]?
/-- Scalar instructions of two operands that are in no list. -/
noncomputable def read2 (defs : List (String × Word)) (m : String) (d a : Opnd) : Option Instr :=
  match m with
  | "pnot" => (oP d).bind fun x => (oP a).map (.pnot x)
  | "pmov" =>
    if oName a == some "p" then (oX d).map .pmovPack
    else if oName d == some "p" then (oX a).map .pmovUnpack
    else (oP d).bind fun x => (oP a).map (.pmov x)
  | "waitph" => (oB d).bind fun x => (oX a).map (.waitph x)
  | "dqpush" => (oX d).bind fun x => (oB a).map (.dqpush x)
  | "dqpop" => (oX d).bind fun x => (oB a).map (.dqpop x)
  | "tdec" => (oB d).bind fun x => (oX a).map (.tdec x)
  | "tspawn" => (oX d).bind fun x => (oB a).map (.tspawn x)
  | "nsend" => (oX d).bind fun x => (oDir defs a).map fun r => .nsend r x
  | "nrecv" => (oX d).bind fun x => (oDir defs a).map fun r => .nrecv r x
  | "csrr" => (oX d).bind fun x => (oCsr defs a).map fun c => .csrr c x
  | "csrw" => (oCsr defs d).bind fun c => (oX a).map (.csrw c)
  | "csrs" => (oCsr defs d).bind fun c => (oX a).map (.csrs c)
  | "csrc" => (oCsr defs d).bind fun c => (oX a).map (.csrc c)
  | "mv" => two asmMv d a
  | "not" => two asmNot d a
  | "neg" => two asmNeg d a
  | _ => none
/-- Scalar instructions of three operands that are in no list. -/
noncomputable def read3 (defs : List (String × Word)) (m : String) (d a b : Opnd) : Option Instr :=
  let ext (f : ExtWidth → Instr) : Option Instr := (oC defs 64 b).bind fun k => ([(8, ExtWidth.b8), (16, .b16), (32, .b32)].lookup k).map f
  match m with
  | "bind" => (oB d).bind fun x => (oX a).bind fun y => (oC defs 48 b).map fun k => .bind x y (BitVec.ofNat 7 k)
  | "evsend" => (oX b).bind fun l => two (.evsend l) d a
  | "tmsend" => three .tmsend d a b
  | "sext" => (oX d).bind fun x => (oX a).bind fun y => ext (.sext x y)
  | "zext" => (oX d).bind fun x => (oX a).bind fun y => ext (.zext x y)
  | "tacc2s" => (oAcc d).bind fun q => two (.tacc2s q) a b
  | "ts2acc" => (oAcc d).bind fun q => two (.ts2acc q) a b
  | _ => none
/-- Tile instructions and `tgather`, of five operands (R375, R382). -/
noncomputable def read5 (defs : List (String × Word)) (m : String) (d a b c e : Opnd) : Option Instr :=
  let tile (f : Reg → Reg → Reg → Reg → Instr) : Option Instr := (oX a).bind fun y => (oX b).bind fun z => two (fun x w => f x y z w) c e
  match m with
  | "tmma" => (oAcc d).bind fun q => tile (.tmma q)
  | "tspmac" => (oC defs 1025 d).bind fun k => ([(128, 0#2), (256, 1#2), (512, 2#2), (1024, 3#2)].lookup k).bind fun q => tile (.tspmac q)
  | "tgather" => (oC defs 129 e).bind fun k => ([(8, GatherSize.b8), (16, .b16), (64, .b64), (128, .b128)].lookup k).bind fun g =>
      (oB d).bind fun x => (oB a).bind fun y => (oB b).bind fun z => (oB c).map (.tgather g x y z)
  | _ => none
/-- Scalar instructions without an offset, and those of the tile and engine units (R296 to R306, R316 to R328, R370 to R398). -/
noncomputable def readScalar (defs : List (String × Word)) (m : String) (ps : List String) (ops : List Opnd) : Option Instr :=
  match ops with
  | [] => ops0.lookup m
  | [a] => read1 defs m a
  | [d, a] => firstOf [
      (ops2.lookup m).bind fun f => two f d a,
      (qualified opsF2 qPrec ps).bind fun f => two f d a,
      match ps with
      | ["fcvt", t, u] => (qCvt t).bind fun t => (qCvt u).bind fun u => two (.fcvt t u) d a
      | _ => none,
      read2 defs m d a]
  | [d, a, b] => firstOf [
      (ops3.lookup m).bind fun f => three f d a b,
      (opsShift.lookup m).bind fun f => (oX d).bind fun x => (oX a).bind fun y => (oC defs 64 b).map fun k => f x y (BitVec.ofNat 6 k),
      (opsShiftW.lookup m).bind fun f => (oX d).bind fun x => (oX a).bind fun y => (oC defs 32 b).map fun k => f x y (BitVec.ofNat 5 k),
      (opsPCmp.lookup m).bind fun f => (oP d).bind fun x => two (f x) a b,
      (opsP3.lookup m).bind fun f => (oP d).bind fun x => (oP a).bind fun y => (oP b).map (f x y),
      (qualified opsF3 qPrec ps).bind fun f => three f d a b,
      (qualified opsFCmp qPrec ps).bind fun f => (oP d).bind fun x => two (f x) a b,
      match ps with
      | "red" :: f :: w => (qScope f).bind fun f => (qAtom w).bind fun w => (oRed d).bind fun o => (oB a).bind fun y => (oX b).map (.red o f w y)
      | o :: f :: w => (opsAmo.lookup o).bind fun g => (qScope f).bind fun f => (qAtom w).bind fun w => (oX d).bind fun x => (oB a).bind fun y => (oX b).map (g f w x y)
      | _ => none,
      read3 defs m d a b]
  | [d, a, b, c] => firstOf [
      (qualified opsF4 qPrec ps).bind fun f => (oX d).bind fun x => three (f x) a b c,
      match ps with
      | "ramo" :: w => (qAtom w).bind fun w => (oAmo d).bind fun o => (oB a).bind fun y => two (.ramo o w y) b c
      | ["tcopy"] => (oB d).bind fun x => (oB a).bind fun y => (oX b).bind fun z => (oB c).map (.tcopy x y z)
      | _ => none]
  | [d, a, b, c, e] => read5 defs m d a b c e
  | _ => none
/-- The width and the `.b` of a vector memory form, in either order (R282, R341, R342). -/
def vecQual : List String → Option (Bool × Width)
  | [w] => (qWidth w).map fun w => (false, w)
  | ["b", w] => (qWidth w).map fun w => (true, w)
  | [w, "b"] => (qWidth w).map fun w => (true, w)
  | _ => none
/-- Three v registers and the mask. -/
def vvv (f : VReg → VReg → VReg → MReg → Instr) (g : MReg) (d a b : Opnd) : Option Instr :=
  (oV d).bind fun x => (oV a).bind fun y => (oV b).map fun z => f x y z g
/-- Two v registers, an x register and the mask. -/
def vvx (f : VReg → VReg → Reg → MReg → Instr) (g : MReg) (d a b : Opnd) : Option Instr :=
  (oV d).bind fun x => (oV a).bind fun y => (oX b).map fun z => f x y z g
/-- Two v registers and the mask. -/
def vv (f : VReg → VReg → MReg → Instr) (g : MReg) (d a : Opnd) : Option Instr := (oV d).bind fun x => (oV a).map fun y => f x y g
/-- A mask, two v registers and the governing mask. -/
def mvv (f : MReg → VReg → VReg → MReg → Instr) (g : MReg) (d a b : Opnd) : Option Instr :=
  (oM d).bind fun x => (oV a).bind fun y => (oV b).map fun z => f x y z g
/-- The second source is a v register, or an x register broadcast (R345, R348). -/
def vecOr (f : (VReg → VReg → VReg → MReg → Instr) × (VReg → VReg → Reg → MReg → Instr)) (g : MReg) (d a b : Opnd) : Option Instr :=
  firstOf [vvv f.1 g d a b, vvx f.2 g d a b]
/-- Vector instructions of three operands before the mask that are in no list. -/
noncomputable def readVec3 (ps : List String) (g : MReg) (d a b : Opnd) : Option Instr :=
  match ps with
  | ["vfdot", q] => (qFmt q).bind fun f => vvv (.vfdot f) g d a b
  | ["vpack", q] => (qPack q).bind fun w => vvv (.vpack w) g d a b
  | ["vcvt"] => vvx .vcvt g d a b
  | ["vlogadd"] => vvv .vlogadd g d a b
  | ["vsdq"] => (oV d).bind fun x => (oX a).bind fun y => (oX b).map fun z => .vsdq x y z g
  | "vlds" :: q => (vecQual q).bind fun (e, w) => (oV d).bind fun x => (oB a).bind fun y => (oX b).map fun z => .vlds e w x y z g
  | ["vsts", q] => (qWidth q).bind fun w => (oB d).bind fun y => (oX a).bind fun z => (oV b).map fun x => .vsts w x y z g
  | "vgather" :: q => (vecQual q).bind fun (e, w) => (oV d).bind fun x => (oB a).bind fun y => (oV b).map fun z => .vgather e w x y z g
  | ["vscatter", q] => (qWidth q).bind fun w => (oB d).bind fun y => (oV a).bind fun z => (oV b).map fun x => .vscatter w x y z g
  | _ => none
/-- Vector instructions of two operands before the mask that are in no list. -/
noncomputable def readVec2 (ps : List String) (g : MReg) (d a : Opnd) : Option Instr :=
  match ps with
  | ["vmov"] => vv .vmov g d a
  | ["vfsqrt", q] => (qFmt q).bind fun f => vv (.vfsqrt f) g d a
  | ["vrev", q] => (qWidth q).bind fun w => vv (.vrev w) g d a
  | ["vbcast", q] => (qWidth q).bind fun w => (oV d).bind fun x => (oX a).map fun y => .vbcast w x y g
  | ["vcvt"] => vv (fun x y => .vcvt x y 0#5) g d a
  | ["vunpack", "lo", q] => (qPack q).bind fun w => vv (.vunpackLo w) g d a
  | ["vunpack", "hi", q] => (qPack q).bind fun w => vv (.vunpackHi w) g d a
  | ["vld"] => (oV d).bind fun x => (oB a).map fun y => .vld false x y g
  | ["vld", "b"] => (oV d).bind fun x => (oB a).map fun y => .vld true x y g
  | ["vst"] => (oB d).bind fun y => (oV a).map fun x => .vst x y g
  | ["vtolog"] => vv .vtolog g d a
  | ["vfromlog"] => vv .vfromlog g d a
  | _ => none
/-- Mask logic, and the vector instructions that no mask governs (R343, R352, R353, R356, R339). -/
noncomputable def readFree (ps : List String) (ops : List Opnd) : Option Instr :=
  match ops, ps with
  | [d, a], ["mnot"] => (oM d).bind fun x => (oM a).map (.mnot x)
  | [d, a], ["mcnt"] => (oX d).bind fun x => (oM a).map (.mcnt x)
  | [d, a], ["mfirst"] => (oX d).bind fun x => (oM a).map (.mfirst x)
  | [q, a], ["vldq"] => (oQ q).bind fun j => (oB a).map (.vldq false j)
  | [q, a], ["vldq", "b"] => (oQ q).bind fun j => (oB a).map (.vldq true j)
  | [d, a, b], ["vext", q] => (qWidth q).bind fun w => (oX d).bind fun x => (oV a).bind fun y => (oX b).map (.vext w x y)
  | [d, a, b], ["vwhile", q] => (qWidth q).bind fun w => (oM d).bind fun x => two (.vwhile false w x) a b
  | [d, a, b], ["vwhile", "u", q] => (qWidth q).bind fun w => (oM d).bind fun x => two (.vwhile true w x) a b
  | [d, a, b], [n] => (opsM3.lookup n).bind fun f => (oM d).bind fun x => (oM a).bind fun y => (oM b).map (f x y)
  | [d, a, b, k], ["vsel"] => (oV d).bind fun x => (oV a).bind fun y => (oV b).bind fun z => (oM k).map (.vsel x y z)
  | _, _ => none
/-- Vector, modular and log-domain instructions (R338 to R369). -/
noncomputable def readVector (defs : List (String × Word)) (m : String) (ps : List String) (ops : List Opnd) : Option Instr :=
  let (ops1, g) := unmask ops
  let (ops2, j) := unpair ops1
  let dup (l : List Opnd) : List Opnd := match l with
    | [d, b] => if shortBases.contains m && (oV b).isSome then [d, d, b] else l
    | _ => l
  firstOf [
    match dup ops1 with
    | [d, a, b] => firstOf [
        (qualified (opsV.map fun e => (e.1, fun w => (e.2.1 w, e.2.2 w))) qWidth ps).bind fun f => vecOr f g d a b,
        (opsVLogic.lookup m).bind fun f => vecOr f g d a b,
        (qualified (opsVF.map fun e => (e.1, fun w => (e.2.1 w, e.2.2 w))) qFmt ps).bind fun f => vecOr f g d a b,
        (qualified opsVCmp qWidth ps).bind fun f => mvv f g d a b,
        (qualified opsVFCmp qFmt ps).bind fun f => mvv f g d a b,
        (qualified opsVPerm qWidth ps).bind fun f => vvv f g d a b,
        (qualified opsVSlide qWidth ps).bind fun f => vvx f g d a b,
        readVec3 ps g d a b]
    | [d, a] => firstOf [
        (qualified opsVRed qWidth ps).bind fun f => (oX d).bind fun x => (oV a).map fun y => f x y g,
        (qualified opsVFRed qFmt ps).bind fun f => (oX d).bind fun x => (oV a).map fun y => f x y g,
        readVec2 ps g d a]
    | [d, a, b, k] => match ps with
      | ["vpermb"] => (oC defs 8 k).bind fun n => vvv (.vpermb (BitVec.ofNat 3 n)) g d a b
      | _ => none
    | _ => none,
    match dup ops2 with
    | [d, a, b] => firstOf [
        (qualified opsMod qLane ps).bind fun f => vvv (f j) g d a b,
        (qualified opsBfly qLane ps).bind fun f => (oV d).bind fun x => (oC defs 32 a).bind fun k => (oV b).map fun z => f j x (BitVec.ofNat 5 k) z g]
    | _ => none,
    readFree ps ops]
/-- The items of a `fmt` statement (R384). -/
def fmtItem : Opnd → Option FmtItem
  | .item "a" n => some (.fmt 0 n)
  | .item "b" n => some (.fmt 1 n)
  | .item "c" n => some (.fmt 2 n)
  | .item "d" n => some (.fmt 3 n)
  | .item "rm" n => some (.rm n)
  | o => if oName o == some "sat" then some .sat else none
/-- Statements of one operand with an address or an offset. -/
noncomputable def readAddr1 (m : String) (t : Opnd) : Option Stmt :=
  match m with
  | "j" => (oE t).map (.jump 0#5)
  | "call" => (oE t).map (.jump 1#5)
  | "empty" => (oMem t).map fun (r, e) => .imm (.empty r 0#12) e
  | _ => none
/-- Statements of two operands with an address, an offset or a constant. -/
noncomputable def readAddr2 (defs : List (String × Word)) (m : String) (d t : Opnd) : Option Stmt :=
  match m with
  | "li" => (oX d).bind fun x => ((oE t).bind (aval defs 0#64)).map (.li x)
  | "la" => (oX d).bind fun x => (oE t).map (.la x)
  | "jal" => (oX d).bind fun x => (oE t).map (.jump x)
  | "lui" => (oX d).bind fun x => (oE t).map fun e => .imm (.lui x 0#20) e
  | "auipc" => (oX d).bind fun x => (oE t).map fun e => .imm (.auipc x 0#20) e
  | "bp" => (oP d).bind fun p => (oE t).map (.branch (.bp p 0#12))
  | "bnp" => (oP d).bind fun p => (oE t).map (.branch (.bnp p 0#12))
  | "beqz" => (oX d).bind fun x => (oE t).map (.branch (.beq x 0#5 0#12))
  | "bnez" => (oX d).bind fun x => (oE t).map (.branch (.bne x 0#5 0#12))
  | "tagq" => (oP d).bind fun p => (oMem t).map fun (r, e) => .imm (.tagq p r 0#12) e
  | _ => firstOf [
      (opsLoad.lookup m).bind fun f => (oX d).bind fun x => (oMem t).map fun (r, e) => .imm (f x r 0#12) e,
      (opsStore.lookup m).bind fun f => (oMem d).bind fun (r, e) => (oX t).map fun y => .imm (f r y 0#12) e]
/-- Statements of three operands with an address or an immediate. -/
noncomputable def readAddr3 (m : String) (a b t : Opnd) : Option Stmt := firstOf [
  (opsBranch.lookup m).bind fun f => (oX a).bind fun x => (oX b).bind fun y => (oE t).map (.branch (f x y 0#12)),
  (opsSwapped.lookup m).bind fun f => (oX a).bind fun x => (oX b).bind fun y => (oE t).map (.branch (f y x 0#12)),
  (opsImm.lookup m).bind fun f => (oX a).bind fun x => (oX b).bind fun y => (oE t).map fun e => .imm (f x y 0#12) e]
/-- A statement that is an instruction or a pseudo-instruction. -/
noncomputable def readStmt (defs : List (String × Word)) (mnem : String) (ops : List Opnd) : Option Stmt :=
  let ps := splitDots [] mnem.toList
  let m := joinDots ps
  if m == "fmt" then (ops.mapM fmtItem).bind fun l => (fmtOf l).map .ins
  else firstOf [
    match ops with
    | [] => match ps with
      | ["fence", f] => (qScope f).map fun f => .ins (.fence f)
      | _ => none
    | [t] => readAddr1 m t
    | [d, t] => readAddr2 defs m d t
    | [a, b, t] => readAddr3 m a b t
    | _ => none,
    (readScalar defs m ps ops).map .ins,
    (readVector defs m ps ops).map .ins]

/-! ## Directives and lines (R281, R285) -/

/-- What a line says beside a statement of the current section. -/
inductive Decl where
  | stmt (s : Stmt)
  | role (name : String) (step : Bool)
  | inSection (text : Bool)
  | place (first count : AExp) (role : String)
  | boottree (pos mask : AExp)
  | globalSym (name : String)
deriving DecidableEq, Repr
/-- The permission bits that the letters of a `.lease` set (R285, R59). -/
def leaseFlags : List Char → Option (BitVec 5)
  | [] => some 0#5
  | c :: t => (leaseFlags t).bind fun v =>
    (['r', 'w', 'x', 'i', 'c'].findIdx? fun k => k == c).bind fun k => if v.getLsbD k then none else some (v ||| (1#5 <<< k))
/-- The name that an operand writes, its letters as they stand. -/
def oSym : Opnd → Option String
  | .exp (.sym s) => some s
  | _ => none
/-- A directive (R285). -/
def readDirective (defs : List (String × Word)) (d : String) (ops : List Opnd) : Option Decl :=
  match d, ops with
  | ".role", [n] => (oSym n).map fun s => .role s false
  | ".role", [n, k] => (oSym n).bind fun s => if oName k == some "step" then some (.role s true) else none
  | ".text", [] => some (.inSection true)
  | ".data", [] => some (.inSection false)
  | ".place", [f, c, r] => (oE f).bind fun f => (oE c).bind fun c => (oSym r).map (.place f c)
  | ".boottree", [p, m] => (oE p).bind fun p => (oE m).map (.boottree p)
  | ".lease", [b, n, f] => (oE b).bind fun b => (oE n).bind fun n => ((oName f).bind fun s => leaseFlags s.toList).map fun v => .stmt (.lease b n v)
  | ".equ", [n, e] => (oSym n).bind fun s => (oE e).map fun e => .stmt (.equ s e)
  | ".global", [n] => (oSym n).map .globalSym
  | ".align", [n] => (oC defs 17 n).map fun k => .stmt (.align k)
  | ".byte", _ => (ops.mapM oE).map fun l => .stmt (.data 1 l)
  | ".half", _ => (ops.mapM oE).map fun l => .stmt (.data 2 l)
  | ".word", _ => (ops.mapM oE).map fun l => .stmt (.data 4 l)
  | ".dword", _ => (ops.mapM oE).map fun l => .stmt (.data 8 l)
  | ".space", [n] => (oC defs (2 ^ 32) n).map fun k => .stmt (.space k 0#8)
  | ".space", [n, b] => (oC defs (2 ^ 32) n).bind fun k => ((oE b).bind (aval defs 0#64)).bind fun v =>
      if fitsData 1 v then some (.stmt (.space k (v.setWidth 8))) else none
  | ".proc", [n] => (oSym n).map fun s => .stmt (.proc s)
  | ".endproc", [] => some (.stmt .endproc)
  | _, _ => none
/-- A line of a source: its label and what it declares (R281). None is an error. -/
noncomputable def readLine (defs : List (String × Word)) (text : List Char) : Option (Option String × Option Decl) :=
  (lexLine [] text).bind fun ts =>
    let (label, rest) := match ts with
      | .word l :: .op ":" :: t => (some l, t)
      | _ => (none, ts)
    if label == some "." then none
    else match rest with
      | [] => some (label, none)
      | .word m :: t => (readOps t).bind fun ops =>
        (if m.toList.head? == some '.' then readDirective defs m.toLower ops else (readStmt defs m ops).map .stmt).map fun d => (label, some d)
      | _ => none

end Sys2Proof.Machine
end

