-- ==== Sys2Proof/Machine/Linker.lean ====
section
/-! DEFINITION. The linker `yld`: sources with their roles, sections and symbols (R285), and the image it writes (R286 to R291). The spec names
no source form for a role's two addresses; they are given with the sources, and the order of the sections is the model's (assumption 91). -/
namespace Sys2Proof.Machine

/-! ## Sources (R281, R285) -/

/-- A source as read: its roles with their step attribute, in order of their first `.role`, the lines of each role's sections, latest first, the
placement entries, the boot-tree bytes and the exported names. -/
structure Source where
  roles   : List (String × Bool) := []
  parts   : List ((String × Bool) × List Line) := []
  places  : List (AExp × AExp × String) := []
  boots   : List (AExp × AExp) := []
  globals : List String := []
  /-- the section that is current: its role, and whether it is the text -/
  cur     : Option (String × Bool) := none
  /-- `.equ` before any `.role`, and the constants that later lines may use where a value is needed at once -/
  equs    : List (String × AExp) := []
  consts  : List (String × Word) := []
deriving DecidableEq, Repr
/-- The lines of a section so far. -/
def Source.part (s : Source) (k : String × Bool) : List Line := (s.parts.lookup k).getD []
/-- Add a line to the current section. A line that places nothing needs no section. -/
def Source.put (s : Source) (l : Line) : Option Source := match s.cur with
  | some k => some { s with parts := (k, l :: s.part k) :: s.parts.filter fun e => e.1 != k }
  | none => if l.label.isNone && (l.stmt.isNone || l.stmt == some .other) then some s else none
/-- A role begins or is resumed, its text current; its statements agree on the step attribute (R285). A name has at most 16 bytes (R288). -/
def Source.inRole (s : Source) (n : String) (step : Bool) : Option Source :=
  if 16 < n.utf8ByteSize then none
  else match s.roles.lookup n with
    | some b => if b = step then some { s with cur := some (n, true) } else none
    | none => some { s with roles := s.roles ++ [(n, step)], cur := some (n, true) }
/-- A line's declaration takes effect (R285). -/
def Source.declare (s : Source) (no : Nat) (label : Option String) : Option Decl → Option Source
  | none => s.put { label := label, stmt := none, no := no }
  | some (.stmt (.equ n e)) =>
    let s := match aval s.consts 0#64 e with
      | some v => { s with consts := s.consts ++ [(n, v)] }
      | none => s
    if s.cur.isSome then s.put { label := label, stmt := some (.equ n e), no := no }
    else if label.isSome then none else some { s with equs := s.equs ++ [(n, e)] }
  | some (.stmt (.lease b n f)) =>
    if s.cur.all fun k => k.2 then none else s.put { label := label, stmt := some (.lease b n f), no := no }
  | some (.stmt st) => s.put { label := label, stmt := some st, no := no }
  | some d => (s.put { label := label, stmt := some .other, no := no }).bind fun s => match d with
    | .role n step => s.inRole n step
    | .inSection t => s.cur.map fun k => { s with cur := some (k.1, t) }
    | .place f c r => some { s with places := s.places ++ [(f, c, r)] }
    | .boottree p m => some { s with boots := s.boots ++ [(p, m)] }
    | .globalSym n => some { s with globals := s.globals ++ [n] }
    | .stmt _ => some s
/-- Read a source's lines, numbered from 1. -/
noncomputable def readSource (no : Nat) (s : Source) : List (List Char) → Option Source
  | [] => some s
  | t :: r => (readLine s.consts t).bind fun (label, d) => (s.declare no label d).bind fun s => readSource (no + 1) s r
/-- The lines of a text. -/
def textLines (cur : List Char) : List Char → List (List Char)
  | [] => [cur.reverse]
  | '\n' :: t => cur.reverse :: textLines [] t
  | c :: t => textLines (c :: cur) t
/-- A source of a text. -/
noncomputable def sourceOf (text : String) : Option Source := readSource 1 {} (textLines [] text.toList)

/-! ## Sections and symbols -/

/-- A source's part of a section, laid out. -/
structure Segment where
  src  : Nat
  role : Nat
  text : Bool
  ps   : List Placed
deriving DecidableEq, Repr
/-- Lay out a role's section: each source's part after the one before it. -/
noncomputable def layRole (name : String) (role : Nat) (text : Bool) (pc k : Nat) : List Source → Option (List Segment)
  | [] => some []
  | s :: t =>
    let ls := (s.part (name, text)).reverse
    if text && !fmtOk ls then none
    else (layout text [] [] pc false ls).bind fun ps =>
      (layRole name role text (pc + (ps.map Placed.size).sum) (k + 1) t).map fun l => { src := k, role := role, text := text, ps := ps } :: l
/-- The symbols that a source's parts define: labels and `.equ` (R281, R285). -/
noncomputable def ownSyms (segs : List Segment) (s : Source) (k : Nat) : List (String × Word) :=
  let ps := ((segs.filter fun g => g.src = k).map (·.ps)).flatten
  let defs := s.equs.map (fun e => (e.1, 0, e.2)) ++ equsOf ps
  equate defs (labelsOf ps) defs.length
/-- Names that a source defines: every label and every `.equ`, with a value or not. -/
def definedNames (segs : List Segment) (s : Source) (k : Nat) : List String :=
  let ps := ((segs.filter fun g => g.src = k).map (·.ps)).flatten
  (labelsOf ps).map (·.1) ++ s.equs.map (·.1) ++ (equsOf ps).map (·.1)
/-- The bytes of a function: from its `.proc` to the next `.endproc` (R285). -/
def procSize (n : String) (ps : List Placed) : Option Nat :=
  let past := ps.dropWhile fun p => p.line.stmt != some (.proc n)
  match past.head?, past.find? fun p => p.line.stmt == some .endproc with
  | some a, some b => some (b.at0 - a.at0)
  | _, _ => none
/-- `.proc` and `.endproc` pair up in a section's lines. -/
def procsOk (opened : Bool) : List Placed → Bool
  | [] => !opened
  | p :: t => match p.line.stmt with
    | some (.proc _) => !opened && procsOk true t
    | some .endproc => opened && procsOk false t
    | _ => procsOk opened t
/-- An entry of the symbol section before its name is placed (R291). -/
structure Symbol where
  name  : String
  value : Word
  size  : Nat
  role  : Nat
  kind  : Nat
  glob  : Bool
deriving DecidableEq, Repr
/-- The symbols of a source with their kinds: 0 label, 1 proc, 2 equ (R291). -/
noncomputable def symbolsOf (segs : List Segment) (s : Source) (k : Nat) (syms : List (String × Word)) : List Symbol :=
  let own := segs.filter fun g => g.src = k
  let labels := (own.map fun g => (labelsOf g.ps).map fun e =>
    let z := procSize e.1 g.ps
    { name := e.1, value := e.2, size := z.getD 0, role := g.role, kind := if z.isSome then 1 else 0, glob := s.globals.contains e.1 : Symbol }).flatten
  let equ (n : String) (r : Nat) : Option Symbol := (syms.lookup n).map fun v => { name := n, value := v, size := 0, role := r, kind := 2, glob := s.globals.contains n }
  labels ++ s.equs.filterMap (fun e => equ e.1 0xFFFF) ++ (own.map fun g => (equsOf g.ps).filterMap fun e => equ e.1 g.role).flatten

/-! ## The image (R287 to R291) -/

/-- A multiple of a size at or above a value. -/
def alignTo (g n : Nat) : Nat := (n + g - 1) / g * g
/-- Chunks of bytes at rising offsets laid into a string, zeros between. -/
def fillOut (at0 : Nat) : List (Nat × List Byte) → List Byte
  | [] => []
  | (o, b) :: t => repeatN 0#8 (o - at0) ++ b ++ fillOut (o + b.length) t
/-- The bytes of a name. -/
def nameBytes (s : String) : List Byte := s.toUTF8.toList.map fun b => BitVec.ofNat 8 b.toNat
/-- Offsets of some extents, each at a multiple of a size from an offset, and the end. -/
def extents (g at0 : Nat) : List Nat → List Nat × Nat
  | [] => ([], at0)
  | n :: t => let r := extents g (alignTo g at0 + n) t
              (alignTo g at0 :: r.1, r.2)
/-- An entry of the role table (R288). -/
def roleBytes (name : String) (step : Bool) (tv dv : Word) (toff tsize doff dsize : Nat) : List Byte :=
  let n := nameBytes name
  n ++ repeatN 0#8 (16 - n.length) ++ [if step then 1#8 else 0#8] ++ repeatN 0#8 7 ++ bytesOf tv 8 ++ bytesOfNat toff 4 ++ bytesOfNat tsize 4
    ++ bytesOf dv 8 ++ bytesOfNat doff 4 ++ bytesOfNat dsize 4 ++ repeatN 0#8 8
/-- The placement table (R289). -/
def placeBytes (es : List (Nat × Nat × Nat)) : List Byte :=
  bytesOfNat es.length 8 ++ (es.map fun e => bytesOfNat e.1 2 ++ bytesOfNat e.2.1 2 ++ bytesOfNat e.2.2 4).flatten
/-- The boot-tree section (R290): a position that nothing sets has mask 0, and the last setting of a position counts. -/
def bootBytes (l : List (Nat × Nat)) : List Byte :=
  (List.range 1024).map fun p => BitVec.ofNat 8 (((l.filter fun e => e.1 == p).getLast?.map (·.2)).getD 0)
/-- The symbol section (R291): its count, its entries, and the names. -/
def symBytes (l : List Symbol) : List Byte :=
  let names := l.map fun y => nameBytes y.name ++ [0#8]
  let offs := (extents 1 0 (names.map List.length)).1
  bytesOfNat l.length 8 ++ ((l.zip offs).map fun (y, o) =>
    bytesOf y.value 8 ++ bytesOfNat y.size 4 ++ bytesOfNat y.role 2 ++ [BitVec.ofNat 8 y.kind, if y.glob then 1#8 else 0#8] ++ bytesOfNat o 4 ++ bytesOfNat 0 4).flatten
    ++ names.flatten
/-- The line section (R291): one entry for each statement that places bytes in a text section. -/
noncomputable def lineBytes (segs : List Segment) : List Byte :=
  (segs.map fun g => if !g.text then [] else
    (g.ps.map fun p => if p.size = 0 then [] else bytesOfNat p.at0 8 ++ bytesOfNat p.line.no 4 ++ bytesOfNat g.src 2 ++ bytesOfNat g.role 2).flatten).flatten
/-- Values of two expressions; none is an error. -/
def avals (syms : List (String × Word)) (a b : AExp) : Option (Nat × Nat) :=
  (aval syms 0#64 a).bind fun x => (aval syms 0#64 b).map fun y => (x.toNat, y.toNat)
/-- A role image: its name, its step attribute and its two addresses (R288). -/
structure Role where
  name : String
  step : Bool
  tv   : Word
  dv   : Word
deriving DecidableEq, Repr
/-- The roles of some sources in the order of their first `.role`, 1 to 64, the sources agreeing on the step attribute (R285, R287). -/
def rolesOf (srcs : List Source) (addrs : List (String × Word × Word)) : Option (List Role) :=
  let l := ((srcs.map Source.roles).flatten.map (·.1)).eraseDups
  let one (n : String) : Option Role := (addrs.lookup n).bind fun a =>
    match ((srcs.map Source.roles).flatten.filter fun e => e.1 == n).map (·.2) with
    | [] => none
    | b :: t => if t.all (· == b) && a.1.toNat % 4096 = 0 && a.2.toNat % 4096 = 0 then some { name := n, step := b, tv := a.1, dv := a.2 } else none
  if l.isEmpty || 64 < l.length then none else l.mapM one
/-- Every role's text, or every role's data, laid out. -/
noncomputable def sideOf (srcs : List Source) (roles : List Role) (text : Bool) : Option (List (List Segment)) :=
  roles.zipIdx.mapM fun (r, k) => layRole r.name k text (if text then r.tv else r.dv).toNat 0 srcs
/-- The symbols that a source sees: its own, and what the others export (R285). -/
def visible (srcs : List Source) (own : List (List (String × Word))) (k : Nat) : List (String × Word) :=
  own.getD k [] ++ ((srcs.zip own).zipIdx.map fun (e, j) => if j = k then [] else e.2.filter fun y => e.1.globals.contains y.1).flatten
/-- Every name has one definition and a value, and what a source exports it defines (R285, R286). -/
def symsOk (segs : List Segment) (srcs : List Source) (own : List (List (String × Word))) : Bool := srcs.zipIdx.all fun (s, k) =>
  let l := own.getD k []
  let names := definedNames segs s k
  names.Nodup && l.length == names.length && s.globals.all (fun n => l.any fun e => e.1 == n) && ((visible srcs own k).map (·.1)).Nodup
/-- The bytes of the sections of one side, one string for each role. -/
noncomputable def sideBytes (sees : Nat → List (String × Word)) (l : List (List Segment)) : Option (List (List Byte)) :=
  l.mapM fun gs => (gs.mapM fun (g : Segment) => (g.ps.mapM fun (p : Placed) => p.emit g.text (sees g.src)).map List.flatten).map List.flatten
/-- The placement entries of a source (R289). -/
def placesOf (roles : List Role) (syms : List (String × Word)) (s : Source) : Option (List (Nat × Nat × Nat)) :=
  s.places.mapM fun (f, c, r) => (avals syms f c).bind fun (x, y) =>
    (roles.findIdx? fun e => e.name == r).bind fun i => if x < 2 ^ 16 ∧ 1 ≤ y ∧ y ≤ 1024 then some (x, y, i) else none
/-- The boot-tree bytes that a source sets (R290). -/
def treeOf (syms : List (String × Word)) (s : Source) : Option (List (Nat × Nat)) :=
  s.boots.mapM fun (p, m) => (avals syms p m).bind fun (x, y) => if x < 1024 ∧ y < 16 then some (x, y) else none
/-- An image of its roles, their texts and data, and its other sections, one that is empty having offset 0 (R287). -/
def linkedImage (roles : List Role) (ts ds : List (List Byte)) (place boot syms lines : List Byte) : List Byte :=
  let (toffs, e1) := extents 4096 (256 + 64 * roles.length) (ts.map List.length)
  let (doffs, e2) := extents 4096 e1 (ds.map List.length)
  let rest := [place, boot, syms, lines]
  let (offs, size) := extents 8 e2 (rest.map List.length)
  let off (k : Nat) (b : List Byte) : Nat := if b.isEmpty then 0 else offs.getD k 0
  let header := bytesOfNat 0x49595A47 4 ++ bytesOfNat 1 2 ++ bytesOfNat roles.length 2 ++ bytesOfNat size 8 ++ bytesOfNat 256 8
    ++ bytesOfNat (off 0 place) 8 ++ bytesOfNat (off 1 boot) 8 ++ bytesOfNat (off 2 syms) 8 ++ bytesOfNat syms.length 8
    ++ bytesOfNat (off 3 lines) 8 ++ bytesOfNat lines.length 8
  let entry (e : Role × (Nat × List Byte) × (Nat × List Byte)) : List Byte :=
    roleBytes e.1.name e.1.step e.1.tv e.1.dv e.2.1.1 e.2.1.2.length e.2.2.1 e.2.2.2.length
  let table := ((roles.zip ((toffs.zip ts).zip (doffs.zip ds))).map entry).flatten
  fillOut 0 ([(0, header), (256, table)] ++ toffs.zip ts ++ doffs.zip ds ++ offs.zip rest)
/-- Link sources: their file names with what was read of them, and for each role its text and data addresses. None is an error, and no image
is written (R286). -/
noncomputable def link (files : List (String × Source)) (addrs : List (String × Word × Word)) : Option (List Byte) :=
  let srcs := files.map (·.2)
  (rolesOf srcs addrs).bind fun roles =>
  (sideOf srcs roles true).bind fun texts => (sideOf srcs roles false).bind fun datas =>
    let segs := texts.flatten ++ datas.flatten
    let own := srcs.zipIdx.map fun (s, k) => ownSyms segs s k
    let sees := visible srcs own
    if !symsOk segs srcs own || !(segs.all fun g => procsOk false g.ps) then none
    else
      (sideBytes sees texts).bind fun ts => (sideBytes sees datas).bind fun ds =>
      (srcs.zipIdx.mapM fun (s, k) => placesOf roles (sees k) s).bind fun places =>
      (srcs.zipIdx.mapM fun (s, k) => treeOf (sees k) s).bind fun tree =>
        let place := if places.flatten.isEmpty then [] else placeBytes places.flatten
        let boot := if tree.flatten.isEmpty then [] else bootBytes tree.flatten
        let named := (srcs.zipIdx.map fun (s, k) => symbolsOf segs s k (own.getD k [])).flatten
        let fileSyms := files.zipIdx.map fun ((f : String × Source), k) =>
          ({ name := f.1, value := BitVec.ofNat 64 k, size := 0, role := 0xFFFF, kind := 3, glob := false } : Symbol)
        if 1024 < places.flatten.length then none
        else some (linkedImage roles ts ds place boot (symBytes (named ++ fileSyms)) (lineBytes segs))

end Sys2Proof.Machine
end

