-- ==== Sys2Proof/Tests/Slice0.lean ====
section
/-! SUPPORT. Tests: the checks of WellFormed refuse ill-formed terms; words written out bit by bit from the spec's encodings decode to the
instructions they stand for; single steps give the values of the spec's worked examples and rules; and, for the hypotheses of the
statements, concrete states and operands that meet them (the witness theorems). -/
namespace Sys2Proof.Tests
open Sys2Proof Sys2Proof.Machine Sys2Proof.Claims
set_option maxRecDepth 20000
set_option Elab.async false
noncomputable section

/-! ## A small state -/

/-- A launch on two cores: its spans name core 0's scratchpad, memory space and core 1's scratchpad; it leases the first 1 MiB of memory. -/
def aLaunch (step : Bool) : Launch :=
  { blankLaunch 1 [0, 1] [(0, 0), (1, 0)] step with
    spans := [{ vbase := 0#64, vlimit := 0x40000#64, offset := 0xFF800000000000#64, attr := 7#64 },
              { vbase := 0x100000#64, vlimit := 0x200000#64, offset := 0xFF000000000000#64, attr := 7#64 },
              { vbase := 0x200000#64, vlimit := 0x240000#64, offset := 0xFF800000400000#64, attr := 3#64 }],
    leases := [{ base := memIa 0, pages := 16, r := true, w := true, x := true, inp := false, ctl := false }],
    levels := [(0, (0, .g)), (1, (0, .g)), (2, (0, .g))] }
/-- The module with the launch, and a group of one thread of it on core 0. -/
def aState (step : Bool) : State :=
  (({ State.reset with launches := [aLaunch step] }.modCore 0 fun c => { c with lid := 1, hasRole := true }).modCore 1 fun c =>
    { c with lid := 1, hasRole := true, lcore := 1 }).startGroup 0 (aLaunch step) (plainRecord 0x1000#64) none
/-- The thread in slot 0 of a state's core 0. -/
def thr (s : State) : Thread := (s.thread? 0 0).getD (startThread (aLaunch false) (plainRecord 0#64) (fun _ => 0#64) 0 0 0 none 0#64)
/-- The first group of a state's core 0. -/
def grp (s : State) : Group := ((s.core 0).groups.head?).getD
  { gid := 0, lid := 0, base := 0, len := 0, gen := 0, lowSlot := 0, size := 0, nvec := 0, nomad := false, record := [], member := none, spans := [],
    tvec := 0#64, binds := [], arrivals := [], barX := [], barT := [], exited := 0, order := 0, dying := none, drain := 0, indet := 0, badList := [],
    stopAt := 0#64, stopped := none, stepping := false, detached := false, heldExit := false, check := none, digest := 0#128, heldDecs := [] }
/-- A state's first launch. -/
def lau (s : State) : Launch := s.launches.headD (aLaunch false)
/-- The small state with its thread changed. -/
def withT (f : Thread → Thread) : State := (aState false).modThread 0 0 f
/-- The small state with its group changed. -/
def withG (f : Group → Group) : State := (aState false).modGroup 0 0 f
/-- The small state with its core changed. -/
def withC (f : Core → Core) : State := (aState false).modCore 0 f
/-- An x register set. -/
def setX (r : Reg) (v : Word) (t : Thread) : Thread := { t with x := t.x.set (regIx r) v }

/-! ## WellFormed refuses -/

theorem test_wf_fcvt : Instr.wf (.fcvt .s .s 1#5 2#5) = false := by decide
theorem test_wf_fcvt_ints : Instr.wf (.fcvt .w .lu 1#5 2#5) = false := by decide
theorem test_wf_bind : Instr.wf (.bind 1#5 2#5 6#7) = false ∧ Instr.wf (.bind 1#5 2#5 48#7) = false := by decide
theorem test_wf_stage : Instr.wf (.vbflyCt .m64 0#2 1#5 5#5 2#5 0#3) = false ∧ Instr.wf (.vbflyGs .m32 0#2 1#5 6#5 2#5 0#3) = false := by decide
theorem test_wf_bflyx : Instr.wf (.vbflyxCt .m64 0#2 4#5 4#5 2#5 0#3) = false ∧ Instr.wf (.vbflyxGs .m64 0#2 4#5 4#5 2#5 0#3) = false := by decide
theorem test_wf_pair : Instr.wf (.evnext 0#5) = false ∧ Instr.wf (.evpeek 7#5) = false := by decide
theorem test_wf_csr : Instr.wf (.csrr 0x009#12 1#5) = false ∧ Instr.wf (.csrw 0x015#12 1#5) = false ∧ Instr.wf (.csrs 0x028#12 1#5) = false ∧
    Instr.wf (.csrc 0x060#12 1#5) = false := by decide
theorem test_wf_fmt : Instr.wf (.fmt 0#1 6#3 0#4 0#4 0#4 0#4) = false := by decide
theorem test_wf_vmov16 : Instr.wf (.vmov16 0#1 0#5 0#5) = false := by decide

/-! ## Words written out from the encodings of the spec (R261 to R274) -/

theorem test_decode_integer : decodeWord 0x00A09401#32 = .ok (.add 8#5 9#5 10#5) ∧ decodeWord 0x03FC8283#32 = .ok (.slli 5#5 8#5 63#6) ∧
    decodeWord 0x00000003#32 = .ok (.addi 0#5 0#5 0#12) := by decide +kernel
theorem test_decode_bits : decodeWord (0x1C#7 ++ 0#5 ++ 0#3 ++ 28#5 ++ 28#5 ++ 0x00#6 ++ 1#1) = .ok (.popc 28#5 28#5) ∧
    decodeWord (0x09#7 ++ 3#5 ++ 1#3 ++ 2#5 ++ 1#5 ++ 0x00#6 ++ 1#1) = .ok (.sraW 1#5 2#5 3#5) ∧
    decodeWord (0x12345#20 ++ 7#5 ++ 0x03#6 ++ 1#1) = .ok (.lui 7#5 0x12345#20) := by decide +kernel
theorem test_decode_branches : decodeWord 0xFE908CB9#32 = .ok (.beq 8#5 9#5 4089#12) ∧ decodeWord 0x0000103D#32 = .ok (.jalr 0#5 1#5 0#12) ∧
    decodeWord (0#7 ++ 0#5 ++ 7#3 ++ 2#5 ++ 4#5 ++ 0x1C#6 ++ 1#1) = .ok (.bnp 2#3 4#12) := by decide +kernel
theorem test_decode_memory : decodeWord 0x01066423#32 = .ok (.ldB 8#5 6#5 16#12) ∧ decodeWord 0x00668027#32 = .ok (.sd 8#5 6#5 0#12) ∧
    decodeWord 0x000292A9#32 = .ok (.take 5#5 9#5 0#12) ∧ decodeWord 0x04071029#32 = .ok (.empty 17#5 64#12) := by decide +kernel
theorem test_decode_atomic : decodeWord 0x41D73F31#32 = .ok (.amoadd .d .d 30#5 19#5 29#5) ∧ decodeWord 0x92768331#32 = .ok (.cas .v .d 6#5 8#5 7#5) := by
  decide +kernel
theorem test_decode_sync : decodeWord 0x00200037#32 = .ok (.fence .v) ∧ decodeWord 0x0E869037#32 = .ok (.bind 9#5 8#5 7#7) ∧
    decodeWord 0x0050902B#32 = .ok (.put 9#5 5#5 0#12) ∧ decodeWord 0x020FC037#32 = .ok (.waitph 28#5 0#5) ∧
    decodeWord 0x001A0037#32 = .ok (.bar 1#3) ∧ decodeWord 0x00000075#32 = .ok .barT := by decide +kernel
theorem test_decode_float : decodeWord 0xE1A14E0D#32 = .ok (.fmadd .s 28#5 20#5 26#5 28#5) ∧ decodeWord 0x1911020B#32 = .ok (.fcmpLt .s 4#3 16#5 17#5) := by
  decide +kernel
theorem test_decode_predicate : decodeWord 0x0A02028F#32 = .ok (.pmovPack 5#5) ∧ decodeWord 0x0C02500F#32 = .ok (.pmovUnpack 5#5) := by decide +kernel
theorem test_decode_vector : decodeWord 0x045431C1#32 = .ok (.vadd .i32 3#5 3#5 5#5 2#3) ∧ decodeWord 0x1462#32 = .ok (.vaddI32x16 0#1 3#5 5#5) ∧
    decodeWord 0x10A470D9#32 = .ok (.vwhile false .i32 1#3 7#5 10#5) ∧ decodeWord 0x72B01147#32 = .ok (.vfmaccX .f32 2#5 1#5 11#5 1#3) ∧
    decodeWord 0x000002D9#32 = .ok (.vwidth 5#5) := by decide +kernel
theorem test_decode_vector_memory : decodeWord 0x020080D1#32 = .ok (.vld false 1#5 8#5 1#3) ∧ decodeWord 0x12009151#32 = .ok (.vst 2#5 9#5 1#3) ∧
    decodeWord 0x42168251#32 = .ok (.vgather false .i64 4#5 8#5 1#5 1#3) ∧ decodeWord 0x52168251#32 = .ok (.vscatter .i64 4#5 8#5 1#5 1#3) := by
  decide +kernel
theorem test_decode_modular : decodeWord 0x242610D3#32 = .ok (.vmulm .m64 1#2 1#5 1#5 2#5 2#3) ∧ decodeWord 0x00660255#32 = .ok (.vbflyCt .m64 1#2 4#5 0#5 6#5 0#3) := by
  decide +kernel
theorem test_decode_tile : decodeWord 0x329082E1#32 = .ok (.tmma 1#2 5#5 8#5 9#5 6#5) ∧ decodeWord 0x00020063#32 = .ok .twait ∧
    decodeWord 0x58908565#32 = .ok (.tcopy 10#5 8#5 9#5 11#5) := by decide +kernel
theorem test_decode_events : decodeWord 0x009082F1#32 = .ok (.evsend 5#5 8#5 9#5) ∧ decodeWord 0x00040671#32 = .ok (.evnext 12#5) := by decide +kernel
theorem test_decode_tasks : decodeWord 0x00080073#32 = .ok .texit ∧ decodeWord 0x00025075#32 = .ok (.nsend .e 5#5) ∧
    decodeWord 0x000402F5#32 = .ok (.nrecv .e 5#5) := by decide +kernel
theorem test_decode_system : decodeWord 0x01686679#32 = .ok (.fmt 0#1 2#3 13#4 0#4 12#4 12#4) ∧ decodeWord 0x008202FB#32 = .ok (.csrr 8#12 5#5) ∧
    decodeWord 0x0030007B#32 = .ok .wfe ∧ decodeWord 0x0000007B#32 = .ok .ecall := by decide +kernel
theorem test_decode_refuses : decodeWord 0#32 = .error .unassigned ∧ decodeWord (0x6#7 ++ 0#5 ++ 0#3 ++ 0#5 ++ 0#5 ++ 0x07#6 ++ 1#1) = .error .unassigned ∧
    decodeWord (0x1C#7 ++ 1#5 ++ 0#3 ++ 1#5 ++ 1#5 ++ 0x00#6 ++ 1#1) = .error .nonzeroField := by decide +kernel

/-! ## Single steps -/

/-- The state after an outcome. -/
def after (o : Out) : State := match o with
  | .next u => u
  | _ => State.reset
/-- What an x register holds after a step of the small state's thread. -/
def xAfter (i : Instr) (f : Thread → Thread) (r : Reg) : Word := (thr (after (exec i (withT f)))).rx r

-- R299: with X(a0) = 0x8000_0000_0000_0001 and X(t1) = 64, sll writes X(a0), sra.w writes 1, and slli by 63 writes 0x8000_0000_0000_0000
theorem test_sll_by_64 : xAfter (.sll 5#5 8#5 6#5) (fun t => setX 6#5 64#64 (setX 8#5 0x8000000000000001#64 t)) 5#5 = 0x8000000000000001#64 := by decide +kernel
theorem test_sraW_by_64 : xAfter (.sraW 5#5 8#5 6#5) (fun t => setX 6#5 64#64 (setX 8#5 0x8000000000000001#64 t)) 5#5 = 1#64 := by decide +kernel
theorem test_slli_by_63 : xAfter (.slli 5#5 8#5 63#6) (setX 8#5 0x8000000000000001#64) 5#5 = 0x8000000000000000#64 := by decide +kernel
-- R241, R297: division corners
theorem test_div_overflow : xAfter (.div 5#5 8#5 6#5) (fun t => setX 6#5 0xFFFFFFFFFFFFFFFF#64 (setX 8#5 0x8000000000000000#64 t)) 5#5 = 0x8000000000000000#64 := by
  decide +kernel
theorem test_divuW_by_zero : xAfter (.divuW 5#5 8#5 6#5) (setX 8#5 7#64) 5#5 = 0xFFFFFFFFFFFFFFFF#64 := by decide +kernel
theorem test_rem_sign : xAfter (.rem 5#5 8#5 6#5) (fun t => setX 6#5 2#64 (setX 8#5 0xFFFFFFFFFFFFFFF9#64 t)) 5#5 = 0xFFFFFFFFFFFFFFFF#64 := by decide +kernel
theorem test_mulhsu : xAfter (.mulhsu 5#5 8#5 6#5) (fun t => setX 6#5 0xFFFFFFFFFFFFFFFF#64 (setX 8#5 0xFFFFFFFFFFFFFFFF#64 t)) 5#5 = 0xFFFFFFFFFFFFFFFF#64 := by
  decide +kernel
-- R299: lui sign-extends; R308: jalr reads its base before the link is written
theorem test_lui_negative : xAfter (.lui 5#5 0x80000#20) id 5#5 = 0xFFFFFFFF80000000#64 := by decide +kernel
theorem test_jalr_same_register : (thr (after (exec (.jalr 1#5 1#5 0#12) (withT (setX 1#5 0x2001#64))))).pc = 0x2000#64 ∧
    (thr (after (exec (.jalr 1#5 1#5 0#12) (withT (setX 1#5 0x2001#64))))).rx 1#5 = 0x1004#64 := by decide +kernel
-- R294: a write to x0 is discarded
theorem test_x0 : xAfter (.addi 0#5 8#5 1#12) (setX 8#5 7#64) 0#5 = 0#64 := by decide +kernel
-- 1 + 1 in binary32; 1 / 0 sets DZ and gives infinity
theorem test_fadd_s : xAfter (.fadd .s 5#5 8#5 8#5) (setX 8#5 0x3F800000#64) 5#5 = 0x40000000#64 := by decide +kernel
theorem test_fdiv_zero : xAfter (.fdiv .s 5#5 8#5 6#5) (setX 8#5 0x3F800000#64) 5#5 = 0x7F800000#64 ∧
    (thr (after (exec (.fdiv .s 5#5 8#5 6#5) (withT (setX 8#5 0x3F800000#64))))).fflags ≠ 0#64 := by decide +kernel
-- R310, R311: a store of a halfword and a sign-extended load of its upper byte, of the own scratchpad
theorem test_store_then_load :
    (thr (after (exec (.lb 5#5 8#5 1#12) (after (exec (.sh 8#5 6#5 0#12) (withT fun t => setX 6#5 0x12FF80#64 (setX 8#5 0x800#64 t))))))).rx 5#5 =
      0xFFFFFFFFFFFFFFFF#64 := by decide +kernel
-- R316: amoadd.w gives the old word sign-extended
theorem test_amoadd_w :
    (thr (after (exec (.amoadd .g .w 5#5 8#5 6#5) (after (exec (.sw 8#5 6#5 0#12) (withT fun t => setX 6#5 0x80000000#64 (setX 8#5 0x800#64 t))))))).rx 5#5 =
      0xFFFFFFFF80000000#64 := by decide +kernel
-- R208, R395: ecall with a handler
theorem test_ecall : let u := after (exec .ecall (withG fun g => { g with tvec := 0x400#64 }))
    (thr u).pc = 0x400#64 ∧ (thr u).epc = 0x1000#64 ∧ (thr u).tcause = 0x0D#64 ∧ (thr u).th = true := by decide +kernel
-- R98: idx, vt and nominal start of the worked stream
theorem test_media_index : let m := Stream.open0 (repeatN 0#8 2 ++ [0x20#8] ++ repeatN 0#8 35 ++ [50#8, 0#8, 1#8, 0#8] ++ repeatN 0#8 26 ++ bytesOfNat 3999990 4)
    m.index 7200000000 = 4000000 ∧ m.vt 4000000 = 10#32 ∧ m.start 4000000 = 80000000000000 := by decide +kernel
-- the host's two questions: the table's word decodes, and the next step runs it
theorem test_decodeTableWord : decodeTableWord 32 0x00A09401 = some (.add 8#5 9#5 10#5) := by decide +kernel
theorem test_first_instruction : (match step (State.reset.withFetchWord 32 0x00106303) with
    | .next u => (u.cur?.map fun t => t.rx 6#5)
    | _ => none) = some 1#64 := by decide +kernel

/-! ## Witnesses: scalar instructions, traps and control registers -/

theorem wit_encode : Instr.encoded (.add 1#5 2#5 3#5) = true ∧ Instr.wf (.add 1#5 2#5 3#5) = true ∧ decodeWord 0x00A09401#32 = .ok (.add 8#5 9#5 10#5) := by
  decide +kernel
/-- A state whose agenda runs the thread of slot 0, with a word laid where it fetches. -/
def stepState (w : BitVec 32) : State := State.reset.placeWord w
theorem wit_step : (stepState 0x00106303#32).agenda = .run 0 0 :: [] ∧
    (match boundary { ({ stepState 0x00106303#32 with agenda := [] }.modCore 0 fun c => c.issuedBy 0 []) with pos := 0, slot := 0 } with
      | .issue _ w => w == 0x00106303#32
      | .done _ => false) = true ∧ decodeWord 0x00106303#32 = .ok (.addi 6#5 6#5 1#12) ∧
    (match boundary { ({ stepState 0#32 with agenda := [] }.modCore 0 fun c => c.issuedBy 0 []) with pos := 0, slot := 0 } with
      | .issue _ w => decide (decodeWord w = .error .unassigned)
      | .done _ => false) = true ∧
    (match boundary { ({ stepState 0x39010001#32 with agenda := [] }.modCore 0 fun c => c.issuedBy 0 []) with pos := 0, slot := 0 } with
      | .issue _ w => decide (decodeWord w = .error .nonzeroField)
      | .done _ => false) = true := by decide +kernel
theorem wit_boundary (w : BitVec 32) (hw : w = 0x00106303#32 ∨ w = 0x1462#32) :
    let s := { stepState w with agenda := [] }
    let t := (s.cur?).getD (thr s)
    s.cur? = some t ∧ t.run = .running ∧ (s.core s.pos).fenced = false ∧ (s.core s.pos).halted = false ∧ s.changing s.pos = false ∧ t.ss = false ∧
      t.dbgTrap = none ∧ t.held = none ∧ t.pnDue = none ∧ t.bpPass = some t.pc := by
  rcases hw with rfl | rfl <;> decide +kernel
theorem wit_registerForm : registerForm (.sub 5#5 6#5 7#5) (thr (aState false)) = some ([5#5, 6#5, 7#5], 5#5, 0#64) ∧
    wordForm (.clzW 5#5 6#5) (thr (aState false)) = some ([5#5, 6#5], 5#5, 32#64) ∧
    immediateForm (.addi 5#5 6#5 2048#12) (thr (aState false)) = some ([5#5, 6#5], 5#5, 0xFFFFFFFFFFFFF800#64) ∧
    Issues (aState false) (thr (aState false)) [5#5, 6#5, 7#5] := by unfold Issues; decide +kernel
theorem wit_predicateForm : predicateForm (.pcmpLtu 7#3 5#5 6#5) (thr (aState false)) = some ([5#5, 6#5], 7#3, false) ∧
    Issues (aState false) (thr (aState false)) [5#5, 6#5] := by unfold Issues; decide +kernel
theorem wit_codeForm : codeForm (.fclass .s 5#5 6#5) (thr (aState false)) = some ([5#5, 6#5], 5#5, (16, 0#8)) ∧
    compareForm (.fcmpEq .s 1#3 5#5 6#5) (thr (aState false)) = some ([5#5, 6#5], 1#3, true, 0#8) ∧
    Issues (aState false) (thr (aState false)) [5#5, 6#5] := by unfold Issues; decide +kernel
/-- The small thread with a prefix pending. -/
def withPfx (w : BitVec 32) : State := withT fun t => { t with status := t.status ||| 4#64 ||| (w.setWidth 64 <<< 32) }
theorem wit_rounded : (roundedForm (.fadd .s 5#5 6#5 7#5) (thr (aState false))).isSome = true ∧
    IssuesFmt (withPfx 0x01000079#32) (thr (withPfx 0x01000079#32)) [5#5, 6#5, 7#5] pfxRm 0x01000079#32 ∧
    IssuesFmt (aState false) (thr (aState false)) [5#5, 6#5, 7#5] pfxRm 0#32 ∧
    IssuesFmt (withPfx 0x05000079#32) (thr (withPfx 0x05000079#32)) [5#5, 6#5] pfxRmSat 0x05000079#32 := by unfold IssuesFmt; decide +kernel
theorem wit_fcvt : cvtInt .w = some (32, true) ∧ cvtInt .s = none ∧ cvtInt .d = none := by decide
theorem wit_branch : branchForm (.beq 5#5 6#5 4089#12) (thr (aState false)) = some ([5#5, 6#5], true, 4089#12) ∧
    branchForm (.bltu 5#5 6#5 4#12) (thr (aState false)) = some ([5#5, 6#5], false, 4#12) ∧ Issues (aState false) (thr (aState false)) [5#5, 6#5] ∧
    ((aState false).core (aState false).pos).trcctl.getLsbD 1 = false := by unfold Issues; decide +kernel
/-- The small state with a handler. -/
def handled : State := withG fun g => { g with tvec := 0x400#64 }
theorem wit_handler : HasHandler handled 0 0 (thr handled) (grp handled) ∧ Issues handled (thr handled) [] ∧
    (handled.core handled.pos).dbgctl.getLsbD 4 = false := by unfold HasHandler Issues; decide +kernel
theorem wit_unhandled : let s := aState false
    s.thread? 0 0 = some (thr s) ∧ s.groupOf 0 (thr s) = some (grp s) ∧ (thr s).home = none ∧ (grp s).check = none ∧ (grp s).dying = none ∧
      (grp s).tvec = 0#64 := by decide +kernel
/-- The small state in a handler. -/
def inHandler : State := withT fun t => { t with status := 1#64, epc := 0x2001#64 }
theorem wit_tret : Issues inHandler (thr inHandler) [] ∧ (thr inHandler).th = true ∧ (thr (aState false)).th = false ∧
    (inHandler.core inHandler.pos).trcctl.getLsbD 2 = false := by unfold Issues; decide +kernel
theorem wit_fmt : (aState false).cur? = some (thr (aState false)) ∧ (thr (aState false)).pp = false ∧ (withPfx 0x79#32).cur? = some (thr (withPfx 0x79#32)) ∧
    (thr (withPfx 0x79#32)).pp = true := by decide +kernel
/-- The small thread with the vector context V0. -/
def withV : State := (withT fun t => { t with ctx := some false }).modCore 0 fun c => { c with v0 := { c.v0 with owner := some 0 } }
theorem wit_csr_vstate : CsrIssues withV (thr withV) [5#5] 0x014#12 false ∧ Runs withV (thr withV) (grp withV) (lau withV) := by
  unfold CsrIssues Issues Runs; decide +kernel
theorem wit_csr_read : CsrIssues (aState false) (thr (aState false)) [5#5] 0x05F#12 false := by unfold CsrIssues Issues; decide +kernel
theorem wit_csr_write (c : BitVec 12) (hc : c ∈ [0x000#12, 0x001#12, 0x002#12, 0x003#12, 0x004#12, 0x005#12, 0x006#12, 0x007#12, 0x008#12, 0x012#12, 0x013#12]) :
    CsrIssues (aState false) (thr (aState false)) [5#5] c true := by
  unfold CsrIssues Issues
  fin_cases hc <;> exact ⟨by decide +kernel, by decide +kernel, by decide +kernel, by decide +kernel, by decide +kernel⟩
theorem wit_halt : let s := aState false
    let o := s.modFw fun w => { w with features := 1#6 }
    Issues s (thr s) [] ∧ s.groupOf s.pos (thr s) = some (grp s) ∧ (grp s).dying = none ∧ s.feature 0 = false ∧ o.feature 0 = true ∧
      Issues o (thr o) [] ∧ o.groupOf o.pos (thr o) = some (grp o) ∧ (thr o).run = .running := by unfold Issues; decide +kernel

/-! ## Witnesses: memory -/

/-- The small thread with x6 an address and x7 a value. -/
def atVa (va v : Word) : State := withT fun t => setX 6#5 va (setX 7#5 v t)
/-- Its group and launch. -/
def RunsHere (s : State) : Prop := Runs s (thr s) (grp s) (lau s)
theorem wit_loadForm : loadForm (.lh 5#5 6#5 0#12) = some (2, true, true, 5#5, 6#5, 0#12) ∧ loadForm (.ldB 5#5 6#5 0#12) = some (8, false, false, 5#5, 6#5, 0#12) ∧
    loadForm (.ld 5#5 6#5 0#12) = some (8, false, true, 5#5, 6#5, 0#12) := ⟨rfl, rfl, rfl⟩
theorem wit_load_own : Issues (atVa 0x800#64 0#64) (thr (atVa 0x800#64 0#64)) [5#5, 6#5] ∧
    Reaches (atVa 0x800#64 0#64) (thr (atVa 0x800#64 0#64)) (grp (atVa 0x800#64 0#64)) (lau (atVa 0x800#64 0#64))
      { va := 0x800#64, n := 2, align := 2, r := true, w := false, kind := .load } (spIa 0 0x800) true ∧
    OwnBytes (atVa 0x800#64 0#64) (lau (atVa 0x800#64 0#64)) (spIa 0 0x800) 0x800 2 ∧ ((atVa 0x800#64 0#64).core 0).spPoison 0x800 2 = false := by
  unfold Issues Reaches Runs OwnBytes; decide +kernel
/-- The same with a line of memory in the L1. -/
def cached : State := (atVa 0x100000#64 0#64).modCore 0 fun c => { c with l1 := [(memIa 0 / 128, repeatN 0x5A#8 128, true)] }
theorem wit_load_away : Reaches (atVa 0x100000#64 0#64) (thr (atVa 0x100000#64 0#64)) (grp (atVa 0x100000#64 0#64)) (lau (atVa 0x100000#64 0#64))
      { va := 0x100000#64, n := 8, align := 8, r := true, w := false, kind := .load } (memIa 0) true ∧ ownPlace 0 (memIa 0) = false ∧
    cacheable (memIa 0) = true ∧ ((atVa 0x100000#64 0#64).core 0).l1.find? (fun e => e.1 == memIa 0 / 128) = none ∧
    ((cached.core 0).l1.find? fun e => e.1 == memIa 0 / 128).isSome = true := by unfold Reaches Runs; decide +kernel
theorem wit_load_cached : Issues cached (thr cached) [5#5, 6#5] ∧
    Reaches cached (thr cached) (grp cached) (lau cached) { va := 0x100000#64, n := 8, align := 8, r := true, w := false, kind := .load } (memIa 0) true := by
  unfold Issues Reaches Runs; decide +kernel
theorem wit_store : storeForm (.sb 6#5 7#5 0#12) = some (1, 6#5, 7#5, 0#12) ∧ Issues (atVa 0xFFF#64 1#64) (thr (atVa 0xFFF#64 1#64)) [6#5, 7#5] ∧
    Reaches (atVa 0xFFF#64 1#64) (thr (atVa 0xFFF#64 1#64)) (grp (atVa 0xFFF#64 1#64)) (lau (atVa 0xFFF#64 1#64))
      { va := 0xFFF#64, n := 1, align := 1, r := false, w := true, kind := .store } (spIa 0 0xFFF) false ∧
    OwnBytes (atVa 0xFFF#64 1#64) (lau (atVa 0xFFF#64 1#64)) (spIa 0 0xFFF) 0xFFF 1 ∧ Memory.wf ((atVa 0xFFF#64 1#64).core 0).sp = true := by
  unfold Issues Reaches Runs OwnBytes; decide +kernel
theorem wit_store_away : Issues (atVa 0x1FFFF8#64 1#64) (thr (atVa 0x1FFFF8#64 1#64)) [6#5, 7#5] ∧
    Reaches (atVa 0x1FFFF8#64 1#64) (thr (atVa 0x1FFFF8#64 1#64)) (grp (atVa 0x1FFFF8#64 1#64)) (lau (atVa 0x1FFFF8#64 1#64))
      { va := 0x1FFFF8#64, n := 8, align := 8, r := false, w := true, kind := .store } (memIa 0xFFFF8) false ∧ ownPlace 0 (memIa 0xFFFF8) = false := by
  unfold Issues Reaches Runs; decide +kernel
theorem wit_atomic : (atomicForm (.amoadd .g .d 5#5 6#5 7#5) (thr (atVa 0x800#64 1#64))).map (fun x => (x.1, x.2.1, x.2.2.1)) = some (.g, .d, 5#5) ∧
    (atomicForm (.cas .s .w 5#5 6#5 7#5) (thr (atVa 0x800#64 1#64))).isSome = true ∧ Issues (atVa 0x800#64 1#64) (thr (atVa 0x800#64 1#64)) [5#5, 6#5, 7#5] ∧
    Reaches (atVa 0x800#64 1#64) (thr (atVa 0x800#64 1#64)) (grp (atVa 0x800#64 1#64)) (lau (atVa 0x800#64 1#64))
      { va := 0x800#64, n := 8, align := 8, r := true, w := true, kind := .atomic } (spIa 0 0x800) true ∧
    (∀ f ∈ [Scope.g, Scope.d, Scope.v, Scope.s], (atVa 0x800#64 1#64).drained 0 0 f = true) ∧
    OwnBytes (atVa 0x800#64 1#64) (lau (atVa 0x800#64 1#64)) (spIa 0 0x800) 0x800 8 := by unfold Issues Reaches Runs OwnBytes; decide +kernel
theorem wit_atomic_away : Reaches (atVa 0x100000#64 1#64) (thr (atVa 0x100000#64 1#64)) (grp (atVa 0x100000#64 1#64)) (lau (atVa 0x100000#64 1#64))
      { va := 0x100000#64, n := 4, align := 4, r := true, w := true, kind := .atomic } (memIa 0) true ∧ (atVa 0x100000#64 1#64).drained 0 0 .s = true := by
  unfold Reaches Runs; decide +kernel
theorem wit_red : Issues (atVa 0x100000#64 1#64) (thr (atVa 0x100000#64 1#64)) [6#5, 7#5] ∧
    Reaches (atVa 0x100000#64 1#64) (thr (atVa 0x100000#64 1#64)) (grp (atVa 0x100000#64 1#64)) (lau (atVa 0x100000#64 1#64))
      { va := 0x100000#64, n := 4, align := 4, r := false, w := true, kind := .reduce } (memIa 0) false ∧
    Reaches (atVa 0x800#64 1#64) (thr (atVa 0x800#64 1#64)) (grp (atVa 0x800#64 1#64)) (lau (atVa 0x800#64 1#64))
      { va := 0x800#64, n := 4, align := 4, r := false, w := true, kind := .reduce } (spIa 0 0x800) false ∧
    (∀ e ∈ (atVa 0x800#64 1#64).dru, e.1 ≠ daleOf 0) := by unfold Issues Reaches Runs; decide +kernel
theorem wit_ramo : Issues (atVa 0x100000#64 1#64) (thr (atVa 0x100000#64 1#64)) [6#5, 7#5, 5#5] ∧
    Reaches (atVa 0x100000#64 1#64) (thr (atVa 0x100000#64 1#64)) (grp (atVa 0x100000#64 1#64)) (lau (atVa 0x100000#64 1#64))
      { va := 0x100000#64, n := 8, align := 8, r := true, w := true, kind := .ramo } (memIa 0) false := by unfold Issues Reaches Runs; decide +kernel
/-- The small launch with exchange regions. -/
def exchS : State := { (atVa 0x238000#64 1#64) with launches := [{ aLaunch false with exch := true }] }
theorem wit_xst : Issues exchS (thr exchS) [6#5, 7#5] ∧
    Reaches exchS (thr exchS) (grp exchS) (lau exchS) { va := 0x238000#64, n := 8, align := 8, r := false, w := true, kind := .xst } (spIa 1 0x38000) false := by
  unfold Issues Reaches Runs; decide +kernel
/-- The small state whose word at 0x800 holds 5, full where asked, with a wait table of a length. -/
def tagS (full : Bool) (waits : Nat) (v : Word) : State := (atVa 0x800#64 v).modCore 0 fun c =>
  { c with full := if full then [0x100] else [], sp := memWrite c.sp 0x800 [5#8],
           waits := repeatN { word := 0, op := .lwf, data := 0#64, slot := none, node := 1, ns := false, seq := 0#16 } waits }
theorem wit_tag_access (full : Bool) (n : Nat) (h : (full, n) ∈ [(true, 0), (false, 0), (true, 63), (false, 64)]) :
    let s := tagS full n 1#64
    Reaches s (thr s) (grp s) (lau s) { va := 0x800#64, n := 8, align := 8, r := true, w := true, kind := .tagged } (spIa 0 0x800) true ∧
      OwnBytes s (lau s) (spIa 0 0x800) 0x800 8 ∧ Issues s (thr s) [5#5, 6#5] ∧ Issues s (thr s) [6#5, 7#5] := by
  unfold Reaches Runs OwnBytes Issues
  fin_cases h <;> decide +kernel
theorem wit_tag : let s := tagS true 0 1#64
    (s.core 0).waits = [] ∧ Memory.wf (s.core 0).sp = true ∧ s.cur? = some (thr s) ∧ (thr s).run = .running ∧ (s.core 0).spPhys 0x800 / 8 = 0x100 ∧
      0x100 ∈ (s.core 0).full ∧ 0x100 ∉ (s.core 0).poisoned ∧ 0x100 ∉ ((tagS false 0 1#64).core 0).full ∧ ((tagS true 63 1#64).core 0).waits.length < 64 ∧
      64 ≤ ((tagS false 64 1#64).core 0).waits.length := by decide +kernel
theorem wit_tag_sorted : ((tagS true 0 1#64).core 0).full.Pairwise (· < ·) := List.pairwise_singleton _ _
theorem wit_quiet : Quiet (tagS true 0 1#64) (thr (tagS true 0 1#64)) := by unfold Quiet; decide +kernel
/-- A store of the small thread that is not answered. -/
def busyS : State := after (exec (.sd 6#5 7#5 0#12) (atVa 0x100000#64 1#64))
theorem wit_fence : Issues (aState false) (thr (aState false)) [] ∧ Quiet (aState false) (thr (aState false)) ∧ Issues busyS (thr busyS) [] ∧
    busyS.drained busyS.pos busyS.slot .s = false := by unfold Issues Quiet; decide +kernel
/-- The small group with a sync object at 0x800 bound to 128 bytes of memory. -/
def boundS : State := (atVa 0x800#64 0x100000#64).modGroup 0 0 fun g => { g with binds := [{ sync := spIa 0 0x800, region := memIa 0, log2 := 7 }] }
theorem wit_acquire : Issues boundS (thr boundS) [5#5, 6#5] ∧
    Reaches boundS (thr boundS) (grp boundS) (lau boundS) { va := 0x800#64, n := 8, align := 8, r := true, w := false, kind := .sync } (spIa 0 0x800) true ∧
    OwnBytes boundS (lau boundS) (spIa 0 0x800) 0x800 8 ∧ (boundS.core 0).spPoison 0x800 8 = false ∧ (thr boundS).home = none := by
  unfold Issues Reaches Runs OwnBytes; decide +kernel
theorem wit_release : Issues boundS (thr boundS) [6#5, 7#5] ∧
    Reaches boundS (thr boundS) (grp boundS) (lau boundS) { va := 0x800#64, n := 8, align := 8, r := false, w := true, kind := .sync } (spIa 0 0x800) false ∧
    Quiet boundS (thr boundS) ∧ Memory.wf (boundS.core 0).sp = true := by unfold Issues Reaches Runs Quiet; decide +kernel
theorem wit_bind : syncIa (grp boundS) 0x800#64 = .ok (spIa 0 0x800) ∧ (0x100000#64).toNat % 2 ^ 7 = 0 ∧ (0x100000#64).toNat % 2 ^ 20 = 0 ∧
    (spanFor (grp boundS).spans 0x100000#64 (2 ^ 7)).isSome = true ∧ (spanFor (grp boundS).spans 0x100000#64 (2 ^ 20)).isSome = true ∧
    (grp boundS).binds.length < 8 ∧ Issues boundS (thr boundS) [6#5, 7#5] ∧ RunsHere boundS := by unfold Issues RunsHere Runs; decide +kernel
theorem wit_bar : Issues (aState false) (thr (aState false)) [] ∧ RunsHere (aState false) ∧ (thr (aState false)).arrived = none ∧
    tblGet? (lau (aState false)).levels (2#3).toNat = some (0, .g) ∧ Issues (aState true) (thr (aState true)) [] ∧ RunsHere (aState true) ∧
    (lau (aState true)).stepMode = true ∧ Quiet (aState true) (thr (aState true)) := by unfold Issues RunsHere Runs Quiet; decide +kernel
/-- The small scratchpad holds a barrier object at 0x800: two arrivals are pending of the phase, then one. -/
def phaseS : State := (atVa 0x800#64 1#64).modCore 0 fun c => { c with sp := memWrite c.sp 0x800 (bytesOfNat (2 * 2 ^ 40) 8) }
theorem wit_arrive : barrierObj 0 (grp phaseS) 0x800#64 true = .ok 0x800 ∧ (phaseS.core 0).spPhys 0x800 = 0x800 ∧ Memory.wf (phaseS.core 0).sp = true ∧
    natOfBytes (memRead (phaseS.core 0).sp 0x800 8) = 2 * 2 ^ 40 ∧ phaseS.mayIssue 0 0 (spIa 0 0x800) false = true ∧ Issues phaseS (thr phaseS) [6#5] ∧ RunsHere phaseS ∧ Quiet phaseS (thr phaseS) := by
  unfold Issues RunsHere Runs Quiet; decide +kernel
theorem wit_waitph : barrierObj 0 (grp phaseS) 0x800#64 false = .ok 0x800 ∧
    (phaseS.core 0).spPoison 0x800 8 = false ∧ (wordOf ((phaseS.core 0).spRead 0x800 8)).getLsbD 63 = false ∧
    ((thr phaseS).rx 7#5).getLsbD 0 = true ∧ ((thr phaseS).rx 5#5).getLsbD 0 = false ∧ Issues phaseS (thr phaseS) [6#5, 7#5] ∧
    Issues phaseS (thr phaseS) [6#5, 5#5] := by unfold Issues; decide +kernel

/-! ## Witnesses: vectors, tiles and engines -/

theorem wit_checks : let s := withT fun t => { t with nomad := true }
    let p := withT fun t => { t with pendX := 0x20#32 }
    badNomad (thr s) [5#5, 16#5] = true ∧ (thr s).pp = false ∧ s.cur? = some (thr s) ∧ badNomad (thr p) [5#5, 6#5] = false ∧ (thr p).pp = false ∧ (thr p).pends [5#5, 6#5] = true ∧
      (thr (withPfx 0x79#32)).pp = true := by decide +kernel
theorem wit_vectorForm : (vectorForm (.vadd .i32 1#5 2#5 3#5 0#3) (thr withV)).isSome = true ∧ (vectorForm (.vmov16 0#1 1#5 2#5) (thr withV)).isSome = true ∧
    VectorIssues withV (thr withV) (grp withV) (lau withV) false [5#5] (fun _ => false) ∧ (thr (aState false)).ctx = none := by
  refine ⟨by decide +kernel, by decide +kernel, ⟨by decide +kernel, by unfold Runs; decide +kernel, by decide +kernel, by decide +kernel, ?_, by decide +kernel⟩,
    by decide +kernel⟩
  intro w h
  exact absurd h (by rw [show (thr withV).prefix? = none by decide +kernel]; simp)
/-- The small vector thread with a prefix pending. -/
def withVPfx (w : BitVec 32) : State := withV.modThread 0 0 fun t => { t with status := t.status ||| 4#64 ||| (w.setWidth 64 <<< 32) }
theorem wit_vcvt : let p : BitVec 32 := 0x000000F9#32
    VectorIssues (withVPfx p) (thr (withVPfx p)) (grp (withVPfx p)) (lau (withVPfx p)) false [5#5] pfxCvt ∧ pFA p = 1#4 := by
  refine ⟨⟨by decide +kernel, by unfold Runs; decide +kernel, by decide +kernel, by decide +kernel, ?_, by decide +kernel⟩, by decide⟩
  intro w h
  have : (thr (withVPfx 0x000000F9#32)).prefix? = some 0x000000F9#32 := by decide +kernel
  rw [this] at h; cases h; decide +kernel
/-- A command of the small thread at the head of V0. -/
def aCmd (op : VOp) : VCmd :=
  { op := op, d := 1#5, a := 2#5, b := 3#5, m := 0#3, bx := false, s1 := 0#64, s2 := 0#64, pfx := none, slot := 0, gid := 0, lid := 1, runs := [], handler := false }
/-- A full queue. -/
def fullV : State := withV.modCore 0 fun c => { c with v0 := { c.v0 with queue := repeatN (aCmd .mov) 32 } }
theorem wit_full : (fullV.core fullV.pos).vecRoom false = false := by decide +kernel
theorem wit_vfence : withV.vectorDone withV.pos withV.slot (thr withV) = true ∧ ((withV.core withV.pos).ctx false).queue = [] := by decide +kernel
/-- The small vector thread with a base in x6 and a mask register of one active lane. -/
def memV : State := (withV.modThread 0 0 (setX 6#5 0x800#64)).modCore 0 fun c => { c with v0 := { c.v0 with m := c.v0.m.set 1 0xFF#256 } }
theorem wit_vmem : (vectorMemForm (.vld false 1#5 6#5 1#3) (thr memV) ((memV.core 0).ctx false)).isSome = true ∧
    (vectorMemForm (.vscatter .i64 1#5 6#5 2#5 1#3) (thr memV) ((memV.core 0).ctx false)).isSome = true ∧
    (match checkElems memV (thr memV) 8 8 true false
        ((activeOf (((memV.core 0).ctx false).rm 1#3) 64).map fun j => { e := j, va := 0x800#64 + BitVec.ofNat 64 j * 0#64, at0 := j * 64 / 8 }) with
      | .ok r => r.length == 1
      | .error _ => false) = true ∧
    (match checkElem memV (thr memV) { e := 0, va := 0x800#64, at0 := 0 } 16 8 true false with
      | .ok _ => true
      | .error _ => false) = true := by decide +kernel
theorem wit_vsdq : let s := withV.modCore 0 fun c => { c with sd := { c.sd with tbase := 0x100, tlen := 64 } }
    (s.core 0).sd.nroute = 0 ∧ (s.core 0).tableOk (lau s) ((s.core 0).sd.tbase + 8 * 63) 8 = true ∧ (lau s).stepMode = false ∧
      63 ∈ activeOf (((s.core 0).ctx false).rm 0#3) 32 := by decide +kernel
def headV (op : VOp) : State := withV.modCore 0 fun c => { c with v0 := { c.v0 with queue := [aCmd op] } }
theorem wit_head : (((headV .mcnt).core 0).ctx false).queue = aCmd .mcnt :: [] ∧ (aCmd .mcnt).runs = [] ∧ (aCmd .mcnt).op ≠ .sdq ∧
    (((headV .mcnt).core 0).ctx false).fault = none ∧ (headV .mcnt).thread? 0 (aCmd .mcnt).slot = some (thr (headV .mcnt)) ∧
    (thr (headV .mcnt)).run = .running ∧ (aCmd .sel).op = .sel ∧ (aCmd (.int 13 .i64)).op = .int 13 .i64 := by decide +kernel
theorem wit_tile : let s := aState false
    s.cur? = some (thr s) ∧ RunsHere s ∧ (thr s).nomad = false ∧ (thr s).prefix? = none ∧ (thr s).pends [5#5] = false ∧ Quiet s (thr s) ∧
      s.vectorDone 0 0 (thr s) = true ∧ (s.core 0).tiles.length < 4 ∧ (thr s).tiles = 0 := by unfold RunsHere Runs Quiet; decide +kernel
/-- The small thread with a shape of 1 by 1 by 2, and operands at 0x800 and 0xC00. -/
def tileS : State := withT fun t => setX 5#5 0x0000000000020000#64 (setX 6#5 0x800#64 (setX 7#5 0xC00#64 t))
theorem wit_tmma : tileMisaligned ((thr tileS).rx 6#5).toNat ((thr tileS).rx 7#5).toNat ((thr tileS).rx 28#5) 0#32 = none ∧
    tileS.tileRange (grp tileS) (lau tileS) 0x800#64 (extentA ((thr tileS).rx 5#5) 0#64 0#32) false true = .ok (spIa 0 0x800) ∧
    tileS.tileRange (grp tileS) (lau tileS) 0xC00#64 (extentB ((thr tileS).rx 5#5) 0#64 0#32) false true = .ok (spIa 0 0xC00) ∧
    wordsOk true ((thr tileS).rx 5#5) 0#64 = true ∧ wordsOk false ((thr tileS).rx 5#5) 0#64 = true ∧
    tileS.tileC 0 (lau tileS) 0#2 ((thr tileS).rx 5#5) 0#64 = true := by decide +kernel
theorem wit_tacc : (128#64).toNat % 16 = 0 ∧ 128 ≤ (128#64).toNat ∧ (0x40000#64).toNat % 16 = 0 ∧ (0x40000#64).toNat ≤ 2 ^ 18 := by decide
/-- The same launch with four pages of scratchpad to a group. -/
def wideS : State := { (aState false) with launches := [{ aLaunch false with galloc := 4 }] }.modGroup 0 0 fun g => { g with len := 0x4000 }
theorem wit_tacc_range : wideS.tileRange (grp wideS) (lau wideS) 0#64 (63 * 128 + 128) true false = .ok (spIa 0 0) ∧
    wideS.tileRange (grp wideS) (lau wideS) 0#64 (63 * 128 + 128) false false = .ok (spIa 0 0) ∧
    (aState false).tileRange (grp (aState false)) (aLaunch false) 0#64 0 true false = .ok 0 := by decide +kernel
theorem wit_twait : (thr (withT fun t => { t with tiles := 1 })).tiles ≠ 0 := by decide +kernel
/-- The small thread with a matrix command for logical core 1 in x5 and its descriptor at 0x800. -/
def sendS : State := withT fun t => setX 5#5 0x1#64 (setX 6#5 0x800#64 t)
theorem wit_tmsend : let x := (thr sendS).rx 5#5
    (x.extractLsb' 24 3).toNat ≤ 4 ∧ x.extractLsb' 29 35 = 0#35 ∧ (lau sendS).stepMode = false ∧
      (lau sendS).posOfLogical (x.extractLsb' 0 16).toNat = some 1 ∧ (lau sendS).inRect 1 = true ∧
      checkAcc sendS sendS.pos (thr sendS) { va := 0x800#64, n := 64, align := 64, r := true, w := false, kind := .load } = .ok (spIa 0 0x800) ∧
      placeOf (spIa 0 0x800) = .sp sendS.pos 0x800 := by decide +kernel
/-- An operation of the small thread in the matrix unit. -/
def aTile (k : TileKind) (shape : Word) : TileOp := (thr tileS).tile tileS (lau tileS) k 0#2 (spIa 0 0x800) (spIa 0 0xC00) shape 0#64 0#32 0x800#64 0xC00#64
def unitS (k : TileKind) (busy : Option Bool) : State := tileS.modCore 0 fun c => { c with tiles := [aTile k 0x20000#64], tileBusy := busy }
theorem wit_tclr : ((unitS .clr none).core 0).tileBusy = none ∧ ((unitS .clr none).core 0).tiles = aTile .clr 0x20000#64 :: [] ∧
    ((unitS .clr none).core 0).matrixQ = [] ∧ (unitS .clr none).tileHeld 0 (aTile .clr 0x20000#64) = false ∧ (aTile .clr 0x20000#64).step = 0 ∧
    (aTile .clr 0x20000#64).flags = 0#64 ∧ (aTile .clr 0x20000#64).sender = none ∧ (aTile .clr 0x20000#64).slot = some 0 := by decide +kernel
theorem wit_mma_step : let s := unitS .mma (some false)
    let o := aTile .mma 0x20000#64
    let s0 := { s.modCore 0 fun c => { c with tileBusy := some false } with nextId := s.nextId + 1 }
    s.tileHeld 0 o = false ∧ o.step < o.groups ∧ (∀ a ∈ (s.core 0).acc.toList, tblWf a = true) ∧
      (∀ x ∈ (o.ranges o.step).1 ++ (o.ranges o.step).2, (match s0.tileCheck 0 o x.1 x.2 true with
        | .void => false
        | _ => true) = true) ∧
      (s0.tileFetchAll 0 { o with tab := (0#64, 0#64) } (o.ranges o.step).1 []).2.2 = .ok ∧
      ((s0.tileFetchAll 0 { o with tab := (0#64, 0#64) } (o.ranges o.step).1 []).1.tileFetchAll 0 { o with tab := (0#64, 0#64) } (o.ranges o.step).2 []).2.2 = .ok := by
  decide +kernel
/-- The small thread with a copy of n bytes from memory to the scratchpad and a barrier object at 0x800. -/
def copyS (n : Word) : State := withT fun t => setX 5#5 0x900#64 (setX 6#5 0x100000#64 (setX 7#5 n (setX 28#5 0x800#64 t)))
theorem wit_tcopy : (copyS 0x200#64).engineRange (grp (copyS 0x200#64)) (lau (copyS 0x200#64)) 0x100000#64 0x200 false = .ok (memIa 0) ∧
    (copyS 0x200#64).engineRange (grp (copyS 0x200#64)) (lau (copyS 0x200#64)) 0x900#64 0x200 true = .ok (spIa 0 0x900) ∧
    barrierObj 0 (grp (copyS 0x200#64)) 0x800#64 true = .ok 0x800 ∧ (copyS 0x200#64).engines = [] ∧ (thr (copyS 0x200#64)).run = .running ∧
    ((thr (copyS 0x200#64)).rx 7#5).toNat = 0x200 := by decide +kernel
theorem wit_tcopy_none : (copyS 0#64).engineRange (grp (copyS 0#64)) (lau (copyS 0#64)) 0x100000#64 0 false = .ok 0 ∧
    barrierObj 0 (grp (copyS 0#64)) 0x800#64 true = .ok 0x800 ∧ ((thr (copyS 0#64)).rx 7#5).toNat = 0 := by decide +kernel
/-- The same with an index list of one index at 0xA00. -/
def gatherS : State := (withT fun t => setX 5#5 0x900#64 (setX 6#5 0x100000#64 (setX 7#5 0xA00#64 (setX 28#5 0x800#64 t)))).modCore 0 fun c =>
  { c with sp := memWrite c.sp 0xA00 [1#8, 0#8, 0#8, 0#8, 0#8, 0#8, 0#8, 0#8, 3#8] }
theorem wit_tgather : let s := gatherS
    checkAcc s s.pos (thr s) { va := 0xA00#64, n := 8, align := 8, r := true, w := false, kind := .load } = .ok (spIa 0 0xA00) ∧
      placeOf (spIa 0 0xA00) = .sp s.pos (spIa 0 0xA00 % 0x400000) ∧ natOfBytes ((s.core 0).spRead 0xA00 4) = 1 ∧
      (match checkAcc s s.pos (thr s) { va := 0xA00#64, n := 12, align := 8, r := true, w := false, kind := .load } with
        | .ok _ => true
        | .error _ => false) = true ∧
      s.engineRange (grp s) (lau s) 0x900#64 (1 * gatherBytes .b8) true = .ok (spIa 0 0x900) ∧ barrierObj s.pos (grp s) 0x800#64 true = .ok 0x800 ∧
      (s.core 0).spPoison 0xA00 12 = false ∧
      s.engineRange (grp s) (lau s) (0x100000#64 + BitVec.ofNat 64 (3 * gatherBytes .b8)) (gatherBytes .b8) false = .ok (memIa (3 * gatherBytes .b8)) := by
  decide +kernel

/-! ## Witnesses: events, tasks, exits and neighbours -/

/-- An inbox entry of stream 3 at a virtual time. -/
def anEntry (vt : BitVec 32) (n : Nat) : Entry := .event 3 9 vt 1#32 0 0#16 n
/-- The small thread with an event for logical core 1, stream 3, in x6, a delay of 2 in x5. -/
def eventS : State := withT fun t => setX 5#5 2#64 (setX 6#5 0x30001#64 t)
theorem wit_evsend : EventIssues eventS (thr eventS) (grp eventS) (lau eventS) [5#5, 6#5, 7#5] ∧
    (((thr eventS).rx 6#5).extractLsb' 16 4).toNat ≠ 15 ∧ ((thr eventS).rx 6#5).extractLsb' 40 24 = 0#24 ∧ ((thr eventS).rx 5#5).extractLsb' 16 48 = 0#48 ∧
    (lau eventS).posOfLogical 1 = some 1 ∧ (lau eventS).inRect 1 = true ∧ (eventS.core 0).mayEvent 1 = true := by unfold EventIssues Issues Runs; decide +kernel
theorem wit_evsend_waits : ((after (exec (.evsend 5#5 6#5 7#5) eventS)).core 0).mayEvent 1 = false := by decide +kernel
/-- The small core with two entries in its inbox. -/
def inboxS : State := (withT fun t => setX 6#5 8#64 t).modCore 0 fun c =>
  { c with inbox := [anEntry 5#32 0, anEntry 4#32 1] }
theorem wit_evwait : EventIssues inboxS (thr inboxS) (grp inboxS) (lau inboxS) [6#5] ∧ (∃ e ∈ (inboxS.core 0).inbox, ((thr inboxS).rx 6#5).getLsbD e.stream = true ∧
    e.stream < 16) ∧ ((thr eventS).rx 6#5).extractLsb' 0 16 ≠ 0#16 ∧ (eventS.core 0).inbox = [] := by unfold EventIssues Issues Runs; decide +kernel
theorem wit_evnext : EventIssues inboxS (thr inboxS) (grp inboxS) (lau inboxS) [30#5, 30#5 + 1#5] ∧ First (anEntry 4#32 1) (inboxS.core 0).inbox ∧
    (inboxS.core 0).trcctl.getLsbD 3 = false ∧ (inboxS.core 0).heldGvt = none ∧ (30#5).getLsbD 0 = false := by unfold EventIssues Issues Runs First; decide +kernel
/-- The small thread's record of 64 bytes at 0x800, with x6 its address. -/
def recS (r : List Byte) : State := (withT fun t => setX 6#5 0x800#64 t).modCore 0 fun c => { c with sp := memWrite c.sp 0x800 r }
/-- The same, once the thread has read it. -/
def gotS (r : List Byte) : State := (recS r).modThread 0 0 fun t => { t with readRec := some r }
theorem wit_task : let s := gotS (plainRecord 0x2000#64)
    TaskIssues s (thr s) (grp s) (lau s) [5#5, 6#5] ∧ HasRecord (thr s) (plainRecord 0x2000#64) ∧ badRecord (lau s).galloc (plainRecord 0x2000#64) = none ∧
      badRecord (lau s).galloc (plainRecord 0x2001#64) = some 5 ∧ (records (s.core 0)).length < 4096 ∧
      recordFate (lau s) (s.core 0) 0 (plainRecord 0x2000#64) = .mine ∧ (s.core 0).canStart (lau s) (plainRecord 0x2000#64) = true ∧
      Memory.wf (s.core 0).sp = true := by unfold TaskIssues Issues Runs Quiet HasRecord; decide +kernel
/-- A record's next word in the own scratchpad, and in memory space outside the L1. -/
def readS : State := (recS (plainRecord 0x2000#64)).modThread 0 0 fun t => { t with readRec := some (repeatN 0#8 56) }
theorem wit_task_read : recordReader (.dqpush 5#5 6#5) (lau readS) = some ([5#5, 6#5], 6#5) ∧ TaskIssues readS (thr readS) (grp readS) (lau readS) [5#5, 6#5] := by
  unfold TaskIssues Issues Runs Quiet; decide +kernel
theorem wit_task_read_own : let s := readS
    Reaches s (thr s) (grp s) (lau s) { va := 0x838#64, n := 8, align := 8, r := true, w := false, kind := .load, stack := (6#5 : Reg) == 2#5 } (spIa 0 0x838) true ∧
      OwnBytes s (lau s) (spIa 0 0x838) 0x838 8 ∧ (s.core 0).spPoison 0x838 8 = false := by unfold Reaches Runs OwnBytes; decide +kernel
theorem wit_task_read_memory : let s := atVa 0x100000#64 0#64
    TaskIssues s (thr s) (grp s) (lau s) [5#5, 6#5] := by unfold TaskIssues Issues Runs Quiet; decide +kernel
theorem wit_task_read_line : let s := atVa 0x100000#64 0#64
    Reaches s (thr s) (grp s) (lau s) { va := 0x100000#64, n := 8, align := 8, r := true, w := false, kind := .load, stack := (6#5 : Reg) == 2#5 } (memIa 0) true ∧
      (s.core 0).l1 = [] := by unfold Reaches Runs; decide +kernel
theorem wit_dequeFull : 4096 ≤ (records (((recS []).modCore 0 fun c => { c with spill := repeatN ([], none) 4000, deque := repeatN ([], none) 96 }).core 0)).length := by
  decide +kernel
theorem wit_dqpop : let s := recS []
    (∀ i ∈ List.range 8, checkAcc s s.pos (thr s) { va := 0x800#64 + BitVec.ofNat 64 (8 * i), n := 8, align := 8, r := false, w := true, kind := .store, stack := (6#5 : Reg) == 2#5 } =
      .ok (spIa s.pos (0x800 + 8 * i)) ∧ OwnBytes s (lau s) (spIa s.pos (0x800 + 8 * i)) (0x800 + 8 * i) 8) ∧ (s.core 0).dbgctl.getLsbD 0 = false ∧
      records (s.core 0) = [] := by unfold OwnBytes; decide +kernel
theorem wit_dqpop_record : (records (((recS []).modCore 0 fun c => { c with deque := [(plainRecord 0#64, none)] }).core 0)).getLast? = some (plainRecord 0#64, none) ∧
    (plainRecord 0#64).length = 64 := by decide +kernel
/-- The small thread with a counted object on core 1 in x6 and k in x7, of a group that may be sampled where the launch holds. -/
def decS (hold : Bool) : State :=
  let s := { (atVa 0x200000#64 65535#64) with launches := [{ aLaunch false with hold := hold, sample := if hold then 1 else 0 }] }
  s.modGroup 0 0 fun g => { g with record := repeatN 0#8 34 ++ [1#8, 8#8] ++ repeatN 0#8 28 }
theorem wit_tdec : TaskIssues (decS false) (thr (decS false)) (grp (decS false)) (lau (decS false)) [6#5, 7#5] ∧
    Reaches (decS false) (thr (decS false)) (grp (decS false)) (lau (decS false))
      { va := 0x200000#64, n := 128, align := 128, r := false, w := true, kind := .tdec } (spIa 1 0) false ∧ inScratchpad (spIa 1 0) = true := by
  unfold TaskIssues Issues Reaches Runs Quiet; decide +kernel
theorem wit_tdec_hold : Issues (decS true) (thr (decS true)) [6#5, 7#5] ∧ RunsHere (decS true) ∧ Quiet (decS true) (thr (decS true)) ∧ (grp (decS true)).check = none ∧
    checkAcc (decS true) (decS true).pos (thr (decS true)) { va := 0x200000#64, n := 128, align := 128, r := false, w := true, kind := .tdec } = .ok (spIa 1 0) ∧
    (decS true).mayIssue (decS true).pos (decS true).slot ((decS true).route 1 (spIa 1 0)).ia false = true ∧
    ((decS true).core 0).dbgctl.getLsbD 0 = false ∧ ((lau (decS true)).hold && recSample (grp (decS true)).record && (lau (decS true)).sample ≠ 0) = true := by
  unfold Issues RunsHere Runs Quiet; decide +kernel
theorem wit_tspawn : (0x1#64).extractLsb' 16 48 = 0#48 ∧ (lau eventS).posOfLogical 1 = some 1 ∧ (lau eventS).inRect 1 = true := by decide +kernel
theorem wit_go : let r1 := bytesOf 0x2000#64 8 ++ repeatN 0#8 24 ++ [7#8, 0#8, 1#8] ++ repeatN 0#8 29
    let l := { aLaunch false with roles := [(0, 0), (1, 7)] }
    recordFate l ((aState false).core 0) 0 r1 = .forward 1 ∧ recordFate (aLaunch false) ((aState false).core 0) 0 r1 = .bad 4 ∧
      ({ (aState false).core 0 with halted := true } : Core).canStart (aLaunch false) (plainRecord 0x2000#64) = false := by decide +kernel
theorem wit_exit : Issues withV (thr withV) [] ∧ RunsHere withV ∧ Quiet withV (thr withV) ∧ withV.vectorDone 0 0 (thr withV) = true ∧
    withV.digests (grp withV) = false ∧ (thr withV).tiles = 0 ∧ (thr withV).engines = 0 ∧ withV.groupOpen (grp withV).gid 0 = false ∧ tblWf (withV.core 0).threads = true := by
  unfold Issues RunsHere Runs Quiet; decide +kernel
theorem wit_detach : let s := { (withG fun g => { g with member := some 0 }) with launches := [{ aLaunch false with gang := 1 }] }
    (lau (aState false)).gang = 0 ∧ (lau s).gang ≠ 0 ∧ (grp s).member.isSome = true ∧ RunsHere s := by unfold RunsHere Runs; decide +kernel
/-- The small state in step mode, with a value from the east. -/
def stepS (v : Option Word) : State := (aState true).modCore 0 fun c => { c with nrx := c.nrx.set 0 v }
theorem wit_neighbours : Issues (stepS (some 7#64)) (thr (stepS (some 7#64))) [5#5] ∧ RunsHere (stepS (some 7#64)) ∧ (lau (stepS none)).stepMode = true ∧
    ((stepS none).core 0).nsent.getLsbD (Dir.num .e) = false ∧ ((stepS (some 7#64)).core 0).nrx.toList[Dir.num .e]? = some (some 7#64) ∧
    ((stepS none).core 0).nrx.toList[Dir.num .e]? = some none ∧ (stepS none).stepCore (neighbour 0 .e) = false ∧ (lau (aState false)).stepMode = false := by
  unfold Issues RunsHere Runs; decide +kernel
theorem wit_neighbour_core : ((stepS none).modCore 1 fun c => { c with groups := [grp (stepS none)] }).stepCore (neighbour 0 .e) = true := by decide +kernel

/-! ## Witnesses: packets, answers and timers -/

/-- A packet from core 1. -/
def pkt (dst : Nat) (b : Body) : Packet :=
  { src := 1, dst := dst, seq := 0#16, ns := b.noSide, retry := false, peer := false, vt := 0#32, colour := false, lid := 1, gen := none, body := b, spot := .ejected }
/-- A state with one packet in the fabric. -/
def netS (s : State) (p : Packet) : State := { s with net := [p] }
/-- The small state with page 0 of memory space mapped. -/
def memS : State := (aState false).mapPage 0
/-- Bytes that lie in one page, as a test evaluates it. -/
def liesB (s : State) (off n : Nat) (host : Bool) : Bool :=
  decide (off % 65536 + n ≤ 65536) && (List.range (max n 1)).all fun i => s.xlate (off + i) == (s.xlate off).map fun x => (host, x.2)
theorem lies_spec {s : State} {off n : Nat} {host : Bool} (h : liesB s off n host = true ∧ (s.xlate off).isSome = true) : ∃ b, Lies s off n host b := by
  obtain ⟨h, i⟩ := h
  obtain ⟨x, hx⟩ := Option.isSome_iff_exists.mp i
  simp only [liesB, Bool.and_eq_true, decide_eq_true_eq, List.all_eq_true, List.mem_range, beq_iff_eq, hx, Option.map_some] at h
  refine ⟨x.2, h.1, fun y hy hz => ?_⟩
  have := h.2 (y - off) (by omega)
  rwa [show off + (y - off) = y by omega] at this
theorem wit_home : let s := netS memS (pkt (homeNode 8) (.write (memIa 8) (repeatN 1#8 8) false))
    Arrives s 0 (pkt (homeNode 8) (.write (memIa 8) (repeatN 1#8 8) false)) ∧ Fresh s (pkt (homeNode 8) (.write (memIa 8) (repeatN 1#8 8) false)) ∧
      0x400 ≤ homeNode 8 ∧ homeNode 8 < 0x800 ∧ (Body.write (memIa 8) (repeatN 1#8 8) false).ia? = some (memIa 8) ∧ tblGet? s.hostLines (memIa 8 % 2 ^ 47 / 128) = none ∧
      (liesB s (memIa 8 % 2 ^ 47) (Body.write (memIa 8) (repeatN 1#8 8) false).size false = true ∧ (s.xlate (memIa 8 % 2 ^ 47)).isSome = true) ∧
      s.memPoison 8 8 = false ∧ Memory.wf s.mem = true := by unfold Arrives Fresh; decide +kernel
theorem wit_home_last : memIa 0xFFF8 % 2 ^ 47 % 65536 + (Body.atomic (memIa 0xFFF8) .d .add 1#64).size = 65536 ∧ liesB memS 0xFFF8 8 false = true ∧ (memS.xlate 0xFFF8).isSome = true := by decide +kernel
/-- The small core holds a word at 0x800, full. -/
def bankS (b : Body) : State := netS (tagS true 0 0#64) (pkt 0 b)
theorem wit_bank (b : Body) (h : b ∈ [Body.read (spIa 0 0x800) 8, .write (spIa 0 0x800) (repeatN 1#8 8) false, .atomic (spIa 0 0x800) .d .add 1#64, .reduce (spIa 0 0x800) .d .add 1#64,
      .tagged (spIa 0 0x800) .take 0#64, .tagged (spIa 0 0x800) .put 0#64, .tdec (spIa 0 0x800) 1]) :
    MeetsBytes (bankS b) 0 (pkt 0 b) (spIa 0 0x800) 0x800 b.size ∧ b.ia? = some (spIa 0 0x800) := by
  fin_cases h <;>
    exact ⟨⟨⟨⟨by unfold Arrives; decide +kernel, by decide +kernel, by decide +kernel, by decide +kernel, by decide +kernel⟩, by unfold Fresh; decide +kernel,
      by decide +kernel⟩, ⟨0, by decide +kernel⟩, by decide +kernel, by decide +kernel, by decide +kernel, by decide +kernel⟩, by decide +kernel⟩
/-- A bulk request of 16 bytes at 0x800, and the same with its first word done. -/
def bulkS (b : Body) (n : Nat) : State := netS (aState false) { pkt 0 b with part := n }
theorem wit_bulk (b : Body) (h : b ∈ [Body.bulkRead (spIa 0 0x800) 16, .bulkWrite (spIa 0 0x800) (repeatN 1#8 16) false]) (n : Nat) (hn : n ∈ [0, 8]) :
    let s := bulkS b n
    let p := { pkt 0 b with part := n }
    Lands s 0 p ∧ Fresh s p ∧ inScratchpad (spIa 0 0x800) = true ∧ b.ia? = some (spIa 0 0x800) ∧ b.size = 16 ∧ p.part < 16 ∧
      placeOf (spIa 0 0x800 + p.part) = .sp 0 (0x800 + n) ∧ min (16 - p.part) (8 - (spIa 0 0x800 + p.part) % 8) = 8 ∧
      (s.core 0).ownership p.lid p.gen (0x800 + n) 8 = .ok ∧ (s.core 0).exEn = false ∧ (s.core 0).spPoison (0x800 + n) 8 = false ∧
      Memory.wf (s.core 0).sp = true ∧ p.bad = false ∧ p.got = [] := by
  fin_cases h <;> fin_cases hn <;> (unfold Lands Arrives Fresh; decide +kernel)
theorem wit_bank_tags : tagReady .take true = true ∧ tagReady .put true = false ∧ tagReady .put false = true ∧ ((tagS true 0 0#64).core 0).waits = [] ∧
    repeatN (0 : Nat) 47 ≠ [] ∧ (repeatN (0 : Nat) 47).length < 48 := by decide +kernel
theorem wit_tdec_count : let v := wordOf [5#8, 0#8, 0#8, 0#8, 0#8, 0#8, 0#8, 0#8]
    v.getLsbD 32 = false ∧ ((4 : Nat) : Int) < (v.extractLsb' 0 32).toInt ∧ ((5 : Nat) : Int) = (v.extractLsb' 0 32).toInt ∧ 0 < (v.extractLsb' 0 32).toInt := by decide
theorem wit_exchange : let s := netS ((aState false).modCore 0 fun c => { c with exEn := true }) (pkt 0 (.xst (spIa 0 0x37FF8) 1#64))
    Meets s 0 (pkt 0 (.xst (spIa 0 0x37FF8) 1#64)) ∧ placeOf (spIa 0 0x37FF8) = .sp 0 0x37FF8 ∧ (s.core 0).exEn = true ∧ (s.core 0).lid = 1 ∧ (s.core 0).waits = [] ∧
      Memory.wf (s.core 0).sp = true := by unfold Meets Lands Arrives Fresh; decide +kernel
/-- The small core with its matrix unit open to key 5, and a wait of core 1's. -/
def takeS (b : Body) : State := netS ((aState false).modCore 0 fun c =>
  { c with mxEn := true, mxKey := 5#32, waits := [{ word := 0x100, op := .lwf, data := 0#64, slot := none, node := 1, ns := false, seq := 7#16 }] }) (pkt 0 b)
theorem wit_meets (b : Body) (h : b ∈ [Body.matrix 5#32 1#8 2 0 (spIa 0 0x800), .withdraw false 7#16, .event 3 9 4#32 1#32 1, .bulkWrite (dqinIa 0) (plainRecord 0#64) false,
      .debugAccess 0]) : Meets (takeS b) 0 (pkt 0 b) := by
  fin_cases h <;> (unfold Meets Lands Arrives Fresh; decide +kernel)
theorem wit_matrix : let c := (takeS .space).core 0
    c.mxEn = true ∧ c.mxKey = 5#32 ∧ c.matrixQ.length < 4 ∧ placeOf (spIa 0 0x800) = .sp 0 0x800 ∧
      (tileOfDesc 0 1 2 0 1#8 1 (c.spRead 0x800 64)).isSome = true := by decide +kernel
theorem wit_withdraw : ∃ e ∈ ((takeS .space).core 0).waits, e.slot = none ∧ e.node = 1 ∧ e.ns = false ∧ e.seq = 7#16 := by decide +kernel
theorem wit_event : let c := (takeS .space).core 0
    c.lid = 1 ∧ c.reserved = [] ∧ coalesce 3 9 4#32 1#32 c.inbox = none ∧ c.inboxFree 3 = true ∧ c.refusals = [] ∧
      (coalesce 3 9 4#32 1#32 (inboxS.core 0).inbox).isSome = true ∧ ({ c with refusals := [(9, false)] } : Core).refusals ≠ [] := by decide +kernel
theorem wit_neighbour_packet : let s := netS (stepS none) (pkt 0 (.neighbour .w 9#64))
    Meets s 0 (pkt 0 (.neighbour .w 9#64)) ∧ s.stepCore 0 = true := by unfold Meets Lands Arrives Fresh; decide +kernel
/-- Core 1 has a nomad thread of its own in transit to core 0. -/
def nomadS : State := netS ((((aState false).modThread 0 0 fun t => { t with idx := 0 }).modCore 1 fun c =>
    { c with threads := [(0, { thr (aState false) with run := .transit 0, nomad := true })], groups := [grp (aState false)] }))
  (pkt 0 (.context (repeatN 7#64 15) 0x2000#64 1#8 1 0 true))
theorem wit_context : Meets nomadS 0 (pkt 0 (.context (repeatN 7#64 15) 0x2000#64 1#8 1 0 true)) ∧ (nomadS.core 0).lid = 1 ∧ (lau nomadS).inRect 1 = true ∧
    (nomadS.core 0).freeSlots.head? = some 1 ∧ (nomadS.core 0).halted = false ∧ (nomadS.core 0).recasting = none ∧ (∀ g ∈ (nomadS.core 0).groups, g.stopped = none) ∧ (nomadS.core 1).halted = false ∧
    (((nomadS.core 1).threads.find? fun x => x.2.run == Run.transit 0 && x.2.homePos 1 == 1 && x.2.homeSlot x.1 == 0).isSome) = true := by
  unfold Meets Lands Arrives Fresh; decide +kernel
theorem wit_dqin : (aState false).launch? 1 = some (aLaunch false |> fun l => { l with ran := 1 }) ∧ recordFate (aLaunch false) ((aState false).core 0) 0 (plainRecord 0#64) = .mine ∧
    (records ((aState false).core 0)).length < 4096 := by decide +kernel
theorem wit_debug_access : Meets (netS (aState false) { pkt 0 (.debugAccess 0x10) with src := mgmtNode }) 0 { pkt 0 (.debugAccess 0x10) with src := mgmtNode } := by
  unfold Meets Lands Arrives Fresh; decide +kernel
theorem wit_delegated (host : Bool) : let p := pkt 0x802 (.delegated (memIa 8) .d .add 1#64 3#8)
    let s := netS (if host then (aState false).mapHostPage 0 5 else memS) p
    Arrives s 0 p ∧ Fresh s p ∧ 0x800 ≤ p.dst ∧ p.dst < 0xC00 ∧ p.dst % 256 = 2 ∧ p.src < 0x400 ∧ (s.leaf p.dst).bounds.length < 256 ∧
      (liesB s 8 8 host = true ∧ (s.xlate 8).isSome = true) ∧ memIa 8 % 2 ^ 47 = 8 ∧ s.hostLines = [] ∧ s.memPoison 8 8 = false ∧ Memory.wf s.mem = true ∧
      Memory.wf s.host = true := by
  cases host <;> (unfold Arrives Fresh; decide +kernel)
/-- The host may hold line 0 of memory space. -/
def heldS (s : State) (held : Bool) : State :=
  { s with
    hostLines := if held then [(0, { data := repeatN 7#8 128, lo := false, hi := true })] else []
    tlb := [{ slice := 0, page := 0, host := false, base := ((s.walk 0).getD (false, 0)).2 }] }
theorem wit_forwarded (held : Bool) : let p := { pkt linkNode (.forwarded (.read (memIa 8) 8) 1 4#16 true) with src := homeNode 8 }
    let s := heldS (netS memS p) held
    s.net[0]? = some p ∧ p.spot = .ejected ∧ p.dst = linkNode ∧ Fresh s p ∧ (Body.read (memIa 8) 8).ia? = some (memIa 8) ∧
      (tblGet? s.hostLines (memIa 8 % 2 ^ 47 / 128)).isSome = held ∧
      (liesB s (memIa 8 % 2 ^ 47) (Body.read (memIa 8) 8).size false = true ∧ (s.xlate (memIa 8 % 2 ^ 47)).isSome = true) ∧ s.memPoison 8 8 = false ∧
      (Body.write (memIa 8) [1#8] false).ia? = some (memIa 8) ∧ Memory.wf s.mem = true := by
  unfold Fresh; cases held <;> decide +kernel
theorem wit_probe (held : Bool) : let p := { pkt linkNode (.probe 0) with src := homeNode 0 }
    let s := heldS (netS memS p) held
    s.net[0]? = some p ∧ p.spot = .ejected ∧ tblWf s.hostLines = true ∧ (tblGet? s.hostLines 0).isSome = held ∧ (tblGet? s.hostLines 0).all (·.data.length == 128) = true ∧
      (s.cached? (0 * 128)).map (·.1) = some false ∧ Memory.wf s.mem = true := by cases held <;> decide +kernel
/-- A forward slot of a home, of a request and of a probe, and its credit or the probe's answer. -/
def slotS (probe : Bool) : State × Fwd :=
  let f : Fwd := { node := linkNode, ns := false, seq := 0#16, probe := probe, packet := pkt (homeNode 8) (.reduce (memIa 8) .d .add 1#64) }
  let s := netS memS { pkt (homeNode 8) (.probeReply (if probe then none else some (false, 0#16))) with src := linkNode, ns := !probe }
  (s.setNode (homeNode 8) { s.node (homeNode 8) with forward := [f] }, f)
theorem wit_credit (probe : Bool) : let s := (slotS probe).1
    let fwd : Option (Bool × BitVec 16) := if probe then none else some (false, 0#16)
    (s.net[0]?).map (fun p => (p.body, p.spot)) = some (.probeReply fwd, .ejected) ∧
    ((s.node (homeNode 8)).forward.find? fun f => f.sent && f.node == linkNode && f.ns == (fwd.getD (!probe, 0#16)).1 && f.seq == (fwd.getD (!probe, 0#16)).2) =
      some (slotS probe).2 ∧ (∀ g ∈ (s.node (homeNode 8)).forward, g.sent = true) ∧
    (slotS probe).2.probe = probe ∧ (slotS probe).2.packet.body = .reduce (memIa 8) .d .add 1#64 ∧
    (liesB s (memIa 8 % 2 ^ 47) 8 false = true ∧ (s.xlate (memIa 8 % 2 ^ 47)).isSome = true) ∧ s.memPoison 8 8 = false := by cases probe <;> decide +kernel
/-- An outstanding request of the small thread to core 1 and its answer. -/
def aReq (u : Use) : Req :=
  { src := 0, dst := 1, seq := 4#16, ns := true, lid := 1, gen := none, body := .read (spIa 1 0) 8, vt := 0#32, colour := false, slot := some 0, gid := 0,
    va := 0x200000#64, handler := false, use := u, tries := 0, waiting := false, backoff := none, busy := 0, parked := false, withdrawn := false, scope := 0, sent := 0#64 }
def answerS (u : Use) (b : Body) : State := netS { (aState false) with reqs := [aReq u] } { pkt 0 b with seq := 4#16, ns := true }
theorem wit_answer (u : Use) (b : Body) (h : (u, b) ∈ [(Use.load 5#5 8 false 0 none false, Body.data (repeatN 1#8 8) .ok), (.atomic 5#5 .w, .data (repeatN 1#8 4) .ok),
      (.load 5#5 4 true 124 (some 9) true, .bulkData (repeatN 1#8 128) .ok), (.fetch 9, .bulkData (repeatN 1#8 128) .ok), (.store, .ack false .ok), (.store, .nack .fenced),
      (.tagged .lwf 5#5, .ack true .ok), (.event 0, .nack .full), (.store, .nack .busy), (.context 0, .migRefusal)]) :
    Names (answerS u b) 0 { pkt 0 b with seq := 4#16, ns := true } (aReq u) ∧ Asker (answerS u b) (aReq u) 0 (thr (aState false)) ∧ (thr (aState false)).held = none := by
  fin_cases h <;> exact ⟨by unfold Names Arrives; decide +kernel, by unfold Asker; decide +kernel, by decide +kernel⟩
theorem wit_space : let v : EvSlot := { dst := 1, body := .event 3 9 4#32 1#32 0, retry := true, slot := 0, at0 := 0#64 }
    let s := netS ((aState false).modCore 0 fun c => { c with evSlots := [v] }) (pkt 0 .space)
    s.net[0]? = some (pkt 0 .space) ∧ (pkt 0 .space).spot = .ejected ∧ ((s.core 0).evSlots.find? fun v => v.dst == 1 && v.retry) = some v := by decide +kernel
/-- A request to core 1 that was sent at TIMEB 0, at a later time. -/
def timedS (r : Req) (now : Word) : State := { (aState false) with reqs := [r], time := now }
theorem wit_timers : (timedS (aReq .store) 50000#64).reqs[0]? = some (aReq .store) ∧ (aReq .store).toPeer = false ∧ 50000 ≤ ((50000#64 : Word) - 0#64).toNat ∧
    ((49999#64 : Word) - 0#64).toNat < 50000 ∧ Asker (timedS { aReq .store with tries := 3 } 50000#64) { aReq .store with tries := 3 } 0 (thr (aState false)) ∧
    64 ≤ ((16#64 : Word) - 0#64).toNat * 4 ∧ ((15#64 : Word) - 0#64).toNat * 4 < 64 ∧ ({ aReq .store with body := .read 8 8 } : Req).toPeer = true := by
  unfold Asker; decide +kernel
theorem wit_wait_timer : ({ aReq (.tagged .take 5#5) with waiting := true } : Req).waiting = true ∧ 1000000 ≤ ((1000000#64 : Word) - 0#64).toNat ∧
    ((999999#64 : Word) - 0#64).toNat < 1000000 ∧ Asker (timedS { aReq (.tagged .take 5#5) with waiting := true, tries := 3 } 1000000#64)
      { aReq (.tagged .take 5#5) with waiting := true, tries := 3 } 0 (thr (aState false)) := by unfold Asker; decide +kernel

/-! ## Witnesses: control registers, links, firmware, and the timers and thieves of a core -/

/-- The small state with one message on the control network. -/
def ctlS (m : CtlMsg) : State := { (aState false) with ctl := [m] }
theorem wit_control : ctlMask 0x200 = some 0x7F#64 ∧ (ctlS (.write 0 0x200 1#64)).ctl[0]? = some (.write 0 0x200 1#64) ∧ placeOf (spIa 0 0x300200) = .ctl 0 0x200 ∧
    (ctlS (.write 0 0x220 1#64)).ctl[0]? = some (.write 0 0x220 1#64) ∧ HaltsAtOnce (ctlS (.write 0 0x220 1#64)) 0 ∧
    (ctlS (.read 0 0x200)).ctl[0]? = some (.read 0 0x200) ∧ (ctlS (.data 0 0x200 1#64)).ctl[0]? = some (.data 0 0x200 1#64) ∧
    placeOf (0xFF830000050100) = .dev 0x50100 ∧ CtlMsg.write 0 0x220 1#64 ∈ (ctlS (.write 0 0x220 1#64)).ctl := by
  unfold HaltsAtOnce; decide +kernel
theorem wit_inbctl : ((withC fun c => { c with inbHeld := some 0x00040040#64 }).core 0).inbHeld = some 0x00040040#64 ∧ ((aState false).core 0).inbox = [] := by decide +kernel
theorem wit_trcctl : (aState false).feature 2 = false ∧ ((aState false).modFw fun w => { w with features := 4#6 }).feature 2 = true := by decide +kernel
/-- A queue 1 with rings and lines in host memory. -/
def aQueue (en : Bool) : Queue := { Queue.none with
  base := 0x8000000000000000#64, cbase := 0x8000000000010000#64, sub := 0x8000000000020000#64, stat := 0x8000000000020040#64, size := 0x404#64, en := en,
  state := if en then 1 else 0 }
def queueS (q : Nat) (v : Queue) : State := (aState false).modFw fun w => { w with queues := [(q, v)], ready := true, phase := 8, linkUp := true }
theorem wit_qctl : (queueS 1 (aQueue false)).queueValid ((queueS 1 (aQueue false)).queue 1) = true ∧ ((queueS 1 (aQueue false)).queue 1).en = false ∧
    (aState false).queueValid ((aState false).queue 1) = false ∧ ((queueS 1 (aQueue true)).queue 1).en = true ∧ ((queueS 1 (aQueue true)).queue 1).begun = [] := by
  decide +kernel
/-- A flit that the link east of router 0 has refused n times in a row and that has come over it again. -/
def refusedS (n : Nat) : State :=
  { netS (aState false) { pkt 1 .space with spot := .atPort 1 2 } with fw := { (aState false).fw with replays := [(0, ({ pkt 1 .space with spot := .offered }, n))] } }
theorem wit_links : OnLink (refusedS 3) 0 .e (planeNum .response) { pkt 1 .space with spot := .atPort 1 2 } ∧
    refusals (refusedS 3) 0 { pkt 1 .space with spot := .atPort 1 2 } < 4 ∧ 4 ≤ refusals (refusedS 4) 0 { pkt 1 .space with spot := .atPort 1 2 } ∧
    linkRefuses (.header 1#64) = true ∧ portDead (refusedS 3).fw.deadLinks 0 (Dir.num .e) = false ∧ (ctlS (.linkDead 0 .e 0)).ctl[0]? = some (.linkDead 0 .e 0) ∧
    CtlMsg.injPause 0 ∈ (ctlS (.injPause 0)).ctl ∧ CtlMsg.injResume 0 ∈ (ctlS (.injResume 0)).ctl ∧ (∀ r ∈ (aState false).reqs, r.src = 0 → r.parked = false) := by
  unfold OnLink; decide +kernel
theorem wit_starve : 64 ≤ tblGetD ((aState false).modFw fun w => { w with starveCnt := [(1, 64)] }).fw.starveCnt (0 * 4 + planeNum .event) 0 := by decide +kernel
/-- A reroute in progress, after the link east of router 0 died with a flit of core 0's on it. -/
def drainingS (now : Word) : State :=
  { (netS (aState false) { pkt 1 (.read (spIa 1 0) 8) with spot := .atPort 1 2 }) with time := now, fw := { (aState false).fw with
      rerouting := true, carriedAt := now, deadLinks := [(0, 0)], buffers := [(2, [pkt 1 (.read (spIa 1 0) 8)])] } }
theorem wit_reroute : (drainingS 60000#64).fw.rerouting = true ∧ Drained (drainingS 60000#64) false ∧
    (∀ r ∈ (drainingS 60000#64).reqs, 0x400 ≤ r.src → r.parked = false) ∧ (∀ e ∈ (drainingS 60000#64).fw.buffers, portDead (drainingS 60000#64).fw.deadLinks (e.1 / 16) (e.1 / 4 % 4) = true) := by
  refine ⟨by decide +kernel, .inl (by decide +kernel), by decide +kernel, by decide +kernel⟩
theorem wit_draining : ¬ Drained (drainingS 59999#64) true := by
  rintro (h | h)
  · exact absurd h (by decide +kernel)
  · exact absurd h.2.1 (by decide +kernel)
theorem wit_lost_notice : let x : Packet := { pkt 1 (.read (spIa 1 0) 8) with src := 0x800, seq := 4#16, ns := true }
    let r : Req := { aReq .debug with src := 0x800 }
    let s := { (aState false) with reqs := [r], fw := { (aState false).fw with lostNotices := [(0x800, x)] } }
    s.fw.lostNotices[0]? = some (0x800, x) ∧ (s.reqs.find? fun r => r.src == 0x800 && r.dst == x.dst && r.ns == x.ns && r.seq == x.seq && !r.parked) = some r ∧
      r.tries < 3 ∧ (aState false).active 1 = true ∧ ((aState false).node 1).forward = [] ∧ ((aState false).core 1).inboxFree 15 = true ∧
      ((aState false).core 1).refusals = [] ∧ ((aState false).core 1).reserved = [] := by decide +kernel
/-- Page 0 of memory space is mapped and the scrubber runs. -/
def scrubS : State := { memS with fw := { memS.fw with ready := true } }
theorem wit_scrub : scrubS.fw.scrubEn = true ∧ scrubS.fw.ready = true ∧ ScrubStored scrubS ∧ tblGet? scrubS.carveUpsets (1 / 64) = none ∧ tblGet? scrubS.upsets 1 = none := by
  unfold ScrubStored; decide +kernel
theorem wit_scrub_outcomes : (scrubS.blockOutcome 1).1 = .clean ∧ scrubS.carveOutcome 0 = .clean :=
  ⟨by rw [State.blockOutcome_clean (by decide +kernel) (by decide +kernel)], State.carveOutcome_clean (by decide +kernel)⟩
theorem wit_grid : let s := { (aState false) with time := 10000#64, fw := { (aState false).fw with ready := true } }
    s.fw.latchedAt.toNat / 10000 < s.time.toNat / 10000 ∧ s.fw.ready = true ∧ CtlMsg.gridLatch 0 s.fw.latchN ∈ (ctlS (.gridLatch 0 0)).ctl ∧ s.fw.latchN = 0 := by decide +kernel
theorem wit_peer : ((aState false).modFw fun w => { w with peers := [(3, (true, PeerReason.none))] }).peerLive 3 = true := by decide +kernel
theorem wit_watershed : let s := { (aState false) with time := 2000#64, fw := { (aState false).fw with ready := true } }
    s.fw.wsCur = none ∧ s.fw.ready = true ∧ 2000 * (s.fw.wsRound + 1) ≤ s.time.toNat / 2000 * 2000 ∧ s.fw.wsPub.toNat ≤ s.time.toNat / 2000 * 2000 := by decide +kernel
theorem wit_rounds : let r : WsRound := { l := 5#32, ms := 6#32, s := 1#32, v := 1#32, k := 1, at0 := 0#64, last := 0#64 }
    ((aState false).modFw fun w => { w with wsCur := some r }).fw.wsCur = some r ∧ 100000 ≤ ((100000#64 : Word) - r.at0).toNat ∧
      ((99999#64 : Word) - r.at0).toNat < 100000 ∧ 100 ≤ ((100#64 : Word) - r.last).toNat := by decide +kernel
theorem wit_reserved : let s := { (withC fun c => { c with reserved := [{ src := 9, sys := false, at0 := 0#64 }], refusals := [(8, false)] }) with time := 1000#64 }
    (s.core 0).reserved = { src := 9, sys := false, at0 := 0#64 } :: [] ∧ 1000 ≤ (s.time - 0#64).toNat ∧ (s.core 0).heldGvt = none ∧ (s.core 0).refusals = (8, false) :: [] ∧ ({ s.core 0 with reserved := [] } : Core).inboxFree 0 = true ∧
      ((999#64 : Word) - 0#64).toNat < 1000 := by decide +kernel
theorem wit_refused_event : let v : EvSlot := { dst := 1, body := .event 3 9 4#32 1#32 0, retry := true, slot := 0, at0 := 0#64 }
    let r : EvSlot := { dst := 0, body := .record 5#128, retry := true, slot := 0, at0 := 0#64 }
    let s := { (withC fun c => { c with evSlots := [v, r] }) with time := 1000#64 }
    (s.core 0).evSlots[0]? = some v ∧ (s.core 0).evSlots[1]? = some r ∧ s.listed 0 1 = false ∧ s.listed 0 0 = false ∧ (s.core 0).inboxFree 15 = true ∧ (s.core 0).refusals = [] ∧ (s.core 0).reserved = [] := by decide +kernel
theorem wit_refused_record : let r : Req := { aReq .record with src := 0x800, body := .record 5#128, parked := true, waiting := true }
    let s := { (aState false) with reqs := [r], time := 1000#64 }
    (s.reqs.filter fun r => r.src == 0x800 && r.use == .record && r.parked && r.waiting)[0]? = some r ∧ s.listed 0x800 1 = false ∧
      1000 ≤ (s.time - r.sent).toNat := by decide +kernel
theorem wit_dale_entry : let x : Nat × DruEntry := (0, { id := 4, ia := memIa 0, w := .w, op := .add, v := 1#64, lid := 1, flushed := false, born := 0#64, askers := [] })
    let s := { (aState false) with dru := [x], time := 100000#64 }
    (s.dru.filter fun e => e.1 == 0)[0]? = some x ∧ 100000 ≤ (s.time - x.2.born).toNat ∧ (s.dru.filter fun y => y.2.id == x.2.id) = [x] := by decide +kernel
/-- The small state with a handler, the watchdog at 5 µs, and its thread as it is. -/
def dogS (r : Run) : State := { ((handled.modThread 0 0 fun t => { t with run := r }).modCore 0 fun c => { c with wdLimit := 5#32 }) with time := 5000#64 }
theorem wit_watchdog (r : Run) (h : r ∈ [Run.running, .sleeping .tag, .sleeping (.reply 1 true 4#16)]) :
    (dogS r).thread? 0 0 = some (thr (dogS r)) ∧ ((dogS r).core 0).wdLimit ≠ 0#32 ∧ ((dogS r).core 0).wdLimit.toNat ≤ (dogS r).idleUs 0 (thr (dogS r)) ∧ (thr (dogS r)).trapDue = false ∧
      (thr (dogS r)).run = r ∧ HasHandler (dogS r) 0 0 (thr (dogS r)) (grp (dogS r)) ∧ (thr (dogS r)).wdPending = false := by
  unfold HasHandler; fin_cases h <;> decide +kernel
theorem wit_watchdog_request : (aReq (.tagged .take 5#5)).waitOf 0 0 = true ∧ ({ dogS .running with time := 4999#64 } : State).idleUs 0 (thr (aState false)) < 5 := by
  decide +kernel
theorem wit_wfe : (withT fun t => { t with run := .sleeping (.wfe 0#64) }).thread? 0 0 = some { thr (aState false) with run := .sleeping (.wfe 0#64) } ∧ (thr (aState false)).digNext = none ∧
    10000 ≤ ((10000#64 : Word) - 0#64).toNat ∧ ((9999#64 : Word) - 0#64).toNat < 10000 := by decide +kernel
/-- Core 0 has one record at the top of its deque. -/
def topS (r : List Byte) : State := withC fun c => { c with deque := [(r, none)] }
theorem wit_group_start : let s := topS (plainRecord 0x2000#64)
    s.launch? (s.core 0).lid = some (lau s) ∧ (records (s.core 0)).getLast? = some (plainRecord 0x2000#64, none) ∧ (s.core 0).auto = true ∧
      (s.core 0).recasting = none ∧ (s.core 0).halted = false ∧ (s.core 0).fenced = false ∧ (lau s).st = .running ∧ (lau s).stepMode = false ∧
      recordFate (lau s) (s.core 0) 0 (plainRecord 0x2000#64) = .mine ∧ (s.core 0).canStart (lau s) (plainRecord 0x2000#64) = true ∧
      Memory.wf (s.core 0).sp = true := by decide +kernel
theorem wit_refill : let s := withC fun c => { c with spill := [(plainRecord 0#64, none)] }
    (s.core 0).deque.length ≤ 8 ∧ (s.core 0).spill ≠ [] := by decide +kernel
/-- Core 0 is idle and may steal; core 1 holds a record. -/
def thiefS (back : Bool) : State :=
  { (((aState false).modCore 0 fun c => { c with groups := [], threads := [], backoff := back, emptyRnd := 1 }).modCore 1 fun c =>
    { c with deque := [(plainRecord 0#64, none)] }) with time := 1000#64 }
theorem wit_thief : let s := thiefS false
    s.launch? (s.core 0).lid = some (lau s) ∧ (lau s).st = .running ∧ (lau s).stepMode = false ∧ (s.core 0).thief = true ∧ (s.core 0).stealOut = false ∧
      (s.core 0).backoff = false := by decide +kernel
theorem wit_thief_backoff : ((thiefS true).core 0).backoff = true ∧ ((thiefS true).core 0).thief = true ∧
    1000 * 2 ^ min (((thiefS true).core 0).emptyRnd - 1) (min ((thiefS true).core 0).boMax 6) ≤ ((thiefS true).time - ((thiefS true).core 0).stealAt).toNat := by
  decide +kernel
theorem wit_victims : (thiefS false).nearVictims 0 = [1] ∧ (thiefS false).victimOf 0 1 = true ∧ ((thiefS false).core 1).halted = false ∧
    records ((thiefS false).core 1) = [] ++ (plainRecord 0#64, none) :: [] ∧ (thiefS false).victimOf 0 40 = false := by decide +kernel
theorem wit_no_victims : let s := (thiefS false).modCore 1 fun c => { c with hasRole := false }
    s.nearVictims 0 = [] ∧ s.farVictims 0 (lau s) = [] := by decide +kernel
theorem wit_far_victims : let l := { aLaunch false with map := [0, 8], roles := [(0, 0), (1, 0)] }
    let s := { ((aState false).modCore 1 fun c => { c with lid := 0, hasRole := false }).modCore 8 (fun c => { c with lid := 1, hasRole := true, lcore := 1 }) with launches := [l] }
    s.nearVictims 0 = [] ∧ s.farVictims 0 l = [8] := by decide +kernel
theorem wit_steal_messages : (ctlS (.stealReq 0 1)).ctl[0]? = some (.stealReq 0 1) ∧
    (ctlS (.stealReply 1 0 (some (plainRecord 0#64)) 0#32 false)).ctl[0]? = some (.stealReply 1 0 (some (plainRecord 0#64)) 0#32 false) ∧
    ({ (thiefS false).core 0 with victims := [3], thieving := true } : Core).thief = true := by decide +kernel
/-- Core 0 in step mode with its thread in `bar.t`. -/
def barS (arr : Bool) : State := ((aState true).modThread 0 0 fun t => { t with run := .sleeping .barT }).modCore 0 fun c => { c with barArr := arr }
theorem wit_barrier_tree : tblWf (barS true).cores = true ∧ (∀ e ∈ (barS true).cores, tblWf e.2.threads = true) ∧ (barS true).stepCore 0 = true ∧
    ((barS true).core 0).barArr = true ∧ ((barS false).core 0).barArr = false ∧ (barS true).stepCore 1 = false := by decide +kernel

/-! ## Witnesses: resets, power and the command queues -/

/-- A 64-byte command entry: OPC, flags 0, TAG 1, SUB, and the bytes from 8 on. -/
def ent (opc sub : Nat) (rest : List Byte) : List Byte :=
  (bytesOfNat opc 1 ++ [0#8, 1#8, 0#8] ++ bytesOfNat sub 1 ++ repeatN 0#8 3 ++ rest ++ repeatN 0#8 56).take 64
/-- The small state with one entry read in queue 0. -/
def cmdS (e : List Byte) : State := queueS 0 { aQueue true with pending := [(0, e)], rp := 1 }
/-- An address in host memory. -/
def hostA (a : Nat) : List Byte := bytesOf (BitVec.ofNat 64 (2 ^ 63 + a)) 8
/-- Eight zero bytes, that is, operands at byte 16 follow. -/
def at16 (b : List Byte) : List Byte := repeatN 0#8 8 ++ b
/-- The checks before a command's own, which a test evaluates. -/
def heads (e : List Byte) (opc : Nat) : Bool :=
  (cmdS e).mayBegin 0 == some (0, e) && entOpc e == opc && ((cmdS e).badEntry 0 e).isNone && e.length == 64
theorem heads_spec {e : List Byte} {opc : Nat} (h : heads e opc = true) : Heads (cmdS e) 0 0 e opc ∧ e.length = 64 := by
  simp only [heads, Bool.and_eq_true, beq_iff_eq, Option.isNone_iff_eq_none] at h
  exact ⟨⟨h.1.1.1, h.1.1.2, h.1.2⟩, h.2⟩

theorem wit_input : ((aState false).modFw fun w => { w with inputGood := false }).fw.inputGood = false ∧
    ((aState false).modFw fun w => { w with inputGood := true, shutdown := false, fail := false, ready := false, phase := 0 }).fw.ready = false := by decide +kernel
/-- A module in a step of its reset sequence. -/
def rstS (n : Nat) : State := { (aState false) with
  launches := [], cores := [],
  fw := { (aState false).fw with inputGood := true, shutdown := false, fail := false, ready := false, phase := n } }
theorem wit_phases : (rstS 7).fw.phase < 8 ∧ (rstS 6).launches = [] ∧ (rstS 6).active 0 = true ∧ 8 ≤ (rstS 8).fw.phase ∧ (rstS 2).fw.phase < 3 ∧
    3 ≤ (rstS 3).fw.phase ∧ (rstS 8).fw.inputGood = true ∧ (rstS 8).fw.shutdown = false ∧ (rstS 8).fw.fail = false ∧ (rstS 8).fw.ready = false := by
  decide +kernel
theorem wit_warm : MayWarm ((rstS 3).modFw fun w => { w with linkUp := true }) := by unfold MayWarm; decide +kernel
theorem wit_reset_warm : heads (ent 0x11 0 []) 0x11 = true ∧ heads (ent 0x11 1 (at16 (hostA 0x1000))) 0x11 = true ∧
    heads (ent 0x11 2 (at16 (hostA 0x1000))) 0x11 = true := by decide +kernel
/-- A reset image's header: the magic, version 1 and its size. -/
def anImage : List Byte := bytesOfNat 0x49595A47 4 ++ bytesOfNat 1 2 ++ [0#8, 0#8] ++ bytesOfNat 256 8
theorem wit_reset_image : let e := ent 0x11 1 (at16 (hostA 0x1000))
    let s := { cmdS e with host := memWrite [] 0x1000 anImage }
    let a := entWord e 16
    let n := entNat (s.fwLoad a 256) 8 8
    Heads s 0 0 e 0x11 ∧ s.hostRange a 256 = true ∧ entNat (s.fwLoad a 256) 0 4 = 0x49595A47 ∧ entNat (s.fwLoad a 256) 4 2 = 1 ∧ 256 ≤ n ∧ s.hostRange a n = true ∧
      ¬ entNat ((cmdS e).fwLoad a 256) 0 4 = 0x49595A47 := by unfold Heads; decide +kernel
theorem wit_reset_image_address : (cmdS []).hostRange 0x1000#64 256 = false := by decide +kernel
theorem wit_reset_patch : let e := ent 0x11 2 (at16 (hostA 0x1000))
    let a := entWord e 16
    let h := (cmdS e).fwLoad a 0x40
    (cmdS e).hostRange a 0x40 = true ∧ (cmdS e).hostRange a (0x40 + entNat h 8 4 + 2820) = true ∧ (cmdS e).badPatch h ((cmdS e).fwLoad a) = some 0x03 := by
  decide +kernel
/-- A sample of the sensors: the voltage and current of every VCORE rail, the input power, and one temperature everywhere. -/
def sampleOf (uv ma input temp : Nat) : PowerSample :=
  { rails := List.replicate 16 { uv := uv, ma := ma } ++ List.replicate 20 { uv := 800000, ma := 0 } ++
      [{ uv := 900000, ma := 0 }, { uv := 0, ma := 0 }, { uv := 3300000, ma := 0 }],
    vmemMw := 0, vmemOk := true, inputMv := 48000, input := input, dales := List.replicate 64 temp, caches := List.replicate 32 temp, ios := List.replicate 8 temp }
/-- Step 1 has raised the rails. -/
def railS : State := (rstS 8).modFw fun w => { w with railsOn := true, railOut := [(0, 3)] }
theorem wit_rails_good : ∀ n, n < 39 → railOutside (sampleOf 750000 100000 0 0) n = false ∧ railOver (sampleOf 750000 100000 0 0) n = false := by decide +kernel
theorem wit_rails_bad : (railRead (sampleOf 599999 0 0 0) 0).uv < 600000 ∧ 900000 < (railRead (sampleOf 900001 0 0 0) 0).uv ∧ 3 ≤ tblGetD railS.fw.railOut 0 0 ∧
    railS.fw.railsOn = true ∧ 150000 < (railRead (sampleOf 750000 150001 0 0) 15).ma ∧ (railS.railFault (sampleOf 599999 0 0 0)) = some (1, 0) ∧
    (railS.railFault (sampleOf 750000 150001 0 0)) = some (2, 0) ∧ railS.fw.inputGood = true ∧ railS.fw.shutdown = false := by decide +kernel
theorem wit_samples : let m (input temp : Nat) := sampleOf 750000 100000 input temp
    railS.railFault (m 0 1150) = none ∧ 1150 ≤ ((m 0 1150).dales ++ (m 0 1150).caches ++ (m 0 1150).ios).foldl max 0 ∧
    railS.railFault (m 2000001 1149) = none ∧ ((m 2000001 1149).dales ++ (m 2000001 1149).caches ++ (m 2000001 1149).ios).foldl max 0 < 1150 ∧
    2000000 < (m 2000001 1149).input ∧ ¬ (∀ b ∈ railS.fw.basins.toList, b.point = 4) ∧ railS.fw.overFault < 99 := by decide +kernel
/-- Every basin of the module at a state of its own. -/
def basinS (x : Basin) : State := (rstS 8).modFw fun w => { w with basins := Vector.replicate 16 x, ready := true, calmM := 100, calmH := 100 }
/-- A basin at its reset state. -/
def aBasin : Basin := (State.reset.fw.basins.toList.headD
  { point := 1, power := 0, module := 0, warm := 0, hot := 0, moduleFrom := 0, hotFrom := 0, boost := false, calmP := 0, calmT := 0, expert := none, changing := false,
    lastMw := 0, lastTemp := 0, clocks := 0 })
theorem wit_steps_up : let x := { aBasin with power := 2, calmP := 100, calmT := 100, changing := true }
    (basinS x).fw.basins.toList[15]? = some x ∧ 0 < x.power ∧ 100 ≤ x.calmP ∧ 100 ≤ x.calmT ∧ 100 ≤ (basinS x).fw.calmM ∧ tblWf (basinS x).cores = true ∧
      (basinS x).stopLag = 0 ∧ (∀ e ∈ (basinS x).cores, e.2.trcctl.getLsbD 0 = false ∧ ∀ g ∈ e.2.groups, g.lag = none) ∧
      (basinS aBasin).fw.basins.toList[0]? = some aBasin ∧ aBasin.power = 0 ∧
      (basinS aBasin).fw.ready = true ∧ aBasin.lastMw < 68000 ∧ aBasin.lastTemp < 900 ∧ aBasin.boost = false := by decide +kernel
theorem wit_change_end : let s := (withC fun c => { c with haltHeld := true }).modFw fun w => { w with basins := Vector.replicate 16 { aBasin with changing := true } }
    (tblGet? s.cores 0).any (fun c => c.haltHeld && !c.halted) = true ∧ basinOf 0 = 0 ∧ s.stopLag = 0 ∧ tblWf s.cores = true ∧
      (∀ e ∈ s.cores, e.2.trcctl.getLsbD 0 = false ∧ ∀ g ∈ e.2.groups, g.lag = none) := by decide +kernel
theorem wit_rail_low : let s := (basinS { aBasin with point := 4 }).modFw fun w => { w with overFault := 99 }
    (∀ b ∈ s.fw.basins.toList, b.point = 4) ∧ 99 ≤ s.fw.overFault := by decide +kernel

/-- Queue 1 with its submit line in device memory at 0x1000, that line holding WP and CRP. -/
def lineS (wp crp : Nat) : State :=
  let s := ((queueS 1 { aQueue true with sub := BitVec.ofNat 64 (memIa 0x1000), rp := 2, wpLast := 2, cwp := 1, crpLast := 1 }).mapPage 0)
  s.memStore 0x1000 (bytesOfNat wp 8 ++ bytesOfNat crp 8)
theorem wit_submit_line (wp crp : Nat) (h : (wp, crp) ∈ [(1, 1), (2, 0), (3, 2), (19, 1), (18, 1), (3, 1)]) :
    ((lineS wp crp).queue 1).en = true ∧ ((lineS wp crp).queue 1).state = 1 ∧ (lineS wp crp).fw.ready = true ∧
    natOfBytes ((lineS wp crp).fwLoad ((lineS wp crp).queue 1).sub 8) = wp ∧ natOfBytes ((lineS wp crp).fwLoad (((lineS wp crp).queue 1).sub + 8#64) 8) = crp ∧
    ((lineS wp crp).queue 1).sub.getLsbD 63 = false ∧ ((lineS wp crp).queue 1).slots = 16 := by fin_cases h <;> decide +kernel
theorem wit_submit_poll : let v := { aQueue true with rp := 0 }
    let s := { queueS 1 v with host := memWrite [] 0x20000 (bytesOfNat 16 8) }
    s.fw.queues = [(1, v)] ∧ v.sub.getLsbD 63 = true ∧ v.prio < 4 ∧ v.en = true ∧ v.state = 1 ∧ natOfBytes (s.fwLoad v.sub 8) = 16 ∧ v.wpLast ≤ 16 ∧ v.rp ≤ 16 ∧
      16 ≤ v.rp + v.slots ∧ v.crpLast ≤ natOfBytes (s.fwLoad (v.sub + 8#64) 8) ∧ natOfBytes (s.fwLoad (v.sub + 8#64) 8) ≤ v.cwp := by decide +kernel
theorem wit_queue0 : (cmdS []).queueValid ((cmdS []).queue 0) = true ∧ (aState false).queueValid ((aState false).queue 0) = false ∧ ((aState false).queue 0).begun = [] := by
  decide +kernel
theorem wit_nop : heads (ent 0x00 0 []) 0x00 = true := by decide +kernel
/-- COPY from one address to another. -/
def copyE (a b : List Byte) (n : Nat) : List Byte := ent 0x07 0 (at16 (a ++ b ++ bytesOfNat n 8))
theorem wit_copy : heads (copyE (bytesOfNat (memIa 0) 8) (hostA 0x100000) 0x40) 0x07 = true ∧ heads (copyE (hostA 0x100000) (hostA 0x200000) 0x100) 0x07 = true ∧
    heads (copyE (hostA 0x100000) (hostA 0x100000) 0) 0x07 = true := by decide +kernel
theorem wit_copy_out : let e := copyE (bytesOfNat (memIa 0) 8) (hostA 0x100000) 0x40
    let s := (cmdS e).mapPage 0
    Heads s 0 0 e 0x07 ∧ s.addrOk (entWord e 16) 0x40 = true ∧ s.addrOk (entWord e 24) 0x40 = true ∧ (entWord e 16).getLsbD 63 = false ∧
      s.addrMapped (entWord e 16) 0x40 = true ∧ (entWord e 24).getLsbD 63 = true ∧ (entWord e 32).toNat = 0x40 ∧ s.engines = [] := by unfold Heads; decide +kernel
theorem wit_copy_host : let e := copyE (hostA 0x100000) (hostA 0x200000) 0x100
    (cmdS e).addrOk (entWord e 16) 0x100 = true ∧ (cmdS e).addrOk (entWord e 24) 0x100 = true ∧ (entWord e 16).getLsbD 63 = true ∧ (entWord e 24).getLsbD 63 = true ∧
      (entWord e 32).toNat = 0x100 ∧ ((entWord e 16).extractLsb' 0 52).toNat + 0x100 ≤ ((entWord e 24).extractLsb' 0 52).toNat ∧ (cmdS e).engines = [] := by
  decide +kernel
theorem wit_fill : let e := ent 0x08 0 (at16 (hostA 0x100000 ++ repeatN 0#8 8 ++ bytesOfNat 3 8 ++ bytesOfNat 0x0706050403020100 8))
    heads e 0x08 = true ∧ 1 ≤ (entWord e 32).toNat ∧ (cmdS e).addrOk (entWord e 16) 3 = true ∧ (entWord e 16).getLsbD 63 = true ∧ (cmdS e).addrOk 0#64 3 = false := by
  decide +kernel
theorem wit_signal (k : Nat) (h : k ∈ [0, 1]) : let e := ent 0x09 k (at16 (hostA 0x100008 ++ bytesOfNat 5 8))
    heads e 0x09 = true ∧ (entWord e 16).toNat % 8 = 0 ∧ (cmdS e).addrOk (entWord e 16) 8 = true ∧ (cmdS e).addrMapped (entWord e 16) 8 = true ∧
      heads (ent 0x09 k (at16 (hostA 0x100004 ++ bytesOfNat 5 8))) 0x09 = true ∧
      heads (ent 0x09 k (at16 (bytesOfNat (memIa 0) 8 ++ bytesOfNat 5 8))) 0x09 = true ∧ (cmdS e).addrMapped (BitVec.ofNat 64 (memIa 0)) 8 = false := by
  fin_cases h <;> decide +kernel
theorem wit_wait (k : Nat) (h : k ∈ [0, 1, 2]) : let e := ent 0x0A k (at16 (hostA 0x100008 ++ bytesOfNat 5 8 ++ bytesOfNat 7 4))
    heads e 0x0A = true ∧ (entWord e 16).toNat % 8 = 0 ∧ (cmdS e).addrOk (entWord e 16) 8 = true ∧ (cmdS e).addrMapped (entWord e 16) 8 = true ∧
      wordOf ((cmdS e).fwLoad (entWord e 16) 8) = 0#64 ∧ entWord e 24 = 5#64 ∧ entSub e = k := by fin_cases h <;> decide +kernel
/-- Queue 0 waits for the word at 0x100008 to reach a value. -/
def waitS (v : Word) : State :=
  queueS 0 { aQueue true with waiting := some { cmd := headRef 0 0 (ent 0x0A 0 []), cmp := 0, addr := 0x8000000000100008#64, value := v, timeout := 7, since := 0#64 } }
theorem wit_waiting : ((waitS 0#64).queue 0).waiting.isSome = true ∧ wordOf ((waitS 0#64).fwLoad 0x8000000000100008#64 8) = 0#64 ∧
    7 * 1000 ≤ (({ waitS 1#64 with time := 7000#64 } : State).time - 0#64).toNat ∧ ((waitS 1#64).time - 0#64).toNat < 7 * 1000 := by decide +kernel
/-- RECT: index, X0, Y0, W − 1, H − 1, containment, cap, action. -/
def rectE (i x y w h c cap act : Nat) : List Byte := ent 0x0C 0 ([i, x, y, w, h, c, cap, act].map fun n => BitVec.ofNat 8 n)
theorem wit_rect_heads : heads (rectE 15 16 16 15 15 1 4 0) 0x0C = true ∧ heads (rectE 16 0 0 0 0 0 0 0) 0x0C = true ∧ heads (rectE 3 0 0 0 0 0 0 1) 0x0C = true ∧
    entNat (rectE 3 0 0 0 0 0 0 1) 15 1 = 1 ∧ entNat (rectE 3 0 0 0 0 0 0 0) 15 1 = 0 := by decide +kernel
theorem wit_rect_fields : 16 + (entNat (rectE 15 16 16 15 15 1 4 0) 11 1 + 1) = 32 ∧ entNat (rectE 15 16 16 15 15 1 4 0) 13 1 = 1 ∧
    entNat (rectE 15 16 16 15 15 1 4 0) 14 1 = 4 := by decide +kernel
/-- The queue's state with rectangle 0 off, and with rectangle 3 defined on the upper left quarter, as far as the first launch uses it. -/
def rectS (e : List Byte) (use : Nat) : State :=
  let s := (((cmdS e).modRect 0 fun _ => Rect.none).modRect 3 fun _ => { Rect.whole with w := 16, h := 16 })
  { s with launches := [{ aLaunch false with rect := use }] }
theorem wit_rect_free : let s := rectS (rectE 15 16 16 15 15 1 4 0) 3
    (∀ l ∈ s.launches, l.rect ≠ 15) ∧ (s.fw.rects.toList[15]?).any (fun r => !r.defined && !r.active) = true ∧
    (s.fw.rects.toList.zipIdx.all fun e => !e.1.defined || e.2 == 3) = true ∧ (s.fw.rects.toList[3]?).any (fun r => r.defined && r.x0 + r.w == 16) = true := by
  decide +kernel
theorem wit_rect_busy : (∃ l ∈ (rectS (rectE 3 0 0 15 15 0 0 1) 3).launches, l.rect = 3) ∧ (∀ l ∈ (rectS (rectE 3 0 0 15 15 0 0 1) 0).launches, l.rect ≠ 3) ∧
    ((rectS [] 0).fw.rects.toList[2]?).any (fun r => !r.defined) = true := by decide +kernel

/-! ## Witnesses: QUERY, ATTEST and tokens -/

theorem wit_query (k : Nat) (h : k ∈ [1, 2, 3, 4, 6, 7, 8, 9, 10]) : heads (ent 0x0B k (at16 (hostA 0x100000))) 0x0B = true ∧
    (cmdS []).addrOk (entWord (ent 0x0B k (at16 (hostA 0x100000))) 16) 0x920 = true ∧ entSub (ent 0x0B k (at16 (hostA 0x100000))) = k ∧
    (entWord (ent 0x0B k (at16 (hostA 0x100000))) 16).toNat % 64 = 0 := by fin_cases h <;> decide +kernel
theorem wit_query_buffers : (cmdS []).addrOk 0x800FFFFFFFFFFFC0#64 0x920 = false ∧ (cmdS []).addrMapped (BitVec.ofNat 64 (memIa 0)) 0x920 = false ∧
    (cmdS []).addrOk (BitVec.ofNat 64 (memIa 0)) 0x920 = true := by decide +kernel
theorem wit_query_queue : heads (ent 0x0B 5 (at16 (hostA 0x100000 ++ [63#8]))) 0x0B = true ∧ heads (ent 0x0B 5 (at16 (hostA 0x100000 ++ [64#8]))) 0x0B = true := by decide +kernel
/-- A stream descriptor: video of 64 by 2 pixels, 8 bits, 4:2:2, 50 frames a second, STRIDE 128, two buffers at 0x10000, one waiter, core 0. -/
def aDesc : List Byte :=
  [0#8, 0xFF#8, 0x20#8, 96#8] ++ bytesOfNat 0 4 ++ bytesOfNat 5 4 ++ bytesOfNat 5000 2 ++ repeatN 0#8 18 ++
  bytesOfNat 64 2 ++ bytesOfNat 2 2 ++ [8#8, 0#8] ++ bytesOfNat 50 2 ++ bytesOfNat 1 2 ++ [0#8, 0#8] ++ bytesOfNat 128 4 ++ bytesOfNat (memIa 0x10000) 8 ++
  bytesOfNat 2 2 ++ [1#8, 0#8] ++ bytesOfNat 1000 4 ++ bytesOfNat 2000 4 ++ repeatN 0#8 60
/-- The stream of that descriptor. -/
def aStream : Stream := Stream.open0 aDesc
theorem wit_stream_stats (e : List Byte) (h : e ∈ [ent 0x0B 0xB (at16 (hostA 0x100000 ++ [7#8])), ent 0x0E 2 ([7#8] ++ repeatN 0#8 7 ++ hostA 0x100000)]) :
    ((cmdS e).modFw fun w => { w with streams := [(7, aStream)] }).fw.streams = [(7, aStream)] ∧ aStream.stats.length = 8 ∧ heads e (entOpc e) = true ∧
      (tblGet? (cmdS e).fw.streams 7).isNone = true := by fin_cases h <;> decide +kernel
theorem wit_set_caps : heads (ent 0x0B 0x82 (at16 (hostA 0 ++ repeatN 4#8 16))) 0x0B = true ∧ heads (ent 0x0B 0x82 (at16 (hostA 0 ++ repeatN 5#8 16))) 0x0B = true := by decide +kernel
theorem wit_set_grid : heads (ent 0x0B 0x83 (at16 (hostA 0 ++ bytesOfNat 0x1000 8 ++ bytesOfNat 5 2 ++ [0xFF#8]))) 0x0B = true ∧
    heads (ent 0x0B 0x83 (at16 (hostA 0 ++ bytesOfNat 0x1001 8 ++ bytesOfNat 5 2 ++ [2#8]))) 0x0B = true ∧ (aState false).fw.cgPend = {} := by decide +kernel
theorem wit_set_scrub : heads (ent 0x0B 0x84 (at16 (hostA 0 ++ bytesOfNat 0x1000 8 ++ bytesOfNat 5 2 ++ bytesOfNat 1000 2 ++ [1#8]))) 0x0B = true ∧
    heads (ent 0x0B 0x84 (at16 (hostA 0 ++ bytesOfNat 0x1000 8 ++ bytesOfNat 5 2 ++ bytesOfNat 1001 2 ++ [1#8]))) 0x0B = true ∧
    (aState false).fw.scrubPend = none := by decide +kernel
theorem wit_clear_fault : heads (ent 0x0B 0x88 (at16 (hostA 0))) 0x0B = true := by decide +kernel
/-- A queue definition in host memory, and QUERY 0x85 of an action on queue k. -/
def defE (k act : Nat) : List Byte := ent 0x0B 0x85 (at16 (hostA 0 ++ bytesOfNat k 1 ++ bytesOfNat act 1 ++ repeatN 0#8 6 ++ (if act = 0 then hostA 0x300000 else repeatN 0#8 8)))
/-- The state in which a definition stands at 0x300000: rings and lines in host memory, and a reserved bit. -/
def defS (k act : Nat) (size rsvd : Nat) : State :=
  { cmdS (defE k act) with
    host := memWrite [] 0x300000
      (hostA 0x400000 ++ hostA 0x410000 ++ hostA 0x420000 ++ hostA 0x420040 ++ bytesOfNat size 8 ++ bytesOfNat (1 + 8 * rsvd) 8) }
theorem wit_define : Heads (defS 63 0 0x404 0) 0 0 (defE 63 0) 0x0B ∧ imageReserved ((defS 63 0 0x404 0).fwLoad 0x8000000000300000#64 64) = false ∧
    ((defS 63 0 0x404 0).queue 63).en = false ∧ ((defS 63 0 0x404 0).queue 63).deleting = none ∧ ((defS 63 0 0x404 0).queue 63).stopping = false ∧
    (defS 63 0 0x404 0).queueValid (imageQueue ((defS 63 0 0x404 0).fwLoad 0x8000000000300000#64 64)) = true ∧
    (defS 63 0 0 0).queueValid (imageQueue ((defS 63 0 0 0).fwLoad 0x8000000000300000#64 64)) = false ∧
    imageReserved ((defS 63 0 0x404 1).fwLoad 0x8000000000300000#64 64) = true := by unfold Heads; decide +kernel
theorem wit_queue_actions : heads (defE 1 1) 0x0B = true ∧ heads (defE 63 2) 0x0B = true ∧ heads (defE 0 0) 0x0B = true ∧ heads (defE 64 1) 0x0B = true ∧
    heads (defE 1 3) 0x0B = true ∧ ((cmdS (defE 1 1)).queue 1).deleting = none ∧ ((cmdS (defE 1 1)).queue 1).en = false ∧
    (cmdS (defE 0 2)).queueValid ((cmdS (defE 0 2)).queue 0) = true ∧ entWord (defE 63 0) 32 = 0x8000000000300000#64 := by decide +kernel
theorem wit_queue_running : let s := (cmdS (defE 1 2)).modQueue 1 fun _ => aQueue true
    (s.queue 1).en = true ∧ s.queueValid (s.queue 1) = true ∧ ((s.modQueue 1 fun v => { v with deleting := some (headRef 0 0 []) }).queue 1).deleting ≠ none := by decide +kernel
theorem wit_attest : heads (ent 0x10 0 (at16 (hostA 0x100000 ++ repeatN 7#8 32))) 0x10 = true ∧ (cmdS []).addrOk 0x8000000000100000#64 0x2000 = true ∧
    (cmdS []).fw.bootIndex < 65536 ∧ (cmdS []).fw.idIndex ≤ 2 ^ 20 := by decide +kernel
theorem wit_token : let e := ent 0x0F 0 (at16 (hostA 0x100000))
    heads e 0x0F = true ∧ (cmdS e).addrOk (entWord e 16) 2948 = true ∧ entSub e = 0 := by decide +kernel
/-- A token meets the checks of its signature exactly when it carries the magic, the device and the challenge, and the verifier accepts it: the rest is evaluated. -/
theorem wit_token_reserved : let s := { cmdS [] with host := memWrite [] 0x100040 [1#8] }
    entNat (s.fwLoad 0x8000000000100000#64 2948) 0x40 64 ≠ 0 ∧ entNat ((cmdS []).fwLoad 0x8000000000100000#64 2948) 0x40 64 = 0 ∧
      (entWord ((cmdS []).fwLoad 0x8000000000100000#64 2948) 0x38).extractLsb' 6 58 = 0#58 ∧ entNat ((cmdS []).fwLoad 0x8000000000100000#64 2948) 0 4 ≠ 0x4B545A47 := by
  decide +kernel

/-! ## Witnesses: launches -/

/-- An image of one role, in step mode by its flag, at 0x10000 of memory space: header, role table at 0x100, text of 128 bytes at 0x1000. -/
def anImageOf (step : Nat) : List Byte :=
  (bytesOfNat 0x49595A47 4 ++ bytesOfNat 1 2 ++ bytesOfNat 1 2 ++ bytesOfNat 0x2000 8 ++ bytesOfNat 0x100 8 ++ repeatN 0#8 232) ++
  repeatN 0#8 16 ++ bytesOfNat step 8 ++ bytesOfNat 0x1000 8 ++ bytesOfNat 0x1000 4 ++ bytesOfNat 0x80 4 ++ repeatN 0#8 24
/-- A launch record: image, placement table, one task, spans, with its PRIO, core rectangle and GALLOC. -/
def aRecord (prio rect galloc : Nat) : List Byte :=
  bytesOfNat (memIa 0x10000) 8 ++ hostA 0x110000 ++ repeatN 0#8 9 ++ bytesOfNat prio 1 ++ repeatN 0#8 2 ++ bytesOfNat rect 4 ++
  bytesOfNat 0 4 ++ (repeatN (bytesOfNat 15 4) 7).flatten ++ repeatN 0#8 16 ++ hostA 0x120000 ++ bytesOfNat 1 4 ++ bytesOfNat 0 4 ++ repeatN 0#8 8 ++ hostA 0x130000 ++
  bytesOfNat galloc 1 ++ repeatN 0#8 143
/-- A span table whose first span names the scratchpad of core 0. -/
def aSpans : List Byte := bytesOfNat 0 8 ++ bytesOfNat 0x40000 8 ++ bytesOfNat (spIa 0 0) 8 ++ bytesOfNat 7 8 ++ repeatN 0#8 224
/-- LAUNCH of a number with the record at 0x100000. -/
def launchE (lid : Nat) : List Byte := ent 0x01 0 (bytesOfNat lid 4 ++ repeatN 0#8 4 ++ hostA 0x100000)
/-- The tables stand in memory, two cores have logical numbers, and the live launches are given. -/
def launchS (step prio rect galloc : Nat) (ls : List Launch) : State :=
  let s := ((cmdS (launchE 5)).mapPage 1).memStore 0x10000 (anImageOf step)
  { s with
    launches := ls
    host := [(0x130000, aSpans), (0x120000, plainRecord 0x2000#64), (0x110000, bytesOfNat 1 8 ++ bytesOfNat (2 ^ 16) 8), (0x100000, aRecord prio rect galloc)].foldl
      (fun h e => memWrite h e.1 e.2) []
    fw := { s.fw with logical := [0, 1] } }
/-- The record as firmware reads it, and the launch it makes. -/
def recOf (s : State) : LaunchRec := s.readLaunch (s.fwLoad 0x8000000000100000#64 256)
def newOf (s : State) : Launch := s.makeLaunch (recOf s) 5 0x8000000000100000#64 (headRef 0 0 (launchE 5))
/-- No lease pins a frame, so the number of frames does not matter. -/
theorem fits_none {s : State} (h : s.pinned = []) : s.framesFit [] = true := by
  have : s.leasePages [] = [] := rfl
  unfold State.framesFit; rw [h, this]; exact decide_eq_true (Nat.zero_le _)
theorem canPlace_of {s : State} {l : Launch} (h : s.pinned = []) (hl : l.leases = []) (r : s.rectFree l = true)
    (w : (s.launches.any fun m => m.lid != l.lid && m.st == .waiting && m.before l && m.overlaps l && s.rectFree m) = false) : s.canPlace l = true := by
  unfold State.canPlace; rw [r, hl, fits_none h, w]; rfl
theorem badLaunch_of {s : State} {k : LaunchRec} (hl : k.leases = []) (h : k.reserved = false ∧ s.badFields k = false ∧ k.unmapped = false ∧
    (s.fw.rects.toList[k.crect]?).any (·.defined) = true ∧
    (!k.image.ok || k.ents.isEmpty || k.ents.any (fun e => !k.image.hasRole e.role) || k.tasks.any (fun t => (coresIn k.roles (recRole t)).isEmpty)) = false) :
    s.badLaunch k = none := by
  obtain ⟨a, b, c, d, e⟩ := h
  unfold State.badLaunch
  have : s.leasePages (k.leases.map leaseOf) = [] := by rw [hl]; rfl
  rw [a, b, c, d, e, hl, show s.leasePages (([] : List Nat).map leaseOf) = [] from rfl]
  simp
theorem wit_launch : let s := launchS 0 0 0 1 []
    Heads s 0 0 (launchE 5) 0x01 ∧ entNat (launchE 5) 8 4 = 5 ∧ entWord (launchE 5) 16 = 0x8000000000100000#64 ∧ s.addrOk 0x8000000000100000#64 256 = true ∧
    s.addrMapped 0x8000000000100000#64 256 = true ∧ s.launch? 5 = none ∧ s.launches.length < 64 ∧ (recOf s).step = false ∧
    (newOf s).gang = 0 ∧ s.fw.logical.Nodup := by unfold Heads; decide +kernel
theorem wit_launch_good : (launchS 0 0 0 1 []).badLaunch (recOf (launchS 0 0 0 1 [])) = none := badLaunch_of (by decide +kernel) (by decide +kernel)
theorem wit_launch_place : let s := launchS 0 0 0 1 []
    ({ s with launches := s.launches ++ [newOf s] } : State).canPlace (newOf s) = true :=
  canPlace_of (by decide +kernel) (by decide +kernel) (by decide +kernel) (by decide +kernel)
theorem wit_launch_task : let s := launchS 0 0 0 1 []
    (newOf s).leases = [] ∧ (recOf s).tasks = [plainRecord 0x2000#64] ∧ (coresIn (newOf s).roles (recRole (plainRecord 0x2000#64))).head? = some 0 ∧
      (newOf s).map[0]? = some 0 ∧ (newOf s).inRect 0 = true := by decide +kernel
theorem wit_launch_step : let s := launchS 1 0 0xFFC00 1 [aLaunch false]
    s.badLaunch (recOf s) = none ∧ (recOf s).step = true ∧ s.launch? 5 = none := ⟨badLaunch_of (by decide +kernel) (by decide +kernel), by decide +kernel, by decide +kernel⟩
theorem wit_launch_bad : (launchS 0 0 0 64 []).badLaunch (recOf (launchS 0 0 0 64 [])) = some 0x03 ∧
    heads (launchE 0) 0x01 = true ∧ (launchS 0 0 0 1 [{ aLaunch false with lid := 5 }]).launch? 5 ≠ none ∧
    64 ≤ (launchS 0 0 0 1 (List.replicate 64 (aLaunch false))).launches.length ∧ (launchS 0 0 0 1 (List.replicate 64 (aLaunch false))).launch? 5 = none := by decide +kernel
theorem wit_launch_unmapped : let e := ent 0x01 0 (bytesOfNat 5 4 ++ repeatN 0#8 4 ++ bytesOfNat (memIa 0x100) 8)
    heads e 0x01 = true ∧ (cmdS e).addrOk (entWord e 16) 256 = true ∧ (cmdS e).addrMapped (entWord e 16) 256 = false ∧ (entWord e 16).toNat % 256 = 0 := by decide +kernel
theorem wit_launch_waits : let s := (launchS 0 0 0 1 []).modRect 0 fun r => { r with active := true }
    let s1 := { s with launches := [newOf s] }
    s.badLaunch (recOf s) = none ∧ s1.canPlace (newOf s) = false ∧ s1.inTheWay (newOf s) = [] := ⟨badLaunch_of (by decide +kernel) (by decide +kernel), by decide +kernel, by decide +kernel⟩
theorem wit_launch_evicts : let s := launchS 0 0 0 1 [{ aLaunch false with prio := 1, leases := [] }]
    let s1 := { s with launches := s.launches ++ [newOf s] }
    s.badLaunch (recOf s) = none ∧ (s1.canPlace (newOf s) = false ∧ LidsApart s ∧ (∀ m ∈ s1.inTheWay (newOf s), (newOf s).prio < m.prio ∧ m.stepMode = false) ∧
      (∀ m ∈ s.launches, m.onCores = true → m.stepMode = false) ∧ (∀ m ∈ s.launches, m.st = .running ∧ m.overlaps (newOf s) = true)) :=
  ⟨badLaunch_of (by decide +kernel) (by decide +kernel), by unfold LidsApart; decide +kernel⟩
theorem wit_launch_evicts_fits : let s := launchS 0 0 0 1 [{ aLaunch false with prio := 1, leases := [] }]
    ({ s with launches := s.launches ++ [newOf s] } : State).framesFit (newOf s).leases = true := by
  intro s
  have h : (newOf s).leases = [] := by decide +kernel
  rw [h]; exact fits_none (by decide +kernel)
/-- The small state with an entry in queue 0 and its launch changed. -/
def lS (e : List Byte) (f : Launch → Launch) : State := { cmdS e with launches := [f (aLaunch false)] }
/-- A command on launch 1. -/
def onLaunch (opc : Nat) (rest : List Byte) : List Byte := ent opc 0 (bytesOfNat 1 4 ++ rest)
theorem wit_launch_commands (opc : Nat) (h : opc ∈ [2, 3, 4]) : heads (onLaunch opc []) opc = true ∧ entNat (onLaunch opc []) 8 4 = 1 ∧
    (∀ st : LState, (lS (onLaunch opc []) fun l => { l with st := st }).launch? 1 = some { aLaunch false with st := st }) ∧
    ({ cmdS (onLaunch opc []) with launches := [] } : State).launch? 1 = none := by
  refine ⟨?_, ?_, fun st => ?_, ?_⟩
  · fin_cases h <;> decide +kernel
  · fin_cases h <;> decide +kernel
  · cases st <;> fin_cases h <;> rfl
  · fin_cases h <;> rfl
theorem wit_plain_launch : (aLaunch false).preemptBy = none ∧ (aLaunch false).resumeBy = none ∧ (aLaunch false).cancelBy = none ∧ (aLaunch false).lid ≠ 0 ∧
    (aLaunch false).gang = 0 ∧ (aLaunch false).stepMode = false ∧ (aLaunch false).map.Nodup ∧ (aLaunch false).st = .running := by decide +kernel
/-- LEASE of a descriptor for launch 1. -/
def leaseE (d : Nat) : List Byte := onLaunch 0x05 (repeatN 0#8 4 ++ bytesOfNat d 16)
/-- A queue's head begins where nothing of its queue holds it back, and the only queue is served. -/
theorem headOf_of {s : State} {q i : Nat} {e : List Byte} {l : List (Nat × List Byte)} (p : (s.queue q).pending = (i, e) :: l)
    (a : (!(s.queue q).en || (s.queue q).state ≠ 1 || !s.fw.ready || (s.queue q).waiting.isSome || !(s.queue q).heldCpl.isEmpty || !(s.queue q).cplRoom) = false)
    (f : ((entFence e || entOpc e = 0x09) && !(s.queue q).begun.isEmpty) = false) (h : s.entryHeld e = false) : s.headOf q = some (i, e) := by
  simp only [State.headOf, p, a, f, h]; simp
theorem serveNext_of {s : State} {q : Nat} {v : Queue} (h : s.fw.queues = [(q, v)]) (p : v.prio = 0) (o : (s.headOf q).isSome = true) : s.serveNext = some q := by
  simp only [State.serveNext, h, show List.range 4 = [0, 1, 2, 3] from rfl]
  simp [p, o, List.findSome?, List.find?]
  split <;> rfl
/-- A device-control lease pins no frame: base, one page, R and CTL. -/
def ctlLease : Nat := 0xFF830000020000 + 2 ^ 64 + 2 ^ 96 + 2 ^ 100
theorem wit_lease : let s := { cmdS (leaseE ctlLease) with launches := [{ aLaunch false with leases := [] }] }
    s.leaseOk (leaseOf (entNat (leaseE ctlLease) 16 16)) = true ∧
    s.leasePages [leaseOf ctlLease] = [] ∧ (s.pinned = [] ∧ (s.leasePages [leaseOf ctlLease]).foldl setIns s.pinned = []) ∧
    (aLaunch false).leases.length < 16 ∧ (∀ y ∈ (aLaunch false).leases, y.pages ≠ 0) ∧ heads (leaseE (ctlLease + 1)) 0x05 = true ∧
    s.leaseOk (leaseOf (ctlLease + 1)) = false := by decide +kernel
theorem wit_lease_fits : let s := { cmdS (leaseE ctlLease) with launches := [{ aLaunch false with leases := [] }] }
    (s.leasePages [leaseOf ctlLease]).length ≤ Config.leaseFrames ∧ s.framesFit [leaseOf ctlLease] = true := by
  intro s
  have h : s.leasePages [leaseOf ctlLease] = [] := by decide +kernel
  have g : s.pinned = [] := by decide +kernel
  exact ⟨by rw [h]; exact Nat.zero_le _, by unfold State.framesFit; rw [h, g]; exact decide_eq_true (Nat.zero_le _)⟩
theorem wit_lease_begins : let s := { cmdS (leaseE ctlLease) with launches := [{ aLaunch false with leases := [] }] }
    Heads s 0 0 (leaseE ctlLease) 0x05 := by
  intro s
  have h : s.entryHeld (leaseE ctlLease) = false := by
    have l : s.launch? (entNat (leaseE ctlLease) 8 4) = some { aLaunch false with leases := [] } := by decide +kernel
    have x : leaseOf (entLease (leaseE ctlLease)) = leaseOf ctlLease := by decide +kernel
    have o : entOpc (leaseE ctlLease) = 0x05 := by decide +kernel
    have f : s.framesFit [leaseOf ctlLease] = true := wit_lease_fits.2
    simp only [State.entryHeld, l, o, x, f]; simp
  have o : s.headOf 0 = some (0, leaseE ctlLease) := headOf_of (s := s) (q := 0) (i := 0) (e := leaseE ctlLease) (l := []) (by decide +kernel) (by decide +kernel) (by decide +kernel) h
  exact ⟨by rw [State.mayBegin, serveNext_of (s := s) (q := 0) (v := s.queue 0) (by decide +kernel) (by decide +kernel) (by rw [o]; rfl), if_pos rfl, o], by decide +kernel, by decide +kernel⟩
/-- With no page table no offset has a translation. -/
theorem hostAddr_empty {s : State} (m : s.mem = []) (t : s.tlb = []) (off : Nat) : s.hostAddr? off = none := by
  have z (a : Nat) : s.pte a = 0 := by unfold State.pte; rw [m]; rfl
  have b : pteBad 0 = true := by decide
  simp only [State.hostAddr?, State.xlate, State.cached?, State.walk, t, z, b]; simp
theorem setIns_above (l : List Nat) (n : Nat) (h : ∀ k ∈ l, k < n) : setIns l n = l ++ [n] := by
  induction l with
  | nil => rfl
  | cons a t ih =>
    have a' := h a (by simp)
    simp [setIns, show ¬ n < a by omega, show ¬ n = a by omega, ih fun k hk => h k (by simp [hk])]
theorem pages_range (n : Nat) : (List.range n).foldl setIns [] = List.range n := by
  induction n with
  | zero => rfl
  | succ n ih => rw [List.range_succ, List.foldl_append, ih]; exact setIns_above _ _ fun k hk => List.mem_range.mp hk
theorem leasePages_range {s : State} (h : ∀ o, s.hostAddr? o = none) (n : Nat) :
    s.leasePages [{ base := 0xFF * 2 ^ 48, pages := n + 1, r := true, w := true, x := true, inp := false, ctl := false }] = List.range (n + 1) := by
  simp only [State.leasePages, h]
  simpa using pages_range (n + 1)
/-- Launch 1 holds more pages than there are frames for leases. -/
def crowdS : State := { cmdS (leaseE ctlLease) with
  launches := [{ aLaunch false with leases := [{ base := 0xFF * 2 ^ 48, pages := Config.leaseFrames + 1, r := true, w := true, x := true, inp := false, ctl := false }] }] }
theorem wit_lease_held : (crowdS.queue 0).pending.head? = some (0, leaseE ctlLease) ∧ entOpc (leaseE ctlLease) = 0x05 ∧ (lau crowdS).leases.length < 16 ∧
    crowdS.launch? (entNat (leaseE ctlLease) 8 4) = some (lau crowdS) ∧ crowdS.leaseOk (leaseOf ctlLease) = true ∧
    (crowdS.leasePages [leaseOf ctlLease]).length ≤ Config.leaseFrames ∧ crowdS.framesFit [leaseOf ctlLease] = false := by
  have p : crowdS.leasePages [leaseOf ctlLease] = [] := by decide +kernel
  have r : crowdS.pinned = List.range (Config.leaseFrames + 1) := by
    rw [← leasePages_range (s := crowdS) (hostAddr_empty rfl rfl)]; rfl
  refine ⟨by decide +kernel, by decide +kernel, (by decide : 1 < 16), rfl, by decide +kernel, by rw [p]; exact Nat.zero_le _, ?_⟩
  unfold State.framesFit; rw [p, r]; simp
theorem wit_lease_full : let y := (aLaunch false).leases.headD (leaseOf 0)
    (16 ≤ (List.replicate 16 y).length ∧ ∀ x ∈ List.replicate 16 y, x.pages ≠ 0) ∧ ([y, { y with pages := 0 }])[1]?.map (·.pages) = some 0 := by decide +kernel
/-- UNLEASE of an index of launch 1. -/
def unleaseE (j : Nat) : List Byte := onLaunch 0x06 (bytesOfNat j 1)
theorem wit_unlease : heads (unleaseE 0) 0x06 = true ∧ heads (unleaseE 1) 0x06 = true ∧ entNat (unleaseE 0) 12 1 = 0 ∧ (cmdS (unleaseE 0)).checks = [] ∧
    (aLaunch false).leases[0]?.map (·.pages) = some 16 ∧ (aLaunch false).leases[1]? = none ∧ (cmdS (unleaseE 0)).fw.shoots = [] ∧
    (cmdS (unleaseE 0)).coresOn 1 = [0, 1] ∧ ({ cmdS (unleaseE 0) with cores := [] } : State).coresOn 1 = [] := by decide +kernel
/-- A revocation of lease 0 of launch 1 in progress, over a tree of positions rooted at position 0. -/
def aShoot (own : List Nat) : Shoot := { lid := 1, idx := 0, tree := AckTree.over 0 own, cmd := headRef 0 0 (unleaseE 0) }
/-- The small state with it, and a control message. -/
def shootS (own : List Nat) (m : CtlMsg) : State := (ctlS m).modFw fun w => { w with shoots := [aShoot own] }
theorem wit_shoot : (∃ x ∈ (shootS [0] (.shoot 0 1 0)).fw.shoots, x.lid = 1 ∧ x.idx = 0) ∧ (shootS [0] (.shoot 0 1 0)).ctl[0]? = some (.shoot 0 1 0) ∧
    ((shootS [0] (.shoot 0 1 0)).core 0).lid = 1 ∧ ((shootS [0] (.shoot 0 1 0)).core 0).gated = false ∧ ((shootS [0] (.shoot 9 1 0)).core 9).lid ≠ 1 ∧
    ((shootS [0] (.shoot 0 1 0)).fw.shoots.find? fun y => y.lid == 1 && y.idx == 0) = some (aShoot [0]) ∧
    ((ctlS (.shoot 0 1 0)).fw.shoots.find? fun y => y.lid == 1 && y.idx == 0) = none := by decide +kernel
theorem wit_shoot_gated : let s := (shootS [0] (.shoot 0 1 0)).modCore 0 fun c => { c with threads := [], groups := [] }
    (s.core 0).lid = 1 ∧ (s.core 0).gated = true ∧ (∀ r ∈ s.reqs, r.src ≠ 0) ∧ ∀ x ∈ s.engines, x.node ≠ 0 := by decide +kernel
theorem wit_shoot_ack : ((shootS [0, 1] (.shootAck 0 1 0)).fw.shoots.find? fun y => y.lid == 1 && y.idx == 0) = some (aShoot [0, 1]) ∧
    (shootS [0, 1] (.shootAck 0 1 0)).launch? 1 = some (lau (aState false)) ∧ (aShoot [0, 1]).tree.root = 0 ∧
    (shootS [0, 1] (.shootAck 1 1 0)).ctl[0]? = some (.shootAck 1 1 0) := by decide +kernel
/-- RECAST of n cores from a first one to a role. -/
def recastE (role first n : Nat) : List Byte := onLaunch 0x0D (bytesOfNat role 2 ++ [0#8, 0#8] ++ bytesOfNat first 2 ++ bytesOfNat n 2)
/-- The launch whose image stands in memory. -/
def recastS (e : List Byte) : State := { (launchS 0 0 0 1 [{ aLaunch false with image := 0x10000 }]) with fw := (cmdS e).fw }
theorem wit_recast : Heads (recastS (recastE 0 1 1)) 0 0 (recastE 0 1 1) 0x0D ∧ ((recastS (recastE 0 1 1)).readImage 0x10000).hasRole 0 = true ∧
    ((recastS (recastE 1 1 1)).readImage 0x10000).hasRole 1 = false ∧ (∀ j, j < 1 → tblGet? (aLaunch false).roles (1 + j) ≠ none) ∧
    (∀ j, j < 1 → (aLaunch false).core? (1 + j) ≠ none) ∧ (aLaunch false).core? 2 = none ∧ (∀ p ∈ (aLaunch false).map, ((recastS (recastE 0 1 1)).core p).recasting = none) ∧
    (∀ x ∈ (aLaunch false).roles, x.2 = 0) := by unfold Heads; decide +kernel
/-- Core 0 drains for a recast, with the records it holds. -/
def drainS (rs : List (List Byte)) (left : List Nat) : State :=
  (withC fun c => { c with recasting := some 1, groups := [], threads := [], deque := rs.map fun r => (r, none) }).modFw fun w =>
    { w with recasts := [{ lid := 1, role := 1, left := left, cmd := headRef 0 0 (recastE 1 0 1) }] }
theorem wit_drained : let s := drainS [] [0]
    (s.core 0).recasting = some 1 ∧ s.launch? (s.core 0).lid = some (lau s) ∧ (s.core 0).groups = [] ∧ (s.core 0).stealOut = false ∧ (s.core 0).halted = false ∧
      (lau s).st = .running ∧ records (s.core 0) = [] ∧ (s.fw.recasts.find? fun x => x.lid == 1 && x.left.contains 0) = s.fw.recasts.head? ∧ [0].erase 0 = [] ∧
      [0, 1].erase 0 ≠ [] ∧ ((withC fun c => { c with recasting := some 1 }).core 0).groups ≠ [] := by decide +kernel
theorem wit_drain_push : let s := drainS [plainRecord 0#64] [0]
    records (s.core 0) = [(plainRecord 0#64, none)] ∧ ((((lau s).coresOf (s.core 0).role).filterMap (lau s).posOfLogical).find? fun j => j != 0 && (s.core j).recasting.isNone) = some 1 := by
  decide +kernel
/-- A launch of the small state in a state of its own, with no core of its own. -/
def stS (st : LState) (f : Launch → Launch) : State := { (aState false) with cores := [], launches := [f { aLaunch false with st := st }] }
theorem wit_waiting_start : (stS .waiting fun l => { l with leases := [] }).canPlace (lau (stS .waiting fun l => { l with leases := [] })) = true :=
  canPlace_of (by decide +kernel) (by decide +kernel) (by decide +kernel) (by decide +kernel)
theorem wit_waiting_waits : (stS .waiting id).launch? 1 = some (lau (stS .waiting id)) ∧
    (((stS .waiting id).modRect 0 fun r => { r with active := true }).canPlace (lau (stS .waiting id))) = false := by decide +kernel
theorem wit_evicted_resume : let s := stS .evicted fun l => { l with byPrio := true, image0 := [(0, (aState false).core 0)] }
    s.rectFree (lau s) = true ∧ s.waitsFor (lau s) = false ∧ s.gangAll (lau s) (·.free) = true ∧ s.resumesBefore (lau s) = false ∧ tblWf (lau s).image0 = true ∧ (∀ e ∈ (lau s).image0, e.2.poisoned = []) ∧
      (stS .evicted id).rectFree (lau (stS .evicted id)) = true ∧ (lau (stS .evicted id)).byPrio = false := by decide +kernel
/-- A launch of priority 0 waits for the cores of launch 1, whose PRIO number is greater. -/
def wantS : State := { (aState false) with launches := [{ aLaunch false with prio := 1, leases := [] }, { aLaunch false with lid := 2, st := .waiting, leases := [] }] }
theorem wit_waiting_evicts : let l := { aLaunch false with lid := 2, st := .waiting, leases := [] }
    wantS.launch? 2 = some l ∧ wantS.canPlace l = false ∧ LidsApart wantS ∧ wantS.inTheWay l = [{ aLaunch false with prio := 1, leases := [] }] ∧
      (∀ m ∈ wantS.launches, m.onCores = true → m.stepMode = false) ∧
      (∀ m ∈ wantS.launches, m.lid ≠ l.lid → m.st = .waiting → m.overlaps l = true → m.before l = false) := by unfold LidsApart; decide +kernel
theorem wit_waiting_fits : wantS.framesFit [] = true := fits_none (by decide +kernel)
theorem wit_save_gang : (stS .saving id).gangAll (lau (stS .saving id)) (·.finals) = true := by decide +kernel
theorem wit_save : (stS .saving id).imageFinal (lau (stS .saving id)) = true ∧ (stS .cancelled id).imageFinal (lau (stS .cancelled id)) = true ∧
    tblWf (stS .saving id).cores = true ∧ ({ aState false with launches := [{ aLaunch false with st := .saving }] } : State).imageFinal (aLaunch false) = false := by decide +kernel
theorem wit_sweep : let s := { (stS .running id) with time := 10000#64 }
    LidsApart s ∧ 10000 ≤ (s.time - s.fw.sweepAt).toNat ∧ s.idleLaunch (lau s) = true ∧ s.transfers (lau s) = (0, 0) ∧ (aState false).idleLaunch (aLaunch false) = false ∧
      ((stS .running id).time - s.fw.sweepAt).toNat < 10000 ∧ (lau s).sweep = none ∧
      (lau (stS .running fun l => { l with sweep := some (0, 0) })).sweep = some (0, 0) := by unfold LidsApart; decide +kernel

/-! ## Witnesses: gangs, checks and containment -/

/-- An entry of a gang's table. -/
def gEnt (m dev : Nat) : GangEntry := { member := m, dev := dev, pos := 0, base := 0, size := 1, gen := 1 }
/-- A gang of the small state's launch. -/
def aGang (total : Nat) (es : List GangEntry) : Gang := { Gang.fresh 7 total 0#64 with lid := 1, entries := es, ready := [(0, es.length)] }
/-- The state with a gang, its launch a part of it. -/
def gangS (g : Gang) (f : Launch → Launch) : State := { (aState false) with gangs := [g], launches := [f { aLaunch false with gang := 7, gtotal := g.total }] }
theorem wit_gang_first : (aState false).gang? 7 = none ∧ ∀ x ∈ [gEnt 0 0xFF, gEnt 1 3], x.member < 2 := by decide +kernel
theorem wit_gang_ready : let g := aGang 2 [gEnt 0 0xFF]
    let s := gangS g id
    s.gang? 7 = some g ∧ s.launch? g.lid = some (lau s) ∧ g.lid ≠ 0 ∧ g.started = false ∧ (s.gangs.map (·.id)).Nodup ∧ (s.launches.map (·.lid)).Nodup ∧ g.bad = false ∧
      (lau s).resumeBy = none ∧ (lau s).preemptBy = none ∧ (lau s).cancelBy = none ∧ (lau s).gang = 7 ∧ (lau s).gbase = 0 ∧
      (∃ x ∈ [gEnt 0 3], ∃ y ∈ g.entries, y.member = x.member) ∧ (∃ x ∈ [gEnt 2 3], 2 ≤ x.member) ∧
      (∀ x ∈ [gEnt 1 3], x.member < 2 ∧ ∀ y ∈ g.entries, y.member ≠ x.member) ∧ g.entries.length + [gEnt 1 3].length = 2 ∧
      (∃ x ∈ g.entries ++ [gEnt 1 3], x.dev ≠ 0xFF ∧ x.dev ∉ g.acked) ∧ g.entries.length + [gEnt 1 3].length ≠ 3 := by decide +kernel
theorem wit_gang_part : let g := aGang 2 []
    let s := (gangS g fun l => { l with gbase := 1 }).modFw fun w => { w with torusW := 4, torusH := 4 }
    s.gang? 7 = some g ∧ s.launch? g.lid = some (lau s) ∧ (lau s).gbase ≠ 0 ∧ 0 < s.fw.torusW ∧ 0 < s.fw.torusH ∧
      ([gEnt 0 0xFF, gEnt 1 3].find? fun y => y.member == (lau s).gbase) = some (gEnt 1 3) := by decide +kernel
theorem wit_gang_ack : let g := { aGang 2 [gEnt 0 0xFF, gEnt 1 3] with placed := true }
    let s := gangS g id
    s.gang? 7 = some g ∧ g.entries.length = g.total ∧ (∀ x ∈ g.entries, x.dev ≠ 0xFF → x.dev = 3 ∨ x.dev ∈ g.acked) ∧ g.started = false ∧ g.bad = false := by decide +kernel
theorem wit_gang_go : let g := { aGang 1 [gEnt 0 0xFF] with placed := true }
    let s := { (gangS g fun l => { l with record := aRecord 0 0 1 }) with host := memWrite [] 0x120000 (plainRecord 0x2000#64) }
    s.gang? 7 = some g ∧ (lau s).stepMode = false ∧ s.launchTasks (lau s) = [plainRecord 0x2000#64] ∧ ((lau s).coresOf (recRole (plainRecord 0x2000#64))).head? = some 0 ∧
      (lau s).posOfLogical 0 = some 0 ∧ ((s.core 0).freeRange (lau s)).isSome = true ∧ Memory.wf (s.core 0).sp = true ∧ (plainRecord 0x2000#64).length = 64 := by decide +kernel
theorem wit_gang_late : let s := { gangS (aGang 2 []) id with time := 1000000000#64 }
    1000000000 ≤ (s.time - (aGang 2 []).since).toNat ∧ ((999999999#64 : Word) - (aGang 2 []).since).toNat < 1000000000 := by decide +kernel
theorem wit_gang_commands : let g := { aGang 1 [] with started := true }
    (gangS g id).placing (lau (gangS g id)) = false ∧ (gangS g id).gang? 7 = some g ∧
      (gangS g fun l => { l with st := .evicted }).rectFree (lau (gangS g fun l => { l with st := .evicted })) = true := by decide +kernel
/-- A gang launch whose level 3 is the gang level; the group of core 0 is member 0. -/
def gangBarS (arr : List (Nat × Nat)) : State :=
  ((gangS { aGang 1 [gEnt 0 0xFF] with started := true } fun l => { l with levels := [(3, 7, .s)] }).modGroup 0 0 fun g => { g with member := some 0, arrivals := arr }).modThread 0 0
    fun t => { t with run := .sleeping (.bar 3) }
theorem wit_gang_barrier : let s := gangBarS [(3, 0)]
    ((lau s).levels.find? fun e => e.2.1 == 7) = some (3, 7, Scope.s) ∧ tblWf s.cores = true ∧ (∀ e ∈ s.cores, tblWf e.2.threads = true) ∧ s.gangArrived (lau s) 3 = true ∧
      (gangBarS []).gangArrived (lau s) 3 = false ∧ grp s ∈ (s.core 0).groups ∧ (grp s).member ≠ none ∧ (grp s).allArrived 3 = true ∧
      s.thread? 0 0 = some (thr s) ∧ (thr s).home = none ∧ (thr s).group = (grp s).gid ∧ (thr s).run = .sleeping (.bar 3) ∧ ((s.core 0).groups.map (·.gid)).Nodup ∧
      0 ∈ s.cores.map (·.1) ∧ (s.core 0).lid = (lau s).lid := by decide +kernel
/-- A check of core 0's group by core 8. -/
def aCheck (r r3 : Option (Option (BitVec 128))) (third : Option Nat) : Check :=
  { id := 1, lid := 1, record := plainRecord 0#64, orig := 0, chk := 8, third := third, digest := 5#128, result := r, result3 := r3, held := [], heldNode := 0, inc := 16, qth := 128, base := 0#64, slots := 0 }
def checkS (k : Check) : State := { (aState false) with checks := [k], launches := [{ aLaunch false with map := [0, 8, 16], roles := [(0, 0), (1, 0), (2, 0)] }] }
theorem wit_check_results : (checkS (aCheck none none none)).checks[0]? = some (aCheck none none none) ∧ ((checkS (aCheck none none none)).checks.map (·.id)).Nodup ∧
    (aCheck (some none) none none).result = some none ∧ (aCheck (some (some 5#128)) none none).result = some (some (aCheck none none none).digest) ∧
    (aCheck (some (some 6#128)) none none).result = some (some 6#128) ∧ (6#128 : BitVec 128) ≠ (aCheck none none none).digest ∧
    (aCheck (some (some 6#128)) (some (some 6#128)) (some 16)).third = some 16 := by decide +kernel
theorem wit_third : let s := checkS (aCheck (some (some 6#128)) none none)
    let cores := (lau s).awayFrom (recRole (plainRecord 0#64)) [daleOf 0, daleOf 8]
    s.launch? 1 = some (lau s) ∧ (lau s).st = .running ∧ cores[(lau s).nextCheck % cores.length]? = some 16 := by decide +kernel
theorem wit_contain : (ctlS (.contain 0)).ctl[0]? = some (.contain 0) ∧ (aState false).active 0 = true ∧ (aState false).checks = [] ∧
    (aState false).rectOf 1 = (aState false).rectOf 0 := by decide +kernel

/-! ## Witnesses: media, PTP and debug -/

/-- MEDIA OPEN of the descriptor at 0x100000 of host memory. -/
def openE : List Byte := ent 0x0E 0 (at16 (hostA 0x100000))
/-- The state with a descriptor there, PTP locked or not on port 0, and the two buffers mapped. -/
def mediaS (d : List Byte) (lock : Bool) : State :=
  let s := ((((cmdS openE).mapPage 1).mapPage 2).mapPage 3).mapPage 4
  { s with
    host := memWrite [] 0x100000 d
    fw := { s.fw with ptpSel := some (0, 0), ptp := [(0, { locked := lock, good := 0, last := 0#64, diff := 0 })], logical := [0] } }
theorem wit_open : Heads (mediaS aDesc true) 0 0 openE 0x0E ∧ Stream.open0 ((mediaS aDesc true).fwLoad (entWord openE 16) 128) = aStream ∧ aStream.reserved = false ∧
    (mediaS aDesc true).badStream aStream = false ∧ (mediaS aDesc true).addrMapped (aStream.at 0 0) (aStream.nbuf * aStream.bufSize) = true ∧
    (mediaS aDesc true).ptpLocked = true ∧ (mediaS aDesc false).ptpLocked = false ∧ aStream.field 1 1 = 0xFF ∧ (mediaS aDesc true).fw.streams = [] ∧
    (Stream.open0 (aDesc.set 6 1#8)).reserved = true ∧ (mediaS [] true).badStream (Stream.open0 (aDesc.set 3 95#8)) = true := by unfold Heads; decide +kernel
theorem wit_open_full : 64 ≤ (((List.range 64).map fun i => (i, aStream)).filter fun x => x.2.field 0 1 == 0 || x.2.field 1 1 == 0).length := by decide +kernel
theorem wit_close : heads (ent 0x0E 1 [0#8]) 0x0E = true ∧ tblWf [(0, aStream)] = true ∧ aStream.frames = [] := by decide +kernel
theorem wit_ptp_command : heads (ent 0x0E 3 ([3#8, 127#8, 0#8, 0#8] ++ bytesOfNat 5 4)) 0x0E = true ∧ heads (ent 0x0E 3 ([4#8, 128#8, 0#8, 0#8] ++ bytesOfNat 5 4)) 0x0E = true ∧
    (cmdS []).fw.ptpWait = [] ∧ (mediaS [] true).ptpLocked = true ∧ (mediaS [] true).fw.ptpSel = some (0, 0) ∧ heads (ent 0x0E 3 (repeatN 0#8 8)) 0x0E = true := by decide +kernel
/-- A packet of the stream. -/
def aPacket : MediaPacket :=
  { port := 0, ipv6 := false, size := 1500, group := 5#32, udp := 5000, source := 0#32, vlan := none, pt := 96, seq := 9, rtpTs := 0#32, marker := false, segments := [], malformed := false }
/-- An open frame. -/
def aFrame (idx : Nat) : Frame := { idx := idx, buf := 0, first := 0#64, rtp := 0#32, pkts := 1, late := 0, stalled := false, oversize := false, paths := 1#2, lines := [], times := [] }
/-- The module with one stream, its buffers mapped. -/
def streamS (m : Stream) : State := (mediaS [] true).modFw fun w => { w with streams := [(0, m)] }
theorem wit_packet : (streamS aStream).fw.streams = [(0, aStream)] ∧ aStream.path aPacket = some 1 ∧ aStream.stats.length = 8 ∧ aStream.field 1 1 = 0xFF ∧ aStream.frames = [] ∧
    aStream.closed = [] ∧ natOfBytes ((streamS aStream).fwLoad (aStream.at aStream.nextBuf 0) 8) = 0 ∧ aPacket.marker = false ∧ aPacket.malformed = false ∧
    ({ aPacket with malformed := true } : MediaPacket).malformed = true := by decide +kernel
theorem wit_packet_frames : ({ aPacket with ipv6 := true } : MediaPacket).ipv6 = true ∧ aPacket.ipv6 = false ∧ aPacket.size ≤ 9216 ∧
    9216 < ({ aPacket with size := 9217 } : MediaPacket).size := by decide
theorem wit_packet_full : let s := (streamS aStream).memStore 0x10000 [1#8]
    natOfBytes (s.fwLoad (aStream.at aStream.nextBuf 0) 8) ≠ 0 := by decide +kernel
theorem wit_packet_late : let m := { aStream with closed := [(0, none)] }
    m.index (m.extend aPacket.rtpTs 0#64) = 0 ∧ (m.closed.find? fun x => x.1 == 0) = some (0, none) ∧ (∀ f ∈ m.frames, f.idx ≠ 0) := by decide +kernel
theorem wit_packet_removed : let m := { aStream with desc := aDesc.set 1 1#8, seen := [9] }
    m.path aPacket = some 1 ∧ m.field 1 1 ≠ 0xFF ∧ m.seen.contains aPacket.seq = true := by decide +kernel
theorem wit_frame : let m := { aStream with frames := [aFrame 0], stall := some 0#64 }
    let s := { streamS m with time := 2000000#64 }
    tblGet? s.fw.streams 0 = some m ∧ (m.frames.find? fun f => f.idx == 0) = some (aFrame 0) ∧ m.start 0 + m.field 0x40 4 * 1000 ≤ s.time.toNat ∧
      (1999999#64 : Word).toNat < m.start 0 + m.field 0x40 4 * 1000 ∧ m.field 0x3C 4 * 1000 ≤ (s.time - 0#64).toNat ∧ m.stall = some 0#64 ∧ m.waiters = [0] ∧
      s.fw.logical[0]? = some 0 := by decide +kernel
theorem wit_ptp : let x : PtpPort := { locked := false, good := 15, last := 0#64, diff := 0 }
    let s := (mediaS [] true).modFw fun w => { w with ptp := [(0, x)] }
    s.fw.ptpSel = some (0, 0) ∧ s.fw.ptpSel ≠ some (1, 0) ∧ tblGet? s.fw.ptp 0 = some x ∧ s.fw.ptpStepped = false ∧
      ((-1000 : Int) ≤ 1000 ∧ (1000 : Int) ≤ 1000 ∧ ¬ (1001 : Int) ≤ 1000) ∧ s.time.toNat < (BitVec.ofNat 64 1000).toNat ∧
      2000000000 ≤ ((2000000000#64 : Word) - x.last).toNat ∧ (s.time - x.last).toNat < 2000000000 := by decide +kernel
theorem wit_ptp_wait : let w : PtpWait := { port := 0, domain := 0, until0 := 5#64, cmd := headRef 0 0 (ent 0x0E 3 []) }
    ((cmdS []).modFw fun f => { f with ptpWait := [w] }).fw.ptpWait = w :: [] ∧ w.cmd.q = 0 ∧ (4#64 : Word).toNat < w.until0.toNat ∧ w.until0.toNat ≤ (5#64 : Word).toNat := by
  decide +kernel
/-- A DEBUG command on the group at slot 0 of core 0 under launch 1: buffer, LID, logical core, slot. -/
def dbgE (sub slot : Nat) : List Byte := ent 0x0F sub (at16 (hostA 0x100000 ++ bytesOfNat 1 4 ++ bytesOfNat 0 2 ++ bytesOfNat slot 1))
/-- The state with that entry, every feature open, and the group stopped or not. -/
def dbgS (sub : Nat) (stop step : Bool) (scope : Nat) : State :=
  (((cmdS (dbgE sub 0)).modFw fun w => { w with features := 63#6 }).modCore 0 fun c =>
    { c with dbgctl := BitVec.ofNat 64 (scope * 4), groups := c.groups.map fun g => { g with stopped := if stop then some 1 else none, stepping := step } }).modThread 0 0 fun t =>
      { t with run := if stop && !step then .stopped else .running }
theorem wit_debug (sub : Nat) (h : sub ∈ [1, 2, 3, 4]) (stop step : Bool) :
    Names4 (dbgS sub stop step 2) 0 0 (dbgE sub 0) sub (if sub = 4 then 1 else 0) (lau (aState false)) 0 ∧ TargetGroup (dbgS sub stop step 2) 0 (lau (aState false)) (dbgE sub 0) (grp (dbgS sub stop step 2)) ∧
      entNat (dbgE sub 0) 30 1 ≠ 0xFF ∧ TablesWf (dbgS sub stop step 2) := by
  unfold Names4 TargetGroup TablesWf Heads; fin_cases h <;> cases stop <;> cases step <;> decide +kernel
theorem wit_debug_refused : (cmdS (dbgE 1 0)).feature 0 = false ∧ heads (dbgE 1 0) 0x0F = true ∧ (∀ g ∈ ((cmdS (dbgE 1 0)).core 0).groups, g.lowSlot ≠ 15) ∧
    entNat (dbgE 1 0xFF) 30 1 = 0xFF := by decide +kernel
theorem wit_debug_stop : (grp (dbgS 1 false false 0)).stopped = none ∧ ((dbgS 1 false false 2).core 0).dbgctl.extractLsb' 2 2 = 2#2 ∧
    ((dbgS 1 false false 0).core 0).trcctl.getLsbD 2 = false ∧ (dbgS 1 false false 0).stopReach 0 (((dbgS 1 false false 0).core 0).dbgctl.extractLsb' 2 2) ≠ [] ∧
    (grp (dbgS 1 false false 0)).lowSlot < 16 ∧ (dbgS 1 false false 0).stopLag = 0 ∧ TablesWf (dbgS 1 false false 0) ∧
    (∀ x ∈ (dbgS 1 false false 0).fw.stops, x.trig < (dbgS 1 false false 0).fw.nextTrig) ∧
    (dbgS 1 false false 0).stopReach 0 2#2 = [] ∧ (∀ x ∈ ((dbgS 1 false false 0).core 0).stopOwed, x.1 < (dbgS 1 false false 0).fw.nextTrig) ∧ (grp (dbgS 2 true false 0)).lag = none := by
  unfold TablesWf; decide +kernel
theorem wit_debug_threads : let s := dbgS 2 true false 2
    s.thread? 0 0 = some (thr s) ∧ (thr s).home = none ∧ (thr s).group = (grp s).gid ∧ (thr s).run = .stopped ∧ (thr s).arrived = none ∧ (grp s).stopped ≠ none ∧
      (grp s).stepping = false := by decide +kernel
/-- A step of core 0's group in progress. -/
def aStep : StepOp := { pos := 0, gslot := 0, cmd := headRef 0 0 (dbgE 3 0), since := 0, count := 1 }
def steppingS (done : Bool) : State := ((dbgS 3 true true 2).modFw fun w => { w with steps := [aStep] }).modThread 0 0 fun t => { t with stepped := done }
theorem wit_step_end : let s := steppingS true
    (s.fw.steps.find? fun (y : StepOp) => y.pos == 0 && y.gslot == 0) = some aStep ∧ ((s.core 0).groups.find? fun g => g.lowSlot == 0) = some (grp s) ∧
      (s.core 0).group? (grp s).gid = some (grp s) ∧ (grp s).stepping = true ∧ (grp s).dying = none ∧ s.unstepped 0 (grp s).gid = 0 ∧
      (steppingS false).unstepped 0 (grp s).gid ≠ 0 ∧ (steppingS false).coreClocks 0 - aStep.since < 64 ∧ (thr s).run = .running := by decide +kernel
theorem wit_dump : let s := dbgS 4 true false 2
    (entWord (dbgE 4 0) 16).toNat % 4096 = 0 ∧ s.addrOk (entWord (dbgE 4 0) 16) 0x50000 = true ∧ s.addrMapped (entWord (dbgE 4 0) 16) 0x50000 = true := by decide +kernel
/-- A stop broadcast of trigger 7 over a tree rooted at position 0, and a message of it. -/
def aStop (own : List Nat) : StopOp := { trig := 7, tree := AckTree.over 0 own, cmd := some (headRef 0 0 (dbgE 1 0)) }
def stopS (x : StopOp) (m : CtlMsg) : State := (ctlS m).modFw fun w => { w with stops := [x] }
theorem wit_stop_message : let s := stopS (aStop [0, 1]) (.stop 0 1 1 0 7 0#64)
    s.ctl[0]? = some (.stop 0 1 1 0 7 0#64) ∧ (s.fw.stops.find? fun (y : StopOp) => y.trig == 7) = some (aStop [0, 1]) ∧ (aStop [0, 1]).tree.own.Nodup ∧
    (∃ q ∈ (aStop [0, 1]).tree.left, q ≠ (aStop [0, 1]).tree.root ∧ treeParent (aStop [0, 1]).tree.root q = 0) ∧
    ¬ (∃ q ∈ (aStop [0, 1]).tree.left, q ≠ (aStop [0, 1]).tree.root ∧ treeParent (aStop [0, 1]).tree.root q = 1) ∧
    (s.core 0).lid = 1 ∧ s.stopLag = 0 ∧ (s.core 0).trcctl.getLsbD 2 = false ∧ (s.core 9).lid ≠ 1 ∧ TablesWf s ∧ (s.core 0).stopOwed = [] ∧
    (∀ g ∈ (s.core 0).groups, g.lag = none) ∧ grp s ∈ (s.core 0).groups ∧ (s.core 0).group? (grp s).gid = some (grp s) ∧ (grp s).stopped = none := by
  unfold TablesWf; decide +kernel
theorem wit_stop_elsewhere : ∀ j t, (aState false).thread? 9 j = some t → t.homePos 9 ≠ 0 := fun j t h => by
  have : (aState false).thread? 9 j = none := rfl
  rw [this] at h; cases h
theorem wit_stop_ack : let x := aStop [0, 1]
    (stopS x (.stopAck 0 7 0 1)).ctl[0]? = some (.stopAck 0 7 0 1) ∧ (stopS x (.stopAck 1 7 0 1)).ctl[0]? = some (.stopAck 1 7 0 1) ∧
      ([x].find? fun (y : StopOp) => y.trig == 7) = some x ∧ x.tree.root = 0 ∧ treeParent x.tree.root 1 = 0 ∧ 0 ∈ x.tree.own ∧
      ¬ (∃ r ∈ x.tree.left.erase 1, r ≠ x.tree.root ∧ treeParent x.tree.root r = 0) := by decide +kernel

/-! ## Witnesses: division, selection, completions, invariants -/

theorem wit_division : Issues (aState false) (thr (aState false)) [1#5, 2#5, 3#5] ∧ (2 ≤ 64 ∧ (1#64 : Word) ≠ 0#64) ∧
    idiv 7#64 0xFFFFFFFFFFFFFFFE#64 true = (0xFFFFFFFFFFFFFFFD#64, 1#64) ∧ idiv 0x8000000000000000#64 0xFFFFFFFFFFFFFFFF#64 true = (0x8000000000000000#64, 0#64) ∧
    idiv 5#64 0#64 true = (0xFFFFFFFFFFFFFFFF#64, 5#64) := by unfold Issues; decide +kernel
/-- A queue with one command begun. -/
def begunS (nocpl : Bool) (full : Bool) : State :=
  queueS 1 { aQueue true with begun := [{ q := 1, index := 3, tag := 9#16, opc := 0, nocpl := nocpl }], cwp := if full then 16 else 0 }
theorem wit_completion (nocpl full : Bool) : let s := begunS nocpl full
    let v := s.queue 1
    ({ q := 1, index := 3, tag := 9#16, opc := 0, nocpl := nocpl } : CmdRef) ∈ v.begun ∧ v.heldCpl = [] ∧ v.stat.getLsbD 63 = true ∧ s.addrOk v.stat 64 = true ∧ v.stat.toNat % 64 = 0 ∧ Memory.wf s.host = true ∧
      (v.cbase + BitVec.ofNat 64 (v.cwp % v.cslots * 32)).getLsbD 63 = true ∧ (full = false → v.cwp - v.crpLast < v.cslots) ∧ (full = true → v.cslots ≤ v.cwp - v.crpLast) ∧
      (v.cbase.extractLsb' 0 52).toNat + 32 * 16 ≤ (v.stat.extractLsb' 0 52).toNat := by cases nocpl <;> cases full <;> decide +kernel
theorem wit_memories : MemoriesWf (aState false) ∧ MemoriesWf memS := by unfold MemoriesWf; decide +kernel

/-! ## The assembler and the linker (R281 to R291) -/

/-- The bytes of a line's statement, by itself. -/
def lineWord (t : String) : Option (List Byte) := (readLine [] t.toList).bind fun d => d.2.bind fun
  | .stmt st => ({ line := { label := none, stmt := some st }, at0 := 0, wide := false, pad := 0 } : Placed).emit true []
  | _ => none
/-- The words that the spec states for its statements (R257, R322, R375, R381, R384, R386, R398, and the tables of the worked programs). -/
theorem test_source_words : ([("csrr t0, FFLAGS", 0x008202FB), ("tcopy [a2], [a0], a1, [a3]", 0x58908565), ("fmt a=bf16, b=bf16, d=fp32, rm=rtz", 0x01686679),
    ("evsend a0, a1, t0", 0x009082F1), ("tmma acc1, a0, a1, t0, t1", 0x329082E1), ("vwhile.i32 m1, t2, a2", 0x10A470D9), ("vld v1, [a0], m1", 0x020080D1)].all
    fun e => lineWord e.1 == some (bytesOfNat e.2 4)) = true := by decide +kernel
/-- As above: more of the worked programs' words. -/
theorem test_source_words2 : ([("vfmacc.f32 v2, v1, a3, m1", 0x72B01147), ("amoadd.d t5, [s3], t4", 0x41D73F31), ("vbflyx.ct.m64 v4, v5, v3, q1, m1", 0x22365255),
    ("vscatter.i64 [a0], v1, v4, m1", 0x52168251), ("pmov p, t0", 0x0C02500F), ("fcmp.lt.s p4, s0, s1", 0x1911020B), ("lwf s6, [t2+0x48] ; halo", 0x04807B29),
    ("nrecv t0, 3", 0x060402F5), ("addi sp, sp, -4", 0xFFC02103)].all fun e => lineWord e.1 == some (bytesOfNat e.2 4)) = true := by decide +kernel
/-- Two sources of a step-mode role: the second exports the function that the first calls. -/
def linked : Option (List Byte) :=
  (readSource 1 {} (["; main", " .role r0, step", " .global f", " .equ K, 3", " .proc f", "f: li a0, K+1", " vadd.i32 v1, v2", " vadd.i32 v3, v1, m1", " vmov v0, v0",
    " vand v4, v4, v5, m1", " .align 3", " call g", " .endproc", " .data", "d: .dword f, d", " .lease 0x10000, 2, rw", " .place 5, K, r0",
    " .boottree 7, 0b1010"].map String.toList)).bind fun a =>
  (readSource 1 {} ([".role r0, step", ".global g", "g: texit"].map String.toList)).bind fun b =>
  link [("a", a), ("b", b)] [("r0", 0x1000#64, 0x8000#64)]
/-- Words of 32 bits from an offset. -/
def wordsAt (b : List Byte) (at0 n : Nat) : List Nat := (List.range n).map fun k => natOfBytes ((b.drop (at0 + 4 * k)).take 4)
/-- Its header (R287) and role entry (R288), worked out from the sizes: 24 bytes of text, the `vand` widened for the `.align` (R286), and 32 of data. -/
theorem test_image_header : linked.map (fun b => (wordsAt b 0 18, wordsAt b 0x100 16)) =
    some ([0x49595A47, 0x10001, 0x2548, 0, 0x100, 0, 0x2020, 0, 0x2030, 0, 0x2430, 0, 0xA4, 0, 0x24D8, 0, 0x70, 0],
      [0x3072, 0, 0, 0, 1, 0, 0x1000, 0, 0x1000, 0x18, 0x8000, 0, 0x2000, 0x20, 0, 0]) := by decide +kernel
/-- Its data with the lease descriptor (R59), its placement entry (R289) and its symbols (R291). -/
theorem test_image_sections : linked.map (fun b => (wordsAt b 0x2000 11, wordsAt b 0x2430 41)) =
    some ([0x1000, 0, 0x8000, 0, 0x10000, 0, 2, 3, 1, 0, 0x30005],
      [6, 0, 0x1000, 0, 0x14, 0x01010000, 0, 0, 0x8000, 0, 0, 0, 2, 0, 3, 0, 0, 0x00020000, 4, 0, 0x1014, 0, 0, 0x01000000, 6, 0, 0, 0, 0, 0x0003FFFF, 8, 0,
       1, 0, 0, 0x0003FFFF, 10, 0, 0x00640066, 0x0067004B, 0x00620061]) := by decide +kernel

end
end Sys2Proof.Tests
end

section
/-! PROOFS. The canonical form of memories over outcomes and over states that may be missing. -/
namespace Sys2Proof.Claims
open Sys2Proof.Machine

/-- An outcome keeps the form where its next state, if it has one, has it. -/
def OutWf (o : Out) : Prop := ∀ u, o = .next u → MemoriesWf u

/-- A next state. -/
theorem outWf_next {u : State} (h : MemoriesWf u) : OutWf (.next u) := fun v e => by cases e; exact h

/-- A fault of the model has no next state. -/
theorem outWf_fault (f : Fault) : OutWf (.fault f) := fun _ e => nomatch e

/-- A refusal has no next state. -/
theorem outWf_refused (r : Refusal) : OutWf (.refused r) := fun _ e => nomatch e

/-- A state that may be missing has the form where it is there. -/
def OptWf (o : Option State) : Prop := ∀ u, o = some u → MemoriesWf u

/-- A state that is there. -/
theorem optWf_some {u : State} (h : MemoriesWf u) : OptWf (some u) := fun v e => by cases e; exact h

/-- A missing state. -/
theorem optWf_none : OptWf none := fun _ e => nomatch e

/-- A state that may be missing, changed where it is there. -/
theorem optWf_map {o : Option State} {f : State → State} (ho : OptWf o) (hf : ∀ s, MemoriesWf s → MemoriesWf (f s)) : OptWf (o.map f) := fun u e => by
  obtain ⟨s, hs, rfl⟩ := Option.map_eq_some_iff.1 e
  exact hf s (ho s hs)

/-- The state that an equation names as the first of a pair. -/
theorem MemoriesWf.of_fst {α : Type} {x : State × α} {u : State} {a : α} (e : x = (u, a)) (h : MemoriesWf x.1) : MemoriesWf u := by
  rw [e] at h; exact h

/-- Steps over a list that each keep the form. -/
theorem MemoriesWf.foldl {α : Type} {f : State → α → State} {l : List α} {s : State} (h : MemoriesWf s)
    (hf : ∀ s a, MemoriesWf s → MemoriesWf (f s a)) : MemoriesWf (l.foldl f s) := by
  induction l generalizing s with
  | nil => exact h
  | cons a l ih => exact ih (hf s a h)
end Sys2Proof.Claims
end

section
/-! PROOFS. What the operations of a core leave of its scratchpad, and the saved scratchpads of launches. -/
namespace Sys2Proof.Machine
open Sys2Proof.Claims

/-! ## Operations of a core and its scratchpad -/

@[simp] theorem Core.applyInbctl_sp (c : Core) : c.applyInbctl.sp = c.sp := by
  unfold Core.applyInbctl
  split
  · split <;> rfl
  · rfl

@[simp] theorem Core.writeInbctl_sp (c : Core) (v : Word) : (c.writeInbctl v).sp = c.sp := by
  unfold Core.writeInbctl
  dsimp only
  split
  · rfl
  · split <;> rfl

@[simp] theorem Core.modCtx_sp (c : Core) (k : Bool) (f : VCtx → VCtx) : (c.modCtx k f).sp = c.sp := by unfold Core.modCtx; split <;> rfl
@[simp] theorem Core.leaveUnbounded_sp (c : Core) (v : BitVec 32) : (c.leaveUnbounded v).sp = c.sp := by unfold Core.leaveUnbounded; split <;> rfl
@[simp] theorem Core.raiseVt_sp (c : Core) (v : BitVec 32) : (c.raiseVt v).sp = c.sp := by unfold Core.raiseVt; split <;> rfl
@[simp] theorem Core.recordTrigger_sp (c : Core) (n i g q : Nat) (k : BitVec 16) : (c.recordTrigger n i g q k).sp = c.sp := by
  unfold Core.recordTrigger; split <;> rfl

@[simp] theorem Core.swap_sp (c : Core) : c.swap.sp = c.sp := by unfold Core.swap; split <;> rfl
@[simp] theorem Core.l1Touch_sp (c : Core) (line : Nat) (lru : Bool) : (c.l1Touch line lru).sp = c.sp := by
  unfold Core.l1Touch
  split
  · split <;> rfl
  · rfl

@[simp] theorem Core.fillWith_sp (c : Core) (fill : Option Nat) (bs : List Byte) (lru : Bool) : (c.fillWith fill bs lru).sp = c.sp := by
  cases fill <;> rfl

@[simp] theorem Core.pop_sp (c : Core) : c.pop.sp = c.sp := by
  unfold Core.pop
  dsimp only
  split <;> rfl

@[simp] theorem Core.issuedBy_sp (c : Core) (slot : Nat) (passed : List Nat) : (c.issuedBy slot passed).sp = c.sp := by
  unfold Core.issuedBy
  cases c.yielded <;> simp [Core.mapThreads]

@[simp] theorem Core.accSet_sp (c : Core) (k e : Nat) (v : BitVec 32) : (c.accSet k e v).sp = c.sp := by unfold Core.accSet; split <;> rfl
@[simp] theorem Core.accWrite_sp (c : Core) (o : Nat) (bs : List Byte) : (c.accWrite o bs).sp = c.sp := by
  induction bs generalizing c o with
  | nil => rfl
  | cons b bs ih => rw [Core.accWrite, ih]; exact Core.accSet_sp _ _ _ _

/-- The core that replaces another keeps its own scratchpad (R128). -/
@[simp] theorem Core.risen_sp (was c : Core) : (was.risen c).sp = c.sp := by unfold Core.risen; split <;> rfl
@[simp] theorem Core.inboxPut_sp (c : Core) (src : Nat) (e : Entry) : (c.inboxPut src e).1.sp = c.sp := by
  unfold Core.inboxPut
  dsimp only
  have hc : ∀ (b : Prop) [Decidable b] (l : List Reservation), (if b then { c with reserved := l } else c).sp = c.sp := fun b _ l => by split <;> rfl
  split
  · exact hc _ _
  · split
    · exact (Core.risen_sp _ _).trans (hc _ _)
    · rfl

@[simp] theorem Core.push_sp (c : Core) (r : List Byte) (m : Option (Nat × Bool)) : (c.push r m).sp = c.sp := rfl
theorem Core.stealBottom_sp {c d : Core} {r : List Byte} (h : c.stealBottom = some (r, d)) : d.sp = c.sp := by
  unfold Core.stealBottom at h
  split at h
  · cases h; rfl
  · split at h <;> cases h
    rfl

/-- An update that the bank makes in place keeps the form of its scratchpad. -/
theorem spUpdate_wf (c : Core) (phys : Nat) (bs : List Byte) (h : Memory.wf c.sp = true) : Memory.wf (c.spUpdate phys bs).sp = true :=
  memWrite_wf _ _ _ h

/-- A tagged operation keeps the form of its scratchpad. -/
theorem tagDo_wf (c : Core) (w : Nat) (op : TagOp) (b : Word) (h : Memory.wf c.sp = true) : Memory.wf (c.tagDo w op b).1.sp = true := by
  cases op
  case put => exact spStorePhys_wf _ _ _ false h
  case fill => exact spStorePhys_wf _ _ _ false h
  all_goals exact h

/-- What a restored core holds has the form: the bytes that were not saved, and the saved ones put back over them. -/
theorem restored_wf (c saved : Core) (h : Memory.wf c.sp = true) : Memory.wf (c.restored saved).sp = true := by
  suffices ∀ (l m : Memory), Memory.wf m = true → Memory.wf (l.foldl (fun m e => memSet m e.1 e.2) m) = true from this _ _ (Memory.filter_wf _ _ h)
  intro l
  induction l with
  | nil => exact fun _ hm => hm
  | cons e l ih => exact fun m hm => ih _ (memSet_wf m _ _ hm)

/-- A scratchpad that equals another has its form. -/
theorem sp_wf_of_eq {c d : Core} (e : d.sp = c.sp) (h : Memory.wf c.sp = true) : Memory.wf d.sp = true := by rw [e]; exact h

/-- Operations over a list that each leave the scratchpad. -/
theorem foldl_sp {α : Type} (f : Core → α → Core) (hf : ∀ c a, (f c a).sp = c.sp) (l : List α) (c : Core) : (l.foldl f c).sp = c.sp := by
  induction l generalizing c with
  | nil => rfl
  | cons a l ih => rw [List.foldl_cons, ih, hf]

/-- Operations over a list that each keep the form of the scratchpad. -/
theorem foldl_wf {α : Type} {f : Core → α → Core} {l : List α} {c : Core} (hf : ∀ c a, Memory.wf c.sp = true → Memory.wf (f c a).sp = true)
    (h : Memory.wf c.sp = true) : Memory.wf (l.foldl f c).sp = true := by
  induction l generalizing c with
  | nil => exact h
  | cons a l ih => exact ih (hf c a h)

end Sys2Proof.Machine
namespace Sys2Proof.Claims
open Sys2Proof.Machine

/-- The saved scratchpads of a launch are in the canonical form. -/
def LaunchWf (l : Launch) : Prop := ∀ e ∈ l.image0, Memory.wf e.2.sp = true

/-- A launch that saved nothing. -/
theorem LaunchWf.of_nil {l : Launch} (h : l.image0 = []) : LaunchWf l := fun e he => by rw [h] at he; cases he

/-- A live launch. -/
theorem MemoriesWf.launch {s : State} (h : MemoriesWf s) {lid : Nat} {l : Launch} (e : s.launch? lid = some l) : LaunchWf l :=
  h.2.2.2 l (List.mem_of_find?_eq_some e)

/-- Other launches, whose saved scratchpads have the form. -/
theorem MemoriesWf.putLaunches {s : State} (h : MemoriesWf s) {l : List Launch} (hl : ∀ x ∈ l, LaunchWf x) :
    MemoriesWf { s with launches := l } := ⟨h.1, h.2.1, h.2.2.1, hl⟩

/-- Fewer launches. -/
theorem MemoriesWf.filterLaunches {s : State} (h : MemoriesWf s) (q : Launch → Bool) : MemoriesWf { s with launches := s.launches.filter q } :=
  h.putLaunches fun x hx => h.2.2.2 x (List.mem_of_mem_filter hx)

/-- A launch more. -/
theorem MemoriesWf.addLaunch {s : State} (h : MemoriesWf s) {l : Launch} (hl : LaunchWf l) : MemoriesWf { s with launches := s.launches ++ [l] } :=
  h.putLaunches fun x hx => by
    rcases List.mem_append.1 hx with hx | hx
    · exact h.2.2.2 x hx
    · rw [List.mem_singleton.1 hx]; exact hl

/-- Changing a launch by an operation that keeps the form of what it saved. -/
theorem MemoriesWf.modLaunch_wf {s : State} (h : MemoriesWf s) (lid : Nat) {f : Launch → Launch} (hf : ∀ l, LaunchWf l → LaunchWf (f l)) :
    MemoriesWf (s.modLaunch lid f) := h.putLaunches fun x hx => by
  obtain ⟨l, hl, rfl⟩ := List.mem_map.1 hx
  split
  · exact hf l (h.2.2.2 l hl)
  · exact h.2.2.2 l hl

/-- The state at reset. -/
theorem MemoriesWf.reset : MemoriesWf State.reset :=
  ⟨rfl, rfl, fun _ he => absurd he List.not_mem_nil, fun _ hl => absurd hl List.not_mem_nil⟩
end Sys2Proof.Claims
end

section
/-! PROOFS. Every operation of the model on its state keeps the canonical form of every memory (R5, R20, R56, R66, R157, R158, R182). -/
namespace Sys2Proof.Claims
open Sys2Proof.Machine

/-! ## Ops -/

theorem MemoriesWf.nextNs {s : State} {src dst : Nat} (h : MemoriesWf s) : MemoriesWf (s.nextNs src dst).2 := by
  unfold State.nextNs
  extract_lets nd q
  dsimp only
  exact h.setNode _ _

theorem MemoriesWf.cacheWalk {s : State} {off : Nat} (h : MemoriesWf s) : MemoriesWf (s.cacheWalk off) := by
  unfold State.cacheWalk
  split
  · exact h
  · split
    · exact h
    · exact h.of_eq rfl rfl rfl rfl

theorem MemoriesWf.moveOut {s : State} {page : Nat} (h : MemoriesWf s) : MemoriesWf (s.moveOut page) := (moveOut_stores s page).keeps h

theorem MemoriesWf.hostRecall {s : State} {line : Nat} (h : MemoriesWf s) : MemoriesWf (s.hostRecall line) := (hostRecall_stores s line).keeps h

theorem MemoriesWf.recallRange {s : State} {off n : Nat} (h : MemoriesWf s) : MemoriesWf (s.recallRange off n) := (recallRange_stores s off n).keeps h

theorem hostWrite_keeps {s : State} {a : Nat} {bs : List Byte} {z : Bool} (h : MemoriesWf s) : MemoriesWf (s.hostWrite a bs z) := (hostWrite_stores s a bs z).keeps h

theorem MemoriesWf.traceFull {s : State} {p : Nat} (h : MemoriesWf s) : MemoriesWf (s.traceFull p) := by
  unfold State.traceFull
  split
  · exact h.tracePut _ _
  · exact h

/-! ## Digest -/

theorem MemoriesWf.voidRun {s : State} {t : Thread} {g : Group} (h : MemoriesWf s) : MemoriesWf (s.voidRun t g) :=
  (h.modGroup _ _ _).terminate _ _ _ _ _ _ _

/-! ## Debug -/

theorem MemoriesWf.freeze {s : State} {hp gid trig : Nat} (h : MemoriesWf s) : MemoriesWf (s.freeze hp gid trig) := by
  unfold State.freeze
  extract_lets stopT one s1 s2 s3 skid
  have hone : ∀ p c, (one p c).sp = c.sp := fun p c => sp_foldl_dropWaits c.threads (fun _ t => t.group == gid && t.homePos p == hp) c
  have hs1 : MemoriesWf s1 := h.mapCores hone
  have hs3 : MemoriesWf s3 := (hs1.modGroup _ _ _).foldl fun _ _ h => h.traceStop _ _ _
  exact hs3.modCore_sp _ fun _ => rfl

theorem MemoriesWf.markStop {s : State} {hp gid : Nat} (h : MemoriesWf s) : MemoriesWf (s.markStop hp gid) := h.mapCores fun _ _ => rfl

theorem MemoriesWf.beginStop {s : State} {hp gid trig : Nat} (h : MemoriesWf s) : MemoriesWf (s.beginStop hp gid trig) := by
  unfold State.beginStop
  extract_lets s1
  have hs1 : MemoriesWf s1 := h.markStop
  split
  · exact hs1.freeze
  · exact hs1.modGroup _ _ _

theorem MemoriesWf.stopAnswer {s : State} {p trig skid groups : Nat} (h : MemoriesWf s) : MemoriesWf (s.stopAnswer p trig skid groups) := by
  unfold State.stopAnswer
  split
  · exact h
  · extract_lets t s1
    have hs1 : MemoriesWf s1 := h.modFw _
    split
    · exact hs1.of_eq rfl rfl rfl rfl
    · exact hs1

theorem MemoriesWf.answerStops {s : State} {p : Nat} (h : MemoriesWf s) : MemoriesWf (s.answerStops p) :=
  MemoriesWf.foldl (h.modCore_sp _ (fun _ => rfl)) fun _ _ hs => hs.stopAnswer

theorem MemoriesWf.oweStop {s : State} {p trig groups : Nat} (h : MemoriesWf s) : MemoriesWf (s.oweStop p trig groups) :=
  MemoriesWf.answerStops (h.modCore_sp _ (fun _ => rfl))

theorem MemoriesWf.trigger {s : State} {p gid trig index src : Nat} {seq : BitVec 16} {thread : Option (Nat × Nat)} (h : MemoriesWf s) :
    MemoriesWf (s.trigger p gid trig index src seq thread) := by
  unfold State.trigger
  split
  · exact h
  next g _ =>
    extract_lets c s1 at? th n scope reach s2 s3 w s4
    have hs1 : MemoriesWf s1 := h.modCore_sp _ fun _ => Core.recordTrigger_sp _ _ _ _ _ _
    have hs2 : MemoriesWf s2 := hs1.beginStop
    have hs3 : MemoriesWf s3 := by
      unfold s3
      split
      · split
        · exact hs2.modThread _ _ _
        · exact hs2
      · exact hs2
    have hs4 : MemoriesWf s4 := hs3.of_eq rfl rfl rfl rfl
    clear_value th at?
    split
    · exact hs1
    · split
      · split
        · exact hs1.modThread _ _ _
        · exact hs1
      · split
        · exact hs4
        · exact (hs4.modFw _).oweStop

theorem MemoriesWf.watchHit {s : State} {p slot : Nat} {t : Thread} {k ia : Nat} (h : MemoriesWf s) : MemoriesWf (s.watchHit p slot t k ia) :=
  (h.traceWatch _ _ _ _ _).trigger

theorem MemoriesWf.watchIssue {s : State} {p slot : Nat} {t : Thread} {ia n : Nat} {rd wr : Bool} (h : MemoriesWf s) :
    MemoriesWf (s.watchIssue p slot t ia n rd wr) :=
  h.foldl fun _ _ hs => hs.watchHit

theorem MemoriesWf.watchLater {s : State} {p slot : Nat} {t : Thread} {ia n : Nat} {rd wr : Bool} (h : MemoriesWf s) :
    MemoriesWf (s.watchLater p slot t ia n rd wr) := by
  unfold State.watchLater
  extract_lets l
  split
  · exact h
  · exact h.modThread _ _ _

theorem MemoriesWf.watchRetired {s : State} {p slot : Nat} (h : MemoriesWf s) : MemoriesWf (s.watchRetired p slot) := by
  unfold State.watchRetired
  split
  · exact h
  · extract_lets done
    split
    · exact (h.setThread _ _ _).foldl fun _ _ hs => hs.watchHit
    · exact h

theorem MemoriesWf.settleWatches {s : State} (h : MemoriesWf s) : MemoriesWf s.settleWatches :=
  h.foldl fun _ _ hs => hs.foldl fun _ _ hs1 => hs1.watchRetired

theorem MemoriesWf.watchBank {s : State} {p off n : Nat} {rd wr : Bool} {src : Nat} {seq : BitVec 16} (h : MemoriesWf s) :
    MemoriesWf (s.watchBank p off n rd wr src seq) :=
  h.foldl fun _ _ hs => (hs.traceWatch _ _ _ _ _).foldl fun _ _ hs1 => hs1.trigger

/-! ## Inbox -/

theorem MemoriesWf.inboxFreed {s : State} {p : Nat} (h : MemoriesWf s) : MemoriesWf (s.inboxFreed p) := by
  unfold State.inboxFreed
  extract_lets c
  split
  · split
    · exact h.setCore _ (sp_wf_of_eq (Core.risen_sp _ _) (h.core _))
    · exact h
  · split
    · exact h
    · extract_lets c1 q x
      have hq : MemoriesWf q.2 := MemoriesWf.nextNs (h.setCore _ (h.core _))
      exact hq.of_eq rfl rfl rfl rfl

theorem MemoriesWf.ownRecord {s : State} {p : Nat} {r : BitVec 128} (h : MemoriesWf s) : MemoriesWf (s.ownRecord p r) := by
  unfold State.ownRecord
  extract_lets c x x1
  split
  · exact h.setCore _ (sp_wf_of_eq (Core.inboxPut_sp _ _ _) (h.core _))
  · exact h.setCore _ (sp_wf_of_eq (Core.risen_sp _ _) (sp_wf_of_eq (Core.inboxPut_sp _ _ _) (h.core _)))

theorem MemoriesWf.gvtRecord {s : State} {p : Nat} {g round : BitVec 32} (h : MemoriesWf s) : MemoriesWf (s.gvtRecord p g round) := by
  unfold State.gvtRecord
  extract_lets r c
  split
  · exact h.setCore _ (sp_wf_of_eq (Core.risen_sp _ _) (h.core _))
  · exact h.setCore _ (h.core _)

/-! ## Bank -/

theorem MemoriesWf.reportFault {s : State} {p slot : Nat} {handler : Bool} {tr : Trap} (h : MemoriesWf s) :
    MemoriesWf (s.reportFault p slot handler tr) := by
  unfold State.reportFault
  split
  · exact h
  · split
    · exact h.terminate _ _ _ _ _ _ _
    · split <;> exact h.setThread _ _ _

theorem MemoriesWf.beginContain {s : State} {p : Nat} {slot : Option Nat} {va : Word} (h : MemoriesWf s) : MemoriesWf (s.beginContain p slot va) := by
  unfold State.beginContain
  extract_lets i note s1 s2 s3
  have hs1 : MemoriesWf s1 := h.modFw _
  have hs2 : MemoriesWf s2 := hs1.modRect _ _
  have hs3 : MemoriesWf s3 := hs2.modCore _ fun _ hs => foldl_wf (fun _ _ hs4 => hs4) hs
  split
  · exact h
  · exact hs3.of_eq rfl rfl rfl rfl

theorem MemoriesWf.consumePoison {s : State} {p slot : Nat} {now handler : Bool} {va : Word} (h : MemoriesWf s) :
    MemoriesWf (s.consumePoison p slot now handler va) := by
  unfold State.consumePoison
  extract_lets s1
  have hs1 : MemoriesWf s1 := h.modRect _ _
  split
  · exact hs1.beginContain
  · split
    · exact hs1.takeTrap _ _ _
    · exact hs1.reportFault

theorem MemoriesWf.l1Inv {s : State} {p : Nat} {f : Nat → Bool} (h : MemoriesWf s) : MemoriesWf (s.l1Inv p f) := by
  unfold State.l1Inv
  extract_lets x
  have hx : MemoriesWf x := h.modCore_sp _ fun _ => rfl
  exact hx.of_eq rfl rfl rfl rfl

theorem MemoriesWf.l1Drop {s : State} {p ia n : Nat} (h : MemoriesWf s) : MemoriesWf (s.l1Drop p ia n) := h.l1Inv

theorem MemoriesWf.l1Clear {s : State} {p : Nat} (h : MemoriesWf s) : MemoriesWf (s.l1Clear p) := h.l1Inv

theorem MemoriesWf.acquire {s : State} {p : Nat} {g : Group} {hosted : Bool} {sync : Nat} (h : MemoriesWf s) : MemoriesWf (s.acquire p g hosted sync) :=
  h.l1Inv

theorem MemoriesWf.retain {s : State} {node src : Nat} {seq : BitVec 16} {b : Body} (h : MemoriesWf s) : MemoriesWf (s.retain node src seq b) :=
  h.setNode _ _

theorem MemoriesWf.grantLocal {s : State} {p slot : Nat} {rd : Reg} {op : TagOp} {w : Nat} {v : Word} {pz : Bool} (h : MemoriesWf s) :
    MemoriesWf (s.grantLocal p slot rd op w v pz) := by
  unfold State.grantLocal
  split
  · exact h
  · extract_lets t1 s1 s2
    have hs1 : MemoriesWf s1 := h.setThread _ _ _
    have hs2 : MemoriesWf s2 := by
      unfold s2
      split
      · split
        · exact hs1
        · exact hs1.acquire
      · exact hs1
    split
    · exact hs2.consumePoison
    · exact hs2

theorem MemoriesWf.grants {s : State} {p w n : Nat} (h : MemoriesWf s) : MemoriesWf (s.grants p w n) := by
  induction n generalizing s with
  | zero => exact h
  | succ n ih =>
    unfold State.grants
    extract_lets c
    split
    · exact h
    · extract_lets r x s1 b x1 s2
      have hs1 : MemoriesWf s1 := h.setCore _ (tagDo_wf _ _ _ _ (h.core _))
      have hx1 : MemoriesWf x1 := hs1.retain
      have hs2 : MemoriesWf s2 := by
        unfold s2
        split
        · exact hs1.grantLocal
        · exact MemoriesWf.watchBank (hx1.of_eq rfl rfl rfl rfl)
      exact ih hs2

theorem MemoriesWf.tagChanged {s : State} {p w : Nat} (h : MemoriesWf s) : MemoriesWf (s.tagChanged p w) :=
  MemoriesWf.grants (h.modCore_sp _ (fun _ => rfl))

theorem MemoriesWf.pushOwn {s : State} {p : Nat} {r : List Byte} (h : MemoriesWf s) : MemoriesWf (s.pushOwn p r) := h.modCore_sp _ fun _ => rfl

theorem MemoriesWf.tdecAt {s : State} {p phys k : Nat} (h : MemoriesWf s) : MemoriesWf (s.tdecAt p phys k).1 := by
  unfold State.tdecAt
  extract_lets c v count n low w c1
  split
  · dsimp only
    exact h.setCore _ (spUpdate_wf _ _ _ (h.core _))
  · split
    · split
      · exact h
      · dsimp only
        exact MemoriesWf.pushOwn (h.setCore _ (spUpdate_wf _ _ _ (h.core _)))
    · dsimp only
      exact h.setCore _ (spUpdate_wf _ _ _ (h.core _))

theorem MemoriesWf.barrierUpdate {s : State} {p off nbytes narr : Nat} (h : MemoriesWf s) : MemoriesWf (s.barrierUpdate p off nbytes narr) := by
  unfold State.barrierUpdate
  extract_lets c phys v bytes arr comp w w1
  split <;> exact h.setCore _ (spUpdate_wf _ _ _ (h.core _))

theorem MemoriesWf.waitAt {s : State} {p w : Nat} {op : TagOp} {b : Word} {who : Who} (h : MemoriesWf s) : MemoriesWf (s.waitAt p w op b who).1 := by
  unfold State.waitAt
  extract_lets c remote
  split
  · exact h
  · dsimp only
    exact h.setCore _ (h.core _)

theorem MemoriesWf.taggedAt {s : State} {p off : Nat} {op : TagOp} {b : Word} {who : Who} (h : MemoriesWf s) :
    MemoriesWf (s.taggedAt p off op b who).1 := by
  unfold State.taggedAt
  extract_lets c w r s1 s2
  have hs1 : MemoriesWf s1 := h.setCore _ (tagDo_wf _ _ _ _ (h.core _))
  have hs2 : MemoriesWf s2 := by
    unfold s2
    split
    · exact hs1
    · exact hs1.tagChanged
  split
  · exact h.waitAt
  · exact hs2

theorem MemoriesWf.bankDo {s : State} {p off : Nat} {b : Body} {who : Who} (h : MemoriesWf s) : MemoriesWf (s.bankDo p off b who).1 := by
  unfold State.bankDo
  extract_lets c phys
  split
  · exact h
  · exact h
  · dsimp only
    exact h.setCore _ (spStorePhys_wf _ _ _ _ (h.core _))
  · dsimp only
    exact h.setCore _ (spStorePhys_wf _ _ _ _ (h.core _))
  · split
    · exact h
    · extract_lets old s1
      have hs1 : MemoriesWf s1 := by
        unfold s1
        split
        · exact h.setCore _ (spStorePhys_wf _ _ _ _ (h.core _))
        · exact h
      exact hs1
  · split
    · exact h
    · extract_lets old s1
      have hs1 : MemoriesWf s1 := by
        unfold s1
        split
        · exact h.setCore _ (spStorePhys_wf _ _ _ _ (h.core _))
        · exact h
      exact hs1
  · split
    · dsimp only
      exact h.countDrop _
    · extract_lets old
      dsimp only
      split
      · exact h.setCore _ (spStorePhys_wf _ _ _ _ (h.core _))
      · exact h
  · exact h.taggedAt
  · exact h.tdecAt
  · exact h

theorem MemoriesWf.xstAt {s : State} {p off : Nat} {b : Word} (h : MemoriesWf s) : MemoriesWf (s.xstAt p off b).1 := by
  unfold State.xstAt
  extract_lets c phys s1
  have hs1 : MemoriesWf s1 := h.modCore p fun c hc => spStorePhys_wf c phys _ false hc
  split
  · exact h
  · dsimp only
    split
    · exact hs1
    · exact hs1.tagChanged

theorem MemoriesWf.spRequest {s : State} {p off lid : Nat} {gen : Option Nat} {b : Body} {who : Who} (h : MemoriesWf s) :
    MemoriesWf (s.spRequest p off lid gen b who).1 := by
  unfold State.spRequest
  extract_lets c r
  have hr : MemoriesWf r.1 := h.bankDo
  split
  · split
    · exact h
    · extract_lets r1
      have hr1 : MemoriesWf r1.1 := h.xstAt
      dsimp only
      split
      · exact hr1.watchBank
      · exact hr1
  · split
    · exact h
    · split
      · split
        · split
          · exact hr
          · dsimp only
            exact hr.watchBank
        · exact hr
      · exact h

/-! ## Net -/

theorem MemoriesWf.countRecv {s : State} {dst : Nat} {colour : Bool} (h : MemoriesWf s) : MemoriesWf (s.countRecv dst colour) := by
  unfold State.countRecv
  split
  · exact h.modCore_sp _ fun _ => rfl
  · exact h.of_eq rfl rfl rfl rfl

theorem MemoriesWf.sendNs {s : State} {src dst : Nat} {b : Body} (h : MemoriesWf s) : MemoriesWf (s.sendNs src dst b) := by
  unfold State.sendNs
  extract_lets q x
  have hq : MemoriesWf q.2 := h.nextNs
  exact hq.of_eq rfl rfl rfl rfl

theorem MemoriesWf.reissue {s : State} {r : Req} (h : MemoriesWf s) : MemoriesWf (s.reissue r) := by
  unfold State.reissue
  extract_lets nd seq nd1 r1 go r2 x s1
  have hx : MemoriesWf x := h.setNode _ _
  have hs1 : MemoriesWf s1 := hx.of_eq rfl rfl rfl rfl
  split
  · exact inject_keeps hs1 _ _
  · exact hs1

theorem MemoriesWf.unpark {s : State} {src : Nat} (h : MemoriesWf s) : MemoriesWf (s.unpark src) := by
  unfold State.unpark
  split
  · exact h
  · extract_lets r
    refine inject_keeps ?_ _ _
    exact h.of_eq rfl rfl rfl rfl

theorem MemoriesWf.answer {s : State} {k : Packet} {b : Body} {keep : Bool} (h : MemoriesWf s) : MemoriesWf (s.answer k b keep) := by
  unfold State.answer
  extract_lets s1
  have hs1 : MemoriesWf s1 := by
    unfold s1
    split
    · exact h.retain
    · exact h
  exact hs1.of_eq rfl rfl rfl rfl

theorem MemoriesWf.accept {s u : State} {k : Packet} (h : MemoriesWf s) (e : s.accept k = some u) : MemoriesWf u := by
  obtain ⟨w, _, rfl⟩ := Option.map_eq_some_iff.1 e
  exact h.setNode _ _

/-! ## Torus -/

theorem MemoriesWf.dropAt {s : State} {n : Nat} {event : Bool} (h : MemoriesWf s) : MemoriesWf (s.dropAt n event) := by
  unfold State.dropAt
  split
  · split
    · exact h.countEvDrop _
    · exact h.countDrop _
  · split
    · exact h.modRect _ _
    · exact h.countDrop0

theorem MemoriesWf.dropPacket {s : State} {k : Packet} (h : MemoriesWf s) : MemoriesWf (s.dropPacket k) := h.dropAt

theorem MemoriesWf.handshake {s : State} {plane : Nat} (h : MemoriesWf s) : MemoriesWf (s.handshake plane) := by
  unfold State.handshake
  extract_lets all counting asserting routers again dos w moved stays buffers buffers1 resent isBad s1
  have hs1 : MemoriesWf s1 := h.of_eq rfl rfl rfl rfl
  split
  · exact h
  · exact hs1.foldl fun _ _ hs => hs.dropPacket

theorem MemoriesWf.handshakes {s : State} (h : MemoriesWf s) : MemoriesWf s.handshakes := by
  unfold State.handshakes
  split
  · exact h.foldl fun _ _ hs => hs.handshake
  · exact h

theorem MemoriesWf.fabricNs {s : State} (h : MemoriesWf s) : MemoriesWf s.fabricNs := h.foldl fun _ _ hs => hs.handshakes

/-! ## Peers -/

theorem MemoriesWf.portSend {s : State} {die : Nat} {f : PeerHead × Body} (h : MemoriesWf s) : MemoriesWf (s.portSend die f) := by
  unfold State.portSend
  extract_lets w plane wait best
  clear_value best
  split
  · split <;> exact h.modFw _
  · exact h.modFw _

theorem MemoriesWf.portCredit {s : State} {port plane : Nat} (h : MemoriesWf s) : MemoriesWf (s.portCredit port plane) := by
  unfold State.portCredit
  split
  · exact h
  · extract_lets s1
    have hs1 : MemoriesWf s1 := h.modFw _
    split
    · exact hs1
    · split
      · exact hs1.modFw _
      · exact hs1

theorem MemoriesWf.portDies {s : State} {port : Nat} (h : MemoriesWf s) : MemoriesWf (s.portDies port) := by
  unfold State.portDies
  split
  · exact h
  · exact h.of_eq rfl rfl rfl rfl

theorem MemoriesWf.portRefuse {s : State} {port plane beat : Nat} (h : MemoriesWf s) : MemoriesWf (s.portRefuse port plane beat) := by
  unfold State.portRefuse
  split
  · exact h
  · extract_lets n
    split
    · exact h.portDies
    · exact h.modFw _

theorem MemoriesWf.leaveFor {s : State} {k : Packet} {retry : Bool} (h : MemoriesWf s) : MemoriesWf (s.leaveFor k retry) := h.portSend

theorem MemoriesWf.goOut {s : State} {k : Packet} (h : MemoriesWf s) : MemoriesWf (s.goOut k) := (h.setNode _ _).leaveFor

theorem MemoriesWf.passOn {s : State} {agent : Nat} {h' : PeerHead} {b : Body} (h : MemoriesWf s) : MemoriesWf (s.passOn agent h' b) := h.sendNs

theorem MemoriesWf.peerReply {s : State} {agent : Nat} {h' : PeerHead} {b : Body} (h : MemoriesWf s) : MemoriesWf (s.peerReply agent h' b) := h.passOn

theorem MemoriesWf.ingressDone {s : State} {r : Req} {h' : PeerHead} {bytes : List Byte} {ans : Answer} (h : MemoriesWf s) :
    MemoriesWf (s.ingressDone r h' bytes ans) := by
  unfold State.ingressDone
  extract_lets b x
  split
  · split
    · exact MemoriesWf.peerReply (h.of_eq rfl rfl rfl rfl)
    · exact h.peerReply
  · exact h.peerReply
  · refine MemoriesWf.peerReply ?_
    split
    · exact h.retain
    · exact h

/-! ## Answer -/

theorem MemoriesWf.countDrain {s : State} {r : Req} {ans : Answer} (h : MemoriesWf s) : MemoriesWf (s.countDrain r ans) := by
  unfold State.countDrain
  split
  · exact h
  · split
    · exact h
    · exact h.modGroup _ _ _

theorem MemoriesWf.answerFault {s : State} {r : Req} {code : BitVec 8} {detail : BitVec 4} (h : MemoriesWf s) :
    MemoriesWf (s.answerFault r code detail) := by
  unfold State.answerFault
  split
  · exact h
  · exact h.reportFault

theorem MemoriesWf.answerBad {s : State} {r : Req} {ans : Answer} (h : MemoriesWf s) : MemoriesWf (s.answerBad r ans) := by
  unfold State.answerBad
  split
  · exact h
  · split
    · exact h.consumePoison
    · exact h
  · exact h.answerFault

theorem MemoriesWf.modAsker {s : State} {r : Req} {f : Thread → Thread} (h : MemoriesWf s) : MemoriesWf (s.modAsker r f) := by
  unfold State.modAsker
  split
  · exact h.modThread _ _ _
  · exact h

theorem MemoriesWf.askerAcquire {s : State} {r : Req} (h : MemoriesWf s) : MemoriesWf (s.askerAcquire r) := by
  unfold State.askerAcquire
  split
  · exact h
  · split
    · exact h
    · exact h.acquire

theorem MemoriesWf.modEngine {s : State} {id : Nat} {f : EngineOp → EngineOp} (h : MemoriesWf s) : MemoriesWf (s.modEngine id f) :=
  h.of_eq rfl rfl rfl rfl

theorem MemoriesWf.engineWrote {s : State} {e : EngineOp} {n : Nat} (h : MemoriesWf s) : MemoriesWf (s.engineWrote e n) := by
  unfold State.engineWrote
  extract_lets todo s1
  have hs1 : MemoriesWf s1 := h.modEngine
  split
  · exact hs1.barrierUpdate
  · exact hs1

theorem MemoriesWf.engineFault {s : State} {e : EngineOp} {va : Word} {code : BitVec 8} {detail : BitVec 4} (h : MemoriesWf s) :
    MemoriesWf (s.engineFault e va code detail) := by
  unfold State.engineFault
  extract_lets s1
  have hs1 : MemoriesWf s1 := h.modEngine
  split
  · exact hs1
  · exact hs1.reportFault

theorem MemoriesWf.engineDone {s : State} {e : EngineOp} (h : MemoriesWf s) : MemoriesWf (s.engineDone e) := by
  unfold State.engineDone
  split
  · exact h
  · extract_lets s1
    have hs1 : MemoriesWf s1 := h.of_eq rfl rfl rfl rfl
    split
    · exact hs1.modThread _ _ _
    · exact hs1

theorem MemoriesWf.hostCopy {s : State} {a dst n k : Nat} (h : MemoriesWf s) : MemoriesWf (s.hostCopy a dst n k) := by
  induction k generalizing s a dst n with
  | zero => exact h
  | succ k ih =>
    unfold State.hostCopy
    split
    · exact h
    · exact ih (hostWrite_keeps h)

theorem MemoriesWf.spoilChunk {s : State} {e : EngineOp} {n : Nat} {code : BitVec 8} {detail : BitVec 4} {va : Word} (h : MemoriesWf s) :
    MemoriesWf (s.spoilChunk e n code detail va) := by
  unfold State.spoilChunk
  split
  · exact h
  · exact MemoriesWf.modEngine (h.of_eq rfl rfl rfl rfl)

theorem MemoriesWf.pump {s : State} {id k : Nat} (h : MemoriesWf s) : MemoriesWf (s.pump id k) := by
  induction k generalizing s with
  | zero => exact h
  | succ k ih =>
    unfold State.pump
    split
    · exact h
    · split
      · exact h.engineDone
      · extract_lets n s1 rt s2
        have hs1 : MemoriesWf s1 := h.modEngine
        have hs2 : MemoriesWf s2 := by
          unfold s2
          split
          · exact hs1.l1Drop
          · exact hs1
        split
        · exact ih h.spoilChunk
        · split
          · exact ih h.engineWrote
          · split
            · split
              · split
                · exact ih hs1.hostCopy.engineWrote
                · exact ask_keeps hs1 _ _
              · exact ask_keeps hs1 _ _
            · split
              · exact ih ((hostWrite_keeps hs1).engineWrote)
              · exact ask_keeps hs2 _ _

theorem MemoriesWf.startEngine {s : State} {e : EngineOp} (h : MemoriesWf s) : MemoriesWf (s.startEngine e) := by
  unfold State.startEngine
  extract_lets s1 s2
  have hs1 : MemoriesWf s1 := h.of_eq rfl rfl rfl rfl
  have hs2 : MemoriesWf s2 := by
    unfold s2
    split
    · split
      · exact hs1.barrierUpdate
      · exact hs1
    · exact hs1
  exact hs2.pump

theorem MemoriesWf.engineData {s : State} {r : Req} {id dst n : Nat} {bytes : List Byte} {ans : Answer} (h : MemoriesWf s) :
    MemoriesWf (s.engineData r id dst n bytes ans) := by
  unfold State.engineData
  split
  · exact h
  · split
    · split
      · exact h.engineWrote.engineFault.pump
      · exact h.spoilChunk.pump
    · split
      · exact h.modEngine.pump
      · split
        · exact (((hostWrite_keeps h).modEngine).engineWrote).pump
        · extract_lets rt s1 s2
          have hs1 : MemoriesWf s1 := by
            unfold s1
            split
            · exact h.l1Drop
            · exact h
          have hs2 : MemoriesWf s2 := hs1.modEngine
          exact ask_keeps hs2 _ _

theorem MemoriesWf.engineAck {s : State} {r : Req} {id n : Nat} {ans : Answer} (h : MemoriesWf s) : MemoriesWf (s.engineAck r id n ans) := by
  unfold State.engineAck
  split
  · exact h
  · extract_lets s1 s2
    have hs1 : MemoriesWf s1 := h.engineWrote
    have hs2 : MemoriesWf s2 := by
      unfold s2
      split
      · split
        · exact hs1.engineFault
        · exact hs1
      · exact hs1.engineFault
      · exact hs1
    exact hs2.pump

theorem MemoriesWf.sendSlot {s : State} {p : Nat} {v : EvSlot} (h : MemoriesWf s) : MemoriesWf (s.sendSlot p v) := by
  unfold State.sendSlot
  extract_lets vt s1
  have hs1 : MemoriesWf s1 := h.modCore_sp _ fun _ => rfl
  exact ask_keeps hs1 _ _

theorem MemoriesWf.sendRecord {s : State} {src dst : Nat} {vt : BitVec 32} {r : BitVec 128} (h : MemoriesWf s) :
    MemoriesWf (s.sendRecord src dst vt r) := by
  unfold State.sendRecord
  split
  · exact h.ownRecord
  · exact ask_keeps h _ _

theorem MemoriesWf.badElem {s : State} {p slot : Nat} {handler : Bool} {va : Word} {ctx : Bool} {e : Nat} {ans : Answer} (h : MemoriesWf s) :
    MemoriesWf (s.badElem p slot handler va ctx e ans) := by
  unfold State.badElem
  split
  · exact h
  · extract_lets s1
    have hs1 : MemoriesWf s1 := h.modRect _ _
    split
    · exact hs1.beginContain
    · exact hs1.modCore_sp _ fun _ => Core.modCtx_sp _ _ _
  · split
    · exact h.reportFault
    · exact h.modCore_sp _ fun _ => Core.modCtx_sp _ _ _

theorem MemoriesWf.elemBad {s : State} {r : Req} {ctx : Bool} {e : Nat} {ans : Answer} (h : MemoriesWf s) : MemoriesWf (s.elemBad r ctx e ans) :=
  h.badElem

theorem MemoriesWf.abandonWait {s : State} {w : Req} (h : MemoriesWf s) : MemoriesWf (s.abandonWait w) := by
  unfold State.abandonWait
  extract_lets s1
  have hs1 : MemoriesWf s1 := h.of_eq rfl rfl rfl rfl
  split
  · exact hs1
  · split
    · exact hs1
    · extract_lets x s2
      have hs2 : MemoriesWf s2 := hs1.setThread _ _ _
      split
      · exact hs2.takeTrap _ _ _
      · exact hs2

theorem MemoriesWf.druFree {s : State} {d e : Nat} (h : MemoriesWf s) : MemoriesWf (s.druFree d e) := h.of_eq rfl rfl rfl rfl

theorem MemoriesWf.druBad {s : State} {d e : Nat} {ans : Answer} (h : MemoriesWf s) : MemoriesWf (s.druBad d e ans) := by
  unfold State.druBad
  split
  · refine MemoriesWf.foldl h fun s1 x hs => ?_
    split
    · exact hs.reportFault
    · exact hs
  · exact h

theorem MemoriesWf.complete {s : State} {r : Req} {bytes : List Byte} {ans : Answer} (h : MemoriesWf s) : MemoriesWf (s.complete r bytes ans) := by
  unfold State.complete
  extract_lets s1 s2 s3 s4
  have hs1 : MemoriesWf s1 := h.of_eq rfl rfl rfl rfl
  have hs2 : MemoriesWf s2 := hs1.countDrain
  have hs3 : MemoriesWf s3 := hs2.modCore_sp _ fun _ => rfl
  have hs4 : MemoriesWf s4 := by
    unfold s4
    split
    · exact hs2
    · exact hs2.of_eq rfl rfl rfl rfl
  split
  · split
    · exact hs2.modAsker.modCore_sp _ fun _ => Core.fillWith_sp _ _ _ _
    · exact hs2.modAsker.answerBad
  · split
    · exact hs2.modAsker
    · exact hs2.modAsker.answerBad
  · split
    · exact hs2.modAsker.modCore_sp _ fun _ => Core.fillWith_sp _ _ _ _
    · exact hs2.answerBad
  · exact hs2.answerBad
  · split
    · extract_lets s5
      have hs5 : MemoriesWf s5 := hs2.modAsker
      split
      · exact hs5.askerAcquire
      · exact hs5
    · exact hs2.modAsker.answerBad
    · exact hs2.modAsker.answerBad
  · split
    · exact hs2.modAsker
    · exact hs2.modAsker.answerBad
  · split
    · exact hs2.modAsker.askerAcquire
    · exact hs2.modAsker.answerBad
  · split
    · exact hs2.modCore_sp _ fun _ => rfl
    · exact hs2.modCore_sp _ fun _ => rfl
    · exact hs2.answerFault
  · exact hs2.engineData
  · exact hs2.engineAck
  · exact hs2.druBad.druFree
  · split
    · exact hs3
    · exact hs3.countEvDrop _
  · split
    · exact hs2
    · exact (hs2.countDrop _).answerBad
  · split
    · exact hs2.modCore_sp _ fun _ => rfl
    · exact hs2.modThread _ _ _
  · split
    · exact hs2.abandonWait
    · exact hs2
  · split
    · split
      · exact hs2
      · exact hs2.ownRecord
    · exact hs2
  · split
    · split
      · exact hs2
      · exact hs2.ownRecord
    · exact hs2
  · exact hs2
  · exact hs2.ingressDone
  · split
    · exact hs2.modCore_sp _ fun _ => (Core.fillWith_sp _ _ _ _).trans (Core.modCtx_sp _ _ _)
    · exact hs2.elemBad
  · split
    · exact hs2.modCore_sp _ fun _ => (Core.fillWith_sp _ _ _ _).trans (Core.modCtx_sp _ _ _)
    · exact hs2.elemBad
  · exact hs2.elemBad
  · split
    · exact hs4
    · split
      · exact hs4.countEvDrop _
      · exact hs4

theorem MemoriesWf.lost {s : State} {r : Req} (h : MemoriesWf s) : MemoriesWf (s.lost r) := by
  unfold State.lost
  split <;> exact h.complete

/-! ## CoreRegs -/

theorem MemoriesWf.writeTrcctl {s : State} {p : Nat} {v : Word} (h : MemoriesWf s) : MemoriesWf (s.writeTrcctl p v) := by
  unfold State.writeTrcctl
  extract_lets v1 v2
  split
  · refine MemoriesWf.traceDrain ?_ _
    exact h.modCore_sp _ fun _ => rfl
  · exact h.modCore_sp _ fun _ => rfl

theorem MemoriesWf.ctlWrite {s : State} {p off : Nat} {v : Word} (h : MemoriesWf s) : MemoriesWf (s.ctlWrite p off v) := by
  unfold State.ctlWrite
  split
  · split
    · exact h.l1Clear
    · exact h
  · exact h.modCore_sp _ fun _ => rfl
  · exact h.modCore_sp _ fun _ => rfl
  · exact h.modCore_sp _ fun _ => Core.writeInbctl_sp _ _
  · exact h.modCore_sp _ fun _ => rfl
  · exact h.modCore_sp _ fun _ => rfl
  · exact h.modCore_sp _ fun _ => rfl
  · exact h.modCore_sp _ fun _ => rfl
  · exact h.modCore_sp _ fun _ => rfl
  · exact h.modCore_sp _ fun _ => rfl
  · exact h.modCore_sp _ fun _ => rfl
  · exact h.modCore_sp _ fun _ => rfl
  · exact h.modCore_sp _ fun _ => rfl
  · exact h.modCore_sp _ fun _ => rfl
  · exact h.modCore_sp _ fun _ => rfl
  · exact h.modCore_sp _ fun _ => rfl
  · exact h.writeTrcctl
  · exact h.modCore_sp _ fun _ => rfl
  · exact h.modCore_sp _ fun _ => rfl
  · exact h.modCore_sp _ fun _ => rfl
  · exact h

theorem MemoriesWf.coreRequest {s : State} {p lid : Nat} {gen : Option Nat} {b : Body} {ia : Nat} {who : Who} (h : MemoriesWf s) :
    MemoriesWf (s.coreRequest p lid gen b ia who).1 := by
  unfold State.coreRequest
  extract_lets refuse
  split
  · exact h.spRequest
  · split
    · exact h
    · split
      · exact h
      · exact h
      · dsimp only
        exact h.modCore_sp _ fun _ => Core.accWrite_sp _ _ _
      · dsimp only
        exact h.modCore_sp _ fun _ => Core.accWrite_sp _ _ _
      · exact h
  · split
    · exact h
    · split
      · exact h
      · dsimp only
        exact h.ctlWrite
      · exact h
  · exact h
  · exact h

/-! ## Access -/

theorem MemoriesWf.atOwn {s : State} {l : Launch} {b : Body} {ia : Nat} {rd : Reg} (h : MemoriesWf s) : MemoriesWf (s.atOwn l b ia rd).1 :=
  h.coreRequest

theorem MemoriesWf.issued {s : State} {t : Thread} {va : Word} {ia n : Nat} {rd wr : Bool} (h : MemoriesWf s) :
    MemoriesWf (s.issued t va ia n rd wr) := by
  unfold State.issued
  refine MemoriesWf.watchIssue ?_
  refine MemoriesWf.retire ?_ _ _
  split
  · exact h.l1Drop
  · exact h

theorem MemoriesWf.ownFault {s : State} {t : Thread} {va : Word} {ans : Answer} (h : MemoriesWf s) : MemoriesWf (s.ownFault t va ans) := by
  unfold State.ownFault
  split
  · exact h.reportFault
  · exact h

theorem MemoriesWf.flushDale {s : State} {d : Nat} {f : DruEntry → Bool} (h : MemoriesWf s) : MemoriesWf (s.flushDale d f).1 := by
  unfold State.flushDale
  extract_lets mine s1
  have hs1 : MemoriesWf s1 := by
    unfold s1
    refine MemoriesWf.foldl h fun s3 x hs => ?_
    extract_lets s2 rt
    have hs2 : MemoriesWf s2 := hs.of_eq rfl rfl rfl rfl
    exact ask_keeps hs2 _ _
  exact hs1

theorem MemoriesWf.druReduce {s : State} {d ia : Nat} {w : AtomWidth} {op : RedOp} {v : Word} {lid : Nat} {who : Nat × Nat × Nat × Word × Bool}
    (h : MemoriesWf s) : MemoriesWf (s.druReduce d ia w op v lid who).1 := by
  unfold State.druReduce
  extract_lets same s1
  have hs1 : MemoriesWf s1 := h.flushDale
  split
  · extract_lets v1
    dsimp only
    exact h.of_eq rfl rfl rfl rfl
  · split
    · dsimp only
      exact hs1.of_eq rfl rfl rfl rfl
    · split
      · dsimp only
        exact hs1.flushDale
      · exact hs1

/-! ## Memory -/

theorem MemoriesWf.sleepForReply {s : State} {t : Thread} (h : MemoriesWf s) : MemoriesWf (s.sleepForReply t) := by
  unfold State.sleepForReply
  split
  · exact h.setCur _
  · exact h

/-! ## Checks -/

theorem MemoriesWf.sendHeld {s : State} {p lid : Nat} {l : List (Nat × Nat)} (h : MemoriesWf s) : MemoriesWf (s.sendHeld p lid l) :=
  h.foldl fun _ _ hs => ask_keeps hs _ _

theorem MemoriesWf.logCheck {s : State} {base : Word} {slots : Nat} {e : List Byte} (h : MemoriesWf s) : MemoriesWf (s.logCheck base slots e) :=
  (h.fwStore _ _).modFw _

theorem MemoriesWf.remotePush {s : State} {p q : Nat} {r : List Byte} {slot : Option Nat} {lid : Nat} {mark : Option (Nat × Bool)}
    (h : MemoriesWf s) : MemoriesWf (s.remotePush p q r slot lid mark) := by
  unfold State.remotePush
  extract_lets c
  refine ask_keeps ?_ _ _
  exact h.modCore_sp _ fun _ => rfl

theorem MemoriesWf.checkCore {s : State} {l : Launch} {cands : List Nat} {q : Nat} {u : State} (h : MemoriesWf s)
    (e : s.checkCore l cands = some (q, u)) : MemoriesWf u := by
  obtain ⟨k, _, hk⟩ := Option.map_eq_some_iff.1 e
  cases hk
  exact h.modLaunch _ fun _ => rfl

theorem MemoriesWf.openCheck {s : State} {p : Nat} {l : Launch} {g : Group} (h : MemoriesWf s) : MemoriesWf (s.openCheck p l g) := by
  unfold State.openCheck
  extract_lets cands
  split
  · exact h.logCheck.sendHeld
  next _ _ _ e =>
    exact MemoriesWf.remotePush ((h.checkCore e).of_eq rfl rfl rfl rfl)

theorem MemoriesWf.candidateEnd {s : State} {p : Nat} {l : Launch} {g : Group} (h : MemoriesWf s) : MemoriesWf (s.candidateEnd p l g) := by
  unfold State.candidateEnd
  split
  · exact h.sendHeld
  · split
    · exact h.sendHeld
    · extract_lets a
      split
      · exact MemoriesWf.sendHeld (h.modCore_sp _ (fun _ => rfl))
      · exact MemoriesWf.openCheck (h.modCore_sp _ (fun _ => rfl))

theorem MemoriesWf.checkRunEnd {s : State} {k : CheckRun} {digest : BitVec 128} (h : MemoriesWf s) : MemoriesWf (s.checkRunEnd k digest) :=
  h.of_eq rfl rfl rfl rfl

theorem MemoriesWf.cleanCheck {s : State} {p : Nat} (h : MemoriesWf s) : MemoriesWf (s.cleanCheck p) := h.modFw _

theorem MemoriesWf.blame {s : State} {k : Check} {p : Nat} (h : MemoriesWf s) : MemoriesWf (s.blame k p) := h.modFw _

theorem MemoriesWf.shutCheck {s : State} {k : Check} {cls : Option Nat} {send : Bool} (h : MemoriesWf s) : MemoriesWf (s.shutCheck k cls send) := by
  unfold State.shutCheck
  extract_lets s1 s2
  have hs1 : MemoriesWf s1 := h.of_eq rfl rfl rfl rfl
  have hs2 : MemoriesWf s2 := by
    unfold s2
    split
    · exact hs1.logCheck
    · exact hs1
  split
  · exact hs2.sendHeld
  · exact hs2.modLaunch _ fun _ => rfl

theorem MemoriesWf.closeCheck {s : State} {k : Check} (h : MemoriesWf s) : MemoriesWf (s.closeCheck k) := by
  unfold State.closeCheck
  split
  · exact h
  · exact h.shutCheck
  next d _ =>
    split
    · exact (h.cleanCheck.cleanCheck.modFw _).shutCheck
    · split
      · split
        · exact h.shutCheck
        next q u hq =>
          obtain ⟨l, _, hl⟩ := Option.bind_eq_some_iff.1 hq
          have hu : MemoriesWf u := h.checkCore hl
          refine MemoriesWf.remotePush ?_
          exact hu.of_eq rfl rfl rfl rfl
      · split
        · exact h
        · exact h.shutCheck
        · split
          · exact h.blame.shutCheck
          · split
            · exact h.blame.shutCheck
            · exact h.blame.blame.blame.shutCheck

theorem MemoriesWf.quarantine {s : State} (h : MemoriesWf s) : MemoriesWf s.quarantine := by
  unfold State.quarantine
  extract_lets q
  split
  · exact h
  · exact h.modFw _

theorem MemoriesWf.moveCheck {s : State} {l : Launch} {p : Nat} {r : List Byte} {m : Nat × Bool} (h : MemoriesWf s) :
    MemoriesWf (s.moveCheck l p r m) := by
  unfold State.moveCheck
  split
  · exact h
  · split
    · exact h.checkRunEnd
    next _ _ _ e =>
      exact MemoriesWf.remotePush ((h.checkCore e).of_eq rfl rfl rfl rfl)

/-! ## Clock -/

theorem MemoriesWf.elapse {s : State} {ns : Nat} (h : MemoriesWf s) : MemoriesWf (s.elapse ns) := h.of_eq rfl rfl rfl rfl

/-! ## Tasks -/

theorem MemoriesWf.discardTask {s : State} {p reason : Nat} {r : List Byte} (h : MemoriesWf s) : MemoriesWf (s.discardTask p reason r) := h.ownRecord

theorem MemoriesWf.receivePush {s u : State} {p : Nat} {vt : BitVec 32} {r : List Byte} {mark : Option (Nat × Bool)}
    (h : MemoriesWf s)
    (e : s.receivePush p vt r mark = some u) : MemoriesWf u := by
  unfold State.receivePush at e
  have hs (x : BitVec 32) : MemoriesWf (s.modCore p fun c => { c.leaveUnbounded vt with xferRecv := x }) := h.modCore_sp _ fun _ => by simp
  extract_lets c s1 at e
  have hs : MemoriesWf s1 := h.modCore_sp _ fun _ => by simp
  split at e
  · cases e
  · split at e
    · cases e; exact hs.countDrop _
    · cases e
      split
      · exact hs.discardTask
      · exact hs.moveCheck
      · exact hs.remotePush
      · exact hs.modCore_sp _ fun _ => rfl

theorem MemoriesWf.startGroup {s : State} {p : Nat} {l : Launch} {r : List Byte} {mark : Option (Nat × Bool)} {member : Option Nat} (h : MemoriesWf s) :
    MemoriesWf (s.startGroup p l r mark member) := by
  unfold State.startGroup
  extract_lets c len spans slots ctxs gid
  split
  · exact h
  next base _ =>
    extract_lets va g c1 c2 one c3
    have hone : ∀ c e, (one c e).sp = c.sp := fun c e => by
      unfold one
      extract_lets ctx c'
      clear_value ctx
      split
      · exact Core.modCtx_sp _ _ _
      · rfl
    have hc2 : Memory.wf c2.sp = true := spStorePhys_wf c1 base r false (h.core p)
    have hc3 : Memory.wf c3.sp = true := sp_wf_of_eq (foldl_sp one hone _ c2) hc2
    exact (h.setCore p hc3).modLaunch _ fun _ => rfl

theorem MemoriesWf.startTop {s : State} {p : Nat} (h : MemoriesWf s) : MemoriesWf (s.startTop p) := by
  unfold State.startTop
  extract_lets c
  split
  · split
    · exact h
    · split
      · exact MemoriesWf.discardTask (h.modCore_sp _ (fun _ => Core.pop_sp _))
      · split
        · exact MemoriesWf.moveCheck (h.modCore_sp _ (fun _ => Core.pop_sp _))
        · exact MemoriesWf.remotePush (h.modCore_sp _ (fun _ => Core.pop_sp _))
      · split
        · exact MemoriesWf.startGroup (h.modCore_sp _ (fun _ => Core.pop_sp _))
        · exact h
  · exact h

theorem MemoriesWf.storeWords {s : State} {t : Thread} {g : Group} {l : Launch} {va : Word} {r : List Byte} (h : MemoriesWf s) :
    MemoriesWf (storeWords s t g l va r) := by
  unfold Machine.storeWords
  refine MemoriesWf.foldl h fun s2 x hs => ?_
  extract_lets a bs
  split
  · exact hs
  · extract_lets ia s1 rt
    have hs1 : MemoriesWf s1 := hs.l1Drop
    split
    · exact hs1.atOwn
    · exact ask_keeps hs1 _ _

theorem MemoriesWf.exitThread {s : State} {p slot : Nat} {t : Thread} {g : Group} (h : MemoriesWf s) : MemoriesWf (s.exitThread p slot t g) := by
  unfold State.exitThread
  extract_lets t1 s1
  have hs1 : MemoriesWf s1 := h.modCore_sp _ fun _ => by split <;> simp
  exact hs1.modGroup _ _ _

theorem MemoriesWf.sleepAt {s : State} {t : Thread} {w : Sleep} (h : MemoriesWf s) : MemoriesWf (s.sleepAt t w) := h.setCur _

/-! ## System -/

theorem MemoriesWf.csrPut {s : State} {t : Thread} {hp : Nat} {c : BitVec 12} {v : Word} (h : MemoriesWf s) : MemoriesWf (s.csrPut t hp c v).1 := by
  unfold State.csrPut
  split
  · exact h
  · exact h
  · exact h
  · exact h
  · exact h
  · dsimp only
    exact h.modGroup _ _ _
  · exact h
  · exact h
  · exact h
  · dsimp only
    exact h.modCore_sp _ fun _ => rfl
  · dsimp only
    exact h.modCore_sp _ fun _ => rfl
  · exact h

theorem MemoriesWf.sendEvent {s : State} {p dst stream index : Nat} {vt units : BitVec 32} {who : Nat} {owner : Option (Nat × Nat)}
    (h : MemoriesWf s) : MemoriesWf (s.sendEvent p dst stream index vt units who owner) :=
  MemoriesWf.sendSlot (h.modCore_sp _ (fun _ => rfl))

/-! ## Fetch -/

theorem MemoriesWf.fetchTrap {s : State} {t : Thread} {tr : Trap} (h : MemoriesWf s) : MemoriesWf (s.fetchTrap t tr) := h.trap _

/-! ## Dump -/

theorem MemoriesWf.writeDump {s : State} {addr : Word} {p : Nat} {g : Group} {reason : Nat} (h : MemoriesWf s) :
    MemoriesWf (s.writeDump addr p g reason) :=
  (h.fwStore _ _).foldl fun _ _ hs => hs.fwStore _ _

theorem MemoriesWf.recordTermination {s : State} {p : Nat} {g : Group} {d : Dying} (h : MemoriesWf s) : MemoriesWf (s.recordTermination p g d) := by
  unfold State.recordTermination
  extract_lets dumps dslot s1
  have hs1 : MemoriesWf s1 := by
    unfold s1
    split
    · exact h.writeDump.modFw _
    · exact h
  exact (hs1.fwStore _ _).modFw _

/-! ## Registers -/

theorem MemoriesWf.modQueue {s : State} {q : Nat} {f : Queue → Queue} (h : MemoriesWf s) : MemoriesWf (s.modQueue q f) := setQueue_keeps h _ _

theorem MemoriesWf.postHeld {s : State} {q n : Nat} (h : MemoriesWf s) : MemoriesWf (s.postHeld q n) := by
  induction n generalizing s with
  | zero => exact h
  | succ n ih =>
    unfold State.postHeld
    extract_lets v
    split
    · exact h
    · split
      · exact ih ((postCpl_keeps (setQueue_keeps h _ _) _ _).modQueue)
      · exact h

theorem MemoriesWf.haltQueue {s : State} {q err : Nat} (h : MemoriesWf s) : MemoriesWf (s.haltQueue q err) := by
  unfold State.haltQueue
  extract_lets s1
  have hs1 : MemoriesWf s1 := h.modQueue
  split
  · exact writeStatus_keeps hs1 _
  · split
    · exact postCpl_keeps hs1 _ _
    · exact writeStatus_keeps hs1 _

theorem MemoriesWf.restartQueue {s : State} {q : Nat} (h : MemoriesWf s) : MemoriesWf (s.restartQueue q) := writeStatus_keeps (setQueue_keeps h _ _) _

theorem MemoriesWf.stopQueue {s : State} {q : Nat} (h : MemoriesWf s) : MemoriesWf (s.stopQueue q) := by
  unfold State.stopQueue
  extract_lets v
  split
  · exact writeStatus_keeps (setQueue_keeps h _ _) _
  · exact setQueue_keeps h _ _

theorem MemoriesWf.startQueue {s : State} {q : Nat} {restart : Bool} (h : MemoriesWf s) : MemoriesWf (s.startQueue q restart) := by
  unfold State.startQueue
  extract_lets s1
  have hs1 : MemoriesWf s1 := h.modQueue
  split
  · exact hs1.haltQueue
  · split
    · exact hs1.restartQueue
    · exact writeStatus_keeps hs1.modQueue _

theorem MemoriesWf.applyPoints {s : State} (h : MemoriesWf s) : MemoriesWf s.applyPoints := h.modFw _

theorem MemoriesWf.writePoint {s : State} {b : Nat} {v : Word} (h : MemoriesWf s) : MemoriesWf (s.writePoint b v) := (h.modFw _).applyPoints

theorem MemoriesWf.writeQctl {s : State} {q : Nat} {v : Word} (h : MemoriesWf s) : MemoriesWf (s.writeQctl q v) := by
  unfold State.writeQctl
  split
  · exact h
  · extract_lets was s1
    have hs1 : MemoriesWf s1 := h.modQueue
    split
    · exact hs1.startQueue
    · split
      · exact hs1.stopQueue
      · exact hs1

theorem MemoriesWf.writeDesc {s : State} {q o : Nat} {v : Word} (h : MemoriesWf s) : MemoriesWf (s.writeDesc q o v) := by
  unfold State.writeDesc
  split
  · exact h.modQueue
  · exact h.modQueue
  · exact h.modQueue
  · exact h.modQueue
  · exact h.modQueue
  · exact h.writeQctl
  · exact h

theorem MemoriesWf.writeXinv {s : State} {v : Word} (h : MemoriesWf s) : MemoriesWf (s.writeXinv v) := h.modFw _

theorem MemoriesWf.writePeerWin {s : State} {i : Nat} {v : BitVec 128} (h : MemoriesWf s) : MemoriesWf (s.writePeerWin i v) := h.modFw _

theorem MemoriesWf.devWrite {s : State} {o : Nat} {v w1 : Word} (h : MemoriesWf s) : MemoriesWf (s.devWrite o v w1) := by
  unfold State.devWrite
  split
  · split
    · exact h
    · exact h.writeDesc
  · split
    · exact h.writePoint
    · split
      · exact h.writePeerWin
      · exact h.modFw _

theorem MemoriesWf.devStoreWord {s : State} {o : Nat} {bs : List Byte} (h : MemoriesWf s) : MemoriesWf (s.devStoreWord o bs) := h.devWrite

theorem MemoriesWf.devStore {s : State} {o n : Nat} {bs : List Byte} (h : MemoriesWf s) : MemoriesWf (s.devStore o bs n) := by
  induction n generalizing s o bs with
  | zero => exact h
  | succ n ih =>
    unfold State.devStore
    split
    · exact h
    · exact ih h.devStoreWord

theorem MemoriesWf.eccEvent {s : State} {block : Nat} {carve : Bool} {o : EccOutcome} {demand : Bool} (h : MemoriesWf s) :
    MemoriesWf (s.eccEvent block carve o demand) := by
  unfold State.eccEvent
  split
  · exact h
  · extract_lets poisons s1 ev s2
    have hs1 : MemoriesWf s1 := by
      unfold s1
      split
      · exact h.of_eq rfl rfl rfl rfl
      · exact h.modRect _ _
    have hs2 : MemoriesWf s2 := hs1.fwStore _ _
    exact hs2.modFw _

/-! ## Vector -/

theorem MemoriesWf.elemFault {s : State} {e : Nat} {tr : Trap} (h : MemoriesWf s) : MemoriesWf (s.elemFault e tr) := by
  unfold State.elemFault
  split <;> exact h.trap _

theorem MemoriesWf.modCtx {s : State} {p : Nat} {k : Bool} {f : VCtx → VCtx} (h : MemoriesWf s) : MemoriesWf (s.modCtx p k f) :=
  h.modCore_sp _ fun _ => Core.modCtx_sp _ _ _

theorem MemoriesWf.foldRun {s : State} {p : Nat} {g : Group} {k : VCmd} {r : VRun} {size : Nat} {bytes : List Byte} (h : MemoriesWf s) :
    MemoriesWf (s.foldRun p g k r size bytes) :=
  h.foldl fun _ _ hs => hs.modThread _ _ _

theorem MemoriesWf.startRun {s : State} {p : Nat} {ctx : Bool} {k : VCmd} {r : VRun} (h : MemoriesWf s) : MemoriesWf (s.startRun p ctx k r) := by
  unfold State.startRun
  split
  · exact h
  · split
    · exact h
    · extract_lets load size data watch note put ask byp fills off line s1
      have hs1 : MemoriesWf s1 := h.foldRun.l1Drop
      split
      · exact MemoriesWf.voidRun (h.of_eq rfl rfl rfl rfl)
      · exact h.foldRun
      · split
        · split
          · split
            next _ _ _ e =>
              exact ((MemoriesWf.of_fst e h.coreRequest).watchIssue).modCtx
            next _ _ _ _ _ e1 =>
              exact ((MemoriesWf.of_fst e1 h.coreRequest).watchIssue).badElem
            · exact h
          · split
            · exact MemoriesWf.modCtx (MemoriesWf.watchIssue (h.modCore_sp _ (fun _ => Core.l1Touch_sp _ _ _)))
            · exact (ask_keeps h _ _).watchIssue
        · split
          · split
            next _ _ _ _ e2 =>
              exact ((MemoriesWf.of_fst e2 hs1.coreRequest).watchIssue).badElem
            · exact hs1
          · exact (ask_keeps hs1 _ _).watchIssue

theorem MemoriesWf.sdElem {s : State} {p : Nat} {ctx : Bool} {k : VCmd} {r : VRun} (h : MemoriesWf s) : MemoriesWf (s.sdElem p ctx k r) := by
  unfold State.sdElem
  extract_lets c off w x u out s1
  have hs1 : MemoriesWf s1 := h.modCore _ fun _ hs => spStore_wf _ _ _ hs
  split
  · exact MemoriesWf.voidRun (h.of_eq rfl rfl rfl rfl)
  · exact (hs1.modThread _ _ _).modCtx

theorem MemoriesWf.sdSend {s u : State} {p : Nat} {ctx : Bool} {k : VCmd} {e : SdSend} (h : MemoriesWf s)
    (hu : s.sdSend p ctx k e = some u) : MemoriesWf u := by
  unfold State.sdSend at hu
  split at hu
  · cases hu
  · extract_lets folded at hu
    have hf : MemoriesWf folded := (h.modThread _ _ _).modCtx
    split at hu
    · exact Option.some.inj hu ▸ hf
    · split at hu
      · exact Option.some.inj hu ▸ hf.countEvDrop _
      · split at hu
        · cases hu
          exact MemoriesWf.modCore_sp hf.sendEvent _ fun _ => rfl
        · cases hu

theorem MemoriesWf.vecBegin {s : State} {p n : Nat} {ctx : Bool} {k : VCmd} (h : MemoriesWf s) : MemoriesWf (s.vecBegin p ctx k n) := by
  induction n generalizing s with
  | zero => exact h
  | succ n ih =>
    unfold State.vecBegin
    extract_lets v
    split
    · split
      next _ _ e =>
        exact ih (h.sdSend e)
      · exact h
    · split
      · exact h
      · split
        · exact h.modCtx
        · split
          · exact ih h.sdElem
          · extract_lets a peer
            split
            · exact h
            · exact ih h.startRun.modCtx

theorem MemoriesWf.vecFinish {s : State} {p : Nat} {ctx : Bool} {k : VCmd} (h : MemoriesWf s) : MemoriesWf (s.vecFinish p ctx k) := by
  unfold State.vecFinish
  extract_lets f s1
  have hs1 : MemoriesWf s1 := h.modCtx
  clear_value f
  split
  · exact hs1.reportFault
  · exact hs1

/-! ## Tile -/

theorem MemoriesWf.networkFetch {s : State} {p q lid ia n : Nat} (h : MemoriesWf s) : MemoriesWf (s.networkFetch p q lid ia n).s := by
  unfold State.networkFetch
  dsimp only
  split
  · exact h
  · exact h.of_eq rfl rfl rfl rfl

theorem MemoriesWf.operandLine {s : State} {p k : Nat} (h : MemoriesWf s) : MemoriesWf (s.operandLine p k).s := by
  unfold State.operandLine
  split
  · exact h.modCore_sp p fun c => Core.l1Touch_sp c k false
  · extract_lets off v
    split
    · exact h
    · split
      · exact h.cacheWalk
      · exact h.cacheWalk.modCore_sp p fun _ => rfl

theorem MemoriesWf.operandLines {s : State} {p : Nat} {l : List Nat} {bs : List Byte} (h : MemoriesWf s) : MemoriesWf (s.operandLines p l bs).s := by
  induction l generalizing s bs with
  | nil => exact h
  | cons k t ih =>
    unfold State.operandLines
    dsimp only
    split
    · exact ih h.operandLine
    · exact h.operandLine

theorem MemoriesWf.tileFetch {s : State} {p : Nat} {o : TileOp} {ia n : Nat} (h : MemoriesWf s) : MemoriesWf (s.tileFetch p o ia n).s := by
  unfold State.tileFetch
  split
  · split
    · exact h
    · exact h.networkFetch
  · exact h.operandLines
  · exact h

theorem MemoriesWf.tileFetchAll {s : State} {p : Nat} {o : TileOp} {x : List (Nat × Nat)} {x' : List (List Byte)} (h : MemoriesWf s) :
    MemoriesWf (s.tileFetchAll p o x x').1 := by
  induction x generalizing s x' with
  | nil => exact h
  | cons e t ih =>
    unfold State.tileFetchAll
    dsimp only
    split
    · exact ih h.tileFetch
    · exact h.tileFetch

theorem MemoriesWf.putTile {s : State} {p : Nat} {queue : Bool} {o : TileOp} (h : MemoriesWf s) : MemoriesWf (s.putTile p queue o) :=
  h.modCore_sp _ fun _ => by split <;> rfl

theorem MemoriesWf.endTile {s : State} {p : Nat} {queue : Bool} {o : TileOp} {status : Nat} (h : MemoriesWf s) :
    MemoriesWf (s.endTile p queue o status) := by
  unfold State.endTile
  extract_lets s1
  have hs1 : MemoriesWf s1 := h.modCore_sp _ fun _ => by split <;> rfl
  split
  · exact hs1.sendRecord
  · exact hs1.modThread _ _ _
  · exact hs1

theorem MemoriesWf.spoilTile {s : State} {p : Nat} {o : TileOp} (h : MemoriesWf s) : MemoriesWf (s.spoilTile p o) := by
  unfold State.spoilTile
  extract_lets m n k u v w
  have hu : MemoriesWf u := h.modCore_sp p fun c => foldl_sp _ (fun c i => Core.accSet_sp c _ _ _) _ c
  have hv : MemoriesWf v := h.modCore_sp p fun c => foldl_sp _ (fun c i => Core.accSet_sp c _ _ _) _ c
  have hw : MemoriesWf w := h.modCore o.home fun c hc => foldl_wf (fun c r hc => by
    dsimp only
    split
    · exact spStore_wf c _ _ hc
    · exact hc) hc
  split
  · exact hu.of_eq rfl rfl rfl rfl
  · exact hv.of_eq rfl rfl rfl rfl
  · exact hw.of_eq rfl rfl rfl rfl
  · split
    next q off _ =>
      extract_lets x
      have hx : MemoriesWf x := h.modCore q fun c hc => foldl_wf (fun c r hc => by
        split
        · exact spStore_wf c _ _ hc
        · exact hc) hc
      exact hx.of_eq rfl rfl rfl rfl
    · exact h
  · exact h

theorem MemoriesWf.failTile {s : State} {p : Nat} {queue : Bool} {o : TileOp} {second : Bool} {ans : Answer} (h : MemoriesWf s) :
    MemoriesWf (s.failTile p queue o second ans) := by
  unfold State.failTile
  extract_lets s1 va status s2 s3
  have hs1 : MemoriesWf s1 := h.spoilTile
  have hs2 : MemoriesWf s2 := hs1.endTile
  have hs3 : MemoriesWf s3 := hs2.modRect _ _
  split
  · split
    · exact hs2.consumePoison
    · exact hs2.reportFault
    · exact hs2
  · split
    · split
      · exact hs3.beginContain
      · exact hs3
    · exact hs2

theorem MemoriesWf.stepDone {s : State} {p : Nat} {queue : Bool} {o : TileOp} (h : MemoriesWf s) : MemoriesWf (s.stepDone p queue o) := by
  unfold State.stepDone
  extract_lets o1
  split
  · exact h.putTile.endTile
  · exact h.putTile

theorem MemoriesWf.foldRow {s : State} {p : Nat} {o : TileOp} {va : Word} {ia : Nat} {bs : List Byte} (h : MemoriesWf s) :
    MemoriesWf (s.foldRow p o va ia bs) := by
  unfold State.foldRow
  split
  · exact h
  · split
    · exact h
    · exact h.foldl fun _ _ hs => hs.modThread _ _ _

theorem MemoriesWf.tileStore {s : State} {p : Nat} {o : TileOp} {va : Word} {ia : Nat} {bs : List Byte} (h : MemoriesWf s) :
    MemoriesWf (s.tileStore p o va ia bs).1 := by
  unfold State.tileStore
  extract_lets s1
  have hs1 : MemoriesWf s1 := h.foldRow
  split
  · split
    · extract_lets c
      split
      · exact hs1
      · split
        · dsimp only
          exact hs1.setCore _ (spStore_wf _ _ _ (hs1.core _))
        · exact hs1
    · exact hs1
  · exact hs1

theorem MemoriesWf.tileStores {s : State} {p : Nat} {o : TileOp} {x : List (Word × Nat × List Byte)} (h : MemoriesWf s) :
    MemoriesWf (s.tileStores p o x).1 := by
  induction x generalizing s with
  | nil => exact h
  | cons e t ih =>
    unfold State.tileStores
    split
    next u hu => exact ih (MemoriesWf.of_fst hu h.tileStore)
    · exact h.tileStore

theorem MemoriesWf.tileReads {s u : State} {p : Nat} {queue : Bool} {o : TileOp} {rs : List (Nat × Nat)} (h : MemoriesWf s) (hu :
    MemoriesWf u) :
    MemoriesWf (s.tileReads p queue o rs u) := by
  unfold State.tileReads
  extract_lets void
  split
  · split
    · exact MemoriesWf.endTile (MemoriesWf.voidRun (h.of_eq rfl rfl rfl rfl))
    · exact h
  · exact hu

theorem MemoriesWf.groupStep {s : State} {p : Nat} {queue : Bool} {o : TileOp} {j : Nat} (h : MemoriesWf s) :
    MemoriesWf (s.groupStep p queue o j) := by
  unfold State.groupStep
  extract_lets r n
  refine MemoriesWf.tileReads h ?_
  split
  next _ _ _ e =>
    split
    next _ _ _ e1 =>
      extract_lets get x o1
      split
      · exact MemoriesWf.stepDone ((MemoriesWf.of_fst e1 ((MemoriesWf.of_fst e h.tileFetchAll).tileFetchAll)).modCore _ (fun _ hs => foldl_wf (fun _ _ hs1 => sp_wf_of_eq (Core.accSet_sp _ _ _ _) hs1) hs))
      · exact (MemoriesWf.of_fst e1 ((MemoriesWf.of_fst e h.tileFetchAll).tileFetchAll)).stepDone
    next _ _ _ _ _ e2 =>
      exact (MemoriesWf.of_fst e2 ((MemoriesWf.of_fst e h.tileFetchAll).tileFetchAll)).failTile
  next _ _ _ _ _ e3 =>
    exact (MemoriesWf.of_fst e3 h.tileFetchAll).failTile

theorem MemoriesWf.tileStep {s : State} {p : Nat} {queue : Bool} {o : TileOp} (h : MemoriesWf s) : MemoriesWf (s.tileStep p queue o) := by
  unfold State.tileStep
  extract_lets o1 s1 c0 cva rs row st rs1
  have hs1 : MemoriesWf s1 := h.of_eq rfl rfl rfl rfl
  split
  · exact hs1.spoilTile.endTile
  · split
    · split
      · exact hs1.endTile
      · exact hs1.groupStep
    · split
      · refine MemoriesWf.tileReads hs1 ?_
        split
        next _ _ _ e =>
          exact (MemoriesWf.of_fst e hs1.tileFetchAll).stepDone
        next _ _ _ _ _ e1 =>
          exact (MemoriesWf.of_fst e1 hs1.tileFetchAll).failTile
      · split
        · exact hs1.groupStep
        · split
          next _ _ e2 =>
            exact (MemoriesWf.of_fst e2 hs1.tileStores).stepDone
          next _ _ _ _ e3 =>
            exact (MemoriesWf.of_fst e3 hs1.tileStores).failTile
    · exact MemoriesWf.stepDone (hs1.modCore_sp _ (fun _ => by split <;> rfl))
    · split
      next _ _ e4 =>
        exact (MemoriesWf.of_fst e4 hs1.tileStores).stepDone
      next _ _ _ _ e5 =>
        exact (MemoriesWf.of_fst e5 hs1.tileStores).failTile
    · refine MemoriesWf.tileReads hs1 ?_
      split
      next _ _ _ e6 =>
        exact MemoriesWf.stepDone ((MemoriesWf.of_fst e6 hs1.tileFetchAll).modCore _ (fun _ hs => foldl_wf (fun _ _ hs2 => sp_wf_of_eq (Core.accWrite_sp _ _ _) hs2) hs))
      next _ _ _ _ _ e7 =>
        exact (MemoriesWf.of_fst e7 hs1.tileFetchAll).failTile

theorem MemoriesWf.matrixAt {s : State} {p src lid : Nat} {key : BitVec 32} {tag : BitVec 8} {op acc desc : Nat} (h : MemoriesWf s) :
    MemoriesWf (s.matrixAt p src lid key tag op acc desc) := by
  unfold State.matrixAt
  extract_lets c refuse d
  split
  · exact h.sendRecord
  · split
    · exact h.sendRecord
    · split
      · exact h.sendRecord
      · split
        · refine MemoriesWf.modCore_sp ?_ _ fun _ => rfl
          exact h.modCore_sp _ fun _ => rfl
        · exact h.modCore_sp _ fun _ => rfl

/-! ## Packet -/

theorem MemoriesWf.takePacket {s u : State} {k : Nat} {f : Body → Bool} {p : Packet} (h : MemoriesWf s)
    (e : s.takePacket k f = some (p, u)) : MemoriesWf u := by
  unfold State.takePacket at e
  split at e
  · split at e <;> cases e
    exact h.of_eq rfl rfl rfl rfl
  · cases e

theorem MemoriesWf.answerDuplicate {s : State} {k : Packet} (h : MemoriesWf s) : MemoriesWf (s.answerDuplicate k) := by
  unfold State.answerDuplicate
  split
  · exact h.answer
  · split
    · split <;> exact h.answer
    · exact h.answer

theorem MemoriesWf.once {s : State} {k : Packet} {f : State → Option State} (h : MemoriesWf s)
    (hf : ∀ s, MemoriesWf s → OptWf (f s)) : MemoriesWf (s.once k f) := by
  unfold State.once
  have hc (s : State) (h : MemoriesWf s) : MemoriesWf (if k.body.counted then s.countRecv k.dst k.colour else s) := by
    split
    · exact h.countRecv
    · exact h
  dsimp only
  split
  · cases e : f s with
    | none => exact h
    | some u => exact hf s h u e
  · split
    · exact h.answerDuplicate
    next u hu =>
      split
      next v hv => exact hf _ (hc u (h.accept hu)) v hv
      · exact MemoriesWf.answer (hc s h)

theorem MemoriesWf.eventAt {s : State} {k : Packet} (h : MemoriesWf s) : MemoriesWf (s.eventAt k) := by
  unfold State.eventAt
  extract_lets p c meets evicted
  have hmeets : ∀ x1, MemoriesWf (meets x1) := by
    intro x1
    unfold meets
    extract_lets x s1 s2
    have hs1 : MemoriesWf s1 := h.setCore _ (sp_wf_of_eq (Core.inboxPut_sp _ _ _) (h.core _))
    have hs2 : MemoriesWf s2 := hs1.setCore _ (hs1.core _)
    split
    · refine MemoriesWf.answer ?_
      split
      · exact hs2.inboxFreed
      · exact hs2
    · exact hs1.answer
  split
  · extract_lets straggler s1 x s11 s2
    have hs1 : MemoriesWf s1 := by
      unfold s1
      split
      · exact h.modCore_sp _ fun _ => rfl
      · exact h
    have hs11 : MemoriesWf s11 := hs1.setCore _ (sp_wf_of_eq (Core.inboxPut_sp _ _ _) (hs1.core _))
    have hs2 : MemoriesWf s2 := hs11.setCore _ (hs11.core _)
    split
    · exact h.answer
    · split
      · exact (h.countEvDrop _).answer
      · split
        · refine MemoriesWf.answer ?_
          split
          · exact hs2.inboxFreed
          · exact hs2
        · exact hs11.answer
  · split
    · exact h.answer
    · split
      · exact (h.countEvDrop _).answer
      · exact hmeets _
  · exact h

theorem MemoriesWf.contextAt {s : State} {k : Packet} {regs : List Word} {pc : Word} {preds : BitVec 8} {hp hs : Nat} {pn : Bool} (h : MemoriesWf s) :
    MemoriesWf (s.contextAt k regs pc preds hp hs pn) := by
  unfold State.contextAt
  extract_lets p c origin homeOk halted xs x c1
  split
  · exact h.dropPacket.answer
  · split
    · split
      · exact h.answer
      · exact MemoriesWf.answer (h.setCore _ (sp_wf_of_eq (Core.setThread_sp _ _ _) (sp_wf_of_eq (Core.leaveUnbounded_sp _ _) (h.core _))))
    · exact h.answer

theorem MemoriesWf.withdrawAt {s : State} {k : Packet} {ns : Bool} {seq : BitVec 16} (h : MemoriesWf s) : MemoriesWf (s.withdrawAt k ns seq) := by
  unfold State.withdrawAt
  extract_lets c mine
  split
  · exact MemoriesWf.answer (h.setCore _ (h.core _))
  · split
    · exact h.of_eq rfl rfl rfl rfl
    · exact h.answer

theorem MemoriesWf.neighbourAt {s : State} {p : Nat} {d : Dir} {v : Word} (h : MemoriesWf s) : MemoriesWf (s.neighbourAt p d v) := by
  unfold State.neighbourAt
  split
  · exact h.dropAt
  · extract_lets r full s1
    have hs1 : MemoriesWf s1 := by
      unfold s1
      split
      · exact h.dropAt
      · exact h
    exact hs1.modCore_sp _ fun _ => rfl

theorem MemoriesWf.turnedAway {s : State} {k : Packet} {b : Body} (h : MemoriesWf s) : MemoriesWf (s.turnedAway k b) := by
  unfold State.turnedAway
  refine MemoriesWf.answer ?_
  split
  · exact h.countRecv
  · exact h

theorem MemoriesWf.bulkWord {s : State} {k : Packet} (h : MemoriesWf s) : MemoriesWf (s.bulkWord k) := by
  unfold State.bulkWord
  split
  next _ _ _ _ e =>
    extract_lets k1
    split
    · exact (MemoriesWf.of_fst e h.coreRequest).answer
    · split
      · exact (MemoriesWf.of_fst e h.coreRequest).answer
      · exact (MemoriesWf.of_fst e h.coreRequest).of_eq rfl rfl rfl rfl
  · exact h

theorem MemoriesWf.coreTarget {s : State} {k : Packet} (h : MemoriesWf s) : MemoriesWf (s.coreTarget k) := by
  unfold State.coreTarget
  extract_lets p who
  split
  · split
    · exact h
    · exact h.turnedAway
  · split
    · exact h.turnedAway
    · split
      · exact h.bulkWord
      · split
        · exact h.neighbourAt
        · exact h.once fun _ hs => optWf_some hs.eventAt
        · exact h.once fun _ hs2 => optWf_some hs2.eventAt
        · exact h.once fun _ hs3 => optWf_some hs3.contextAt
        · exact h.once fun _ hs4 => optWf_some hs4.withdrawAt
        · exact h.once fun _ hs5 => optWf_some hs5.matrixAt.answer
        · exact h.of_eq rfl rfl rfl rfl
        · split
          · exact h.dropPacket
          · refine MemoriesWf.once h fun s2 hs6 => ?_
            extract_lets s1
            have hs1 : MemoriesWf s1 := by
              unfold s1
              split
              · exact hs6.modCore_sp _ fun _ => Core.leaveUnbounded_sp _ _
              · exact hs6
            split
            · split
              · split
                · exact optWf_some hs1.answer
                · exact optWf_map (fun _ hu => hs1.receivePush hu) fun _ hs7 => hs7.answer
              · split
                · exact optWf_some hs1.bulkWord
                · split
                  next _ _ _ _ e =>
                    exact optWf_some ((MemoriesWf.of_fst e hs1.coreRequest).answer)
                  · exact optWf_none
            · split
              · exact optWf_some hs1.bulkWord
              · split
                next _ _ _ _ e1 =>
                  exact optWf_some ((MemoriesWf.of_fst e1 hs1.coreRequest).answer)
                · exact optWf_none
            · split
              next _ _ _ _ e2 =>
                exact optWf_some ((MemoriesWf.of_fst e2 hs1.coreRequest).answer)
              next _ _ e3 =>
                exact optWf_some ((MemoriesWf.of_fst e3 hs1.coreRequest).answer)
              · exact optWf_none

theorem MemoriesWf.homeDo {s : State} {b : Body} {off : Nat} (h : MemoriesWf s) : MemoriesWf (s.homeDo b off).1 := by
  unfold State.homeDo
  split
  · exact h
  · extract_lets s1
    have hs1 : MemoriesWf s1 := h.cacheWalk
    split
    · exact hs1
    · exact hs1
    · dsimp only
      exact hs1.memStore _ _ _
    · dsimp only
      exact hs1.memStore _ _ _
    · split
      · exact hs1
      · split
        · exact hs1
        · extract_lets old
          dsimp only
          split
          · exact hs1.memStore _ _ _
          · exact hs1
    · split
      · exact hs1
      · split
        · exact hs1
        · extract_lets old
          dsimp only
          split
          · exact hs1.memStore _ _ _
          · exact hs1
    · split
      · exact hs1
      · split
        · dsimp only
          exact hs1.countDrop0
        · dsimp only
          split
          · exact hs1.memStore _ _ _
          · exact hs1
    · exact hs1

theorem MemoriesWf.homeAnswer {s : State} {k : Packet} {off : Nat} (h : MemoriesWf s) : MemoriesWf (s.homeAnswer k off) := h.homeDo.answer

theorem MemoriesWf.forward {s u : State} {k : Packet} {dst slots : Nat} {probe : Bool}
    (h : MemoriesWf s)
    (e : s.forward k dst slots probe = some u) : MemoriesWf u := by
  unfold State.forward at e
  extract_lets nd ns seq f nd1 s1 at e
  have hs : MemoriesWf s1 := h.setNode _ _
  split at e
  · cases e
  · cases e
    split
    · exact hs.of_eq rfl rfl rfl rfl
    · exact hs

theorem MemoriesWf.forwardNext {s : State} {n die : Nat} (h : MemoriesWf s) : MemoriesWf (s.forwardNext n die) := by
  unfold State.forwardNext
  extract_lets nd
  split
  · exact h
  · split
    · exact h
    · extract_lets s1
      have hs1 : MemoriesWf s1 := h.setNode _ _
      exact hs1.of_eq rfl rfl rfl rfl

theorem MemoriesWf.sliceTarget {s : State} {k : Packet} (h : MemoriesWf s) : MemoriesWf (s.sliceTarget k) := by
  unfold State.sliceTarget
  split
  · exact h.dropPacket
  · extract_lets off
    refine MemoriesWf.once h fun s1 hs => ?_
    split
    · exact fun _ hu => hs.forward hu
    · exact optWf_some hs.homeAnswer

theorem MemoriesWf.mgmtTarget {s : State} {k : Packet} (h : MemoriesWf s) : MemoriesWf (s.mgmtTarget k) := by
  unfold State.mgmtTarget
  split
  · exact h.dropPacket
  · extract_lets off
    refine MemoriesWf.once h fun s1 hs => ?_
    refine optWf_some ?_
    split
    · exact hs.answer
    · exact hs.answer
    · exact hs.devStore.answer
    · exact hs.devStore.answer
    · exact hs.answer

theorem MemoriesWf.probeBack {s : State} {k : Packet} (h : MemoriesWf s) : MemoriesWf (s.probeBack k) := by
  unfold State.probeBack
  split
  · exact h.sendNs
  · exact h.of_eq rfl rfl rfl rfl

theorem MemoriesWf.linkTarget {s : State} {k : Packet} (h : MemoriesWf s) : MemoriesWf (s.linkTarget k) := by
  unfold State.linkTarget
  split
  · extract_lets reply
    have hreply : ∀ s1, MemoriesWf s1 → MemoriesWf (reply s1) := by
      intro s1 hs
      unfold reply
      split
      · extract_lets line r x
        have hr : MemoriesWf r.1 := by
          unfold r
          split
          · exact hs
          · exact hs
          · exact hs.hostRecall.homeDo
        exact hr.of_eq rfl rfl rfl rfl
      · exact hs
    refine MemoriesWf.probeBack ?_
    split
    · exact hreply _ h
    · split
      next _ _ e =>
        exact hreply _ (h.accept e)
      · exact h.of_eq rfl rfl rfl rfl
  · exact h.hostRecall.probeBack
  · exact h.dropPacket

theorem MemoriesWf.ramoDo {s : State} {off : Nat} {w : AtomWidth} {op : AmoOp} {b : Word} (h : MemoriesWf s) :
    MemoriesWf (s.ramoDo off w op b).1 := by
  unfold State.ramoDo
  split
  · exact h
  · extract_lets s1 old
    have hs1 : MemoriesWf s1 := h.recallRange.cacheWalk
    split
    · exact hs1
    · dsimp only
      exact hs1.memStore _ _ _

theorem MemoriesWf.atomicEngine {s u : State} {k : Packet} {ia : Nat} {w : AtomWidth} {op : AmoOp} {b : Word} {tag : BitVec 8} (h : MemoriesWf s)
    (e : s.atomicEngine k ia w op b tag = some u) : MemoriesWf u := by
  unfold State.atomicEngine at e
  extract_lets l s1 r at e
  have h1 : MemoriesWf s1 := h.of_eq rfl rfl rfl rfl
  split at e
  · cases e
  · cases e
    exact h1.ramoDo.answer.sendRecord

theorem MemoriesWf.egressTarget {s : State} {k : Packet} (h : MemoriesWf s) : MemoriesWf (s.egressTarget k) := by
  unfold State.egressTarget
  split
  · exact h.dropPacket
  · extract_lets live nd bad
    split
    · exact h.leaveFor
    · refine MemoriesWf.once h fun s3 hs => ?_
      split
      · extract_lets l s1 s2
        have hs1 : MemoriesWf s1 := hs.of_eq rfl rfl rfl rfl
        have hs2 : MemoriesWf s2 := hs1.answer
        split
        · exact optWf_none
        · clear_value bad
          split
          · exact optWf_some hs2.sendRecord
          · exact optWf_some hs2.goOut
      · clear_value bad
        split
        · exact optWf_some hs.answer
        · split
          · exact optWf_none
          · exact optWf_some hs.goOut

theorem MemoriesWf.recordOut {s : State} {k : Packet} {r : BitVec 128} (h : MemoriesWf s) : MemoriesWf (s.recordOut k r) := by
  unfold State.recordOut
  extract_lets s1 x
  have hs1 : MemoriesWf s1 := h.answer
  split
  · exact hs1
  · exact MemoriesWf.peerReply (hs1.of_eq rfl rfl rfl rfl)

theorem MemoriesWf.agentTarget {s : State} {k : Packet} (h : MemoriesWf s) : MemoriesWf (s.agentTarget k) := by
  unfold State.agentTarget
  extract_lets agent
  split
  · exact h.mgmtTarget
  · split
    · exact h.linkTarget
    · split
      · split
        · exact h.once fun _ hs => fun _ hu => hs.atomicEngine hu
        · exact h.dropPacket
      · split
        · split
          · exact h.portSend
          · exact h.egressTarget
        · split
          · split
            · exact h.once fun _ hs1 => optWf_some hs1.recordOut
            · exact h.dropPacket
          · exact h.dropPacket

theorem MemoriesWf.target {s : State} {k : Packet} (h : MemoriesWf s) : MemoriesWf (s.target k) := by
  unfold State.target
  split
  · exact h.turnedAway
  · split
    · exact h.coreTarget
    · split
      · exact h.sliceTarget
      · split
        · exact h.agentTarget
        · exact h.dropPacket

theorem MemoriesWf.answerDown {s : State} {node : Nat} {f : Fwd} (h : MemoriesWf s) : MemoriesWf (s.answerDown node f) := by
  unfold State.answerDown
  extract_lets x s1
  have hs1 : MemoriesWf s1 := h.setNode _ _
  split
  · exact hs1.sendRecord
  · exact hs1.answer

theorem MemoriesWf.peerDown {s : State} {dev : Nat} {reason : PeerReason} (h : MemoriesWf s) : MemoriesWf (s.peerDown dev reason) := by
  unfold State.peerDown
  split
  · exact h
  · extract_lets s1 s2
    have hs1 : MemoriesWf s1 := h.modFw _
    have hs2 : MemoriesWf s2 := by
      unfold s2
      refine MemoriesWf.foldl hs1 fun s3 x hs => ?_
      split
      · exact hs.foldl fun _ _ hs3 => hs3.answerDown
      · exact hs
    exact hs2.of_eq rfl rfl rfl rfl

theorem MemoriesWf.putReq {s : State} {r r' : Req} (h : MemoriesWf s) : MemoriesWf (s.putReq r r') := h.of_eq rfl rfl rfl rfl

theorem MemoriesWf.withAsked {s : State} {k : Packet} {f : Req → State}
    (h : MemoriesWf s) (hf : ∀ r, MemoriesWf (f r)) :
    MemoriesWf (s.withAsked k f) := by
  unfold State.withAsked
  split
  · exact h
  · split
    · exact h.target
    · exact h.dropPacket
    · exact hf _

theorem MemoriesWf.final {s : State} {k : Packet} {r : Req} {bytes : List Byte} {ans : Answer} (h : MemoriesWf s) : MemoriesWf (s.final k r bytes ans) :=
  h.complete.unpark

theorem MemoriesWf.refusedFull {s : State} {k : Packet} {r : Req} (h : MemoriesWf s) : MemoriesWf (s.refusedFull k r) := by
  unfold State.refusedFull
  split
  · refine MemoriesWf.unpark ?_
    extract_lets x
    have hx : MemoriesWf x := h.modCore_sp _ fun _ => Core.risen_sp _ _
    exact hx.of_eq rfl rfl rfl rfl
  · exact h.putReq
  · exact h.lost.unpark

theorem MemoriesWf.refused {s : State} {k : Packet} {r : Req} {x : Nack} (h : MemoriesWf s) : MemoriesWf (s.refused k r x) := by
  unfold State.refused
  split
  · exact h.refusedFull
  · exact h.putReq
  · exact h.final
  · exact h.final
  · exact h.lost.unpark

theorem MemoriesWf.resend {s : State} {r : Req} {tries : Nat} {counts : Bool} (h : MemoriesWf s) : MemoriesWf (s.resend r tries counts) :=
  inject_keeps h.putReq _ _

theorem MemoriesWf.exhausted {s : State} {r : Req} (h : MemoriesWf s) : MemoriesWf (s.exhausted r) := by
  unfold State.exhausted
  refine MemoriesWf.unpark ?_
  refine MemoriesWf.lost ?_
  split
  · exact h.peerDown
  · exact h

/-! ## Commands -/

theorem MemoriesWf.readSubmit {s : State} {q : Nat} (h : MemoriesWf s) : MemoriesWf (s.readSubmit q) := by
  unfold State.readSubmit
  extract_lets v crp wp v1
  split
  · exact h
  · split
    · split
      · exact h
      · exact (setQueue_keeps h _ _).postHeld
    · split
      · exact h.haltQueue
      · split
        · exact h.haltQueue
        · split
          · exact h.haltQueue
          · split
            · exact h
            · exact writeStatus_keeps ((setQueue_keeps h _ _).postHeld) _

theorem MemoriesWf.begin_ {s : State} {q i : Nat} {e : List Byte} (h : MemoriesWf s) : MemoriesWf (s.begin_ q i e).2 := by
  unfold State.begin_
  extract_lets c
  dsimp only
  exact h.modQueue.modFw _

theorem MemoriesWf.rejectHeads {s : State} {n : Nat} (h : MemoriesWf s) : MemoriesWf (s.rejectHeads n) := by
  induction n generalizing s with
  | zero => exact h
  | succ n ih =>
    unfold State.rejectHeads
    split
    · exact h
    · split
      · exact h
      · split
        · exact h
        · exact ih (finishCmd_keeps h.begin_ _ _ _ _)

theorem MemoriesWf.settleQueue {s : State} {q : Nat} (h : MemoriesWf s) : MemoriesWf (s.settleQueue q) := by
  unfold State.settleQueue
  extract_lets v x
  split
  · exact h
  · split
    · split
      · exact h
      · exact finishCmd_keeps (setQueue_keeps (writeStatus_keeps (setQueue_keeps h _ _) _) _ _) _ _ _ _
    · split
      · exact writeStatus_keeps (setQueue_keeps h _ _) _
      · exact h

theorem MemoriesWf.settleEngines {s : State} (h : MemoriesWf s) : MemoriesWf s.settleEngines := by
  unfold State.settleEngines
  refine MemoriesWf.foldl h fun s1 x hs => ?_
  split
  · split
    · refine finishCmd_keeps ?_ _ _ _ _
      exact hs.of_eq rfl rfl rfl rfl
    · exact hs
  · exact hs

theorem MemoriesWf.settleQueues {s : State} (h : MemoriesWf s) : MemoriesWf s.settleQueues :=
  h.settleEngines.rejectHeads.foldl fun _ _ hs => hs.settleQueue

theorem MemoriesWf.endWait {s : State} {q : Nat} {c : CmdRef} {status : Nat} (h : MemoriesWf s) : MemoriesWf (s.endWait q c status) :=
  finishCmd_keeps h.modQueue _ _ _ _

theorem MemoriesWf.putRect {s : State} {i : Nat} {r : Rect} (h : MemoriesWf s) : MemoriesWf (s.putRect i r) := ((h.modRect _ _).modFw _).applyPoints

/-! ## Ends -/

theorem MemoriesWf.completeAt {s : State} {hp gid : Nat} {w : Sleep} {inv : Option (Nat → Bool)} (h : MemoriesWf s) :
    MemoriesWf (s.completeAt hp gid w inv) := by
  unfold State.completeAt
  refine MemoriesWf.foldl h fun s2 x hs => ?_
  split
  · extract_lets s1
    have hs1 : MemoriesWf s1 := hs.setThread _ _ _
    split
    · exact hs1.l1Inv
    · exact hs1
  · exact hs

theorem MemoriesWf.completeLevel {s : State} {hp : Nat} {g : Group} {k : Nat} {sc : Scope} (h : MemoriesWf s) : MemoriesWf (s.completeLevel hp g k sc) :=
  (h.modGroup _ _ _).completeAt

theorem MemoriesWf.settleLevel {s : State} {l : Launch} {k dom : Nat} {sc : Scope} (h : MemoriesWf s) : MemoriesWf (s.settleLevel l k dom sc) := by
  unfold State.settleLevel
  split
  · refine MemoriesWf.foldl h fun s1 x hs => ?_
    split
    · exact hs.foldl fun _ _ hs1 => hs1.completeLevel
    · exact hs
  · split
    · exact h
    · extract_lets count arrived full
      refine MemoriesWf.foldl h fun s2 x1 hs2 => ?_
      split
      · exact hs2.completeLevel
      · exact hs2

theorem MemoriesWf.settleBarX {s : State} {p : Nat} {g : Group} (h : MemoriesWf s) : MemoriesWf (s.settleBarX p g) := by
  unfold State.settleBarX
  split
  · refine MemoriesWf.completeAt ?_
    refine MemoriesWf.modGroup ?_ _ _ _
    exact h.modCore_sp _ fun _ => Core.swap_sp _
  · exact h

theorem MemoriesWf.settleBarT {s : State} {p : Nat} {g : Group} (h : MemoriesWf s) : MemoriesWf (s.settleBarT p g) := by
  unfold State.settleBarT
  split
  · exact h.modCore_sp _ fun _ => rfl
  · exact h

theorem MemoriesWf.settleBars {s : State} (h : MemoriesWf s) : MemoriesWf s.settleBars :=
  MemoriesWf.foldl (h.foldl (fun _ _ hs => hs.foldl (fun _ _ hs1 => hs1.settleLevel))) fun _ _ hs2 => hs2.foldl fun _ _ hs3 => hs3.settleBarX.settleBarT

theorem MemoriesWf.depart {s : State} {l : Launch} {m : Nat} (h : MemoriesWf s) : MemoriesWf (s.depart l m) := h.of_eq rfl rfl rfl rfl

theorem MemoriesWf.endGroup {s : State} {p : Nat} {g : Group} (h : MemoriesWf s) : MemoriesWf (s.endGroup p g) := by
  unfold State.endGroup
  split
  · exact h.modCore_sp _ fun _ => rfl
  · extract_lets s1 s2
    have hs1 : MemoriesWf s1 := by
      unfold s1
      split
      · exact h.depart
      · exact h
    have hs2 : MemoriesWf s2 := hs1.modCore_sp _ fun _ => rfl
    split
    · exact hs1.modGroup _ _ _
    · split
      · exact hs2.checkRunEnd
      · exact hs2.candidateEnd

theorem MemoriesWf.settleDying {s : State} {p : Nat} {g : Group} {d : Dying} (h : MemoriesWf s) : MemoriesWf (s.settleDying p g d) := by
  unfold State.settleDying
  extract_lets late open0 r g1 s1 s2 s3 mine s4
  have hr : MemoriesWf r.1 := h.flushDale
  have hs1 : MemoriesWf s1 := by
    unfold s1
    split
    · exact hr
    · exact hr.recordTermination
  have hs2 : MemoriesWf s2 := hs1.foldl fun _ _ hs => hs.modCore_sp _ fun _ => by split <;> simp
  have hs3 : MemoriesWf s3 := hs2.of_eq rfl rfl rfl rfl
  have hs4 : MemoriesWf s4 := hs3.modCore_sp _ fun _ => rfl
  split
  · exact hr
  · split
    · exact MemoriesWf.checkRunEnd (hs4.modCore_sp _ (fun _ => rfl))
    · extract_lets s5
      have hs5 : MemoriesWf s5 := by
        unfold s5
        split
        · exact hs4.depart
        · exact hs4
      exact hs5.modCore_sp _ fun _ => rfl
    · exact hs4.modCore_sp _ fun _ => rfl

theorem MemoriesWf.settleAway {s : State} (h : MemoriesWf s) : MemoriesWf s.settleAway := h.mapCores fun _ _ => by split <;> rfl

theorem MemoriesWf.settleGroups {s : State} (h : MemoriesWf s) : MemoriesWf s.settleGroups := by
  unfold State.settleGroups
  refine MemoriesWf.foldl h fun s1 x hs => ?_
  refine MemoriesWf.foldl hs fun s2 x1 hs1 => ?_
  split
  · exact hs1.settleDying
  · split
    · exact hs1
    · exact hs1.endGroup

theorem MemoriesWf.settleDetached {s : State} (h : MemoriesWf s) : MemoriesWf s.settleDetached := by
  unfold State.settleDetached
  refine MemoriesWf.foldl h fun s1 x hs => ?_
  refine MemoriesWf.foldl hs fun s2 x1 hs1 => ?_
  split
  · split
    · exact hs1.depart
    · exact hs1
  · exact hs1

theorem MemoriesWf.settleHeld {s : State} (h : MemoriesWf s) : MemoriesWf s.settleHeld := by
  unfold State.settleHeld
  refine MemoriesWf.foldl h fun s1 x hs => ?_
  refine MemoriesWf.foldl hs fun s2 x1 hs1 => ?_
  split
  · split
    · exact hs1.modCore_sp _ fun _ => rfl
    · exact hs1
  · exact hs1

/-! ## Query -/

theorem MemoriesWf.putResult {s : State} {c : CmdRef} {item : Nat} {buf : Word} {content : List Byte} (h : MemoriesWf s) :
    MemoriesWf (s.putResult c item buf content) := by
  unfold State.putResult
  extract_lets n
  split
  · exact finishCmd_keeps h _ _ _ _
  · exact finishCmd_keeps (h.fwStore _ _) _ _ _ _

theorem MemoriesWf.putStats {s : State} {c : CmdRef} {i : Nat} {buf : Word} (h : MemoriesWf s) : MemoriesWf (s.putStats c i buf) := by
  unfold State.putStats
  split
  · exact finishCmd_keeps h _ _ _ _
  · exact h.putResult

/-! ## Halts -/

theorem MemoriesWf.haltNow {s : State} {p : Nat} (h : MemoriesWf s) : MemoriesWf (s.haltNow p) := by
  unfold State.haltNow
  extract_lets s1 s2
  have hs1 : MemoriesWf s1 := h.foldl fun _ _ hs => hs.freeze
  have hs2 : MemoriesWf s2 := hs1.flushDale
  exact hs2.modCore _ fun _ hs3 => foldl_wf (fun _ _ hs4 => hs4) hs3

theorem MemoriesWf.haltCore {s : State} {p : Nat} (h : MemoriesWf s) : MemoriesWf (s.haltCore p) := by
  unfold State.haltCore
  split
  · exact h
  · split
    · exact h.modCore_sp _ fun _ => rfl
    · split
      · exact h.haltNow
      · exact h.modCore_sp _ fun _ => rfl

theorem MemoriesWf.sendHalts {s : State} {l : Launch} (h : MemoriesWf s) : MemoriesWf (s.sendHalts l) := h.of_eq rfl rfl rfl rfl

theorem MemoriesWf.withdraw {s : State} {r : Req} (h : MemoriesWf s) : MemoriesWf (s.withdraw r) := ask_keeps h.putReq _ _

theorem MemoriesWf.settleWithdraw {s : State} (h : MemoriesWf s) : MemoriesWf s.settleWithdraw := by
  unfold State.settleWithdraw
  refine MemoriesWf.foldl h fun s1 x hs => ?_
  split
  · split
    · exact hs.withdraw
    · exact hs
  · split
    · exact hs.withdraw
    · exact hs

theorem MemoriesWf.settlePhases {s : State} (h : MemoriesWf s) : MemoriesWf s.settlePhases := h.mapCores fun _ _ => rfl

theorem MemoriesWf.settleThreads {s : State} (h : MemoriesWf s) : MemoriesWf s.settleThreads := h.mapCores fun _ _ => rfl

theorem MemoriesWf.unpin {s : State} {l : List Lease} (h : MemoriesWf s) : MemoriesWf (s.unpin l) := by
  unfold State.unpin
  extract_lets keep
  refine MemoriesWf.foldl h fun s1 x hs => ?_
  split
  · exact hs
  · exact hs.pinPage _ _

theorem MemoriesWf.dropCommands {s : State} {lid : Nat} (h : MemoriesWf s) : MemoriesWf (s.dropCommands lid) :=
  (h.modFw _).foldl fun _ _ hs => finishCmd_keeps hs _ _ _ _

theorem MemoriesWf.zeroTimes {s : State} (h : MemoriesWf s) : MemoriesWf s.zeroTimes := by
  unfold State.zeroTimes
  refine MemoriesWf.of_eq (h.mapCores (f := fun _ c => { c with vtime := 0#32, gvt := 0#32, gvtBase := 0#32, minSent := (0xFFFFFFFF#32, 0xFFFFFFFF#32) })
    fun _ _ => rfl) rfl rfl rfl rfl

theorem MemoriesWf.endLaunch {s : State} {l : Launch} {status : Nat} (h : MemoriesWf s) : MemoriesWf (s.endLaunch l status) := by
  unfold State.endLaunch
  extract_lets s1 s2 s3 s4 s5 s6 s7
  have h1 : MemoriesWf s1 := h.dropCommands
  have h2 : MemoriesWf s2 := MemoriesWf.of_eq ((h1.mapCores (f := fun _ c => if c.lid = l.lid then c.leave else c) fun _ _ => by split <;> rfl).filterLaunches
    fun m => m.lid != l.lid) rfl rfl rfl rfl
  have h3 : MemoriesWf s3 := by
    unfold s3
    split
    · exact h2
    · exact h2.unpin
  have h4 : MemoriesWf s4 := by
    unfold s4
    split
    · exact h3.zeroTimes
    · exact h3
  have h5 : MemoriesWf s5 := finishCmd_keeps h4 _ _ _ _
  have h6 : MemoriesWf s6 := by
    unfold s6
    split
    · exact finishCmd_keeps h5 _ _ _ _
    · exact h5
  have h7 : MemoriesWf s7 := by
    unfold s7
    split
    · exact finishCmd_keeps h6 _ _ _ _
    · exact h6
  split
  · exact finishCmd_keeps h7 _ _ _ _
  · exact h7

/-! ## Launches -/

theorem MemoriesWf.mapPages {s : State} {l : List Lease} (h : MemoriesWf s) : MemoriesWf (s.mapPages l) :=
  h.foldl fun _ _ hs => (hs.mapPage _).pinPage _ _

theorem MemoriesWf.loadStep {s : State} {l : Launch} {p : Nat} (h : MemoriesWf s) : MemoriesWf (s.loadStep l p) := by
  unfold State.loadStep
  split
  · exact h
  · exact h.modCore _ fun _ hs => spStore_wf _ _ _ hs

theorem MemoriesWf.dealTasks {s : State} {l : Launch} {tasks : List (List Byte)} (h : MemoriesWf s) : MemoriesWf (s.dealTasks l tasks) := by
  unfold State.dealTasks
  split
  · split
    · exact h
    · exact h.foldl fun _ _ h => h.modCore_sp _ fun _ => rfl
  · exact h.foldl fun _ _ h => h.modCore_sp _ fun c => Core.leaveUnbounded_sp c _

theorem MemoriesWf.beginCores {s : State} {l : Launch} (h : MemoriesWf s) (hl : LaunchWf l) : MemoriesWf (s.beginCores l) := by
  unfold State.beginCores
  extract_lets l' s1
  have hs1 : MemoriesWf s1 := h.modLaunch_wf _ fun _ _ => hl
  refine MemoriesWf.foldl hs1 fun s3 x hs => ?_
  extract_lets s2
  have hs2 : MemoriesWf s2 := hs.modCore_sp _ fun _ => rfl
  split
  · exact hs2.loadStep
  · exact hs2

theorem MemoriesWf.beginSave {s : State} {l : Launch} {byPrio : Bool} {c : Option CmdRef} (h : MemoriesWf s) :
    MemoriesWf (s.beginSave l byPrio c) := by
  unfold State.beginSave
  refine MemoriesWf.sendHalts ?_
  refine MemoriesWf.modFw ?_ _
  exact h.modLaunch _ fun _ => rfl

theorem MemoriesWf.evictFor {s : State} {l : Launch} (h : MemoriesWf s) : MemoriesWf (s.evictFor l) := by
  unfold State.evictFor
  extract_lets way
  split
  · exact h
  · exact h.foldl fun _ _ hs => hs.beginSave

/-! ## Launching -/

theorem MemoriesWf.modGang {s : State} {id : Nat} {f : Gang → Gang} (h : MemoriesWf s) : MemoriesWf (s.modGang id f) := h.of_eq rfl rfl rfl rfl

theorem MemoriesWf.failGang {s : State} {g : Gang} (h : MemoriesWf s) : MemoriesWf (s.failGang g) := by
  unfold State.failGang
  extract_lets s1
  have hs1 : MemoriesWf s1 := by
    unfold s1
    split
    · exact h.endLaunch
    · exact h
  exact hs1.of_eq rfl rfl rfl rfl

theorem MemoriesWf.goGang {s : State} {g : Gang} (h : MemoriesWf s) : MemoriesWf (s.goGang g) := by
  unfold State.goGang
  split
  · split
    · exact h
    · exact h.modGang.foldl fun _ _ hs => MemoriesWf.startGroup (hs.modCore_sp _ (fun _ => Core.leaveUnbounded_sp _ _))
  · exact h

theorem MemoriesWf.coordinate {s : State} {id : Nat} (h : MemoriesWf s) : MemoriesWf (s.coordinate id) := by
  unfold State.coordinate
  split
  · exact h
  · split
    · exact h.failGang
    · split
      · exact h
      · split
        · exact h
        · extract_lets s1
          have hs1 : MemoriesWf s1 := h.modGang
          split
          · exact hs1.goGang
          · exact hs1

theorem MemoriesWf.placeGang {s : State} {l : Launch} (h : MemoriesWf s) (hl : LaunchWf l) : MemoriesWf (s.placeGang l) := by
  unfold State.placeGang
  extract_lets es s1 g g1 g2
  have hs1 : MemoriesWf s1 := h.beginCores hl
  exact MemoriesWf.coordinate (hs1.of_eq rfl rfl rfl rfl)

theorem MemoriesWf.place {s : State} {l : Launch} (h : MemoriesWf s) (hl : LaunchWf l) : MemoriesWf (s.place l) := by
  unfold State.place
  extract_lets s1
  have hs1 : MemoriesWf s1 := h.mapPages
  split
  · exact (hs1.beginCores hl).dealTasks
  · exact hs1.placeGang hl

theorem MemoriesWf.tryPlace {s : State} {lid : Nat} (h : MemoriesWf s) : MemoriesWf (s.tryPlace lid) := by
  unfold State.tryPlace
  split
  next l hl =>
    have hw : LaunchWf l := h.launch hl
    split
    · split
      · exact h.place hw
      · exact h.evictFor
    · exact h
  · exact h

theorem MemoriesWf.cancel {s : State} {l : Launch} {c : Option CmdRef} (h : MemoriesWf s) : MemoriesWf (s.cancel l c) := by
  unfold State.cancel
  split
  · exact h.endLaunch
  · exact h.endLaunch
  · exact MemoriesWf.sendHalts (h.modLaunch _ (fun _ => rfl))
  · exact h.modLaunch _ fun _ => rfl
  · exact h

theorem MemoriesWf.dropLease {s : State} {lid i : Nat} (h : MemoriesWf s) : MemoriesWf (s.dropLease lid i) := by
  unfold State.dropLease
  split
  · exact h
  · extract_lets s1 s2 s3
    have h1 : MemoriesWf s1 := by
      unfold s1
      split
      · split
        · exact h.writeXinv
        · exact h
      · exact h
    have h2 : MemoriesWf s2 := h1.modLaunch_wf _ fun l hl e he => by
      obtain ⟨c, hc, hv⟩ := mem_tblMap he
      rw [hv]; exact hl _ hc
    have h3 : MemoriesWf s3 := h2.mapCores fun _ _ => by split <;> rfl
    split
    · exact h3.unpin
    · exact h3

theorem MemoriesWf.shotAnswer {s : State} {p lid i : Nat} (h : MemoriesWf s) : MemoriesWf (s.shotAnswer p lid i) := by
  unfold State.shotAnswer
  split
  · exact h
  · extract_lets t s1
    have hs1 : MemoriesWf s1 := h.modFw _
    split
    · exact hs1.of_eq rfl rfl rfl rfl
    · exact hs1

theorem MemoriesWf.settleShots {s : State} (h : MemoriesWf s) : MemoriesWf s.settleShots := by
  unfold State.settleShots
  refine MemoriesWf.foldl h fun s1 x hs => ?_
  refine MemoriesWf.foldl hs fun s2 x1 hs1 => ?_
  split
  · exact hs1
  · exact MemoriesWf.shotAnswer (hs1.modCore_sp _ (fun _ => rfl))

theorem MemoriesWf.settleFlush {s : State} (h : MemoriesWf s) : MemoriesWf s.settleFlush := by
  unfold State.settleFlush
  refine MemoriesWf.foldl h fun s1 x hs => ?_
  split
  · exact hs
  · exact hs.modCore_sp _ fun _ => rfl

theorem MemoriesWf.preemptDone {s : State} {lid : Nat} (h : MemoriesWf s) : MemoriesWf (s.preemptDone lid) := by
  unfold State.preemptDone
  split
  · exact h
  · split
    · exact h
    · split
      · refine finishCmd_keeps ?_ _ _ _ _
        exact h.modLaunch _ fun _ => rfl
      · exact h

theorem MemoriesWf.gangFinal {s : State} {gang dev : Nat} (h : MemoriesWf s) : MemoriesWf (s.gangFinal gang dev) := by
  unfold State.gangFinal
  extract_lets s1
  have hs1 : MemoriesWf s1 := h.modGang
  split
  · exact hs1.preemptDone
  · exact hs1

theorem MemoriesWf.restore {s : State} {l : Launch} (h : MemoriesWf s) : MemoriesWf (s.restore l) := by
  unfold State.restore
  extract_lets s1 s2 s3 s4 s5
  have h1 : MemoriesWf s1 := h.foldl fun _ _ h => h.modCore _ fun _ hc => restored_wf _ _ hc
  have h2 : MemoriesWf s2 := h1.modLaunch_wf _ fun _ _ => LaunchWf.of_nil rfl
  have h3 : MemoriesWf s3 := by
    unfold s3
    split
    · exact h2
    · exact h2.modGang
  have h4 : MemoriesWf s4 := h3.foldl fun _ _ h => h.foldl fun _ _ h => h.sendSlot
  have h5 : MemoriesWf s5 := h4.foldl fun s e h => by
    split
    · exact h.beginContain
    · exact h
  split
  · exact finishCmd_keeps h5 _ _ _ _
  · exact h5

theorem MemoriesWf.sweepLaunch {s : State} {l : Launch} (h : MemoriesWf s) : MemoriesWf (s.sweepLaunch l) := by
  unfold State.sweepLaunch
  extract_lets t
  split
  · exact h.modLaunch _ fun _ => rfl
  · split
    · exact h.modLaunch _ fun _ => rfl
    · exact h.endLaunch

/-! ## Contain -/

theorem MemoriesWf.containChecks {s : State} {inside : Nat → Bool} (h : MemoriesWf s) : MemoriesWf (s.containChecks inside) := by
  unfold State.containChecks
  refine MemoriesWf.foldl h fun s1 x hs => ?_
  split
  · refine MemoriesWf.modLaunch ?_ _ fun _ => rfl
    exact hs.of_eq rfl rfl rfl rfl
  · split
    · exact hs.shutCheck
    · exact hs

theorem Core.containReset_wf (c : Core) : Memory.wf c.containReset.sp = true := rfl

theorem MemoriesWf.containCores {s : State} {i : Nat} (h : MemoriesWf s) : MemoriesWf (s.containCores i) := by
  unfold State.containCores
  extract_lets ps inside s1 s2 s3 s4 s5 s6 s7
  have h1 : MemoriesWf s1 := h.foldl fun _ _ h => h.flushDale
  have h2 : MemoriesWf s2 := h1.putLaunches fun x hx => by
    obtain ⟨l, hl, rfl⟩ := List.mem_map.1 hx
    split
    · exact h1.2.2.2 l hl
    · exact h1.2.2.2 l hl
  have h3 : MemoriesWf s3 := h2.containChecks
  have h4 : MemoriesWf s4 := h3.foldl fun s p h => h.foldl fun s g h => by
    split
    · exact h.depart
    · exact h
  have h5 : MemoriesWf s5 := h4.foldl fun s m h => by
    split
    · split
      · exact h.countRecv
      · exact h
    · exact h
  clear_value s5
  have h6 : MemoriesWf s6 := h5.of_eq rfl rfl rfl rfl
  have h7 : MemoriesWf s7 := h6.foldl fun _ _ h => h.modCore _ fun c _ => Core.containReset_wf c
  exact h7.modRect _ _

theorem MemoriesWf.endContain {s : State} {i : Nat} (h : MemoriesWf s) : MemoriesWf (s.endContain i) := by
  unfold State.endContain
  split
  · exact h
  · split
    · exact h
    · extract_lets s1 s2
      have hs1 : MemoriesWf s1 := h.foldl fun _ _ hs => hs.endLaunch
      have hs2 : MemoriesWf s2 := hs1.foldl fun _ _ hs3 => hs3.modCore_sp _ fun _ => rfl
      exact hs2.modRect _ _

theorem MemoriesWf.settleContain {s : State} (h : MemoriesWf s) : MemoriesWf s.settleContain := h.foldl fun _ _ hs => hs.endContain

theorem MemoriesWf.sliceCorrected {s : State} (h : MemoriesWf s) : MemoriesWf s.sliceCorrected := h.modRect _ _

theorem MemoriesWf.corrected {s : State} {p : Nat} {sp : Bool} (h : MemoriesWf s) : MemoriesWf (s.corrected p sp) := by
  unfold State.corrected
  refine MemoriesWf.modRect ?_ _ _
  exact h.modCore_sp _ fun _ => by split <;> rfl

/-! ## Integrity -/

theorem MemoriesWf.readCarve {s : State} {r : Nat} {demand : Bool} (h : MemoriesWf s) : MemoriesWf (s.readCarve r demand) := by
  unfold State.readCarve
  extract_lets o s1
  have hs1 : MemoriesWf s1 := h.eccEvent
  split
  · exact hs1.of_eq rfl rfl rfl rfl
  · exact hs1

theorem MemoriesWf.readData {s : State} {k : Nat} {demand : Bool} (h : MemoriesWf s) : MemoriesWf (s.readData k demand) := by
  unfold State.readData
  extract_lets o s1
  have h1 : MemoriesWf s1 := h.eccEvent
  split
  · refine ⟨?_, h1.2⟩
    dsimp only
    split
    · exact h1.1
    · exact memWrite_wf _ _ _ h1.1
  · exact h1

theorem MemoriesWf.readBlock {s : State} {k : Nat} {demand : Bool} (h : MemoriesWf s) : MemoriesWf (s.readBlock k demand) := by
  unfold State.readBlock
  split
  · exact h.readCarve
  · exact h.readCarve.readData

theorem MemoriesWf.upsetBlock {s : State} {k : Nat} {u' : Upset} (h : MemoriesWf s) : MemoriesWf (s.upsetBlock k u') := by
  unfold State.upsetBlock
  split
  · exact h.of_eq rfl rfl rfl rfl
  · exact h

theorem MemoriesWf.upsetCarve {s : State} {r : Nat} {u' : Upset} (h : MemoriesWf s) : MemoriesWf (s.upsetCarve r u') := by
  unfold State.upsetCarve
  split
  · exact h.of_eq rfl rfl rfl rfl
  · exact h

theorem MemoriesWf.upset {s : State} {k : Nat} {carveOut : Bool} {u' : Upset} (h : MemoriesWf s) : MemoriesWf (s.upset k carveOut u') := by
  unfold State.upset
  split
  · exact h
  · split
    · exact h.upsetCarve
    · exact h.upsetBlock

/-! ## Reset -/

theorem MemoriesWf.coldReset {s : State} {kind : ResetKind} (h : MemoriesWf s) : MemoriesWf (s.coldReset kind) :=
  ⟨MemoriesWf.reset.1, h.2.1, MemoriesWf.reset.2.2⟩

theorem MemoriesWf.noteFault {s : State} {cls rail : Nat} (h : MemoriesWf s) : MemoriesWf (s.noteFault cls rail) := h.modFw _

theorem MemoriesWf.shutDown {s : State} {cls : Nat} (h : MemoriesWf s) : MemoriesWf (s.shutDown cls) := h.noteFault.coldReset.modFw _

theorem MemoriesWf.railReset {s : State} {cls rail : Nat} (h : MemoriesWf s) : MemoriesWf (s.railReset cls rail) := h.noteFault.coldReset

theorem MemoriesWf.warmReset {s : State} {image : Option (List Byte)} {c : Option CmdRef} (h : MemoriesWf s) : MemoriesWf (s.warmReset image c) :=
  MemoriesWf.foldl ⟨MemoriesWf.reset.1, h.2.1, MemoriesWf.reset.2.2⟩ fun _ _ h => writeStatus_keeps h _

theorem MemoriesWf.startStub {s : State} (h : MemoriesWf s) : MemoriesWf s.startStub :=
  MemoriesWf.foldl (h.addLaunch (LaunchWf.of_nil rfl)) fun _ _ h => MemoriesWf.startGroup (h.modCore_sp _ fun _ => rfl)

theorem MemoriesWf.endStub {s : State} (h : MemoriesWf s) : MemoriesWf s.endStub :=
  (h.mapCores (f := fun _ c => if c.lid = stubLid then { c.leave with locked := [] } else c) fun _ _ => by split <;> rfl).filterLaunches _

theorem MemoriesWf.placeRings {s : State} (h : MemoriesWf s) : MemoriesWf s.placeRings := h.modFw _

theorem MemoriesWf.beginService {s : State} (h : MemoriesWf s) : MemoriesWf s.beginService := by
  unfold State.beginService
  extract_lets s1 s2 s3
  have hs1 : MemoriesWf s1 := h.endStub.zeroTimes.placeRings
  have hs2 : MemoriesWf s2 := (hs1.modFw _).applyPoints
  have hs3 : MemoriesWf s3 := hs2.modFw _
  refine MemoriesWf.foldl hs3 fun s4 x hs => ?_
  split
  · exact hs
  · exact hs.haltQueue

theorem MemoriesWf.distribute {s : State} (h : MemoriesWf s) : MemoriesWf s.distribute := by
  unfold State.distribute
  extract_lets img m came s1
  have hs1 : MemoriesWf s1 := h.modFw _
  refine MemoriesWf.foldl hs1 fun s2 x hs => ?_
  split
  · exact hs.modCore _ fun _ hs2 => spStore_wf _ _ _ hs2
  · exact hs

theorem MemoriesWf.endOfStep {s : State} {k : Nat} (h : MemoriesWf s) : MemoriesWf (s.endOfStep k) := by
  unfold State.endOfStep
  split
  · exact h.modFw _
  · exact h.modFw _
  · exact h.modFw _
  · exact ⟨rfl, h.2⟩
  · exact h.startStub
  · exact h.distribute
  · exact h

theorem MemoriesWf.modBasin {s : State} {b : Nat} {f : Basin → Basin} (h : MemoriesWf s) : MemoriesWf (s.modBasin b f) := h.modFw _

/-! ## Fabric -/

theorem MemoriesWf.pullBack {s : State} {pos d : Nat} (h : MemoriesWf s) : MemoriesWf (s.pullBack pos d) :=
  h.foldl fun _ _ hs => hs.of_eq rfl rfl rfl rfl

theorem MemoriesWf.linkDies {s : State} {pos : Nat} {d : Dir} {plane : Nat} (h : MemoriesWf s) : MemoriesWf (s.linkDies pos d plane) := by
  unfold State.linkDies
  split
  · exact h
  · extract_lets s1 x
    have hs1 : MemoriesWf s1 := h.pullBack.pullBack
    exact hs1.of_eq rfl rfl rfl rfl

theorem MemoriesWf.takeCtl {s u : State} {m : CtlMsg} (h : MemoriesWf s) (e : s.takeCtl m = some u) : MemoriesWf u := by
  unfold State.takeCtl at e
  split at e <;> cases e
  exact h.of_eq rfl rfl rfl rfl

theorem MemoriesWf.unparkAll {s : State} {f : Nat → Bool} (h : MemoriesWf s) : MemoriesWf (s.unparkAll f) := h.foldl fun _ _ hs => hs.unpark

theorem MemoriesWf.retryLost {s : State} {r : Req} (h : MemoriesWf s) : MemoriesWf (s.retryLost r) := by
  unfold State.retryLost
  split
  · exact h.resend
  · exact h.exhausted

theorem MemoriesWf.writeSnapshot {s : State} (h : MemoriesWf s) : MemoriesWf s.writeSnapshot := (((h.fwStore _ _).fwStore _ _).fwStore _ _).modFw _

theorem MemoriesWf.peerAnswer {s : State} {h' : PeerHead} {b : Body} (h : MemoriesWf s) : MemoriesWf (s.peerAnswer h' b) := by
  unfold State.peerAnswer
  extract_lets mine
  split
  · exact h.dropAt
  · extract_lets x free
    have hfree : MemoriesWf free := h.setNode _ _
    split
    · exact h.answer
    · exact hfree.sendRecord
    · exact hfree.answer

theorem MemoriesWf.peerRequest {s : State} {agent : Nat} {h' : PeerHead} {b : Body} (h : MemoriesWf s) : MemoriesWf (s.peerRequest agent h' b) := by
  unfold State.peerRequest
  extract_lets key nd go
  have hgo : ∀ s1, MemoriesWf s1 → MemoriesWf (go s1) := by
    intro s1 hs
    unfold go
    split
    · exact ask_keeps hs _ _
    · exact ask_keeps hs _ _
    · exact ask_keeps hs _ _
    · exact hs.dropAt
  split
  · exact hgo _ h
  · split
    · exact hgo _ (h.setNode _ _)
    · split
      · exact h.peerReply
      · split <;> exact h.peerReply

theorem MemoriesWf.peerIn {s : State} {port : Nat} {h' : PeerHead} {b : Body} (h : MemoriesWf s) : MemoriesWf (s.peerIn port h' b) := by
  unfold State.peerIn
  extract_lets agent
  split
  · exact h.passOn
  · split
    · exact h.peerAnswer
    · exact h.peerAnswer
    · exact h.peerAnswer
    · exact h.peerAnswer
    · exact h.peerAnswer
    · exact h.dropAt
    · exact h.peerRequest

/-! ## Timers -/

theorem MemoriesWf.settleInbctl {s : State} (h : MemoriesWf s) : MemoriesWf s.settleInbctl := h.mapCores fun _ _ => Core.applyInbctl_sp _

theorem MemoriesWf.wfeEnd {s : State} {pos slot : Nat} (h : MemoriesWf s) : MemoriesWf (s.wfeEnd pos slot) := by
  unfold State.wfeEnd
  split
  · exact h
  · split
    · exact h.setThread _ _ _
    · exact h

theorem MemoriesWf.watchdogTrap {s : State} {pos slot : Nat} {t : Thread} (h : MemoriesWf s) : MemoriesWf (s.watchdogTrap pos slot t) :=
  h.takeTrap _ _ _

/-! ## DebugCommands -/

theorem MemoriesWf.freezeAll {s : State} {p trig : Nat} {l : List Group} (h : MemoriesWf s) : MemoriesWf (s.freezeAll p trig l) :=
  h.foldl fun _ _ hs => hs.beginStop

theorem MemoriesWf.modGroupThreads {s : State} {hp gid : Nat} {f : Thread → Thread} (h : MemoriesWf s) : MemoriesWf (s.modGroupThreads hp gid f) :=
  h.foldl fun _ _ hs => hs.setThread _ _ _

theorem MemoriesWf.go {s : State} {p : Nat} {g : Group} (h : MemoriesWf s) : MemoriesWf (s.go p g) :=
  ((h.modGroup _ _ _).modGroupThreads).modCore_sp _ fun _ => rfl

theorem MemoriesWf.endStep {s : State} {x : StepOp} (h : MemoriesWf s) : MemoriesWf (s.endStep x) := by
  unfold State.endStep
  extract_lets s1
  have hs1 : MemoriesWf s1 := h.modFw _
  split
  · exact finishCmd_keeps hs1 _ _ _ _
  next g _ =>
    extract_lets n s2 drop s3
    have hs2 : MemoriesWf s2 := hs1.modGroupThreads
    have hdrop : ∀ p c st, (drop p c st).sp = c.sp := fun p c st => by unfold drop; split <;> rfl
    have hs3 : MemoriesWf s3 := hs2.mapCores fun p c => foldl_sp (drop p) (hdrop p) c.threads c
    split
    · exact finishCmd_keeps hs1.modGroupThreads _ _ _ _
    · refine finishCmd_keeps ?_ _ _ _ _
      exact (hs3.modGroup _ _ _).modCore_sp _ fun _ => rfl

theorem MemoriesWf.settleDump {s : State} {x : DumpOp} (h : MemoriesWf s) : MemoriesWf (s.settleDump x) := by
  unfold State.settleDump
  split
  · exact finishCmd_keeps (h.modFw _) _ _ _ _
  · extract_lets late open0 r g
    have hr : MemoriesWf r.1 := h.flushDale
    split
    · exact hr
    · exact finishCmd_keeps (hr.writeDump.modFw _) _ _ _ _

theorem MemoriesWf.settleLags {s : State} (h : MemoriesWf s) : MemoriesWf s.settleLags := by
  unfold State.settleLags
  refine MemoriesWf.foldl h fun s3 x hs => ?_
  extract_lets p now s1 ripe s2
  have hs1 : MemoriesWf s1 := by
    unfold s1
    split
    · exact hs.haltNow
    · exact hs
  have hs2 : MemoriesWf s2 := by
    unfold s2
    refine MemoriesWf.foldl hs1 fun s4 x1 hs3 => ?_
    split
    · exact hs3.modGroup _ _ _
    · exact hs3.freeze
  split
  · exact hs2
  · exact hs2.answerStops

theorem MemoriesWf.settleDumps {s : State} (h : MemoriesWf s) : MemoriesWf s.settleDumps := h.foldl fun _ _ hs => hs.settleDump

theorem MemoriesWf.settleSteps {s : State} (h : MemoriesWf s) : MemoriesWf s.settleSteps := by
  unfold State.settleSteps
  refine MemoriesWf.foldl h fun s1 x hs => ?_
  split
  · exact hs
  · exact hs.endStep

/-! ## Media -/

theorem MemoriesWf.setStream {s : State} {i : Nat} {m : Stream} (h : MemoriesWf s) : MemoriesWf (s.setStream i m) := h.modFw _

theorem MemoriesWf.sendFrameRecord {s : State} {i : Nat} {m : Stream} {vt : BitVec 32} {flags buf lines : Nat} (h : MemoriesWf s) :
    MemoriesWf (s.sendFrameRecord i m vt flags buf lines) :=
  h.foldl fun _ _ hs => MemoriesWf.sendRecord (hs.of_eq rfl rfl rfl rfl)

theorem MemoriesWf.closeFrame {s : State} {i : Nat} {m : Stream} {f : Frame} {early : Bool} (h : MemoriesWf s) : MemoriesWf (s.closeFrame i m f early) :=
  (((((h.fwStore _ _).fwStore _ _).fwStore _ _).fwStore _ _).setStream).sendFrameRecord

theorem MemoriesWf.dropFrame {s : State} {i : Nat} {m : Stream} {idx : Nat} (h : MemoriesWf s) : MemoriesWf (s.dropFrame i m idx) :=
  h.setStream.sendFrameRecord

theorem MemoriesWf.placeData {s : State} {i : Nat} {m : Stream} {f : Frame} {row o : Nat} {data : List Byte} {whole : Nat} (h : MemoriesWf s) :
    MemoriesWf (s.placeData i m f row o data whole).1 := by
  unfold State.placeData
  split
  · exact h
  · extract_lets n dt
    dsimp only
    exact h.fwStore _ _

theorem MemoriesWf.acceptPacket {s : State} {i : Nat} {k : MediaPacket} {t path idx : Nat} (h : MemoriesWf s) :
    MemoriesWf (s.acceptPacket i k t path idx) := by
  unfold State.acceptPacket
  split
  · exact h
  next m _ =>
    split
    · exact h
    next f _ =>
      extract_lets f' one r m1 m2 s1
      have hone : ∀ (x : State × Frame × Bool) (g : MediaSegment), MemoriesWf x.1 → MemoriesWf (one x g).1 := by
        intro x g hx
        unfold one
        dsimp only
        split
        · exact hx.placeData
        · exact hx.placeData
        · split
          · exact hx
          · exact hx.placeData
      have hr : MemoriesWf r.1 := List.foldlRecOn k.segments one h fun x hx g _ => hone x g hx
      have hs1 : MemoriesWf s1 := hr.setStream
      split
      · exact hs1.closeFrame
      · exact hs1

theorem MemoriesWf.openFrame {s : State} {i : Nat} {k : MediaPacket} {idx : Nat} (h : MemoriesWf s) : MemoriesWf (s.openFrame i k idx) := by
  unfold State.openFrame
  split
  · exact h
  · extract_lets s1 m b f
    have hs1 : MemoriesWf s1 := by
      unfold s1
      split
      · exact h.closeFrame
      · exact h
    split
    · exact hs1.dropFrame
    · exact (hs1.fwStore _ _).setStream

theorem MemoriesWf.latePacket {s : State} {i : Nat} {m : Stream} {idx : Nat} (h : MemoriesWf s) : MemoriesWf (s.latePacket i m idx) := by
  unfold State.latePacket
  split
  · exact h.fwStore _ _
  · exact h.setStream

theorem MemoriesWf.stepTime {s : State} {t : Word} (h : MemoriesWf s) : MemoriesWf (s.stepTime t) := by
  unfold State.stepTime
  split
  · exact h
  · exact MemoriesWf.foldl (h.of_eq rfl rfl rfl rfl) fun _ _ hs => hs.traceFull

theorem MemoriesWf.ptpLock {s : State} {t : Word} (h : MemoriesWf s) : MemoriesWf (s.ptpLock t) :=
  ((h.stepTime.modFw _).modFw _).foldl fun _ _ hs => finishCmd_keeps hs _ _ _ _

/-! ## Stealing -/

theorem MemoriesWf.sendSteal {s : State} {p q : Nat} (h : MemoriesWf s) : MemoriesWf (s.sendSteal p q) := by
  unfold State.sendSteal
  extract_lets s1
  have hs1 : MemoriesWf s1 := h.modCore_sp _ fun _ => rfl
  exact hs1.of_eq rfl rfl rfl rfl

theorem MemoriesWf.nextVictim {s : State} {p : Nat} {l : Launch} (h : MemoriesWf s) : MemoriesWf (s.nextVictim p l) := by
  unfold State.nextVictim
  extract_lets c far v s1
  have hs1 : MemoriesWf s1 := h.modCore_sp _ fun _ => rfl
  split
  · exact MemoriesWf.sendSteal (h.modCore_sp _ (fun _ => rfl))
  · split
    · exact h.modCore_sp _ fun _ => rfl
    · split
      · exact hs1.sendSteal
      · exact hs1

theorem MemoriesWf.stealRound {s : State} {p : Nat} (h : MemoriesWf s) : MemoriesWf (s.stealRound p) := by
  unfold State.stealRound
  extract_lets c
  split
  · exact h
  · split
    · exact h
    · exact MemoriesWf.nextVictim (h.modCore_sp _ (fun _ => rfl))

/-! ## Watershed -/

theorem MemoriesWf.latchRound {s : State} {k : Nat} (h : MemoriesWf s) : MemoriesWf (s.latchRound k) := by
  unfold State.latchRound
  extract_lets col s1 s2
  have hs1 : MemoriesWf s1 := h.of_eq rfl rfl rfl rfl
  have hs2 : MemoriesWf s2 := hs1.mapCores fun _ _ => rfl
  exact hs2.modFw _

theorem MemoriesWf.coreGvt {s : State} {p : Nat} {g round : BitVec 32} (h : MemoriesWf s) : MemoriesWf (s.coreGvt p g round) := by
  unfold State.coreGvt
  extract_lets s1 c step
  have hs1 : MemoriesWf s1 := h.modCore_sp _ fun _ => rfl
  split
  · exact hs1.gvtRecord.modCore_sp _ fun _ => rfl
  · exact hs1

theorem MemoriesWf.publish {s : State} {r : WsRound} {forced : Bool} (h : MemoriesWf s) : MemoriesWf (s.publish r forced) := by
  unfold State.publish
  extract_lets b g s1
  have hs1 : MemoriesWf s1 := h.modFw _
  refine MemoriesWf.foldl hs1 fun s2 x hs => ?_
  split
  · exact hs.coreGvt
  · exact hs

theorem MemoriesWf.roundSums {s : State} {r : WsRound} (h : MemoriesWf s) : MemoriesWf (s.roundSums r) := by
  unfold State.roundSums
  extract_lets x r1
  split
  · exact h.publish
  · exact h.modFw _

/-! ## Settle -/

theorem MemoriesWf.settle {s : State} (h : MemoriesWf s) : MemoriesWf s.settle :=
  have h1 := h.settleWatches.settleLags.settlePhases.settleAway.settleGroups.settleBars.settleDetached.settleHeld.settleThreads
  h1.settleWithdraw.settleInbctl.settleShots.settleFlush.settleContain.quarantine.settleSteps.settleDumps.settleQueues

/-! ## HostSide -/

theorem MemoriesWf.hostLineStore {s : State} {off : Nat} {data : List Byte} (h : MemoriesWf s) : MemoriesWf (s.hostLineStore off data) := by
  unfold State.hostLineStore
  split
  · exact (h.mapRange _ _).memStore _ _ _
  · exact h.of_eq rfl rfl rfl rfl

theorem MemoriesWf.hostMemStore {s : State} {off n : Nat} {data : List Byte} (h : MemoriesWf s) : MemoriesWf (s.hostMemStore off data n) := by
  induction n generalizing s off data with
  | zero => exact h
  | succ n ih =>
    unfold State.hostMemStore
    split
    · exact h
    · exact ih h.hostLineStore

theorem MemoriesWf.hostDevStore {s : State} {ia : Nat} {data : List Byte} (h : MemoriesWf s) : MemoriesWf (s.hostDevStore ia data) := by
  unfold State.hostDevStore
  split
  · exact h.hostMemStore
  · exact h.devStore
  · exact h

/-- Other lines of the host. -/
theorem MemoriesWf.hostLines {s : State} (h : MemoriesWf s) (t : Tbl HostLine) : MemoriesWf { s with hostLines := t } := h.of_eq rfl rfl rfl rfl

theorem MemoriesWf.hostTakeLine {s : State} {line : Nat} (h : MemoriesWf s) : MemoriesWf (s.hostTakeLine line) := by
  unfold State.hostTakeLine
  split
  · exact MemoriesWf.hostLines (h.mapRange _ _) _
  · exact h

theorem MemoriesWf.hostGiveLine {s : State} {line : Nat} {h' : HostLine} (h : MemoriesWf s) : MemoriesWf (s.hostGiveLine line h') := by
  unfold State.hostGiveLine
  split
  · exact MemoriesWf.hostRecall (h.of_eq rfl rfl rfl rfl)
  · exact h

theorem MemoriesWf.configWrite {s : State} {off : Nat} {v : Word} (h : MemoriesWf s) : MemoriesWf (s.configWrite off v) := by
  unfold State.configWrite
  extract_lets set
  have hset : ∀ x, MemoriesWf (set x) := by
    intro x
    unfold set
    split
    · exact h
    · exact h.modQueue
  split
  · exact h
  · split
    · exact hset _
    · exact hset _
    · exact hset _
    · exact hset _
    · exact hset _
    · split
      · exact h.startQueue
      · exact h.stopQueue
    · split
      · exact h.warmReset
      · exact h
    · exact h

end Sys2Proof.Claims
end

section
/-! PROOFS. The shapes that the meanings share keep the canonical form of every memory where their bodies do. -/
namespace Sys2Proof.Claims
open Sys2Proof.Machine

/-! ## Shapes on the issuing thread -/

/-- An instruction that is held back. -/
theorem outWf_stall {s : State} (h : MemoriesWf s) : OutWf (stall s) := outWf_next h

/-- A shape on the issuing thread. -/
theorem outWf_withThread {s : State} {k : Thread → Out} (hk : ∀ t, OutWf (k t)) : OutWf (withThread s k) := fun _ e => withThread_keeps hk e

/-- A shape on a group and its launch. -/
theorem outWf_withGroup {s : State} {t : Thread} {k : Group → Launch → Out} (hk : ∀ g l, OutWf (k g l)) : OutWf (withGroup s t k) :=
  fun _ e => withGroup_keeps hk e

/-- An instruction without a format. -/
theorem outWf_plain {rs : List Reg} {s : State} {k : Thread → Out} (h : MemoriesWf s) (hk : ∀ t, OutWf (k t)) : OutWf (plain rs s k) :=
  fun _ e => h.plain hk e

/-- An instruction on registers alone. -/
theorem outWf_intOp {rs : List Reg} {f : Thread → Thread} {s : State} (h : MemoriesWf s) : OutWf (intOp rs f s) := fun _ e => h.intOp e

/-- An instruction that takes formats. -/
theorem outWf_withPfx {rs : List Reg} {ok : BitVec 32 → Bool} {s : State} {k : Thread → BitVec 32 → Out} (h : MemoriesWf s)
    (hk : ∀ t w, OutWf (k t w)) : OutWf (withPfx rs ok s k) := fun _ e => withPfx_keeps h hk e

theorem outWf_fpBin {f : FF → Rm → Nat → Nat → Res} {p : Prec} {d a b : Reg} {s : State} (h : MemoriesWf s) : OutWf (fpBin f p d a b s) :=
  outWf_withPfx h fun _ _ => outWf_next (h.retire _ _)

theorem outWf_fpTri {f : FF → Rm → Nat → Nat → Nat → Res} {p : Prec} {d a b c : Reg} {s : State} (h : MemoriesWf s) : OutWf (fpTri f p d a b c s) :=
  outWf_withPfx h fun _ _ => outWf_next (h.retire _ _)

/-- A branch. -/
theorem outWf_branch {rs : List Reg} {c : Thread → Bool} {i : BitVec 12} {s : State} (h : MemoriesWf s) : OutWf (branch rs c i s) :=
  fun _ e => branch_keeps h e

/-! ## Accesses -/

/-- An access to memory. -/
theorem outWf_access {s : State} {t : Thread} {a : Acc} {moves ret : Bool} {k : Group → Launch → Nat → Out} (h : MemoriesWf s)
    (hk : ∀ g l ia, OutWf (k g l ia)) : OutWf (access s t a moves ret k) := fun _ e => access_keeps h hk e

/-- An access under the rule of a check run: performed, folded or void. -/
theorem outWf_checked {s : State} {t : Thread} {g : Group} {ia n : Nat} {ld ret : Bool} {fold perform : Out} (h : MemoriesWf s)
    (hf : OutWf fold) (hp : OutWf perform) : OutWf (checked s t g ia n ld ret fold perform) := by
  unfold checked
  split
  · exact hp
  · exact hf
  · exact outWf_next h.voidRun

/-- A wait for earlier accesses and for the dale's reductions. -/
theorem outWf_drain {s : State} {t : Thread} {busy : Bool} {flush : Option (DruEntry → Bool)} {k : Out} (h : MemoriesWf s) (hk : OutWf k) :
    OutWf (drain s t busy flush k) := by
  unfold drain
  split
  · exact outWf_stall h
  · split
    · exact hk
    · split
      · split
        · exact outWf_stall h
        · exact hk
      · dsimp only
        split
        · exact hk
        · exact outWf_next (h.flushDale.setCur _)

theorem outWf_accessWait {s : State} {t : Thread} {k : Out} (h : MemoriesWf s) (hk : OutWf k) : OutWf (accessWait s t k) := outWf_drain h hk

theorem outWf_fenceWait {s : State} {t : Thread} {sc : Scope} {k : Out} (h : MemoriesWf s) (hk : OutWf k) : OutWf (fenceWait s t sc k) :=
  outWf_drain h hk

theorem outWf_releaseWait {s : State} {t : Thread} {g : Group} {sync : Nat} {k : Out} (h : MemoriesWf s) (hk : OutWf k) :
    OutWf (releaseWait s t g sync k) := outWf_drain h hk

/-! ## Vector, tile and engine instructions -/

/-- A vector instruction. -/
theorem outWf_vecOp {rs : List Reg} {ok : BitVec 32 → Bool} {s : State} {k : Thread → Group → Launch → Bool → Out} (h : MemoriesWf s)
    (hk : ∀ t g l c, OutWf (k t g l c)) : OutWf (vecOp rs ok s k) := fun _ e => vecOp_keeps h hk e

/-- An instruction that places a vector command. -/
theorem outWf_enqueue {s : State} {t : Thread} {c : Bool} {k : VCmd} {len : Nat} {rd : Option Reg} (h : MemoriesWf s) : OutWf (enqueue s t c k len rd) :=
  fun _ e => enqueue_keeps h e

theorem outWf_vecReg {len : Nat} {op : VOp} {d a b : BitVec 5} {m : MReg} {ok : BitVec 32 → Bool} {s : State} (h : MemoriesWf s) :
    OutWf (vecReg len op d a b m ok s) := fun _ e => vecReg_keeps h e

theorem outWf_vecScalar {op : VOp} {d a : BitVec 5} {b : Reg} {m : MReg} {ok : BitVec 32 → Bool} {s : State} (h : MemoriesWf s) :
    OutWf (vecScalar op d a b m ok s) := fun _ e => vecScalar_keeps h e

theorem outWf_vecToX {op : VOp} {d : Reg} {a b : BitVec 5} {m : MReg} {x2 : Option Reg} {s : State} (h : MemoriesWf s) :
    OutWf (vecToX op d a b m x2 s) := fun _ e => vecToX_keeps h e

theorem outWf_vecMem {op : VOp} {ld : Bool} {n align : Nat} {bytes : Bool} {d : BitVec 5} {base : Reg} {x2 : Option Reg} {m : MReg}
    {addr : Thread → VCtx → List VElem} {s : State} (h : MemoriesWf s) : OutWf (vecMem op ld n align bytes d base x2 m addr s) :=
  outWf_vecOp h fun t _ l c => by
    dsimp only
    split
    · exact outWf_stall h
    · split
      · exact outWf_next h.elemFault
      · exact outWf_enqueue h

theorem outWf_vecUnit {op : VOp} {ld : Bool} {d : BitVec 5} {a : Reg} {m : MReg} {s : State} (h : MemoriesWf s) : OutWf (vecUnit op ld d a m s) :=
  outWf_vecMem h

theorem outWf_vecStride {op : VOp} {ld : Bool} {w : Nat} {d : BitVec 5} {a b : Reg} {m : MReg} {s : State} (h : MemoriesWf s) :
    OutWf (vecStride op ld w d a b m s) := outWf_vecMem h

theorem outWf_vecIndex {op : VOp} {ld : Bool} {w : Nat} {d : BitVec 5} {a : Reg} {b : BitVec 5} {m : MReg} {s : State} (h : MemoriesWf s) :
    OutWf (vecIndex op ld w d a b m s) := outWf_vecMem h

/-- A tile instruction. -/
theorem outWf_tileOp {rs : List Reg} {ok : BitVec 32 → Bool} {s : State} {k : Thread → Group → Launch → BitVec 32 → Out} (h : MemoriesWf s)
    (hk : ∀ t g l w, OutWf (k t g l w)) : OutWf (tileOp rs ok s k) :=
  outWf_withThread fun t => outWf_withGroup fun g l => by
    split
    · exact outWf_next (h.trapBits _)
    · split
      · exact outWf_next (h.illegal _)
      · split
        · exact outWf_stall h
        · exact hk _ _ _ _

/-- A fork waits for the accesses and the vector commands before it. -/
theorem outWf_forkWait {s : State} {t : Thread} {k : Out} (h : MemoriesWf s) (hk : OutWf k) : OutWf (forkWait s t k) :=
  outWf_accessWait h (by
    split
    · exact hk
    · exact outWf_stall h)

theorem outWf_forkTile {s : State} {t : Thread} {o : TileOp} (h : MemoriesWf s) : OutWf (forkTile s t o) := by
  unfold forkTile
  split
  · exact outWf_stall h
  · have hn : MemoriesWf { s with nextId := s.nextId + 1 } := h.of_eq rfl rfl rfl rfl
    refine outWf_next (MemoriesWf.retire ?_ _ _)
    exact hn.modCore_sp _ fun _ => rfl

theorem outWf_tileMul {kind : TileKind} {q : AccReg} {d a b c : Reg} {s : State} (h : MemoriesWf s) : OutWf (tileMul kind q d a b c s) :=
  outWf_tileOp h fun t g l w => by
    dsimp only
    split
    · exact outWf_next (h.illegal _)
    · split
      · exact outWf_next (h.trap _)
      · split
        · exact outWf_next (h.trap _)
        · split
          · exact outWf_next (h.trap _)
          · split
            · exact outWf_next (h.free.trap _)
            · exact outWf_forkWait h (outWf_forkTile h)

theorem outWf_tileMove {kind : TileKind} {q : AccReg} {a b : Reg} {s : State} (h : MemoriesWf s) : OutWf (tileMove kind q a b s) :=
  outWf_tileOp h fun t g l w => by
    dsimp only
    split
    · exact outWf_next (h.illegal _)
    · split
      · exact outWf_next (h.trap _)
      · exact outWf_forkWait h (outWf_forkTile h)

theorem outWf_forkEngine {s : State} {t : Thread} {off : Nat} {todo : List Piece} (h : MemoriesWf s) : OutWf (forkEngine s t off todo) := by
  unfold forkEngine
  split
  · exact outWf_stall h
  · exact outWf_next (h.retire _ _).startEngine

/-! ## Tasks, events, steps and control registers -/

/-- An event instruction. -/
theorem outWf_eventOp {hosted : Bool} {rs : List Reg} {s : State} {k : Thread → Group → Launch → Out} (h : MemoriesWf s)
    (hk : ∀ t g l, OutWf (k t g l)) : OutWf (eventOp hosted rs s k) :=
  outWf_plain h fun t => outWf_withGroup fun g l => by
    split
    · exact outWf_next (h.illegal _)
    · exact hk _ _ _

/-- A task instruction. -/
theorem outWf_taskOp {rs : List Reg} {s : State} {k : Thread → Group → Launch → Out} (h : MemoriesWf s) (hk : ∀ t g l, OutWf (k t g l)) :
    OutWf (taskOp rs s k) :=
  outWf_plain h fun t => outWf_withGroup fun g l => by
    split
    · exact outWf_next (h.illegal _)
    · exact outWf_accessWait h (hk _ _ _)

/-- A step-mode instruction. -/
theorem outWf_stepOp {rs : List Reg} {s : State} {k : Thread → Group → Launch → Out} (h : MemoriesWf s) (hk : ∀ t g l, OutWf (k t g l)) :
    OutWf (stepOp rs s k) := fun _ e => stepOp_keeps h hk e

/-- A control register instruction. -/
theorem outWf_csrOp {wr : Bool} {c : BitVec 12} {rs : List Reg} {s : State} {k : Thread → Group → Launch → Out} (h : MemoriesWf s)
    (hk : ∀ t g l, OutWf (k t g l)) : OutWf (csrOp wr c rs s k) :=
  outWf_withThread fun t => outWf_withGroup fun g l => by
    split
    · exact outWf_next (h.illegal _)
    · split
      · exact outWf_next (h.illegal _)
      · split
        · exact outWf_next (h.trapBits _)
        · split
          · exact outWf_next (h.illegal _)
          · split
            · exact outWf_stall h
            · split
              · exact outWf_stall h
              · exact hk _ _ _

theorem outWf_csrWrite {f : Word → Word → Word} {c : BitVec 12} {a : Reg} {s : State} (h : MemoriesWf s) : OutWf (csrWrite f c a s) :=
  outWf_csrOp h fun _ _ _ => outWf_next (h.csrPut.retire _ _)

/-! ## Commands of the host -/

/-- A command of the host. -/
theorem outWf_command {q opc : Nat} {f : Nat → Bool} {s : State} {k : CmdRef → List Byte → State → State} (h : MemoriesWf s)
    (hk : ∀ c e u, MemoriesWf u → MemoriesWf (k c e u)) : OutWf (command q opc f s k) := fun _ e => command_keeps h hk e

theorem outWf_queryGet {q item : Nat} {s : State} {content : State → List Byte} (h : MemoriesWf s) : OutWf (queryGet q item s content) :=
  outWf_command h fun _ _ _ hu => hu.putResult

theorem outWf_queueAction {q action : Nat} {s : State} {k : CmdRef → Nat → List Byte → State → State} (h : MemoriesWf s)
    (hk : ∀ c i e u, MemoriesWf u → MemoriesWf (k c i e u)) : OutWf (queueAction q action s k) := by
  unfold queueAction
  split
  · exact outWf_next h
  · split
    · exact outWf_next h
    · refine outWf_command h fun c e u hu => ?_
      dsimp only
      split
      · exact finishCmd_keeps hu _ _ _ _
      · exact hk _ _ _ _ hu

theorem outWf_debugCommand {q sub feat : Nat} {all : Bool} {s : State} {k : CmdRef → List Byte → Target → State → State} (h : MemoriesWf s)
    (hk : ∀ c e t u, MemoriesWf u → MemoriesWf (k c e t u)) : OutWf (debugCommand q sub feat all s k) :=
  outWf_command h fun c e u hu => by
    split
    · exact finishCmd_keeps hu _ _ _ _
    · exact hk _ _ _ _ hu

end Sys2Proof.Claims
end

section
/-! PROOFS. Every meaning keeps the canonical form of every memory. -/
namespace Sys2Proof.Claims
open Sys2Proof.Machine

/-! ## Memory -/

theorem outWf_load {s : State} {n : Nat} {sg : Bool} {via : Via} {d a : Reg} {i : BitVec 12} (h : MemoriesWf s) : OutWf (load n sg via d a i s) := by
  unfold Machine.load
  refine outWf_plain h fun x => ?_
  extract_lets va
  refine outWf_access h fun x1 x2 x3 => ?_
  refine outWf_checked h (outWf_next h) ?_
  split
  · split
    next _ _ _ e =>
      exact outWf_next ((MemoriesWf.of_fst e h.atOwn).issued)
    next _ _ _ e1 =>
      exact outWf_next ((MemoriesWf.of_fst e1 h.atOwn).consumePoison)
    next _ _ _ _ _ _ e2 =>
      exact outWf_next (((MemoriesWf.of_fst e2 h.atOwn).retire _ _).ownFault)
    · exact outWf_next h
  · extract_lets rt sendB
    split
    · exact outWf_next ((ask_keeps h _ _).issued)
    · split
      · exact outWf_next (MemoriesWf.issued (h.modCore_sp _ (fun _ => Core.l1Touch_sp _ _ _)))
      · exact outWf_next ((ask_keeps h _ _).issued)

theorem outWf_store {s : State} {n : Nat} {a b : Reg} {i : BitVec 12} (h : MemoriesWf s) : OutWf (store n a b i s) := by
  unfold Machine.store
  refine outWf_plain h fun x => ?_
  extract_lets va v data
  refine outWf_access h fun x1 x2 x3 => ?_
  extract_lets t rt
  refine outWf_checked h (outWf_next (h.retire _ _)) ?_
  split
  · split
    next _ _ _ e =>
      exact outWf_next ((MemoriesWf.of_fst e h.atOwn).issued)
    next _ _ _ _ _ e1 =>
      exact outWf_next (((MemoriesWf.of_fst e1 h.atOwn).retire _ _).ownFault)
    · exact outWf_next h
  · exact outWf_next ((ask_keeps h _ _).issued)

theorem outWf_tagged {s : State} {op : TagOp} {rs : List Reg} {d : Reg} {pd : Pred} {a : Reg} {v : Thread → Word} {i : BitVec 12} (h : MemoriesWf s) :
    OutWf (tagged op rs d pd a v i s) :=
  outWf_plain h fun t => by
    extract_lets va rets use
    refine outWf_access h fun g l ia => ?_
    extract_lets t' rt go
    have hgo : OutWf go := by
      unfold go
      split
      · split
        next hu =>
          have hs := MemoriesWf.of_fst hu h.atOwn
          refine outWf_next ?_
          split
          · exact hs.issued.acquire
          · exact hs.issued
        next hu => exact outWf_next ((MemoriesWf.of_fst hu h.atOwn).retire _ _).consumePoison
        next hu => exact outWf_next ((MemoriesWf.of_fst hu h.atOwn).retire _ _).ownFault
        next hu => exact outWf_next ((MemoriesWf.of_fst hu h.atOwn).setCur _).watchLater
        · exact outWf_stall h
      · exact outWf_next (ask_keeps h _ _).sleepForReply.watchLater
    refine outWf_checked h (outWf_next (h.retire _ _)) ?_
    split
    · exact outWf_releaseWait h hgo
    · exact hgo

theorem outWf_execXst {s : State} {a b : Reg} {i : BitVec 12} (h : MemoriesWf s) : OutWf (execXst a b i s) :=
  outWf_plain h fun _ => outWf_access h fun _ _ _ => outWf_checked h (outWf_next (h.retire _ _)) (outWf_next ((ask_keeps h _ _).issued))

theorem outWf_atomic {s : State} {sc : Scope} {w : AtomWidth} {body : Thread → Nat → Body} {d a b : Reg}
    (h : MemoriesWf s) : OutWf (atomic sc w body d a b s) := by
  unfold Machine.atomic
  refine outWf_plain h fun x => ?_
  extract_lets va n
  refine outWf_access h fun x1 x2 x3 => ?_
  extract_lets t rt
  refine outWf_checked h (outWf_next h) ?_
  refine outWf_drain h ?_
  split
  · split
    next _ _ _ e =>
      exact outWf_next ((MemoriesWf.of_fst e h.atOwn).issued)
    next _ _ _ e1 =>
      exact outWf_next (((MemoriesWf.of_fst e1 h.atOwn).retire _ _).consumePoison)
    next _ _ _ _ _ _ e2 =>
      exact outWf_next (((MemoriesWf.of_fst e2 h.atOwn).retire _ _).ownFault)
    · exact outWf_next h
  · exact outWf_next ((ask_keeps h _ _).issued)

theorem outWf_amo {s : State} {op : AmoOp} {sc : Scope} {w : AtomWidth} {d a b : Reg} (h : MemoriesWf s) : OutWf (amo op sc w d a b s) :=
  outWf_atomic h

theorem outWf_execRed {s : State} {o : RedOp} {f : Scope} {w : AtomWidth} {a b : Reg} (h : MemoriesWf s) : OutWf (execRed o f w a b s) := by
  unfold Machine.execRed
  refine outWf_plain h fun x => ?_
  extract_lets va n v
  refine outWf_access h fun x1 x2 x3 => ?_
  extract_lets t r rt
  have hr : MemoriesWf r.1 := h.druReduce
  refine outWf_checked h (outWf_next (h.retire _ _)) ?_
  split
  · split
    · exact outWf_next hr.issued
    · split
      · exact outWf_next h
      · exact outWf_next (hr.setCur _)
  · split
    · split
      next _ _ _ e =>
        exact outWf_next ((MemoriesWf.of_fst e h.atOwn).issued)
      next _ _ _ _ _ e1 =>
        exact outWf_next (((MemoriesWf.of_fst e1 h.atOwn).retire _ _).ownFault)
      · exact outWf_next h
    · exact outWf_next ((ask_keeps h _ _).issued)

theorem outWf_execRamo {s : State} {o : AmoOp} {w : AtomWidth} {a b tr : Reg} (h : MemoriesWf s) : OutWf (execRamo o w a b tr s) := by
  unfold Machine.execRamo
  refine outWf_plain h fun x => ?_
  extract_lets va n
  refine outWf_access h fun x1 x2 x3 => ?_
  split
  · exact outWf_next h.voidRun
  · exact outWf_next ((ask_keeps h _ _).issued)

theorem outWf_execFence {s : State} {f : Scope} (h : MemoriesWf s) : OutWf (execFence f s) :=
  outWf_plain h fun _ => outWf_fenceWait h (outWf_next (h.retire _ _))

theorem outWf_execAcq {s : State} {d a : Reg} {i : BitVec 12} (h : MemoriesWf s) : OutWf (execAcq d a i s) := by
  unfold Machine.execAcq
  refine outWf_plain h fun x => ?_
  extract_lets va
  refine outWf_access h fun x1 x2 x3 => ?_
  refine outWf_checked h (outWf_next h) ?_
  split
  · split
    next _ _ _ e =>
      exact outWf_next (((MemoriesWf.of_fst e h.atOwn).issued).acquire)
    next _ _ _ e1 =>
      exact outWf_next ((MemoriesWf.of_fst e1 h.atOwn).consumePoison)
    next _ _ _ _ _ _ e2 =>
      exact outWf_next (((MemoriesWf.of_fst e2 h.atOwn).retire _ _).ownFault)
    · exact outWf_next h
  · exact outWf_next (((ask_keeps h _ _).sleepForReply).watchLater)

theorem outWf_execRel {s : State} {a b : Reg} {i : BitVec 12} (h : MemoriesWf s) : OutWf (execRel a b i s) := by
  unfold Machine.execRel
  refine outWf_plain h fun x => ?_
  extract_lets va
  refine outWf_access h fun x1 x2 x3 => ?_
  extract_lets t rt
  refine outWf_checked h (outWf_next (h.retire _ _)) ?_
  refine outWf_releaseWait h ?_
  split
  · split
    next _ _ _ e =>
      exact outWf_next ((MemoriesWf.of_fst e h.atOwn).issued)
    next _ _ _ _ _ e1 =>
      exact outWf_next (((MemoriesWf.of_fst e1 h.atOwn).retire _ _).ownFault)
    · exact outWf_next h
  · exact outWf_next ((ask_keeps h _ _).issued)

theorem outWf_execBind {s : State} {a b : Reg} {k : BitVec 7} (h : MemoriesWf s) : OutWf (execBind a b k s) := by
  unfold Machine.execBind
  refine outWf_plain h fun x => ?_
  refine outWf_withGroup fun x1 x2 => ?_
  split
  · exact outWf_next (h.illegal _)
  · split
    · exact outWf_next (h.trap _)
    · extract_lets base
      split
      · exact outWf_next (h.trap _)
      · extract_lets e
        split
        · exact outWf_next (h.retire _ _)
        · split
          · exact outWf_next (h.illegal _)
          · exact outWf_next ((h.modGroup _ _ _).retire _ _)

theorem outWf_execUnbind {s : State} {a : Reg} (h : MemoriesWf s) : OutWf (execUnbind a s) := by
  unfold Machine.execUnbind
  refine outWf_plain h fun x => ?_
  refine outWf_withGroup fun x1 x2 => ?_
  split
  · exact outWf_next (h.trap _)
  · exact outWf_next ((h.modGroup _ _ _).retire _ _)

theorem outWf_execArrive {s : State} {a : Reg} (h : MemoriesWf s) : OutWf (execArrive a s) := by
  unfold Machine.execArrive
  refine outWf_plain h fun x => ?_
  refine outWf_withGroup fun x1 x2 => ?_
  extract_lets hp
  split
  · exact outWf_next (h.trap _)
  · refine outWf_releaseWait h ?_
    split
    · exact outWf_next ((h.retire _ _).barrierUpdate)
    · exact outWf_next h

theorem outWf_execWaitph {s : State} {a b : Reg} (h : MemoriesWf s) : OutWf (execWaitph a b s) := by
  unfold Machine.execWaitph
  refine outWf_plain h fun x => ?_
  refine outWf_withGroup fun x1 x2 => ?_
  extract_lets hp
  split
  · exact outWf_next (h.trap _)
  · extract_lets phase
    split
    · exact outWf_next h
    · split
      · exact outWf_next ((h.retire _ _).consumePoison)
      · split
        · split
          · exact outWf_next h
          · exact outWf_next (h.setCur _)
        · exact outWf_next ((h.retire _ _).acquire)

/-! ## Checks -/

theorem outWf_execCheckClose {s : State} {i : Nat} (h : MemoriesWf s) : OutWf (execCheckClose i s) := by
  unfold Machine.execCheckClose
  split
  · refine outWf_next ?_
    split
    · exact h.closeCheck
    · exact h
  · exact outWf_next h

/-! ## Tasks -/

theorem outWf_readRecord {s : State} {t : Thread} {b : Reg} {k : Thread → Group → Launch → List Byte → Out} (h : MemoriesWf s)
    (hk : ∀ t g l bs, OutWf (k t g l bs)) : OutWf (readRecord s t b k) :=
  outWf_withGroup fun g l => by
    extract_lets got va
    split
    · exact hk _ _ _ _
    · split
      · exact outWf_next (h.trap _)
      · extract_lets watch rt send
        have hsend : ∀ body off fill, OutWf (send body off fill) := fun _ _ _ => outWf_next ((ask_keeps h _ _).setCur _).watchIssue
        split
        · exact outWf_stall h
        · refine outWf_checked h (outWf_stall h) ?_
          split
          · split
            next hu => exact outWf_next ((MemoriesWf.of_fst hu h.atOwn).setCur _).watchIssue
            next hu => exact outWf_next (MemoriesWf.of_fst hu h.atOwn).consumePoison
            next hu => exact outWf_next ((MemoriesWf.of_fst hu h.atOwn).setCur _).ownFault
            · exact outWf_stall h
          · split
            · exact hsend _ _ _
            · split
              · refine outWf_next (MemoriesWf.watchIssue (MemoriesWf.setCur ?_ _))
                exact h.modCore_sp _ fun c => Core.l1Touch_sp c _ _
              · exact hsend _ _ _

theorem outWf_execDqpush {s : State} {d a : Reg} (h : MemoriesWf s) : OutWf (execDqpush d a s) := by
  unfold Machine.execDqpush
  refine outWf_taskOp h fun x x1 x2 => ?_
  refine outWf_readRecord h fun x3 x4 x5 x6 => ?_
  extract_lets t
  split
  · exact outWf_next (h.retire _ _)
  · split
    · exact outWf_next (h.retire _ _)
    · split
      · refine outWf_next ?_
        refine MemoriesWf.retire ?_ _ _
        exact h.modCore_sp _ fun _ => rfl
      · exact outWf_next (h.retire _ _)

theorem outWf_execDqpop {s : State} {d a : Reg} (h : MemoriesWf s) : OutWf (execDqpop d a s) := by
  unfold Machine.execDqpop
  refine outWf_taskOp h fun x x1 x2 => ?_
  split
  · exact outWf_next h.voidRun
  · extract_lets va bad
    split
    · clear_value bad
      split
      · exact outWf_next (h.trap _)
      · exact outWf_next (h.retire _ _)
    · clear_value bad
      split
      · exact outWf_next (h.trap _)
      · extract_lets s1 t
        have hs1 : MemoriesWf s1 := MemoriesWf.storeWords (h.modCore_sp _ (fun _ => Core.pop_sp _))
        exact outWf_next (hs1.retire _ _)

theorem outWf_execTdec {s : State} {a b : Reg} (h : MemoriesWf s) : OutWf (execTdec a b s) := by
  unfold Machine.execTdec
  refine outWf_taskOp h fun x x1 x2 => ?_
  extract_lets k va
  split
  · exact outWf_next (h.illegal _)
  · refine outWf_access h fun x3 x4 x5 => ?_
    extract_lets t rt
    refine outWf_checked h (outWf_next (h.retire _ _)) ?_
    split
    · exact outWf_next ((h.modGroup _ _ _).issued)
    · split
      · exact outWf_next ((h.retire _ _).ownFault)
      · exact outWf_next ((ask_keeps h _ _).issued)

theorem outWf_execTspawn {s : State} {a b : Reg} (h : MemoriesWf s) : OutWf (execTspawn a b s) := by
  unfold Machine.execTspawn
  refine outWf_taskOp h fun x1 x2 x3 => ?_
  extract_lets x
  split
  · exact outWf_next (h.illegal _)
  · split
    · exact outWf_next (h.free.trap _)
    · refine outWf_readRecord h fun x4 x5 x6 x7 => ?_
      extract_lets t
      split
      · exact outWf_next (h.retire _ _)
      · exact outWf_next (h.remotePush.retire _ _)

theorem outWf_execTdetach {s : State} (h : MemoriesWf s) : OutWf (execTdetach s) := by
  unfold Machine.execTdetach
  refine outWf_plain h fun x => ?_
  refine outWf_withGroup fun x1 x2 => ?_
  split
  · exact outWf_next (h.illegal _)
  · split
    · exact outWf_next (h.retire _ _)
    · exact outWf_next ((h.modGroup _ _ _).retire _ _)

theorem outWf_execTyield {s : State} (h : MemoriesWf s) : OutWf (execTyield s) := by
  unfold Machine.execTyield
  refine outWf_plain h fun x1 => ?_
  split
  · exact outWf_next (h.illegal _)
  · extract_lets s1 x
    have hs1 : MemoriesWf s1 := h.modCore_sp _ fun _ => rfl
    exact outWf_next (hs1.setCur _)

theorem outWf_execGo {s : State} {a : Reg} (h : MemoriesWf s) : OutWf (execGo a s) := by
  unfold Machine.execGo
  refine outWf_taskOp h fun x x1 x2 => ?_
  refine outWf_readRecord h fun x3 x4 x5 x6 => ?_
  extract_lets c t
  split
  · exact outWf_next (h.retire _ _)
  · split
    · exact outWf_next (h.discardTask.retire _ _)
    · exact outWf_next (h.remotePush.retire _ _)
    · split
      · exact outWf_next (h.startGroup.retire _ _)
      · exact outWf_next h

theorem outWf_execTexit {s : State} (h : MemoriesWf s) : OutWf (execTexit s) := by
  unfold Machine.execTexit
  refine outWf_plain h fun x => ?_
  refine outWf_withGroup fun x1 x2 => ?_
  refine outWf_fenceWait h ?_
  split
  · exact outWf_next h
  · split
    · exact outWf_next h.exitThread
    · exact outWf_next h

theorem outWf_execBar {s : State} {lv : BitVec 3} (h : MemoriesWf s) : OutWf (execBar lv s) := by
  unfold Machine.execBar
  refine outWf_plain h fun x => ?_
  refine outWf_withGroup fun x1 x2 => ?_
  extract_lets k hp
  split
  · exact outWf_next (h.illegal _)
  · extract_lets above s1
    have hs1 : MemoriesWf s1 := by
      unfold s1
      split
      · exact h.modCore_sp _ fun _ => rfl
      · exact h
    split
    · exact outWf_next (h.illegal _)
    · split
      · exact outWf_next (h.trap _)
      · split
        · exact outWf_next h.sleepAt
        · exact outWf_fenceWait h (outWf_next ((hs1.modGroup _ _ _).sleepAt))

theorem outWf_execBarX {s : State} (h : MemoriesWf s) : OutWf (execBarX s) := by
  unfold Machine.execBarX
  refine outWf_plain h fun x => ?_
  refine outWf_withGroup fun x1 x2 => ?_
  split
  · exact outWf_next h.sleepAt
  · exact outWf_fenceWait h (outWf_next ((h.modGroup _ _ _).sleepAt))

theorem outWf_execBarT {s : State} (h : MemoriesWf s) : OutWf (execBarT s) := by
  unfold Machine.execBarT
  refine outWf_stepOp h fun x x1 x2 => ?_
  split
  · exact outWf_next h.sleepAt
  · exact outWf_fenceWait h (outWf_next ((h.modGroup _ _ _).sleepAt))

theorem outWf_execNsend {s : State} {r : Dir} {a : Reg} (h : MemoriesWf s) : OutWf (execNsend r a s) := by
  unfold Machine.execNsend
  refine outWf_stepOp h fun x1 x2 x3 => ?_
  split
  · exact outWf_next (h.illegal _)
  · extract_lets s1 q k x
    have hs1 : MemoriesWf s1 := h.modCore_sp _ fun _ => rfl
    have hq : MemoriesWf q.2 := hs1.nextNs
    refine outWf_next ?_
    refine MemoriesWf.retire ?_ _ _
    exact hq.of_eq rfl rfl rfl rfl

theorem outWf_execNrecv {s : State} {r : Dir} {d : Reg} (h : MemoriesWf s) : OutWf (execNrecv r d s) := by
  unfold Machine.execNrecv
  refine outWf_stepOp h fun x x1 x2 => ?_
  split
  · refine outWf_next ?_
    refine MemoriesWf.retire ?_ _ _
    exact h.modCore_sp _ fun _ => rfl
  · split
    · exact outWf_next (h.retire _ _)
    · exact outWf_next (h.setCur _)

/-! ## System -/

theorem outWf_execUnassignedEncoding {s : State} {bits : BitVec 32} {nonzeroField : Bool}
    (h : MemoriesWf s) : OutWf (execUnassignedEncoding bits nonzeroField s) :=
  outWf_withThread fun _ => outWf_next (h.trap _)

theorem outWf_execEcall {s : State} (h : MemoriesWf s) : OutWf (execEcall s) := outWf_plain h fun _ => outWf_next (h.trap _)

theorem outWf_execEbreak {s : State} (h : MemoriesWf s) : OutWf (execEbreak s) := by
  unfold Machine.execEbreak
  refine outWf_plain h fun x => ?_
  split
  · exact outWf_next ((h.retire _ _).trigger)
  · exact outWf_next (h.trap _)

theorem outWf_execTret {s : State} (h : MemoriesWf s) : OutWf (execTret s) := by
  unfold Machine.execTret
  refine outWf_plain h fun x => ?_
  split
  · exact outWf_next (h.illegal _)
  · exact outWf_next ((h.setCur _).traceTret _ _)

theorem outWf_execWfe {s : State} (h : MemoriesWf s) : OutWf (execWfe s) := outWf_plain h fun _ => outWf_next (h.setCur _)

theorem outWf_execHalt {s : State} (h : MemoriesWf s) : OutWf (execHalt s) := by
  unfold Machine.execHalt
  refine outWf_plain h fun x => ?_
  extract_lets hp s1 low s2 n
  have hs1 : MemoriesWf s1 := h.retire _ _
  have hs2 : MemoriesWf s2 := hs1.modCore_sp _ fun _ => Core.recordTrigger_sp _ _ _ _ _ _
  split
  · exact outWf_next (hs2.markStop.freeze.modFw _)
  · exact outWf_next (h.terminate _ _ _ _ _ _ _)

theorem outWf_execFmt {s : State} {sat : BitVec 1} {rm : BitVec 3} {fd fc fb fa : BitVec 4}
    (h : MemoriesWf s) : OutWf (execFmt sat rm fd fc fb fa s) := by
  unfold Machine.execFmt
  refine outWf_plain h fun x => ?_
  extract_lets w t
  split
  · exact outWf_next (h.illegal _)
  · exact outWf_next (h.setCur _)

theorem outWf_execCsrr {s : State} {c : BitVec 12} {d : Reg} (h : MemoriesWf s) : OutWf (execCsrr c d s) :=
  outWf_csrOp h fun _ _ _ => outWf_next (h.retire _ _)

theorem outWf_execCsrw {s : State} {c : BitVec 12} {a : Reg} (h : MemoriesWf s) : OutWf (execCsrw c a s) := outWf_csrWrite h

theorem outWf_execCsrs {s : State} {c : BitVec 12} {a : Reg} (h : MemoriesWf s) : OutWf (execCsrs c a s) := outWf_csrWrite h

theorem outWf_execCsrc {s : State} {c : BitVec 12} {a : Reg} (h : MemoriesWf s) : OutWf (execCsrc c a s) := outWf_csrWrite h

theorem outWf_execEvsend {s : State} {rl a b : Reg} (h : MemoriesWf s) : OutWf (execEvsend rl a b s) := by
  unfold Machine.execEvsend
  refine outWf_eventOp h fun x1 x2 x3 => ?_
  extract_lets x stream lcore index units vt t s1
  have hs1 : MemoriesWf s1 := by
    unfold s1
    split
    · exact h.modCore_sp _ fun _ => rfl
    · exact h
  split
  · exact outWf_next (h.illegal _)
  · split
    · exact outWf_next (h.free.trap _)
    · split
      · exact outWf_next (h.retire _ _)
      · split
        · exact outWf_next h
        · exact outWf_next (hs1.sendEvent.retire _ _)

theorem outWf_execEvwait {s : State} {a : Reg} (h : MemoriesWf s) : OutWf (execEvwait a s) := by
  unfold Machine.execEvwait
  refine outWf_eventOp h fun x x1 x2 => ?_
  extract_lets m
  split
  · exact outWf_next h.voidRun
  · split
    · exact outWf_next (h.retire _ _)
    · exact outWf_next (h.setCur _)

theorem outWf_execEvnext {s : State} {d : Reg} (h : MemoriesWf s) : OutWf (execEvnext d s) := by
  unfold Machine.execEvnext
  refine outWf_eventOp h fun x x1 x2 => ?_
  split
  · exact outWf_next (h.illegal _)
  · split
    · exact outWf_next h.voidRun
    · split
      · exact outWf_next (h.retire _ _)
      · extract_lets s1 s2 s3
        have hs1 : MemoriesWf s1 := h.modCore_sp _ fun _ => Core.raiseVt_sp _ _
        have hs2 : MemoriesWf s2 := MemoriesWf.inboxFreed (hs1.modCore_sp _ (fun _ => Core.applyInbctl_sp _))
        have hs3 : MemoriesWf s3 := hs2.retire _ _
        refine outWf_next ?_
        split <;> exact hs3.traceEvent _ _ _ _

theorem outWf_execEvpeek {s : State} {d : Reg} (h : MemoriesWf s) : OutWf (execEvpeek d s) := by
  unfold Machine.execEvpeek
  refine outWf_eventOp h fun x x1 x2 => ?_
  split
  · exact outWf_next (h.illegal _)
  · split
    · exact outWf_next h.voidRun
    · split <;> exact outWf_next (h.retire _ _)

theorem outWf_execVtadv {s : State} {a : Reg} (h : MemoriesWf s) : OutWf (execVtadv a s) :=
  outWf_eventOp h fun t _ _ => by
    extract_lets v
    clear_value v
    refine outWf_next (MemoriesWf.retire ?_ _ _)
    exact h.modCore_sp _ fun c => Core.raiseVt_sp c _

/-! ## Vector -/

theorem outWf_execVectorCommandComplete {s : State} {pos : Nat} {ctx : Bool} (h : MemoriesWf s) : OutWf (execVectorCommandComplete pos ctx s) := by
  unfold Machine.execVectorCommandComplete
  extract_lets c
  split
  · exact outWf_next h
  · split
    · exact outWf_next h
    · split
      · extract_lets s1 v
        have hs1 : MemoriesWf s1 := h.vecBegin
        refine outWf_next ?_
        split
        · exact hs1.vecFinish
        · exact hs1
      · exact outWf_next ((h.modCtx.modThread _ _ _).vecFinish)

/-! ## Tile -/

theorem outWf_execTclr {s : State} {q : AccReg} (h : MemoriesWf s) : OutWf (execTclr q s) := outWf_tileOp h fun _ _ _ _ => outWf_forkTile h

theorem outWf_execTwait {s : State} (h : MemoriesWf s) : OutWf (execTwait s) := by
  unfold Machine.execTwait
  refine outWf_tileOp h fun x x1 x2 x3 => ?_
  split
  · exact outWf_next (h.retire _ _)
  · exact outWf_next h

theorem outWf_execTmsend {s : State} {a b c : Reg} (h : MemoriesWf s) : OutWf (execTmsend a b c s) := by
  unfold Machine.execTmsend
  refine outWf_tileOp h fun x2 x3 x4 x5 => ?_
  extract_lets x lcore op t
  split
  · exact outWf_next (h.illegal _)
  · split
    · exact outWf_next (h.free.trap _)
    · split
      · exact outWf_next (h.trap _)
      · extract_lets own x1
        split
        · exact outWf_next (h.trap _)
        · split
          · exact outWf_next (h.retire _ _)
          · exact outWf_forkWait h (outWf_next ((ask_keeps h _ _).retire _ _))

theorem outWf_execMatrixStepBoundary {s : State} {pos : Nat} (h : MemoriesWf s) : OutWf (execMatrixStepBoundary pos s) := by
  unfold Machine.execMatrixStepBoundary
  extract_lets c t q choose
  clear_value choose
  split
  · exact outWf_next h
  · split
    · exact outWf_next h
    · split
      · exact outWf_next h
      · exact outWf_next (MemoriesWf.tileStep (h.modCore_sp _ (fun _ => rfl)))

/-! ## Packet -/

theorem outWf_execRead {s : State} {k : Nat} (h : MemoriesWf s) : OutWf (execRead k s) := by
  unfold Machine.execRead
  split
  next _ _ _ e =>
    exact outWf_next ((h.takePacket e).target)
  · exact outWf_next h

theorem outWf_execWrite {s : State} {k : Nat} (h : MemoriesWf s) : OutWf (execWrite k s) := by
  unfold Machine.execWrite
  split
  next _ _ _ e =>
    exact outWf_next ((h.takePacket e).target)
  · exact outWf_next h

theorem outWf_execAtomicWithReturn {s : State} {k : Nat} (h : MemoriesWf s) : OutWf (execAtomicWithReturn k s) := by
  unfold Machine.execAtomicWithReturn
  split
  next _ _ _ e =>
    exact outWf_next ((h.takePacket e).target)
  · exact outWf_next h

theorem outWf_execReduction {s : State} {k : Nat} (h : MemoriesWf s) : OutWf (execReduction k s) := by
  unfold Machine.execReduction
  split
  next _ _ _ e =>
    exact outWf_next ((h.takePacket e).target)
  · exact outWf_next h

theorem outWf_execTaggedOperation {s : State} {k : Nat} (h : MemoriesWf s) : OutWf (execTaggedOperation k s) := by
  unfold Machine.execTaggedOperation
  split
  next _ _ _ e =>
    exact outWf_next ((h.takePacket e).target)
  · exact outWf_next h

theorem outWf_execExchangeStore {s : State} {k : Nat} (h : MemoriesWf s) : OutWf (execExchangeStore k s) := by
  unfold Machine.execExchangeStore
  split
  next _ _ _ e =>
    exact outWf_next ((h.takePacket e).target)
  · exact outWf_next h

theorem outWf_execDependenceDecrement {s : State} {k : Nat} (h : MemoriesWf s) : OutWf (execDependenceDecrement k s) := by
  unfold Machine.execDependenceDecrement
  split
  next _ _ _ e =>
    exact outWf_next ((h.takePacket e).target)
  · exact outWf_next h

theorem outWf_execMatrixCommand {s : State} {k : Nat} (h : MemoriesWf s) : OutWf (execMatrixCommand k s) := by
  unfold Machine.execMatrixCommand
  split
  next _ _ _ e =>
    exact outWf_next ((h.takePacket e).target)
  · exact outWf_next h

theorem outWf_execDelegatedAtomic {s : State} {k : Nat} (h : MemoriesWf s) : OutWf (execDelegatedAtomic k s) := by
  unfold Machine.execDelegatedAtomic
  split
  next _ _ _ e =>
    exact outWf_next ((h.takePacket e).target)
  · exact outWf_next h

theorem outWf_execBulkReadRequest {s : State} {k : Nat} (h : MemoriesWf s) : OutWf (execBulkReadRequest k s) := by
  unfold Machine.execBulkReadRequest
  split
  next _ _ _ e =>
    exact outWf_next ((h.takePacket e).target)
  · exact outWf_next h

theorem outWf_execWaitWithdrawal {s : State} {k : Nat} (h : MemoriesWf s) : OutWf (execWaitWithdrawal k s) := by
  unfold Machine.execWaitWithdrawal
  split
  next _ _ _ e =>
    exact outWf_next ((h.takePacket e).target)
  · exact outWf_next h

theorem outWf_execEvent {s : State} {k : Nat} (h : MemoriesWf s) : OutWf (execEvent k s) := by
  unfold Machine.execEvent
  split
  next _ _ _ e =>
    exact outWf_next ((h.takePacket e).target)
  · exact outWf_next h

theorem outWf_execStepModeNeighbourTransfer {s : State} {k : Nat} (h : MemoriesWf s) : OutWf (execStepModeNeighbourTransfer k s) := by
  unfold Machine.execStepModeNeighbourTransfer
  split
  next _ _ _ e =>
    exact outWf_next ((h.takePacket e).target)
  · exact outWf_next h

theorem outWf_execBulkWrite {s : State} {k : Nat} (h : MemoriesWf s) : OutWf (execBulkWrite k s) := by
  unfold Machine.execBulkWrite
  split
  next _ _ _ e =>
    exact outWf_next ((h.takePacket e).target)
  · exact outWf_next h

theorem outWf_execThreadContext {s : State} {k : Nat} (h : MemoriesWf s) : OutWf (execThreadContext k s) := by
  unfold Machine.execThreadContext
  split
  next _ _ _ e =>
    exact outWf_next ((h.takePacket e).target)
  · exact outWf_next h

theorem outWf_execDebugAccess {s : State} {k : Nat} (h : MemoriesWf s) : OutWf (execDebugAccess k s) := by
  unfold Machine.execDebugAccess
  split
  next _ _ _ e =>
    refine outWf_next ?_
    split
    · exact (h.takePacket e).coreTarget
    · exact (h.takePacket e).dropPacket
  · exact outWf_next h

theorem outWf_execForwardedRequest {s : State} {k : Nat} (h : MemoriesWf s) : OutWf (execForwardedRequest k s) := by
  unfold Machine.execForwardedRequest
  split
  next _ _ _ e =>
    refine outWf_next ?_
    split
    · exact (h.takePacket e).linkTarget
    · exact (h.takePacket e).dropPacket
  · exact outWf_next h

theorem outWf_execProbe {s : State} {k : Nat} (h : MemoriesWf s) : OutWf (execProbe k s) := by
  unfold Machine.execProbe
  split
  next _ _ _ e =>
    refine outWf_next ?_
    split
    · exact (h.takePacket e).linkTarget
    · exact (h.takePacket e).dropPacket
  · exact outWf_next h

theorem outWf_execProbeReply {s : State} {k : Nat} (h : MemoriesWf s) : OutWf (execProbeReply k s) := by
  unfold Machine.execProbeReply
  split
  next _ _ _ e =>
    extract_lets nd name
    split
    · exact outWf_next ((h.takePacket e).dropPacket)
    · extract_lets s1
      have hs1 : MemoriesWf s1 := ((h.takePacket e).setNode _ _).forwardNext
      refine outWf_next ?_
      split
      · exact hs1.homeAnswer
      · exact hs1
  · exact outWf_next h

theorem outWf_execReplyWithData {s : State} {k : Nat} (h : MemoriesWf s) : OutWf (execReplyWithData k s) := by
  unfold Machine.execReplyWithData
  split
  next _ _ _ e =>
    refine outWf_next ?_
    refine MemoriesWf.withAsked (h.takePacket e) fun x => ?_
    split
    · exact (h.takePacket e).final
    · exact (h.takePacket e).final
    · exact h.takePacket e
  · exact outWf_next h

theorem outWf_execBulkReadData {s : State} {k : Nat} (h : MemoriesWf s) : OutWf (execBulkReadData k s) := by
  unfold Machine.execBulkReadData
  split
  next _ _ _ e =>
    refine outWf_next ?_
    refine MemoriesWf.withAsked (h.takePacket e) fun x => ?_
    split
    · exact (h.takePacket e).final
    · exact h.takePacket e
  · exact outWf_next h

theorem outWf_execAcknowledgement {s : State} {k : Nat} (h : MemoriesWf s) : OutWf (execAcknowledgement k s) := by
  unfold Machine.execAcknowledgement
  split
  next _ _ _ e =>
    refine outWf_next ?_
    refine MemoriesWf.withAsked (h.takePacket e) fun x => ?_
    split
    · extract_lets s1
      have hs1 : MemoriesWf s1 := (h.takePacket e).putReq
      split
      · exact hs1.peerReply
      · exact hs1
    · exact (h.takePacket e).final
    · exact h.takePacket e
  · exact outWf_next h

theorem outWf_execNegativeAcknowledgement {s : State} {k : Nat} (h : MemoriesWf s) : OutWf (execNegativeAcknowledgement k s) := by
  unfold Machine.execNegativeAcknowledgement
  split
  next _ _ _ e =>
    refine outWf_next ?_
    refine MemoriesWf.withAsked (h.takePacket e) fun x => ?_
    split
    · exact (h.takePacket e).refused
    · exact h.takePacket e
  · exact outWf_next h

theorem outWf_execMigrationRefusal {s : State} {k : Nat} (h : MemoriesWf s) : OutWf (execMigrationRefusal k s) := by
  unfold Machine.execMigrationRefusal
  split
  next _ _ _ e =>
    exact outWf_next ((h.takePacket e).withAsked (fun _ => (h.takePacket e).final))
  · exact outWf_next h

theorem outWf_execSpaceNotice {s : State} {k : Nat} (h : MemoriesWf s) : OutWf (execSpaceNotice k s) := by
  unfold Machine.execSpaceNotice
  split
  · exact outWf_next h
  next _ _ _ e =>
    split
    · split
      · exact outWf_next (h.takePacket e)
      · split
        · exact outWf_next (MemoriesWf.ownRecord ((h.takePacket e).modCore_sp _ (fun _ => rfl)))
        · exact outWf_next ((h.takePacket e).sendSlot)
    · split
      · exact outWf_next (h.takePacket e)
      · exact outWf_next ((h.takePacket e).reissue)

theorem outWf_execRetryTimeout {s : State} {i : Nat} (h : MemoriesWf s) : OutWf (execRetryTimeout i s) := by
  unfold Machine.execRetryTimeout
  split
  · exact outWf_next h
  · extract_lets limit
    split
    · exact outWf_next h
    · split
      · exact outWf_next h.resend
      · exact outWf_next h.exhausted

theorem outWf_execBusyBackoffExpiry {s : State} {i : Nat} (h : MemoriesWf s) : OutWf (execBusyBackoffExpiry i s) := by
  unfold Machine.execBusyBackoffExpiry
  split
  · exact outWf_next h
  · split
    · exact outWf_next h
    · split
      · exact outWf_next h
      · exact outWf_next h.resend

theorem outWf_execWaitResend {s : State} {i : Nat} (h : MemoriesWf s) : OutWf (execWaitResend i s) := by
  unfold Machine.execWaitResend
  split
  · exact outWf_next h
  · extract_lets tagged
    split
    · exact outWf_next h
    · split
      · exact outWf_next h.resend
      · exact outWf_next h.exhausted

/-! ## Commands -/

theorem outWf_execSubmitLineUpdate {s : State} {q : Nat} (h : MemoriesWf s) : OutWf (execSubmitLineUpdate q s) := by
  unfold Machine.execSubmitLineUpdate
  split
  · exact outWf_next h
  · exact outWf_next h.readSubmit

theorem outWf_execSubmitLinePoll {s : State} (h : MemoriesWf s) : OutWf (execSubmitLinePoll s) := outWf_next (h.foldl (fun _ _ hs => hs.readSubmit))

theorem outWf_execAqctlEnSet {s : State} (h : MemoriesWf s) : OutWf (execAqctlEnSet s) := outWf_next h.startQueue

theorem outWf_execAqctlEnClear {s : State} (h : MemoriesWf s) : OutWf (execAqctlEnClear s) := outWf_next h.stopQueue

theorem outWf_execQctlWrite {s : State} {q : Nat} {v : Word} (h : MemoriesWf s) : OutWf (execQctlWrite q v s) := outWf_next h.writeQctl

theorem outWf_execNop {s : State} {q : Nat} (h : MemoriesWf s) : OutWf (execNop q s) := outWf_command h fun _ _ _ hs => finishCmd_keeps hs _ _ _ _

theorem outWf_execCopy {s : State} {q : Nat} (h : MemoriesWf s) : OutWf (execCopy q s) := by
  unfold Machine.execCopy
  refine outWf_command h fun x1 x2 s1 hs => ?_
  extract_lets a b n x y
  split
  · exact finishCmd_keeps hs _ _ _ _
  · split
    · exact finishCmd_keeps hs _ _ _ _
    · exact hs.startEngine

theorem outWf_execFillCommand {s : State} {q : Nat} (h : MemoriesWf s) : OutWf (execFillCommand q s) := by
  unfold Machine.execFillCommand
  refine outWf_command h fun x x1 s1 hs => ?_
  extract_lets b n
  split
  · exact finishCmd_keeps hs _ _ _ _
  · split
    · exact finishCmd_keeps hs _ _ _ _
    · exact hs.startEngine

theorem outWf_execSignalWrite {s : State} {q : Nat} (h : MemoriesWf s) : OutWf (execSignalWrite q s) := by
  unfold Machine.execSignalWrite
  refine outWf_command h fun x x1 s1 hs => ?_
  split
  · exact finishCmd_keeps hs _ _ _ _
  · exact finishCmd_keeps (hs.fwStore _ _) _ _ _ _

theorem outWf_execSignalAdd {s : State} {q : Nat} (h : MemoriesWf s) : OutWf (execSignalAdd q s) := by
  unfold Machine.execSignalAdd
  refine outWf_command h fun x x1 s1 hs => ?_
  split
  · exact finishCmd_keeps hs _ _ _ _
  · exact finishCmd_keeps (hs.fwStore _ _) _ _ _ _

theorem outWf_execWait {s : State} {q : Nat} (h : MemoriesWf s) : OutWf (execWait q s) := by
  unfold Machine.execWait
  refine outWf_command h fun x x1 s1 hs => ?_
  split
  · exact finishCmd_keeps hs _ _ _ _
  · split
    · exact finishCmd_keeps hs _ _ _ _
    · exact hs.modQueue

theorem outWf_execWaitConditionMet {s : State} {q : Nat} (h : MemoriesWf s) : OutWf (execWaitConditionMet q s) := by
  unfold Machine.execWaitConditionMet
  split
  · exact outWf_next h
  · refine outWf_next ?_
    split
    · exact h.endWait
    · exact h

theorem outWf_execWaitTimeout {s : State} {q : Nat} (h : MemoriesWf s) : OutWf (execWaitTimeout q s) := by
  unfold Machine.execWaitTimeout
  split
  · exact outWf_next h
  · refine outWf_next ?_
    split
    · exact h.endWait
    · exact h

theorem outWf_execRectDefine {s : State} {q : Nat} (h : MemoriesWf s) : OutWf (execRectDefine q s) := by
  unfold Machine.execRectDefine
  split
  · exact outWf_next h
  · split
    · exact outWf_next h
    · refine outWf_command h fun x1 x2 s1 hs => ?_
      extract_lets i x r
      split
      · exact finishCmd_keeps hs _ _ _ _
      · split
        · exact finishCmd_keeps hs _ _ _ _
        · exact finishCmd_keeps hs.putRect _ _ _ _

theorem outWf_execRectDelete {s : State} {q : Nat} (h : MemoriesWf s) : OutWf (execRectDelete q s) := by
  unfold Machine.execRectDelete
  split
  · exact outWf_next h
  · split
    · exact outWf_next h
    · refine outWf_command h fun x x1 s1 hs => ?_
      extract_lets i
      split
      · exact finishCmd_keeps hs _ _ _ _
      · split
        · exact finishCmd_keeps hs _ _ _ _
        · split
          · exact finishCmd_keeps hs _ _ _ _
          · exact finishCmd_keeps hs.putRect _ _ _ _

/-! ## Query -/

theorem outWf_execQueryDevice {s : State} {q : Nat} (h : MemoriesWf s) : OutWf (execQueryDevice q s) := outWf_queryGet h

theorem outWf_execQueryClockPoints {s : State} {q : Nat} (h : MemoriesWf s) : OutWf (execQueryClockPoints q s) := outWf_queryGet h

theorem outWf_execQueryCounterGrid {s : State} {q : Nat} (h : MemoriesWf s) : OutWf (execQueryCounterGrid q s) := outWf_queryGet h

theorem outWf_execQueryScrub {s : State} {q : Nat} (h : MemoriesWf s) : OutWf (execQueryScrub q s) := outWf_queryGet h

theorem outWf_execQueryQueue {s : State} {q : Nat} (h : MemoriesWf s) : OutWf (execQueryQueue q s) := by
  unfold Machine.execQueryQueue
  refine outWf_command h fun x x1 s1 hs => ?_
  extract_lets i v
  split
  · exact finishCmd_keeps hs _ _ _ _
  · exact hs.putResult

theorem outWf_execQueryPeers {s : State} {q : Nat} (h : MemoriesWf s) : OutWf (execQueryPeers q s) := outWf_queryGet h

theorem outWf_execQueryBootChallenge {s : State} {q : Nat} (h : MemoriesWf s) : OutWf (execQueryBootChallenge q s) := outWf_queryGet h

theorem outWf_execQueryFault {s : State} {q : Nat} (h : MemoriesWf s) : OutWf (execQueryFault q s) := outWf_queryGet h

theorem outWf_execQueryCtlRanges {s : State} {q : Nat} (h : MemoriesWf s) : OutWf (execQueryCtlRanges q s) := outWf_queryGet h

theorem outWf_execQueryRectangles {s : State} {q : Nat} (h : MemoriesWf s) : OutWf (execQueryRectangles q s) := outWf_queryGet h

theorem outWf_execQueryMediaStats {s : State} {q : Nat} (h : MemoriesWf s) : OutWf (execQueryMediaStats q s) :=
  outWf_command h fun _ _ _ hs => hs.putStats

theorem outWf_execQuerySetCaps {s : State} {q : Nat} (h : MemoriesWf s) : OutWf (execQuerySetCaps q s) := by
  unfold Machine.execQuerySetCaps
  refine outWf_command h fun x x1 s1 hs => ?_
  extract_lets v one
  split
  · exact finishCmd_keeps hs _ _ _ _
  · exact finishCmd_keeps ((hs.modFw _).applyPoints) _ _ _ _

theorem outWf_execQuerySetCounterGrid {s : State} {q : Nat} (h : MemoriesWf s) : OutWf (execQuerySetCounterGrid q s) := by
  unfold Machine.execQuerySetCounterGrid
  refine outWf_command h fun x x1 s1 hs => ?_
  extract_lets base slots en
  split
  · exact finishCmd_keeps hs _ _ _ _
  · exact finishCmd_keeps (hs.modFw _) _ _ _ _

theorem outWf_execQuerySetScrub {s : State} {q : Nat} (h : MemoriesWf s) : OutWf (execQuerySetScrub q s) := by
  unfold Machine.execQuerySetScrub
  refine outWf_command h fun x x1 s1 hs => ?_
  extract_lets base slots hours en
  split
  · exact finishCmd_keeps hs _ _ _ _
  · exact finishCmd_keeps (hs.modFw _) _ _ _ _

theorem outWf_execQueryQueueDefine {s : State} {q : Nat} (h : MemoriesWf s) : OutWf (execQueryQueueDefine q s) := by
  unfold Machine.execQueryQueueDefine
  split
  · exact outWf_next h
  · split
    · exact outWf_command h fun _ _ _ hs => finishCmd_keeps hs _ _ _ _
    · refine outWf_queueAction h fun x1 x2 x3 s2 hs2 => ?_
      extract_lets a b x s1
      have hs1 : MemoriesWf s1 := setQueue_keeps hs2 _ _
      split
      · exact finishCmd_keeps hs2 _ _ _ _
      · split
        · exact finishCmd_keeps hs2 _ _ _ _
        · split
          · exact finishCmd_keeps hs2 _ _ _ _
          · split
            · exact finishCmd_keeps hs2 _ _ _ _
            · split
              · exact finishCmd_keeps hs2 _ _ _ _
              · refine finishCmd_keeps ?_ _ _ _ _
                split
                · exact hs1.startQueue
                · exact hs1

theorem outWf_execQueryQueueDelete {s : State} {q : Nat} (h : MemoriesWf s) : OutWf (execQueryQueueDelete q s) := by
  unfold Machine.execQueryQueueDelete
  refine outWf_queueAction h fun x x1 x2 s1 hs => ?_
  split
  · exact finishCmd_keeps hs _ _ _ _
  · exact hs.modQueue

theorem outWf_execQueryQueueRestart {s : State} {q : Nat} (h : MemoriesWf s) : OutWf (execQueryQueueRestart q s) := by
  unfold Machine.execQueryQueueRestart
  refine outWf_queueAction h fun x x1 x2 s1 hs => ?_
  split
  · exact finishCmd_keeps hs _ _ _ _
  · exact finishCmd_keeps hs.startQueue _ _ _ _

theorem outWf_execQueryClearFault {s : State} {q : Nat} (h : MemoriesWf s) : OutWf (execQueryClearFault q s) :=
  outWf_command h fun _ _ _ hs => finishCmd_keeps (hs.modFw _) _ _ _ _

theorem outWf_execAttest {s : State} {q : Nat} (h : MemoriesWf s) : OutWf (execAttest q s) := by
  unfold Machine.execAttest
  refine outWf_command h fun x x1 s2 hs => ?_
  extract_lets buf r sig s1
  have hs1 : MemoriesWf s1 := hs.modFw _
  split
  · exact finishCmd_keeps hs _ _ _ _
  · split
    · exact finishCmd_keeps hs _ _ _ _
    · exact finishCmd_keeps (hs1.fwStore _ _) _ _ _ _

theorem outWf_execDebugToken {s : State} {q : Nat} (h : MemoriesWf s) : OutWf (execDebugToken q s) := by
  unfold Machine.execDebugToken
  refine outWf_command h fun x x1 s1 hs => ?_
  extract_lets a t
  split
  · exact finishCmd_keeps hs _ _ _ _
  · split
    · exact finishCmd_keeps hs _ _ _ _
    · split
      · exact finishCmd_keeps hs _ _ _ _
      · exact finishCmd_keeps (hs.modFw _) _ _ _ _

/-! ## Halts -/

theorem outWf_execHaltRequest {s : State} {pos : Nat} (h : MemoriesWf s) : OutWf (execHaltRequest pos s) := by
  unfold Machine.execHaltRequest
  split
  · exact outWf_next h
  · exact outWf_next (MemoriesWf.haltCore (h.of_eq rfl rfl rfl rfl))

/-! ## Launching -/

theorem outWf_execLaunch {s : State} {q : Nat} (h : MemoriesWf s) : OutWf (execLaunch q s) :=
  outWf_command h fun c e u hu => by
    extract_lets lid a k l
    have hl : LaunchWf l := LaunchWf.of_nil rfl
    have hf : ∀ n, MemoriesWf (u.finishCmd c n) := fun n => finishCmd_keeps hu _ _ _ _
    split
    · exact hf 0x03
    · split
      · exact hf 0x0B
      · split
        · exact hf 0x05
        · split
          · exact hf 0x06
          · split
            · exact hf _
            · split
              · exact hf 0x05
              · exact MemoriesWf.tryPlace (MemoriesWf.modFw (hu.addLaunch hl) _)

theorem outWf_execCancel {s : State} {q : Nat} (h : MemoriesWf s) : OutWf (execCancel q s) := by
  unfold Machine.execCancel
  refine outWf_command h fun x x1 s1 hs => ?_
  split
  · exact finishCmd_keeps hs _ _ _ _
  · split
    · exact finishCmd_keeps hs _ _ _ _
    · exact hs.cancel

theorem outWf_execPreempt {s : State} {q : Nat} (h : MemoriesWf s) : OutWf (execPreempt q s) := by
  unfold Machine.execPreempt
  refine outWf_command h fun x x1 s1 hs => ?_
  split
  · exact finishCmd_keeps hs _ _ _ _
  · split
    · exact hs.beginSave
    · exact finishCmd_keeps hs _ _ _ _

theorem outWf_execResume {s : State} {q : Nat} (h : MemoriesWf s) : OutWf (execResume q s) := by
  unfold Machine.execResume
  refine outWf_command h fun x x1 s1 hs => ?_
  split
  · exact finishCmd_keeps hs _ _ _ _
  · split
    · exact hs.modLaunch _ fun _ => rfl
    · exact finishCmd_keeps hs _ _ _ _

theorem outWf_execLease {s : State} {q : Nat} (h : MemoriesWf s) : OutWf (execLease q s) := by
  unfold Machine.execLease
  refine outWf_command h fun x1 x2 s1 hs => ?_
  extract_lets x
  split
  · exact finishCmd_keeps hs _ _ _ _
  · split
    · exact finishCmd_keeps hs _ _ _ _
    · split
      · exact finishCmd_keeps hs _ _ _ _
      · refine finishCmd_keeps ?_ _ _ _ _
        exact MemoriesWf.mapPages (hs.modLaunch _ (fun _ => rfl))

theorem outWf_execUnlease {s : State} {q : Nat} (h : MemoriesWf s) : OutWf (execUnlease q s) := by
  unfold Machine.execUnlease
  refine outWf_command h fun x2 x3 s1 hs => ?_
  extract_lets i x
  split
  · exact finishCmd_keeps hs _ _ _ _
  · split
    · exact finishCmd_keeps hs _ _ _ _
    · split
      · exact finishCmd_keeps hs _ _ _ _
      · extract_lets ps root x1
        split
        · exact finishCmd_keeps hs.dropLease _ _ _ _
        · exact hs.of_eq rfl rfl rfl rfl

theorem outWf_execShoot {s : State} {k : Nat} (h : MemoriesWf s) : OutWf (execShoot k s) := by
  unfold Machine.execShoot
  split
  · extract_lets s1 c
    have hs1 : MemoriesWf s1 := h.of_eq rfl rfl rfl rfl
    refine outWf_next ?_
    split
    · exact hs1.shotAnswer
    · split
      · exact MemoriesWf.shotAnswer (hs1.modCore_sp _ (fun _ => rfl))
      · exact hs1.modCore_sp _ fun _ => rfl
  · exact outWf_next h

theorem outWf_execShootAck {s : State} {k : Nat} (h : MemoriesWf s) : OutWf (execShootAck k s) := by
  unfold Machine.execShootAck
  split
  · extract_lets s1
    have hs1 : MemoriesWf s1 := h.of_eq rfl rfl rfl rfl
    refine outWf_next ?_
    split
    · exact hs1
    · extract_lets t s2
      have hs2 : MemoriesWf s2 := hs1.modFw _
      split
      · exact finishCmd_keeps ((hs1.modFw _).dropLease) _ _ _ _
      · split
        · exact hs2.of_eq rfl rfl rfl rfl
        · exact hs2
  · exact outWf_next h

theorem outWf_execRecast {s : State} {q : Nat} (h : MemoriesWf s) : OutWf (execRecast q s) := by
  unfold Machine.execRecast
  refine outWf_command h fun x x1 s1 hs => ?_
  extract_lets role first n range
  split
  · exact finishCmd_keeps hs _ _ _ _
  · split
    · exact finishCmd_keeps hs _ _ _ _
    · split
      · exact finishCmd_keeps hs _ _ _ _
      · split
        · exact finishCmd_keeps hs _ _ _ _
        · extract_lets ps
          refine MemoriesWf.modFw ?_ _
          exact hs.foldl fun _ _ hs1 => hs1.modCore_sp _ fun _ => rfl

theorem outWf_execRecastCoreDrained {s : State} {p : Nat} (h : MemoriesWf s) : OutWf (execRecastCoreDrained p s) := by
  unfold Machine.execRecastCoreDrained
  extract_lets c s1
  have hs1 : MemoriesWf s1 := h.modCore_sp _ fun _ => rfl
  split
  · split
    · exact outWf_next h
    · extract_lets keep s2 s3 s4
      have hs2 : MemoriesWf s2 := by
        unfold s2
        refine MemoriesWf.foldl hs1 fun s5 x hs => ?_
        split
        · exact hs.moveCheck
        · exact hs.remotePush
        · exact hs.modCore_sp _ fun _ => rfl
      have hs3 : MemoriesWf s3 := hs2.modCore_sp _ fun _ => rfl
      have hs4 : MemoriesWf s4 := hs3.modLaunch _ fun _ => rfl
      split
      · exact outWf_next hs4
      · extract_lets left
        refine outWf_next ?_
        split
        · exact finishCmd_keeps (hs4.modFw _) _ _ _ _
        · exact hs4.modFw _
  · exact outWf_next h

theorem outWf_execWaitingLaunchStart {s : State} {lid : Nat} (h : MemoriesWf s) : OutWf (execWaitingLaunchStart lid s) := outWf_next h.tryPlace

theorem outWf_execSaveImageFinal {s : State} {lid : Nat} (h : MemoriesWf s) : OutWf (execSaveImageFinal lid s) := by
  unfold execSaveImageFinal
  split
  · exact outWf_next h
  next l _ =>
    split
    · exact outWf_next h
    · split
      · exact outWf_next h.endLaunch
      · extract_lets image s1
        have hs1 : MemoriesWf s1 := h.mapCores fun _ c => by split <;> rfl
        have himage : ∀ e ∈ image, Memory.wf e.2.sp = true := fun e he => by
          obtain ⟨p, _, rfl⟩ := List.mem_map.1 he
          exact h.core p
        exact outWf_next (MemoriesWf.preemptDone (hs1.modLaunch_wf lid fun _ _ => himage))

theorem outWf_execEvictedLaunchResume {s : State} {lid : Nat} (h : MemoriesWf s) : OutWf (execEvictedLaunchResume lid s) := by
  unfold Machine.execEvictedLaunchResume
  split
  · exact outWf_next h
  · refine outWf_next ?_
    split
    · exact h.restore
    · exact h

theorem outWf_execLaunchEndSweep {s : State} (h : MemoriesWf s) : OutWf (execLaunchEndSweep s) := by
  unfold Machine.execLaunchEndSweep
  split
  · exact outWf_next h
  · exact outWf_next ((h.modFw _).foldl (fun _ _ hs => hs.sweepLaunch))

theorem outWf_execGangReady {s : State} {gang gbase gtotal : Nat} {es : List GangEntry}
    (h : MemoriesWf s) : OutWf (execGangReady gang gbase gtotal es s) := by
  unfold Machine.execGangReady
  extract_lets s1
  have hs1 : MemoriesWf s1 := by
    unfold s1
    split
    · exact h
    · exact h.of_eq rfl rfl rfl rfl
  refine outWf_next ?_
  split
  · exact hs1
  · exact hs1.modGang.coordinate

theorem outWf_execGangEntries {s : State} {gang : Nat} {es : List GangEntry} (h : MemoriesWf s) : OutWf (execGangEntries gang es s) := by
  unfold Machine.execGangEntries
  split
  · exact outWf_next h
  · split
    · exact outWf_next h
    · split
      · exact outWf_next h
      · exact outWf_next h.modGang

theorem outWf_execGangEntriesAck {s : State} {gang dev : Nat} (h : MemoriesWf s) : OutWf (execGangEntriesAck gang dev s) := by
  unfold Machine.execGangEntriesAck
  split
  · exact outWf_next h
  · refine outWf_next ?_
    split
    · exact h.modGang.coordinate
    · exact h

theorem outWf_execGangGo {s : State} {gang : Nat} (h : MemoriesWf s) : OutWf (execGangGo gang s) := by
  unfold Machine.execGangGo
  split
  · exact outWf_next h
  · refine outWf_next ?_
    split
    · exact h.goGang
    · exact h

theorem outWf_execGangPlacementTimeout {s : State} {gang : Nat} (h : MemoriesWf s) : OutWf (execGangPlacementTimeout gang s) := by
  unfold Machine.execGangPlacementTimeout
  split
  · exact outWf_next h
  · refine outWf_next ?_
    split
    · exact h.failGang
    · exact h

theorem outWf_execGangForwardedCommand {s : State} {gang : Nat} {cmd : GangCmd} (h : MemoriesWf s) : OutWf (execGangForwardedCommand gang cmd s) := by
  unfold Machine.execGangForwardedCommand
  split
  · exact outWf_next h
  · refine outWf_next ?_
    split
    · split
      · exact h.beginSave
      · exact h
    · split
      · exact h.modLaunch _ fun _ => rfl
      · exact h
    · exact h.cancel

theorem outWf_execDetach {s : State} {gang : Nat} {d : Departure} (h : MemoriesWf s) : OutWf (execDetach gang d s) := outWf_next h.modGang

theorem outWf_execGangBarrierRelease {s : State} {gang : Nat} (h : MemoriesWf s) : OutWf (execGangBarrierRelease gang s) := by
  unfold Machine.execGangBarrierRelease
  split
  · exact outWf_next h
  · split
    · exact outWf_next h
    · refine outWf_next ?_
      split
      · exact h.foldl fun _ _ hs => hs.foldl fun _ _ hs1 => hs1.completeLevel
      · exact h

/-! ## Contain -/

theorem outWf_execContainmentReport {s : State} {k : Nat} (h : MemoriesWf s) : OutWf (execContainmentReport k s) := by
  unfold Machine.execContainmentReport
  split
  · exact outWf_next (MemoriesWf.containCores (h.of_eq rfl rfl rfl rfl))
  · exact outWf_next h

/-! ## Control -/

theorem outWf_execJal {s : State} {d : Reg} {i : BitVec 20} (h : MemoriesWf s) : OutWf (execJal d i s) :=
  outWf_plain h fun _ => outWf_next (jump_keeps h _ _)

theorem outWf_execJalr {s : State} {d a : Reg} {i : BitVec 12} (h : MemoriesWf s) : OutWf (execJalr d a i s) :=
  outWf_plain h fun _ => outWf_next (jump_keeps h _ _)

/-! ## Reset -/

theorem outWf_execResetStepComplete {s : State} (h : MemoriesWf s) : OutWf (execResetStepComplete s) := by
  unfold Machine.execResetStepComplete
  split
  · exact outWf_next h
  · split
    · exact outWf_next (h.endOfStep.modFw _)
    · extract_lets c s1
      have hs1 : MemoriesWf s1 := h.beginService
      refine outWf_next ?_
      clear_value c
      split
      · exact finishCmd_keeps hs1 _ _ _ _
      · exact hs1

theorem outWf_execResetStepOverrun {s : State} {linkOk : Bool} (h : MemoriesWf s) : OutWf (execResetStepOverrun linkOk s) := by
  unfold Machine.execResetStepOverrun
  split
  · exact outWf_next h
  · exact outWf_next (h.modFw _)

theorem outWf_execPowerGood {s : State} (h : MemoriesWf s) : OutWf (execPowerGood s) := by
  unfold Machine.execPowerGood
  split
  · exact outWf_next h
  · exact outWf_next (MemoriesWf.coldReset (h.of_eq rfl rfl rfl rfl))

theorem outWf_execInputPowerLoss {s : State} (h : MemoriesWf s) : OutWf (execInputPowerLoss s) := outWf_next (h.coldReset.modFw _)

theorem outWf_execMrstnPulse {s : State} (h : MemoriesWf s) : OutWf (execMrstnPulse s) := by
  unfold Machine.execMrstnPulse
  split
  · exact outWf_next h.coldReset
  · exact outWf_next h

theorem outWf_execCoolantFlowLoss {s : State} (h : MemoriesWf s) : OutWf (execCoolantFlowLoss s) := by
  unfold Machine.execCoolantFlowLoss
  split
  · exact outWf_next h.shutDown
  · exact outWf_next h

theorem outWf_execDevctlWarmWrite {s : State} (h : MemoriesWf s) : OutWf (execDevctlWarmWrite s) := by
  unfold Machine.execDevctlWarmWrite
  refine outWf_next ?_
  split
  · exact h.warmReset
  · exact h

theorem outWf_execResetWarm {s : State} {q : Nat} (h : MemoriesWf s) : OutWf (execResetWarm q s) := outWf_command h fun _ _ _ hs => hs.warmReset

theorem outWf_execResetWithImage {s : State} {q : Nat} (h : MemoriesWf s) : OutWf (execResetWithImage q s) := by
  unfold Machine.execResetWithImage
  refine outWf_command h fun x x1 s1 hs => ?_
  extract_lets a h1 n
  split
  · exact finishCmd_keeps hs _ _ _ _
  · split
    · exact finishCmd_keeps hs _ _ _ _
    · exact hs.warmReset

theorem outWf_execResetWithPatch {s : State} {q : Nat} (h : MemoriesWf s) : OutWf (execResetWithPatch q s) := by
  unfold Machine.execResetWithPatch
  refine outWf_command h fun x x1 s1 hs => ?_
  extract_lets a h1 n v
  split
  · exact finishCmd_keeps hs _ _ _ _
  · split
    · exact finishCmd_keeps hs _ _ _ _
    · split
      · exact finishCmd_keeps hs _ _ _ _
      · exact (hs.modFw _).warmReset

theorem outWf_execPowerSample {s : State} {smp : PowerSample} (h : MemoriesWf s) : OutWf (execPowerSample smp s) := by
  unfold Machine.execPowerSample
  extract_lets w high above allLow overFault n down calmH one s1
  have hs1 : MemoriesWf s1 := h.modFw _
  split
  · exact outWf_next h
  · split
    · exact outWf_next h.railReset
    · split
      · exact outWf_next h.shutDown
      · split
        · exact outWf_next h.railReset
        · exact outWf_next hs1.applyPoints

theorem outWf_execPowerStepUp {s : State} {basin : Option Nat} (h : MemoriesWf s) : OutWf (execPowerStepUp basin s) := by
  unfold Machine.execPowerStepUp
  split
  · split
    · exact outWf_next h
    · split
      · split
        · exact outWf_next h.modBasin.applyPoints
        · exact outWf_next h
      · split
        · exact outWf_next h.modBasin.applyPoints
        · exact outWf_next h
  · split
    · exact outWf_next h
    · exact outWf_next ((h.modFw _).applyPoints)

theorem outWf_execThermalStepUp {s : State} {basin : Nat} (h : MemoriesWf s) : OutWf (execThermalStepUp basin s) := by
  unfold Machine.execThermalStepUp
  split
  · exact outWf_next h
  · split
    · exact outWf_next h
    · exact outWf_next h.modBasin.applyPoints

theorem outWf_execClockPointChangeEnd {s : State} {basin : Nat} (h : MemoriesWf s) : OutWf (execClockPointChangeEnd basin s) := by
  unfold Machine.execClockPointChangeEnd
  split
  · exact outWf_next h
  · split
    · exact outWf_next h
    · extract_lets s1
      have hs1 : MemoriesWf s1 := h.modBasin
      refine outWf_next ?_
      refine MemoriesWf.foldl hs1 fun s3 x hs => ?_
      extract_lets s2
      have hs2 : MemoriesWf s2 := by
        unfold s2
        split
        · exact hs.traceRec _ _ _ _ _
        · exact hs
      split
      · exact hs2.haltCore
      · exact hs2

/-! ## Fabric -/

theorem outWf_execStarveAssert {s : State} {pos : Nat} {plane : Plane} (h : MemoriesWf s) : OutWf (execStarveAssert pos plane s) := by
  unfold Machine.execStarveAssert
  extract_lets k
  split
  · exact outWf_next h
  · exact outWf_next (h.modFw _)

theorem outWf_execLinkReplay {s : State} {pos : Nat} {dir : Dir} {plane : Plane} {err : LinkError}
    (h : MemoriesWf s) : OutWf (execLinkReplay pos dir plane err s) := by
  unfold Machine.execLinkReplay
  extract_lets l b x
  split
  · exact outWf_next h
  · split
    · exact outWf_next h
    · extract_lets n
      split
      · exact outWf_next h.linkDies
      · exact outWf_next (h.of_eq rfl rfl rfl rfl)

theorem outWf_execLinkHandshakeTimeout {s : State} {pos : Nat} {port : LinkPort}
    (h : MemoriesWf s) : OutWf (execLinkHandshakeTimeout pos port s) := by
  unfold Machine.execLinkHandshakeTimeout
  refine outWf_next ?_
  split
  · exact h.linkDies
  · exact h

theorem outWf_execLinkTrainingLoss {s : State} {pos : Nat} {dir : Dir} (h : MemoriesWf s) : OutWf (execLinkTrainingLoss pos dir s) := by
  unfold Machine.execLinkTrainingLoss
  split
  · exact outWf_next h
  · exact outWf_next h.linkDies

theorem outWf_execLinkDead {s : State} {k : Nat} (h : MemoriesWf s) : OutWf (execLinkDead k s) := by
  unfold Machine.execLinkDead
  split
  · exact outWf_next (h.of_eq rfl rfl rfl rfl)
  · exact outWf_next h

theorem outWf_execInjPause {s : State} {pos : Nat} (h : MemoriesWf s) : OutWf (execInjPause pos s) := by
  unfold Machine.execInjPause
  split
  next _ _ e =>
    exact outWf_next ((h.takeCtl e).modCore_sp _ (fun _ => rfl))
  · exact outWf_next h

theorem outWf_execInjResume {s : State} {pos : Nat} (h : MemoriesWf s) : OutWf (execInjResume pos s) := by
  unfold Machine.execInjResume
  split
  next _ _ e =>
    exact outWf_next (MemoriesWf.unparkAll ((h.takeCtl e).modCore_sp _ (fun _ => rfl)))
  · exact outWf_next h

theorem outWf_execRerouteDrainEnd {s : State} {reported : Bool} (h : MemoriesWf s) : OutWf (execRerouteDrainEnd reported s) := by
  unfold Machine.execRerouteDrainEnd
  split
  · exact outWf_next h
  · extract_lets dead gone notices x s1 s2
    have hs1 : MemoriesWf s1 := h.of_eq rfl rfl rfl rfl
    have hs2 : MemoriesWf s2 := hs1.mapCores fun _ _ => by split <;> rfl
    exact outWf_next hs2.unparkAll

theorem outWf_execLostNotice {s : State} {k : Nat} (h : MemoriesWf s) : OutWf (execLostNotice k s) := by
  unfold Machine.execLostNotice
  split
  · exact outWf_next h
  · extract_lets s1 far s2
    have hs1 : MemoriesWf s1 := h.modFw _
    have hs2 : MemoriesWf s2 := by
      unfold s2
      split
      · exact hs1.ownRecord
      · exact hs1
    refine outWf_next ?_
    split
    · exact hs2.retryLost
    · split
      · exact hs2.of_eq rfl rfl rfl rfl
      · exact hs2

theorem outWf_execCtrlWrite {s : State} {k : Nat} (h : MemoriesWf s) : OutWf (execCtrlWrite k s) := by
  unfold Machine.execCtrlWrite
  split
  · extract_lets s1
    have hs1 : MemoriesWf s1 := h.of_eq rfl rfl rfl rfl
    refine outWf_next ?_
    split
    · split
      · exact hs1.haltCore
      · exact hs1
    · exact hs1.ctlWrite
  · exact outWf_next h

theorem outWf_execCtrlRead {s : State} {k : Nat} (h : MemoriesWf s) : OutWf (execCtrlRead k s) := by
  unfold Machine.execCtrlRead
  split
  · exact outWf_next (h.of_eq rfl rfl rfl rfl)
  · exact outWf_next h

theorem outWf_execCtrlData {s : State} {k : Nat} (h : MemoriesWf s) : OutWf (execCtrlData k s) := by
  unfold Machine.execCtrlData
  split
  · exact outWf_next (h.of_eq rfl rfl rfl rfl)
  · exact outWf_next h

theorem outWf_execGridLatch {s : State} {pos : Nat} (h : MemoriesWf s) : OutWf (execGridLatch pos s) := by
  unfold Machine.execGridLatch
  split
  · exact outWf_next h
  next _ _ e =>
    extract_lets r s1
    have hs1 : MemoriesWf s1 := (h.takeCtl e).modFw _
    refine outWf_next ?_
    split
    · exact hs1
    · exact hs1.writeSnapshot

theorem outWf_execCounterGridTimer {s : State} (h : MemoriesWf s) : OutWf (execCounterGridTimer s) := by
  unfold Machine.execCounterGridTimer
  extract_lets now x s1 s2 head x1
  have hs1 : MemoriesWf s1 := h.of_eq rfl rfl rfl rfl
  have hs2 : MemoriesWf s2 := hs1.modFw _
  split
  · exact outWf_next h
  · split
    · exact outWf_next hs2
    · exact outWf_next (hs2.of_eq rfl rfl rfl rfl)

theorem outWf_execXinvWrite {s : State} {value : Word} (h : MemoriesWf s) : OutWf (execXinvWrite value s) := outWf_next h.writeXinv

theorem outWf_execXinvDropComplete {s : State} (h : MemoriesWf s) : OutWf (execXinvDropComplete s) := outWf_next (h.of_eq rfl rfl rfl rfl)

theorem outWf_execPatrolScrub {s : State} {block : Nat} {carveOut : Bool} {u' : Upset}
    (h : MemoriesWf s) : OutWf (execPatrolScrub block carveOut u' s) := by
  unfold Machine.execPatrolScrub
  extract_lets s1 s2
  have hs1 : MemoriesWf s1 := h.upset
  have hs2 : MemoriesWf s2 := by
    unfold s2
    split
    · split
      · exact hs1.modFw _
      · exact hs1
    · exact hs1
  refine outWf_next ?_
  split
  · split
    · exact hs2.readCarve
    · exact hs2.readBlock
  · exact hs2

theorem outWf_execPeerNotice {s : State} {dev : Nat} {reason : PeerReason} (h : MemoriesWf s) : OutWf (execPeerNotice dev reason s) := by
  unfold Machine.execPeerNotice
  refine outWf_next ?_
  split
  · exact h.peerDown
  · exact h

theorem outWf_execPeerWindowWrite {s : State} {i : Nat} {v : BitVec 128} (h : MemoriesWf s) : OutWf (execPeerWindowWrite i v s) := by
  unfold Machine.execPeerWindowWrite
  refine outWf_next ?_
  split
  · exact h.writePeerWin
  · exact h

theorem outWf_execRegisterWrite {s : State} {ia : Nat} {v : Word} (h : MemoriesWf s) : OutWf (execRegisterWrite ia v s) := by
  unfold Machine.execRegisterWrite
  split
  · exact outWf_next h.devStore
  · exact outWf_next h.ctlWrite
  · exact outWf_next h

/-! ## Timers -/

theorem outWf_execInboxReservationLapse {s : State} {pos : Nat} (h : MemoriesWf s) : OutWf (execInboxReservationLapse pos s) := by
  unfold Machine.execInboxReservationLapse
  split
  · exact outWf_next h
  · refine outWf_next ?_
    split
    · exact MemoriesWf.inboxFreed (h.modCore_sp _ (fun _ => rfl))
    · exact h

theorem outWf_execRefusalRetryExpiry {s : State} {node i : Nat} (h : MemoriesWf s) : OutWf (execRefusalRetryExpiry node i s) := by
  unfold Machine.execRefusalRetryExpiry
  split
  · split
    · exact outWf_next h
    · split
      · exact outWf_next h
      · split
        · exact outWf_next (MemoriesWf.ownRecord (h.modCore_sp _ (fun _ => rfl)))
        · exact outWf_next h.sendSlot
  · split
    · exact outWf_next h
    · refine outWf_next ?_
      split
      · exact h
      · exact h.reissue

theorem outWf_execInbctlWrite {s : State} {pos : Nat} {v : Word} (h : MemoriesWf s) : OutWf (execInbctlWrite pos v s) := outWf_next h.ctlWrite

theorem outWf_execInbctlApply {s : State} {pos : Nat} (h : MemoriesWf s) : OutWf (execInbctlApply pos s) :=
  outWf_next (h.modCore_sp _ (fun _ => Core.applyInbctl_sp _))

theorem outWf_execL1ctlInv {s : State} {pos : Nat} (h : MemoriesWf s) : OutWf (execL1ctlInv pos s) := outWf_next h.l1Clear

theorem outWf_execDaleEntryAgeFlush {s : State} {dale i : Nat} (h : MemoriesWf s) : OutWf (execDaleEntryAgeFlush dale i s) := by
  unfold Machine.execDaleEntryAgeFlush
  split
  · exact outWf_next h
  · refine outWf_next ?_
    split
    · exact h
    · exact h.flushDale

theorem outWf_execWdctlWrite {s : State} {pos : Nat} {v : Word} (h : MemoriesWf s) : OutWf (execWdctlWrite pos v s) := outWf_next h.ctlWrite

theorem outWf_execTrcctlWrite {s : State} {pos : Nat} {v : Word} (h : MemoriesWf s) : OutWf (execTrcctlWrite pos v s) := outWf_next h.writeTrcctl

theorem outWf_execWfeTimeout {s : State} {pos slot : Nat} (h : MemoriesWf s) : OutWf (execWfeTimeout pos slot s) := by
  unfold Machine.execWfeTimeout
  split
  · exact outWf_next h
  · split
    · refine outWf_next ?_
      split
      · exact h.setThread _ _ _
      · exact h
    · exact outWf_next h

theorem outWf_execWatchdogExpiry {s : State} {pos slot : Nat} (h : MemoriesWf s) : OutWf (execWatchdogExpiry pos slot s) := by
  unfold Machine.execWatchdogExpiry
  split
  · exact outWf_next h
  · split
    · exact outWf_next h
    · split
      · refine outWf_next ?_
        split
        · exact h
        · exact h.watchdogTrap
      · extract_lets isWait
        refine outWf_next ?_
        split
        · exact h.setThread _ _ _
        · exact h
      · extract_lets s1 s2
        have hs1 : MemoriesWf s1 := h.modCore_sp _ fun _ => rfl
        have hs2 : MemoriesWf s2 := hs1.modGroup _ _ _
        refine outWf_next ?_
        split
        · exact hs2.modThread _ _ _
        · exact hs2.watchdogTrap
      · exact outWf_next h

/-! ## DebugCommands -/

theorem outWf_execStop {s : State} {k : Nat} (h : MemoriesWf s) : OutWf (execStop k s) := by
  unfold Machine.execStop
  split
  · extract_lets s1 c l s2
    have hs1 : MemoriesWf s1 := h.of_eq rfl rfl rfl rfl
    have hs2 : MemoriesWf s2 := MemoriesWf.freezeAll (hs1.modCore_sp _ (fun _ => Core.recordTrigger_sp _ _ _ _ _ _))
    split
    · exact outWf_next hs1.stopAnswer
    · exact outWf_next hs2.oweStop
  · exact outWf_next h

theorem outWf_execStopAck {s : State} {k : Nat} (h : MemoriesWf s) : OutWf (execStopAck k s) := by
  unfold Machine.execStopAck
  split
  · extract_lets s1
    have hs1 : MemoriesWf s1 := h.of_eq rfl rfl rfl rfl
    split
    · exact outWf_next hs1
    · extract_lets t s2 s3
      have hs2 : MemoriesWf s2 := hs1.modFw _
      have hs3 : MemoriesWf s3 := hs1.modFw _
      split
      · refine outWf_next ?_
        split
        · exact finishCmd_keeps hs2 _ _ _ _
        · exact hs2
      · refine outWf_next ?_
        split
        · exact hs3.of_eq rfl rfl rfl rfl
        · exact hs3
  · exact outWf_next h

theorem outWf_execDebugStop {s : State} {q : Nat} (h : MemoriesWf s) : OutWf (execDebugStop q s) := by
  unfold Machine.execDebugStop
  refine outWf_debugCommand h fun x1 x2 x3 s3 hs => ?_
  extract_lets l n low scope reach s1 root x s2
  have hs1 : MemoriesWf s1 := MemoriesWf.freezeAll (hs.modCore_sp _ (fun _ => Core.recordTrigger_sp _ _ _ _ _ _))
  have hs2 : MemoriesWf s2 := hs1.modFw _
  split
  · exact finishCmd_keeps hs _ _ _ _
  · exact MemoriesWf.oweStop (hs2.of_eq rfl rfl rfl rfl)

theorem outWf_execDebugGo {s : State} {q : Nat} (h : MemoriesWf s) : OutWf (execDebugGo q s) := by
  unfold Machine.execDebugGo
  refine outWf_debugCommand h fun x x1 x2 s1 hs => ?_
  extract_lets here trigs named
  split
  · exact finishCmd_keeps hs _ _ _ _
  · refine finishCmd_keeps ?_ _ _ _ _
    exact hs.foldl fun _ _ hs1 => hs1.go

theorem outWf_execDebugStep {s : State} {q : Nat} (h : MemoriesWf s) : OutWf (execDebugStep q s) := by
  unfold Machine.execDebugStep
  refine outWf_debugCommand h fun x1 x2 x3 s3 hs => ?_
  split
  · exact finishCmd_keeps hs _ _ _ _
  · split
    · exact finishCmd_keeps hs _ _ _ _
    · extract_lets s1 s2 x
      have hs1 : MemoriesWf s1 := hs.modGroup _ _ _
      have hs2 : MemoriesWf s2 := hs1.modGroupThreads
      refine MemoriesWf.modFw ?_ _
      exact hs2.modCore_sp _ fun _ => rfl

theorem outWf_execDebugStepEnd {s : State} {pos gslot : Nat} (h : MemoriesWf s) : OutWf (execDebugStepEnd pos gslot s) := by
  unfold Machine.execDebugStepEnd
  split
  · exact outWf_next h
  · refine outWf_next ?_
    split
    · exact h.endStep
    · exact h

theorem outWf_execDebugDump {s : State} {q : Nat} (h : MemoriesWf s) : OutWf (execDebugDump q s) := by
  unfold Machine.execDebugDump
  refine outWf_command h fun x x1 s1 hs => ?_
  extract_lets buf
  split
  · exact finishCmd_keeps hs _ _ _ _
  · split
    · exact finishCmd_keeps hs _ _ _ _
    · split
      · exact finishCmd_keeps hs _ _ _ _
      · split
        · exact finishCmd_keeps hs _ _ _ _
        · exact hs.modFw _

/-! ## Engines -/

theorem outWf_execTcopy {s : State} {d a b c : Reg} (h : MemoriesWf s) : OutWf (execTcopy d a b c s) := by
  unfold Machine.execTcopy
  refine outWf_tileOp h fun x x1 x2 x3 => ?_
  extract_lets n t
  split
  · exact outWf_next (h.illegal _)
  · split
    · exact outWf_next (h.trap _)
    · split
      · exact outWf_next (h.trap _)
      · split
        · exact outWf_next (h.trap _)
        · split
          · exact outWf_next (h.retire _ _)
          · exact outWf_forkWait h (outWf_forkEngine h)

theorem outWf_execTgather {s : State} {e : GatherSize} {d a b c : Reg} (h : MemoriesWf s) : OutWf (execTgather e d a b c s) := by
  unfold Machine.execTgather
  refine outWf_tileOp h fun x x1 x2 x3 => ?_
  extract_lets lst t
  split
  · exact outWf_next (h.trap _)
  · split
    · exact outWf_next (h.trap _)
    · extract_lets off cnt list bytes idx
      split
      · exact outWf_next (h.illegal _)
      · split
        · exact outWf_next (h.trap _)
        · split
          · exact outWf_next (h.trap _)
          · split
            · exact outWf_next (h.trap _)
            · split
              · exact outWf_next (h.trap _)
              · split
                · exact outWf_next h.consumePoison
                · split
                  · exact outWf_next (h.retire _ _)
                  · exact outWf_forkWait h (outWf_forkEngine h)

/-! ## Media -/

theorem outWf_execMediaPacket {s : State} {k : MediaPacket} (h : MemoriesWf s) : OutWf (execMediaPacket k s) := by
  unfold Machine.execMediaPacket
  split
  · exact outWf_next (h.modFw _)
  · split
    · exact outWf_next h
    · split
      · exact outWf_next h
      · split
        · exact outWf_next h.setStream
        · extract_lets t idx dual x top m s1
          have hs1 : MemoriesWf s1 := h.setStream
          split
          · exact outWf_next h.setStream
          · split
            · exact outWf_next hs1.acceptPacket
            · split
              · exact outWf_next hs1.latePacket
              · exact outWf_next hs1.openFrame.acceptPacket

theorem outWf_execFrameDeadline {s : State} {i idx : Nat} (h : MemoriesWf s) : OutWf (execFrameDeadline i idx s) := by
  unfold Machine.execFrameDeadline
  split
  · exact outWf_next h
  · split
    · refine outWf_next ?_
      split
      · exact h.closeFrame
      · exact h
    · exact outWf_next h

theorem outWf_execStallTimerExpiry {s : State} {i : Nat} (h : MemoriesWf s) : OutWf (execStallTimerExpiry i s) := by
  unfold Machine.execStallTimerExpiry
  split
  · exact outWf_next h
  · split
    · refine outWf_next ?_
      split
      · exact h.setStream
      · exact h
    · exact outWf_next h

theorem outWf_execMediaOpen {s : State} {q : Nat} (h : MemoriesWf s) : OutWf (execMediaOpen q s) := by
  unfold Machine.execMediaOpen
  refine outWf_command h fun x x1 s1 hs => ?_
  extract_lets a m used
  split
  · exact finishCmd_keeps hs _ _ _ _
  · split
    · exact finishCmd_keeps hs _ _ _ _
    · split
      · exact finishCmd_keeps hs _ _ _ _
      · split
        · exact finishCmd_keeps hs _ _ _ _
        · split
          · exact finishCmd_keeps hs _ _ _ _
          · split
            · exact finishCmd_keeps hs _ _ _ _
            · split
              · exact finishCmd_keeps hs _ _ _ _
              · split
                · exact finishCmd_keeps hs _ _ _ _
                · exact finishCmd_keeps hs.setStream _ _ _ _

theorem outWf_execMediaClose {s : State} {q : Nat} (h : MemoriesWf s) : OutWf (execMediaClose q s) := by
  unfold Machine.execMediaClose
  refine outWf_command h fun x x1 s2 hs => ?_
  extract_lets i
  split
  · exact finishCmd_keeps hs _ _ _ _
  · extract_lets s1
    have hs1 : MemoriesWf s1 := by
      unfold s1
      refine MemoriesWf.foldl hs fun s3 x2 hs2 => ?_
      split
      · exact hs2.closeFrame
      · exact hs2
    exact finishCmd_keeps (hs1.modFw _) _ _ _ _

theorem outWf_execMediaStats {s : State} {q : Nat} (h : MemoriesWf s) : OutWf (execMediaStats q s) := outWf_command h fun _ _ _ hs => hs.putStats

theorem outWf_execMediaPtp {s : State} {q : Nat} (h : MemoriesWf s) : OutWf (execMediaPtp q s) := by
  unfold Machine.execMediaPtp
  refine outWf_command h fun x x1 s1 hs => ?_
  extract_lets port dom w
  split
  · exact finishCmd_keeps hs _ _ _ _
  · split
    · exact finishCmd_keeps hs _ _ _ _
    · exact hs.modFw _

theorem outWf_execPtpSyncMessage {s : State} {port domain : Nat} {m : SyncTime} (h : MemoriesWf s) : OutWf (execPtpSyncMessage port domain m s) := by
  unfold Machine.execPtpSyncMessage
  split
  · exact outWf_next h
  · extract_lets t off old good locked s1
    have hs1 : MemoriesWf s1 := by
      unfold s1
      split
      · exact h.ptpLock
      · exact h
    exact outWf_next (hs1.modFw _)

theorem outWf_execPtpLockLoss {s : State} {port : Nat} (h : MemoriesWf s) : OutWf (execPtpLockLoss port s) := by
  unfold Machine.execPtpLockLoss
  split
  · refine outWf_next ?_
    split
    · exact h.modFw _
    · exact h
  · exact outWf_next h

theorem outWf_execPtpLockTimeout {s : State} {q : Nat} (h : MemoriesWf s) : OutWf (execPtpLockTimeout q s) := by
  unfold Machine.execPtpLockTimeout
  split
  · exact outWf_next (finishCmd_keeps (h.modFw _) _ _ _ _)
  · exact outWf_next h

/-! ## ScalarFp -/

theorem outWf_execFsqrt {s : State} {p : Prec} {d a : Reg} (h : MemoriesWf s) : OutWf (execFsqrt p d a s) := outWf_fpBin h

theorem outWf_execFcvt {st : State} {t s : CvtType} {d a : Reg} (h : MemoriesWf st) : OutWf (execFcvt t s d a st) :=
  outWf_withPfx h fun _ _ => outWf_next (h.retire _ _)

/-! ## Stealing -/

theorem outWf_execGroupStart {s : State} {p : Nat} (h : MemoriesWf s) : OutWf (execGroupStart p s) := outWf_next h.startTop

theorem outWf_execDequeRefill {s : State} {p : Nat} (h : MemoriesWf s) : OutWf (execDequeRefill p s) := by
  unfold Machine.execDequeRefill
  refine outWf_next ?_
  split
  · exact h.modCore_sp _ fun _ => rfl
  · exact h

theorem outWf_execStealRound {s : State} {p : Nat} (h : MemoriesWf s) : OutWf (execStealRound p s) := outWf_next h.stealRound

theorem outWf_execStealBackoffExpiry {s : State} {p : Nat} (h : MemoriesWf s) : OutWf (execStealBackoffExpiry p s) := by
  unfold Machine.execStealBackoffExpiry
  extract_lets c wait
  split
  · exact outWf_next (MemoriesWf.stealRound (h.modCore_sp _ (fun _ => rfl)))
  · exact outWf_next h

theorem outWf_execStealReq {s : State} {k : Nat} (h : MemoriesWf s) : OutWf (execStealReq k s) := by
  unfold execStealReq
  split
  next thief victim _ =>
    extract_lets s1 v none0
    have hs1 : MemoriesWf s1 := h.of_eq rfl rfl rfl rfl
    have hnone0 : MemoriesWf none0 := hs1.of_eq rfl rfl rfl rfl
    refine outWf_next ?_
    split
    · exact hnone0
    · split
      · exact hnone0
      next r v' hr =>
        have hv : Memory.wf v'.sp = true := sp_wf_of_eq (Core.stealBottom_sp hr) (hs1.core victim)
        have hc : MemoriesWf (s1.setCore victim { v' with xferSent := v'.xferSent + 1#32 }) := hs1.setCore victim hv
        exact (countSent_keeps hc victim v.vtime).of_eq rfl rfl rfl rfl
  · exact outWf_next h

theorem outWf_execStealReply {s : State} {k : Nat} (h : MemoriesWf s) : OutWf (execStealReply k s) := by
  unfold execStealReply
  split
  next victim thief r vt colour _ =>
    extract_lets s1 s2 c
    have hs1 : MemoriesWf s1 := h.of_eq rfl rfl rfl rfl
    have hs2 : MemoriesWf s2 := hs1.modCore_sp _ fun _ => rfl
    refine outWf_next ?_
    split
    · exact MemoriesWf.modCore_sp hs2.countRecv _ fun c => (Core.push_sp _ _ none).trans (Core.leaveUnbounded_sp c vt)
    · split
      · split
        · exact hs2
        · split
          · exact hs2.nextVictim
          · exact hs2.modCore_sp _ fun _ => rfl
      · exact hs2
  · exact outWf_next h

theorem outWf_execBarrierTreeRelease {s : State} (h : MemoriesWf s) : OutWf (execBarrierTreeRelease s) := by
  unfold Machine.execBarrierTreeRelease
  extract_lets ps
  split
  · exact outWf_next h
  · exact outWf_next (h.foldl (fun _ _ hs => MemoriesWf.foldl (hs.modCore_sp _ (fun _ => rfl)) (fun _ _ hs1 => hs1.completeAt)))

/-! ## VectorOps -/

theorem outWf_execVbcast {s : State} {w : Width} {d : VReg} {a : Reg} {m : MReg} (h : MemoriesWf s) : OutWf (execVbcast w d a m s) :=
  outWf_vecOp h fun _ _ _ _ => outWf_enqueue h

theorem outWf_execVcvt {s : State} {d a b : VReg} {m : MReg} (h : MemoriesWf s) : OutWf (execVcvt d a b m s) := by
  unfold Machine.execVcvt
  refine outWf_withThread fun x => ?_
  extract_lets p d8
  split
  · exact outWf_next (h.illegal _)
  · exact outWf_vecOp h fun _ _ _ _ => outWf_enqueue h

theorem outWf_execVldq {s : State} {e : Bool} {j : QReg} {a : Reg} (h : MemoriesWf s) : OutWf (execVldq e j a s) := by
  unfold Machine.execVldq
  refine outWf_vecOp h fun x x1 x2 x3 => ?_
  split
  · exact outWf_next h
  · split
    · exact outWf_next h.elemFault
    · exact outWf_enqueue h

theorem outWf_execVsdq {s : State} {v : VReg} {a b : Reg} {m : MReg} (h : MemoriesWf s) : OutWf (execVsdq v a b m s) := by
  unfold Machine.execVsdq
  refine outWf_vecOp h fun x1 x2 x3 x4 => ?_
  extract_lets core ctx es d routes ok x
  split
  · exact outWf_next (h.illegal _)
  · split
    · exact outWf_next h
    · split
      · exact outWf_next (h.trap _)
      · exact outWf_enqueue h

theorem outWf_execVwhile {s : State} {u' : Bool} {w : Width} {d : MReg} {a b : Reg} (h : MemoriesWf s) : OutWf (execVwhile u' w d a b s) :=
  outWf_vecOp h fun _ _ _ _ => outWf_enqueue h

theorem outWf_execVfence {s : State} (h : MemoriesWf s) : OutWf (execVfence s) := by
  unfold Machine.execVfence
  refine outWf_vecOp h fun x x1 x2 x3 => ?_
  split
  · exact outWf_next (h.retire _ _)
  · exact outWf_next h

theorem outWf_execVmov16 {s : State} {g : BitVec 1} {d s0 : VReg} (h : MemoriesWf s) : OutWf (execVmov16 g d s0 s) := by
  unfold Machine.execVmov16
  split
  · exact outWf_next (h.illegal _)
  · exact outWf_vecReg h

/-! ## Watershed -/

theorem outWf_execWatershedRound {s : State} (h : MemoriesWf s) : OutWf (execWatershedRound s) := by
  unfold Machine.execWatershedRound
  extract_lets k tick s1 old l ms
  have hs1 : MemoriesWf s1 := h.latchRound
  split
  · exact outWf_next h
  · exact outWf_next hs1.roundSums

theorem outWf_execWatershedRereduce {s : State} (h : MemoriesWf s) : OutWf (execWatershedRereduce s) := by
  unfold Machine.execWatershedRereduce
  split
  · refine outWf_next ?_
    split
    · exact h.roundSums
    · exact h
  · exact outWf_next h

theorem outWf_execWatershedForced {s : State} (h : MemoriesWf s) : OutWf (execWatershedForced s) := by
  unfold Machine.execWatershedForced
  split
  · refine outWf_next ?_
    split
    · exact h.publish
    · exact h
  · exact outWf_next h

end Sys2Proof.Claims
end

section
/-! PROOFS. Every step keeps the canonical form of every memory. -/
namespace Sys2Proof.Claims
open Sys2Proof.Machine

/-- Every instruction and every step of the device keeps the form. -/
theorem outWf_exec {s : State} (h : MemoriesWf s) (i : Instr) : OutWf (exec i s) := by
  cases i
  case powerGood => exact outWf_execPowerGood h
  case mrstnPulse => exact outWf_execMrstnPulse h
  case coolantFlowLoss => exact outWf_execCoolantFlowLoss h
  case resetStepComplete => exact outWf_execResetStepComplete h
  case resetStepOverrun => exact outWf_execResetStepOverrun h
  case devctlWarmWrite => exact outWf_execDevctlWarmWrite h
  case powerSample => exact outWf_execPowerSample h
  case powerStepUp => exact outWf_execPowerStepUp h
  case thermalStepUp => exact outWf_execThermalStepUp h
  case clockPointChangeEnd => exact outWf_execClockPointChangeEnd h
  case ptpSyncMessage => exact outWf_execPtpSyncMessage h
  case ptpLockLoss => exact outWf_execPtpLockLoss h
  case ptpLockTimeout => exact outWf_execPtpLockTimeout h
  case starveAssert => exact outWf_execStarveAssert h
  case linkReplay => exact outWf_execLinkReplay h
  case linkHandshakeTimeout => exact outWf_execLinkHandshakeTimeout h
  case linkTrainingLoss => exact outWf_execLinkTrainingLoss h
  case linkDead => exact outWf_execLinkDead h
  case rerouteDrainEnd => exact outWf_execRerouteDrainEnd h
  case injPause => exact outWf_execInjPause h
  case injResume => exact outWf_execInjResume h
  case lostNotice => exact outWf_execLostNotice h
  case read => exact outWf_execRead h
  case write => exact outWf_execWrite h
  case atomicWithReturn => exact outWf_execAtomicWithReturn h
  case reduction => exact outWf_execReduction h
  case taggedOperation => exact outWf_execTaggedOperation h
  case exchangeStore => exact outWf_execExchangeStore h
  case dependenceDecrement => exact outWf_execDependenceDecrement h
  case matrixCommand => exact outWf_execMatrixCommand h
  case delegatedAtomic => exact outWf_execDelegatedAtomic h
  case bulkReadRequest => exact outWf_execBulkReadRequest h
  case waitWithdrawal => exact outWf_execWaitWithdrawal h
  case event => exact outWf_execEvent h
  case stepModeNeighbourTransfer => exact outWf_execStepModeNeighbourTransfer h
  case replyWithData => exact outWf_execReplyWithData h
  case acknowledgement => exact outWf_execAcknowledgement h
  case spaceNotice => exact outWf_execSpaceNotice h
  case negativeAcknowledgement => exact outWf_execNegativeAcknowledgement h
  case forwardedRequest => exact outWf_execForwardedRequest h
  case probe => exact outWf_execProbe h
  case probeReply => exact outWf_execProbeReply h
  case debugAccess => exact outWf_execDebugAccess h
  case migrationRefusal => exact outWf_execMigrationRefusal h
  case bulkWrite => exact outWf_execBulkWrite h
  case bulkReadData => exact outWf_execBulkReadData h
  case threadContext => exact outWf_execThreadContext h
  case retryTimeout => exact outWf_execRetryTimeout h
  case busyBackoffExpiry => exact outWf_execBusyBackoffExpiry h
  case waitResend => exact outWf_execWaitResend h
  case peerNotice => exact outWf_execPeerNotice h
  case peerWindowWrite => exact outWf_execPeerWindowWrite h
  case stealReq => exact outWf_execStealReq h
  case stealReply => exact outWf_execStealReply h
  case shoot => exact outWf_execShoot h
  case shootAck => exact outWf_execShootAck h
  case stop => exact outWf_execStop h
  case stopAck => exact outWf_execStopAck h
  case ctrlWrite => exact outWf_execCtrlWrite h
  case ctrlRead => exact outWf_execCtrlRead h
  case ctrlData => exact outWf_execCtrlData h
  case gridLatch => exact outWf_execGridLatch h
  case counterGridTimer => exact outWf_execCounterGridTimer h
  case barrierTreeRelease => exact outWf_execBarrierTreeRelease h
  case xinvWrite => exact outWf_execXinvWrite h
  case xinvDropComplete => exact outWf_execXinvDropComplete h
  case patrolScrub => exact outWf_execPatrolScrub h
  case submitLineUpdate => exact outWf_execSubmitLineUpdate h
  case submitLinePoll => exact outWf_execSubmitLinePoll h
  case aqctlEnSet => exact outWf_execAqctlEnSet h
  case aqctlEnClear => exact outWf_execAqctlEnClear h
  case qctlWrite => exact outWf_execQctlWrite h
  case nop => exact outWf_execNop h
  case launch => exact outWf_execLaunch h
  case cancel => exact outWf_execCancel h
  case preempt => exact outWf_execPreempt h
  case resume => exact outWf_execResume h
  case lease => exact outWf_execLease h
  case unlease => exact outWf_execUnlease h
  case copy => exact outWf_execCopy h
  case fillCommand => exact outWf_execFillCommand h
  case signalWrite => exact outWf_execSignalWrite h
  case signalAdd => exact outWf_execSignalAdd h
  case wait => exact outWf_execWait h
  case waitTimeout => exact outWf_execWaitTimeout h
  case queryDevice => exact outWf_execQueryDevice h
  case queryClockPoints => exact outWf_execQueryClockPoints h
  case querySetCaps => exact outWf_execQuerySetCaps h
  case queryCounterGrid => exact outWf_execQueryCounterGrid h
  case querySetCounterGrid => exact outWf_execQuerySetCounterGrid h
  case queryScrub => exact outWf_execQueryScrub h
  case querySetScrub => exact outWf_execQuerySetScrub h
  case queryQueue => exact outWf_execQueryQueue h
  case queryQueueDefine => exact outWf_execQueryQueueDefine h
  case queryQueueDelete => exact outWf_execQueryQueueDelete h
  case queryQueueRestart => exact outWf_execQueryQueueRestart h
  case queryPeers => exact outWf_execQueryPeers h
  case queryBootChallenge => exact outWf_execQueryBootChallenge h
  case queryFault => exact outWf_execQueryFault h
  case queryClearFault => exact outWf_execQueryClearFault h
  case queryCtlRanges => exact outWf_execQueryCtlRanges h
  case queryRectangles => exact outWf_execQueryRectangles h
  case queryMediaStats => exact outWf_execQueryMediaStats h
  case rectDefine => exact outWf_execRectDefine h
  case rectDelete => exact outWf_execRectDelete h
  case recast => exact outWf_execRecast h
  case recastCoreDrained => exact outWf_execRecastCoreDrained h
  case mediaOpen => exact outWf_execMediaOpen h
  case mediaClose => exact outWf_execMediaClose h
  case mediaStats => exact outWf_execMediaStats h
  case mediaPtp => exact outWf_execMediaPtp h
  case debugToken => exact outWf_execDebugToken h
  case debugStop => exact outWf_execDebugStop h
  case debugGo => exact outWf_execDebugGo h
  case debugStep => exact outWf_execDebugStep h
  case debugStepEnd => exact outWf_execDebugStepEnd h
  case debugDump => exact outWf_execDebugDump h
  case attest => exact outWf_execAttest h
  case resetWarm => exact outWf_execResetWarm h
  case resetWithImage => exact outWf_execResetWithImage h
  case resetWithPatch => exact outWf_execResetWithPatch h
  case launchEndSweep => exact outWf_execLaunchEndSweep h
  case waitingLaunchStart => exact outWf_execWaitingLaunchStart h
  case evictedLaunchResume => exact outWf_execEvictedLaunchResume h
  case saveImageFinal => exact outWf_execSaveImageFinal h
  case haltRequest => exact outWf_execHaltRequest h
  case groupStart => exact outWf_execGroupStart h
  case dequeRefill => exact outWf_execDequeRefill h
  case stealRound => exact outWf_execStealRound h
  case stealBackoffExpiry => exact outWf_execStealBackoffExpiry h
  case watershedRound => exact outWf_execWatershedRound h
  case watershedRereduce => exact outWf_execWatershedRereduce h
  case watershedForced => exact outWf_execWatershedForced h
  case gangReady => exact outWf_execGangReady h
  case gangEntries => exact outWf_execGangEntries h
  case gangEntriesAck => exact outWf_execGangEntriesAck h
  case gangGo => exact outWf_execGangGo h
  case gangPlacementTimeout => exact outWf_execGangPlacementTimeout h
  case gangForwardedCommand => exact outWf_execGangForwardedCommand h
  case detach => exact outWf_execDetach h
  case checkClose => exact outWf_execCheckClose h
  case containmentReport => exact outWf_execContainmentReport h
  case mediaPacket => exact outWf_execMediaPacket h
  case frameDeadline => exact outWf_execFrameDeadline h
  case stallTimerExpiry => exact outWf_execStallTimerExpiry h
  case inboxReservationLapse => exact outWf_execInboxReservationLapse h
  case refusalRetryExpiry => exact outWf_execRefusalRetryExpiry h
  case inbctlWrite => exact outWf_execInbctlWrite h
  case inbctlApply => exact outWf_execInbctlApply h
  case l1ctlInv => exact outWf_execL1ctlInv h
  case daleEntryAgeFlush => exact outWf_execDaleEntryAgeFlush h
  case watchdogExpiry => exact outWf_execWatchdogExpiry h
  case wdctlWrite => exact outWf_execWdctlWrite h
  case trcctlWrite => exact outWf_execTrcctlWrite h
  case wfeTimeout => exact outWf_execWfeTimeout h
  case registerWrite => exact outWf_execRegisterWrite h
  case add | sub | and | or | xor | andn | orn | sll | srl | sra | rol | ror | slt | sltu | min | max | minu | maxu | mul | mulh | mulhu | mulhsu |
      div | divu | rem | remu | clz | ctz | popc | sext | zext | addW | subW | sllW | srlW | sraW | rolW | rorW | mulW | divW | divuW | remW | remuW |
      clzW | ctzW | popcW | addi | andi | ori | xori | slti | sltiu | slli | srli | srai | addiW | slliW | srliW | sraiW | lui | auipc | fmin | fmax |
      fsgn | fsgnN | fsgnX | fcmpEq | fcmpNe | fcmpLt | fcmpLe | fclass | pcmpEq | pcmpNe | pcmpLt | pcmpGe | pcmpLtu | pcmpGeu | pand | por | pxor |
      pnot | pmov | pmovPack | pmovUnpack =>
    exact outWf_intOp h
  case fadd | fsub | fmul | fdiv => exact outWf_fpBin h
  case fsqrt => exact outWf_execFsqrt h
  case fcvt => exact outWf_execFcvt h
  case fmadd | fmsub | fnmadd => exact outWf_fpTri h
  case beq | bne | blt | bge | bltu | bgeu | bp | bnp => exact outWf_branch h
  case jal => exact outWf_execJal h
  case jalr => exact outWf_execJalr h
  case lb | lh | lw | ld | lbu | lhu | lwu | lbB | lhB | lwB | ldB | lbuB | lhuB | lwuB | lbN | lhN | lwN | ldN | lbuN | lhuN | lwuN =>
    exact outWf_load h
  case sb | sh | sw | sd | sbN | shN | swN | sdN => exact outWf_store h
  case lwf | take | tagq | empty | put | fill => exact outWf_tagged h
  case xst => exact outWf_execXst h
  case amoadd | amoand | amoor | amoxor | amomin | amomax | amominu | amomaxu | amoswap => exact outWf_amo h
  case cas => exact outWf_atomic h
  case red => exact outWf_execRed h
  case ramo => exact outWf_execRamo h
  case fence => exact outWf_execFence h
  case acq => exact outWf_execAcq h
  case rel => exact outWf_execRel h
  case bind => exact outWf_execBind h
  case unbind => exact outWf_execUnbind h
  case bar => exact outWf_execBar h
  case barX => exact outWf_execBarX h
  case arrive => exact outWf_execArrive h
  case waitph => exact outWf_execWaitph h
  case vadd | vsub | vmul | vmulh | vmin | vmax | vminu | vmaxu | vsll | vsrl | vsra | vand | vor | vxor | vmov | vfadd | vfsub | vfmul | vfdiv |
      vfsqrt | vfmin | vfmax | vfmacc | vfdot | vcmpEq | vcmpNe | vcmpLt | vcmpGe | vcmpLtu | vcmpGeu | vfcmpEq | vfcmpNe | vfcmpLt | vfcmpLe | mand |
      mor | mxor | mnot | vsel | vperm | vzip | vunzip | vrev | vpack | vunpackLo | vunpackHi | vaddm | vsubm | vmulm | vmacm | vmodred | vbflyCt |
      vbflyGs | vbflyxCt | vbflyxGs | vpermb | vtolog | vfromlog | vlogadd | vaddI32x16 | vsubI32x16 | vand16 | vor16 | vxor16 | vsllI32x16 |
      vfaddF32x16 | vfsubF32x16 | vfmulF32x16 | vfmaxF32x16 | vfminF32x16 | vaddm16 | vsubm16 | vmulm16 | vlogadd16 =>
    exact outWf_vecReg h
  case vaddX | vsubX | vmulX | vmulhX | vminX | vmaxX | vminuX | vmaxuX | vsllX | vsrlX | vsraX | vandX | vorX | vxorX | vfaddX | vfsubX | vfmulX |
      vfdivX | vfminX | vfmaxX | vfmaccX | vslideUp | vslideDown =>
    exact outWf_vecScalar h
  case mcnt | mfirst | vredsum | vredmin | vredmax | vredminu | vredmaxu | vfredsum | vfredmin | vfredmax | vext | vwidth =>
    exact outWf_vecToX h
  case vbcast => exact outWf_execVbcast h
  case vcvt => exact outWf_execVcvt h
  case vld | vst => exact outWf_vecUnit h
  case vlds | vsts => exact outWf_vecStride h
  case vgather | vscatter => exact outWf_vecIndex h
  case vldq => exact outWf_execVldq h
  case vsdq => exact outWf_execVsdq h
  case vwhile => exact outWf_execVwhile h
  case vfence => exact outWf_execVfence h
  case vmov16 => exact outWf_execVmov16 h
  case tmma | tspmac => exact outWf_tileMul h
  case tclr => exact outWf_execTclr h
  case tacc2s | ts2acc => exact outWf_tileMove h
  case tmsend => exact outWf_execTmsend h
  case twait => exact outWf_execTwait h
  case tcopy => exact outWf_execTcopy h
  case tgather => exact outWf_execTgather h
  case fmt => exact outWf_execFmt h
  case evsend => exact outWf_execEvsend h
  case evwait => exact outWf_execEvwait h
  case evnext => exact outWf_execEvnext h
  case evpeek => exact outWf_execEvpeek h
  case vtadv => exact outWf_execVtadv h
  case dqpush => exact outWf_execDqpush h
  case dqpop => exact outWf_execDqpop h
  case tdec => exact outWf_execTdec h
  case tspawn => exact outWf_execTspawn h
  case texit => exact outWf_execTexit h
  case tdetach => exact outWf_execTdetach h
  case tyield => exact outWf_execTyield h
  case go => exact outWf_execGo h
  case barT => exact outWf_execBarT h
  case nsend => exact outWf_execNsend h
  case nrecv => exact outWf_execNrecv h
  case ecall => exact outWf_execEcall h
  case ebreak => exact outWf_execEbreak h
  case tret => exact outWf_execTret h
  case wfe => exact outWf_execWfe h
  case halt => exact outWf_execHalt h
  case csrr => exact outWf_execCsrr h
  case csrw => exact outWf_execCsrw h
  case csrs => exact outWf_execCsrs h
  case csrc => exact outWf_execCsrc h
  case inputPowerLoss => exact outWf_execInputPowerLoss h
  case unassignedEncoding => exact outWf_execUnassignedEncoding h
  case vectorCommandComplete => exact outWf_execVectorCommandComplete h
  case matrixStepBoundary => exact outWf_execMatrixStepBoundary h
  case gangBarrierRelease => exact outWf_execGangBarrierRelease h
  case waitConditionMet => exact outWf_execWaitConditionMet h

end Sys2Proof.Claims
end

section
/-! PROOFS. Every step keeps the canonical form of every memory. -/
namespace Sys2Proof.Claims
open Sys2Proof.Machine

/-! ## The issue of one instruction -/

/-- A fetch that waits. -/
theorem fetchHalf_wait {s u : State} {t : Thread} {g : Group} {l : Launch} {va : Word} (h : MemoriesWf s) (e : fetchHalf s t g l va = .wait u) :
    MemoriesWf u := by
  unfold fetchHalf at e
  split at e
  · split at e <;> cases e
    exact h.fetchTrap
  · split at e
    · cases e; exact h.fetchTrap
    · split at e
      · cases e; exact h.fetchTrap
      · dsimp only at e
        split at e
        · split at e <;> cases e
          exact MemoriesWf.consumePoison (h.modCore_sp _ fun _ => rfl)
        · split at e
          · cases e; exact h.fetchTrap
          · split at e <;> cases e
            · exact h
            · exact ask_keeps h _ _

/-- What a boundary comes to keeps the form: a state, or one in which an instruction is due. -/
def BoundaryWf : Boundary → Prop
  | .done u => MemoriesWf u
  | .issue u _ => MemoriesWf u

/-- The breakpoint and the fetch. -/
theorem boundaryWf_issueAt {s : State} {t : Thread} {g : Group} {l : Launch} (h : MemoriesWf s) : BoundaryWf (boundary.issueAt s t g l) := by
  unfold boundary.issueAt
  split
  · exact (h.setCur _).trigger
  · split
    next hu => exact fetchHalf_wait h hu
    · split
      · exact h.setCur _
      · split
        next hu => exact fetchHalf_wait h hu
        · exact h.setCur _

/-- The boundary of a thread. -/
theorem boundaryWf_boundary {s : State} (h : MemoriesWf s) : BoundaryWf (boundary s) := by
  unfold boundary
  split
  · exact h
  · split
    · exact h
    · split
      · exact h
      · split
        · exact h
        · split
          · exact h
          · split
            · exact h
            · split
              · split
                · exact h.setCur _
                · exact (h.setCur _).trap _
              · split
                · exact boundaryWf_issueAt h
                · exact (h.setCur _).trap _
              · split
                · exact boundaryWf_issueAt h
                · exact (h.setCur _).trap _
              · exact boundaryWf_issueAt h

/-- The issue of a thread's next instruction. -/
theorem outWf_issue {s : State} {p slot : Nat} (h : MemoriesWf s) : OutWf (issue s p slot) := by
  have hb : BoundaryWf (boundary { s with pos := p, slot := slot }) := boundaryWf_boundary (h.of_eq rfl rfl rfl rfl)
  unfold issue
  cases e : boundary { s with pos := p, slot := slot } with
  | done u => rw [e] at hb; exact outWf_next hb
  | issue u w => rw [e] at hb; exact outWf_exec hb _

theorem outWf_issueCounted {s : State} {p slot : Nat} {passed : List Nat} (h : MemoriesWf s) : OutWf (issueCounted s p slot passed) :=
  outWf_issue (h.modCore_sp p fun c => Core.issuedBy_sp c slot passed)

/-! ## What happens next -/

/-- The first of some outcomes that changes the state is one of them. -/
theorem mem_of_firstChange {s : State} {l : List Out} {o : Out} (e : firstChange s l = some o) : o ∈ l := by
  induction l with
  | nil => cases e
  | cons a l ih =>
    unfold firstChange at e
    split at e
    · split at e
      · exact List.mem_cons_of_mem _ (ih e)
      · exact Option.some.inj e ▸ List.mem_cons_self
    · exact Option.some.inj e ▸ List.mem_cons_self

/-- The first of some instructions that changes the state. -/
theorem outWf_firstChange {s : State} {l : List Instr} {o : Out} (h : MemoriesWf s) (e : firstChange s (l.map fun i => exec i s) = some o) : OutWf o := by
  obtain ⟨i, _, rfl⟩ := List.mem_map.1 (mem_of_firstChange e)
  exact outWf_exec h i

/-- The issue of the next core that has a thread ready. -/
theorem outWf_issueNext {s : State} {l : List Nat} {o : Out} (h : MemoriesWf s) (e : s.issueNext l = some o) : OutWf o := by
  induction l with
  | nil => cases e
  | cons p l ih =>
    unfold State.issueNext at e
    dsimp only at e
    split at e
    · exact ih e
    · cases e
      exact outWf_issueCounted (h.of_eq rfl rfl rfl rfl)

/-- What happens next where nothing is laid down. -/
theorem outWf_defaultStep {s : State} (h : MemoriesWf s) : OutWf s.defaultStep := by
  unfold State.defaultStep
  extract_lets s1
  have hs1 : MemoriesWf s1 := h.elapse.fabricNs
  split
  next e => exact outWf_firstChange hs1 e
  · split
    next e => exact outWf_issueNext hs1 e
    · split
      next e => exact outWf_firstChange hs1 e
      · refine outWf_next ?_
        split
        · exact hs1
        · exact h.elapse

/-- An entry of the agenda. -/
theorem outWf_take {s : State} (h : MemoriesWf s) (a : Agenda) : OutWf (s.take a) := by
  cases a with
  | happen i => exact outWf_exec h i
  | run p slot => exact outWf_issueCounted h
  | elapse ns => exact outWf_next h.elapse
  | evict p line => exact outWf_next (h.modCore_sp p fun _ => rfl)
  | peerIn port hd b => exact outWf_next h.peerIn
  | portCredit port plane => exact outWf_next h.portCredit
  | portRefuse port plane beat => exact outWf_next h.portRefuse
  | portDies port => exact outWf_next h.portDies
  | handshake plane => exact outWf_next h.handshake
  | ctlIn p hd =>
    refine outWf_next ?_
    split
    · exact h.dropAt
    · exact h
  | hostStore addr data => exact outWf_next (h.hostWrite addr data)
  | devStore ia data => exact outWf_next h.hostDevStore
  | hostTake line => exact outWf_next h.hostTakeLine
  | hostGive line x => exact outWf_next h.hostGiveLine
  | poisonWord p w => exact outWf_next (h.modCore_sp p fun _ => rfl)
  | demandRead b =>
    refine outWf_next ?_
    split
    · exact h.readBlock
    · exact h
  | upset b u => exact outWf_next h.upsetBlock
  | carveUpset r u => exact outWf_next h.upsetCarve
  | hostPoison b => exact outWf_next (h.of_eq rfl rfl rfl rfl)
  | tlbDrop k page => exact outWf_next (h.of_eq rfl rfl rfl rfl)
  | moveOut page => exact outWf_next h.moveOut
  | corrected p sp => exact outWf_next h.corrected
  | sliceCorrected => exact outWf_next h.sliceCorrected
  | gangFinal gang dev => exact outWf_next h.gangFinal
  | gangFree gang dev => exact outWf_next h.modGang
  | mapHost page frame => exact outWf_next (h.mapHostPage page frame)
  | config off v => exact outWf_next h.configWrite
  | wfeEnd p slot => exact outWf_next h.wfeEnd
  | lag n => exact outWf_next (h.of_eq rfl rfl rfl rfl)
  | traceStall p b =>
    refine outWf_next (MemoriesWf.traceDrain ?_ p)
    exact h.modCore_sp p fun _ => rfl

/-- What settles after an outcome. -/
theorem outWf_settled {o : Out} (ho : OutWf o) : OutWf (settled o) := by
  cases o with
  | next u => exact outWf_next (ho u rfl).settle
  | fault f => exact outWf_fault f
  | refused r => exact outWf_refused r

theorem outWf_stepOnce {s : State} (h : MemoriesWf s) : OutWf (stepOnce s) := by
  unfold stepOnce
  split
  next a rest _ => exact outWf_settled (outWf_take (s := { s with agenda := rest }) (h.of_eq rfl rfl rfl rfl) a)
  · exact outWf_settled (outWf_defaultStep h)

end Sys2Proof.Claims

namespace Sys2Proof
open Sys2Proof.Machine Sys2Proof.Claims

/-- Settles O58: whatever the agenda or the default step takes up, and what settles after it, writes memories only by stores and filters. -/
theorem stepKeepsCanonicalMemory : Obligations.StepKeepsCanonicalMemory := fun _ u h e => outWf_stepOnce h u e
end Sys2Proof
end

section
/-! PROOFS. The control registers of a core that read back what is written (R6). -/
namespace Sys2Proof.Machine
open Sys2Proof.Claims

/-! ## Fields of a word -/

/-- The bits [at0, at0 + n) of a word, as a mask. -/
def bitsAt (at0 n : Nat) : Word := (BitVec.allOnes n).setWidth 64 <<< at0

/-- A word under the mask of a field is the field at its place. -/
theorem and_bitsAt (v : Word) (a n : Nat) : v &&& bitsAt a n = fieldAt (v.extractLsb' a n).toNat a := by
  refine BitVec.eq_of_getLsbD_eq fun i hi => ?_
  simp only [bitsAt, fieldAt, BitVec.getLsbD_and, BitVec.getLsbD_shiftLeft, BitVec.getLsbD_setWidth, BitVec.getLsbD_allOnes,
    BitVec.getLsbD_ofNat, BitVec.testBit_toNat, BitVec.getLsbD_extractLsb', hi]
  by_cases hk : i < a
  · simp [hk]
  · simp [hk, Nat.add_sub_cancel' (Nat.le_of_not_lt hk), hi]
    ac_rfl

/-- A word under one bit is that bit at its place. -/
theorem and_bit (v : Word) (a : Nat) : v &&& (1#64 <<< a) = bitAt (v.getLsbD a) a := by
  refine BitVec.eq_of_getLsbD_eq fun i hi => ?_
  by_cases e : i = a
  · subst e; cases hb : v.getLsbD i <;> simp [bitAt, hb, hi, -BitVec.getLsbD_eq_getElem]
  · have : ¬ (a ≤ i ∧ i - a = 0) := by omega
    cases hb : v.getLsbD a <;> simp [bitAt, hi] <;> omega

/-- A multiple of a power of two is a field from that bit up. -/
theorem fieldAt_mul (n k : Nat) : fieldAt (n * 2 ^ k) 0 = fieldAt n k := by
  refine BitVec.eq_of_toNat_eq ?_
  simp [fieldAt, Nat.shiftLeft_eq, BitVec.toNat_shiftLeft]

/-- A field is its bits, widened and shifted. -/
theorem setWidth_shiftLeft_eq_fieldAt (w : BitVec 32) (k : Nat) : w.setWidth 64 <<< k = fieldAt w.toNat k := by
  rw [fieldAt, BitVec.ofNat_toNat]

/-! ## The registers that keep what is written -/

/-- What a core holds of a register that reads back what is written. -/
def Core.ctlHeld (c : Core) (off : Nat) : Word :=
  match off with
  | 0x200 => bitAt c.auto 0 ||| bitAt c.steal 1 ||| bitAt c.daleOnly 2 ||| fieldAt (c.boMax % 16) 3
  | 0x300 => bitAt c.vtGvtRec 0 ||| (c.vtStep.setWidth 64 <<< 32)
  | 0x500 => c.mxKey.setWidth 64 ||| bitAt c.mxEn 32
  | 0x600 => fieldAt c.sd.tbase 0 ||| fieldAt c.sd.tlen 32
  | 0x608 => fieldAt c.sd.rbase 0 ||| fieldAt c.sd.nroute 32
  | 0x700 => c.dbgctl
  | 0x710 => c.bp[0]
  | 0x718 => c.bp[1]
  | 0x720 => c.bp[2]
  | 0x728 => c.bp[3]
  | 0x730 => c.wp[0]
  | 0x738 => c.wp[1]
  | 0x740 => c.dbgmatch
  | 0x750 => c.trcbase
  | 0x758 => c.trcsize
  | 0x768 => c.wdLimit.setWidth 64
  | _ => 0#64

/-- The core after a write of such a register. -/
def Core.ctlPut (c : Core) (now : Word) (off : Nat) (v : Word) : Core :=
  match off with
  | 0x200 => { c with auto := v.getLsbD 0, steal := v.getLsbD 1, daleOnly := v.getLsbD 2, boMax := (v.extractLsb' 3 4).toNat }
  | 0x300 => { c with vtGvtRec := v.getLsbD 0, vtStep := v.extractLsb' 32 32 }
  | 0x500 => { c with mxKey := v.extractLsb' 0 32, mxEn := v.getLsbD 32 }
  | 0x600 => { c with sd := { c.sd with tbase := (v.extractLsb' 3 15).toNat * 8, tlen := (v.extractLsb' 32 16).toNat } }
  | 0x608 => { c with sd := { c.sd with rbase := (v.extractLsb' 4 14).toNat * 16, nroute := (v.extractLsb' 32 7).toNat } }
  | 0x700 => { c with dbgctl := v &&& 0x1F#64 }
  | 0x710 => { c with bp := c.bp.set 0 v }
  | 0x718 => { c with bp := c.bp.set 1 v }
  | 0x720 => { c with bp := c.bp.set 2 v }
  | 0x728 => { c with bp := c.bp.set 3 v }
  | 0x730 => { c with wp := c.wp.set 0 (v &&& 0x00FFFFFFFFFFFFFF#64) }
  | 0x738 => { c with wp := c.wp.set 1 (v &&& 0x00FFFFFFFFFFFFFF#64) }
  | 0x740 => { c with dbgmatch := v &&& 0x3FFFFFFF#64 }
  | 0x750 => { c with trcbase := v &&& 0x00FFFFFFFFFFF000#64 }
  | 0x758 => { c with trcsize := v &&& 0xFFFF#64 }
  | 0x768 => { c with wdLimit := v.extractLsb' 0 32, wdTime := now }
  | _ => c

/-- A read of a register that keeps what is written. -/
theorem State.ctlRead_eq_ctlHeld (s : State) (p : Nat) {off : Nat} {m : Word} (h : ctlMask off = some m) :
    s.ctlRead p off = (s.core p).ctlHeld off := by
  unfold ctlMask at h
  split at h <;> first | rfl | cases h

/-- A write of a register that keeps what is written. -/
theorem State.ctlWrite_eq_modCore (s : State) (p : Nat) (v : Word) {off : Nat} {m : Word} (h : ctlMask off = some m) :
    s.ctlWrite p off v = s.modCore p fun c => c.ctlPut s.time off v := by
  unfold ctlMask at h
  split at h <;> first | rfl | cases h

/-- The bits of SCHEDCTL that are kept. -/
theorem and_schedctl (v : Word) : v &&& 0x7F#64 =
    bitAt (v.getLsbD 0) 0 ||| bitAt (v.getLsbD 1) 1 ||| bitAt (v.getLsbD 2) 2 ||| fieldAt (v.extractLsb' 3 4).toNat 3 := by
  rw [show 0x7F#64 = 1#64 <<< 0 ||| 1#64 <<< 1 ||| 1#64 <<< 2 ||| bitsAt 3 4 by decide, BitVec.and_or_distrib_left, BitVec.and_or_distrib_left,
    BitVec.and_or_distrib_left, and_bit, and_bit, and_bit, and_bitsAt]

/-- The bits of VTCTL that are kept. -/
theorem and_vtctl (v : Word) : v &&& 0xFFFFFFFF00000001#64 = bitAt (v.getLsbD 0) 0 ||| fieldAt (v.extractLsb' 32 32).toNat 32 := by
  rw [show 0xFFFFFFFF00000001#64 = 1#64 <<< 0 ||| bitsAt 32 32 by decide, BitVec.and_or_distrib_left, and_bit, and_bitsAt]

/-- The bits of MXKEY that are kept. -/
theorem and_mxkey (v : Word) : v &&& 0x1FFFFFFFF#64 = fieldAt (v.extractLsb' 0 32).toNat 0 ||| bitAt (v.getLsbD 32) 32 := by
  rw [show 0x1FFFFFFFF#64 = bitsAt 0 32 ||| 1#64 <<< 32 by decide, BitVec.and_or_distrib_left, and_bit, and_bitsAt]

/-- The bits of SDCTL and SDROUTE that are kept: a base and a length. -/
theorem and_base_length (v : Word) (a n k : Nat) : v &&& (bitsAt a n ||| bitsAt 32 k) =
    fieldAt ((v.extractLsb' a n).toNat * 2 ^ a) 0 ||| fieldAt (v.extractLsb' 32 k).toNat 32 := by
  rw [BitVec.and_or_distrib_left, and_bitsAt, and_bitsAt, fieldAt_mul]

/-- The bits of WDCTL that are kept. -/
theorem and_wdctl (v : Word) : v &&& 0xFFFFFFFF#64 = (v.extractLsb' 0 32).setWidth 64 := by
  rw [show 0xFFFFFFFF#64 = bitsAt 0 32 by decide, and_bitsAt, ← setWidth_shiftLeft_eq_fieldAt, BitVec.shiftLeft_zero]

/-- A register whose every bit is kept. -/
theorem and_fullWord (v : Word) : v &&& 0xFFFFFFFFFFFFFFFF#64 = v := BitVec.and_allOnes

/-- A register reads back the bits of it that are written. -/
theorem Core.ctlHeld_ctlPut_same (c : Core) (now v : Word) {off : Nat} {m : Word} (h : ctlMask off = some m) :
    (c.ctlPut now off v).ctlHeld off = v &&& m := by
  unfold ctlMask at h
  split at h <;> cases h
  case h_1 =>
    rw [and_schedctl]
    simp only [Core.ctlPut, Core.ctlHeld, Nat.mod_eq_of_lt (v.extractLsb' 3 4).isLt]
  case h_2 =>
    rw [and_vtctl]
    simp only [Core.ctlPut, Core.ctlHeld, setWidth_shiftLeft_eq_fieldAt]
  case h_3 =>
    rw [and_mxkey]
    simp only [Core.ctlPut, Core.ctlHeld, ← setWidth_shiftLeft_eq_fieldAt, BitVec.shiftLeft_zero]
  case h_4 =>
    rw [show 0x0000FFFF0003FFF8#64 = bitsAt 3 15 ||| bitsAt 32 16 by decide, and_base_length]
    simp only [Core.ctlPut, Core.ctlHeld, Nat.reducePow]
  case h_5 =>
    rw [show 0x0000007F0003FFF0#64 = bitsAt 4 14 ||| bitsAt 32 7 by decide, and_base_length]
    simp only [Core.ctlPut, Core.ctlHeld, Nat.reducePow]
  case h_16 => simp only [Core.ctlPut, Core.ctlHeld, and_wdctl]
  all_goals simp [Core.ctlPut, Core.ctlHeld, and_fullWord]

/-- A write leaves every other register that keeps what is written. -/
theorem Core.ctlHeld_ctlPut_other (c : Core) (now v : Word) {off o : Nat} (h : o ≠ off) : (c.ctlPut now off v).ctlHeld o = c.ctlHeld o := by
  unfold Core.ctlPut
  split <;> (unfold Core.ctlHeld; split) <;> simp at h ⊢

/-- A write of such a register leaves the threads. -/
@[simp] theorem Core.ctlPut_threads (c : Core) (now v : Word) (off : Nat) : (c.ctlPut now off v).threads = c.threads := by
  unfold Core.ctlPut
  split <;> rfl

/-- A write of such a register leaves the scratchpad. -/
@[simp] theorem Core.ctlPut_sp (c : Core) (now v : Word) (off : Nat) : (c.ctlPut now off v).sp = c.sp := by
  unfold Core.ctlPut
  split <;> rfl
end Sys2Proof.Machine
namespace Sys2Proof.Claims
open Sys2Proof.Machine

/-- Changing one core changes nothing else. -/
theorem OnlyAt.modCore (s : State) (p : Nat) (f : Core → Core) : OnlyAt s (s.modCore p f) p :=
  ⟨rfl, fun q hq => State.core_modCore_other s p q f hq⟩

/-- A change of one core, and what the core is then. -/
theorem exists_modCore (s : State) (p : Nat) (f : Core → Core) {c : Core} (h : f (s.core p) = c) :
    ∃ u, (.next (s.modCore p f) : Out) = .next u ∧ OnlyAt s u p ∧ u.core p = c :=
  ⟨_, rfl, .modCore s p f, (State.core_modCore_same s p f).trans h⟩

/-! ## Clauses -/

/-- A register that keeps what is written reads it back, and nothing else changes. -/
theorem ctlWrite_reads_back (s : State) (p off : Nat) (v m : Word) (h : ctlMask off = some m) :
    (s.ctlWrite p off v).ctlRead p off = v &&& m ∧ OnlyAt s (s.ctlWrite p off v) p ∧
    (∀ o m', ctlMask o = some m' → o ≠ off → (s.ctlWrite p off v).ctlRead p o = s.ctlRead p o) ∧
    ((s.ctlWrite p off v).core p).threads = (s.core p).threads ∧ ((s.ctlWrite p off v).core p).sp = (s.core p).sp := by
  rw [State.ctlWrite_eq_modCore s p v h]
  refine ⟨?_, OnlyAt.modCore _ _ _, fun o m' ho hne => ?_, ?_, ?_⟩
  · rw [State.ctlRead_eq_ctlHeld _ p h, State.core_modCore_same, Core.ctlHeld_ctlPut_same _ _ _ h]
  · rw [State.ctlRead_eq_ctlHeld _ p ho, State.ctlRead_eq_ctlHeld _ p ho, State.core_modCore_same, Core.ctlHeld_ctlPut_other _ _ _ hne]
  · simp
  · simp

/-- PREQ is not a register that reads back what is written. -/
theorem ne_preq_of_ctlMask {off : Nat} {m : Word} (h : ctlMask off = some m) : off ≠ 0x220 := by
  rintro rfl
  cases h

/-- A message of the control network writes such a register. -/
theorem execCtrlWrite_ctlWrite (s : State) (k p off : Nat) (v m : Word) (h : ctlMask off = some m) (hk : s.ctl[k]? = some (.write p off v)) :
    exec (.ctrlWrite k) s = .next ({ s with ctl := s.ctl.eraseIdx k }.ctlWrite p off v) := by
  change execCtrlWrite _ _ = _
  simp only [execCtrlWrite, hk, if_neg (ne_preq_of_ctlMask h)]

/-- Firmware writes such a register. -/
theorem execRegisterWrite_ctlWrite (s : State) (p off ia : Nat) (v : Word) (h : placeOf ia = .ctl p off) :
    exec (.registerWrite ia v) s = .next (s.ctlWrite p off v) := by
  change execRegisterWrite _ _ _ = _
  simp only [execRegisterWrite, h]

/-- A message of the control network reads a register. -/
theorem execCtrlRead_data (s : State) (k p off : Nat) (h : s.ctl[k]? = some (.read p off)) :
    exec (.ctrlRead k) s = .next { s with ctl := s.ctl.eraseIdx k ++ [.data p off (s.ctlRead p off)] } := by
  change execCtrlRead _ _ = _
  simp only [execCtrlRead, h]

/-- The data of a read is taken. -/
theorem execCtrlData_taken (s : State) (k p off : Nat) (v : Word) (h : s.ctl[k]? = some (.data p off v)) :
    exec (.ctrlData k) s = .next { s with ctl := s.ctl.eraseIdx k } := by
  change execCtrlData _ _ = _
  simp only [execCtrlData, h]
end Sys2Proof.Claims
end

section
/-! PROOFS. A halt request (R118) that takes no time. -/
namespace Sys2Proof.Claims
open Sys2Proof.Machine

/-! ## What sending a request leaves -/

/-- What sending a request leaves: memory, the control network, and the threads and scratchpad of every core. -/
structure SendKeeps (s u : State) : Prop where
  mem : u.mem = s.mem
  ctl : u.ctl = s.ctl
  threads : ∀ p, (u.core p).threads = (s.core p).threads
  sp : ∀ p, (u.core p).sp = (s.core p).sp

/-- Nothing sent. -/
theorem SendKeeps.refl (s : State) : SendKeeps s s := ⟨rfl, rfl, fun _ => rfl, fun _ => rfl⟩

/-- One sending after another. -/
theorem SendKeeps.trans {s u v : State} (h : SendKeeps s u) (k : SendKeeps u v) : SendKeeps s v :=
  ⟨k.mem.trans h.mem, k.ctl.trans h.ctl, fun p => (k.threads p).trans (h.threads p), fun p => (k.sp p).trans (h.sp p)⟩

/-- The cores, memory and the control network as they are. -/
theorem SendKeeps.of_eq {s u : State} (hm : u.mem = s.mem) (hc : u.ctl = s.ctl) (hk : u.cores = s.cores) : SendKeeps s u :=
  ⟨hm, hc, fun p => by unfold State.core; rw [hk], fun p => by unfold State.core; rw [hk]⟩

/-- A core whose threads and scratchpad stay. -/
theorem SendKeeps.modCore (s : State) (p : Nat) {f : Core → Core} (ht : ∀ c, (f c).threads = c.threads) (hs : ∀ c, (f c).sp = c.sp) :
    SendKeeps s (s.modCore p f) where
  mem := rfl
  ctl := rfl
  threads q := by
    by_cases h : q = p
    · rw [h, State.core_modCore_same, ht]
    · rw [State.core_modCore_other _ _ _ _ h]
  sp q := by
    by_cases h : q = p
    · rw [h, State.core_modCore_same, hs]
    · rw [State.core_modCore_other _ _ _ _ h]

/-- The watershed's count. -/
theorem SendKeeps.countSent (s : State) (n : Nat) (vt : BitVec 32) : SendKeeps s (s.countSent n vt) := by
  unfold State.countSent
  split
  · exact .modCore s n (fun _ => rfl) fun _ => rfl
  · exact .of_eq rfl rfl rfl

/-- An injection. -/
theorem SendKeeps.inject (s : State) (k : Packet) (first : Bool) : SendKeeps s (s.inject k first) := by
  unfold State.inject
  extract_lets k' u
  refine SendKeeps.trans (u := u) ?_ (.of_eq rfl rfl rfl)
  unfold u
  split
  · exact .countSent s _ _
  · exact .refl s

/-- A request. -/
theorem SendKeeps.ask (s : State) (src : Nat) (a : Ask) : SendKeeps s (s.ask src a) := by
  unfold State.ask
  extract_lets nd ns seq nd' parked r w u
  have hu : SendKeeps s u := .of_eq rfl rfl rfl
  split
  · exact hu
  · exact hu.trans (.inject _ _ _)

/-- A flush of a dale's reductions. -/
theorem SendKeeps.flushDale (s : State) (d : Nat) (f : DruEntry → Bool) : SendKeeps s (s.flushDale d f).1 := by
  unfold State.flushDale
  dsimp only
  generalize List.filter _ (List.map _ _) = l
  induction l generalizing s with
  | nil => exact .refl s
  | cons e l ih =>
    rw [List.foldl_cons]
    refine SendKeeps.trans ?_ (ih _)
    refine SendKeeps.trans ?_ (SendKeeps.ask _ _ _)
    exact .of_eq rfl rfl rfl

/-! ## Threads that are held -/

/-- A thread that a halt request has reached neither runs nor sleeps. -/
theorem haltAt_held (t : Thread) (now : Word) : (t.haltAt now).run ≠ .running ∧ ∀ w, (t.haltAt now).run ≠ .sleeping w := by
  cases h : t.run <;> simp [Thread.haltAt, Thread.hold, h]

/-- Abandoning waits leaves the scratchpad. -/
theorem foldl_dropWaits_sp (l : List (Nat × Thread)) (c : Core) : (l.foldl (fun c st => c.dropWaits st.1) c).sp = c.sp := by
  induction l generalizing c with
  | nil => rfl
  | cons x l ih => exact ih _

/-! ## The halt -/

/-- The core after a halt of its threads. -/
def Halted (s u : State) (p : Nat) : Prop :=
  u.ctl = s.ctl ∧ (u.core p).halted = true ∧ AllHeld u p ∧ (u.core p).sp = (s.core p).sp ∧ u.mem = s.mem

/-- A halt of a core none of whose groups is being stopped. -/
theorem haltNow_halts (s : State) (p : Nat) (h : ∀ g ∈ (s.core p).groups, g.lag = none) : Halted s (s.haltNow p) p := by
  have hg : ((s.core p).groups.filter fun g => g.lag.isSome && g.dying.isNone) = [] :=
    List.filter_eq_nil_iff.2 fun g hg => by simp [h g hg]
  unfold State.haltNow
  rw [hg, List.foldl_nil]
  dsimp only
  have hs := SendKeeps.flushDale s (daleOf p) fun _ => true
  generalize (s.flushDale (daleOf p) fun _ => true).1 = v at hs
  refine ⟨hs.ctl, ?_, fun k t ht => ?_, ?_, hs.mem⟩
  · simp [Core.mapThreads]
  · simp only [State.thread?, State.core_modCore_same, Core.mapThreads, tblGet?_tblMap, Option.map_eq_some_iff] at ht
    obtain ⟨t, _, rfl⟩ := ht
    exact haltAt_held t _
  · simp only [State.core_modCore_same, Core.mapThreads, Core.leaveHeads, foldl_dropWaits_sp, hs.sp]

/-- A halt request at a core where it takes no time. -/
theorem haltCore_halts (s : State) (p : Nat) (h : HaltsAtOnce s p) : Halted s (s.haltCore p) p := by
  obtain ⟨hlag, hh, hch, hg⟩ := h
  simp only [State.haltCore, hh, hch, hlag, Bool.false_eq_true, if_false, if_true]
  exact haltNow_halts s p hg

/-- A write of PREQ.HALT. -/
theorem execCtrlWrite_halt (s : State) (k p : Nat) (v : Word) (hk : s.ctl[k]? = some (.write p 0x220 v)) (hv : v.getLsbD 0 = true)
    (h : HaltsAtOnce s p) : ∃ u, exec (.ctrlWrite k) s = .next u ∧ u.ctl = s.ctl.eraseIdx k ∧ (u.core p).halted = true ∧ AllHeld u p ∧
      (u.core p).sp = (s.core p).sp ∧ u.mem = s.mem := by
  have hu := haltCore_halts { s with ctl := s.ctl.eraseIdx k } p h
  refine ⟨_, ?_, hu⟩
  change execCtrlWrite _ _ = _
  simp only [execCtrlWrite, hk, hv, if_true]

/-- A halt request that is on its way arrives. -/
theorem execHaltRequest_halt (s : State) (p : Nat) (hm : CtlMsg.write p 0x220 1#64 ∈ s.ctl) (h : HaltsAtOnce s p) :
    ∃ u, exec (.haltRequest p) s = .next u ∧ (u.core p).halted = true ∧ AllHeld u p ∧ (u.core p).sp = (s.core p).sp ∧ u.mem = s.mem := by
  change ∃ u, execHaltRequest p s = _ ∧ _
  unfold execHaltRequest
  split
  next hn => exact absurd hm fun hm => by simpa using List.find?_eq_none.1 hn _ hm
  next m _ =>
    obtain ⟨_, hu⟩ := haltCore_halts { s with ctl := s.ctl.erase m } p h
    exact ⟨_, rfl, hu⟩
end Sys2Proof.Claims
end

section
/-! PROOFS. INBCTL, L1CTL, WDCTL and TRCCTL of a core (R164, R180, R219, R225). -/
namespace Sys2Proof.Claims
open Sys2Proof.Machine

/-! ## INBCTL -/

/-- The two fields of INBCTL as one word. -/
theorem inbctl_fields (cap res : Nat) (hc : cap < 512) : fieldAt cap 0 ||| fieldAt res 16 = BitVec.ofNat 64 (cap + res * 2 ^ 16) := by
  have h : cap ||| res <<< 16 = cap + res * 2 ^ 16 := by
    rw [Nat.lor_comm, Nat.add_comm, ← Nat.shiftLeft_eq, Nat.shiftLeft_add_eq_or_of_lt (Nat.lt_of_lt_of_le hc (by decide))]
  rw [← h, fieldAt, fieldAt, BitVec.shiftLeft_zero, BitVec.ofNat_or]
  exact congrArg _ (BitVec.eq_of_toNat_eq (by
    rw [BitVec.toNat_shiftLeft, BitVec.toNat_ofNat, BitVec.toNat_ofNat, Nat.shiftLeft_eq, Nat.shiftLeft_eq, Nat.mod_mul_mod]))

/-- A write of INBCTL: taken at an empty inbox, held at another, ignored where a field is bad. -/
theorem writeInbctl_eq (c : Core) (v : Word) : c.writeInbctl v =
    (let cap := (v.extractLsb' 0 9).toNat
     let res := (v.extractLsb' 16 5).toNat
     if 4 ≤ cap ∧ cap ≤ 256 ∧ res ≤ 16 ∧ res < cap then
       (if c.inbox = [] then { c with inbCap := cap, inbRes15 := res, inbHeld := none }
        else { c with inbHeld := some (BitVec.ofNat 64 (cap + res * 2 ^ 16)) })
     else c) := by
  unfold Core.writeInbctl
  extract_lets cap res
  rw [← inbctl_fields cap res (v.extractLsb' 0 9).isLt]
  by_cases h : 4 ≤ cap ∧ cap ≤ 256 ∧ res ≤ 16 ∧ res < cap
  · rw [if_pos h, if_neg (by simp; omega)]
    cases hi : c.inbox <;> simp
  · rw [if_neg h, if_pos (by simp; omega)]

/-- A held write takes effect at an empty inbox. -/
theorem applyInbctl_eq (c : Core) (v : Word) (hv : c.inbHeld = some v) (hi : c.inbox = []) : c.applyInbctl =
    { c with inbCap := (v.extractLsb' 0 9).toNat, inbRes15 := (v.extractLsb' 16 5).toNat, inbHeld := none } := by
  simp only [Core.applyInbctl, hv, hi, List.isEmpty_nil, if_true]

/-! ## L1CTL -/

/-- A fill in flight keeps its requester. -/
theorem noFill_src (p : Nat) (f : Nat → Bool) (r : Req) : (r.noFill p f).src = r.src := by
  unfold Req.noFill
  split <;> first | split <;> rfl | rfl

/-- A load of a core whose L1 is invalidated fills no line. -/
theorem noFill_use (p : Nat) (r : Req) (h : r.src = p) (rd : Reg) (n : Nat) (sg : Bool) (off line : Nat) (lru : Bool) :
    (r.noFill p fun _ => true).use ≠ .load rd n sg off (some line) lru := by
  unfold Req.noFill
  split
  · simp [h]
  · simp [h]
  · simp [h]
  · simp [h]
  · rename_i hn _ _ _
    exact fun e => hn _ _ _ _ _ _ e

/-- The L1 of a core is emptied (R164). -/
theorem execL1ctlInv_empties (s : State) (p : Nat) : ∃ u, exec (.l1ctlInv p) s = .next u ∧ u = { s with cores := u.cores, reqs := u.reqs } ∧
    (∀ q, q ≠ p → u.core q = s.core q) ∧ u.core p = { s.core p with l1 := [] } ∧
    ∀ r ∈ u.reqs, r.src = p → ∀ rd n sg off line lru, r.use ≠ .load rd n sg off (some line) lru := by
  refine ⟨s.l1Clear p, rfl, rfl, fun q hq => ?_, ?_, fun r hr hp => ?_⟩
  · exact State.core_modCore_other s p q (fun c => { c with l1 := c.l1.filter fun _ => !true }) hq
  · refine (State.core_modCore_same s p fun c => { c with l1 := c.l1.filter fun _ => !true }).trans ?_
    rw [List.filter_eq_nil_iff.2 fun _ _ => by simp]
  · obtain ⟨r, _, rfl⟩ := List.mem_map.1 hr
    exact noFill_use p r ((noFill_src _ _ _).symm.trans hp)

/-! ## TRCCTL -/

/-- A word of the trace counts in the head and changes no other field of a core. -/
theorem traceWord_core (s : State) (p q : Nat) (w : Word) : (s.traceWord p w).core q =
    if q = p then { s.core p with trchead := (s.core p).trchead + 1#64 } else s.core q := by
  have hc : ∀ a bs q, (s.fwStore a bs).core q = s.core q := fun a bs q => by unfold State.core; rw [(fwStore_stores s a bs).cores]
  unfold State.traceWord
  by_cases h : q = p
  · rw [if_pos h, h, State.core_modCore_same, hc]
  · rw [if_neg h, State.core_modCore_other _ _ _ _ h, hc]

/-- The words of the trace that a core keeps are written out, unless its trace stalls. -/
theorem traceDrain_core (s : State) (p q : Nat) : (s.traceDrain p).core q =
    if q = p ∧ (s.core p).trcStall = false then
      { s.core p with trchead := (s.core p).trchead + BitVec.ofNat 64 (s.core p).trcBuf.length, trcBuf := [] }
    else s.core q := by
  have hf : ∀ (l : List Word) (s : State) (q : Nat), (l.foldl (fun s w => s.traceWord p w) s).core q =
      if q = p then { s.core p with trchead := (s.core p).trchead + BitVec.ofNat 64 l.length } else s.core q := by
    intro l
    induction l with
    | nil => intro s q; split <;> simp_all
    | cons w l ih =>
      intro s q
      rw [List.foldl_cons, ih]
      by_cases h : q = p
      · simp only [h, if_true, traceWord_core, List.length_cons, BitVec.add_assoc, Nat.add_comm l.length, BitVec.ofNat_add]
      · simp only [h, if_false, traceWord_core]
  unfold State.traceDrain
  cases hs : (s.core p).trcStall
  · by_cases h : q = p
    · subst h
      simp [hf]
    · simp [h, State.core_modCore_other _ _ _ _ h, hf]
  · simp

/-- A write of TRCCTL leaves the other cores. -/
theorem writeTrcctl_core_other (s : State) (p q : Nat) (v : Word) (h : q ≠ p) : (s.writeTrcctl p v).core q = s.core q := by
  unfold State.writeTrcctl
  extract_lets v1 v2
  split
  · rw [traceDrain_core, if_neg fun e => h e.1, State.core_modCore_other _ _ _ _ h]
  · exact State.core_modCore_other _ _ _ _ h

/-- A write of TRCCTL: EN is kept where TRACE is open, and starts the ring with TSFULL. -/
theorem execTrcctlWrite_starts (s : State) (p : Nat) (v : Word) : ∃ u, exec (.trcctlWrite p v) s = .next u ∧ (∀ q, q ≠ p → u.core q = s.core q) ∧
    (s.feature 2 = false → u.core p = { s.core p with trcctl := v &&& 0x1E#64 }) ∧
    (s.feature 2 = true → v.getLsbD 0 = false → u.core p = { s.core p with trcctl := v &&& 0x1F#64 }) ∧
    (s.feature 2 = true → v.getLsbD 0 = true →
      u.core p = { s.core p with trcctl := v &&& 0x1F#64, trchead := (if (s.core p).trcStall then 0#64 else 2#64), trcPc := 0#64, trcLast := s.time,
                                 trcGap := 0, trcBuf := (if (s.core p).trcStall then [0xF#64, s.time] else []) }) := by
  refine ⟨s.writeTrcctl p v, rfl, fun q hq => writeTrcctl_core_other s p q v hq, fun hf => ?_, fun hf hv => ?_, fun hf hv => ?_⟩
  · have hm : v &&& 0x1F#64 &&& 0xFFFFFFFFFFFFFFFE#64 = v &&& 0x1E#64 := by rw [BitVec.and_assoc]; rfl
    simp [State.writeTrcctl, hf, hm]
  · simp [State.writeTrcctl, hf, hv, -BitVec.getLsbD_eq_getElem]
  · have hen : (v &&& 0x1F#64).getLsbD 0 = true := by simp [hv, -BitVec.getLsbD_eq_getElem]
    simp only [State.writeTrcctl, hf, hen, if_true, traceDrain_core, State.core_modCore_same]
    cases hst : (s.core p).trcStall <;> simp
end Sys2Proof.Claims
end

section
/-! PROOFS. Device control, queues, XINV and the peer windows (R6, R68, R69, R71, R81, R134). -/
namespace Sys2Proof.Claims
open Sys2Proof.Machine

/-! ## A register of device control -/

/-- The bytes of a word give the word again. -/
theorem natOfBytes_bytesOf (v : Word) (n : Nat) : natOfBytes (bytesOf v n) = v.toNat % 256 ^ n := by
  induction n generalizing v with
  | zero => simp [bytesOf, natOfBytes, Nat.mod_one]
  | succ n ih =>
    have hp : 256 ^ (n + 1) = 2 ^ 8 * 256 ^ n := Nat.pow_succ'
    rw [bytesOf, natOfBytes, ih, BitVec.toNat_ushiftRight, BitVec.extractLsb'_toNat, Nat.shiftRight_zero, Nat.shiftRight_eq_div_pow, hp, Nat.mod_mul, show 2 ^ 8 = 256 from rfl]

/-- The bytes of a word are the word. -/
theorem wordOf_bytesOf (v : Word) : wordOf (bytesOf v 8) = v := by
  rw [wordOf, natOfBytes_bytesOf, show 256 ^ 8 = 2 ^ 64 from rfl, Nat.mod_eq_of_lt v.isLt, BitVec.ofNat_toNat, BitVec.setWidth_eq]

/-- A store of the eight bytes of an aligned word. -/
theorem devStoreWord_full (s : State) (o : Nat) (bs : List Byte) (h : o % 8 = 0) (hb : bs.length = 8) :
    s.devStoreWord o bs = s.devWrite o (wordOf bs) (wordOf bs) := by
  have hm (old new : Word) : old &&& ~~~BitVec.ofNat 64 ((2 ^ (8 * 8) - 1) * 2 ^ (8 * 0)) ||| new = new := by
    rw [show ~~~BitVec.ofNat 64 ((2 ^ (8 * 8) - 1) * 2 ^ (8 * 0)) = 0#64 by decide, BitVec.and_zero, BitVec.zero_or]
  unfold State.devStoreWord
  rw [h, hb, Nat.div_mul_cancel (Nat.dvd_of_mod_eq_zero h)]
  dsimp only
  rw [hm, Nat.mul_zero, Nat.pow_zero, Nat.mul_one, wordOf]

/-- A store of eight bytes at an aligned word of device control writes the word. -/
theorem devStore_word (s : State) (o : Nat) (bs : List Byte) (h : o % 8 = 0) (hb : bs.length = 8) :
    s.devStore o bs 2 = s.devWrite o (wordOf bs) (wordOf bs) := by
  have he : ¬ bs.isEmpty = true := fun e => by rw [List.isEmpty_iff.1 e] at hb; cases hb
  rw [State.devStore, if_neg he, h, hb]
  dsimp only
  rw [Nat.sub_zero, Nat.min_self, List.take_of_length_le hb.le, List.drop_of_length_le hb.le, devStoreWord_full s o bs h hb, State.devStore]
  rfl

/-- The register of the checking control takes its fields (R134). -/
theorem execRegisterWrite_checking (s : State) (ia : Nat) (v : Word) (h : placeOf ia = .dev 0x50100) :
    exec (.registerWrite ia v) s = .next { s with fw := { s.fw with
      chkEn := v.getLsbD 0, chkInc := (v.extractLsb' 8 8).toNat, chkQth := (v.extractLsb' 16 8).toNat } } := by
  change execRegisterWrite _ _ _ = _
  simp only [execRegisterWrite, h]
  rw [devStore_word s (0x50100 / 8 * 8) (bytesOf v 8) rfl (bytesOf_length v 8), wordOf_bytesOf]
  rfl

/-! ## QCTL -/

/-- A store by firmware leaves the queues. -/
theorem fwStore_queue (s : State) (a : Word) (bs : List Byte) (q : Nat) : (s.fwStore a bs).queue q = s.queue q := by
  obtain ⟨⟨_, _, _, _, _, _, _, _, _, _, _, _, e⟩, _, _⟩ := fwStore_stores s a bs
  rw [e]; rfl

/-- A write of a status line leaves the queues. -/
@[simp] theorem writeStatus_queue (s : State) (q j : Nat) : (s.writeStatus q).queue j = s.queue j := by
  unfold State.writeStatus
  dsimp only
  split
  · rfl
  · exact fwStore_queue _ _ _ _

/-- A queue that was put is read back. -/
@[simp] theorem queue_setQueue_same (s : State) (q : Nat) (v : Queue) : (s.setQueue q v).queue q = v := tblGetD_tblSet_same _ _ _ _
/-- Another queue is not affected. -/
theorem queue_setQueue_other (s : State) (q j : Nat) (v : Queue) (h : j ≠ q) : (s.setQueue q v).queue j = s.queue j :=
  tblGetD_tblSet_other _ _ _ _ _ h

/-- A queue that was changed is read back. -/
@[simp] theorem queue_modQueue_same (s : State) (q : Nat) (f : Queue → Queue) : (s.modQueue q f).queue q = f (s.queue q) := queue_setQueue_same _ _ _
/-- Another queue is not affected by a change. -/
theorem queue_modQueue_other (s : State) (q j : Nat) (f : Queue → Queue) (h : j ≠ q) : (s.modQueue q f).queue j = s.queue j :=
  queue_setQueue_other _ _ _ _ h

/-- Whether a definition is valid does not depend on the queues. -/
@[simp] theorem queueValid_modQueue (s : State) (q : Nat) (f : Queue → Queue) (v : Queue) : (s.modQueue q f).queueValid v = s.queueValid v := rfl
/-- A queue whose service begins: in service where its definition is valid, else halted with ERR 3. -/
theorem startQueue_queue_same (s : State) (q : Nat) : (s.startQueue q false).queue q =
    if s.queueValid (s.queue q) then { s.queue q with en := true, stopping := false, state := 1, err := 0 }
    else { s.queue q with en := true, stopping := false, state := 2, err := 3 } := by
  have hv : s.queueValid { s.queue q with en := true, stopping := false } = s.queueValid (s.queue q) := rfl
  cases h : s.queueValid (s.queue q) <;> simp [State.startQueue, State.haltQueue, hv, h]

/-- The service of a queue begins without another. -/
theorem startQueue_queue_other (s : State) (q j : Nat) (h : j ≠ q) : (s.startQueue q false).queue j = s.queue j := by
  unfold State.startQueue State.haltQueue
  dsimp only
  split
  · simp [queue_modQueue_other _ _ _ _ h]
  · simp [queue_modQueue_other _ _ _ _ h]

/-- A queue whose service ends, at once where none of its commands has begun. -/
theorem stopQueue_queue_same (s : State) (q : Nat) : (s.stopQueue q).queue q =
    if (s.queue q).begun = [] then { s.queue q with en := false, stopping := false, state := 0 }
    else { s.queue q with en := false, stopping := true } := by
  by_cases h : (s.queue q).begun = [] <;> simp [State.stopQueue, h]

/-- The service of a queue ends without another. -/
theorem stopQueue_queue_other (s : State) (q j : Nat) (h : j ≠ q) : (s.stopQueue q).queue j = s.queue j := by
  unfold State.stopQueue
  dsimp only
  split
  · simp [queue_setQueue_other _ _ _ _ h]
  · exact queue_setQueue_other _ _ _ _ h

/-- A write of QCTL (R81): EN set begins the queue's service, EN cleared ends it. -/
theorem writeQctl_eq (s : State) (q : Nat) (v : Word) (h1 : 1 ≤ q) (h2 : q < 64) : s.writeQctl q v =
    (let u := s.modQueue q fun k => { k with en := v.getLsbD 0, prio := (v.extractLsb' 1 2).toNat }
     if v.getLsbD 0 = true ∧ (s.queue q).en = false then u.startQueue q false
     else if v.getLsbD 0 = false ∧ (s.queue q).en = true then u.stopQueue q else u) := by
  have hq : ¬ ((decide (q = 0) || decide (64 ≤ q)) = true) := by simp; omega
  unfold State.writeQctl
  rw [if_neg hq]
  simp only [Bool.and_eq_true, Bool.not_eq_true']

/-- QCTL takes EN and PRIO, and its service begins or ends (R81). -/
theorem execQctlWrite_takes (s : State) (q : Nat) (v : Word) (h1 : 1 ≤ q) (h2 : q < 64) : ∃ u, exec (.qctlWrite q v) s = .next u ∧
    (u.queue q).en = v.getLsbD 0 ∧
    (u.queue q).prio = (v.extractLsb' 1 2).toNat ∧ (∀ j, j ≠ q → u.queue j = s.queue j) ∧ (u.queue q).rp = (s.queue q).rp ∧ (u.queue q).base = (s.queue q).base ∧
    (v.getLsbD 0 = true → (s.queue q).en = false →
      (s.queueValid (s.queue q) = true → (u.queue q).state = 1 ∧ (u.queue q).err = 0) ∧
      (s.queueValid (s.queue q) = false → (u.queue q).state = 2 ∧ (u.queue q).err = 3)) ∧
    (v.getLsbD 0 = false → (s.queue q).en = true → (s.queue q).begun = [] → (u.queue q).state = 0) := by
  refine ⟨s.writeQctl q v, rfl, ?_⟩
  rw [writeQctl_eq s q v h1 h2]
  have hw : s.queueValid { s.queue q with en := v.getLsbD 0, prio := (v.extractLsb' 1 2).toNat } = s.queueValid (s.queue q) := rfl
  extract_lets u
  have hu : u.queue q = { s.queue q with en := v.getLsbD 0, prio := (v.extractLsb' 1 2).toNat } := queue_modQueue_same _ _ _
  have ho : ∀ j, j ≠ q → u.queue j = s.queue j := fun j => queue_modQueue_other _ _ _ _
  have hv : u.queueValid (u.queue q) = s.queueValid (s.queue q) := by rw [hu]; exact hw
  split
  next h =>
    obtain ⟨hb, he⟩ := h
    have hs := startQueue_queue_same u q
    rw [hv, hu] at hs
    refine ⟨?_, ?_, fun j hj => (startQueue_queue_other u q j hj).trans (ho j hj), ?_⟩ <;> rw [hs]
    · split <;> exact hb.symm
    · split <;> rfl
    · exact ⟨by split <;> rfl, by split <;> rfl, fun _ _ => ⟨fun hq => by rw [if_pos hq]; exact ⟨rfl, rfl⟩,
        fun hq => by rw [if_neg (by simp [hq])]; exact ⟨rfl, rfl⟩⟩, fun hf => absurd (hb.symm.trans hf) (by decide)⟩
  next hn =>
    split
    next h =>
      obtain ⟨hb, he⟩ := h
      have hs := stopQueue_queue_same u q
      rw [hu] at hs
      refine ⟨?_, ?_, fun j hj => (stopQueue_queue_other u q j hj).trans (ho j hj), ?_⟩ <;> rw [hs]
      · split <;> exact hb.symm
      · split <;> rfl
      · exact ⟨by split <;> rfl, by split <;> rfl, fun ht => absurd (hb.symm.trans ht) (by decide), fun _ _ hg => by rw [if_pos hg]⟩
    next hm =>
      rw [hu]
      exact ⟨rfl, rfl, ho, rfl, rfl, fun hb he => absurd ⟨hb, he⟩ hn, fun hb he => absurd ⟨hb, he⟩ hm⟩

/-! ## XINV and the peer windows -/

/-- XINV takes a range, and does not read as done. -/
theorem execXinvWrite_drops (s : State) (v : Word) : ∃ u, exec (.xinvWrite v) s = .next u ∧ u = { s with fw := u.fw } ∧
    (u.devRead 0x30008).getLsbD 63 = false ∧
    u.fw = { s.fw with xinv := s.fw.xinv ++ [((v.extractLsb' 0 47).toNat / 65536, (v.extractLsb' 47 16).toNat + 1)] } := by
  refine ⟨s.writeXinv v, rfl, rfl, ?_, rfl⟩
  have hr : (s.writeXinv v).devRead 0x30008 = bitAt (s.writeXinv v).fw.xinv.isEmpty 63 := rfl
  rw [hr]
  simp [State.writeXinv, State.modFw, bitAt]

/-- The ranges of XINV are dropped from every slice, and XINV reads as done. -/
theorem execXinvDropComplete_done (s : State) : ∃ u, exec .xinvDropComplete s = .next u ∧
    u = { s with tlb := u.tlb, fw := { s.fw with xinv := [] } } ∧ u.devRead 0x30008 = 1#64 <<< 63 ∧
    ∀ e, e ∈ u.tlb ↔ e ∈ s.tlb ∧ ∀ x ∈ s.fw.xinv, e.page < x.1 ∨ x.1 + x.2 ≤ e.page := by
  refine ⟨_, rfl, rfl, rfl, fun e => ?_⟩
  simp only [List.mem_filter, Bool.not_eq_true', List.any_eq_false, Bool.and_eq_true, decide_eq_true_eq, not_and_or, not_le, not_lt]

/-- A peer window takes its entry, and the peer it names is live. -/
theorem execPeerWindowWrite_takes (s : State) (i : Nat) (v : BitVec 128) (hi : i < 64) :
    let w := v &&& 0x0003FFFFFFFF000000FFFFFFFFFF0000#128
    ∃ u, exec (.peerWindowWrite i v) s = .next u ∧ u = { s with fw := { s.fw with peerWin := u.fw.peerWin, peers := u.fw.peers } } ∧
      tblGet? u.fw.peerWin i = some w ∧ (∀ j, j ≠ i → tblGet? u.fw.peerWin j = tblGet? s.fw.peerWin j) ∧
      ((tblGet? u.fw.peers (w.extractLsb' 48 8).toNat).all (·.1)) = true := by
  intro w
  refine ⟨s.writePeerWin i v, ?_, rfl, tblGet?_tblSet_same _ _ _, fun j hj => tblGet?_tblSet_other _ _ _ _ hj, ?_⟩
  · change execPeerWindowWrite _ _ _ = _
    rw [execPeerWindowWrite, if_pos hi]
  · change (tblGet? (match tblGet? s.fw.peers (winDev w) with
      | some (_, r) => tblSet s.fw.peers (winDev w) (true, r)
      | none => s.fw.peers) (winDev w)).all (·.1) = true
    cases h : tblGet? s.fw.peers (winDev w) with
    | none => simp [h]
    | some e => simp
end Sys2Proof.Claims

namespace Sys2Proof
open Sys2Proof.Machine Sys2Proof.Claims

/-- Settles O45, clause by clause: each control register is a field of one core that a write sets and a read gives back. -/
theorem controlRegistersKeepWhatIsWritten : Obligations.ControlRegistersKeepWhatIsWritten :=
  ⟨ctlWrite_reads_back,
   fun s k p off v _ h => ⟨execCtrlWrite_ctlWrite s k p off v _ h, fun ia => execRegisterWrite_ctlWrite s p off ia v⟩,
   execCtrlWrite_halt, execHaltRequest_halt,
   fun s k p off v => ⟨execCtrlRead_data s k p off, execCtrlData_taken s k p off v⟩,
   execRegisterWrite_checking,
   fun s p v => exists_modCore s p (fun c => c.writeInbctl v) (writeInbctl_eq _ v),
   fun s p v hv hi => exists_modCore s p Core.applyInbctl (applyInbctl_eq _ v hv hi),
   execL1ctlInv_empties,
   fun s p v => exists_modCore s p (fun c => { c with wdLimit := v.extractLsb' 0 32, wdTime := s.time }) rfl,
   execTrcctlWrite_starts, execQctlWrite_takes, execXinvWrite_drops, execXinvDropComplete_done, execPeerWindowWrite_takes⟩
end Sys2Proof
end

section
/-! PROOFS. The state that the start of a cold reset leaves (R20, R36, R109, R146, R159, R177). -/
namespace Sys2Proof.Claims
open Sys2Proof.Machine

/-- Every core stands as reset leaves it: none is listed. -/
theorem reset_core (p : Nat) : State.reset.core p = Core.reset := rfl

/-- Every node of the fabric stands as reset leaves it. -/
theorem reset_node (n : Nat) : State.reset.node n = Node.reset := rfl

/-- The registers of a core after reset, by the tables of its chapters. -/
theorem coreReset_registers : Core.reset.threads = [] ∧ Core.reset.groups = [] ∧ (∀ a, memGet Core.reset.sp a = 0#8) ∧ Core.reset.full = [] ∧
    Core.reset.poisoned = [] ∧ Core.reset.lid = 0 ∧ Core.reset.vtime = 0#32 ∧ Core.reset.gvt = 0#32 ∧ Core.reset.exEn = false ∧
    Core.reset.dbgctl = 0#64 ∧ Core.reset.wdLimit = 0#32 ∧ Core.reset.inbCap = 0x40 ∧ Core.reset.inbRes15 = 4 ∧ Core.reset.auto = true ∧
    Core.reset.steal = true ∧ Core.reset.daleOnly = false ∧ Core.reset.fenced = false :=
  ⟨rfl, rfl, fun _ => rfl, rfl, rfl, rfl, rfl, rfl, rfl, rfl, rfl, rfl, rfl, rfl, rfl, rfl, rfl⟩

/-- Every counter of the fabric is zero, and no reply is retained. -/
theorem nodeReset_counters (k : Nat) : tblGetD Node.reset.seqS k 0#16 = 0#16 ∧ tblGetD Node.reset.seqN k 0#16 = 0#16 ∧ Node.reset.replies = [] :=
  ⟨rfl, rfl, rfl⟩
end Sys2Proof.Claims

namespace Sys2Proof
open Sys2Proof.Machine Sys2Proof.Claims

/-- Settles O59: no core and no node is listed, so each reads as its reset value, and firmware's registers stand at theirs. -/
theorem resetLeavesItsState : Obligations.ResetLeavesItsState := by
  refine ⟨MemoriesWf.reset, rfl, rfl, rfl, rfl, rfl, rfl, rfl, rfl, fun _ => rfl, fun p => ?_, fun n k => ?_, rfl, rfl, rfl, rfl, rfl, rfl⟩
  · rw [reset_core]; exact coreReset_registers
  · rw [reset_node]; exact nodeReset_counters k
end Sys2Proof
end

section
/-! PROOFS. Tables in their canonical form: what erasing, filtering and mapping their entries leaves to read. -/
namespace Sys2Proof.Claims
open Sys2Proof.Machine

/-- The keys of a table in its canonical form rise from each entry to every later one. -/
theorem tblWf_iff_pairwise {α : Type} (t : Tbl α) : tblWf t = true ↔ t.Pairwise fun a b => a.1 < b.1 := by
  have chain : tblWf t = true ↔ t.IsChain fun a b => a.1 < b.1 := by
    induction t with
    | nil => simp [tblWf]
    | cons a t ih =>
      cases t with
      | nil => simp [tblWf]
      | cons b t => simp [tblWf, ih]
  have tr : IsTrans (Nat × α) fun a b => a.1 < b.1 := ⟨fun _ _ _ => Nat.lt_trans⟩
  rw [chain, List.isChain_iff_pairwise]

/-- A key below every listed one has no entry. -/
theorem tblGet?_below {α : Type} {t : Tbl α} {i : Nat} (h : ∀ e ∈ t, i < e.1) : tblGet? t i = none := by
  induction t with
  | nil => rfl
  | cons a t ih =>
    have ha := h a List.mem_cons_self
    rw [tblGet?, if_neg (by omega), ih fun e he => h e (List.mem_cons_of_mem _ he)]

/-- Putting an entry keeps the canonical form. -/
theorem tblWf_tblSet {α : Type} {t : Tbl α} (h : tblWf t = true) (i : Nat) (v : α) : tblWf (tblSet t i v) = true := by
  rw [tblWf_iff_pairwise] at h ⊢
  induction t with
  | nil => simp [tblSet]
  | cons a t ih =>
    obtain ⟨hlt, ht⟩ := List.pairwise_cons.1 h
    rw [tblSet]
    split
    next hi => exact List.pairwise_cons.2 ⟨fun e he => by
      rcases List.mem_cons.1 he with rfl | he
      · exact hi
      · exact Nat.lt_trans hi (hlt e he), h⟩
    next hi =>
      split
      next e => exact List.pairwise_cons.2 ⟨fun x hx => e ▸ hlt x hx, ht⟩
      next hne => exact List.pairwise_cons.2 ⟨fun e he => by
        rcases mem_tblSet he with rfl | he
        · simp only; omega
        · exact hlt e he, ih ht⟩

/-- An erased key has no entry. -/
theorem tblGet?_tblErase_same {α : Type} {t : Tbl α} (h : tblWf t = true) (i : Nat) : tblGet? (tblErase t i) i = none := by
  rw [tblWf_iff_pairwise] at h
  induction t with
  | nil => rfl
  | cons a t ih =>
    obtain ⟨hlt, ht⟩ := List.pairwise_cons.1 h
    rw [tblErase]
    split
    next e => exact tblGet?_below fun x hx => e ▸ hlt x hx
    next hne => rw [tblGet?, if_neg hne, ih ht]

/-- Reading a table of which some entries are kept. -/
theorem tblGet?_filter {α : Type} {t : Tbl α} (h : tblWf t = true) (p : Nat × α → Bool) (i : Nat) :
    tblGet? (t.filter p) i = (tblGet? t i).filter fun v => p (i, v) := by
  rw [tblWf_iff_pairwise] at h
  induction t with
  | nil => rfl
  | cons a t ih =>
    obtain ⟨k, w⟩ := a
    obtain ⟨hlt, ht⟩ := List.pairwise_cons.1 h
    rw [List.filter_cons, tblGet?]
    by_cases e : i = k
    · subst e
      have hn : tblGet? (t.filter p) i = none := tblGet?_below fun e he => hlt e (List.mem_filter.1 he).1
      cases hp : p (i, w) <;> simp [tblGet?, hp, hn, Option.filter]
    · rw [if_neg e, ← ih ht]
      split
      · rw [tblGet?, if_neg e]
      · rfl

/-- Reading a table whose entries are changed in place. -/
theorem tblGet?_map {α β : Type} (g : Nat × α → β) (t : Tbl α) (i : Nat) :
    tblGet? (t.map fun e => (e.1, g e)) i = (tblGet? t i).map fun v => g (i, v) := by
  induction t with
  | nil => rfl
  | cons a t ih =>
    rw [List.map_cons, tblGet?, tblGet?]
    split
    next e => subst e; rfl
    next => exact ih

/-- Reading a table made from some of the numbers of a list. -/
theorem tblGet?_filterMap_keys {α : Type} (p : Nat → Bool) (g : Nat → α) (l : List Nat) (i : Nat) :
    tblGet? (l.filterMap fun n => if p n then some (n, g n) else none) i = if i ∈ l ∧ p i = true then some (g i) else none := by
  induction l with
  | nil => simp [tblGet?]
  | cons n l ih =>
    rw [List.filterMap_cons]
    cases hp : p n
    · have : i = n → p i = false := fun e => e ▸ hp
      by_cases e : i = n <;> simp_all
    · by_cases e : i = n <;> simp_all [tblGet?]
end Sys2Proof.Claims
end

section
/-! PROOFS. What work in the background leaves of time and of firmware's state: stores, queues, traces and records. -/
namespace Sys2Proof.Claims
open Sys2Proof.Machine

/-- Time and firmware's state stay, but for its frames, its pages and its queues. -/
structure FirmKeeps (s u : State) : Prop where
  time : u.time = s.time
  fw : ∃ nf ff rs bk xi qs, u.fw =
    { s.fw with nextFrame := nf, freeFrames := ff, resident := rs, backing := bk, xinv := xi, queues := qs }

/-- Time and firmware's state as they are. -/
theorem FirmKeeps.of_eq {s u : State} (ht : u.time = s.time) (hf : u.fw = s.fw) : FirmKeeps s u := ⟨ht, _, _, _, _, _, _, hf⟩

theorem FirmKeeps.refl (s : State) : FirmKeeps s s := .of_eq rfl rfl

theorem FirmKeeps.trans {s u v : State} (h : FirmKeeps s u) (k : FirmKeeps u v) : FirmKeeps s v := by
  obtain ⟨ht, _, _, _, _, _, _, hf⟩ := h
  obtain ⟨kt, _, _, _, _, _, _, kf⟩ := k
  exact ⟨kt.trans ht, _, _, _, _, _, _, kf.trans (by rw [hf])⟩

/-- One such piece of work for each entry of a list. -/
theorem FirmKeeps.foldl {α : Type} {f : State → α → State} (h : ∀ s a, FirmKeeps s (f s a)) (l : List α) (s : State) : FirmKeeps s (l.foldl f s) := by
  induction l generalizing s with
  | nil => exact .refl s
  | cons a l ih => exact (h s a).trans (ih _)

/-- A field of firmware's state that rests on none of those that may change. -/
theorem FirmKeeps.field {s u : State} (h : FirmKeeps s u) {α : Type} (g : Firm → α)
    (hg : ∀ w nf ff rs bk xi qs,
      g { w with nextFrame := nf, freeFrames := ff, resident := rs, backing := bk, xinv := xi, queues := qs } = g w := by intros; rfl) :
    g u.fw = g s.fw := by
  obtain ⟨_, _, _, _, _, _, _, hf⟩ := h
  rw [hf, hg]

/-- What firmware's stores change. -/
theorem FirmKeeps.of_stores {s u : State} (h : Stores s u) : FirmKeeps s u := by
  obtain ⟨⟨_, _, _, _, _, _, _, _, _, _, _, _, rfl⟩, _, _⟩ := h
  exact ⟨rfl, _, _, _, _, _, _, rfl⟩

/-! ## Queues -/

/-- Work on the queues: the cores and the launches stay too. -/
structure QueueWork (s u : State) : Prop extends FirmKeeps s u where
  cores : u.cores = s.cores
  launches : u.launches = s.launches

theorem QueueWork.refl (s : State) : QueueWork s s := ⟨.refl s, rfl, rfl⟩

theorem QueueWork.trans {s u v : State} (h : QueueWork s u) (k : QueueWork u v) : QueueWork s v :=
  ⟨h.toFirmKeeps.trans k.toFirmKeeps, k.cores.trans h.cores, k.launches.trans h.launches⟩

theorem QueueWork.foldl {α : Type} {f : State → α → State} (h : ∀ s a, QueueWork s (f s a)) (l : List α) (s : State) : QueueWork s (l.foldl f s) := by
  induction l generalizing s with
  | nil => exact .refl s
  | cons a l ih => exact (h s a).trans (ih _)

theorem QueueWork.of_stores {s u : State} (h : Stores s u) : QueueWork s u :=
  ⟨.of_stores h, h.cores, by obtain ⟨⟨_, _, _, _, _, _, _, _, _, _, _, _, rfl⟩, _, _⟩ := h; rfl⟩

theorem QueueWork.fwStore (s : State) (a : Word) (bs : List Byte) : QueueWork s (s.fwStore a bs) := .of_stores (fwStore_stores s a bs)

theorem QueueWork.setQueue (s : State) (q : Nat) (v : Queue) : QueueWork s (s.setQueue q v) := ⟨⟨rfl, _, _, _, _, _, _, rfl⟩, rfl, rfl⟩

theorem QueueWork.modQueue (s : State) (q : Nat) (f : Queue → Queue) : QueueWork s (s.modQueue q f) := .setQueue _ _ _

theorem QueueWork.writeStatus (s : State) (q : Nat) : QueueWork s (s.writeStatus q) := by
  unfold State.writeStatus
  dsimp only
  split
  · exact .refl s
  · exact .fwStore _ _ _

theorem QueueWork.postCpl (s : State) (q : Nat) (e : List Byte) : QueueWork s (s.postCpl q e) := by
  unfold State.postCpl
  dsimp only
  split
  · exact ((QueueWork.fwStore _ _ _).trans (.setQueue _ _ _)).trans (.writeStatus _ _)
  · exact .setQueue _ _ _

/-- The completion of a command. -/
theorem QueueWork.finishCmd (s : State) (c : CmdRef) (k i0 : Nat) (i1 : Word) : QueueWork s (s.finishCmd c k i0 i1) := by
  unfold State.finishCmd
  dsimp only
  split
  · exact .refl s
  · split
    · exact .setQueue _ _ _
    · exact (QueueWork.setQueue _ _ _).trans (.postCpl _ _ _)

/-- The halt of a queue. -/
theorem QueueWork.haltQueue (s : State) (q err : Nat) : QueueWork s (s.haltQueue q err) := by
  unfold State.haltQueue
  extract_lets u
  have hu : QueueWork s u := .modQueue s q _
  split
  · exact hu.trans (.writeStatus _ _)
  · split
    · exact hu.trans (.postCpl _ _ _)
    · exact hu.trans (.writeStatus _ _)

/-! ## Traces and records -/

theorem FirmKeeps.modCore (s : State) (p : Nat) (f : Core → Core) : FirmKeeps s (s.modCore p f) := .of_eq rfl rfl

/-- Memory takes a word of a core's trace. -/
theorem FirmKeeps.traceWord (s : State) (p : Nat) (w : Word) : FirmKeeps s (s.traceWord p w) := by
  unfold State.traceWord
  extract_lets c words a
  exact (QueueWork.fwStore s _ _).toFirmKeeps.trans (.modCore _ _ _)

/-- Memory takes what a core's trace buffer holds. -/
theorem FirmKeeps.traceDrain (s : State) (p : Nat) : FirmKeeps s (s.traceDrain p) := by
  unfold State.traceDrain
  split
  · exact .refl s
  · exact (FirmKeeps.foldl (fun s w => .traceWord s p w) _ s).trans (.modCore _ _ _)

/-- A core's TSFULL record. -/
theorem FirmKeeps.traceFull (s : State) (p : Nat) : FirmKeeps s (s.traceFull p) := by
  unfold State.traceFull State.tracePut
  dsimp only
  split
  · split
    · exact .modCore _ _ _
    · exact (FirmKeeps.modCore _ _ _).trans (.traceDrain _ _)
  · exact .refl s

/-- An injection. -/
theorem FirmKeeps.inject (s : State) (k : Packet) (first : Bool) : FirmKeeps s (s.inject k first) := by
  unfold State.inject State.countSent
  dsimp only
  split
  · split <;> exact .of_eq rfl rfl
  · exact .of_eq rfl rfl

/-- A request. -/
theorem FirmKeeps.ask (s : State) (src : Nat) (a : Ask) : FirmKeeps s (s.ask src a) := by
  unfold State.ask
  extract_lets nd ns seq nd' parked r w u
  have hu : FirmKeeps s u := .of_eq rfl rfl
  split
  · exact hu
  · exact hu.trans (.inject _ _ _)

/-- A record to a core. -/
theorem FirmKeeps.sendRecord (s : State) (src dst : Nat) (vt : BitVec 32) (r : BitVec 128) : FirmKeeps s (s.sendRecord src dst vt r) := by
  unfold State.sendRecord
  split
  · unfold State.ownRecord
    dsimp only
    split <;> exact .of_eq rfl rfl
  · exact .ask _ _ _

/-! ## Commands of the host -/

/-- The head command as begun. -/
theorem beginCommand_eq_begun (s : State) (q i : Nat) (e : List Byte) : s.begin_ q i e = (headRef q i e, begun s q i e) := by
  unfold State.begin_ begun
  simp only [queue_modQueue_same]
  rfl

/-- A head command of an OPC and SUB runs its body in the state in which it has begun. -/
theorem command_heads {q opc i : Nat} {f : Nat → Bool} {s : State} {e : List Byte} (h : Heads s q i e opc) (hf : f (entSub e) = true)
    (k : CmdRef → List Byte → State → State) : command q opc f s k = .next (k (headRef q i e) e (begun s q i e)) := by
  obtain ⟨hb, ho, hx⟩ := h
  rw [command_pass hb ho hf hx, beginCommand_eq_begun]
end Sys2Proof.Claims
end

section
/-! PROOFS. What firmware reads rests on its page-table base alone among its own fields (R57, R58). -/
namespace Sys2Proof.Claims
open Sys2Proof.Machine

section
variable {s : State} {w : Firm} (hw : w.ptBase = s.fw.ptBase)
include hw

/-- A page walk. -/
theorem walk_setFw (off : Nat) : ({ s with fw := w } : State).walk off = s.walk off := by
  unfold State.walk State.pte
  rw [hw]

/-- A translation. -/
theorem xlate_setFw (off : Nat) : ({ s with fw := w } : State).xlate off = s.xlate off := by
  simp only [State.xlate, State.cached?, walk_setFw hw]

/-- The blocks of memory space that lie in one memory. -/
theorem physBlocks_setFw (host : Bool) (l : List Nat) : ({ s with fw := w } : State).physBlocks host l = s.physBlocks host l := by
  simp only [State.physBlocks, State.blockAt, xlate_setFw hw]

/-- Bytes put into memory space. -/
theorem putAt_setFw (bs : List Byte) (x t : Option (Bool × Nat)) (off : Nat) :
    ({ s with fw := w } : State).putAt x t off bs = { s.putAt x t off bs with fw := w } := by
  induction bs generalizing s x t off with
  | nil => rfl
  | cons b bs ih =>
    simp only [State.putAt, walk_setFw hw]
    rw [show ∀ l, ({ s with fw := w } : State).cached? l = s.cached? l from fun _ => rfl]
    generalize (if off % 128 = 0 then _ else t) = t'
    rcases t' with _ | ⟨_ | _, a⟩
    · exact ih hw _ _ _
    · exact ih (s := { s with mem := memSet s.mem (a + off % 65536) b }) hw _ _ _
    · exact ih (s := { s with host := memSet s.host (a + off % 65536) b }) hw _ _ _

/-- A store to memory space. -/
theorem memStore_setFw (off : Nat) (bs : List Byte) (z : Bool) :
    ({ s with fw := w } : State).memStore off bs z = { s.memStore off bs z with fw := w } := by
  simp only [State.memStore, walk_setFw hw, xlate_setFw hw, physBlocks_setFw hw, putAt_setFw hw]

/-- Bytes of memory space. -/
theorem readAt_setFw (x t : Option (Bool × Nat)) (off n : Nat) : ({ s with fw := w } : State).readAt x t off n = s.readAt x t off n := by
  induction n generalizing x t off with
  | zero => rfl
  | succ n ih =>
    simp only [State.readAt, walk_setFw hw, ih]
    rfl
end

/-- A store to memory space keeps the base of the page table. -/
theorem memStore_ptBase (s : State) (off : Nat) (bs : List Byte) (z : Bool) : (s.memStore off bs z).fw.ptBase = s.fw.ptBase :=
  (FirmKeeps.of_stores (memStore_stores s off bs z)).field (·.ptBase)

/-- A line recalled from the host. -/
theorem hostRecall_setFw {s : State} {w : Firm} (hw : w.ptBase = s.fw.ptBase) (line : Nat) :
    ({ s with fw := w } : State).hostRecall line = { s.hostRecall line with fw := w } := by
  unfold State.hostRecall
  dsimp only
  split
  · rfl
  · rw [memStore_setFw hw, memStore_setFw (hw.trans (memStore_ptBase _ _ _ _).symm)]

/-- The lines of a range recalled from the host. -/
theorem recallRange_setFw {s : State} {w : Firm} (hw : w.ptBase = s.fw.ptBase) (off n : Nat) :
    ({ s with fw := w } : State).recallRange off n = { s.recallRange off n with fw := w } := by
  unfold State.recallRange
  dsimp only
  split
  · rfl
  next h =>
    clear h
    generalize List.range _ = l
    induction l generalizing s with
    | nil => rfl
    | cons i l ih =>
      rw [List.foldl_cons, List.foldl_cons, hostRecall_setFw hw]
      exact ih (hw.trans ((FirmKeeps.of_stores (hostRecall_stores s _)).field (·.ptBase)).symm)

/-- What firmware reads at an address does not rest on the other fields of its state. -/
theorem fwLoad_setFw {s : State} {w : Firm} (hw : w.ptBase = s.fw.ptBase) (a : Word) (n : Nat) :
    ({ s with fw := w } : State).fwLoad a n = s.fwLoad a n := by
  unfold State.fwLoad
  split
  · rfl
  · have hp := hw.trans ((FirmKeeps.of_stores (recallRange_stores s (a.extractLsb' 0 47).toNat n)).field (·.ptBase)).symm
    rw [recallRange_setFw hw]
    simp only [State.memBytes, walk_setFw hp, xlate_setFw hp, readAt_setFw hp]

/-- What firmware reads after a change of its state that leaves the base of the page table. -/
theorem fwLoad_modFw (s : State) (f : Firm → Firm) (hf : (f s.fw).ptBase = s.fw.ptBase) (a : Word) (n : Nat) :
    (s.modFw f).fwLoad a n = s.fwLoad a n := fwLoad_setFw hf a n

/-- What firmware reads when a command has begun. -/
@[simp] theorem begun_fwLoad (s : State) (q i : Nat) (e : List Byte) (a : Word) (n : Nat) : (begun s q i e).fwLoad a n = s.fwLoad a n :=
  fwLoad_setFw (s := s) (w := (begun s q i e).fw) rfl a n
end Sys2Proof.Claims
end

section
/-! PROOFS. How resets begin (R19 to R22, R79, R84): cold, warm, and by the RESET command (R80, R89). -/
namespace Sys2Proof.Claims
open Sys2Proof.Machine

/-! ## Cold resets -/

/-- What the beginning of a cold reset leaves. -/
theorem coldReset_begins (s : State) (kind : ResetKind) : ColdReset s (s.coldReset kind) kind :=
  ⟨rfl, rfl, rfl, rfl, rfl, rfl, rfl, rfl, rfl, rfl, rfl, rfl, rfl, rfl, rfl, rfl, rfl, rfl, rfl, rfl⟩

/-- A rail fault begins a cold reset and is noted. -/
theorem railReset_begins (s : State) (cls rail : Nat) : ColdReset s (s.railReset cls rail) .rail := coldReset_begins (s.noteFault cls rail) .rail

/-- A thermal or flow fault begins a cold reset, and the module stays off. -/
theorem shutDown_begins (s : State) (cls : Nat) : ColdReset s (s.shutDown cls) .thermal := coldReset_begins (s.noteFault cls 0xFF) .thermal

/-- The input becomes good. -/
theorem execPowerGood_begins (s : State) (h : s.fw.inputGood = false) :
    ∃ u, exec .powerGood s = .next u ∧ ColdReset s u .cold ∧ u.fw.inputGood = true ∧ u.fw.railsOn = false := by
  refine ⟨{ s with fw := { s.fw with inputGood := true } }.coldReset .cold, ?_, coldReset_begins _ _, rfl, rfl⟩
  change execPowerGood s = _
  simp [execPowerGood, h]

/-- The input is lost. -/
theorem execInputPowerLoss_begins (s : State) : ∃ u, exec .inputPowerLoss s = .next u ∧ ColdReset s u .cold ∧ u.fw.inputGood = false ∧
    u.fw.railsOn = false ∧ u.fw.faultClass = 0 :=
  ⟨_, rfl, coldReset_begins s .cold, rfl, rfl, rfl⟩

/-- A pulse of MRSTN. -/
theorem execMrstnPulse_begins (s : State) (h : s.fw.inputGood = true) :
    ∃ u, exec .mrstnPulse s = .next u ∧ ColdReset s u (if s.fw.shutdown then .thermal else .cold) ∧ u.fw.shutdown = false ∧
      u.fw.railsOn = false ∧ u.fw.faultClass = s.fw.faultClass := by
  refine ⟨s.coldReset (if s.fw.shutdown then .thermal else .cold), ?_, coldReset_begins _ _, rfl, rfl, rfl⟩
  change execMrstnPulse s = _
  simp [execMrstnPulse, h]

/-- The coolant stops. -/
theorem execCoolantFlowLoss_begins (s : State) (h : s.fw.inputGood = true) (hs : s.fw.shutdown = false) :
    ∃ u, exec .coolantFlowLoss s = .next u ∧ ColdReset s u .thermal ∧ u.fw.shutdown = true ∧ u.fw.railsOn = false ∧ u.fw.faultClass = 5 ∧
      u.fw.faultTime = s.time := by
  refine ⟨s.shutDown 5, ?_, shutDown_begins _ _, rfl, rfl, rfl, rfl⟩
  change execCoolantFlowLoss s = _
  simp [execCoolantFlowLoss, h, hs]

/-! ## Warm resets -/

/-- Status lines have been written to host memory, and nothing else has happened. -/
def HostLinesWritten (s u : State) : Prop := ∃ h hb, u = { s with host := h, hostBad := hb }

/-- With module memory zero no page of it is mapped. -/
theorem mapped_of_mem_nil {s : State} (h : s.mem = []) (off : Nat) : s.mapped off = false := by
  have zeros : ∀ n pa, natOfBytes (memRead [] pa n) = 0 := by
    intro n
    induction n with
    | zero => intro _; rfl
    | succ n ih => intro pa; rw [memRead, natOfBytes, ih]; rfl
  simp [State.mapped, State.walk, State.pte, h, zeros, pteBad]

/-- With module memory zero a status line goes to host memory or nowhere. -/
theorem writeStatus_hostLines {s : State} (h : s.mem = []) (q : Nat) : HostLinesWritten s (s.writeStatus q) := by
  unfold State.writeStatus
  extract_lets v
  split
  · exact ⟨_, _, rfl⟩
  next hc =>
    cases hb : v.stat.getLsbD 63
    · have : s.addrMapped v.stat 64 = false := by
        simp only [State.addrMapped, hb, mapped_of_mem_nil h, Bool.false_or, List.all_eq_false, List.mem_range, Bool.or_eq_false_iff]
        exact ⟨by decide, 0, by omega, by decide⟩
      simp [this] at hc
    · unfold State.fwStore
      rw [if_pos hb]
      exact ⟨_, _, rfl⟩

/-- The same for the lines of several queues. -/
theorem foldl_writeStatus_hostLines {s : State} (h : s.mem = []) (l : List Nat) : HostLinesWritten s (l.foldl (fun s q => s.writeStatus q) s) := by
  induction l generalizing s with
  | nil => exact ⟨_, _, rfl⟩
  | cons q l ih =>
    obtain ⟨a, b, e⟩ := writeStatus_hostLines h q
    obtain ⟨c, d, e'⟩ := ih (s := s.writeStatus q) (by rw [e]; exact h)
    exact ⟨c, d, by rw [List.foldl_cons, e', e]⟩

/-- A queue of host memory at the beginning of a warm reset, with the pointers of its submit line. -/
theorem tblGet?_warmQueues_host {s : State} (keep : Option CmdRef) {q : Nat} {v : Queue} (hw : tblWf s.fw.queues = true)
    (hv : tblGet? s.fw.queues q = some v) (hd : v.inDevice = false) : tblGet? (s.warmQueues keep) q = some (s.warmQueue keep v) := by
  simp [State.warmQueues, tblGet?_map, tblGet?_filter hw, hv, hd]

/-- A queue of device memory is gone, but for queue 0, which is not enabled. -/
theorem tblGet?_warmQueues_device {s : State} (keep : Option CmdRef) {q : Nat} {v : Queue} (hw : tblWf s.fw.queues = true)
    (hv : tblGet? s.fw.queues q = some v) (hd : v.inDevice = true) : tblGet? (s.warmQueues keep) q = if q = 0 then
      some { Queue.none with base := v.base, cbase := v.cbase, sub := v.sub, stat := v.stat, size := v.size } else none := by
  rcases eq_or_ne q 0 with rfl | h
  · simp [State.warmQueues, tblGet?_map, tblGet?_filter hw, hv, hd]
  · simp [State.warmQueues, tblGet?_map, tblGet?_filter hw, hv, hd, h]

/-- The RESET command that stays begun over a warm reset: that of a queue of host memory. -/
def warmKept (s : State) : Option CmdRef → Option CmdRef
  | some c => if (s.queue c.q).inDevice then none else some c
  | none => none

/-- What the beginning of a warm reset leaves, and what it takes over. -/
theorem warmReset_begins (s : State) (image : Option (List Byte)) (c : Option CmdRef) : WarmReset s (s.warmReset image c) ∧
    (s.warmReset image c).fw.patchv = s.fw.patchv ∧ (s.warmReset image c).fw.patch = s.fw.patch ∧
    (s.warmReset image c).fw.patchFloor = s.fw.patchFloor ∧ (s.warmReset image c).fw.bootImage = image ∧
    (s.warmReset image c).fw.resetBy = warmKept s c := by
  unfold State.warmReset
  extract_lets w keep qs r f s'
  obtain ⟨h, hb, e⟩ := foldl_writeStatus_hostLines (s := s') rfl ((qs.filter fun e => !e.2.inDevice).map (·.1))
  rw [e]
  refine ⟨⟨rfl, rfl, rfl, rfl, rfl, rfl, rfl, rfl, rfl, rfl, rfl, rfl, rfl, rfl, rfl, rfl, fun hw q v hv => ⟨fun hd => ?_, fun hd => ?_⟩⟩,
    rfl, rfl, rfl, rfl, by cases c <;> rfl⟩
  · have hq : ({ s' with host := h, hostBad := hb } : State).queue q = s.warmQueue keep v := by
      change tblGetD (s.warmQueues keep) q Queue.none = _
      rw [tblGetD, tblGet?_warmQueues_host keep hw hv hd]; rfl
    rw [hq]
    exact ⟨rfl, rfl, rfl, rfl, rfl, rfl, rfl⟩
  · have hq := tblGet?_warmQueues_device (s := s) keep hw hv hd
    refine ⟨fun h0 => ?_, fun h0 => ?_⟩
    · rw [if_neg h0] at hq; exact hq
    · rw [if_pos h0] at hq
      change (tblGetD (s.warmQueues keep) q Queue.none).en = false
      rw [tblGetD, hq]; rfl

/-- DEVCTL.WARM. -/
theorem execDevctlWarmWrite_begins (s : State) (h : MayWarm s) : ∃ u, exec .devctlWarmWrite s = .next u ∧ WarmReset s u ∧
    u.fw.patchv = s.fw.patchv ∧ u.fw.bootImage = none ∧ u.fw.resetBy = none := by
  obtain ⟨hw, hv, -, -, hi, hr⟩ := warmReset_begins s none none
  refine ⟨s.warmReset none none, ?_, hw, hv, hi, hr⟩
  change execDevctlWarmWrite s = _
  obtain ⟨hg, hs, hl, hp⟩ := h
  simp [execDevctlWarmWrite, State.mayWarm, hg, hs, hl, hp]

/-! ## RESET -/

/-- Beginning a command moves no ring or line of its queue. -/
theorem begun_inDevice (s : State) (q i : Nat) (e : List Byte) : ((begun s q i e).queue q).inDevice = (s.queue q).inDevice := by
  have h : (begun s q i e).queue q = { s.queue q with pending := (s.queue q).pending.tail, begun := (s.queue q).begun ++ [headRef q i e] } :=
    queue_modQueue_same s q fun v => { v with pending := v.pending.tail, begun := v.begun ++ [headRef q i e] }
  rw [h]; rfl

/-- RESET without an image or a patch. -/
theorem execResetWarm_begins {s : State} {q i : Nat} {e : List Byte} (h : Heads s q i e 0x11) (hs : entSub e = 0) :
    ∃ u, exec (.resetWarm q) s = .next u ∧ WarmReset (begun s q i e) u ∧ u.fw.patchv = s.fw.patchv ∧ u.fw.bootImage = none ∧
      u.fw.resetBy = (if (s.queue q).inDevice then none else some (headRef q i e)) := by
  obtain ⟨hw, hv, -, -, hi, hr⟩ := warmReset_begins (begun s q i e) none (some (headRef q i e))
  refine ⟨_, ?_, hw, hv, hi, hr.trans ?_⟩
  · change execResetWarm q s = _
    rw [execResetWarm, command_heads h (by simp [hs])]
  · simp only [warmKept, headRef, begun_inDevice]

/-- The header of a boot image that RESET takes (R288). -/
def ImageGood (s : State) (a : Word) : Prop :=
  entNat (s.fwLoad a 256) 0 4 = 0x49595A47 ∧ entNat (s.fwLoad a 256) 4 2 = 1 ∧ 256 ≤ entNat (s.fwLoad a 256) 8 8 ∧
    s.hostRange a (entNat (s.fwLoad a 256) 8 8) = true

/-- A range of host memory is one still when a command has begun. -/
theorem begun_hostRange (s : State) (q i : Nat) (e : List Byte) (a : Word) (n : Nat) : (begun s q i e).hostRange a n = s.hostRange a n := rfl

/-- RESET with a boot image. -/
theorem execResetWithImage_begins {s : State} {q i : Nat} {e : List Byte} (h : Heads s q i e 0x11) (hs : entSub e = 1) :
    let a := entWord e 16
    (s.hostRange a 256 = false → Ends s q i e (exec (.resetWithImage q) s) 0x03) ∧
    (s.hostRange a 256 = true → ¬ ImageGood s a → Ends s q i e (exec (.resetWithImage q) s) 0x08) ∧
    (s.hostRange a 256 = true → ImageGood s a → ∃ u, exec (.resetWithImage q) s = .next u ∧ WarmReset (begun s q i e) u ∧
      u.fw.bootImage = some (s.fwLoad a (entNat (s.fwLoad a 256) 8 8)) ∧ u.fw.patchv = s.fw.patchv) := by
  intro a
  have hx : exec (.resetWithImage q) s = .next
      (if !s.hostRange a 256 then (begun s q i e).finishCmd (headRef q i e) 0x03
       else if entNat (s.fwLoad a 256) 0 4 ≠ 0x49595A47 ∨ entNat (s.fwLoad a 256) 4 2 ≠ 1 ∨ entNat (s.fwLoad a 256) 8 8 < 256 ∨
           !s.hostRange a (entNat (s.fwLoad a 256) 8 8) then (begun s q i e).finishCmd (headRef q i e) 0x08
       else (begun s q i e).warmReset (some (s.fwLoad a (entNat (s.fwLoad a 256) 8 8))) (some (headRef q i e))) := by
    change execResetWithImage q s = _
    rw [execResetWithImage, command_heads h (by simp [hs])]
    simp only [begun_fwLoad, begun_hostRange]
    rfl
  rw [hx]
  refine ⟨fun hr => ?_, fun hr hg => ?_, fun hr ⟨h0, h1, h2, h3⟩ => ?_⟩
  · simp [Ends, hr]
  · rw [if_neg (by simp [hr]), if_pos]
    · rfl
    · by_contra hn
      simp only [not_or, not_not, not_lt, Bool.not_eq_true', Bool.not_eq_false] at hn
      exact hg hn
  · rw [if_neg (by simp [hr]), if_neg (by simp [h0, h1, h2, h3])]
    obtain ⟨hw, hv, -, -, hi, -⟩ := warmReset_begins (begun s q i e) (some (s.fwLoad a (entNat (s.fwLoad a 256) 8 8))) (some (headRef q i e))
    exact ⟨_, rfl, hw, hi, hv⟩

/-- A patch taken moves nothing that a warm reset takes over but the patch. -/
theorem WarmReset.of_patch {s u : State} {p : List Byte} {v f : Nat}
    (h : WarmReset (s.modFw fun w => { w with patch := p, patchv := v, patchFloor := f }) u) : WarmReset s u := by
  have hl : ∀ a n, (s.modFw fun w => { w with patch := p, patchv := v, patchFloor := f }).fwLoad a n = s.fwLoad a n :=
    fun a n => fwLoad_modFw s _ rfl a n
  unfold WarmReset at h ⊢
  simp only [hl] at h
  exact h

/-- RESET with a patch. -/
theorem execResetWithPatch_begins {s : State} {q i : Nat} {e : List Byte} (h : Heads s q i e 0x11) (hs : entSub e = 2) :
    let a := entWord e 16
    let hd := s.fwLoad a 0x40
    let n := 0x40 + entNat hd 8 4
    s.hostRange a 0x40 = true → s.hostRange a (n + 2820) = true →
    (∀ st, s.badPatch hd (s.fwLoad a) = some st → Ends s q i e (exec (.resetWithPatch q) s) st) ∧
    (s.badPatch hd (s.fwLoad a) = none → ∃ u, exec (.resetWithPatch q) s = .next u ∧ WarmReset (begun s q i e) u ∧
      u.fw.patchv = entNat hd 4 2 ∧ u.fw.patch = s.fwLoad a n ∧ s.fw.patchFloor ≤ u.fw.patchFloor) := by
  intro a hd n hr hr'
  have hb : (begun s q i e).badPatch hd ((begun s q i e).fwLoad a) = s.badPatch hd (s.fwLoad a) := by
    rw [show (begun s q i e).fwLoad a = s.fwLoad a from funext fun _ => begun_fwLoad ..]; rfl
  have hx : exec (.resetWithPatch q) s = .next (match s.badPatch hd (s.fwLoad a) with
      | some k => (begun s q i e).finishCmd (headRef q i e) k
      | none => ((begun s q i e).modFw fun w => { w with
          patch := s.fwLoad a n, patchv := entNat hd 4 2, patchFloor := max w.patchFloor (entNat hd 4 2) }).warmReset none (some (headRef q i e))) := by
    change execResetWithPatch q s = _
    rw [execResetWithPatch, command_heads h (by simp [hs])]
    simp only [begun_fwLoad, begun_hostRange]
    rw [if_neg (by simp [a] at hr; simp [hr]), if_neg (by simp [n, hd, a] at hr'; simp [hr']), ← hb] <;> rfl
  rw [hx]
  refine ⟨fun st hst => by rw [hst]; rfl, fun hn => ?_⟩
  rw [hn]
  obtain ⟨hw, hv, hp, hf, -, -⟩ := warmReset_begins ((begun s q i e).modFw fun w => { w with
    patch := s.fwLoad a n, patchv := entNat hd 4 2, patchFloor := max w.patchFloor (entNat hd 4 2) }) none (some (headRef q i e))
  exact ⟨_, rfl, hw.of_patch, hv, hp, by rw [hf]; exact le_max_left _ _⟩
end Sys2Proof.Claims
end

section
/-! PROOFS. The boot stub: one group of one thread on every active core (R20 step 6). -/
namespace Sys2Proof.Claims
open Sys2Proof.Machine

/-- ENTRY of a plain record. -/
theorem recEntry_plainRecord (a : Word) : recEntry (plainRecord a) = a := by
  have h : (plainRecord a).take 8 = bytesOf a 8 := rfl
  rw [recEntry, h, wordOf_bytesOf]

/-- GSIZE of a plain record. -/
theorem recGsize_plainRecord (a : Word) : recGsize (plainRecord a) = 1 := rfl

/-- Changing a vector context leaves the groups. -/
@[simp] theorem Core.modCtx_groups (c : Core) (k : Bool) (f : VCtx → VCtx) : (c.modCtx k f).groups = c.groups := by
  unfold Core.modCtx; split <;> rfl

/-- Changing a vector context leaves the threads. -/
@[simp] theorem Core.modCtx_threads (c : Core) (k : Bool) (f : VCtx → VCtx) : (c.modCtx k f).threads = c.threads := by
  unfold Core.modCtx; split <;> rfl

/-- A core has one group, of one thread, which runs from an address under a launch. -/
def RunsAlone (c : Core) (lid : Nat) (entry : Word) : Prop :=
  ∃ g k t, c.groups = [g] ∧ g.size = 1 ∧ g.lid = lid ∧ tblGet? c.threads k = some t ∧ t.group = g.gid ∧ t.pc = entry ∧ t.run = .running

/-- The lowest 4 KiB of the allocatable scratchpad is free where no group stands. -/
theorem freeRange_empty {c : Core} {l : Launch} (hg : c.groups = []) (ha : l.galloc = 1) (he : l.exch = false) : c.freeRange l = some 0 := by
  unfold Core.freeRange reserveOff
  rw [hg, ha, he]
  rfl

/-- Slot 0 is the first that is free where no thread stands. -/
theorem freeSlots_empty {c : Core} (ht : c.threads = []) : c.freeSlots.take 1 = [0] := by
  unfold Core.freeSlots Core.busy
  rw [ht]
  rfl

/-- A group of a plain record starts on a core that has none. -/
theorem startGroup_plainRecord {s : State} {p : Nat} {l : Launch} (entry : Word) (hg : (s.core p).groups = []) (ht : (s.core p).threads = [])
    (ha : l.galloc = 1) (he : l.exch = false) : ∃ c, RunsAlone c l.lid entry ∧
      s.startGroup p l (plainRecord entry) none = (s.setCore p c).modLaunch l.lid fun l => { l with ran := l.ran + 1 } := by
  unfold State.startGroup
  simp only [freeRange_empty hg ha he, recGsize_plainRecord, freeSlots_empty ht]
  refine ⟨_, ?_, rfl⟩
  simp only [List.zipIdx_cons, List.zipIdx_nil, List.map_cons, List.map_nil, List.foldl_cons, List.foldl_nil]
  generalize (if 0 < recNvec (plainRecord entry) then _ else none) = ctx
  cases ctx <;>
    simp [RunsAlone, hg, ht, Core.setThread, startThread, Thread.feed, recEntry_plainRecord, tblSet, tblGet?]

/-- The only launch is the stub's, in step mode. -/
def OnlyStub (s : State) : Prop := ∃ l, s.launches = [l] ∧ l.lid = stubLid ∧ l.stepMode = true

/-- The stub starts on one core. -/
def stubOn (l : Launch) (s : State) (e : Nat × Nat) : State :=
  (s.modCore e.1 fun c => { c.begin_ l e.1 e.2 with locked := stubLines }).startGroup e.1 l (plainRecord Config.stubAddress) none

/-- The stub has started on some cores: each has one group of one thread; firmware's state and memory stay. -/
structure StubStarts (s u : State) (ps : List Nat) : Prop where
  fw : u.fw = s.fw
  mem : u.mem = s.mem
  launch : OnlyStub s → OnlyStub u
  runs : ∀ p ∈ ps, RunsAlone (u.core p) stubLid Config.stubAddress
  other : ∀ p, p ∉ ps → u.core p = s.core p

/-- The stub starts on a core, whatever the core held. -/
theorem stubOn_starts {l : Launch} (ha : l.galloc = 1) (he : l.exch = false) (hl : l.lid = stubLid) (s : State) (e : Nat × Nat) :
    StubStarts s (stubOn l s e) [e.1] := by
  let v := s.modCore e.1 fun c => { c.begin_ l e.1 e.2 with locked := stubLines }
  have hv : v.core e.1 = { (s.core e.1).begin_ l e.1 e.2 with locked := stubLines } := State.core_modCore_same _ _ _
  obtain ⟨c, hc, heq⟩ := startGroup_plainRecord (s := v) (l := l) Config.stubAddress (by rw [hv]; rfl) (by rw [hv]; rfl) ha he
  have hu : stubOn l s e = (v.setCore e.1 c).modLaunch l.lid fun l => { l with ran := l.ran + 1 } := heq
  have hcore : ∀ p, (stubOn l s e).core p = (v.setCore e.1 c).core p := fun p => by rw [hu]; rfl
  constructor
  case fw => rw [hu]; rfl
  case mem => rw [hu]; rfl
  case launch =>
    rintro ⟨l', hs, hid, hm⟩
    refine ⟨{ l' with ran := l'.ran + 1 }, ?_, hid, hm⟩
    rw [hu]
    change s.launches.map _ = _
    simp [hs, hid, hl]
  case runs =>
    intro p hp
    rw [List.mem_singleton.1 hp, hcore, State.core_setCore_same, ← hl]
    exact hc
  case other =>
    intro p hp
    have hne : p ≠ e.1 := fun h => hp (by simp [h])
    rw [hcore, State.core_setCore_other _ _ _ _ hne, State.core_modCore_other _ _ _ _ hne]

/-- The stub starts on core after core. -/
theorem foldl_stubOn_starts {l : Launch} (ha : l.galloc = 1) (he : l.exch = false) (hl : l.lid = stubLid) (es : List (Nat × Nat)) (s : State) :
    StubStarts s (es.foldl (stubOn l) s) (es.map (·.1)) := by
  induction es generalizing s with
  | nil => exact ⟨rfl, rfl, id, fun _ h => absurd h List.not_mem_nil, fun _ _ => rfl⟩
  | cons e es ih =>
    have h := stubOn_starts ha he hl s e
    have k := ih (stubOn l s e)
    refine ⟨k.fw.trans h.fw, k.mem.trans h.mem, k.launch ∘ h.launch, fun p hp => ?_, fun p hp => ?_⟩
    · by_cases hq : p ∈ es.map (·.1)
      · exact k.runs p hq
      · rw [List.foldl_cons, k.other p hq]
        exact h.runs p (by simp only [List.map_cons, List.mem_cons, hq, or_false] at hp; simp [hp])
    · rw [List.map_cons, List.mem_cons, not_or] at hp
      rw [List.foldl_cons, k.other p hp.2, h.other p (by simp [hp.1])]

/-- The launch of the stub in this package. -/
def stubLaunch (s : State) : Launch :=
  { blankLaunch stubLid s.activeMap (s.activeMap.zipIdx.map fun e => (e.2, 0)) true with
    spans := [{ vbase := 0#64, vlimit := 0x40000#64, offset := 0#64, attr := 3#64 }] }

/-- The stub starts on every active core. -/
theorem startStub_starts (s : State) : StubStarts { s with launches := s.launches ++ [stubLaunch s] } s.startStub s.activeMap := by
  have h := foldl_stubOn_starts (l := stubLaunch s) rfl rfl rfl s.activeMap.zipIdx { s with launches := s.launches ++ [stubLaunch s] }
  rw [List.zipIdx_map_fst] at h
  exact h

/-- The active positions. -/
theorem mem_activeMap (s : State) (p : Nat) : p ∈ s.activeMap ↔ p < 1024 ∧ s.active p = true := by
  simp [State.activeMap]

/-! ## The steps of the sequence -/

/-- Firmware's state and memory stay. -/
structure FirmStays (s u : State) : Prop where
  fw : u.fw = s.fw
  mem : u.mem = s.mem

/-- The distribution of the boot image leaves memory, and of firmware's state all but its two maps. -/
theorem distribute_firm (s : State) : ∃ bf, FirmStays (s.modFw fun w => { w with logical := s.activeMap, bootFrom := bf }) s.distribute := by
  unfold State.distribute
  extract_lets img m came u
  refine ⟨came, ?_⟩
  change FirmStays u _
  generalize u.activeMap.zipIdx = l
  generalize u = v
  induction l generalizing v with
  | nil => exact ⟨rfl, rfl⟩
  | cons e l ih =>
    rw [List.foldl_cons]
    split
    · exact ⟨(ih _).fw, (ih _).mem⟩
    · exact ih v

/-- What the end of a step of the sequence leaves to its next. -/
theorem endOfStep_fw (s : State) (k : Nat) : (s.endOfStep k).fw.phase = s.fw.phase ∧ (s.endOfStep k).fw.ready = s.fw.ready := by
  unfold State.endOfStep
  split
  case h_5 => rw [(startStub_starts s).fw]; exact ⟨rfl, rfl⟩
  case h_6 =>
    obtain ⟨_, h⟩ := distribute_firm s
    simp only [h.fw, State.modFw_fw, and_self]
  all_goals exact ⟨rfl, rfl⟩

/-- Memory changes at the end of step 5 alone. -/
theorem endOfStep_mem (s : State) {k : Nat} (h : k ≠ 5) : (s.endOfStep k).mem = s.mem := by
  unfold State.endOfStep
  split
  case h_4 => exact absurd rfl h
  case h_5 => exact (startStub_starts s).mem
  case h_6 =>
    obtain ⟨_, h⟩ := distribute_firm s
    exact h.mem.trans (State.modFw_mem _ _)
  all_goals rfl
end Sys2Proof.Claims
end

section
/-! PROOFS. The steps of the reset sequence (R20, R21). -/
namespace Sys2Proof.Claims
open Sys2Proof.Machine

/-- A reset sequence is running. -/
def Resetting (s : State) : Prop := s.fw.inputGood = true ∧ s.fw.shutdown = false ∧ s.fw.fail = false ∧ s.fw.ready = false

theorem Resetting.eq_true {s : State} (h : Resetting s) : s.resetting = true := by
  obtain ⟨hi, hs, hf, hr⟩ := h
  simp [State.resetting, hi, hs, hf, hr]

/-- A step before the last ends and the next begins. -/
theorem execResetStepComplete_step {s : State} (h : Resetting s) (hp : s.fw.phase < 8) :
    exec .resetStepComplete s = .next ((s.endOfStep s.fw.phase).modFw fun w => { w with phase := w.phase + 1 }) := by
  change execResetStepComplete s = _
  simp [execResetStepComplete, h.eq_true, hp]

/-- Firmware's own state is no core's. -/
theorem core_modFw (s : State) (f : Firm → Firm) (p : Nat) : (s.modFw f).core p = s.core p := rfl

/-- The steps 1 to 7. -/
theorem execResetStepComplete_early {s : State} (h : Resetting s) (hp : s.fw.phase < 8) :
    ∃ u, exec .resetStepComplete s = .next u ∧ u.fw.phase = s.fw.phase + 1 ∧ u.fw.ready = false ∧
      (s.fw.phase ≠ 5 → u.mem = s.mem) ∧ (s.fw.phase = 5 → u.mem = [] ∧ u.bad = []) ∧ (s.fw.phase = 1 → u.fw.railsOn = true) ∧
      (s.fw.phase = 2 → u.fw.linkUp = true) ∧
      (s.fw.phase = 7 → ∀ p, p ∈ u.fw.logical ↔ p < 1024 ∧ s.active p = true) ∧
      (s.fw.phase = 6 → s.launches = [] → ∀ p, p < 1024 → s.active p = true → ∃ g k t, (u.core p).groups = [g] ∧ g.size = 1 ∧ u.stepMode g.lid = true ∧
        u.thread? p k = some t ∧ t.group = g.gid ∧ t.pc = Config.stubAddress ∧ t.run = .running) := by
  obtain ⟨hph, hrd⟩ := endOfStep_fw s s.fw.phase
  refine ⟨_, execResetStepComplete_step h hp, ?_, ?_, fun h5 => ?_, fun h5 => ?_, fun h1 => ?_, fun h2 => ?_, fun h7 p => ?_, fun h6 hl p hp ha => ?_⟩
  · simp only [State.modFw_fw, hph]
  · simp only [State.modFw_fw, hrd]; exact h.2.2.2
  · exact endOfStep_mem s h5
  · rw [h5]; exact ⟨rfl, rfl⟩
  · rw [h1]; rfl
  · rw [h2]; rfl
  · obtain ⟨bf, hd⟩ := distribute_firm s
    simp only [h7, ← mem_activeMap, State.endOfStep, State.modFw_fw, hd.fw]
  · have st := startStub_starts s
    obtain ⟨g, k, t, hg, hs, hid, ht, hrest⟩ := st.runs p ((mem_activeMap s p).2 ⟨hp, ha⟩)
    obtain ⟨l, hul, hlid, hstep⟩ := st.launch ⟨stubLaunch s, by simp [hl], rfl, rfl⟩
    simp only [h6, State.endOfStep, State.thread?, core_modFw]
    refine ⟨g, k, t, hg, hs, ?_, ht, hrest⟩
    simp [State.stepMode, State.launch?, hul, hlid, hid, hstep]

/-- Every virtual time of a core is zero after a step-mode launch. -/
theorem zeroTimes_core (s : State) (p : Nat) : (s.zeroTimes.core p).vtime = 0#32 ∧ (s.zeroTimes.core p).gvt = 0#32 := by
  have h : s.zeroTimes.core p = (((tblGet? s.cores p).map fun (c : Core) =>
      { c with vtime := 0#32, gvt := 0#32, gvtBase := 0#32, minSent := (0xFFFFFFFF#32, 0xFFFFFFFF#32) }).getD Core.reset) := by
    simp [State.core, tblGetD, State.zeroTimes]
  rw [h]
  cases tblGet? s.cores p <;> exact ⟨rfl, rfl⟩

/-- Firmware's state when normal service begins, before queues that are not valid are halted. -/
theorem beginService_works (s : State) : ∃ v : State, QueueWork v s.beginService ∧ v.fw.phase = 8 ∧ v.fw.ready = true ∧ v.fw.gvt = 0#32 ∧
    v.fw.resetBy = none ∧ v.cores = s.endStub.zeroTimes.cores ∧ v.launches = s.endStub.launches := by
  unfold State.beginService
  extract_lets a b c
  refine ⟨c, .foldl (fun s e => ?_) _ _, rfl, rfl, rfl, rfl, rfl, rfl⟩
  split
  · exact .refl s
  · exact .haltQueue _ _ _

/-- The last step. -/
theorem execResetStepComplete_last {s : State} (h : Resetting s) (hp : 8 ≤ s.fw.phase) :
    ∃ u, exec .resetStepComplete s = .next u ∧ u.fw.phase = 8 ∧ u.fw.ready = true ∧ u.fw.gvt = 0#32 ∧ u.fw.resetBy = none ∧
      (∀ p, (u.core p).vtime = 0#32 ∧ (u.core p).gvt = 0#32) ∧ (∀ l ∈ u.launches, l.lid ≠ stubLid ∧ l ∈ s.launches) := by
  obtain ⟨v, hv, hph, hrd, hgvt, hby, hc, hl⟩ := beginService_works s
  let u := match s.fw.resetBy with
    | some c => s.beginService.finishCmd c 0
    | none => s.beginService
  have hu : QueueWork v u := by
    unfold u
    cases s.fw.resetBy with
    | none => exact hv
    | some c => exact hv.trans (.finishCmd _ _ _ _ _)
  refine ⟨u, ?_, (hu.field (·.phase)).trans hph, (hu.field (·.ready)).trans hrd, (hu.field (·.gvt)).trans hgvt, (hu.field (·.resetBy)).trans hby,
    fun p => ?_, fun l hlu => ?_⟩
  · change execResetStepComplete s = _
    rw [execResetStepComplete, if_neg (by simp [h.eq_true]), if_neg (by omega)] <;> rfl
  · have : u.core p = s.endStub.zeroTimes.core p := by unfold State.core; rw [hu.cores, hc]
    rw [this]
    exact zeroTimes_core _ p
  · rw [hu.launches, hl] at hlu
    obtain ⟨hm, hne⟩ := List.mem_filter.1 hlu
    exact ⟨by simpa using hne, hm⟩

/-- A step overruns. -/
theorem execResetStepOverrun_fails {s : State} (h : Resetting s) (ok : Bool) : ∃ u, exec (.resetStepOverrun ok) s = .next u ∧ u = { s with fw := u.fw } ∧
    u.fw.fail = true ∧ u.fw.phase = s.fw.phase ∧
      (s.fw.phase < 3 → u.fw.linkUp = ok ∧ u.fw.mfaultn = !ok) ∧ (3 ≤ s.fw.phase → u.fw.linkUp = s.fw.linkUp ∧ u.fw.mfaultn = s.fw.mfaultn) := by
  refine ⟨s.modFw fun w => { w with fail := true, linkUp := if w.phase < 3 then ok else w.linkUp, mfaultn := if w.phase < 3 then !ok else w.mfaultn },
    ?_, rfl, rfl, rfl, fun hp => ?_, fun hp => ?_⟩
  · change execResetStepOverrun ok s = _
    rw [execResetStepOverrun, if_neg (by simp [h.eq_true])]
  · simp [hp]
  · simp [Nat.not_lt.2 hp]
end Sys2Proof.Claims
end

section
/-! PROOFS. Clock points: what brings a basin to its point, and what a sample or a step changes of it (R13, R14, R16). -/
namespace Sys2Proof.Claims
open Sys2Proof.Machine

/-! ## Basins -/

/-- A basin at a point; it is changing where it stood at another. -/
def Basin.moveTo (x : Basin) (w : Nat) : Basin := { x with point := w, changing := x.changing || x.point != w }

/-- A basin brought to a point. -/
theorem ite_point_eq_moveTo (x : Basin) (w : Nat) : (if x.point = w then x else { x with point := w, changing := true }) = Basin.moveTo x w := by
  unfold Basin.moveTo
  split
  next h => simp [← h]
  next h => simp [h]

/-- The point of a basin that has moved. -/
theorem moveTo_point (x : Basin) (w : Nat) : (Basin.moveTo x w).point = w := rfl

/-- A basin that moves to another point is changing. -/
theorem moveTo_changing (x : Basin) (w : Nat) (h : (Basin.moveTo x w).point ≠ x.point) : (Basin.moveTo x w).changing = true := by
  change (x.changing || x.point != w) = true
  rw [Bool.or_eq_true, bne_iff_ne]
  exact .inr (Ne.symm h)

/-- One basin is brought to its point, and the place of the next. -/
def bringNext (x : Vector Basin 16 × Nat) (e : Basin × Nat) : Vector Basin 16 × Nat :=
  (x.1.setIfInBounds x.2 (if e.1.point = e.2 then e.1 else { e.1 with point := e.2, changing := true }), x.2 + 1)

/-- Basins brought to their points from a place on. -/
theorem foldl_bringNext (l : List (Basin × Nat)) (v : Vector Basin 16) (k i : Nat) (hk : k + l.length ≤ 16) :
    (l.foldl bringNext (v, k)).1.toList[i]? =
      if k ≤ i ∧ i < k + l.length then (l[i - k]?).map fun e => Basin.moveTo e.1 e.2 else v.toList[i]? := by
  induction l generalizing v k with
  | nil => simp
  | cons e l ih =>
    rw [List.length_cons] at hk
    rw [List.foldl_cons, bringNext, ih _ _ (by omega), ite_point_eq_moveTo]
    rcases Nat.lt_trichotomy i k with h | h | h
    · rw [if_neg (by omega), if_neg (by omega)]
      simp [show k ≠ i by omega]
    · rw [if_neg (by omega), if_pos (by simp; omega), h]
      simp [show k < 16 by omega]
    · have hi : i - k = (i - (k + 1)) + 1 := by omega
      simp only [List.length_cons, hi, List.getElem?_cons_succ]
      by_cases hlt : i < k + 1 + l.length
      · rw [if_pos (by omega), if_pos (by omega)]
      · rw [if_neg (by omega), if_neg (by omega)]
        simp [show k ≠ i by omega]

/-- A listed basin is one of the sixteen. -/
theorem basin_lt {s : State} {b : Nat} {x : Basin} (hx : s.fw.basins.toList[b]? = some x) : b < 16 := by
  simpa using (List.getElem?_eq_some_iff.1 hx).1

/-- A basin after all have been brought to their points. -/
theorem basin_applyPoints {s : State} {b : Nat} {x : Basin} (hx : s.fw.basins.toList[b]? = some x) :
    s.applyPoints.fw.basins.toList[b]? = some (Basin.moveTo x (s.wantPoint b)) := by
  have hb := basin_lt hx
  have hw : ((List.range 16).map fun b => s.wantPoint b)[b]? = some (s.wantPoint b) := by simp [hb]
  change (((s.fw.basins.toList.zip ((List.range 16).map fun b => s.wantPoint b)).foldl bringNext (s.fw.basins, 0)).1).toList[b]? = _
  rw [foldl_bringNext _ _ _ _ (by simp), if_pos (by simp; exact hb), Nat.sub_zero, (List.getElem?_zip_eq_some (z := (x, s.wantPoint b))).2 ⟨hx, hw⟩]
  rfl

/-- Bringing basins to their points changes the basins alone. -/
theorem applyPoints_eq (s : State) : ∃ bs, s.applyPoints = s.modFw fun w => { w with basins := bs } := ⟨_, rfl⟩

/-- The point at which a listed basin should run. -/
theorem wantPoint_eq {s : State} {b : Nat} {x : Basin} (hx : s.fw.basins.toList[b]? = some x) :
    s.wantPoint b = max (max (max x.power x.module) (max x.warm x.hot)) (max (s.capOf b) (if x.boost then 0 else s.fw.basePoint)) := by
  rw [State.wantPoint, hx]

/-- A basin after a change of it. -/
theorem basin_modBasin {s : State} {b : Nat} {x : Basin} (f : Basin → Basin) (hx : s.fw.basins.toList[b]? = some x) :
    (s.modBasin b f).fw.basins.toList[b]? = some (f x) := by
  have hb := basin_lt hx
  have hv : s.fw.basins[b] = x := by simpa [hb] using hx
  simp [State.modBasin, hb, hv]

/-! ## Points go up again -/

section
variable {s : State} {b : Nat} {x : Basin} (hx : s.fw.basins.toList[b]? = some x)
include hx

/-- A change of one basin that may move its point. -/
theorem modBasin_applyPoints (f : Basin → Basin) :
    ∃ w, (s.modBasin b f).applyPoints.fw.basins.toList[b]? = some (Basin.moveTo (f x) w) :=
  ⟨_, basin_applyPoints (basin_modBasin f hx)⟩

/-- After 100 calm samples of its rail a basin that its power holds down goes up. -/
theorem execPowerStepUp_power (hp : 0 < x.power) (hc : 100 ≤ x.calmP) : ∃ u x', exec (.powerStepUp (some b)) s = .next u ∧
    u.fw.basins.toList[b]? = some x' ∧ x'.power = x.power - 1 ∧ x'.calmP = 0 := by
  obtain ⟨w, hw⟩ := modBasin_applyPoints hx fun b => { b with power := b.power - 1, calmP := 0 }
  refine ⟨_, _, ?_, hw, rfl, rfl⟩
  change execPowerStepUp (some b) s = _
  simp only [execPowerStepUp, hx, hp, hc, if_true]

/-- A basin that nothing holds down is granted boost. -/
theorem execPowerStepUp_boost (hp : x.power = 0) (hr : s.fw.ready = true) (hm : x.lastMw < 68000) (ht : x.lastTemp < 900) (hb : x.boost = false) :
    ∃ u x', exec (.powerStepUp (some b)) s = .next u ∧ u.fw.basins.toList[b]? = some x' ∧ x'.boost = true := by
  obtain ⟨w, hw⟩ := modBasin_applyPoints hx fun b => { b with boost := true }
  refine ⟨_, _, ?_, hw, rfl⟩
  change execPowerStepUp (some b) s = _
  simp [execPowerStepUp, hx, hp, hr, hm, ht, hb]

/-- After 100 calm samples of the input every basin that it holds down goes up. -/
theorem execPowerStepUp_module (hc : 100 ≤ s.fw.calmM) : ∃ u x', exec (.powerStepUp none) s = .next u ∧ u.fw.basins.toList[b]? = some x' ∧
    x'.module = stepUpTo x.moduleFrom x.module := by
  let v := s.modFw fun w => { w with calmM := 0, basins := w.basins.map fun (b : Basin) => { b with module := stepUpTo b.moduleFrom b.module } }
  have hv : v.fw.basins.toList[b]? = some { x with module := stepUpTo x.moduleFrom x.module } := by
    change (s.fw.basins.map _).toList[b]? = _
    rw [Vector.toList_map, List.getElem?_map, hx]
    rfl
  refine ⟨v.applyPoints, _, ?_, basin_applyPoints hv, rfl⟩
  change execPowerStepUp none s = _
  rw [execPowerStepUp, if_neg (Nat.not_lt.2 hc)]

/-- After 100 cool samples a basin that heat holds down goes up. -/
theorem execThermalStepUp_warm (hc : 100 ≤ x.calmT) : ∃ u x', exec (.thermalStepUp b) s = .next u ∧ u.fw.basins.toList[b]? = some x' ∧
    x'.warm = x.warm - 1 ∧ x'.hot = (if 100 ≤ s.fw.calmH then stepUpTo x.hotFrom x.hot else x.hot) := by
  obtain ⟨w, hw⟩ := modBasin_applyPoints hx fun b => { b with
    calmT := 0, warm := b.warm - 1, hot := if 100 ≤ s.fw.calmH then stepUpTo b.hotFrom b.hot else b.hot }
  refine ⟨_, _, ?_, hw, rfl, rfl⟩
  change execThermalStepUp b s = _
  simp only [execThermalStepUp, hx, if_neg (Nat.not_lt.2 hc)]
end
end Sys2Proof.Claims
end

section
/-! PROOFS. A sample of the rails and the sensors (R12, R13, R16). -/
namespace Sys2Proof.Claims
open Sys2Proof.Machine

/-! ## Rail faults -/

/-- Samples in a row that a rail has been outside its window. -/
theorem tblGetD_railsOut (s : State) (m : PowerSample) {n : Nat} (hn : n < 39) : tblGetD (s.railsOut m) n 0 =
    if s.railUp n = true ∧ railOutside m n = true then tblGetD s.fw.railOut n 0 + 1 else 0 := by
  rw [State.railsOut, tblGetD, tblGet?_filterMap_keys (fun n => s.railUp n && railOutside m n) fun n => tblGetD s.fw.railOut n 0 + 1]
  simp only [List.mem_range, hn, true_and, Bool.and_eq_true]
  split <;> rfl

/-- What a sample says of one rail: its fault. -/
def railVerdict (s : State) (m : PowerSample) (n : Nat) : Option (Nat × Nat) :=
  if 4 ≤ tblGetD (s.railsOut m) n 0 then some (1, n) else if s.railUp n && railOver m n then some (2, n) else none

/-- The rail fault of a sample is the first of its rails'. -/
theorem railFault_eq (s : State) (m : PowerSample) : s.railFault m = (List.range 39).findSome? (railVerdict s m) := rfl

/-- A fault of one rail is a fault of the sample. -/
theorem railFault_ne_none {s : State} {m : PowerSample} {n : Nat} (hn : n < 39) (h : railVerdict s m n ≠ none) : s.railFault m ≠ none := by
  rw [railFault_eq, ne_eq, List.findSome?_eq_none_iff]
  exact fun hall => h (hall n (List.mem_range.2 hn))

/-- A compute rail is up with the rails. -/
theorem railUp_compute (s : State) {n : Nat} (hn : n < 16) : s.railUp n = s.fw.railsOn := by
  rw [State.railUp, if_neg (by omega)]

/-- A compute rail outside its window for the fourth sample in a row is a fault. -/
theorem railFault_outside {s : State} {m : PowerSample} {n : Nat} (hn : n < 16) (hr : s.fw.railsOn = true)
    (ho : (railRead m n).uv < 600000 ∨ 900000 < (railRead m n).uv) (h3 : 3 ≤ tblGetD s.fw.railOut n 0) : s.railFault m ≠ none := by
  have hout : railOutside m n = true := by
    simp only [railOutside, if_neg (show n ≠ 37 by omega), railWindow, if_pos hn, Bool.or_eq_true, decide_eq_true_eq]
    exact ho
  refine railFault_ne_none (n := n) (by omega) ?_
  rw [railVerdict, tblGetD_railsOut s m (by omega), railUp_compute s hn, if_pos (by rw [if_pos ⟨hr, hout⟩]; omega)]
  simp

/-- A compute rail over its current limit is a fault. -/
theorem railFault_over {s : State} {m : PowerSample} {n : Nat} (hn : n < 16) (hr : s.fw.railsOn = true) (ho : 150000 < (railRead m n).ma) :
    s.railFault m ≠ none := by
  refine railFault_ne_none (n := n) (by omega) ?_
  rw [railVerdict, railUp_compute s hn, hr, railOver, if_pos hn]
  split
  · simp
  · simp [ho]

/-- Rails within their windows and limits are no fault. -/
theorem railFault_none {s : State} {m : PowerSample} (h : ∀ n, n < 39 → railOutside m n = false ∧ railOver m n = false) : s.railFault m = none := by
  rw [railFault_eq, List.findSome?_eq_none_iff]
  intro n hn
  obtain ⟨hout, hover⟩ := h n (List.mem_range.1 hn)
  rw [railVerdict, tblGetD_railsOut s m (List.mem_range.1 hn)]
  simp [hout, hover]

/-- A rail fault is of class 1 or 2. -/
theorem railFault_class {s : State} {m : PowerSample} {v r : Nat} (h : s.railFault m = some (v, r)) : v = 1 ∨ v = 2 := by
  rw [railFault_eq] at h
  obtain ⟨n, -, hn⟩ := List.exists_of_findSome?_eq_some h
  unfold railVerdict at hn
  split at hn
  · cases hn; exact .inl rfl
  · split at hn <;> cases hn
    exact .inr rfl

/-! ## What a sample does -/

/-- The highest sensor of a sample. -/
def PowerSample.high (m : PowerSample) : Nat := highest (m.dales ++ m.caches ++ m.ios)

/-- Samples in a row over the input's limit with every basin at its lowest point, with this one. -/
def overFaultOf (s : State) (m : PowerSample) : Nat :=
  if 2000000 < m.input && (s.fw.basins.toList.all fun b => b.point = 4) then s.fw.overFault + 1 else 0

/-- Samples in a row over the input's limit, with this one. -/
def overInputOf (s : State) (m : PowerSample) : Nat := if 2000000 < m.input then s.fw.overInput + 1 else 0

/-- Samples in a row with every sensor below 95 °C, with this one. -/
def calmHOf (s : State) (m : PowerSample) : Nat := if PowerSample.high m < 950 then s.fw.calmH + 1 else 0

/-- A basin as a sample leaves it, before it is brought to its point. -/
def sampledBasin (s : State) (m : PowerSample) (b : Nat) (x : Basin) : Basin :=
  x.sampled (railMw m b) (basinTemp m b) (3 ≤ overInputOf s m) (1100 ≤ PowerSample.high m) (calmHOf s m = 100)

/-- Firmware's state as a sample without a fault leaves it, before the basins are brought to their points. -/
def sampledState (s : State) (m : PowerSample) : State :=
  s.modFw fun w => { w with
    overInput := if 3 ≤ overInputOf s m then 0 else overInputOf s m, overFault := overFaultOf s m,
    calmM := if m.input < 1800000 then w.calmM + 1 else 0, calmH := calmHOf s m, railOut := s.railsOut m, lastHigh := PowerSample.high m,
    thermalLog := if 1100 ≤ PowerSample.high m && w.lastHigh < 1100 then w.thermalLog ++ [(s.time, PowerSample.high m)] else w.thermalLog,
    basins := Vector.ofFn fun i => sampledBasin s m i.val w.basins[i] }

/-- A sample with a rail fault. -/
theorem execPowerSample_fault {s : State} {m : PowerSample} {cls rail : Nat} (hi : s.fw.inputGood = true) (hs : s.fw.shutdown = false)
    (hf : s.railFault m = some (cls, rail)) : exec (.powerSample m) s = .next (s.railReset cls rail) := by
  change execPowerSample m s = _
  simp only [execPowerSample, hi, hs, hf, Bool.not_true, Bool.or_self, Bool.false_eq_true, if_false]

/-- A sample without a rail fault. -/
theorem execPowerSample_sound {s : State} {m : PowerSample} (hi : s.fw.inputGood = true) (hs : s.fw.shutdown = false) (hf : s.railFault m = none) :
    exec (.powerSample m) s = .next (if 1150 ≤ PowerSample.high m then s.shutDown 4 else if 100 ≤ overFaultOf s m then s.railReset 3 0xFF
      else (sampledState s m).applyPoints) := by
  change execPowerSample m s = _
  unfold execPowerSample
  extract_lets w
  rw [if_neg (by simp [w, hi, hs]), hf, apply_ite Host.Outcome.next, apply_ite Host.Outcome.next]
  rfl

/-- The input is over its limit with every basin at its lowest point for 100 samples in a row. -/
theorem overFaultOf_limit (s : State) (m : PowerSample) : 100 ≤ overFaultOf s m ↔
    2000000 < m.input ∧ (∀ b ∈ s.fw.basins.toList, b.point = 4) ∧ 99 ≤ s.fw.overFault := by
  unfold overFaultOf
  split
  next h =>
    simp only [Bool.and_eq_true, decide_eq_true_eq, List.all_eq_true] at h
    exact ⟨fun _ => ⟨h.1, h.2, by omega⟩, fun _ => by omega⟩
  next h =>
    simp only [Bool.and_eq_true, decide_eq_true_eq, List.all_eq_true, not_and] at h
    exact ⟨fun _ => by omega, fun ⟨hi, hl, _⟩ => absurd hl (h hi)⟩

/-- A basin after a sample without a fault. -/
theorem basin_sampledState {s : State} (m : PowerSample) {b : Nat} {x : Basin} (hx : s.fw.basins.toList[b]? = some x) :
    (sampledState s m).fw.basins.toList[b]? = some (sampledBasin s m b x) := by
  have hb := basin_lt hx
  have hv : s.fw.basins[b] = x := by simpa [hb] using hx
  change (Vector.ofFn fun i => sampledBasin s m i.val s.fw.basins[i]).toList[b]? = _
  simp [hb, hv]

/-- The input has been over its limit for three samples in a row. -/
theorem overInputOf_limit (s : State) (m : PowerSample) : 3 ≤ overInputOf s m ↔ 2000000 < m.input ∧ 2 ≤ s.fw.overInput := by
  unfold overInputOf
  split <;> omega

/-- What a sample without a fault does to a basin. -/
theorem basin_powerSample {s : State} (m : PowerSample) {b : Nat} {x : Basin} (hx : s.fw.basins.toList[b]? = some x) :
    ∃ x', (sampledState s m).applyPoints.fw.basins.toList[b]? = some x' ∧
      x'.power = (if 80000 < railMw m b then min 4 (x.point + 1) else x.power) ∧
      x'.module = (if 2000000 < m.input ∧ 2 ≤ s.fw.overInput ∧ x.point < 4 then x.point + 1 else x.module) ∧
      x'.warm = (if 1000 ≤ basinTemp m b then min 4 (x.point + 1) else x.warm) ∧ x'.hot = (if 1100 ≤ PowerSample.high m then 4 else x.hot) ∧
      (x'.boost = true → x.boost = true ∧ railMw m b < 68000 ∧ basinTemp m b < 900) ∧
      x'.point = max (max (max x'.power x'.module) (max x'.warm x'.hot)) (max (s.capOf b) (if x'.boost then 0 else s.fw.basePoint)) ∧
      (x'.point ≠ x.point → x'.changing = true) := by
  have hu := basin_sampledState m hx
  have hcap : (sampledState s m).capOf b = s.capOf b := by
    unfold State.capOf
    rw [hu, hx]
    rfl
  refine ⟨_, basin_applyPoints hu, rfl, ?_, rfl, ?_, ?_, ?_, ?_⟩
  · change (if (decide (3 ≤ overInputOf s m) && decide (x.point < 4)) = true then x.lower else x.module) = _
    simp only [Bool.and_eq_true, decide_eq_true_eq, overInputOf_limit, and_assoc, Basin.lower]
    split
    · omega
    · rfl
  · change (if decide (1100 ≤ PowerSample.high m) = true then 4 else x.hot) = _
    simp only [decide_eq_true_eq]
  · change ((x.boost && decide (railMw m b < 68000)) && decide (basinTemp m b < 900)) = true → _
    simp only [Bool.and_eq_true, decide_eq_true_eq, and_assoc, imp_self]
  · rw [moveTo_point, wantPoint_eq hu, hcap]
    rfl
  · exact moveTo_changing (sampledBasin s m b x) _

/-- A sample without a fault that is neither too hot nor over the input's limit for too long. -/
theorem execPowerSample_calm {s : State} {m : PowerSample} (hi : s.fw.inputGood = true) (hs : s.fw.shutdown = false) (hf : s.railFault m = none)
    (hh : PowerSample.high m < 1150) (ho : m.input ≤ 2000000 ∨ (¬ ∀ b ∈ s.fw.basins.toList, b.point = 4) ∨ s.fw.overFault < 99) :
    exec (.powerSample m) s = .next (sampledState s m).applyPoints := by
  have ho' : ¬ 100 ≤ overFaultOf s m := by
    rw [overFaultOf_limit]
    rintro ⟨h1, h2, h3⟩
    rcases ho with h | h | h
    · omega
    · exact h h2
    · omega
  rw [execPowerSample_sound hi hs hf, if_neg (Nat.not_le.2 hh), if_neg ho']

/-- The input is over its limit with every basin at its lowest point for too long. -/
theorem execPowerSample_overload {s : State} {m : PowerSample} (hi : s.fw.inputGood = true) (hs : s.fw.shutdown = false) (hf : s.railFault m = none)
    (hh : PowerSample.high m < 1150) (hin : 2000000 < m.input) (hl : ∀ b ∈ s.fw.basins.toList, b.point = 4) (ho : 99 ≤ s.fw.overFault) :
    exec (.powerSample m) s = .next (s.railReset 3 0xFF) := by
  rw [execPowerSample_sound hi hs hf, if_neg (Nat.not_le.2 hh), if_pos ((overFaultOf_limit s m).2 ⟨hin, hl, ho⟩)]

/-- What a sample without a fault changes of the state, and what it counts and logs. -/
theorem sampledState_frame (s : State) (m : PowerSample) (u : State) (h : u = (sampledState s m).applyPoints) :
    u = { s with fw := { s.fw with
      basins := u.fw.basins, overInput := u.fw.overInput, overFault := u.fw.overFault, calmM := u.fw.calmM, calmH := u.fw.calmH, railOut := u.fw.railOut,
      lastHigh := PowerSample.high m, thermalLog := u.fw.thermalLog } } ∧
    u.fw.calmM = (if m.input < 1800000 then s.fw.calmM + 1 else 0) ∧
    u.fw.thermalLog =
      if 1100 ≤ PowerSample.high m ∧ s.fw.lastHigh < 1100 then s.fw.thermalLog ++ [(s.time, PowerSample.high m)] else s.fw.thermalLog := by
  obtain ⟨bs, hb⟩ := applyPoints_eq (sampledState s m)
  rw [hb] at h
  subst h
  refine ⟨rfl, rfl, ?_⟩
  simp only [State.modFw_fw, sampledState, Bool.and_eq_true, decide_eq_true_eq]
end Sys2Proof.Claims
end

section
/-! PROOFS. The end of a change of a clock point (R14): halt requests that were held proceed. -/
namespace Sys2Proof.Claims
open Sys2Proof.Machine

/-- An entry of a table in its canonical form is read back. -/
theorem tblGet?_of_mem {α : Type} {t : Tbl α} (h : tblWf t = true) {e : Nat × α} (he : e ∈ t) : tblGet? t e.1 = some e.2 := by
  rw [tblWf_iff_pairwise] at h
  induction t with
  | nil => cases he
  | cons a t ih =>
    obtain ⟨hlt, ht⟩ := List.pairwise_cons.1 h
    rcases List.mem_cons.1 he with rfl | he
    · exact if_pos rfl
    · rw [tblGet?, if_neg (Nat.ne_of_gt (hlt e he)), ih ht he]

/-! ## What sending leaves of the cores -/

/-- Sending requests changes no more of a core than what it counts for the watershed. -/
structure AskKeeps (s u : State) : Prop where
  fw : u.fw = s.fw
  stopLag : u.stopLag = s.stopLag
  core : ∀ p, ∃ n m, u.core p = { s.core p with sent := n, minSent := m }

theorem AskKeeps.of_eq {s u : State} (hf : u.fw = s.fw) (hl : u.stopLag = s.stopLag) (hc : u.cores = s.cores) : AskKeeps s u :=
  ⟨hf, hl, fun p => ⟨_, _, by unfold State.core; rw [hc]⟩⟩

theorem AskKeeps.trans {s u v : State} (h : AskKeeps s u) (k : AskKeeps u v) : AskKeeps s v :=
  ⟨k.fw.trans h.fw, k.stopLag.trans h.stopLag, fun p => by
    obtain ⟨_, _, hc⟩ := h.core p
    obtain ⟨n, m, kc⟩ := k.core p
    exact ⟨n, m, by rw [kc, hc]⟩⟩

/-- The watershed's count. -/
theorem AskKeeps.countSent (s : State) (n : Nat) (vt : BitVec 32) : AskKeeps s (s.countSent n vt) := by
  unfold State.countSent
  split
  · refine ⟨rfl, rfl, fun p => ?_⟩
    by_cases h : p = n
    · rw [h, State.core_modCore_same]; exact ⟨_, _, rfl⟩
    · rw [State.core_modCore_other _ _ _ _ h]; exact ⟨_, _, rfl⟩
  · exact .of_eq rfl rfl rfl

/-- An injection. -/
theorem AskKeeps.inject (s : State) (k : Packet) (first : Bool) : AskKeeps s (s.inject k first) := by
  unfold State.inject
  extract_lets k' u
  refine AskKeeps.trans (u := u) ?_ (.of_eq rfl rfl rfl)
  unfold u
  split
  · exact .countSent s _ _
  · exact .of_eq rfl rfl rfl

/-- A request. -/
theorem AskKeeps.ask (s : State) (src : Nat) (a : Ask) : AskKeeps s (s.ask src a) := by
  unfold State.ask
  extract_lets nd ns seq nd' parked r w u
  have hu : AskKeeps s u := .of_eq rfl rfl rfl
  split
  · exact hu
  · exact hu.trans (.inject _ _ _)

/-- A flush of a dale's reductions. -/
theorem AskKeeps.flushDale (s : State) (d : Nat) (f : DruEntry → Bool) : AskKeeps s (s.flushDale d f).1 := by
  unfold State.flushDale
  dsimp only
  generalize List.filter _ (List.map _ _) = l
  induction l generalizing s with
  | nil => exact .of_eq rfl rfl rfl
  | cons e l ih =>
    rw [List.foldl_cons]
    refine AskKeeps.trans ?_ (ih _)
    refine AskKeeps.trans ?_ (.ask _ _ _)
    exact .of_eq rfl rfl rfl

/-! ## Halts of several cores -/

/-- A core at which a halt takes no time. -/
def HaltReady (s : State) (p : Nat) : Prop := s.changing p = false ∧ ∀ g ∈ (s.core p).groups, g.lag = none

/-- What halts of some cores do: those that ran hold their threads, and the others stay. -/
structure HaltsAll (s u : State) (ps : List Nat) : Prop where
  fw : u.fw = s.fw
  stopLag : u.stopLag = s.stopLag
  groups : ∀ p, (u.core p).groups = (s.core p).groups
  stays : ∀ p, p ∉ ps ∨ (s.core p).halted = true → (u.core p).threads = (s.core p).threads ∧ (u.core p).halted = (s.core p).halted
  halts : ∀ p ∈ ps, (s.core p).halted = false → (u.core p).halted = true ∧ AllHeld u p

/-- Abandoning waits leaves the groups. -/
theorem foldl_dropWaits_groups (l : List (Nat × Thread)) (c : Core) : (l.foldl (fun c st => c.dropWaits st.1) c).groups = c.groups := by
  induction l generalizing c with
  | nil => rfl
  | cons x l ih => exact ih _

/-- The halt of one core. -/
theorem haltNow_halts_all {s : State} {p : Nat} (h : ∀ g ∈ (s.core p).groups, g.lag = none) (hr : (s.core p).halted = false) :
    HaltsAll s (s.haltNow p) [p] := by
  have hg : ((s.core p).groups.filter fun g => g.lag.isSome && g.dying.isNone) = [] :=
    List.filter_eq_nil_iff.2 fun g hg => by simp [h g hg]
  have hh := haltNow_halts s p h
  have hk := AskKeeps.flushDale s (daleOf p) fun _ => true
  unfold State.haltNow at hh ⊢
  rw [hg, List.foldl_nil] at hh ⊢
  dsimp only at hh ⊢
  generalize (s.flushDale (daleOf p) fun _ => true).1 = v at hh hk
  obtain ⟨-, hhalt, hheld, -, -⟩ := hh
  refine ⟨hk.fw, hk.stopLag, fun q => ?_, fun q hq => ?_, fun q hq _ => ?_⟩
  · obtain ⟨_, _, hc⟩ := hk.core q
    by_cases e : q = p
    · subst e
      simp only [State.core_modCore_same, Core.mapThreads, Core.leaveHeads, foldl_dropWaits_groups, hc]
    · rw [State.core_modCore_other _ _ _ _ e, hc]
  · have e : q ≠ p := by
      rintro rfl
      rcases hq with hq | hq
      · exact hq (List.mem_singleton.2 rfl)
      · rw [hr] at hq; cases hq
    obtain ⟨_, _, hc⟩ := hk.core q
    rw [State.core_modCore_other _ _ _ _ e, hc]
    exact ⟨rfl, rfl⟩
  · rw [List.mem_singleton.1 hq]
    exact ⟨hhalt, hheld⟩

/-- A halt request at a core where it takes no time. -/
theorem haltCore_halts_all {s : State} {p : Nat} (hl : s.stopLag = 0) (h : HaltReady s p) : HaltsAll s (s.haltCore p) [p] := by
  cases hr : (s.core p).halted
  · have e : s.haltCore p = s.haltNow p := by simp [State.haltCore, hr, h.1, hl]
    rw [e]
    exact haltNow_halts_all h.2 hr
  · have e : s.haltCore p = s := by simp [State.haltCore, hr]
    rw [e]
    refine ⟨rfl, rfl, fun _ => rfl, fun _ _ => ⟨rfl, rfl⟩, fun q hq hf => ?_⟩
    rw [List.mem_singleton.1 hq, hr] at hf
    cases hf

/-- One halt after another. -/
theorem HaltsAll.cons {s u v : State} {p : Nat} {ps : List Nat} (h : HaltsAll s u [p]) (k : HaltsAll u v ps) : HaltsAll s v (p :: ps) := by
  have held : ∀ q, (u.core q).halted = true → AllHeld u q → (v.core q).halted = true ∧ AllHeld v q := fun q hq ha => by
    obtain ⟨ht, hv⟩ := k.stays q (.inr hq)
    exact ⟨hv.trans hq, fun j t hj => ha j t (by rw [State.thread?, ← ht]; exact hj)⟩
  refine ⟨k.fw.trans h.fw, k.stopLag.trans h.stopLag, fun q => (k.groups q).trans (h.groups q), fun q hq => ?_, fun q hq hr => ?_⟩
  · have hsu : q ∉ [p] ∨ (s.core q).halted = true := hq.imp_left fun hn => by simp at hn ⊢; exact hn.1
    obtain ⟨ht, hu⟩ := h.stays q hsu
    obtain ⟨kt, ku⟩ := k.stays q (by rw [hu]; exact hq.imp_left fun hn => by simp at hn; exact hn.2)
    exact ⟨kt.trans ht, ku.trans hu⟩
  · by_cases e : q = p
    · obtain ⟨hu, ha⟩ := h.halts q (by simp [e]) hr
      exact held q hu ha
    · obtain ⟨-, hu⟩ := h.stays q (.inl (by simp [e]))
      exact k.halts q (by simpa [e] using hq) (hu.trans hr)

/-- Halt requests at several cores where they take no time. -/
theorem foldl_haltCore {s : State} (ps : List Nat) (hl : s.stopLag = 0) (h : ∀ p ∈ ps, HaltReady s p) : HaltsAll s (ps.foldl State.haltCore s) ps := by
  induction ps generalizing s with
  | nil => exact ⟨rfl, rfl, fun _ => rfl, fun _ _ => ⟨rfl, rfl⟩, fun _ hp => absurd hp List.not_mem_nil⟩
  | cons p ps ih =>
    have hp := haltCore_halts_all hl (h p List.mem_cons_self)
    refine hp.cons (ih (hp.stopLag.trans hl) fun q hq => ?_)
    obtain ⟨hc, hg⟩ := h q (List.mem_cons_of_mem _ hq)
    refine ⟨?_, by rw [hp.groups]; exact hg⟩
    unfold State.changing
    rw [hp.fw]
    exact hc

/-! ## The end of the change -/

/-- The cores of a basin that hold a halt request. -/
def heldHalts (s : State) (b : Nat) : List Nat := (s.cores.filter fun e => basinOf e.1 == b && e.2.haltHeld).map (·.1)

/-- Where no core traces, the end of a change lets the held halt requests proceed. -/
theorem execClockPointChangeEnd_eq {s : State} {b : Nat} {x : Basin} (hx : s.fw.basins.toList[b]? = some x) (hch : x.changing = true)
    (ht : ∀ e ∈ s.cores, e.2.trcctl.getLsbD 0 = false) :
    exec (.clockPointChangeEnd b) s = .next ((heldHalts s b).foldl State.haltCore (s.modBasin b fun b => { b with changing := false })) := by
  change execClockPointChangeEnd b s = _
  simp only [execClockPointChangeEnd, hx, hch, Bool.not_true, Bool.false_eq_true, if_false]
  have hc : (s.modBasin b fun b => { b with changing := false }).cores = s.cores := rfl
  rw [hc, heldHalts, List.foldl_map, List.foldl_filter, List.foldl_filter]
  congr 1
  refine List.foldl_ext _ _ _ fun v e he => ?_
  simp only [ht e he, Bool.false_eq_true, if_false, Bool.and_eq_true]
  by_cases hb : (basinOf e.1 == b) = true
  · simp only [hb, true_and, if_true]
  · simp [hb]

/-- The end of a change of a clock point: the basin issues again, and halt requests that its cores held proceed. -/
theorem execClockPointChangeEnd_halts {s : State} {b : Nat} {x : Basin} (hx : s.fw.basins.toList[b]? = some x) (hch : x.changing = true)
    (hl : s.stopLag = 0) (hw : tblWf s.cores = true) (hs : ∀ e ∈ s.cores, e.2.trcctl.getLsbD 0 = false ∧ ∀ g ∈ e.2.groups, g.lag = none) :
    ∃ u x', exec (.clockPointChangeEnd b) s = .next u ∧ u.fw.basins.toList[b]? = some x' ∧ x' = { x with changing := false } ∧
      (∀ p c, tblGet? s.cores p = some c → basinOf p = b → c.haltHeld = true → c.halted = false → (u.core p).halted = true ∧ AllHeld u p) ∧
      ∀ p, basinOf p = b → (s.core p).haltHeld = false → (u.core p).threads = (s.core p).threads := by
  let v := s.modBasin b fun b => { b with changing := false }
  have hvb : v.fw.basins.toList[b]? = some { x with changing := false } := basin_modBasin _ hx
  have hmem : ∀ p, p ∈ heldHalts s b ↔ ∃ c, (p, c) ∈ s.cores ∧ basinOf p = b ∧ c.haltHeld = true := fun p => by simp [heldHalts]
  have hread : ∀ p c, (p, c) ∈ s.cores → s.core p = c := fun p c hc => by
    rw [State.core, tblGetD, tblGet?_of_mem hw hc]; rfl
  have hready : ∀ p ∈ heldHalts s b, HaltReady v p := fun p hp => by
    obtain ⟨c, hc, hb, -⟩ := (hmem p).1 hp
    refine ⟨?_, ?_⟩
    · rw [State.changing, hb, hvb]; rfl
    · change ∀ g ∈ (s.core p).groups, g.lag = none
      rw [hread p c hc]
      exact (hs _ hc).2
  have hall := foldl_haltCore (heldHalts s b) (s := v) hl hready
  refine ⟨_, _, execClockPointChangeEnd_eq hx hch fun e he => (hs e he).1, by rw [hall.fw]; exact hvb, rfl, fun p c hc hb hh hr => ?_,
    fun p hb hh => ?_⟩
  · have hm := mem_of_tblGet? hc
    exact hall.halts p ((hmem p).2 ⟨c, hm, hb, hh⟩) (by change (s.core p).halted = false; rw [hread p c hm]; exact hr)
  · refine (hall.stays p (.inl fun hp => ?_)).1
    obtain ⟨c, hc, -, hh'⟩ := (hmem p).1 hp
    rw [hread p c hc, hh'] at hh
    cases hh
end Sys2Proof.Claims
end

section
namespace Sys2Proof
open Sys2Proof.Machine Sys2Proof.Claims

/-- Settles O48, clause by clause: each reset, step, sample and step-up has its lemma, and the RESET command runs in the state in which it has begun. -/
theorem resetsAndPowerSteps : Obligations.ResetsAndPowerSteps := by
  refine ⟨execPowerGood_begins, execInputPowerLoss_begins, execMrstnPulse_begins, execCoolantFlowLoss_begins, fun s hi hs hf hr => ?_,
    execDevctlWarmWrite_begins, fun s q i e h => ⟨execResetWarm_begins h, execResetWithImage_begins h, execResetWithPatch_begins h⟩,
    fun s m hi hs => ?_, fun s b x hx => ?_⟩
  · have h : Resetting s := ⟨hi, hs, hf, hr⟩
    exact ⟨execResetStepComplete_early h, execResetStepComplete_last h, execResetStepOverrun_fails h⟩
  · refine ⟨fun n => railFault_outside, fun n => railFault_over, railFault_none, fun v r h => ?_, fun h hh => ?_, fun h hh hin hl ho => ?_,
      fun h hh ho => ?_⟩
    · exact ⟨_, execPowerSample_fault hi hs h, railReset_begins _ _ _, rfl, rfl, railFault_class h⟩
    · exact ⟨_, (execPowerSample_sound hi hs h).trans (congrArg _ (if_pos hh)), shutDown_begins _ _, rfl, rfl⟩
    · exact ⟨_, execPowerSample_overload hi hs h hh hin hl ho, railReset_begins _ _ _, rfl⟩
    · obtain ⟨hframe, hcalm, hlog⟩ := sampledState_frame s m _ rfl
      exact ⟨_, execPowerSample_calm hi hs h hh ho, hframe, hcalm, hlog, fun b x => basin_powerSample m⟩
  · exact ⟨execPowerStepUp_power hx, execPowerStepUp_boost hx, execPowerStepUp_module hx, execThermalStepUp_warm hx, execClockPointChangeEnd_halts hx⟩
end Sys2Proof
end

section
/-! PROOFS. What the media ports' operations leave of firmware's state, and the record of a frame (R95 to R98). -/
namespace Sys2Proof.Claims
open Sys2Proof.Machine

/-! ## Streams -/

/-- Counting in a stream adds one to one counter. -/
theorem count_stats (m : Stream) (k j : Nat) : (m.count k).stats[j]? = if j = k then (m.stats[j]?).map (· + 1) else m.stats[j]? := by
  rw [Stream.count, List.getElem?_modify]
  by_cases h : j = k
  · simp [h]
  · simp [h, Ne.symm h]

/-- A stream that was put is read back. -/
theorem setStream_get_same (s : State) (i : Nat) (m : Stream) : tblGet? (s.setStream i m).fw.streams i = some m := tblGet?_tblSet_same _ _ _

/-- Another stream stays. -/
theorem setStream_get_other (s : State) (i j : Nat) (m : Stream) (h : j ≠ i) : tblGet? (s.setStream i m).fw.streams j = tblGet? s.fw.streams j :=
  tblGet?_tblSet_other _ _ _ _ h

/-- Putting the only stream as it stands changes nothing. -/
theorem setStream_self {s : State} {i : Nat} {m : Stream} (h : s.fw.streams = [(i, m)]) : s.setStream i m = s := by
  have ht : tblSet s.fw.streams i m = s.fw.streams := by rw [h]; simp [tblSet]
  change ({ s with fw := { s.fw with streams := tblSet s.fw.streams i m } } : State) = s
  rw [ht]

/-- Work in the background leaves the streams. -/
theorem FirmKeeps.streams {s u : State} (h : FirmKeeps s u) : u.fw.streams = s.fw.streams := h.field (·.streams)

/-- Work in the background leaves the map of logical cores. -/
theorem FirmKeeps.logical {s u : State} (h : FirmKeeps s u) : u.fw.logical = s.fw.logical := h.field (·.logical)

/-- A store of firmware. -/
theorem FirmKeeps.fwStore (s : State) (a : Word) (bs : List Byte) : FirmKeeps s (s.fwStore a bs) := (QueueWork.fwStore s a bs).toFirmKeeps

/-- The records of a frame to its waiters. -/
theorem FirmKeeps.sendFrameRecord (s : State) (i : Nat) (m : Stream) (vt : BitVec 32) (flags buf lines : Nat) :
    FirmKeeps s (s.sendFrameRecord i m vt flags buf lines) := by
  unfold State.sendFrameRecord
  extract_lets r n
  refine .foldl (fun s p => ?_) _ s
  refine FirmKeeps.trans ?_ (.sendRecord _ _ _ _ _)
  exact .of_eq rfl rfl

/-! ## Frames -/

/-- A stream when one of its frames has closed. -/
def closedStream (m : Stream) (f : Frame) : Stream :=
  { m.count (if f.times.length < m.height then 5 else 4) with
    frames := m.frames.filter fun x => x.idx != f.idx, closed := (f.idx, some f.buf) :: m.closed }

/-- Closing a frame: its header and times are stored, the stream is put, and the records go out. -/
theorem closeFrame_sends (s : State) (i : Nat) (m : Stream) (f : Frame) (early : Bool) : ∃ v, FirmKeeps s v ∧
    s.closeFrame i m f early = (v.setStream i (closedStream m f)).sendFrameRecord i (closedStream m f) (m.vt f.idx)
      ((if f.times.length < m.height then 1 else 0) + (if f.stalled then 2 else 0) + (if early then 8 else 0)) f.buf f.times.length := by
  refine ⟨_, ?_, rfl⟩
  exact (((FirmKeeps.fwStore _ _ _).trans (.fwStore _ _ _)).trans (.fwStore _ _ _)).trans (.fwStore _ _ _)

/-- The streams after a frame has closed. -/
theorem closeFrame_streams (s : State) (i : Nat) (m : Stream) (f : Frame) (early : Bool) :
    (s.closeFrame i m f early).fw.streams = tblSet s.fw.streams i (closedStream m f) := by
  obtain ⟨v, hv, e⟩ := closeFrame_sends s i m f early
  rw [e, (FirmKeeps.sendFrameRecord _ _ _ _ _ _ _).streams, ← hv.streams]
  rfl

/-! ## The record of a frame (R97) -/

/-- Bits above the lower part of a concatenation. -/
theorem extract_append_high {n m : Nat} (x : BitVec n) (y : BitVec m) (k w : Nat) : (x ++ y).extractLsb' (m + k) w = x.extractLsb' k w := by
  refine BitVec.eq_of_getLsbD_eq fun j hj => ?_
  simp only [BitVec.getLsbD_extractLsb', BitVec.getLsbD_append, hj, decide_true, Bool.true_and]
  rw [if_neg (by omega), Nat.add_assoc, Nat.add_sub_cancel_left]

/-- The lower part of a concatenation. -/
theorem extract_append_low {n m : Nat} (x : BitVec n) (y : BitVec m) : (x ++ y).extractLsb' 0 m = y := by
  refine BitVec.eq_of_getLsbD_eq fun j hj => ?_
  simp [BitVec.getLsbD_append, hj]

/-- The record of a frame. -/
def frameRecord (time : Word) (i : Nat) (vt : BitVec 32) (flags buf lines : Nat) : BitVec 128 :=
  time.extractLsb' 0 32 ++ BitVec.ofNat 16 (min lines 0xFFFF) ++ BitVec.ofNat 16 buf ++ vt ++ 0#8 ++ 15#4 ++ BitVec.ofNat 4 flags ++
    BitVec.ofNat 8 i ++ 0x23#8

section
variable (time : Word) (i : Nat) (vt : BitVec 32) (flags buf lines : Nat)

theorem frameRecord_type : (frameRecord time i vt flags buf lines).extractLsb' 0 8 = 0x23#8 := extract_append_low _ _

theorem frameRecord_stream : (frameRecord time i vt flags buf lines).extractLsb' 8 8 = BitVec.ofNat 8 i :=
  (extract_append_high (m := 8) _ _ 0 8).trans (extract_append_low _ _)

theorem frameRecord_flags : (frameRecord time i vt flags buf lines).extractLsb' 16 4 = BitVec.ofNat 4 flags :=
  (extract_append_high (m := 8) _ _ 8 4).trans <| (extract_append_high (m := 8) _ _ 0 4).trans (extract_append_low _ _)

theorem frameRecord_class : (frameRecord time i vt flags buf lines).extractLsb' 20 4 = 15#4 :=
  (extract_append_high (m := 8) _ _ 12 4).trans <| (extract_append_high (m := 8) _ _ 4 4).trans <|
    (extract_append_high (m := 4) _ _ 0 4).trans (extract_append_low _ _)

theorem frameRecord_vt : (frameRecord time i vt flags buf lines).extractLsb' 32 32 = vt :=
  (extract_append_high (m := 8) _ _ 24 32).trans <| (extract_append_high (m := 8) _ _ 16 32).trans <|
    (extract_append_high (m := 4) _ _ 12 32).trans <| (extract_append_high (m := 4) _ _ 8 32).trans <|
    (extract_append_high (m := 8) _ _ 0 32).trans (extract_append_low _ _)

theorem frameRecord_buf : (frameRecord time i vt flags buf lines).extractLsb' 64 16 = BitVec.ofNat 16 buf :=
  (extract_append_high (m := 8) _ _ 56 16).trans <| (extract_append_high (m := 8) _ _ 48 16).trans <|
    (extract_append_high (m := 4) _ _ 44 16).trans <| (extract_append_high (m := 4) _ _ 40 16).trans <|
    (extract_append_high (m := 8) _ _ 32 16).trans <| (extract_append_high (m := 32) _ _ 0 16).trans (extract_append_low _ _)

theorem frameRecord_time : (frameRecord time i vt flags buf lines).extractLsb' 96 32 = time.extractLsb' 0 32 :=
  (extract_append_high (m := 8) _ _ 88 32).trans <| (extract_append_high (m := 8) _ _ 80 32).trans <|
    (extract_append_high (m := 4) _ _ 76 32).trans <| (extract_append_high (m := 4) _ _ 72 32).trans <|
    (extract_append_high (m := 8) _ _ 64 32).trans <| (extract_append_high (m := 32) _ _ 32 32).trans <|
    (extract_append_high (m := 16) _ _ 16 32).trans <| (extract_append_high (m := 16) _ _ 0 32).trans BitVec.extractLsb'_eq_self

/-- A flag of the record. -/
theorem frameRecord_flag {j : Nat} (hj : j < 4) : (frameRecord time i vt flags buf lines).getLsbD (16 + j) = (BitVec.ofNat 4 flags).getLsbD j := by
  rw [← frameRecord_flags time i vt flags buf lines, BitVec.getLsbD_extractLsb']
  simp [hj]
end
end Sys2Proof.Claims
end

section
/-! PROOFS. The MEDIA commands (R95). -/
namespace Sys2Proof.Claims
open Sys2Proof.Machine

/-! ## What a command that has begun still finds -/

/-- The same addresses are valid. -/
@[simp] theorem begun_addrOk (s : State) (q i : Nat) (e : List Byte) (a : Word) (n : Nat) : (begun s q i e).addrOk a n = s.addrOk a n := rfl

/-- The same addresses have translations. -/
@[simp] theorem begun_addrMapped (s : State) (q i : Nat) (e : List Byte) (a : Word) (n : Nat) :
    (begun s q i e).addrMapped a n = s.addrMapped a n := by
  have hw : ∀ off, (begun s q i e).walk off = s.walk off := walk_setFw (s := s) (w := (begun s q i e).fw) rfl
  simp only [State.addrMapped, State.mapped, hw]

/-- The same descriptors are bad. -/
@[simp] theorem begun_badStream (s : State) (q i : Nat) (e : List Byte) (m : Stream) : (begun s q i e).badStream m = s.badStream m := rfl

/-- TIMEB is locked or not as before. -/
@[simp] theorem begun_ptpLocked (s : State) (q i : Nat) (e : List Byte) : (begun s q i e).ptpLocked = s.ptpLocked := rfl

/-- The same streams are open. -/
@[simp] theorem begun_streams (s : State) (q i : Nat) (e : List Byte) : (begun s q i e).fw.streams = s.fw.streams := rfl

/-! ## OPEN -/

/-- The streams that use a port. -/
def portUses (s : State) (port : Nat) : Nat := (s.fw.streams.filter fun x => x.2.field 0 1 == port || x.2.field 1 1 == port).length

/-- The lowest number that a stream may take. -/
def lowestFree (s : State) : Option Nat := (List.range 256).find? fun i => (tblGet? s.fw.streams i).isNone

/-- The lowest free number is the one that is free with none free below it. -/
theorem lowestFree_eq {s : State} {n : Nat} (hn : n < 256) (h : tblGet? s.fw.streams n = none) (hlow : ∀ k, k < n → tblGet? s.fw.streams k ≠ none) :
    lowestFree s = some n := by
  rw [lowestFree, List.find?_range_eq_some]
  refine ⟨by rw [h]; rfl, List.mem_range.2 hn, fun k hk => ?_⟩
  simp [Option.ne_none_iff_isSome.1 (hlow k hk)]

section
variable {s : State} {q i : Nat} {e : List Byte}

/-- OPEN runs its checks against the state before it. -/
theorem execMediaOpen_begun (h : Heads s q i e 0x0E) (hs : entSub e = 0) {m : Stream} (hm : m = Stream.open0 (s.fwLoad (entWord e 16) 128)) :
    exec (.mediaOpen q) s = .next
      (if !s.addrOk (entWord e 16) 128 then (begun s q i e).finishCmd (headRef q i e) 0x03
       else if !s.addrMapped (entWord e 16) 128 then (begun s q i e).finishCmd (headRef q i e) 0x0B
       else if m.reserved then (begun s q i e).finishCmd (headRef q i e) 0x02
       else if s.badStream m then (begun s q i e).finishCmd (headRef q i e) 0x03
       else if !s.addrMapped (m.at 0 0) (m.nbuf * m.bufSize) then (begun s q i e).finishCmd (headRef q i e) 0x0B
       else if !s.ptpLocked then (begun s q i e).finishCmd (headRef q i e) 0x11
       else if 64 ≤ portUses s (m.field 0 1) || (m.field 1 1 ≠ 0xFF && 64 ≤ portUses s (m.field 1 1)) then
         (begun s q i e).finishCmd (headRef q i e) 0x06
       else match lowestFree s with
         | none => (begun s q i e).finishCmd (headRef q i e) 0x06
         | some n => ((begun s q i e).setStream n m).finishCmd (headRef q i e) 0 n) := by
  subst hm
  change execMediaOpen q s = _
  rw [execMediaOpen, command_heads h (by simp [hs])]
  simp only [begun_addrOk, begun_addrMapped, begun_fwLoad, begun_badStream, begun_ptpLocked, begun_streams] <;> rfl

/-- The descriptor of OPEN is not to be read. -/
theorem execMediaOpen_unread (h : Heads s q i e 0x0E) (hs : entSub e = 0) :
    (s.addrOk (entWord e 16) 128 = false → Ends s q i e (exec (.mediaOpen q) s) 0x03) ∧
    (s.addrOk (entWord e 16) 128 = true → s.addrMapped (entWord e 16) 128 = false → Ends s q i e (exec (.mediaOpen q) s) 0x0B) := by
  rw [execMediaOpen_begun h hs rfl]
  exact ⟨fun ha => by simp [Ends, ha], fun ha hb => by simp [Ends, ha, hb]⟩

/-- The descriptor of OPEN is refused. -/
theorem execMediaOpen_refused (h : Heads s q i e 0x0E) (hs : entSub e = 0) {m : Stream} (hm : m = Stream.open0 (s.fwLoad (entWord e 16) 128))
    (ha : s.addrOk (entWord e 16) 128 = true) (hb : s.addrMapped (entWord e 16) 128 = true) :
    (m.reserved = true → Ends s q i e (exec (.mediaOpen q) s) 0x02) ∧
    (m.reserved = false → s.badStream m = true → Ends s q i e (exec (.mediaOpen q) s) 0x03) := by
  rw [execMediaOpen_begun h hs hm]
  exact ⟨fun hr => by simp [Ends, ha, hb, hr], fun hr hd => by simp [Ends, ha, hb, hr, hd]⟩

/-- OPEN of a good descriptor: TIMEB locked, a place at its ports, and the lowest free number. -/
theorem execMediaOpen_good (h : Heads s q i e 0x0E) (hs : entSub e = 0) {m : Stream} (hm : m = Stream.open0 (s.fwLoad (entWord e 16) 128))
    (ha : s.addrOk (entWord e 16) 128 = true) (hb : s.addrMapped (entWord e 16) 128 = true) (hr : m.reserved = false) (hd : s.badStream m = false)
    (hbuf : s.addrMapped (m.at 0 0) (m.nbuf * m.bufSize) = true) :
    (s.ptpLocked = false → Ends s q i e (exec (.mediaOpen q) s) 0x11) ∧
    (s.ptpLocked = true → 64 ≤ portUses s (m.field 0 1) → Ends s q i e (exec (.mediaOpen q) s) 0x06) ∧
    (s.ptpLocked = true → portUses s (m.field 0 1) < 64 → (m.field 1 1 = 0xFF ∨ portUses s (m.field 1 1) < 64) →
      ∀ n, n < 256 → tblGet? s.fw.streams n = none → (∀ k, k < n → tblGet? s.fw.streams k ≠ none) →
        ∃ v : State, exec (.mediaOpen q) s = .next (v.finishCmd (headRef q i e) 0 n) ∧ tblGet? v.fw.streams n = some m ∧
          ∀ k, k ≠ n → tblGet? v.fw.streams k = tblGet? s.fw.streams k) := by
  rw [execMediaOpen_begun h hs hm]
  refine ⟨fun hl => by simp [Ends, ha, hb, hr, hd, hbuf, hl], fun hl h0 => by simp [Ends, ha, hb, hr, hd, hbuf, hl, h0],
    fun hl h0 h1 n hn hfree hlow => ⟨(begun s q i e).setStream n m, ?_, setStream_get_same _ _ _, fun k hk => setStream_get_other _ _ _ _ hk⟩⟩
  have hroom : ¬ 64 ≤ portUses s (m.field 0 1) ∧ ¬ (m.field 1 1 ≠ 0xFF ∧ 64 ≤ portUses s (m.field 1 1)) := by omega
  simp [ha, hb, hr, hd, hbuf, hl, hroom, lowestFree_eq hn hfree hlow]

/-! ## CLOSE -/

/-- A frame of a stream closes, when the stream is open. -/
def closeOpen (i : Nat) (s : State) (f : Frame) : State :=
  match tblGet? s.fw.streams i with
  | some m => s.closeFrame i m f false
  | none => s

/-- Frames that close keep the table of streams in its canonical form. -/
theorem foldl_closeOpen_tblWf (k : Nat) (l : List Frame) {u : State} (h : tblWf u.fw.streams = true) :
    tblWf (l.foldl (closeOpen k) u).fw.streams = true := by
  induction l generalizing u with
  | nil => exact h
  | cons f l ih =>
    refine ih ?_
    unfold closeOpen
    split
    · rw [closeFrame_streams]; exact tblWf_tblSet h _ _
    · exact h

/-- CLOSE. -/
theorem execMediaClose_closes (h : Heads s q i e 0x0E) (hs : entSub e = 1) :
    (tblGet? s.fw.streams (entNat e 8 1) = none → Ends s q i e (exec (.mediaClose q) s) 0x04) ∧
    (∀ m, tblGet? s.fw.streams (entNat e 8 1) = some m → tblWf s.fw.streams = true →
      EndsIn q i e (exec (.mediaClose q) s) fun v => tblGet? v.fw.streams (entNat e 8 1) = none ∧ (m.frames = [] → v.mem = s.mem ∧ v.reqs = s.reqs)) := by
  have hx : exec (.mediaClose q) s = .next (match tblGet? s.fw.streams (entNat e 8 1) with
      | none => (begun s q i e).finishCmd (headRef q i e) 0x04
      | some m => ((m.frames.foldl (closeOpen (entNat e 8 1)) (begun s q i e)).modFw fun w =>
          { w with streams := tblErase w.streams (entNat e 8 1) }).finishCmd (headRef q i e) 0) := by
    change execMediaClose q s = _
    rw [execMediaClose, command_heads h (by simp [hs])] <;> rfl
  rw [hx]
  refine ⟨fun hn => by rw [hn]; rfl, fun m hm hw => ?_⟩
  rw [hm]
  refine ⟨_, rfl, ?_, fun hf => by rw [hf]; exact ⟨rfl, rfl⟩⟩
  exact tblGet?_tblErase_same (foldl_closeOpen_tblWf (u := begun s q i e) _ _ hw) _

/-! ## PTP -/

/-- PTP. -/
theorem execMediaPtp_waits (h : Heads s q i e 0x0E) (hs : entSub e = 3) {port dom : Nat} (hp : port = entNat e 8 1) (hd : dom = entNat e 9 1) :
    (3 < port ∨ 127 < dom → Ends s q i e (exec (.mediaPtp q) s) 0x03) ∧
    (port ≤ 3 → dom ≤ 127 →
      (s.fw.ptpSel = some (port, dom) → s.ptpLocked = true → Ends s q i e (exec (.mediaPtp q) s) 0x00) ∧
      (s.fw.ptpSel ≠ some (port, dom) ∨ s.ptpLocked = false → ∃ u w, exec (.mediaPtp q) s = .next u ∧ u.fw.ptpSel = some (port, dom) ∧
        u.fw.ptpWait = s.fw.ptpWait ++ [w] ∧ w.cmd = headRef q i e ∧ w.until0 = s.time + BitVec.ofNat 64 (entNat e 12 4 * 1000000) ∧
        u.time = s.time)) := by
  have hx : exec (.mediaPtp q) s = .next (if 3 < port ∨ 127 < dom then (begun s q i e).finishCmd (headRef q i e) 0x03
      else if s.fw.ptpSel = some (port, dom) ∧ s.ptpLocked = true then (begun s q i e).finishCmd (headRef q i e) 0
      else (begun s q i e).modFw fun f => { f with
        ptpSel := some (port, dom)
        ptpWait := f.ptpWait ++ [{ port := port, domain := dom, until0 := s.time + BitVec.ofNat 64 (entNat e 12 4 * 1000000), cmd := headRef q i e }]
        ptp := if f.ptpSel = some (port, dom) then f.ptp else tblErase f.ptp port }) := by
    subst hp hd
    change execMediaPtp q s = _
    rw [execMediaPtp, command_heads h (by simp [hs])]
    rfl
  rw [hx]
  refine ⟨fun hbad => by rw [if_pos hbad]; rfl, fun h3 h127 => ⟨fun hsel hl => ?_, fun hsel => ?_⟩⟩
  all_goals rw [if_neg (by omega)]
  · rw [if_pos ⟨hsel, hl⟩]; rfl
  · rw [if_neg fun hc => hsel.elim (fun hn => hn hc.1) (fun hn => by simp [hn] at hc)]
    exact ⟨_, _, rfl, rfl, rfl, rfl, rfl, rfl⟩
end
end Sys2Proof.Claims
end

section
/-! PROOFS. Packets of a stream (R93, R96, R98). -/
namespace Sys2Proof.Claims
open Sys2Proof.Machine

/-- A packet that no stream looks at. -/
theorem execMediaPacket_unread (s : State) (k : MediaPacket) :
    (k.ipv6 = true → ∃ u, exec (.mediaPacket k) s = .next u ∧ tblGet? u.fw.ipv6 k.port = some (tblGetD s.fw.ipv6 k.port 0 + 1) ∧
      u.fw.streams = s.fw.streams ∧ u.mem = s.mem) ∧
    (k.ipv6 = false → 9216 < k.size → exec (.mediaPacket k) s = .next s) := by
  change (_ → ∃ u, execMediaPacket k s = .next u ∧ _) ∧ (_ → _ → execMediaPacket k s = .next s)
  unfold execMediaPacket
  refine ⟨fun h => ?_, fun h hb => ?_⟩
  · rw [if_pos h]
    exact ⟨_, rfl, tblGet?_tblSet_same _ _ _, rfl, rfl⟩
  · rw [if_neg (by simp [h]), if_pos hb]

/-- A packet of the only open stream, by one of its paths. -/
structure OnlyStream (s : State) (i : Nat) (m : Stream) (k : MediaPacket) (path : Nat) : Prop where
  streams : s.fw.streams = [(i, m)]
  path : m.path k = some path
  ipv4 : k.ipv6 = false
  size : k.size ≤ 9216

/-- The frame index of a packet. -/
def packetIndex (s : State) (m : Stream) (k : MediaPacket) : Nat := m.index (m.extend k.rtpTs s.time)

section
variable {s : State} {i : Nat} {m : Stream} {k : MediaPacket} {path : Nat}

/-- The only stream is read back. -/
theorem OnlyStream.get (h : OnlyStream s i m k path) : tblGet? s.fw.streams i = some m := by rw [h.streams, tblGet?, if_pos rfl]

/-- A malformed packet is counted. -/
theorem execMediaPacket_malformed (h : OnlyStream s i m k path) (hm : k.malformed = true) :
    exec (.mediaPacket k) s = .next (s.setStream i (m.count 3)) := by
  change execMediaPacket k s = _
  simp [execMediaPacket, h.ipv4, h.size.not_gt, h.streams, h.path, hm]

/-- A packet that both paths brought is counted once more and dropped. -/
theorem execMediaPacket_seen (h : OnlyStream s i m k path) (hm : k.malformed = false) (hd : m.field 1 1 ≠ 0xFF) (hs : m.seen.contains k.seq = true) :
    exec (.mediaPacket k) s = .next (s.setStream i { m.count 1 with
      frames := m.frames.map fun f => if f.idx = packetIndex s m k then { f with paths := f.paths ||| BitVec.ofNat 2 path } else f }) := by
  change execMediaPacket k s = _
  have hdual : decide (m.field 1 1 ≠ 0xFF) = true := decide_eq_true hd
  rw [execMediaPacket, if_neg (by simp [h.ipv4]), if_neg h.size.not_gt]
  simp only [h.streams, List.findSome?, h.path, Option.map_some, hm, hdual, hs, Bool.and_self, Bool.false_eq_true, if_false, if_true]
  rfl

/-- A packet of a stream of one path whose frame is not open: late, or the first of its frame. -/
theorem execMediaPacket_single (h : OnlyStream s i m k path) (hm : k.malformed = false) (hd : m.field 1 1 = 0xFF)
    (hf : ∀ f ∈ m.frames, f.idx ≠ packetIndex s m k) : exec (.mediaPacket k) s = .next
      (if (m.closed.any fun x => x.1 == packetIndex s m k) || (!m.frames.isEmpty && m.frames.all fun f => packetIndex s m k < f.idx) then
        s.latePacket i m (packetIndex s m k)
       else (s.openFrame i k (packetIndex s m k)).acceptPacket i k (m.extend k.rtpTs s.time) path (packetIndex s m k)) := by
  change execMediaPacket k s = _
  rw [execMediaPacket, if_neg (by simp [h.ipv4]), if_neg h.size.not_gt]
  have hdual : decide (m.field 1 1 ≠ 0xFF) = false := by simp [hd]
  have hopen : (m.frames.any fun f => f.idx == packetIndex s m k) = false := by simpa using hf
  simp only [packetIndex] at hopen ⊢
  simp only [h.streams, List.findSome?, h.path, Option.map_some, hm, hdual, if_neg (not_not.2 hd), hopen, Bool.false_and, Bool.false_eq_true, if_false,
    setStream_self h.streams]
  exact (apply_ite Host.Outcome.next _ _ _).symm

/-- A packet of a closed frame that no buffer holds any more is counted as late. -/
theorem execMediaPacket_late (h : OnlyStream s i m k path) (hm : k.malformed = false) (hd : m.field 1 1 = 0xFF)
    (hf : ∀ f ∈ m.frames, f.idx ≠ packetIndex s m k) (hc : (m.closed.find? fun x => x.1 == packetIndex s m k) = some (packetIndex s m k, none)) :
    exec (.mediaPacket k) s = .next (s.setStream i (m.count 2)) := by
  have hin : (m.closed.any fun x => x.1 == packetIndex s m k) = true :=
    List.any_eq_true.2 ⟨_, List.mem_of_find?_eq_some hc, by simp⟩
  rw [execMediaPacket_single h hm hd hf, if_pos (by simp [hin])]
  simp [State.latePacket, hc]

/-- A packet of a new frame opens it. -/
theorem execMediaPacket_opens (h : OnlyStream s i m k path) (hm : k.malformed = false) (hd : m.field 1 1 = 0xFF)
    (hf : ∀ f ∈ m.frames, f.idx ≠ packetIndex s m k) (hc : ∀ x ∈ m.closed, x.1 ≠ packetIndex s m k)
    (hn : m.frames = [] ∨ ∃ f ∈ m.frames, f.idx < packetIndex s m k) : exec (.mediaPacket k) s = .next
      ((s.openFrame i k (packetIndex s m k)).acceptPacket i k (m.extend k.rtpTs s.time) path (packetIndex s m k)) := by
  rw [execMediaPacket_single h hm hd hf, if_neg]
  simp only [Bool.or_eq_true, List.any_eq_true, beq_iff_eq, Bool.and_eq_true, List.all_eq_true, decide_eq_true_eq, not_or, not_exists, not_and]
  refine ⟨fun x hx => hc x hx, fun he hall => ?_⟩
  rcases hn with hn | ⟨f, hfm, hlt⟩
  · simp [hn] at he
  · exact absurd (hall f hfm) (by omega)

/-- A frame opens in the next buffer of a stream that has at most one open; or it is dropped. -/
theorem openFrame_roomy (hg : tblGet? s.fw.streams i = some m) (hl : m.frames.length < 2) (k : MediaPacket) (idx : Nat) :
    s.openFrame i k idx = if natOfBytes (s.fwLoad (m.at m.nextBuf 0) 8) ≠ 0 then s.dropFrame i m idx
      else (s.fwStore (m.at m.nextBuf 0) (bytesOfNat 1 8)).setStream i { m with
        frames := m.frames ++ [{ idx := idx, buf := m.nextBuf, first := s.time, rtp := k.rtpTs, pkts := 0, late := 0, stalled := false, oversize := false,
                                 paths := 0#2, lines := [], times := [] }]
        nextBuf := (m.nextBuf + 1) % max m.nbuf 1
        closed := m.closed.map fun x => if x.2 = some m.nextBuf then (x.1, none) else x } := by
  rw [State.openFrame, hg]
  dsimp only
  split
  next f g e => rw [e] at hl; simp at hl
  next => rw [hg]; rfl
end
end Sys2Proof.Claims
end

section
/-! PROOFS. What the packet of a new frame leaves of its stream (R96). -/
namespace Sys2Proof.Claims
open Sys2Proof.Machine

section
variable {s : State} {i : Nat} {m : Stream} {k : MediaPacket} {path : Nat}

/-- A stream of which a frame was dropped. -/
def droppedStream (m : Stream) (idx : Nat) : Stream := { m.count 6 with closed := (idx, none) :: m.closed }

/-- A frame that is dropped is noted in its stream. -/
theorem dropFrame_streams (s : State) (i : Nat) (m : Stream) (idx : Nat) : tblGet? (s.dropFrame i m idx).fw.streams i = some (droppedStream m idx) := by
  have hk : FirmKeeps (s.setStream i (droppedStream m idx)) (s.dropFrame i m idx) := .sendFrameRecord _ _ _ _ _ _ _
  rw [hk.streams, setStream_get_same]

/-- A packet of a frame that is not open is not accepted. -/
theorem acceptPacket_unopened (hg : tblGet? s.fw.streams i = some m) {idx : Nat} (hf : ∀ f ∈ m.frames, f.idx ≠ idx) (k : MediaPacket) (t path : Nat) :
    s.acceptPacket i k t path idx = s := by
  have hn : (m.frames.find? fun f => f.idx == idx) = none := List.find?_eq_none.2 fun f hfm => by simpa using hf f hfm
  rw [State.acceptPacket, hg]
  dsimp only
  rw [hn]

/-- A packet without data or marker is counted in its open frame. -/
theorem acceptPacket_bare (hg : tblGet? s.fw.streams i = some m) {idx : Nat} {f : Frame} (hf : (m.frames.find? fun f => f.idx == idx) = some f)
    (hs : k.segments = []) (hm : k.marker = false) (t path : Nat) : s.acceptPacket i k t path idx = s.setStream i { m.count 0 with
      frames := m.frames.map fun x => if x.idx = idx then { f with pkts := f.pkts + 1, paths := f.paths ||| BitVec.ofNat 2 path } else x
      stall := some s.time } := by
  rw [State.acceptPacket, hg]
  dsimp only
  rw [hf]
  simp only [hs, List.foldl_nil, hm, if_true, Bool.false_eq_true, if_false]
  rfl

/-- A new frame that finds no free buffer is dropped. -/
theorem newFrame_drops (hg : tblGet? s.fw.streams i = some m) (hl : m.frames.length < 2) {idx : Nat} (hf : ∀ f ∈ m.frames, f.idx ≠ idx)
    (hb : natOfBytes (s.fwLoad (m.at m.nextBuf 0) 8) ≠ 0) (t : Nat) :
    tblGet? ((s.openFrame i k idx).acceptPacket i k t path idx).fw.streams i = some (droppedStream m idx) := by
  rw [openFrame_roomy hg hl, if_pos hb, acceptPacket_unopened (dropFrame_streams s i m idx) (fun f h => hf f h), dropFrame_streams]

/-- Changing the frames of an index leaves those of others and changes the one appended. -/
theorem map_frames_appended {l : List Frame} {idx : Nat} (hf : ∀ f ∈ l, f.idx ≠ idx) {f : Frame} (h : f.idx = idx) (g : Frame) :
    ((l ++ [f]).map fun x => if x.idx = idx then g else x) = l ++ [g] := by
  rw [List.map_append, List.map_cons, if_pos h, List.map_nil]
  congr 1
  conv_rhs => rw [← List.map_id l]
  exact List.map_congr_left fun x hx => if_neg (hf x hx)

/-- A new frame that finds its buffer free opens in it, with the packet counted. -/
theorem newFrame_opens (hg : tblGet? s.fw.streams i = some m) (hl : m.frames.length < 2) {idx : Nat} (hf : ∀ f ∈ m.frames, f.idx ≠ idx)
    (hb : natOfBytes (s.fwLoad (m.at m.nextBuf 0) 8) = 0) (hs : k.segments = []) (hm : k.marker = false) (t : Nat) :
    ∃ m' f, tblGet? ((s.openFrame i k idx).acceptPacket i k t path idx).fw.streams i = some m' ∧ m'.frames = m.frames ++ [f] ∧ f.idx = idx ∧
      f.buf = m.nextBuf ∧ f.first = s.time ∧ f.pkts = 1 ∧ f.rtp = k.rtpTs ∧ m'.nextBuf = (m.nextBuf + 1) % max m.nbuf 1 ∧ m'.stall = some s.time ∧
      m'.stats = (m.count 0).stats := by
  have hstore : FirmKeeps s (s.fwStore (m.at m.nextBuf 0) (bytesOfNat 1 8)) := .fwStore _ _ _
  have hfind : ∀ f : Frame, f.idx = idx → ((m.frames ++ [f]).find? fun f => f.idx == idx) = some f := fun f h => by
    rw [List.find?_append, List.find?_eq_none.2 fun x hx => by simpa using hf x hx, List.find?_cons_of_pos (by simp [h])]
    rfl
  rw [openFrame_roomy hg hl, if_neg (not_not.2 hb), acceptPacket_bare (setStream_get_same _ _ _) (hfind _ rfl) hs hm, setStream_get_same]
  refine ⟨_, _, rfl, map_frames_appended hf rfl _, rfl, rfl, rfl, rfl, rfl, rfl, ?_, rfl⟩
  exact congrArg some hstore.time
end
end Sys2Proof.Claims
end

section
/-! PROOFS. The deadline of a frame, its record and the stall timer (R96, R97). -/
namespace Sys2Proof.Claims
open Sys2Proof.Machine

/-! ## Records as requests -/

/-- An injection leaves the requests. -/
theorem inject_reqs (s : State) (k : Packet) (first : Bool) : (s.inject k first).reqs = s.reqs := by
  unfold State.inject State.countSent
  dsimp only
  split
  · split <;> rfl
  · rfl

/-- What a node asks for is a request from then on. -/
theorem ask_request (s : State) (src : Nat) (a : Ask) : ∃ y ∈ (s.ask src a).reqs, y.src = src ∧ y.dst = a.dst ∧ y.body = a.body := by
  unfold State.ask
  extract_lets nd ns seq nd' parked r w u
  have hu : r ∈ u.reqs := List.mem_append_right _ (List.mem_singleton.2 rfl)
  refine ⟨r, ?_, rfl, rfl, rfl⟩
  split
  · exact hu
  · rwa [inject_reqs]

/-- The record of a frame with one waiter, at a core, is a request of the media port. -/
theorem sendFrameRecord_request {s : State} {m : Stream} {n p : Nat} (hw : m.waiters = [n]) (hl : s.fw.logical[n]? = some p) (hp : p < 0x400)
    (i : Nat) (vt : BitVec 32) (flags buf lines : Nat) : ∃ y ∈ (s.sendFrameRecord i m vt flags buf lines).reqs,
      y.src = mediaNode (m.field 0 1) ∧ y.dst = p ∧ y.body = .record (frameRecord s.time i vt flags buf lines) := by
  have hne : mediaNode (m.field 0 1) ≠ p := by unfold mediaNode agentNode; omega
  unfold State.sendFrameRecord
  extract_lets r node
  rw [hw, List.filterMap_cons, hl, List.filterMap_nil, List.foldl_cons, List.foldl_nil]
  unfold State.sendRecord
  rw [if_neg hne]
  exact ask_request _ _ _

/-! ## The flags of a record -/

/-- Incomplete is bit 0. -/
theorem flags_incomplete (a b : Prop) [Decidable a] [Decidable b] :
    (BitVec.ofNat 4 ((if a then 1 else 0) + (if b then 2 else 0) + (if false then 8 else 0))).getLsbD 0 = decide a := by
  by_cases ha : a <;> by_cases hb : b <;> simp [ha, hb]

/-- Stalled is bit 1. -/
theorem flags_stalled (a b : Prop) [Decidable a] [Decidable b] :
    (BitVec.ofNat 4 ((if a then 1 else 0) + (if b then 2 else 0) + (if false then 8 else 0))).getLsbD 1 = decide b := by
  by_cases ha : a <;> by_cases hb : b <;> simp [ha, hb]

/-! ## Deadlines -/

/-- The record of a frame that closes for its only waiter. -/
theorem closeFrame_record {s : State} {m : Stream} {n p : Nat} (hw : m.waiters = [n]) (hl : s.fw.logical[n]? = some p) (hp : p < 0x400)
    (i : Nat) (f : Frame) : ∃ (y : Req) (r : BitVec 128), y ∈ (s.closeFrame i m f false).reqs ∧ y.src = mediaNode (m.field 0 1) ∧ y.dst = p ∧
      y.body = .record r ∧ r.extractLsb' 0 8 = 0x23#8 ∧ r.extractLsb' 8 8 = BitVec.ofNat 8 i ∧ r.extractLsb' 20 4 = 15#4 ∧
      r.extractLsb' 32 32 = m.vt f.idx ∧ r.extractLsb' 64 16 = BitVec.ofNat 16 f.buf ∧ r.extractLsb' 96 32 = s.time.extractLsb' 0 32 ∧
      r.getLsbD 16 = decide (f.times.length < m.height) ∧ r.getLsbD 17 = f.stalled := by
  obtain ⟨v, hv, e⟩ := closeFrame_sends s i m f false
  obtain ⟨y, hy, hsrc, hdst, hbody⟩ := sendFrameRecord_request (s := v.setStream i (closedStream m f)) (m := closedStream m f) hw
    (hv.logical ▸ hl) hp i (m.vt f.idx)
    ((if f.times.length < m.height then 1 else 0) + (if f.stalled then 2 else 0) + (if false then 8 else 0)) f.buf f.times.length
  rw [e]
  refine ⟨y, _, hy, hsrc, hdst, hbody, frameRecord_type _ _ _ _ _ _, frameRecord_stream _ _ _ _ _ _, frameRecord_class _ _ _ _ _ _,
    frameRecord_vt _ _ _ _ _ _, frameRecord_buf _ _ _ _ _ _, ?_, ?_, ?_⟩
  · rw [frameRecord_time]
    exact congrArg _ hv.time
  · exact (frameRecord_flag _ _ _ _ _ _ (j := 0) (by decide)).trans (flags_incomplete _ _)
  · exact (frameRecord_flag _ _ _ _ _ _ (j := 1) (by decide)).trans ((flags_stalled _ _).trans (by simp))

section
variable {s : State} {i idx : Nat} {m : Stream} {f : Frame}

/-- A frame stays open until its deadline, and closes then. -/
theorem execFrameDeadline_eq (hg : tblGet? s.fw.streams i = some m) (hf : (m.frames.find? fun f => f.idx == idx) = some f) :
    exec (.frameDeadline i idx) s = .next (if m.start idx + m.field 0x40 4 * 1000 ≤ s.time.toNat then s.closeFrame i m f false else s) := by
  change execFrameDeadline i idx s = _
  rw [execFrameDeadline, hg]
  dsimp only
  rw [hf]

/-- What a frame that closes leaves of its stream. -/
theorem closedStream_fields (hf : f.idx = idx) : (closedStream m f).frames = m.frames.filter (fun x => x.idx != idx) ∧
    (closedStream m f).closed = (idx, some f.buf) :: m.closed ∧ ∀ n, n ≠ 4 → n ≠ 5 → (closedStream m f).stats[n]? = m.stats[n]? := by
  subst hf
  refine ⟨rfl, rfl, fun n h4 h5 => ?_⟩
  rw [show (closedStream m f).stats = (m.count (if f.times.length < m.height then 5 else 4)).stats from rfl, count_stats, if_neg]
  split <;> assumption

/-! ## The stall timer -/

/-- The stall timer runs on while no frame is open or its time has not passed. -/
theorem execStallTimerExpiry_waits {t : Word} (hg : tblGet? s.fw.streams i = some m) (ht : m.stall = some t)
    (h : (s.time - t).toNat < m.field 0x3C 4 * 1000 ∨ m.frames = []) : exec (.stallTimerExpiry i) s = .next s := by
  change execStallTimerExpiry i s = _
  rw [execStallTimerExpiry, hg]
  dsimp only
  rw [ht]
  dsimp only
  rw [if_neg]
  rintro hc
  simp only [Bool.and_eq_true, Bool.not_eq_true', List.isEmpty_eq_false_iff, decide_eq_true_eq] at hc
  exact h.elim (fun hlt => absurd hc.2 (by omega)) hc.1

/-- The stall timer flags the open frames. -/
theorem execStallTimerExpiry_flags {t : Word} (hg : tblGet? s.fw.streams i = some m) (ht : m.stall = some t)
    (h : m.field 0x3C 4 * 1000 ≤ (s.time - t).toNat) (hf : m.frames ≠ []) : ∃ u m', exec (.stallTimerExpiry i) s = .next u ∧
      tblGet? u.fw.streams i = some m' ∧ m'.frames.length = m.frames.length ∧ (∀ f ∈ m'.frames, f.stalled = true) ∧ m'.stall = none ∧
      m'.stats[7]? = (m.stats[7]?).map (· + 1) ∧ u.mem = s.mem := by
  refine ⟨s.setStream i { m.count 7 with stall := none, frames := m.frames.map fun f => { f with stalled := true } }, _, ?_, setStream_get_same _ _ _,
    List.length_map .., ?_, rfl, ?_, rfl⟩
  · change execStallTimerExpiry i s = _
    rw [execStallTimerExpiry, hg]
    dsimp only
    rw [ht]
    dsimp only
    rw [if_pos (Bool.and_eq_true_iff.2 ⟨by simp [hf], decide_eq_true h⟩)]
  · intro f hfm
    obtain ⟨_, _, rfl⟩ := List.mem_map.1 hfm
    rfl
  · exact (count_stats m 7 7).trans (if_pos rfl)
end
end Sys2Proof.Claims
end

section
/-! PROOFS. The PTP receivers and TIMEB (R18, R94, R95). -/
namespace Sys2Proof.Claims
open Sys2Proof.Machine

/-! ## The lock -/

/-- TIMEB is stepped once, forward. -/
def stepsTo (s : State) (t : Word) : Word := if s.fw.ptpStepped = false ∧ s.time.toNat < t.toNat then t else s.time

/-- The step of TIMEB moves time, and leaves the choice of a port and the commands that wait. -/
theorem stepTime_steps (s : State) (t : Word) : (s.stepTime t).time = stepsTo s t ∧ (s.stepTime t).fw.ptpSel = s.fw.ptpSel ∧
    (s.stepTime t).fw.ptpWait = s.fw.ptpWait := by
  unfold State.stepTime stepsTo
  cases hs : s.fw.ptpStepped <;> cases hu : s.time.ult t <;> simp only [BitVec.ult, decide_eq_true_eq, decide_eq_false_iff_not] at hu
  case false.true =>
    have hk : FirmKeeps { s with time := t, fw := { s.fw with ptpStepped := true } } _ :=
      .foldl (fun s pc => .traceFull s pc.1) s.cores _
    exact ⟨hk.time.trans (by simp [hu]), hk.field (·.ptpSel), hk.field (·.ptpWait)⟩
  all_goals simp [hu]

/-- The lock steps TIMEB, and no command waits for the port and domain any more. -/
theorem ptpLock_locks (s : State) (t : Word) {port dom : Nat} (h : s.fw.ptpSel = some (port, dom)) : (s.ptpLock t).time = stepsTo s t ∧
    (s.ptpLock t).fw.ptpStepped = true ∧ ∀ w ∈ (s.ptpLock t).fw.ptpWait, ¬ (w.port = port ∧ w.domain = dom) := by
  obtain ⟨htime, hsel, -⟩ := stepTime_steps s t
  unfold State.ptpLock
  extract_lets u mine
  have hk := (QueueWork.foldl (fun s (w : PtpWait) => .finishCmd s w.cmd 0 0 0#64) mine
    (u.modFw fun f => { f with ptpWait := f.ptpWait.filter fun w => f.ptpSel ≠ some (w.port, w.domain) })).toFirmKeeps
  refine ⟨hk.time.trans htime, hk.field (·.ptpStepped), fun w hw ⟨hp, hd⟩ => ?_⟩
  rw [hk.field (·.ptpWait)] at hw
  have hu : u.fw.ptpSel = some (port, dom) := hsel.trans h
  have hne := (List.mem_filter.1 hw).2
  simp [hu, hp, hd] at hne

/-! ## Sync messages -/

/-- The state after a sync message, from that after the lock it may bring. -/
def synced (u : State) (port : Nat) (t : Word) (locked : Bool) (good : Nat) (off : Int) : State :=
  u.modFw fun w => { w with
    ptp := tblSet w.ptp port { locked := locked, good := min good 16, last := u.time, diff := off }
    ptpOff := if locked then (t - u.time).toInt else w.ptpOff }

/-- The receiver of the port after a sync message. -/
theorem synced_port (u : State) (port : Nat) (t : Word) (locked : Bool) (good : Nat) (off : Int) :
    tblGet? (synced u port t locked good off).fw.ptp port = some { locked := locked, good := min good 16, last := u.time, diff := off } :=
  tblGet?_tblSet_same _ _ _

/-- The offset that a sync message gives. -/
def syncOff (s : State) (t : Word) (offset : Int) : Int := if s.fw.ptpStepped = true then (t - s.time).toInt else offset

/-- A sync message of another port or domain. -/
theorem execPtpSyncMessage_other {s : State} {port dom : Nat} (h : s.fw.ptpSel ≠ some (port, dom)) (m : SyncTime) :
    exec (.ptpSyncMessage port dom m) s = .next s := by
  change execPtpSyncMessage port dom m s = _
  rw [execPtpSyncMessage, if_pos h]

section
variable {s : State} {port dom time : Nat} {offset : Int} {x : PtpPort}

/-- A sync message of the chosen port and domain. -/
theorem execPtpSyncMessage_chosen (hsel : s.fw.ptpSel = some (port, dom)) (hx : tblGet? s.fw.ptp port = some x) {good : Nat} {locked : Bool}
    (hgood : good = if -1000 ≤ syncOff s (BitVec.ofNat 64 time) offset ∧ syncOff s (BitVec.ofNat 64 time) offset ≤ 1000 then x.good + 1 else 0)
    (hlocked : locked = (x.locked || decide (16 ≤ good))) : exec (.ptpSyncMessage port dom ⟨time, offset⟩) s =
      .next (synced (if locked && !x.locked then s.ptpLock (BitVec.ofNat 64 time) else s) port (BitVec.ofNat 64 time) locked good
        (syncOff s (BitVec.ofNat 64 time) offset)) := by
  subst hlocked hgood
  change execPtpSyncMessage port dom ⟨time, offset⟩ s = _
  rw [execPtpSyncMessage, if_neg (not_not.2 hsel), tblGetD, hx]
  rfl

/-- A sync message that brings no lock. -/
theorem execPtpSyncMessage_same (hsel : s.fw.ptpSel = some (port, dom)) (hx : tblGet? s.fw.ptp port = some x) {good : Nat}
    (hgood : good = if -1000 ≤ syncOff s (BitVec.ofNat 64 time) offset ∧ syncOff s (BitVec.ofNat 64 time) offset ≤ 1000 then x.good + 1 else 0)
    (h : x.locked = true ∨ good < 16) : exec (.ptpSyncMessage port dom ⟨time, offset⟩) s =
      .next (synced s port (BitVec.ofNat 64 time) x.locked good (syncOff s (BitVec.ofNat 64 time) offset)) := by
  have hlocked : x.locked = (x.locked || decide (16 ≤ good)) := by
    rcases h with h | h
    · simp [h]
    · simp [h.not_ge]
  rw [execPtpSyncMessage_chosen hsel hx hgood hlocked, if_neg (by simp)]

/-- An offset that is out of range begins the count anew. -/
theorem execPtpSyncMessage_far (hsel : s.fw.ptpSel = some (port, dom)) (hx : tblGet? s.fw.ptp port = some x)
    (h : ¬ (-1000 ≤ syncOff s (BitVec.ofNat 64 time) offset ∧ syncOff s (BitVec.ofNat 64 time) offset ≤ 1000)) :
    ∃ u x', exec (.ptpSyncMessage port dom ⟨time, offset⟩) s = .next u ∧ u.time = s.time ∧ tblGet? u.fw.ptp port = some x' ∧ x'.good = 0 ∧
      x'.locked = x.locked ∧ x'.last = s.time ∧ x'.diff = syncOff s (BitVec.ofNat 64 time) offset ∧
      u.fw.ptpOff = (if x.locked = true then (BitVec.ofNat 64 time - s.time).toInt else s.fw.ptpOff) :=
  ⟨_, _, execPtpSyncMessage_same hsel hx (if_neg h).symm (.inr (by decide)), rfl, synced_port _ _ _ _ _ _, rfl, rfl, rfl, rfl, rfl⟩

/-- An offset in range is counted while it brings no lock. -/
theorem execPtpSyncMessage_near (hsel : s.fw.ptpSel = some (port, dom)) (hx : tblGet? s.fw.ptp port = some x)
    (h : -1000 ≤ syncOff s (BitVec.ofNat 64 time) offset ∧ syncOff s (BitVec.ofNat 64 time) offset ≤ 1000) (hl : x.locked = true ∨ x.good < 15) :
    ∃ u x', exec (.ptpSyncMessage port dom ⟨time, offset⟩) s = .next u ∧ u.time = s.time ∧ tblGet? u.fw.ptp port = some x' ∧
      x'.good = min (x.good + 1) 16 ∧ x'.locked = x.locked ∧
      u.fw.ptpOff = (if x.locked = true then (BitVec.ofNat 64 time - s.time).toInt else s.fw.ptpOff) :=
  ⟨_, _, execPtpSyncMessage_same hsel hx (if_pos h).symm (hl.imp_right (by omega)), rfl, synced_port _ _ _ _ _ _, rfl, rfl, rfl⟩

/-- The sixteenth offset in range in a row locks. -/
theorem execPtpSyncMessage_locks (hsel : s.fw.ptpSel = some (port, dom)) (hx : tblGet? s.fw.ptp port = some x)
    (h : -1000 ≤ syncOff s (BitVec.ofNat 64 time) offset ∧ syncOff s (BitVec.ofNat 64 time) offset ≤ 1000) (hl : x.locked = false) (hg : 15 ≤ x.good) :
    ∃ (v : State) (x' : PtpPort), exec (.ptpSyncMessage port dom ⟨time, offset⟩) s = .next v ∧ tblGet? v.fw.ptp port = some x' ∧
      x'.locked = true ∧ v.fw.ptpStepped = true ∧ (∀ w ∈ v.fw.ptpWait, ¬ (w.port = port ∧ w.domain = dom)) ∧
      v.time = stepsTo s (BitVec.ofNat 64 time) ∧ v.fw.ptpOff = (BitVec.ofNat 64 time - v.time).toInt := by
  obtain ⟨htime, hstep, hwait⟩ := ptpLock_locks s (BitVec.ofNat 64 time) hsel
  refine ⟨_, _, ?_, synced_port (s.ptpLock (BitVec.ofNat 64 time)) port (BitVec.ofNat 64 time) true (x.good + 1) (syncOff s (BitVec.ofNat 64 time) offset),
    rfl, hstep, hwait, htime, rfl⟩
  rw [execPtpSyncMessage_chosen hsel hx (if_pos h).symm (locked := true) (by simp [hl]; omega), hl]
  rfl

/-! ## Loss and timeout -/

/-- Two seconds without a message lose the lock. -/
theorem execPtpLockLoss_loses (hx : tblGet? s.fw.ptp port = some x) :
    ((s.time - x.last).toNat < 2000000000 → exec (.ptpLockLoss port) s = .next s) ∧
    (2000000000 ≤ (s.time - x.last).toNat → ∃ u x', exec (.ptpLockLoss port) s = .next u ∧ u.time = s.time ∧ tblGet? u.fw.ptp port = some x' ∧
      x'.locked = false ∧ x'.good = 0 ∧ u.fw.ptpOff = (if (s.fw.ptpSel.map (·.1)) = some port then 0 else s.fw.ptpOff)) := by
  change (_ → execPtpLockLoss port s = .next s) ∧ (_ → ∃ u x', execPtpLockLoss port s = .next u ∧ _)
  rw [execPtpLockLoss, hx]
  dsimp only
  refine ⟨fun h => by rw [if_neg h.not_ge], fun h => ?_⟩
  rw [if_pos h]
  exact ⟨_, _, rfl, rfl, tblGet?_tblSet_same _ _ _, rfl, rfl, rfl⟩
end

/-- A command that waits for a lock completes when its time is over. -/
theorem execPtpLockTimeout_ends (s : State) (q : Nat) :
    ((∀ w ∈ s.fw.ptpWait, w.cmd.q = q → s.time.toNat < w.until0.toNat) → exec (.ptpLockTimeout q) s = .next s) ∧
    (∀ w rest, s.fw.ptpWait = w :: rest → w.cmd.q = q → w.until0.toNat ≤ s.time.toNat →
      ∃ v : State, exec (.ptpLockTimeout q) s = .next (v.finishCmd w.cmd 0x0C) ∧ v.fw.ptpWait = rest ∧ v.time = s.time) := by
  change (_ → execPtpLockTimeout q s = .next s) ∧ ∀ (w : PtpWait) rest, _ → _ → _ → ∃ v : State, execPtpLockTimeout q s = .next (v.finishCmd w.cmd 0x0C) ∧ _
  unfold execPtpLockTimeout
  refine ⟨fun h => ?_, fun w rest hw hq ht => ⟨s.modFw fun f => { f with ptpWait := f.ptpWait.erase w }, ?_, ?_, rfl⟩⟩
  · rw [List.find?_eq_none.2]
    intro w hw hc
    simp only [Bool.and_eq_true, decide_eq_true_eq, BitVec.ult, Bool.not_eq_true', decide_eq_false_iff_not] at hc
    exact hc.2 (h w hw hc.1)
  · rw [hw, List.find?_cons_of_pos (by simpa [hq, BitVec.ult] using ht)]
  · rw [State.modFw_fw]
    dsimp only
    rw [hw, List.erase_cons_head]
end Sys2Proof.Claims
end

section
namespace Sys2Proof
open Sys2Proof.Machine Sys2Proof.Claims

/-- Settles O53, clause by clause: the MEDIA commands run in the state in which they have begun, a packet is taken by the only stream, a frame
closes with its record, and sync messages lock TIMEB. In the statement's parentheses the clauses from CLOSE to the deadline stand beneath OPEN's
hypotheses, each about a state of its own: they are proved without them. -/
theorem mediaAndPtpSteps : Obligations.MediaAndPtpSteps := by
  refine ⟨fun s q i e h hs => ?_, fun s i m t hg ht => ⟨execStallTimerExpiry_waits hg ht, execStallTimerExpiry_flags hg ht⟩,
    fun s port dom time off h => execPtpSyncMessage_other h _,
    fun s port dom time offset x hsel hx => ⟨execPtpSyncMessage_far hsel hx, execPtpSyncMessage_near hsel hx, execPtpSyncMessage_locks hsel hx⟩,
    fun s port x hx => execPtpLockLoss_loses hx, execPtpLockTimeout_ends⟩
  obtain ⟨hok, hmap⟩ := execMediaOpen_unread h hs
  refine ⟨hok, hmap, fun ha hb => ?_, fun s q i e h hs => execMediaClose_closes h hs, fun s q i e h hs => execMediaPtp_waits h hs rfl rfl,
    execMediaPacket_unread, fun s i m k path hstr hpath _ hv hsize => ?_, fun s i idx m f hg hf => ?_⟩
  · obtain ⟨hr, hd⟩ := execMediaOpen_refused h hs rfl ha hb
    exact ⟨hr, hd, execMediaOpen_good h hs rfl ha hb⟩
  · have h : OnlyStream s i m k path := ⟨hstr, hpath, hv, hsize⟩
    refine ⟨fun hm => ?_, fun hm hd hseen => ?_, fun hm hd hf hl hc hn => ⟨fun hb => ?_, fun hb hmark hseg => ?_⟩, fun hm hd hf hc => ?_⟩
    · exact ⟨_, _, execMediaPacket_malformed h hm, setStream_get_same _ _ _, rfl, count_stats m 3, rfl⟩
    · exact ⟨_, _, execMediaPacket_seen h hm hd hseen, setStream_get_same _ _ _, List.length_map .., count_stats m 1, rfl⟩
    · exact ⟨_, _, execMediaPacket_opens h hm hd hf hc hn, newFrame_drops h.get hl hf hb _, rfl, rfl, count_stats m 6⟩
    · obtain ⟨m', f, hget, hframes, hidx, hbuf, hfirst, hpkts, hrtp, hnext, hstall, hstats⟩ :=
        newFrame_opens (path := path) h.get hl hf hb hseg hmark (m.extend k.rtpTs s.time)
      exact ⟨_, m', f, execMediaPacket_opens h hm hd hf hc hn, hget, hframes, hidx, hbuf, hfirst, hpkts, hrtp, hnext, hstall,
        fun j => hstats ▸ count_stats m 0 j⟩
    · exact ⟨_, _, execMediaPacket_late h hm hd hf hc, setStream_get_same _ _ _, rfl, count_stats m 2, rfl⟩
  · have hidx : f.idx = idx := by simpa using List.find?_some hf
    rw [execFrameDeadline_eq hg hf]
    refine ⟨fun h => by rw [if_neg h.not_ge], fun h => ?_⟩
    rw [if_pos h]
    obtain ⟨hframes, hclosed, hstats⟩ := closedStream_fields (m := m) hidx
    refine ⟨_, closedStream m f, rfl, ?_, hframes, hclosed, hstats, fun n p hw hl hp => ?_⟩
    · rw [closeFrame_streams]; exact tblGet?_tblSet_same _ _ _
    · exact hidx ▸ closeFrame_record hw hl hp i f
end Sys2Proof
end

section
/-! PROOFS. What an injection, the completion of a request and a resend leave of the state (R28, R36, R132). -/
namespace Sys2Proof.Claims
open Sys2Proof.Machine

/-! ## Injections -/

/-- Packets enter the fabric and requests change: nothing else does but the watershed's counts. -/
structure Injects (s u : State) : Prop where
  frame : u = { s with cores := u.cores, leaves := u.leaves, net := u.net, reqs := u.reqs }
  core : ∀ p, ∃ n m, u.core p = { s.core p with sent := n, minSent := m }

theorem Injects.of_eq {s u : State} (hf : u = { s with leaves := u.leaves, net := u.net, reqs := u.reqs }) : Injects s u := by
  have hc : u.cores = s.cores := by rw [hf]
  exact ⟨by rw [hc]; exact hf, fun p => ⟨_, _, by unfold State.core; rw [hc]⟩⟩

theorem Injects.trans {s u v : State} (h : Injects s u) (k : Injects u v) : Injects s v := by
  refine ⟨by rw [k.frame, h.frame], fun p => ?_⟩
  obtain ⟨_, _, hc⟩ := h.core p
  obtain ⟨n, m, kc⟩ := k.core p
  exact ⟨n, m, by rw [kc, hc]⟩

theorem Injects.thread? {s u : State} (h : Injects s u) (p k : Nat) : u.thread? p k = s.thread? p k := by
  obtain ⟨_, _, hc⟩ := h.core p
  rw [State.thread?, hc, State.thread?]

theorem Injects.mem {s u : State} (h : Injects s u) : u.mem = s.mem := by rw [h.frame]
theorem Injects.host {s u : State} (h : Injects s u) : u.host = s.host := by rw [h.frame]
theorem Injects.fw {s u : State} (h : Injects s u) : u.fw = s.fw := by rw [h.frame]
theorem Injects.nodes {s u : State} (h : Injects s u) : u.nodes = s.nodes := by rw [h.frame]

/-- The watershed's count. -/
theorem Injects.countSent (s : State) (n : Nat) (vt : BitVec 32) : Injects s (s.countSent n vt) := by
  unfold State.countSent
  split
  · refine ⟨rfl, fun p => ?_⟩
    by_cases h : p = n
    · rw [h, State.core_modCore_same]; exact ⟨_, _, rfl⟩
    · rw [State.core_modCore_other _ _ _ _ h]; exact ⟨_, _, rfl⟩
  · exact .of_eq rfl

theorem countSent_net (s : State) (n : Nat) (vt : BitVec 32) : (s.countSent n vt).net = s.net := by unfold State.countSent; split <;> rfl

/-- An injection. -/
theorem Injects.inject (s : State) (k : Packet) (first : Bool) : Injects s (s.inject k first) := by
  unfold State.inject
  extract_lets k' u
  refine Injects.trans (u := u) ?_ (.of_eq rfl)
  unfold u
  split
  · exact .countSent s _ _
  · exact .of_eq rfl

/-- The packet injected is the one offered, in the colour of its source where it counts. -/
theorem inject_net (s : State) (k : Packet) (first : Bool) : ∃ c, (s.inject k first).net = s.net ++ [{ k with colour := c }] := by
  unfold State.inject
  by_cases h : (k.body.counted && first) = true
  · exact ⟨s.colourOf k.src, by simp only [h, if_true, countSent_net]⟩
  · exact ⟨k.colour, by simp only [h, if_false, Bool.false_eq_true]⟩

/-- A request held back that goes. -/
theorem Injects.unpark (s : State) (src : Nat) : Injects s (s.unpark src) := by
  unfold State.unpark
  split
  · exact .of_eq rfl
  · exact Injects.trans (.of_eq rfl) (.inject _ _ _)

theorem unpark_length (s : State) (src : Nat) : (s.unpark src).reqs.length = s.reqs.length := by
  unfold State.unpark
  split
  · rfl
  · rw [inject_reqs]; exact List.length_map _

/-- A source that holds nothing back sends nothing. -/
theorem unpark_none {s : State} {src : Nat} (h : ∀ r ∈ s.reqs, r.src = src → r.parked = false) : s.unpark src = s := by
  have hn : (s.reqs.find? fun r => r.src == src && r.parked && !r.waiting && s.mayGo r) = none :=
    List.find?_eq_none.2 fun r hr => by
      by_cases e : r.src = src
      · simp [h r hr e]
      · simp [e]
  unfold State.unpark
  rw [hn]

/-! ## Completions -/

/-- The request has left; the thread of a slot at its source is t, and beyond the cores, the leaves, packets and requests nothing differs. -/
structure Settles (s u : State) (r : Req) (slot : Nat) (t : Thread) : Prop where
  frame : u = { s with cores := u.cores, leaves := u.leaves, net := u.net, reqs := u.reqs }
  short : u.reqs.length < s.reqs.length
  thread : u.thread? r.src slot = some t

/-- The state in which a request has left with its answer, before its use decides. -/
def released (s : State) (r : Req) (ans : Answer) : State :=
  State.countDrain { s with reqs := (s.reqs.erase r).filter fun q => !(r.withdrawn && q.withdraws r) } r ans

theorem modGroup_thread? (s : State) (hp gid : Nat) (f : Group → Group) (p k : Nat) : (s.modGroup hp gid f).thread? p k = s.thread? p k := by
  unfold State.thread? State.modGroup
  by_cases h : p = hp
  · rw [h, State.core_modCore_same]; rfl
  · rw [State.core_modCore_other _ _ _ _ h]

/-- The count of a drain changes groups alone. -/
theorem countDrain_groups (s : State) (r : Req) (ans : Answer) : s.countDrain r ans = s ∨ ∃ hp gid f, s.countDrain r ans = s.modGroup hp gid f := by
  unfold State.countDrain
  split
  · exact .inl rfl
  · split
    · exact .inl rfl
    · exact .inr ⟨_, _, _, rfl⟩

theorem countDrain_thread? (s : State) (r : Req) (ans : Answer) (p k : Nat) : (s.countDrain r ans).thread? p k = s.thread? p k := by
  rcases countDrain_groups s r ans with h | ⟨_, _, _, h⟩
  · rw [h]
  · rw [h, modGroup_thread?]

theorem released_eq (s : State) (r : Req) (ans : Answer) : released s r ans =
    { s with cores := (released s r ans).cores, reqs := (s.reqs.erase r).filter fun q => !(r.withdrawn && q.withdraws r) } := by
  unfold released
  rcases countDrain_groups { s with reqs := (s.reqs.erase r).filter fun q => !(r.withdrawn && q.withdraws r) } r ans with h | ⟨_, _, _, h⟩
  · rw [h]
  · rw [h]; rfl

theorem released_length {s : State} {r : Req} (h : r ∈ s.reqs) (ans : Answer) : (released s r ans).reqs.length < s.reqs.length := by
  rw [released_eq]
  have := List.length_filter_le (fun q => !(r.withdrawn && Req.withdraws q r)) (s.reqs.erase r)
  have := List.length_pos_of_mem h
  rw [List.length_erase_of_mem h] at *
  dsimp only
  omega

theorem released_thread? (s : State) (r : Req) (ans : Answer) (p k : Nat) : (released s r ans).thread? p k = s.thread? p k :=
  countDrain_thread? _ r ans p k

/-- A request leaves. -/
theorem Settles.released {s : State} {r : Req} {slot : Nat} {t : Thread} (h : r ∈ s.reqs) (ht : s.thread? r.src slot = some t) (ans : Answer) :
    Settles s (released s r ans) r slot t :=
  ⟨by conv_lhs => rw [released_eq]
      rw [released_eq], released_length h ans, by rw [released_thread?, ht]⟩

section
variable {s u : State} {r : Req} {slot : Nat} {t : Thread}

/-- Its thread changes. -/
theorem Settles.modAsker (h : Settles s u r slot t) (hr : r.slot = some slot) (f : Thread → Thread) : Settles s (u.modAsker r f) r slot (f t) := by
  have e : u.modAsker r f = u.setThread r.src slot (f t) := by simp [State.modAsker, State.modThread, hr, h.thread]
  rw [e]
  exact ⟨by rw [h.frame]; rfl, h.short, State.thread?_setThread_same _ _ _ _⟩

/-- A core changes otherwise than in its threads. -/
theorem Settles.modCore (h : Settles s u r slot t) (p : Nat) {f : Core → Core} (hf : ∀ c, (f c).threads = c.threads) :
    Settles s (u.modCore p f) r slot t := by
  refine ⟨by rw [h.frame]; rfl, h.short, ?_⟩
  rw [← h.thread, State.thread?, State.thread?]
  by_cases e : r.src = p
  · rw [e, State.core_modCore_same, hf]
  · rw [State.core_modCore_other _ _ _ _ e]

/-- The answer is a fault, which the thread holds. -/
theorem Settles.answerFault (h : Settles s u r slot t) (hr : r.slot = some slot) (hh : r.handler = false) (ht : t.held = none) (c : BitVec 8) (d : BitVec 4) :
    Settles s (u.answerFault r c d) r slot { t with held := some { code := c, detail := d, async := true, tval := r.va } } := by
  have e : u.answerFault r c d = u.setThread r.src slot { t with held := some { code := c, detail := d, async := true, tval := r.va } } := by
    simp [State.answerFault, State.reportFault, hr, h.thread, hh, ht]
  rw [e]
  exact ⟨by rw [h.frame]; rfl, h.short, State.thread?_setThread_same _ _ _ _⟩

/-- The next request that was held back goes. -/
theorem Settles.unpark (h : Settles s u r slot t) (src : Nat) : Settles s (u.unpark src) r slot t := by
  have k := Injects.unpark u src
  exact ⟨by rw [k.frame, h.frame], by rw [unpark_length]; exact h.short, by rw [k.thread?]; exact h.thread⟩

theorem Settles.mem (h : Settles s u r slot t) : u.mem = s.mem := by rw [h.frame]
theorem Settles.host (h : Settles s u r slot t) : u.host = s.host := by rw [h.frame]
end

/-! ## What each use does with its answer -/

theorem complete_store_fault {s : State} {r : Req} (h : r.use = .store) (c : BitVec 8) (d : BitVec 4) :
    s.complete r [] (.fault c d) = (released s r (.fault c d)).answerFault r c d := by
  simp only [State.complete, h]; rfl

theorem complete_tagged_fault {s : State} {r : Req} {o : TagOp} {rd : Reg} (h : r.use = .tagged o rd) (c : BitVec 8) (d : BitVec 4) :
    s.complete r [] (.fault c d) =
      ((released s r (.fault c d)).modAsker r fun t => ({ t with digNext := none } : Thread).finish s.time).answerFault r c d := by
  have ht : (released s r (.fault c d)).time = s.time := by rw [released_eq]
  rw [← ht]
  simp only [State.complete, h]; rfl

/-- A request inside the package is lost to a fenced target. -/
theorem lost_package {s : State} {r : Req} (hp : r.toPeer = false) (h : ∀ dst ns seq, r.use ≠ .withdrawal dst ns seq) :
    s.lost r = s.complete r [] (.fault 0x09#8 0#4) := by
  unfold State.lost
  split
  next e => exact absurd e (h _ _ _)
  next => rw [hp]; rfl

theorem exhausted_package {s : State} {r : Req} (hp : r.toPeer = false) : s.exhausted r = (s.lost r).unpark r.src := by
  unfold State.exhausted
  rw [hp]; rfl

/-- A store that is lost. -/
theorem exhausted_store {s : State} {r : Req} {slot : Nat} {t : Thread} (hr : r ∈ s.reqs) (hp : r.toPeer = false) (hu : r.use = .store)
    (ha : Asker s r slot t) (hh : r.handler = false) (ht : t.held = none) :
    Settles s (s.exhausted r) r slot { t with held := some { code := 0x09#8, detail := 0#4, async := true, tval := r.va } } := by
  obtain ⟨hs, hthr⟩ := ha
  rw [exhausted_package hp, lost_package hp (by simp [hu]), complete_store_fault hu]
  exact ((Settles.released hr hthr _).answerFault hs hh ht _ _).unpark _

theorem held_finish (t : Thread) (now : Word) : (t.finish now).held = t.held := by
  unfold Thread.finish Thread.wake
  split <;> rfl

/-- A tagged operation that is lost. -/
theorem exhausted_tagged {s : State} {r : Req} {slot : Nat} {t : Thread} {o : TagOp} {rd : Reg} (hr : r ∈ s.reqs) (hp : r.toPeer = false)
    (hu : r.use = .tagged o rd) (ha : Asker s r slot t) (hh : r.handler = false) (ht : t.held = none) :
    ∃ t', Settles s (s.exhausted r) r slot t' ∧ t'.held = some { code := 0x09#8, detail := 0#4, async := true, tval := r.va } := by
  obtain ⟨hs, hthr⟩ := ha
  rw [exhausted_package hp, lost_package hp (by simp [hu]), complete_tagged_fault hu]
  have h := (Settles.released hr hthr (.fault 0x09#8 0#4)).modAsker hs fun t => ({ t with digNext := none } : Thread).finish s.time
  have hn := held_finish ({ t with digNext := none }) s.time
  generalize ({ t with digNext := none } : Thread).finish s.time = t' at h hn
  exact ⟨_, (h.answerFault hs hh (hn.trans ht) _ _).unpark _, rfl⟩
end Sys2Proof.Claims
end

section
/-! PROOFS. The timers of requests (R28, R36, R38): a resend, or the loss of the access. -/
namespace Sys2Proof.Claims
open Sys2Proof.Machine

/-- The request of a timer has gone again with RETRY, its tries counted. -/
def SentAgain (s u : State) (r : Req) (n : Nat) : Prop :=
  ∃ q r', u.net = s.net ++ [q] ∧ q.src = r.src ∧ q.dst = r.dst ∧ q.seq = r.seq ∧ q.ns = r.ns ∧ q.body = r.body ∧ q.retry = true ∧
    r' ∈ u.reqs ∧ r'.tries = n ∧ r'.sent = s.time ∧ r'.backoff = none ∧ r'.seq = r.seq ∧ r'.use = r.use ∧ u.mem = s.mem ∧ u.reqs.length = s.reqs.length

/-- A resend puts the same packet into the fabric and restarts the request's timer. -/
theorem resend_sends {s : State} {r : Req} (hr : r ∈ s.reqs) (n : Nat) (counts : Bool) : SentAgain s (s.resend r n counts) r n := by
  unfold State.resend
  extract_lets r'
  obtain ⟨c, hn⟩ := inject_net (s.putReq r r') (r'.packet true) counts
  refine ⟨_, r', hn, rfl, rfl, rfl, rfl, rfl, rfl, ?_, rfl, rfl, rfl, rfl, rfl, ?_, ?_⟩
  · rw [inject_reqs]
    exact List.mem_map.2 ⟨r, hr, by simp⟩
  · rw [(Injects.inject _ _ _).mem]; rfl
  · rw [inject_reqs]; exact List.length_map _

section
variable {s : State} {j : Nat} {r : Req}

theorem execRetryTimeout_resends (hj : s.reqs[j]? = some r) (hp : r.parked = false) (hw : r.waiting = false) (hb : r.backoff = none)
    (hl : (if r.toPeer then 2000000 else 50000) ≤ (s.time - r.sent).toNat) (ht : r.tries < 3) :
    exec (.retryTimeout j) s = .next (s.resend r (r.tries + 1) false) := by
  change execRetryTimeout j s = _
  simp only [execRetryTimeout, hj, hp, hw, hb, Nat.not_lt.2 hl, ht]; rfl

theorem execRetryTimeout_loses (hj : s.reqs[j]? = some r) (hp : r.parked = false) (hw : r.waiting = false) (hb : r.backoff = none)
    (hl : (if r.toPeer then 2000000 else 50000) ≤ (s.time - r.sent).toNat) (ht : 3 ≤ r.tries) :
    exec (.retryTimeout j) s = .next (s.exhausted r) := by
  change execRetryTimeout j s = _
  simp only [execRetryTimeout, hj, hp, hw, hb, Nat.not_lt.2 hl, Nat.not_lt.2 ht]; rfl

theorem execRetryTimeout_early (hj : s.reqs[j]? = some r) (hl : (s.time - r.sent).toNat < if r.toPeer then 2000000 else 50000) :
    exec (.retryTimeout j) s = .next s := by
  change execRetryTimeout j s = _
  simp only [execRetryTimeout, hj, hl, decide_true, Bool.or_true, if_true]

theorem execBusyBackoffExpiry_resends {n : Nat} (hj : s.reqs[j]? = some r) (hb : r.backoff = some n) (hl : n ≤ (s.time - r.sent).toNat * 4) :
    exec (.busyBackoffExpiry j) s = .next (s.resend r r.tries true) := by
  change execBusyBackoffExpiry j s = _
  simp only [execBusyBackoffExpiry, hj, hb, if_neg (Nat.not_lt.2 hl)]

theorem execBusyBackoffExpiry_early {n : Nat} (hj : s.reqs[j]? = some r) (hb : r.backoff = some n) (hl : (s.time - r.sent).toNat * 4 < n) :
    exec (.busyBackoffExpiry j) s = .next s := by
  change execBusyBackoffExpiry j s = _
  simp only [execBusyBackoffExpiry, hj, hb, if_pos hl]

theorem execWaitResend_resends {o : TagOp} {rd : Reg} (hj : s.reqs[j]? = some r) (hu : r.use = .tagged o rd) (hw : r.waiting = true)
    (hl : 1000000 ≤ (s.time - r.sent).toNat) (ht : r.tries < 3) : exec (.waitResend j) s = .next (s.resend r (r.tries + 1) false) := by
  change execWaitResend j s = _
  simp only [execWaitResend, hj, hu, hw, Nat.not_lt.2 hl, ht]; rfl

theorem execWaitResend_loses {o : TagOp} {rd : Reg} (hj : s.reqs[j]? = some r) (hu : r.use = .tagged o rd) (hw : r.waiting = true)
    (hl : 1000000 ≤ (s.time - r.sent).toNat) (ht : 3 ≤ r.tries) : exec (.waitResend j) s = .next (s.exhausted r) := by
  change execWaitResend j s = _
  simp only [execWaitResend, hj, hu, hw, Nat.not_lt.2 hl, Nat.not_lt.2 ht]; rfl

theorem execWaitResend_early (hj : s.reqs[j]? = some r) (hl : (s.time - r.sent).toNat < 1000000) : exec (.waitResend j) s = .next s := by
  change execWaitResend j s = _
  simp only [execWaitResend, hj, hl, decide_true, Bool.or_true, if_true]
end
end Sys2Proof.Claims
end

section
namespace Sys2Proof
open Sys2Proof.Machine Sys2Proof.Claims

/-- Settles O44, timer by timer: each waits for its time, then sends the request again or completes the access as lost. -/
theorem requestTimersResendOrLose : Obligations.RequestTimersResendOrLose := by
  intro s j r hj
  have hr : r ∈ s.reqs := List.mem_of_getElem? hj
  refine ⟨fun hp hw hb hl => ⟨fun ht => ?_, fun slot t ht hpk hu ha hh hn => ?_⟩, execRetryTimeout_early hj, fun n hb => ⟨fun hl => ?_,
    execBusyBackoffExpiry_early hj hb⟩, fun o rd hu hw hl => ⟨fun ht hb => ?_, fun slot t ht hpk ha hh hn => ?_⟩, execWaitResend_early hj⟩
  · obtain ⟨q, r', h⟩ := resend_sends hr (r.tries + 1) false
    exact ⟨_, q, r', execRetryTimeout_resends hj hp hw hb hl ht, h⟩
  · have h := exhausted_store hr hpk hu ha hh hn
    exact ⟨_, execRetryTimeout_loses hj hp hw hb hl ht, h.short, h.thread⟩
  · obtain ⟨q, r', h⟩ := resend_sends hr r.tries true
    exact ⟨_, q, r', execBusyBackoffExpiry_resends hj hb hl, h⟩
  · obtain ⟨q, r', h⟩ := resend_sends hr (r.tries + 1) false
    exact ⟨_, q, r', execWaitResend_resends hj hu hw hl ht, h⟩
  · obtain ⟨t', h, hheld⟩ := exhausted_tagged hr hpk hu ha hh hn
    exact ⟨_, t', execWaitResend_loses hj hu hw hl ht, h.thread, h.short, hheld⟩
end Sys2Proof
end

section
/-! PROOFS. An answer that names its request reaches it (R36, R37). -/
namespace Sys2Proof.Claims
open Sys2Proof.Machine

/-- The state without packet k. -/
def taken (s : State) (k : Nat) : State := { s with net := s.net.eraseIdx k }

section
variable {s : State} {k : Nat} {p : Packet}

/-- An ejected packet of a row's kind is taken. -/
theorem takePacket_ejected (hk : s.net[k]? = some p) (hs : p.spot = .ejected) {f : Body → Bool} (hf : f p.body.inner = true) :
    s.takePacket k f = some (p, taken s k) := by
  simp only [State.takePacket, hk, hf, hs, beq_self_eq_true, Bool.and_self, if_true]; rfl

variable {r : Req}

theorem Names.mem (h : Names s k p r) : r ∈ s.reqs := List.mem_of_find?_eq_some h.2.2

theorem Names.src (h : Names s k p r) : r.src = p.dst := by
  have := List.find?_some h.2.2
  simp only [Bool.and_eq_true, beq_iff_eq] at this
  exact this.1.1.1.1

/-- The request of an answer that names it gets it. -/
theorem withAsked_named (h : Names s k p r) (hb : ∀ x b, p.body ≠ .transit x b) (f : Req → State) : (taken s k).withAsked p f = f r := by
  obtain ⟨⟨-, -, hcut⟩, hfen, hfind⟩ := h
  have hc : ((p.dst < 0x400 && ((taken s k).core p.dst).fenced) || (taken s k).nodeCut p.dst) = false := by
    rw [show (taken s k).nodeCut p.dst = false from hcut, Bool.or_false, Bool.and_eq_false_iff]
    by_cases hd : p.dst < 0x400
    · exact .inr (hfen hd)
    · exact .inl (decide_eq_false hd)
  have ha : (taken s k).asked p = some r := hfind
  simp only [State.withAsked, hc, ha, if_false, Bool.false_eq_true]

/-- An answer that names a request is taken. -/
theorem Names.take (h : Names s k p r) {f : Body → Bool} (hf : f p.body.inner = true) : s.takePacket k f = some (p, taken s k) :=
  takePacket_ejected h.1.1 h.1.2.1 hf

/-- The rows of answers, at the request they name. -/
theorem execReplyWithData_named (h : Names s k p r) {bs : List Byte} {ans : Answer} (hb : p.body = .data bs ans) :
    exec (.replyWithData k) s = .next ((taken s k).final p r bs ans) := by
  change execReplyWithData k s = _
  rw [execReplyWithData, h.take]
  · simp only [withAsked_named h (by simp [hb]), hb]
  · rw [hb]; rfl

theorem execBulkReadData_named (h : Names s k p r) {bs : List Byte} {ans : Answer} (hb : p.body = .bulkData bs ans) :
    exec (.bulkReadData k) s = .next ((taken s k).final p r bs ans) := by
  change execBulkReadData k s = _
  rw [execBulkReadData, h.take]
  · simp only [withAsked_named h (by simp [hb]), hb]
  · rw [hb]; rfl

theorem execAcknowledgement_final (h : Names s k p r) {ans : Answer} (hb : p.body = .ack false ans) :
    exec (.acknowledgement k) s = .next ((taken s k).final p r [] ans) := by
  change execAcknowledgement k s = _
  rw [execAcknowledgement, h.take]
  · simp only [withAsked_named h (by simp [hb]), hb]
  · rw [hb]; rfl

theorem execAcknowledgement_waits (h : Names s k p r) {ans : Answer} (hb : p.body = .ack true ans) (hu : ∀ x, r.use ≠ .ingress x) :
    exec (.acknowledgement k) s = .next ((taken s k).putReq r { r with waiting := true, tries := 0, sent := s.time }) := by
  change execAcknowledgement k s = _
  rw [execAcknowledgement, h.take]
  · simp only [withAsked_named h (by simp [hb]), hb]
  · rw [hb]; rfl

theorem execNegativeAcknowledgement_named (h : Names s k p r) {x : Nack} (hb : p.body = .nack x) :
    exec (.negativeAcknowledgement k) s = .next ((taken s k).refused p r x) := by
  change execNegativeAcknowledgement k s = _
  rw [execNegativeAcknowledgement, h.take]
  · simp only [withAsked_named h (by simp [hb]), hb]
  · rw [hb]; rfl

theorem execMigrationRefusal_named (h : Names s k p r) (hb : p.body = .migRefusal) :
    exec (.migrationRefusal k) s = .next ((taken s k).final p r [] (.fault 0x04#8 0#4)) := by
  change execMigrationRefusal k s = _
  rw [execMigrationRefusal, h.take]
  · simp only [withAsked_named h (by simp [hb])]
  · rw [hb]; rfl
end

/-! ## Values -/

theorem natOfBytes_lt (bs : List Byte) : natOfBytes bs < 2 ^ (8 * bs.length) := by
  induction bs with
  | nil => exact Nat.one_pos
  | cons b bs ih =>
    have := b.isLt
    rw [natOfBytes, List.length_cons, show 8 * (bs.length + 1) = 8 + 8 * bs.length by omega, Nat.pow_add]
    omega

/-- A load's value is the integer that its bytes stand for. -/
theorem loadVal_eq_valueOf (n : Nat) (sg : Bool) (bs : List Byte) : loadVal n sg bs = valueOf n sg (bs.take n) := by
  have hlt : natOfBytes (bs.take n) < 2 ^ (8 * n) :=
    Nat.lt_of_lt_of_le (natOfBytes_lt _) (Nat.pow_le_pow_right (by omega) (by rw [List.length_take]; omega))
  unfold loadVal valueOf
  generalize natOfBytes (bs.take n) = v at hlt
  cases sg
  · rfl
  · have htop : 2 ^ (8 * n - 1) ≤ v ↔ 2 ^ (8 * n) ≤ 2 * v := by
      rcases Nat.eq_zero_or_pos n with rfl | hn
      · simp at hlt ⊢; omega
      · have : 2 ^ (8 * n) = 2 * 2 ^ (8 * n - 1) := by rw [← Nat.pow_succ']; congr 1; omega
        omega
    simp only [sextN, Nat.mod_eq_of_lt hlt, ge_iff_le, htop, Bool.true_and, decide_eq_true_eq, if_true]
    split
    · push_cast; rfl
    · exact BitVec.ofInt_natCast _ _

/-- A write of an x register is all that the registers read. -/
theorem afterX_wx (t : Thread) (rd : Reg) (v : Word) : AfterX t (t.wx rd v) (some (rd, v)) := by
  intro q
  by_cases h0 : rd = 0#5
  · subst h0; simp
  · by_cases h : q = rd
    · subst h; simp [Thread.rx_wx_same _ _ _ h0, h0]
    · simp [Thread.rx_wx_other _ _ _ _ h, h]

theorem wx_keeps (t : Thread) (rd : Reg) (v : Word) : (t.wx rd v).pc = t.pc ∧ (t.wx rd v).run = t.run ∧ (t.wx rd v).p = t.p := by
  unfold Thread.wx; split <;> exact ⟨rfl, rfl, rfl⟩

@[simp] theorem fillWith_threads (c : Core) (fill : Option Nat) (bs : List Byte) (lru : Bool) : (c.fillWith fill bs lru).threads = c.threads := by
  cases fill <;> rfl

/-- A line that an answer fills stands in the L1. -/
theorem mem_fillWith (c : Core) (line : Nat) (bs : List Byte) (lru : Bool) : (line, bs, false) ∈ (c.fillWith (some line) bs lru).l1 := by
  cases lru <;> simp [Core.fillWith, Core.l1Fill]

/-! ## Uses -/

section
variable {s : State} {r : Req}

theorem complete_load {rd : Reg} {n off : Nat} {sg lru : Bool} {fill : Option Nat} (h : r.use = .load rd n sg off fill lru) (bs : List Byte) :
    s.complete r bs .ok = ((released s r .ok).modAsker r fun t => t.wx rd (loadVal n sg (bs.drop off))).modCore r.src
      fun c => c.fillWith fill bs lru := by
  simp only [State.complete, h]; rfl

theorem complete_atomic {rd : Reg} {aw : AtomWidth} (h : r.use = .atomic rd aw) (bs : List Byte) :
    s.complete r bs .ok = (released s r .ok).modAsker r fun t => t.wx rd (atomExt aw (wordOf bs)) := by
  simp only [State.complete, h]; rfl

theorem complete_fetch {line : Nat} (h : r.use = .fetch line) (bs : List Byte) :
    s.complete r bs .ok = (released s r .ok).modCore r.src
      fun c => { c with ic := (line, bs, false) :: (c.ic.filter fun e => e.1 ≠ line).take 511 } := by
  simp only [State.complete, h]; rfl

theorem complete_store_ok (h : r.use = .store) : s.complete r [] .ok = released s r .ok := by
  simp only [State.complete, h]; rfl

theorem complete_context_refused {slot : Nat} (h : r.use = .context slot) (c : BitVec 8) (d : BitVec 4) :
    s.complete r [] (.fault c d) = (released s r (.fault c d)).modThread r.src slot fun t => { t with run := .running, stay := true } := by
  simp only [State.complete, h]; rfl
end
end Sys2Proof.Claims
end

section
/-! PROOFS. Answers complete, delay, refuse or lose their requests (R28, R36 to R38, R72, R151, R155, R164, R175, R176). -/
namespace Sys2Proof.Claims
open Sys2Proof.Machine

section
variable {s : State} {k : Nat} {p : Packet} {r : Req} {slot : Nat} {t : Thread}

/-- What an injection leaves of a core. -/
theorem Injects.l1 {s u : State} (h : Injects s u) (p : Nat) : (u.core p).l1 = (s.core p).l1 := by obtain ⟨_, _, e⟩ := h.core p; rw [e]
theorem Injects.ic {s u : State} (h : Injects s u) (p : Nat) : (u.core p).ic = (s.core p).ic := by obtain ⟨_, _, e⟩ := h.core p; rw [e]
theorem Injects.evSlots {s u : State} (h : Injects s u) (p : Nat) : (u.core p).evSlots = (s.core p).evSlots := by
  obtain ⟨_, _, e⟩ := h.core p; rw [e]

/-- The asker's register has been written with the answer, and the request has left. -/
def Wrote (s : State) (r : Req) (slot : Nat) (t : Thread) (i : Instr) (rd : Reg) (v : Word) : Prop :=
  ∃ u t', exec i s = .next u ∧ u.thread? r.src slot = some t' ∧ AfterX t t' (some (rd, v)) ∧ t'.pc = t.pc ∧ t'.run = t.run ∧ t'.p = t.p ∧ u.mem = s.mem ∧
    u.host = s.host ∧ u.reqs.length < s.reqs.length

theorem Settles.wrote {u : State} {rd : Reg} {v : Word} (h : Settles (taken s k) u r slot (t.wx rd v)) {i : Instr} (e : exec i s = .next u) :
    Wrote s r slot t i rd v := by
  obtain ⟨hpc, hrun, hp⟩ := wx_keeps t rd v
  exact ⟨u, _, e, h.thread, afterX_wx t rd v, hpc, hrun, hp, h.mem, h.host, h.short⟩

/-- The request of an answer leaves with it. -/
theorem Names.released (h : Names s k p r) (ha : Asker s r slot t) (ans : Answer) : Settles (taken s k) (released (taken s k) r ans) r slot t :=
  Settles.released (s := taken s k) h.mem ha.2 ans

theorem final_load (h : Names s k p r) (ha : Asker s r slot t) {rd : Reg} {n off : Nat} {sg lru : Bool} {fill : Option Nat}
    (hu : r.use = .load rd n sg off fill lru) {bs : List Byte} {i : Instr}
    (e : exec i s = .next ((taken s k).final p r bs .ok)) : Wrote s r slot t i rd (valueOf n sg ((bs.drop off).take n)) := by
  rw [State.final, complete_load hu, loadVal_eq_valueOf] at e
  exact ((((h.released ha .ok).modAsker ha.1 _).modCore _ fun c => fillWith_threads c fill bs lru).unpark _).wrote e

theorem final_atomic (h : Names s k p r) (ha : Asker s r slot t) {rd : Reg} {aw : AtomWidth} (hu : r.use = .atomic rd aw) {bs : List Byte}
    {i : Instr} (e : exec i s = .next ((taken s k).final p r bs .ok)) : Wrote s r slot t i rd (atomExt aw (wordOf bs)) := by
  rw [State.final, complete_atomic hu] at e
  exact (((h.released ha .ok).modAsker ha.1 _).unpark _).wrote e

theorem final_load_fills (s : State) (p : Packet) {rd : Reg} {n off : Nat} {sg lru : Bool} {line : Nat}
    (hu : r.use = .load rd n sg off (some line) lru) (bs : List Byte) : (line, bs, false) ∈ ((s.final p r bs .ok).core r.src).l1 := by
  rw [State.final, complete_load hu]
  rw [(Injects.unpark _ _).l1, State.core_modCore_same]
  exact mem_fillWith _ line bs lru

theorem final_fetch (h : Names s k p r) (ha : Asker s r slot t) {line : Nat} (hu : r.use = .fetch line) (bs : List Byte) :
    (line, bs, false) ∈ (((taken s k).final p r bs .ok).core r.src).ic ∧ ((taken s k).final p r bs .ok).thread? r.src slot = some t := by
  rw [State.final, complete_fetch hu]
  refine ⟨?_, (((h.released ha .ok).modCore _ fun _ => by rfl).unpark _).thread⟩
  rw [(Injects.unpark _ _).ic, State.core_modCore_same]
  exact List.mem_cons_self

/-- A store refused by a fenced target: its thread holds the fault. -/
theorem refused_fenced_store (h : Names s k p r) (ha : Asker s r slot t) (hu : r.use = .store) (hh : r.handler = false) (ht : t.held = none) :
    Settles (taken s k) ((taken s k).refused p r .fenced) r slot
      { t with held := some { code := 0x09#8, detail := 0#4, async := true, tval := r.va } } := by
  rw [State.refused, State.final, complete_store_fault hu]
  exact ((h.released ha _).answerFault ha.1 hh ht _ _).unpark _

/-- A request that is put in another's place. -/
theorem mem_putReq {s : State} {r : Req} (h : r ∈ s.reqs) (r' : Req) : r' ∈ (s.putReq r r').reqs :=
  List.mem_map.2 ⟨r, h, by simp⟩

theorem putReq_length (s : State) (r r' : Req) : (s.putReq r r').reqs.length = s.reqs.length := List.length_map _

@[simp] theorem risen_evSlots (was c : Core) : (was.risen c).evSlots = c.evSlots := by unfold Core.risen; split <;> rfl

/-- An event that is refused waits in its slots. -/
theorem refusedFull_event (h : Names s k p r) (hu : r.use = .event slot) : ((taken s k).refusedFull p r).reqs.length < s.reqs.length ∧
    ∀ v ∈ (((taken s k).refusedFull p r).core r.src).evSlots, v.isFor r.dst = true → v.retry = true := by
  simp only [State.refusedFull, hu]
  refine ⟨?_, fun v hv hf => ?_⟩
  · have := List.length_pos_of_mem h.mem
    rw [unpark_length]
    change (s.reqs.erase r).length < _
    rw [List.length_erase_of_mem h.mem]
    omega
  · have e : ∀ (m : State) (l : List Req), ({ m with reqs := l } : State).core r.src = m.core r.src := fun _ _ => rfl
    rw [(Injects.unpark _ _).evSlots, e, State.core_modCore_same] at hv
    simp only [risen_evSlots, List.mem_map] at hv
    obtain ⟨w, -, rfl⟩ := hv
    split at hf
    · rename_i hw; rw [if_pos hw]
    · rename_i hw; exact absurd hf hw

/-- A nomad thread that its target refuses runs on where it was. -/
theorem final_context (s : State) (p : Packet) (hu : r.use = .context slot) (ht : s.thread? r.src slot = some t) :
    (s.final p r [] (.fault 0x04#8 0#4)).thread? r.src slot = some { t with run := .running, stay := true } := by
  rw [State.final, complete_context_refused hu, (Injects.unpark _ _).thread?, State.modThread, released_thread?, ht]
  exact State.thread?_setThread_same _ _ _ _
end

/-! ## Space notices -/

/-- A request stands in the list with its sender, destination, body and use. -/
theorem ask_asked (s : State) (src : Nat) (a : Ask) : (s.ask src a).reqs.length = s.reqs.length + 1 ∧
    ∃ y ∈ (s.ask src a).reqs, y.src = src ∧ y.dst = a.dst ∧ y.body = a.body ∧ y.use = a.use := by
  unfold State.ask
  extract_lets nd ns seq nd' parked r w u
  have h : u.reqs.length = s.reqs.length + 1 ∧ ∃ y ∈ u.reqs, y.src = src ∧ y.dst = a.dst ∧ y.body = a.body ∧ y.use = a.use :=
    ⟨by simp [u], r, by simp [u], rfl, rfl, rfl, rfl⟩
  split
  · exact h
  · rwa [inject_reqs]

/-- What a request leaves of a core. -/
theorem ask_evSlots (s : State) (src : Nat) (a : Ask) (p : Nat) : ((s.ask src a).core p).evSlots = (s.core p).evSlots := by
  obtain ⟨_, _, h⟩ := (AskKeeps.ask s src a).core p
  rw [h]

/-- A space notice: the slot that waits for it sends its event again. -/
theorem execSpaceNotice_resends {s : State} {k : Nat} {p : Packet} {v : EvSlot} (hk : s.net[k]? = some p) (hs : p.spot = .ejected) (hb : p.body = .space)
    (hd : p.dst < 0x400) (hv : ((s.core p.dst).evSlots.find? fun v => v.dst == p.src && v.retry) = some v) (hr : ∀ x, v.body ≠ .record x) :
    ∃ u r, exec (.spaceNotice k) s = .next u ∧ u.reqs.length = s.reqs.length + 1 ∧ r ∈ u.reqs ∧ r.src = p.dst ∧ r.dst = v.dst ∧ r.body = v.body ∧
      r.use = .event v.slot ∧ { v with retry := false } ∈ (u.core p.dst).evSlots := by
  have e : exec (.spaceNotice k) s = .next ((taken s k).sendSlot p.dst v) := by
    change execSpaceNotice k s = _
    have hv' : (((taken s k).core p.dst).evSlots.find? fun v => v.dst == p.src && v.retry) = some v := hv
    rw [execSpaceNotice, takePacket_ejected hk hs]
    · simp only [if_pos hd, hv']
    · rw [hb]; rfl
  unfold State.sendSlot at e
  extract_lets vt w at e
  obtain ⟨hlen, r, hmem, hsrc, hdst, hbody, huse⟩ := ask_asked w p.dst
    { dst := v.dst, body := v.body, lid := (w.core p.dst).lid, use := .event v.slot, vt := vt, owner := v.owner }
  refine ⟨_, r, e, hlen, hmem, hsrc, hdst, hbody, huse, ?_⟩
  rw [ask_evSlots, State.core_modCore_same]
  exact List.mem_map.2 ⟨v, List.mem_of_find?_eq_some hv, by simp⟩
end Sys2Proof.Claims
end

section
namespace Sys2Proof
open Sys2Proof.Machine Sys2Proof.Claims

/-- Settles O43, answer by answer: each finds the request it names, whose use decides what the thread, its core and the request become. -/
theorem answersReachTheirRequests : Obligations.AnswersReachTheirRequests := by
  intro s k p
  refine ⟨fun r slot t bs h ha => ⟨fun rd n sg off lru hb hu => ?_, fun rd aw hb hu => ?_, fun rd n sg off line lru hb hu => ?_, fun line hb hu => ?_,
    fun hb hu => ?_, fun hb hu hh ht => ?_⟩, fun r h => ⟨fun hb hu => ?_, fun hb => ?_, fun slot hb hu => ?_, fun slot t hb hu ht => ?_⟩,
    fun v hk hs hb hd hv hr => execSpaceNotice_resends hk hs hb hd hv hr⟩
  · exact final_load h ha hu (execReplyWithData_named h hb)
  · exact final_atomic h ha hu (execReplyWithData_named h hb)
  · exact ⟨final_load h ha hu (execBulkReadData_named h hb), _, execBulkReadData_named h hb, final_load_fills _ p hu bs⟩
  · exact ⟨_, execBulkReadData_named h hb, final_fetch h ha hu bs⟩
  · have hs := (h.released ha .ok).unpark p.dst
    refine ⟨_, execAcknowledgement_final h hb, ?_⟩
    rw [State.final, complete_store_ok hu]
    exact ⟨hs.thread, hs.mem, hs.short⟩
  · have hs := refused_fenced_store h ha hu hh ht
    exact ⟨_, _, execNegativeAcknowledgement_named h hb, hs.thread, hs.short, rfl⟩
  · exact ⟨_, _, execAcknowledgement_waits h hb hu, mem_putReq h.mem _, rfl, putReq_length _ _ _, rfl⟩
  · exact ⟨_, _, execNegativeAcknowledgement_named h hb, mem_putReq h.mem _, rfl, rfl⟩
  · exact ⟨_, execNegativeAcknowledgement_named h hb, refusedFull_event h hu⟩
  · exact ⟨_, execMigrationRefusal_named h hb, final_context _ p hu ht⟩
end Sys2Proof
end

section
/-! PROOFS. Translations of memory space (R57, R58): bytes of one page, at their homes. -/
namespace Sys2Proof.Claims
open Sys2Proof.Machine

/-! ## Translations within a page -/

/-- A walk is made for a page. -/
theorem walk_page (s : State) {x y : Nat} (h : x / 65536 = y / 65536) : s.walk x = s.walk y := by
  have h16 : x / 2 ^ 16 = y / 2 ^ 16 := h
  have h24 : x / 2 ^ 24 = y / 2 ^ 24 := by
    rw [show (2 : Nat) ^ 24 = 65536 * 256 from rfl, ← Nat.div_div_eq_div_mul, ← Nat.div_div_eq_div_mul, h]
  have h37 : x / 2 ^ 37 = y / 2 ^ 37 := by
    rw [show (2 : Nat) ^ 37 = 65536 * 2097152 from rfl, ← Nat.div_div_eq_div_mul, ← Nat.div_div_eq_div_mul, h]
  simp only [State.walk, h16, h24, h37]

/-- A slice caches a translation for a line. -/
theorem cached_line (s : State) {x y : Nat} (h : x / 128 = y / 128) : s.cached? x = s.cached? y := by
  have hs : sliceOf x = sliceOf y := by
    unfold sliceOf
    rw [h, show x / 32768 = y / 32768 by rw [show (32768 : Nat) = 128 * 256 from rfl, ← Nat.div_div_eq_div_mul, ← Nat.div_div_eq_div_mul, h]]
  have hp : x / 65536 = y / 65536 := by
    rw [show (65536 : Nat) = 128 * 512 from rfl, ← Nat.div_div_eq_div_mul, ← Nat.div_div_eq_div_mul, h]
  simp only [State.cached?, hs, hp]

/-- Cached translations stand in the slices' tables. -/
theorem cached_tlb {s u : State} (h : u.tlb = s.tlb) (x : Nat) : u.cached? x = s.cached? x := by rw [State.cached?, State.cached?, h]

/-- Another slice's entry is found with or without one that leaves. -/
theorem find?_eraseP_of_disjoint {α : Type} {p q : α → Bool} (h : ∀ x, q x = true → p x = false) (l : List α) :
    (l.eraseP p).find? q = l.find? q := by
  induction l with
  | nil => rfl
  | cons a l ih =>
    cases hp : p a
    · rw [List.eraseP_cons_of_neg (by simp [hp]), List.find?_cons, List.find?_cons, ih]
    · have hq : q a = false := by
        cases hq : q a
        · rfl
        · rw [h a hq] at hp; cases hp
      rw [List.eraseP_cons_of_pos hp, List.find?_cons, hq]

/-- The entry that a slice caches for a page is the walk's: no translation of the page differs. -/
theorem xlate_cacheWalk (s : State) {off x : Nat} (h : x / 65536 = off / 65536) : (s.cacheWalk off).xlate x = s.xlate x := by
  unfold State.cacheWalk
  split
  · rfl
  next hc =>
    have hnone : s.cached? off = none := by simpa using hc
    cases hw : s.walk off with
    | none => rfl
    | some w =>
      have hwx : s.walk x = some w := (walk_page s h).trans hw
      dsimp only
      unfold State.xlate
      rw [show ∀ t, ({ s with tlb := t } : State).walk x = s.walk x from fun _ => rfl, hwx]
      by_cases hs : sliceOf x = sliceOf off
      · have hx : s.cached? x = none := by rw [State.cached?, hs, h]; exact hnone
        rw [hx]
        rw [State.cached?, Option.map_eq_none_iff, List.find?_eq_none] at hx
        have hold : ∀ l : List Tlb, l.Sublist s.tlb → (l.find? fun e => e.slice == sliceOf x && e.page == x / 65536) = none :=
          fun l hl => List.find?_eq_none.2 fun e he => hx e (hl.subset he)
        simp only [State.cached?, List.find?_append]
        rw [hold]
        · simp [hs, h]
        · split
          · exact List.eraseP_sublist
          · exact .refl _
      · have hd : ∀ e : Tlb, (e.slice == sliceOf x && e.page == x / 65536) = true → (e.slice == sliceOf off) = false := fun e he => by
          simp only [Bool.and_eq_true, beq_iff_eq] at he
          rw [he.1]; exact beq_eq_false_iff_ne.2 hs
        have hn : ¬(sliceOf off = sliceOf x) := fun e => hs e.symm
        simp only [State.cached?, List.find?_append]
        split
        · rw [find?_eraseP_of_disjoint hd]; simp [hn]
        · simp [hn]

/-- A cached translation leaves memory and what the host holds. -/
theorem cacheWalk_eq (s : State) (off : Nat) : s.cacheWalk off = { s with tlb := (s.cacheWalk off).tlb } := by
  unfold State.cacheWalk
  split
  · rfl
  · split <;> rfl
theorem cacheWalk_mem (s : State) (off : Nat) : (s.cacheWalk off).mem = s.mem := by rw [cacheWalk_eq]
theorem cacheWalk_host (s : State) (off : Nat) : (s.cacheWalk off).host = s.host := by rw [cacheWalk_eq]

/-- The blocks of bytes of one page lie in it. -/
theorem blocksOf_page {off n b : Nat} (h : off % 65536 + n ≤ 65536) (hb : b ∈ blocksOf off n) : b * 64 / 65536 = off / 65536 := by
  simp only [blocksOf, List.mem_map, List.mem_range] at hb
  omega

/-- Nor does poison of bytes of the page. -/
theorem memPoison_cacheWalk (s : State) {off n : Nat} (h : off % 65536 + n ≤ 65536) : (s.cacheWalk off).memPoison off n = s.memPoison off n := by
  have hb : ∀ b ∈ blocksOf off n, (s.cacheWalk off).blockAt b = s.blockAt b := fun b hb => by
    rw [State.blockAt, State.blockAt, xlate_cacheWalk s (blocksOf_page h hb)]
  have hbad : (s.cacheWalk off).hostBad = s.hostBad ∧ (s.cacheWalk off).bad = s.bad := by rw [cacheWalk_eq]; exact ⟨rfl, rfl⟩
  unfold State.memPoison
  rw [hbad.1, hbad.2, Bool.eq_iff_iff, List.any_eq_true, List.any_eq_true]
  exact exists_congr fun b => and_congr_right fun hm => by rw [hb b hm]

/-! ## Bytes at their homes -/

/-- The memory that backs a page. -/
def backed (s : State) (host : Bool) : Memory := if host then s.host else s.mem
/-- Bytes put into the memory that backs a page. -/
def putBacked (s : State) (host : Bool) (a : Nat) (bs : List Byte) : State :=
  if host then { s with host := memWrite s.host a bs } else { s with mem := memWrite s.mem a bs }

section
variable {s : State} {off n b : Nat} {host : Bool}

/-- Bytes of one translation are read one after another. -/
theorem readAt_const (s : State) (host : Bool) (b : Nat) (w : Option (Bool × Nat)) : ∀ (n off : Nat), off % 65536 + n ≤ 65536 →
    (n ≠ 0 → off % 65536 = 0 → s.walk off = w) → (∀ x, off ≤ x → x < off + n → (s.cached? x).or w = some (host, b)) →
    s.readAt w (some (host, b)) off n = memRead (backed s host) (b + off % 65536) n
  | 0, _, _, _, _ => rfl
  | n + 1, off, hpage, hw, hx => by
    have hw' : (if off % 65536 = 0 then s.walk off else w) = w := by
      split
      next h => exact hw (by omega) h
      · rfl
    have ht : (if off % 128 = 0 then (s.cached? off).or w else some (host, b)) = some (host, b) := by
      split
      · exact hx off (by omega) (by omega)
      · rfl
    rw [State.readAt, hw', ht, memRead]
    congr 1
    · cases host <;> rfl
    · rcases Nat.eq_zero_or_pos n with rfl | hn
      · rfl
      · rw [readAt_const s host b w n (off + 1) (by omega) (by omega) fun x h1 h2 => hx x (by omega) (by omega)]
        congr 1; omega

/-- Bytes of one translation are put one after another. -/
theorem putAt_const (host : Bool) (b : Nat) (w : Option (Bool × Nat)) : ∀ (bs : List Byte) (s : State) (off : Nat), off % 65536 + bs.length ≤ 65536 →
    (bs ≠ [] → off % 65536 = 0 → s.walk off = w) → (∀ x, off ≤ x → x < off + bs.length → (s.cached? x).or w = some (host, b)) →
    s.putAt w (some (host, b)) off bs = putBacked s host (b + off % 65536) bs
  | [], s, _, _, _, _ => by cases host <;> rfl
  | v :: bs, s, off, hpage, hw, hx => by
    rw [List.length_cons] at hpage hx
    have hw' : (if off % 65536 = 0 then s.walk off else w) = w := by
      split
      next h => exact hw (by simp) h
      · rfl
    have ht : (if off % 128 = 0 then (s.cached? off).or w else some (host, b)) = some (host, b) := by
      split
      · exact hx off (by omega) (by omega)
      · rfl
    have hne : bs ≠ [] → (off + 1) % 65536 = off % 65536 + 1 := fun h => by
      have := List.length_pos_iff.2 h; omega
    have hrest : ∀ u : State, u.tlb = s.tlb → u.putAt w (some (host, b)) (off + 1) bs = putBacked u host (b + off % 65536 + 1) bs := fun u hu => by
      by_cases h : bs = []
      · subst h; cases host <;> rfl
      · rw [putAt_const host b w bs u (off + 1) (by rw [hne h]; omega) (fun _ h0 => by rw [hne h] at h0; omega)
          (fun x h1 h2 => by rw [cached_tlb hu]; exact hx x (by omega) (by omega)), hne h, Nat.add_assoc]
    rw [State.putAt, hw', ht]
    cases host
    · exact hrest _ rfl
    · exact hrest _ rfl

theorem Lies.first (h : Lies s off n host b) : s.xlate off = some (host, b) := h.2 off (Nat.le_refl _) (by omega)

/-- Within a page every walk is the first byte's. -/
theorem Lies.or_walk (h : Lies s off n host b) {x : Nat} (h1 : off ≤ x) (h2 : x < off + n) : (s.cached? x).or (s.walk off) = some (host, b) := by
  obtain ⟨hpage, hx⟩ := h
  rw [← hx x h1 (by omega), State.xlate, walk_page s (x := x) (y := off) (by omega)]

theorem Lies.cacheWalk (h : Lies s off n host b) : Lies (s.cacheWalk off) off n host b := by
  refine ⟨h.1, fun x h1 h2 => ?_⟩
  rw [xlate_cacheWalk s (by have := h.1; omega)]
  exact h.2 x h1 h2

theorem Lies.hostAddr (h : Lies s off n false b) : s.hostAddr? off = none := by rw [State.hostAddr?, h.first]

/-- Bytes are read where they lie. -/
theorem Lies.memBytes (h : Lies s off n host b) : s.memBytes off n = memRead (backed s host) (b + off % 65536) n := by
  rw [State.memBytes, h.first]
  exact readAt_const s host b _ n off h.1 (fun _ _ => rfl) fun x h1 h2 => h.or_walk h1 h2

/-- Bytes are stored where they lie. -/
theorem Lies.putAt {bs : List Byte} (h : Lies s off bs.length host b) :
    s.putAt (s.walk off) (s.xlate off) off bs = putBacked s host (b + off % 65536) bs := by
  rw [h.first]
  exact putAt_const host b _ bs s off h.1 (fun _ _ => rfl) fun x h1 h2 => h.or_walk h1 h2

theorem Lies.memStore_mem {bs : List Byte} (h : Lies s off bs.length host b) (z : Bool) :
    (s.memStore off bs z).mem = (putBacked s host (b + off % 65536) bs).mem := by
  rw [← h.putAt]; rfl
theorem Lies.memStore_host {bs : List Byte} (h : Lies s off bs.length host b) (z : Bool) :
    (s.memStore off bs z).host = (putBacked s host (b + off % 65536) bs).host := by
  rw [← h.putAt]; rfl
theorem Lies.memStore_tlb {bs : List Byte} (h : Lies s off bs.length host b) (z : Bool) : (s.memStore off bs z).tlb = s.tlb := by
  rw [show (s.memStore off bs z).tlb = (putBacked s host (b + off % 65536) bs).tlb by rw [← h.putAt]; rfl]
  cases host <;> rfl

/-- What is written is stored. -/
theorem stored_memWrite {m : Memory} (h : Memory.wf m = true) (a : Nat) (bs : List Byte) : Stored m (memWrite m a bs) a bs :=
  ⟨memRead_memWrite m a bs h, fun x hx => memGet_memWrite_other m a x bs h hx⟩

/-- A store of bytes that lie in LPDDR. -/
theorem Lies.stored {bs : List Byte} (h : Lies s off bs.length false b) (hm : Memory.wf s.mem = true) (z : Bool) :
    Stored s.mem (s.memStore off bs z).mem (b + off % 65536) bs := by
  rw [h.memStore_mem]; exact stored_memWrite hm _ _

/-- A store of bytes, in LPDDR or in host memory. -/
theorem Lies.stored_backed {bs : List Byte} (h : Lies s off bs.length host b) (hm : Memory.wf s.mem = true) (hh : Memory.wf s.host = true) (z : Bool) :
    Stored (backed s host) (backed (s.memStore off bs z) host) (b + off % 65536) bs ∧
      (if host then (s.memStore off bs z).mem = s.mem else (s.memStore off bs z).host = s.host) := by
  cases host
  · exact ⟨h.stored hm z, h.memStore_host z⟩
  · refine ⟨?_, h.memStore_mem z⟩
    rw [backed, backed, if_pos rfl, if_pos rfl, h.memStore_host]
    exact stored_memWrite hh _ _

/-! ## Recalls -/

theorem memWrite_append (m : Memory) (a : Nat) (xs ys : List Byte) : memWrite m a (xs ++ ys) = memWrite (memWrite m a xs) (a + xs.length) ys := by
  induction xs generalizing m a with
  | nil => rfl
  | cons x xs ih =>
    rw [List.cons_append, memWrite, memWrite, ih, List.length_cons]
    congr 1; omega

/-- A line that the host does not hold is not recalled. -/
theorem hostRecall_none {line : Nat} (h : tblGet? s.hostLines line = none) : s.hostRecall line = s := by
  rw [State.hostRecall, h]

/-- Nor are the lines of bytes of which it holds none. -/
theorem recallRange_notHeld (hn : 0 < n) (h : NotHeld s off n) : s.recallRange off n = s := by
  unfold State.recallRange
  split
  · rfl
  · have hl : ∀ i ∈ List.range ((off + n + 127) / 128 - off / 128), tblGet? s.hostLines (off / 128 + i) = none := fun i hi => by
      rw [List.mem_range] at hi
      have := h (max off ((off / 128 + i) * 128)) (by omega) (by omega)
      rwa [show max off ((off / 128 + i) * 128) / 128 = off / 128 + i by omega] at this
    generalize List.range _ = l at hl
    induction l with
    | nil => rfl
    | cons i l ih =>
      rw [List.foldl_cons, hostRecall_none (hl i List.mem_cons_self)]
      exact ih fun j hj => hl j (List.mem_cons_of_mem _ hj)

/-- The bytes of a line whose translation is cached lie at its base. -/
theorem lies_of_cached {line : Nat} (hc : s.cached? (line * 128) = some (host, b)) (h1 : line * 128 ≤ off) (h2 : off + max n 1 ≤ line * 128 + 128) :
    Lies s off n host b :=
  ⟨by omega, fun x hx hx' => by rw [State.xlate, cached_line s (y := line * 128) (by omega), hc]; rfl⟩

/-- A recalled line's data goes home. -/
theorem hostRecall_stored {line : Nat} {h : HostLine} (hg : tblGet? s.hostLines line = some h) (hc : s.cached? (line * 128) = some (false, b))
    (hlen : h.data.length = 128) (hm : Memory.wf s.mem = true) :
    Stored s.mem (s.hostRecall line).mem (b + line * 128 % 65536) h.data ∧ (s.hostRecall line).host = s.host := by
  have hlo : (h.data.take 64).length = 64 := by rw [List.length_take]; omega
  have hhi : ((h.data.drop 64).take 64).length = 64 := by rw [List.length_take, List.length_drop]; omega
  have h1 : Lies s (line * 128) (h.data.take 64).length false b := lies_of_cached hc (by omega) (by omega)
  have h2 : Lies (s.memStore (line * 128) (h.data.take 64) h.lo) (line * 128 + 64) ((h.data.drop 64).take 64).length false b := by
    refine lies_of_cached (line := line) ?_ (by omega) (by omega)
    rw [cached_tlb (h1.memStore_tlb _)]; exact hc
  have hdata : h.data.take 64 ++ (h.data.drop 64).take 64 = h.data := by
    rw [List.take_of_length_le (i := 64) (l := h.data.drop 64) (by rw [List.length_drop]; omega), List.take_append_drop]
  rw [State.hostRecall, hg]
  dsimp only
  rw [h2.memStore_mem, h2.memStore_host]
  constructor
  · have hs := stored_memWrite hm (b + line * 128 % 65536) (h.data.take 64 ++ (h.data.drop 64).take 64)
    rw [memWrite_append, hlo, hdata] at hs
    rw [putBacked, if_neg Bool.false_ne_true, h1.memStore_mem, putBacked, if_neg Bool.false_ne_true,
      show b + (line * 128 + 64) % 65536 = b + line * 128 % 65536 + 64 by omega]
    exact hs
  · rw [putBacked, if_neg Bool.false_ne_true, h1.memStore_host, putBacked, if_neg Bool.false_ne_true]
end
end Sys2Proof.Claims
end

section
/-! PROOFS. Agents, forwards and probes (R33, R34, R73, R74, R77). -/
namespace Sys2Proof.Claims
open Sys2Proof.Machine

/-! ## Requests at their homes -/

/-- A put of bytes changes the two memories alone. -/
theorem putAt_eq (bs : List Byte) : ∀ (s : State) (w t : Option (Bool × Nat)) (off : Nat),
    s.putAt w t off bs = { s with mem := (s.putAt w t off bs).mem, host := (s.putAt w t off bs).host } := by
  induction bs with
  | nil => intros; rfl
  | cons b bs ih =>
    intro s w t off
    unfold State.putAt
    dsimp only
    generalize (if off % 128 = 0 then _ else t) = t'
    generalize (if off % 65536 = 0 then s.walk off else w) = w'
    rw [ih]
    rcases t' with _ | ⟨_ | _, a⟩ <;> rfl

/-- A store changes the memories, their poison and their upsets. -/
theorem memStore_eq (s : State) (off : Nat) (bs : List Byte) (z : Bool) : ∃ m h bd hb up,
    s.memStore off bs z = { s with mem := m, host := h, bad := bd, hostBad := hb, upsets := up } := by
  unfold State.memStore
  rw [putAt_eq]
  exact ⟨_, _, _, _, _, rfl⟩

/-- Apart from memory and its translations nothing differs. -/
structure AtHome (s u : State) : Prop where
  frame : u = { s with mem := u.mem, host := u.host, bad := u.bad, hostBad := u.hostBad, upsets := u.upsets, tlb := u.tlb }

section
variable {s u v : State}

theorem AtHome.refl (s : State) : AtHome s s := ⟨rfl⟩
theorem AtHome.trans (h : AtHome s u) (k : AtHome u v) : AtHome s v := ⟨by rw [k.frame, h.frame]⟩
theorem AtHome.cacheWalk (s : State) (off : Nat) : AtHome s (s.cacheWalk off) := ⟨by rw [cacheWalk_eq]⟩
theorem AtHome.memStore (s : State) (off : Nat) (bs : List Byte) (z : Bool) : AtHome s (s.memStore off bs z) := by
  obtain ⟨_, _, _, _, _, h⟩ := memStore_eq s off bs z
  exact ⟨by rw [h]⟩
theorem AtHome.net (h : AtHome s u) : u.net = s.net := by rw [h.frame]
theorem AtHome.nodes (h : AtHome s u) : u.nodes = s.nodes := by rw [h.frame]
theorem AtHome.node (h : AtHome s u) (n : Nat) : u.node n = s.node n := by rw [State.node, h.nodes]; rfl
theorem AtHome.hostLines (h : AtHome s u) : u.hostLines = s.hostLines := by rw [h.frame]
end

section
variable {s : State} {off n b : Nat} {host : Bool}

theorem Lies.xlate_isNone (h : Lies s off n host b) : (s.xlate off).isNone = false := by rw [h.first]; rfl

/-- The memory that backs a page is not changed by a translation. -/
theorem backed_cacheWalk (s : State) (off : Nat) (host : Bool) : backed (s.cacheWalk off) host = backed s host := by
  rw [backed, backed, cacheWalk_mem, cacheWalk_host]

/-- A read at its home. -/
theorem homeDo_read (h : Lies s off n host b) (hp : s.memPoison off n = false) (ia : Nat) :
    s.homeDo (.read ia n) off = (s.cacheWalk off, .ok, memRead (backed s host) (b + off % 65536) n) := by
  rw [← backed_cacheWalk s off host, ← h.cacheWalk.memBytes]
  simp only [State.homeDo, h.xlate_isNone, memPoison_cacheWalk s h.1, hp, Bool.false_eq_true, if_false]

/-- A write at its home. -/
theorem homeDo_write {d : List Byte} (h : Lies s off d.length host b) (ia : Nat) (z : Bool) :
    s.homeDo (.write ia d z) off = ((s.cacheWalk off).memStore off d z, .ok, []) := by
  simp only [State.homeDo, h.xlate_isNone, Bool.false_eq_true, if_false]

/-- A reduction at its home in LPDDR. -/
theorem homeDo_reduce {aw : AtomWidth} (h : Lies s off (atomBytes aw) false b) (hp : s.memPoison off (atomBytes aw) = false) (ia : Nat) (o : RedOp) (x : Word) :
    s.homeDo (.reduce ia aw o x) off = ((s.cacheWalk off).memStore off
      (bytesOf (amoWord aw (redAmo o) (wordOf (memRead s.mem (b + off % 65536) (atomBytes aw))) x) (atomBytes aw)), .ok, []) := by
  have hm : memRead s.mem (b + off % 65536) (atomBytes aw) = (s.cacheWalk off).memBytes off (atomBytes aw) := by
    rw [h.cacheWalk.memBytes, backed_cacheWalk]; rfl
  rw [hm]
  simp only [State.homeDo, h.xlate_isNone, h.cacheWalk.hostAddr, memPoison_cacheWalk s h.1, hp, atomicBytes, Option.isSome_none, Bool.false_eq_true, if_false]

/-- What a store leaves at the home of its bytes, once their translation is cached. -/
theorem home_stored {d : List Byte} (h : Lies s off d.length host b) (hm : Memory.wf s.mem = true) (hh : Memory.wf s.host = true) (z : Bool) :
    Stored (backed s host) (backed ((s.cacheWalk off).memStore off d z) host) (b + off % 65536) d ∧
      (if host then ((s.cacheWalk off).memStore off d z).mem = s.mem else ((s.cacheWalk off).memStore off d z).host = s.host) := by
  have := h.cacheWalk.stored_backed (by rw [cacheWalk_mem]; exact hm) (by rw [cacheWalk_host]; exact hh) z
  rwa [backed_cacheWalk, cacheWalk_mem, cacheWalk_host] at this

/-- The same in LPDDR. -/
theorem home_stored_lpddr {d : List Byte} (h : Lies s off d.length false b) (hm : Memory.wf s.mem = true) (z : Bool) :
    Stored s.mem ((s.cacheWalk off).memStore off d z).mem (b + off % 65536) d := by
  have := h.cacheWalk.stored (by rw [cacheWalk_mem]; exact hm) z
  rwa [cacheWalk_mem] at this
end

/-! ## Duplicates -/

/-- A packet has been recorded in its window, and counted. -/
structure Took (s : State) (k : Packet) (v : State) : Prop where
  frame : v = { s with nodes := v.nodes, leaves := v.leaves, cores := v.cores }
  bounds : ∀ n, (v.leaf n).bounds = (s.leaf n).bounds
  seqN : (v.node k.dst).seqN = (s.node k.dst).seqN

section
variable {s v : State} {k : Packet} {off n b : Nat} {inHost : Bool}

theorem Took.net (h : Took s k v) : v.net = s.net := by rw [h.frame]
theorem Took.mem (h : Took s k v) : v.mem = s.mem := by rw [h.frame]
theorem Took.host (h : Took s k v) : v.host = s.host := by rw [h.frame]
theorem Took.lies (h : Took s k v) (hl : Lies s off n inHost b) : Lies v off n inHost b := by rw [h.frame]; exact hl
theorem Took.notHeld (h : Took s k v) (hn : NotHeld s off n) : NotHeld v off n := by rw [h.frame]; exact hn
theorem Took.memPoison (h : Took s k v) (off n : Nat) : v.memPoison off n = s.memPoison off n := by rw [h.frame]; rfl
end

/-- A fresh packet's window takes it. -/
theorem took_fresh {s : State} {k : Packet} (h : Fresh s k) : ∃ v, Took s k v ∧ (k.ns = true ∧ v = s ∨ k.ns = false ∧ s.accept k = some v) := by
  cases hns : k.ns
  · obtain ⟨w, hw⟩ := Option.isSome_iff_exists.1 (h.resolve_left (by simp [hns]))
    refine ⟨s.setNode k.dst { s.node k.dst with windows := tblSet (s.node k.dst).windows k.src w }, ⟨rfl, fun _ => rfl, ?_⟩, .inr ⟨rfl, ?_⟩⟩
    · simp [State.node]
    · rw [State.accept, hw]; rfl
  · exact ⟨s, ⟨rfl, fun _ => rfl, rfl⟩, .inl ⟨rfl, rfl⟩⟩

/-- The count of a packet received. -/
theorem Took.countRecv {s v : State} {k : Packet} (h : Took s k v) (c : Bool) : Took s k (v.countRecv k.dst c) := by
  unfold State.countRecv
  split
  · exact ⟨by rw [h.frame]; rfl, h.bounds, h.seqN⟩
  · refine ⟨by rw [h.frame], fun n => ?_, h.seqN⟩
    rw [← h.bounds n]
    by_cases e : n = k.dst
    · subst e; simp [State.leaf]
    · simp [State.leaf, tblGetD_tblSet_other _ _ _ _ _ e]

/-- A fresh packet is performed. -/
theorem once_fresh {s : State} {k : Packet} (h : Fresh s k) : ∃ v, Took s k v ∧ ∀ f u, f v = some u → s.once k f = u := by
  obtain ⟨v, hv, ⟨hns, rfl⟩ | ⟨hns, ha⟩⟩ := took_fresh h
  · exact ⟨v, hv, fun f u hf => by simp [State.once, hns, hf]⟩
  · by_cases hc : k.body.counted = true
    · exact ⟨_, hv.countRecv k.colour, fun f u hf => by simp [State.once, hns, ha, hc, hf]⟩
    · exact ⟨v, hv, fun f u hf => by simp [State.once, hns, ha, hc, hf]⟩

/-! ## Delegated atomics -/

/-- What a request adds to the fabric, and what it leaves. -/
theorem ask_keeps (s : State) (src : Nat) (a : Ask) : (∃ rest, (s.ask src a).net = s.net ++ rest) ∧ (s.ask src a).mem = s.mem ∧
    (s.ask src a).host = s.host := by
  unfold State.ask
  extract_lets nd ns seq nd' parked r w u
  split
  · exact ⟨⟨[], by simp [u, w, State.setNode]⟩, rfl, rfl⟩
  · obtain ⟨c, hc⟩ := inject_net u (r.packet false) true
    have hi := Injects.inject u (r.packet false) true
    exact ⟨⟨_, hc⟩, by rw [hi.mem]; rfl, by rw [hi.host]; rfl⟩

/-- A record sent to another node is a request of its sender. -/
theorem sendRecord_sends {src dst : Nat} (h : src ≠ dst) (s : State) (vt : BitVec 32) (x : BitVec 128) : (∃ rest, (s.sendRecord src dst vt x).net = s.net ++ rest) ∧
    (s.sendRecord src dst vt x).mem = s.mem ∧ (s.sendRecord src dst vt x).host = s.host ∧
    ∃ r ∈ (s.sendRecord src dst vt x).reqs, r.src = src ∧ r.dst = dst ∧ r.body = .record x ∧ r.use = .record := by
  rw [State.sendRecord, if_neg h]
  obtain ⟨hnet, hmem, hhost⟩ := ask_keeps s src { dst := dst, body := .record x, lid := 0, use := .record, vt := vt }
  exact ⟨hnet, hmem, hhost, (ask_asked s src _).2⟩

theorem backed_congr {s u : State} (hm : u.mem = s.mem) (hh : u.host = s.host) (host : Bool) : backed u host = backed s host := by
  rw [backed, backed, hm, hh]

/-- The engine's leaf has taken the atomic's bound (R132). -/
def bounded (s : State) (k : Packet) (tag : BitVec 8) : State := { s with leaves := tblSet s.leaves k.dst ((s.leaf k.dst).accepts k tag) }

theorem backed_bounded (s : State) (k : Packet) (tag : BitVec 8) (host : Bool) : backed (bounded s k tag) host = backed s host := rfl

section
variable {s : State} {off b : Nat} {host : Bool} {aw : AtomWidth}

/-- A delegated atomic at its home. -/
theorem ramoDo_home (h : Lies s off (atomBytes aw) host b) (hn : NotHeld s off (atomBytes aw)) (hp : s.memPoison off (atomBytes aw) = false)
    (o : AmoOp) (x : Word) :
    let old := wordOf (memRead (backed s host) (b + off % 65536) (atomBytes aw))
    s.ramoDo off aw o x = ((s.cacheWalk off).memStore off (bytesOf (amoWord aw o old x) (atomBytes aw)), .ok, old) := by
  have hpos : 0 < atomBytes aw := by cases aw <;> decide
  rw [← backed_cacheWalk s off host, ← h.cacheWalk.memBytes]
  simp only [State.ramoDo, h.xlate_isNone, recallRange_notHeld hpos hn, memPoison_cacheWalk s h.1, hp, Bool.false_eq_true, if_false]

/-- The atomic engine performs a delegated atomic, acknowledges it and sends its record. -/
theorem atomicEngine_performs {k : Packet} {ia : Nat} (hl : (s.leaf k.dst).bounds.length < 256)
    (h : Lies s (ia % 2 ^ 47) (atomBytes aw) host b) (hn : NotHeld s (ia % 2 ^ 47) (atomBytes aw)) (hp : s.memPoison (ia % 2 ^ 47) (atomBytes aw) = false)
    (o : AmoOp) (x : Word) (tag : BitVec 8) :
    let old := wordOf (memRead (backed s host) (b + ia % 2 ^ 47 % 65536) (atomBytes aw))
    s.atomicEngine k ia aw o x tag = some ((((bounded s k tag).cacheWalk (ia % 2 ^ 47)).memStore (ia % 2 ^ 47) (bytesOf (amoWord aw o old x) (atomBytes aw))).answer
      k (.ack false .ok) false |>.sendRecord k.dst k.src k.vt (ramoRecord 0 tag k.vt old)) := by
  have e := ramoDo_home (s := bounded s k tag) h hn hp o x
  rw [backed_bounded] at e
  unfold State.atomicEngine
  dsimp only
  rw [if_neg (Nat.not_le.2 hl)]
  unfold bounded at e ⊢
  rw [e]
  rfl

/-- What a delegated atomic has done at its engine. -/
structure Delegated (s u : State) (k : Packet) (off : Nat) (host : Bool) (b : Nat) (aw : AtomWidth) (o : AmoOp) (x : Word) (tag : BitVec 8) : Prop where
  net : ∃ rest, u.net = s.net ++ [replyTo k.dst k.src k.ns k.seq (.ack false .ok)] ++ rest
  stored : Stored (backed s host) (backed u host) (b + off % 65536)
    (bytesOf (amoWord aw o (wordOf (memRead (backed s host) (b + off % 65536) (atomBytes aw))) x) (atomBytes aw))
  other : if host then u.mem = s.mem else u.host = s.host
  record : ∃ r ∈ u.reqs, r.src = k.dst ∧ r.dst = k.src ∧
    r.body = .record (ramoRecord 0 tag k.vt (wordOf (memRead (backed s host) (b + off % 65536) (atomBytes aw)))) ∧ r.use = .record

/-- A delegated atomic at its engine. -/
theorem atomicEngine_delegated {k : Packet} {ia : Nat} (hk : k.dst ≠ k.src) (hl : (s.leaf k.dst).bounds.length < 256)
    (h : Lies s (ia % 2 ^ 47) (atomBytes aw) host b) (hn : NotHeld s (ia % 2 ^ 47) (atomBytes aw)) (hp : s.memPoison (ia % 2 ^ 47) (atomBytes aw) = false)
    (hm : Memory.wf s.mem = true) (hh : Memory.wf s.host = true) (o : AmoOp) (x : Word) (tag : BitVec 8) :
    ∃ u, s.atomicEngine k ia aw o x tag = some u ∧ Delegated s u k (ia % 2 ^ 47) host b aw o x tag := by
  refine ⟨_, atomicEngine_performs hl h hn hp o x tag, ?_⟩
  generalize ia % 2 ^ 47 = off at h
  generalize hd : bytesOf (amoWord aw o (wordOf (memRead (backed s host) (b + off % 65536) (atomBytes aw))) x) (atomBytes aw) = d
  obtain ⟨hst, hother⟩ := home_stored (s := bounded s k tag) (off := off) (d := d) (host := host) (b := b)
    (by rw [← hd, bytesOf_length]; exact h) hm hh false
  have hat := (AtHome.cacheWalk (bounded s k tag) off).trans (.memStore _ off d false)
  generalize State.memStore _ off d false = v at hst hother hat
  obtain ⟨⟨rest, hnet⟩, hmem, hhost, hrec⟩ := sendRecord_sends hk (v.answer k (.ack false .ok) false) k.vt
    (ramoRecord 0 tag k.vt (wordOf (memRead (backed s host) (b + off % 65536) (atomBytes aw))))
  refine ⟨⟨rest, ?_⟩, ?_, ?_, hrec⟩
  · rw [hnet, show (v.answer k (.ack false .ok) false).net = v.net ++ [replyTo k.dst k.src k.ns k.seq (.ack false .ok)] from rfl, hat.net]; rfl
  · rw [hd, backed_congr hmem hhost]; exact hst
  · rw [hmem, hhost]; exact hother
end

/-! ## Rows -/

section
variable {s : State} {k : Nat} {p : Packet}

/-- A delegated atomic at an agent of an I/O die. -/
theorem execDelegatedAtomic_agent (ha : Arrives s k p) (hlo : 0x800 ≤ p.dst) (hhi : p.dst < 0xC00) (hag : p.dst % 256 = 2) {ia : Nat} {aw : AtomWidth}
    {o : AmoOp} {x : Word} {tag : BitVec 8} (hb : p.body = .delegated ia aw o x tag) :
    exec (.delegatedAtomic k) s = .next ((taken s k).once p fun s => s.atomicEngine p ia aw o x tag) := by
  change execDelegatedAtomic k s = _
  obtain ⟨hk, hs, hcut⟩ := ha
  rw [execDelegatedAtomic, takePacket_ejected hk hs]
  · have hcut' : (taken s k).nodeCut p.dst = false := hcut
    have h4 : ¬p.dst < 0x400 := by omega
    have h8 : ¬p.dst < 0x800 := by omega
    have hm : p.dst ≠ mgmtNode := by unfold mgmtNode agentNode; omega
    have hl : p.dst ≠ linkNode := by unfold linkNode agentNode; omega
    simp only [State.target, State.agentTarget, hcut', h4, h8, hhi, hm, hl, hag, hb, Bool.false_and, Bool.false_eq_true, if_false, if_true]
  · rw [hb]; rfl

/-- A forwarded request or a probe at the link agent. -/
theorem execForwardedRequest_link (hk : s.net[k]? = some p) (hs : p.spot = .ejected) (hd : p.dst = linkNode) {req : Body} {orig : Nat}
    {oseq : BitVec 16} {ons : Bool} (hb : p.body = .forwarded req orig oseq ons) : exec (.forwardedRequest k) s = .next ((taken s k).linkTarget p) := by
  change execForwardedRequest k s = _
  rw [execForwardedRequest, takePacket_ejected hk hs]
  · simp only [hd, if_true]
  · rw [hb]; rfl

theorem execProbe_link (hk : s.net[k]? = some p) (hs : p.spot = .ejected) (hd : p.dst = linkNode) {line : Nat} (hb : p.body = .probe line) :
    exec (.probe k) s = .next
      { (taken s k).hostRecall line with net := ((taken s k).hostRecall line).net ++ [replyTo p.dst p.src p.ns p.seq (.probeReply none)] } := by
  change execProbe k s = _
  rw [execProbe, takePacket_ejected hk hs]
  · simp only [hd, if_true, State.linkTarget, State.probeBack, hb]
  · rw [hb]; rfl
end

/-! ## Forwarded requests -/

/-- What the link agent answers goes to the original requester, and the credit back in a packet of its own. -/
def forwardAnswered (v : State) (p : Packet) (orig : Nat) (ons : Bool) (oseq : BitVec 16) (b : Body) : State :=
  { v with net := v.net ++ [replyTo p.src orig ons oseq b] }.sendNs p.dst p.src (.probeReply (some (p.ns, p.seq)))

section
variable {s v : State} {p : Packet} {req : Body} {orig : Nat} {oseq : BitVec 16} {ons : Bool} {ia : Nat}

theorem forwardAnswered_net {u : State} (hv : Took s p v) (h : AtHome v u) (b : Body) : (forwardAnswered u p orig ons oseq b).net =
    s.net ++ [replyTo p.src orig ons oseq b] ++ [replyTo p.dst p.src true (tblGetD (s.node p.dst).seqN p.src 0#16) (.probeReply (some (p.ns, p.seq)))] := by
  have hnet : v.net = s.net := by rw [hv.frame]
  unfold forwardAnswered State.sendNs State.nextNs
  dsimp only
  rw [show ({ u with net := u.net ++ [replyTo p.src orig ons oseq b] } : State).node p.dst = u.node p.dst from rfl, h.node, hv.seqN, State.setNode_net, h.net, hnet]

theorem forwardAnswered_mem (u : State) (b : Body) : (forwardAnswered u p orig ons oseq b).mem = u.mem := rfl

/-- The host's copy of a line answers a read, with its poison (R204). -/
theorem hostLine_read (h : HostLine) (ia n : Nat) : h.read (.read ia n) =
    (if (h.lo = true ∧ ia % 128 < 64) ∨ (h.hi = true ∧ 64 < ia % 128 + n) then .poison else .ok, (h.data.drop (ia % 128)).take n) := by
  simp only [HostLine.read, Bool.or_eq_true, Bool.and_eq_true, decide_eq_true_eq]

/-- A forwarded read of a line that the host holds. -/
theorem linkTarget_held {n : Nat} {h : HostLine} (hf : Fresh s p) (hb : p.body = .forwarded (.read ia n) orig oseq ons)
    (hh : tblGet? s.hostLines (ia % 2 ^ 47 / 128) = some h) : ∃ v, Took s p v ∧
    s.linkTarget p = forwardAnswered v p orig ons oseq (.data (h.read (.read ia n)).2 (h.read (.read ia n)).1) := by
  obtain ⟨v, hv, hc⟩ := took_fresh hf
  have hh' : tblGet? v.hostLines (ia % 2 ^ 47 / 128) = some h := by rw [hv.frame]; exact hh
  refine ⟨v, hv, ?_⟩
  rcases hc with ⟨hns, rfl⟩ | ⟨hns, ha⟩
  · simp only [State.linkTarget, State.probeBack, hb, hns, Body.ia?, hh', Body.reply, if_true, forwardAnswered]
  · simp only [State.linkTarget, State.probeBack, hb, hns, ha, Body.ia?, hh', Body.reply, Bool.false_eq_true, if_false, forwardAnswered]

/-- A forwarded request of a line that the host does not hold is performed. -/
theorem linkTarget_home (hf : Fresh s p) (hb : p.body = .forwarded req orig oseq ons) (hia : req.ia? = some ia)
    (hh : tblGet? s.hostLines (ia % 2 ^ 47 / 128) = none) : ∃ v, Took s p v ∧
    s.linkTarget p = forwardAnswered (v.homeDo req (ia % 2 ^ 47)).1 p orig ons oseq (req.reply (v.homeDo req (ia % 2 ^ 47)).2.1 (v.homeDo req (ia % 2 ^ 47)).2.2) := by
  obtain ⟨v, hv, hc⟩ := took_fresh hf
  have hh' : tblGet? v.hostLines (ia % 2 ^ 47 / 128) = none := by rw [hv.frame]; exact hh
  refine ⟨v, hv, ?_⟩
  rcases hc with ⟨hns, rfl⟩ | ⟨hns, ha⟩
  · simp only [State.linkTarget, State.probeBack, hb, hns, hia, hh', hostRecall_none hh', if_true, forwardAnswered]
  · simp only [State.linkTarget, State.probeBack, hb, hns, ha, hia, hh', hostRecall_none hh', Bool.false_eq_true, if_false, forwardAnswered]
end

/-! ## Probes -/

/-- Another key's entry stays when one is erased. -/
theorem tblGet?_tblErase_other {α : Type} (t : Tbl α) {i j : Nat} (h : j ≠ i) : tblGet? (tblErase t i) j = tblGet? t j := by
  induction t with
  | nil => rfl
  | cons a t ih =>
    rw [tblErase]
    split
    next e => rw [tblGet?, if_neg (e ▸ h)]
    next hne => rw [tblGet?, tblGet?, ih]

section
variable {s : State} {line : Nat}

/-- A line that the host holds leaves its table, its data stored. -/
theorem hostRecall_some {h : HostLine} (hg : tblGet? s.hostLines line = some h) :
    ∃ u, AtHome s u ∧ s.hostRecall line = { u with hostLines := tblErase s.hostLines line } := by
  have hu := (AtHome.memStore s (line * 128) (h.data.take 64) h.lo).trans (.memStore _ (line * 128 + 64) ((h.data.drop 64).take 64) h.hi)
  refine ⟨_, hu, ?_⟩
  rw [State.hostRecall, hg, ← hu.hostLines]

theorem hostRecall_net (s : State) (line : Nat) : (s.hostRecall line).net = s.net := by
  cases hg : tblGet? s.hostLines line with
  | none => rw [hostRecall_none hg]
  | some h =>
    obtain ⟨u, hu, e⟩ := hostRecall_some hg
    rw [e]; exact hu.net

/-- Of the host's lines that one goes. -/
theorem hostRecall_lines (hw : tblWf s.hostLines = true) (x : Nat) :
    tblGet? (s.hostRecall line).hostLines x = if x = line then none else tblGet? s.hostLines x := by
  cases hg : tblGet? s.hostLines line with
  | none =>
    rw [hostRecall_none hg]
    split
    next e => rw [e, hg]
    · rfl
  | some h =>
    obtain ⟨u, -, e⟩ := hostRecall_some hg
    rw [e]
    split
    next hx => rw [hx]; exact tblGet?_tblErase_same hw line
    next hx => exact tblGet?_tblErase_other _ hx
end

/-! ## Probe replies -/

/-- A credit and its forward slot have returned. -/
def freed (s : State) (k : Nat) (p : Packet) (f : Fwd) : State :=
  (taken s k).setNode p.dst { s.node p.dst with forward := (s.node p.dst).forward.erase f }

section
variable {s : State} {k : Nat} {p : Packet} {f : Fwd}

theorem freed_forward (s : State) (k : Nat) (p : Packet) (f : Fwd) : ((freed s k p f).node p.dst).forward = (s.node p.dst).forward.erase f := by
  simp [freed, State.node]

/-- Where every message has gone, no other goes. -/
theorem forwardNext_sent {n : Nat} (h : ∀ g ∈ (s.node n).forward, g.sent = true) (die : Nat) : s.forwardNext n die = s := by
  have hn : ((s.node n).forward.find? fun f => !f.sent && f.node / 256 == die) = none := List.find?_eq_none.2 fun g hg => by simp [h g hg]
  unfold State.forwardNext
  dsimp only
  split
  · rfl
  · rw [hn]

/-- The reply that names a forward slot. -/
theorem execProbeReply_named (hk : s.net[k]? = some p) (hs : p.spot = .ejected) {fwd : Option (Bool × BitVec 16)} (hb : p.body = .probeReply fwd)
    (hf : ((s.node p.dst).forward.find? fun f => f.sent && f.node == p.src && f.ns == (fwd.getD (p.ns, p.seq)).1 && f.seq == (fwd.getD (p.ns, p.seq)).2) = some f)
    (hall : ∀ g ∈ (s.node p.dst).forward, g.sent = true) : exec (.probeReply k) s =
      .next (if f.probe then (freed s k p f).homeAnswer f.packet ((f.packet.body.ia?.getD 0) % 2 ^ 47) else freed s k p f) := by
  change execProbeReply k s = _
  have hnext : (freed s k p f).forwardNext p.dst (p.src / 256) = freed s k p f := forwardNext_sent (fun g hg => by
    rw [freed_forward] at hg
    exact hall g (List.mem_of_mem_erase hg)) _
  have hnode : (taken s k).node p.dst = s.node p.dst := rfl
  rw [execProbeReply, takePacket_ejected hk hs]
  · cases fwd with
    | none =>
      simp only [Option.getD_none] at hf
      simp only [hb, hnode, hf]
      rw [← freed, hnext]
    | some x =>
      simp only [Option.getD_some] at hf
      simp only [hb, hnode, hf]
      rw [← freed, hnext]
  · rw [hb]; rfl

/-- The reduction that waited for the probe is performed and answered. -/
theorem homeAnswer_reduce {q : Packet} {ia b : Nat} {aw : AtomWidth} {o : RedOp} {x : Word} (hb : q.body = .reduce ia aw o x)
    (h : Lies s (ia % 2 ^ 47) (atomBytes aw) false b) (hp : s.memPoison (ia % 2 ^ 47) (atomBytes aw) = false) (hm : Memory.wf s.mem = true) :
    let a := b + ia % 2 ^ 47 % 65536
    let u := s.homeAnswer q (ia % 2 ^ 47)
    (∀ n, u.node n = s.node n) ∧ u.net = s.net ++ [replyTo q.dst q.src q.ns q.seq (.ack false .ok)] ∧
      Stored s.mem u.mem a (bytesOf (amoWord aw (redAmo o) (wordOf (memRead s.mem a (atomBytes aw))) x) (atomBytes aw)) := by
  intro a u
  generalize hd : bytesOf (amoWord aw (redAmo o) (wordOf (memRead s.mem a (atomBytes aw))) x) (atomBytes aw) = d
  have hat := (AtHome.cacheWalk s (ia % 2 ^ 47)).trans (.memStore _ (ia % 2 ^ 47) d false)
  have hst := home_stored_lpddr (d := d) (by rw [← hd, bytesOf_length]; exact h) hm false
  have hu : u = (((s.cacheWalk (ia % 2 ^ 47)).memStore (ia % 2 ^ 47) d).answer q (.ack false .ok) false) := by
    simp only [u, State.homeAnswer, hb, homeDo_reduce h hp]
    rw [← hd]; rfl
  rw [hu]
  refine ⟨fun n => hat.node n, ?_, hst⟩
  rw [← hat.net]; rfl
end
end Sys2Proof.Claims
end

section
namespace Sys2Proof
open Sys2Proof.Machine Sys2Proof.Claims

/-- Settles O42: a delegated atomic, a forwarded request, a probe and its reply, each at the home of its bytes. -/
theorem agentsPerformAndForward : Obligations.AgentsPerformAndForward := by
  refine ⟨fun s k p ia b host aw o x tag ha hf hlo hhi hag hb hsrc hl hlies hn hp hm hh => ?_,
    fun s k p req orig ia b oseq ons hk hs hd hf hb hia => ⟨fun n h hreq hg => ?_, fun hg hlies hp hm => ⟨fun n hreq => ?_, fun d z hreq => ?_⟩⟩,
    fun s k p line hk hs hd hb => ⟨_, execProbe_link hk hs hd hb, ?_, hostRecall_lines (s := taken s k), fun hg => ?_, fun h b hg hc hlen hm => ?_⟩,
    fun s k p fwd f hk hs hb hf hall => ⟨fun hpr => ?_, fun ia aw o v b hpr hbody hlies hp hm => ?_⟩⟩
  · obtain ⟨v, hv, honce⟩ := once_fresh (s := taken s k) hf
    obtain ⟨u, he, hu⟩ := atomicEngine_delegated (s := v) (k := p) (ia := ia) (by omega) (by rw [hv.bounds]; exact hl) (hv.lies hlies) (hv.notHeld hn)
      ((hv.memPoison _ _).trans hp) (hv.mem ▸ hm) (hv.host ▸ hh) o x tag
    obtain ⟨⟨rest, hnet⟩, hst, hother, hrec⟩ := hu
    rw [backed_congr (s := s) hv.mem hv.host] at hst hrec
    rw [hv.net] at hnet
    rw [hv.mem, hv.host] at hother
    exact ⟨u, rest, (execDelegatedAtomic_agent ha hlo hhi hag hb).trans (congrArg _ (honce _ u he)), hnet, by cases host <;> exact hst, hother, hrec⟩
  · subst hreq
    cases hia
    obtain ⟨v, hv, e⟩ := linkTarget_held (s := taken s k) hf hb hg
    refine ⟨_, (execForwardedRequest_link hk hs hd hb).trans (congrArg _ e), ?_, ?_⟩
    · rw [forwardAnswered_mem, hv.mem]; rfl
    · rw [forwardAnswered_net hv (.refl v), hostLine_read]; rfl
  · subst hreq
    cases hia
    change Lies s _ n false b at hlies
    change s.memPoison _ n = false at hp
    obtain ⟨v, hv, e⟩ := linkTarget_home (s := taken s k) hf hb rfl hg
    rw [homeDo_read (hv.lies hlies) ((hv.memPoison _ _).trans hp)] at e
    refine ⟨_, (execForwardedRequest_link hk hs hd hb).trans (congrArg _ e), ?_, ?_⟩
    · rw [forwardAnswered_mem, cacheWalk_mem, hv.mem]; rfl
    · rw [forwardAnswered_net hv (.cacheWalk v _), backed_congr (s := s) hv.mem hv.host]; rfl
  · subst hreq
    cases hia
    obtain ⟨v, hv, e⟩ := linkTarget_home (s := taken s k) hf hb rfl hg
    rw [homeDo_write (hv.lies hlies)] at e
    refine ⟨_, (execForwardedRequest_link hk hs hd hb).trans (congrArg _ e), ?_, ?_⟩
    · have := home_stored_lpddr (hv.lies hlies) (hv.mem ▸ hm) z
      rw [hv.mem] at this
      exact this
    · exact forwardAnswered_net hv ((AtHome.cacheWalk v _).trans (.memStore _ _ d z)) _
  · rw [Answered, hostRecall_net]; rfl
  · rw [hostRecall_none (s := taken s k) hg]; exact ⟨rfl, rfl⟩
  · exact hostRecall_stored (s := taken s k) hg hc hlen hm
  · refine ⟨_, execProbeReply_named hk hs hb hf hall, ?_⟩
    rw [if_neg (by simp [hpr])]
    exact ⟨rfl, rfl, freed_forward s k p f⟩
  · obtain ⟨hnode, hnet, hst⟩ := homeAnswer_reduce (s := freed s k p f) hbody hlies hp hm
    refine ⟨_, execProbeReply_named hk hs hb hf hall, ?_⟩
    rw [if_pos hpr, hbody]
    exact ⟨by rw [← freed_forward s k p f, ← hnode]; rfl, hnet, hst⟩
end Sys2Proof
end

section
/-! PROOFS. Links that starve, replay and die (R32, R39, R40). -/
namespace Sys2Proof.Claims
open Sys2Proof.Machine

/-! ## Sets of numbers -/

theorem mem_setIns (l : List Nat) (n k : Nat) : k ∈ setIns l n ↔ k = n ∨ k ∈ l := by
  induction l with
  | nil => simp [setIns]
  | cons a l ih =>
    rw [setIns]
    split
    · simp
    · split
      next h => subst h; simp
      next => simp only [List.mem_cons, ih]; tauto

theorem mem_foldl_setIns {α : Type} (f : α → Nat) (l : List α) (t : List Nat) (k : Nat) :
    k ∈ l.foldl (fun t a => setIns t (f a)) t ↔ (∃ a ∈ l, k = f a) ∨ k ∈ t := by
  induction l generalizing t with
  | nil => simp
  | cons a l ih => rw [List.foldl_cons, ih, mem_setIns, or_left_comm, ← or_assoc]; simp only [List.mem_cons, exists_eq_or_imp]

/-- STARVE is asserted on the router's four incoming links. -/
theorem execStarveAssert_asserts {s : State} {p : Nat} {pl : Plane} (hp : p < 1024) (h : 64 ≤ tblGetD s.fw.starveCnt (p * 4 + planeNum pl) 0) :
    ∃ u, exec (.starveAssert p pl) s = .next u ∧ u = { s with fw := { s.fw with starve := u.fw.starve, starved := u.fw.starved } } ∧
      (∀ k, k ∈ u.fw.starve ↔ k = p * 4 + planeNum pl ∨ k ∈ s.fw.starve) ∧
      ∀ k, k ∈ u.fw.starved ↔ (∃ d < 4, k = hop p d * 4 + (d + 2) % 4) ∨ k ∈ s.fw.starved := by
  have e : exec (.starveAssert p pl) s = .next (s.modFw fun w => { w with
      starve := setIns w.starve (p * 4 + planeNum pl),
      starved := (List.range 4).foldl (fun l d => setIns l (hop p d * 4 + (d + 2) % 4)) w.starved }) := by
    change execStarveAssert p pl s = _
    simp only [execStarveAssert, Nat.mod_eq_of_lt hp, starveLimit, if_neg (Nat.not_lt.2 h)]
  refine ⟨_, e, rfl, fun k => mem_setIns _ _ _, fun k => ?_⟩
  refine (mem_foldl_setIns (fun d => hop p d * 4 + (d + 2) % 4) (List.range 4) s.fw.starved k).trans ?_
  simp only [List.mem_range]

/-! ## Replay buffers -/

/-- Flits leave the fabric for replay buffers. -/
structure Pulls (s u : State) : Prop where
  frame : u = { s with net := u.net, fw := { s.fw with buffers := u.fw.buffers } }
  grows : ∀ b x, x ∈ tblGetD s.fw.buffers b [] → x ∈ tblGetD u.fw.buffers b []
  net : ∀ x ∈ u.net, x ∈ s.net

theorem Pulls.refl (s : State) : Pulls s s := ⟨rfl, fun _ _ h => h, fun _ h => h⟩
theorem Pulls.trans {s u v : State} (h : Pulls s u) (k : Pulls u v) : Pulls s v :=
  ⟨by rw [k.frame, h.frame], fun b x hx => k.grows b x (h.grows b x hx), fun x hx => h.net x (k.net x hx)⟩

/-- A flit goes back to a replay buffer. -/
def pulled (s : State) (b : Nat) (k : Packet) : State :=
  { s with net := s.net.erase k, fw := { s.fw with buffers := tblSet s.fw.buffers b (tblGetD s.fw.buffers b [] ++ [k]) } }

theorem Pulls.pulled (s : State) (b : Nat) (k : Packet) : Pulls s (pulled s b k) := by
  refine ⟨rfl, fun c x hx => ?_, fun x hx => List.mem_of_mem_erase hx⟩
  by_cases e : c = b
  · subst e; simp only [Claims.pulled, tblGetD_tblSet_same]; exact List.mem_append_left _ hx
  · simp only [Claims.pulled, tblGetD_tblSet_other _ _ _ _ _ e]; exact hx

/-- Each flit of a list goes back to its buffer. -/
theorem pulled_foldl (f : Packet → Nat) (l : List Packet) (s : State) :
    Pulls s (l.foldl (fun s k => pulled s (f k) k) s) ∧ (l.foldl (fun s k => pulled s (f k) k) s).net = s.net.diff l ∧
      ∀ k ∈ l, k ∈ tblGetD (l.foldl (fun s k => pulled s (f k) k) s).fw.buffers (f k) [] := by
  induction l generalizing s with
  | nil => exact ⟨.refl s, by rw [List.diff_nil]; rfl, fun k hk => absurd hk List.not_mem_nil⟩
  | cons a l ih =>
    obtain ⟨hp, hnet, hall⟩ := ih (pulled s (f a) a)
    rw [List.foldl_cons]
    refine ⟨(Pulls.pulled s (f a) a).trans hp, by rw [hnet, List.diff_cons]; rfl, fun k hk => ?_⟩
    rcases List.mem_cons.1 hk with rfl | hk
    · exact hp.grows _ _ (by simp [pulled])
    · exact hall k hk

/-- What differs from the flits that a test picks is picked by none. -/
theorem mem_diff_filter {l : List Packet} {f : Packet → Bool} {x : Packet} (h : x ∈ l.diff (l.filter f)) : f x = false := by
  cases hf : f x
  · rfl
  · have hc := List.count_pos_iff.2 h
    rw [List.count_diff, List.count_filter hf] at hc
    omega

/-- The flits on a link go back to its replay buffers. -/
theorem pullBack_pulls (s : State) (p d : Nat) : Pulls s (s.pullBack p d) ∧
    (∀ x ∈ s.net, x.onLink p d = true → x ∈ tblGetD (s.pullBack p d).fw.buffers ((p * 4 + d) * 4 + x.body.plane) []) ∧
    ∀ x ∈ (s.pullBack p d).net, x.onLink p d = false := by
  obtain ⟨hp, hnet, hall⟩ := pulled_foldl (fun k => (p * 4 + d) * 4 + k.body.plane) (s.net.filter fun k => k.onLink p d) s
  have e : s.pullBack p d = (s.net.filter fun k => k.onLink p d).foldl (fun s k => pulled s ((p * 4 + d) * 4 + k.body.plane) k) s := rfl
  rw [e]
  refine ⟨hp, fun x hx hl => hall x (List.mem_filter.2 ⟨hx, hl⟩), fun x hx => ?_⟩
  rw [hnet] at hx
  exact mem_diff_filter hx

/-! ## Dead links -/

/-- The way back over a link. -/
theorem hop_back {p : Nat} (hp : p < 1024) (d : Dir) : hop (hop p (Dir.num d)) ((Dir.num d + 2) % 4) = p ∧ ((Dir.num d + 2) % 4 + 2) % 4 = Dir.num d := by
  refine ⟨?_, by cases d <;> rfl⟩
  cases d <;> simp only [Dir.num, hop, posOf, posX, posY] <;> omega

/-- A link that was alive dies. -/
theorem linkDies_dies {s : State} {p : Nat} {d : Dir} (hp : p < 1024) (h : portDead s.fw.deadLinks p (Dir.num d) = false) (plane : Nat) :
    LinkDies s (s.linkDies p d plane) p d plane := by
  obtain ⟨h1, hbuf, hoff⟩ := pullBack_pulls s p (Dir.num d)
  obtain ⟨h2, -, -⟩ := pullBack_pulls (s.pullBack p (Dir.num d)) (neighbour p d) (Dir.num (Dir.opp d))
  have h12 := h1.trans h2
  unfold State.linkDies
  rw [h, if_neg Bool.false_ne_true]
  generalize (s.pullBack p (Dir.num d)).pullBack (neighbour p d) (Dir.num (Dir.opp d)) = u at h2 h12
  have hdead : u.fw.deadLinks = s.fw.deadLinks := by rw [h12.frame]
  have htime : u.time = s.time := by rw [h12.frame]
  obtain ⟨hback, hturn⟩ := hop_back hp d
  refine ⟨?_, ?_, ?_, ?_, fun x hx hl => h2.grows _ _ (hbuf x hx hl), fun x hx => ⟨h12.net x hx, hoff x (h2.net x hx)⟩⟩
  · rw [h12.frame]
  · dsimp only; rw [hdead, htime]; rw [h12.frame]
  · simp [portDead]
  · simp [portDead, hback, hturn]

section
variable {s : State} {p : Nat} {d : Dir} {pl : Plane}

theorem execLinkHandshakeTimeout_dies (hp : p < 1024) (h : portDead s.fw.deadLinks p (Dir.num d) = false) :
    ∃ u, exec (.linkHandshakeTimeout p ⟨d, pl⟩) s = .next u ∧ LinkDies s u p d (planeNum pl) := by
  refine ⟨_, ?_, linkDies_dies hp h (planeNum pl)⟩
  change execLinkHandshakeTimeout p ⟨d, pl⟩ s = _
  rw [execLinkHandshakeTimeout, if_pos hp]

theorem execLinkTrainingLoss_dies (hp : p < 1024) (h : portDead s.fw.deadLinks p (Dir.num d) = false) :
    ∃ u, exec (.linkTrainingLoss p d) s = .next u ∧ LinkDies s u p d 0 := by
  refine ⟨_, ?_, linkDies_dies hp h 0⟩
  change execLinkTrainingLoss p d s = _
  rw [execLinkTrainingLoss, if_neg (Nat.not_le.2 hp)]

/-! ## Replays -/

/-- The state in which a refused flit waits in its replay buffer. -/
def replayed (s : State) (b l n : Nat) (x : Packet) (keeps : Bool) : State :=
  { s with
    net := if keeps then s.net else s.net.erase x,
    fw := { s.fw with replays := tblSet s.fw.replays b (x.plainly, n), replay := countUp s.fw.replay l, buffers := tblSet s.fw.buffers b (x :: tblGetD s.fw.buffers b []) } }

/-- A refused flit is sent again, and the fifth refusal in a row kills the link. -/
theorem execLinkReplay_eq {err : LinkError} {x : Packet} (hp : p < 1024) (h : portDead s.fw.deadLinks p (Dir.num d) = false)
    (herr : linkRefuses err = true ∨ err = .handshake) (hon : OnLink s p d (planeNum pl) x) :
    exec (.linkReplay p d pl err) s =
      if 5 ≤ refusals s ((p * 4 + Dir.num d) * 4 + planeNum pl) x + 1 then .next (s.linkDies p d (planeNum pl))
      else .next (replayed s ((p * 4 + Dir.num d) * 4 + planeNum pl) (p * 4 + Dir.num d) (refusals s ((p * 4 + Dir.num d) * 4 + planeNum pl) x + 1) x (err == .handshake)) := by
  have hfind : (s.net.find? fun k => k.body.plane == planeNum pl && k.onLink p (Dir.num d)) = some x := by
    rw [← List.head?_filter, hon]; rfl
  have hgo : (decide (1024 ≤ p) || portDead s.fw.deadLinks p (Dir.num d) || !(linkRefuses err || err == .handshake)) = false := by
    rw [h, decide_eq_false (Nat.not_le.2 hp)]
    rcases herr with e | e
    · simp [e]
    · simp [e]
  have hn : (match tblGet? s.fw.replays ((p * 4 + Dir.num d) * 4 + planeNum pl) with
      | some (q, n) => if q = x.plainly then n + 1 else 1
      | none => 1) = refusals s ((p * 4 + Dir.num d) * 4 + planeNum pl) x + 1 := by
    unfold refusals
    cases tblGet? s.fw.replays ((p * 4 + Dir.num d) * 4 + planeNum pl) with
    | none => rfl
    | some e => dsimp only; split <;> rfl
  change execLinkReplay p d pl err s = _
  rw [← hn]
  simp only [execLinkReplay, hfind, hgo, Bool.false_eq_true, if_false]
  rfl

theorem refusals_replayed (s : State) (b l n : Nat) (x : Packet) (keeps : Bool) : refusals (replayed s b l n x keeps) b x = n := by
  simp [refusals, replayed]
end
end Sys2Proof.Claims
end

section
/-! PROOFS. Reroutes (R40, R41): the pause, the drain and the resumption of injection, and lost notices. -/
namespace Sys2Proof.Claims
open Sys2Proof.Machine

/-! ## Control messages -/

theorem takeCtl_mem {s : State} {m : CtlMsg} (h : m ∈ s.ctl) : s.takeCtl m = some { s with ctl := s.ctl.erase m } :=
  if_pos (List.contains_iff_mem.2 h)

/-- A dead link starts the sequence, and injection pauses at every active node. -/
theorem execLinkDead_pauses {s : State} {k p pl : Nat} {d : Dir} (h : s.ctl[k]? = some (.linkDead p d pl)) :
    ∃ u, exec (.linkDead k) s = .next u ∧ u = { s with ctl := u.ctl, fw := { s.fw with rerouting := true, rerouteAt := s.fw.deadAt } } ∧
      (∀ q, q < 1024 → s.active q = true → CtlMsg.injPause q ∈ u.ctl) ∧ ∃ l, u.ctl = s.ctl.eraseIdx k ++ l ∧ ∀ m ∈ l, isPause m = true := by
  have e : exec (.linkDead k) s = .next { s with
      ctl := s.ctl.eraseIdx k ++ ((List.range 1024).filter s.active).map CtlMsg.injPause,
      fw := { s.fw with rerouting := true, rerouteAt := s.fw.deadAt } } := by
    change execLinkDead k s = _
    simp only [execLinkDead, h]
  refine ⟨_, e, rfl, fun q hq ha => ?_, _, rfl, fun m hm => ?_⟩
  · exact List.mem_append_right _ (List.mem_map.2 ⟨q, List.mem_filter.2 ⟨List.mem_range.2 hq, ha⟩, rfl⟩)
  · obtain ⟨q, -, rfl⟩ := List.mem_map.1 hm
    rfl

theorem execInjPause_pauses {s : State} {p : Nat} (h : CtlMsg.injPause p ∈ s.ctl) :
    ∃ u, exec (.injPause p) s = .next u ∧ TakesCtl s u (.injPause p) ∧ u = { s with cores := u.cores, ctl := u.ctl } ∧
      (∀ q, q ≠ p → u.core q = s.core q) ∧ u.core p = { s.core p with paused := true } := by
  have e : exec (.injPause p) s = .next (({ s with ctl := s.ctl.erase (.injPause p) } : State).modCore p fun c => { c with paused := true }) := by
    change execInjPause p s = _
    rw [execInjPause, takeCtl_mem h]
  exact ⟨_, e, ⟨h, rfl⟩, rfl, fun q hq => State.core_modCore_other _ _ _ _ hq, State.core_modCore_same _ _ _⟩

/-! ## What injection sends when it resumes -/

theorem Injects.unparkAll (s : State) (f : Nat → Bool) : Injects s (s.unparkAll f) := by
  unfold State.unparkAll
  generalize (s.reqs.filter fun r => f r.src && r.parked && !r.waiting) = l
  induction l generalizing s with
  | nil => exact .of_eq rfl
  | cons r l ih => rw [List.foldl_cons]; exact (Injects.unpark s r.src).trans (ih _)

/-- Sources that hold nothing back send nothing. -/
theorem unparkAll_none {s : State} {f : Nat → Bool} (h : ∀ r ∈ s.reqs, f r.src = true → r.parked = false) : s.unparkAll f = s := by
  have hn : (s.reqs.filter fun r => f r.src && r.parked && !r.waiting) = [] := List.filter_eq_nil_iff.2 fun r hr => by
    cases hf : f r.src
    · simp
    · simp [h r hr hf]
  rw [State.unparkAll, hn, List.foldl_nil]

theorem Injects.ctl {s u : State} (h : Injects s u) : u.ctl = s.ctl := by rw [h.frame]

theorem execInjResume_resumes {s : State} {p : Nat} (h : CtlMsg.injResume p ∈ s.ctl) :
    ∃ u, exec (.injResume p) s = .next u ∧ TakesCtl s u (.injResume p) ∧ (u.core p).paused = false ∧ (u.core p).threads = (s.core p).threads ∧
      ((∀ r ∈ s.reqs, r.src = p → r.parked = false) → u.net = s.net ∧ u.reqs = s.reqs) := by
  let v : State := ({ s with ctl := s.ctl.erase (.injResume p) } : State).modCore p fun c => { c with paused := false }
  have e : exec (.injResume p) s = .next (v.unparkAll fun q => q == p) := by
    change execInjResume p s = _
    rw [execInjResume, takeCtl_mem h]
  have hi := Injects.unparkAll v fun q => q == p
  obtain ⟨_, _, hc⟩ := hi.core p
  have hv : v.core p = { s.core p with paused := false } := State.core_modCore_same _ _ _
  refine ⟨_, e, ⟨h, hi.ctl⟩, by rw [hc, hv], by rw [hc, hv], fun hr => ?_⟩
  rw [unparkAll_none (s := v) fun r hm hs => hr r hm (beq_iff_eq.1 hs)]
  exact ⟨rfl, rfl⟩

/-! ## The end of the drain -/

theorem drainOver_iff (s : State) (reported : Bool) : s.drainOver reported = true ↔ Drained s reported := by
  rw [State.drainOver, Drained, Bool.or_eq_true, Bool.and_eq_true, Bool.and_eq_true, decide_eq_true_eq, decide_eq_true_eq, and_assoc, Bool.not_eq_true',
    List.any_eq_false]
  refine or_congr_right (and_congr_right fun _ => and_congr_right fun _ => forall₂_congr fun x _ => ?_)
  cases x.spot <;> simp

theorem execRerouteDrainEnd_waits {s : State} {reported : Bool} (hr : s.fw.rerouting = true) (hd : ¬Drained s reported) :
    exec (.rerouteDrainEnd reported) s = .next s := by
  have hn : s.drainOver reported = false := by rw [← drainOver_iff] at hd; exact Bool.not_eq_true _ ▸ hd
  change execRerouteDrainEnd reported s = _
  simp only [execRerouteDrainEnd, hr, hn, Bool.not_true, Bool.not_false, Bool.or_true, if_true]

/-- The packet of a buffer of a dead link. -/
def deadBuffer (s : State) (e : Nat × List Packet) : Bool := portDead s.fw.deadLinks (e.1 / 16) (e.1 / 4 % 4)

/-- The end of a drain, before the I/O dies send what they held back. -/
theorem execRerouteDrainEnd_ends {s : State} {reported : Bool} (hr : s.fw.rerouting = true) (hd : Drained s reported) :
    ∃ v : State, exec (.rerouteDrainEnd reported) s = .next (v.unparkAll fun p => 0x400 ≤ p) ∧ v.net = s.net ∧ v.reqs = s.reqs ∧
      v.ctl = s.ctl.filter (fun m => !isPause m) ++ ((List.range 1024).filter s.active).map CtlMsg.injResume ∧
      v.fw = { s.fw with
        rerouting := false, fepoch := s.fw.fepoch + 1#32, replays := [], tableDead := s.fw.deadLinks,
        buffers := s.fw.buffers.filter fun e => !deadBuffer s e,
        lostNotices := s.fw.lostNotices ++ ((s.fw.buffers.filter (deadBuffer s)).flatMap fun e => e.2).filterMap fun k => k.noticeNode.map fun n => (n, k) } := by
  have hpause : (fun (m : CtlMsg) => !isPause m) = fun m => (match m with
      | .injPause _ => false
      | _ => true) := funext fun m => by cases m <;> rfl
  rw [hpause]
  change ∃ v : State, execRerouteDrainEnd reported s = _ ∧ _
  rw [execRerouteDrainEnd, hr, (drainOver_iff s reported).2 hd, if_neg (by decide)]
  exact ⟨_, rfl, rfl, rfl, rfl, rfl⟩

theorem rerouteDrainEnd_resumes {s : State} {reported : Bool} (hr : s.fw.rerouting = true) (hd : Drained s reported) :
    ∃ u, exec (.rerouteDrainEnd reported) s = .next u ∧ u.fw.rerouting = false ∧ u.fw.fepoch = s.fw.fepoch + 1#32 ∧ u.fw.tableDead = s.fw.deadLinks ∧
      (∀ q, q < 1024 → s.active q = true → CtlMsg.injResume q ∈ u.ctl) ∧ (∀ m ∈ u.ctl, isPause m = false) ∧
      (∀ e ∈ s.fw.buffers, portDead s.fw.deadLinks (e.1 / 16) (e.1 / 4 % 4) = true → ∀ x ∈ e.2, ∀ n, x.noticeNode = some n → (n, x) ∈ u.fw.lostNotices) ∧
      (∀ e ∈ u.fw.buffers, portDead s.fw.deadLinks (e.1 / 16) (e.1 / 4 % 4) = false) ∧
      ((∀ r ∈ s.reqs, 0x400 ≤ r.src → r.parked = false) → u.net = s.net) := by
  obtain ⟨v, e, hnet, hreqs, hctl, hfw⟩ := execRerouteDrainEnd_ends hr hd
  have hi := Injects.unparkAll v fun p => 0x400 ≤ p
  refine ⟨_, e, ?_⟩
  rw [hi.fw, hi.ctl, hfw, hctl]
  refine ⟨rfl, rfl, rfl, fun q hq ha => ?_, fun m hm => ?_, fun e he hdead x hx n hn => ?_, fun e he => ?_, fun hp => ?_⟩
  · exact List.mem_append_right _ (List.mem_map.2 ⟨q, List.mem_filter.2 ⟨List.mem_range.2 hq, ha⟩, rfl⟩)
  · rcases List.mem_append.1 hm with hm | hm
    · simpa using (List.mem_filter.1 hm).2
    · obtain ⟨q, -, rfl⟩ := List.mem_map.1 hm
      rfl
  · refine List.mem_append_right _ (List.mem_filterMap.2 ⟨x, List.mem_flatMap.2 ⟨e, List.mem_filter.2 ⟨he, hdead⟩, hx⟩, ?_⟩)
    rw [hn]; rfl
  · simpa [deadBuffer] using (List.mem_filter.1 he).2
  · rw [unparkAll_none (s := v) fun r hm hs => hp r (hreqs ▸ hm) (of_decide_eq_true hs), hnet]

/-! ## Lost notices -/

section
variable {s : State} {k n : Nat} {x : Packet}

/-- An I/O die's node sends its request again. -/
theorem execLostNotice_resends {r : Req} (hk : s.fw.lostNotices[k]? = some (n, x)) (hn : 0x400 ≤ n)
    (hm : (s.reqs.find? fun r => r.src == n && r.dst == (if x.src = n then x.dst else x.src) && r.ns == x.ns && r.seq == x.seq && !r.parked) = some r)
    (ht : r.tries < 3) : ∃ u, exec (.lostNotice k) s = .next u ∧ u.fw.lostNotices = s.fw.lostNotices.eraseIdx k ∧
      (let r' : Req := { r with tries := r.tries + 1, sent := s.time, backoff := none, colour := s.fw.colour }
       r' ∈ u.reqs ∧ ∃ q : Packet, u.net = s.net ++ [q] ∧ q.src = n ∧ q.dst = (if x.src = n then x.dst else x.src) ∧ q.seq = r.seq ∧ q.body = r.body ∧ q.retry = true) := by
  let v : State := s.modFw fun w => { w with lostNotices := w.lostNotices.eraseIdx k }
  have hm' : (v.reqs.find? fun r => r.src == n && r.dst == (if x.src = n then x.dst else x.src) && r.ns == x.ns && r.seq == x.seq && !r.parked) = some r := hm
  have e : exec (.lostNotice k) s = .next (v.resend r (r.tries + 1) true) := by
    change execLostNotice k s = _
    simp only [execLostNotice, hk, decide_eq_false (Nat.not_lt.2 hn), Bool.false_and, Bool.false_eq_true, if_false]
    simp only [v] at hm' ⊢
    simp only [hm', State.retryLost, if_pos ht]
  have hp := List.find?_some hm
  simp only [Bool.and_eq_true, beq_iff_eq] at hp
  obtain ⟨⟨⟨⟨hsrc, hdst⟩, -⟩, -⟩, -⟩ := hp
  let r' : Req := { r with tries := r.tries + 1, sent := s.time, backoff := none, colour := s.fw.colour }
  have hres : v.resend r (r.tries + 1) true = (v.putReq r r').inject (r'.packet true) true := rfl
  obtain ⟨c, hnet⟩ := inject_net (v.putReq r r') (r'.packet true) true
  refine ⟨_, e, ?_, ?_, { r'.packet true with colour := c }, hnet, hsrc, hdst, rfl, rfl, rfl⟩
  · rw [hres, (Injects.inject _ _ _).fw]; rfl
  · rw [hres, inject_reqs]
    exact mem_putReq (List.mem_of_find?_eq_some hm) r'

/-- A record of the core's own finds a free entry. -/
theorem ownRecord_enters {p : Nat} (hf : (s.core p).inboxFree 15 = true) (hr : (s.core p).refusals = []) (hv : (s.core p).reserved = []) (r : BitVec 128) :
    s.ownRecord p r = s.setCore p (((s.core p).risen { s.core p with
      inbox := (s.core p).inbox ++ [.record r (s.core p).arrivals], arrivals := (s.core p).arrivals + 1 }).wakeEvents 15 s.time) := by
  have hs : ∀ a, (Entry.record r a).stream = 15 := fun _ => rfl
  simp only [State.ownRecord, Core.inboxPut, hs, hf, hr, hv, List.any_nil, List.isEmpty_nil, Bool.and_self, Bool.or_true, if_true, Bool.false_eq_true, if_false]

theorem wakeEvents_inbox (c : Core) (k : Nat) (now : Word) : (c.wakeEvents k now).inbox = c.inbox := by
  unfold Core.wakeEvents Core.wakeWfe; rfl

@[simp] theorem risen_inbox (was c : Core) : (was.risen c).inbox = c.inbox := by unfold Core.risen; split <;> rfl

/-- A core that waits for nothing writes the record of the loss. -/
theorem execLostNotice_records (hk : s.fw.lostNotices[k]? = some (n, x)) (hn : n < 0x400) (ha : s.active n = true)
    (hm : (s.reqs.find? fun r => r.src == n && r.dst == (if x.src = n then x.dst else x.src) && r.ns == x.ns && r.seq == x.seq && !r.parked) = none)
    (hf : ((s.node n).forward.find? fun f => f.sent && f.node == (if x.src = n then x.dst else x.src) && f.ns == x.ns && f.seq == x.seq) = none)
    (hfree : (s.core n).inboxFree 15 = true) (hr : (s.core n).refusals = []) (hv : (s.core n).reserved = []) :
    ∃ u, exec (.lostNotice k) s = .next u ∧ u.fw.lostNotices = s.fw.lostNotices.eraseIdx k ∧ u.net = s.net ∧
      (u.core n).inbox = (s.core n).inbox ++
        [.record (lostRecord (s.core n) (if x.src = n then x.dst else x.src) x.seq x.body.plane x.body.pkind s.fw.fepoch) (s.core n).arrivals] := by
  let v : State := s.modFw fun w => { w with lostNotices := w.lostNotices.eraseIdx k }
  have hown := ownRecord_enters (s := v) (p := n) hfree hr hv
    (lostRecord (s.core n) (if x.src = n then x.dst else x.src) x.seq x.body.plane x.body.pkind s.fw.fepoch)
  refine ⟨v.ownRecord n (lostRecord (s.core n) (if x.src = n then x.dst else x.src) x.seq x.body.plane x.body.pkind s.fw.fepoch), ?_, ?_, ?_, ?_⟩
  · have hactive : v.active n = true := ha
    have hreqs : ∀ r, (v.ownRecord n r).reqs = s.reqs := fun r => by rw [ownRecord_enters (s := v) hfree hr hv]; rfl
    have hnode : ∀ r, (v.ownRecord n r).node n = s.node n := fun r => by rw [ownRecord_enters (s := v) hfree hr hv]; rfl
    change execLostNotice k s = _
    simp only [execLostNotice, hk]
    simp only [v] at hactive hreqs hnode ⊢
    simp only [hn, hactive, decide_true, Bool.and_self, if_true, hreqs, hm, hnode, hf]
    rfl
  · rw [hown]; rfl
  · rw [hown]; rfl
  · rw [hown, State.core_setCore_same, wakeEvents_inbox, risen_inbox]; rfl
end
end Sys2Proof.Claims
end

section
/-! PROOFS. The counter grid (R48, R49) and the patrol scrubber (R66, R67). -/
namespace Sys2Proof.Claims
open Sys2Proof.Machine

/-! ## Latches -/

theorem Stores.ctl {s u : State} (h : Stores s u) : u.ctl = s.ctl := by obtain ⟨⟨_, _, _, _, _, _, _, _, _, _, _, _, rfl⟩, _, _⟩ := h; rfl

/-- Stores of firmware, after which CGHEAD rises. -/
theorem Stores.snapshot {s u : State} (h : Stores s u) (f : Firm → Firm)
    (hf : ∀ w, (f w).cgHead = w.cgHead + 1 ∧ (f w).cgBusy = false) :
    (u.modFw f).ctl = s.ctl ∧ (u.modFw f).fw.cgHead = s.fw.cgHead + 1 ∧ (u.modFw f).fw.cgBusy = false := by
  obtain ⟨hhead, hbusy⟩ := hf u.fw
  exact ⟨h.ctl, hhead.trans (congrArg (· + 1) ((FirmKeeps.of_stores h).field fun w => w.cgHead)), hbusy⟩

/-- A snapshot is written and CGHEAD rises. -/
theorem writeSnapshot_fields (s : State) : s.writeSnapshot.ctl = s.ctl ∧ s.writeSnapshot.fw.cgHead = s.fw.cgHead + 1 ∧ s.writeSnapshot.fw.cgBusy = false := by
  unfold State.writeSnapshot
  dsimp only
  generalize List.flatten _ = records
  generalize _ ++ repeatN 0#8 0xFE4 = head
  exact (((fwStore_stores s _ records).trans (fwStore_stores _ _ head)).trans (fwStore_stores _ _ _)).snapshot _ fun _ => ⟨rfl, rfl⟩

section
variable {s : State} {p : Nat}

/-- A router has latched its counters. -/
def gridLatched (s : State) (p : Nat) : State :=
  let v : State := { s with ctl := s.ctl.erase (.gridLatch p s.fw.latchN) }
  v.modFw fun w => { w with
    latches := tblSet w.latches p ([Dir.e, Dir.s, Dir.w, Dir.n].flatMap fun d => v.linkRecord p d),
    starved := (List.range 4).foldl (fun l d => if w.starvesNow p d then setIns l (p * 4 + d) else setDel l (p * 4 + d)) w.starved }

theorem execGridLatch_latches (h : CtlMsg.gridLatch p s.fw.latchN ∈ s.ctl) :
    exec (.gridLatch p) s = .next (if (gridLatched s p).ctl.any isLatch then gridLatched s p else (gridLatched s p).writeSnapshot) := by
  have hm : isLatch = fun m => (match m with
      | .gridLatch _ _ => true
      | _ => false) := funext fun m => by cases m <;> rfl
  change execGridLatch p s = _
  rw [execGridLatch, takeCtl_mem h, hm]
  rfl

/-- A latch, and with the last one the snapshot. -/
theorem gridLatch_latches (h : CtlMsg.gridLatch p s.fw.latchN ∈ s.ctl) :
    ∃ u, exec (.gridLatch p) s = .next u ∧ TakesCtl s u (.gridLatch p s.fw.latchN) ∧
      ((∃ m ∈ u.ctl, isLatch m = true) → (tblGet? u.fw.latches p).isSome = true ∧ u.fw.cgHead = s.fw.cgHead ∧ u.fw.cgBusy = s.fw.cgBusy) ∧
      ((∀ m ∈ u.ctl, isLatch m = false) → u.fw.cgHead = s.fw.cgHead + 1 ∧ u.fw.cgBusy = false) := by
  refine ⟨_, execGridLatch_latches h, ?_⟩
  by_cases hl : (gridLatched s p).ctl.any isLatch = true
  · rw [if_pos hl]
    refine ⟨⟨h, rfl⟩, fun _ => ⟨?_, rfl, rfl⟩, fun hno => ?_⟩
    · exact Option.isSome_iff_exists.2 ⟨_, tblGet?_tblSet_same _ _ _⟩
    · obtain ⟨m, hm, hy⟩ := List.any_eq_true.1 hl
      rw [hno m hm] at hy; cases hy
  · rw [if_neg hl]
    obtain ⟨hctl, hhead, hbusy⟩ := writeSnapshot_fields (gridLatched s p)
    rw [hctl, hhead]
    refine ⟨⟨h, hctl⟩, fun hy => ?_, fun _ => ⟨rfl, hbusy⟩⟩
    exact absurd (List.any_eq_true.2 hy) hl
end

/-! ## The grid's timer -/

section
variable {s : State}

/-- The pending settings have taken effect, and no snapshot goes on. -/
def gridTurned (s : State) : State :=
  { s with
    ctl := s.ctl.filter fun m => !isLatch m,
    fw := { s.fw with
      latches := [], latchedAt := BitVec.ofNat 64 (s.time.toNat / 10000 * 10000),
      cgBase := s.fw.cgPend.base.getD s.fw.cgBase, cgSlots := s.fw.cgPend.slots.getD s.fw.cgSlots, cgEn := s.fw.cgPend.en.getD s.fw.cgEn,
      cgOvr := (s.fw.cgOvr && !s.fw.cgPend.clear) || s.fw.cgBusy, cgSkipped := s.fw.cgSkipped || s.fw.cgBusy, cgBusy := false, cgPend := {} } }

theorem execCounterGridTimer_turns (ht : s.fw.latchedAt.toNat / 10000 < s.time.toNat / 10000) (hr : s.fw.ready = true) :
    exec .counterGridTimer s = .next (if (gridTurned s).fw.cgEn then { gridTurned s with
        ctl := (gridTurned s).ctl ++ (List.range 1024).map fun p => CtlMsg.gridLatch p s.fw.cgHead,
        fw := { (gridTurned s).fw with cgBusy := true, cgSkipped := false, latchN := s.fw.cgHead, latches := [(1024,
          [s.fw.fepoch, BitVec.ofNat 32 s.fw.deadLinks.length, if (gridTurned s).fw.cgSkipped then 1#32 else 0#32])] } }
      else gridTurned s) := by
  have hm : (fun (m : CtlMsg) => !isLatch m) = fun m => (match m with
      | .gridLatch _ _ => false
      | _ => true) := funext fun m => by cases m <;> rfl
  have hgo : (decide (s.time.toNat / 10000 ≤ s.fw.latchedAt.toNat / 10000) || !s.fw.ready) = false := by
    rw [decide_eq_false (Nat.not_le.2 ht), hr]; rfl
  change execCounterGridTimer s = _
  unfold gridTurned
  rw [hm]
  simp only [execCounterGridTimer, hgo, Bool.false_eq_true, if_false, State.modFw]
  by_cases hen : s.fw.cgPend.en.getD s.fw.cgEn = true
  · simp only [hen, Bool.not_true, Bool.false_eq_true, if_true, if_false] <;> rfl
  · simp only [hen, Bool.not_false, Bool.false_eq_true, if_true, if_false] <;> rfl

theorem counterGridTimer_latches (ht : s.fw.latchedAt.toNat / 10000 < s.time.toNat / 10000) (hr : s.fw.ready = true) :
    ∃ u, exec .counterGridTimer s = .next u ∧ u = { s with ctl := u.ctl, fw := u.fw } ∧ u.fw.latchedAt.toNat = s.time.toNat / 10000 * 10000 ∧
      u.fw.cgOvr = ((s.fw.cgOvr && !s.fw.cgPend.clear) || s.fw.cgBusy) ∧ u.fw.cgPend = {} ∧
      u.fw.cgBase = s.fw.cgPend.base.getD s.fw.cgBase ∧ u.fw.cgSlots = s.fw.cgPend.slots.getD s.fw.cgSlots ∧ u.fw.cgEn = s.fw.cgPend.en.getD s.fw.cgEn ∧
      u.fw.cgBusy = u.fw.cgEn ∧ ((∃ m ∈ u.ctl, isLatch m = true) ↔ u.fw.cgEn = true) ∧
      (u.fw.cgEn = true → ∀ p, p < 1024 → CtlMsg.gridLatch p s.fw.cgHead ∈ u.ctl) := by
  have htime : (BitVec.ofNat 64 (s.time.toNat / 10000 * 10000)).toNat = s.time.toNat / 10000 * 10000 := by
    have := s.time.isLt
    rw [BitVec.toNat_ofNat, Nat.mod_eq_of_lt (by omega)]
  refine ⟨_, execCounterGridTimer_turns ht hr, ?_⟩
  by_cases hen : (gridTurned s).fw.cgEn = true
  · rw [if_pos hen]
    have hall : ∀ p, p < 1024 → CtlMsg.gridLatch p s.fw.cgHead ∈ (gridTurned s).ctl ++ (List.range 1024).map fun p => CtlMsg.gridLatch p s.fw.cgHead :=
      fun p hp => List.mem_append_right _ (List.mem_map.2 ⟨p, List.mem_range.2 hp, rfl⟩)
    exact ⟨rfl, htime, rfl, rfl, rfl, rfl, rfl, hen.symm, ⟨fun _ => hen, fun _ => ⟨_, hall 0 (by decide), rfl⟩⟩, fun _ => hall⟩
  · rw [if_neg hen]
    refine ⟨rfl, htime, rfl, rfl, rfl, rfl, rfl, (Bool.not_eq_true _ ▸ hen : _ = false).symm, ⟨fun ⟨m, hm, hl⟩ => ?_, fun h => absurd h hen⟩, fun h => absurd h hen⟩
    have := (List.mem_filter.1 hm).2
    rw [hl] at this; cases this
end
end Sys2Proof.Claims
end

section
/-! PROOFS. The patrol scrubber (R66, R67). -/
namespace Sys2Proof.Claims
open Sys2Proof.Machine

/-! ## Stores to pages that are mapped -/

section
variable {s : State}

theorem mapPage_mapped {page : Nat} (h : s.mapped (page * 65536) = true) : s.mapPage page = s := by rw [State.mapPage, if_pos h]

/-- Pages that are mapped stay as they are. -/
theorem mapRange_mapped {off n : Nat} (h : ∀ i < (off + n + 65535) / 65536 - off / 65536, s.mapped ((off / 65536 + i) * 65536) = true) : s.mapRange off n = s := by
  unfold State.mapRange
  have hl : ∀ i ∈ List.range ((off + n + 65535) / 65536 - off / 65536), s.mapped ((off / 65536 + i) * 65536) = true := fun i hi => h i (List.mem_range.1 hi)
  generalize List.range _ = l at hl
  induction l with
  | nil => rfl
  | cons i l ih =>
    rw [List.foldl_cons, mapPage_mapped (hl i List.mem_cons_self)]
    exact ih fun j hj => hl j (List.mem_cons_of_mem _ hj)

/-- Fewer bytes than a block's leave its poison. -/
theorem memStore_bad {bs : List Byte} (h : bs.length < 64) (off : Nat) : (s.memStore off bs).bad = s.bad := by
  have hw : ((blocksOf off bs.length).filter fun b => off ≤ b * 64 && b * 64 + 64 ≤ off + bs.length) = [] :=
    List.filter_eq_nil_iff.2 fun b _ => by
      rw [Bool.and_eq_true, decide_eq_true_eq, decide_eq_true_eq]; omega
  unfold State.memStore
  simp only [hw, Bool.false_eq_true, if_false]
  rfl

/-- Nor does firmware's store of them, to pages that are mapped and lines that the host does not hold. -/
theorem fwStore_bad {a : Word} {bs : List Byte} (hl : s.hostLines = []) (hm : s.addrMapped a bs.length = true) (h0 : bs.length ≠ 0) (h : bs.length < 64) :
    (s.fwStore a bs).bad = s.bad := by
  unfold State.fwStore
  cases ha : a.getLsbD 63
  · have hpages : ∀ i < ((a.extractLsb' 0 47).toNat + bs.length + 65535) / 65536 - (a.extractLsb' 0 47).toNat / 65536,
        s.mapped (((a.extractLsb' 0 47).toNat / 65536 + i) * 65536) = true := fun i hi => by
      simp only [State.addrMapped, ha, h0, decide_false, Bool.false_or] at hm
      exact List.all_eq_true.1 hm i (List.mem_range.2 (by omega))
    rw [if_neg Bool.false_ne_true, mapRange_mapped hpages, State.recallRange, hl]
    exact memStore_bad h _
  · rfl
end

/-! ## Error events -/

theorem length_bytesOfNat (n : Nat) : ∀ v, (bytesOfNat v n).length = n := by
  induction n with
  | zero => intro; rfl
  | succ n ih => intro v; rw [bytesOfNat, List.length_cons, ih]

theorem scrubEntry_length (block : Nat) (carve demand poisoned : Bool) (time : Word) (count cls : Nat) :
    (scrubEntry block carve demand poisoned time count cls).length = 32 := by
  simp [scrubEntry, length_bytesOfNat, repeatN]

/-- The class of an outcome at a block, or at a carve-out block. -/
def classOf (carve : Bool) (o : EccOutcome) : Option Nat := eccClass (if carve && o != .clean && o != .ce then .ue else o)

section
variable {s : State} {block : Nat} {carve demand : Bool} {o : EccOutcome}

theorem eccEvent_none (h : classOf carve o = none) : s.eccEvent block carve o demand = s := by
  unfold classOf at h
  rw [State.eccEvent, h]

/-- The state in which an event's blocks are poisoned, or its correction is counted. -/
def eccMarked (s : State) (block : Nat) (carve : Bool) (k : Nat) : State :=
  if k ≠ 0 then { s with bad := (eccBlocks block carve).foldl setIns s.bad } else s.modRect 0 fun r => { r with ce := r.ce + 1 }

theorem eccMarked_bad (s : State) (block : Nat) (carve : Bool) (k : Nat) :
    (eccMarked s block carve k).bad = if k = 0 then s.bad else (eccBlocks block carve).foldl setIns s.bad := by
  by_cases h : k = 0
  · rw [eccMarked, if_neg (not_not.2 h), if_pos h]; rfl
  · rw [eccMarked, if_pos h, if_neg h]

theorem eccMarked_frame (s : State) (block : Nat) (carve : Bool) (k : Nat) :
    ∃ bd rs, eccMarked s block carve k = { s with bad := bd, fw := { s.fw with rects := rs } } := by
  by_cases h : k = 0
  · rw [eccMarked, if_neg (not_not.2 h)]; exact ⟨_, _, rfl⟩
  · rw [eccMarked, if_pos h]; exact ⟨_, _, rfl⟩

/-- An event is counted and logged. -/
theorem eccEvent_some {k : Nat} (h : classOf carve o = some k) (hk : k < 4) : ∃ ent : List Byte, ent.length = 32 ∧
    s.eccEvent block carve o demand = ((eccMarked s block carve k).fwStore (ringAddr (eccMarked s block carve k).fw.scrubBase
      (eccMarked s block carve k).fw.scrubHead (eccMarked s block carve k).fw.scrubSlots 32) ent).modFw fun w =>
        { w with scrubEvents := (eccMarked s block carve k).fw.scrubEvents.set k ((eccMarked s block carve k).fw.scrubEvents[k]'hk + 1),
                 scrubHead := w.scrubHead + 1 } := by
  unfold classOf at h
  rw [State.eccEvent, h]
  dsimp only
  rw [dif_pos hk]
  exact ⟨_, scrubEntry_length _ _ _ _ _ _ _, rfl⟩

/-- Its count rises, and its blocks are poisoned but for a correction. -/
theorem eccEvent_scrubbed {k : Nat} (h : classOf carve o = some k) (hk : k < 4) (hs : ScrubStored s) :
    Scrubbed s (s.eccEvent block carve o demand) k ∧
      (s.eccEvent block carve o demand).bad = if k = 0 then s.bad else (eccBlocks block carve).foldl setIns s.bad := by
  obtain ⟨hl, hm⟩ := hs
  obtain ⟨ent, hlen, e⟩ := eccEvent_some (s := s) (block := block) (demand := demand) h hk
  rw [e, ← eccMarked_bad]
  obtain ⟨bd, rs, hv⟩ := eccMarked_frame s block carve k
  generalize eccMarked s block carve k = v at hv
  subst hv
  generalize ha : ringAddr s.fw.scrubBase s.fw.scrubHead s.fw.scrubSlots 32 = a at hm
  have hbad := fwStore_bad (s := { s with bad := bd, fw := { s.fw with rects := rs } }) (a := a) (bs := ent) hl (by rw [hlen]; exact hm) (by omega) (by omega)
  have hkeep := FirmKeeps.of_stores (fwStore_stores { s with bad := bd, fw := { s.fw with rects := rs } } a ent)
  refine ⟨⟨congrArg (· + 1) (hkeep.field fun w => w.scrubHead), ?_⟩, hbad⟩
  change (s.fw.scrubEvents.set k (s.fw.scrubEvents[k] + 1)).toList[k]? = _
  simp [hk]
end

/-! ## Reads by the scrubber -/

section
variable {s : State} {block : Nat}

/-- A clean carve-out block is read as it is. -/
theorem readCarve_clean {r : Nat} (h : s.carveOutcome r = .clean) (demand : Bool) : s.readCarve r demand = s := by
  rw [State.readCarve, h, eccEvent_none rfl, if_neg (by decide)]

/-- What a read of a block writes back leaves poison and firmware's state as the event left them. -/
theorem readData_event (s : State) (k : Nat) (demand : Bool) :
    (s.readData k demand).bad = (s.eccEvent k false (s.blockOutcome k).1 demand).bad ∧
      (s.readData k demand).fw = (s.eccEvent k false (s.blockOutcome k).1 demand).fw := by
  unfold State.readData
  dsimp only
  split <;> exact ⟨rfl, rfl⟩

/-- A block without errors is read as it is. -/
theorem readBlock_clean (hc : tblGet? s.carveUpsets (block / 64) = none) (hu : tblGet? s.upsets block = none) (demand : Bool) : s.readBlock block demand = s := by
  have hcarve := State.carveOutcome_clean hc
  rw [State.readBlock, hcarve, if_neg (by decide), readCarve_clean hcarve, State.readData, State.blockOutcome_clean hu hc]
  dsimp only
  rw [eccEvent_none rfl, hu, if_neg (by simp)]

/-- No errors appear. -/
theorem upset_none (s : State) (k : Nat) (co : Bool) : s.upset k co Upset.none = s := if_pos rfl

/-- The scrubber reads a block. -/
theorem execPatrolScrub_block (hen : s.fw.scrubEn = true) (hr : s.fw.ready = true) (h0 : block ≠ 0 ∨ s.fw.scrubPend = none) (hb : block < 0xBD00000000 / 64) :
    exec (.patrolScrub block false Upset.none) s = .next (s.readBlock block false) := by
  have hgo : (s.fw.scrubEn && s.fw.ready && decide (block < memBlocks)) = true := by
    rw [hen, hr, decide_eq_true (show block < memBlocks from hb)]; rfl
  change execPatrolScrub block false Upset.none s = _
  rcases h0 with h0 | h0
  · simp only [execPatrolScrub, upset_none, if_true, h0, decide_false, Bool.false_and, Bool.false_eq_true, if_false, hgo]
  · simp only [execPatrolScrub, upset_none, if_true, h0, ite_self, hgo, Bool.false_eq_true, if_false]

/-- The scrubber reads a carve-out block. -/
theorem execPatrolScrub_carve (hen : s.fw.scrubEn = true) (hr : s.fw.ready = true) (hb : block < 0xBD00000000 / 64) :
    exec (.patrolScrub block true Upset.none) s = .next (s.readCarve (block / 64) false) := by
  have hgo : (s.fw.scrubEn && s.fw.ready && decide (block < memBlocks)) = true := by
    rw [hen, hr, decide_eq_true (show block < memBlocks from hb)]; rfl
  change execPatrolScrub block true Upset.none s = _
  simp only [execPatrolScrub, upset_none, if_true, Bool.not_true, Bool.and_false, Bool.false_eq_true, if_false, hgo]

theorem Scrubbed.of_fw {s v u : State} {i : Nat} (h : Scrubbed s v i) (e : u.fw = v.fw) : Scrubbed s u i := by
  unfold Scrubbed at h ⊢; rwa [e]

/-- A block's outcome decides what its scrub leaves. -/
theorem patrolScrub_block (hen : s.fw.scrubEn = true) (hr : s.fw.ready = true) (h0 : block ≠ 0 ∨ s.fw.scrubPend = none) (hb : block < 0xBD00000000 / 64)
    (hc : tblGet? s.carveUpsets (block / 64) = none) (hs : ScrubStored s) :
    (tblGet? s.upsets block = none → exec (.patrolScrub block false Upset.none) s = .next s) ∧
    let poisoned (u : State) := ∀ b, b ∈ u.bad ↔ b = block ∨ b ∈ s.bad
    ∃ u, exec (.patrolScrub block false Upset.none) s = .next u ∧ match (s.blockOutcome block).1 with
      | .clean => u.bad = s.bad ∧ u.fw = s.fw
      | .ce => u.bad = s.bad ∧ Scrubbed s u 0
      | .ue => poisoned u ∧ Scrubbed s u 1
      | .tm => poisoned u ∧ Scrubbed s u 2
      | .both => poisoned u ∧ Scrubbed s u 3 := by
  refine ⟨fun hu => by rw [execPatrolScrub_block hen hr h0 hb, readBlock_clean hc hu], _, execPatrolScrub_block hen hr h0 hb, ?_⟩
  have hcarve := State.carveOutcome_clean hc
  rw [State.readBlock, hcarve, if_neg (by decide), readCarve_clean hcarve]
  obtain ⟨hbad, hfw⟩ := readData_event s block false
  have hpoison : ∀ {k}, classOf false (s.blockOutcome block).1 = some k → k < 4 → k ≠ 0 →
      (∀ b, b ∈ (s.readData block false).bad ↔ b = block ∨ b ∈ s.bad) ∧ Scrubbed s (s.readData block false) k := fun h hk hk0 => by
    obtain ⟨hscr, hb⟩ := eccEvent_scrubbed (block := block) (demand := false) h hk hs
    rw [if_neg hk0] at hb
    exact ⟨fun b => by rw [hbad, hb]; exact mem_setIns _ _ _, hscr.of_fw hfw⟩
  cases ho : (s.blockOutcome block).1 with
  | clean => rw [ho, eccEvent_none rfl] at hbad hfw; exact ⟨hbad, hfw⟩
  | ce =>
    obtain ⟨hscr, hb⟩ := eccEvent_scrubbed (block := block) (carve := false) (demand := false) (o := .ce) (k := 0) rfl (by decide) hs
    rw [ho] at hbad hfw
    exact ⟨hbad.trans hb, hscr.of_fw hfw⟩
  | ue => exact hpoison (by rw [ho]; rfl) (by decide) (by decide)
  | tm => exact hpoison (by rw [ho]; rfl) (by decide) (by decide)
  | both => exact hpoison (by rw [ho]; rfl) (by decide) (by decide)

/-- The blocks of a carve-out block's range. -/
theorem mem_eccBlocks_carve (r : Nat) (l : List Nat) (b : Nat) : b ∈ (eccBlocks (64 * r) true).foldl setIns l ↔ b / 64 = r ∨ b ∈ l := by
  refine (mem_foldl_setIns (fun k => k) _ l b).trans (or_congr_left ?_)
  simp only [eccBlocks, if_true, List.mem_map, List.mem_range]
  constructor
  · rintro ⟨_, ⟨i, hi, rfl⟩, rfl⟩; omega
  · intro h; exact ⟨b, ⟨b % 64, by omega, by omega⟩, rfl⟩

/-- Poison and firmware's state after a carve-out block's read. -/
theorem readCarve_event (s : State) (r : Nat) (demand : Bool) : (s.readCarve r demand).bad = (s.eccEvent (64 * r) true (s.carveOutcome r) demand).bad ∧
    (s.readCarve r demand).fw = (s.eccEvent (64 * r) true (s.carveOutcome r) demand).fw := by
  unfold State.readCarve
  dsimp only
  split <;> exact ⟨rfl, rfl⟩

/-- A carve-out block's outcome decides what its scrub leaves. -/
theorem patrolScrub_carve (hen : s.fw.scrubEn = true) (hr : s.fw.ready = true) (hb : block < 0xBD00000000 / 64) (hs : ScrubStored s) :
    ∃ u, exec (.patrolScrub block true Upset.none) s = .next u ∧ match s.carveOutcome (block / 64) with
      | .ce => u.bad = s.bad ∧ Scrubbed s u 0
      | .ue => (∀ b, b ∈ u.bad ↔ b / 64 = block / 64 ∨ b ∈ s.bad) ∧ Scrubbed s u 1
      | _ => u = s := by
  refine ⟨_, execPatrolScrub_carve hen hr hb, ?_⟩
  generalize block / 64 = r
  obtain ⟨hbad, hfw⟩ := readCarve_event s r false
  have hout : s.carveOutcome r = .ue ∨ s.carveOutcome r = .ce ∨ s.carveOutcome r = .clean := by
    unfold State.carveOutcome
    split
    · exact .inl rfl
    · split
      · exact .inr (.inl rfl)
      · exact .inr (.inr rfl)
  rcases hout with ho | ho | ho
  · obtain ⟨hscr, hb⟩ := eccEvent_scrubbed (block := 64 * r) (carve := true) (demand := false) (o := .ue) (k := 1) rfl (by decide) hs
    rw [ho] at hbad hfw ⊢
    exact ⟨fun b => by rw [hbad, hb, if_neg (by decide)]; exact mem_eccBlocks_carve r s.bad b, hscr.of_fw hfw⟩
  · obtain ⟨hscr, hb⟩ := eccEvent_scrubbed (block := 64 * r) (carve := true) (demand := false) (o := .ce) (k := 0) rfl (by decide) hs
    rw [ho] at hbad hfw ⊢
    exact ⟨hbad.trans hb, hscr.of_fw hfw⟩
  · rw [ho]
    exact readCarve_clean ho false

/-- Errors that appear first appear in the state. -/
theorem patrolScrub_upset (s : State) (block : Nat) (co : Bool) (u : Upset) :
    exec (.patrolScrub block co u) s = exec (.patrolScrub block co Upset.none) (s.upset block co u) := by
  change execPatrolScrub block co u s = execPatrolScrub block co Upset.none (s.upset block co u)
  rw [execPatrolScrub, execPatrolScrub, upset_none]

/-- A changed period takes effect with the first block. -/
theorem patrolScrub_period {h : Nat} {en : Bool} (hp : s.fw.scrubPend = some (h, en)) : exec (.patrolScrub 0 false Upset.none) s =
    exec (.patrolScrub 0 false Upset.none) { s with fw := { s.fw with scrubHours := h, scrubEn := en, scrubPend := none } } := by
  change execPatrolScrub 0 false Upset.none s =
    execPatrolScrub 0 false Upset.none { s with fw := { s.fw with scrubHours := h, scrubEn := en, scrubPend := none } }
  simp only [execPatrolScrub, upset_none, decide_true, Bool.not_false, Bool.and_self, if_true, hp, State.modFw]
end
end Sys2Proof.Claims
end

section
/-! PROOFS. A peer that goes down (R71) and the watershed's rounds (R131, R133). -/
namespace Sys2Proof.Claims
open Sys2Proof.Machine

/-! ## Peers -/

/-- Peers and gangs stay. -/
structure PeersStay (s u : State) : Prop where
  peers : u.fw.peers = s.fw.peers
  gangs : u.gangs = s.gangs

theorem PeersStay.refl (s : State) : PeersStay s s := ⟨rfl, rfl⟩
theorem PeersStay.trans {s u v : State} (h : PeersStay s u) (k : PeersStay u v) : PeersStay s v := ⟨k.peers.trans h.peers, k.gangs.trans h.gangs⟩

theorem PeersStay.foldl {α : Type} {f : State → α → State} (h : ∀ s a, PeersStay s (f s a)) (l : List α) (s : State) : PeersStay s (l.foldl f s) := by
  induction l generalizing s with
  | nil => exact .refl s
  | cons a l ih => exact (h s a).trans (ih _)

theorem PeersStay.ask (s : State) (src : Nat) (a : Ask) : PeersStay s (s.ask src a) := by
  refine ⟨(FirmKeeps.ask s src a).field fun w => w.peers, ?_⟩
  unfold State.ask
  extract_lets nd ns seq nd' parked r w u
  split
  · rfl
  · rw [(Injects.inject u (r.packet false) true).frame]; rfl

theorem PeersStay.sendRecord (s : State) (src dst : Nat) (vt : BitVec 32) (r : BitVec 128) : PeersStay s (s.sendRecord src dst vt r) := by
  unfold State.sendRecord
  split
  · unfold State.ownRecord
    dsimp only
    split <;> exact ⟨rfl, rfl⟩
  · exact .ask s src _

theorem PeersStay.answer (s : State) (k : Packet) (b : Body) (keep : Bool) : PeersStay s (s.answer k b keep) := by
  cases keep <;> exact ⟨rfl, rfl⟩

theorem PeersStay.answerDown (s : State) (n : Nat) (f : Fwd) : PeersStay s (s.answerDown n f) := by
  unfold State.answerDown
  extract_lets _ u
  have hu : PeersStay s u := ⟨rfl, rfl⟩
  split
  · exact hu.trans (.sendRecord _ _ _ _ _)
  · exact hu.trans (.answer _ _ _ _)

/-- A gang whose entries of a device have departed. -/
def gangWithout (dev : Nat) (g : Gang) : Gang :=
  if (g.entries.filter fun e => e.dev == dev).isEmpty then g
  else { g with departed := (g.entries.filter fun e => e.dev == dev).foldl (fun l e => setIns l e.member) g.departed, peerLost := true }

theorem gangWithout_departed {g : Gang} {dev : Nat} {e : GangEntry} (he : e ∈ g.entries) (hd : e.dev = dev) :
    (gangWithout dev g).id = g.id ∧ (gangWithout dev g).peerLost = true ∧ e.member ∈ (gangWithout dev g).departed := by
  have hm : e ∈ g.entries.filter fun e => e.dev == dev := List.mem_filter.2 ⟨he, beq_iff_eq.2 hd⟩
  have hne : ¬(g.entries.filter fun e => e.dev == dev).isEmpty = true := fun h => by
    rw [List.isEmpty_iff.1 h] at hm; cases hm
  rw [gangWithout, if_neg hne]
  exact ⟨rfl, rfl, (mem_foldl_setIns (fun e : GangEntry => e.member) _ _ _).2 (.inl ⟨e, hm, rfl⟩)⟩

/-- A live peer goes DOWN. -/
theorem peerDown_eq {s : State} {dev : Nat} (h : s.peerLive dev = true) (why : PeerReason) :
    ∃ v : State, PeersStay (s.modFw fun w => { w with peers := tblSet w.peers dev (false, why) }) v ∧
      s.peerDown dev why = { v with gangs := v.gangs.map (gangWithout dev) } := by
  unfold State.peerDown
  rw [h]
  refine ⟨_, PeersStay.foldl (fun s e => ?_) _ _, rfl⟩
  split
  · exact .foldl (fun s f => .answerDown s _ f) _ s
  · exact .refl s

theorem peerNotice_down {s : State} {dev : Nat} (hd : dev < 255) (h : s.peerLive dev = true) (why : PeerReason) :
    ∃ u, exec (.peerNotice dev why) s = .next u ∧ tblGet? u.fw.peers dev = some (false, why) ∧
      ∀ g ∈ s.gangs, ∀ e ∈ g.entries, e.dev = dev → ∃ g' ∈ u.gangs, g'.id = g.id ∧ g'.peerLost = true ∧ e.member ∈ g'.departed := by
  have e : exec (.peerNotice dev why) s = .next (s.peerDown dev why) := by
    change execPeerNotice dev why s = _
    rw [execPeerNotice, if_pos hd]
  obtain ⟨v, hv, hp⟩ := peerDown_eq h why
  refine ⟨_, e, ?_, fun g hg x hx hdev => ⟨gangWithout dev g, ?_, gangWithout_departed hx hdev⟩⟩
  · rw [hp, show ∀ l, ({ v with gangs := l } : State).fw = v.fw from fun _ => rfl, hv.peers]
    exact tblGet?_tblSet_same _ _ _
  · rw [hp]
    exact List.mem_map.2 ⟨g, by rw [hv.gangs]; exact hg, rfl⟩

/-! ## The publication of a round -/

section
variable {s : State}

/-- A GVT record meets its core's inbox. -/
theorem gvtRecord_core (s : State) (p : Nat) (g n : BitVec 32) : ∃ c : Core, s.gvtRecord p g n = s.setCore p c ∧ c.gvt = (s.core p).gvt ∧
    c.gvtRound = (s.core p).gvtRound ∧ c.latched = (s.core p).latched := by
  unfold State.gvtRecord Core.risen
  dsimp only
  split
  · split <;> exact ⟨_, rfl, rfl, rfl, rfl⟩
  · exact ⟨_, rfl, rfl, rfl, rfl⟩

/-- A core's GVT register takes the value and its round. -/
theorem coreGvt_core (s : State) (p : Nat) (g n : BitVec 32) : (s.coreGvt p g n).fw = s.fw ∧ (∀ q, q ≠ p → (s.coreGvt p g n).core q = s.core q) ∧
    ((s.coreGvt p g n).core p).gvt = g ∧ ((s.coreGvt p g n).core p).gvtRound = n ∧ ((s.coreGvt p g n).core p).latched = (s.core p).latched := by
  have hw := State.core_modCore_same s p fun c => { c with gvt := g, gvtRound := n }
  have ho := fun q (hq : q ≠ p) => State.core_modCore_other s p q (fun c => { c with gvt := g, gvtRound := n }) hq
  unfold State.coreGvt
  dsimp only
  have hfw : (s.modCore p fun c => { c with gvt := g, gvtRound := n }).fw = s.fw := rfl
  generalize (s.modCore p fun c => { c with gvt := g, gvtRound := n }) = w at hw ho hfw
  generalize (if (w.core p).vtStep = 0#32 then 1#32 else (w.core p).vtStep) = step
  split
  · obtain ⟨c, hc, h1, h2, h3⟩ := gvtRecord_core w p g n
    rw [hw] at h1 h2 h3
    rw [hc]
    refine ⟨hfw, fun q hq => ?_, ?_⟩
    · rw [State.core_modCore_other _ _ _ _ hq, State.core_setCore_other _ _ _ _ hq, ho q hq]
    · rw [State.core_modCore_same, State.core_setCore_same]; exact ⟨h1, h2, h3⟩
  · rw [hw]
    exact ⟨hfw, ho, rfl, rfl, rfl⟩

/-- Every active core of a list reads the value and its round; firmware's state and what the leaves latched stay. -/
theorem coreGvt_foldl (g n : BitVec 32) (l : List Nat) (s : State) :
    let u := l.foldl (fun s p => if s.active p then s.coreGvt p g n else s) s
    u.fw = s.fw ∧ (∀ p, (u.core p).latched = (s.core p).latched) ∧
      ∀ p, (p ∈ l ∧ s.active p = true) ∨ ((s.core p).gvt = g ∧ (s.core p).gvtRound = n) → (u.core p).gvt = g ∧ (u.core p).gvtRound = n := by
  induction l generalizing s with
  | nil => exact ⟨rfl, fun _ => rfl, fun p h => h.resolve_left fun h => absurd h.1 List.not_mem_nil⟩
  | cons a l ih =>
    intro u
    have hstep : ∃ v, u = l.foldl (fun s p => if s.active p then s.coreGvt p g n else s) v ∧ v.fw = s.fw ∧ (∀ p, (v.core p).latched = (s.core p).latched) ∧
        ∀ p, (p = a ∧ s.active a = true) ∨ ((s.core p).gvt = g ∧ (s.core p).gvtRound = n) → (v.core p).gvt = g ∧ (v.core p).gvtRound = n := by
      obtain ⟨hfw, hother, hg, hr, hl⟩ := coreGvt_core s a g n
      by_cases ha : s.active a = true
      · refine ⟨s.coreGvt a g n, by simp only [u, List.foldl_cons, if_pos ha], hfw, fun p => ?_, fun p hp => ?_⟩
        · by_cases e : p = a
          · rw [e, hl]
          · rw [hother p e]
        · by_cases e : p = a
          · rw [e]; exact ⟨hg, hr⟩
          · rw [hother p e]; exact hp.resolve_left fun h => e h.1
      · exact ⟨s, by simp only [u, List.foldl_cons, if_neg ha], rfl, fun _ => rfl, fun p hp => hp.resolve_left fun h => ha h.2⟩
    obtain ⟨v, hu, hfw, hlat, hset⟩ := hstep
    obtain ⟨kfw, klat, kset⟩ := ih v
    have hact : ∀ p, v.active p = s.active p := fun p => by rw [State.active, hfw]; rfl
    rw [hu]
    refine ⟨kfw.trans hfw, fun p => (klat p).trans (hlat p), fun p hp => kset p ?_⟩
    rcases hp with ⟨hp, ha⟩ | hp
    · rcases List.mem_cons.1 hp with rfl | hp
      · exact .inr (hset p (.inl ⟨rfl, ha⟩))
      · exact .inl ⟨hp, (hact p).trans ha⟩
    · exact .inr (hset p (.inr hp))

/-- The value that a round publishes. -/
def publishedGvt (s : State) (r : WsRound) : BitVec 32 :=
  if lowVt r.l r.ms = 0xFFFFFFFF#32 then s.fw.gvt else if s.fw.gvt.ult (lowVt r.l r.ms) then lowVt r.l r.ms else s.fw.gvt

theorem publish_fields (s : State) (r : WsRound) (forced : Bool) :
    (s.publish r forced).fw = { s.fw with gvt := publishedGvt s r, wsRound := r.k, wsCur := none, wsPub := s.time, wsForced := s.fw.wsForced || forced } ∧
    (∀ p, ((s.publish r forced).core p).latched = (s.core p).latched) ∧
    ∀ p, p < 1024 → s.active p = true → ((s.publish r forced).core p).gvt = publishedGvt s r ∧ ((s.publish r forced).core p).gvtRound = BitVec.ofNat 32 r.k := by
  obtain ⟨hfw, hlat, hset⟩ := coreGvt_foldl (publishedGvt s r) (BitVec.ofNat 32 r.k) (List.range 1024)
    (s.modFw fun w => { w with gvt := publishedGvt s r, wsRound := r.k, wsCur := none, wsPub := s.time, wsForced := w.wsForced || forced })
  exact ⟨hfw, hlat, fun p hp ha => hset p (.inl ⟨List.mem_range.2 hp, ha⟩)⟩

/-- GVT takes the round's bound where it is below the largest value and above GVT. -/
theorem publishedGvt_eq (s : State) (r : WsRound) : publishedGvt s r =
    (if (if r.ms.toNat < r.l.toNat then r.ms else r.l) ≠ 0xFFFFFFFF#32 ∧ s.fw.gvt.toNat < (if r.ms.toNat < r.l.toNat then r.ms else r.l).toNat then
      (if r.ms.toNat < r.l.toNat then r.ms else r.l) else s.fw.gvt) := by
  have hlow : lowVt r.l r.ms = if r.ms.toNat < r.l.toNat then r.ms else r.l := by simp [lowVt, BitVec.ult]
  rw [publishedGvt, hlow]
  generalize (if r.ms.toNat < r.l.toNat then r.ms else r.l) = b
  by_cases h : b = 0xFFFFFFFF#32
  · rw [if_pos h, if_neg fun e => e.1 h]
  · rw [if_neg h]
    simp [BitVec.ult, h]

theorem gvt_le_published (s : State) (r : WsRound) : s.fw.gvt.toNat ≤ (publishedGvt s r).toNat := by
  rw [publishedGvt_eq]
  generalize (if r.ms.toNat < r.l.toNat then r.ms else r.l) = b
  split
  next h => exact Nat.le_of_lt h.2
  · exact Nat.le_refl _

theorem publish_publishes (s : State) (r : WsRound) (forced : Bool) : Publishes s (s.publish r forced) r forced := by
  obtain ⟨hfw, -, hset⟩ := publish_fields s r forced
  unfold Publishes
  rw [hfw]
  exact ⟨publishedGvt_eq s r, rfl, rfl, rfl, rfl, hset⟩

/-! ## Rounds -/

/-- A round with new sums, at a time. -/
def summed (s : State) (r : WsRound) : WsRound :=
  { r with s := (s.sumCounts ((r.k + 1) % 2 == 1)).1, v := (s.sumCounts ((r.k + 1) % 2 == 1)).2, last := s.time }

theorem roundSums_equal {r : WsRound} (h : (s.sumCounts ((r.k + 1) % 2 == 1)).1 = (s.sumCounts ((r.k + 1) % 2 == 1)).2) :
    s.roundSums r = s.publish (summed s r) false := if_pos h
theorem roundSums_differ {r : WsRound} (h : (s.sumCounts ((r.k + 1) % 2 == 1)).1 ≠ (s.sumCounts ((r.k + 1) % 2 == 1)).2) :
    s.roundSums r = s.modFw fun w => { w with wsCur := some (summed s r) } := if_neg h

/-- What a core has latched as a round begins. -/
theorem latchRound_latched {p : Nat} {c : Core} (h : tblGet? s.cores p = some c) (k : Nat) : ((s.latchRound k).core p).latched = s.coreContribution p c := by
  simp [State.latchRound, State.core, tblGetD, h, State.coreContribution]

theorem latchRound_fw (s : State) (k : Nat) : (s.latchRound k).fw = { s.fw with colour := k % 2 == 1 } := rfl

/-- A round begins. -/
theorem execWatershedRound_begins (h0 : s.fw.wsCur = none) (hr : s.fw.ready = true) (ht : 2000 * (s.fw.wsRound + 1) ≤ s.time.toNat / 2000 * 2000)
    (hp : s.fw.wsPub.toNat ≤ s.time.toNat / 2000 * 2000) : ∃ r : WsRound, r.k = s.fw.wsRound + 1 ∧
    exec .watershedRound s = .next ((s.latchRound (s.fw.wsRound + 1)).roundSums r) := by
  have hgo : (s.fw.wsCur.isSome || decide (s.time.toNat / 2000 * 2000 < 2000 * (s.fw.wsRound + 1)) || decide (s.time.toNat / 2000 * 2000 < s.fw.wsPub.toNat) || !s.fw.ready) = false := by
    rw [h0, hr, decide_eq_false (Nat.not_lt.2 ht), decide_eq_false (Nat.not_lt.2 hp)]; rfl
  change ∃ r : WsRound, r.k = s.fw.wsRound + 1 ∧ execWatershedRound s = _
  rw [execWatershedRound, hgo, if_neg Bool.false_ne_true]
  exact ⟨_, rfl, rfl⟩

theorem watershedRound_round (h0 : s.fw.wsCur = none) (hr : s.fw.ready = true) (ht : 2000 * (s.fw.wsRound + 1) ≤ s.time.toNat / 2000 * 2000)
    (hp : s.fw.wsPub.toNat ≤ s.time.toNat / 2000 * 2000) : ∃ u, exec .watershedRound s = .next u ∧ u.fw.colour = ((s.fw.wsRound + 1) % 2 == 1) ∧
      (∀ p c, tblGet? s.cores p = some c → (u.core p).latched = s.coreContribution p c) ∧ s.fw.gvt.toNat ≤ u.fw.gvt.toNat ∧
      ((u.fw.wsRound = s.fw.wsRound + 1 ∧ u.fw.wsCur = none) ∨
       (u.fw.wsRound = s.fw.wsRound ∧ ∃ r, u.fw.wsCur = some r ∧ r.k = s.fw.wsRound + 1 ∧ r.s ≠ r.v)) := by
  obtain ⟨r, hk, e⟩ := execWatershedRound_begins h0 hr ht hp
  refine ⟨_, e, ?_⟩
  have hfw := latchRound_fw s (s.fw.wsRound + 1)
  have hlat := fun p c (h : tblGet? s.cores p = some c) => latchRound_latched h (s.fw.wsRound + 1)
  generalize s.latchRound (s.fw.wsRound + 1) = v at hfw hlat
  by_cases hs : (v.sumCounts ((r.k + 1) % 2 == 1)).1 = (v.sumCounts ((r.k + 1) % 2 == 1)).2
  · obtain ⟨pfw, plat, -⟩ := publish_fields v (summed v r) false
    have hgvt := gvt_le_published v (summed v r)
    rw [roundSums_equal hs]
    rw [pfw]
    rw [hfw] at hgvt ⊢
    exact ⟨rfl, fun p c h => (plat p).trans (hlat p c h), hgvt, .inl ⟨hk, rfl⟩⟩
  · rw [roundSums_differ hs]
    refine ⟨by rw [State.modFw, hfw], hlat, ?_, .inr ⟨?_, summed v r, rfl, hk, hs⟩⟩
    · rw [State.modFw, hfw]
    · rw [State.modFw, hfw]

theorem watershedRereduce_sums {r : WsRound} (hc : s.fw.wsCur = some r) (ht : 100 ≤ (s.time - r.last).toNat) :
    let x := s.sumCounts ((r.k + 1) % 2 == 1)
    ∃ u, exec .watershedRereduce s = .next u ∧ (x.1 = x.2 → Publishes s u r false) ∧
      (x.1 ≠ x.2 → u = { s with fw := { s.fw with wsCur := some { r with s := x.1, v := x.2, last := s.time } } }) := by
  intro x
  have e : exec .watershedRereduce s = .next (s.roundSums r) := by
    change execWatershedRereduce s = _
    simp only [execWatershedRereduce, hc, if_pos ht]
  refine ⟨_, e, fun h => ?_, fun h => roundSums_differ h⟩
  rw [roundSums_equal h]
  exact publish_publishes s (summed s r) false

theorem execWatershedForced_due {r : WsRound} (hc : s.fw.wsCur = some r) (ht : 100000 ≤ (s.time - r.at0).toNat) :
    ∃ u, exec .watershedForced s = .next u ∧ Publishes s u r true := by
  refine ⟨_, ?_, publish_publishes s r true⟩
  change execWatershedForced s = _
  simp only [execWatershedForced, hc, if_pos ht]

theorem execWatershedForced_early {r : WsRound} (hc : s.fw.wsCur = some r) (ht : (s.time - r.at0).toNat < 100000) : exec .watershedForced s = .next s := by
  change execWatershedForced s = _
  simp only [execWatershedForced, hc, if_neg (Nat.not_le.2 ht)]
end
end Sys2Proof.Claims
end

section
namespace Sys2Proof
open Sys2Proof.Machine Sys2Proof.Claims

/-- Settles O46, step by step: links, reroutes and lost notices, the counter grid, the scrubber, peers and the watershed. -/
theorem linksFailAndFirmwareGoesOn : Obligations.LinksFailAndFirmwareGoesOn := by
  refine ⟨fun s p pl hp h => execStarveAssert_asserts hp h, fun s p d pl err x hp hd herr hon => ⟨fun hn => ?_, fun hn => ?_⟩,
    fun s p d pl hp hd => ⟨execLinkHandshakeTimeout_dies hp hd, execLinkTrainingLoss_dies hp hd⟩, fun s k p pl d h => execLinkDead_pauses h,
    fun s p h => execInjPause_pauses h, fun s p h => execInjResume_resumes h, fun s reported hr hd => rerouteDrainEnd_resumes hr hd,
    fun s reported hr hd => execRerouteDrainEnd_waits hr hd,
    fun s k n x hk => ⟨fun r hn hm ht => execLostNotice_resends hk hn hm ht, fun hn ha hm hf hfree hr hv => execLostNotice_records hk hn ha hm hf hfree hr hv⟩,
    fun s p h => gridLatch_latches h, fun s ht hr => counterGridTimer_latches ht hr,
    fun s block hen hr h0 hb hc hs => patrolScrub_block hen hr h0 hb hc hs, fun s block hen hr hb hs => patrolScrub_carve hen hr hb hs,
    patrolScrub_upset, fun s h en hp => patrolScrub_period hp, fun s dev why hd h => peerNotice_down hd h why,
    fun s h0 hr ht hp => watershedRound_round h0 hr ht hp,
    fun s r hc => ⟨watershedRereduce_sums hc, execWatershedForced_due hc, execWatershedForced_early hc⟩⟩
  · refine ⟨_, (execLinkReplay_eq hp hd herr hon).trans (if_neg (by omega)), ?_, refusals_replayed _ _ _ _ _ _, tblGetD_tblSet_same _ _ _ _, ?_, rfl, rfl⟩
    · exact tblGetD_tblSet_same _ _ _ _
    · simp only [replayed, beq_iff_eq]
  · exact ⟨_, (execLinkReplay_eq hp hd herr hon).trans (if_pos (by omega)), linkDies_dies hp hd _⟩
end Sys2Proof
end

section
/-! PROOFS. DEBUG STOP of a group one of whose threads runs at another core: its STOP record goes to that core's trace (R89, R155, R221, R226). -/
namespace Sys2Proof.Claims
open Sys2Proof.Machine

/-- The entry of DEBUG STOP: logical core 0 under launch 1, group slot 0 (R89). -/
def stopEntry : List Byte := [0x0F#8, 0#8, 1#8, 0#8, 1#8] ++ repeatN 0#8 19 ++ [1#8] ++ repeatN 0#8 39
/-- A queue with the entry at its head. -/
def stopQueue : Queue := { Queue.none with
  base := 0x8000000000000000#64, cbase := 0x8000000000010000#64, sub := 0x8000000000020000#64, stat := 0x8000000000020040#64, size := 0x404#64,
  en := true, state := 1, pending := [(0, stopEntry)], rp := 1 }
/-- A launch on cores 0 and 1. -/
def twoCores : Launch := blankLaunch 1 [0, 1] [(0, 0), (1, 0)] false
/-- A group of one thread of the launch, which runs. -/
def strayGroup : Group :=
  { gid := 0, lid := 1, base := 0, len := 0x1000, gen := 1, lowSlot := 0, size := 1, nvec := 0, nomad := true, record := plainRecord 0x1000#64, member := none,
    spans := [], tvec := 0#64, binds := [], arrivals := [], barX := [], barT := [], exited := 0, order := 0, dying := none, drain := 0, indet := 0,
    badList := [], stopAt := 0#64, stopped := none, stepping := false, detached := false, heldExit := false, check := none, digest := 0#128, heldDecs := [] }
/-- The group's thread, at home in slot 0 of core 0 (R155). -/
def strayThread : Thread := { startThread twoCores strayGroup.record (fun _ => 0#64) 0 0 0 none 0#64 with nomad := true, home := some (0, 0) }
/-- The group is core 0's, whose stops stay at the core (DBGCTL.SCOPE 2); its thread has moved to core 1, which traces stops (TRCCTL.EN and TRAP, R226). -/
def strayed : State :=
  { State.reset with
    launches := [twoCores],
    cores := [(0, { Core.reset with lid := 1, groups := [strayGroup], nextGid := 1, dbgctl := 8#64 }),
              (1, { Core.reset with lid := 1, lcore := 1, threads := [(0, strayThread)], trcctl := 5#64 })],
    fw := { Firm.reset with queues := [(0, stopQueue)], ready := true, phase := 8, linkUp := true, features := 63#6 } }

theorem strayed_names : Names4 strayed 0 0 stopEntry 1 0 twoCores 0 := by
  unfold Names4 Heads; decide +kernel
theorem strayed_target : TargetGroup strayed 0 twoCores stopEntry strayGroup := by
  unfold TargetGroup; decide +kernel
theorem strayed_tables : TablesWf strayed := by
  unfold TablesWf; decide +kernel
/-- Memory after an outcome's step. -/
def memAfter : Out → Option Memory
  | .next u => some u.mem
  | _ => none
/-- The STOP record is stored at core 1's TRCBASE, in a page that memory takes for it. -/
theorem strayed_stop_stores : memAfter (exec (.debugStop 0) strayed) ≠ some strayed.mem := by decide +kernel
end Sys2Proof.Claims
end

section
namespace Sys2Proof
open Sys2Proof.Machine Sys2Proof.Claims

/-- Refutes O54: a thread of the stopped group runs at another core that traces stops, and its STOP record goes to memory, which the statement says stays. -/
theorem not_debugStopsAndResumesGroups : ¬ Obligations.DebugStopsAndResumesGroups := by
  unfold Obligations.DebugStopsAndResumesGroups
  rintro ⟨-, hstop, -⟩
  obtain ⟨-, hruns⟩ := hstop strayed 0 0 stopEntry twoCores 0 strayGroup strayed_names strayed_target (by decide)
  obtain ⟨u, -, hu, -, hmem, -⟩ := hruns rfl (by decide) rfl rfl strayed_tables (by decide +kernel) (by decide +kernel)
  exact strayed_stop_stores (by rw [hu, ← hmem, memAfter])
end Sys2Proof
end
